-- ==== Sys2Proof/Word.lean ====
section
/-! DEFINITION. The plain widths of the VX-960: a byte of memory, a 32-bit register of BAR0 (R44) and a
64-bit device address (R26). -/

namespace Sys2Proof

/-- A byte of memory (00_scope.md, Numbers and units). -/
abbrev Byte := BitVec 8

/-- A register of BAR0 (R44). -/
abbrev Word := BitVec 32

end Sys2Proof
end

