-- ==== Sys2Proof/Syntax.lean ====
section
/-! DEFINITION. The commands that act on the VX-960, one constructor per row of the opcode table: writes of its
registers, messages on its links, and events of its pins, timers and engines, each with the operands its rule names. -/

namespace Sys2Proof

/-- A residue failure of a slice: the stage of R240, the arithmetic unit, the line, and for stages 7–9 the tap. -/
structure ResFail where
  stage : Nat
  unit : Nat
  line : Nat
  tap : Nat
  deriving DecidableEq, Repr

/-- What a line meets in its slice: whether it finds the input queue full (R274), a residue failure (R266), and an
uncorrectable word in the slice's buffers (bank, word, whether the reread fails) (R341). -/
structure LineEnv where
  queueFull : Bool
  residue : Option ResFail
  sump : Option (Nat × Nat × Bool)
  deriving DecidableEq, Repr

/-- What decoding one access unit, temporal unit or host-parsed picture comes to under its standard (R514–R518), which the
manual names and does not restate: the DETAIL it fails with (0 none), bytes consumed, the size of its pictures, how many
frames it holds, whether it references a picture that is absent and not generated by the standard, whether the standard
discards it, the hash message (0 none, 1 matches, 2 does not), film grain, CTUs concealed, ORDER, picture type, mean QP × 16,
the slot map after it, and the buffers that become ready for output, in order. -/
structure DecUnit where
  fail : Nat
  consumed : Nat
  width : Nat
  height : Nat
  frames : Nat
  refMissing : Bool
  skipped : Bool
  hash : Nat
  grain : Bool
  concealed : Nat
  order : Nat
  ptype : Nat
  meanQp : Nat
  map : List Nat
  out : List Nat
  deriving DecidableEq, Repr

/-- A command of the VX-960: one constructor per row of the opcode table. A row's summary stands above it, with the
rule it follows. -/
inductive Instr where
  /-- REGISTER_WRITE (R4): A host write to a register or field that has no row of its own takes effect according to its access code (RW, W1C, WO, RW1S). -/
  | registerWrite (off : Fin 0x4000000) (data : List (Option Byte))
  /-- RC_READ (R6): A read of an RC field returns its value and clears it, and an event in the same cycle is carried into the next read. -/
  | rcRead (off : Fin 0x4000000) (len : Fin 4097)
  /-- ENABLE (R39): A PAGE_CTRL write that sets ENABLE starts the block, after the checks of R40 and the block's own refusals. -/
  | enable (n : Fin 111)
  /-- DISABLE (R39): A PAGE_CTRL write that clears ENABLE makes the block finish the work at hand and stop at its next hand-over point. -/
  | disable (n : Fin 111)
  /-- BLOCK_STOPPED (R58): A disabled block reaches its stop and clears PAGE_STAT.BUSY, applying any pending commit at that instant. -/
  | blockStopped (n : Fin 111)
  /-- SOFT_RESET (R41): A write of PAGE_CTRL.SOFT_RESET starts a block reset that returns the registers at 0x100 and above to their reset values. -/
  | softReset (n : Fin 111)
  /-- SOFT_RESET_DONE (R41): The block reset completes and the device clears SOFT_RESET. -/
  | softResetDone (n : Fin 111)
  /-- POWER_REQ (R779): A write of PAGE_CTRL.POWER_REQ requests that the block's domain power on or off, subject to domain sharing. -/
  | powerReq (n : Fin 111) (req : Fin 4)
  /-- BAD_WRITE_CLR (R43): A write of PAGE_CTRL.BAD_WRITE_CLR clears BAD_WRITE, BAD_CAUSE and BAD_OFFSET. -/
  | badWriteClr (n : Fin 111)
  /-- IRQ_FORCE (R63): A write of 1 to an IRQ_FORCE bit sets the matching IRQ_STAT bit as a device event would. -/
  | irqForce (n : Fin 111) (value : Word)
  /-- COMMIT (R52): A write of SHADOW_COMMIT.COMMIT validates the shadow set and, when accepted, increments REQ and sets COMMIT_PEND. -/
  | commit (n : Fin 111)
  /-- REVERT (R51): A write of SHADOW_COMMIT.REVERT copies the active set back into the shadow set. -/
  | revert (n : Fin 111)
  /-- IRQ_HOLDOFF_END (R61): When the holdoff ends, the device sends one message merging those that fell due during it. -/
  | irqHoldoffEnd (n : Fin 111)
  /-- MSIX_UNMASK (R62): Unmasking a vector, setting MSI-X Enable or clearing the Function Mask sends the messages pending in the Pending Bit Array. -/
  | msixUnmask (enable functionMask : Bool) (vector : Option (Fin 256))
  /-- QUAD_ROLE_WRITE (R103): A write of LNK_QUAD_CFG moves an Ethernet half-port onto a head-slot quad or back, and loads the lane sources' defaults. -/
  | quadRoleWrite (q : Fin 24) (value : Word)
  /-- PLL_LOCK_LOSS (R108): The active PLL of a quad loses lock, and the quad moves to the reserve PLL within 300 ns. -/
  | pllLockLoss (q : Fin 24) (pllB : Bool)
  /-- PLL_RELOCK_END (R110): The 10 ms relock of a failed PLL ends, making it the reserve or lasting failed, and a Bittern event is reported. -/
  | pllRelockEnd (q : Fin 24) (pllB locked : Bool)
  /-- CTRL_PRESET_MOVE (R115): 1 ms after a band change, the control transmitter of head lane 11 moves to the new default preset. -/
  | ctrlPresetMove (h : Fin 4)
  /-- TRAINING_START (R121): A write of LNK_LANE_TRAIN.START starts a training search on the lane, waking its receiver if it failed before. -/
  | trainingStart (lane : Fin 96) (autoRetry : Bool)
  /-- PRESET_ATTEMPT_END (R118): A preset attempt ends with its bit check and margin test, passing the training or moving to the next preset. -/
  | presetAttemptEnd (lane : Fin 96) (errors : Bool) (height width : Byte)
  /-- AUTO_RETRY (R121): Every 10 s, up to six times, a failed lane with AUTO_RETRY is woken and searched again. -/
  | autoRetry (lane : Fin 96)
  /-- PSTATE_TARGET_WRITE (R127): A write of LNK_LANE_PWR sets new target power states for a lane's receiver and transmitter. -/
  | pstateTargetWrite (lane : Fin 96) (value : Word)
  /-- PSTATE_REACHED (R126): A lane half completes its power-state transition, and PSTATE_DONE rises when every lane of the quad has reached its target. -/
  | pstateReached (lane : Fin 96) (tx : Bool)
  /-- LOS_ASSERT (R131): A receiver's amplitude stays below LOS_THRESH for 200 ns, setting LOS and informing the owner. -/
  | losAssert (lane : Fin 96) (settling : Bool)
  /-- LOS_DEASSERT (R131): The amplitude stays above 1.25 × LOS_THRESH for 10 µs and LOS deasserts. -/
  | losDeassert (lane : Fin 96)
  /-- LOL_ASSERT (R131): The recovered clock departs by more than 500 ppm or the level detector loses its levels, setting LOL. -/
  | lolAssert (lane : Fin 96) (settling : Bool)
  /-- LOL_DEASSERT (R131): Lock holds for 20 µs and LOL deasserts. -/
  | lolDeassert (lane : Fin 96)
  /-- CALIBRATION_DUE (R135): A receiver in P0 falls due for its slicer calibration once per CAL_PERIOD. -/
  | calibrationDue (lane : Fin 96)
  /-- SLICER_CAL_DONE (R134): An in-traffic calibration of a receiver's slicers completes, with the auxiliary sampler swapped back. -/
  | slicerCalDone (lane : Fin 96)
  /-- MARGIN_VISIT_DONE (R136): A background margin visit ends and writes its result into LNK_MARGIN with AGE 0. -/
  | marginVisitDone (lane : Fin 96) (height width : Byte)
  /-- SCAN_START (R140): A write of LNK_SCAN_CTRL.START begins a point scan of one receiver. -/
  | scanStart (q : Fin 24) (value : Word)
  /-- SCAN_POINT_DONE (R148): A scan point completes after its dwell, setting DONE and LNK_SCAN_ERR. -/
  | scanPointDone (q : Fin 24) (errors : Nat)
  /-- PRBS_CHECKER_LOCK (R142): The checker sees 64 consecutive error-free bits and declares lock. -/
  | prbsCheckerLock (lane : Fin 96)
  /-- PRBS_CHECKER_UNLOCK (R142): 64 errors within 1,024 bits clear LOCK, stop the counters and resynchronise. -/
  | prbsCheckerUnlock (lane : Fin 96) (errors bits : Nat)
  /-- PRBS_CLEAR (R149): A write of LNK_PRBS_CTRL.CLEAR zeroes both PRBS counters. -/
  | prbsClear (lane : Fin 96) (value : Word)
  /-- PRBS_SINGLE_INJECT (R143): A write of LNK_PRBS_INJ.SINGLE inverts the next generated bit. -/
  | prbsSingleInject (lane : Fin 96)
  /-- PRBS_RATE_INJECT (R143): A write of LNK_PRBS_INJ.RATE sets periodic injection of one inverted bit every 2^RATE bits. -/
  | prbsRateInject (lane : Fin 96) (rate : Fin 64)
  /-- ETH_LANE_TRAINING_END (R125): Ethernet auto-negotiation and link training end, passing or failing the lane. -/
  | ethLaneTrainingEnd (lane : Fin 96) (pass : Bool)
  /-- COMMA_RECEIVED (R158): A comma block arrives on a lane, updating block and comma lock, skew, ICHK verification and role changes. -/
  | commaReceived (h : Fin 4) (lane : Fin 12) (payload : BitVec 128) (interval : List (BitVec 130)) (skewPs : Nat)
  /-- SYNC_HEADER_ERROR (R168): A block arrives with an invalid sync header and is counted toward the lane-loss rule. -/
  | syncHeaderError (h : Fin 4) (lane : Fin 12)
  /-- STRIPE_DELIVERY (R160): 1,100 block times after its arrival, a stripe is delivered to ingest, verified or rebuilt from parity. -/
  | stripeDelivery (h : Fin 4) (number : BitVec 34) (blocks : List (BitVec 130)) (env : LineEnv)
  /-- STANDBY_READY_REMAP (R171): Once the trained standby regains comma lock, the device sends REMAP naming the role, the lane and an SFC 16 ahead. -/
  | standbyReadyRemap (h : Fin 4)
  /-- MSG_RESEND_TIMER (R177): After 50 µs without an answer the sender resends from the oldest unanswered message. -/
  | msgResendTimer (h : Fin 4)
  /-- HEAD_ACK (R177): An upstream ACK answers a downstream sequenced message. -/
  | headAck (h : Fin 4) (seq : BitVec 16)
  /-- HEAD_NACK (R181): An upstream NACK answers a downstream message with a reason, and is queued for the host when it answers a host message. -/
  | headNack (h : Fin 4) (seq : BitVec 16) (reason : Byte)
  /-- READ_RSP (R201): A READ_RSP returns a head register, consumed by CAPS or placed in the receive queue. -/
  | readRsp (h : Fin 4) (seq : BitVec 16) (addr : BitVec 24) (data : Word)
  /-- TIME_T2 (R183): The head reports its arrival time t2 of a probe and the copy it used. -/
  | timeT2 (h : Fin 4) (seq probeId : BitVec 16) (ns : Word) (frac : BitVec 16) (copyB : Bool)
  /-- TIME_T3 (R184): The head reports t3, completing a probe, and the device computes CWY_OWD and CWY_OFFSET for the head servo. -/
  | timeT3 (h : Fin 4) (seq probeId : BitVec 16) (ns : Word) (frac : BitVec 16)
  /-- HEAD_STATUS (R181): A STATUS message from the head updates CWY_HEAD_ERR and the time-valid state. -/
  | headStatus (h : Fin 4) (seq errA errB : BitVec 16) (timeValid : Bool)
  /-- SET_APPLIED (R230): A SET_APPLIED event sets ING_SET_STAT to APPLIED. -/
  | setApplied (h : Fin 4) (seq setId : BitVec 16) (hfc : Word)
  /-- SET_LATE (R230): A SET_LATE event sets ING_SET_STAT to LATE with the HFC that received the set. -/
  | setLate (h : Fin 4) (seq setId : BitVec 16) (hfc : Word)
  /-- HEAD_EVENT (R201): A head EVENT other than the SET events is placed in the receive queue. -/
  | headEvent (h : Fin 4) (seq : BitVec 16) (code : Byte) (detail : BitVec 72)
  /-- UNKNOWN_UPSTREAM_MSG (R181): An upstream message of an undefined MTYPE is treated as sequenced and answered NACK UNSUPPORTED. -/
  | unknownUpstreamMsg (h : Fin 4) (seq : BitVec 16)
  /-- HREG_WRITE (R190): The head writes a head register, answering ACK or NACK BAD_ADDR. -/
  | hregWrite (h : Fin 4) (seq : BitVec 16) (addr : BitVec 24) (data : Word)
  /-- HREG_READ (R190): The head reads a head register and answers with READ_RSP. -/
  | hregRead (h : Fin 4) (seq : BitVec 16) (addr : BitVec 24)
  /-- SET_WRITE (R189): The head stores one write of a set identified by SET_ID. -/
  | headSetWrite (h : Fin 4) (seq : BitVec 16) (addr : BitVec 24) (data : Word) (setId : BitVec 16)
  /-- SET_COMMIT (R189): The head applies the named set to the exposure with the named HFC, or answers SET_INCOMPLETE. -/
  | headSetCommit (h : Fin 4) (seq setId count : BitVec 16) (hfc : Word)
  /-- TIME_PROBE (R183): The head stamps t2 for a probe and answers with TIME_T2 and TIME_T3. -/
  | headTimeProbe (h : Fin 4) (seq probeId : BitVec 16) (residence : Word)
  /-- TIME_SEC (R180): The head stages the seconds for the next TIME_LOAD. -/
  | headTimeSec (h : Fin 4) (seq : BitVec 16) (seconds : BitVec 48)
  /-- TIME_LOAD (R182): The head loads its time counter at the named comma. -/
  | headTimeLoad (h : Fin 4) (seq : BitVec 16) (ns : Word) (frac : BitVec 16) (sfc : BitVec 24)
  /-- TIME_STEP (R182): The head steps its time counter by OFFSET at the named comma. -/
  | headTimeStep (h : Fin 4) (seq : BitVec 16) (offset : BitVec 48) (sfc : BitVec 24)
  /-- TIME_RATE (R182): The head sets the rate at which its time counter advances. -/
  | headTimeRate (h : Fin 4) (seq : BitVec 16) (rate : Word)
  /-- EXP_START (R186): The head schedules one exposure or a periodic series at time T, or answers NACK LATE, TOO_SOON or BUSY. -/
  | expStart (h : Fin 4) (seq secLo : BitVec 16) (ns : Word) (frac : BitVec 16) (periodic replace : Bool)
  /-- EXP_PERIOD (R186): The head records the period and count for the next periodic EXP_START. -/
  | expPeriod (h : Fin 4) (seq : BitVec 16) (ns : Word) (frac : BitVec 16) (count : Word)
  /-- EXP_STOP (R188): The head prevents every exposure that would start at or after T, or at once with NOW. -/
  | expStop (h : Fin 4) (seq secLo : BitVec 16) (ns : Word) (frac : BitVec 16) (now : Bool)
  /-- STREAM (R186): The head starts or stops sending frames according to RUN. -/
  | headStream (h : Fin 4) (seq : BitVec 16) (run : Bool)
  /-- TRAIN (R178): The head sends PRBS31Q on the named lane, or resumes blocks, within 10 µs. -/
  | headTrain (h : Fin 4) (lane : Fin 12) (on : Bool)
  /-- PRESET (R179): The head applies the named transmit preset on the lane within 10 µs. -/
  | headPreset (h : Fin 4) (lane : Fin 12) (index : Fin 8) (pre post : Fin 16)
  /-- REMAP (R172): The head moves a role onto a new lane at the comma whose SFC the message names. -/
  | headRemap (h : Fin 4) (role : Fin 11) (lane : Fin 12) (sfc : BitVec 24)
  /-- STANDBY (R173): The head starts sending standby blocks on the named lane from the named comma. -/
  | headStandby (h : Fin 4) (lane : Fin 12) (sfc : BitVec 24)
  /-- EXPOSURE_START (R185): A scheduled exposure begins at the head and takes the next HFC, unless RUN is 0. -/
  | exposureStart (h : Fin 4)
  /-- PROBE_TIMER (R197): Every CWY_PROBE_CFG.PERIOD ms while UP, the device sends a TIME_PROBE. -/
  | probeTimer (h : Fin 4)
  /-- PROBE_LOST_TIMER (R589): A probe with no TIME_T3 within 100 µs is lost and counted. -/
  | probeLostTimer (h : Fin 4)
  /-- SERVO_HOLD_TIMER (R588): With no probe result for 1 s the head servo enters HOLD. -/
  | servoHoldTimer (h : Fin 4)
  /-- FEED_ON (R194): A write of CWY_FEED_CTRL.REQ ON requests the head feed, waiting 10 ms after any other feed rose. -/
  | feedOn (h : Fin 4)
  /-- FEED_OFF (R196): A write of CWY_FEED_CTRL.REQ OFF drives HEAD_FEED_EN low at once and takes the link to OFF. -/
  | feedOff (h : Fin 4)
  /-- FEED_PENDING_RAISE (R194): A pending feed request is served once the 10 ms spacing after the previous feed has passed. -/
  | feedPendingRaise (h : Fin 4)
  /-- FEED_FAULT (R195): HEAD_FEED_FLT_N stays low for 2 µs, so the feed is turned off, a holdoff starts and the link goes DOWN. -/
  | feedFault (h : Fin 4)
  /-- FEED_HOLDOFF_END (R195): The 500 ms feed holdoff ends and a new ON request may be accepted. -/
  | feedHoldoffEnd (h : Fin 4)
  /-- CTRL_UP_TIMER (R197): 100 ms after CTRL_UP the link enters TRAINING and the message numbering restarts. -/
  | ctrlUpTimer (h : Fin 4)
  /-- LINK_ALIGNED (R197): ALIGNING ends with roles assigned, entering CAPS or DOWN. -/
  | linkAligned (h : Fin 4)
  /-- LINK_RESTART (R202): A write of CWY_CTRL.RESTART restarts the link from DOWN into CTRL_UP. -/
  | linkRestart (h : Fin 4) (value : Word)
  /-- CWY_TXQ_PUSH (R200): A write of CWY_TXQ_PUSH queues a host message downstream, or is refused. -/
  | cwyTxqPush (h : Fin 4)
  /-- CWY_RXQ_POP (R200): A write of CWY_RXQ_POP discards the oldest receive-queue entry. -/
  | cwyRxqPop (h : Fin 4)
  /-- FRAME_START_STRIPE (R214): A FRAME_START stripe arrives, so ingest numbers the frame, checks the HFC gap and applies the hand-over point. -/
  | frameStartStripe (h : Fin 4) (hfc : Word) (setId width height : BitVec 16) (depth : Fin 4) (expDur : Word) (expSec : BitVec 48) (expNs : Word) (expFrac : BitVec 16)
  /-- LINE_STRIPE (R210): A LINE stripe arrives and starts a line, or reveals a repeated, skipped or excess line. -/
  | lineStripe (h : Fin 4) (num width : BitVec 16) (hfc : Word)
  /-- DATA_STRIPE (R206): A data stripe arrives, carrying photosites of the current line, or is discarded as stray. -/
  | dataStripe (h : Fin 4) (bytes : Vector Byte 160) (env : LineEnv)
  /-- FRAME_END_STRIPE (R208): A FRAME_END stripe closes the frame and is the latch instant of the next frame. -/
  | frameEndStripe (h : Fin 4) (hfc : Word) (lines : BitVec 16) (flags : Byte)
  /-- MSG_STRIPE (R176): A MSG stripe arrives carrying up to ten upstream messages. -/
  | msgStripe (h : Fin 4) (slots : List (BitVec 128))
  /-- FRAME_TIMEOUT (R210): No stripe of a frame arrives for TIMEOUT, so ingest closes the frame NO_END; while waiting for a FRAME_START this also makes a latch instant. -/
  | frameTimeout (h : Fin 4)
  /-- INGEST_STOP_DEADLINE (R219): A frame still open P after the host cleared ENABLE is abandoned with HOST_STOP. -/
  | ingestStopDeadline (h : Fin 4)
  /-- STATS_BLOCK_WRITTEN (R236): Within 20 µs of a frame closing, its statistics block is visible, ING_STAT_WR advances and STATS_READY rises. -/
  | statsBlockWritten (h : Fin 4)
  /-- ING_NEXT_SEQ_WRITE (R217): An 8-byte write of ING_NEXT_SEQ while stopped sets the next FRAME_SEQ, never backward. -/
  | ingNextSeqWrite (h : Fin 4) (v : BitVec 64)
  /-- ABN_POP (R238): A write of ING_ABN_CTRL.POP frees the oldest abandon-log entry. -/
  | abnPop (h : Fin 4)
  /-- ABN_CLR_OVF (R238): A write of ING_ABN_CTRL.CLR_OVF clears OVERFLOW and ends the liveness of the head's ABANDON journal entries. -/
  | abnClrOvf (h : Fin 4)
  /-- RECOMPUTE_DONE (R266): PS4 finishes recomputing a line and writes it over the original in the sink before release. -/
  | recomputeDone (fails : Bool)
  /-- RECOMPUTE_DEADLINE (R268): A recompute that cannot finish before its release deadline is abandoned and its lines flagged UNRECOVERED. -/
  | recomputeDeadline
  /-- PATROL_RECOMPUTE (R89): An idle PS4 recomputes one line in every 64 of each bound head and checks its own residues. -/
  | patrolRecompute (fail : Option ResFail) (repeats : Bool)
  /-- LINE_RELEASE (R265): 64 committed line times after its support entered, a tap output line is released to readers. -/
  | lineRelease (p : Fin 5) (t : Fin 4) (fail : Option ResFail)
  /-- TBL_LOAD_START (R255): A write of PSL_TBL_LOAD.START begins reading the table image into the pending copy. -/
  | tblLoadStart (p : Fin 5)
  /-- TBL_LOAD_BEGIN (R257): A load that waited out the 64-line span after a hand-over point begins reading. -/
  | tblLoadBegin (p : Fin 5)
  /-- TBL_LOAD_END (R255): The table load ends LOADED after its scaler row check, or FAILED with a reason. -/
  | tblLoadEnd (p : Fin 5)
  /-- TAP_BUFFER_RETURN (R263): A write of PSL_TAP_RET returns buffers to the tap in ring order. -/
  | tapBufferReturn (p : Fin 5) (t : Fin 4) (v : Word)
  /-- PACE_WINDOW_END (R20): At the end of each 10 µs pace window the device computes headroom and declares exhaustion. -/
  | paceWindowEnd (counts : List Nat)
  /-- SHED_RELEASE (R277): After 100 ms with every unit at or above the release margin, the latest shedding step is released. -/
  | shedRelease
  /-- CLR_LOAD_CURVES (R298): A write of CLR_LOAD.CURVES starts reading the curve image into the pending curve copy. -/
  | clrLoadCurves (k : Fin 28)
  /-- CLR_LOAD_LUT (R298): A write of CLR_LOAD.LUT starts reading and CRC-checking the LUT image. -/
  | clrLoadLut (k : Fin 28)
  /-- CLR_LOAD_GEN (R308): A write of CLR_LOAD.GEN fills one curve set of the pending copy by formula. -/
  | clrLoadGen (k : Fin 28)
  /-- CLR_LOAD_BEGIN (R301): A CLR operation that showed WAITING begins when the 64-line span ends. -/
  | clrLoadBegin (k : Fin 28)
  /-- CLR_OPERATION_END (R299): A curve load, LUT load or generation ends LOADED or FAILED. -/
  | clrOperationEnd (k : Fin 28) (lut : Bool)
  /-- CLR_TABLE_REFILL (R307): A remapped CLR table granule is refilled from its image and CRC-checked, or its step is bypassed. -/
  | clrTableRefill (granule : Fin 192) (active : Bool)
  /-- VSYNC_EDGE (R321): An active VSYNC edge begins a witness frame, numbers it, stamps it and is its hand-over point. -/
  | vsyncEdge (w : Fin 4) (cut : List Nat)
  /-- WITNESS_LINE_END (R320): A witness line ends at the end of a DE run or after WIDTH samples in HSYNC mode. -/
  | witnessLineEnd (w : Fin 4) (samples : List Nat) (fail : Option (Fin 256 × Bool))
  /-- PCLK_LOST (R318): With no PCLK edge for 1 µs the port enters NO_CLOCK and closes its frame NO_END. -/
  | pclkLost (w : Fin 4)
  /-- PCLK_WINDOW_END (R318): At the end of each 100 µs window, a PCLK more than 2 % fast puts the port in BAD_CLOCK. -/
  | pclkWindowEnd (w : Fin 4) (kHz : Nat)
  /-- PCLK_RESTORED (R318): PCLK present and within its limit for 100 µs returns the port to WAIT_FRAME. -/
  | pclkRestored (w : Fin 4)
  /-- WIT_FRAME_TIMEOUT (R322): No witness line for TIMEOUT closes the frame CUT and NO_END, or makes a latch instant while waiting. -/
  | witFrameTimeout (w : Fin 4)
  /-- WIT_STOP_DEADLINE (R326): A witness frame not closed within P, or TIMEOUT, of a host stop is abandoned HOST_STOP. -/
  | witStopDeadline (w : Fin 4)
  /-- WIT_DATAPATH_CLEAR (R333): The witness datapath finishes clearing, at most 20 µs after the fault. -/
  | witDatapathClear (w : Fin 4)
  /-- WIT_STATS_WRITTEN (R331): Within 20 µs of a witness frame closing, its statistics block is written and WIT_STAT_WR advances. -/
  | witStatsWritten (w : Fin 4)
  /-- WIT_NEXT_WFN_WRITE (R323): A write of WIT_NEXT_WFN while stopped sets the next WFN, never backward. -/
  | witNextWfnWrite (w : Fin 4) (hi : Bool) (v : Word)
  /-- WIT_TAP_RETURN (R329): A write of WIT_TAP_RET returns witness tap buffers. -/
  | witTapReturn (w : Fin 4) (u : Fin 2) (v : Word)
  /-- PLAN_CHECK (R355): A write of SMP_PLAN_CTRL.CHECK reads and checks the Sump plan image without changing anything. -/
  | planCheck
  /-- PLAN_ACTIVATE (R357): A write of SMP_PLAN_CTRL.ACTIVATE checks the plan and then powers groups and applies the new map. -/
  | planActivate
  /-- PLAN_CHECK_END (R355): The plan check ends within 50 µs, filling SMP_NEED, SMP_LOAD, SMP_TKO and SMP_CHECK. -/
  | planCheckEnd
  /-- PLAN_ACTIVATE_END (R357): The last emptied group is off, STATE returns to IDLE and ACTIVATED rises. -/
  | planActivateEnd
  /-- SUMP_SCRUB_PASS (R342): The scrubber completes a pass over planned and reserve granules and SMP_SCRUB advances. -/
  | sumpScrubPass (corrected : Nat) (bad : Option (Fin 192 × Fin 16384 × Bool))
  /-- SUMP_REMAP_TAKEUP (R362): A replacement granule takes up its record's work at the owner's next boundary, and REMAP rises. -/
  | sumpRemapTakeup (granule : Fin 192)
  /-- WRBUF_REBUILD_END (R362): A replacement write-buffer granule finishes rebuilding from the other copy and comes into use. -/
  | wrbufRebuildEnd (granule : Fin 192)
  /-- STRIP_SIZED (R379): The sizing coders finish a strip and the lowest ladder level that fits the budget is chosen. -/
  | stripSized (h : Fin 4)
  /-- STRIP_CODED (R380): The coding pass over a strip ends and its record is in HBM. -/
  | stripCoded (h : Fin 4)
  /-- STRIP_VERIFIED (R383): The verify decoder ends, handing the record to the take store or raising a verify mismatch. -/
  | stripVerified (h : Fin 4) (fails c4Late : Bool)
  /-- STRIP_RECODED (R386): C4's re-code is verified, classifying the mismatch transient or forcing the head to STORED. -/
  | stripRecoded (h : Fin 4) (fails : Bool)
  /-- CLR_FORCED (R391): A write of VLC_HEAD_CTRL.CLR_FORCED returns a forced-stored head to its coder. -/
  | clrForced (h : Fin 4)
  /-- GCX_PROD_WRITE (R397): A write of GCX_PROD posts new jobs to the descriptor ring. -/
  | gcxProdWrite (value : Word)
  /-- GCX_JOB_START (R397): GCX fetches the next posted descriptor in ring order and starts it. -/
  | gcxJobStart
  /-- COMPRESS (R394): A COMPRESS job compresses its input in the named format and level. -/
  | gcxCompress
  /-- DECOMPRESS (R401): A DECOMPRESS job expands a stream up to OUT_LEN and OUT_LIMIT, saving its position on OUT_FULL. -/
  | gcxDecompress
  /-- CONTINUE (R401): A CONTINUE job resumes a saved decompression from its state record. -/
  | gcxContinue
  /-- GCX_JOB_END (R399): A GCX job ends, and its completion record is written and GCX_DONE advances. -/
  | gcxJobEnd
  /-- GCX_PAUSE (R403): GCX stops at its latest restart point for a page request, a Sump error or shedding. -/
  | gcxPause (cause : Fin 3) (sump : Option (Fin 192 × Nat × Bool))
  /-- GCX_ABORT (R404): A write of GCX_CTRL.ABORT ends the job in progress ABORTED at its next restart point. -/
  | gcxAbort
  /-- SLOT_CMD_SUBMIT (R429): A write of TSQ_SLOT_CMD submits a command for validation and acceptance. -/
  | slotCmdSubmit (slot : Fin 32) (v : Word)
  /-- ACCEPT_DURABLE (R432): The command's ACCEPT entry becomes durable and the slot becomes ACCEPTED. -/
  | acceptDurable (slot : Fin 32)
  /-- NOP (R430): The NOP command is accepted with no effect. -/
  | slotNop (slot : Fin 32)
  /-- READ (R437): The READ command copies blocks to BUF, from the write buffer or the store. -/
  | slotRead (slot : Fin 32)
  /-- WRITE (R440): The WRITE command fetches host data into both write-buffer copies and later updates the store. -/
  | slotWrite (slot : Fin 32)
  /-- FLUSH (R430): The FLUSH command completes when every earlier write and release is durable, reporting deferred errors. -/
  | slotFlush (slot : Fin 32)
  /-- RELEASE (R423): The RELEASE command moves TAIL_h of a capture area, bounded by open sessions. -/
  | slotRelease (slot : Fin 32)
  /-- VERIFY (R430): The VERIFY command reads and checks every stripe holding the range. -/
  | slotVerify (slot : Fin 32)
  /-- FORMAT (R430): The FORMAT command zeroes the store, writes a new journal header and resets the areas. -/
  | slotFormat (slot : Fin 32)
  /-- JREAD (R430): The JREAD command copies journal entries to BUF. -/
  | slotJread (slot : Fin 32)
  /-- WRITE_BUFFERED (R440): Both write-buffer copies hold a write's data, completing a FUA 0 write. -/
  | writeBuffered (slot : Fin 32)
  /-- WRITE_ENTRY_DURABLE (R440): A write's WRITE entry becomes durable, completing a FUA 1 write and allowing its in-place update. -/
  | writeEntryDurable (csn : Nat) (lost : Bool)
  /-- WRITE_APPLIED (R440): An in-place update ends and its APPLIED entry is written, freeing write-buffer room. -/
  | writeApplied (csn : Nat)
  /-- COMPLETION_POSTED (R434): A decided completion is written to the ring once there is room, TSQ_CQ_TAIL advances and the slot is freed. -/
  | completionPosted (slot : Fin 32)
  /-- CQ_HEAD_WRITE (R457): A write of TSQ_CQ_HEAD consumes completions and makes ring room. -/
  | cqHeadWrite (v : Word)
  /-- FRAME_COMMITTED (R421): All of a frame's records and parity are written, so the frame is accepted, journaled and HEAD_h advances. -/
  | frameCommitted (h : Fin 4)
  /-- AREA_WRITE (R415): A write of TSQ_AREA_BASE or TSQ_AREA_LEN while the head is idle resets the area and writes an AREA entry. -/
  | areaWrite (h : Fin 4) (len : Bool) (v : Word)
  /-- TSQ_ABORT (R445): A write of TSQ_ABORT with GO aborts the named slot's command if it is before its point of no return. -/
  | tsqAbort (slot : Fin 32)
  /-- TSQ_PWR_TARGET (R449): A write of TSQ_PWR.TARGET moves the store to ACTIVE, STANDBY or RETAIN. -/
  | tsqPwrTarget (v : Word)
  /-- TSQ_PWR_REACHED (R449): A store power transition completes and PWR_DONE rises. -/
  | tsqPwrReached
  /-- TSQ_IDLE_TIMER (R450): With AUTO set, IDLE µs with no slot occupied or store access sends the store to STANDBY. -/
  | tsqIdleTimer
  /-- RECOVERY_END (R452): Take-store recovery ends in DONE or FAILED and RECOVERED rises. -/
  | recoveryEnd (readable : Bool)
  /-- FORMAT_END (R430): A FORMAT finishes initialising the region and journal within 400 ms. -/
  | formatEnd
  /-- JOURNAL_RECLAIM (R427): The oldest journal block is reclaimed, carrying live entries forward as MOVED. -/
  | journalReclaim
  /-- DEF_POP (R457): A write of TSQ_DEF_CTRL.POP frees the oldest deferred-log entry. -/
  | defPop
  /-- DEF_CLR_OVF (R457): A write of TSQ_DEF_CTRL.CLR_OVF clears the deferred log's OVERFLOW. -/
  | defClrOvf
  /-- HBM_PLAN_APPLY (R466): A write of HBM_PLAN_CTRL.APPLY checks the region plan and, if it passes, starts draining. -/
  | hbmPlanApply
  /-- HBM_PLAN_DRAINED (R467): Queued accesses to changed regions complete, and the plan is installed in one step. -/
  | hbmPlanDrained
  /-- ZEROING_END (R467): Zeroing of added protected regions ends, STATE returns to IDLE and PLAN_DONE rises. -/
  | zeroingEnd
  /-- REFRESH_DUE (R472): A per-bank refresh falls due, issuing or being postponed as debt. -/
  | refreshDue (g : Fin 256) (bank : Fin 64) (traffic : Fin 3)
  /-- HBM_SCRUB (R477): The scrubber reads a unit, writes back corrections and handles uncorrectable units. -/
  | hbmScrub (g : Fin 256) (bank : Fin 64) (row : Nat) (unit : Fin 32) (found : Fin 4) (verifyFails : Bool)
  /-- SPARING_END (R480): Sparing of a failed pseudo-channel ends, it is logged, SPARE_DONE rises and the next waiting sparing starts. -/
  | sparingEnd
  /-- HBM_WAKE (R488): A write of HBM_CTRL.WAKE takes the stack out of self-refresh or runs its power-up initialisation. -/
  | hbmWake (k : Fin 4)
  /-- HBM_WAKE_DONE (R488): The stack becomes idle after WAKE and WAKE clears. -/
  | hbmWakeDone (k : Fin 4)
  /-- HBM_GO (R483): A write of HBM_CTRL.GO sets READY so that masters may access the stack. -/
  | hbmGo (k : Fin 4)
  /-- HELPER_RUN_START (R483): A write of HBM_TRN_RUN.START runs CA_CHECK, READ_FIXED or LOOP bursts on the selected pseudo-channel. -/
  | helperRunStart (k : Fin 4)
  /-- HELPER_RUN_END (R483): A training helper run ends, recording lanes in error and the bit-error count. -/
  | helperRunEnd (k : Fin 4) (lanes errors : Nat)
  /-- TRN_DELAY_WRITE (R488): A write of HBM_TRN_DLY applies a delay to the selected pseudo-channel at once. -/
  | trnDelayWrite (k : Fin 4) (v : Word)
  /-- PC_OFFLINE (R486): A HBM_PC_CTRL OFFLINE action drains a pseudo-channel and takes it out of service for retraining. -/
  | pcOffline (k : Fin 4) (pc : Fin 64)
  /-- PC_ONLINE (R486): A HBM_PC_CTRL ONLINE action returns the offline pseudo-channel to service. -/
  | pcOnline (k : Fin 4) (pc : Fin 64)
  /-- DECLARE_FAILED (R478): A HBM_PC_CTRL DECLARE_FAILED action makes a pseudo-channel lasting. -/
  | declareFailed (k : Fin 4) (pc : Fin 64)
  /-- PC_OFFLINE_DRAINED (R486): The offline pseudo-channel's queue has drained and HBM_STAT reports it offline. -/
  | pcOfflineDrained (k : Fin 4)
  /-- HBM_CAL_UPDATE (R485): Once per CAL_CFG.PERIOD a pseudo-channel re-centres its lane delays and reports drift. -/
  | hbmCalUpdate (g : Fin 256) (kind : Fin 3) (moves : List (Nat × Nat))
  /-- CTX_MODE_WRITE (R500): A write of CTX_CFG that changes MODE from OFF checks the context configuration, or turns it OFF. -/
  | ctxModeWrite (c : Fin 64) (value : Word)
  /-- CTX_SUBMIT (R501): A write of CTX_SUBMIT.GO reads, validates and accepts or refuses a job descriptor. -/
  | ctxSubmit (c : Fin 64)
  /-- ENCODE (R511): An ENCODE job codes one picture from a tap frame under row rate control and the hard cap. -/
  | codEncode (c : Fin 64) (hdr sliceBits : Nat)
  /-- DECODE (R514): A DECODE job decodes one access unit or temporal unit and manages the picture buffer. -/
  | codDecode (c : Fin 64) (unit : DecUnit)
  /-- COMPAT (R515): A COMPAT job decodes with host-parsed headers as the VX-440 did. -/
  | codCompat (c : Fin 64) (unit : DecUnit)
  /-- DRAIN (R514): A DRAIN job outputs every picture left in the decoded picture buffer. -/
  | codDrain (c : Fin 64)
  /-- CODEC_ROW_END (R519): An engine finishes a row and takes its next row from the first ready context by priority, saving or restoring restart records. -/
  | codecRowEnd (e : Fin 4) (trial recode : Nat)
  /-- CODEC_JOB_END (R506): A codec job's outcome is decided, replacing the slot map on DONE, and its completion is posted. -/
  | codecJobEnd (c : Fin 64)
  /-- SOURCE_WAIT_TIMEOUT (R508): CTX_WAIT ms with no source line read ends an encode job FAILED INPUT. -/
  | sourceWaitTimeout (c : Fin 64)
  /-- CTX_PB_RET (R514): A write of CTX_PB_RET returns output buffers to the context. -/
  | ctxPbRet (c : Fin 64) (value : Word)
  /-- CTX_ABORT (R522): A write of CTX_ABORT.GO aborts every job at or after CTX_ABORT_SEQ that is before its point of no return. -/
  | ctxAbort (c : Fin 64)
  /-- CODEC_PAUSE (R521): A page request, Sump error, bus error, shedding or engine disable stops a job at its latest restart point. -/
  | codecPause (e : Fin 4) (cause : Fin 4)
  /-- PORT_UP (R532): A port completes negotiation and training with the PCS aligned and comes up. -/
  | portUp (k : Fin 4) (j : Fin 2)
  /-- REMOTE_FAULT (R532): A remote fault received on a port takes it down. -/
  | remoteFault (k : Fin 4) (j : Fin 2)
  /-- ETH_FRAME_RX (R536): A received frame is classified to a session, PTP handling, discard or the host ring. -/
  | ethFrameRx (k : Fin 4) (j : Fin 2) (frame : List Byte) (good : Bool) (residence : List Nat) (corr uncorr : Nat)
  /-- HTX_PROD_WRITE (R537): A write of ETH_HTX_PROD posts host frames for transmission. -/
  | htxProdWrite (k : Fin 4) (value : Word)
  /-- HTX_FRAME_SENT (R537): A host frame is sent, its departure timestamp written if requested, and ETH_HTX_DONE advances. -/
  | htxFrameSent (k : Fin 4)
  /-- SND_ENABLE (R549): A write setting ETH_SND_CFG.EN checks the sender and starts it, or refuses it with a reason. -/
  | sndEnable (k : Fin 4) (sender : Fin 8) (value : Word)
  /-- SND_DISABLE (R549): A write clearing EN makes the sender finish its frame and read OFF. -/
  | sndDisable (k : Fin 4) (sender : Fin 8)
  /-- SND_SLOT_START (R543): At each frame slot the sender takes the newest recorded tap frame, or repeats, or sends nothing. -/
  | sndSlotStart (k : Fin 4) (sender : Fin 8)
  /-- SND_PACKET_DUE (R542): A packet of the frame falls due at t_k + TRO + n × TRS and is sent on the primary and partner ports. -/
  | sndPacketDue (k : Fin 4) (sender : Fin 8)
  /-- ANC_PROD_WRITE (R547): A write of ETH_SND_ANC_PROD posts ancillary payloads to the sender. -/
  | ancProdWrite (k : Fin 4) (sender : Fin 8) (value : Word)
  /-- SES_OPEN (R553): A write of ETH_SES_CTRL.OPEN starts a Sluice session, sending OPEN, or is refused. -/
  | sesOpen (k : Fin 4) (t : Fin 8)
  /-- SES_CLOSE (R552): A write of ETH_SES_CTRL.CLOSE stops queuing and drains the session. -/
  | sesClose (k : Fin 4) (t : Fin 8)
  /-- SES_ABORT (R559): A write of ETH_SES_CTRL.ABORT ends every unacknowledged segment ABORTED and sends CLOSE. -/
  | sesAbort (k : Fin 4) (t : Fin 8)
  /-- OPEN_ACK (R553): An OPEN_ACK opens the session or makes it FAILED. -/
  | sluiceOpenAck (k : Fin 4) (msg : List Byte)
  /-- ACK (R556): A recorder ACK acknowledges segments below CUM and those its SACK marks, and updates WINDOW. -/
  | sluiceAck (k : Fin 4) (msg : List Byte)
  /-- CLOSE_ACK (R552): A CLOSE_ACK makes the closing session CLOSED. -/
  | sluiceCloseAck (k : Fin 4) (msg : List Byte)
  /-- SES_RTO_EXPIRY (R556): RTO passes without an answer, so the session resends segments, OPEN or CLOSE, or fails after eight sends. -/
  | sesRtoExpiry (k : Fin 4) (t : Fin 8) (ssn : Nat)
  /-- SES_SEGMENT_SEND (R555): Within its window and rate cap, the session queues and sends the next segment of a committed frame. -/
  | sesSegmentSend (k : Fin 4) (t : Fin 8)
  /-- SES_HOLD_RELEASE (R557): At most once per 100 µs a HOLD session moves TAIL_h forward with a RELEASE journal entry. -/
  | sesHoldRelease (h : Fin 4)
  /-- REC_OPEN (R560): The recorder answers an OPEN with OPEN_ACK within 1 ms. -/
  | recOpen (msg : List Byte) (window : Nat) (status : Byte)
  /-- DATA (R560): The recorder stores a DATA segment with its CRC checked, or discards a duplicate or a damaged one, and acknowledges it. -/
  | recData (msg : List Byte) (window : Nat)
  /-- CLOSE (R560): The recorder answers a CLOSE with CLOSE_ACK. -/
  | recClose (msg : List Byte)
  /-- TIM_INC_HI_WRITE (R568): A write of TIM_INC_HI applies the staged increment pair from the next cycle and restarts the watchdog. -/
  | timIncHiWrite (value : Word)
  /-- TIME_NOW_READ (R569): A read of TIM_NOW_SEC_LO latches the other parts of device time from the same cycle. -/
  | timeNowRead
  /-- STEP (R571): A TIM_ADJ_CTRL.STEP write schedules adding TIM_ADJ to device time 80 µs later. -/
  | timStep
  /-- LOAD (R571): A TIM_ADJ_CTRL.LOAD write schedules setting device time to TIM_SET 80 µs later. -/
  | timLoad
  /-- TIME_ADJ_APPLY (R571): At instant X the step or load is applied, the heads are sent the change and ADJ_DONE rises. -/
  | timeAdjApply
  /-- TIM_CTRL_WRITE (R572): A write of TIM_CTRL sets LOCKED and TREF_MODE, restarting the watchdog and clearing FREE_RUN. -/
  | timCtrlWrite (value : Word)
  /-- WATCHDOG_EXPIRY (R572): TIM_WDOG ms without a restart clears LOCKED, sets FREE_RUN and raises WDOG. -/
  | watchdogExpiry
  /-- TIME_PLL_LOSS (R574): The time-base PLL loses lock, setting FAULT_SUM.PLL and clearing LOCKED. -/
  | timePllLoss
  /-- SYNC_IN_EDGE (R577): A SYNC_IN edge is captured when enabled and drives SYNC-mode strobes. -/
  | syncInEdge (rise : Bool)
  /-- TIME_REF_EDGE (R577): A TIME_REF rising edge is captured under PPS or every 10,000,000th under 10M. -/
  | timeRefEdge
  /-- CAP_SOFT (R577): A write of TIM_CAP_CTRL.SOFT captures the present time. -/
  | capSoft
  /-- CAP_POP (R594): A write of TIM_CAP_CTRL.POP frees the oldest capture. -/
  | capPop
  /-- CAP_CLR_OVF (R594): A write of TIM_CAP_CTRL.CLR_OVF clears the capture OVERFLOW. -/
  | capClrOvf
  /-- STROBE_ARM (R584): A write of TIM_STB_CTRL.ARM arms a strobe, or is refused. -/
  | strobeArm (n : Fin 8)
  /-- STROBE_DISARM (R586): A write of TIM_STB_CTRL.DISARM stops every later pulse of the strobe. -/
  | strobeDisarm (n : Fin 8)
  /-- STROBE_PULSE_START (R582): A strobe pulse begins at its programmed time, or is skipped if late. -/
  | strobePulseStart (n : Fin 8)
  /-- STROBE_PULSE_END (R586): A pulse ends after its WIDTH, possibly setting DONE and clearing ARMED. -/
  | strobePulseEnd (n : Fin 8)
  /-- DISPLAY_FRAME_START (R602): A display frame starts, DFN advances, and the first active line is the hand-over point. -/
  | displayFrameStart (missing : List (Nat × Nat × Nat)) (fail : Option (Nat × Nat × Bool × Bool))
  /-- DISPLAY_LATCH (R604): 4 lines before a frame start, or at the adaptive line boundary where a commit is pending, the display latches its commit. -/
  | displayLatch (line : Nat)
  /-- HPD_LOSS (R599): DP_HPD low for more than 2 ms clears HPD and sends the idle pattern. -/
  | hpdLoss
  /-- HPD_IRQ_PULSE (R599): A 0.5–1 ms low pulse on DP_HPD raises HPD_IRQ. -/
  | hpdIrqPulse
  /-- AUX_GO (R598): A write of DSP_AUX_CMD.GO starts an AUX transaction. -/
  | auxGo (value : Word)
  /-- AUX_END (R598): The AUX transaction ends with a reply or a 400 µs timeout. -/
  | auxEnd (reply : Fin 5) (count : Fin 17) (bytes : List Byte)
  /-- PRQ_RESPONSE (R638): A write of XLT_PRQ_RESP resolves a LOCAL page request as SUCCESS or FAILURE. -/
  | prqResponse (value : Word)
  /-- PRG_RESPONSE (R638): A PCIe PRG Response resolves an ATS page request, or stops PRI on Response Failure. -/
  | prgResponse (index : Fin 512) (code : Fin 3)
  /-- TRANSLATION_WALK_END (R629): A table walk or ATS translation completes, caching a translation or faulting. -/
  | translationWalkEnd (master : Nat) (asid : Fin 64) (addr : Nat) (write tableErr rewalkErr : Bool) (completion : Option (Nat × Nat × Bool × Bool))
  /-- PRQ_TIMEOUT (R640): A page request outstanding for PRQ_TMO ms makes its waiting accesses fault PRQ_TIMEOUT. -/
  | prqTimeout (index : Fin 512)
  /-- ATS_INVALIDATE (R634): An ATS Invalidate Request removes cached translations in its range and completes within 50 µs. -/
  | atsInvalidate (asid : Fin 64) (addr size : Nat)
  /-- XLT_INVALIDATE (R636): A write of XLT_INV_CTRL.GO invalidates LOCAL translations in the chosen scope. -/
  | xltInvalidate (scope : Fin 3) (asid : Fin 64)
  /-- XLT_INV_DONE (R636): No stale translation remains and dependent accesses are visible, so PENDING falls and INV_DONE rises. -/
  | xltInvDone
  /-- DMA_PROD_WRITE (R644): A write of DMA_PROD posts descriptors for the channel to fetch. -/
  | dmaProdWrite (c : Fin 16) (value : Word)
  /-- DMA_DESC_FETCH (R644): The channel fetches a descriptor up to 8 ahead, which accepts it. -/
  | dmaDescFetch (c : Fin 16) (err : Option Bool)
  /-- COPY (R646): A COPY descriptor moves a three-level array of elements from source to destination. -/
  | dmaCopy (c : Fin 16) (chunks : Nat) (err : Option Bool)
  /-- FILL (R646): A FILL descriptor writes an 8-byte pattern over a three-level array. -/
  | dmaFill (c : Fin 16) (chunks : Nat)
  /-- CHECK (R646): A CHECK descriptor computes a checksum over the source and stores it at DST. -/
  | dmaCheck (c : Fin 16) (chunks : Nat) (err : Option Bool)
  /-- DMA_NOP (R646): A NOP descriptor ends DONE at once. -/
  | dmaNop (c : Fin 16)
  /-- DMA_DESC_END (R644): A descriptor ends, its outcome is written back and DMA_DONE advances. -/
  | dmaDescEnd (c : Fin 16) (err : Option Bool)
  /-- DMA_REQ_SOFT (R650): A write of DMA_REQ_CTRL.SOFT adds one request credit. -/
  | dmaReqSoft (c : Fin 16)
  /-- DMA_REQ_WITHDRAW (R651): A write of DMA_REQ_CTRL.WITHDRAW removes one credit, or counts a late withdrawal. -/
  | dmaReqWithdraw (c : Fin 16)
  /-- DMA_HALT (R654): A repeated bus error, a fault or a refused access halts the channel at its restart point. -/
  | dmaHalt (c : Fin 16) (cause : Fin 3)
  /-- DMA_RESUME (R654): A DMA_CTRL.RESUME write retries a halted channel from its restart point. -/
  | dmaResume (c : Fin 16)
  /-- DMA_SKIP (R654): A DMA_CTRL.SKIP write ends the halted descriptor FAILED and continues with the next one. -/
  | dmaSkip (c : Fin 16)
  /-- DMA_ABORT (R656): A DMA_CTRL.ABORT write ends every descriptor from DMA_ABORT_IDX that is before its point of no return. -/
  | dmaAbort (c : Fin 16)
  /-- FAULT_EVENT (R666): A checker reports a TRANSIENT or LASTING event to a Bittern source, updating COUNT, STATE, the log, interrupts and FAULT_N. -/
  | faultEvent (source : Fin 512) (unit : BitVec 8) (detail : Word) (lasting : Bool)
  /-- BIT_EVENT_AGE_OUT (R666): A counted event leaves the source's window W and COUNT falls. -/
  | bitEventAgeOut (source : Fin 512)
  /-- SRC_CLEAR (R669): A write of BIT_SRC_CLEAR.GO sets the source to QUIET with COUNT 0. -/
  | srcClear (source : Nat)
  /-- FAULTN_RELEASE (R673): A BIT_FAULTN_CTRL.RELEASE write releases FAULT_N, at once or when the minimum ends. -/
  | faultnRelease
  /-- FAULTN_ASSERT (R672): A BIT_FAULTN_CTRL.ASSERT write asserts FAULT_N and starts a new minimum. -/
  | faultnAssert
  /-- FAULTN_MIN_END (R673): The FAULT_N minimum ends, and a held RELEASE takes effect. -/
  | faultnMinEnd
  /-- LOG_POP (R685): A write of BIT_LOG_CTRL.POP frees the oldest Bittern log entry. -/
  | logPop
  /-- LOG_CLR_OVF (R685): A write of BIT_LOG_CTRL.CLR_OVF clears the log's OVERFLOW. -/
  | logClrOvf
  /-- INJ_ARM (R677): A write of BIT_INJ_CTRL.ARM arms a fault injection, or is refused. -/
  | injArm
  /-- INJ_DISARM (R678): A write of BIT_INJ_CTRL.DISARM ends an armed injection as DISARMED. -/
  | injDisarm
  /-- INJ_EXPIRY (R678): An armed injection whose check has not occurred within BIT_INJ_TMO expires. -/
  | injExpiry
  /-- TEST_START (R682): A write of BIT_TEST_CTRL.START runs a self-test of the chosen kind on its target. -/
  | testStart
  /-- TEST_STOP (R683): A write of BIT_TEST_CTRL.STOP ends the running self-test ABORTED. -/
  | testStop
  /-- TEST_END (R684): A self-test ends PASS, FAIL with a LASTING event, or ABORTED. -/
  | testEnd (pass : Bool) (part : Nat) (detail : Word)
  /-- HOUSEKEEPING_ROUND (R689): Every 1 ms the device reads all sensors and stack temperatures and evaluates the thermal rules. -/
  | housekeepingRound (readings : List (Nat × Int)) (temps : List Int)
  /-- THM_SHUTDOWN (R696): A write of THM_CTRL.SHUTDOWN starts orderly shutdown with cause HOST. -/
  | thmShutdown
  /-- DRAIN_END (R697): The drain ends by completion, by the DRAIN timer or by the hard condition, and HBM enters self-refresh. -/
  | drainEnd
  /-- SHUTDOWN_STOPPED (R697): With every stack in self-refresh, STAGE becomes STOPPED and switched domains and head feeds power down. -/
  | shutdownStopped
  /-- SUPPLY_LOOP_WINDOW (R702): At each 10 µs window end the supply loop sends a SET or GET on the adaptive supply interface. -/
  | supplyLoopWindow
  /-- AVS_ANSWER (R704): The regulator's answer to a SET or GET arrives and is checked, or retried, or makes a supply fault. -/
  | avsAnswer (answer : Option (BitVec 24))
  /-- AVS_RAISE_TIMEOUT (R706): A raise that draws no OK within its bound is a failed answer and is retried. -/
  | avsRaiseTimeout
  /-- DOMAIN_SEGMENT_SETTLED (R708): A domain's power segment settles and its next segment may be granted, or the transition completes. -/
  | domainSegmentSettled (d : Fin 265)
  /-- PACE_BUDGET_WINDOW (R708): A new 10 µs sequencer window begins with every rail budget unused, granting waiting segments. -/
  | paceBudgetWindow
  /-- CNT_RUN (R720): A write of CNT_CTRL.RUN starts or stops every counter at one time-base edge. -/
  | cntRun (run userEn : Bool)
  /-- CNT_SETTLED (R720): After RUN changes, every in-flight event has been added and SETTLED rises. -/
  | cntSettled
  /-- CLEAR_ALL (R724): A write of CNT_CTRL.CLEAR_ALL zeroes every counter and every OVF bit at one instant. -/
  | clearAll
  /-- CNT_CFG_WRITE (R721): A write of CNT_CFG changes a counter's event selection at one instant. -/
  | cntCfgWrite (n : Fin 256) (value : Word)
  /-- COUNTER_READ (R722): A read of CNT_VAL_LO returns the low bits and latches the high bits and OVF. -/
  | counterRead (n : Fin 256) (wide : Bool)
  /-- BAR2_READ (R30): A host read through BAR2 returns HBM data, or all ones for a region without read access. -/
  | bar2Read (addr : Fin 0x4000000000) (len : Fin 4097) (fails rereadFails verifyFails : Bool)
  /-- BAR2_WRITE (R31): A host write through BAR2 reaches HBM, or is discarded for a region without write access. -/
  | bar2Write (addr : Fin 0x4000000000) (bytes : List Byte)
  /-- BUS_MASTER_ENABLE (R738): A change of Bus Master Enable or of D3hot makes host-memory accesses wait or resume. -/
  | busMasterEnable (memory bme d3hot : Bool)
  /-- COLD_RST_N_FALL (R743): COLD_RST_N low for 1 µs or more starts a cold reset, placing HBM in self-refresh within 2 µs. -/
  | coldRstNFall
  /-- COLD_RESET_END (R771): After COLD_RST_N rises and 10 µs have passed since its fall, the device loads its fuses and raises READY within 5 ms. -/
  | coldResetEnd
  /-- VDD_AON_RISE (R765): VDD_AON rising starts a cold reset and sets POWER_ON. -/
  | vddAonRise
  /-- PERST_N_FALL (R743): PERST_N low takes the link down and starts a warm reset. -/
  | perstNFall
  /-- PERST_N_RISE (R743): PERST_N rising lets the PCIe link train and locks SUBSYS. -/
  | perstNRise
  /-- WARM (R746): A write of TOP_RESET_CTRL.WARM with KEY 0xA5 starts a warm reset. -/
  | warmReset (key : Byte)
  /-- WARM_RESET_END (R746): The warm reset sequence ends, WARM_BUSY clears and WARM_DONE rises. -/
  | warmResetEnd
  /-- FLR (R746): An Initiate Function Level Reset resets the configuration space and ends accepted work as R79 sets out. -/
  | flr
  /-- FLR_END (R752): FLR_BUSY falls and FLR_DONE rises. -/
  | flrEnd
  /-- HELD_RESET_START (R744): A reset held during another reset is performed when that reset ends. -/
  | heldResetStart
  /-- HBM_RAIL_DEPARTURE (R765): A departure of VDD_AON or an HBM rail from its limits for 2 µs sets STORE_LOST. -/
  | hbmRailDeparture (aon : Bool)
  /-- CORE_RAIL_DEPARTURE (R766): VDD_FAB, VDD_SRAM or VDD_SD out of limits, or REFCLK_SD_5 stopped, for 1 µs asserts FAULT_N and performs a cold reset. -/
  | coreRailDeparture
  /-- IDENT (R740): The SMBus IDENT command returns the device ID and serial number. -/
  | smbIdent
  /-- STATUS (R740): The SMBus STATUS command returns FAULT_N, READY, reset and shutdown state. -/
  | smbStatus
  /-- TEMPS (R740): The SMBus TEMPS command returns the eight zone temperatures. -/
  | smbTemps
  /-- VFAB (R740): The SMBus VFAB command returns the requested and acknowledged VDD_FAB codes. -/
  | smbVfab
  /-- WIN_ADDR (R740): The SMBus WIN_ADDR command sets or reads the BAR0 offset of the window. -/
  | smbWinAddr (value : Option Word) (pecOk : Bool)
  /-- WIN_DATA_READ (R741): An SMBus WIN_DATA read returns the register at the window offset. -/
  | smbWinDataRead
  /-- WIN_DATA_WRITE (R741): An SMBus WIN_DATA write is performed only at TOP_RESET_CTRL or THM_CTRL and raises SMB_WRITE. -/
  | smbWinDataWrite (value : Word) (pecOk : Bool)
  /-- SUBSYS (R742): The SMBus SUBSYS command sets the Subsystem IDs until PERST_N first rises. -/
  | smbSubsys (vid sid : BitVec 16) (pecOk : Bool)
  /-- SMBUS_TIMEOUT (R772): SMB_CLK low for 25–35 ms makes the device release SMB_DAT and abandon the transaction. -/
  | smbusTimeout
  /-- BLOCK_LOCK_ACQUIRED (R158): A Causeway receiver declares block lock after 64 consecutive valid sync headers at one block phase. -/
  | blockLockAcquired (h : Fin 4) (lane : Fin 12)
  /-- COMMA_ERROR (R158): A comma is missing or malformed at its expected position, counting a comma error, and two in a row end comma lock and lose the lane. -/
  | commaError (h : Fin 4) (lane : Fin 12)
  /-- DOWNSTREAM_COMMA (R591): The device sends a downstream comma, at which a named TIME_LOAD or TIME_STEP takes effect; the head servo leaves STEPPING or LOADING, or goes to LOADING when unacknowledged. -/
  | downstreamComma (h : Fin 4)
  /-- HEAD_COMMA_ARRIVAL (R177): A downstream comma reaches the head, which restarts the message numbering on the first TRAINING comma, regains lock on a copy and reports CTRL_COPY_BACK. -/
  | headCommaArrival (h : Fin 4) (copyB : Bool) (sfc : BitVec 24) (role : Fin 16)
  /-- HEAD_COPY_LOST (R175): A downstream copy fails R158 at the head, so the head uses the other copy and reports CTRL_COPY_LOST by EVENT. -/
  | headCopyLost (h : Fin 4) (copyB : Bool)
  /-- HEAD_CTRL_LOST_TIMEOUT (R192): 1 s after losing both control copies the head stops exposing at the next frame boundary. -/
  | headCtrlLostTimeout (h : Fin 4)
  /-- DOWNSTREAM_ACK (R177): The head receives the device's ACK or NACK of an upstream sequenced message, freeing it from the head's resend window. -/
  | downstreamAck (h : Fin 4) (seq : BitVec 16)
  /-- HEAD_FEED_FLT_RISE (R196): HEAD_FEED_FLT_N_h returns high, clearing CWY_FEED_STAT.FLT so that REQ = ON is no longer refused on that ground. -/
  | headFeedFltRise (h : Fin 4)
  /-- TIME_PLL_RELOCK (R574): The time-base PLL relocks, and after 10 ms of lock the timestamp, capture and strobe accuracies hold again. -/
  | timePllRelock
  /-- TREF_PRESENT_LAPSE (R594): With no TIME_REF edge for 2 s (PPS) or 1 µs (10M), or no SYNC_IN edge for 2 s, TREF_PRESENT or SYNC_PRESENT falls, and FAULT_SUM.TREF_LOST sets. -/
  | trefPresentLapse (sync : Bool)
  /-- SYNC_DISARM_CUT (R587): 1 µs after a DISARM write, a SYNC-mode strobe pulse still active is cut. -/
  | syncDisarmCut (n : Fin 8)
  /-- HPD_ASSERT (R599): DP_HPD rises, setting DSP_STAT.HPD so that video can be sent. -/
  | hpdAssert
  /-- WITNESS_BANK_CHANGE (R761): VDD_IO33_Ww rises or falls, moving WIT_STAT.BANK between no rail, 1.8 V and 3.3 V. -/
  | witnessBankChange (w : Fin 4) (bank : Fin 3)
  /-- REMOTE_FAULT_CLEAR (R532): A port stops receiving remote fault, clearing ETH_PORT_STAT.REMOTE_FAULT and raising IRQ_STAT.LINK. -/
  | remoteFaultClear (k : Fin 4) (j : Fin 2)
  /-- ETH_FEC_FAILURE (R88): An Ethernet lane sees uncorrectable codewords for 1 ms, becomes lasting and takes its port down. -/
  | ethFecFailure (lane : Fin 96) (uncorr : Nat)
  /-- FLIT_REPLAY (R88): A PCIe FLIT CRC error triggers a replay, which is counted as a transient event on source 126. -/
  | flitReplay
  /-- PCIE_LINK_UP (R732): PCIe training completes and the Data Link Layer becomes active, setting HIF_LINK_STAT.UP, RATE and WIDTH. -/
  | pcieLinkUp (rate : Fin 6) (width : Fin 5) (flit : Bool)
  /-- PCIE_LINK_RECOVERY (R755): The LTSSM enters Recovery, possibly retraining at reduced width, raising RECOVERY and DEGRADED and counting toward lasting failure. -/
  | pcieLinkRecovery (rate : Fin 6) (width : Fin 5) (lane : Option (Fin 16))
  /-- ATS_ENABLE_CHANGE (R635): The host sets or clears ATS Enable in the ATS capability, making ATS-mode spaces act as OFF or translate again. -/
  | atsEnableChange (enable : Bool)
  /-- PRI_RESET (R638): The host resets PRI through its capability, clearing PRI_STOPPED so that ATS page requests may be raised again. -/
  | priReset (enable : Bool)
  /-- CORE_RAIL_RECOVERY (R766): VDD_FAB, VDD_SRAM, VDD_SD or REFCLK_SD_5 returns, and the device leaves the cold reset of R766 within 5 ms. -/
  | coreRailRecovery
  /-- PRBS_COUNTER_SATURATION (R151): A PRBS error or compared-bit counter saturates, stopping both counters and setting SATURATED. -/
  | prbsCounterSaturation (lane : Fin 96) (errors bits : Nat)
  deriving DecidableEq, Repr

end Sys2Proof
end

