-- ==== Sys2Proof/Decode.lean ====
section
/-! DEFINITION. The opcode table gives no row any bits: the VX-960 takes register accesses, messages and events, and no
command of it is spelled by a word. -/

namespace Sys2Proof

/-- The command that a word spells by the bits of the opcode table. No row has bits, so no word spells one. -/
def decodeTableWord (_nbits _w : Nat) : Option Instr := none

end Sys2Proof
end

