-- ==== Sys2Proof/Config.lean ====
section
/-! DEFINITION. The free values: what the manual leaves open and the device goes on with. Each is a constant without a
body, so that nothing can be proved of its value. -/

namespace Sys2Proof

/-- A free value of any width, one for each value of the free-value counter: a step that needs a value the manual does
not state takes the next one. -/
opaque Config.free : Nat → Nat

/-- The bytes of undefined memory contents (R467: an added unprotected region), by the free-value counter and the
address. -/
opaque Config.freeByte : Nat → Nat → Byte

/-- The bytes 0x10–0x3B of a journal entry, by its fields and the offset: R426 names the fields and gives no places. -/
opaque Config.jnlByte : List Nat → Nat → Byte

/-- Which of the entries within one unit in the last place of the exact value the curve generator writes (R308), by its
settings (function, domain, MIN, MAX) and the node. -/
opaque Config.genPick : Nat → Nat → Nat → Nat → Nat → Nat

/-- The code that the tap quantiser writes for a value that is no number: R261 states it for the float formats only. -/
opaque Config.nanCode : Nat

/-- The contents of a CLR table copy that nothing was ever loaded into, by place. -/
opaque Config.emptyTable : Nat → Nat

/-- The blocks that the general compressor writes for an input, by format, level and window: R393–R395 bound the search
and ask for the shortest block form, and do not give the matches chosen. -/
opaque Config.gcxBlocks : Nat → Nat → Nat → List Byte → List Byte

/-- Rows of a codec picture that a reorder buffer holds, by its size in MiB and the width: R496 asks for room and gives no
row size. -/
opaque Config.robRows : Nat → Nat → Nat

/-- The syntax that the encoder chooses for a row, by the row's source samples, its QP and a free-value token: R493 names
the tools and leaves their use open. -/
opaque Config.codeRow : List Nat → Int → Nat → Nat

/-- Byte i of the stream that an entropy engine writes, by the settings and the syntax of the rows. -/
opaque Config.bitstream : List Nat → List Nat → Nat → Byte

/-- How many events of R716 fall that the scheduling of HBM, the Sump or an entropy coder decides, by class, event, instance and
master, and by the counters as they stand: the manual gives no number. -/
opaque Config.events : List Nat → List Nat → Nat

/-- The required rate of a Reedbed unit other than a slice, fixed at manufacture (R17). -/
opaque Config.unitRate : Nat → Nat

end Sys2Proof
end

