-- ==== Sys2Proof/Machine/Bits.lean ====
section
/-! DEFINITION. Bit fields of numbers, two's complement, saturation, little-endian bytes (00_scope.md,
Numbers and units) and the sparse tables in one canonical form that hold registers and memory. -/

namespace Sys2Proof.Machine

/-- Bits [lo + w − 1 : lo] of a number. -/
def fld (v lo w : Nat) : Nat := v / 2 ^ lo % 2 ^ w

/-- A number with bits [lo + w − 1 : lo] replaced. -/
def setFld (v lo w x : Nat) : Nat := v - fld v lo w * 2 ^ lo + x % 2 ^ w * 2 ^ lo

/-- Bit n of a number. -/
def bitOf (v n : Nat) : Bool := v / 2 ^ n % 2 == 1

/-- A truth value as a bit. -/
def b2n (b : Bool) : Nat := if b then 1 else 0

/-- The two's complement value of w bits. -/
def sint (w v : Nat) : Int := if v % 2 ^ w < 2 ^ (w - 1) then (v % 2 ^ w : Nat) else (v % 2 ^ w : Nat) - (2 ^ w : Nat)

/-- The w bits that hold an integer in two's complement. -/
def ofSint (w : Nat) (i : Int) : Nat := (i % (2 ^ w : Nat)).toNat

/-- An integer clamped to a signed field of w bits. -/
def clampS (w : Nat) (i : Int) : Int :=
  if i < -(2 ^ (w - 1) : Nat) then -(2 ^ (w - 1) : Nat) else if i > (2 ^ (w - 1) : Nat) - 1 then (2 ^ (w - 1) : Nat) - 1 else i

/-- Division rounded up. -/
def cdiv (a b : Nat) : Nat := (a + b - 1) / b

/-- The n bytes of a number, least significant first. -/
def leBytes : Nat → Nat → List Byte
  | 0, _ => []
  | n + 1, v => BitVec.ofNat 8 v :: leBytes n (v / 256)

/-- The number that bytes spell, least significant first. -/
def ofLe : List Byte → Nat
  | [] => 0
  | b :: r => b.toNat + 256 * ofLe r

/-- The n bytes of a number, most significant first (network order). -/
def beBytes (n v : Nat) : List Byte := (leBytes n v).reverse

/-- The number that bytes spell, most significant first. -/
def ofBe (l : List Byte) : Nat := ofLe l.reverse

/-- The n bytes of a list from an offset, short where the list ends. -/
def slice {α : Type} (l : List α) (at_ n : Nat) : List α := (l.drop at_).take n

/-- The number in n little-endian bytes at an offset of a record. -/
def leAt (l : List Byte) (at_ n : Nat) : Nat := ofLe (slice l at_ n)

/-- n zero bytes. -/
def zeros (n : Nat) : List Byte := List.replicate n 0

/-- The element at an index replaced by a function of itself; an index past the end changes nothing. -/
def upd {α : Type} : List α → Nat → (α → α) → List α
  | [], _, _ => []
  | a :: r, 0, f => f a :: r
  | a :: r, n + 1, f => a :: upd r n f

/-- The element at an index, or a given one past the end. -/
def nth {α : Type} (d : α) : List α → Nat → α
  | [], _ => d
  | a :: _, 0 => a
  | _ :: r, n + 1 => nth d r n

/-- A count modulo 2^32 advanced by one. -/
def inc32 (v : Nat) : Nat := (v + 1) % 2 ^ 32

/-- A left fold over the indices 0 to n − 1. -/
def forN {σ : Type} (n : Nat) (s : σ) (f : Nat → σ → σ) : σ := (List.range n).foldl (fun s i => f i s) s

/-- One step of a reflected CRC on one bit. -/
def crcBit (poly c : Nat) : Nat := if c % 2 = 1 then (c / 2) ^^^ poly else c / 2

/-- Eight steps of a reflected CRC over one byte. -/
def crcByte (poly c : Nat) (b : Byte) : Nat :=
  let c := c ^^^ b.toNat
  crcBit poly (crcBit poly (crcBit poly (crcBit poly (crcBit poly (crcBit poly (crcBit poly (crcBit poly c)))))))

/-- CRC-32C (Castagnoli) over bytes: reflected, initial and final inversion (R297). -/
def crc32c (l : List Byte) : Nat := (l.foldl (crcByte 0x82F63B78) 0xFFFFFFFF) ^^^ 0xFFFFFFFF

/-- A sparse table: the value at a key, where an unlisted key holds its default. Keys rise. -/
def Sparse.get {β : Type} (dflt : Nat → β) : List (Nat × β) → Nat → β
  | [], k => dflt k
  | (a, b) :: r, k => if k = a then b else if k < a then dflt k else Sparse.get dflt r k

/-- A sparse table with one key written. Writing the default removes the entry. -/
def Sparse.put {β : Type} [DecidableEq β] (dflt : Nat → β) : List (Nat × β) → Nat → β → List (Nat × β)
  | [], k, v => if v = dflt k then [] else [(k, v)]
  | (a, b) :: r, k, v =>
    if k < a then (if v = dflt k then (a, b) :: r else (k, v) :: (a, b) :: r)
    else if k = a then (if v = dflt k then r else (k, v) :: r)
    else (a, b) :: Sparse.put dflt r k v

/-- Every key of a sparse table lies above a bound and rises, and no entry equals its default. -/
def Sparse.above {β : Type} [DecidableEq β] (dflt : Nat → β) : Option Nat → List (Nat × β) → Bool
  | _, [] => true
  | lo, (a, b) :: r => (match lo with | none => true | some l => decide (l < a)) && decide (b ≠ dflt a) && Sparse.above dflt (some a) r

/-- The canonical form of a sparse table. -/
def Sparse.wf {β : Type} [DecidableEq β] (dflt : Nat → β) (l : List (Nat × β)) : Bool := Sparse.above dflt none l

end Sys2Proof.Machine
end

