-- ==== Sys2Proof/Machine/RegMap.lean ====
section
/-! DEFINITION. The register pages: the page index of BAR0 (R65–R67), the page header (R35–R51) and the register
map of every block, each register with its fields, their access codes (R4), their reset values and the values of a
field that are no reserved encoding (R46). The rows follow the "Offset | Name | Access | Reset" and "Bits | Field"
tables of the chapters named at each map. -/

namespace Sys2Proof.Machine

/-- The access code of a field (R4). -/
inductive Acc where
  | rw | ro | wo | w1c | rc | rw1s
  deriving DecidableEq, Repr

/-- One field: its bits, its access code, its reset value and, where some of its values are reserved encodings, the
ranges of the others. -/
structure FieldDesc where
  lo : Nat
  w : Nat
  acc : Acc
  rst : Nat
  valid : List (Nat × Nat)
  deriving DecidableEq, Repr

/-- One register, or an array of count registers stride bytes apart on each page from p0 to p1. -/
structure RegDesc where
  p0 : Nat
  p1 : Nat
  off : Nat
  stride : Nat
  count : Nat
  shadowed : Bool
  fields : List FieldDesc
  deriving DecidableEq, Repr

/-- A field located from the base of its instance: byte offset, lowest bit, width. -/
structure Fld where
  off : Nat
  lo : Nat
  w : Nat
  deriving DecidableEq, Repr

def rw (lo w r : Nat) : FieldDesc := ⟨lo, w, .rw, r, []⟩
def ro (lo w r : Nat) : FieldDesc := ⟨lo, w, .ro, r, []⟩
def wo (lo w r : Nat) : FieldDesc := ⟨lo, w, .wo, r, []⟩
def w1c (lo w r : Nat) : FieldDesc := ⟨lo, w, .w1c, r, []⟩
def rc (lo w r : Nat) : FieldDesc := ⟨lo, w, .rc, r, []⟩
def rw1s (lo w r : Nat) : FieldDesc := ⟨lo, w, .rw1s, r, []⟩

/-- A field whose values outside the given ranges are reserved encodings. -/
def ok (f : FieldDesc) (v : List (Nat × Nat)) : FieldDesc := { f with valid := v }

def reg (p0 p1 off stride count : Nat) (fs : List FieldDesc) : RegDesc := ⟨p0, p1, off, stride, count, false, fs⟩

/-- A register with a shadow and an active copy (R50). -/
def shad (p0 p1 off stride count : Nat) (fs : List FieldDesc) : RegDesc := ⟨p0, p1, off, stride, count, true, fs⟩

/-- The block types of the page index (R65). COD_4, the codec contexts, stands apart as ctx (R67). -/
inductive Blk where
  | top | hif | lnk | cwy | ing | psl | clr | wit | smp | vlc | gcx | tsq | hbm | cod | ctx | eth | tim | dsp | xlt
  | dma | bit | thm | pwr | cnt
  deriving DecidableEq, Repr

/-- A row of the page index (R65): type code, instances, pages each, BAR0 offset of instance 0, first summary bit,
whether the block has a power domain of its own. -/
structure PageRow where
  code : Nat
  count : Nat
  pages : Nat
  base : Nat
  bit0 : Nat
  switched : Bool
  deriving DecidableEq, Repr

def Blk.row : Blk → PageRow
  | .top => ⟨0x01, 1, 1, 0x00000, 0, false⟩
  | .hif => ⟨0x02, 1, 1, 0x01000, 1, false⟩
  | .lnk => ⟨0x03, 24, 1, 0x10000, 2, true⟩
  | .cwy => ⟨0x04, 4, 2, 0x30000, 26, false⟩
  | .ing => ⟨0x05, 4, 1, 0x38000, 30, false⟩
  | .psl => ⟨0x06, 5, 4, 0x40000, 34, true⟩
  | .clr => ⟨0x07, 28, 1, 0x60000, 39, true⟩
  | .wit => ⟨0x08, 4, 1, 0x80000, 67, true⟩
  | .smp => ⟨0x09, 1, 2, 0x88000, 71, false⟩
  | .vlc => ⟨0x0A, 1, 2, 0x8C000, 72, true⟩
  | .gcx => ⟨0x0B, 1, 1, 0x8E000, 73, true⟩
  | .tsq => ⟨0x0C, 1, 4, 0x90000, 74, false⟩
  | .hbm => ⟨0x0D, 4, 2, 0xA0000, 75, true⟩
  | .cod => ⟨0x0E, 4, 1, 0xB0000, 79, true⟩
  | .ctx => ⟨0x0E, 1, 16, 0xB8000, 83, false⟩
  | .eth => ⟨0x0F, 4, 4, 0xD0000, 84, true⟩
  | .tim => ⟨0x10, 1, 2, 0xE0000, 88, false⟩
  | .dsp => ⟨0x11, 1, 2, 0xE4000, 89, true⟩
  | .xlt => ⟨0x12, 1, 2, 0xE8000, 90, true⟩
  | .dma => ⟨0x13, 16, 1, 0xF0000, 91, true⟩
  | .bit => ⟨0x14, 1, 8, 0x100000, 107, false⟩
  | .thm => ⟨0x15, 1, 1, 0x108000, 108, false⟩
  | .pwr => ⟨0x16, 1, 2, 0x10C000, 109, false⟩
  | .cnt => ⟨0x17, 1, 4, 0x110000, 110, false⟩

def Blk.all : List Blk := [.top, .hif, .lnk, .cwy, .ing, .psl, .clr, .wit, .smp, .vlc, .gcx, .tsq, .hbm, .cod, .ctx,
  .eth, .tim, .dsp, .xlt, .dma, .bit, .thm, .pwr, .cnt]

/-- The BAR0 offset of an instance of a block: the key of its page header. -/
def Blk.at (b : Blk) (i : Nat) : Nat := b.row.base + i * (b.row.pages * 0x1000)

abbrev TOP : Nat := Blk.top.at 0
abbrev HIF : Nat := Blk.hif.at 0
abbrev LNK (q : Nat) : Nat := Blk.lnk.at q
abbrev CWY (h : Nat) : Nat := Blk.cwy.at h
abbrev ING (h : Nat) : Nat := Blk.ing.at h
abbrev PSL (p : Nat) : Nat := Blk.psl.at p
abbrev CLR (i : Nat) : Nat := Blk.clr.at i
abbrev WIT (w : Nat) : Nat := Blk.wit.at w
abbrev SMP : Nat := Blk.smp.at 0
abbrev VLC : Nat := Blk.vlc.at 0
abbrev GCX : Nat := Blk.gcx.at 0
abbrev TSQ : Nat := Blk.tsq.at 0
abbrev HBM (k : Nat) : Nat := Blk.hbm.at k
abbrev COD (e : Nat) : Nat := Blk.cod.at e
abbrev CTX4 : Nat := Blk.ctx.at 0
abbrev ETH (k : Nat) : Nat := Blk.eth.at k
abbrev TIM : Nat := Blk.tim.at 0
abbrev DSP : Nat := Blk.dsp.at 0
abbrev XLT : Nat := Blk.xlt.at 0
abbrev DMA (c : Nat) : Nat := Blk.dma.at c
abbrev BIT : Nat := Blk.bit.at 0
abbrev THM : Nat := Blk.thm.at 0
abbrev PWR : Nat := Blk.pwr.at 0
abbrev CNT : Nat := Blk.cnt.at 0

/-- An instance that owns a BAR0 offset, with the offset relative to the instance. -/
structure Owner where
  blk : Blk
  inst : Nat
  rel : Nat
  deriving DecidableEq, Repr

/-- The instance that a BAR0 offset belongs to, if a page occupies it (R65). -/
def ownerIn : List Blk → Nat → Option Owner
  | [], _ => none
  | b :: r, off =>
    let sz := b.row.pages * 0x1000
    if b.row.base ≤ off ∧ off < b.row.base + b.row.count * sz then
      some ⟨b, (off - b.row.base) / sz, (off - b.row.base) % sz⟩
    else ownerIn r off

def owner (off : Nat) : Option Owner := ownerIn Blk.all off

/-- The hand-over kind reported in PAGE_CAP.HANDOVER (R38): 1 where a chapter says frame boundary. -/
def Blk.handover : Blk → Nat
  | .ing | .psl | .clr | .wit | .dsp => 1
  | _ => 0

/-- The register map of the LNK pages (R146–R149, ch. 04). -/
def lnkRegs : List RegDesc := [
  reg 0 0 0x100 0x4 1 [rw 0 1 0, rw 1 2 0, rw 3 1 0],  -- LNK_QUAD_CFG
  reg 0 0 0x104 0x4 1 [ro 0 1 0, ro 1 1 0, ro 2 1 0, ro 3 2 0, ro 5 2 0, ro 7 2 0, ro 9 1 0],  -- LNK_QUAD_STAT
  reg 0 0 0x108 0x4 1 [rw 0 3 4, rw 4 3 4, rw 8 3 5, rw 12 3 6, rw 16 3 1, rw 20 3 1, rw 24 3 2, rw 28 3 2],  -- LNK_BAND_PRESET
  reg 0 0 0x10C 0x4 1 [ok (rw 0 8 0x19) [(5, 255)]],  -- LNK_CAL_CTRL
  reg 0 0 0x110 0x4 1 [ok (rw 0 8 0x28) [(10, 50)], rw 8 8 8, ok (rw 16 8 0xD) [(0, 64)]],  -- LNK_DET_CFG
  reg 0 0 0x114 0x4 1 [rw 0 2 0, rw 2 6 0, rw 8 7 0, ok (rw 15 2 1) [(0, 2)], ok (rw 17 5 0) [(0, 30)], rw1s 31 1 0],  -- LNK_SCAN_CTRL
  reg 0 0 0x118 0x4 1 [ro 0 1 0, ro 1 1 0],  -- LNK_SCAN_STAT
  reg 0 0 0x11C 0x4 1 [ro 0 32 0],  -- LNK_SCAN_ERR
  reg 0 0 0x120 0x4 8 [ok (rw 0 4 0) [(0, 8)], ok (rw 8 4 0) [(0, 12)], ro 16 6 0],  -- LNK_PRESET
  reg 0 0 0x200 0x40 4 [rw 0 1 0, rw 1 1 0, ok (rw 2 2 0) [(0, 2)]],  -- LNK_LANE_CFG
  reg 0 0 0x204 0x40 4 [rw 0 2 3, rw 4 2 3],  -- LNK_LANE_PWR
  reg 0 0 0x208 0x40 4 [ro 0 2 3, ro 4 2 3, ro 8 1 0, ro 9 1 0, ro 10 1 0, ro 11 1 0, ro 12 1 0, ro 13 3 0, ro 16 1 0],  -- LNK_LANE_STAT
  reg 0 0 0x20C 0x40 4 [rw1s 0 1 0, rw 1 1 1],  -- LNK_LANE_TRAIN
  reg 0 0 0x210 0x40 4 [ro 0 6 0, ro 6 6 0, ro 12 6 0, ro 18 6 0, ro 24 6 0],  -- LNK_TX_COEF
  reg 0 0 0x214 0x40 4 [ro 0 8 0, ro 8 8 0, ro 16 8 0xFF, ro 24 1 0],  -- LNK_MARGIN
  reg 0 0 0x218 0x40 4 [rc 0 8 0, rc 8 8 0, rc 16 8 0],  -- LNK_EVT_CNT
  reg 0 0 0x21C 0x40 4 [ok (rw 0 4 0) [(0, 9)], rw 4 1 0, rw 5 1 0, wo 6 1 0],  -- LNK_PRBS_CTRL
  reg 0 0 0x220 0x40 4 [ro 0 1 0, ro 1 1 0],  -- LNK_PRBS_STAT
  reg 0 0 0x224 0x40 4 [wo 0 1 0, ok (wo 8 6 0) [(0, 0), (10, 40)]],  -- LNK_PRBS_INJ
  reg 0 0 0x228 0x40 4 [ro 0 32 0],  -- LNK_PRBS_ERR_LO
  reg 0 0 0x22C 0x40 4 [ro 0 16 0],  -- LNK_PRBS_ERR_HI
  reg 0 0 0x230 0x40 4 [ro 0 32 0],  -- LNK_PRBS_BITS_LO
  reg 0 0 0x234 0x40 4 [ro 0 16 0],  -- LNK_PRBS_BITS_HI
  reg 0 0 0x238 0x40 4 [rw 0 6 0, rw 6 6 0, rw 12 6 0, ok (rw 18 6 0x14) [(0, 32)], rw 24 6 0]]  -- LNK_ETH_TXFFE

/-- The register map of the CWY pages (R200–R202, ch. 05). -/
def cwyRegs1 : List RegDesc := [
  reg 0 0 0x100 0x4 1 [rw 0 1 1, rw 1 1 1, rw1s 2 1 0],  -- CWY_CTRL
  reg 0 0 0x104 0x4 1 [ro 0 4 0, ro 4 2 0, ro 6 1 0, ro 7 1 0, ro 8 4 0, ro 12 1 0],  -- CWY_STAT
  reg 0 0 0x108 0x4 1 [ro 0 24 0],  -- CWY_SFC
  reg 0 0 0x10C 0x4 1 [ro 0 24 0xFFFFFF],  -- CWY_LANE_STAT
  reg 0 0 0x110 0x4 1 [ro 0 32 0x76543210],  -- CWY_ROLE_MAP_LO
  reg 0 0 0x114 0x4 1 [ro 0 4 8, ro 4 4 9, ro 8 4 0xA, ro 12 4 0xB],  -- CWY_ROLE_MAP_HI
  reg 0 0 0x118 0x4 1 [rc 0 32 0],  -- CWY_REBUILT
  reg 0 0 0x11C 0x4 1 [rc 0 32 0],  -- CWY_UNRECOV
  reg 0 0 0x120 0x4 1 [rc 0 32 0],  -- CWY_PROTO_ERR
  reg 0 0 0x124 0x4 1 [ok (wo 0 2 0) [(0, 2)]],  -- CWY_FEED_CTRL
  reg 0 0 0x128 0x4 1 [ro 0 1 0, ro 1 1 0, ro 2 1 0, ro 3 1 0, ro 16 10 0],  -- CWY_FEED_STAT
  reg 0 0 0x12C 0x4 1 [rw 0 8 1],  -- CWY_PROBE_CFG
  reg 0 0 0x130 0x4 1 [rw 0 32 0],  -- CWY_ASYM_A
  reg 0 0 0x134 0x4 1 [rw 0 32 0],  -- CWY_ASYM_B
  reg 0 0 0x138 0x4 1 [ro 0 32 0],  -- CWY_OWD
  reg 0 0 0x13C 0x4 1 [ro 0 32 0],  -- CWY_OFFSET_LO
  reg 0 0 0x140 0x4 1 [ro 0 32 0],  -- CWY_OFFSET_HI
  reg 0 0 0x144 0x4 1 [ro 0 32 0],  -- CWY_PROBE_CNT
  reg 0 0 0x180 0x4 12 [ro 0 16 0, ro 31 1 0],  -- CWY_SKEW
  reg 0 0 0x1C0 0x4 12 [rc 0 8 0, rc 8 8 0, rc 16 8 0, rc 24 8 0],  -- CWY_LANE_ERR
  reg 1 1 0x100 0x4 1 [rw 0 8 0],  -- CWY_TXQ_TYPE
  reg 1 1 0x104 0x4 3 [rw 0 32 0],  -- CWY_TXQ_BODY
  reg 1 1 0x110 0x4 1 [wo 0 1 0],  -- CWY_TXQ_PUSH
  reg 1 1 0x114 0x4 1 [ro 0 6 0x20, ro 16 16 0]]  -- CWY_TXQ_STAT
/-- The register map of the CWY pages, continued. -/
def cwyRegs2 : List RegDesc := [
  reg 1 1 0x118 0x4 1 [ro 0 7 0, ro 7 1 0],  -- CWY_RXQ_STAT
  reg 1 1 0x11C 0x4 1 [ro 0 8 0, ro 8 1 0, ro 16 16 0],  -- CWY_RXQ_TYPE
  reg 1 1 0x120 0x4 3 [ro 0 32 0],  -- CWY_RXQ_BODY
  reg 1 1 0x12C 0x4 1 [wo 0 1 0],  -- CWY_RXQ_POP
  reg 1 1 0x140 0x4 5 [ro 0 32 0],  -- CWY_HEAD_CAP
  reg 1 1 0x160 0x4 1 [ro 0 16 0, ro 16 16 0]]  -- CWY_HEAD_ERR

/-- The register map of the ING pages (R237–R238, ch. 06). -/
def ingRegs1 : List RegDesc := [
  shad 0 0 0x100 0x4 1 [rw 0 16 0x100, rw 16 16 0x40],  -- ING_GEOM
  shad 0 0 0x104 0x4 1 [rw 0 2 3, ok (rw 4 3 0) [(0, 4)]],  -- ING_FORMAT
  shad 0 0 0x108 0x4 1 [rw 0 32 0x5DC0],  -- ING_RATE
  shad 0 0 0x10C 0x4 1 [ok (rw 0 3 0) [(0, 4), (7, 7)]],  -- ING_BIND
  shad 0 0 0x110 0x4 1 [rw 0 16 0],  -- ING_PAD
  shad 0 0 0x114 0x4 1 [ok (rw 0 16 0x64) [(1, 65535)], rw 16 8 8],  -- ING_TIMING
  shad 0 0 0x118 0x4 1 [rw 0 16 0, rw 16 8 0, rw 31 1 0],  -- ING_SET
  shad 0 0 0x120 0x4 1 [rw 0 32 0],  -- ING_RET_BASE_LO
  shad 0 0 0x124 0x4 1 [rw 0 32 0],  -- ING_RET_BASE_HI
  shad 0 0 0x128 0x4 1 [rw 0 32 0],  -- ING_STAT_BASE_LO
  shad 0 0 0x12C 0x4 1 [rw 0 32 0],  -- ING_STAT_BASE_HI
  shad 0 0 0x130 0x4 1 [rw 0 1 0, ok (rw 1 4 4) [(1, 8)], rw 16 16 0xFFFF],  -- ING_STAT_CFG
  shad 0 0 0x140 0x4 16 [rw 0 16 0, rw 16 16 0],  -- ING_FOCUS_TL
  shad 0 0 0x180 0x4 16 [rw 0 16 0, rw 16 16 0],  -- ING_FOCUS_BR
  reg 0 0 0x200 0x4 1 [ro 0 3 0, ro 3 1 0, ro 4 3 0, ro 16 16 0],  -- ING_STAT
  reg 0 0 0x204 0x4 1 [ro 0 4 0],  -- ING_CHECK
  reg 0 0 0x208 0x4 1 [rw 0 32 0],  -- ING_NEXT_SEQ_LO
  reg 0 0 0x20C 0x4 1 [rw 0 32 0],  -- ING_NEXT_SEQ_HI
  reg 0 0 0x210 0x4 1 [ro 0 32 0],  -- ING_LAST_HFC
  reg 0 0 0x214 0x4 1 [ro 0 3 0, ro 8 8 0, ro 16 16 0],  -- ING_SET_STAT
  reg 0 0 0x218 0x4 1 [ro 0 32 0],  -- ING_SET_HFC
  reg 0 0 0x21C 0x4 1 [rc 0 16 0, rc 16 16 0],  -- ING_LINE_ERR
  reg 0 0 0x220 0x4 1 [rc 0 8 0, rc 8 8 0, rc 16 8 0, rc 24 8 0],  -- ING_FRAME_ERR
  reg 0 0 0x224 0x4 1 [rc 0 8 0, rc 8 8 0, rc 16 8 0, rc 24 8 0]]  -- ING_FRAME_ERR2
/-- The register map of the ING pages, continued. -/
def ingRegs2 : List RegDesc := [
  reg 0 0 0x228 0x4 1 [ro 0 32 0],  -- ING_STAT_WR
  reg 0 0 0x22C 0x4 1 [ro 0 32 0],  -- ING_RET_LINE
  reg 0 0 0x230 0x4 1 [ro 0 5 0, ro 8 1 0],  -- ING_ABN_STAT
  reg 0 0 0x234 0x4 1 [wo 0 1 0, wo 1 1 0],  -- ING_ABN_CTRL
  reg 0 0 0x238 0x4 1 [ro 0 32 0],  -- ING_ABN_FIRST_LO
  reg 0 0 0x23C 0x4 1 [ro 0 32 0],  -- ING_ABN_FIRST_HI
  reg 0 0 0x240 0x4 1 [ro 0 32 0],  -- ING_ABN_LAST_LO
  reg 0 0 0x244 0x4 1 [ro 0 32 0],  -- ING_ABN_LAST_HI
  reg 0 0 0x248 0x4 1 [ro 0 4 0]]  -- ING_ABN_REASON

/-- The register map of the PSL pages (R280–R281, R289, ch. 07–08). -/
def pslRegs1 : List RegDesc := [
  shad 0 0 0x100 0x4 1 [rw 0 1 0, rw 1 1 0, rw 2 1 0],  -- PSL_CFG
  shad 0 0 0x104 0x4 4 [rw 0 24 0],  -- PSL_BLACK
  shad 0 0 0x114 0x4 4 [rw 0 16 0x1000],  -- PSL_WB
  shad 0 0 0x124 0x4 1 [rw 0 16 0],  -- PSL_DEFECT_CFG
  shad 0 0 0x128 0x4 1 [rw 2 30 0],  -- PSL_DEFECT_BASE_LO
  shad 0 0 0x12C 0x4 1 [rw 0 32 0],  -- PSL_DEFECT_BASE_HI
  shad 0 0 0x130 0x4 1 [rw 0 21 0],  -- PSL_DEFECT_COUNT
  shad 0 0 0x134 0x4 1 [ok (rw 0 3 4) [(0, 4)]],  -- PSL_SHED_CFG
  reg 0 0 0x140 0x4 1 [rw 12 20 0],  -- PSL_TBL_BASE_LO
  reg 0 0 0x144 0x4 1 [rw 0 32 0],  -- PSL_TBL_BASE_HI
  reg 0 0 0x148 0x4 1 [rw1s 0 1 0],  -- PSL_TBL_LOAD
  reg 0 0 0x14C 0x4 1 [ro 0 2 0, ro 4 4 0, ro 8 4 0],  -- PSL_TBL_STAT
  reg 0 0 0x160 0x4 1 [ro 0 1 0, ro 1 2 0, ro 3 1 0, ro 4 1 0, ro 5 1 0, ro 6 1 0, ro 8 4 0, ro 12 3 0],  -- PSL_STAT
  reg 0 0 0x164 0x4 1 [ro 0 8 0, ro 8 4 0, ro 12 2 0, ro 14 1 0, ro 15 1 0],  -- PSL_RES_STAT
  reg 0 0 0x168 0x4 1 [ro 0 16 0],  -- PSL_RES_LINE
  reg 0 0 0x16C 0x4 1 [ro 0 32 0],  -- PSL_RES_SEQ_LO
  reg 0 0 0x170 0x4 1 [ro 0 32 0],  -- PSL_RES_SEQ_HI
  reg 0 0 0x174 0x4 1 [rc 0 12 0, rc 12 12 0, rc 24 8 0],  -- PSL_RES_CNT
  reg 0 0 0x178 0x4 1 [rc 0 32 0],  -- PSL_RECOMP_CNT
  reg 0 0 0x17C 0x4 1 [rc 0 16 0],  -- PSL_OVERRUN
  reg 0 0 0x180 0x4 1 [ro 0 4 0, ro 4 2 0, ro 6 1 0],  -- PSL_CHECK
  shad 1 1 0x100 0x4 1 [rw 0 32 0x37800000],  -- PSL_DM_EPS
  shad 1 1 0x104 0x4 4 [rw 0 32 0],  -- PSL_NR_A
  shad 1 1 0x114 0x4 4 [rw 0 32 0x35800000]]  -- PSL_NR_B
/-- The register map of the PSL pages, continued. -/
def pslRegs2 : List RegDesc := [
  shad 1 1 0x124 0x4 1 [rw 0 32 0],  -- PSL_NR_STRENGTH
  shad 1 1 0x128 0x4 1 [rw 0 8 0, rw 8 1 0],  -- PSL_TNR_CFG
  shad 1 1 0x12C 0x4 1 [rw 0 32 0x40000000],  -- PSL_TNR_TLO
  shad 1 1 0x130 0x4 1 [rw 0 32 0x40800000],  -- PSL_TNR_THI
  shad 1 1 0x134 0x4 1 [rw 0 32 0],  -- PSL_TNR_BASE_0_LO
  shad 1 1 0x138 0x4 1 [rw 0 32 0],  -- PSL_TNR_BASE_0_HI
  shad 1 1 0x13C 0x4 1 [rw 0 32 0],  -- PSL_TNR_BASE_1_LO
  shad 1 1 0x140 0x4 1 [rw 0 32 0],  -- PSL_TNR_BASE_1_HI
  shad 1 1 0x180 0x4 16 [rw 0 16 0, rw 16 16 0],  -- PSL_NR_WTAB
  shad 2 3 0x100 0x100 2 [ok (rw 0 2 0) [(0, 2)], rw 2 6 0, rw 8 2 0, rw 10 1 0, rw 11 1 0, rw 12 4 0, ok (rw 16 4 0) [(0, 10)]],  -- PSL_TAP_CFG
  shad 2 3 0x104 0x100 2 [rw 0 16 0, rw 16 16 0],  -- PSL_TAP_CROP_XY
  shad 2 3 0x108 0x100 2 [rw 0 16 0, rw 16 16 0],  -- PSL_TAP_CROP_WH
  shad 2 3 0x10C 0x100 2 [rw 0 16 0, rw 16 16 0],  -- PSL_TAP_OUT_WH
  shad 2 3 0x110 0x100 2 [ok (rw 0 4 0) [(0, 7)], rw 4 1 0, rw 5 2 0],  -- PSL_TAP_FMT
  shad 2 3 0x114 0x100 2 [rw 8 24 0],  -- PSL_TAP_BASE_LO
  shad 2 3 0x118 0x100 2 [rw 0 32 0],  -- PSL_TAP_BASE_HI
  shad 2 3 0x11C 0x100 2 [rw 0 32 0],  -- PSL_TAP_STRIDE
  shad 2 3 0x120 0x100 2 [rw 0 32 0],  -- PSL_TAP_PLANE
  shad 2 3 0x124 0x100 2 [rw 0 32 0],  -- PSL_TAP_BUFSZ
  shad 2 3 0x128 0x100 2 [rw 12 20 0],  -- PSL_TAP_REC_LO
  shad 2 3 0x12C 0x100 2 [rw 0 32 0],  -- PSL_TAP_REC_HI
  shad 2 3 0x130 0x100 2 [rw 0 32 0],  -- PSL_TAP_SPILL_LO
  shad 2 3 0x134 0x100 2 [rw 0 32 0],  -- PSL_TAP_SPILL_HI
  reg 2 3 0x180 0x100 2 [ro 0 16 0, ro 16 16 0]]  -- PSL_TAP_REL
/-- The register map of the PSL pages, continued. -/
def pslRegs3 : List RegDesc := [
  reg 2 3 0x184 0x100 2 [ro 0 4 0, ro 4 5 0, ro 16 16 0],  -- PSL_TAP_BUF
  reg 2 3 0x188 0x100 2 [wo 0 5 0],  -- PSL_TAP_RET
  reg 2 3 0x18C 0x100 2 [ro 0 1 0, ro 8 24 0],  -- PSL_TAP_SPILL_STAT
  reg 2 3 0x190 0x100 2 [rc 0 8 0, rc 8 8 0, rc 16 8 0, rc 24 8 0],  -- PSL_TAP_DROP
  shad 1 1 0x300 0x4 1 [rw 0 1 0, rw 1 1 0],  -- PSL_SL_CFG
  shad 1 1 0x304 0x4 12 [rw 0 32 0],  -- PSL_SL_M
  shad 1 1 0x334 0x4 1 [rw 0 32 0]]  -- PSL_SL_FLOOR

/-- The register map of the CLR pages (R312–R313, ch. 08). -/
def clrRegs : List RegDesc := [
  shad 0 0 0x100 0x4 1 [rw 0 1 0, rw 1 1 0, rw 2 1 0, rw 3 1 0, rw 4 1 0, ok (rw 8 5 0) [(0, 27)], ok (rw 16 4 0) [(0, 4)], ok (rw 20 4 0) [(0, 6)], ok (rw 24 4 0) [(0, 3)]],  -- CLR_CFG
  shad 0 0 0x104 0x4 1 [rw 0 1 0, rw 8 8 0, rw 16 8 0],  -- CLR_PRE_DOM
  shad 0 0 0x108 0x4 1 [rw 0 32 0],  -- CLR_PRE_MIN
  shad 0 0 0x10C 0x4 1 [rw 0 32 0x3F800000],  -- CLR_PRE_MAX
  shad 0 0 0x110 0x4 1 [rw 0 1 0, rw 8 8 0, rw 16 8 0],  -- CLR_POST_DOM
  shad 0 0 0x114 0x4 1 [rw 0 32 0],  -- CLR_POST_MIN
  shad 0 0 0x118 0x4 1 [rw 0 32 0x3F800000],  -- CLR_POST_MAX
  shad 0 0 0x120 0x4 12 [rw 0 32 0],  -- CLR_MATIN
  shad 0 0 0x150 0x4 12 [rw 0 32 0],  -- CLR_MATOUT
  reg 0 0 0x200 0x4 1 [rw 12 20 0],  -- CLR_TBL_BASE_LO
  reg 0 0 0x204 0x4 1 [rw 0 32 0],  -- CLR_TBL_BASE_HI
  reg 0 0 0x208 0x4 1 [rw 12 20 0],  -- CLR_LUT_BASE_LO
  reg 0 0 0x20C 0x4 1 [rw 0 32 0],  -- CLR_LUT_BASE_HI
  reg 0 0 0x210 0x4 1 [rw 0 32 0],  -- CLR_LUT_CRC
  reg 0 0 0x214 0x4 1 [rw1s 0 1 0, rw1s 1 1 0, rw1s 2 1 0],  -- CLR_LOAD
  reg 0 0 0x218 0x4 1 [rw 0 1 0, ok (rw 4 4 0) [(0, 12)]],  -- CLR_GEN_CFG
  reg 0 0 0x21C 0x4 1 [ro 0 2 0, ro 2 4 0, ro 6 2 0, ro 8 2 0, ro 10 4 0, ro 14 2 0, ro 16 1 0],  -- CLR_TBL_STAT
  reg 0 0 0x220 0x4 1 [ro 0 4 0, ro 4 1 0],  -- CLR_CHECK
  reg 0 0 0x224 0x4 1 [rc 0 32 0]]  -- CLR_LUT_CLAMP

/-- The register map of the WIT pages (R336–R337, ch. 09). -/
def witRegs1 : List RegDesc := [
  shad 0 0 0x100 0x4 1 [ok (rw 0 3 0) [(0, 4)], rw 3 5 0xC, rw 8 3 0, rw 11 1 0, rw 12 1 0, rw 13 1 0, rw 14 1 0, rw 15 1 0],  -- WIT_CFG
  shad 0 0 0x104 0x4 1 [rw 0 16 0x40, rw 16 16 0x20],  -- WIT_GEOM
  shad 0 0 0x108 0x4 1 [rw 0 16 0, rw 16 16 0],  -- WIT_SYNC_OFS
  shad 0 0 0x10C 0x4 1 [rw 0 32 0],  -- WIT_RATE
  shad 0 0 0x110 0x4 1 [ok (rw 0 16 0x64) [(1, 65535)], rw 16 8 8],  -- WIT_TIMING
  shad 0 0 0x114 0x4 4 [rw 0 24 0],  -- WIT_BLACK
  shad 0 0 0x124 0x4 4 [rw 0 16 0x1000],  -- WIT_WB
  shad 0 0 0x134 0x4 1 [rw 0 1 0, ok (rw 1 4 4) [(1, 8)]],  -- WIT_STAT_CFG
  shad 0 0 0x138 0x4 1 [rw 0 32 0],  -- WIT_STAT_BASE_LO
  shad 0 0 0x13C 0x4 1 [rw 0 32 0],  -- WIT_STAT_BASE_HI
  shad 0 0 0x140 0x40 2 [ok (rw 0 2 0) [(0, 2)], rw 2 6 0, rw 10 1 0, rw 11 1 0, rw 12 4 0, ok (rw 16 4 0) [(0, 10)]],  -- WIT_TAP_CFG
  shad 0 0 0x144 0x40 2 [rw 0 16 0, rw 16 16 0],  -- WIT_TAP_CROP_XY
  shad 0 0 0x148 0x40 2 [rw 0 16 0, rw 16 16 0],  -- WIT_TAP_CROP_WH
  shad 0 0 0x14C 0x40 2 [rw 0 16 0, rw 16 16 0],  -- WIT_TAP_OUT_WH
  shad 0 0 0x150 0x40 2 [ok (rw 0 4 0) [(0, 7)], rw 4 1 0, rw 5 2 0],  -- WIT_TAP_FMT
  shad 0 0 0x154 0x40 2 [rw 8 24 0],  -- WIT_TAP_BASE_LO
  shad 0 0 0x158 0x40 2 [rw 0 32 0],  -- WIT_TAP_BASE_HI
  shad 0 0 0x15C 0x40 2 [rw 0 32 0],  -- WIT_TAP_STRIDE
  shad 0 0 0x160 0x40 2 [rw 0 32 0],  -- WIT_TAP_PLANE
  shad 0 0 0x164 0x40 2 [rw 0 32 0],  -- WIT_TAP_BUFSZ
  shad 0 0 0x168 0x40 2 [rw 12 20 0],  -- WIT_TAP_REC_LO
  shad 0 0 0x16C 0x40 2 [rw 0 32 0],  -- WIT_TAP_REC_HI
  reg 0 0 0x200 0x4 1 [ro 0 3 0, ro 4 2 0, ro 6 1 0, ro 7 1 0],  -- WIT_STAT
  reg 0 0 0x204 0x4 1 [ro 0 4 0]]  -- WIT_CHECK
/-- The register map of the WIT pages, continued. -/
def witRegs2 : List RegDesc := [
  reg 0 0 0x208 0x4 1 [rw 0 32 0],  -- WIT_NEXT_WFN_LO
  reg 0 0 0x20C 0x4 1 [rw 0 32 0],  -- WIT_NEXT_WFN_HI
  reg 0 0 0x210 0x4 1 [ro 0 20 0],  -- WIT_PCLK
  reg 0 0 0x214 0x4 1 [rc 0 8 0, rc 8 8 0, rc 16 8 0],  -- WIT_LINE_ERR
  reg 0 0 0x218 0x4 1 [rc 0 8 0, rc 8 8 0, rc 16 8 0, rc 24 8 0],  -- WIT_FRAME_ERR
  reg 0 0 0x21C 0x4 1 [ro 0 32 0],  -- WIT_STAT_WR
  reg 0 0 0x220 0x4 1 [ro 0 32 0],  -- WIT_ABN_FIRST_LO
  reg 0 0 0x224 0x4 1 [ro 0 32 0],  -- WIT_ABN_FIRST_HI
  reg 0 0 0x228 0x4 1 [ro 0 32 0],  -- WIT_ABN_LAST_LO
  reg 0 0 0x22C 0x4 1 [ro 0 32 0],  -- WIT_ABN_LAST_HI
  reg 0 0 0x230 0x4 1 [ro 0 4 0],  -- WIT_ABN_REASON
  reg 0 0 0x234 0x4 1 [rc 0 32 0],  -- WIT_ABN_CNT
  reg 0 0 0x240 0x10 2 [ro 0 4 0, ro 4 5 0, ro 16 16 0],  -- WIT_TAP_BUF
  reg 0 0 0x244 0x10 2 [wo 0 5 0],  -- WIT_TAP_RET
  reg 0 0 0x248 0x10 2 [rc 0 8 0, rc 8 8 0, rc 16 8 0, rc 24 8 0],  -- WIT_TAP_DROP
  reg 0 0 0x260 0x4 1 [rc 0 12 0]]  -- WIT_RES_CNT

/-- The register map of the SMP pages (R364–R365, ch. 10). -/
def smpRegs : List RegDesc := [
  reg 0 0 0x100 0x4 1 [rw 12 20 0],  -- SMP_PLAN_BASE_LO
  reg 0 0 0x104 0x4 1 [rw 0 32 0],  -- SMP_PLAN_BASE_HI
  reg 0 0 0x108 0x4 1 [rw1s 0 1 0, rw1s 1 1 0],  -- SMP_PLAN_CTRL
  reg 0 0 0x10C 0x4 1 [ro 0 2 0, ro 2 1 0],  -- SMP_PLAN_STAT
  reg 0 0 0x110 0x4 1 [ro 0 4 0, ro 8 8 0, ro 16 8 0, ro 24 1 0],  -- SMP_CHECK
  reg 0 0 0x114 0x4 1 [ro 0 32 0],  -- SMP_PLAN_ID
  reg 0 0 0x118 0x4 1 [ro 0 8 0, ro 8 8 0, ro 16 8 0],  -- SMP_NEED
  reg 0 0 0x11C 0x4 1 [ro 0 16 0, ro 16 16 0],  -- SMP_LOAD
  reg 0 0 0x120 0x4 1 [ro 0 16 0, ro 16 4 0],  -- SMP_TKO
  reg 0 0 0x124 0x4 1 [ro 0 1 0, ro 1 1 0, ro 2 1 0, ro 4 4 0, ro 8 4 0],  -- SMP_STAT
  reg 0 0 0x128 0x4 1 [ro 0 24 0],  -- SMP_GROUP_PWR
  reg 0 0 0x12C 0x4 1 [rc 0 16 0, rc 16 8 0, rc 24 8 0],  -- SMP_ECC_CNT
  reg 0 0 0x130 0x4 1 [ro 0 8 0, ro 8 14 0, ro 31 1 0],  -- SMP_ECC_LAST
  reg 0 0 0x134 0x4 1 [ro 0 16 0],  -- SMP_SCRUB
  reg 0 0 0x138 0x4 1 [rc 0 8 0, rc 8 8 0, rc 16 4 0],  -- SMP_ENV
  reg 1 1 0x100 0x4 48 [ro 0 32 0xFFFFFFFF],  -- SMP_MAP
  reg 1 1 0x200 0x4 6 [ro 0 32 0]]  -- SMP_FAIL

/-- The register map of the VLC pages (R390–R391, ch. 11). -/
def vlcRegs : List RegDesc := [
  reg 0 0 0x100 0x4 1 [ro 0 4 0, ro 4 1 0],  -- VLC_STAT
  reg 0 0 0x104 0x4 1 [rc 0 8 0, rc 8 8 0, rc 16 8 0],  -- VLC_VERIFY
  reg 0 0 0x108 0x4 1 [ro 0 2 0, ro 2 1 0, ro 3 1 0, ro 16 16 0],  -- VLC_FAIL_INFO
  reg 0 0 0x10C 0x4 1 [ro 0 32 0],  -- VLC_FAIL_SEQ_LO
  reg 0 0 0x110 0x4 1 [ro 0 32 0],  -- VLC_FAIL_SEQ_HI
  reg 1 1 0x100 0x40 4 [ok (rw 0 2 0) [(0, 1)], rw 8 8 0x40],  -- VLC_HEAD_CFG
  reg 1 1 0x104 0x40 4 [ro 0 1 0, ro 1 1 0, ro 2 2 0, ro 4 4 0, ro 16 16 0],  -- VLC_HEAD_STAT
  reg 1 1 0x108 0x40 4 [wo 0 1 0],  -- VLC_HEAD_CTRL
  reg 1 1 0x10C 0x40 4 [rc 0 32 0],  -- VLC_STRIPS
  reg 1 1 0x110 0x40 4 [rc 0 32 0],  -- VLC_LOSSLESS
  reg 1 1 0x114 0x40 4 [rc 0 32 0],  -- VLC_FLAT
  reg 1 1 0x118 0x40 4 [ro 0 32 0],  -- VLC_IN_LO
  reg 1 1 0x11C 0x40 4 [ro 0 32 0],  -- VLC_IN_HI
  reg 1 1 0x120 0x40 4 [ro 0 32 0],  -- VLC_OUT_LO
  reg 1 1 0x124 0x40 4 [ro 0 32 0],  -- VLC_OUT_HI
  reg 1 1 0x128 0x40 4 [rc 0 32 0]]  -- VLC_RECODE

/-- The register map of the GCX pages (R406–R407, ch. 11). -/
def gcxRegs : List RegDesc := [
  reg 0 0 0x100 0x4 1 [rw 12 20 0],  -- GCX_RING_LO
  reg 0 0 0x104 0x4 1 [rw 0 32 0],  -- GCX_RING_HI
  reg 0 0 0x108 0x4 1 [rw 12 20 0],  -- GCX_CPL_LO
  reg 0 0 0x10C 0x4 1 [rw 0 32 0],  -- GCX_CPL_HI
  reg 0 0 0x110 0x4 1 [ok (rw 0 4 4) [(4, 10)], rw 8 6 0],  -- GCX_RING_CFG
  reg 0 0 0x114 0x4 1 [rw 0 16 0],  -- GCX_PROD
  reg 0 0 0x118 0x4 1 [ro 0 16 0],  -- GCX_CONS
  reg 0 0 0x11C 0x4 1 [ro 0 16 0],  -- GCX_DONE
  reg 0 0 0x120 0x4 1 [rw1s 0 1 0],  -- GCX_CTRL
  reg 0 0 0x124 0x4 1 [ro 0 1 0, ro 1 1 0, ro 2 1 0, ro 3 1 0],  -- GCX_STAT
  reg 0 0 0x128 0x4 1 [ro 0 2 0],  -- GCX_WINDOW
  reg 0 0 0x12C 0x4 1 [rc 0 16 0]]  -- GCX_ERR_CNT

/-- The register map of the TSQ pages (R456–R457, ch. 12). -/
def tsqRegs1 : List RegDesc := [
  reg 0 0 0x100 0x4 1 [rw 19 13 0],  -- TSQ_STORE_BASE_LO
  reg 0 0 0x104 0x4 1 [rw 0 32 0],  -- TSQ_STORE_BASE_HI
  reg 0 0 0x108 0x4 1 [rw 0 32 0],  -- TSQ_STORE_STRIPES
  reg 0 0 0x10C 0x4 1 [ro 0 1 0, ro 1 1 0, ro 2 1 0, ro 3 1 0],  -- TSQ_STORE_STAT
  reg 0 0 0x110 0x4 1 [rw 12 20 0],  -- TSQ_JNL_BASE_LO
  reg 0 0 0x114 0x4 1 [rw 0 32 0],  -- TSQ_JNL_BASE_HI
  reg 0 0 0x118 0x4 1 [rw 0 32 0],  -- TSQ_JNL_BLOCKS
  reg 0 0 0x11C 0x4 1 [rw 0 32 0x100],  -- TSQ_JNL_RES
  reg 0 0 0x120 0x4 1 [ro 0 32 0],  -- TSQ_JNL_NEXT_LO
  reg 0 0 0x124 0x4 1 [ro 0 32 0],  -- TSQ_JNL_NEXT_HI
  reg 0 0 0x128 0x4 1 [ro 0 32 0],  -- TSQ_JNL_FREE
  reg 0 0 0x130 0x4 1 [rw 12 20 0],  -- TSQ_CQ_BASE_LO
  reg 0 0 0x134 0x4 1 [rw 0 32 0],  -- TSQ_CQ_BASE_HI
  reg 0 0 0x138 0x4 1 [ok (rw 0 4 6) [(6, 12)], rw 8 6 0],  -- TSQ_CQ_CFG
  reg 0 0 0x13C 0x4 1 [ro 0 32 0],  -- TSQ_CQ_TAIL
  reg 0 0 0x140 0x4 1 [rw 0 32 0],  -- TSQ_CQ_HEAD
  reg 0 0 0x150 0x4 1 [ok (rw 0 2 0) [(0, 2)], rw 2 1 0, ok (rw 16 16 0x64) [(1, 65535)]],  -- TSQ_PWR
  reg 0 0 0x154 0x4 1 [ro 0 2 0, ro 2 1 0],  -- TSQ_PWR_STAT
  reg 0 0 0x160 0x4 1 [wo 0 5 0, wo 8 1 0],  -- TSQ_ABORT
  reg 0 0 0x164 0x4 1 [rw 0 32 0],  -- TSQ_ABORT_HSN
  reg 0 0 0x168 0x4 1 [ro 0 1 0, ro 1 2 0],  -- TSQ_ABORT_STAT
  reg 0 0 0x170 0x4 1 [ro 0 32 0],  -- TSQ_DURABLE_CSN_LO
  reg 0 0 0x174 0x4 1 [ro 0 32 0],  -- TSQ_DURABLE_CSN_HI
  reg 0 0 0x178 0x4 1 [ro 0 2 0, ro 2 1 0, ro 16 16 0]]  -- TSQ_RCV_STAT
/-- The register map of the TSQ pages, continued. -/
def tsqRegs2 : List RegDesc := [
  reg 0 0 0x17C 0x4 1 [ro 0 16 0, ro 16 8 0, ro 24 7 0],  -- TSQ_WB_STAT
  reg 0 0 0x200 0x20 4 [rw 0 32 0],  -- TSQ_AREA_BASE
  reg 0 0 0x204 0x20 4 [rw 0 32 0],  -- TSQ_AREA_LEN
  reg 0 0 0x208 0x20 4 [ro 0 32 0],  -- TSQ_AREA_HEAD_LO
  reg 0 0 0x20C 0x20 4 [ro 0 32 0],  -- TSQ_AREA_HEAD_HI
  reg 0 0 0x210 0x20 4 [ro 0 32 0],  -- TSQ_AREA_TAIL_LO
  reg 0 0 0x214 0x20 4 [ro 0 32 0],  -- TSQ_AREA_TAIL_HI
  reg 0 0 0x218 0x20 4 [ro 0 32 0],  -- TSQ_AREA_FRAMES
  reg 0 0 0x21C 0x20 4 [ro 0 32 0],  -- TSQ_AREA_FREE
  reg 1 2 0x100 0x40 16 [rw 0 4 0, rw 4 1 0, rw 5 1 0, rw 6 2 0, rw 8 6 0],  -- TSQ_SLOT_CMD
  reg 1 2 0x104 0x40 16 [rw 0 32 0],  -- TSQ_SLOT_HSN
  reg 1 2 0x108 0x40 16 [rw 0 32 0],  -- TSQ_SLOT_BLK_LO
  reg 1 2 0x10C 0x40 16 [rw 0 32 0],  -- TSQ_SLOT_BLK_HI
  reg 1 2 0x110 0x40 16 [rw 0 32 0],  -- TSQ_SLOT_COUNT
  reg 1 2 0x118 0x40 16 [rw 6 26 0],  -- TSQ_SLOT_BUF_LO
  reg 1 2 0x11C 0x40 16 [rw 0 32 0],  -- TSQ_SLOT_BUF_HI
  reg 1 2 0x120 0x40 16 [ro 0 3 0, ro 4 3 0, ro 8 4 0],  -- TSQ_SLOT_STAT
  reg 1 2 0x124 0x40 16 [ro 0 32 0],  -- TSQ_SLOT_CSN_LO
  reg 1 2 0x128 0x40 16 [ro 0 32 0],  -- TSQ_SLOT_CSN_HI
  reg 3 3 0x100 0x4 1 [ro 0 5 0, ro 8 1 0],  -- TSQ_DEF_STAT
  reg 3 3 0x104 0x4 1 [ro 0 32 0],  -- TSQ_DEF_CSN_LO
  reg 3 3 0x108 0x4 1 [ro 0 32 0],  -- TSQ_DEF_CSN_HI
  reg 3 3 0x10C 0x4 1 [ro 0 32 0],  -- TSQ_DEF_HSN
  reg 3 3 0x110 0x4 1 [ro 0 32 0]]  -- TSQ_DEF_BLK
/-- The register map of the TSQ pages, continued. -/
def tsqRegs3 : List RegDesc := [
  reg 3 3 0x114 0x4 1 [ro 0 8 0],  -- TSQ_DEF_INFO
  reg 3 3 0x118 0x4 1 [wo 0 1 0, wo 1 1 0],  -- TSQ_DEF_CTRL
  reg 3 3 0x120 0x4 1 [rc 0 32 0],  -- TSQ_CNT_HIT
  reg 3 3 0x124 0x4 1 [rc 0 32 0],  -- TSQ_CNT_REBUILT
  reg 3 3 0x128 0x4 1 [rc 0 16 0, rc 16 16 0]]  -- TSQ_CNT_DUP

/-- The register map of the HBM pages (R487–R488, ch. 13). -/
def hbmRegs1 : List RegDesc := [
  reg 0 0 0x100 0x4 1 [rw1s 0 1 0, rw1s 1 1 0],  -- HBM_CTRL
  reg 0 0 0x104 0x4 1 [ro 0 1 0, ro 1 1 0, ro 2 1 0, ro 3 1 0, ro 8 6 0, ro 14 1 0],  -- HBM_STAT
  reg 0 0 0x108 0x4 1 [ro 0 8 0, ro 8 2 0],  -- HBM_TEMP
  reg 0 0 0x10C 0x4 1 [ok (rw 0 2 0) [(0, 2)], ok (rw 2 2 0) [(0, 2)], ok (rw 4 2 1) [(0, 2)], ok (rw 6 2 2) [(0, 2)], rw 8 1 1],  -- HBM_REF_CFG
  reg 0 0 0x110 0x4 1 [rc 0 16 0, rc 16 16 0],  -- HBM_REF_CNT
  reg 0 0 0x114 0x4 1 [ok (rw 0 8 0x28) [(1, 255)], ok (rw 8 8 0x10) [(1, 64)]],  -- HBM_SCHED_CFG
  reg 0 0 0x118 0x4 1 [ok (rw 0 8 0xA) [(1, 255)]],  -- HBM_CAL_CFG
  reg 0 0 0x11C 0x4 1 [ro 0 6 0, ro 6 6 0, ro 12 1 0],  -- HBM_CAL_STAT
  reg 0 0 0x120 0x4 1 [rw 0 16 0x3C],  -- HBM_SCRUB_CFG
  reg 0 0 0x124 0x4 1 [rc 0 16 0, rc 16 8 0, rc 24 8 0],  -- HBM_ECC_CNT
  reg 0 0 0x128 0x4 1 [ro 0 6 0, ro 6 6 0, ro 12 14 0, ro 26 5 0, ro 31 1 0],  -- HBM_ECC_LAST
  reg 0 0 0x130 0x4 1 [ro 0 32 0],  -- HBM_PC_FAIL_LO
  reg 0 0 0x134 0x4 1 [ro 0 32 0],  -- HBM_PC_FAIL_HI
  reg 0 0 0x140 0x4 1 [wo 0 6 0, ok (wo 8 2 0) [(1, 3)]],  -- HBM_PC_CTRL
  reg 0 0 0x150 0x4 1 [rw 0 5 0, rw 5 1 0, ok (rw 6 2 0) [(0, 2)], ok (rw 8 4 0) [(0, 4)], ok (rw 16 16 1) [(1, 65535)]],  -- HBM_TRN_SEL
  reg 0 0 0x154 0x4 1 [ok (rw 0 6 0) [(0, 37), (63, 63)], ok (rw 6 2 0) [(0, 2)], rw 8 7 0],  -- HBM_TRN_DLY
  reg 0 0 0x158 0x4 1 [rw1s 0 1 0],  -- HBM_TRN_RUN
  reg 0 0 0x15C 0x4 1 [ro 0 1 0, ro 1 1 0],  -- HBM_TRN_STAT
  reg 0 0 0x160 0x4 1 [ro 0 32 0],  -- HBM_TRN_ERR_LO
  reg 0 0 0x164 0x4 1 [ro 0 6 0],  -- HBM_TRN_ERR_HI
  reg 0 0 0x168 0x4 1 [ro 0 32 0],  -- HBM_TRN_CNT
  reg 0 0 0x16C 0x4 1 [rw 0 32 0],  -- HBM_TRN_USER
  reg 0 0 0x170 0x4 1 [rw 0 6 0, rw 6 1 0, rw 8 6 0, rw 14 1 0],  -- HBM_LANE_MAP
  reg 1 1 0x100 0x8 16 [rw 0 14 0, rw 16 14 0]]  -- HBM_REGION_A
/-- The register map of the HBM pages, continued. -/
def hbmRegs2 : List RegDesc := [
  reg 1 1 0x104 0x8 16 [rw 0 14 0, ok (rw 14 2 0) [(0, 2)], rw 16 4 0, ok (rw 20 2 0) [(0, 2)], rw 22 1 0, rw 24 2 0],  -- HBM_REGION_B
  reg 1 1 0x180 0x4 1 [rw1s 0 1 0],  -- HBM_PLAN_CTRL
  reg 1 1 0x184 0x4 1 [ro 0 2 0, ro 2 1 0, ro 3 1 0, ro 4 1 0, ro 8 4 0, ro 12 4 0],  -- HBM_PLAN_STAT
  reg 1 1 0x188 0x4 1 [rw 0 1 0, rw 1 1 0],  -- HBM_RT_OPT
  reg 1 1 0x18C 0x4 1 [ok (rw 0 8 0x40) [(8, 255)]],  -- HBM_SPARE_CFG
  reg 1 1 0x190 0x4 1 [ro 0 4 0, ro 4 4 0, ro 8 1 0, ro 16 16 0],  -- HBM_SPARE_STAT
  reg 1 1 0x194 0x4 1 [ro 0 24 0],  -- HBM_SPARE_SLOT
  reg 1 1 0x198 0x4 1 [ro 0 24 0],  -- HBM_SPARE_PROG
  reg 1 1 0x1A0 0x4 8 [ro 0 8 0, ro 8 4 0, ro 15 1 0]]  -- HBM_SPARE_LOG

/-- The register map of the COD pages (R524, ch. 14). -/
def codRegs : List RegDesc := [
  reg 0 0 0x100 0x4 1 [ro 0 6 0, ro 6 1 0, ro 7 1 0, ro 8 16 0, ro 24 1 0],  -- COD_ENG_STAT
  reg 0 0 0x104 0x4 1 [rc 0 32 0],  -- COD_ENG_ROWS
  reg 0 0 0x108 0x4 1 [rc 0 32 0],  -- COD_ENG_PREEMPT
  reg 0 0 0x10C 0x4 1 [rc 0 16 0]]  -- COD_ENG_SUMP

/-- The register map of the CTX pages (R525–R526, ch. 14). -/
def ctxRegs1 : List RegDesc := [
  reg 0 15 0x100 0x200 4 [rw 0 2 0, rw 2 1 0, rw 3 1 0, rw 4 2 0, rw 6 1 0, rw 7 1 0, rw 8 6 0, rw 14 1 0],  -- CTX_CFG
  reg 0 15 0x104 0x200 4 [rw 0 16 0],  -- CTX_RATE
  reg 0 15 0x108 0x200 4 [rw 20 12 0],  -- CTX_STATE_LO
  reg 0 15 0x10C 0x200 4 [rw 0 32 0],  -- CTX_STATE_HI
  reg 0 15 0x110 0x200 4 [rw 20 12 0],  -- CTX_ROB_LO
  reg 0 15 0x114 0x200 4 [rw 0 32 0],  -- CTX_ROB_HI
  reg 0 15 0x118 0x200 4 [rw 0 9 8],  -- CTX_ROB_SIZE
  reg 0 15 0x11C 0x200 4 [rw 0 16 0, rw 16 16 0],  -- CTX_GEOM
  reg 0 15 0x120 0x200 4 [rw 16 16 0],  -- CTX_PB_BASE_LO
  reg 0 15 0x124 0x200 4 [rw 0 32 0],  -- CTX_PB_BASE_HI
  reg 0 15 0x128 0x200 4 [rw 0 4 0, rw 16 16 0],  -- CTX_PB_CFG
  reg 0 15 0x12C 0x200 4 [rw 0 24 0],  -- CTX_PB_PITCH
  reg 0 15 0x130 0x200 4 [rw 0 32 0],  -- CTX_PB_PLANE
  reg 0 15 0x134 0x200 4 [rw 0 32 0],  -- CTX_PB_MV
  reg 0 15 0x138 0x200 4 [rw 0 8 0, rw 8 1 0, rw 9 1 0, rw 10 1 0, rw 11 5 1, rw 16 5 1, rw 21 1 0, rw 22 1 0],  -- CTX_ENC_0
  reg 0 15 0x13C 0x200 4 [ok (rw 0 8 0x10) [(1, 32)], ok (rw 8 8 8) [(1, 16)]],  -- CTX_ENC_1
  reg 0 15 0x140 0x200 4 [rw 12 20 0],  -- CTX_CPL_LO
  reg 0 15 0x144 0x200 4 [rw 0 32 0],  -- CTX_CPL_HI
  reg 0 15 0x148 0x200 4 [ok (rw 0 4 4) [(4, 10)], rw 8 6 0],  -- CTX_CPL_CFG
  reg 0 15 0x14C 0x200 4 [ok (rw 0 16 0x64) [(1, 65535)]],  -- CTX_WAIT
  reg 0 15 0x150 0x200 4 [rw 0 32 0],  -- CTX_UUID_0
  reg 0 15 0x154 0x200 4 [rw 0 32 0],  -- CTX_UUID_1
  reg 0 15 0x158 0x200 4 [rw 0 32 0],  -- CTX_UUID_2
  reg 0 15 0x15C 0x200 4 [rw 0 32 0]]  -- CTX_UUID_3
/-- The register map of the CTX pages, continued. -/
def ctxRegs2 : List RegDesc := [
  reg 0 15 0x180 0x200 4 [ro 0 32 0],  -- CTX_CPL_TAIL
  reg 0 15 0x184 0x200 4 [rw 0 32 0],  -- CTX_CPL_HEAD
  reg 0 15 0x188 0x200 4 [rw 7 25 0],  -- CTX_SUBMIT_LO
  reg 0 15 0x18C 0x200 4 [rw 0 32 0],  -- CTX_SUBMIT_HI
  reg 0 15 0x190 0x200 4 [wo 0 1 0],  -- CTX_SUBMIT
  reg 0 15 0x194 0x200 4 [ro 0 1 0, ro 1 2 0, ro 4 4 0],  -- CTX_SUBMIT_STAT
  reg 0 15 0x198 0x200 4 [wo 0 1 0],  -- CTX_ABORT
  reg 0 15 0x19C 0x200 4 [rw 0 32 0],  -- CTX_ABORT_SEQ
  reg 0 15 0x1A0 0x200 4 [ro 0 1 0, ro 1 2 0, ro 8 8 0],  -- CTX_ABORT_STAT
  reg 0 15 0x1A4 0x200 4 [ro 0 5 0, ro 5 1 0, ro 6 1 0, ro 7 1 0],  -- CTX_STAT
  reg 0 15 0x1A8 0x200 4 [ro 0 32 0],  -- CTX_NEXT_SEQ
  reg 0 15 0x1AC 0x200 4 [ro 0 32 0],  -- CTX_DONE_SEQ
  reg 0 15 0x1B0 0x200 4 [ro 0 12 0],  -- CTX_PB_VALID
  reg 0 15 0x1B4 0x200 4 [wo 0 12 0],  -- CTX_PB_RET
  reg 0 15 0x1B8 0x200 4 [ro 0 4 0],  -- CTX_CHECK
  reg 0 15 0x1BC 0x200 4 [rc 0 16 0, rc 16 16 0],  -- CTX_ERR_CNT
  reg 0 0 0xC00 0x4 1 [ro 0 16 0],  -- COD_LIVE_LOAD
  reg 0 0 0xC04 0x4 1 [ro 0 4 0],  -- COD_ENG_AVAIL
  reg 0 0 0xC08 0x4 1 [w1c 0 32 0],  -- COD_CPL_PEND_LO
  reg 0 0 0xC0C 0x4 1 [w1c 0 32 0]]  -- COD_CPL_PEND_HI

/-- The register map of the ETH pages (R564–R565, ch. 15). -/
def ethRegs1 : List RegDesc := [
  reg 0 0 0x100 0x4 1 [rw 0 1 0, rw 1 2 3, rw 3 2 2, ok (rw 5 2 0) [(0, 2)], ok (rw 16 14 0x5EE) [(1518, 9216)]],  -- ETH_PORT_CFG
  reg 0 0 0x104 0x4 1 [ro 0 1 0, ro 1 1 0, ro 2 1 0],  -- ETH_PORT_STAT
  reg 0 0 0x108 0x4 1 [rw 0 32 0],  -- ETH_MAC_0_LO
  reg 0 0 0x10C 0x4 1 [rw 0 16 0],  -- ETH_MAC_0_HI
  reg 0 0 0x110 0x4 1 [rw 0 32 0],  -- ETH_MAC_1_LO
  reg 0 0 0x114 0x4 1 [rw 0 16 0],  -- ETH_MAC_1_HI
  reg 0 0 0x118 0x4 1 [rw 12 20 0],  -- ETH_TMPL_LO
  reg 0 0 0x11C 0x4 1 [rw 0 32 0],  -- ETH_TMPL_HI
  reg 0 0 0x120 0x4 1 [rw 0 16 0x1E61],  -- ETH_SLUICE_UDP
  reg 0 0 0x124 0x4 1 [rw 0 32 0],  -- ETH_SLUICE_DEV
  reg 0 0 0x128 0x4 1 [ro 0 16 0, ro 16 16 0],  -- ETH_RT_LOAD
  reg 0 0 0x130 0x4 1 [rw 14 18 0],  -- ETH_HRX_BASE_LO
  reg 0 0 0x134 0x4 1 [rw 0 32 0],  -- ETH_HRX_BASE_HI
  reg 0 0 0x138 0x4 1 [ok (rw 0 4 4) [(4, 12)], rw 8 6 0],  -- ETH_HRX_CFG
  reg 0 0 0x13C 0x4 1 [ro 0 32 0],  -- ETH_HRX_TAIL
  reg 0 0 0x140 0x4 1 [rw 0 32 0],  -- ETH_HRX_HEAD
  reg 0 0 0x150 0x4 1 [rw 14 18 0],  -- ETH_HTX_BASE_LO
  reg 0 0 0x154 0x4 1 [rw 0 32 0],  -- ETH_HTX_BASE_HI
  reg 0 0 0x158 0x4 1 [ok (rw 0 4 4) [(4, 12)], rw 8 6 0],  -- ETH_HTX_CFG
  reg 0 0 0x15C 0x4 1 [rw 0 32 0],  -- ETH_HTX_PROD
  reg 0 0 0x160 0x4 1 [ro 0 32 0],  -- ETH_HTX_DONE
  reg 1 1 0x100 0x40 8 [rw 0 1 0, rw 1 1 0, rw 2 1 0, rw 3 1 0, rw 4 2 0, rw 6 1 0, rw 7 1 0],  -- ETH_SND_CFG
  reg 1 1 0x104 0x40 8 [ok (rw 0 4 0) [(0, 4), (8, 11)], rw 4 2 0],  -- ETH_SND_SRC
  reg 1 1 0x108 0x40 8 [rw 0 16 0, rw 16 16 0]]  -- ETH_SND_RATE
/-- The register map of the ETH pages, continued. -/
def ethRegs2 : List RegDesc := [
  reg 1 1 0x10C 0x40 8 [rw 0 32 0],  -- ETH_SND_OFS
  reg 1 1 0x110 0x40 8 [rw 0 8 0, rw 8 8 0, ok (rw 16 16 0x4B0) [(256, 8800)]],  -- ETH_SND_TMPL
  reg 1 1 0x114 0x40 8 [rw 10 22 0],  -- ETH_SND_ANC_LO
  reg 1 1 0x118 0x40 8 [rw 0 32 0],  -- ETH_SND_ANC_HI
  reg 1 1 0x11C 0x40 8 [ok (rw 0 4 4) [(2, 10)], rw 8 6 0],  -- ETH_SND_ANC_CFG
  reg 1 1 0x120 0x40 8 [rw 0 16 0],  -- ETH_SND_ANC_PROD
  reg 1 1 0x124 0x40 8 [ro 0 16 0],  -- ETH_SND_ANC_CONS
  reg 1 1 0x128 0x40 8 [ro 0 20 0],  -- ETH_SND_BW
  reg 1 1 0x12C 0x40 8 [ro 0 2 0, ro 4 4 0, ro 8 1 0, ro 9 1 0],  -- ETH_SND_STAT
  reg 1 1 0x130 0x40 8 [rc 0 8 0, rc 8 8 0, rc 16 8 0, rc 24 8 0],  -- ETH_SND_ERR
  reg 1 1 0x134 0x40 8 [ro 0 32 0],  -- ETH_SND_FSEQ
  reg 2 2 0x100 0x80 8 [rw 0 2 0, rw 2 1 0, rw 3 1 0, rw 4 1 1, rw 5 1 0, rw 6 1 0, rw 7 2 0, rw 9 1 0],  -- ETH_SES_CFG
  reg 2 2 0x104 0x80 8 [rw 0 32 0],  -- ETH_SES_ID
  reg 2 2 0x108 0x80 8 [rw 0 8 0, rw 8 8 0],  -- ETH_SES_TMPL
  reg 2 2 0x10C 0x80 8 [ok (rw 0 16 0x3E8) [(1, 8000)]],  -- ETH_SES_RATE
  reg 2 2 0x110 0x80 8 [ok (rw 0 16 0xC8) [(10, 65535)]],  -- ETH_SES_RTO
  reg 2 2 0x114 0x80 8 [wo 0 1 0, wo 1 1 0, wo 2 1 0],  -- ETH_SES_CTRL
  reg 2 2 0x118 0x80 8 [ro 0 3 0, ro 3 1 0, ro 4 4 0, ro 8 4 0, ro 12 1 0],  -- ETH_SES_STAT
  reg 2 2 0x11C 0x80 8 [ro 0 16 0, ro 16 16 0],  -- ETH_SES_WIN
  reg 2 2 0x120 0x80 8 [ro 0 32 0],  -- ETH_SES_NEXT_LO
  reg 2 2 0x124 0x80 8 [ro 0 32 0],  -- ETH_SES_NEXT_HI
  reg 2 2 0x128 0x80 8 [ro 0 32 0],  -- ETH_SES_CUM_LO
  reg 2 2 0x12C 0x80 8 [ro 0 32 0],  -- ETH_SES_CUM_HI
  reg 2 2 0x130 0x80 8 [ro 0 32 0]]  -- ETH_SES_FSEQ_LO
/-- The register map of the ETH pages, continued. -/
def ethRegs3 : List RegDesc := [
  reg 2 2 0x134 0x80 8 [ro 0 32 0],  -- ETH_SES_FSEQ_HI
  reg 2 2 0x138 0x80 8 [ro 0 32 0],  -- ETH_SES_END_FIRST_LO
  reg 2 2 0x13C 0x80 8 [ro 0 32 0],  -- ETH_SES_END_FIRST_HI
  reg 2 2 0x140 0x80 8 [ro 0 32 0],  -- ETH_SES_END_LAST_LO
  reg 2 2 0x144 0x80 8 [ro 0 32 0],  -- ETH_SES_END_LAST_HI
  reg 2 2 0x148 0x80 8 [rc 0 32 0],  -- ETH_SES_RETX
  reg 2 2 0x14C 0x80 8 [rc 0 32 0],  -- ETH_SES_SKIP
  reg 2 2 0x150 0x80 8 [ro 0 32 0],  -- ETH_SES_LAG
  reg 3 3 0x100 0x20 2 [rc 0 32 0],  -- ETH_TX_FRAMES
  reg 3 3 0x104 0x20 2 [rc 0 32 0],  -- ETH_RX_FRAMES
  reg 3 3 0x108 0x20 2 [rc 0 16 0, rc 16 16 0],  -- ETH_RX_DROP
  reg 3 3 0x10C 0x20 2 [rc 0 32 0],  -- ETH_FEC_CORR
  reg 3 3 0x110 0x20 2 [rc 0 32 0],  -- ETH_FEC_UNCORR
  reg 3 3 0x114 0x20 2 [rc 0 32 0]]  -- ETH_PAUSE

/-- The register map of the TIM pages (R593–R594, ch. 16). -/
def timRegs1 : List RegDesc := [
  reg 0 0 0x100 0x4 1 [rw 0 1 0, ok (rw 1 2 0) [(0, 2)]],  -- TIM_CTRL
  reg 0 0 0x104 0x4 1 [ro 0 1 0, ro 1 1 0, ro 2 1 0, ro 3 1 0, ro 4 1 0],  -- TIM_STAT
  reg 0 0 0x108 0x4 1 [ro 0 32 0],  -- TIM_NOW_SEC_LO
  reg 0 0 0x10C 0x4 1 [ro 0 16 0],  -- TIM_NOW_SEC_HI
  reg 0 0 0x110 0x4 1 [ro 0 32 0],  -- TIM_NOW_NS
  reg 0 0 0x114 0x4 1 [ro 0 16 0],  -- TIM_NOW_FRAC
  reg 0 0 0x118 0x4 1 [rw 0 32 0x9999999A],  -- TIM_INC_LO
  reg 0 0 0x11C 0x4 1 [rw 0 17 0x19999],  -- TIM_INC_HI
  reg 0 0 0x120 0x4 1 [rw 0 32 0],  -- TIM_ADJ_LO
  reg 0 0 0x124 0x4 1 [rw 0 32 0],  -- TIM_ADJ_HI
  reg 0 0 0x128 0x4 1 [rw 0 32 0],  -- TIM_SET_SEC_LO
  reg 0 0 0x12C 0x4 1 [rw 0 16 0],  -- TIM_SET_SEC_HI
  reg 0 0 0x130 0x4 1 [rw 0 32 0],  -- TIM_SET_NS
  reg 0 0 0x134 0x4 1 [rw 0 16 0],  -- TIM_SET_FRAC
  reg 0 0 0x138 0x4 1 [wo 0 1 0, wo 1 1 0],  -- TIM_ADJ_CTRL
  reg 0 0 0x13C 0x4 1 [rw 0 16 0xBB8],  -- TIM_WDOG
  reg 0 0 0x140 0x4 1 [rw 0 1 0, rw 1 1 0, rw 2 1 0],  -- TIM_CAP_EN
  reg 0 0 0x144 0x4 1 [ro 0 6 0, ro 8 1 0],  -- TIM_CAP_STAT
  reg 0 0 0x148 0x4 1 [ro 0 2 0],  -- TIM_CAP_SRC
  reg 0 0 0x14C 0x4 1 [ro 0 32 0],  -- TIM_CAP_SEC_LO
  reg 0 0 0x150 0x4 1 [ro 0 16 0],  -- TIM_CAP_SEC_HI
  reg 0 0 0x154 0x4 1 [ro 0 32 0],  -- TIM_CAP_NS
  reg 0 0 0x158 0x4 1 [ro 0 16 0],  -- TIM_CAP_FRAC
  reg 0 0 0x15C 0x4 1 [wo 0 1 0, wo 1 1 0, wo 2 1 0]]  -- TIM_CAP_CTRL
/-- The register map of the TIM pages, continued. -/
def timRegs2 : List RegDesc := [
  reg 0 0 0x160 0x4 1 [rw 0 1 0, rw 8 8 0],  -- TIM_TC_CFG
  reg 0 0 0x164 0x4 1 [rc 0 16 0, rc 16 16 0],  -- TIM_TC_CNT
  reg 0 0 0x180 0x4 8 [rw 0 16 0, rw 16 16 0],  -- TIM_PORT_DLY
  reg 1 1 0x100 0x40 8 [ok (rw 0 3 0) [(0, 4)], rw 3 1 0, rw 4 1 0],  -- TIM_STB_CFG
  reg 1 1 0x104 0x40 8 [rw 0 32 0],  -- TIM_STB_START_SEC_LO
  reg 1 1 0x108 0x40 8 [rw 0 16 0],  -- TIM_STB_START_SEC_HI
  reg 1 1 0x10C 0x40 8 [ok (rw 0 32 0) [(0, 999999999)]],  -- TIM_STB_START_NS
  reg 1 1 0x110 0x40 8 [rw 0 16 0],  -- TIM_STB_START_FRAC
  reg 1 1 0x114 0x40 8 [rw 0 24 1],  -- TIM_STB_NUM
  reg 1 1 0x118 0x40 8 [rw 0 24 1],  -- TIM_STB_DEN
  reg 1 1 0x11C 0x40 8 [rw 0 32 0],  -- TIM_STB_WIDTH
  reg 1 1 0x120 0x40 8 [rw 0 32 0],  -- TIM_STB_COUNT
  reg 1 1 0x124 0x40 8 [wo 0 1 0, wo 1 1 0],  -- TIM_STB_CTRL
  reg 1 1 0x128 0x40 8 [ro 0 1 0, ro 1 1 0, ro 2 1 0, ro 3 1 0],  -- TIM_STB_STAT
  reg 1 1 0x12C 0x40 8 [ro 0 32 0],  -- TIM_STB_SENT
  reg 1 1 0x130 0x40 8 [rc 0 32 0],  -- TIM_STB_SKIP
  reg 1 1 0x300 0x20 4 [rw 0 1 0],  -- TIM_HS_CFG
  reg 1 1 0x304 0x20 4 [rw 0 16 0x800, rw 16 16 0x40],  -- TIM_HS_GAIN
  reg 1 1 0x308 0x20 4 [rw 0 32 0x3E80000],  -- TIM_HS_STEP
  reg 1 1 0x30C 0x20 4 [rw 0 24 0xCCD],  -- TIM_HS_LOCK
  reg 1 1 0x310 0x20 4 [ro 0 3 0, ro 3 1 0, ro 4 1 0],  -- TIM_HS_STAT
  reg 1 1 0x314 0x20 4 [ro 0 32 0],  -- TIM_HS_OFS
  reg 1 1 0x318 0x20 4 [ro 0 32 0],  -- TIM_HS_RATE
  reg 1 1 0x31C 0x20 4 [rc 0 32 0]]  -- TIM_HS_LOST

/-- The register map of the DSP pages (R619–R620, ch. 17). -/
def dspRegs1 : List RegDesc := [
  reg 0 0 0x100 0x4 1 [ok (rw 0 2 1) [(0, 1)], ok (rw 2 2 0) [(0, 1)], rw 4 1 0, rw 5 1 0],  -- DSP_CFG
  reg 0 0 0x104 0x4 1 [rw 0 22 0],  -- DSP_PCLK
  reg 0 0 0x108 0x4 1 [rw 0 16 0, rw 16 16 0],  -- DSP_H_TIMING_0
  reg 0 0 0x10C 0x4 1 [rw 0 16 0, rw 16 16 0],  -- DSP_H_TIMING_1
  reg 0 0 0x110 0x4 1 [rw 0 16 0, rw 16 16 0],  -- DSP_V_TIMING_0
  reg 0 0 0x114 0x4 1 [rw 0 16 0, rw 16 16 0],  -- DSP_V_TIMING_1
  reg 0 0 0x118 0x4 1 [rw 0 16 0],  -- DSP_V_TOTAL_MAX
  shad 0 0 0x11C 0x4 1 [rw 0 10 0, rw 10 10 0, rw 20 10 0],  -- DSP_BG
  shad 0 0 0x120 0x4 1 [rw 0 4 0, rw 4 4 0],  -- DSP_OUT_TAGS
  shad 0 0 0x124 0x4 1 [rw 0 2 0],  -- DSP_COMP
  reg 0 0 0x130 0x4 1 [ok (rw 0 3 0) [(0, 6)], ok (rw 4 2 2) [(0, 2)], rw 6 1 0],  -- DSP_LINK_CFG
  reg 0 0 0x134 0x4 1 [ok (rw 0 4 0) [(0, 7)], rw 16 16 0],  -- DSP_LINK_TRAIN
  reg 0 0 0x138 0x4 1 [rw 0 20 0],  -- DSP_AUX_ADDR
  reg 0 0 0x13C 0x4 1 [ok (wo 0 4 0) [(0, 1), (4, 5), (8, 9)], wo 8 4 0, wo 31 1 0],  -- DSP_AUX_CMD
  reg 0 0 0x140 0x4 4 [rw 0 32 0],  -- DSP_AUX_DATA
  reg 0 0 0x150 0x4 1 [ro 0 1 0, ro 1 3 0, ro 4 5 0],  -- DSP_AUX_STAT
  reg 0 0 0x160 0x4 1 [ro 0 1 0, ro 1 1 0, ro 2 1 0, ro 3 1 0, ro 4 1 0, ro 16 16 0],  -- DSP_STAT
  reg 0 0 0x164 0x4 1 [ro 0 32 0],  -- DSP_DFN_LO
  reg 0 0 0x168 0x4 1 [ro 0 32 0],  -- DSP_DFN_HI
  reg 0 0 0x16C 0x4 1 [ro 0 32 0],  -- DSP_SAFE_SEQ_LO
  reg 0 0 0x170 0x4 1 [ro 0 32 0],  -- DSP_SAFE_SEQ_HI
  reg 0 0 0x174 0x4 1 [rc 0 16 0, rc 16 16 0],  -- DSP_UNDERRUN
  reg 0 0 0x178 0x4 1 [rc 0 8 0, rc 8 8 0, rc 16 8 0],  -- DSP_FRAME_ERR
  reg 0 0 0x17C 0x4 1 [ro 0 16 0]]  -- DSP_VTOTAL_LAST
/-- The register map of the DSP pages, continued. -/
def dspRegs2 : List RegDesc := [
  reg 0 0 0x180 0x4 1 [ro 0 4 0, ro 4 2 0, ro 6 1 0],  -- DSP_CHECK
  shad 1 1 0x100 0x40 4 [rw 0 1 0, rw 1 1 0, rw 2 1 0, rw 4 4 0, rw 8 6 0, rw 16 8 0xFF],  -- DSP_L_CFG
  shad 1 1 0x104 0x40 4 [rw 0 16 0, rw 16 16 0],  -- DSP_L_POS
  shad 1 1 0x108 0x40 4 [rw 0 16 0, rw 16 16 0],  -- DSP_L_SIZE
  shad 1 1 0x10C 0x40 4 [rw 0 32 0],  -- DSP_L_STRIDE
  shad 1 1 0x110 0x40 4 [rw 8 24 0],  -- DSP_L_BASE_LO
  shad 1 1 0x114 0x40 4 [rw 0 32 0],  -- DSP_L_BASE_HI
  shad 1 1 0x118 0x40 4 [ok (rw 0 4 0) [(0, 4), (8, 11)], rw 4 2 0],  -- DSP_L_SRC
  reg 1 1 0x120 0x40 4 [ro 0 32 0],  -- DSP_L_SHOWN
  reg 1 1 0x124 0x40 4 [ro 0 1 0, ro 1 1 0]]  -- DSP_L_STAT

/-- The register map of the XLT pages (R658–R659, ch. 18). -/
def xltRegs : List RegDesc := [
  reg 0 0 0x100 0x4 1 [ok (rw 0 16 0x64) [(1, 65535)]],  -- XLT_CFG
  reg 0 0 0x104 0x4 1 [ro 0 10 0, ro 10 1 0, ro 11 1 0, ro 12 1 0],  -- XLT_STAT
  reg 0 0 0x108 0x4 1 [rw 12 20 0],  -- XLT_FLT_BASE_LO
  reg 0 0 0x10C 0x4 1 [rw 0 32 0],  -- XLT_FLT_BASE_HI
  reg 0 0 0x110 0x4 1 [ok (rw 0 4 6) [(4, 12)]],  -- XLT_FLT_CFG
  reg 0 0 0x114 0x4 1 [ro 0 32 0],  -- XLT_FLT_TAIL
  reg 0 0 0x118 0x4 1 [rw 0 32 0],  -- XLT_FLT_HEAD
  reg 0 0 0x11C 0x4 1 [rc 0 32 0],  -- XLT_FLT_DROP
  reg 0 0 0x120 0x4 1 [wo 0 9 0, ok (wo 16 2 0) [(1, 2)]],  -- XLT_PRQ_RESP
  reg 0 0 0x124 0x4 1 [rw 12 20 0],  -- XLT_INV_ADDR_LO
  reg 0 0 0x128 0x4 1 [rw 0 16 0],  -- XLT_INV_ADDR_HI
  reg 0 0 0x12C 0x4 1 [wo 0 6 0, ok (wo 8 2 0) [(0, 2)], wo 31 1 0],  -- XLT_INV_CTRL
  reg 0 0 0x130 0x4 1 [ok (rw 0 24 1) [(1, 16777215)]],  -- XLT_INV_PAGES
  reg 0 0 0x134 0x4 1 [ro 0 1 0],  -- XLT_INV_STAT
  reg 0 0 0x140 0x8 6 [rc 0 32 0],  -- XLT_HIT
  reg 0 0 0x144 0x8 6 [rc 0 32 0],  -- XLT_MISS
  reg 0 0 0x170 0x4 1 [rc 0 8 0, rc 8 8 0],  -- XLT_WALK_ERR
  reg 1 1 0x100 0x10 64 [ok (rw 0 2 0) [(0, 2)], rw 2 1 0, rw 3 1 0, ro 31 1 0],  -- XLT_AS_CFG
  reg 1 1 0x104 0x10 64 [rw 12 20 0],  -- XLT_AS_ROOT_LO
  reg 1 1 0x108 0x10 64 [rw 0 32 0],  -- XLT_AS_ROOT_HI
  reg 1 1 0x10C 0x10 64 [rw 0 20 0]]  -- XLT_AS_PASID

/-- The register map of the DMA pages (R661–R662, ch. 18). -/
def dmaRegs : List RegDesc := [
  reg 0 0 0x100 0x4 1 [rw 12 20 0],  -- DMA_RING_LO
  reg 0 0 0x104 0x4 1 [rw 0 32 0],  -- DMA_RING_HI
  reg 0 0 0x108 0x4 1 [ok (rw 0 4 4) [(4, 12)], rw 8 6 0],  -- DMA_RING_CFG
  reg 0 0 0x10C 0x4 1 [rw 0 32 0],  -- DMA_PROD
  reg 0 0 0x110 0x4 1 [ro 0 32 0],  -- DMA_CONS
  reg 0 0 0x114 0x4 1 [ro 0 32 0],  -- DMA_DONE
  reg 0 0 0x118 0x4 1 [rw 0 1 0, ok (rw 1 3 0) [(0, 4)], rw 8 6 0, ok (rw 16 7 0x40) [(1, 64)]],  -- DMA_CFG
  reg 0 0 0x11C 0x4 1 [rw 0 14 0, ok (rw 16 10 0x40) [(4, 1000)]],  -- DMA_RATE
  reg 0 0 0x120 0x4 1 [wo 0 1 0, wo 1 1 0],  -- DMA_REQ_CTRL
  reg 0 0 0x124 0x4 1 [ro 0 16 0],  -- DMA_REQ_STAT
  reg 0 0 0x128 0x4 1 [wo 0 1 0, wo 1 1 0, wo 2 1 0],  -- DMA_CTRL
  reg 0 0 0x12C 0x4 1 [rw 0 32 0],  -- DMA_ABORT_IDX
  reg 0 0 0x130 0x4 1 [ro 0 1 0, ro 1 2 0, ro 16 16 0],  -- DMA_ABORT_STAT
  reg 0 0 0x134 0x4 1 [ro 0 3 0, ro 4 4 0, ro 8 1 0, ro 9 1 0],  -- DMA_STAT
  reg 0 0 0x138 0x4 1 [ro 0 16 0, ro 16 16 0],  -- DMA_POS_0
  reg 0 0 0x13C 0x4 1 [ro 0 16 0],  -- DMA_POS_1
  reg 0 0 0x140 0x4 1 [ro 0 24 0],  -- DMA_POS_OFS
  reg 0 0 0x144 0x4 1 [ro 0 32 0],  -- DMA_POS_CSUM
  reg 0 0 0x148 0x4 1 [ro 0 32 0],  -- DMA_BYTES_LO
  reg 0 0 0x14C 0x4 1 [ro 0 32 0],  -- DMA_BYTES_HI
  reg 0 0 0x150 0x4 1 [rc 0 8 0, rc 8 8 0, rc 16 8 0, rc 24 8 0]]  -- DMA_CNT

/-- The register map of the BIT pages (R685–R686, ch. 19). -/
def bitRegs : List RegDesc := [
  reg 0 0 0x100 0x4 1 [ro 0 10 0],  -- BIT_STAT
  reg 0 0 0x104 0x4 1 [ok (rw 0 10 0xA) [(1, 1000)]],  -- BIT_FAULTN_CFG
  reg 0 0 0x108 0x4 1 [wo 0 1 0, wo 1 1 0],  -- BIT_FAULTN_CTRL
  reg 0 0 0x10C 0x4 1 [ro 0 1 0, ro 1 1 0, ro 2 1 0],  -- BIT_FAULTN_STAT
  reg 0 0 0x110 0x4 1 [wo 0 9 0, wo 31 1 0],  -- BIT_SRC_CLEAR
  reg 0 0 0x120 0x4 1 [ro 0 7 0, ro 8 1 0],  -- BIT_LOG_STAT
  reg 0 0 0x124 0x4 1 [wo 0 1 0, wo 1 1 0],  -- BIT_LOG_CTRL
  reg 0 0 0x128 0x4 1 [ro 0 9 0, ro 9 2 0, ro 11 1 0, ro 12 1 0],  -- BIT_LOG_SRC
  reg 0 0 0x12C 0x4 1 [ro 0 32 0],  -- BIT_LOG_DETAIL
  reg 0 0 0x130 0x4 1 [ro 0 32 0],  -- BIT_LOG_SEC_LO
  reg 0 0 0x134 0x4 1 [ro 0 16 0],  -- BIT_LOG_SEC_HI
  reg 0 0 0x138 0x4 1 [ro 0 32 0],  -- BIT_LOG_NS
  reg 0 0 0x13C 0x4 1 [ro 0 16 0],  -- BIT_LOG_FRAC
  reg 0 0 0x140 0x4 1 [rw 0 9 0, rw 12 4 0, ok (rw 16 2 1) [(1, 2)], rw 18 1 1],  -- BIT_INJ_CFG
  reg 0 0 0x144 0x4 1 [wo 0 1 0, wo 1 1 0],  -- BIT_INJ_CTRL
  reg 0 0 0x148 0x4 1 [ro 0 3 0, ro 3 1 0],  -- BIT_INJ_STAT
  reg 0 0 0x14C 0x4 1 [ok (rw 0 16 0x3E8) [(1, 65535)]],  -- BIT_INJ_TMO
  reg 0 0 0x160 0x4 1 [ok (rw 0 4 0) [(1, 6)], rw 8 8 0],  -- BIT_TEST_CFG
  reg 0 0 0x164 0x4 1 [wo 0 1 0, wo 1 1 0],  -- BIT_TEST_CTRL
  reg 0 0 0x168 0x4 1 [ro 0 3 0],  -- BIT_TEST_STAT
  reg 1 2 0x100 0x4 256 [rw 0 8 0, ok (rw 8 16 0) [(1, 65535)], rw 24 1 0, rw 25 1 0, rw 26 1 0, rw 27 1 0, rw 28 1 0],  -- BIT_SRC_CFG
  reg 3 4 0x100 0x4 256 [ro 0 2 0, ro 2 9 0, ro 11 8 0, ro 19 1 0, ro 20 12 0],  -- BIT_SRC_STAT
  reg 5 5 0x100 0x4 16 [ro 0 32 0],  -- BIT_SEV
  reg 5 5 0x140 0x4 16 [ro 0 32 0]]  -- BIT_TRANS

/-- The register map of the THM pages (R710–R711, ch. 20). -/
def thmRegs : List RegDesc := [
  reg 0 0 0x100 0x4 1 [rw 0 8 0x64, ok (rw 8 8 0x6E) [(95, 110)], ok (rw 16 8 0xF) [(5, 40)]],  -- THM_CFG_0
  reg 0 0 0x104 0x4 1 [ok (rw 0 8 0x14) [(1, 255)], ok (rw 8 8 0xA) [(1, 100)], ok (rw 16 8 0x14) [(1, 200)]],  -- THM_CFG_1
  reg 0 0 0x108 0x4 1 [rw 0 8 0x2D, rw 8 8 0x4B, rw 16 8 0x5F, ok (rw 24 4 3) [(1, 10)]],  -- THM_BAND_CFG
  reg 0 0 0x10C 0x4 1 [wo 0 1 0],  -- THM_CTRL
  reg 0 0 0x110 0x4 1 [ro 0 2 0, ro 2 4 0, ro 6 1 0, ro 7 1 0],  -- THM_STAT
  reg 0 0 0x114 0x4 8 [ro 0 11 0, ro 16 2 0],  -- THM_ZONE
  reg 0 0 0x134 0x4 1 [ro 0 11 0, ro 16 6 0],  -- THM_MAX
  reg 0 0 0x138 0x4 1 [ro 0 32 0],  -- THM_BROKEN_LO
  reg 0 0 0x13C 0x4 1 [ro 0 32 0],  -- THM_BROKEN_HI
  reg 0 0 0x140 0x4 1 [ro 0 32 0],  -- THM_ROUND
  reg 0 0 0x200 0x4 64 [ro 0 11 0, ro 12 1 0, ro 13 1 0, ro 16 16 0]]  -- THM_SENS

/-- The register map of the PWR pages (R713–R714, ch. 20). -/
def pwrRegs : List RegDesc := [
  reg 0 0 0x100 0x4 1 [rw 0 1 1, rw 8 8 0x40, rw 16 8 0xA0, rw 24 8 0x20],  -- PWR_LOOP_CFG
  reg 0 0 0x104 0x4 1 [ok (rw 0 8 4) [(1, 10)], ok (rw 8 8 1) [(1, 4)], ok (rw 16 8 1) [(1, 255)], rw 24 8 0x10],  -- PWR_LOOP_STEP
  reg 0 0 0x108 0x4 1 [ok (rw 0 8 8) [(8, 112)], ok (rw 8 8 0x70) [(8, 112)]],  -- PWR_VLIM
  reg 0 0 0x10C 0x4 1 [ro 0 8 0x50, ro 8 8 0x50, ro 16 8 0x50, ro 24 1 0],  -- PWR_VFAB
  reg 0 0 0x110 0x4 1 [rc 0 16 0, rc 16 16 0],  -- PWR_AVS_CNT
  reg 0 0 0x114 0x4 1 [ro 0 16 0, ro 16 5 0],  -- PWR_MIN_HEAD
  reg 0 0 0x118 0x4 1 [ro 0 4 0, ro 8 17 0],  -- PWR_SHED
  reg 0 0 0x11C 0x4 1 [rc 0 32 0],  -- PWR_EXH_CNT
  reg 0 0 0x120 0x4 5 [rw 0 8 0x14],  -- PWR_PACE
  reg 0 0 0x140 0x4 17 [ro 0 16 0x7FFF, ro 16 2 0, ro 18 1 0],  -- PWR_HEAD
  reg 1 1 0x100 0x4 9 [ro 0 32 0],  -- PWR_DOM_ON
  reg 1 1 0x140 0x4 9 [ro 0 32 0],  -- PWR_DOM_PEND
  reg 1 1 0x180 0x4 1 [ro 0 9 0, ro 16 9 0]]  -- PWR_SEQ_STAT

/-- The register map of the CNT pages (R728–R729, ch. 21). -/
def cntRegs : List RegDesc := [
  reg 0 0 0x100 0x4 1 [rw 0 1 0, rw 1 1 0, rw1s 2 1 0],  -- CNT_CTRL
  reg 0 0 0x104 0x4 1 [ro 0 1 1, ro 16 9 0],  -- CNT_STAT
  reg 0 0 0x110 0x4 8 [w1c 0 32 0],  -- CNT_OVF
  reg 0 0 0x130 0x4 8 [rw 0 32 0],  -- CNT_USER
  reg 0 0 0x150 0x4 1 [rw 0 32 0],  -- CNT_ASID_PRIV_LO
  reg 0 0 0x154 0x4 1 [rw 0 32 0],  -- CNT_ASID_PRIV_HI
  reg 0 0 0x180 0x20 8 [rw 0 7 0, rw 8 7 0, ok (rw 16 2 0) [(0, 2)], ok (rw 18 3 7) [(1, 7)], rw 24 1 0],  -- CNT_FLT_CFG
  reg 0 0 0x188 0x20 8 [rw 12 20 0],  -- CNT_FLT_BASE_LO
  reg 0 0 0x18C 0x20 8 [rw 0 32 0],  -- CNT_FLT_BASE_HI
  reg 0 0 0x190 0x20 8 [rw 12 20 0],  -- CNT_FLT_LIMIT_LO
  reg 0 0 0x194 0x20 8 [rw 0 32 0],  -- CNT_FLT_LIMIT_HI
  reg 1 1 0x100 0x4 256 [rw 0 4 0, rw 4 6 0, rw 10 6 0, rw 16 1 0, rw 17 3 0, rw 20 1 0, rw 31 1 0],  -- CNT_CFG
  reg 2 3 0x100 0x8 128 [rw 0 32 0],  -- CNT_VAL_LO
  reg 2 3 0x104 0x8 128 [rw 0 16 0, rw 16 1 0]]  -- CNT_VAL_HI

/-- The register map of the TOP pages (R750–R751, ch. 22). -/
def topRegs : List RegDesc := [
  reg 0 0 0x100 0x4 1 [ro 0 4 0, ro 8 4 0, ro 16 16 0],  -- TOP_DEVICE_ID
  reg 0 0 0x104 0x4 1 [ro 0 32 0],  -- TOP_SERIAL_LO
  reg 0 0 0x108 0x4 1 [ro 0 32 0],  -- TOP_SERIAL_HI
  reg 0 0 0x10C 0x4 1 [wo 0 1 0, wo 8 8 0],  -- TOP_RESET_CTRL
  reg 0 0 0x110 0x4 1 [ro 0 1 0, ro 1 1 0, ro 2 1 0, ro 3 1 0],  -- TOP_RESET_STAT
  reg 0 0 0x114 0x4 1 [w1c 0 1 0, w1c 1 1 0, w1c 2 1 0, w1c 3 1 0, w1c 4 1 0, w1c 5 1 0, w1c 6 1 0, w1c 7 1 0],  -- TOP_RESET_CAUSE
  reg 0 0 0x118 0x4 1 [ro 0 16 0, ro 16 16 0],  -- TOP_RESET_CNT
  reg 0 0 0x200 0x4 4 [ro 0 32 0]]  -- TOP_IRQ_PEND

/-- The register map of the HIF pages (R753–R754, ch. 22). -/
def hifRegs : List RegDesc := [
  reg 0 0 0x100 0x4 1 [ro 0 16 0, ro 16 16 0],  -- HIF_PCI_ID
  reg 0 0 0x104 0x4 1 [ro 0 16 0, ro 16 16 0],  -- HIF_SUBSYS
  reg 0 0 0x108 0x4 1 [ro 0 3 0, ro 3 5 0, ro 8 1 0, ro 9 1 0, ro 10 1 0, ro 11 1 0, ro 12 1 0],  -- HIF_LINK_STAT
  reg 0 0 0x10C 0x4 1 [rc 0 16 0, rc 16 8 0, rc 24 8 0],  -- HIF_LINK_CNT
  reg 0 0 0x110 0x4 1 [ro 0 8 0, ro 8 8 0, ro 16 1 0]]  -- HIF_SMB_STAT

def Blk.regs : Blk → List RegDesc
  | .lnk => lnkRegs
  | .cwy => cwyRegs1 ++ cwyRegs2
  | .ing => ingRegs1 ++ ingRegs2
  | .psl => pslRegs1 ++ pslRegs2 ++ pslRegs3
  | .clr => clrRegs
  | .wit => witRegs1 ++ witRegs2
  | .smp => smpRegs
  | .vlc => vlcRegs
  | .gcx => gcxRegs
  | .tsq => tsqRegs1 ++ tsqRegs2 ++ tsqRegs3
  | .hbm => hbmRegs1 ++ hbmRegs2
  | .cod => codRegs
  | .ctx => ctxRegs1 ++ ctxRegs2
  | .eth => ethRegs1 ++ ethRegs2 ++ ethRegs3
  | .tim => timRegs1 ++ timRegs2
  | .dsp => dspRegs1 ++ dspRegs2
  | .xlt => xltRegs
  | .dma => dmaRegs
  | .bit => bitRegs
  | .thm => thmRegs
  | .pwr => pwrRegs
  | .cnt => cntRegs
  | .top => topRegs
  | .hif => hifRegs

/-- The description of a register at a page and an offset in that page, with its index in its array. -/
def findReg : List RegDesc → Nat → Nat → Option (RegDesc × Nat)
  | [], _, _ => none
  | d :: r, pg, po =>
    if d.p0 ≤ pg ∧ pg ≤ d.p1 ∧ d.off ≤ po ∧ (po - d.off) % d.stride = 0 ∧ (po - d.off) / d.stride < d.count then
      some (d, (pg - d.p0) * d.count + (po - d.off) / d.stride)
    else findReg r pg po

def regAt (b : Blk) (rel : Nat) : Option (RegDesc × Nat) := findReg b.regs (rel / 0x1000) (rel % 0x1000)

def packReset : List FieldDesc → Nat
  | [] => 0
  | f :: r => f.rst * 2 ^ f.lo + packReset r

/-- The Causeway preset table after cold reset (R112). -/
def presetReset : List Nat := [0x00200000, 0x001C0202, 0x001A0402, 0x00180602, 0x00170603, 0x00160604, 0x00140804, 0x00120905]

/-- round(65,535 × e^(−k/8)) for k from 0 to 31, the reset of the noise-reduction weight table (R280). -/
def nrWtabReset : List Nat := [65535, 57834, 51039, 45042, 39749, 35078, 30957, 27319, 24109, 21276, 18776, 16570, 14623,
  12905, 11388, 10050, 8869, 7827, 6907, 6096, 5379, 4747, 4190, 3697, 3263, 2879, 2541, 2242, 1979, 1746, 1541, 1360]

/-- A Bittern source is reserved (R664). -/
def srcReserved (n : Nat) : Bool := n == 127 || (239 ≤ n && n ≤ 255) || 512 ≤ n

/-- N, W in ms and severe action of a lane source by the role of its quad (R664): Causeway, Ethernet, PCIe. -/
def laneSrcDefault (role : Nat) : Nat × Nat × Nat :=
  if role = 0 then (4, 60000, 0) else if role = 1 then (256, 1000, 0) else (16, 1000, 0)

/-- The cold-reset N, W in ms and severe action of a Bittern source (R664, R88). -/
def srcDefault (n : Nat) : Nat × Nat × Nat :=
  if n < 48 then laneSrcDefault 0 else if n < 80 then laneSrcDefault 1 else if n < 96 then laneSrcDefault 2
  else if n < 120 then (2, 60000, 0) else if n < 124 then (1, 1000, 0) else if n = 124 then (64, 1000, 0)
  else if n = 125 then (1, 1000, 1) else if n = 126 then (16, 1000, 0) else if n < 128 then (0, 0, 0)
  else if n < 178 then (2, 10000, 0) else if n < 182 then (4, 10000, 0) else if n = 182 then (1, 1000, 1)
  else if n < 187 then (4, 10000, 0) else if n = 187 then (1, 1000, 0) else if n = 188 then (4, 1000, 0)
  else if n = 189 then (1, 1000, 1) else if n = 190 then (4, 1000, 0) else if n = 191 then (1, 1000, 1)
  else if n < 208 then (4, 1000, 0) else if n < 212 then (8, 10000, 0) else if n < 236 then (8, 1000, 0)
  else if n < 239 then (1, 1000, 1) else (16, 1000, 0)

/-- N − 1, W and severe action packed as the low fields of BIT_SRC_CFG (R686). -/
def packSrcCfg (d : Nat × Nat × Nat) : Nat := (d.1 - 1) + d.2.1 * 0x100 + d.2.2 * 0x1000000

/-- BIT_SRC_CFG_s after cold reset (R664, R686); a reserved source reads 0. -/
def srcCfgReset (n : Nat) : Nat := if srcReserved n then 0 else packSrcCfg (srcDefault n) + 0x1C000000

/-- Reset values that depend on the instance or the index of the register. -/
def specialReset (b : Blk) (i rel : Nat) : Option Nat :=
  let idx (d0 : Nat) : Nat := (rel - d0) / 4
  match b with
  | .lnk =>
    if 0x120 ≤ rel ∧ rel < 0x140 then some (nth 0 presetReset (idx 0x120))
    else if rel = 0x104 ∧ 20 ≤ i then some 0x263 else none
  | .ing => if rel = 0x10C then some i else if rel = 0x200 then some (i * 0x10) else none
  | .psl =>
    if rel = 0x160 then some (if i < 4 then 1 + 2 * i else 8)
    else if 0x1180 ≤ rel ∧ rel < 0x11C0 then
      some (nth 0 nrWtabReset (2 * idx 0x1180) + 0x10000 * nth 0 nrWtabReset (2 * idx 0x1180 + 1))
    else if 0x1304 ≤ rel ∧ rel < 0x1334 then some (if idx 0x1304 % 5 = 0 then 0x3F800000 else 0) else none
  | .clr =>
    if rel = 0x100 then some (i * 0x100)
    else if 0x120 ≤ rel ∧ rel < 0x150 then some (if idx 0x120 % 5 = 0 then 0x3F800000 else 0)
    else if 0x150 ≤ rel ∧ rel < 0x180 then some (if idx 0x150 % 5 = 0 then 0x3F800000 else 0) else none
  | .bit =>
    if 0x1100 ≤ rel ∧ rel < 0x1500 then some (srcCfgReset (idx 0x1100))
    else if 0x2100 ≤ rel ∧ rel < 0x2500 then some (srcCfgReset (256 + idx 0x2100)) else none
  | .top => if rel = 0x114 then some 3 else none
  | _ => none

/-- The reset value of a page-header register (R35–R42). Quads 20–23 are powered and enabled from the first host
access (R102). -/
def headerReset (b : Blk) (i rel : Nat) : Nat :=
  let always := !b.row.switched || (b == .lnk && 20 ≤ i)
  if rel = 0x008 then (if b == .lnk && 20 ≤ i then 5 else if b.row.switched then 0 else 4)
  else if rel = 0x00C then b2n always
  else 0

/-- The value of a register of BAR0 after cold reset. Offsets that hold no register read 0 (R47). -/
def resetVal (off : Nat) : Word :=
  match owner off with
  | none => 0
  | some o =>
    if o.rel < 0x100 then BitVec.ofNat 32 (headerReset o.blk o.inst o.rel)
    else match specialReset o.blk o.inst o.rel with
      | some v => BitVec.ofNat 32 v
      | none => match regAt o.blk o.rel with
        | some (d, _) => BitVec.ofNat 32 (packReset d.fields)
        | none => 0

end Sys2Proof.Machine
end

