-- ==== Sys2Proof/Machine/Fields.lean ====
section
/-! DEFINITION. The places of the fields that the meanings name: byte offset from the instance's page 0, lowest bit,
width, under the names that the field maps give them (PAGE_REGISTER_FIELD). -/

namespace Sys2Proof.Machine

def LNK_QUAD_CFG_ROLE : Fld := ⟨0x100, 0, 1⟩
def LNK_QUAD_CFG_ETH_UNIT : Fld := ⟨0x100, 1, 2⟩
def LNK_QUAD_CFG_ETH_HALF : Fld := ⟨0x100, 3, 1⟩
def LNK_QUAD_CFG : Fld := ⟨0x100, 0, 32⟩
def LNK_QUAD_STAT_PLL_A_LOCK : Fld := ⟨0x104, 0, 1⟩
def LNK_QUAD_STAT_PLL_B_LOCK : Fld := ⟨0x104, 1, 1⟩
def LNK_QUAD_STAT_PLL_ACTIVE : Fld := ⟨0x104, 2, 1⟩
def LNK_QUAD_STAT_BAND : Fld := ⟨0x104, 3, 2⟩
def LNK_QUAD_STAT_OWNER : Fld := ⟨0x104, 5, 2⟩
def LNK_QUAD_STAT_OWNER_INDEX : Fld := ⟨0x104, 7, 2⟩
def LNK_QUAD_STAT_OWNER_ENABLED : Fld := ⟨0x104, 9, 1⟩
def LNK_QUAD_STAT : Fld := ⟨0x104, 0, 32⟩
def LNK_BAND_PRESET_DATA_TB0 : Fld := ⟨0x108, 0, 3⟩
def LNK_BAND_PRESET_DATA_TB1 : Fld := ⟨0x108, 4, 3⟩
def LNK_BAND_PRESET_DATA_TB2 : Fld := ⟨0x108, 8, 3⟩
def LNK_BAND_PRESET_DATA_TB3 : Fld := ⟨0x108, 12, 3⟩
def LNK_BAND_PRESET_CTRL_TB0 : Fld := ⟨0x108, 16, 3⟩
def LNK_BAND_PRESET_CTRL_TB1 : Fld := ⟨0x108, 20, 3⟩
def LNK_BAND_PRESET_CTRL_TB2 : Fld := ⟨0x108, 24, 3⟩
def LNK_BAND_PRESET_CTRL_TB3 : Fld := ⟨0x108, 28, 3⟩
def LNK_BAND_PRESET : Fld := ⟨0x108, 0, 32⟩
def LNK_CAL_CTRL_CAL_PERIOD : Fld := ⟨0x10C, 0, 8⟩
def LNK_CAL_CTRL : Fld := ⟨0x10C, 0, 32⟩
def LNK_DET_CFG_LOS_THRESH : Fld := ⟨0x110, 0, 8⟩
def LNK_DET_CFG_EYE_MIN_H : Fld := ⟨0x110, 8, 8⟩
def LNK_DET_CFG_EYE_MIN_W : Fld := ⟨0x110, 16, 8⟩
def LNK_DET_CFG : Fld := ⟨0x110, 0, 32⟩
def LNK_SCAN_CTRL_LANE : Fld := ⟨0x114, 0, 2⟩
def LNK_SCAN_CTRL_PHASE : Fld := ⟨0x114, 2, 6⟩
def LNK_SCAN_CTRL_VOLT : Fld := ⟨0x114, 8, 7⟩
def LNK_SCAN_CTRL_EYE : Fld := ⟨0x114, 15, 2⟩
def LNK_SCAN_CTRL_DWELL : Fld := ⟨0x114, 17, 5⟩
def LNK_SCAN_CTRL_START : Fld := ⟨0x114, 31, 1⟩
def LNK_SCAN_CTRL : Fld := ⟨0x114, 0, 32⟩
def LNK_SCAN_STAT_DONE : Fld := ⟨0x118, 0, 1⟩
def LNK_SCAN_STAT_WAITING : Fld := ⟨0x118, 1, 1⟩
def LNK_SCAN_STAT : Fld := ⟨0x118, 0, 32⟩
def LNK_SCAN_ERR : Fld := ⟨0x11C, 0, 32⟩
def LNK_PRESET_PRE : Fld := ⟨0x120, 0, 4⟩
def LNK_PRESET_POST : Fld := ⟨0x120, 8, 4⟩
def LNK_PRESET_MAIN : Fld := ⟨0x120, 16, 6⟩
def LNK_PRESET : Fld := ⟨0x120, 0, 32⟩
def LNK_LANE_CFG_RX_INV : Fld := ⟨0x200, 0, 1⟩
def LNK_LANE_CFG_TX_INV : Fld := ⟨0x200, 1, 1⟩
def LNK_LANE_CFG_LOOPBACK : Fld := ⟨0x200, 2, 2⟩
def LNK_LANE_CFG : Fld := ⟨0x200, 0, 32⟩
def LNK_LANE_PWR_RX_PSTATE : Fld := ⟨0x204, 0, 2⟩
def LNK_LANE_PWR_TX_PSTATE : Fld := ⟨0x204, 4, 2⟩
def LNK_LANE_PWR : Fld := ⟨0x204, 0, 32⟩
def LNK_LANE_STAT_RX_NOW : Fld := ⟨0x208, 0, 2⟩
def LNK_LANE_STAT_TX_NOW : Fld := ⟨0x208, 4, 2⟩
def LNK_LANE_STAT_LOS : Fld := ⟨0x208, 8, 1⟩
def LNK_LANE_STAT_LOL : Fld := ⟨0x208, 9, 1⟩
def LNK_LANE_STAT_TRAINED : Fld := ⟨0x208, 10, 1⟩
def LNK_LANE_STAT_TRAINING : Fld := ⟨0x208, 11, 1⟩
def LNK_LANE_STAT_TRAIN_FAILED : Fld := ⟨0x208, 12, 1⟩
def LNK_LANE_STAT_PRESET : Fld := ⟨0x208, 13, 3⟩
def LNK_LANE_STAT_IN_CAL : Fld := ⟨0x208, 16, 1⟩
def LNK_LANE_STAT : Fld := ⟨0x208, 0, 32⟩
def LNK_LANE_TRAIN_START : Fld := ⟨0x20C, 0, 1⟩
def LNK_LANE_TRAIN_AUTO_RETRY : Fld := ⟨0x20C, 1, 1⟩
def LNK_LANE_TRAIN : Fld := ⟨0x20C, 0, 32⟩
def LNK_TX_COEF_C_M3 : Fld := ⟨0x210, 0, 6⟩
def LNK_TX_COEF_C_M2 : Fld := ⟨0x210, 6, 6⟩
def LNK_TX_COEF_C_M1 : Fld := ⟨0x210, 12, 6⟩
def LNK_TX_COEF_C_0 : Fld := ⟨0x210, 18, 6⟩
def LNK_TX_COEF_C_P1 : Fld := ⟨0x210, 24, 6⟩
def LNK_TX_COEF : Fld := ⟨0x210, 0, 32⟩
def LNK_MARGIN_HEIGHT : Fld := ⟨0x214, 0, 8⟩
def LNK_MARGIN_WIDTH : Fld := ⟨0x214, 8, 8⟩
def LNK_MARGIN_AGE : Fld := ⟨0x214, 16, 8⟩
def LNK_MARGIN_VALID : Fld := ⟨0x214, 24, 1⟩
def LNK_MARGIN : Fld := ⟨0x214, 0, 32⟩
def LNK_EVT_CNT_LOS_CNT : Fld := ⟨0x218, 0, 8⟩
def LNK_EVT_CNT_LOL_CNT : Fld := ⟨0x218, 8, 8⟩
def LNK_EVT_CNT_TRAIN_FAIL_CNT : Fld := ⟨0x218, 16, 8⟩
def LNK_EVT_CNT : Fld := ⟨0x218, 0, 32⟩
def LNK_PRBS_CTRL_PATTERN : Fld := ⟨0x21C, 0, 4⟩
def LNK_PRBS_CTRL_GEN_EN : Fld := ⟨0x21C, 4, 1⟩
def LNK_PRBS_CTRL_CHK_EN : Fld := ⟨0x21C, 5, 1⟩
def LNK_PRBS_CTRL_CLEAR : Fld := ⟨0x21C, 6, 1⟩
def LNK_PRBS_CTRL : Fld := ⟨0x21C, 0, 32⟩
def LNK_PRBS_STAT_LOCK : Fld := ⟨0x220, 0, 1⟩
def LNK_PRBS_STAT_SATURATED : Fld := ⟨0x220, 1, 1⟩
def LNK_PRBS_STAT : Fld := ⟨0x220, 0, 32⟩
def LNK_PRBS_INJ_SINGLE : Fld := ⟨0x224, 0, 1⟩
def LNK_PRBS_INJ_RATE : Fld := ⟨0x224, 8, 6⟩
def LNK_PRBS_INJ : Fld := ⟨0x224, 0, 32⟩
def LNK_PRBS_ERR_LO : Fld := ⟨0x228, 0, 32⟩
def LNK_PRBS_ERR_HI : Fld := ⟨0x22C, 0, 16⟩
def LNK_PRBS_ERR_HI_REG : Fld := ⟨0x22C, 0, 32⟩
def LNK_PRBS_BITS_LO : Fld := ⟨0x230, 0, 32⟩
def LNK_PRBS_BITS_HI : Fld := ⟨0x234, 0, 16⟩
def LNK_PRBS_BITS_HI_REG : Fld := ⟨0x234, 0, 32⟩
def LNK_ETH_TXFFE_C_M3 : Fld := ⟨0x238, 0, 6⟩
def LNK_ETH_TXFFE_C_M2 : Fld := ⟨0x238, 6, 6⟩
def LNK_ETH_TXFFE_C_M1 : Fld := ⟨0x238, 12, 6⟩
def LNK_ETH_TXFFE_C_0 : Fld := ⟨0x238, 18, 6⟩
def LNK_ETH_TXFFE_C_P1 : Fld := ⟨0x238, 24, 6⟩
def LNK_ETH_TXFFE : Fld := ⟨0x238, 0, 32⟩
def CWY_CTRL_AUTO_STANDBY : Fld := ⟨0x100, 0, 1⟩
def CWY_CTRL_AUTO_REJOIN : Fld := ⟨0x100, 1, 1⟩
def CWY_CTRL_RESTART : Fld := ⟨0x100, 2, 1⟩
def CWY_CTRL : Fld := ⟨0x100, 0, 32⟩
def CWY_STAT_STATE : Fld := ⟨0x104, 0, 4⟩
def CWY_STAT_PROT : Fld := ⟨0x104, 4, 2⟩
def CWY_STAT_REBUILDING : Fld := ⟨0x104, 6, 1⟩
def CWY_STAT_REMAP_PEND : Fld := ⟨0x104, 7, 1⟩
def CWY_STAT_CAUSE : Fld := ⟨0x104, 8, 4⟩
def CWY_STAT_RUN : Fld := ⟨0x104, 12, 1⟩
def CWY_STAT : Fld := ⟨0x104, 0, 32⟩
def CWY_SFC : Fld := ⟨0x108, 0, 24⟩
def CWY_SFC_REG : Fld := ⟨0x108, 0, 32⟩
def CWY_LANE_STAT : Fld := ⟨0x10C, 0, 24⟩
def CWY_LANE_STAT_REG : Fld := ⟨0x10C, 0, 32⟩
def CWY_ROLE_MAP_LO : Fld := ⟨0x110, 0, 32⟩
def CWY_ROLE_MAP_HI_R8 : Fld := ⟨0x114, 0, 4⟩
def CWY_ROLE_MAP_HI_R9 : Fld := ⟨0x114, 4, 4⟩
def CWY_ROLE_MAP_HI_PARITY : Fld := ⟨0x114, 8, 4⟩
def CWY_ROLE_MAP_HI_STANDBY : Fld := ⟨0x114, 12, 4⟩
def CWY_ROLE_MAP_HI : Fld := ⟨0x114, 0, 32⟩
def CWY_REBUILT : Fld := ⟨0x118, 0, 32⟩
def CWY_UNRECOV : Fld := ⟨0x11C, 0, 32⟩
def CWY_PROTO_ERR : Fld := ⟨0x120, 0, 32⟩
def CWY_FEED_CTRL_REQ : Fld := ⟨0x124, 0, 2⟩
def CWY_FEED_CTRL : Fld := ⟨0x124, 0, 32⟩
def CWY_FEED_STAT_EN : Fld := ⟨0x128, 0, 1⟩
def CWY_FEED_STAT_FLT : Fld := ⟨0x128, 1, 1⟩
def CWY_FEED_STAT_FAULTED : Fld := ⟨0x128, 2, 1⟩
def CWY_FEED_STAT_PENDING : Fld := ⟨0x128, 3, 1⟩
def CWY_FEED_STAT_HOLDOFF : Fld := ⟨0x128, 16, 10⟩
def CWY_FEED_STAT : Fld := ⟨0x128, 0, 32⟩
def CWY_PROBE_CFG_PERIOD : Fld := ⟨0x12C, 0, 8⟩
def CWY_PROBE_CFG : Fld := ⟨0x12C, 0, 32⟩
def CWY_ASYM_A : Fld := ⟨0x130, 0, 32⟩
def CWY_ASYM_B : Fld := ⟨0x134, 0, 32⟩
def CWY_OWD : Fld := ⟨0x138, 0, 32⟩
def CWY_OFFSET_LO : Fld := ⟨0x13C, 0, 32⟩
def CWY_OFFSET_HI : Fld := ⟨0x140, 0, 32⟩
def CWY_PROBE_CNT : Fld := ⟨0x144, 0, 32⟩
def CWY_SKEW : Fld := ⟨0x180, 0, 16⟩
def CWY_SKEW_VALID : Fld := ⟨0x180, 31, 1⟩
def CWY_SKEW_REG : Fld := ⟨0x180, 0, 32⟩
def CWY_LANE_ERR_SYNC_ERR : Fld := ⟨0x1C0, 0, 8⟩
def CWY_LANE_ERR_ICHK_FAIL : Fld := ⟨0x1C0, 8, 8⟩
def CWY_LANE_ERR_COMMA_ERR : Fld := ⟨0x1C0, 16, 8⟩
def CWY_LANE_ERR_LOST : Fld := ⟨0x1C0, 24, 8⟩
def CWY_LANE_ERR : Fld := ⟨0x1C0, 0, 32⟩
def CWY_TXQ_TYPE_MTYPE : Fld := ⟨0x1100, 0, 8⟩
def CWY_TXQ_TYPE : Fld := ⟨0x1100, 0, 32⟩
def CWY_TXQ_BODY : Fld := ⟨0x1104, 0, 32⟩
def CWY_TXQ_PUSH_PUSH : Fld := ⟨0x1110, 0, 1⟩
def CWY_TXQ_PUSH : Fld := ⟨0x1110, 0, 32⟩
def CWY_TXQ_STAT_FREE : Fld := ⟨0x1114, 0, 6⟩
def CWY_TXQ_STAT_ANSWERED : Fld := ⟨0x1114, 16, 16⟩
def CWY_TXQ_STAT : Fld := ⟨0x1114, 0, 32⟩
def CWY_RXQ_STAT_COUNT : Fld := ⟨0x1118, 0, 7⟩
def CWY_RXQ_STAT_OVERFLOW : Fld := ⟨0x1118, 7, 1⟩
def CWY_RXQ_STAT : Fld := ⟨0x1118, 0, 32⟩
def CWY_RXQ_TYPE_MTYPE : Fld := ⟨0x111C, 0, 8⟩
def CWY_RXQ_TYPE_LOCAL : Fld := ⟨0x111C, 8, 1⟩
def CWY_RXQ_TYPE_SEQ : Fld := ⟨0x111C, 16, 16⟩
def CWY_RXQ_TYPE : Fld := ⟨0x111C, 0, 32⟩
def CWY_RXQ_BODY : Fld := ⟨0x1120, 0, 32⟩
def CWY_RXQ_POP_POP : Fld := ⟨0x112C, 0, 1⟩
def CWY_RXQ_POP : Fld := ⟨0x112C, 0, 32⟩
def CWY_HEAD_CAP : Fld := ⟨0x1140, 0, 32⟩
def CWY_HEAD_ERR_CTRL_ERR_A : Fld := ⟨0x1160, 0, 16⟩
def CWY_HEAD_ERR_CTRL_ERR_B : Fld := ⟨0x1160, 16, 16⟩
def CWY_HEAD_ERR : Fld := ⟨0x1160, 0, 32⟩
def ING_GEOM_WIDTH : Fld := ⟨0x100, 0, 16⟩
def ING_GEOM_HEIGHT : Fld := ⟨0x100, 16, 16⟩
def ING_GEOM : Fld := ⟨0x100, 0, 32⟩
def ING_FORMAT_DEPTH : Fld := ⟨0x104, 0, 2⟩
def ING_FORMAT_CFA : Fld := ⟨0x104, 4, 3⟩
def ING_FORMAT : Fld := ⟨0x104, 0, 32⟩
def ING_RATE : Fld := ⟨0x108, 0, 32⟩
def ING_BIND_SLICE : Fld := ⟨0x10C, 0, 3⟩
def ING_BIND : Fld := ⟨0x10C, 0, 32⟩
def ING_PAD_VALUE : Fld := ⟨0x110, 0, 16⟩
def ING_PAD : Fld := ⟨0x110, 0, 32⟩
def ING_TIMING_TIMEOUT : Fld := ⟨0x114, 0, 16⟩
def ING_TIMING_TOL : Fld := ⟨0x114, 16, 8⟩
def ING_TIMING : Fld := ⟨0x114, 0, 32⟩
def ING_SET_SET_ID : Fld := ⟨0x118, 0, 16⟩
def ING_SET_COUNT : Fld := ⟨0x118, 16, 8⟩
def ING_SET_SEND : Fld := ⟨0x118, 31, 1⟩
def ING_SET : Fld := ⟨0x118, 0, 32⟩
def ING_RET_BASE_LO : Fld := ⟨0x120, 0, 32⟩
def ING_RET_BASE_HI : Fld := ⟨0x124, 0, 32⟩
def ING_STAT_BASE_LO : Fld := ⟨0x128, 0, 32⟩
def ING_STAT_BASE_HI : Fld := ⟨0x12C, 0, 32⟩
def ING_STAT_CFG_EN : Fld := ⟨0x130, 0, 1⟩
def ING_STAT_CFG_RING_LOG2 : Fld := ⟨0x130, 1, 4⟩
def ING_STAT_CFG_CLIP : Fld := ⟨0x130, 16, 16⟩
def ING_STAT_CFG : Fld := ⟨0x130, 0, 32⟩
def ING_FOCUS_TL_X0 : Fld := ⟨0x140, 0, 16⟩
def ING_FOCUS_TL_Y0 : Fld := ⟨0x140, 16, 16⟩
def ING_FOCUS_TL : Fld := ⟨0x140, 0, 32⟩
def ING_FOCUS_BR_X1 : Fld := ⟨0x180, 0, 16⟩
def ING_FOCUS_BR_Y1 : Fld := ⟨0x180, 16, 16⟩
def ING_FOCUS_BR : Fld := ⟨0x180, 0, 32⟩
def ING_STAT_STATE : Fld := ⟨0x200, 0, 3⟩
def ING_STAT_SPARE_IN_USE : Fld := ⟨0x200, 3, 1⟩
def ING_STAT_SLICE : Fld := ⟨0x200, 4, 3⟩
def ING_STAT_CUR_SET_ID : Fld := ⟨0x200, 16, 16⟩
def ING_STAT : Fld := ⟨0x200, 0, 32⟩
def ING_CHECK_REASON : Fld := ⟨0x204, 0, 4⟩
def ING_CHECK : Fld := ⟨0x204, 0, 32⟩
def ING_NEXT_SEQ_LO : Fld := ⟨0x208, 0, 32⟩
def ING_NEXT_SEQ_HI : Fld := ⟨0x20C, 0, 32⟩
def ING_LAST_HFC : Fld := ⟨0x210, 0, 32⟩
def ING_SET_STAT_STATE : Fld := ⟨0x214, 0, 3⟩
def ING_SET_STAT_REASON : Fld := ⟨0x214, 8, 8⟩
def ING_SET_STAT_SET_ID : Fld := ⟨0x214, 16, 16⟩
def ING_SET_STAT : Fld := ⟨0x214, 0, 32⟩
def ING_SET_HFC : Fld := ⟨0x218, 0, 32⟩
def ING_LINE_ERR_SHORT_LINES : Fld := ⟨0x21C, 0, 16⟩
def ING_LINE_ERR_LONG_LINES : Fld := ⟨0x21C, 16, 16⟩
def ING_LINE_ERR : Fld := ⟨0x21C, 0, 32⟩
def ING_FRAME_ERR_CUT : Fld := ⟨0x220, 0, 8⟩
def ING_FRAME_ERR_LONG_FRAME : Fld := ⟨0x220, 8, 8⟩
def ING_FRAME_ERR_EARLY : Fld := ⟨0x220, 16, 8⟩
def ING_FRAME_ERR_LATE : Fld := ⟨0x220, 24, 8⟩
def ING_FRAME_ERR : Fld := ⟨0x220, 0, 32⟩
def ING_FRAME_ERR2_NO_END : Fld := ⟨0x224, 0, 8⟩
def ING_FRAME_ERR2_HFC_GAP : Fld := ⟨0x224, 8, 8⟩
def ING_FRAME_ERR2_GEOM_MISMATCH : Fld := ⟨0x224, 16, 8⟩
def ING_FRAME_ERR2_DISCARDED_LINES : Fld := ⟨0x224, 24, 8⟩
def ING_FRAME_ERR2 : Fld := ⟨0x224, 0, 32⟩
def ING_STAT_WR : Fld := ⟨0x228, 0, 32⟩
def ING_RET_LINE : Fld := ⟨0x22C, 0, 32⟩
def ING_ABN_STAT_COUNT : Fld := ⟨0x230, 0, 5⟩
def ING_ABN_STAT_OVERFLOW : Fld := ⟨0x230, 8, 1⟩
def ING_ABN_STAT : Fld := ⟨0x230, 0, 32⟩
def ING_ABN_CTRL_POP : Fld := ⟨0x234, 0, 1⟩
def ING_ABN_CTRL_CLR_OVF : Fld := ⟨0x234, 1, 1⟩
def ING_ABN_CTRL : Fld := ⟨0x234, 0, 32⟩
def ING_ABN_FIRST_LO : Fld := ⟨0x238, 0, 32⟩
def ING_ABN_FIRST_HI : Fld := ⟨0x23C, 0, 32⟩
def ING_ABN_LAST_LO : Fld := ⟨0x240, 0, 32⟩
def ING_ABN_LAST_HI : Fld := ⟨0x244, 0, 32⟩
def ING_ABN_REASON : Fld := ⟨0x248, 0, 4⟩
def ING_ABN_REASON_REG : Fld := ⟨0x248, 0, 32⟩
def PSL_CFG_FPN_EN : Fld := ⟨0x100, 0, 1⟩
def PSL_CFG_SHADING_EN : Fld := ⟨0x100, 1, 1⟩
def PSL_CFG_DEFECT_EN : Fld := ⟨0x100, 2, 1⟩
def PSL_CFG : Fld := ⟨0x100, 0, 32⟩
def PSL_BLACK : Fld := ⟨0x104, 0, 24⟩
def PSL_BLACK_REG : Fld := ⟨0x104, 0, 32⟩
def PSL_WB : Fld := ⟨0x114, 0, 16⟩
def PSL_WB_REG : Fld := ⟨0x114, 0, 32⟩
def PSL_DEFECT_CFG_DYN_THRESH : Fld := ⟨0x124, 0, 16⟩
def PSL_DEFECT_CFG : Fld := ⟨0x124, 0, 32⟩
def PSL_DEFECT_BASE_LO : Fld := ⟨0x128, 2, 30⟩
def PSL_DEFECT_BASE_LO_REG : Fld := ⟨0x128, 0, 32⟩
def PSL_DEFECT_BASE_HI : Fld := ⟨0x12C, 0, 32⟩
def PSL_DEFECT_COUNT_COUNT : Fld := ⟨0x130, 0, 21⟩
def PSL_DEFECT_COUNT : Fld := ⟨0x130, 0, 32⟩
def PSL_SHED_CFG_DECIM_MAX : Fld := ⟨0x134, 0, 3⟩
def PSL_SHED_CFG : Fld := ⟨0x134, 0, 32⟩
def PSL_TBL_BASE_LO : Fld := ⟨0x140, 12, 20⟩
def PSL_TBL_BASE_LO_REG : Fld := ⟨0x140, 0, 32⟩
def PSL_TBL_BASE_HI : Fld := ⟨0x144, 0, 32⟩
def PSL_TBL_LOAD_START : Fld := ⟨0x148, 0, 1⟩
def PSL_TBL_LOAD : Fld := ⟨0x148, 0, 32⟩
def PSL_TBL_STAT_STATE : Fld := ⟨0x14C, 0, 2⟩
def PSL_TBL_STAT_REASON : Fld := ⟨0x14C, 4, 4⟩
def PSL_TBL_STAT_ROW_TABLE : Fld := ⟨0x14C, 8, 4⟩
def PSL_TBL_STAT : Fld := ⟨0x14C, 0, 32⟩
def PSL_STAT_BOUND : Fld := ⟨0x160, 0, 1⟩
def PSL_STAT_HEAD : Fld := ⟨0x160, 1, 2⟩
def PSL_STAT_SPARE : Fld := ⟨0x160, 3, 1⟩
def PSL_STAT_RETIRED : Fld := ⟨0x160, 4, 1⟩
def PSL_STAT_RECOMPUTING : Fld := ⟨0x160, 5, 1⟩
def PSL_STAT_TNR_BUF : Fld := ⟨0x160, 6, 1⟩
def PSL_STAT_TAPS_SHED : Fld := ⟨0x160, 8, 4⟩
def PSL_STAT_DECIM : Fld := ⟨0x160, 12, 3⟩
def PSL_STAT : Fld := ⟨0x160, 0, 32⟩
def PSL_RES_STAT_UNIT : Fld := ⟨0x164, 0, 8⟩
def PSL_RES_STAT_STAGE : Fld := ⟨0x164, 8, 4⟩
def PSL_RES_STAT_TAP : Fld := ⟨0x164, 12, 2⟩
def PSL_RES_STAT_PATROL : Fld := ⟨0x164, 14, 1⟩
def PSL_RES_STAT_LASTING : Fld := ⟨0x164, 15, 1⟩
def PSL_RES_STAT : Fld := ⟨0x164, 0, 32⟩
def PSL_RES_LINE : Fld := ⟨0x168, 0, 16⟩
def PSL_RES_LINE_REG : Fld := ⟨0x168, 0, 32⟩
def PSL_RES_SEQ_LO : Fld := ⟨0x16C, 0, 32⟩
def PSL_RES_SEQ_HI : Fld := ⟨0x170, 0, 32⟩
def PSL_RES_CNT_TRANSIENT : Fld := ⟨0x174, 0, 12⟩
def PSL_RES_CNT_UNRECOVERED : Fld := ⟨0x174, 12, 12⟩
def PSL_RES_CNT_DEFECT_SKIP : Fld := ⟨0x174, 24, 8⟩
def PSL_RES_CNT : Fld := ⟨0x174, 0, 32⟩
def PSL_RECOMP_CNT : Fld := ⟨0x178, 0, 32⟩
def PSL_OVERRUN : Fld := ⟨0x17C, 0, 16⟩
def PSL_OVERRUN_REG : Fld := ⟨0x17C, 0, 32⟩
def PSL_CHECK_REASON : Fld := ⟨0x180, 0, 4⟩
def PSL_CHECK_TAP : Fld := ⟨0x180, 4, 2⟩
def PSL_CHECK_AT_LATCH : Fld := ⟨0x180, 6, 1⟩
def PSL_CHECK : Fld := ⟨0x180, 0, 32⟩
def PSL_DM_EPS : Fld := ⟨0x1100, 0, 32⟩
def PSL_NR_A : Fld := ⟨0x1104, 0, 32⟩
def PSL_NR_B : Fld := ⟨0x1114, 0, 32⟩
def PSL_NR_STRENGTH : Fld := ⟨0x1124, 0, 32⟩
def PSL_TNR_CFG_NMAX : Fld := ⟨0x1128, 0, 8⟩
def PSL_TNR_CFG_RESET : Fld := ⟨0x1128, 8, 1⟩
def PSL_TNR_CFG : Fld := ⟨0x1128, 0, 32⟩
def PSL_TNR_TLO : Fld := ⟨0x112C, 0, 32⟩
def PSL_TNR_THI : Fld := ⟨0x1130, 0, 32⟩
def PSL_TNR_BASE_0_LO : Fld := ⟨0x1134, 0, 32⟩
def PSL_TNR_BASE_0_HI : Fld := ⟨0x1138, 0, 32⟩
def PSL_TNR_BASE_1_LO : Fld := ⟨0x113C, 0, 32⟩
def PSL_TNR_BASE_1_HI : Fld := ⟨0x1140, 0, 32⟩
def PSL_NR_WTAB_LO : Fld := ⟨0x1180, 0, 16⟩
def PSL_NR_WTAB_HI : Fld := ⟨0x1180, 16, 16⟩
def PSL_NR_WTAB : Fld := ⟨0x1180, 0, 32⟩
def PSL_TAP_CFG_SINK : Fld := ⟨0x2100, 0, 2⟩
def PSL_TAP_CFG_ASID : Fld := ⟨0x2100, 2, 6⟩
def PSL_TAP_CFG_SHED_PRI : Fld := ⟨0x2100, 8, 2⟩
def PSL_TAP_CFG_FILL : Fld := ⟨0x2100, 10, 1⟩
def PSL_TAP_CFG_BUF_MODE : Fld := ⟨0x2100, 11, 1⟩
def PSL_TAP_CFG_NBUF : Fld := ⟨0x2100, 12, 4⟩
def PSL_TAP_CFG_REC_LOG2 : Fld := ⟨0x2100, 16, 4⟩
def PSL_TAP_CFG : Fld := ⟨0x2100, 0, 32⟩
def PSL_TAP_CROP_XY_CROP_X : Fld := ⟨0x2104, 0, 16⟩
def PSL_TAP_CROP_XY_CROP_Y : Fld := ⟨0x2104, 16, 16⟩
def PSL_TAP_CROP_XY : Fld := ⟨0x2104, 0, 32⟩
def PSL_TAP_CROP_WH_CROP_W : Fld := ⟨0x2108, 0, 16⟩
def PSL_TAP_CROP_WH_CROP_H : Fld := ⟨0x2108, 16, 16⟩
def PSL_TAP_CROP_WH : Fld := ⟨0x2108, 0, 32⟩
def PSL_TAP_OUT_WH_OUT_W : Fld := ⟨0x210C, 0, 16⟩
def PSL_TAP_OUT_WH_OUT_H : Fld := ⟨0x210C, 16, 16⟩
def PSL_TAP_OUT_WH : Fld := ⟨0x210C, 0, 32⟩
def PSL_TAP_FMT_FORMAT : Fld := ⟨0x2110, 0, 4⟩
def PSL_TAP_FMT_RANGE : Fld := ⟨0x2110, 4, 1⟩
def PSL_TAP_FMT_YDEPTH : Fld := ⟨0x2110, 5, 2⟩
def PSL_TAP_FMT : Fld := ⟨0x2110, 0, 32⟩
def PSL_TAP_BASE_LO : Fld := ⟨0x2114, 8, 24⟩
def PSL_TAP_BASE_LO_REG : Fld := ⟨0x2114, 0, 32⟩
def PSL_TAP_BASE_HI : Fld := ⟨0x2118, 0, 32⟩
def PSL_TAP_STRIDE : Fld := ⟨0x211C, 0, 32⟩
def PSL_TAP_PLANE : Fld := ⟨0x2120, 0, 32⟩
def PSL_TAP_BUFSZ : Fld := ⟨0x2124, 0, 32⟩
def PSL_TAP_REC_LO : Fld := ⟨0x2128, 12, 20⟩
def PSL_TAP_REC_LO_REG : Fld := ⟨0x2128, 0, 32⟩
def PSL_TAP_REC_HI : Fld := ⟨0x212C, 0, 32⟩
def PSL_TAP_SPILL_LO : Fld := ⟨0x2130, 0, 32⟩
def PSL_TAP_SPILL_HI : Fld := ⟨0x2134, 0, 32⟩
def PSL_TAP_REL_LINES : Fld := ⟨0x2180, 0, 16⟩
def PSL_TAP_REL_FRAME_SEQ : Fld := ⟨0x2180, 16, 16⟩
def PSL_TAP_REL : Fld := ⟨0x2180, 0, 32⟩
def PSL_TAP_BUF_NEXT : Fld := ⟨0x2184, 0, 4⟩
def PSL_TAP_BUF_FREE : Fld := ⟨0x2184, 4, 5⟩
def PSL_TAP_BUF_RECORDS : Fld := ⟨0x2184, 16, 16⟩
def PSL_TAP_BUF : Fld := ⟨0x2184, 0, 32⟩
def PSL_TAP_RET_COUNT : Fld := ⟨0x2188, 0, 5⟩
def PSL_TAP_RET : Fld := ⟨0x2188, 0, 32⟩
def PSL_TAP_SPILL_STAT_ACTIVE : Fld := ⟨0x218C, 0, 1⟩
def PSL_TAP_SPILL_STAT_HELD : Fld := ⟨0x218C, 8, 24⟩
def PSL_TAP_SPILL_STAT : Fld := ⟨0x218C, 0, 32⟩
def PSL_TAP_DROP_NOBUF : Fld := ⟨0x2190, 0, 8⟩
def PSL_TAP_DROP_SPILL : Fld := ⟨0x2190, 8, 8⟩
def PSL_TAP_DROP_XLT : Fld := ⟨0x2190, 16, 8⟩
def PSL_TAP_DROP_SHED : Fld := ⟨0x2190, 24, 8⟩
def PSL_TAP_DROP : Fld := ⟨0x2190, 0, 32⟩
def PSL_SL_CFG_MAT_EN : Fld := ⟨0x1300, 0, 1⟩
def PSL_SL_CFG_FLOOR_EN : Fld := ⟨0x1300, 1, 1⟩
def PSL_SL_CFG : Fld := ⟨0x1300, 0, 32⟩
def PSL_SL_M : Fld := ⟨0x1304, 0, 32⟩
def PSL_SL_FLOOR : Fld := ⟨0x1334, 0, 32⟩
def CLR_CFG_MATIN_EN : Fld := ⟨0x100, 0, 1⟩
def CLR_CFG_PRE_EN : Fld := ⟨0x100, 1, 1⟩
def CLR_CFG_LUT_EN : Fld := ⟨0x100, 2, 1⟩
def CLR_CFG_POST_EN : Fld := ⟨0x100, 3, 1⟩
def CLR_CFG_MATOUT_EN : Fld := ⟨0x100, 4, 1⟩
def CLR_CFG_LUT_SRC : Fld := ⟨0x100, 8, 5⟩
def CLR_CFG_PRIMARIES : Fld := ⟨0x100, 16, 4⟩
def CLR_CFG_TRANSFER : Fld := ⟨0x100, 20, 4⟩
def CLR_CFG_MATRIX : Fld := ⟨0x100, 24, 4⟩
def CLR_CFG : Fld := ⟨0x100, 0, 32⟩
def CLR_PRE_DOM_DOMAIN : Fld := ⟨0x104, 0, 1⟩
def CLR_PRE_DOM_E_MIN : Fld := ⟨0x104, 8, 8⟩
def CLR_PRE_DOM_E_MAX : Fld := ⟨0x104, 16, 8⟩
def CLR_PRE_DOM : Fld := ⟨0x104, 0, 32⟩
def CLR_PRE_MIN : Fld := ⟨0x108, 0, 32⟩
def CLR_PRE_MAX : Fld := ⟨0x10C, 0, 32⟩
def CLR_POST_DOM_DOMAIN : Fld := ⟨0x110, 0, 1⟩
def CLR_POST_DOM_E_MIN : Fld := ⟨0x110, 8, 8⟩
def CLR_POST_DOM_E_MAX : Fld := ⟨0x110, 16, 8⟩
def CLR_POST_DOM : Fld := ⟨0x110, 0, 32⟩
def CLR_POST_MIN : Fld := ⟨0x114, 0, 32⟩
def CLR_POST_MAX : Fld := ⟨0x118, 0, 32⟩
def CLR_MATIN : Fld := ⟨0x120, 0, 32⟩
def CLR_MATOUT : Fld := ⟨0x150, 0, 32⟩
def CLR_TBL_BASE_LO : Fld := ⟨0x200, 12, 20⟩
def CLR_TBL_BASE_LO_REG : Fld := ⟨0x200, 0, 32⟩
def CLR_TBL_BASE_HI : Fld := ⟨0x204, 0, 32⟩
def CLR_LUT_BASE_LO : Fld := ⟨0x208, 12, 20⟩
def CLR_LUT_BASE_LO_REG : Fld := ⟨0x208, 0, 32⟩
def CLR_LUT_BASE_HI : Fld := ⟨0x20C, 0, 32⟩
def CLR_LUT_CRC : Fld := ⟨0x210, 0, 32⟩
def CLR_LOAD_CURVES : Fld := ⟨0x214, 0, 1⟩
def CLR_LOAD_LUT : Fld := ⟨0x214, 1, 1⟩
def CLR_LOAD_GEN : Fld := ⟨0x214, 2, 1⟩
def CLR_LOAD : Fld := ⟨0x214, 0, 32⟩
def CLR_GEN_CFG_SET : Fld := ⟨0x218, 0, 1⟩
def CLR_GEN_CFG_FUNC : Fld := ⟨0x218, 4, 4⟩
def CLR_GEN_CFG : Fld := ⟨0x218, 0, 32⟩
def CLR_TBL_STAT_CURVE_STATE : Fld := ⟨0x21C, 0, 2⟩
def CLR_TBL_STAT_CURVE_REASON : Fld := ⟨0x21C, 2, 4⟩
def CLR_TBL_STAT_CURVE_COPIES : Fld := ⟨0x21C, 6, 2⟩
def CLR_TBL_STAT_LUT_STATE : Fld := ⟨0x21C, 8, 2⟩
def CLR_TBL_STAT_LUT_REASON : Fld := ⟨0x21C, 10, 4⟩
def CLR_TBL_STAT_LUT_COPIES : Fld := ⟨0x21C, 14, 2⟩
def CLR_TBL_STAT_WAITING : Fld := ⟨0x21C, 16, 1⟩
def CLR_TBL_STAT : Fld := ⟨0x21C, 0, 32⟩
def CLR_CHECK_REASON : Fld := ⟨0x220, 0, 4⟩
def CLR_CHECK_AT_LATCH : Fld := ⟨0x220, 4, 1⟩
def CLR_CHECK : Fld := ⟨0x220, 0, 32⟩
def CLR_LUT_CLAMP : Fld := ⟨0x224, 0, 32⟩
def WIT_CFG_IN_FMT : Fld := ⟨0x100, 0, 3⟩
def WIT_CFG_DEPTH : Fld := ⟨0x100, 3, 5⟩
def WIT_CFG_CFA : Fld := ⟨0x100, 8, 3⟩
def WIT_CFG_SYNC_MODE : Fld := ⟨0x100, 11, 1⟩
def WIT_CFG_PCLK_EDGE : Fld := ⟨0x100, 12, 1⟩
def WIT_CFG_HS_POL : Fld := ⟨0x100, 13, 1⟩
def WIT_CFG_VS_POL : Fld := ⟨0x100, 14, 1⟩
def WIT_CFG_DE_POL : Fld := ⟨0x100, 15, 1⟩
def WIT_CFG : Fld := ⟨0x100, 0, 32⟩
def WIT_GEOM_WIDTH : Fld := ⟨0x104, 0, 16⟩
def WIT_GEOM_HEIGHT : Fld := ⟨0x104, 16, 16⟩
def WIT_GEOM : Fld := ⟨0x104, 0, 32⟩
def WIT_SYNC_OFS_H_START : Fld := ⟨0x108, 0, 16⟩
def WIT_SYNC_OFS_V_START : Fld := ⟨0x108, 16, 16⟩
def WIT_SYNC_OFS : Fld := ⟨0x108, 0, 32⟩
def WIT_RATE : Fld := ⟨0x10C, 0, 32⟩
def WIT_TIMING_TIMEOUT : Fld := ⟨0x110, 0, 16⟩
def WIT_TIMING_TOL : Fld := ⟨0x110, 16, 8⟩
def WIT_TIMING : Fld := ⟨0x110, 0, 32⟩
def WIT_BLACK : Fld := ⟨0x114, 0, 24⟩
def WIT_BLACK_REG : Fld := ⟨0x114, 0, 32⟩
def WIT_WB : Fld := ⟨0x124, 0, 16⟩
def WIT_WB_REG : Fld := ⟨0x124, 0, 32⟩
def WIT_STAT_CFG_EN : Fld := ⟨0x134, 0, 1⟩
def WIT_STAT_CFG_RING_LOG2 : Fld := ⟨0x134, 1, 4⟩
def WIT_STAT_CFG : Fld := ⟨0x134, 0, 32⟩
def WIT_STAT_BASE_LO : Fld := ⟨0x138, 0, 32⟩
def WIT_STAT_BASE_HI : Fld := ⟨0x13C, 0, 32⟩
def WIT_TAP_CFG_SINK : Fld := ⟨0x140, 0, 2⟩
def WIT_TAP_CFG_ASID : Fld := ⟨0x140, 2, 6⟩
def WIT_TAP_CFG_FILL : Fld := ⟨0x140, 10, 1⟩
def WIT_TAP_CFG_BUF_MODE : Fld := ⟨0x140, 11, 1⟩
def WIT_TAP_CFG_NBUF : Fld := ⟨0x140, 12, 4⟩
def WIT_TAP_CFG_REC_LOG2 : Fld := ⟨0x140, 16, 4⟩
def WIT_TAP_CFG : Fld := ⟨0x140, 0, 32⟩
def WIT_TAP_CROP_XY_CROP_X : Fld := ⟨0x144, 0, 16⟩
def WIT_TAP_CROP_XY_CROP_Y : Fld := ⟨0x144, 16, 16⟩
def WIT_TAP_CROP_XY : Fld := ⟨0x144, 0, 32⟩
def WIT_TAP_CROP_WH_CROP_W : Fld := ⟨0x148, 0, 16⟩
def WIT_TAP_CROP_WH_CROP_H : Fld := ⟨0x148, 16, 16⟩
def WIT_TAP_CROP_WH : Fld := ⟨0x148, 0, 32⟩
def WIT_TAP_OUT_WH_OUT_W : Fld := ⟨0x14C, 0, 16⟩
def WIT_TAP_OUT_WH_OUT_H : Fld := ⟨0x14C, 16, 16⟩
def WIT_TAP_OUT_WH : Fld := ⟨0x14C, 0, 32⟩
def WIT_TAP_FMT_FORMAT : Fld := ⟨0x150, 0, 4⟩
def WIT_TAP_FMT_RANGE : Fld := ⟨0x150, 4, 1⟩
def WIT_TAP_FMT_YDEPTH : Fld := ⟨0x150, 5, 2⟩
def WIT_TAP_FMT : Fld := ⟨0x150, 0, 32⟩
def WIT_TAP_BASE_LO : Fld := ⟨0x154, 8, 24⟩
def WIT_TAP_BASE_LO_REG : Fld := ⟨0x154, 0, 32⟩
def WIT_TAP_BASE_HI : Fld := ⟨0x158, 0, 32⟩
def WIT_TAP_STRIDE : Fld := ⟨0x15C, 0, 32⟩
def WIT_TAP_PLANE : Fld := ⟨0x160, 0, 32⟩
def WIT_TAP_BUFSZ : Fld := ⟨0x164, 0, 32⟩
def WIT_TAP_REC_LO : Fld := ⟨0x168, 12, 20⟩
def WIT_TAP_REC_LO_REG : Fld := ⟨0x168, 0, 32⟩
def WIT_TAP_REC_HI : Fld := ⟨0x16C, 0, 32⟩
def WIT_STAT_STATE : Fld := ⟨0x200, 0, 3⟩
def WIT_STAT_BANK : Fld := ⟨0x200, 4, 2⟩
def WIT_STAT_SHED : Fld := ⟨0x200, 6, 1⟩
def WIT_STAT_LASTING : Fld := ⟨0x200, 7, 1⟩
def WIT_STAT : Fld := ⟨0x200, 0, 32⟩
def WIT_CHECK_REASON : Fld := ⟨0x204, 0, 4⟩
def WIT_CHECK : Fld := ⟨0x204, 0, 32⟩
def WIT_NEXT_WFN_LO : Fld := ⟨0x208, 0, 32⟩
def WIT_NEXT_WFN_HI : Fld := ⟨0x20C, 0, 32⟩
def WIT_PCLK : Fld := ⟨0x210, 0, 20⟩
def WIT_PCLK_REG : Fld := ⟨0x210, 0, 32⟩
def WIT_LINE_ERR_SHORT : Fld := ⟨0x214, 0, 8⟩
def WIT_LINE_ERR_LONG : Fld := ⟨0x214, 8, 8⟩
def WIT_LINE_ERR_GLITCH : Fld := ⟨0x214, 16, 8⟩
def WIT_LINE_ERR : Fld := ⟨0x214, 0, 32⟩
def WIT_FRAME_ERR_CUT : Fld := ⟨0x218, 0, 8⟩
def WIT_FRAME_ERR_LONG_FRAME : Fld := ⟨0x218, 8, 8⟩
def WIT_FRAME_ERR_EARLY : Fld := ⟨0x218, 16, 8⟩
def WIT_FRAME_ERR_LATE : Fld := ⟨0x218, 24, 8⟩
def WIT_FRAME_ERR : Fld := ⟨0x218, 0, 32⟩
def WIT_STAT_WR : Fld := ⟨0x21C, 0, 32⟩
def WIT_ABN_FIRST_LO : Fld := ⟨0x220, 0, 32⟩
def WIT_ABN_FIRST_HI : Fld := ⟨0x224, 0, 32⟩
def WIT_ABN_LAST_LO : Fld := ⟨0x228, 0, 32⟩
def WIT_ABN_LAST_HI : Fld := ⟨0x22C, 0, 32⟩
def WIT_ABN_REASON : Fld := ⟨0x230, 0, 4⟩
def WIT_ABN_REASON_REG : Fld := ⟨0x230, 0, 32⟩
def WIT_ABN_CNT : Fld := ⟨0x234, 0, 32⟩
def WIT_TAP_BUF_NEXT : Fld := ⟨0x240, 0, 4⟩
def WIT_TAP_BUF_FREE : Fld := ⟨0x240, 4, 5⟩
def WIT_TAP_BUF_RECORDS : Fld := ⟨0x240, 16, 16⟩
def WIT_TAP_BUF : Fld := ⟨0x240, 0, 32⟩
def WIT_TAP_RET_COUNT : Fld := ⟨0x244, 0, 5⟩
def WIT_TAP_RET : Fld := ⟨0x244, 0, 32⟩
def WIT_TAP_DROP_NOBUF : Fld := ⟨0x248, 0, 8⟩
def WIT_TAP_DROP_SPILL : Fld := ⟨0x248, 8, 8⟩
def WIT_TAP_DROP_XLT : Fld := ⟨0x248, 16, 8⟩
def WIT_TAP_DROP_SHED : Fld := ⟨0x248, 24, 8⟩
def WIT_TAP_DROP : Fld := ⟨0x248, 0, 32⟩
def WIT_RES_CNT : Fld := ⟨0x260, 0, 12⟩
def WIT_RES_CNT_REG : Fld := ⟨0x260, 0, 32⟩
def SMP_PLAN_BASE_LO : Fld := ⟨0x100, 12, 20⟩
def SMP_PLAN_BASE_LO_REG : Fld := ⟨0x100, 0, 32⟩
def SMP_PLAN_BASE_HI : Fld := ⟨0x104, 0, 32⟩
def SMP_PLAN_CTRL_CHECK : Fld := ⟨0x108, 0, 1⟩
def SMP_PLAN_CTRL_ACTIVATE : Fld := ⟨0x108, 1, 1⟩
def SMP_PLAN_CTRL : Fld := ⟨0x108, 0, 32⟩
def SMP_PLAN_STAT_STATE : Fld := ⟨0x10C, 0, 2⟩
def SMP_PLAN_STAT_LAST_OK : Fld := ⟨0x10C, 2, 1⟩
def SMP_PLAN_STAT : Fld := ⟨0x10C, 0, 32⟩
def SMP_CHECK_REASON : Fld := ⟨0x110, 0, 4⟩
def SMP_CHECK_RECORD : Fld := ⟨0x110, 8, 8⟩
def SMP_CHECK_GRANULE : Fld := ⟨0x110, 16, 8⟩
def SMP_CHECK_DIE : Fld := ⟨0x110, 24, 1⟩
def SMP_CHECK : Fld := ⟨0x110, 0, 32⟩
def SMP_PLAN_ID : Fld := ⟨0x114, 0, 32⟩
def SMP_NEED_PLANNED : Fld := ⟨0x118, 0, 8⟩
def SMP_NEED_RESERVES : Fld := ⟨0x118, 8, 8⟩
def SMP_NEED_FREE : Fld := ⟨0x118, 16, 8⟩
def SMP_NEED : Fld := ⟨0x118, 0, 32⟩
def SMP_LOAD_TO_PD1 : Fld := ⟨0x11C, 0, 16⟩
def SMP_LOAD_TO_PD0 : Fld := ⟨0x11C, 16, 16⟩
def SMP_LOAD : Fld := ⟨0x11C, 0, 32⟩
def SMP_TKO_LOAD : Fld := ⟨0x120, 0, 16⟩
def SMP_TKO_LIMITED : Fld := ⟨0x120, 16, 4⟩
def SMP_TKO : Fld := ⟨0x120, 0, 32⟩
def SMP_STAT_NO_RESERVE : Fld := ⟨0x124, 0, 1⟩
def SMP_STAT_REMAP_PEND : Fld := ⟨0x124, 1, 1⟩
def SMP_STAT_LOAD_OVER : Fld := ⟨0x124, 2, 1⟩
def SMP_STAT_RES_PD0 : Fld := ⟨0x124, 4, 4⟩
def SMP_STAT_RES_PD1 : Fld := ⟨0x124, 8, 4⟩
def SMP_STAT : Fld := ⟨0x124, 0, 32⟩
def SMP_GROUP_PWR : Fld := ⟨0x128, 0, 24⟩
def SMP_GROUP_PWR_REG : Fld := ⟨0x128, 0, 32⟩
def SMP_ECC_CNT_CORRECTED : Fld := ⟨0x12C, 0, 16⟩
def SMP_ECC_CNT_UNCORR : Fld := ⟨0x12C, 16, 8⟩
def SMP_ECC_CNT_LASTING : Fld := ⟨0x12C, 24, 8⟩
def SMP_ECC_CNT : Fld := ⟨0x12C, 0, 32⟩
def SMP_ECC_LAST_BANK : Fld := ⟨0x130, 0, 8⟩
def SMP_ECC_LAST_WORD : Fld := ⟨0x130, 8, 14⟩
def SMP_ECC_LAST_VALID : Fld := ⟨0x130, 31, 1⟩
def SMP_ECC_LAST : Fld := ⟨0x130, 0, 32⟩
def SMP_SCRUB : Fld := ⟨0x134, 0, 16⟩
def SMP_SCRUB_REG : Fld := ⟨0x134, 0, 32⟩
def SMP_ENV_BLOCK_TYPE : Fld := ⟨0x138, 0, 8⟩
def SMP_ENV_INSTANCE : Fld := ⟨0x138, 8, 8⟩
def SMP_ENV_RULE : Fld := ⟨0x138, 16, 4⟩
def SMP_ENV : Fld := ⟨0x138, 0, 32⟩
def SMP_MAP : Fld := ⟨0x1100, 0, 32⟩
def SMP_FAIL : Fld := ⟨0x1200, 0, 32⟩
def VLC_STAT_FORCED : Fld := ⟨0x100, 0, 4⟩
def VLC_STAT_RECODING : Fld := ⟨0x100, 4, 1⟩
def VLC_STAT : Fld := ⟨0x100, 0, 32⟩
def VLC_VERIFY_MISMATCH : Fld := ⟨0x104, 0, 8⟩
def VLC_VERIFY_RECODED : Fld := ⟨0x104, 8, 8⟩
def VLC_VERIFY_STORED_INSTEAD : Fld := ⟨0x104, 16, 8⟩
def VLC_VERIFY : Fld := ⟨0x104, 0, 32⟩
def VLC_FAIL_INFO_HEAD : Fld := ⟨0x108, 0, 2⟩
def VLC_FAIL_INFO_BY_C4 : Fld := ⟨0x108, 2, 1⟩
def VLC_FAIL_INFO_VALID : Fld := ⟨0x108, 3, 1⟩
def VLC_FAIL_INFO_STRIP : Fld := ⟨0x108, 16, 16⟩
def VLC_FAIL_INFO : Fld := ⟨0x108, 0, 32⟩
def VLC_FAIL_SEQ_LO : Fld := ⟨0x10C, 0, 32⟩
def VLC_FAIL_SEQ_HI : Fld := ⟨0x110, 0, 32⟩
def VLC_HEAD_CFG_FORM : Fld := ⟨0x1100, 0, 2⟩
def VLC_HEAD_CFG_RATIO : Fld := ⟨0x1100, 8, 8⟩
def VLC_HEAD_CFG : Fld := ⟨0x1100, 0, 32⟩
def VLC_HEAD_STAT_FORCED_STORED : Fld := ⟨0x1104, 0, 1⟩
def VLC_HEAD_STAT_ACTIVE : Fld := ⟨0x1104, 1, 1⟩
def VLC_HEAD_STAT_LAST_FORM : Fld := ⟨0x1104, 2, 2⟩
def VLC_HEAD_STAT_LAST_LEVEL : Fld := ⟨0x1104, 4, 4⟩
def VLC_HEAD_STAT_LAST_STRIP : Fld := ⟨0x1104, 16, 16⟩
def VLC_HEAD_STAT : Fld := ⟨0x1104, 0, 32⟩
def VLC_HEAD_CTRL_CLR_FORCED : Fld := ⟨0x1108, 0, 1⟩
def VLC_HEAD_CTRL : Fld := ⟨0x1108, 0, 32⟩
def VLC_STRIPS : Fld := ⟨0x110C, 0, 32⟩
def VLC_LOSSLESS : Fld := ⟨0x1110, 0, 32⟩
def VLC_FLAT : Fld := ⟨0x1114, 0, 32⟩
def VLC_IN_LO : Fld := ⟨0x1118, 0, 32⟩
def VLC_IN_HI : Fld := ⟨0x111C, 0, 32⟩
def VLC_OUT_LO : Fld := ⟨0x1120, 0, 32⟩
def VLC_OUT_HI : Fld := ⟨0x1124, 0, 32⟩
def VLC_RECODE : Fld := ⟨0x1128, 0, 32⟩
def GCX_RING_LO : Fld := ⟨0x100, 12, 20⟩
def GCX_RING_LO_REG : Fld := ⟨0x100, 0, 32⟩
def GCX_RING_HI : Fld := ⟨0x104, 0, 32⟩
def GCX_CPL_LO : Fld := ⟨0x108, 12, 20⟩
def GCX_CPL_LO_REG : Fld := ⟨0x108, 0, 32⟩
def GCX_CPL_HI : Fld := ⟨0x10C, 0, 32⟩
def GCX_RING_CFG_RING_LOG2 : Fld := ⟨0x110, 0, 4⟩
def GCX_RING_CFG_ASID : Fld := ⟨0x110, 8, 6⟩
def GCX_RING_CFG : Fld := ⟨0x110, 0, 32⟩
def GCX_PROD : Fld := ⟨0x114, 0, 16⟩
def GCX_PROD_REG : Fld := ⟨0x114, 0, 32⟩
def GCX_CONS : Fld := ⟨0x118, 0, 16⟩
def GCX_CONS_REG : Fld := ⟨0x118, 0, 32⟩
def GCX_DONE : Fld := ⟨0x11C, 0, 16⟩
def GCX_DONE_REG : Fld := ⟨0x11C, 0, 32⟩
def GCX_CTRL_ABORT : Fld := ⟨0x120, 0, 1⟩
def GCX_CTRL : Fld := ⟨0x120, 0, 32⟩
def GCX_STAT_RUNNING : Fld := ⟨0x124, 0, 1⟩
def GCX_STAT_PAUSED : Fld := ⟨0x124, 1, 1⟩
def GCX_STAT_SHED : Fld := ⟨0x124, 2, 1⟩
def GCX_STAT_ABORT_IDLE : Fld := ⟨0x124, 3, 1⟩
def GCX_STAT : Fld := ⟨0x124, 0, 32⟩
def GCX_WINDOW_WINDOW : Fld := ⟨0x128, 0, 2⟩
def GCX_WINDOW : Fld := ⟨0x128, 0, 32⟩
def GCX_ERR_CNT : Fld := ⟨0x12C, 0, 16⟩
def GCX_ERR_CNT_REG : Fld := ⟨0x12C, 0, 32⟩
def TSQ_STORE_BASE_LO : Fld := ⟨0x100, 19, 13⟩
def TSQ_STORE_BASE_LO_REG : Fld := ⟨0x100, 0, 32⟩
def TSQ_STORE_BASE_HI : Fld := ⟨0x104, 0, 32⟩
def TSQ_STORE_STRIPES : Fld := ⟨0x108, 0, 32⟩
def TSQ_STORE_STAT_FORMATTED : Fld := ⟨0x10C, 0, 1⟩
def TSQ_STORE_STAT_GEOM_MISMATCH : Fld := ⟨0x10C, 1, 1⟩
def TSQ_STORE_STAT_FORMATTING : Fld := ⟨0x10C, 2, 1⟩
def TSQ_STORE_STAT_JOURNAL_LOST : Fld := ⟨0x10C, 3, 1⟩
def TSQ_STORE_STAT : Fld := ⟨0x10C, 0, 32⟩
def TSQ_JNL_BASE_LO : Fld := ⟨0x110, 12, 20⟩
def TSQ_JNL_BASE_LO_REG : Fld := ⟨0x110, 0, 32⟩
def TSQ_JNL_BASE_HI : Fld := ⟨0x114, 0, 32⟩
def TSQ_JNL_BLOCKS : Fld := ⟨0x118, 0, 32⟩
def TSQ_JNL_RES : Fld := ⟨0x11C, 0, 32⟩
def TSQ_JNL_NEXT_LO : Fld := ⟨0x120, 0, 32⟩
def TSQ_JNL_NEXT_HI : Fld := ⟨0x124, 0, 32⟩
def TSQ_JNL_FREE : Fld := ⟨0x128, 0, 32⟩
def TSQ_CQ_BASE_LO : Fld := ⟨0x130, 12, 20⟩
def TSQ_CQ_BASE_LO_REG : Fld := ⟨0x130, 0, 32⟩
def TSQ_CQ_BASE_HI : Fld := ⟨0x134, 0, 32⟩
def TSQ_CQ_CFG_CQ_LOG2 : Fld := ⟨0x138, 0, 4⟩
def TSQ_CQ_CFG_ASID : Fld := ⟨0x138, 8, 6⟩
def TSQ_CQ_CFG : Fld := ⟨0x138, 0, 32⟩
def TSQ_CQ_TAIL : Fld := ⟨0x13C, 0, 32⟩
def TSQ_CQ_HEAD : Fld := ⟨0x140, 0, 32⟩
def TSQ_PWR_TARGET : Fld := ⟨0x150, 0, 2⟩
def TSQ_PWR_AUTO : Fld := ⟨0x150, 2, 1⟩
def TSQ_PWR_IDLE : Fld := ⟨0x150, 16, 16⟩
def TSQ_PWR : Fld := ⟨0x150, 0, 32⟩
def TSQ_PWR_STAT_NOW : Fld := ⟨0x154, 0, 2⟩
def TSQ_PWR_STAT_MOVING : Fld := ⟨0x154, 2, 1⟩
def TSQ_PWR_STAT : Fld := ⟨0x154, 0, 32⟩
def TSQ_ABORT_SLOT : Fld := ⟨0x160, 0, 5⟩
def TSQ_ABORT_GO : Fld := ⟨0x160, 8, 1⟩
def TSQ_ABORT : Fld := ⟨0x160, 0, 32⟩
def TSQ_ABORT_HSN : Fld := ⟨0x164, 0, 32⟩
def TSQ_ABORT_STAT_PENDING : Fld := ⟨0x168, 0, 1⟩
def TSQ_ABORT_STAT_RESULT : Fld := ⟨0x168, 1, 2⟩
def TSQ_ABORT_STAT : Fld := ⟨0x168, 0, 32⟩
def TSQ_DURABLE_CSN_LO : Fld := ⟨0x170, 0, 32⟩
def TSQ_DURABLE_CSN_HI : Fld := ⟨0x174, 0, 32⟩
def TSQ_RCV_STAT_STATE : Fld := ⟨0x178, 0, 2⟩
def TSQ_RCV_STAT_FROM_COLD : Fld := ⟨0x178, 2, 1⟩
def TSQ_RCV_STAT_LOST : Fld := ⟨0x178, 16, 16⟩
def TSQ_RCV_STAT : Fld := ⟨0x178, 0, 32⟩
def TSQ_WB_STAT_USED : Fld := ⟨0x17C, 0, 16⟩
def TSQ_WB_STAT_WAITING : Fld := ⟨0x17C, 16, 8⟩
def TSQ_WB_STAT_GRANULES : Fld := ⟨0x17C, 24, 7⟩
def TSQ_WB_STAT : Fld := ⟨0x17C, 0, 32⟩
def TSQ_AREA_BASE : Fld := ⟨0x200, 0, 32⟩
def TSQ_AREA_LEN : Fld := ⟨0x204, 0, 32⟩
def TSQ_AREA_HEAD_LO : Fld := ⟨0x208, 0, 32⟩
def TSQ_AREA_HEAD_HI : Fld := ⟨0x20C, 0, 32⟩
def TSQ_AREA_TAIL_LO : Fld := ⟨0x210, 0, 32⟩
def TSQ_AREA_TAIL_HI : Fld := ⟨0x214, 0, 32⟩
def TSQ_AREA_FRAMES : Fld := ⟨0x218, 0, 32⟩
def TSQ_AREA_FREE : Fld := ⟨0x21C, 0, 32⟩
def TSQ_SLOT_CMD_OP : Fld := ⟨0x1100, 0, 4⟩
def TSQ_SLOT_CMD_FUA : Fld := ⟨0x1100, 4, 1⟩
def TSQ_SLOT_CMD_IRQ : Fld := ⟨0x1100, 5, 1⟩
def TSQ_SLOT_CMD_AREA : Fld := ⟨0x1100, 6, 2⟩
def TSQ_SLOT_CMD_ASID : Fld := ⟨0x1100, 8, 6⟩
def TSQ_SLOT_CMD : Fld := ⟨0x1100, 0, 32⟩
def TSQ_SLOT_HSN : Fld := ⟨0x1104, 0, 32⟩
def TSQ_SLOT_BLK_LO : Fld := ⟨0x1108, 0, 32⟩
def TSQ_SLOT_BLK_HI : Fld := ⟨0x110C, 0, 32⟩
def TSQ_SLOT_COUNT : Fld := ⟨0x1110, 0, 32⟩
def TSQ_SLOT_BUF_LO : Fld := ⟨0x1118, 6, 26⟩
def TSQ_SLOT_BUF_LO_REG : Fld := ⟨0x1118, 0, 32⟩
def TSQ_SLOT_BUF_HI : Fld := ⟨0x111C, 0, 32⟩
def TSQ_SLOT_STAT_STATE : Fld := ⟨0x1120, 0, 3⟩
def TSQ_SLOT_STAT_LAST : Fld := ⟨0x1120, 4, 3⟩
def TSQ_SLOT_STAT_REASON : Fld := ⟨0x1120, 8, 4⟩
def TSQ_SLOT_STAT : Fld := ⟨0x1120, 0, 32⟩
def TSQ_SLOT_CSN_LO : Fld := ⟨0x1124, 0, 32⟩
def TSQ_SLOT_CSN_HI : Fld := ⟨0x1128, 0, 32⟩
def TSQ_DEF_STAT_COUNT : Fld := ⟨0x3100, 0, 5⟩
def TSQ_DEF_STAT_OVERFLOW : Fld := ⟨0x3100, 8, 1⟩
def TSQ_DEF_STAT : Fld := ⟨0x3100, 0, 32⟩
def TSQ_DEF_CSN_LO : Fld := ⟨0x3104, 0, 32⟩
def TSQ_DEF_CSN_HI : Fld := ⟨0x3108, 0, 32⟩
def TSQ_DEF_HSN : Fld := ⟨0x310C, 0, 32⟩
def TSQ_DEF_BLK : Fld := ⟨0x3110, 0, 32⟩
def TSQ_DEF_INFO : Fld := ⟨0x3114, 0, 8⟩
def TSQ_DEF_INFO_REG : Fld := ⟨0x3114, 0, 32⟩
def TSQ_DEF_CTRL_POP : Fld := ⟨0x3118, 0, 1⟩
def TSQ_DEF_CTRL_CLR_OVF : Fld := ⟨0x3118, 1, 1⟩
def TSQ_DEF_CTRL : Fld := ⟨0x3118, 0, 32⟩
def TSQ_CNT_HIT : Fld := ⟨0x3120, 0, 32⟩
def TSQ_CNT_REBUILT : Fld := ⟨0x3124, 0, 32⟩
def TSQ_CNT_DUP_REPLAYED : Fld := ⟨0x3128, 0, 16⟩
def TSQ_CNT_DUP_MERGED : Fld := ⟨0x3128, 16, 16⟩
def TSQ_CNT_DUP : Fld := ⟨0x3128, 0, 32⟩
def HBM_CTRL_WAKE : Fld := ⟨0x100, 0, 1⟩
def HBM_CTRL_GO : Fld := ⟨0x100, 1, 1⟩
def HBM_CTRL : Fld := ⟨0x100, 0, 32⟩
def HBM_STAT_PLL_LOCK : Fld := ⟨0x104, 0, 1⟩
def HBM_STAT_IN_SR : Fld := ⟨0x104, 1, 1⟩
def HBM_STAT_READY : Fld := ⟨0x104, 2, 1⟩
def HBM_STAT_KEPT : Fld := ⟨0x104, 3, 1⟩
def HBM_STAT_OFFLINE_PC : Fld := ⟨0x104, 8, 6⟩
def HBM_STAT_OFFLINE : Fld := ⟨0x104, 14, 1⟩
def HBM_STAT : Fld := ⟨0x104, 0, 32⟩
def HBM_TEMP_TEMP : Fld := ⟨0x108, 0, 8⟩
def HBM_TEMP_MULT : Fld := ⟨0x108, 8, 2⟩
def HBM_TEMP : Fld := ⟨0x108, 0, 32⟩
def HBM_REF_CFG_TB0 : Fld := ⟨0x10C, 0, 2⟩
def HBM_REF_CFG_TB1 : Fld := ⟨0x10C, 2, 2⟩
def HBM_REF_CFG_TB2 : Fld := ⟨0x10C, 4, 2⟩
def HBM_REF_CFG_TB3 : Fld := ⟨0x10C, 6, 2⟩
def HBM_REF_CFG_STACK_EN : Fld := ⟨0x10C, 8, 1⟩
def HBM_REF_CFG : Fld := ⟨0x10C, 0, 32⟩
def HBM_REF_CNT_POSTPONED : Fld := ⟨0x110, 0, 16⟩
def HBM_REF_CNT_FORCED : Fld := ⟨0x110, 16, 16⟩
def HBM_REF_CNT : Fld := ⟨0x110, 0, 32⟩
def HBM_SCHED_CFG_AGE_MAX : Fld := ⟨0x114, 0, 8⟩
def HBM_SCHED_CFG_HIT_CAP : Fld := ⟨0x114, 8, 8⟩
def HBM_SCHED_CFG : Fld := ⟨0x114, 0, 32⟩
def HBM_CAL_CFG_PERIOD : Fld := ⟨0x118, 0, 8⟩
def HBM_CAL_CFG : Fld := ⟨0x118, 0, 32⟩
def HBM_CAL_STAT_PC : Fld := ⟨0x11C, 0, 6⟩
def HBM_CAL_STAT_LANE : Fld := ⟨0x11C, 6, 6⟩
def HBM_CAL_STAT_VALID : Fld := ⟨0x11C, 12, 1⟩
def HBM_CAL_STAT : Fld := ⟨0x11C, 0, 32⟩
def HBM_SCRUB_CFG_PERIOD : Fld := ⟨0x120, 0, 16⟩
def HBM_SCRUB_CFG : Fld := ⟨0x120, 0, 32⟩
def HBM_ECC_CNT_CORRECTED : Fld := ⟨0x124, 0, 16⟩
def HBM_ECC_CNT_TRANSIENT : Fld := ⟨0x124, 16, 8⟩
def HBM_ECC_CNT_LASTING : Fld := ⟨0x124, 24, 8⟩
def HBM_ECC_CNT : Fld := ⟨0x124, 0, 32⟩
def HBM_ECC_LAST_PC : Fld := ⟨0x128, 0, 6⟩
def HBM_ECC_LAST_BANK : Fld := ⟨0x128, 6, 6⟩
def HBM_ECC_LAST_ROW : Fld := ⟨0x128, 12, 14⟩
def HBM_ECC_LAST_UNIT : Fld := ⟨0x128, 26, 5⟩
def HBM_ECC_LAST_VALID : Fld := ⟨0x128, 31, 1⟩
def HBM_ECC_LAST : Fld := ⟨0x128, 0, 32⟩
def HBM_PC_FAIL_LO : Fld := ⟨0x130, 0, 32⟩
def HBM_PC_FAIL_HI : Fld := ⟨0x134, 0, 32⟩
def HBM_PC_CTRL_PC : Fld := ⟨0x140, 0, 6⟩
def HBM_PC_CTRL_ACTION : Fld := ⟨0x140, 8, 2⟩
def HBM_PC_CTRL : Fld := ⟨0x140, 0, 32⟩
def HBM_TRN_SEL_CHANNEL : Fld := ⟨0x150, 0, 5⟩
def HBM_TRN_SEL_PC : Fld := ⟨0x150, 5, 1⟩
def HBM_TRN_SEL_OP : Fld := ⟨0x150, 6, 2⟩
def HBM_TRN_SEL_PATTERN : Fld := ⟨0x150, 8, 4⟩
def HBM_TRN_SEL_BURSTS : Fld := ⟨0x150, 16, 16⟩
def HBM_TRN_SEL : Fld := ⟨0x150, 0, 32⟩
def HBM_TRN_DLY_LANE : Fld := ⟨0x154, 0, 6⟩
def HBM_TRN_DLY_KIND : Fld := ⟨0x154, 6, 2⟩
def HBM_TRN_DLY_VALUE : Fld := ⟨0x154, 8, 7⟩
def HBM_TRN_DLY : Fld := ⟨0x154, 0, 32⟩
def HBM_TRN_RUN_START : Fld := ⟨0x158, 0, 1⟩
def HBM_TRN_RUN : Fld := ⟨0x158, 0, 32⟩
def HBM_TRN_STAT_DONE : Fld := ⟨0x15C, 0, 1⟩
def HBM_TRN_STAT_ABORTED : Fld := ⟨0x15C, 1, 1⟩
def HBM_TRN_STAT : Fld := ⟨0x15C, 0, 32⟩
def HBM_TRN_ERR_LO : Fld := ⟨0x160, 0, 32⟩
def HBM_TRN_ERR_HI : Fld := ⟨0x164, 0, 6⟩
def HBM_TRN_ERR_HI_REG : Fld := ⟨0x164, 0, 32⟩
def HBM_TRN_CNT : Fld := ⟨0x168, 0, 32⟩
def HBM_TRN_USER : Fld := ⟨0x16C, 0, 32⟩
def HBM_LANE_MAP_LANE_A : Fld := ⟨0x170, 0, 6⟩
def HBM_LANE_MAP_A_VALID : Fld := ⟨0x170, 6, 1⟩
def HBM_LANE_MAP_LANE_B : Fld := ⟨0x170, 8, 6⟩
def HBM_LANE_MAP_B_VALID : Fld := ⟨0x170, 14, 1⟩
def HBM_LANE_MAP : Fld := ⟨0x170, 0, 32⟩
def HBM_REGION_A_ADDR : Fld := ⟨0x1100, 0, 14⟩
def HBM_REGION_A_SIZE : Fld := ⟨0x1100, 16, 14⟩
def HBM_REGION_A : Fld := ⟨0x1100, 0, 32⟩
def HBM_REGION_B_ROW_BASE : Fld := ⟨0x1104, 0, 14⟩
def HBM_REGION_B_ORDER : Fld := ⟨0x1104, 14, 2⟩
def HBM_REGION_B_STACKS : Fld := ⟨0x1104, 16, 4⟩
def HBM_REGION_B_BAR2 : Fld := ⟨0x1104, 20, 2⟩
def HBM_REGION_B_PROTECTED : Fld := ⟨0x1104, 22, 1⟩
def HBM_REGION_B_KIND : Fld := ⟨0x1104, 24, 2⟩
def HBM_REGION_B : Fld := ⟨0x1104, 0, 32⟩
def HBM_PLAN_CTRL_APPLY : Fld := ⟨0x1180, 0, 1⟩
def HBM_PLAN_CTRL : Fld := ⟨0x1180, 0, 32⟩
def HBM_PLAN_STAT_STATE : Fld := ⟨0x1184, 0, 2⟩
def HBM_PLAN_STAT_LAST_OK : Fld := ⟨0x1184, 2, 1⟩
def HBM_PLAN_STAT_NO_SLOT : Fld := ⟨0x1184, 3, 1⟩
def HBM_PLAN_STAT_DIRTY : Fld := ⟨0x1184, 4, 1⟩
def HBM_PLAN_STAT_REASON : Fld := ⟨0x1184, 8, 4⟩
def HBM_PLAN_STAT_REGION : Fld := ⟨0x1184, 12, 4⟩
def HBM_PLAN_STAT : Fld := ⟨0x1184, 0, 32⟩
def HBM_RT_OPT_DISPLAY : Fld := ⟨0x1188, 0, 1⟩
def HBM_RT_OPT_ST2110 : Fld := ⟨0x1188, 1, 1⟩
def HBM_RT_OPT : Fld := ⟨0x1188, 0, 32⟩
def HBM_SPARE_CFG_RATE : Fld := ⟨0x118C, 0, 8⟩
def HBM_SPARE_CFG : Fld := ⟨0x118C, 0, 32⟩
def HBM_SPARE_STAT_SLOTS : Fld := ⟨0x1190, 0, 4⟩
def HBM_SPARE_STAT_USED : Fld := ⟨0x1190, 4, 4⟩
def HBM_SPARE_STAT_SPARING : Fld := ⟨0x1190, 8, 1⟩
def HBM_SPARE_STAT_UNSPARED : Fld := ⟨0x1190, 16, 16⟩
def HBM_SPARE_STAT : Fld := ⟨0x1190, 0, 32⟩
def HBM_SPARE_SLOT : Fld := ⟨0x1194, 0, 24⟩
def HBM_SPARE_SLOT_REG : Fld := ⟨0x1194, 0, 32⟩
def HBM_SPARE_PROG : Fld := ⟨0x1198, 0, 24⟩
def HBM_SPARE_PROG_REG : Fld := ⟨0x1198, 0, 32⟩
def HBM_SPARE_LOG_G : Fld := ⟨0x11A0, 0, 8⟩
def HBM_SPARE_LOG_SLOT : Fld := ⟨0x11A0, 8, 4⟩
def HBM_SPARE_LOG_VALID : Fld := ⟨0x11A0, 15, 1⟩
def HBM_SPARE_LOG : Fld := ⟨0x11A0, 0, 32⟩
def COD_ENG_STAT_CONTEXT : Fld := ⟨0x100, 0, 6⟩
def COD_ENG_STAT_RUNNING : Fld := ⟨0x100, 6, 1⟩
def COD_ENG_STAT_PAUSED : Fld := ⟨0x100, 7, 1⟩
def COD_ENG_STAT_ROW : Fld := ⟨0x100, 8, 16⟩
def COD_ENG_STAT_SAVING : Fld := ⟨0x100, 24, 1⟩
def COD_ENG_STAT : Fld := ⟨0x100, 0, 32⟩
def COD_ENG_ROWS : Fld := ⟨0x104, 0, 32⟩
def COD_ENG_PREEMPT : Fld := ⟨0x108, 0, 32⟩
def COD_ENG_SUMP : Fld := ⟨0x10C, 0, 16⟩
def COD_ENG_SUMP_REG : Fld := ⟨0x10C, 0, 32⟩
def CTX_CFG_MODE : Fld := ⟨0x100, 0, 2⟩
def CTX_CFG_STD : Fld := ⟨0x100, 2, 1⟩
def CTX_CFG_LIVE : Fld := ⟨0x100, 3, 1⟩
def CTX_CFG_PRI : Fld := ⟨0x100, 4, 2⟩
def CTX_CFG_REF_POLICY : Fld := ⟨0x100, 6, 1⟩
def CTX_CFG_STRICT : Fld := ⟨0x100, 7, 1⟩
def CTX_CFG_ASID : Fld := ⟨0x100, 8, 6⟩
def CTX_CFG_ANNEXB : Fld := ⟨0x100, 14, 1⟩
def CTX_CFG : Fld := ⟨0x100, 0, 32⟩
def CTX_RATE : Fld := ⟨0x104, 0, 16⟩
def CTX_RATE_REG : Fld := ⟨0x104, 0, 32⟩
def CTX_STATE_LO : Fld := ⟨0x108, 20, 12⟩
def CTX_STATE_LO_REG : Fld := ⟨0x108, 0, 32⟩
def CTX_STATE_HI : Fld := ⟨0x10C, 0, 32⟩
def CTX_ROB_LO : Fld := ⟨0x110, 20, 12⟩
def CTX_ROB_LO_REG : Fld := ⟨0x110, 0, 32⟩
def CTX_ROB_HI : Fld := ⟨0x114, 0, 32⟩
def CTX_ROB_SIZE : Fld := ⟨0x118, 0, 9⟩
def CTX_ROB_SIZE_REG : Fld := ⟨0x118, 0, 32⟩
def CTX_GEOM_MAX_W : Fld := ⟨0x11C, 0, 16⟩
def CTX_GEOM_MAX_H : Fld := ⟨0x11C, 16, 16⟩
def CTX_GEOM : Fld := ⟨0x11C, 0, 32⟩
def CTX_PB_BASE_LO : Fld := ⟨0x120, 16, 16⟩
def CTX_PB_BASE_LO_REG : Fld := ⟨0x120, 0, 32⟩
def CTX_PB_BASE_HI : Fld := ⟨0x124, 0, 32⟩
def CTX_PB_CFG_PB_COUNT : Fld := ⟨0x128, 0, 4⟩
def CTX_PB_CFG_PB_STRIDE : Fld := ⟨0x128, 16, 16⟩
def CTX_PB_CFG : Fld := ⟨0x128, 0, 32⟩
def CTX_PB_PITCH : Fld := ⟨0x12C, 0, 24⟩
def CTX_PB_PITCH_REG : Fld := ⟨0x12C, 0, 32⟩
def CTX_PB_PLANE : Fld := ⟨0x130, 0, 32⟩
def CTX_PB_MV : Fld := ⟨0x134, 0, 32⟩
def CTX_ENC_0_LEVEL : Fld := ⟨0x138, 0, 8⟩
def CTX_ENC_0_TIER : Fld := ⟨0x138, 8, 1⟩
def CTX_ENC_0_CTB : Fld := ⟨0x138, 9, 1⟩
def CTX_ENC_0_WPP : Fld := ⟨0x138, 10, 1⟩
def CTX_ENC_0_TILE_COLS : Fld := ⟨0x138, 11, 5⟩
def CTX_ENC_0_TILE_ROWS : Fld := ⟨0x138, 16, 5⟩
def CTX_ENC_0_SEI_TAGS : Fld := ⟨0x138, 21, 1⟩
def CTX_ENC_0_DEPTH8 : Fld := ⟨0x138, 22, 1⟩
def CTX_ENC_0 : Fld := ⟨0x138, 0, 32⟩
def CTX_ENC_1_SEARCH_H : Fld := ⟨0x13C, 0, 8⟩
def CTX_ENC_1_SEARCH_V : Fld := ⟨0x13C, 8, 8⟩
def CTX_ENC_1 : Fld := ⟨0x13C, 0, 32⟩
def CTX_CPL_LO : Fld := ⟨0x140, 12, 20⟩
def CTX_CPL_LO_REG : Fld := ⟨0x140, 0, 32⟩
def CTX_CPL_HI : Fld := ⟨0x144, 0, 32⟩
def CTX_CPL_CFG_CPL_LOG2 : Fld := ⟨0x148, 0, 4⟩
def CTX_CPL_CFG_ASID : Fld := ⟨0x148, 8, 6⟩
def CTX_CPL_CFG : Fld := ⟨0x148, 0, 32⟩
def CTX_WAIT : Fld := ⟨0x14C, 0, 16⟩
def CTX_WAIT_REG : Fld := ⟨0x14C, 0, 32⟩
def CTX_UUID_0 : Fld := ⟨0x150, 0, 32⟩
def CTX_UUID_1 : Fld := ⟨0x154, 0, 32⟩
def CTX_UUID_2 : Fld := ⟨0x158, 0, 32⟩
def CTX_UUID_3 : Fld := ⟨0x15C, 0, 32⟩
def CTX_CPL_TAIL : Fld := ⟨0x180, 0, 32⟩
def CTX_CPL_HEAD : Fld := ⟨0x184, 0, 32⟩
def CTX_SUBMIT_LO : Fld := ⟨0x188, 7, 25⟩
def CTX_SUBMIT_LO_REG : Fld := ⟨0x188, 0, 32⟩
def CTX_SUBMIT_HI : Fld := ⟨0x18C, 0, 32⟩
def CTX_SUBMIT_GO : Fld := ⟨0x190, 0, 1⟩
def CTX_SUBMIT : Fld := ⟨0x190, 0, 32⟩
def CTX_SUBMIT_STAT_PENDING : Fld := ⟨0x194, 0, 1⟩
def CTX_SUBMIT_STAT_RESULT : Fld := ⟨0x194, 1, 2⟩
def CTX_SUBMIT_STAT_REASON : Fld := ⟨0x194, 4, 4⟩
def CTX_SUBMIT_STAT : Fld := ⟨0x194, 0, 32⟩
def CTX_ABORT_GO : Fld := ⟨0x198, 0, 1⟩
def CTX_ABORT : Fld := ⟨0x198, 0, 32⟩
def CTX_ABORT_SEQ : Fld := ⟨0x19C, 0, 32⟩
def CTX_ABORT_STAT_PENDING : Fld := ⟨0x1A0, 0, 1⟩
def CTX_ABORT_STAT_RESULT : Fld := ⟨0x1A0, 1, 2⟩
def CTX_ABORT_STAT_COUNT : Fld := ⟨0x1A0, 8, 8⟩
def CTX_ABORT_STAT : Fld := ⟨0x1A0, 0, 32⟩
def CTX_STAT_QUEUED : Fld := ⟨0x1A4, 0, 5⟩
def CTX_STAT_RUNNING : Fld := ⟨0x1A4, 5, 1⟩
def CTX_STAT_WAITING : Fld := ⟨0x1A4, 6, 1⟩
def CTX_STAT_SHED : Fld := ⟨0x1A4, 7, 1⟩
def CTX_STAT : Fld := ⟨0x1A4, 0, 32⟩
def CTX_NEXT_SEQ : Fld := ⟨0x1A8, 0, 32⟩
def CTX_DONE_SEQ : Fld := ⟨0x1AC, 0, 32⟩
def CTX_PB_VALID : Fld := ⟨0x1B0, 0, 12⟩
def CTX_PB_VALID_REG : Fld := ⟨0x1B0, 0, 32⟩
def CTX_PB_RET : Fld := ⟨0x1B4, 0, 12⟩
def CTX_PB_RET_REG : Fld := ⟨0x1B4, 0, 32⟩
def CTX_CHECK_REASON : Fld := ⟨0x1B8, 0, 4⟩
def CTX_CHECK : Fld := ⟨0x1B8, 0, 32⟩
def CTX_ERR_CNT_FAILED : Fld := ⟨0x1BC, 0, 16⟩
def CTX_ERR_CNT_CONCEALED : Fld := ⟨0x1BC, 16, 16⟩
def CTX_ERR_CNT : Fld := ⟨0x1BC, 0, 32⟩
def COD_LIVE_LOAD : Fld := ⟨0xC00, 0, 16⟩
def COD_LIVE_LOAD_REG : Fld := ⟨0xC00, 0, 32⟩
def COD_ENG_AVAIL : Fld := ⟨0xC04, 0, 4⟩
def COD_ENG_AVAIL_REG : Fld := ⟨0xC04, 0, 32⟩
def COD_CPL_PEND_LO : Fld := ⟨0xC08, 0, 32⟩
def COD_CPL_PEND_HI : Fld := ⟨0xC0C, 0, 32⟩
def ETH_PORT_CFG_SPLIT : Fld := ⟨0x100, 0, 1⟩
def ETH_PORT_CFG_RATE_0 : Fld := ⟨0x100, 1, 2⟩
def ETH_PORT_CFG_RATE_1 : Fld := ⟨0x100, 3, 2⟩
def ETH_PORT_CFG_IF : Fld := ⟨0x100, 5, 2⟩
def ETH_PORT_CFG_MAX_FRAME : Fld := ⟨0x100, 16, 14⟩
def ETH_PORT_CFG : Fld := ⟨0x100, 0, 32⟩
def ETH_PORT_STAT_UP_0 : Fld := ⟨0x104, 0, 1⟩
def ETH_PORT_STAT_UP_1 : Fld := ⟨0x104, 1, 1⟩
def ETH_PORT_STAT_REMOTE_FAULT : Fld := ⟨0x104, 2, 1⟩
def ETH_PORT_STAT : Fld := ⟨0x104, 0, 32⟩
def ETH_MAC_0_LO : Fld := ⟨0x108, 0, 32⟩
def ETH_MAC_0_HI : Fld := ⟨0x10C, 0, 16⟩
def ETH_MAC_0_HI_REG : Fld := ⟨0x10C, 0, 32⟩
def ETH_MAC_1_LO : Fld := ⟨0x110, 0, 32⟩
def ETH_MAC_1_HI : Fld := ⟨0x114, 0, 16⟩
def ETH_MAC_1_HI_REG : Fld := ⟨0x114, 0, 32⟩
def ETH_TMPL_LO : Fld := ⟨0x118, 12, 20⟩
def ETH_TMPL_LO_REG : Fld := ⟨0x118, 0, 32⟩
def ETH_TMPL_HI : Fld := ⟨0x11C, 0, 32⟩
def ETH_SLUICE_UDP : Fld := ⟨0x120, 0, 16⟩
def ETH_SLUICE_UDP_REG : Fld := ⟨0x120, 0, 32⟩
def ETH_SLUICE_DEV : Fld := ⟨0x124, 0, 32⟩
def ETH_RT_LOAD_P0 : Fld := ⟨0x128, 0, 16⟩
def ETH_RT_LOAD_P1 : Fld := ⟨0x128, 16, 16⟩
def ETH_RT_LOAD : Fld := ⟨0x128, 0, 32⟩
def ETH_HRX_BASE_LO : Fld := ⟨0x130, 14, 18⟩
def ETH_HRX_BASE_LO_REG : Fld := ⟨0x130, 0, 32⟩
def ETH_HRX_BASE_HI : Fld := ⟨0x134, 0, 32⟩
def ETH_HRX_CFG_LOG2 : Fld := ⟨0x138, 0, 4⟩
def ETH_HRX_CFG_ASID : Fld := ⟨0x138, 8, 6⟩
def ETH_HRX_CFG : Fld := ⟨0x138, 0, 32⟩
def ETH_HRX_TAIL : Fld := ⟨0x13C, 0, 32⟩
def ETH_HRX_HEAD : Fld := ⟨0x140, 0, 32⟩
def ETH_HTX_BASE_LO : Fld := ⟨0x150, 14, 18⟩
def ETH_HTX_BASE_LO_REG : Fld := ⟨0x150, 0, 32⟩
def ETH_HTX_BASE_HI : Fld := ⟨0x154, 0, 32⟩
def ETH_HTX_CFG_LOG2 : Fld := ⟨0x158, 0, 4⟩
def ETH_HTX_CFG_ASID : Fld := ⟨0x158, 8, 6⟩
def ETH_HTX_CFG : Fld := ⟨0x158, 0, 32⟩
def ETH_HTX_PROD : Fld := ⟨0x15C, 0, 32⟩
def ETH_HTX_DONE : Fld := ⟨0x160, 0, 32⟩
def ETH_SND_CFG_EN : Fld := ⟨0x1100, 0, 1⟩
def ETH_SND_CFG_TYPE : Fld := ⟨0x1100, 1, 1⟩
def ETH_SND_CFG_PRI_HALF : Fld := ⟨0x1100, 2, 1⟩
def ETH_SND_CFG_PARTNER_EN : Fld := ⟨0x1100, 3, 1⟩
def ETH_SND_CFG_PARTNER_UNIT : Fld := ⟨0x1100, 4, 2⟩
def ETH_SND_CFG_PARTNER_HALF : Fld := ⟨0x1100, 6, 1⟩
def ETH_SND_CFG_DEPTH16 : Fld := ⟨0x1100, 7, 1⟩
def ETH_SND_CFG : Fld := ⟨0x1100, 0, 32⟩
def ETH_SND_SRC_SLICE : Fld := ⟨0x1104, 0, 4⟩
def ETH_SND_SRC_TAP : Fld := ⟨0x1104, 4, 2⟩
def ETH_SND_SRC : Fld := ⟨0x1104, 0, 32⟩
def ETH_SND_RATE_NUM : Fld := ⟨0x1108, 0, 16⟩
def ETH_SND_RATE_DEN : Fld := ⟨0x1108, 16, 16⟩
def ETH_SND_RATE : Fld := ⟨0x1108, 0, 32⟩
def ETH_SND_OFS : Fld := ⟨0x110C, 0, 32⟩
def ETH_SND_TMPL_PRI_TMPL : Fld := ⟨0x1110, 0, 8⟩
def ETH_SND_TMPL_PARTNER_TMPL : Fld := ⟨0x1110, 8, 8⟩
def ETH_SND_TMPL_PAYLOAD_MAX : Fld := ⟨0x1110, 16, 16⟩
def ETH_SND_TMPL : Fld := ⟨0x1110, 0, 32⟩
def ETH_SND_ANC_LO : Fld := ⟨0x1114, 10, 22⟩
def ETH_SND_ANC_LO_REG : Fld := ⟨0x1114, 0, 32⟩
def ETH_SND_ANC_HI : Fld := ⟨0x1118, 0, 32⟩
def ETH_SND_ANC_CFG_LOG2 : Fld := ⟨0x111C, 0, 4⟩
def ETH_SND_ANC_CFG_ASID : Fld := ⟨0x111C, 8, 6⟩
def ETH_SND_ANC_CFG : Fld := ⟨0x111C, 0, 32⟩
def ETH_SND_ANC_PROD : Fld := ⟨0x1120, 0, 16⟩
def ETH_SND_ANC_PROD_REG : Fld := ⟨0x1120, 0, 32⟩
def ETH_SND_ANC_CONS : Fld := ⟨0x1124, 0, 16⟩
def ETH_SND_ANC_CONS_REG : Fld := ⟨0x1124, 0, 32⟩
def ETH_SND_BW : Fld := ⟨0x1128, 0, 20⟩
def ETH_SND_BW_REG : Fld := ⟨0x1128, 0, 32⟩
def ETH_SND_STAT_STATE : Fld := ⟨0x112C, 0, 2⟩
def ETH_SND_STAT_REASON : Fld := ⟨0x112C, 4, 4⟩
def ETH_SND_STAT_PRI_UP : Fld := ⟨0x112C, 8, 1⟩
def ETH_SND_STAT_PARTNER_UP : Fld := ⟨0x112C, 9, 1⟩
def ETH_SND_STAT : Fld := ⟨0x112C, 0, 32⟩
def ETH_SND_ERR_REPEAT : Fld := ⟨0x1130, 0, 8⟩
def ETH_SND_ERR_SKIP : Fld := ⟨0x1130, 8, 8⟩
def ETH_SND_ERR_TORN : Fld := ⟨0x1130, 16, 8⟩
def ETH_SND_ERR_NO_FRAME : Fld := ⟨0x1130, 24, 8⟩
def ETH_SND_ERR : Fld := ⟨0x1130, 0, 32⟩
def ETH_SND_FSEQ : Fld := ⟨0x1134, 0, 32⟩
def ETH_SES_CFG_HEAD : Fld := ⟨0x2100, 0, 2⟩
def ETH_SES_CFG_START : Fld := ⟨0x2100, 2, 1⟩
def ETH_SES_CFG_HOLD : Fld := ⟨0x2100, 3, 1⟩
def ETH_SES_CFG_BLOCKS : Fld := ⟨0x2100, 4, 1⟩
def ETH_SES_CFG_PRI_HALF : Fld := ⟨0x2100, 5, 1⟩
def ETH_SES_CFG_ALT_EN : Fld := ⟨0x2100, 6, 1⟩
def ETH_SES_CFG_ALT_UNIT : Fld := ⟨0x2100, 7, 2⟩
def ETH_SES_CFG_ALT_HALF : Fld := ⟨0x2100, 9, 1⟩
def ETH_SES_CFG : Fld := ⟨0x2100, 0, 32⟩
def ETH_SES_ID : Fld := ⟨0x2104, 0, 32⟩
def ETH_SES_TMPL_PRI_TMPL : Fld := ⟨0x2108, 0, 8⟩
def ETH_SES_TMPL_ALT_TMPL : Fld := ⟨0x2108, 8, 8⟩
def ETH_SES_TMPL : Fld := ⟨0x2108, 0, 32⟩
def ETH_SES_RATE : Fld := ⟨0x210C, 0, 16⟩
def ETH_SES_RATE_REG : Fld := ⟨0x210C, 0, 32⟩
def ETH_SES_RTO_RTO : Fld := ⟨0x2110, 0, 16⟩
def ETH_SES_RTO : Fld := ⟨0x2110, 0, 32⟩
def ETH_SES_CTRL_OPEN : Fld := ⟨0x2114, 0, 1⟩
def ETH_SES_CTRL_CLOSE : Fld := ⟨0x2114, 1, 1⟩
def ETH_SES_CTRL_ABORT : Fld := ⟨0x2114, 2, 1⟩
def ETH_SES_CTRL : Fld := ⟨0x2114, 0, 32⟩
def ETH_SES_STAT_STATE : Fld := ⟨0x2118, 0, 3⟩
def ETH_SES_STAT_ON_ALT : Fld := ⟨0x2118, 3, 1⟩
def ETH_SES_STAT_REASON : Fld := ⟨0x2118, 4, 4⟩
def ETH_SES_STAT_END : Fld := ⟨0x2118, 8, 4⟩
def ETH_SES_STAT_END_VALID : Fld := ⟨0x2118, 12, 1⟩
def ETH_SES_STAT : Fld := ⟨0x2118, 0, 32⟩
def ETH_SES_WIN_WINDOW : Fld := ⟨0x211C, 0, 16⟩
def ETH_SES_WIN_UNACK : Fld := ⟨0x211C, 16, 16⟩
def ETH_SES_WIN : Fld := ⟨0x211C, 0, 32⟩
def ETH_SES_NEXT_LO : Fld := ⟨0x2120, 0, 32⟩
def ETH_SES_NEXT_HI : Fld := ⟨0x2124, 0, 32⟩
def ETH_SES_CUM_LO : Fld := ⟨0x2128, 0, 32⟩
def ETH_SES_CUM_HI : Fld := ⟨0x212C, 0, 32⟩
def ETH_SES_FSEQ_LO : Fld := ⟨0x2130, 0, 32⟩
def ETH_SES_FSEQ_HI : Fld := ⟨0x2134, 0, 32⟩
def ETH_SES_END_FIRST_LO : Fld := ⟨0x2138, 0, 32⟩
def ETH_SES_END_FIRST_HI : Fld := ⟨0x213C, 0, 32⟩
def ETH_SES_END_LAST_LO : Fld := ⟨0x2140, 0, 32⟩
def ETH_SES_END_LAST_HI : Fld := ⟨0x2144, 0, 32⟩
def ETH_SES_RETX : Fld := ⟨0x2148, 0, 32⟩
def ETH_SES_SKIP : Fld := ⟨0x214C, 0, 32⟩
def ETH_SES_LAG : Fld := ⟨0x2150, 0, 32⟩
def ETH_TX_FRAMES : Fld := ⟨0x3100, 0, 32⟩
def ETH_RX_FRAMES : Fld := ⟨0x3104, 0, 32⟩
def ETH_RX_DROP_FULL : Fld := ⟨0x3108, 0, 16⟩
def ETH_RX_DROP_ERR : Fld := ⟨0x3108, 16, 16⟩
def ETH_RX_DROP : Fld := ⟨0x3108, 0, 32⟩
def ETH_FEC_CORR : Fld := ⟨0x310C, 0, 32⟩
def ETH_FEC_UNCORR : Fld := ⟨0x3110, 0, 32⟩
def ETH_PAUSE : Fld := ⟨0x3114, 0, 32⟩
def TIM_CTRL_LOCKED : Fld := ⟨0x100, 0, 1⟩
def TIM_CTRL_TREF_MODE : Fld := ⟨0x100, 1, 2⟩
def TIM_CTRL : Fld := ⟨0x100, 0, 32⟩
def TIM_STAT_LOCKED : Fld := ⟨0x104, 0, 1⟩
def TIM_STAT_FREE_RUN : Fld := ⟨0x104, 1, 1⟩
def TIM_STAT_ADJ_PEND : Fld := ⟨0x104, 2, 1⟩
def TIM_STAT_TREF_PRESENT : Fld := ⟨0x104, 3, 1⟩
def TIM_STAT_SYNC_PRESENT : Fld := ⟨0x104, 4, 1⟩
def TIM_STAT : Fld := ⟨0x104, 0, 32⟩
def TIM_NOW_SEC_LO : Fld := ⟨0x108, 0, 32⟩
def TIM_NOW_SEC_HI : Fld := ⟨0x10C, 0, 16⟩
def TIM_NOW_SEC_HI_REG : Fld := ⟨0x10C, 0, 32⟩
def TIM_NOW_NS : Fld := ⟨0x110, 0, 32⟩
def TIM_NOW_FRAC : Fld := ⟨0x114, 0, 16⟩
def TIM_NOW_FRAC_REG : Fld := ⟨0x114, 0, 32⟩
def TIM_INC_LO : Fld := ⟨0x118, 0, 32⟩
def TIM_INC_HI : Fld := ⟨0x11C, 0, 17⟩
def TIM_INC_HI_REG : Fld := ⟨0x11C, 0, 32⟩
def TIM_ADJ_LO : Fld := ⟨0x120, 0, 32⟩
def TIM_ADJ_HI : Fld := ⟨0x124, 0, 32⟩
def TIM_SET_SEC_LO : Fld := ⟨0x128, 0, 32⟩
def TIM_SET_SEC_HI : Fld := ⟨0x12C, 0, 16⟩
def TIM_SET_SEC_HI_REG : Fld := ⟨0x12C, 0, 32⟩
def TIM_SET_NS : Fld := ⟨0x130, 0, 32⟩
def TIM_SET_FRAC : Fld := ⟨0x134, 0, 16⟩
def TIM_SET_FRAC_REG : Fld := ⟨0x134, 0, 32⟩
def TIM_ADJ_CTRL_STEP : Fld := ⟨0x138, 0, 1⟩
def TIM_ADJ_CTRL_LOAD : Fld := ⟨0x138, 1, 1⟩
def TIM_ADJ_CTRL : Fld := ⟨0x138, 0, 32⟩
def TIM_WDOG : Fld := ⟨0x13C, 0, 16⟩
def TIM_WDOG_REG : Fld := ⟨0x13C, 0, 32⟩
def TIM_CAP_EN_SYNC_RISE : Fld := ⟨0x140, 0, 1⟩
def TIM_CAP_EN_SYNC_FALL : Fld := ⟨0x140, 1, 1⟩
def TIM_CAP_EN_TREF : Fld := ⟨0x140, 2, 1⟩
def TIM_CAP_EN : Fld := ⟨0x140, 0, 32⟩
def TIM_CAP_STAT_COUNT : Fld := ⟨0x144, 0, 6⟩
def TIM_CAP_STAT_OVERFLOW : Fld := ⟨0x144, 8, 1⟩
def TIM_CAP_STAT : Fld := ⟨0x144, 0, 32⟩
def TIM_CAP_SRC_SRC : Fld := ⟨0x148, 0, 2⟩
def TIM_CAP_SRC : Fld := ⟨0x148, 0, 32⟩
def TIM_CAP_SEC_LO : Fld := ⟨0x14C, 0, 32⟩
def TIM_CAP_SEC_HI : Fld := ⟨0x150, 0, 16⟩
def TIM_CAP_SEC_HI_REG : Fld := ⟨0x150, 0, 32⟩
def TIM_CAP_NS : Fld := ⟨0x154, 0, 32⟩
def TIM_CAP_FRAC : Fld := ⟨0x158, 0, 16⟩
def TIM_CAP_FRAC_REG : Fld := ⟨0x158, 0, 32⟩
def TIM_CAP_CTRL_POP : Fld := ⟨0x15C, 0, 1⟩
def TIM_CAP_CTRL_CLR_OVF : Fld := ⟨0x15C, 1, 1⟩
def TIM_CAP_CTRL_SOFT : Fld := ⟨0x15C, 2, 1⟩
def TIM_CAP_CTRL : Fld := ⟨0x15C, 0, 32⟩
def TIM_TC_CFG_EN : Fld := ⟨0x160, 0, 1⟩
def TIM_TC_CFG_PORTS : Fld := ⟨0x160, 8, 8⟩
def TIM_TC_CFG : Fld := ⟨0x160, 0, 32⟩
def TIM_TC_CNT_FORWARDED : Fld := ⟨0x164, 0, 16⟩
def TIM_TC_CNT_DROPPED : Fld := ⟨0x164, 16, 16⟩
def TIM_TC_CNT : Fld := ⟨0x164, 0, 32⟩
def TIM_PORT_DLY_RX_DLY : Fld := ⟨0x180, 0, 16⟩
def TIM_PORT_DLY_TX_DLY : Fld := ⟨0x180, 16, 16⟩
def TIM_PORT_DLY : Fld := ⟨0x180, 0, 32⟩
def TIM_STB_CFG_MODE : Fld := ⟨0x1100, 0, 3⟩
def TIM_STB_CFG_POL : Fld := ⟨0x1100, 3, 1⟩
def TIM_STB_CFG_SYNC_INV : Fld := ⟨0x1100, 4, 1⟩
def TIM_STB_CFG : Fld := ⟨0x1100, 0, 32⟩
def TIM_STB_START_SEC_LO : Fld := ⟨0x1104, 0, 32⟩
def TIM_STB_START_SEC_HI : Fld := ⟨0x1108, 0, 16⟩
def TIM_STB_START_SEC_HI_REG : Fld := ⟨0x1108, 0, 32⟩
def TIM_STB_START_NS : Fld := ⟨0x110C, 0, 32⟩
def TIM_STB_START_FRAC : Fld := ⟨0x1110, 0, 16⟩
def TIM_STB_START_FRAC_REG : Fld := ⟨0x1110, 0, 32⟩
def TIM_STB_NUM : Fld := ⟨0x1114, 0, 24⟩
def TIM_STB_NUM_REG : Fld := ⟨0x1114, 0, 32⟩
def TIM_STB_DEN : Fld := ⟨0x1118, 0, 24⟩
def TIM_STB_DEN_REG : Fld := ⟨0x1118, 0, 32⟩
def TIM_STB_WIDTH : Fld := ⟨0x111C, 0, 32⟩
def TIM_STB_COUNT : Fld := ⟨0x1120, 0, 32⟩
def TIM_STB_CTRL_ARM : Fld := ⟨0x1124, 0, 1⟩
def TIM_STB_CTRL_DISARM : Fld := ⟨0x1124, 1, 1⟩
def TIM_STB_CTRL : Fld := ⟨0x1124, 0, 32⟩
def TIM_STB_STAT_ARMED : Fld := ⟨0x1128, 0, 1⟩
def TIM_STB_STAT_ACTIVE : Fld := ⟨0x1128, 1, 1⟩
def TIM_STB_STAT_LATE : Fld := ⟨0x1128, 2, 1⟩
def TIM_STB_STAT_DONE : Fld := ⟨0x1128, 3, 1⟩
def TIM_STB_STAT : Fld := ⟨0x1128, 0, 32⟩
def TIM_STB_SENT : Fld := ⟨0x112C, 0, 32⟩
def TIM_STB_SKIP : Fld := ⟨0x1130, 0, 32⟩
def TIM_HS_CFG_EN : Fld := ⟨0x1300, 0, 1⟩
def TIM_HS_CFG : Fld := ⟨0x1300, 0, 32⟩
def TIM_HS_GAIN_KP : Fld := ⟨0x1304, 0, 16⟩
def TIM_HS_GAIN_KI : Fld := ⟨0x1304, 16, 16⟩
def TIM_HS_GAIN : Fld := ⟨0x1304, 0, 32⟩
def TIM_HS_STEP : Fld := ⟨0x1308, 0, 32⟩
def TIM_HS_LOCK : Fld := ⟨0x130C, 0, 24⟩
def TIM_HS_LOCK_REG : Fld := ⟨0x130C, 0, 32⟩
def TIM_HS_STAT_STATE : Fld := ⟨0x1310, 0, 3⟩
def TIM_HS_STAT_LOCKED : Fld := ⟨0x1310, 3, 1⟩
def TIM_HS_STAT_COPY : Fld := ⟨0x1310, 4, 1⟩
def TIM_HS_STAT : Fld := ⟨0x1310, 0, 32⟩
def TIM_HS_OFS : Fld := ⟨0x1314, 0, 32⟩
def TIM_HS_RATE : Fld := ⟨0x1318, 0, 32⟩
def TIM_HS_LOST : Fld := ⟨0x131C, 0, 32⟩
def DSP_CFG_SYNC_MODE : Fld := ⟨0x100, 0, 2⟩
def DSP_CFG_BPC : Fld := ⟨0x100, 2, 2⟩
def DSP_CFG_HS_POL : Fld := ⟨0x100, 4, 1⟩
def DSP_CFG_VS_POL : Fld := ⟨0x100, 5, 1⟩
def DSP_CFG : Fld := ⟨0x100, 0, 32⟩
def DSP_PCLK : Fld := ⟨0x104, 0, 22⟩
def DSP_PCLK_REG : Fld := ⟨0x104, 0, 32⟩
def DSP_H_TIMING_0_H_ACTIVE : Fld := ⟨0x108, 0, 16⟩
def DSP_H_TIMING_0_H_TOTAL : Fld := ⟨0x108, 16, 16⟩
def DSP_H_TIMING_0 : Fld := ⟨0x108, 0, 32⟩
def DSP_H_TIMING_1_HS_START : Fld := ⟨0x10C, 0, 16⟩
def DSP_H_TIMING_1_HS_END : Fld := ⟨0x10C, 16, 16⟩
def DSP_H_TIMING_1 : Fld := ⟨0x10C, 0, 32⟩
def DSP_V_TIMING_0_V_ACTIVE : Fld := ⟨0x110, 0, 16⟩
def DSP_V_TIMING_0_V_TOTAL_MIN : Fld := ⟨0x110, 16, 16⟩
def DSP_V_TIMING_0 : Fld := ⟨0x110, 0, 32⟩
def DSP_V_TIMING_1_VS_START : Fld := ⟨0x114, 0, 16⟩
def DSP_V_TIMING_1_VS_END : Fld := ⟨0x114, 16, 16⟩
def DSP_V_TIMING_1 : Fld := ⟨0x114, 0, 32⟩
def DSP_V_TOTAL_MAX_V_TOTAL_MAX : Fld := ⟨0x118, 0, 16⟩
def DSP_V_TOTAL_MAX : Fld := ⟨0x118, 0, 32⟩
def DSP_BG_B : Fld := ⟨0x11C, 0, 10⟩
def DSP_BG_G : Fld := ⟨0x11C, 10, 10⟩
def DSP_BG_R : Fld := ⟨0x11C, 20, 10⟩
def DSP_BG : Fld := ⟨0x11C, 0, 32⟩
def DSP_OUT_TAGS_PRIMARIES : Fld := ⟨0x120, 0, 4⟩
def DSP_OUT_TAGS_TRANSFER : Fld := ⟨0x120, 4, 4⟩
def DSP_OUT_TAGS : Fld := ⟨0x120, 0, 32⟩
def DSP_COMP_TAG_LAYER : Fld := ⟨0x124, 0, 2⟩
def DSP_COMP : Fld := ⟨0x124, 0, 32⟩
def DSP_LINK_CFG_RATE : Fld := ⟨0x130, 0, 3⟩
def DSP_LINK_CFG_LANES : Fld := ⟨0x130, 4, 2⟩
def DSP_LINK_CFG_SSC : Fld := ⟨0x130, 6, 1⟩
def DSP_LINK_CFG : Fld := ⟨0x130, 0, 32⟩
def DSP_LINK_TRAIN_PATTERN : Fld := ⟨0x134, 0, 4⟩
def DSP_LINK_TRAIN_PRESET : Fld := ⟨0x134, 16, 16⟩
def DSP_LINK_TRAIN : Fld := ⟨0x134, 0, 32⟩
def DSP_AUX_ADDR : Fld := ⟨0x138, 0, 20⟩
def DSP_AUX_ADDR_REG : Fld := ⟨0x138, 0, 32⟩
def DSP_AUX_CMD_CMD : Fld := ⟨0x13C, 0, 4⟩
def DSP_AUX_CMD_LEN : Fld := ⟨0x13C, 8, 4⟩
def DSP_AUX_CMD_GO : Fld := ⟨0x13C, 31, 1⟩
def DSP_AUX_CMD : Fld := ⟨0x13C, 0, 32⟩
def DSP_AUX_DATA : Fld := ⟨0x140, 0, 32⟩
def DSP_AUX_STAT_BUSY : Fld := ⟨0x150, 0, 1⟩
def DSP_AUX_STAT_REPLY : Fld := ⟨0x150, 1, 3⟩
def DSP_AUX_STAT_COUNT : Fld := ⟨0x150, 4, 5⟩
def DSP_AUX_STAT : Fld := ⟨0x150, 0, 32⟩
def DSP_STAT_HPD : Fld := ⟨0x160, 0, 1⟩
def DSP_STAT_VIDEO : Fld := ⟨0x160, 1, 1⟩
def DSP_STAT_SHED : Fld := ⟨0x160, 2, 1⟩
def DSP_STAT_STOPPED : Fld := ⟨0x160, 3, 1⟩
def DSP_STAT_VBLANK : Fld := ⟨0x160, 4, 1⟩
def DSP_STAT_LINE : Fld := ⟨0x160, 16, 16⟩
def DSP_STAT : Fld := ⟨0x160, 0, 32⟩
def DSP_DFN_LO : Fld := ⟨0x164, 0, 32⟩
def DSP_DFN_HI : Fld := ⟨0x168, 0, 32⟩
def DSP_SAFE_SEQ_LO : Fld := ⟨0x16C, 0, 32⟩
def DSP_SAFE_SEQ_HI : Fld := ⟨0x170, 0, 32⟩
def DSP_UNDERRUN_LINES : Fld := ⟨0x174, 0, 16⟩
def DSP_UNDERRUN_FRAMES : Fld := ⟨0x174, 16, 16⟩
def DSP_UNDERRUN : Fld := ⟨0x174, 0, 32⟩
def DSP_FRAME_ERR_DAMAGED : Fld := ⟨0x178, 0, 8⟩
def DSP_FRAME_ERR_REPEATED : Fld := ⟨0x178, 8, 8⟩
def DSP_FRAME_ERR_XLT : Fld := ⟨0x178, 16, 8⟩
def DSP_FRAME_ERR : Fld := ⟨0x178, 0, 32⟩
def DSP_VTOTAL_LAST : Fld := ⟨0x17C, 0, 16⟩
def DSP_VTOTAL_LAST_REG : Fld := ⟨0x17C, 0, 32⟩
def DSP_CHECK_REASON : Fld := ⟨0x180, 0, 4⟩
def DSP_CHECK_LAYER : Fld := ⟨0x180, 4, 2⟩
def DSP_CHECK_AT_ENABLE : Fld := ⟨0x180, 6, 1⟩
def DSP_CHECK : Fld := ⟨0x180, 0, 32⟩
def DSP_L_CFG_EN : Fld := ⟨0x1100, 0, 1⟩
def DSP_L_CFG_SOURCE : Fld := ⟨0x1100, 1, 1⟩
def DSP_L_CFG_PREMULT : Fld := ⟨0x1100, 2, 1⟩
def DSP_L_CFG_FORMAT : Fld := ⟨0x1100, 4, 4⟩
def DSP_L_CFG_ASID : Fld := ⟨0x1100, 8, 6⟩
def DSP_L_CFG_GALPHA : Fld := ⟨0x1100, 16, 8⟩
def DSP_L_CFG : Fld := ⟨0x1100, 0, 32⟩
def DSP_L_POS_X : Fld := ⟨0x1104, 0, 16⟩
def DSP_L_POS_Y : Fld := ⟨0x1104, 16, 16⟩
def DSP_L_POS : Fld := ⟨0x1104, 0, 32⟩
def DSP_L_SIZE_W : Fld := ⟨0x1108, 0, 16⟩
def DSP_L_SIZE_H : Fld := ⟨0x1108, 16, 16⟩
def DSP_L_SIZE : Fld := ⟨0x1108, 0, 32⟩
def DSP_L_STRIDE : Fld := ⟨0x110C, 0, 32⟩
def DSP_L_BASE_LO : Fld := ⟨0x1110, 8, 24⟩
def DSP_L_BASE_LO_REG : Fld := ⟨0x1110, 0, 32⟩
def DSP_L_BASE_HI : Fld := ⟨0x1114, 0, 32⟩
def DSP_L_SRC_SLICE : Fld := ⟨0x1118, 0, 4⟩
def DSP_L_SRC_TAP : Fld := ⟨0x1118, 4, 2⟩
def DSP_L_SRC : Fld := ⟨0x1118, 0, 32⟩
def DSP_L_SHOWN : Fld := ⟨0x1120, 0, 32⟩
def DSP_L_STAT_XLT_FAIL : Fld := ⟨0x1124, 0, 1⟩
def DSP_L_STAT_NO_FRAME : Fld := ⟨0x1124, 1, 1⟩
def DSP_L_STAT : Fld := ⟨0x1124, 0, 32⟩
def XLT_CFG_PRQ_TMO : Fld := ⟨0x100, 0, 16⟩
def XLT_CFG : Fld := ⟨0x100, 0, 32⟩
def XLT_STAT_PRQ_OUT : Fld := ⟨0x104, 0, 10⟩
def XLT_STAT_PRI_STOPPED : Fld := ⟨0x104, 10, 1⟩
def XLT_STAT_ATS_EN : Fld := ⟨0x104, 11, 1⟩
def XLT_STAT_PRI_EN : Fld := ⟨0x104, 12, 1⟩
def XLT_STAT : Fld := ⟨0x104, 0, 32⟩
def XLT_FLT_BASE_LO : Fld := ⟨0x108, 12, 20⟩
def XLT_FLT_BASE_LO_REG : Fld := ⟨0x108, 0, 32⟩
def XLT_FLT_BASE_HI : Fld := ⟨0x10C, 0, 32⟩
def XLT_FLT_CFG_LOG2 : Fld := ⟨0x110, 0, 4⟩
def XLT_FLT_CFG : Fld := ⟨0x110, 0, 32⟩
def XLT_FLT_TAIL : Fld := ⟨0x114, 0, 32⟩
def XLT_FLT_HEAD : Fld := ⟨0x118, 0, 32⟩
def XLT_FLT_DROP : Fld := ⟨0x11C, 0, 32⟩
def XLT_PRQ_RESP_INDEX : Fld := ⟨0x120, 0, 9⟩
def XLT_PRQ_RESP_CODE : Fld := ⟨0x120, 16, 2⟩
def XLT_PRQ_RESP : Fld := ⟨0x120, 0, 32⟩
def XLT_INV_ADDR_LO : Fld := ⟨0x124, 12, 20⟩
def XLT_INV_ADDR_LO_REG : Fld := ⟨0x124, 0, 32⟩
def XLT_INV_ADDR_HI : Fld := ⟨0x128, 0, 16⟩
def XLT_INV_ADDR_HI_REG : Fld := ⟨0x128, 0, 32⟩
def XLT_INV_CTRL_ASID : Fld := ⟨0x12C, 0, 6⟩
def XLT_INV_CTRL_SCOPE : Fld := ⟨0x12C, 8, 2⟩
def XLT_INV_CTRL_GO : Fld := ⟨0x12C, 31, 1⟩
def XLT_INV_CTRL : Fld := ⟨0x12C, 0, 32⟩
def XLT_INV_PAGES : Fld := ⟨0x130, 0, 24⟩
def XLT_INV_PAGES_REG : Fld := ⟨0x130, 0, 32⟩
def XLT_INV_STAT_PENDING : Fld := ⟨0x134, 0, 1⟩
def XLT_INV_STAT : Fld := ⟨0x134, 0, 32⟩
def XLT_HIT : Fld := ⟨0x140, 0, 32⟩
def XLT_MISS : Fld := ⟨0x144, 0, 32⟩
def XLT_WALK_ERR_TRANSIENT : Fld := ⟨0x170, 0, 8⟩
def XLT_WALK_ERR_LASTING : Fld := ⟨0x170, 8, 8⟩
def XLT_WALK_ERR : Fld := ⟨0x170, 0, 32⟩
def XLT_AS_CFG_MODE : Fld := ⟨0x1100, 0, 2⟩
def XLT_AS_CFG_PRQ_EN : Fld := ⟨0x1100, 2, 1⟩
def XLT_AS_CFG_PASID_EN : Fld := ⟨0x1100, 3, 1⟩
def XLT_AS_CFG_BUSY : Fld := ⟨0x1100, 31, 1⟩
def XLT_AS_CFG : Fld := ⟨0x1100, 0, 32⟩
def XLT_AS_ROOT_LO : Fld := ⟨0x1104, 12, 20⟩
def XLT_AS_ROOT_LO_REG : Fld := ⟨0x1104, 0, 32⟩
def XLT_AS_ROOT_HI : Fld := ⟨0x1108, 0, 32⟩
def XLT_AS_PASID_PASID : Fld := ⟨0x110C, 0, 20⟩
def XLT_AS_PASID : Fld := ⟨0x110C, 0, 32⟩
def DMA_RING_LO : Fld := ⟨0x100, 12, 20⟩
def DMA_RING_LO_REG : Fld := ⟨0x100, 0, 32⟩
def DMA_RING_HI : Fld := ⟨0x104, 0, 32⟩
def DMA_RING_CFG_LOG2 : Fld := ⟨0x108, 0, 4⟩
def DMA_RING_CFG_ASID : Fld := ⟨0x108, 8, 6⟩
def DMA_RING_CFG : Fld := ⟨0x108, 0, 32⟩
def DMA_PROD : Fld := ⟨0x10C, 0, 32⟩
def DMA_CONS : Fld := ⟨0x110, 0, 32⟩
def DMA_DONE : Fld := ⟨0x114, 0, 32⟩
def DMA_CFG_RT : Fld := ⟨0x118, 0, 1⟩
def DMA_CFG_REQ_SRC : Fld := ⟨0x118, 1, 3⟩
def DMA_CFG_REQ_SEL : Fld := ⟨0x118, 8, 6⟩
def DMA_CFG_MAX_OUT : Fld := ⟨0x118, 16, 7⟩
def DMA_CFG : Fld := ⟨0x118, 0, 32⟩
def DMA_RATE_RATE : Fld := ⟨0x11C, 0, 14⟩
def DMA_RATE_BUCKET : Fld := ⟨0x11C, 16, 10⟩
def DMA_RATE : Fld := ⟨0x11C, 0, 32⟩
def DMA_REQ_CTRL_SOFT : Fld := ⟨0x120, 0, 1⟩
def DMA_REQ_CTRL_WITHDRAW : Fld := ⟨0x120, 1, 1⟩
def DMA_REQ_CTRL : Fld := ⟨0x120, 0, 32⟩
def DMA_REQ_STAT_CREDITS : Fld := ⟨0x124, 0, 16⟩
def DMA_REQ_STAT : Fld := ⟨0x124, 0, 32⟩
def DMA_CTRL_RESUME : Fld := ⟨0x128, 0, 1⟩
def DMA_CTRL_SKIP : Fld := ⟨0x128, 1, 1⟩
def DMA_CTRL_ABORT : Fld := ⟨0x128, 2, 1⟩
def DMA_CTRL : Fld := ⟨0x128, 0, 32⟩
def DMA_ABORT_IDX : Fld := ⟨0x12C, 0, 32⟩
def DMA_ABORT_STAT_PENDING : Fld := ⟨0x130, 0, 1⟩
def DMA_ABORT_STAT_RESULT : Fld := ⟨0x130, 1, 2⟩
def DMA_ABORT_STAT_COUNT : Fld := ⟨0x130, 16, 16⟩
def DMA_ABORT_STAT : Fld := ⟨0x130, 0, 32⟩
def DMA_STAT_STATE : Fld := ⟨0x134, 0, 3⟩
def DMA_STAT_CAUSE : Fld := ⟨0x134, 4, 4⟩
def DMA_STAT_PAST_PNR : Fld := ⟨0x134, 8, 1⟩
def DMA_STAT_FETCH : Fld := ⟨0x134, 9, 1⟩
def DMA_STAT : Fld := ⟨0x134, 0, 32⟩
def DMA_POS_0_K0 : Fld := ⟨0x138, 0, 16⟩
def DMA_POS_0_K1 : Fld := ⟨0x138, 16, 16⟩
def DMA_POS_0 : Fld := ⟨0x138, 0, 32⟩
def DMA_POS_1_K2 : Fld := ⟨0x13C, 0, 16⟩
def DMA_POS_1 : Fld := ⟨0x13C, 0, 32⟩
def DMA_POS_OFS : Fld := ⟨0x140, 0, 24⟩
def DMA_POS_OFS_REG : Fld := ⟨0x140, 0, 32⟩
def DMA_POS_CSUM : Fld := ⟨0x144, 0, 32⟩
def DMA_BYTES_LO : Fld := ⟨0x148, 0, 32⟩
def DMA_BYTES_HI : Fld := ⟨0x14C, 0, 32⟩
def DMA_CNT_REISSUE : Fld := ⟨0x150, 0, 8⟩
def DMA_CNT_LATE_WITHDRAW : Fld := ⟨0x150, 8, 8⟩
def DMA_CNT_HALTS : Fld := ⟨0x150, 16, 8⟩
def DMA_CNT_LOST_REQ : Fld := ⟨0x150, 24, 8⟩
def DMA_CNT : Fld := ⟨0x150, 0, 32⟩
def BIT_STAT : Fld := ⟨0x100, 0, 10⟩
def BIT_STAT_REG : Fld := ⟨0x100, 0, 32⟩
def BIT_FAULTN_CFG_MIN_MS : Fld := ⟨0x104, 0, 10⟩
def BIT_FAULTN_CFG : Fld := ⟨0x104, 0, 32⟩
def BIT_FAULTN_CTRL_RELEASE : Fld := ⟨0x108, 0, 1⟩
def BIT_FAULTN_CTRL_ASSERT : Fld := ⟨0x108, 1, 1⟩
def BIT_FAULTN_CTRL : Fld := ⟨0x108, 0, 32⟩
def BIT_FAULTN_STAT_ASSERTED : Fld := ⟨0x10C, 0, 1⟩
def BIT_FAULTN_STAT_IN_MIN : Fld := ⟨0x10C, 1, 1⟩
def BIT_FAULTN_STAT_HOST : Fld := ⟨0x10C, 2, 1⟩
def BIT_FAULTN_STAT : Fld := ⟨0x10C, 0, 32⟩
def BIT_SRC_CLEAR_SOURCE : Fld := ⟨0x110, 0, 9⟩
def BIT_SRC_CLEAR_GO : Fld := ⟨0x110, 31, 1⟩
def BIT_SRC_CLEAR : Fld := ⟨0x110, 0, 32⟩
def BIT_LOG_STAT_COUNT : Fld := ⟨0x120, 0, 7⟩
def BIT_LOG_STAT_OVERFLOW : Fld := ⟨0x120, 8, 1⟩
def BIT_LOG_STAT : Fld := ⟨0x120, 0, 32⟩
def BIT_LOG_CTRL_POP : Fld := ⟨0x124, 0, 1⟩
def BIT_LOG_CTRL_CLR_OVF : Fld := ⟨0x124, 1, 1⟩
def BIT_LOG_CTRL : Fld := ⟨0x124, 0, 32⟩
def BIT_LOG_SRC_SOURCE : Fld := ⟨0x128, 0, 9⟩
def BIT_LOG_SRC_KIND : Fld := ⟨0x128, 9, 2⟩
def BIT_LOG_SRC_INJECTED : Fld := ⟨0x128, 11, 1⟩
def BIT_LOG_SRC_REAL : Fld := ⟨0x128, 12, 1⟩
def BIT_LOG_SRC : Fld := ⟨0x128, 0, 32⟩
def BIT_LOG_DETAIL : Fld := ⟨0x12C, 0, 32⟩
def BIT_LOG_SEC_LO : Fld := ⟨0x130, 0, 32⟩
def BIT_LOG_SEC_HI : Fld := ⟨0x134, 0, 16⟩
def BIT_LOG_SEC_HI_REG : Fld := ⟨0x134, 0, 32⟩
def BIT_LOG_NS : Fld := ⟨0x138, 0, 32⟩
def BIT_LOG_FRAC : Fld := ⟨0x13C, 0, 16⟩
def BIT_LOG_FRAC_REG : Fld := ⟨0x13C, 0, 32⟩
def BIT_INJ_CFG_SOURCE : Fld := ⟨0x140, 0, 9⟩
def BIT_INJ_CFG_UNIT : Fld := ⟨0x140, 12, 4⟩
def BIT_INJ_CFG_MODE : Fld := ⟨0x140, 16, 2⟩
def BIT_INJ_CFG_COUNTED : Fld := ⟨0x140, 18, 1⟩
def BIT_INJ_CFG : Fld := ⟨0x140, 0, 32⟩
def BIT_INJ_CTRL_ARM : Fld := ⟨0x144, 0, 1⟩
def BIT_INJ_CTRL_DISARM : Fld := ⟨0x144, 1, 1⟩
def BIT_INJ_CTRL : Fld := ⟨0x144, 0, 32⟩
def BIT_INJ_STAT_STATE : Fld := ⟨0x148, 0, 3⟩
def BIT_INJ_STAT_REAL : Fld := ⟨0x148, 3, 1⟩
def BIT_INJ_STAT : Fld := ⟨0x148, 0, 32⟩
def BIT_INJ_TMO : Fld := ⟨0x14C, 0, 16⟩
def BIT_INJ_TMO_REG : Fld := ⟨0x14C, 0, 32⟩
def BIT_TEST_CFG_KIND : Fld := ⟨0x160, 0, 4⟩
def BIT_TEST_CFG_INDEX : Fld := ⟨0x160, 8, 8⟩
def BIT_TEST_CFG : Fld := ⟨0x160, 0, 32⟩
def BIT_TEST_CTRL_START : Fld := ⟨0x164, 0, 1⟩
def BIT_TEST_CTRL_STOP : Fld := ⟨0x164, 1, 1⟩
def BIT_TEST_CTRL : Fld := ⟨0x164, 0, 32⟩
def BIT_TEST_STAT_STATE : Fld := ⟨0x168, 0, 3⟩
def BIT_TEST_STAT : Fld := ⟨0x168, 0, 32⟩
def THM_CFG_0_HI : Fld := ⟨0x100, 0, 8⟩
def THM_CFG_0_SHUT : Fld := ⟨0x100, 8, 8⟩
def THM_CFG_0_XCHK : Fld := ⟨0x100, 16, 8⟩
def THM_CFG_0 : Fld := ⟨0x100, 0, 32⟩
def THM_CFG_1_ROR_THR : Fld := ⟨0x104, 0, 8⟩
def THM_CFG_1_ROR_WIN : Fld := ⟨0x104, 8, 8⟩
def THM_CFG_1_DRAIN : Fld := ⟨0x104, 16, 8⟩
def THM_CFG_1 : Fld := ⟨0x104, 0, 32⟩
def THM_BAND_CFG_B1 : Fld := ⟨0x108, 0, 8⟩
def THM_BAND_CFG_B2 : Fld := ⟨0x108, 8, 8⟩
def THM_BAND_CFG_B3 : Fld := ⟨0x108, 16, 8⟩
def THM_BAND_CFG_HYST : Fld := ⟨0x108, 24, 4⟩
def THM_BAND_CFG : Fld := ⟨0x108, 0, 32⟩
def THM_CTRL_SHUTDOWN : Fld := ⟨0x10C, 0, 1⟩
def THM_CTRL : Fld := ⟨0x10C, 0, 32⟩
def THM_STAT_STAGE : Fld := ⟨0x110, 0, 2⟩
def THM_STAT_CAUSE : Fld := ⟨0x110, 2, 4⟩
def THM_STAT_HARD : Fld := ⟨0x110, 6, 1⟩
def THM_STAT_COOL : Fld := ⟨0x110, 7, 1⟩
def THM_STAT : Fld := ⟨0x110, 0, 32⟩
def THM_ZONE_TEMP : Fld := ⟨0x114, 0, 11⟩
def THM_ZONE_BAND : Fld := ⟨0x114, 16, 2⟩
def THM_ZONE : Fld := ⟨0x114, 0, 32⟩
def THM_MAX_TEMP : Fld := ⟨0x134, 0, 11⟩
def THM_MAX_SENSOR : Fld := ⟨0x134, 16, 6⟩
def THM_MAX : Fld := ⟨0x134, 0, 32⟩
def THM_BROKEN_LO : Fld := ⟨0x138, 0, 32⟩
def THM_BROKEN_HI : Fld := ⟨0x13C, 0, 32⟩
def THM_ROUND : Fld := ⟨0x140, 0, 32⟩
def THM_SENS_TEMP : Fld := ⟨0x200, 0, 11⟩
def THM_SENS_BROKEN : Fld := ⟨0x200, 12, 1⟩
def THM_SENS_SUBST : Fld := ⟨0x200, 13, 1⟩
def THM_SENS_RAW : Fld := ⟨0x200, 16, 16⟩
def THM_SENS : Fld := ⟨0x200, 0, 32⟩
def PWR_LOOP_CFG_EN : Fld := ⟨0x100, 0, 1⟩
def PWR_LOOP_CFG_RAISE_THR : Fld := ⟨0x100, 8, 8⟩
def PWR_LOOP_CFG_LOWER_THR : Fld := ⟨0x100, 16, 8⟩
def PWR_LOOP_CFG_RELEASE : Fld := ⟨0x100, 24, 8⟩
def PWR_LOOP_CFG : Fld := ⟨0x100, 0, 32⟩
def PWR_LOOP_STEP_UP : Fld := ⟨0x104, 0, 8⟩
def PWR_LOOP_STEP_DN : Fld := ⟨0x104, 8, 8⟩
def PWR_LOOP_STEP_LOWER_HOLD : Fld := ⟨0x104, 16, 8⟩
def PWR_LOOP_STEP_EMERG_THR : Fld := ⟨0x104, 24, 8⟩
def PWR_LOOP_STEP : Fld := ⟨0x104, 0, 32⟩
def PWR_VLIM_VMIN : Fld := ⟨0x108, 0, 8⟩
def PWR_VLIM_VMAX : Fld := ⟨0x108, 8, 8⟩
def PWR_VLIM : Fld := ⟨0x108, 0, 32⟩
def PWR_VFAB_REQ : Fld := ⟨0x10C, 0, 8⟩
def PWR_VFAB_ACK : Fld := ⟨0x10C, 8, 8⟩
def PWR_VFAB_MEAS : Fld := ⟨0x10C, 16, 8⟩
def PWR_VFAB_BUSY : Fld := ⟨0x10C, 24, 1⟩
def PWR_VFAB : Fld := ⟨0x10C, 0, 32⟩
def PWR_AVS_CNT_RETRIES : Fld := ⟨0x110, 0, 16⟩
def PWR_AVS_CNT_SETS : Fld := ⟨0x110, 16, 16⟩
def PWR_AVS_CNT : Fld := ⟨0x110, 0, 32⟩
def PWR_MIN_HEAD_H : Fld := ⟨0x114, 0, 16⟩
def PWR_MIN_HEAD_UNIT : Fld := ⟨0x114, 16, 5⟩
def PWR_MIN_HEAD : Fld := ⟨0x114, 0, 32⟩
def PWR_SHED_STEP : Fld := ⟨0x118, 0, 4⟩
def PWR_SHED_EXH : Fld := ⟨0x118, 8, 17⟩
def PWR_SHED : Fld := ⟨0x118, 0, 32⟩
def PWR_EXH_CNT : Fld := ⟨0x11C, 0, 32⟩
def PWR_PACE : Fld := ⟨0x120, 0, 8⟩
def PWR_PACE_REG : Fld := ⟨0x120, 0, 32⟩
def PWR_HEAD_H : Fld := ⟨0x140, 0, 16⟩
def PWR_HEAD_BAND : Fld := ⟨0x140, 16, 2⟩
def PWR_HEAD_POWERED : Fld := ⟨0x140, 18, 1⟩
def PWR_HEAD : Fld := ⟨0x140, 0, 32⟩
def PWR_DOM_ON : Fld := ⟨0x1100, 0, 32⟩
def PWR_DOM_PEND : Fld := ⟨0x1140, 0, 32⟩
def PWR_SEQ_STAT_LATEST : Fld := ⟨0x1180, 0, 9⟩
def PWR_SEQ_STAT_WAITING : Fld := ⟨0x1180, 16, 9⟩
def PWR_SEQ_STAT : Fld := ⟨0x1180, 0, 32⟩
def CNT_CTRL_RUN : Fld := ⟨0x100, 0, 1⟩
def CNT_CTRL_USER_EN : Fld := ⟨0x100, 1, 1⟩
def CNT_CTRL_CLEAR_ALL : Fld := ⟨0x100, 2, 1⟩
def CNT_CTRL : Fld := ⟨0x100, 0, 32⟩
def CNT_STAT_SETTLED : Fld := ⟨0x104, 0, 1⟩
def CNT_STAT_ENABLED : Fld := ⟨0x104, 16, 9⟩
def CNT_STAT : Fld := ⟨0x104, 0, 32⟩
def CNT_OVF : Fld := ⟨0x110, 0, 32⟩
def CNT_USER : Fld := ⟨0x130, 0, 32⟩
def CNT_ASID_PRIV_LO : Fld := ⟨0x150, 0, 32⟩
def CNT_ASID_PRIV_HI : Fld := ⟨0x154, 0, 32⟩
def CNT_FLT_CFG_MASTER : Fld := ⟨0x180, 0, 7⟩
def CNT_FLT_CFG_MASK : Fld := ⟨0x180, 8, 7⟩
def CNT_FLT_CFG_PRIV : Fld := ⟨0x180, 16, 2⟩
def CNT_FLT_CFG_CLASS_MASK : Fld := ⟨0x180, 18, 3⟩
def CNT_FLT_CFG_ADDR_EN : Fld := ⟨0x180, 24, 1⟩
def CNT_FLT_CFG : Fld := ⟨0x180, 0, 32⟩
def CNT_FLT_BASE_LO : Fld := ⟨0x188, 12, 20⟩
def CNT_FLT_BASE_LO_REG : Fld := ⟨0x188, 0, 32⟩
def CNT_FLT_BASE_HI : Fld := ⟨0x18C, 0, 32⟩
def CNT_FLT_LIMIT_LO : Fld := ⟨0x190, 12, 20⟩
def CNT_FLT_LIMIT_LO_REG : Fld := ⟨0x190, 0, 32⟩
def CNT_FLT_LIMIT_HI : Fld := ⟨0x194, 0, 32⟩
def CNT_CFG_CLASS : Fld := ⟨0x1100, 0, 4⟩
def CNT_CFG_EVENT : Fld := ⟨0x1100, 4, 6⟩
def CNT_CFG_INST : Fld := ⟨0x1100, 10, 6⟩
def CNT_CFG_FILT_EN : Fld := ⟨0x1100, 16, 1⟩
def CNT_CFG_FILTER : Fld := ⟨0x1100, 17, 3⟩
def CNT_CFG_OVF_IRQ : Fld := ⟨0x1100, 20, 1⟩
def CNT_CFG_EN : Fld := ⟨0x1100, 31, 1⟩
def CNT_CFG : Fld := ⟨0x1100, 0, 32⟩
def CNT_VAL_LO : Fld := ⟨0x2100, 0, 32⟩
def CNT_VAL_HI_VAL : Fld := ⟨0x2104, 0, 16⟩
def CNT_VAL_HI_OVF : Fld := ⟨0x2104, 16, 1⟩
def CNT_VAL_HI : Fld := ⟨0x2104, 0, 32⟩
def TOP_DEVICE_ID_VARIANT : Fld := ⟨0x100, 0, 4⟩
def TOP_DEVICE_ID_STEPPING : Fld := ⟨0x100, 8, 4⟩
def TOP_DEVICE_ID_PART : Fld := ⟨0x100, 16, 16⟩
def TOP_DEVICE_ID : Fld := ⟨0x100, 0, 32⟩
def TOP_SERIAL_LO : Fld := ⟨0x104, 0, 32⟩
def TOP_SERIAL_HI : Fld := ⟨0x108, 0, 32⟩
def TOP_RESET_CTRL_WARM : Fld := ⟨0x10C, 0, 1⟩
def TOP_RESET_CTRL_KEY : Fld := ⟨0x10C, 8, 8⟩
def TOP_RESET_CTRL : Fld := ⟨0x10C, 0, 32⟩
def TOP_RESET_STAT_READY : Fld := ⟨0x110, 0, 1⟩
def TOP_RESET_STAT_WARM_BUSY : Fld := ⟨0x110, 1, 1⟩
def TOP_RESET_STAT_FLR_BUSY : Fld := ⟨0x110, 2, 1⟩
def TOP_RESET_STAT_HELD : Fld := ⟨0x110, 3, 1⟩
def TOP_RESET_STAT : Fld := ⟨0x110, 0, 32⟩
def TOP_RESET_CAUSE_POWER_ON : Fld := ⟨0x114, 0, 1⟩
def TOP_RESET_CAUSE_COLD : Fld := ⟨0x114, 1, 1⟩
def TOP_RESET_CAUSE_PERST : Fld := ⟨0x114, 2, 1⟩
def TOP_RESET_CAUSE_WARM_HOST : Fld := ⟨0x114, 3, 1⟩
def TOP_RESET_CAUSE_WARM_SMBUS : Fld := ⟨0x114, 4, 1⟩
def TOP_RESET_CAUSE_FLR : Fld := ⟨0x114, 5, 1⟩
def TOP_RESET_CAUSE_STORE_LOST : Fld := ⟨0x114, 6, 1⟩
def TOP_RESET_CAUSE_FROM_STOPPED : Fld := ⟨0x114, 7, 1⟩
def TOP_RESET_CAUSE : Fld := ⟨0x114, 0, 32⟩
def TOP_RESET_CNT_WARM : Fld := ⟨0x118, 0, 16⟩
def TOP_RESET_CNT_FLR : Fld := ⟨0x118, 16, 16⟩
def TOP_RESET_CNT : Fld := ⟨0x118, 0, 32⟩
def TOP_IRQ_PEND : Fld := ⟨0x200, 0, 32⟩
def HIF_PCI_ID_VENDOR : Fld := ⟨0x100, 0, 16⟩
def HIF_PCI_ID_DEVICE : Fld := ⟨0x100, 16, 16⟩
def HIF_PCI_ID : Fld := ⟨0x100, 0, 32⟩
def HIF_SUBSYS_VID : Fld := ⟨0x104, 0, 16⟩
def HIF_SUBSYS_SID : Fld := ⟨0x104, 16, 16⟩
def HIF_SUBSYS : Fld := ⟨0x104, 0, 32⟩
def HIF_LINK_STAT_RATE : Fld := ⟨0x108, 0, 3⟩
def HIF_LINK_STAT_WIDTH : Fld := ⟨0x108, 3, 5⟩
def HIF_LINK_STAT_FLIT : Fld := ⟨0x108, 8, 1⟩
def HIF_LINK_STAT_UP : Fld := ⟨0x108, 9, 1⟩
def HIF_LINK_STAT_DEGRADED : Fld := ⟨0x108, 10, 1⟩
def HIF_LINK_STAT_BME : Fld := ⟨0x108, 11, 1⟩
def HIF_LINK_STAT_D3HOT : Fld := ⟨0x108, 12, 1⟩
def HIF_LINK_STAT : Fld := ⟨0x108, 0, 32⟩
def HIF_LINK_CNT_REPLAY : Fld := ⟨0x10C, 0, 16⟩
def HIF_LINK_CNT_RECOVERY : Fld := ⟨0x10C, 16, 8⟩
def HIF_LINK_CNT_WIDTH_DOWN : Fld := ⟨0x10C, 24, 8⟩
def HIF_LINK_CNT : Fld := ⟨0x10C, 0, 32⟩
def HIF_SMB_STAT_LAST_CMD : Fld := ⟨0x110, 0, 8⟩
def HIF_SMB_STAT_PEC_ERR : Fld := ⟨0x110, 8, 8⟩
def HIF_SMB_STAT_SUBSYS_LOCKED : Fld := ⟨0x110, 16, 1⟩
def HIF_SMB_STAT : Fld := ⟨0x110, 0, 32⟩
def BIT_SRC_CFG_N_M1 : Fld := ⟨0x1100, 0, 8⟩
def BIT_SRC_CFG_W : Fld := ⟨0x1100, 8, 16⟩
def BIT_SRC_CFG_SEV_ACTION : Fld := ⟨0x1100, 24, 1⟩
def BIT_SRC_CFG_IRQ_TRANSIENT : Fld := ⟨0x1100, 25, 1⟩
def BIT_SRC_CFG_IRQ_SEVERE : Fld := ⟨0x1100, 26, 1⟩
def BIT_SRC_CFG_FAULTN_EN : Fld := ⟨0x1100, 27, 1⟩
def BIT_SRC_CFG_LOG_TRANSIENT : Fld := ⟨0x1100, 28, 1⟩
def BIT_SRC_CFG : Fld := ⟨0x1100, 0, 32⟩
def BIT_SRC_STAT_STATE : Fld := ⟨0x3100, 0, 2⟩
def BIT_SRC_STAT_COUNT : Fld := ⟨0x3100, 2, 9⟩
def BIT_SRC_STAT_UNIT : Fld := ⟨0x3100, 11, 8⟩
def BIT_SRC_STAT_INJ_LAST : Fld := ⟨0x3100, 19, 1⟩
def BIT_SRC_STAT_TOTAL : Fld := ⟨0x3100, 20, 12⟩
def BIT_SRC_STAT : Fld := ⟨0x3100, 0, 32⟩
def BIT_SEV : Fld := ⟨0x5100, 0, 32⟩
def BIT_TRANS : Fld := ⟨0x5140, 0, 32⟩
def PAGE_ID_BLOCK_TYPE : Fld := ⟨0x0, 24, 8⟩
def PAGE_CTRL : Fld := ⟨0x8, 0, 32⟩
def PAGE_CTRL_ENABLE : Fld := ⟨0x8, 0, 1⟩
def PAGE_CTRL_SOFT_RESET : Fld := ⟨0x8, 1, 1⟩
def PAGE_CTRL_POWER_REQ : Fld := ⟨0x8, 2, 2⟩
def PAGE_STAT : Fld := ⟨0xC, 0, 32⟩
def PAGE_STAT_POWERED : Fld := ⟨0xC, 0, 1⟩
def PAGE_STAT_BUSY : Fld := ⟨0xC, 1, 1⟩
def PAGE_STAT_FAULT : Fld := ⟨0xC, 2, 1⟩
def PAGE_STAT_BAD_WRITE : Fld := ⟨0xC, 3, 1⟩
def PAGE_STAT_COMMIT_PEND : Fld := ⟨0xC, 4, 1⟩
def PAGE_STAT_COMMIT_LATCHED : Fld := ⟨0xC, 5, 1⟩
def PAGE_STAT_BAD_CAUSE : Fld := ⟨0xC, 16, 4⟩
def PAGE_STAT_BAD_OFFSET : Fld := ⟨0xC, 20, 12⟩
def IRQ_STAT : Fld := ⟨0x10, 0, 32⟩
def IRQ_EN : Fld := ⟨0x14, 0, 32⟩
def FAULT_SUM : Fld := ⟨0x1C, 0, 32⟩
def SHADOW_SEQ_REQ : Fld := ⟨0x20, 0, 16⟩
def SHADOW_SEQ_APPLIED : Fld := ⟨0x20, 16, 16⟩
def IRQ_VEC : Fld := ⟨0x40, 0, 8⟩
def IRQ_HOLDOFF : Fld := ⟨0x44, 0, 16⟩
def SHADOW_AT_LO : Fld := ⟨0x48, 0, 32⟩
def SHADOW_AT_HI : Fld := ⟨0x4C, 0, 32⟩
def SCRATCH : Fld := ⟨0x50, 0, 32⟩

end Sys2Proof.Machine
end

