-- ==== Sys2Proof/Machine/State.lean ====
section
/-! DEFINITION. The state of the VX-960, as plain data, and the state right after a cold reset at power-on.

Registers are the words of BAR0, by offset, in two sparse tables: the copy the host reads and writes, and the active
copy of the shadowed registers (R50). A register not listed holds its reset value (RegMap.resetVal). State that the
manual gives a block without giving it a register stands in one structure per block below. -/

namespace Sys2Proof.Machine

/-- Why a command can stop the machine: no command does. Every access that the device turns away, and every fault it meets, is an
effect on the state (R43, R45, R664). -/
inductive Fault where
  deriving DecidableEq, Repr

/-- Why a command can be without meaning. -/
inductive Refusal where
  /-- The arm of a command that has no meaning yet answers with this. Safe. -/
  | notModelled (mnemonic : String)
  deriving DecidableEq, Repr

/-- Device time (R567): seconds, nanoseconds, and the 48 fraction bits of the accumulator, FRAC being the top 16. -/
structure DevTime where
  sec : Nat
  ns : Nat
  sub : Nat
  deriving DecidableEq, Repr

/-- What the manual leaves to the part: its variant (R1), serial number (R750) and PCI identity (R753). -/
structure Part where
  variantH : Bool
  serial : Nat
  vendor : Nat
  device : Nat
  deriving DecidableEq, Repr

/-- MSI-X as R60–R62 and R737 use it: the table, the Pending Bit Array, and each instance's holdoff. holdoff lists the
instances (by page offset) whose holdoff runs, due those with a message waiting for its end. held lists the vectors that wait for
Bus Master Enable or D0 (R738). -/
structure Msix where
  table : List (Nat × Word)
  pba : List Nat
  held : List Nat
  enable : Bool
  functionMask : Bool
  holdoff : List Nat
  due : List Nat
  deriving DecidableEq, Repr

/-- One counted event of a Bittern source: device time in ms and UNIT (R666, R667). -/
structure CountedEvent where
  src : Nat
  ms : Nat
  unit : Nat
  deriving DecidableEq, Repr

/-- An entry of the Bittern event log (R671). kind: 0 TRANSIENT, 1 SEVERE, 2 LASTING, 3 TEST_FAIL. -/
structure LogEntry where
  src : Nat
  kind : Nat
  injected : Bool
  real : Bool
  detail : Nat
  time : DevTime
  deriving DecidableEq, Repr

/-- Bittern: the counted events of every source, the log, a RELEASE held for the end of the FAULT_N minimum (R673). -/
structure Bittern where
  events : List CountedEvent
  log : List LogEntry
  heldRelease : Bool
  deriving DecidableEq, Repr

/-- The HBM interfaces (R459–R486): the active region plan (A and B words of 16 regions) and the plan last in force,
which outlives a cold reset that keeps the HBM rails; the regions being zeroed; the refresh debt by 64 g + bank; the
trained delays and those in force by 256 g + 64 kind + lane; the lane repairs by g; the running sparing
(pseudo-channel, slot); the lasting pseudo-channels without one, in order; the offline pseudo-channel; the
pseudo-channel each stack's helper runs on; which stacks have completed WAKE. -/
structure HbmState where
  plan : List (Nat × Nat)
  prior : List (Nat × Nat)
  zeroing : List Nat
  debt : List (Nat × Nat)
  trained : List (Nat × Nat)
  delays : List (Nat × Nat)
  laneMap : List (Nat × Nat)
  sparing : Option (Nat × Nat)
  waiting : List Nat
  offline : Option Nat
  helper : List (Option Nat)
  woken : List Bool
  deriving DecidableEq, Repr

/-- A lane beyond its registers (R117–R145): the transitions its halves are making, the training search (presets still
to try, the one being tried, the band it started in), searches made since it failed, a START that waits for the
receiver's wake, the PRBS injection armed, the device time in ms of the latest margin result. -/
structure Lane where
  rxMove : Option Nat
  txMove : Option Nat
  searchLeft : List Nat
  trying : Option Nat
  searches : Nat
  waking : Bool
  injectOne : Bool
  injectRate : Nat
  marginMs : Option Nat
  deriving DecidableEq, Repr

def Lane.init : Lane := ⟨none, none, [], none, 0, false, false, 0, none⟩

/-- A quad clock unit beyond its registers (R108–R110, R115): the PLLs relocking (0 A, 1 B), the preset that head lane
11 takes up 1 ms after a band change, and the lanes whose calibration is due. -/
structure Quad where
  relock : List Nat
  ctrlMove : Option Nat
  calDue : List Nat
  deriving DecidableEq, Repr

def Quad.init : Quad := ⟨[], none, []⟩

/-- A cached translation (R624): group, address space, base address, size, output base, permissions. -/
structure Xlation where
  group : Nat
  asid : Nat
  base : Nat
  size : Nat
  out : Nat
  rd : Bool
  wr : Bool
  deriving DecidableEq, Repr

/-- An access that waits on a page request or an ATS translation: its master, address and direction. -/
structure Waiter where
  master : Nat
  addr : Nat
  write : Bool
  deriving DecidableEq, Repr

/-- A page request outstanding (R637): index, space, 4 KiB page, ATS, the accesses that wait, and whether they have
timed out so that only the index is held (R640). -/
structure PageReq where
  index : Nat
  asid : Nat
  page : Nat
  ats : Bool
  waiters : List Waiter
  timedOut : Bool
  deriving DecidableEq, Repr

/-- An ATS translation request in flight (R633), stale once an invalidation of its page has passed it (R634). -/
structure AtsReq where
  asid : Nat
  page : Nat
  waiter : Waiter
  stale : Bool
  deriving DecidableEq, Repr

/-- The translation unit beyond its registers: the caches, least recently used first (R624); the page requests (R637);
the pages whose requests ended SUCCESS since the page was last found, with how often (R639); the faults that a master's
next access to a page meets (master, space, page); the ATS translations requested. -/
structure XltState where
  cache : List Xlation
  requests : List PageReq
  resolved : List (Nat × Nat × Nat)
  faults : List (Nat × Nat × Nat)
  ats : List AtsReq
  deriving DecidableEq, Repr

/-- A journal entry (R426): JSN, TYPE, its fields in the order of R426, and whether it stands as MOVED. -/
structure JEntry where
  jsn : Nat
  type : Nat
  fields : List Nat
  moved : Bool
  deriving DecidableEq, Repr

/-- A block of the journal ring (R425): entries, or the data of a WRITE by its CSN; closed to further entries. -/
structure JBlock where
  entries : List JEntry
  data : Option Nat
  closed : Bool
  deriving DecidableEq, Repr

/-- How a command ended (R435): outcome, detail, RESULT, COUNT. -/
structure Done where
  code : Nat
  detail : Nat
  result : Nat
  count : Nat
  deriving DecidableEq, Repr

/-- A take-store command with a CSN (R429–R445): its arguments, and how far it has come. durable: its ACCEPT entry is;
started: its fetch or work began; buffered: both write-buffer copies hold its data; entry: its WRITE or RELEASE entry is
durable; applied: its APPLIED entry is written; ended by done; posted. -/
structure TCmd where
  csn : Nat
  hsn : Nat
  slot : Nat
  cmd : Nat
  blk : Nat
  count : Nat
  buf : Nat
  durable : Bool
  started : Bool
  buffered : Bool
  entry : Bool
  applied : Bool
  data : List Byte
  done : Option Done
  posted : Bool
  deriving DecidableEq, Repr

/-- An accepted frame that its area retains (R421): FRAME_SEQ, FIRST_POS, NBLK, byte offset of the frame record. -/
structure AreaFrame where
  seq : Nat
  first : Nat
  nblk : Nat
  recOff : Nat
  deriving DecidableEq, Repr

/-- A capture area (R414): where it lies, its positions, the placement position and the frames it retains. -/
structure Area where
  base : Nat
  len : Nat
  head : Nat
  tail : Nat
  placement : Nat
  frames : List AreaFrame
  deriving DecidableEq, Repr

/-- An error that the deferred log records (R444). -/
structure Deferred where
  csn : Nat
  hsn : Nat
  blk : Nat
  detail : Nat
  deriving DecidableEq, Repr

/-- The take store beyond its registers: the header (store base, stripes, journal base, blocks), the journal, the
commands with a CSN that live or are among the latest 1,024, the last CSN given, submissions that wait for recovery,
replays to post (slot, CSN), the areas, the deferred log and the deferred errors since the previous FLUSH, a power
transition under way, whether the next recovery follows a cold reset, the JSN each head's ABANDON entries live from, and
the ABANDON runs that wait for a block (head, first, last, reason). -/
structure TsqState where
  hdr : Option (Nat × Nat × Nat × Nat)
  jnl : List JBlock
  cmds : List TCmd
  lastCsn : Nat
  waiting : List Nat
  replays : List (Nat × Nat)
  areas : List Area
  defLog : List Deferred
  defSince : Nat
  pwrMove : Option Nat
  fromCold : Bool
  abnClr : List Nat
  abnWait : List (Nat × Nat × Nat × Nat)
  deriving DecidableEq, Repr

def TsqState.init : TsqState :=
  ⟨none, [], [], 0, [], [], List.replicate 4 ⟨0, 0, 0, 0, 0, []⟩, [], 0, none, false, List.replicate 4 0, []⟩

/-- A record of a Sump plan with its granules in order (R353, R354). -/
structure SRec where
  kind : Nat
  inst : Nat
  flags : Nat
  p0 : Nat
  p1 : Nat
  granules : List Nat
  deriving DecidableEq, Repr

/-- The Sump beyond its registers: the active plan's records; the replacements that await their hand-over point (record,
failed bank, replacement) (R362); the banks declared lasting while a check or an activation runs (R355, R358); whether
the operation running is an activation; the replacements whose refill or rebuild has ended (R362). -/
structure SumpState where
  recs : List SRec
  pend : List (Nat × Nat × Nat)
  late : List Nat
  activating : Bool
  filled : List Nat
  deriving DecidableEq, Repr

/-- One curve set of a CLR instance (R291): nothing loaded yet, the 49,200 bytes of its half of a curve image (R296), or
the settings that generated it: function, domain register, MIN and MAX (R308). -/
inductive CurveSet where
  | none
  | image (bytes : List Byte)
  | gen (func dom min max : Nat)
  deriving DecidableEq, Repr

/-- A curve copy: the PRE and the POST set (R295), and the base of the image it was loaded from (R307). -/
structure CurveCopy where
  pre : CurveSet
  post : CurveSet
  base : Option Nat
  deriving DecidableEq, Repr

/-- A CLR instance beyond its registers (R295–R307): the curve copies and the LUT copies with the LUT bases they were
loaded from, whether each table ever ended LOADED, the generator settings of a generation under way, the device time when a set with LUT_EN 1 last stopped
applying, and the bypasses of R307 (0 none, 1 from the next hand-over point, 2 in force). -/
structure Clr where
  curveA : CurveCopy
  curveP : CurveCopy
  lutA : Option (List Byte)
  lutP : Option (List Byte)
  lutBaseA : Nat
  lutBaseP : Nat
  curveEver : Bool
  lutEver : Bool
  gen : Option (Nat × Nat × Nat × Nat × Nat)
  lutStop : Option Nat
  curveBypass : Nat
  lutBypass : Nat
  deriving DecidableEq, Repr

def Clr.init : Clr := ⟨⟨.none, .none, none⟩, ⟨.none, .none, none⟩, none, none, 0, 0, false, false, none, none, 0, 0⟩

/-- A display transform in force (R290): its CLR instance, the registers of its page by offset, its curves, the LUT it
reads, and the bypasses of R307. -/
structure Transform where
  inst : Nat
  regs : List (Nat × Word)
  curves : CurveCopy
  lut : Option (List Byte)
  noCurves : Bool
  noLut : Bool
  deriving DecidableEq, Repr

/-- A downstream message that waits or is unanswered (R176, R177): its SEQ once it has one, MTYPE, BODY, and who sent it:
0 the device, 1 the host, 2 ingest, 3 the head servo, 4 a host message that an FLR withdrew (R199). -/
structure DMsg where
  seq : Nat
  mtype : Nat
  body : Nat
  owner : Nat
  deriving DecidableEq, Repr

/-- An entry of the receive queue (R200). -/
structure RMsg where
  mtype : Nat
  loc : Bool
  seq : Nat
  body : Nat
  deriving DecidableEq, Repr

/-- A probe under way (R183): its number, t1, then t2 with its copy, and t4; times in units of 2^−16 ns. -/
structure Probe where
  id : Nat
  t1 : Nat
  t2 : Option (Nat × Bool)
  t4 : Nat
  deriving DecidableEq, Repr

/-- A head lane as CWY_h sees it: whether it passed training, block lock, comma lock, missed commas in a row, SFC of its
latest comma, sync-header errors in the interval, its latest four interval checks (newest first, true passed), whether
the interval's check has passed, whether it retrains in the background (R171), whether it failed training, the cause of its loss
(R664) while its event waits for the retraining. -/
structure CLane where
  trained : Bool
  blockLock : Bool
  commaLock : Bool
  missed : Nat
  sfc : Option Nat
  syncErr : Nat
  ichk : List Bool
  verified : Bool
  retrain : Bool
  failed : Bool
  lostCause : Nat
  deriving DecidableEq, Repr

/-- A REMAP, or for no role a STANDBY, sent (R172, R173): its tries, and whether its comma has shown the role. -/
structure Remap where
  role : Option Nat
  lane : Nat
  sfc : Nat
  tries : Nat
  shown : Bool
  deriving DecidableEq, Repr

/-- The time servo of a head beyond its registers (R588–R591): probe results in ACQUIRE, the integral, results in a row
within and above the threshold, the change sent (comma, its message's SEQ, whether a step), the time of the latest
result. -/
structure Servo where
  results : Nat
  integ : Int
  within : Nat
  above : Nat
  change : Option (Nat × Nat × Bool)
  deriving DecidableEq, Repr

/-- A Causeway link beyond its registers: messages without a SEQ yet and messages unanswered, the next SEQ of each
direction, resends in a row, the receive queue, the lanes, capability words still to read, the probe under way and the next
probe's number, the REMAP under way, the role that the standby is to take over, the lane of role r (none: no lane), the
downstream SFC and when its comma left in units of device time, when the feed rose, when its holdoff began in ms, the servo. -/
structure Cwy where
  queue : List DMsg
  unans : List DMsg
  txSeq : Nat
  rxSeq : Nat
  resends : Nat
  rxq : List RMsg
  lanes : List CLane
  caps : Nat
  probe : Option Probe
  probeId : Nat
  remap : Option Remap
  replace : Option Nat
  roles : List (Option Nat)
  standby : Option Nat
  downSfc : Nat
  downAt : Nat
  feedAt : Option Nat
  holdAt : Option Nat
  servo : Servo
  deriving DecidableEq, Repr

def CLane.init : CLane := ⟨false, false, false, 0, none, 0, [], false, false, false, 0⟩

def Cwy.init : Cwy :=
  ⟨[], [], 0, 0, 0, [], List.replicate 12 CLane.init, 0, none, 0, none, none, (List.range 11).map some, some 11, 0, 0, none, none,
   ⟨0, 0, 0, 0, none⟩⟩

/-- An upstream message that a head has sent: MTYPE, SEQ, BODY. -/
structure UpMsg where
  mtype : Nat
  seq : Nat
  body : Nat
  deriving DecidableEq, Repr

/-- An exposure schedule at a head (R186): the next start in units of 2^−16 ns of head time, the period, and the exposures
still to come (none: unbounded). -/
structure Schedule where
  next : Nat
  period : Nat
  left : Option Nat
  deriving DecidableEq, Repr

/-- A sensor head (R182–R192): the head's registers and the five capability words, which its maker defines; time in units
of 2^−48 ns and RATE; staged seconds and the load or step that waits for a comma (SFC, whether a step, value); the next
downstream SEQ it expects, its answers (SEQ, reason, 0 for ACK), newest first, and its next upstream SEQ; what it has sent,
newest first, the upstream SEQs unanswered and the messages that wait for room; SET_WRITEs received (SET_ID, address, data)
and sets to apply (HFC, whether late, SET_ID, writes); EXP_PERIOD; schedules; RUN; the next HFC; which lanes send PRBS31Q,
the preset of each lane (index, PRE, POST), the role of each lane and the SFC from whose comma; the copies it receives;
whether the latest comma carried ROLE 0xF; the SFC it last received; whether it stopped after losing both copies; the
start of its latest exposure and the minimum frame interval in units of 2^−16 ns. -/
structure Head where
  regs : List (Nat × Nat)
  caps : List Nat
  time : Nat
  rate : Int
  sec : Nat
  adj : Option (Nat × Bool × Int)
  rxSeq : Nat
  answers : List (Nat × Nat)
  txSeq : Nat
  up : List UpMsg
  unans : List Nat
  wait : List UpMsg
  sets : List (Nat × Nat × Nat)
  due : List (Nat × Bool × Nat × List (Nat × Nat))
  period : Nat × Nat
  sched : List Schedule
  run : Bool
  hfc : Nat
  training : List Bool
  presets : List (Nat × Nat × Nat)
  roles : List (Nat × Nat)
  copies : Bool × Bool
  numbering : Bool
  lastSfc : Nat
  stopped : Bool
  lastStart : Option Nat
  minFrame : Nat
  deriving DecidableEq, Repr

def Head.init : Head :=
  { regs := [], caps := List.replicate 5 0, time := 0, rate := 0, sec := 0, adj := none, rxSeq := 0, answers := [],
    txSeq := 0, up := [], unans := [], wait := [], sets := [], due := [], period := (0, 0), sched := [], run := false,
    hfc := 0, training := List.replicate 12 false, presets := List.replicate 12 (0, 0, 0),
    roles := [0, 1, 2, 3, 4, 5, 6, 7, 8, 9, 10, 14].map (fun r => (r, 0)), copies := (false, false), numbering := false,
    lastSfc := 0, stopped := false, lastStart := none, minFrame := 0 }

/-- A line that ingest delivers: its W photosites, how many of them the head sent, and whether it was padded or cut. -/
structure RawLine where
  px : List Nat
  got : Nat
  short : Bool
  long : Bool
  deriving DecidableEq, Repr

/-- A frame as ingest numbered it (R205, R213, R214), under the geometry in force, with the lines delivered. -/
structure Frame where
  head : Nat
  seq : Nat
  hfc : Nat
  setId : Nat
  expDur : Nat
  expSec : Nat
  expNs : Nat
  expFrac : Nat
  start : DevTime
  flags : Nat
  headFlags : Nat
  w : Nat
  h : Nat
  depth : Nat
  cfa : Nat
  lines : List RawLine
  deriving DecidableEq, Repr

/-- A line whose data stripes arrive: its width at the head, the stripes it still has, the bytes so far; kept, or
discarded as a repeated line (R210). -/
structure OpenLine where
  width : Nat
  left : Nat
  data : List Byte
  keep : Bool
  deriving DecidableEq, Repr

/-- A closed frame whose statistics block is due, with the statistics settings of its set (R234–R236): CLIP, ring base,
RING_LOG2, the focus windows. -/
structure StatJob where
  frame : Frame
  clip : Nat
  base : Nat
  log2 : Nat
  focus : List (Nat × Nat)
  deriving DecidableEq, Repr

/-- An ingest beyond its registers: the frame in progress and its open line; whether stripes are discarded until the next
FRAME_START; whether there is a latest HFC, whether the next FRAME_START rebases (R216), whether a warm reset fell since
the latest one (R215); the start of the previous numbered frame in units of device time; the HFC that a deferred commit
names, and the pages whose commits wait with it (R227); the statistics due and the next STAT_SEQ (R236); the abandon log (first, last, reason); under shedding step 6, whether the next frame
is abandoned. -/
structure Ingest where
  cur : Option Frame
  line : Option OpenLine
  hasHfc : Bool
  rebase : Bool
  warmGap : Bool
  prevStart : Option Nat
  named : Option Nat
  held : List Nat
  stats : List StatJob
  statNext : Nat
  log : List (Nat × Nat × Nat)
  shedNext : Bool
  deriving DecidableEq, Repr

def Ingest.init : Ingest := ⟨none, none, false, false, false, none, none, [], [], 0, [], false⟩

/-- What one tap does with one frame: on (SINK not 0), the buffer it takes, its tap flags (R264), the next line to
release, lines recomputed and unrecovered, whether it writes no more of the frame, and whether its record is written. -/
structure TapRun where
  on : Bool
  buf : Option Nat
  flags : Nat
  next : Nat
  recomp : Nat
  unrec : Nat
  ended : Bool
  recorded : Bool
  deriving DecidableEq, Repr

/-- Bytes of a tap line held in its spill ring: the frame, the host address (R271). -/
structure SpillLine where
  seq : Nat
  addr : Nat
  bytes : List Byte
  deriving DecidableEq, Repr

/-- A tap between frames: its next record number, its spill ring, and whether it writes nothing until the ring is at most
half full (R273). -/
structure TapState where
  recNo : Nat
  spill : List SpillLine
  blocked : Bool
  deriving DecidableEq, Repr

/-- A frame in a slice: its header (no lines), the lines taken up (none for an overrun line), whether ingest has closed it,
how it is processed (0 processed, 1 decimated, 2 shed), the sets and tables in force, the defect list, the scene-linear
lines computed, the reference buffers read and written, whether the reference was reset, whether it runs on PS4 after a
takeover, an overrun, and its taps. -/
structure SliceFrame where
  frame : Frame
  lines : List (Option (List Nat))
  closed : Bool
  mode : Nat
  regs : List (Nat × Word)
  tbl : Option (List Byte)
  xforms : List Transform
  defects : List (Nat × Nat × Nat)
  scene : List (List (Nat × Nat × Nat))
  refRead : Option Nat
  refWrite : Option Nat
  refReset : Bool
  spare : Bool
  overrun : Bool
  runs : List TapRun
  deriving DecidableEq, Repr

/-- A recompute that PS4 has been asked for: the failed slice, the tap of a tap stage, the line, the arithmetic unit,
stage, and the frame (R266). -/
structure Recompute where
  slice : Nat
  tap : Option Nat
  line : Nat
  unit : Nat
  stage : Nat
  seq : Nat
  injected : Bool
  real : Bool
  counted : Bool
  both : Bool
  deriving DecidableEq, Repr

/-- A slice beyond its registers: its frames, oldest first; the table image in force and the one loaded; its last hand-over
point in units of device time; whether a noise-reduction reset is due, the geometry and the reference buffer of the
latest frame; frames since the shed step took effect; whether it serves a head after a takeover; its taps. -/
structure Slice where
  frames : List SliceFrame
  tbl : Option (List Byte)
  tblPend : Option (List Byte)
  handAt : Option Nat
  refDue : Bool
  geom : Nat × Nat
  refLast : Option Nat
  decimCount : Nat
  takeover : Bool
  taps : List TapState
  deriving DecidableEq, Repr

def TapState.init : TapState := ⟨0, [], false⟩
def Slice.init : Slice := ⟨[], none, none, none, true, (0, 0), none, 0, false, List.replicate 4 TapState.init⟩

/-- A witness frame (R321–R335): its number, VSYNC time and flags; the HSYNC edges counted (R320); its lines, a pixel a
16-bit word; whether it is shed; the reason it is abandoned for (0 none); the sets in force and its taps. -/
structure WitFrame where
  wfn : Nat
  start : DevTime
  flags : Nat
  edges : Nat
  lines : List RawLine
  shed : Bool
  abandoned : Nat
  regs : List (Nat × Word)
  xforms : List Transform
  runs : List TapRun
  deriving DecidableEq, Repr

/-- A witness port beyond its registers: the frame in progress; closed frames with records due; closed frames with
statistics due and the next STAT_SEQ; the clock state (0 running, 3 NO_CLOCK, 4 BAD_CLOCK); whether the datapath is
clearing (R333), the pipeline stopped (R334), the next frame flagged HFC_GAP (R324), a line after HEIGHT seen; the previous
numbered edge and the last hand-over point in units of device time; the next record number of each tap. -/
structure Wit where
  cur : Option WitFrame
  closed : List WitFrame
  stats : List WitFrame
  statNext : Nat
  clock : Nat
  clearing : Bool
  stopped : Bool
  gap : Bool
  extra : Bool
  prevStart : Option Nat
  handAt : Option Nat
  recNo : List Nat
  deriving DecidableEq, Repr

def Wit.init : Wit := ⟨none, [], [], 0, 0, false, false, false, false, none, none, [0, 0]⟩

/-- Where a strip stands between the sizing coders and the take store (R384). -/
inductive StripAt where
  | gather | ready | sized | coded | mismatch | recoded | passed
  deriving DecidableEq, Repr

/-- A strip of raw lines (R368): its index, lines, state; the ladder index chosen; its slot in the frame's stream (R418) and
where its record lies, both by byte from the frame's first byte; whether its record is stored, flagged FORCED_STORED,
flagged RECODED, displaced; what an injection did at its verify (acted, real, counted, both); the record. -/
structure Strip where
  idx : Nat
  lines : List RawLine
  at_ : StripAt
  level : Nat
  slot : Nat
  slotLen : Nat
  off : Nat
  stored : Bool
  forced : Bool
  recoded : Bool
  displaced : Bool
  inj : Bool × Bool × Bool × Bool
  record : List Byte
  deriving DecidableEq, Repr

/-- A frame on the raw route: its header, its VLC_HEAD_CFG (R388), the position of its first block once placed, the next
free byte of its stream, its strips, whether ingest has closed it, the place of its frame record once that is known, and
whether a record of another frame lies in its span. -/
structure RawFrame where
  frame : Frame
  cfg : Nat
  first : Option Nat
  nextOff : Nat
  strips : List Strip
  closed : Bool
  recOff : Option Nat
  foreign : Bool
  deriving DecidableEq, Repr

/-- A GCX job in progress (R398): its descriptor; how it ended (STATUS, DETAIL, IN_CONSUMED, OUT_PRODUCED, CHECK), once its
work is done. -/
structure GcxJob where
  seq : Nat
  op : Nat
  format : Nat
  level : Nat
  flags : Nat
  src : Nat
  srcLen : Nat
  outLen : Nat
  dst : Nat
  state : Nat
  limit : Nat
  mtime : Nat
  asid : Nat
  done : Option (Nat × Nat × Nat × Nat × Nat)
  deriving DecidableEq, Repr

/-- A saved decompression (R401), by the address and space of its state record: the format and MULTI of its job, the input
consumed so far, the output so far, OUT_LIMIT. -/
structure GcxSaved where
  addr : Nat
  asid : Nat
  format : Nat
  input : List Byte
  total : Nat
  limit : Nat
  deriving DecidableEq, Repr

/-- GCX beyond its registers: the job in progress and the saved decompressions. -/
structure GcxState where
  job : Option GcxJob
  saved : List GcxSaved
  deriving DecidableEq, Repr

/-- A queued segment that its recorder has not acknowledged (R554): SSN, the FRAME_SEQ, first position and block count of
its frame, the index and the number of its blocks, how often it was sent, and whether it is to be sent again at once. -/
structure Segment where
  ssn : Nat
  fseq : Nat
  first : Nat
  nblk : Nat
  idx : Nat
  blocks : Nat
  sends : Nat
  again : Bool
  deriving DecidableEq, Repr

/-- A Sluice session beyond its registers (R552–R563): its unacknowledged segments in SSN order; the position from which
frames are still to be queued and the next block of the frame there; how often OPEN or CLOSE was sent, and the REASON of
that CLOSE; its templates. -/
structure Session where
  segs : List Segment
  pos : Nat
  idx : Nat
  tries : Nat
  closeReason : Nat
  pri : List Byte
  alt : List Byte
  deriving DecidableEq, Repr

def Session.init : Session := ⟨[], 0, 0, 0, 0, [], []⟩

/-- A sender beyond its registers (R538–R549): its registers and templates as they stood when it was enabled; the next
sequence number; the start of its last slot in units of device time and that slot's number; the tap records with a buffer
counted when it was enabled; the frame sent last (count, FRAME_SEQ or WFN, buffer); the next packet; whether a frame is
being sent, was torn, and whether each port carries it; the ancillary payload. -/
structure Sender where
  regs : List Nat
  pri : List Byte
  part : List Byte
  seq : Nat
  lastStart : Option Nat
  slot : Nat
  base : Nat
  sent : Option (Nat × Nat × Nat)
  next : Nat
  sending : Bool
  torn : Bool
  priOn : Bool
  partOn : Bool
  anc : List Byte
  deriving DecidableEq, Repr

def Sender.init : Sender := ⟨[], [], [], 0, none, 0, 0, none, 0, false, false, false, false, []⟩

/-- An Ethernet unit beyond its registers: the half-ports that receive a remote fault, a received frame's ring entry that
waits for a translation with its half-port, the senders, the sessions. -/
structure EthUnit where
  remote : List Nat
  rxWait : Option (List Byte × Nat)
  senders : List Sender
  sessions : List Session
  deriving DecidableEq, Repr

def EthUnit.init : EthUnit := ⟨[], none, List.replicate 8 Sender.init, List.replicate 8 Session.init⟩

/-- A tap's records with a buffer index other than 0xFF (R543): the tap (16 × slice + tap, as ETH_SND_SRC names it), how
many there were, and the frame number and buffer of the latest; and the latest records of any kind, newest first: frame
number and whether it names a buffer (R508). -/
structure TapNews where
  tap : Nat
  count : Nat
  fseq : Nat
  buf : Nat
  recent : List (Nat × Bool)
  deriving DecidableEq, Repr

/-- The recorder (R560): per SESSION_ID the SSNs it holds, and the blocks on its medium (DEVICE_ID, HEAD, FRAME_SEQ,
BLOCK_INDEX, payload). -/
structure Recorder where
  sessions : List (Nat × List Nat)
  held : List (Nat × Nat × Nat × Nat × List Byte)
  deriving DecidableEq, Repr

/-- A capture (R577): source and time. -/
structure Capture where
  src : Nat
  time : DevTime
  deriving DecidableEq, Repr

/-- A strobe beyond its registers (R581–R587): the index of the next pulse, whether a pulse is under way, whether that
pulse belongs to an earlier arming, whether device time went forward during it, whether an ARM waits for the inactive
state of SYNC_IN, whether a DISARM waits for the inactive level. -/
structure Strobe where
  next : Nat
  pulse : Bool
  old : Bool
  stepped : Bool
  arming : Bool
  ending : Bool
  deriving DecidableEq, Repr

def Strobe.init : Strobe := ⟨0, false, false, false, false, false⟩

/-- The time base beyond its registers: the change to apply (whether a LOAD, its amount or value in units of 2^−16 ns, X in
units of device time) (R571), the capture buffer, oldest first (R577), rising edges of TIME_REF since its mode was set, the
level of SYNC_IN, the strobes, whether the time-base PLL is out of lock (R574). -/
structure TimState where
  adj : Option (Bool × Int × Nat)
  caps : List Capture
  trefEdges : Nat
  syncIn : Bool
  strobes : List Strobe
  pllOut : Bool
  deriving DecidableEq, Repr

def TimState.init : TimState := ⟨none, [], 0, false, List.replicate 8 Strobe.init, false⟩

/-- An accepted codec job (R501–R518): JOB_SEQ, its descriptor, the slot map it was validated against, its place in the
order of acceptance; whether it has started; its rows, and how many the first and the second class of engine it needs have
finished; of an encode job the QP of the next row and the sum of those used, S, the bounds of the rows coded, the bits they
came to, bytes of parameter sets, whether rows are coded minimal from here on, MIN_ROWS and RECODE_ROWS, the syntax of the
rows; of a decode job what its unit comes to; completion flags, pre-emptions, the slot map on DONE; when a source line was
last read in ms (R508); whether it waits on a page request; how it ended (outcome, DETAIL) and the bytes it wrote. -/
structure CodJob where
  seq : Nat
  desc : List Byte
  proj : List Nat
  acc : Nat
  started : Bool
  rows : Nat
  first : Nat
  second : Nat
  q : Int
  qSum : Int
  size : Nat
  bounds : List Nat
  bits : Nat
  hdr : Nat
  minimal : Bool
  minRows : Nat
  recodes : Nat
  syntaxes : List Nat
  unit : Option DecUnit
  flags : Nat
  preempts : Nat
  map : List Nat
  lineMs : Nat
  waits : Bool
  done : Option (Nat × Nat)
  bytes : Nat
  deriving DecidableEq, Repr

/-- A codec context beyond its registers: its accepted jobs not yet posted, oldest first; the slot map; the buffers held for
output (R514); the decoded pictures not yet output (ORDER, buffer); when it was last served; an abort to be decided at the
next restart point (R522). -/
structure CodCtx where
  jobs : List CodJob
  map : List Nat
  held : List Nat
  shown : List (Nat × Nat)
  served : Nat
  abort : Option Nat
  deriving DecidableEq, Repr

def CodCtx.init : CodCtx := ⟨[], List.replicate 8 0xFF, [], [], 0, none⟩

/-- The codec beyond its registers: the contexts, the context that each engine serves, counts that order acceptances and
turns, and the jobs that a cold reset left in state areas, by their address (R523). -/
structure Codec where
  ctx : List CodCtx
  engine : List (Option Nat)
  acc : Nat
  turn : Nat
  left : List (Nat × List CodJob)
  deriving DecidableEq, Repr

def Codec.init : Codec := ⟨List.replicate 64 CodCtx.init, [none, none, none, none], 0, 0, []⟩

/-- An accepted DMA descriptor (R644): its index, its 56 bytes, and how it ended (outcome, DETAIL, checksum). -/
structure DmaDesc where
  idx : Nat
  body : List Byte
  done : Option (Nat × Nat × Nat)
  deriving DecidableEq, Repr

/-- A DMA channel beyond its registers (R644–R657): its accepted descriptors, oldest first; of the oldest, whether it has begun,
whether its pass has consumed a credit, the odd byte of an INET stream, whether its data is written and only the checksum store is
due; the running state of the latest descriptor that ended DONE; whether its work is held until ENABLE rises; the indices, from
and to, of descriptors posted but not fetched that an abort named. -/
structure DmaChan where
  descs : List DmaDesc
  began : Bool
  paid : Bool
  odd : Option Nat
  dataDone : Bool
  saved : Option (Nat × Option Nat)
  held : Bool
  abort : Option (Nat × Nat)
  deriving DecidableEq, Repr

def DmaChan.init : DmaChan := ⟨[], false, false, none, false, none, false, none⟩

/-- A domain in transition (R708): the domain, up or down, segments still to grant, whether a granted one has not settled. -/
structure SeqMove where
  dom : Nat
  up : Bool
  left : Nat
  busy : Bool
  deriving DecidableEq, Repr

/-- The domain sequencer (R708, R709): transitions in order of request, requests that wait for a transition to complete, and
the amperes used of each rail's budget in this window, in tenths. -/
structure Sequencer where
  moves : List SeqMove
  later : List (Nat × Bool)
  used : List Nat
  deriving DecidableEq, Repr

def Sequencer.init : Sequencer := ⟨[], [], [0, 0, 0, 0, 0]⟩

/-- The supply loop beyond its registers (R702–R706): the frame that awaits its answer, one to send again in the next window,
whether it is a retry; the code of a raise that awaits its OK and whether it has been retried; whether the loop is held after a
fault; windows in a row with the headroom above LOWER_THR; the dies whose margins wait for a raise, whether that raise is still
to be sent; the band of each die's delay-line margins (R693, R694). -/
structure Supply where
  asked : Option Nat
  again : Option Nat
  retried : Bool
  raise : Option (Nat × Bool)
  held : Bool
  low : Nat
  margin : List (Nat × Nat)
  raiseDue : Bool
  bands : List Nat
  deriving DecidableEq, Repr

def Supply.init : Supply := ⟨none, none, false, none, false, 0, [], false, [0, 0]⟩

/-- Shedding (R275–R277): the slices in scope of steps 3 and 4, and whether the latest pace window found every unit at or above
the release margin. -/
structure Shedding where
  scope : List Nat
  calm : Bool
  deriving DecidableEq, Repr

/-- Sensing beyond the registers (R690–R695): the sensors whose check failed in the latest round, the readings of the rounds
before, newest first; the conditions HI, ROR and BAND of the latest round; a host's SHUTDOWN that waits for the end of its
round (R696); the rounds of DRAIN since it began, and whether the drain has ended (R697). -/
structure Thermal where
  failed : List Nat
  past : List (List Int)
  hi : Bool
  ror : Bool
  band : Bool
  host : Bool
  drain : Nat
  drained : Bool
  deriving DecidableEq, Repr

def Thermal.init : Thermal := ⟨[], [], false, false, false, false, 0, false⟩

/-- A reset other than a cold one: warm, by PERST_N or by a write; or FLR (R743). -/
inductive HeldReset where
  | warm (perst : Bool)
  | flr
  deriving DecidableEq, Repr

/-- The host's connections beyond their registers (R731–R749, R765): the level of PERST_N; Memory Space Enable (R736); the cold reset
in progress (1 by COLD_RST_N or VDD_AON, 2 by a rail or clock of R766) and the other reset in progress; the resets held for the
end of the one in progress (R744); the SMBus window (R740); rate and width first reached since PERST_N rose (R754); the device
time in ms of the latest LTSSM Recovery (R88); whether an HBM rail has left its limits since the latest cold reset. -/
structure HostLink where
  perst : Bool
  memory : Bool
  cold : Option Nat
  now : Option HeldReset
  held : List HeldReset
  window : Nat
  first : Option (Nat × Nat)
  recov : Option Nat
  lost : Bool
  deriving DecidableEq, Repr

/-- At power-on: PERST_N low, the cold reset of VDD_AON in progress. -/
def HostLink.init : HostLink := ⟨false, false, some 1, none, [], 0, none, none, false⟩

/-- What a display frame shows (R602, R607): the active set, and per layer with SOURCE 1 the tap frame taken at the latch
instant (frame number, address, format, width, height, stride). -/
structure DspSet where
  regs : List (Nat × Word)
  shown : List (Option (List Nat))
  deriving DecidableEq, Repr

/-- The display beyond its registers (R597–R616): the level of DP_HPD; the AUX transaction that runs (command, bytes); the line
of the latch instant passed for the next frame, and the tap frames taken there; the set of the frame being output, and whether
that frame is output in full with no fault and no shedding; the set of the frame DSP_SAFE_SEQ; whether the next frame repeats. -/
structure Display where
  hpd : Bool
  aux : Option (Nat × Nat)
  latch : Option Nat
  shown : List (Option (List Nat))
  cur : Option DspSet
  whole : Bool
  safe : Option DspSet
  again : Bool
  deriving DecidableEq, Repr

def Display.init : Display := ⟨false, none, none, [none, none, none, none], none, false, none, false⟩

/-- Something the device sends: an MSI-X message of a vector, the level of FAULT_N, an ATS translation request and a
PCIe Page Request (space, page). -/
inductive Out where
  | msix (vector : Nat)
  | faultN (asserted : Bool)
  | atsRequest (asid page : Nat) (noWrite : Bool)
  | pageRequest (asid page index : Nat)
  /-- A downstream message of a head, in so many copies (R178). -/
  | down (head mtype seq body copies : Nat)
  /-- The level of HEAD_FEED_EN_h. -/
  | feed (head : Nat) (on : Bool)
  /-- A frame that an Ethernet port sends, without its FCS. -/
  | eth (unit half : Nat) (frame : List Byte)
  /-- A message of the recorder. -/
  | recorder (msg : List Byte)
  /-- The level of STROBE_OUT_n. -/
  | strobe (n : Nat) (high : Bool)
  /-- A frame of the display: DFN, BT.2020 colorimetry, the EOTF of its HDR metadata, lines of pixels (R, G, B). -/
  | video (dfn : Nat) (bt2020 : Bool) (eotf : Option Nat) (lines : List (List (Nat × Nat × Nat)))
  /-- A frame on AVS_DATA. -/
  | avs (frame : Nat)
  /-- An AUX request: command, address, bytes to write or their number to read. -/
  | aux (cmd addr len : Nat) (bytes : List Byte)
  /-- The data that completes a host read through a BAR, and whether the completion is poisoned (R476). -/
  | barData (bytes : List Byte) (poisoned : Bool)
  /-- The answer to an SMBus command: acknowledged or not, and the bytes read. -/
  | smb (ack : Bool) (bytes : List Byte)
  deriving DecidableEq, Repr

/-- The state of the device, of what hangs on its links, and of the memories it reaches. -/
structure State where
  /-- What the part fixes at manufacture. -/
  part : Part
  /-- BAR0 registers as the host sees them, sparse over their reset values. -/
  regs : List (Nat × Word)
  /-- Active copies of the shadowed registers (R50). -/
  actv : List (Nat × Word)
  /-- HBM by device address (R26), sparse over what unwritten memory reads as. -/
  mem : List Host.Cell
  /-- Spans of HBM whose unwritten bytes are undefined (with a free-value token) or zeroed, latest first. -/
  memGen : List (Nat × Nat × Option Nat)
  /-- Host memory by physical address, as the device's masters see it. -/
  hostMem : List Host.Cell
  /-- What the device has sent, newest first. -/
  out : List Out
  /-- Device time (R567). -/
  time : DevTime
  msix : Msix
  bit : Bittern
  hbm : HbmState
  xlt : XltState
  tsq : TsqState
  sump : SumpState
  lanes : List Lane
  quads : List Quad
  clr : List Clr
  ing : List Ingest
  cwy : List Cwy
  heads : List Head
  slices : List Slice
  recompute : List Recompute
  wits : List Wit
  /-- The frames of each head on the raw route, oldest first. -/
  raw : List (List RawFrame)
  gcx : GcxState
  eth : List EthUnit
  tapNews : List TapNews
  recorder : Recorder
  tim : TimState
  cod : Codec
  dsp : Display
  dma : List DmaChan
  seq : Sequencer
  supply : Supply
  shed : Shedding
  thermal : Thermal
  hif : HostLink
  /-- Counter values by number (R719); the value registers hold what reads latched (R722). -/
  cnt : List Nat
  /-- The free-value counter: the model's own, advanced by each step that takes a free value. -/
  freeCtr : Nat
  /-- The commands that wait, first in, first out. -/
  pending : List Instr
  deriving DecidableEq, Repr

def noPlan : List (Nat × Nat) := List.replicate 16 (0, 0)

def HbmState.init : HbmState :=
  ⟨noPlan, noPlan, [], [], [], [], [], none, [], none, List.replicate 4 none, List.replicate 4 false⟩

/-- The state right after the cold reset of power-on. -/
def State.reset : State where
  part := ⟨false, 0, 0, 0⟩
  regs := []
  actv := []
  mem := []
  memGen := []
  hostMem := []
  out := []
  time := ⟨0, 0, 0⟩
  msix := ⟨[], [], [], false, false, [], []⟩
  bit := ⟨[], [], false⟩
  hbm := HbmState.init
  xlt := ⟨[], [], [], [], []⟩
  tsq := TsqState.init
  sump := ⟨[], [], [], false, []⟩
  lanes := List.replicate 96 Lane.init
  quads := List.replicate 24 Quad.init
  clr := List.replicate 28 Clr.init
  ing := List.replicate 4 Ingest.init
  cwy := List.replicate 4 Cwy.init
  heads := List.replicate 4 Head.init
  slices := List.replicate 5 Slice.init
  recompute := []
  wits := List.replicate 4 Wit.init
  raw := List.replicate 4 []
  gcx := ⟨none, []⟩
  eth := List.replicate 4 EthUnit.init
  tapNews := []
  recorder := ⟨[], []⟩
  tim := TimState.init
  cod := Codec.init
  dsp := Display.init
  dma := List.replicate 16 DmaChan.init
  seq := Sequencer.init
  supply := Supply.init
  shed := ⟨[], true⟩
  thermal := Thermal.init
  hif := HostLink.init
  cnt := List.replicate 256 0
  freeCtr := 0
  pending := []

end Sys2Proof.Machine
end

