-- ==== Sys2Proof/Machine/Ops.lean ====
section
/-! DEFINITION. The shared operations: registers and their fields, HBM and host memory, device time, interrupts
(R60–R63) and the report of a refused write (R43). -/

namespace Sys2Proof.Machine

/-! ### Registers -/

/-- A register of BAR0, as the host sees it. -/
def State.rd (s : State) (off : Nat) : Nat := (Sparse.get resetVal s.regs off).toNat

/-- A register of BAR0 written. -/
def State.wr (s : State) (off v : Nat) : State :=
  { s with regs := Sparse.put resetVal s.regs off (BitVec.ofNat 32 v) }

/-- The active copy of a shadowed register (R50). -/
def State.rdA (s : State) (off : Nat) : Nat := (Sparse.get resetVal s.actv off).toNat

/-- The active copy of a shadowed register written. -/
def State.wrA (s : State) (off v : Nat) : State :=
  { s with actv := Sparse.put resetVal s.actv off (BitVec.ofNat 32 v) }

/-- A field, at a base. -/
def State.g (s : State) (base : Nat) (f : Fld) : Nat := fld (s.rd (base + f.off)) f.lo f.w

/-- A field written; the rest of its register stays. -/
def State.p (s : State) (base : Nat) (f : Fld) (v : Nat) : State :=
  s.wr (base + f.off) (setFld (s.rd (base + f.off)) f.lo f.w v)

/-- A field of the active copy. -/
def State.ga (s : State) (base : Nat) (f : Fld) : Nat := fld (s.rdA (base + f.off)) f.lo f.w

/-- A field of the active copy written. -/
def State.pa (s : State) (base : Nat) (f : Fld) (v : Nat) : State :=
  s.wrA (base + f.off) (setFld (s.rdA (base + f.off)) f.lo f.w v)

/-- A one-bit field as a truth value. -/
def State.on (s : State) (base : Nat) (f : Fld) : Bool := s.g base f == 1

/-- A _LO and _HI pair as one number of 64 bits (R44). -/
def State.g64 (s : State) (base : Nat) (f : Fld) : Nat := s.rd (base + f.off) + 2 ^ 32 * s.rd (base + f.off + 4)

/-- A _LO and _HI pair of active copies. -/
def State.ga64 (s : State) (base : Nat) (f : Fld) : Nat := s.rdA (base + f.off) + 2 ^ 32 * s.rdA (base + f.off + 4)

/-- A _LO and _HI pair written. -/
def State.p64 (s : State) (base : Nat) (f : Fld) (v : Nat) : State :=
  (s.wr (base + f.off) (v % 2 ^ 32)).wr (base + f.off + 4) (v / 2 ^ 32 % 2 ^ 32)

/-- A saturating count: n added to a field. -/
def State.addSat (s : State) (base : Nat) (f : Fld) (n : Nat) : State :=
  s.p base f (min (s.g base f + n) (2 ^ f.w - 1))

/-- A count modulo the width of its field: n added. -/
def State.addMod (s : State) (base : Nat) (f : Fld) (n : Nat) : State := s.p base f ((s.g base f + n) % 2 ^ f.w)

/-- One bit of a field written, by its number within the field. -/
def State.pBit (s : State) (base : Nat) (f : Fld) (n : Nat) (b : Bool) : State := s.p base ⟨f.off, f.lo + n, 1⟩ (b2n b)

/-- One bit of a field. -/
def State.gBit (s : State) (base : Nat) (f : Fld) (n : Nat) : Bool := s.on base ⟨f.off, f.lo + n, 1⟩

/-! ### Memory -/

/-- What a byte of memory that nothing has written reads as. The spans, latest first, are those whose contents the
manual calls undefined (a free value by token and address) or zeroed (no token); elsewhere 0: DESIGN CHOICE (unsafe),
the manual leaves the contents at power-on open. -/
def memDflt : List (Nat × Nat × Option Nat) → Nat → Byte
  | [], _ => 0
  | (lo, hi, t) :: r, a =>
    if lo ≤ a && a < hi then (match t with | some t => Config.freeByte t a | none => 0) else memDflt r a

/-- The canonical form of memory: addresses rise and no entry equals what an unlisted address reads as. -/
def Memory.wf (u : List (Nat × Nat × Option Nat)) (m : List Host.Cell) : Bool := Sparse.wf (memDflt u) m

def Memory.read (u : List (Nat × Nat × Option Nat)) (m : List Host.Cell) (a : Nat) : Byte := Sparse.get (memDflt u) m a

def Memory.write (u : List (Nat × Nat × Option Nat)) (m : List Host.Cell) (a : Nat) (b : Byte) : List Host.Cell :=
  Sparse.put (memDflt u) m a b

/-- n bytes of memory from an address. -/
def Memory.readN (u : List (Nat × Nat × Option Nat)) (m : List Host.Cell) (a : Nat) : Nat → List Byte
  | 0 => []
  | n + 1 => Memory.read u m a :: Memory.readN u m (a + 1) n

/-- Bytes stored from an address. -/
def Memory.writeN (u : List (Nat × Nat × Option Nat)) (m : List Host.Cell) (a : Nat) : List Byte → List Host.Cell
  | [] => m
  | b :: r => Memory.writeN u (Memory.write u m a b) (a + 1) r

/-- Bytes of HBM. -/
def State.hbmRead (s : State) (a n : Nat) : List Byte := Memory.readN s.memGen s.mem a n

/-- Bytes stored in HBM. -/
def State.hbmWrite (s : State) (a : Nat) (l : List Byte) : State := { s with mem := Memory.writeN s.memGen s.mem a l }

/-- Every byte of a span of HBM becomes undefined, or zero. -/
def State.hbmSpan (s : State) (a n : Nat) (zero : Bool) : State :=
  let s := { s with memGen := (a, a + n, if zero then none else some s.freeCtr) :: s.memGen,
                    mem := s.mem.filter (fun c => !(decide (a ≤ c.1) && decide (c.1 < a + n))) }
  if zero then s else { s with freeCtr := s.freeCtr + 1 }

/-- A little-endian number of n bytes in HBM. -/
def State.hbmNum (s : State) (a n : Nat) : Nat := ofLe (s.hbmRead a n)

/-- Bytes of host memory, by physical address. -/
def State.hostRead (s : State) (a n : Nat) : List Byte := Memory.readN [] s.hostMem a n

def State.hostWrite (s : State) (a : Nat) (l : List Byte) : State := { s with hostMem := Memory.writeN [] s.hostMem a l }

/-- The installed HBM in bytes (R1, R27). -/
def State.installed (s : State) : Nat := if s.part.variantH then 0x4000000000 else 0x3000000000

/-! ### Device time -/

/-- Nanoseconds in a second. -/
def nsPerSec : Nat := 1000000000

/-- Device time in units of 2^−48 ns. -/
def DevTime.units (t : DevTime) : Nat := (t.sec * nsPerSec + t.ns) * 2 ^ 48 + t.sub

/-- Device time from units of 2^−48 ns; SEC wraps at 2^48 (R567). -/
def DevTime.ofUnits (u : Nat) : DevTime := ⟨u / 2 ^ 48 / nsPerSec % 2 ^ 48, u / 2 ^ 48 % nsPerSec, u % 2 ^ 48⟩

/-- FRAC, the top 16 bits of the fraction (R567). -/
def DevTime.frac (t : DevTime) : Nat := t.sub / 2 ^ 32

/-- Device time in whole milliseconds (R666). -/
def DevTime.ms (t : DevTime) : Nat := t.sec * 1000 + t.ns / 1000000

/-- The 12 bytes of a time in a record: seconds (6), nanoseconds (4), fraction (2) (R235). -/
def DevTime.bytes (t : DevTime) : List Byte := leBytes 6 t.sec ++ leBytes 4 t.ns ++ leBytes 2 t.frac

/-! ### What the device sends, and free values -/

def State.emit (s : State) (o : Out) : State := { s with out := o :: s.out }

/-- The next free value below a bound, with the counter advanced. -/
def State.free (s : State) (bound : Nat) : Nat × State :=
  (Config.free s.freeCtr % bound, { s with freeCtr := s.freeCtr + 1 })

/-! ### Interrupts -/

/-- An MSI-X table word; a vector's mask bit is 1 after reset, as PCIe sets it. -/
def msixReset (k : Nat) : Word := if k % 16 = 12 then 1 else 0

def State.msixWord (s : State) (k : Nat) : Nat := (Sparse.get msixReset s.msix.table k).toNat

/-- A vector may be sent at once (R62). -/
def State.vectorOpen (s : State) (v : Nat) : Bool :=
  s.msix.enable && !s.msix.functionMask && s.msixWord (16 * v + 12) % 2 == 0

/-- The device may reach host memory (R738). -/
def State.masterOn (s : State) : Bool := s.on HIF HIF_LINK_STAT_BME && !s.on HIF HIF_LINK_STAT_D3HOT

/-- The instance requests an interrupt (R60). -/
def State.requests (s : State) (b : Nat) : Bool := (s.g b IRQ_STAT &&& s.g b IRQ_EN) != 0

/-- A message is sent, or its Pending Bit Array bit is set (R62); without Bus Master Enable, or in D3hot, it is held
(R738). -/
def State.rawVector (s : State) (v : Nat) : State :=
  if s.vectorOpen v then
    if s.masterOn then s.emit (.msix v)
    else if s.msix.held.contains v then s else { s with msix := { s.msix with held := v :: s.msix.held } }
  else if s.msix.pba.contains v then s else { s with msix := { s.msix with pba := v :: s.msix.pba } }

/-- A message of an instance falls due: it is sent by send and its holdoff starts, or it is merged into the one at the end of
the holdoff (R60, R61). -/
def State.messageBy (send : State → Nat → State) (s : State) (b : Nat) : State :=
  if s.msix.holdoff.contains b then
    (if s.msix.due.contains b then s else { s with msix := { s.msix with due := b :: s.msix.due } })
  else
    let s := send s (s.g b IRQ_VEC)
    if s.g b IRQ_HOLDOFF = 0 then s else { s with msix := { s.msix with holdoff := b :: s.msix.holdoff } }

/-! ### Counted events (R716–R719) -/

/-- An event that a counter may count: class, event, instance where it has one, amount; and of its filter components those that
apply to it: master, device address, user (of host-memory accesses), scheduler class. -/
structure CntEvent where
  cls : Nat
  ev : Nat
  inst : Option Nat := none
  amount : Nat := 1
  master : Option Nat := none
  addr : Option Nat := none
  user : Option Bool := none
  sched : Option Nat := none
  deriving DecidableEq, Repr

/-- The base of filter set f. -/
def cntFlt (f : Nat) : Nat := CNT + 0x20 * f

/-- An event passes filter set f (R717). -/
def State.cntPasses (s : State) (e : CntEvent) (f : Nat) : Bool :=
  let b := cntFlt f
  let mask := s.g b CNT_FLT_CFG_MASK
  let master := match e.master with | some m => m &&& mask == s.g b CNT_FLT_CFG_MASTER &&& mask | none => true
  let addr := match e.addr with
    | some a => !s.on b CNT_FLT_CFG_ADDR_EN ||
        (decide (s.g64 b CNT_FLT_BASE_LO_REG ≤ a) && decide (a < s.g64 b CNT_FLT_LIMIT_LO_REG))
    | none => true
  let priv := match e.user with
    | some u => s.g b CNT_FLT_CFG_PRIV == 0 || s.g b CNT_FLT_CFG_PRIV == (if u then 2 else 1)
    | none => true
  let sched := match e.sched with | some k => bitOf (s.g b CNT_FLT_CFG_CLASS_MASK) k | none => true
  master && addr && priv && sched

/-- Counter n counts the event (R716, R719). -/
def State.cntTakes (s : State) (e : CntEvent) (n : Nat) : Bool :=
  let b := CNT + 4 * n
  let inst := match e.inst with
    | some i => s.g b CNT_CFG_INST == i || ((e.cls == 2 || e.cls == 3) && s.g b CNT_CFG_INST == 63)
    | none => true
  s.on b CNT_CFG_EN && s.g b CNT_CFG_CLASS == e.cls && s.g b CNT_CFG_EVENT == e.ev && inst &&
    (!s.on b CNT_CFG_FILT_EN || s.cntPasses e (s.g b CNT_CFG_FILTER))

/-- Counter n takes an amount; the answer says whether a wrap raises the interrupt (R723). -/
def State.cntAdd (s : State) (n amount : Nat) : Bool × State :=
  let v := nth 0 s.cnt n + amount
  let s := { s with cnt := upd s.cnt n (fun _ => v % 2 ^ 48) }
  if v < 2 ^ 48 then (false, s)
  else (s.on (CNT + 4 * n) CNT_CFG_OVF_IRQ, s.pBit (CNT + 4 * (n / 32)) CNT_OVF (n % 32) true)

/-- An event reaches every counter that counts it. -/
def State.cntTake (s : State) (e : CntEvent) : Bool × State :=
  if !s.on CNT CNT_CTRL_RUN then (false, s)
  else ((List.range 256).filter (s.cntTakes e)).foldl (fun (x : Bool × State) n =>
    let y := x.2.cntAdd n e.amount
    (x.1 || y.1, y.2)) (false, s)

/-- An MSI-X message that is sent is a counted event itself (class 4, event 5). -/
def State.sentCount (s : State) (v : Nat) : Bool × State :=
  let sent := s.vectorOpen v && s.masterOn
  let s := s.rawVector v
  if sent then
    let x := s.cntTake { cls := 4, ev := 0, amount := 4, user := some false }
    let y := x.2.cntTake { cls := 4, ev := 5 }
    (x.1 || y.1, y.2)
  else (false, s)

/-- CNT IRQ_STAT.OVF is raised (R723); the message it sends can wrap no counter into a further message. -/
def State.cntIrq (s : State) : State :=
  let was := s.requests CNT
  let s := s.p CNT IRQ_STAT (s.g CNT IRQ_STAT ||| 1)
  if !was && s.requests CNT then State.messageBy (fun (s : State) v => (s.sentCount v).2) s CNT else s

/-- An event is counted. -/
def State.count (s : State) (e : CntEvent) : State :=
  let x := s.cntTake e
  if x.1 then x.2.cntIrq else x.2

/-- Events are counted whose number the manual leaves open, at most so many where a bound is known: a free value. -/
def State.freeCount (s : State) (e : CntEvent) (most : Option Nat) : State :=
  let n := Config.events [e.cls, e.ev, e.inst.getD 63, e.master.getD 0] s.cnt
  s.count { e with amount := match most with | some m => min m n | none => n }

/-- A vector's message is sent, made pending or held. -/
def State.sendVector (s : State) (v : Nat) : State :=
  let x := s.sentCount v
  if x.1 then x.2.cntIrq else x.2

/-- A message of an instance falls due (R60, R61). -/
def State.messageDue (s : State) (b : Nat) : State := State.messageBy State.sendVector s b

/-- A message of an instance is sent and its holdoff starts (R60, R61). -/
def State.sendMessage (s : State) (b : Nat) : State :=
  let s := s.sendVector (s.g b IRQ_VEC)
  if s.g b IRQ_HOLDOFF = 0 then s else { s with msix := { s.msix with holdoff := b :: s.msix.holdoff } }

/-- The device sets IRQ_STAT bits; a message falls due when the request turns non-zero (R60). -/
def State.irqMask (s : State) (b mask : Nat) : State :=
  let was := s.requests b
  let s := s.p b IRQ_STAT (s.g b IRQ_STAT ||| mask)
  if !was && s.requests b then s.messageDue b else s

/-- The device sets one IRQ_STAT bit. -/
def State.irq (s : State) (b n : Nat) : State := s.irqMask b (2 ^ n)

def State.irqIf (s : State) (c : Bool) (b n : Nat) : State := if c then s.irq b n else s

/-- After a host write to IRQ_STAT or IRQ_EN the message is sent again while the request stays (R60). -/
def State.irqRecheck (s : State) (b : Nat) : State := if s.requests b then s.messageDue b else s

/-- A FAULT_SUM bit, and PAGE_STAT.FAULT, the OR of them all (R42). -/
def State.fault (s : State) (b n : Nat) (v : Bool) : State :=
  let s := s.pBit b FAULT_SUM n v
  s.p b PAGE_STAT_FAULT (b2n (s.g b FAULT_SUM != 0))

/-! ### Refused writes -/

/-- A write refused or ignored: BAD_WRITE, and the cause and offset of the first one (R42, R43). -/
def State.badWrite (s : State) (b off cause : Nat) : State :=
  if s.on b PAGE_STAT_BAD_WRITE then s
  else ((s.p b PAGE_STAT_BAD_WRITE 1).p b PAGE_STAT_BAD_CAUSE cause).p b PAGE_STAT_BAD_OFFSET (off % 0x1000)

/-- A write to a BAR0 offset refused on the page that owns it; on the TOP page where none does (R49). -/
def State.refuse (s : State) (off cause : Nat) : State :=
  match owner off with
  | some o => s.badWrite (o.blk.at o.inst) off cause
  | none => s.badWrite TOP off 7

/-- Enabled, busy, powered. -/
def State.enabled (s : State) (b : Nat) : Bool := s.on b PAGE_CTRL_ENABLE
def State.busy (s : State) (b : Nat) : Bool := s.on b PAGE_STAT_BUSY
def State.powered (s : State) (b : Nat) : Bool := s.on b PAGE_STAT_POWERED
def State.setBusy (s : State) (b : Nat) (v : Bool) : State := s.p b PAGE_STAT_BUSY (b2n v)

end Sys2Proof.Machine
end

