-- ==== Sys2Proof/Machine/Access.lean ====
section
/-! DEFINITION. What makes BAR0 refuse a host write before the register's own rule is asked: reserved encodings
(R46), reserved and unmapped offsets (R47, R49), a block without power (R48), a shadowed register while a commit is
pending (R53). -/

namespace Sys2Proof.Machine

/-- A value lies in one of the ranges. -/
def inRanges : List (Nat × Nat) → Nat → Bool
  | [], _ => false
  | (a, b) :: r, v => (a ≤ v && v ≤ b) || inRanges r v

/-- A field of a written value is a reserved encoding. Read-only fields are not written. -/
def fieldReserved (v : Nat) (f : FieldDesc) : Bool :=
  !f.valid.isEmpty && f.acc != .ro && f.acc != .rc && !inRanges f.valid (fld v f.lo f.w)

/-- A binary32 value that is an infinity or a NaN. -/
def f32Special (v : Nat) : Bool := fld v 23 8 == 255

/-- A binary32 value that is subnormal. -/
def f32Subnormal (v : Nat) : Bool := fld v 23 8 == 0 && fld v 0 23 != 0

/-- A Causeway control lane of a head slot (head lanes 10 and 11), whose transmitter is 28 Gbit/s NRZ (R99). -/
def State.ctrlLane (s : State) (q l : Nat) : Bool := q < 12 && q % 3 == 2 && 2 ≤ l && s.g (LNK q) LNK_QUAD_CFG_ROLE == 0

/-- A lane whose receiver runs NRZ: a PCIe lane at 32 GT/s and below (R106). -/
def State.rxNrz (s : State) (q : Nat) : Bool := 20 ≤ q && s.g HIF HIF_LINK_STAT_RATE < 5

/-- A lane with an NRZ half (R147, LNK_PRBS_CTRL.PATTERN). -/
def State.nrzLane (s : State) (q l : Nat) : Bool := s.ctrlLane q l || s.rxNrz q

/-- An exponent bound of a CLR LOG2 domain is valid: −64 to +32 (R313). -/
def eBoundOk (e : Nat) : Bool := e ≤ 32 || 192 ≤ e

/-- Device time increment within 1/1,024 of nominal (R568). -/
def incNominal : Nat := 0x199999999999A

def incOk (v : Nat) : Bool := v * 1024 ≤ incNominal * 1025 && incNominal * 1023 ≤ v * 1024

/-- A DMA request selection is valid for its source (R662). -/
def reqSelOk (ch src sel : Nat) : Bool :=
  if src = 2 then (sel / 4 ≤ 4 || (8 ≤ sel / 4 && sel / 4 ≤ 11 && sel % 4 < 2))
  else if src = 3 then sel < 8 else if src = 4 then (sel < 16 && sel != ch) else true

/-- A counter selection is no reserved encoding: its class, its event and its instance are listed (R716, R729). -/
def cntSel (en : Bool) (cls ev inst : Nat) : Bool :=
  let slice := decide (inst ≤ 4)
  match cls with
  | 1 => ev ≤ 1
  | 2 => ev ≤ 6 && (inst ≤ 3 || inst == 63)
  | 3 => ev ≤ 3 && (inst ≤ 5 || inst == 63)
  | 4 => ev ≤ 5
  | 5 => ev ≤ 1 && inst ≤ 16
  | 6 => ev ≤ 3 && (slice || (ev % 2 == 0 && 8 ≤ inst && inst ≤ 11))
  | 7 => ev ≤ 3 && inst ≤ 3
  | 8 => ev ≤ 2 && inst ≤ 3
  | 9 => ev ≤ 2 && inst ≤ 1
  | 10 => ev == 1 || (ev ≤ 2 && inst ≤ 3)
  | 11 => ev ≤ 1
  | _ => !en

/-- Reserved encodings that a single field's ranges do not express: they depend on other fields, other registers or
the instance. po is the offset within the page. -/
def specialReserved (s : State) (o : Owner) (v : Nat) : Bool :=
  let b := o.blk.at o.inst
  let rel := o.rel
  let po := rel % 0x1000
  match o.blk with
  | .lnk =>
    if rel = 0x100 then fld v 0 1 == 1 && 12 ≤ o.inst
    else if 0x120 ≤ rel ∧ rel < 0x140 then 14 < fld v 0 4 + fld v 8 4
    else if 0x200 ≤ rel ∧ (rel - 0x200) % 0x40 = 0x1C then
      6 ≤ fld v 0 4 && fld v 0 4 ≤ 8 && s.nrzLane o.inst ((rel - 0x200) / 0x40)
    else false
  | .psl =>
    if rel = 0x1100 ∨ (0x1104 ≤ rel ∧ rel ≤ 0x1124) then f32Special v || (bitOf v 31)
    else if rel = 0x112C then f32Special v || bitOf v 31 || s.rd (b + 0x1130) ≤ v
    else if rel = 0x1130 then f32Special v || bitOf v 31 || v ≤ s.rd (b + 0x112C)
    else if 0x1304 ≤ rel ∧ rel ≤ 0x1334 then f32Special v || f32Subnormal v
    else if 0x2000 ≤ rel ∧ (po - 0x100) % 0x100 = 0x10 then (fld v 0 4 == 4 || fld v 0 4 == 5) && fld v 5 2 == 3
    else false
  | .clr =>
    if rel = 0x104 ∨ rel = 0x110 then fld v 0 1 == 1 && !(eBoundOk (fld v 8 8) && eBoundOk (fld v 16 8))
    else if rel = 0x108 ∨ rel = 0x10C ∨ rel = 0x114 ∨ rel = 0x118 ∨ (0x120 ≤ rel ∧ rel < 0x180) then
      f32Special v || f32Subnormal v
    else false
  | .wit =>
    if rel = 0x100 then
      (fld v 0 3 ≤ 1 && !(8 ≤ fld v 3 5 && fld v 3 5 ≤ 16)) || (fld v 0 3 == 0 && 4 ≤ fld v 8 3)
    else if rel = 0x150 ∨ rel = 0x190 then (fld v 0 4 == 4 || fld v 0 4 == 5) && fld v 5 2 == 3
    else false
  | .smp => rel = 0x108 && fld v 0 2 == 3
  | .vlc => 0x1100 ≤ rel && (rel - 0x1100) % 0x40 == 0 && fld v 0 2 == 0 && !(0x20 ≤ fld v 8 8 && fld v 8 8 ≤ 0x80)
  | .tsq =>
    if rel = 0x108 then v % 512 != 0
    else if rel = 0x118 then !(v % 4096 == 0 && 4096 ≤ v && v ≤ 2 ^ 24)
    else false
  | .ctx => po < 0xC00 && (po - 0x100) % 0x200 == 0 && fld v 14 1 == 1 && !(fld v 2 1 == 1 && fld v 0 2 == 2)
  | .eth =>
    if rel = 0x100 then (if fld v 0 1 = 0 then fld v 1 2 != 3 else fld v 1 2 == 3 || fld v 3 2 == 3)
    else if 0x1000 ≤ rel ∧ rel < 0x2000 ∧ (po - 0x100) % 0x40 = 4 then 8 ≤ fld v 0 4 && 2 ≤ fld v 4 2
    else if 0x2000 ≤ rel ∧ rel < 0x3000 ∧ (po - 0x100) % 0x80 = 0x14 then
      1 < fld v 0 1 + fld v 1 1 + fld v 2 1
    else false
  | .tim =>
    if rel = 0x138 then fld v 0 2 == 3 || (fld v 1 1 == 1 && nsPerSec ≤ s.g TIM TIM_SET_NS)
    else if rel = 0x11C then !incOk (s.rd (TIM + 0x118) + 2 ^ 32 * fld v 0 17)
    else if 0x1000 ≤ rel ∧ po < 0x300 ∧ (po - 0x100) % 0x40 = 0x24 then fld v 0 2 == 3
    else false
  | .dsp =>
    if 0x1000 ≤ rel ∧ (po - 0x100) % 0x40 = 0 then fld v 1 1 == 0 && !([0, 1, 2, 7].contains (fld v 4 4))
    else if 0x1000 ≤ rel ∧ (po - 0x100) % 0x40 = 0x18 then 8 ≤ fld v 0 4 && 2 ≤ fld v 4 2
    else if rel = 0x120 then 4 < fld v 0 4 || 6 < fld v 4 4
    else false
  | .dma =>
    if rel = 0x118 then !reqSelOk o.inst (fld v 1 3) (fld v 8 6)
    else if rel = 0x120 then fld v 0 2 == 3
    else if rel = 0x128 then 1 < fld v 0 1 + fld v 1 1 + fld v 2 1
    else false
  | .bit =>
    if rel = 0x108 ∨ rel = 0x144 ∨ rel = 0x164 then fld v 0 2 == 3
    else rel = 0x140 && fld v 0 9 == 124 && fld v 16 2 == 2
  | .thm =>
    if rel = 0x100 then !(60 ≤ fld v 0 8 && fld v 0 8 ≤ fld v 8 8)
    else if rel = 0x108 then !(fld v 0 8 < fld v 8 8 && fld v 8 8 < fld v 16 8 && fld v 16 8 ≤ 105)
    else false
  | .pwr =>
    if rel = 0x100 then !(fld v 24 8 < fld v 8 8 && fld v 8 8 < fld v 16 8)
    else if rel = 0x104 then !(fld v 24 8 < s.g PWR PWR_LOOP_CFG_RAISE_THR)
    else if rel = 0x108 then !(fld v 0 8 < fld v 8 8)
    else false
  | .cnt =>
    if 0x180 ≤ rel ∧ rel < 0x280 ∧ (rel - 0x180) % 0x20 = 0 then
      fld v 24 1 == 1 && !(s.rd (b + rel + 8) + 2 ^ 32 * s.rd (b + rel + 12) < s.rd (b + rel + 16) + 2 ^ 32 * s.rd (b + rel + 20))
    else if 0x1000 ≤ rel ∧ rel < 0x2000 then !cntSel (fld v 31 1 == 1) (fld v 0 4) (fld v 4 6) (fld v 10 6)
    else false
  | .top => rel = 0x10C && fld v 0 1 == 1 && fld v 8 8 != 0xA5
  | _ => false

/-- The key of a register: a page-header register stands once for all pages of its instance (R35). -/
def regKey (o : Owner) : Nat := o.blk.at o.inst + (if o.rel % 0x1000 < 0x100 then o.rel % 0x1000 else o.rel)

/-- A register that exists on the block's map but not on this instance: page 1 of HBM_1 to HBM_3 (R487). -/
def absentHere (o : Owner) : Bool := o.blk == .hbm && 0 < o.inst && 0x1000 ≤ o.rel && 0x100 ≤ o.rel % 0x1000

/-- Why a write of v to a block register (0x100 and above on its page) is refused, if it is. Power is asked first,
then the offset, then a pending commit, then the encoding. -/
def State.writeCause (s : State) (o : Owner) (v : Nat) : Option Nat :=
  let b := o.blk.at o.inst
  if !s.powered b then some 3
  else match (if absentHere o then none else regAt o.blk o.rel) with
    | none => some 5
    | some (d, _) =>
      if d.shadowed && s.on b PAGE_STAT_COMMIT_PEND then some 2
      else if d.fields.any (fieldReserved v) || specialReserved s o v then some 1
      else none

/-- A write of v to the register at a BAR0 offset, where op is what the register's own rule does with it. During a warm reset only
TOP and HIF answer: a write elsewhere is discarded in silence (R745). -/
def State.regOp (s : State) (off v : Nat) (op : State → State) : State :=
  match owner off with
  | none => if s.on TOP TOP_RESET_STAT_WARM_BUSY then s else s.badWrite TOP off 7
  | some o =>
    if s.on TOP TOP_RESET_STAT_WARM_BUSY && o.blk != .top && o.blk != .hif then s
    else match s.writeCause o v with
    | some c => s.badWrite (o.blk.at o.inst) off c
    | none => op s

/-- A host access to BAR0: the function claims it while Memory Space Enable is 1 (R736), and it is counted (R716). -/
def State.host (s : State) (op : State → State) : State := if s.hif.memory then op (s.count { cls := 4, ev := 3 }) else s

/-- A host write of n bytes to BAR0: its payload is counted (R716). -/
def State.hostSized (s : State) (n : Nat) (op : State → State) : State :=
  s.host (fun s => op (s.count { cls := 4, ev := 1, amount := n, user := some false }))

/-- A host write of v to the register at a BAR0 offset. -/
def State.hostReg (s : State) (off v : Nat) (op : State → State) : State := s.hostSized 4 (fun s => s.regOp off v op)

/-- The bits of a register that a host write sets by itself: RW as written, W1C cleared by ones, RW1S set by ones;
RO, RC and WO fields stay (R4). -/
def mergeField (v : Nat) (old : Nat) (f : FieldDesc) : Nat :=
  match f.acc with
  | .rw => setFld old f.lo f.w (fld v f.lo f.w)
  | .w1c => setFld old f.lo f.w (fld old f.lo f.w &&& (2 ^ f.w - 1 - fld v f.lo f.w))
  | .rw1s => setFld old f.lo f.w (fld old f.lo f.w ||| fld v f.lo f.w)
  | _ => old

/-- A write taking effect according to the access codes of the register's fields (R4). -/
def State.plainWrite (s : State) (off v : Nat) : State :=
  match owner off with
  | none => s
  | some o => match regAt o.blk o.rel with
    | none => s
    | some (d, _) => s.wr off (d.fields.foldl (mergeField v) (s.rd off))

end Sys2Proof.Machine
end

