-- ==== Sys2Proof/Machine/Bittern.lean ====
section
/-! DEFINITION. Bittern, the fault collector (19_faults.md): events of a source and their window (R666, R667, R777),
the log (R671), FAULT_N (R672–R674), and an armed injection meeting its check (R675–R681). The switch-over that an
event asks for is the caller's: it belongs to the chapter of the resource (R668). -/

namespace Sys2Proof.Machine

/-- The base that places a source's BIT_SRC_CFG and BIT_SRC_STAT (R685). -/
def bitSrc (n : Nat) : Nat := BIT + 0x1000 * (n / 256) + 4 * (n % 256)

/-- An event of a source as its checker reports it (R666). -/
structure BitEvent where
  src : Nat
  unit : Nat
  detail : Nat
  lasting : Bool
  injected : Bool := false
  real : Bool := false
  counted : Bool := true
  deriving DecidableEq, Repr

/-- The source only ever counts, and is never LASTING (R777). -/
def neverLasting (n : Nat) : Bool := n == 182 || n == 191 || n == 236

/-- The source counts second failures of one unit (R667). -/
def unitSource (n : Nat) : Bool := 128 ≤ n && n ≤ 186

/-- FAULT_N's cause arrives: it is asserted, a new minimum starts and a held RELEASE is cancelled (R672, R673). -/
def State.faultNCause (s : State) (host : Bool) : State :=
  let was := s.on BIT BIT_FAULTN_STAT_ASSERTED
  let s := { s with bit := { s.bit with heldRelease := false } }
  let s := (s.p BIT BIT_FAULTN_STAT_ASSERTED 1).p BIT BIT_FAULTN_STAT_IN_MIN 1
  let s := if host then s.p BIT BIT_FAULTN_STAT_HOST 1 else s
  if was then s else (s.emit (.faultN true)).irq BIT 4

/-- FAULT_N is released. -/
def State.faultNRelease (s : State) : State :=
  (s.p BIT BIT_FAULTN_STAT 0).emit (.faultN false)

/-- A log entry; one that finds 64 entries is discarded and sets OVERFLOW (R671). -/
def State.bitLog (s : State) (e : LogEntry) : State :=
  if 64 ≤ s.bit.log.length then
    if s.on BIT BIT_LOG_STAT_OVERFLOW then s
    else ((s.p BIT BIT_LOG_STAT_OVERFLOW 1).fault BIT 1 true).irq BIT 3
  else
    let was := s.bit.log.length
    let s := { s with bit := { s.bit with log := s.bit.log ++ [e] } }
    (s.p BIT BIT_LOG_STAT_COUNT (was + 1)).irqIf (was == 0) BIT 0

/-- Sources in SEVERE or LASTING, by BIT_SEV. -/
def State.severeCount (s : State) : Nat := ((List.range 512).filter (fun n => s.gBit (BIT + 4 * (n / 32)) BIT_SEV (n % 32))).length

/-- A source's STATE written, with the registers that follow it: BIT_SEV, BIT_TRANS, BIT_STAT, FAULT_SUM. -/
def State.setSrcState (s : State) (n st : Nat) : State :=
  let sev := 2 ≤ st
  let was := s.gBit (BIT + 4 * (n / 32)) BIT_SEV (n % 32)
  let s := s.pBit (BIT + 4 * (n / 32)) BIT_SEV (n % 32) sev
  let s := s.pBit (BIT + 4 * (n / 32)) BIT_TRANS (n % 32) (s.g (bitSrc n) BIT_SRC_STAT_COUNT != 0)
  let s := if sev && st != s.g (bitSrc n) BIT_SRC_STAT_STATE then s.count { cls := 11, ev := 1 } else s
  let s := s.p (bitSrc n) BIT_SRC_STAT_STATE st
  let s := if sev && !was then s.p BIT BIT_STAT (s.g BIT BIT_STAT + 1)
           else if !sev && was then s.p BIT BIT_STAT (s.g BIT BIT_STAT - 1) else s
  s.fault BIT 0 (s.g BIT BIT_STAT != 0)

/-- The counted events of a source still in its window (R666). -/
def State.srcEvents (s : State) (n : Nat) : List CountedEvent :=
  s.bit.events.filter (fun (e : CountedEvent) => e.src == n && s.time.ms < e.ms + s.g (bitSrc n) BIT_SRC_CFG_W && e.ms ≤ s.time.ms)

/-- The counted events of a source replaced, and COUNT with them. -/
def State.setSrcEvents (s : State) (n : Nat) (l : List CountedEvent) : State :=
  let s := { s with bit := { s.bit with events := s.bit.events.filter (fun (e : CountedEvent) => e.src != n) ++ l } }
  s.p (bitSrc n) BIT_SRC_STAT_COUNT (min l.length 256)

/-- A source counts an event: the window, the restart on another unit (R667), UNIT. -/
def State.countEvent (s : State) (n unit : Nat) : State :=
  let l := s.srcEvents n
  let keep : List CountedEvent := if unitSource n && (l.getLast?.map (fun (e : CountedEvent) => e.unit != unit)).getD false then [] else l
  let s := s.setSrcEvents n (keep ++ [⟨n, s.time.ms, unit⟩])
  s.p (bitSrc n) BIT_SRC_STAT_UNIT unit

/-- Entry into SEVERE or LASTING: the interrupt and FAULT_N as the source's configuration says (R672, R686). -/
def State.severeEntry (s : State) (n : Nat) : State :=
  let s := s.irqIf (s.on (bitSrc n) BIT_SRC_CFG_IRQ_SEVERE) BIT 1
  if s.on (bitSrc n) BIT_SRC_CFG_FAULTN_EN then s.faultNCause false else s

/-- An event of a source, and whether it asks for the switch-over of R90: always on entry to LASTING, and on entry to
SEVERE with severe action 0 (R668). -/
def State.bitEvent (s : State) (e : BitEvent) : State × Bool :=
  if srcReserved e.src then (s, false)
  else
    let b := bitSrc e.src
    let lasting := e.lasting && !neverLasting e.src
    let s := s.addSat b BIT_SRC_STAT_TOTAL 1
    let s := s.p b BIT_SRC_STAT_INJ_LAST (b2n e.injected)
    let old := s.g b BIT_SRC_STAT_STATE
    let entry (k : Nat) : LogEntry := ⟨e.src, k, e.injected, e.real, e.detail, s.time⟩
    if lasting then
      let s := (s.setSrcState e.src 3).bitLog (entry 2)
      if old = 3 then (s, false) else (s.severeEntry e.src, true)
    else
      let s := if e.counted then (s.countEvent e.src e.unit).count { cls := 11, ev := 0 } else s
      let s := if s.on b BIT_SRC_CFG_LOG_TRANSIENT then s.bitLog (entry 0) else s
      let s := s.irqIf (s.on b BIT_SRC_CFG_IRQ_TRANSIENT) BIT 2
      let n := s.g b BIT_SRC_STAT_COUNT
      if e.counted && old < 2 && s.g b BIT_SRC_CFG_N_M1 < n then
        let s := ((s.setSrcState e.src 2).bitLog (entry 1)).severeEntry e.src
        (s, !s.on b BIT_SRC_CFG_SEV_ACTION)
      else (s.setSrcState e.src (if 2 ≤ old then old else b2n (n != 0)), false)

/-- An event whose switch-over, where one falls due, is sw. -/
def State.report (s : State) (e : BitEvent) (sw : State → State) : State :=
  let r := s.bitEvent e
  if r.2 then sw r.1 else r.1

/-- An event of a source without a switch-over of its own. -/
def State.reportOnly (s : State) (src detail : Nat) : State := (s.bitEvent { src := src, unit := 0, detail := detail, lasting := false }).1

/-- What a check meets: it fails or not, its retry fails or not, and what an injection did (R676, R680, R681). -/
structure Check where
  fails : Bool
  retryFails : Bool
  injected : Bool
  real : Bool
  counted : Bool
  deriving DecidableEq, Repr

/-- An armed injection acts on this check of a source and unit. -/
def State.armedFor (s : State) (src unit : Nat) : Bool :=
  s.g BIT BIT_INJ_STAT_STATE == 1 && s.g BIT BIT_INJ_CFG_SOURCE == src && s.g BIT BIT_INJ_CFG_UNIT == unit

/-- A check of a source's unit, with its true outcome and that of its retry: an armed injection inverts the check bits
and fires (R675–R680). -/
def State.check (s : State) (src unit : Nat) (fails retryFails : Bool) : Check × State :=
  if s.armedFor src unit then
    let both := s.g BIT BIT_INJ_CFG_MODE == 2
    let counted := s.on BIT BIT_INJ_CFG_COUNTED
    let s := ((s.p BIT BIT_INJ_STAT_STATE 2).p BIT BIT_INJ_STAT_REAL (b2n fails)).irq BIT 5
    (⟨true, (fails && retryFails) || both, true, fails, counted⟩, s)
  else (⟨fails, retryFails, false, false, true⟩, s)

/-- A check and the event it raises where it fails, with the switch-over sw where one falls due. -/
def State.checkReport (s : State) (src unit evUnit detail : Nat) (fails retryFails : Bool) (sw : State → State) : Check × State :=
  let (c, s) := s.check src unit fails retryFails
  (c, if c.fails then s.report ⟨src, evUnit, detail, c.retryFails, c.injected, c.real, c.counted⟩ sw else s)

/-! ### Commands on Bittern's own registers -/

/-- A self-test that runs ends ABORTED (R683). -/
def State.testAbort (s : State) : State :=
  if s.g BIT BIT_TEST_STAT_STATE = 1 then (s.p BIT BIT_TEST_STAT_STATE 4).irq BIT 6 else s

/-- A self-test of a kind and target gives way. -/
def State.testYield (s : State) (kind index : Nat) : State :=
  if s.g BIT BIT_TEST_CFG_KIND = kind ∧ s.g BIT BIT_TEST_CFG_INDEX = index then s.testAbort else s

/-- BIT_FAULTN_CTRL.RELEASE: held during the minimum (R673). -/
def State.faultNReleaseWrite (s : State) : State :=
  if !s.on BIT BIT_FAULTN_STAT_ASSERTED then s
  else if s.on BIT BIT_FAULTN_STAT_IN_MIN then { s with bit := { s.bit with heldRelease := true } }
  else s.faultNRelease

/-- BIT_SRC_CLEAR with GO: STATE to QUIET and COUNT to 0 (R669). -/
def State.srcClear (s : State) (n : Nat) : State :=
  if srcReserved n then s else (s.setSrcEvents n []).setSrcState n 0

/-- BIT_LOG_CTRL: POP takes the oldest entry away, CLR_OVF clears OVERFLOW. -/
def State.bitLogPop (s : State) : State :=
  let l := s.bit.log.drop 1
  { s with bit := { s.bit with log := l } }.p BIT BIT_LOG_STAT_COUNT l.length

def State.bitLogClrOvf (s : State) : State := (s.p BIT BIT_LOG_STAT_OVERFLOW 0).fault BIT 1 false

/-- The writes of BIT_FAULTN_CTRL, BIT_SRC_CLEAR, BIT_LOG_CTRL by value. -/
def State.faultNCtrl (s : State) (v : Nat) : State :=
  if bitOf v 1 then s.faultNCause true else if bitOf v 0 then s.faultNReleaseWrite else s

def State.srcClearWrite (s : State) (v : Nat) : State := if bitOf v 31 then s.srcClear (fld v 0 9) else s

def State.bitLogCtrl (s : State) (v : Nat) : State :=
  let s := if bitOf v 0 then s.bitLogPop else s
  if bitOf v 1 then s.bitLogClrOvf else s

/-- SRC_CLEAR (R669). -/
def execSrcClear (source : Nat) (s : State) : Host.Outcome State Fault Refusal :=
  let v := source % 512 + 2 ^ 31
  .next (s.hostReg (BIT + 0x110) v (fun s => s.srcClearWrite v))

/-- FAULTN_RELEASE (R673). -/
def execFaultnRelease (s : State) : Host.Outcome State Fault Refusal :=
  .next (s.hostReg (BIT + 0x108) 1 (fun s => s.faultNCtrl 1))

/-- FAULTN_ASSERT (R672). -/
def execFaultnAssert (s : State) : Host.Outcome State Fault Refusal :=
  .next (s.hostReg (BIT + 0x108) 2 (fun s => s.faultNCtrl 2))

/-- FAULTN_MIN_END (R673): the minimum ends, and a held RELEASE takes effect. -/
def execFaultnMinEnd (s : State) : Host.Outcome State Fault Refusal :=
  .next (if s.on BIT BIT_FAULTN_STAT_IN_MIN then
    let held := s.bit.heldRelease
    let s := { s with bit := { s.bit with heldRelease := false } }.p BIT BIT_FAULTN_STAT_IN_MIN 0
    if held then s.faultNRelease else s
  else s)

/-- LOG_POP (R671): ignored when COUNT is 0. -/
def execLogPop (s : State) : Host.Outcome State Fault Refusal :=
  .next (s.hostReg (BIT + 0x124) 1 (fun s => s.bitLogCtrl 1))

/-- LOG_CLR_OVF (R671). -/
def execLogClrOvf (s : State) : Host.Outcome State Fault Refusal :=
  .next (s.hostReg (BIT + 0x124) 2 (fun s => s.bitLogCtrl 2))

/-- BIT_EVENT_AGE_OUT (R666): events of a source leave its window, so COUNT falls and TRANSIENT may end. -/
def execBitEventAgeOut (source : Fin 512) (s : State) : Host.Outcome State Fault Refusal :=
  .next (if srcReserved source then s else
    let s := s.setSrcEvents source (s.srcEvents source)
    let st := s.g (bitSrc source) BIT_SRC_STAT_STATE
    s.setSrcState source (if 2 ≤ st then st else b2n (s.g (bitSrc source) BIT_SRC_STAT_COUNT != 0)))

end Sys2Proof.Machine
end

