-- ==== Sys2Proof/Machine/Seq.lean ====
section
/-! DEFINITION. The domain sequencer (R707–R709): requests, grants within the rails' budgets, settled segments. What a
domain's end of transition does to its pages is written with the power commands. -/

namespace Sys2Proof.Machine

/-- Rail, segments and step in tenths of an ampere of a domain (R707); rails 0 VDD_FAB, 1 VDD_SRAM, 2 VDD_SD, 4 VDD_HBM_Q. -/
def domSegs (d : Nat) : Nat × Nat × Nat :=
  if d ≤ 191 then (2, 1, 4)
  else if d ≤ 215 then (2, 1, 15)
  else if d ≤ 220 then (0, 8, 60)
  else if d ≤ 224 then (0, 2, 30)
  else if d ≤ 228 then (0, 4, 50)
  else if d ≤ 232 then (0, 2, 40)
  else if d ≤ 236 then (4, 2, 50)
  else if d ≤ 238 then (0, 4, 50)
  else if d = 239 then (0, 1, 20)
  else if d = 240 then (0, 2, 40)
  else (1, 2, 30)

/-- The charges of one segment: (rail, tenths of an ampere); a lane half also steps VDDH_SD. -/
def domCharges (d : Nat) : List (Nat × Nat) :=
  let x := domSegs d
  (x.1, x.2.2) :: (if d ≤ 191 then [(3, 2)] else [])

/-- A domain is on. -/
def State.domOn (s : State) (d : Nat) : Bool := s.gBit (PWR + 4 * (d / 32)) PWR_DOM_ON (d % 32)
def State.setDomOn (s : State) (d : Nat) (v : Bool) : State := s.pBit (PWR + 4 * (d / 32)) PWR_DOM_ON (d % 32) v
def State.setDomPend (s : State) (d : Nat) (v : Bool) : State := s.pBit (PWR + 4 * (d / 32)) PWR_DOM_PEND (d % 32) v

/-- Charges fit in what is left of the rails' budgets. -/
def State.seqFits (s : State) (l : List (Nat × Nat)) : Bool :=
  l.all (fun c => decide (nth 0 s.seq.used c.1 + c.2 ≤ 10 * s.g (PWR + 4 * c.1) PWR_PACE))

def State.seqCharge (s : State) (l : List (Nat × Nat)) : State :=
  { s with seq := { s.seq with used := l.foldl (fun u c => upd u c.1 (· + c.2)) s.seq.used } }

/-- Ready segments are granted in order of request; one that does not fit blocks its rails for the later ones (R708). -/
def State.seqGrantFrom (s : State) (blocked : List Nat) : List SeqMove → List SeqMove × State
  | [] => ([], s)
  | m :: r =>
    let l := domCharges m.dom
    if m.busy || m.left == 0 then
      let x := s.seqGrantFrom blocked r
      (m :: x.1, x.2)
    else if !(l.any (fun c => blocked.contains c.1)) && s.seqFits l then
      let x := ((s.seqCharge l).p PWR PWR_SEQ_STAT_LATEST m.dom).seqGrantFrom blocked r
      ({ m with left := m.left - 1, busy := true } :: x.1, x.2)
    else
      let x := s.seqGrantFrom (l.map (fun c => c.1) ++ blocked) r
      (m :: x.1, x.2)

/-- Domains whose next segment waits for a budget. -/
def State.seqWaiting (s : State) : Nat := (s.seq.moves.filter (fun m => !m.busy)).length

def State.seqGrant (s : State) : State :=
  let x := s.seqGrantFrom [] s.seq.moves
  let s := { x.2 with seq := { x.2.seq with moves := x.1 } }
  s.p PWR PWR_SEQ_STAT_WAITING s.seqWaiting

/-- A domain is requested on or off (R709): at once, or when its transition in progress completes. -/
def State.seqRequest (s : State) (d : Nat) (up : Bool) : State :=
  if s.seq.moves.any (fun m => m.dom == d) then
    { s with seq := { s.seq with later := (d, up) :: s.seq.later.filter (fun x => x.1 != d) } }
  else if s.domOn d = up then s
  else ({ s with seq := { s.seq with moves := s.seq.moves ++ [SeqMove.mk d up (domSegs d).2.1 false] } }.setDomPend d true).seqGrant

/-- A transition completes: PWR_DOM_ON, the interrupt, and the request that waited for it. -/
def State.seqComplete (s : State) (d : Nat) (up : Bool) : State :=
  let later := s.seq.later.find? (fun x => x.1 == d)
  let s := { s with seq := { s.seq with moves := s.seq.moves.filter (fun m => m.dom != d),
                                        later := s.seq.later.filter (fun x => x.1 != d) } }
  let s := ((s.setDomOn d up).setDomPend d false).irq PWR 4
  let s := match later with | some (_, v) => s.seqRequest d v | none => s
  s.seqGrant

/-- A granted segment of a domain settles (R708); the answer says which way a transition completed with it. -/
def State.seqSettle (s : State) (d : Nat) : Option Bool × State :=
  match s.seq.moves.find? (fun m => m.dom == d && m.busy) with
  | none => (none, s)
  | some m =>
    if m.left = 0 then (some m.up, s.seqComplete d m.up)
    else (none, ({ s with seq := { s.seq with moves := s.seq.moves.map (fun (x : SeqMove) => if x.dom = d then { x with busy := false } else x) } }).seqGrant)

/-- A domain's transition has completed, as an event that comes after it shows. -/
def State.seqFinish (s : State) (d : Nat) : State :=
  match s.seq.moves.find? (fun m => m.dom == d) with
  | none => s
  | some m => s.seqComplete d m.up

/-- A new window: every budget unused (R708). -/
def State.seqWindow (s : State) : State := { s with seq := { s.seq with used := [0, 0, 0, 0, 0] } }.seqGrant

end Sys2Proof.Machine
end

