-- ==== Sys2Proof/Machine/Mem.lean ====
section
/-! DEFINITION. HBM as its masters reach it: the regions and where their bytes lie (R459–R465, R410), pseudo-channels
that fail or are out of service (R476–R482, R486), uncorrectable units (R476, R478), refused accesses (R26–R30). -/

namespace Sys2Proof.Machine

/-! ### The region plan -/

/-- A region of the plan: the A and B words of its registers (R488). -/
abbrev Region := Nat × Nat

def Region.size (r : Region) : Nat := fld r.1 16 14
def Region.base (r : Region) : Nat := fld r.1 0 14 * 2 ^ 24
def Region.rowBase (r : Region) : Nat := fld r.2 0 14
def Region.order (r : Region) : Nat := fld r.2 14 2
def Region.stacks (r : Region) : Nat := fld r.2 16 4
def Region.bar2 (r : Region) : Nat := fld r.2 20 2
def Region.isProtected (r : Region) : Bool := bitOf r.2 22
def Region.kind (r : Region) : Nat := fld r.2 24 2

/-- The stacks of a stack set, in ascending order. -/
def Region.stackList (r : Region) : List Nat := (List.range 4).filter (fun i => bitOf r.stacks i)

/-- ROWS = 4 × SIZE / n (R461). -/
def Region.rows (r : Region) : Nat := 4 * r.size / max 1 r.stackList.length

/-- Bytes of device addresses (R461). -/
def Region.span (r : Region) : Nat :=
  if r.kind = 3 then 0 else if r.isProtected then r.size * 7 * 2 ^ 21 else r.size * 2 ^ 24

def Region.has (r : Region) (a : Nat) : Bool := decide (r.base ≤ a) && decide (a < r.base + r.span)

/-- The region registers as the host has written them. -/
def State.regionRegs (s : State) : List Region :=
  (List.range 16).map (fun r => (s.rd (HBM 0 + 0x1100 + 8 * r), s.rd (HBM 0 + 0x1104 + 8 * r)))

/-- The region of the active plan whose span holds an address. -/
def State.regionAt (s : State) (a : Nat) : Option Nat :=
  (List.range 16).find? (fun r => Region.has (nth (0, 0) s.hbm.plan r) a)

def State.region (s : State) (r : Nat) : Region := nth (0, 0) s.hbm.plan r

/-- The first region of a KIND in the active plan. -/
def State.regionOfKind (s : State) (k : Nat) : Option Region :=
  s.hbm.plan.find? (fun r => r.size != 0 && r.kind == k)

/-! ### Where a byte lies -/

/-- A place in HBM: pseudo-channel, bank, row, 32-byte unit (R459). -/
structure Place where
  g : Nat
  bank : Nat
  row : Nat
  unit : Nat
  deriving DecidableEq, Repr

/-- The member of stripe k that lies at index m (R410), x bytes into its block. -/
def memberPlace (r : Region) (k m x : Nat) : Place :=
  let share := k / 16
  let ch := 2 * (k % 16) + m / 4
  ⟨64 * (m % 4) + 2 * ch + share % 2, 4 * (share / 2 % 16) + x / 1024, r.rowBase + share / 32, x % 1024 / 32⟩

/-- The stripe and the member index of data block d (R410). -/
def blockMember (d : Nat) : Nat × Nat := (d / 7, (d / 7 % 8 + 1 + d % 7) % 8)

/-- The place of offset o of an unprotected region under its ORDER (R462). -/
def unprotectedPlace (r : Region) (o : Nat) : Place :=
  let n := max 1 r.stackList.length
  let st (i : Nat) : Nat := nth 0 r.stackList i
  match r.order with
  | 0 =>
    let q := o / 256
    ⟨64 * st (q % n) + 2 * (q / n % 32) + q / n / 32 % 2, q / n / 256 % 64, r.rowBase + q / n / 256 / 64, q / n / 64 % 4 * 8 + o % 256 / 32⟩
  | 1 =>
    let q := o / 1024
    ⟨64 * st (q % n) + 2 * (q / n % 32) + q / n / 32 % 2, q / n / 64 % 64, r.rowBase + q / n / 64 / 64, o % 1024 / 32⟩
  | _ =>
    let q := o / 4096
    ⟨64 * st (q % n) + 2 * (q / n % 32) + q / n / 32 % 2, 4 * (q / n / 64 % 16) + o / 1024 % 4, r.rowBase + q / n / 64 / 16, o % 1024 / 32⟩

/-- The place of a byte of a region. -/
def Region.place (r : Region) (a : Nat) : Place :=
  let o := a - r.base
  if r.isProtected then
    let (k, m) := blockMember (o / 4096)
    memberPlace r k m (o % 4096)
  else unprotectedPlace r o

/-! ### Pseudo-channels out of service -/

def State.pcFailed (s : State) (g : Nat) : Bool := s.gBit (HBM (g / 64) + 4 * (g % 64 / 32)) HBM_PC_FAIL_LO (g % 32)

/-- The offline pseudo-channel, once drained (R486). -/
def State.pcOffline (s : State) (g : Nat) : Bool := s.hbm.offline == some g && s.on (HBM (g / 64)) HBM_STAT_OFFLINE

def State.pcOut (s : State) (g : Nat) : Bool := s.pcFailed g || s.pcOffline g

/-- A pseudo-channel is in the spare log. -/
def State.spareLogged (s : State) (g : Nat) : Bool :=
  (List.range 8).any (fun k => s.on (HBM 0 + 4 * k) HBM_SPARE_LOG_VALID && s.g (HBM 0 + 4 * k) HBM_SPARE_LOG_G == g)

/-- The pseudo-channel that member u of a failed pseudo-channel relocates to (R479). -/
def spareTarget (g u : Nat) : Nat :=
  let c := g % 64 / 2
  let t := u % 120
  64 * (t % 4) + 2 * (2 * ((c / 2 + 1 + t / 8) % 16) + c % 2) + t / 4 % 2

/-- MiB of protected regions: the members that each pseudo-channel holds (R479). -/
def protectedMiB (plan : List Region) : Nat :=
  plan.foldl (fun n r => if r.isProtected && r.size != 0 then n + 16 * r.size else n) 0

/-- The members of protected regions below region i, in each pseudo-channel. -/
def membersBelow (plan : List Region) (i : Nat) : Nat := protectedMiB (plan.take i)

/-- A member of a protected region can be read from its own place or from its spare (R478–R482, R486). -/
def State.memberLive (s : State) (ri k m : Nat) : Bool :=
  let g := (memberPlace (s.region ri) k m 0).g
  if !s.pcOut g then true
  else if s.pcFailed g then
    let u := membersBelow s.hbm.plan ri + k / 32
    let relocated := s.spareLogged g || (match s.hbm.sparing with | some (g', _) => g' == g && u < s.g (HBM 0) HBM_SPARE_PROG | none => false)
    relocated && !s.pcOut (spareTarget g u)
  else false

/-- Members of a stripe that cannot be read. -/
def State.deadMembers (s : State) (ri k : Nat) : Nat := ((List.range 8).filter (fun m => !s.memberLive ri k m)).length

/-- A byte of a region can be read: in place, relocated or rebuilt (R411, R476, R482, R486). -/
def State.byteLive (s : State) (ri a : Nat) : Bool :=
  let r := s.region ri
  if r.isProtected then
    let (k, m) := blockMember ((a - r.base) / 4096)
    s.memberLive ri k m || s.deadMembers ri k ≤ 1
  else !s.pcOut (r.place a).g

/-- Some pseudo-channel is failed or offline. -/
def State.anyPcOut (s : State) : Bool :=
  s.hbm.offline.isSome || (List.range 4).any (fun k => s.g (HBM k) HBM_PC_FAIL_LO != 0 || s.g (HBM k) HBM_PC_FAIL_HI != 0)

/-- The 256-byte spans that n bytes at a touch: each lies in one pseudo-channel under every ORDER. -/
def spans (a n : Nat) : List Nat := (List.range (n / 256 + 2)).filterMap (fun i =>
  let b := (a / 256 + i) * 256
  if b < a + n then some (max a b) else none)

/-! ### Sparing -/

/-- Slot size in 4 KiB units (R479). -/
def slotUnits (plan : List Region) : Nat := cdiv (protectedMiB plan) 120

/-- Whole slots in the spare share, at most 15 (R479). -/
def slotCount (plan : List Region) : Nat :=
  let rows := (plan.find? (fun r => r.size != 0 && r.kind == 3)).elim 0 Region.rows
  if slotUnits plan = 0 then 0 else min 15 (16 * rows / slotUnits plan)

/-- A slot is free: the spare region has one, and the log of eight has room. -/
def State.slotFree (s : State) : Bool :=
  s.g (HBM 0) HBM_SPARE_STAT_USED < min 8 (s.g (HBM 0) HBM_SPARE_STAT_SLOTS)

/-- The next waiting pseudo-channel's sparing begins, if none runs and a slot is free (R478); one without a slot is
served by rebuild alone (R482). -/
def State.startSparing (s : State) : State :=
  match s.hbm.sparing, s.hbm.waiting with
  | none, g :: rest =>
    if s.slotFree then
      let s := { s with hbm := { s.hbm with sparing := some (g, s.g (HBM 0) HBM_SPARE_STAT_USED), waiting := rest } }
      (s.p (HBM 0) HBM_SPARE_STAT_SPARING 1).p (HBM 0) HBM_SPARE_PROG 0
    else s.fault (HBM 0) 1 true
  | _, _ => s

/-- A pseudo-channel becomes lasting (R478): it is marked failed, an offline one returns to service, and its sparing
begins or waits. -/
def State.pcLasting (s : State) (g : Nat) : State :=
  if s.pcFailed g then s
  else
    let s := s.pBit (HBM (g / 64) + 4 * (g % 64 / 32)) HBM_PC_FAIL_LO (g % 32) true
    let s := (s.irq (HBM (g / 64)) 1).fault (HBM (g / 64)) 0 true
    let s := match s.hbm.offline with
      | some o =>
        if o = g then s else
          let k := o / 64
          let s := s.p (HBM k) HBM_STAT_OFFLINE 0
          let run := nth none s.hbm.helper k == some o && s.on (HBM k) HBM_TRN_RUN_START
          let s := { s with hbm := { s.hbm with offline := none } }
          if run then
            let s := { s with hbm := { s.hbm with helper := upd s.hbm.helper k (fun _ => none) } }
            (((s.p (HBM k) HBM_TRN_RUN_START 0).p (HBM k) HBM_TRN_STAT_DONE 1).p (HBM k) HBM_TRN_STAT_ABORTED 1).irq (HBM k) 4
          else s
      | none => s
    ({ s with hbm := { s.hbm with waiting := s.hbm.waiting ++ [g] } }).startSparing

/-! ### Uncorrectable units -/

/-- DETAIL of an HBM event (R664). -/
def Place.detail (p : Place) : Nat := p.bank + p.row * 64 + p.unit * 2 ^ 20

/-- A unit whose first read was uncorrectable (R476): reread, rebuild and write back where its region is protected, and
the pseudo-channel lasting as R478 says. Whether the access is served is the second component. -/
def State.uncorrectable (s : State) (p : Place) (prot : Bool) (c : Check) (verifyFails : Bool) : State × Bool :=
  let b := HBM (p.g / 64)
  let s := ((((s.p b HBM_ECC_LAST_PC p.g).p b HBM_ECC_LAST_BANK p.bank).p b HBM_ECC_LAST_ROW p.row).p b HBM_ECC_LAST_UNIT p.unit).p b HBM_ECC_LAST_VALID 1
  let s := s.irq b 0
  let lasting := c.retryFails && (!prot || verifyFails)
  let s := s.addSat b (if lasting then HBM_ECC_CNT_LASTING else HBM_ECC_CNT_TRANSIENT) 1
  let s := s.report ⟨256 + p.g, 0, p.detail, lasting, c.injected, c.real, c.counted⟩ (fun s => s.pcLasting p.g)
  (s, !c.retryFails || prot)

/-- A read of a unit with its true check outcome: an armed injection may act (R676). -/
def State.unitRead (s : State) (p : Place) (prot fails rereadFails verifyFails : Bool) : State × Bool :=
  let armed := s.armedFor (256 + p.g) 0
  let both := armed && s.g BIT BIT_INJ_CFG_MODE == 2
  let (c, s) := s.check (256 + p.g) 0 fails rereadFails
  if c.fails then s.uncorrectable p prot c (verifyFails || both) else (s, true)

/-! ### Accesses of device masters -/

/-- What an access of a device master comes to. -/
inductive Access where
  | ok | refused | failed | xlt | waits
  deriving DecidableEq, Repr

/-- A refused access is reported (R27): source 191, DETAIL master and direction. -/
def State.refusedAccess (s : State) (master : Nat) (write : Bool) : State :=
  s.reportOnly 191 (master + 256 * b2n write)

/-- n bytes from an address lie in spans of the active plan (R465). -/
def State.inPlan (s : State) : Nat → Nat → Nat → Bool
  | 0, _, n => n == 0
  | fuel + 1, a, n =>
    if n = 0 then true
    else match s.regionAt a with
      | none => false
      | some r =>
        let e := (s.region r).base + (s.region r).span
        if a + n ≤ e then true else s.inPlan fuel e (a + n - e)

/-- The scheduler class of a master's requests (R469): 0 real-time, 1 normal, 2 background. -/
def State.hbmClass (s : State) (master : Nat) : Nat :=
  if 0x48 ≤ master ∧ master ≤ 0x54 then 0
  else if master = 0x59 then 2
  else if 0x3C ≤ master ∧ master ≤ 0x3F ∧ s.on (HBM 0) HBM_RT_OPT_DISPLAY then 0
  else if 0x44 ≤ master ∧ master ≤ 0x47 ∧ s.on (HBM 0) HBM_RT_OPT_ST2110 then 0
  else 1

/-- The 32-byte units of an access counted, stack by stack (R716, class 2): ev 0 read, 1 written; with them the row hits and
activations that it makes, whose numbers the manual leaves to the schedulers. -/
def State.hbmCount (s : State) (ev master a n : Nat) : State :=
  if !s.on CNT CNT_CTRL_RUN || n == 0 then s
  else
    let units := (List.range ((a + n - 1) / 32 + 1 - a / 32)).map (fun i => 32 * (a / 32 + i))
    let where_ := units.map (fun x => (s.regionAt x).elim 4 (fun r => ((s.region r).place x).g / 64))
    forN 4 s (fun k s =>
      let m := (where_.filter (fun x => x == k)).length
      if m = 0 then s
      else
        let e : CntEvent := { cls := 2, ev := ev, inst := some k, amount := m, master := some master, addr := some a,
                              sched := some (s.hbmClass master) }
        ((s.count e).freeCount { e with ev := 2, addr := none } (some m)).freeCount { e with ev := 3, addr := none } none)

/-- An access counted that parity rebuilt, with the stack of its first rebuilt span (R411, R716). -/
def State.rebuiltCount (s : State) (master a n : Nat) : State :=
  if !s.anyPcOut then s
  else match (spans a n).find? (fun x => (s.regionAt x).any (fun ri => (s.region ri).isProtected &&
      let q := blockMember ((x - (s.region ri).base) / 4096)
      !s.memberLive ri q.1 q.2)) with
    | some x => s.count { cls := 2, ev := 6, inst := (s.regionAt x).map (fun ri => ((s.region ri).place x).g / 64), master := some master, addr := some a }
    | none => s

/-- Where an armed injection would act among the pseudo-channels of n bytes at a (R676). -/
def State.injectedPlace (s : State) (a n : Nat) : Option (Place × Bool) :=
  if s.g BIT BIT_INJ_STAT_STATE != 1 || s.g BIT BIT_INJ_CFG_SOURCE < 256 then none
  else
    ((spans a n).find? (fun x => (s.regionAt x).any (fun r => ((s.region r).place x).g + 256 == s.g BIT BIT_INJ_CFG_SOURCE))).bind
      (fun x => (s.regionAt x).map (fun r => ((s.region r).place x, (s.region r).isProtected)))

/-- A read of HBM by a device master. -/
def State.hbmMasterRead (s : State) (master a n : Nat) : Access × List Byte × State :=
  if !(a + n ≤ s.installed && s.inPlan 17 a n) then (.refused, [], s.refusedAccess master false)
  else
    let (s, served) := match s.injectedPlace a n with
      | some (p, prot) => s.unitRead p prot false false false
      | none => (s, true)
    let dead := s.anyPcOut && (spans a n).any (fun x => (s.regionAt x).any (fun r => !s.byteLive r x))
    if served && !dead then (.ok, s.hbmRead a n, (s.hbmCount 0 master a n).rebuiltCount master a n)
    else (.failed, List.replicate n 0xFF, s)

/-- The bytes of a write that land: those of an unprotected place out of service are discarded (R482, R486). -/
def State.hbmStore (s : State) (a : Nat) (l : List Byte) : State :=
  if !s.anyPcOut then s.hbmWrite a l
  else (List.range l.length).foldl (fun s i =>
    let x := a + i
    if (s.regionAt x).any (fun r => !(s.region r).isProtected && s.pcOut ((s.region r).place x).g) then s
    else s.hbmWrite x (slice l i 1)) s

/-- A write of HBM by a device master. -/
def State.hbmMasterWrite (s : State) (master a : Nat) (l : List Byte) : Access × State :=
  if !(a + l.length ≤ s.installed && s.inPlan 17 a l.length) then (.refused, s.refusedAccess master true)
  else (.ok, (s.hbmStore a l).hbmCount 1 master a l.length)

/-! ### BAR2 (R29–R31) -/

/-- What BAR2 may do at an address: 0 none, 1 read, 2 read and write (R30). A protected region being zeroed reads 0 and
takes no write (R467). -/
def State.bar2Attr (s : State) (a : Nat) : Nat := (s.regionAt a).elim 0 (fun r => (s.region r).bar2)

def State.bar2Zeroing (s : State) (a : Nat) : Bool := (s.regionAt a).any (fun r => s.hbm.zeroing.contains r)

end Sys2Proof.Machine
end

