-- ==== Sys2Proof/Machine/Hbm.lean ====
section
/-! DEFINITION. The commands of the HBM interfaces (13_hbm.md): the region plan, wake and go, refresh, scrubbing,
sparing, training helpers and pseudo-channels out of service. -/

namespace Sys2Proof.Machine

/-- A write to a register of a block refused with cause 0x4. -/
def State.refuse4 (s : State) (off : Nat) : State := s.refuse off 4

/-! ### The region plan -/

/-- Two regions overlap in device addresses. -/
def spansOverlap (x y : Region) : Bool :=
  x.span != 0 && y.span != 0 && decide (x.base < y.base + y.span) && decide (y.base < x.base + x.span)

/-- Two regions share a stack and overlap in rows. -/
def rowsOverlap (x y : Region) : Bool :=
  (x.stacks &&& y.stacks) != 0 && decide (x.rowBase < y.rowBase + y.rows) && decide (y.rowBase < x.rowBase + x.rows)

/-- Rows available to regions: all but the training row (R460). -/
def State.planRows (s : State) : Nat := if s.part.variantH then 16383 else 12287

/-- A region's codes are valid (R466, reason 0x1). -/
def regionCodesOk (r : Region) : Bool :=
  let special := r.kind != 0
  [1, 2, 4, 8, 3, 12, 15].contains r.stacks && r.order != 3 && r.bar2 != 3 &&
  (!(r.isProtected || special) || (r.stacks == 15 && r.order == 2)) &&
  (!(r.kind == 1 || r.kind == 2) || r.isProtected) && (!(r.kind == 3) || !r.isProtected) &&
  (!special || r.bar2 == 0)

/-- The first broken rule of R466 and the first region that breaks it, taken in ascending order; (0, 0) where none is
broken. -/
def State.planCheck (s : State) (plan : List Region) : Nat × Nat :=
  let reg (i : Nat) : Region := nth (0, 0) plan i
  let present (i : Nat) : Bool := (reg i).size != 0
  let earlier (i : Nat) (p : Region → Region → Bool) : Bool := (List.range i).any (fun j => present j && p (reg i) (reg j))
  let first (p : Nat → Bool) : Option Nat := (List.range 16).find? (fun i => present i && p i)
  let tsqLive := s.enabled TSQ || s.busy TSQ
  let rules : List (Option Nat) := [
    first (fun i => !regionCodesOk (reg i)),
    first (fun i => (reg i).kind != 0 && earlier i (fun x y => x.kind == y.kind)),
    first (fun i => decide (s.installed < (reg i).base + (reg i).span) || earlier i spansOverlap),
    first (fun i => decide (s.planRows < (reg i).rowBase + (reg i).rows) || earlier i rowsOverlap),
    (List.range 16).find? (fun i =>
      let old := s.region i
      tsqLive && old.size != 0 && (old.kind == 1 || old.kind == 2) && reg i != old),
    (List.range 16).find? (fun i =>
      let old := nth (0, 0) s.hbm.prior i
      let held (r : Region) : Bool := r.size != 0 && (r.isProtected || r.kind == 3)
      s.g (HBM 0) HBM_SPARE_STAT_USED != 0 && (held old || held (reg i)) && reg i != old),
    first (fun i => !(reg i).isProtected && (reg i).kind != 3 &&
      (reg i).stackList.any (fun k => s.g (HBM k) HBM_PC_FAIL_LO != 0 || s.g (HBM k) HBM_PC_FAIL_HI != 0)),
    if s.hbm.sparing.isSome || !s.hbm.zeroing.isEmpty || s.hbm.offline.isSome then some 0 else none]
  match (rules.zipIdx).find? (fun x => x.1.isSome) with
  | some (some i, n) => (n + 1, i)
  | _ => (0, 0)

/-- A plan has protected regions and no slot to spare a pseudo-channel into (R466). -/
def noSlot (plan : List Region) : Bool := protectedMiB plan != 0 && slotCount plan == 0

/-- A write of HBM_PLAN_CTRL.APPLY (R466). -/
def State.planApply (s : State) : State :=
  let b := HBM 0
  if s.g b HBM_PLAN_STAT_STATE != 0 then s.refuse4 (b + 0x1180)
  else
    let plan := s.regionRegs
    let (reason, region) := s.planCheck plan
    let s := (s.p b HBM_PLAN_STAT_REASON reason).p b HBM_PLAN_STAT_REGION region
    if reason ≠ 0 then (s.p b HBM_PLAN_STAT_LAST_OK 0).irq b 5
    else
      let s := ((s.p b HBM_PLAN_STAT_LAST_OK 1).p b HBM_PLAN_STAT_NO_SLOT (b2n (noSlot plan))).fault b 2 (noSlot plan)
      (s.p b HBM_PLAN_STAT_STATE 1).p b HBM_PLAN_CTRL_APPLY 1

/-- STATE returns to IDLE. -/
def State.planDone (s : State) : State :=
  ((s.p (HBM 0) HBM_PLAN_STAT_STATE 0).p (HBM 0) HBM_PLAN_CTRL_APPLY 0).irq (HBM 0) 5

/-- The plan is installed in one step (R467): protected regions that it adds or changes read zero, added unprotected
ones hold undefined bytes, and failed pseudo-channels without a spare are spared (R480). -/
def State.planInstall (s : State) : State :=
  let plan := s.regionRegs
  let changed := (List.range 16).filter (fun i => nth (0, 0) plan i != nth (0, 0) s.hbm.prior i)
  let live := changed.filter (fun i => Region.size (nth (0, 0) plan i) != 0)
  let zero := live.filter (fun i => Region.isProtected (nth (0, 0) plan i))
  let s := { s with hbm := { s.hbm with plan := plan, prior := plan, zeroing := zero } }
  let s := live.foldl (fun s i =>
    let r : Region := nth (0, 0) plan i
    if r.span = 0 then s else s.hbmSpan r.base r.span r.isProtected) s
  let s := (s.p (HBM 0) HBM_SPARE_SLOT (slotUnits plan)).p (HBM 0) HBM_SPARE_STAT_SLOTS (slotCount plan)
  let s := s.startSparing
  if zero.isEmpty then s.planDone else s.p (HBM 0) HBM_PLAN_STAT_STATE 2

/-- HBM_PLAN_APPLY (R466). -/
def execHbmPlanApply (s : State) : Host.Outcome State Fault Refusal :=
  .next (s.hostReg (HBM 0 + 0x1180) 1 State.planApply)

/-- HBM_PLAN_DRAINED (R467). -/
def execHbmPlanDrained (s : State) : Host.Outcome State Fault Refusal :=
  .next (if s.g (HBM 0) HBM_PLAN_STAT_STATE = 1 then s.planInstall else s)

/-- ZEROING_END (R467). -/
def execZeroingEnd (s : State) : Host.Outcome State Fault Refusal :=
  .next (if s.g (HBM 0) HBM_PLAN_STAT_STATE = 2 then { s with hbm := { s.hbm with zeroing := [] } }.planDone else s)

/-! ### Refresh, scrubbing, sparing -/

/-- REFRESH_DUE (R472): traffic tells what is queued for the bank: 0 nothing, 1 normal requests, 2 a real-time one. -/
def execRefreshDue (g : Fin 256) (bank : Fin 64) (traffic : Fin 3) (s : State) : Host.Outcome State Fault Refusal :=
  let b := HBM (g / 64)
  let key := 64 * g.val + bank.val
  let debt := Sparse.get (fun _ => 0) s.hbm.debt key
  let set (s : State) (d : Nat) : State := { s with hbm := { s.hbm with debt := Sparse.put (fun _ => 0) s.hbm.debt key d } }
  .next (
    if traffic = 2 then
      let s := (s.addSat b HBM_REF_CNT_POSTPONED 1).count { cls := 2, ev := 4, inst := some (g.val / 64) }
      if 8 ≤ debt + 1 then (set s 7).addSat b HBM_REF_CNT_FORCED 1 else set s (debt + 1)
    else if traffic = 0 then set s 0 else s)

/-- HBM_SCRUB (R477): a unit is read. found: 0 sound, 1 corrected and written back, 2 uncorrectable with a clean reread,
3 uncorrectable twice; verifyFails: the read after the write-back of R476 fails. -/
def execHbmScrub (g : Fin 256) (bank : Fin 64) (row : Nat) (unit : Fin 32) (found : Fin 4) (verifyFails : Bool) (s : State) :
    Host.Outcome State Fault Refusal :=
  let p : Place := ⟨g, bank, row, unit⟩
  let prot := (s.hbm.plan.find? (fun (r : Region) => r.size != 0 && decide (r.rowBase ≤ row) && decide (row < r.rowBase + r.rows) &&
    bitOf r.stacks (g / 64))).any Region.isProtected
  .next (
    if s.pcOut g || s.g (HBM (g / 64)) HBM_SCRUB_CFG_PERIOD == 0 then s
    else if found = 1 then (s.addSat (HBM (g / 64)) HBM_ECC_CNT_CORRECTED 1).count { cls := 2, ev := 5, inst := some (g.val / 64) }
    else (s.unitRead p prot (2 ≤ found.val) (found == 3) verifyFails).1)

/-- Members of the sparing that stay behind because their target is itself failed (R481). -/
def State.unspared (s : State) (g n : Nat) : Nat :=
  (List.range 120).foldl (fun k t => if s.pcFailed (spareTarget g t) then k + (n + 119 - t) / 120 else k) 0

/-- SPARING_END (R480, R481). -/
def execSparingEnd (s : State) : Host.Outcome State Fault Refusal :=
  .next (match s.hbm.sparing with
    | none => s
    | some (g, slot) =>
      let b := HBM 0
      let n := protectedMiB s.hbm.plan
      let left := s.unspared g n
      let used := s.g b HBM_SPARE_STAT_USED
      let s := (s.p (b + 4 * used) HBM_SPARE_LOG_G g).p (b + 4 * used) HBM_SPARE_LOG_SLOT slot
      let s := s.p (b + 4 * used) HBM_SPARE_LOG_VALID 1
      let s := (s.p b HBM_SPARE_STAT_USED (used + 1)).p b HBM_SPARE_STAT_SPARING 0
      let s := (s.addSat b HBM_SPARE_STAT_UNSPARED left).p b HBM_SPARE_PROG n
      let s := if left = 0 then s else s.fault b 1 true
      ({ s with hbm := { s.hbm with sparing := none } }.irq b 2).startSparing)

/-! ### Wake, go and training -/

/-- HBM_WAKE (R473, R488). -/
def execHbmWake (k : Fin 4) (s : State) : Host.Outcome State Fault Refusal :=
  .next (s.hostReg (HBM k + 0x100) 1 (fun s => (s.p (HBM k) HBM_CTRL_WAKE 1).p (HBM k) HBM_STAT_IN_SR 0))

/-- HBM_WAKE_DONE (R488): the stack is idle. -/
def execHbmWakeDone (k : Fin 4) (s : State) : Host.Outcome State Fault Refusal :=
  .next (if s.on (HBM k) HBM_CTRL_WAKE then
    { s with hbm := { s.hbm with woken := upd s.hbm.woken k (fun _ => true) } }.p (HBM k) HBM_CTRL_WAKE 0 else s)

/-- HBM_CTRL.GO (R483): refused before WAKE completes (R488). -/
def State.hbmGo (s : State) (k : Nat) : State :=
  if nth false s.hbm.woken k && !s.on (HBM k) HBM_CTRL_WAKE then (s.p (HBM k) HBM_CTRL_GO 1).p (HBM k) HBM_STAT_READY 1
  else s.refuse4 (HBM k + 0x100)

/-- HBM_GO (R483, R488). -/
def execHbmGo (k : Fin 4) (s : State) : Host.Outcome State Fault Refusal :=
  .next (s.hostReg (HBM k + 0x100) 2 (fun s => s.hbmGo k))

/-- The pseudo-channel that HBM_TRN_SEL selects. -/
def State.trnSel (s : State) (k : Nat) : Nat := 64 * k + 2 * s.g (HBM k) HBM_TRN_SEL_CHANNEL + s.g (HBM k) HBM_TRN_SEL_PC

/-- HBM_TRN_RUN.START: refused after READY on a pseudo-channel that is not offline (R486). -/
def State.helperStart (s : State) (k : Nat) : State :=
  if s.on (HBM k) HBM_TRN_RUN_START then s
  else if s.on (HBM k) HBM_STAT_READY && !s.pcOffline (s.trnSel k) then s.refuse4 (HBM k + 0x158)
  else
    let s := { s with hbm := { s.hbm with helper := upd s.hbm.helper k (fun _ => some (s.trnSel k)) } }
    ((s.p (HBM k) HBM_TRN_RUN_START 1).p (HBM k) HBM_TRN_STAT_DONE 0).p (HBM k) HBM_TRN_STAT_ABORTED 0

/-- HELPER_RUN_START (R483, R486). -/
def execHelperRunStart (k : Fin 4) (s : State) : Host.Outcome State Fault Refusal :=
  .next (s.hostReg (HBM k + 0x158) 1 (fun s => s.helperStart k))

/-- HELPER_RUN_END (R483): the lanes in error, bit l for lane l, and the bit errors. -/
def execHelperRunEnd (k : Fin 4) (lanes errors : Nat) (s : State) : Host.Outcome State Fault Refusal :=
  let b := HBM k
  .next (if s.on b HBM_TRN_RUN_START then
    let s := { s with hbm := { s.hbm with helper := upd s.hbm.helper k (fun _ => none) } }
    let s := ((s.p b HBM_TRN_ERR_LO lanes).p b HBM_TRN_ERR_HI (lanes / 2 ^ 32)).p b HBM_TRN_CNT (min errors (2 ^ 32 - 1))
    (((s.p b HBM_TRN_RUN_START 0).p b HBM_TRN_STAT_DONE 1).p b HBM_TRN_STAT_ABORTED 0).irq b 4
  else s)

/-- The key of a delay: 256 g + 64 kind + lane. -/
def delayKey (g kind lane : Nat) : Nat := 256 * g + 64 * kind + lane

/-- HBM_TRN_DLY applied to the selected pseudo-channel at once (R488): lane 63 is every lane, the command-address delay
has none. -/
def State.trnDelay (s : State) (k : Nat) : State :=
  let kind := s.g (HBM k) HBM_TRN_DLY_KIND
  let lane := s.g (HBM k) HBM_TRN_DLY_LANE
  let v := s.g (HBM k) HBM_TRN_DLY_VALUE
  let lanes := if kind = 0 then [0] else if lane = 63 then List.range 38 else [lane]
  let put (l : List (Nat × Nat)) : List (Nat × Nat) :=
    lanes.foldl (fun l x => Sparse.put (fun _ => 0) l (delayKey (s.trnSel k) kind x) v) l
  { s with hbm := { s.hbm with trained := put s.hbm.trained, delays := put s.hbm.delays } }

/-- TRN_DELAY_WRITE (R488). -/
def execTrnDelayWrite (k : Fin 4) (v : Word) (s : State) : Host.Outcome State Fault Refusal :=
  .next (s.hostReg (HBM k + 0x154) v.toNat (fun s => (s.plainWrite (HBM k + 0x154) v.toNat).trnDelay k))

/-- HBM_CAL_UPDATE (R485): each delay of a pseudo-channel in service moves to the centre that the sweep finds; a drift
of more than 8 steps from the trained value is recorded. -/
def execHbmCalUpdate (g : Fin 256) (kind : Fin 3) (moves : List (Nat × Nat)) (s : State) : Host.Outcome State Fault Refusal :=
  let b := HBM (g / 64)
  .next (if s.pcOut g then s else moves.foldl (fun s m =>
    let key := delayKey g kind m.1
    let t := Sparse.get (fun _ => 0) s.hbm.trained key
    let s := { s with hbm := { s.hbm with delays := Sparse.put (fun _ => 0) s.hbm.delays key (min m.2 127) } }
    if t + 8 < min m.2 127 ∨ min m.2 127 + 8 < t then
      (((s.p b HBM_CAL_STAT_PC (g % 64)).p b HBM_CAL_STAT_LANE m.1).p b HBM_CAL_STAT_VALID 1).irq b 3
    else s) s)

/-! ### Pseudo-channels out of service -/

/-- HBM_PC_CTRL OFFLINE (R486). -/
def State.pcOfflineWrite (s : State) (k pc : Nat) : State :=
  let g := 64 * k + pc
  if s.hbm.offline == some g then s
  else if s.hbm.offline.isSome || s.hbm.sparing.isSome || !s.hbm.waiting.isEmpty || s.g (HBM 0) HBM_SPARE_STAT_UNSPARED != 0 then
    s.refuse4 (HBM k + 0x140)
  else ({ s with hbm := { s.hbm with offline := some g } }.p (HBM k) HBM_STAT_OFFLINE_PC pc).p (HBM k) HBM_STAT_OFFLINE 0

/-- HBM_PC_CTRL ONLINE (R486). -/
def State.pcOnlineWrite (s : State) (k pc : Nat) : State :=
  if s.hbm.offline == some (64 * k + pc) then
    { s with hbm := { s.hbm with offline := none } }.p (HBM k) HBM_STAT_OFFLINE 0
  else s

/-- HBM_PC_CTRL DECLARE_FAILED (R478): the pseudo-channel is lasting, a LASTING event of its source (R666). -/
def State.declareFailed (s : State) (k pc : Nat) : State :=
  let g := 64 * k + pc
  (s.bitEvent { src := 256 + g, unit := 0, detail := 0, lasting := true }).1.pcLasting g

/-- A write of HBM_PC_CTRL by value. -/
def State.pcCtrl (s : State) (k v : Nat) : State :=
  match fld v 8 2 with
  | 1 => s.pcOfflineWrite k (fld v 0 6)
  | 2 => s.pcOnlineWrite k (fld v 0 6)
  | 3 => s.declareFailed k (fld v 0 6)
  | _ => s

/-- PC_OFFLINE (R486). -/
def execPcOffline (k : Fin 4) (pc : Fin 64) (s : State) : Host.Outcome State Fault Refusal :=
  .next (s.hostReg (HBM k + 0x140) (0x100 + pc) (fun s => s.pcOfflineWrite k pc))

/-- PC_ONLINE (R486). -/
def execPcOnline (k : Fin 4) (pc : Fin 64) (s : State) : Host.Outcome State Fault Refusal :=
  .next (s.hostReg (HBM k + 0x140) (0x200 + pc) (fun s => s.pcOnlineWrite k pc))

/-- DECLARE_FAILED (R478). -/
def execDeclareFailed (k : Fin 4) (pc : Fin 64) (s : State) : Host.Outcome State Fault Refusal :=
  .next (s.hostReg (HBM k + 0x140) (0x300 + pc) (fun s => s.declareFailed k pc))

/-- PC_OFFLINE_DRAINED (R486). -/
def execPcOfflineDrained (k : Fin 4) (s : State) : Host.Outcome State Fault Refusal :=
  .next (match s.hbm.offline with
    | some g => if g / 64 = k then s.p (HBM k) HBM_STAT_OFFLINE 1 else s
    | none => s)

end Sys2Proof.Machine
end

