-- ==== Sys2Proof/Machine/Xlt.lean ====
section
/-! DEFINITION. Address translation (18_translation_dma.md): the caches, the four-level walk (R628–R631), ATS
(R632–R635), page requests (R637–R641), fault records (R642), and the accesses of device masters to HBM and to host
memory through it. -/

namespace Sys2Proof.Machine

/-- The translation cache of a master (R623). -/
def xltGroup (m : Nat) : Nat :=
  if m < 0x20 then 0 else if m < 0x30 then 1 else if m < 0x38 then 2 else if m < 0x3C then 3 else if m < 0x40 then 4 else 5

/-- The registers of address space a (R658). -/
def asBase (a : Nat) : Nat := XLT + 0x10 * a

/-- The mode in which a space acts: ATS mode acts as OFF while ATS Enable is 0 (R626, R635). -/
def State.asMode (s : State) (a : Nat) : Nat :=
  let m := s.g (asBase a) XLT_AS_CFG_MODE
  if m = 2 ∧ !s.on XLT XLT_STAT_ATS_EN then 0 else m

/-- A request, walk or page request of the space is in flight (R627). -/
def State.asBusy (s : State) (a : Nat) : Bool :=
  s.xlt.requests.any (fun r => r.asid == a) || s.xlt.ats.any (fun r => r.asid == a)

/-! ### Fault records -/

/-- A fault record (R642). -/
def State.faultRecord (s : State) (kind : Nat) (w : Waiter) (asid index : Nat) : State :=
  let n := 2 ^ s.g XLT XLT_FLT_CFG_LOG2
  let tail := s.g XLT XLT_FLT_TAIL
  if n ≤ (tail + 2 ^ 32 - s.g XLT XLT_FLT_HEAD) % 2 ^ 32 then (s.addSat XLT XLT_FLT_DROP 1).irq XLT 3
  else
    let flags := b2n w.write + 2 * b2n (s.g (asBase asid) XLT_AS_CFG_MODE == 1) + 4 * b2n (s.on (asBase asid) XLT_AS_CFG_PASID_EN)
    let body := leBytes 1 kind ++ leBytes 1 w.master ++ leBytes 1 asid ++ leBytes 1 flags ++ leBytes 2 index ++ zeros 2 ++
      leBytes 8 (w.addr % 2 ^ 48) ++ s.time.bytes
    let rec_ := body ++ leBytes 4 (crc32c body)
    let s := s.hbmStore (s.g64 XLT XLT_FLT_BASE_LO + 32 * (tail % n)) rec_
    (s.p XLT XLT_FLT_TAIL (inc32 tail)).irq XLT 0

/-! ### The walk -/

/-- What a walk finds: an output page, a fault of a kind, or an absent page and whether it asks for a page request. -/
inductive Walk where
  | page (out size : Nat) (rd wr : Bool)
  | fault (kind : Nat)
  | absent (prq : Bool)
  deriving DecidableEq, Repr

/-- A table may stand here: in installed HBM, outside the take-store and journal regions (R627, R629). -/
def State.tableOk (s : State) (a : Nat) : Bool :=
  a + 4096 ≤ s.installed && (match s.regionAt a with
    | some r => (s.region r).kind != 1 && (s.region r).kind != 2
    | none => true)

/-- The walk from a table at a level, down to level 1 (R628, R629). -/
def State.walkFrom (s : State) (x : Nat) : Nat → Nat → Walk
  | 0, _ => .fault 3
  | level + 1, table =>
    if !s.tableOk table then .fault 3
    else
      let e := s.hbmNum (table + 8 * fld x (12 + 9 * level) 9) 8
      if !bitOf e 0 then .absent (bitOf e 5)
      else
        let leaf := bitOf e 3
        let reserved := fld e 6 2 != 0 || fld e 10 2 != 0 || fld e 52 12 != 0 || (level != 0 && bitOf e 4)
        let addr := fld e 12 40 * 4096
        if reserved then .fault 3
        else if level = 0 then
          if !leaf then .fault 3
          else if bitOf e 4 then
            if fld addr 12 4 ≠ fld x 12 4 then .fault 3
            else .page (addr / 2 ^ 16 * 2 ^ 16) (2 ^ 16) (bitOf e 1) (bitOf e 2)
          else .page addr 4096 (bitOf e 1) (bitOf e 2)
        else if leaf then
          if level = 1 then (if fld addr 12 9 ≠ 0 then .fault 3 else .page addr (2 ^ 21) (bitOf e 1) (bitOf e 2))
          else .fault 3
        else s.walkFrom x level addr

/-- The table entries that a walk reads. -/
def State.walkReads (s : State) (x : Nat) : Nat → Nat → Nat
  | 0, _ => 0
  | level + 1, table =>
    if !s.tableOk table then 0
    else
      let e := s.hbmNum (table + 8 * fld x (12 + 9 * level) 9) 8
      1 + (if bitOf e 0 && !bitOf e 3 then s.walkReads x level (fld e 12 40 * 4096) else 0)

/-- The walk of an address in a LOCAL space (R628). -/
def State.walk (s : State) (asid x : Nat) : Walk := s.walkFrom x 4 (s.g64 (asBase asid) XLT_AS_ROOT_LO)

/-! ### Caches -/

def Xlation.covers (e : Xlation) (group asid x : Nat) : Bool :=
  e.group == group && e.asid == asid && decide (e.base ≤ x) && decide (x < e.base + e.size)

/-- A translation enters its group's cache of 1,024 entries, the least recently used leaving (R624). -/
def State.cacheAdd (s : State) (e : Xlation) : State :=
  let c := s.xlt.cache.filter (fun o => !(o.group == e.group && o.asid == e.asid && o.base == e.base && o.size == e.size))
  let own := c.filter (fun o => o.group == e.group)
  let c := if own.length < 1024 then c else
    match own with
    | [] => c
    | o :: _ => c.filter (fun x => x != o)
  { s with xlt := { s.xlt with cache := c ++ [e] } }

/-- Cached translations in a scope are dropped. -/
def State.cacheDrop (s : State) (p : Xlation → Bool) : State :=
  { s with xlt := { s.xlt with cache := s.xlt.cache.filter (fun e => !p e) } }

/-! ### Counted events (R716, R717) -/

/-- A space is a user's (R717). -/
def State.asUser (s : State) (asid : Nat) : Bool :=
  if asid < 32 then s.gBit CNT CNT_ASID_PRIV_LO asid else s.gBit CNT CNT_ASID_PRIV_HI (asid - 32)

/-- An event of class XLT. -/
def State.xltCount (s : State) (ev asid : Nat) (w : Waiter) : State :=
  s.count { cls := 3, ev := ev, inst := some (xltGroup w.master), master := some w.master, addr := some (2 ^ 63 + w.addr),
            user := some (s.asUser asid) }

/-- Payload bytes between the device and the host: ev 0 sent, 1 received. -/
def State.hostCount (s : State) (ev : Nat) (master asid : Option Nat) (n : Nat) : State :=
  if n = 0 then s
  else s.count { cls := 4, ev := ev, amount := n, master := master, user := some (asid.any s.asUser) }

/-! ### Page requests and faults -/

/-- A fault of a kind reaches a master (R643). -/
def State.xltFault (s : State) (kind : Nat) (w : Waiter) (asid : Nat) : State := s.faultRecord kind w asid 0xFFFF

/-- A fault is left for the master's next access to the page. -/
def State.leaveFault (s : State) (kind : Nat) (w : Waiter) (asid index : Nat) : State :=
  let s := s.faultRecord kind w asid index
  { s with xlt := { s.xlt with faults := s.xlt.faults ++ [(w.master, asid, w.addr / 4096)] } }

/-- The lowest page request index that is free (R637). -/
def State.freeIndex (s : State) : Option Nat :=
  (List.range 512).find? (fun i => !s.xlt.requests.any (fun r => r.index == i))

/-- A page absent from its space asks the host for it: an outstanding request is joined, a free index raises a new one,
and with none the access waits (R637, R638). -/
def State.pageRequest (s : State) (asid : Nat) (w : Waiter) (ats : Bool) : State :=
  let page := w.addr / 4096
  if s.xlt.requests.any (fun r => r.asid == asid && r.page == page && !r.timedOut) then
    { s with xlt := { s.xlt with requests := s.xlt.requests.map (fun r =>
        if r.asid == asid && r.page == page && !r.timedOut && !r.waiters.contains w then { r with waiters := r.waiters ++ [w] } else r) } }
  else match s.freeIndex with
    | none => s
    | some i =>
      let s := { s with xlt := { s.xlt with requests := s.xlt.requests ++ [(⟨i, asid, page, ats, [w], false⟩ : PageReq)] } }
      let s := (s.p XLT XLT_STAT_PRQ_OUT s.xlt.requests.length).xltCount 3 asid w
      let s := s.faultRecord 9 w asid i
      if ats then s.emit (.pageRequest asid page i) else s.irq XLT 1

/-- How often page requests for a page have ended SUCCESS since it was last found (R639). -/
def State.resolvedCount (s : State) (asid page : Nat) : Nat :=
  (s.xlt.resolved.find? (fun r => r.1 == asid && r.2.1 == page)).elim 0 (fun r => r.2.2)

def State.setResolved (s : State) (asid page n : Nat) : State :=
  let l := s.xlt.resolved.filter (fun r => !(r.1 == asid && r.2.1 == page))
  { s with xlt := { s.xlt with resolved := if n = 0 then l else l ++ [(asid, page, n)] } }

/-- A page is absent: a page request where the space may raise one and two have not yet failed to bring it, else a
fault of the given kind (R631, R633, R639). -/
def State.pageAbsent (s : State) (asid : Nat) (w : Waiter) (may ats : Bool) (kind : Nat) : Access × State :=
  let page := w.addr / 4096
  if !may then (.xlt, s.xltFault kind w asid)
  else if 2 ≤ s.resolvedCount asid page then (.xlt, (s.setResolved asid page 0).xltFault 1 w asid)
  else (.waits, s.pageRequest asid w ats)

/-- A translation found: the page is cached, or the access lacks its permission (R631). -/
def State.pageFound (s : State) (asid : Nat) (w : Waiter) (out size : Nat) (rd wr : Bool) : Access × Nat × State :=
  let s := s.setResolved asid (w.addr / 4096) 0
  if if w.write then wr else rd then
    (.ok, out + w.addr % size, s.cacheAdd ⟨xltGroup w.master, asid, w.addr / size * size, size, out, rd, wr⟩)
  else (.xlt, 0, s.xltFault 2 w asid)

/-- A walk of a LOCAL space, with the true outcome of its table reads: a first read that stays uncorrectable is walked
again, and a second failure is a fault of kind WALK (R631, R88). -/
def State.walkAccess (s : State) (asid : Nat) (w : Waiter) (tableErr rewalkErr : Bool) : Access × Nat × State :=
  let (c, s) := s.checkReport 190 0 0 w.master tableErr rewalkErr id
  let s := if c.fails then s.addSat XLT (if c.retryFails then XLT_WALK_ERR_LASTING else XLT_WALK_ERR_TRANSIENT) 1 else s
  if c.fails && c.retryFails then (.xlt, 0, (s.fault XLT 0 true).xltFault 4 w asid)
  else
    let n := s.walkReads w.addr 4 (s.g64 (asBase asid) XLT_AS_ROOT_LO)
    let s := if n = 0 then s else s.count { cls := 3, ev := 2, inst := some (xltGroup w.master), amount := n, master := some w.master }
    match s.walk asid w.addr with
    | .page out size rd wr => s.pageFound asid w out size rd wr
    | .fault k => (.xlt, 0, s.xltFault k w asid)
    | .absent prq =>
      let (a, s) := s.pageAbsent asid w (prq && s.on (asBase asid) XLT_AS_CFG_PRQ_EN) false 1
      (a, 0, s)

/-- A host-memory address of a master translated (R626): ok with the PCIe address, xlt with the fault recorded, or
waits for the host. -/
def State.translate (s : State) (asid : Nat) (w : Waiter) : Access × Nat × State :=
  if !s.masterOn then (.waits, 0, s)
  else if s.xlt.faults.contains (w.master, asid, w.addr / 4096) then
    (.xlt, 0, { s with xlt := { s.xlt with faults := s.xlt.faults.erase (w.master, asid, w.addr / 4096) } })
  else if s.asMode asid = 0 ∨ s.asMode asid = 3 then (.xlt, 0, s.xltFault 5 w asid)
  else
    let g := xltGroup w.master
    let s := s.xltCount 0 asid w
    match s.xlt.cache.find? (fun e => e.covers g asid w.addr && (if w.write then e.wr else e.rd)) with
    | some e => (.ok, e.out + (w.addr - e.base), (s.cacheAdd e).addSat (XLT + 8 * g) XLT_HIT 1)
    | none =>
      let s := (s.addSat (XLT + 8 * g) XLT_MISS 1).xltCount 1 asid w
      if s.asMode asid = 1 then s.walkAccess asid w false false
      else if s.xlt.requests.any (fun r => r.asid == asid && r.page == w.addr / 4096 && !r.timedOut) then
        (.waits, 0, s.pageRequest asid w true)
      else if s.xlt.ats.any (fun r => r.asid == asid && r.page == w.addr / 4096 && r.waiter == w) then (.waits, 0, s)
      else (.waits, 0, { s with xlt := { s.xlt with ats := s.xlt.ats ++ [(⟨asid, w.addr / 4096, w, false⟩ : AtsReq)] } }.emit
        (.atsRequest asid (w.addr / 4096) (!w.write)))

/-! ### Accesses of device masters -/

/-- The pieces of n bytes at a that lie in one 4 KiB page each. -/
def pagePieces (a n : Nat) : List (Nat × Nat) := (List.range (n / 4096 + 2)).filterMap (fun i =>
  let lo := max a ((a / 4096 + i) * 4096)
  let hi := min (a + n) ((a / 4096 + i + 1) * 4096)
  if lo < hi then some (lo, hi - lo) else none)

/-- Every piece translated in ascending order, stopping at the first that is not found. -/
def State.translateAll (s : State) (asid master : Nat) (write : Bool) : List (Nat × Nat) → Access × List (Nat × Nat) × State
  | [] => (.ok, [], s)
  | (a, n) :: r =>
    match s.translate asid ⟨master, a, write⟩ with
    | (.ok, pa, s) =>
      match s.translateAll asid master write r with
      | (.ok, l, s) => (.ok, (pa, n) :: l, s)
      | x => x
    | (x, _, s) => (x, [], s)

/-- The region of the device address space that an access falls in (R26, R27): 0 HBM, 1 registers, 2 host memory; none
outside the valid ranges. -/
def addrRegion (a n : Nat) : Option Nat :=
  if n = 0 then none
  else if a + n ≤ 2 ^ 38 then some 0
  else if 2 ^ 62 ≤ a ∧ a + n ≤ 2 ^ 62 + 2 ^ 26 then some 1
  else if 2 ^ 63 ≤ a ∧ a + n ≤ 2 ^ 63 + 2 ^ 48 then some 2
  else none

/-- A read by a device master other than a DMA channel's of registers: HBM, or host memory in an address space. -/
def State.masterRead (s : State) (master asid a n : Nat) : Access × List Byte × State :=
  match addrRegion a n with
  | some 0 => s.hbmMasterRead master a n
  | some 2 =>
    match s.translateAll asid master false (pagePieces (a % 2 ^ 48) n) with
    | (.ok, l, s) => (.ok, l.flatMap (fun x => s.hostRead x.1 x.2), s.hostCount 1 (some master) (some asid) n)
    | (x, _, s) => (x, [], s)
  | _ => (.refused, [], s.refusedAccess master false)

/-- Bytes stored piece by piece. -/
def State.hostStoreAll (s : State) : List (Nat × Nat) → List Byte → State
  | [], _ => s
  | (pa, n) :: r, l => (s.hostWrite pa (l.take n)).hostStoreAll r (l.drop n)

/-- A write by a device master. -/
def State.masterWrite (s : State) (master asid a : Nat) (l : List Byte) : Access × State :=
  match addrRegion a l.length with
  | some 0 => s.hbmMasterWrite master a l
  | some 2 =>
    match s.translateAll asid master true (pagePieces (a % 2 ^ 48) l.length) with
    | (.ok, ps, s) => (.ok, (s.hostStoreAll ps l).hostCount 0 (some master) (some asid) l.length)
    | (x, _, s) => (x, s)
  | _ => (.refused, s.refusedAccess master true)

/-! ### Commands -/

/-- An access that a row names waits at its master until the row is given again; a fault is left for it. -/
def State.settle (s : State) (asid : Nat) (w : Waiter) (r : Access) : State :=
  if r = .xlt then { s with xlt := { s.xlt with faults := s.xlt.faults ++ [(w.master, asid, w.addr / 4096)] } } else s

/-- The size of page that a range of 2^k bytes is cached as (R633). -/
def atsPage (k : Nat) : Nat := if 21 ≤ k then 2 ^ 21 else if 16 ≤ k then 2 ^ 16 else 4096

/-- An ATS completion for one request: the base of the translated range, its log2 size, the permissions; none for UR,
CA or a timeout (R633). -/
def State.atsComplete (s : State) (r : AtsReq) (c : Option (Nat × Nat × Bool × Bool)) : State :=
  let s := { s with xlt := { s.xlt with ats := s.xlt.ats.erase r } }
  if r.stale then { s with xlt := { s.xlt with ats := s.xlt.ats ++ [{ r with stale := false }] } }.emit (.atsRequest r.asid r.page (!r.waiter.write))
  else match c with
    | none => s.leaveFault 8 r.waiter r.asid 0xFFFF
    | some (base, k, rd, wr) =>
      if if r.waiter.write then wr else rd then
        let size := atsPage k
        let out := base / 2 ^ k * 2 ^ k + r.waiter.addr % 2 ^ k
        (s.setResolved r.asid r.page 0).cacheAdd
          ⟨xltGroup r.waiter.master, r.asid, r.waiter.addr / size * size, size, out / size * size, rd, wr⟩
      else
        let may := s.on (asBase r.asid) XLT_AS_CFG_PRQ_EN && s.on XLT XLT_STAT_PRI_EN && !s.on XLT XLT_STAT_PRI_STOPPED
        let (a, s) := s.pageAbsent r.asid r.waiter may true 2
        s.settle r.asid r.waiter a

/-- TRANSLATION_WALK_END (R629, R633): in a LOCAL space the walk for a master's access, with what its table reads met;
in an ATS space the completion of the requests for the page. -/
def execTranslationWalkEnd (master : Nat) (asid : Fin 64) (addr : Nat) (write tableErr rewalkErr : Bool)
    (completion : Option (Nat × Nat × Bool × Bool)) (s : State) : Host.Outcome State Fault Refusal :=
  let w : Waiter := ⟨master, addr % 2 ^ 48, write⟩
  .next (
    if s.asMode asid = 1 then
      let (r, _, s) := s.walkAccess asid w tableErr rewalkErr
      s.settle asid w r
    else (s.xlt.ats.filter (fun r => r.asid == asid.val && r.page == w.addr / 4096)).foldl (fun s r => s.atsComplete r completion) s)

/-- A page request ends (R639): on FAILURE every waiting access faults. A response after the timeout only frees the
index (R640). -/
def State.resolveRequest (s : State) (r : PageReq) (success : Bool) : State :=
  let s := { s with xlt := { s.xlt with requests := s.xlt.requests.filter (fun x => x.index != r.index) } }
  let s := s.p XLT XLT_STAT_PRQ_OUT s.xlt.requests.length
  if r.timedOut then s
  else if success then s.setResolved r.asid r.page (s.resolvedCount r.asid r.page + 1)
  else r.waiters.foldl (fun s w => s.leaveFault 6 w r.asid r.index) s

/-- A write of XLT_PRQ_RESP (R638): refused for an index that is not outstanding in LOCAL mode. -/
def State.prqResponse (s : State) (v : Nat) : State :=
  match s.xlt.requests.find? (fun r => r.index == fld v 0 9 && !r.ats) with
  | none => s.refuse4 (XLT + 0x120)
  | some r => s.resolveRequest r (fld v 16 2 == 1)

/-- A PRG Response (R638): 0 Success, 1 Invalid Request, 2 Response Failure. -/
def State.prgResponse (s : State) (index code : Nat) : State :=
  if code = 2 then
    let s := (s.xlt.requests.filter (fun r => r.ats)).foldl (fun s r => s.resolveRequest r false) s
    ((s.p XLT XLT_STAT_PRI_STOPPED 1).fault XLT 1 true).irq XLT 4
  else match s.xlt.requests.find? (fun r => r.index == index && r.ats) with
    | none => s
    | some r => s.resolveRequest r (code == 0)

/-- PRQ_TIMEOUT (R640, R738). -/
def execPrqTimeout (index : Fin 512) (s : State) : Host.Outcome State Fault Refusal :=
  .next (match s.xlt.requests.find? (fun r => r.index == index.val && !r.timedOut) with
    | none => s
    | some r =>
      if !s.masterOn then s
      else
        let s := r.waiters.foldl (fun s w => s.leaveFault 7 w r.asid r.index) s
        { s with xlt := { s.xlt with requests := s.xlt.requests.map (fun x =>
            if x.index = r.index then { x with waiters := [], timedOut := true } else x) } })

/-- ATS_INVALIDATE (R634): the translations of a range of a space leave the caches, and requests for it that are in
flight will be sent again. -/
def execAtsInvalidate (asid : Fin 64) (addr size : Nat) (s : State) : Host.Outcome State Fault Refusal :=
  let s := s.cacheDrop (fun e => e.asid == asid.val && decide (e.base < addr + size) && decide (addr < e.base + e.size))
  .next { s with xlt := { s.xlt with ats := s.xlt.ats.map (fun r =>
    if r.asid == asid.val && decide (r.page * 4096 < addr + size) && decide (addr < (r.page + 1) * 4096) then { r with stale := true } else r) } }

/-- A write of XLT_INV_CTRL (R636). -/
def State.xltInvalidate (s : State) (v : Nat) : State :=
  if !bitOf v 31 then s
  else if s.on XLT XLT_INV_STAT_PENDING then s.refuse4 (XLT + 0x12C)
  else
    let lo := s.g64 XLT XLT_INV_ADDR_LO % 2 ^ 48
    let pages := s.g XLT XLT_INV_PAGES
    let scope := if fld v 8 2 = 2 ∧ 65536 < pages then 1 else fld v 8 2
    let inScope (e : Xlation) : Bool :=
      scope == 0 || (e.asid == fld v 0 6 && (scope == 1 || (decide (e.base < lo + 4096 * pages) && decide (lo < e.base + e.size))))
    (s.cacheDrop (fun e => s.g (asBase e.asid) XLT_AS_CFG_MODE == 1 && inScope e)).p XLT XLT_INV_STAT_PENDING 1

/-- XLT_INVALIDATE (R636). -/
def execXltInvalidate (scope : Fin 3) (asid : Fin 64) (s : State) : Host.Outcome State Fault Refusal :=
  let v := asid.val + 256 * scope.val + 2 ^ 31
  .next (s.hostReg (XLT + 0x12C) v (fun s => s.xltInvalidate v))

/-- XLT_INV_DONE (R636). -/
def execXltInvDone (s : State) : Host.Outcome State Fault Refusal :=
  .next (if s.on XLT XLT_INV_STAT_PENDING then (s.p XLT XLT_INV_STAT_PENDING 0).irq XLT 2 else s)

/-- ATS_ENABLE_CHANGE (R635): without ATS Enable no translation of an ATS space stays. -/
def execAtsEnableChange (enable : Bool) (s : State) : Host.Outcome State Fault Refusal :=
  let s := s.p XLT XLT_STAT_ATS_EN (b2n enable)
  .next (if enable then s else
    let s := s.cacheDrop (fun e => s.g (asBase e.asid) XLT_AS_CFG_MODE == 2)
    { s with xlt := { s.xlt with ats := [] } })

/-- PRI_RESET (R638), with the PRI Enable that the capability is left with. -/
def execPriReset (enable : Bool) (s : State) : Host.Outcome State Fault Refusal :=
  .next (((s.p XLT XLT_STAT_PRI_STOPPED 0).fault XLT 1 false).p XLT XLT_STAT_PRI_EN (b2n enable))

/-- A warm reset fails every page request without telling the masters and clears the caches; an FLR clears the
requests (R641). -/
def State.xltReset (s : State) (flr : Bool) : State :=
  let s := { s with xlt := ⟨[], if flr then [] else s.xlt.requests.filterMap (fun (r : PageReq) =>
    if r.ats then some { r with waiters := [], timedOut := true } else none), [], [], []⟩ }
  s.p XLT XLT_STAT_PRQ_OUT s.xlt.requests.length

end Sys2Proof.Machine
end

