-- ==== Sys2Proof/Machine/TakeStore.lean ====
section
/-! DEFINITION. The take store (12_take_store.md): blocks and stripes (R409–R413), areas (R414–R424), the journal
(R425–R428), command slots from submission to completion (R429–R448), power states and recovery (R449–R455). -/

namespace Sys2Proof.Machine

/-- A wrapper for updates of the take store's own state. -/
def State.setTsq (s : State) (f : TsqState → TsqState) : State := { s with tsq := f s.tsq }

/-! ### Blocks -/

def State.storeBase (s : State) : Nat := s.g64 TSQ TSQ_STORE_BASE_LO

/-- Data blocks of the store (R410). -/
def State.storeBlocks (s : State) : Nat := 7 * s.g TSQ TSQ_STORE_STRIPES

/-- The device address of data block d. -/
def State.blockAddr (s : State) (d : Nat) : Nat := s.storeBase + 4096 * d

/-- How block d of a protected region reads: 0 in place or relocated, 1 rebuilt, 2 unrecoverable (R411, R413). -/
def State.blockReads (s : State) (ri d : Nat) : Nat :=
  let (k, m) := blockMember d
  if !s.anyPcOut || s.memberLive ri k m then 0 else if s.deadMembers ri k ≤ 1 then 1 else 2

/-- The number of the active plan's region of a KIND. -/
def State.kindIndex (s : State) (k : Nat) : Nat :=
  ((List.range 16).find? (fun i => (s.region i).size != 0 && (s.region i).kind == k)).getD 16

/-- How block d of the store reads. -/
def State.storeReads (s : State) (d : Nat) : Nat := s.blockReads (s.kindIndex 1) d

/-- A stripe of the store that a block lies in has lost two members (R444). -/
def State.stripeDead (s : State) (d : Nat) : Bool := s.anyPcOut && 1 < s.deadMembers (s.kindIndex 1) (d / 7)

/-! ### The journal -/

/-- Blocks of the journal ring: seven-eighths of the journal less the header (R425). -/
def State.jnlCapacity (s : State) : Nat := 7 * (s.g TSQ TSQ_JNL_BLOCKS / 8) - 1

def State.jnlFree (s : State) : Nat := s.jnlCapacity - s.tsq.jnl.length

/-- TSQ_JNL_FREE follows the ring, and JNL_LOW rises when it falls below TSQ_JNL_RES (R458). -/
def State.jnlSync (s : State) : State :=
  let was := s.g TSQ TSQ_JNL_FREE
  let s := s.p TSQ TSQ_JNL_FREE s.jnlFree
  let res := s.g TSQ TSQ_JNL_RES
  s.irqIf (res ≤ was && s.jnlFree < res) TSQ 6

def State.nextJsn (s : State) : Nat := s.g64 TSQ TSQ_JNL_NEXT_LO

/-- An entry joins the open block of the ring, or opens the next. -/
def jnlPush (l : List JBlock) (e : JEntry) : List JBlock :=
  match l.getLast? with
  | some b =>
    if !b.closed && b.entries.length < 64 then l.dropLast ++ [{ b with entries := b.entries ++ [e] }]
    else l ++ [⟨[e], none, false⟩]
  | none => [⟨[e], none, false⟩]

/-- A journal entry is written, durable, with the next JSN (R425). -/
def State.jnlAppend (s : State) (type : Nat) (fields : List Nat) : State :=
  let j := s.nextJsn
  let s := s.setTsq (fun t => { t with jnl := jnlPush t.jnl ⟨j, type, fields, false⟩ })
  (s.p64 TSQ TSQ_JNL_NEXT_LO (j + 1)).jnlSync

/-- The data of a WRITE entry follow the block that holds the entry, one JSN a block (R425). -/
def State.jnlData (s : State) (csn n : Nat) : State :=
  let s := s.setTsq (fun t => { t with jnl := (match t.jnl.getLast? with | some b => t.jnl.dropLast ++ [{ b with closed := true }] | none => []) ++ List.replicate n ⟨[], some csn, true⟩ })
  (s.p64 TSQ TSQ_JNL_NEXT_LO (s.nextJsn + n)).jnlSync

/-- The 64 bytes of an entry (R426); the places of its fields are the manual's to give. -/
def JEntry.bytes (e : JEntry) : List Byte :=
  let all := (if e.moved then 0x0A else e.type) :: e.jsn :: e.fields
  let body := leBytes 1 (if e.moved then 0x0A else e.type) ++ zeros 7 ++ leBytes 8 e.jsn ++
    (List.range 44).map (fun i => Config.jnlByte all i)
  body ++ leBytes 4 (crc32c body)

/-- A command's WRITE data wait for their APPLIED entry. -/
def State.writeLive (s : State) (csn : Nat) : Bool := s.tsq.cmds.any (fun c => c.csn == csn && c.entry && !c.applied)

/-- An entry is live (R427). -/
def State.jnlLive (s : State) (e : JEntry) : Bool :=
  let f (i : Nat) : Nat := nth 0 e.fields i
  match e.type with
  | 1 => (nth ⟨0, 0, 0, 0, 0, []⟩ s.tsq.areas (f 0)).tail < f 2 + f 3
  | 2 => s.tsq.cmds.any (fun c => c.csn == f 0 && c.done.isNone)
  | 3 => s.writeLive (f 0)
  | 5 => s.tsq.lastCsn < f 0 + 1024
  | 7 => !(s.tsq.jnl.any (fun b => b.entries.any (fun x => x.type == 7 && nth 0 x.fields 0 == f 0 && decide (e.jsn < x.jsn))))
  | 0xB => nth 0 s.tsq.abnClr (f 0) ≤ e.jsn
  | _ => false

/-- JOURNAL_RECLAIM (R427): the oldest block is freed, its live entries and the data they need carried forward. -/
def State.jnlReclaim (s : State) : State :=
  match s.tsq.jnl with
  | [] => s
  | b :: rest =>
    let live := b.entries.filter (fun e => s.jnlLive e)
    let data := b.data.filter (fun c => s.writeLive c)
    let s := s.setTsq (fun t => { t with jnl := rest })
    let s := live.foldl (fun s e =>
      let j := s.nextJsn
      let orig := if e.moved then e.fields else e.fields ++ [e.jsn, e.type]
      let s := s.setTsq (fun t => { t with jnl := jnlPush t.jnl ⟨j, e.type, orig, true⟩ })
      (s.p64 TSQ TSQ_JNL_NEXT_LO (j + 1)).jnlSync) s
    (match data with | some c => s.jnlData c 1 | none => s).jnlSync

/-- ABANDON runs that waited for a block are written once one is free (R428). -/
def State.abandonFlush (s : State) : State :=
  s.tsq.abnWait.foldl (fun s r =>
    if s.jnlFree = 0 then s
    else (s.setTsq (fun t => { t with abnWait := t.abnWait.erase r })).jnlAppend 0xB [r.1, r.2.1, r.2.2.1, r.2.2.2]) s

/-- The last of the waiting runs of a head, when a frame of the same reason extends it. -/
def extendRun (l : List (Nat × Nat × Nat × Nat)) (h seq reason : Nat) : Option (List (Nat × Nat × Nat × Nat)) :=
  match l.filter (fun r => r.1 == h) with
  | [] => none
  | x :: rest =>
    let r := (x :: rest).getLastD x
    if r.2.2.1 + 1 = seq ∧ r.2.2.2 = reason then some (l.map (fun y => if y = r then (h, r.2.1, seq, reason) else y)) else none

/-- A run of abandoned frames that a head's abandon log could not take (R85, R428). -/
def State.jnlAbandon (s : State) (h first last reason : Nat) : State :=
  if s.jnlFree = 0 then
    match (if first = last then extendRun s.tsq.abnWait h first reason else none) with
    | some l => s.setTsq (fun t => { t with abnWait := l })
    | none => s.setTsq (fun t => { t with abnWait := t.abnWait ++ [(h, first, last, reason)] })
  else s.jnlAppend 0xB [h, first, last, reason]

/-! ### Commands with a CSN -/

namespace TCmd

def op (c : TCmd) : Nat := fld c.cmd 0 4
def fua (c : TCmd) : Bool := bitOf c.cmd 4
def area (c : TCmd) : Nat := fld c.cmd 6 2
def asid (c : TCmd) : Nat := fld c.cmd 8 6
def isWrite (c : TCmd) : Bool := c.op == 2

/-- The command still holds its slot or write-buffer room. -/
def live (c : TCmd) : Bool := !c.posted || (c.isWrite && c.done.all (fun d => d.code == 0) && !c.applied)

/-- Blocks that a command addresses (R430). -/
def touches (c : TCmd) : Nat × Nat := if c.op = 1 ∨ c.op = 2 ∨ c.op = 5 then (c.blk, c.blk + c.count) else (0, 0)

end TCmd

def rangesMeet (x y : Nat × Nat) : Bool := decide (x.1 < y.2) && decide (y.1 < x.2)

/-- The blocks of area h. -/
def State.areaBlocks (s : State) (h : Nat) : Nat × Nat :=
  let a := nth ⟨0, 0, 0, 0, 0, []⟩ s.tsq.areas h
  (a.base, a.base + a.len)

/-- Two commands share an ordering domain (R436). -/
def State.sameDomain (s : State) (c d : TCmd) : Bool :=
  let barrier (x : TCmd) : Bool := x.op == 3 || x.op == 6 || x.op == 7
  let releases (x y : TCmd) : Bool := x.op == 4 && ((y.op == 4 && x.area == y.area) || rangesMeet y.touches (s.areaBlocks x.area))
  barrier c || barrier d || rangesMeet c.touches d.touches || releases c d || releases d c

def State.cmdOf (s : State) (csn : Nat) : Option TCmd := s.tsq.cmds.find? (fun c => c.csn == csn)

/-- The unposted command that holds a slot. -/
def State.slotCmd (s : State) (slot : Nat) : Option TCmd := s.tsq.cmds.find? (fun c => c.slot == slot && !c.posted)

/-- A command replaced by a function of itself. -/
def State.setCmd (s : State) (csn : Nat) (f : TCmd → TCmd) : State :=
  s.setTsq (fun t => { t with cmds := t.cmds.map (fun c => if c.csn = csn then f c else c) })

/-- The registers of slot n (R456). -/
def slotBase (n : Nat) : Nat := TSQ + 0x1000 * (n / 16) + 0x40 * (n % 16)

/-- A write or release is durable: its entry is, or it ended without one. -/
def TCmd.settled (c : TCmd) : Bool := !(c.op == 2 || c.op == 4) || c.entry || c.done.any (fun d => d.code != 0)

/-- The highest CSN at or below which every write and release is durable (R442). -/
def State.durableCsn (s : State) : Nat :=
  (s.tsq.cmds.filter (fun c => !c.settled)).foldl (fun n c => min n (c.csn - 1)) s.tsq.lastCsn

/-- Write-buffer use and TSQ_DURABLE_CSN, which follow the commands (R439, R442). -/
def State.tsqSync (s : State) : State :=
  let held := s.tsq.cmds.filter (fun c => c.isWrite && c.started && !c.applied && c.done.all (fun d => d.code == 0))
  let wait := s.tsq.cmds.filter (fun c => c.isWrite && c.durable && !c.started && c.done.isNone)
  let s := s.p TSQ TSQ_WB_STAT_USED (held.foldl (fun n c => n + c.count) 0)
  let s := s.p TSQ TSQ_WB_STAT_WAITING (min wait.length 255)
  let s := s.p64 TSQ TSQ_DURABLE_CSN_LO s.durableCsn
  s.setBusy TSQ (s.tsq.cmds.any TCmd.live || s.g TSQ TSQ_RCV_STAT_STATE == 1 || !s.tsq.waiting.isEmpty || !s.tsq.replays.isEmpty)

/-- A command's outcome is decided: its COMPLETE entry is written and the slot reads POSTING (R433). -/
def State.endCmd (s : State) (c : TCmd) (d : Done) : State :=
  if (s.cmdOf c.csn).all (fun c => c.done.isSome) then s
  else
    let s := s.setCmd c.csn (fun c => { c with done := some d })
    let s := s.jnlAppend 5 [c.csn, c.hsn, c.slot, d.code, d.detail, d.result, d.count]
    (s.p (slotBase c.slot) TSQ_SLOT_STAT_STATE 4).tsqSync

/-- A plain outcome. -/
def plainDone (code detail : Nat) : Done := ⟨code, detail, 0, 0⟩

/-- Writes with FUA 1 that are durable with every write and release below them complete DONE (R440). -/
def State.settleFua (s : State) : State :=
  let n := s.durableCsn
  (s.tsq.cmds.filter (fun c => c.isWrite && c.fua && c.entry && c.done.isNone && decide (c.csn ≤ n))).foldl
    (fun s c => s.endCmd c (plainDone 0 0)) s.tsqSync

/-- Everything earlier in its domain has taken effect: decided, or a write whose data both copies hold (R436, R437). -/
def State.domainReady (s : State) (c : TCmd) : Bool :=
  s.tsq.cmds.all (fun d => !(decide (d.csn < c.csn) && s.sameDomain c d) || d.done.isSome || (d.isWrite && d.buffered))

/-- Earlier commands of the domain have been posted (R436). -/
def State.domainPosted (s : State) (c : TCmd) : Bool :=
  s.tsq.cmds.all (fun d => !(decide (d.csn < c.csn) && s.sameDomain c d) || d.posted)

/-! ### The deferred log (R413, R444) -/

def State.defPush (s : State) (d : Deferred) : State :=
  if 16 ≤ s.tsq.defLog.length then s.p TSQ TSQ_DEF_STAT_OVERFLOW 1
  else
    let s := s.setTsq (fun t => { t with defLog := t.defLog ++ [d] })
    s.p TSQ TSQ_DEF_STAT_COUNT s.tsq.defLog.length

/-- An error after a write's completion (R444). -/
def State.deferError (s : State) (c : TCmd) (blk detail : Nat) : State :=
  let s := s.defPush ⟨c.csn, c.hsn, blk, detail⟩
  (s.setTsq (fun t => { t with defSince := t.defSince + 1 })).irq TSQ 3

/-- An unrecoverable block (R413): MEDIUM, the deferred log, source 189. -/
def State.mediumFault (s : State) (c : TCmd) (blk : Nat) : State :=
  let s := (s.fault TSQ 0 true).defPush ⟨c.csn, c.hsn, blk, 3⟩
  (s.bitEvent { src := 189, unit := 0, detail := 0, lasting := true }).1

/-- The journal is lost (R457, R458). -/
def State.journalFault (s : State) : State :=
  let s := (s.p TSQ TSQ_STORE_STAT_JOURNAL_LOST 1).fault TSQ 1 true
  (s.bitEvent { src := 189, unit := 0, detail := 1, lasting := true }).1

def State.defPop (s : State) : State :=
  let s := s.setTsq (fun t => { t with defLog := t.defLog.drop 1 })
  s.p TSQ TSQ_DEF_STAT_COUNT s.tsq.defLog.length

/-- A write of TSQ_DEF_CTRL by value. -/
def State.defCtrl (s : State) (v : Nat) : State :=
  let s := if bitOf v 0 then s.defPop else s
  if bitOf v 1 then s.p TSQ TSQ_DEF_STAT_OVERFLOW 0 else s

/-! ### Power (R449–R451) -/

/-- A Sluice session is open (R552). -/
def State.sessionOpen (s : State) (e t : Nat) : Bool :=
  let st := s.g (ETH e + 0x80 * t) ETH_SES_STAT_STATE
  1 ≤ st && st ≤ 4

def State.anySessionOpen (s : State) : Bool := (List.range 4).any (fun e => (List.range 8).any (fun t => s.sessionOpen e t))

def State.anyIngestLive (s : State) : Bool := (List.range 4).any (fun h => s.enabled (ING h) || s.busy (ING h))

/-- The transition that TARGET asks for begins, unless one runs. -/
def State.pwrStart (s : State) : State :=
  let tgt := s.g TSQ TSQ_PWR_TARGET
  if s.tsq.pwrMove.isSome || tgt == s.g TSQ TSQ_PWR_STAT_NOW then s
  else (s.setTsq (fun t => { t with pwrMove := some tgt })).p TSQ TSQ_PWR_STAT_MOVING 1

/-- A submission or a store access wakes the store (R450). -/
def State.tsqWake (s : State) : State :=
  let now := s.g TSQ TSQ_PWR_STAT_NOW
  if now = 0 ∧ s.tsq.pwrMove.isNone then s
  else
    let s := s.p TSQ TSQ_PWR_TARGET 0
    if now = 0 then (s.setTsq (fun t => { t with pwrMove := none })).p TSQ TSQ_PWR_STAT_MOVING 0
    else (s.setTsq (fun t => { t with pwrMove := some 0 })).p TSQ TSQ_PWR_STAT_MOVING 1

/-- A write of TSQ_PWR (R449, R451). -/
def State.tsqPwrWrite (s : State) (v : Nat) : State :=
  if fld v 0 2 == 2 && (s.anyIngestLive || s.anySessionOpen) then s.refuse4 (TSQ + 0x150)
  else (s.plainWrite (TSQ + 0x150) v).pwrStart

/-! ### Submission (R429–R432, R447) -/

/-- A span lies in one of the take-store and journal regions. -/
def State.inStoreRegions (s : State) (a n : Nat) : Bool :=
  s.hbm.plan.any (fun (r : Region) => r.size != 0 && (r.kind == 1 || r.kind == 2) && decide (a < r.base + r.span) && decide (r.base < a + n))

/-- BUF is valid for n bytes (R431, reason 0x2). -/
def State.bufferOk (s : State) (a n : Nat) : Bool :=
  a % 64 == 0 && (match addrRegion a n with
    | some 0 => decide (a + n ≤ s.installed) && !s.inStoreRegions a n
    | some 2 => true
    | _ => false)

/-- The first broken rule of R431 other than HSN_CONFLICT and FORMAT_BUSY. -/
def State.submitReason (s : State) (c : TCmd) : Nat :=
  let total := s.storeBlocks
  let inStore := decide (c.blk + c.count ≤ total)
  let countIn (n : Nat) : Bool := decide (1 ≤ c.count) && decide (c.count ≤ n)
  let rangeOk : Bool := match c.op with
    | 1 => inStore && countIn 65536
    | 2 => inStore && countIn 256 && (List.range 4).all (fun h => !rangesMeet c.touches (s.areaBlocks h))
    | 4 => (nth ⟨0, 0, 0, 0, 0, []⟩ s.tsq.areas c.area).len != 0
    | 5 => inStore && countIn 16777216
    | 7 => countIn 65536
    | _ => true
  if !rangeOk then 1
  else if (c.op == 1 || c.op == 2 || c.op == 7) && !s.bufferOk c.buf (c.count * (if c.op == 7 then 64 else 4096)) then 2
  else if c.op != 6 && !(s.on TSQ TSQ_STORE_STAT_FORMATTED && !s.on TSQ TSQ_STORE_STAT_GEOM_MISMATCH &&
    !s.on TSQ TSQ_STORE_STAT_JOURNAL_LOST && s.g TSQ TSQ_RCV_STAT_STATE == 2) then 3
  else 0

/-- FORMAT_BUSY (R431, reason 0x5). -/
def State.formatBusy (s : State) (c : TCmd) : Bool :=
  if c.op = 6 then
    s.anyIngestLive || s.anySessionOpen ||
      (List.range 32).any (fun n => n != c.slot && (let st := s.g (slotBase n) TSQ_SLOT_STAT_STATE; st != 0 && st != 5))
  else s.tsq.cmds.any (fun d => d.op == 6 && d.done.isNone)

/-- The command that a slot's registers hold. -/
def State.slotArgs (s : State) (n : Nat) : TCmd :=
  let b := slotBase n
  ⟨0, s.g b TSQ_SLOT_HSN, n, s.g b TSQ_SLOT_CMD, s.g64 b TSQ_SLOT_BLK_LO, s.g b TSQ_SLOT_COUNT, s.g64 b TSQ_SLOT_BUF_LO,
    false, false, false, false, false, [], none, false⟩

/-- The slot is disposed of without a completion of its own. -/
def State.slotEnd (s : State) (n state last reason : Nat) : State :=
  let b := slotBase n
  ((s.p b TSQ_SLOT_STAT_STATE state).p b TSQ_SLOT_STAT_LAST last).p b TSQ_SLOT_STAT_REASON reason

/-- A submission validated (R431, R432, R447). -/
def State.validate (s : State) (n : Nat) : State :=
  let c := s.slotArgs n
  let refuse (s : State) (reason : Nat) : State := (s.slotEnd n 5 2 reason).irq TSQ 1
  let reason := s.submitReason c
  if reason ≠ 0 then refuse s reason
  else match s.tsq.cmds.find? (fun d => d.hsn == c.hsn && decide (s.tsq.lastCsn < d.csn + 1024)) with
    | some d =>
      if !(d.op == c.op && d.fua == c.fua && d.area == c.area && d.blk == c.blk && d.count == c.count) then refuse s 4
      else if d.posted then s.setTsq (fun t => { t with replays := t.replays ++ [(n, d.csn)] })
      else (s.slotEnd n 0 4 0).addSat TSQ TSQ_CNT_DUP_MERGED 1
    | none =>
      if s.formatBusy c then refuse s 5
      else
        let csn := s.tsq.lastCsn + 1
        let s := s.setTsq (fun t => { t with lastCsn := csn, cmds := t.cmds.filter (fun d => d.live || decide (csn < d.csn + 1024)) ++ [{ c with csn := csn }] })
        ((s.p64 (slotBase n) TSQ_SLOT_CSN_LO csn).count { cls := 10, ev := 1 }).tsqSync

/-- A write of TSQ_SLOT_CMD (R429): refused while the slot is in use or TSQ is not enabled. -/
def State.slotSubmit (s : State) (n v : Nat) : State :=
  let b := slotBase n
  let st := s.g b TSQ_SLOT_STAT_STATE
  if !s.enabled TSQ || !(st == 0 || st == 5) then s.refuse4 (b + 0x1100)
  else
    let s := (((s.plainWrite (b + 0x1100) v).tsqWake).p b TSQ_SLOT_STAT_STATE 1).p b TSQ_SLOT_STAT_REASON 0
    (if s.g TSQ TSQ_RCV_STAT_STATE = 1 then s.setTsq (fun t => { t with waiting := t.waiting ++ [n] }) else s.validate n).tsqSync

/-- SLOT_CMD_SUBMIT (R429). -/
def execSlotCmdSubmit (slot : Fin 32) (v : Word) (s : State) : Host.Outcome State Fault Refusal :=
  .next (s.hostReg (slotBase slot + 0x1100) v.toNat (fun s => s.slotSubmit slot v.toNat))

/-- An ACCEPT or WRITE entry is admitted: TSQ_JNL_RES blocks stay free after it (R428). -/
def State.jnlAdmits (s : State) (blocks : Nat) : Bool := s.g TSQ TSQ_JNL_RES + blocks ≤ s.jnlFree

/-- Blocks that the next entry would take from the free ones. -/
def State.entryBlocks (s : State) : Nat :=
  match s.tsq.jnl.getLast? with
  | some b => if !b.closed && b.entries.length < 64 then 0 else 1
  | none => 1

/-- ACCEPT_DURABLE (R432): ACCEPT entries become durable in CSN order. -/
def execAcceptDurable (slot : Fin 32) (s : State) : Host.Outcome State Fault Refusal :=
  .next (match s.slotCmd slot with
    | none => s
    | some c =>
      if c.durable || c.done.isSome || s.tsq.cmds.any (fun d => decide (d.csn < c.csn) && !d.durable && d.done.isNone) ||
          !(c.op == 6 || s.jnlAdmits s.entryBlocks) then s
      else
        let s := s.setCmd c.csn (fun c => { c with durable := true })
        let s := if c.op = 6 then s else s.jnlAppend 2 [c.csn, c.hsn, c.slot, c.cmd, c.blk, c.count]
        (s.p (slotBase slot) TSQ_SLOT_STAT_STATE 2).tsqSync)

/-- A slot's command that may begin or go on: accepted, undecided, of the given OP, its domain ready (R433, R436). -/
def State.runnable (s : State) (slot op : Nat) : Option TCmd :=
  (s.slotCmd slot).filter (fun c => c.durable && c.done.isNone && c.op == op && s.domainReady c)

/-- The slot reads ACTIVE. -/
def State.activate (s : State) (c : TCmd) : State :=
  (s.setCmd c.csn (fun c => { c with started := true })).p (slotBase c.slot) TSQ_SLOT_STAT_STATE 3

/-- NOP (R430). -/
def execSlotNop (slot : Fin 32) (s : State) : Host.Outcome State Fault Refusal :=
  .next (match s.runnable slot 0 with
    | none => s
    | some c => s.endCmd c (plainDone 0 0))

/-- The write that a READ takes a block from (R437): the latest below it that is bound to complete DONE and is not yet
applied. -/
def State.bufferedBlock (s : State) (c : TCmd) (d : Nat) : Option (List Byte) :=
  let l := s.tsq.cmds.filter (fun w => w.isWrite && decide (w.csn < c.csn) && decide (w.blk ≤ d) && decide (d < w.blk + w.count) &&
    w.done.all (fun x => x.code == 0) && w.buffered)
  match l.foldl (fun (b : Option TCmd) w => if b.all (fun x => decide (x.csn < w.csn)) then some w else b) none with
  | some w => if w.applied then none else some (slice w.data (4096 * (d - w.blk)) 4096)
  | none => none

/-- The blocks of a READ in order: the bytes, how many came from the write buffer, and the blocks not recovered. -/
def State.gatherBlocks (s : State) (c : TCmd) : List Byte × Nat × List Nat × State :=
  (List.range c.count).foldl (fun (r : List Byte × Nat × List Nat × State) i =>
    let (l, hits, dead, s) := r
    let d := c.blk + i
    match s.bufferedBlock c d with
    | some b => (l ++ b, hits + 1, dead, s)
    | none =>
      let how := s.storeReads d
      let s := if how = 1 then s.addSat TSQ TSQ_CNT_REBUILT 1 else s
      (l ++ s.hbmRead (s.blockAddr d) 4096, hits, if how = 2 then dead ++ [d] else dead,
        (s.hbmCount 0 0x40 (s.blockAddr d) 4096).rebuiltCount 0x40 (s.blockAddr d) 4096)) ([], 0, [], s)

/-- How a command ends on what an access came to; one that waits goes on later. -/
def State.decideAccess (s : State) (c : TCmd) (a : Access) (ok : Done) : State :=
  match a with
  | .ok => s.endCmd c ok
  | .xlt => s.endCmd c (plainDone 1 1)
  | .refused => s.endCmd c (plainDone 1 2)
  | .failed => s.endCmd c (plainDone 1 2)
  | .waits => s

/-- READ (R437, R443). -/
def execSlotRead (slot : Fin 32) (s : State) : Host.Outcome State Fault Refusal :=
  .next (match s.runnable slot 1 with
    | none => s
    | some c =>
      let (l, hits, dead, s) := (s.activate c).gatherBlocks c
      match dead with
      | _ :: _ => (dead.foldl (fun s d => s.mediumFault c d) s).endCmd c (plainDone 1 3)
      | [] =>
        let (a, s) := s.masterWrite 0x40 c.asid c.buf l
        let s := if a = .ok then s.addSat TSQ TSQ_CNT_HIT hits else s
        s.decideAccess c a ⟨0, 0, 0, hits⟩)

/-- WRITE (R439): the fetch, in CSN order among the writes, once the write buffer has room. -/
def execSlotWrite (slot : Fin 32) (s : State) : Host.Outcome State Fault Refusal :=
  .next (match (s.slotCmd slot).filter (fun c => c.durable && c.done.isNone && c.op == 2) with
    | none => s
    | some c =>
      let first := s.tsq.cmds.all (fun d => !(d.isWrite && decide (d.csn < c.csn)) || d.started || d.done.isSome)
      let barrier := s.tsq.cmds.any (fun d => d.op == 6 && decide (d.csn < c.csn) && d.done.isNone)
      let room := s.g TSQ TSQ_WB_STAT_USED + c.count ≤ 32 * s.g TSQ TSQ_WB_STAT_GRANULES
      if c.buffered || !first || barrier || !(c.started || room) then s
      else
        let (a, l, s) := (s.activate c).masterRead 0x40 c.asid c.buf (4096 * c.count)
        match a with
        | .ok => (s.setCmd c.csn (fun c => { c with data := l })).tsqSync
        | a => (s.decideAccess c a (plainDone 0 0)).tsqSync)

/-- WRITE_BUFFERED (R440): both copies hold the data. -/
def execWriteBuffered (slot : Fin 32) (s : State) : Host.Outcome State Fault Refusal :=
  .next (match (s.slotCmd slot).filter (fun c => c.isWrite && c.done.isNone && c.data.length == 4096 * c.count && !c.buffered) with
    | none => s
    | some c =>
      let s := s.setCmd c.csn (fun c => { c with buffered := true })
      if c.fua then s.tsqSync else s.endCmd c (plainDone 0 0))

/-- WRITE_ENTRY_DURABLE (R440): WRITE entries in CSN order, where the journal admits one; lost: it cannot be made
durable (R444). -/
def execWriteEntryDurable (csn : Nat) (lost : Bool) (s : State) : Host.Outcome State Fault Refusal :=
  .next (match (s.cmdOf csn).filter (fun c => c.isWrite && c.buffered && !c.entry && c.done.all (fun d => d.code == 0)) with
    | none => s
    | some c =>
      let inOrder := s.tsq.cmds.all (fun d => !(d.isWrite && decide (d.csn < csn)) || d.settled)
      if !inOrder then s
      else if lost then
        let s := s.journalFault
        if c.done.isSome then
          ((s.deferError c c.blk 6).setCmd csn (fun c => { c with entry := true, applied := true })).settleFua
        else (s.endCmd c (plainDone 1 6)).settleFua
      else if !s.jnlAdmits (c.count + 1) then s
      else
        let s := s.jnlAppend 3 [c.csn, c.blk, c.count, s.nextJsn + 1, crc32c c.data]
        ((s.jnlData c.csn c.count).setCmd csn (fun c => { c with entry := true })).settleFua)

/-- An in-place update of one write: its blocks receive its data; a stripe that has lost two members is a deferred error
(R440, R444). -/
def State.applyWrite (s : State) (c : TCmd) : State :=
  let s := (s.hbmWrite (s.blockAddr c.blk) c.data).hbmCount 1 0x40 (s.blockAddr c.blk) c.data.length
  let s := match (List.range c.count).find? (fun i => s.stripeDead (c.blk + i)) with
    | some i => (s.fault TSQ 0 true).deferError c (c.blk + i) 3
    | none => s
  (s.jnlAppend 4 [c.csn]).setCmd c.csn (fun c => { c with applied := true })

/-- WRITE_APPLIED (R440): after its entry, earlier overlapping writes, and earlier reads of its blocks. -/
def execWriteApplied (csn : Nat) (s : State) : Host.Outcome State Fault Refusal :=
  .next (match (s.cmdOf csn).filter (fun c => c.isWrite && c.entry && !c.applied) with
    | none => s
    | some c =>
      let free := s.tsq.cmds.all (fun d => !(decide (d.csn < csn) && rangesMeet c.touches d.touches) ||
        d.done.isSome && (!d.isWrite || d.applied || d.done.any (fun x => x.code != 0)) || (d.isWrite && d.applied))
      if free then (s.applyWrite c).tsqSync else s)

/-- FLUSH (R430, R444). -/
def execSlotFlush (slot : Fin 32) (s : State) : Host.Outcome State Fault Refusal :=
  .next (match s.runnable slot 3 with
    | none => s
    | some c =>
      if s.durableCsn + 1 < c.csn then s.activate c
      else
        let n := s.tsq.defSince
        let s := s.setTsq (fun t => { t with defSince := 0 })
        s.endCmd c (if n = 0 then plainDone 0 0 else ⟨1, 4, 0, min n (2 ^ 32 - 1)⟩))

/-- VERIFY (R430): every stripe holding the range is read and checked. -/
def execSlotVerify (slot : Fin 32) (s : State) : Host.Outcome State Fault Refusal :=
  .next (match s.runnable slot 5 with
    | none => s
    | some c =>
      let ri := s.kindIndex 1
      let stripes := (List.range ((c.blk + c.count - 1) / 7 + 1 - c.blk / 7)).map (fun i => c.blk / 7 + i)
      let rebuilt := if s.anyPcOut then (stripes.filter (fun k => s.deadMembers ri k == 1)).length else 0
      let s := (s.activate c).addSat TSQ TSQ_CNT_REBUILT rebuilt
      match (if s.anyPcOut then (List.range c.count).find? (fun i => s.storeReads (c.blk + i) == 2) else none) with
      | some i => (s.mediumFault c (c.blk + i)).endCmd c ⟨1, 3, c.blk + i, rebuilt⟩
      | none => s.endCmd c ⟨0, 0, 2 ^ 64 - 1, rebuilt⟩)

/-- JREAD (R430): entries from the oldest at or above BLK, up to the command's own ACCEPT entry. -/
def execSlotJread (slot : Fin 32) (s : State) : Host.Outcome State Fault Refusal :=
  .next (match s.runnable slot 7 with
    | none => s
    | some c =>
      let all := s.tsq.jnl.flatMap (fun b => b.entries)
      let own := (all.find? (fun e => e.type == 2 && !e.moved && nth 0 e.fields 0 == c.csn)).elim 0 (fun e => e.jsn)
      let l := (all.filter (fun e => decide (c.blk ≤ e.jsn) && decide (e.jsn ≤ own))).take c.count
      let s := s.activate c
      let (a, s) := if l.isEmpty then (Access.ok, s) else s.masterWrite 0x40 c.asid c.buf (l.flatMap JEntry.bytes)
      s.decideAccess c a ⟨0, 0, (l.head?).elim 0 (fun e => e.jsn), l.length⟩)

/-- FORMAT (R430): the initialisation begins. -/
def execSlotFormat (slot : Fin 32) (s : State) : Host.Outcome State Fault Refusal :=
  .next (match s.runnable slot 6 with
    | none => s
    | some c => (s.activate c).p TSQ TSQ_STORE_STAT_FORMATTING 1)

/-- The header that the registers describe. -/
def State.headerRegs (s : State) : Nat × Nat × Nat × Nat :=
  (s.storeBase, s.g TSQ TSQ_STORE_STRIPES, s.g64 TSQ TSQ_JNL_BASE_LO, s.g TSQ TSQ_JNL_BLOCKS)

/-- An area's registers follow it (R456). -/
def State.areaSync (s : State) (h : Nat) : State :=
  let a := nth ⟨0, 0, 0, 0, 0, []⟩ s.tsq.areas h
  let b := TSQ + 0x20 * h
  let s := (s.p b TSQ_AREA_BASE a.base).p b TSQ_AREA_LEN a.len
  let s := (s.p64 b TSQ_AREA_HEAD_LO a.head).p64 b TSQ_AREA_TAIL_LO a.tail
  (s.p b TSQ_AREA_FRAMES a.frames.length).p b TSQ_AREA_FREE (a.len - (a.placement - a.tail))

def State.setArea (s : State) (h : Nat) (f : Area → Area) : State :=
  (s.setTsq (fun t => { t with areas := upd t.areas h f })).areaSync h

def State.area (s : State) (h : Nat) : Area := nth ⟨0, 0, 0, 0, 0, []⟩ s.tsq.areas h

/-- FORMAT_END (R430): zeros with parity, a new header, a FORMAT entry, every area at LEN 0, FORMATTED. -/
def execFormatEnd (s : State) : Host.Outcome State Fault Refusal :=
  .next (match s.tsq.cmds.find? (fun c => c.op == 6 && c.started && c.done.isNone) with
    | none => s
    | some c =>
      let s := s.hbmSpan s.storeBase (7 * 4096 * s.g TSQ TSQ_STORE_STRIPES) true
      let s := s.hbmSpan (s.g64 TSQ TSQ_JNL_BASE_LO) (7 * 512 * s.g TSQ TSQ_JNL_BLOCKS) false
      let s := s.setTsq (fun t => { t with hdr := some s.headerRegs, jnl := [], abnWait := [], areas := List.replicate 4 ⟨0, 0, 0, 0, 0, []⟩, cmds := t.cmds.filter (fun d => d.csn == c.csn || !d.live) })
      let s := (s.p64 TSQ TSQ_JNL_NEXT_LO 1).jnlAppend 9 [s.g TSQ TSQ_STORE_STRIPES, s.g TSQ TSQ_JNL_BLOCKS]
      let s := (((s.areaSync 0).areaSync 1).areaSync 2).areaSync 3
      let s := ((s.p TSQ TSQ_STORE_STAT 1).fault TSQ 1 false).p TSQ TSQ_RCV_STAT_STATE 2
      s.endCmd c (plainDone 0 0))

/-! ### Release and areas (R415, R421–R423) -/

/-- TAIL moves (R423): frames behind it leave, and the RELEASE entry is durable. -/
def State.moveTail (s : State) (h tail source : Nat) : State :=
  (s.jnlAppend 6 [h, tail, source]).setArea h (fun a => { a with tail := tail, frames := a.frames.filter (fun f => decide (tail < f.first + f.nblk)) })

/-- A release target: 0 behind TAIL, 1 valid, 2 out of range (R423). -/
def Area.targetKind (a : Area) (p : Nat) : Nat :=
  if p < a.tail then 0 else if p = a.head ∨ a.frames.any (fun f => f.first == p) then 1 else 2

/-- FRAME_COMMITTED's part in the take store (R421): the FRAME entry, HEAD_h, the retained frames. -/
def State.commitFrame (s : State) (h : Nat) (f : AreaFrame) (flags setId : Nat) : State :=
  (s.jnlAppend 1 [h, f.seq, f.first, f.nblk, f.recOff, flags, setId]).setArea h
    (fun a => { a with head := f.first + f.nblk, frames := a.frames ++ [f] })

/-- A layout of the four areas inside the store (R414). -/
def State.layoutOk (s : State) (areas : List (Nat × Nat)) : Bool :=
  let ext (x : Nat × Nat) : Nat × Nat := (x.1, x.1 + x.2)
  areas.all (fun x => x.2 == 0 || decide (x.1 + x.2 ≤ s.storeBlocks)) &&
  (List.range 4).all (fun i => (List.range i).all (fun j => !rangesMeet (ext (nth (0, 0) areas i)) (ext (nth (0, 0) areas j))))

/-- A write of TSQ_AREA_BASE_h or TSQ_AREA_LEN_h (R415). -/
def State.areaWrite (s : State) (h : Nat) (len : Bool) (v : Nat) : State :=
  let a := s.area h
  let a' : Area := if len then { a with len := v } else { a with base := v }
  let areas := upd (s.tsq.areas.map (fun x => (x.base, x.len))) h (fun _ => (a'.base, a'.len))
  if s.enabled (ING h) || s.busy (ING h) || a.head != a.tail || !s.layoutOk areas then
    s.refuse4 (TSQ + 0x200 + 0x20 * h + (if len then 4 else 0))
  else (s.setArea h (fun _ => { a' with head := 0, tail := 0, placement := 0, frames := [] })).jnlAppend 7 [h, a'.base, a'.len]

/-- AREA_WRITE (R415). -/
def execAreaWrite (h : Fin 4) (len : Bool) (v : Word) (s : State) : Host.Outcome State Fault Refusal :=
  .next (s.hostReg (TSQ + 0x200 + 0x20 * h + (if len then 4 else 0)) v.toNat (fun s => s.areaWrite h len v.toNat))

/-! ### Completions (R434, R435, R448) -/

/-- A completion entry (R435). -/
def completionBytes (c : TCmd) (d : Done) (slot : Nat) (replay : Bool) : List Byte :=
  let body := leBytes 4 c.hsn ++ leBytes 1 slot ++ leBytes 1 (d.code + 16 * b2n replay) ++ leBytes 1 d.detail ++
    leBytes 1 c.op ++ leBytes 8 c.csn ++ leBytes 8 d.result ++ leBytes 4 d.count
  body ++ leBytes 4 (crc32c body)

/-- The ring has room (R434). -/
def State.cqRoom (s : State) : Bool :=
  (s.g TSQ TSQ_CQ_TAIL + 2 ^ 32 - s.g TSQ TSQ_CQ_HEAD) % 2 ^ 32 < 2 ^ s.g TSQ TSQ_CQ_CFG_CQ_LOG2

/-- An entry written at TAIL, which then moves; an access that does not end leaves the completion in POSTING. -/
def State.postEntry (s : State) (l : List Byte) : Bool × State :=
  let tail := s.g TSQ TSQ_CQ_TAIL
  let a := s.g64 TSQ TSQ_CQ_BASE_LO + 32 * (tail % 2 ^ s.g TSQ TSQ_CQ_CFG_CQ_LOG2)
  match s.masterWrite 0x40 (s.g TSQ TSQ_CQ_CFG_ASID) a l with
  | (.ok, s) => (true, s.p TSQ TSQ_CQ_TAIL (inc32 tail))
  | (_, s) => (false, s)

/-- A decided completion posted (R434). -/
def State.postCompletion (s : State) (c : TCmd) (d : Done) : State :=
  let (ok, s) := s.postEntry (completionBytes c d c.slot false)
  if !ok then s
  else
    let irq := s.on (slotBase c.slot) TSQ_SLOT_CMD_IRQ
    let s := (s.setCmd c.csn (fun c => { c with posted := true })).slotEnd c.slot 0 1 0
    (s.irqIf irq TSQ 0).tsqSync

/-- COMPLETION_POSTED (R434, R436, R448). -/
def execCompletionPosted (slot : Fin 32) (s : State) : Host.Outcome State Fault Refusal :=
  .next (if !s.cqRoom then s
    else match s.tsq.replays.find? (fun r => r.1 == slot.val) with
      | some (n, csn) =>
        (match s.cmdOf csn with
        | some c =>
          let (ok, s) := s.postEntry (completionBytes c (c.done.getD (plainDone 0 0)) n true)
          if ok then
            let irq := s.on (slotBase n) TSQ_SLOT_CMD_IRQ
            let s := (s.setTsq (fun t => { t with replays := t.replays.erase (n, csn) })).slotEnd n 0 3 0
            ((s.addSat TSQ TSQ_CNT_DUP_REPLAYED 1).irqIf irq TSQ 0).tsqSync
          else s
        | none => s)
      | none => match s.slotCmd slot with
        | some c => (match c.done with
          | some d => if s.domainPosted c then s.postCompletion c d else s
          | none => s)
        | none => s)

/-- A ring pointer write that would pass its bounds is refused with cause 0x4 (R457): HEAD stays between its old value
and TAIL. -/
def State.headWrite (s : State) (base : Nat) (head tail : Fld) (v : Nat) : State :=
  let old := s.g base head
  if (s.g base tail + 2 ^ 32 - old) % 2 ^ 32 < (v + 2 ^ 32 - old) % 2 ^ 32 then s.refuse4 (base + head.off)
  else s.p base head v

/-- CQ_HEAD_WRITE (R457). -/
def execCqHeadWrite (v : Word) (s : State) : Host.Outcome State Fault Refusal :=
  .next (s.hostReg (TSQ + 0x140) v.toNat (fun s => s.headWrite TSQ TSQ_CQ_HEAD TSQ_CQ_TAIL v.toNat))

/-! ### Aborts (R445, R446) -/

/-- An abort decided: 1 ABORTED, 2 TOO_LATE, 3 MISS. -/
def State.abortResult (s : State) (r : Nat) : State :=
  ((s.p TSQ TSQ_ABORT_STAT_RESULT r).p TSQ TSQ_ABORT_STAT_PENDING 0).irq TSQ 2

/-- A command is past its point of no return (R445). -/
def TCmd.past (c : TCmd) : Bool :=
  c.done.isSome || (match c.op with | 2 => if c.fua then c.entry else c.buffered | 4 => c.entry | 6 => true | _ => false)

/-- The abort of a slot's command by its HSN (R445). -/
def State.abortDecide (s : State) (slot : Nat) : State :=
  match (s.slotCmd slot).filter (fun c => c.hsn == s.g TSQ TSQ_ABORT_HSN) with
  | none => s.abortResult 3
  | some c => if c.past then s.abortResult 2 else (s.endCmd c (plainDone 3 0)).settleFua.abortResult 1

/-- A write of TSQ_ABORT (R445, R446). -/
def State.abortWrite (s : State) (v : Nat) : State :=
  if s.on TSQ TSQ_ABORT_STAT_PENDING then s.refuse4 (TSQ + 0x160)
  else if !bitOf v 8 then s
  else if s.tsq.waiting.contains (fld v 0 5) && s.g (slotBase (fld v 0 5)) TSQ_SLOT_HSN == s.g TSQ TSQ_ABORT_HSN then
    (s.p TSQ TSQ_ABORT_STAT_PENDING 1).p TSQ TSQ_ABORT_SLOT (fld v 0 5)
  else s.abortDecide (fld v 0 5)

/-- TSQ_ABORT (R445). -/
def execTsqAbort (slot : Fin 32) (s : State) : Host.Outcome State Fault Refusal :=
  .next (s.hostReg (TSQ + 0x160) (0x100 + slot) (fun s => s.abortWrite (0x100 + slot)))

/-! ### Power, recovery, resets -/

/-- TSQ_PWR_TARGET (R449, R451). -/
def execTsqPwrTarget (v : Word) (s : State) : Host.Outcome State Fault Refusal :=
  .next (s.hostReg (TSQ + 0x150) v.toNat (fun s => s.tsqPwrWrite v.toNat))

/-- TSQ_PWR_REACHED (R449, R451): RETAIN needs an empty write buffer. -/
def execTsqPwrReached (s : State) : Host.Outcome State Fault Refusal :=
  .next (match s.tsq.pwrMove with
    | none => s
    | some tgt =>
      if tgt = 2 ∧ s.g TSQ TSQ_WB_STAT_USED ≠ 0 then s
      else
        let s := ((s.setTsq (fun t => { t with pwrMove := none })).p TSQ TSQ_PWR_STAT_NOW tgt).p TSQ TSQ_PWR_STAT_MOVING 0
        if s.g TSQ TSQ_PWR_TARGET = tgt then s.irq TSQ 5 else s.pwrStart)

/-- TSQ_IDLE_TIMER (R450). -/
def execTsqIdleTimer (s : State) : Host.Outcome State Fault Refusal :=
  .next (if s.on TSQ TSQ_PWR_AUTO && s.g TSQ TSQ_PWR_STAT_NOW == 0 && s.tsq.pwrMove.isNone &&
      (List.range 32).all (fun n => let st := s.g (slotBase n) TSQ_SLOT_STAT_STATE; st == 0 || st == 5) then
    (s.p TSQ TSQ_PWR_TARGET 1).pwrStart else s)

/-- Recovery begins as ENABLE rises with a formatted store (R452). -/
def State.recoveryStart (s : State) : State :=
  if s.tsq.hdr.isSome || s.on TOP TOP_RESET_CAUSE_STORE_LOST then
    (s.p TSQ TSQ_RCV_STAT_STATE 1).p TSQ TSQ_RCV_STAT_FROM_COLD (b2n s.tsq.fromCold) |>.tsqSync
  else s

/-- Recovery ends FAILED (R452, R455). -/
def State.recoveryFail (s : State) : State := (s.p TSQ TSQ_RCV_STAT_STATE 3).irq TSQ 4

/-- LOST entries for writes that were DONE and not durable (R452 step 4). -/
def State.recoverLost (s : State) : State :=
  (s.tsq.cmds.filter (fun c => c.isWrite && !c.fua && !c.entry && c.done.any (fun d => d.code == 0))).foldl (fun s c =>
    let s := (s.jnlAppend 8 [c.csn, c.hsn, c.blk, c.count]).addSat TSQ TSQ_RCV_STAT_LOST 1
    s.setCmd c.csn (fun c => { c with entry := true, applied := true })) s

/-- Every accepted and incomplete command ends as an FLR ends it (R454): DONE where its entry is durable, else RESET. -/
def State.endByReset (s : State) : State :=
  (s.tsq.cmds.filter (fun c => c.done.isNone)).foldl (fun s c =>
    if !c.durable then s.setTsq (fun t => { t with cmds := t.cmds.filter (fun d => d.csn != c.csn) })
    else
      let dur := c.entry && ((c.isWrite && c.fua) || c.op == 4)
      s.endCmd c (if dur then ⟨0, 0, if c.op = 4 then c.blk else 0, 0⟩ else plainDone 2 0)) s

/-- RECOVERY_END (R452–R455); readable: the header is sound. -/
def execRecoveryEnd (readable : Bool) (s : State) : Host.Outcome State Fault Refusal :=
  .next (if s.g TSQ TSQ_RCV_STAT_STATE ≠ 1 then s
    else match (if readable && !s.on TOP TOP_RESET_CAUSE_STORE_LOST then s.tsq.hdr else none) with
      | none => s.recoveryFail.tsqSync
      | some h =>
        if h ≠ s.headerRegs then ((s.p TSQ TSQ_STORE_STAT_FORMATTED 0).p TSQ TSQ_STORE_STAT_GEOM_MISMATCH 1).recoveryFail.tsqSync
        else
          let s := (s.p TSQ TSQ_STORE_STAT_FORMATTED 1).p TSQ TSQ_STORE_STAT_GEOM_MISMATCH 0
          let s := (s.tsq.cmds.filter (fun c => c.isWrite && c.entry && !c.applied)).foldl (fun s c => s.applyWrite c) s
          let s := (((s.areaSync 0).areaSync 1).areaSync 2).areaSync 3
          let s := if s.tsq.fromCold then s.recoverLost.endByReset else s
          let s := s.tsq.cmds.foldl (fun s c =>
            if c.posted then s
            else (s.p (slotBase c.slot) TSQ_SLOT_STAT_STATE (if c.done.isSome then 4 else if c.durable then 2 else 1)).p64 (slotBase c.slot) TSQ_SLOT_CSN_LO c.csn) s
          let s := s.setTsq (fun t => { t with fromCold := false })
          let s := (s.p TSQ TSQ_RCV_STAT_STATE 2).irq TSQ 4
          let w := s.tsq.waiting
          let s := w.foldl (fun s n => s.validate n) (s.setTsq (fun t => { t with waiting := [] }))
          let s := if s.on TSQ TSQ_ABORT_STAT_PENDING then s.abortDecide (s.g TSQ TSQ_ABORT_SLOT) else s
          s.tsqSync.jnlSync)

/-- A warm reset on the take store (R453): fetches that had not ended begin again. -/
def State.tsqWarm (s : State) : State :=
  let s := s.setTsq (fun t => { t with cmds := t.cmds.map (fun c =>
    if c.done.isSome then c else { c with started := c.isWrite && c.buffered, data := if c.buffered then c.data else [] }) })
  (s.p TSQ PAGE_CTRL_ENABLE 0).tsqSync

/-- A command's completion posted at once, where the ring has room. -/
def State.postDecided (s : State) (p : TCmd → Bool) : State :=
  (s.tsq.cmds.filter (fun c => !c.posted && p c)).foldl (fun s c =>
    match c.done with
    | some d => if s.cqRoom then s.postCompletion c d else s
    | none => s) s

/-- An FLR on the take store (R454): decided completions first, then the others end. -/
def State.tsqFlr (s : State) : State := (s.postDecided (fun c => c.done.isSome)).endByReset.settleFua

/-- A cold reset with the HBM rails kept (R455): the registers are the caller's; commands not durable are gone and the
next recovery ends the others. The write buffer is not kept. -/
def State.tsqCold (s : State) : State := s.setTsq (fun t => { t with fromCold := true, waiting := [], replays := [], defLog := [], defSince := 0, pwrMove := none, cmds := t.cmds.filter (fun c => c.durable || c.done.isSome) })

/-- The store and journal are lost (R80). -/
def State.tsqLost (s : State) : State := s.setTsq (fun t => { TsqState.init with lastCsn := t.lastCsn })

/-- JOURNAL_RECLAIM (R427). -/
def execJournalReclaim (s : State) : Host.Outcome State Fault Refusal := .next s.jnlReclaim.abandonFlush.tsqSync

/-- DEF_POP (R457). -/
def execDefPop (s : State) : Host.Outcome State Fault Refusal :=
  .next (s.hostReg (TSQ + 0x3118) 1 (fun s => s.defCtrl 1))

/-- DEF_CLR_OVF (R457). -/
def execDefClrOvf (s : State) : Host.Outcome State Fault Refusal :=
  .next (s.hostReg (TSQ + 0x3118) 2 (fun s => s.defCtrl 2))

end Sys2Proof.Machine
end

