-- ==== Sys2Proof/Machine/SumpPlan.lean ====
section
/-! DEFINITION. Sump plans (10_sump.md): the image (R352–R354), needs (R346–R349), charges (R350, R351, R356), the
check (R355, R778), the envelope of running consumers (R360), and lasting banks (R341, R361–R363). -/

namespace Sys2Proof.Machine

/-- G(x): granules that hold x bytes (R346). -/
def granulesOf (x : Nat) : Nat := cdiv x 131072

/-! ### Records -/

/-- The active plan's record of a KIND and INSTANCE. -/
def findRec (recs : List SRec) (kind inst : Nat) : Option SRec := recs.find? (fun r => r.kind == kind && r.inst == inst)

def State.srec (s : State) (kind inst : Nat) : Option SRec := findRec s.sump.recs kind inst

def State.hasRec (s : State) (kind inst : Nat) : Bool := (s.srec kind inst).isSome

/-- The slice that a tap or CLR instance below 20 belongs to, or the witness pipeline above (R66, R354). -/
def tapOwner (i : Nat) : Bool × Nat := if i < 20 then (false, i / 4) else (true, (i - 20) / 2)

/-- The die a record's consumer sits on (R350). -/
def SRec.die (r : SRec) : Nat :=
  let ofSlice (p : Nat) : Nat := if p ≤ 2 then 0 else 1
  match r.kind with
  | 1 | 2 => ofSlice r.inst
  | 3 | 4 | 5 => if (tapOwner r.inst).1 then 0 else ofSlice (r.inst / 4)
  | 7 | 9 => 0
  | _ => 1

/-- The die of a granule (R340). -/
def granuleDie (g : Nat) : Nat := if g < 96 then 0 else 1

/-! ### Needs -/

/-- The need of a slice's buffers (R346). -/
def sliceBufNeed (r : SRec) : Nat := granulesOf (20 * r.p0) + (if bitOf r.flags 0 then granulesOf (16 * r.p0) else 0)

/-- The need of a tap's buffer. -/
def tapBufNeed (r : SRec) : Nat := if r.inst < 20 then granulesOf (96 * r.p0) else granulesOf (24 * r.p0)

/-- A slice's buffers and the buffers of its four taps (R347). -/
def sliceWithTaps (recs : List SRec) (p : Nat) : Nat :=
  match findRec recs 1 p with
  | none => 0
  | some r => (List.range 4).foldl (fun n t => n + (findRec recs 3 (4 * p + t)).elim 0 tapBufNeed) (sliceBufNeed r)

/-- The slice among PS0–PS3 that sets the need of the spare workspace. -/
def spareSlice (recs : List SRec) : Nat :=
  (List.range 4).foldl (fun b p => if sliceWithTaps recs b < sliceWithTaps recs p then p else b) 0

/-- A record's count of granules meets its need (R346). -/
def SRec.countOk (recs : List SRec) (r : SRec) : Bool :=
  let n := r.granules.length
  match r.kind with
  | 1 => sliceBufNeed r ≤ n
  | 2 => n == 4
  | 3 => tapBufNeed r ≤ n
  | 4 => n == 2
  | 5 => n == 19 || n == 38
  | 6 => sliceWithTaps recs (spareSlice recs) ≤ n
  | 7 => granulesOf (24 * r.p0) ≤ n
  | 8 => 8 ≤ n && n ≤ 32
  | 9 => granulesOf (12 * r.p0) ≤ n
  | 10 => n == 1
  | 11 => granulesOf (32 * r.p0) ≤ n
  | 12 => n == 2 || n == 4 || n == 8
  | _ => 1 ≤ n && n ≤ 4

/-- A record's kind, instance, parameters and flags are in range (R354). -/
def SRec.fieldsOk (r : SRec) : Bool :=
  let within (x lo hi : Nat) : Bool := decide (lo ≤ x) && decide (x ≤ hi)
  let plain (n : Nat) : Bool := decide (r.inst < n) && r.p0 == 0 && r.p1 == 0 && r.flags == 0
  match r.kind with
  | 1 => decide (r.inst < 5) && within r.p0 256 32768 && within r.p1 1 64000 && decide (r.flags ≤ 1)
  | 2 => plain 5
  | 3 => decide (r.inst < 28) && within r.p0 16 (if r.inst < 20 then 65535 else 8192) && within r.p1 1 64000 && r.flags == 0
  | 4 | 5 => plain 28
  | 6 => r.inst == 4 && r.p0 == 0 && r.p1 == 0 && r.flags == 0
  | 7 => decide (r.inst < 4) && within r.p0 256 32768 && within r.p1 1 64000 && r.flags == 0
  | 8 => plain 2
  | 9 => decide (r.inst < 4) && within r.p0 64 8192 && r.p1 == 0 && r.flags == 0
  | 10 => plain 2
  | 11 => (r.inst == 2 || r.inst == 3) && within r.p0 64 16384 && r.p1 == 0 && r.flags == 0
  | 12 | 13 => plain 1
  | _ => false

/-! ### Charges, in MB/s -/

/-- OUTRATE_MAX summed over the taps whose CLR may name a LUT (R304). -/
def lutRate (recs : List SRec) (i : Nat) : Nat :=
  recs.foldl (fun n r => if r.kind == 3 && tapOwner r.inst == tapOwner i then n + r.p1 else n) 0

/-- The read and write charge of a record across the bridge (R351). -/
def SRec.charge (recs : List SRec) (r : SRec) : Nat × Nat :=
  let buf (x : SRec) : Nat × Nat := if bitOf x.flags 0 then (24 * x.p1, 12 * x.p1) else (16 * x.p1, 4 * x.p1)
  match r.kind with
  | 1 => buf r
  | 2 => (4 * (findRec recs 1 r.inst).elim 0 (·.p1), 0)
  | 3 => (96 * r.p1, 96 * r.p1)
  | 4 => (48 * (findRec recs 3 r.inst).elim 0 (·.p1), 0)
  | 5 => (36 * lutRate recs r.inst, 0)
  | 6 =>
    let p := spareSlice recs
    let taps := (List.range 4).foldl (fun n t => n + (findRec recs 3 (4 * p + t)).elim 0 (fun x => 96 * x.p1)) 0
    let b := (findRec recs 1 p).elim (0, 0) buf
    (b.1 + taps, b.2 + taps)
  | 7 => (8 * r.p1, 4 * r.p1)
  | 8 => (110000, 110000)
  | 9 => (4000, 4000)
  | 10 => (10000, 10000)
  | 11 => (60000, 60000)
  | 12 => (20000, 20000)
  | _ => (30000, 30000)

/-- A record's load toward PD0 and toward PD1, with its consumer on a die: reads flow toward it, writes away. -/
def SRec.load (recs : List SRec) (r : SRec) (die : Nat) : Nat × Nat :=
  if r.granules.all (fun g => granuleDie g == die) then (0, 0)
  else
    let (rd, wr) := r.charge recs
    if die = 0 then (rd, wr) else (wr, rd)

/-- The loads of a plan toward PD0 and toward PD1 (R351). -/
def planLoad (recs : List SRec) : Nat × Nat :=
  recs.foldl (fun n r => let l := r.load recs r.die; (n.1 + l.1, n.2 + l.2)) (0, 0)

/-- The loads as if PS4 had taken over slice p (R356): its tables, curves and LUTs serve PD1, its buffers are idle. -/
def takeoverLoad (recs : List SRec) (p : Nat) : Nat × Nat :=
  recs.foldl (fun n r =>
    let ofSlice := match r.kind with
      | 1 | 2 => r.inst == p
      | 3 | 4 | 5 => decide (r.inst < 20) && r.inst / 4 == p
      | _ => false
    let l := if !ofSlice then r.load recs r.die else if r.kind == 1 || r.kind == 3 then (0, 0) else r.load recs 1
    (n.1 + l.1, n.2 + l.2)) (0, 0)

/-- The Sump share of the bridge, each way, in MB/s (R351). -/
def sumpShare : Nat := 1000000

/-! ### The image -/

/-- A plan image: VERSION, NREC, PLAN_ID, the granule map, its records with their granules, whether the records'
reserved bytes are zero and whether the CRC matches. -/
structure PlanImage where
  version : Nat
  nrec : Nat
  planId : Nat
  map : List Nat
  recs : List SRec
  reservedOk : List Bool
  crcOk : Bool
  deriving DecidableEq, Repr

/-- The image at an address (R352–R354). -/
def State.planImage (s : State) (a : Nat) : PlanImage :=
  let nrec := s.hbmNum (a + 2) 2
  let n := min nrec 253
  let map := (s.hbmRead (a + 0x40) 192).map (fun b => b.toNat)
  let rec_ (i : Nat) : List Byte := s.hbmRead (a + 0x100 + 16 * i) 16
  ⟨s.hbmNum a 2, nrec, s.hbmNum (a + 4) 4, map,
    (List.range n).map (fun i => ⟨leAt (rec_ i) 0 1, leAt (rec_ i) 1 1, leAt (rec_ i) 2 1, leAt (rec_ i) 4 4, leAt (rec_ i) 8 4,
      (List.range 192).filter (fun g => nth 0xFF map g == i)⟩),
    (List.range n).map (fun i => leAt (rec_ i) 3 1 == 0 && leAt (rec_ i) 12 4 == 0),
    crc32c (s.hbmRead a (0x100 + 16 * n)) == s.hbmNum (a + 0x100 + 16 * n) 4⟩

/-! ### The active map -/

def State.mapByte (s : State) (g : Nat) : Nat := s.g (SMP + 4 * (g / 4)) ⟨0x1100, 8 * (g % 4), 8⟩

def State.setMapByte (s : State) (g v : Nat) : State := s.p (SMP + 4 * (g / 4)) ⟨0x1100, 8 * (g % 4), 8⟩ v

def State.bankFailed (s : State) (g : Nat) : Bool := s.gBit (SMP + 4 * (g / 32)) SMP_FAIL (g % 32)

/-- Reserve granules left on a die. -/
def State.reserves (s : State) (die : Nat) : List Nat :=
  (List.range 192).filter (fun g => granuleDie g == die && s.mapByte g == 0xFE)

/-- The active plan holds a planned granule. -/
def State.planned (s : State) : Bool := !s.sump.recs.all (fun r => r.granules.isEmpty)

/-- SMP_STAT's reserve counts and NO_RESERVE follow the map (R363, R365). -/
def State.reserveSync (s : State) : State :=
  let r0 := (s.reserves 0).length
  let r1 := (s.reserves 1).length
  let none_ := s.planned && r0 + r1 == 0
  let was := s.on SMP SMP_STAT_NO_RESERVE
  let s := (s.p SMP SMP_STAT_RES_PD0 (min r0 15)).p SMP SMP_STAT_RES_PD1 (min r1 15)
  ((s.p SMP SMP_STAT_NO_RESERVE (b2n none_)).fault SMP 1 none_).irqIf (none_ && !was) SMP 4

/-- The groups that hold planned or reserve granules of the active plan (R343). -/
def State.groupsUsed (s : State) : Nat :=
  (List.range 24).foldl (fun n k => if (List.range 8).any (fun b => let m := s.mapByte (8 * k + b); m != 0xFF && m != 0xFD) then n + 2 ^ k else n) 0

/-! ### Consumers -/

/-- The blocks whose ENABLE and BUSY tell whether a record's consumer runs (R778). -/
def SRec.consumers (r : SRec) : List Nat :=
  match r.kind with
  | 1 | 2 => [PSL r.inst]
  | 3 | 4 | 5 => let (w, i) := tapOwner r.inst; [if w then WIT i else PSL i]
  | 6 => [PSL 4]
  | 7 => [ING r.inst]
  | 8 => [TSQ]
  | 9 => [WIT r.inst]
  | 10 | 11 => [COD r.inst]
  | 12 => [GCX]
  | _ => (List.range 16).map (fun c => DMA c)

/-- A record's consumer is stopped (R778). -/
def State.consumerStopped (s : State) (r : SRec) : Bool := r.consumers.all (fun b => !s.enabled b && !s.busy b)

/-! ### The envelope (R360) -/

/-- What an ING commit leaves the envelope by: 1 width, 2 rate, 5 a missing record; 0 nothing. -/
def ingEnvelope (recs : List SRec) (h slice w ht rate : Nat) : Nat :=
  match (if slice < 5 then findRec recs 1 slice else findRec recs 7 h), findRec recs 7 h with
  | some b, some v =>
    if b.p0 < w ∨ v.p0 < w then 1
    else if b.p1 * 1000000000 < w * ht * rate ∨ v.p1 * 1000000000 < w * ht * rate then 2 else 0
  | _, _ => 5

/-- What one tap leaves the envelope by: its SINK, output width and height, and the head's rate in mHz. -/
def tapEnvelope (recs : List SRec) (i sink ow oh rate : Nat) : Nat :=
  if sink = 0 then 0
  else match findRec recs 3 i with
    | none => 5
    | some r => if r.p0 < ow then 3 else if i < 20 ∧ r.p1 * 1000000000 < ow * oh * rate then 4 else 0

/-- The first non-zero of a list. -/
def firstRule (l : List Nat) : Nat := (l.find? (fun x => x != 0)).getD 0

/-- What a PSL set leaves the envelope by: NMAX, and per tap (SINK, OUT_W, OUT_H). -/
def pslEnvelope (recs : List SRec) (p rate nmax : Nat) (taps : List (Nat × Nat × Nat)) : Nat :=
  let perTap := (taps.zipIdx).map (fun x => tapEnvelope recs (4 * p + x.2) x.1.1 x.1.2.1 x.1.2.2 rate)
  let tnr := if nmax != 0 && (findRec recs 1 p).all (fun r => !bitOf r.flags 0) then 6 else 0
  firstRule (perTap.filter (fun x => x != 5) ++ perTap ++ [tnr])

/-- What a WIT set leaves the envelope by. -/
def witEnvelope (recs : List SRec) (w width : Nat) (taps : List (Nat × Nat)) : Nat :=
  let wd := match findRec recs 9 w with
    | none => 5
    | some r => if r.p0 < width then 1 else 0
  let perTap := (taps.zipIdx).map (fun x => tapEnvelope recs (20 + 2 * w + x.2) x.1.1 x.1.2 0 0)
  firstRule (wd :: perTap)

/-- A commit refused under R360 is recorded. -/
def State.envRefuse (s : State) (type inst rule : Nat) : State :=
  (((s.p SMP SMP_ENV_BLOCK_TYPE type).p SMP SMP_ENV_INSTANCE inst).p SMP SMP_ENV_RULE rule).irq SMP 5

/-- The rate of the head bound to a slice, in mHz. -/
def State.sliceRate (s : State) (p : Nat) : Nat :=
  if s.on (PSL p) PSL_STAT_BOUND then (s.rdA (ING (s.g (PSL p) PSL_STAT_HEAD) + 0x108)) else 0

/-- The active set of a running consumer lies inside a plan (R355, reason 0xA). -/
def State.insideEnvelope (s : State) (recs : List SRec) (r : SRec) : Bool :=
  match r.kind with
  | 1 | 2 =>
    let b := PSL r.inst
    !s.enabled b || pslEnvelope recs r.inst (s.sliceRate r.inst) (s.ga b PSL_TNR_CFG_NMAX) ((List.range 4).map (fun t =>
      let tb := b + 0x1000 * t
      (s.ga tb PSL_TAP_CFG_SINK, s.ga tb PSL_TAP_OUT_WH_OUT_W, s.ga tb PSL_TAP_OUT_WH_OUT_H))) == 0
  | 7 =>
    let b := ING r.inst
    !s.enabled b || ingEnvelope recs r.inst (s.ga b ING_BIND_SLICE) (s.ga b ING_GEOM_WIDTH) (s.ga b ING_GEOM_HEIGHT) (s.ga b ING_RATE) == 0
  | 9 =>
    let b := WIT r.inst
    !s.enabled b || witEnvelope recs r.inst (s.ga b WIT_GEOM_WIDTH) ((List.range 2).map (fun u =>
      (s.ga (b + 0x40 * u) WIT_TAP_CFG_SINK, s.ga (b + 0x40 * u) WIT_TAP_OUT_WH_OUT_W))) == 0
  | _ => true

/-! ### The check (R355) -/

/-- What a check finds: REASON, RECORD, GRANULE, DIE. -/
structure PlanFault where
  reason : Nat
  record : Nat
  granule : Nat
  die : Nat
  deriving DecidableEq, Repr

/-- The first power group that the two write-buffer copies share, by a granule of it. -/
def sharedGroup (a b : SRec) : Option Nat := b.granules.find? (fun g => a.granules.any (fun x => x / 8 == g / 8))

/-- A record's counterpart in the other plan is the same. -/
def sameRec (recs : List SRec) (r : SRec) : Bool := findRec recs r.kind r.inst == some r

/-- The rules of R355 in order; the first that is broken. -/
def State.sumpCheck (s : State) (a : Nat) (im : PlanImage) (activate : Bool) : PlanFault :=
  let recs := im.recs
  let idx (p : Nat → Bool) : Option Nat := (List.range recs.length).find? p
  let rec_ (i : Nat) : SRec := nth ⟨0, 0, 0, 0, 0, []⟩ recs i
  let len := 0x100 + 16 * im.nrec + 4
  if a % 4096 ≠ 0 ∨ s.installed < a + len ∨ s.inStoreRegions a len then ⟨1, 0, 0, 0⟩
  else if im.version ≠ 1 ∨ 253 < im.nrec ∨ !im.crcOk then ⟨2, 0, 0, 0⟩
  else match idx (fun i => !(rec_ i).fieldsOk || !nth true im.reservedOk i ||
      (List.range i).any (fun j => (rec_ j).kind == (rec_ i).kind && (rec_ j).inst == (rec_ i).inst)) with
  | some i => ⟨3, i, 0, 0⟩
  | none => match (List.range 192).find? (fun g =>
      let m := nth 0xFF im.map g
      !(decide (m < recs.length) || m == 0xFE || m == 0xFF) || (s.bankFailed g && m != 0xFF)) with
  | some g => ⟨4, 0, g, 0⟩
  | none => match idx (fun i => !(rec_ i).countOk recs) with
  | some i => ⟨5, i, 0, 0⟩
  | none =>
    let wr := idx (fun i => (rec_ i).kind == 8)
    let pair := match findRec recs 8 0, findRec recs 8 1 with
      | none, none => none
      | some x, some y => if x.granules.length ≠ y.granules.length then some (y.granules.headD 0) else sharedGroup x y
      | _, _ => some ((rec_ (wr.getD 0)).granules.headD 0)
    match pair with
    | some g => ⟨6, wr.getD 0, g, 0⟩
    | none =>
      let lacks (die : Nat) : Bool :=
        recs.any (fun r => r.granules.any (fun g => granuleDie g == die)) &&
        !(List.range 192).any (fun g => granuleDie g == die && nth 0xFF im.map g == 0xFE)
      let load := planLoad recs
      if lacks 0 then ⟨7, 0, 0, 0⟩ else if lacks 1 then ⟨7, 0, 0, 1⟩
      else if sumpShare < load.1 then ⟨8, 0, 0, 0⟩ else if sumpShare < load.2 then ⟨8, 0, 0, 1⟩
      else if !activate then ⟨if s.sump.late.isEmpty && s.sump.pend.isEmpty then 0 else 11, 0, 0, 0⟩
      else match idx (fun i => !sameRec s.sump.recs (rec_ i) && !s.consumerStopped (rec_ i)) with
      | some i => ⟨9, i, 0, 0⟩
      | none => match (List.range s.sump.recs.length).find? (fun i =>
          let r := nth ⟨0, 0, 0, 0, 0, []⟩ s.sump.recs i
          (findRec recs r.kind r.inst).isNone && !s.consumerStopped r) with
      | some i => ⟨9, i, 0, 0⟩
      | none => match idx (fun i => !s.insideEnvelope recs (rec_ i)) with
      | some i => ⟨10, i, 0, 0⟩
      | none => ⟨if s.sump.late.isEmpty && s.sump.pend.isEmpty then 0 else 11, 0, 0, 0⟩

/-- SMP_NEED, SMP_LOAD and SMP_TKO of a checked plan (R355, R356). -/
def State.planFigures (s : State) (im : PlanImage) : State :=
  let count (p : Nat → Bool) : Nat := (im.map.filter p).length
  let s := (s.p SMP SMP_NEED_PLANNED (count (fun m => m < 0xFD))).p SMP SMP_NEED_RESERVES (count (fun m => m == 0xFE))
  let s := s.p SMP SMP_NEED_FREE (count (fun m => m == 0xFF))
  let l := planLoad im.recs
  let s := (s.p SMP SMP_LOAD_TO_PD1 (min (cdiv l.2 1000) 65535)).p SMP SMP_LOAD_TO_PD0 (min (cdiv l.1 1000) 65535)
  if (findRec im.recs 6 4).isNone then s.p SMP SMP_TKO 0
  else
    let t (p : Nat) : Nat := if (findRec im.recs 1 p).isNone then 0 else let x := takeoverLoad im.recs p; max x.1 x.2
    let worst := (List.range 4).foldl (fun n p => max n (t p)) 0
    let lim := (List.range 4).foldl (fun n p => if sumpShare < t p then n + 2 ^ p else n) 0
    (s.p SMP SMP_TKO_LOAD (min (cdiv worst 1000) 65535)).p SMP SMP_TKO_LIMITED lim

/-! ### Lasting banks (R341, R361–R363) -/

/-- The record that holds a granule, by its place in the plan. -/
def State.recHolding (s : State) (g : Nat) : Option Nat :=
  (List.range s.sump.recs.length).find? (fun i => (nth ⟨0, 0, 0, 0, 0, []⟩ s.sump.recs i).granules.contains g)

/-- Whether a replacement needs a refill or a rebuild before it takes up its work (R362). -/
def SRec.refills (r : SRec) : Bool := r.kind == 2 || r.kind == 4 || r.kind == 5 || r.kind == 8

/-- A replacement takes up its work: REMAP rises, and REMAP_PEND falls once none waits. -/
def State.takeUp (s : State) (new : Nat) : State :=
  let s := { s with sump := { s.sump with pend := s.sump.pend.filter (fun x => x.2.2 != new) } }
  (s.p SMP SMP_STAT_REMAP_PEND (b2n (!s.sump.pend.isEmpty))).irq SMP 3

/-- A replacement is selected for a failed bank of a record (R361). -/
def State.selectReserve (s : State) (i bank : Nat) : State :=
  match s.reserves (granuleDie bank) ++ s.reserves (1 - granuleDie bank) with
  | [] => s
  | new :: _ =>
    let r := nth ⟨0, 0, 0, 0, 0, []⟩ s.sump.recs i
    let r' := { r with granules := r.granules.map (fun g => if g = bank then new else g) }
    let s := { s with sump := { s.sump with recs := upd s.sump.recs i (fun _ => r'), pend := s.sump.pend ++ [(i, bank, new)] } }
    let s := ((s.testYield 2 new).setMapByte new i).p SMP SMP_STAT_REMAP_PEND 1
    let l := planLoad s.sump.recs
    let above := decide (sumpShare < l.1) || decide (sumpShare < l.2)
    let s := if above then (s.p SMP SMP_STAT_LOAD_OVER 1).fault SMP 2 true else s
    let s := if r.kind = 8 then s.fault TSQ 2 true else s
    if s.consumerStopped r' && !r'.refills then s.takeUp new else s

/-- A bank is declared lasting (R361). -/
def State.bankLasting (s : State) (bank : Nat) : State :=
  if s.bankFailed bank then s
  else
    let owner := s.recHolding bank
    let s := (s.pBit (SMP + 4 * (bank / 32)) SMP_FAIL (bank % 32) true).setMapByte bank 0xFD
    let s := s.fault SMP 0 true
    let s := if s.g SMP SMP_PLAN_STAT_STATE = 0 then s else { s with sump := { s.sump with late := s.sump.late ++ [bank] } }
    let s := match owner with
      | some i => if s.g SMP SMP_PLAN_STAT_STATE = 2 then s else s.selectReserve i bank
      | none => s
    s.reserveSync

/-- An uncorrectable word of a bank (R341): reread once, transient or lasting, reported to its power group's source. -/
def State.sumpWord (s : State) (bank word : Nat) (fails rereadFails : Bool) : Check × State :=
  let (c, s) := s.check (212 + bank / 8) (bank % 8) fails rereadFails
  if !c.fails then (c, s)
  else
    let s := ((s.p SMP SMP_ECC_LAST_BANK bank).p SMP SMP_ECC_LAST_WORD word).p SMP SMP_ECC_LAST_VALID 1
    let s := (s.addSat SMP SMP_ECC_CNT_UNCORR 1).addSat SMP SMP_ECC_CNT_LASTING (b2n c.retryFails)
    let s := s.irq SMP 6
    (c, s.report ⟨212 + bank / 8, bank % 8, bank % 8 + 8 * word, c.retryFails, c.injected, c.real, c.counted⟩ (fun s => s.bankLasting bank))

end Sys2Proof.Machine
end

