-- ==== Sys2Proof/Machine/Commit.lean ====
section
/-! DEFINITION. Shadowed registers (02_register_pages.md): the latch instant, the hand-over point, COMMIT and REVERT
(R50–R59). The checks of a commit and the hand-over numbers belong to the chapters of the blocks. -/

namespace Sys2Proof.Machine

/-- The offsets, from the base of an instance, of one register description. -/
def RegDesc.offs (d : RegDesc) : List Nat :=
  (List.range (d.p1 + 1 - d.p0)).flatMap (fun p => (List.range d.count).map (fun k => (d.p0 + p) * 0x1000 + d.off + k * d.stride))

/-- The offsets of a block's shadowed registers (R50). -/
def Blk.shadowOffs (b : Blk) : List Nat := (b.regs.filter (fun d => d.shadowed)).flatMap RegDesc.offs

/-- The whole shadow set of an instance copied to its active set (R55). -/
def State.copyActive (s : State) (blk : Blk) (i : Nat) : State :=
  blk.shadowOffs.foldl (fun s o => s.wrA (blk.at i + o) (s.rd (blk.at i + o))) s

/-- The active set copied back into the shadow set (R51). -/
def State.copyShadow (s : State) (blk : Blk) (i : Nat) : State :=
  blk.shadowOffs.foldl (fun s o => s.wr (blk.at i + o) (s.rdA (blk.at i + o))) s

/-- A commit applies with a hand-over number (R55). -/
def State.applyCommit (s : State) (blk : Blk) (i num : Nat) : State :=
  let b := blk.at i
  let s := (s.copyActive blk i).addMod b SHADOW_SEQ_APPLIED 1
  let s := s.p64 b SHADOW_AT_LO num
  (s.p b PAGE_STAT_COMMIT_PEND 0).p b PAGE_STAT_COMMIT_LATCHED 0

/-- A latch instant of a block: the pending commit is latched to the next hand-over point (R54). -/
def State.latch (s : State) (b : Nat) : State :=
  if s.on b PAGE_STAT_COMMIT_PEND then s.p b PAGE_STAT_COMMIT_LATCHED 1 else s

/-- A commit waits at its hand-over point. -/
def State.latched (s : State) (b : Nat) : Bool := s.on b PAGE_STAT_COMMIT_PEND && s.on b PAGE_STAT_COMMIT_LATCHED

/-- A hand-over point of a block: a latched commit applies (R55). -/
def State.handOver (s : State) (blk : Blk) (i num : Nat) : State :=
  if s.latched (blk.at i) then s.applyCommit blk i num else s

/-- A pending commit applies where the block stops without a hand-over point (R58). -/
def State.applyPending (s : State) (blk : Blk) (i num : Nat) : State :=
  if s.on (blk.at i) PAGE_STAT_COMMIT_PEND then s.applyCommit blk i num else s

/-- COMMIT accepted (R52); atOnce: it applies at the write with the number given (R57). -/
def State.commitAccept (s : State) (blk : Blk) (i : Nat) (atOnce : Bool) (num : Nat) : State :=
  let b := blk.at i
  let s := (s.addMod b SHADOW_SEQ_REQ 1).p b PAGE_STAT_COMMIT_PEND 1
  if atOnce then s.applyCommit blk i num else s

/-- The number of a commit to a slice that no head is bound to (R56, R270). -/
def noNumber : Nat := 2 ^ 64 - 1

end Sys2Proof.Machine
end

