-- ==== Sys2Proof/Machine/Fp.lean ====
section
/-! DEFINITION. IEEE 754 numbers by their bits: binary32 as the image pipeline computes it (R240, R249–R252, R258), in the
flushing and saturating form of stages 6 and 8 (R284), binary16 (R251, R261) and F24 (R285). Every operation is
computed exactly and rounded once to nearest, ties to even. -/

namespace Sys2Proof.Machine

/-- n / d rounded to the nearest integer, ties to even. -/
def rne (n d : Nat) : Nat :=
  let q := n / d
  let r := n % d
  if d < 2 * r || (2 * r == d && q % 2 == 1) then q + 1 else q

/-- An integer over a natural, rounded to nearest with ties to even. -/
def rneInt (n : Int) (d : Nat) : Int := if n < 0 then -(rne n.natAbs d : Nat) else (rne n.natAbs d : Nat)

/-- floor(log2(n / d)) for positive n and d. -/
def ilog2 (n d : Nat) : Int :=
  let k : Int := (n.log2 : Int) - d.log2
  let ge : Bool := if 0 ≤ k then d * 2 ^ k.toNat ≤ n else d ≤ n * 2 ^ (-k).toNat
  if ge then k else k - 1

/-- A binary format: fraction bits, exponent bits; flush replaces subnormal results by zero; sat replaces overflow by the
largest finite value. -/
structure FpFmt where
  mb : Nat
  eb : Nat
  flush : Bool
  sat : Bool
  deriving DecidableEq, Repr

def ieee32 : FpFmt := ⟨23, 8, false, false⟩
/-- Binary32 as stages 6 and 8 compute (R284). -/
def colour32 : FpFmt := ⟨23, 8, true, true⟩
/-- Binary16, rounded to nearest and saturated to ±65,504 (R252, R261). -/
def half : FpFmt := ⟨10, 5, false, true⟩

def FpFmt.bias (f : FpFmt) : Int := 2 ^ (f.eb - 1) - 1
def FpFmt.infBits (f : FpFmt) : Nat := (2 ^ f.eb - 1) * 2 ^ f.mb
def FpFmt.signBit (f : FpFmt) : Nat := 2 ^ (f.mb + f.eb)

/-- ±(n / d) × 2^e in a format. -/
def FpFmt.pack (f : FpFmt) (neg : Bool) (n d : Nat) (e : Int) : Nat :=
  let sg := if neg then f.signBit else 0
  if n = 0 then sg else
    let E := ilog2 n d + e
    let lo := max E (1 - f.bias)
    let q := lo - f.mb
    let sh := e - q
    let r := if 0 ≤ sh then rne (n * 2 ^ sh.toNat) d else rne n (d * 2 ^ (-sh).toNat)
    let bits := ((lo + f.bias - 1).toNat) * 2 ^ f.mb + r
    if f.infBits ≤ bits then sg + (if f.sat then f.infBits - 1 else f.infBits)
    else if f.flush && bits < 2 ^ f.mb then sg else sg + bits

/-- A number decoded: not a number, an infinity, or ±m × 2^e. -/
inductive Fp where
  | nan
  | inf (neg : Bool)
  | fin (neg : Bool) (m : Nat) (e : Int)
  deriving DecidableEq, Repr

/-- The number that bits spell; under flush a subnormal operand is zero (R284). -/
def FpFmt.unpack (f : FpFmt) (b : Nat) : Fp :=
  let neg := bitOf b (f.mb + f.eb)
  let x := fld b f.mb f.eb
  let m := fld b 0 f.mb
  if x = 2 ^ f.eb - 1 then (if m = 0 then .inf neg else .nan)
  else if x = 0 then (if f.flush then .fin neg 0 0 else .fin neg m (1 - f.bias - f.mb))
  else .fin neg (2 ^ f.mb + m) (x - f.bias - f.mb)

def FpFmt.nanBits (f : FpFmt) : Nat := f.infBits + 2 ^ (f.mb - 1)

/-- A decoded number in a format. -/
def FpFmt.repack (f : FpFmt) : Fp → Nat
  | .nan => f.nanBits
  | .inf neg => (if neg then f.signBit else 0) + (if f.sat then f.infBits - 1 else f.infBits)
  | .fin neg m e => f.pack neg m 1 e

/-- The signed mantissa. -/
def sgn (neg : Bool) (m : Nat) : Int := if neg then -(m : Int) else m

/-- An integer × 2^e in a format. -/
def FpFmt.ofInt (f : FpFmt) (i : Int) (e : Int) : Nat := f.pack (i < 0) i.natAbs 1 e

def FpFmt.neg (f : FpFmt) (a : Nat) : Nat := a ^^^ f.signBit
def FpFmt.abs (f : FpFmt) (a : Nat) : Nat := a % f.signBit

def FpFmt.add (f : FpFmt) (a b : Nat) : Nat :=
  match f.unpack a, f.unpack b with
  | .nan, _ => f.nanBits
  | _, .nan => f.nanBits
  | .inf x, .inf y => if x == y then f.repack (.inf x) else f.nanBits
  | .inf x, .fin _ _ _ => f.repack (.inf x)
  | .fin _ _ _, .inf y => f.repack (.inf y)
  | .fin x m e, .fin y n g =>
    let lo := min e g
    let i := sgn x m * 2 ^ (e - lo).toNat + sgn y n * 2 ^ (g - lo).toNat
    if i = 0 then (if x && y then f.signBit else 0) else f.ofInt i lo

def FpFmt.sub (f : FpFmt) (a b : Nat) : Nat := f.add a (f.neg b)

def FpFmt.mul (f : FpFmt) (a b : Nat) : Nat :=
  match f.unpack a, f.unpack b with
  | .nan, _ => f.nanBits
  | _, .nan => f.nanBits
  | .inf x, .inf y => f.repack (.inf (x != y))
  | .inf x, .fin y n _ => if n = 0 then f.nanBits else f.repack (.inf (x != y))
  | .fin x m _, .inf y => if m = 0 then f.nanBits else f.repack (.inf (x != y))
  | .fin x m e, .fin y n g => f.pack (x != y) (m * n) 1 (e + g)

def FpFmt.div (f : FpFmt) (a b : Nat) : Nat :=
  match f.unpack a, f.unpack b with
  | .nan, _ => f.nanBits
  | _, .nan => f.nanBits
  | .inf _, .inf _ => f.nanBits
  | .inf x, .fin y _ _ => f.repack (.inf (x != y))
  | .fin x _ _, .inf y => if x != y then f.signBit else 0
  | .fin x m e, .fin y n g =>
    if n = 0 then (if m = 0 then f.nanBits else f.repack (.inf (x != y)))
    else f.pack (x != y) m n (e - g)

/-- The integer square root by bits from k down. -/
def isqrtFrom (n : Nat) : Nat → Nat → Nat
  | 0, r => r
  | k + 1, r => if (r + 2 ^ k) * (r + 2 ^ k) ≤ n then isqrtFrom n k (r + 2 ^ k) else isqrtFrom n k r

def isqrt (n : Nat) : Nat := isqrtFrom n (n.log2 / 2 + 1) 0

/-- The square root, correctly rounded: 60 bits of it and a sticky bit. -/
def FpFmt.sqrt (f : FpFmt) (a : Nat) : Nat :=
  match f.unpack a with
  | .nan => f.nanBits
  | .inf neg => if neg then f.nanBits else f.infBits
  | .fin neg m e =>
    if m = 0 then a else if neg then f.nanBits else
      let sh : Nat := 120 + (if e % 2 = 0 then 0 else 1)
      let n := m * 2 ^ sh
      let r := isqrt n
      f.pack false (2 * r + b2n (r * r != n)) 1 ((e - sh) / 2 - 1)

/-- The order of two numbers: a < b; false where either is no number. -/
def FpFmt.lt (f : FpFmt) (a b : Nat) : Bool :=
  match f.unpack a, f.unpack b with
  | .fin x m e, .fin y n g =>
    let lo := min e g
    sgn x m * 2 ^ (e - lo).toNat < sgn y n * 2 ^ (g - lo).toNat
  | .inf x, .inf y => x && !y
  | .inf x, .fin _ _ _ => x
  | .fin _ _ _, .inf y => !y
  | _, _ => false

def FpFmt.le (f : FpFmt) (a b : Nat) : Bool := f.lt a b || (!f.lt b a && f.unpack a != .nan && f.unpack b != .nan)

def FpFmt.max (f : FpFmt) (a b : Nat) : Nat := if f.lt a b then b else a
def FpFmt.min (f : FpFmt) (a b : Nat) : Nat := if f.lt b a then b else a

/-- The floor of a finite number; 0 of others. -/
def FpFmt.floor (f : FpFmt) (a : Nat) : Int :=
  match f.unpack a with
  | .fin x m e => if 0 ≤ e then sgn x m * 2 ^ e.toNat else sgn x m / (2 ^ (-e).toNat : Nat)
  | _ => 0

/-- A finite number as an integer of units 2^−k, truncated toward minus infinity. -/
def FpFmt.units (f : FpFmt) (k : Nat) (a : Nat) : Int :=
  match f.unpack a with
  | .fin x m e => if 0 ≤ e + k then sgn x m * 2 ^ (e + k).toNat else sgn x m / (2 ^ (-(e + k)).toNat : Nat)
  | _ => 0

/-! ### Reals by fixed point, for log2 (R284) and the curve generator (R308) -/

/-- The fraction bits of the fixed-point reals below; correct rounding of log2 to binary32, and one unit in the last
place of an entry, are decided far above this precision. -/
def fixBits : Nat := 192
def fixOne : Nat := 2 ^ fixBits

/-- Fraction bits of log2 of m in [1, 2), m in units of 2^−192, by repeated squaring. -/
def log2Bits : Nat → Nat → Nat → Nat
  | 0, _, acc => acc
  | k + 1, m, acc =>
    let sq := m * m / fixOne
    if 2 * fixOne ≤ sq then log2Bits k (sq / 2) (2 * acc + 1) else log2Bits k sq (2 * acc)

/-- The number of fraction bits of a logarithm. -/
def logBits : Nat := 96

/-- log2(n / d) in units of 2^−96, for positive n and d, toward minus infinity. -/
def fixLog2 (n d : Nat) : Int :=
  let k := ilog2 n d
  let m := if 0 ≤ k then n * fixOne / (d * 2 ^ k.toNat) else n * 2 ^ (-k).toNat * fixOne / d
  k * 2 ^ logBits + log2Bits logBits m 0

/-- 2^(1/2), 2^(1/4), … in units of 2^−192, applied where a bit of the fraction is set. -/
def exp2Bits : Nat → Nat → Nat → Nat → Nat
  | 0, _, _, acc => acc
  | k + 1, root, fr, acc =>
    let root := isqrt (root * fixOne)
    exp2Bits k root fr (if bitOf fr k then acc * root / fixOne else acc)

/-- 2^y for y in units of 2^−96, as a fixed-point fraction and a power of two. -/
def fixExp2 (y : Int) : Nat × Int := (exp2Bits logBits (2 * fixOne) (y % (2 ^ logBits : Nat)).toNat fixOne, y / (2 ^ logBits : Nat))

/-- log2 of a positive number, correctly rounded. -/
def FpFmt.log2 (f : FpFmt) (a : Nat) : Nat :=
  match f.unpack a with
  | .fin false m e =>
    if m = 0 then f.repack (.inf true) else
      let k := ilog2 m 1
      if m = 2 ^ k.toNat then f.ofInt (k + e) 0
      else f.ofInt (2 * (fixLog2 m 1 + e * 2 ^ logBits) + 1) (-((logBits : Int) + 1))
  | _ => f.nanBits

/-! ### Binary32 of the pipeline -/

/-- Binary32 from a fixed-point integer with k fraction bits. -/
def f32OfFix (i : Int) (k : Nat) : Nat := ieee32.ofInt i (-(k : Int))

def f32Zero : Nat := 0
def f32One : Nat := 0x3F800000

/-- Binary16 of a binary32 number: a NaN is 0 and overflow saturates (R261). -/
def halfOf (a : Nat) : Nat :=
  match ieee32.unpack a with
  | .nan => 0
  | .inf x => half.repack (.inf x)
  | .fin x m e => half.pack x m 1 e

/-- Binary32 of a binary16 number. -/
def ofHalf (h : Nat) : Nat := ieee32.repack ((⟨10, 5, false, false⟩ : FpFmt).unpack h)

/-- Binary32 of an F24 value (R285). -/
def ofF24 (v : Nat) : Nat := if fld v 15 8 = 0 then (v / 2 ^ 23) * 2 ^ 31 else v * 256

end Sys2Proof.Machine
end

