-- ==== Sys2Proof/Machine/Colour.lean ====
section
/-! DEFINITION. Colour science (08_colour.md): matrices, curves, the 3D LUT and the curve generator, as functions of the
registers and tables in force (R284–R309). -/

namespace Sys2Proof.Machine

/-- A pixel of three binary32 values. -/
abbrev Rgb := Nat × Nat × Nat

def rgbAt (p : Rgb) (c : Nat) : Nat := if c = 0 then p.1 else if c = 1 then p.2.1 else p.2.2

def rgbOf (f : Nat → Nat) : Rgb := (f 0, f 1, f 2)

/-- One row of a 3 × 4 matrix over a pixel (R286). -/
def matRow (m : Nat → Nat) (p : Rgb) (n : Nat) : Nat :=
  let a := colour32.add (colour32.mul (m (4 * n)) p.1) (colour32.mul (m (4 * n + 1)) p.2.1)
  colour32.add (colour32.add a (colour32.mul (m (4 * n + 2)) p.2.2)) (m (4 * n + 3))

def matApply (m : Nat → Nat) (p : Rgb) : Rgb := rgbOf (matRow m p)

/-! ### Curves -/

/-- A LOG2 domain. -/
def domLog (d : Nat) : Bool := bitOf d 0
def domMin (d : Nat) : Int := sint 8 (fld d 8 8)
def domMax (d : Nat) : Int := sint 8 (fld d 16 8)

/-- The lower and upper end of a domain (R291). -/
def curveLo (dom min : Nat) : Nat := if domLog dom then colour32.ofInt 1 (domMin dom) else min
def curveHi (dom max : Nat) : Nat := if domLog dom then colour32.ofInt 1 (domMax dom) else max

/-- SCALE, rounded to binary32 (R291). -/
def curveScale (dom min max : Nat) : Nat :=
  if domLog dom then colour32.pack false 4095 (domMax dom - domMin dom).toNat 0
  else match colour32.unpack min, colour32.unpack max with
    | .fin x m e, .fin y n g =>
      let lo := if e < g then e else g
      let d := sgn y n * 2 ^ (g - lo).toNat - sgn x m * 2 ^ (e - lo).toNat
      colour32.pack (d < 0) 4095 d.natAbs (-lo)
    | _, _ => 0

/-! ### The curve generator (R308, R309), over reals in units of 2^−192 -/

def rMul (a b : Int) : Int := a * b / (fixOne : Int)
def rDiv (a b : Int) : Int := a * (fixOne : Int) / b
/-- The real n / d. -/
def rat (n : Int) (d : Nat) : Int := n * (fixOne : Int) / d

/-- log2 of a positive real. -/
def rLog2 (x : Int) : Int := fixLog2 x.toNat fixOne * 2 ^ (fixBits - logBits)

/-- 2^y. -/
def rExp2 (y : Int) : Int :=
  let r := fixExp2 (y / 2 ^ (fixBits - logBits))
  if 0 ≤ r.2 then (r.1 : Int) * 2 ^ r.2.toNat else (r.1 : Int) / 2 ^ (-r.2).toNat

/-- x^y for x ≥ 0. -/
def rPow (x y : Int) : Int := if x ≤ 0 then 0 else rExp2 (rMul y (rLog2 x))

/-- e, by the sum of 1/k!, and the logarithm and power of base e. -/
def rE : Int := ((List.range 60).foldl (fun (a : Int × Int) (k : Nat) => (a.1 + a.2, a.2 / ((k : Int) + 1))) (0, (fixOne : Int))).1
def rLn (x : Int) : Int := rDiv (rLog2 x) (rLog2 rE)
def rExp (x : Int) : Int := rExp2 (rMul x (rLog2 rE))

def rClamp01 (x : Int) : Int := max 0 (min x fixOne)

/-- Node x_k of a domain (R291). -/
def nodeReal (dom min max k : Nat) : Int :=
  if domLog dom then rExp2 (domMin dom * (fixOne : Int) + (k : Int) * (domMax dom - domMin dom) * (fixOne : Int) / 4095)
  else let a := colour32.units fixBits min
       let b := colour32.units fixBits max
       a + (k : Int) * (b - a) / 4095

/-- The generator's functions. -/
def genReal (func : Nat) (x : Int) : Int :=
  let pqM1 := rat 2610 16384
  let pqM2 := rat 2523 32
  let pqC1 := rat 3424 4096
  let pqC2 := rat 2413 128
  let pqC3 := rat 2392 128
  let hA := rat 17883277 100000000
  let hB := rat 28466892 100000000
  let hC := rat 55991073 100000000
  let one : Int := fixOne
  if func = 0 then x
  else if func = 1 then
    (if x < rat 18 1000 then 9 * x / 2 else rMul (rat 1099 1000) (rPow x (rat 45 100)) - rat 99 1000)
  else if func = 2 then
    let al := rat 109929682680944 100000000000000
    (if x < rat 18053968510807 1000000000000000 then 9 * x / 2 else rMul al (rPow x (rat 45 100)) - (al - one))
  else if func = 3 then
    let y := rPow (rClamp01 (x / 100)) pqM1
    rPow (rDiv (pqC1 + rMul pqC2 y) (one + rMul pqC3 y)) pqM2
  else if func = 4 then
    let e := rClamp01 x
    (if 12 * e ≤ one then rPow (3 * e) (rat 1 2) else rMul hA (rLn (12 * e - hB)) + hC)
  else if func = 5 then
    (if x ≤ rat 1 128 then rMul (rat 105402377416545 10000000000000) x + rat 729055341958355 10000000000000000
     else rDiv (rLog2 x + rat 972 100) (rat 1752 100))
  else if func = 6 then
    (if 0 ≤ x then (rLog2 (x + rat 1 128) + 9 * one) / 16 else rat 1 8 + rDiv (8 * x) (rLn (2 * one)))
  else if func = 7 then rPow x (rat 10 24)
  else if func = 8 then
    let n := rPow (rClamp01 x) (rDiv one pqM2)
    100 * rPow (rDiv (max 0 (n - pqC1)) (pqC2 - rMul pqC3 n)) (rDiv one pqM1)
  else if func = 9 then
    let e := rClamp01 x
    (if 2 * e ≤ one then rMul e e / 3 else (rExp (rDiv (e - hC) hA) + hB) / 12)
  else if func = 10 then
    (if x ≤ rat 155251141552511 1000000000000000 then
      rDiv (x - rat 729055341958355 10000000000000000) (rat 105402377416545 10000000000000)
     else rExp2 (rMul (rat 1752 100) x - rat 972 100))
  else if func = 11 then
    (if rat 1 8 ≤ x then rExp2 (16 * x - 9 * one) - rat 1 128 else rDiv (x - rat 1 8) (rat 11541560327 1000000000))
  else rPow x (rat 24 10)

/-- The entries within one unit in the last place of a real (R308): the two neighbours, and where the real is itself a
binary32 value, that value and both its neighbours. -/
def genCandidates (v : Int) : List Nat :=
  let b := colour32.ofInt v (-(fixBits : Int))
  let r := colour32.units fixBits b
  let d := (v - r).natAbs
  let m := b % 2 ^ 31
  let up := b + 1
  let dn := if m = 0 then 2 ^ 31 + 1 else b - 1
  if d * 2 ^ 60 ≤ r.natAbs then [b, up, dn] else if (r < v) == (b < 2 ^ 31) then [b, up] else [b, dn]

/-- Entry k of a generated curve. -/
def genEntry (func dom min max k : Nat) : Nat :=
  let c := genCandidates (genReal func (nodeReal dom min max k))
  nth 0 c (Config.genPick func dom min max k % c.length)

/-- The quotient of two reals as binary32. -/
def slope (dy dx : Int) : Nat :=
  if dx = 0 then 0 else colour32.pack ((dy < 0) != (dx < 0)) dy.natAbs dx.natAbs 0

def genSlope (func dom min max k : Nat) : Nat :=
  let e (j : Nat) : Int := colour32.units fixBits (genEntry func dom min max j)
  slope (e (k + 1) - e k) (nodeReal dom min max (k + 1) - nodeReal dom min max k)

/-- Entry k of channel c of a set, the slopes being entries 4,096 and 4,097 (R296). -/
def CurveSet.entry (t : CurveSet) (c k : Nat) : Nat :=
  match t with
  | .none => Config.emptyTable (8192 * c + k)
  | .image b => leAt b (16400 * c + 4 * k) 4
  | .gen func dom min max =>
    if k = 4096 then genSlope func dom min max 0
    else if k = 4097 then
      (if func = 3 ∨ func = 4 ∨ func = 8 ∨ func = 9 then 0 else genSlope func dom min max 4094)
    else genEntry func dom min max k

/-- A curve (R292). -/
def curveApply (t : CurveSet) (c dom min max x : Nat) : Nat :=
  let lo := curveLo dom min
  let hi := curveHi dom max
  let F := colour32
  if F.lt x lo then F.add (t.entry c 0) (F.mul (F.sub x lo) (t.entry c 4096))
  else if F.le hi x then F.add (t.entry c 4095) (F.mul (F.sub x hi) (t.entry c 4097))
  else
    let sc := curveScale dom min max
    let p := if domLog dom then F.mul (F.sub (F.log2 x) (F.ofInt (domMin dom) 0)) sc else F.mul (F.sub x min) sc
    let i := Min.min (F.floor p).toNat 4094
    let f := F.sub p (F.ofInt i 0)
    F.add (t.entry c i) (F.mul f (F.sub (t.entry c (i + 1)) (t.entry c i)))

/-! ### The 3D LUT -/

/-- Component c of node n (R297). -/
def lutNode (t : Option (List Byte)) (n : Nat × Nat × Nat) (c : Nat) : Nat :=
  let a := 9 * (n.1 + 65 * n.2.1 + 4225 * n.2.2) + 3 * c
  match t with
  | none => Config.emptyTable (2 ^ 20 + a)
  | some b => ofF24 (leAt b a 3)

def advance (n : Nat × Nat × Nat) (c : Nat) : Nat × Nat × Nat :=
  if c = 0 then (n.1 + 1, n.2.1, n.2.2) else if c = 1 then (n.1, n.2.1 + 1, n.2.2) else (n.1, n.2.1, n.2.2 + 1)

/-- The channels by falling f, equal f in the order r, g, b. -/
def lutOrder (f : Nat → Nat) : List Nat :=
  [0, 1, 2].foldl (fun acc c => (acc.takeWhile (fun d => colour32.le (f c) (f d))) ++ c :: acc.dropWhile (fun d => colour32.le (f c) (f d))) []

/-- A pixel has a component outside [0, 1] (R294). -/
def lutClamps (p : Rgb) : Bool := [0, 1, 2].any (fun c => colour32.lt (rgbAt p c) 0 || colour32.lt f32One (rgbAt p c))

/-- The 3D LUT (R293). -/
def lutApply (t : Option (List Byte)) (p : Rgb) : Rgb :=
  let F := colour32
  let s (c : Nat) : Nat := F.mul (F.min (F.max (rgbAt p c) 0) f32One) 0x42800000
  let i (c : Nat) : Nat := Min.min (F.floor (s c)).toNat 63
  let f (c : Nat) : Nat := F.sub (s c) (F.ofInt (i c) 0)
  let o := lutOrder f
  let n0 := (i 0, i 1, i 2)
  let n1 := advance n0 (nth 0 o 0)
  let n2 := advance n1 (nth 0 o 1)
  let n3 := (i 0 + 1, i 1 + 1, i 2 + 1)
  rgbOf (fun c =>
    let out := F.add (lutNode t n0 c) (F.mul (f (nth 0 o 0)) (F.sub (lutNode t n1 c) (lutNode t n0 c)))
    let out := F.add out (F.mul (f (nth 0 o 1)) (F.sub (lutNode t n2 c) (lutNode t n1 c)))
    F.add out (F.mul (f (nth 0 o 2)) (F.sub (lutNode t n3 c) (lutNode t n2 c))))

/-! ### The display transform -/

/-- A register of the transform's CLR page. -/
def Transform.rd (t : Transform) (off : Nat) : Nat := (Sparse.get resetVal t.regs (CLR t.inst + off)).toNat

/-- MATRIX: R'G'B' output, or Y'CbCr (R290). -/
def Transform.matrix (t : Transform) : Nat := fld (t.rd 0x100) 24 4

/-- PRIMARIES, TRANSFER and MATRIX as they go with the tap's frames (R311). -/
def Transform.tags (t : Transform) : Nat := fld (t.rd 0x100) 16 12

/-- The display transform of one pixel, and whether the LUT clamped it (R290). -/
def Transform.apply (t : Transform) (p : Rgb) : Rgb × Bool :=
  let c := t.rd 0x100
  let p := if bitOf c 0 then matApply (fun k => t.rd (0x120 + 4 * k)) p else p
  let p := if bitOf c 1 && !t.noCurves then
    rgbOf (fun ch => curveApply t.curves.pre ch (t.rd 0x104) (t.rd 0x108) (t.rd 0x10C) (rgbAt p ch)) else p
  let lut := bitOf c 2 && !t.noLut
  let clamp := lut && lutClamps p
  let p := if lut then lutApply t.lut p else p
  let p := if bitOf c 3 && !t.noCurves then
    rgbOf (fun ch => curveApply t.curves.post ch (t.rd 0x110) (t.rd 0x114) (t.rd 0x118) (rgbAt p ch)) else p
  (if bitOf c 4 then matApply (fun k => t.rd (0x150 + 4 * k)) p else p, clamp)

/-- Stage 6 (R288): m and floor are registers of PSL page 1. -/
def sceneLinear (cfg : Nat) (m : Nat → Nat) (floor : Nat) (p : Rgb) : Rgb :=
  let p := if bitOf cfg 0 then matApply m p else rgbOf (fun c => colour32.repack (colour32.unpack (rgbAt p c)))
  if bitOf cfg 1 then rgbOf (fun c => colour32.max (rgbAt p c) floor) else p

end Sys2Proof.Machine
end

