-- ==== Sys2Proof/Machine/Pixel.lean ====
section
/-! DEFINITION. What a slice computes for each photosite and pixel (07_image_pipeline.md, R241–R262), as functions of the
settings, tables and lines of a frame. -/

namespace Sys2Proof.Machine

/-- CFA channel of a photosite: 0 red, 1 green on red rows, 2 green on blue rows, 3 blue; 0 under MONO (R234). -/
def cfaChannel (cfa x y : Nat) : Nat := if 4 ≤ cfa then 0 else (x % 2 + 2 * (y % 2)) ^^^ cfa

/-- The colour of a channel: 0 red, 1 green, 2 blue. -/
def chanColour (c : Nat) : Nat := (c + 1) / 2

/-- A rational rounded to nearest even and saturated to the working format, in units of 2^−8 (R241). -/
def workSat (i : Int) : Int := max (-(2 ^ 31 : Int)) (min i (2 ^ 31 - 1))

/-- An entry of the defect list in force: column, row, KIND (R247). -/
abbrev Defect := Nat × Nat × Nat

def Defect.hits (d : Defect) (x y : Nat) : Bool :=
  if d.2.2 = 0 then d.1 == x && d.2.1 == y else if d.2.2 = 1 then d.2.1 == y else d.1 == x && d.2.1 ≤ y

/-- The defect list read from its bytes: the entries in force, and how many are ignored (R247). -/
def readDefects (img : List Byte) (n : Nat) : List Defect × Nat :=
  let r := (List.range n).foldl (fun (a : List Defect × Nat × Nat) k =>
    let e := leAt img (4 * k) 4
    let key := fld e 16 14 * 2 ^ 15 + fld e 0 15
    if fld e 30 2 = 3 ∨ key < a.2.2 then (a.1, a.2.1 + 1, key)
    else (a.1 ++ [(fld e 0 15, fld e 16 14, fld e 30 2)], a.2.1, key)) ([], 0, 0)
  (r.1, r.2.1)

/-- Everything stages 1–6 of a frame depend on. -/
structure Pipe where
  w : Nat
  h : Nat
  depth : Nat
  cfa : Nat
  base : Nat
  regs : List (Nat × Word)
  tbl : Option (List Byte)
  defects : List Defect
  lines : List (Option (List Nat))
  deriving DecidableEq, Repr

def Pipe.rd (p : Pipe) (off : Nat) : Nat := (Sparse.get resetVal p.regs (p.base + off)).toNat
def Pipe.f (p : Pipe) (f : Fld) : Nat := fld (p.rd f.off) f.lo f.w

/-- A number of n bytes of the table image in force; where nothing was loaded its contents are open (R254). -/
def Pipe.tblAt (p : Pipe) (a n : Nat) : Nat :=
  match p.tbl with
  | some t => leAt t a n
  | none => Config.emptyTable (2 ^ 24 + a) % 256 ^ n

/-- The line that stands for line n: itself, or the last delivered line of the same CFA parity (R262). -/
def backLine (lines : List (Option (List Nat))) : Nat → Option (List Nat)
  | 0 => nth none lines 0
  | 1 => nth none lines 1
  | n + 2 => match nth none lines (n + 2) with
    | some l => some l
    | none => backLine lines n

def Pipe.delivered (p : Pipe) (n : Nat) : Bool := (nth none p.lines n).isSome

def Pipe.raw (p : Pipe) (x y : Nat) : Nat := match backLine p.lines y with | some l => nth 0 l x | none => 0

/-! ### Stages 1–3 -/

def Pipe.stage1 (p : Pipe) (x y : Nat) : Int :=
  let c := cfaChannel p.cfa x y
  let u : Int := p.raw x y * 2 ^ (16 - p.depth) * 256
  let d := u - p.rd (0x104 + 4 * c) % 2 ^ 24
  if p.f PSL_CFG_FPN_EN = 1 then
    let e := p.tblAt (4 * x) 4
    workSat (rneInt ((fld e 16 16 : Nat) * (d - sint 16 (fld e 0 16))) (2 ^ 15))
  else d

def Pipe.gridNode (p : Pipe) (c i j : Nat) : Nat := p.tblAt (0x20000 + 4290 * c + 2 * (65 * j + i)) 2

/-- The shading gain with 20 fraction bits (R244). -/
def Pipe.shading (p : Pipe) (x y : Nat) : Int :=
  let c := cfaChannel p.cfa x y
  let gx := x * 64 * 65536 / p.w
  let i := min (gx / 65536) 63
  let fx := gx - i * 65536
  let gy := y * 32 * 65536 / p.h
  let j := min (gy / 65536) 31
  let fy := gy - j * 65536
  let top := (65536 - fx) * p.gridNode c i j + fx * p.gridNode c (i + 1) j
  let bot := (65536 - fx) * p.gridNode c i (j + 1) + fx * p.gridNode c (i + 1) (j + 1)
  rneInt ((65536 - fy) * top + fy * bot : Nat) (2 ^ 24)

def Pipe.stage2 (p : Pipe) (x y : Nat) : Int :=
  let v := p.stage1 x y
  if p.f PSL_CFG_SHADING_EN = 1 then workSat (rneInt (v * p.shading x y) (2 ^ 20)) else v

def Pipe.stage3 (p : Pipe) (x y : Nat) : Int :=
  workSat (rneInt (p.stage2 x y * (p.rd (0x114 + 4 * cfaChannel p.cfa x y) % 65536 : Nat)) (2 ^ 12))

/-! ### The window stage -/

/-- A coordinate mirrored about the first and the last index. -/
def mirror (n : Nat) (i : Int) : Nat :=
  let i := if i < 0 then -i else i
  (if (n : Int) - 1 < i then 2 * ((n : Int) - 1) - i else i).toNat

/-- The photosite coordinates at an offset from a position. -/
def Pipe.at (p : Pipe) (x y : Nat) (o : Int × Int) : Nat × Nat := (mirror p.w (x + o.1), mirror p.h (y + o.2))

def Pipe.workAt (p : Pipe) (x y : Nat) (o : Int × Int) : Int := let q := p.at x y o; p.stage3 q.1 q.2

/-- Distance to the next photosite of the same colour. -/
def Pipe.pitch (p : Pipe) : Int := if 4 ≤ p.cfa then 1 else 2

/-- The eight same-colour neighbours, left, right, up, down, then the diagonals (R246, R248). -/
def around (d : Int) : List (Int × Int) := [(-d, 0), (d, 0), (0, -d), (0, d), (-d, -d), (d, -d), (-d, d), (d, d)]

def Pipe.listed (p : Pipe) (x y : Nat) (o : Int × Int) : Bool := let q := p.at x y o; p.defects.any (fun d => d.hits q.1 q.2)

/-- A dynamic defect at the window centre (R246). -/
def Pipe.dynamic (p : Pipe) (x y : Nat) : Bool :=
  let t : Int := p.f PSL_DEFECT_CFG_DYN_THRESH * 256
  let c := p.workAt x y (0, 0)
  t != 0 && ((around p.pitch).all (fun o => t < c - p.workAt x y o) || (around p.pitch).all (fun o => t < p.workAt x y o - c))

/-- A photosite of the window is defective. -/
def Pipe.bad (p : Pipe) (x y : Nat) (o : Int × Int) : Bool := p.listed x y o || (o == (0, 0) && p.dynamic x y)

/-- A photosite of the window in binary32, as stages 1–3 left it (R249). -/
def Pipe.plain (p : Pipe) (x y : Nat) (o : Int × Int) : Nat := f32OfFix (p.workAt x y o) 24

/-- A list of binary32 values in rising order. -/
def insertF (a : Nat) : List Nat → List Nat
  | [] => [a]
  | b :: r => if ieee32.lt a b then a :: b :: r else b :: insertF a r

def sortF (l : List Nat) : List Nat := l.foldl (fun acc a => insertF a acc) []

/-- x / 2^k in binary32. -/
def halve (a k : Nat) : Nat := ieee32.mul a (ieee32.ofInt 1 (-(k : Int)))

/-- The median of R248; none where no value is there. -/
def medianF (l : List Nat) : Option Nat :=
  let s := sortF l
  if s.isEmpty then none
  else if s.length % 2 = 1 then some (nth 0 s (s.length / 2))
  else some (halve (ieee32.add (nth 0 s (s.length / 2 - 1)) (nth 0 s (s.length / 2))) 1)

def inWindow (o : Int × Int) : Bool := -2 ≤ o.1 && o.1 ≤ 2 && -2 ≤ o.2 && o.2 ≤ 2

def offAdd (a b : Int × Int) : Int × Int := (a.1 + b.1, a.2 + b.2)

/-- A photosite of the window after defect handling (R248). -/
def Pipe.win (p : Pipe) (x y : Nat) (o : Int × Int) : Nat :=
  if !p.bad x y o then p.plain x y o
  else if o == (0, 0) then
    ((medianF (((around p.pitch).filter (fun q => !p.bad x y q)).map (p.plain x y))).getD (p.plain x y o))
  else
    let rings := [1, 2, 3, 4].flatMap (fun k => (around (k * p.pitch)).map (offAdd o))
    match rings.find? (fun q => inWindow q && !p.bad x y q) with
    | some q => p.plain x y q
    | none => p.plain x y o

/-- 2 a in binary32. -/
def twice (a : Nat) : Nat := ieee32.mul a 0x40000000

/-- The directional green estimate at a red or blue centre (R249). -/
def greenAt (eps : Nat) (v : Int × Int → Nat) : Nat :=
  let F := ieee32
  let curve (a b : Int × Int) : Nat := F.sub (F.sub (twice (v (0, 0))) (v a)) (v b)
  let dh := F.add (F.abs (F.sub (v (-1, 0)) (v (1, 0)))) (F.abs (curve (-2, 0) (2, 0)))
  let dv := F.add (F.abs (F.sub (v (0, -1)) (v (0, 1)))) (F.abs (curve (0, -2) (0, 2)))
  let gh := F.add (halve (F.add (v (-1, 0)) (v (1, 0))) 1) (halve (curve (-2, 0) (2, 0)) 2)
  let gv := F.add (halve (F.add (v (0, -1)) (v (0, 1))) 1) (halve (curve (0, -2) (0, 2)) 2)
  let wh := F.div f32One (F.add dh eps)
  let wv := F.div f32One (F.add dv eps)
  F.div (F.add (F.mul wh gh) (F.mul wv gv)) (F.add wh wv)

/-- The sum of binary32 values, left to right. -/
def sumF : List Nat → Nat
  | [] => 0
  | a :: r => r.foldl ieee32.add a

/-- The mean of two or four binary32 values. -/
def meanF (l : List Nat) : Nat := halve (sumF l) (if l.length = 4 then 2 else if l.length = 2 then 1 else 0)

/-- The three estimates at a position before noise reduction (R249). -/
def Pipe.demosaic (p : Pipe) (x y : Nat) : Rgb :=
  let v := p.win x y
  if 4 ≤ p.cfa then rgbOf (fun _ => v (0, 0))
  else
    let own := chanColour (cfaChannel p.cfa x y)
    let g := if own = 1 then v (0, 0) else greenAt (p.rd 0x1100) v
    let gb (s : Int × Int) : Nat := meanF [v (s.1 - 1, s.2), v (s.1 + 1, s.2), v (s.1, s.2 - 1), v (s.1, s.2 + 1)]
    let sites (col : Nat) : List (Int × Int) :=
      if own = 1 then
        (if chanColour (cfaChannel p.cfa (x + 1) y) = col then [(-1, 0), (1, 0)] else [(0, -1), (0, 1)])
      else [(-1, -1), (1, -1), (-1, 1), (1, 1)]
    rgbOf (fun col =>
      if col = own then v (0, 0) else if col = 1 then g
      else ieee32.add g (meanF ((sites col).map (fun s => ieee32.sub (v s) (gb s)))))

/-- The noise model's register index for a colour: the green of the centre's row (R250). -/
def Pipe.noiseIndex (p : Pipe) (y col : Nat) : Nat :=
  if 4 ≤ p.cfa then 0
  else if col = 0 then 0 else if col = 2 then 3
  else if cfaChannel p.cfa 0 y = 1 ∨ cfaChannel p.cfa 1 y = 1 then 1 else 2

/-- σ²(v) of a channel (R250). -/
def Pipe.sigma2 (p : Pipe) (c v : Nat) : Nat :=
  ieee32.max (ieee32.add (ieee32.mul (p.rd (0x1104 + 4 * c)) v) (p.rd (0x1114 + 4 * c))) (ieee32.ofInt 1 (-40))

/-- WT: the weight table, interpolated linearly (R250). -/
def Pipe.weight (p : Pipe) (x : Nat) : Nat :=
  let F := ieee32
  if !F.lt x 0x41000000 then 0
  else
    let pos := F.mul x 0x40800000
    let i := (F.floor pos).toNat
    let e (k : Nat) : Nat := if 32 ≤ k then 0 else F.ofInt (fld (p.rd (0x1180 + 4 * (k / 2))) (16 * (k % 2)) 16) (-16)
    F.add (e i) (F.mul (F.sub pos (F.ofInt i 0)) (F.sub (e (i + 1)) (e i)))

def windowOffsets : List (Int × Int) := ([-2, -1, 0, 1, 2] : List Int).flatMap (fun dy => ([-2, -1, 0, 1, 2] : List Int).map (fun dx => (dx, dy)))

/-- Stage 4 at a position (R249, R250). -/
def Pipe.stage4 (p : Pipe) (x y : Nat) : Rgb :=
  let e := p.demosaic x y
  let str := p.rd 0x1124
  let F := ieee32
  if F.abs str = 0 then e
  else rgbOf (fun col =>
    let ec := rgbAt e col
    let s2 := p.sigma2 (p.noiseIndex y col) ec
    let ps := windowOffsets.filter (fun o => o != (0, 0) &&
      (4 ≤ p.cfa || (let q := p.at x y o; chanColour (cfaChannel p.cfa q.1 q.2) == col)))
    let wp := ps.map (fun o =>
      let v := p.win x y o
      let d := F.sub v ec
      (F.mul str (p.weight (F.div (F.mul d d) s2)), v))
    let num := F.add ec (sumF (wp.map (fun a => F.mul a.1 a.2)))
    F.div num (F.add f32One (sumF (wp.map (fun a => a.1)))))

/-! ### Temporal noise reduction -/

/-- A pixel of the reference: its channels and the count averaged (R251). -/
structure RefPixel where
  rgb : Rgb
  n : Nat
  deriving DecidableEq, Repr

/-- A reference pixel from its 8 bytes. -/
def RefPixel.ofBytes (l : List Byte) : RefPixel := ⟨(ofHalf (leAt l 0 2), ofHalf (leAt l 2 2), ofHalf (leAt l 4 2)), leAt l 6 2⟩

/-- The bytes of a reference pixel. -/
def RefPixel.bytes (r : RefPixel) : List Byte :=
  leBytes 2 (halfOf r.rgb.1) ++ leBytes 2 (halfOf r.rgb.2.1) ++ leBytes 2 (halfOf r.rgb.2.2) ++ leBytes 2 r.n

/-- Stage 5 on one pixel: none for the reference where R253 sets n_eff to 0. -/
def Pipe.stage5 (p : Pipe) (y : Nat) (cur : Rgb) (ref : Option RefPixel) : RefPixel :=
  let nmax := p.f PSL_TNR_CFG_NMAX
  let F := ieee32
  match ref with
  | none => ⟨cur, min 1 nmax⟩
  | some r =>
    let m := F.div (F.abs (F.sub cur.2.1 r.rgb.2.1)) (F.sqrt (p.sigma2 (p.noiseIndex y 1) cur.2.1))
    let tlo := p.rd 0x112C
    let thi := p.rd 0x1130
    let neff := if F.le m tlo then r.n else if F.le thi m then 0
      else (F.floor (F.div (F.mul (F.ofInt r.n 0) (F.sub thi m)) (F.sub thi tlo))).toNat
    let d := F.ofInt (neff + 1) 0
    ⟨rgbOf (fun c => F.add (rgbAt r.rgb c) (F.div (F.sub (rgbAt cur c) (rgbAt r.rgb c)) d)), min (neff + 1) nmax⟩

/-- Stage 6 with the registers of PSL page 1. -/
def Pipe.stage6 (p : Pipe) (q : Rgb) : Rgb := sceneLinear (p.rd 0x1300) (fun k => p.rd (0x1304 + 4 * k)) (p.rd 0x1334) q

/-! ### Crop and scaling -/

/-- π in units of 2^−192, by Machin's formula. -/
def arctanInv (x : Nat) : Int :=
  ((List.range 90).foldl (fun (a : Int × Int) (k : Nat) =>
    (a.1 + (if k % 2 = 0 then a.2 else -a.2) / (2 * (k : Int) + 1), a.2 / ((x * x : Nat) : Int))) (0, (fixOne : Int) / x)).1

def rPi : Int := 4 * (4 * arctanInv 5 - arctanInv 239)

/-- sin of a real, by its series. -/
def rSin (x : Int) : Int :=
  ((List.range 60).foldl (fun (a : Int × Int) (k : Nat) =>
    (a.1 + a.2, -(rMul (rMul a.2 x) x) / ((2 * (k : Int) + 2) * (2 * (k : Int) + 3)))) (0, x)).1

/-- The Lanczos kernel with a = 4 at n / 64 (R259). -/
def lanczos (n : Int) : Int :=
  if n = 0 then fixOne
  else if n.natAbs ≥ 256 then 0
  else
    let x := rPi * n / 64
    rDiv (4 * rMul (rSin x) (rSin (x / 4))) (rMul x x)

/-- A row of the reset scaler tables: normalised to 16,384, the residue added to the largest coefficient. -/
def resetRow (phase : Nat) : List Int :=
  let k := (List.range 8).map (fun (j : Nat) => lanczos (64 * ((j : Int) - 3) - phase))
  let sum := k.foldl (· + ·) 0
  let q := k.map (fun v => rneInt (v * 16384) sum.toNat)
  let best := (List.range 8).foldl (fun b j => if nth 0 q b < nth 0 q j then j else b) 0
  upd q best (fun v => v + (16384 - q.foldl (· + ·) 0))

/-- A scaler coefficient, signed Q2.14: tap, axis, phase, k (R254). -/
def Pipe.coef (p : Pipe) (tap : Nat) (vert : Bool) (phase k : Nat) : Int :=
  match p.tbl with
  | some t => sint 16 (leAt t (0x24800 + 0x800 * tap + (if vert then 0x400 else 0) + 16 * phase + 2 * k) 2)
  | none => nth 0 (resetRow phase) k

/-- The input position and phase of output index j (R258). -/
def scalePos (j inSize outSize : Nat) : Int × Nat :=
  let P : Int := ((2 * j + 1) * inSize * 2 ^ 24 / (2 * outSize) : Nat) - 2 ^ 23
  let i := P / 2 ^ 24
  let ph := ((P % 2 ^ 24).toNat + 2 ^ 17) / 2 ^ 18
  if ph = 64 then (i + 1, 0) else (i, ph)

/-- A coordinate held inside the frame. -/
def clampIdx (n : Nat) (i : Int) : Nat := if i < 0 then 0 else min i.toNat (n - 1)

/-- Σ C[k] × in(k) over eight inputs, in order of k (R258). -/
def scaleSum (c : Nat → Int) (v : Nat → Nat) : Nat :=
  (List.range 8).foldl (fun acc k =>
    let t := ieee32.mul (ieee32.ofInt (c k) (-14)) (v k)
    if k = 0 then t else ieee32.add acc t) 0

/-- The settings of a tap in force: its registers from its block of page 2 or 3 (R280). -/
structure TapSet where
  cfg : Nat
  cropXy : Nat
  cropWh : Nat
  outWh : Nat
  fmt : Nat
  base : Nat
  stride : Nat
  plane : Nat
  bufsz : Nat
  recBase : Nat
  spill : Nat
  deriving DecidableEq, Repr

def TapSet.sink (t : TapSet) : Nat := fld t.cfg 0 2
def TapSet.asid (t : TapSet) : Nat := fld t.cfg 2 6
def TapSet.shedPri (t : TapSet) : Nat := fld t.cfg 8 2
def TapSet.fill (t : TapSet) : Bool := bitOf t.cfg 10
def TapSet.bufMode (t : TapSet) : Bool := bitOf t.cfg 11
def TapSet.nbuf (t : TapSet) : Nat := fld t.cfg 12 4 + 1
def TapSet.recLog2 (t : TapSet) : Nat := fld t.cfg 16 4
def TapSet.cropX (t : TapSet) : Nat := fld t.cropXy 0 16
def TapSet.cropY (t : TapSet) : Nat := fld t.cropXy 16 16
def TapSet.cropW (t : TapSet) : Nat := fld t.cropWh 0 16
def TapSet.cropH (t : TapSet) : Nat := fld t.cropWh 16 16
def TapSet.outW (t : TapSet) : Nat := fld t.outWh 0 16
def TapSet.outH (t : TapSet) : Nat := fld t.outWh 16 16
def TapSet.format (t : TapSet) : Nat := fld t.fmt 0 4
def TapSet.full (t : TapSet) : Bool := bitOf t.fmt 4
def TapSet.ydepth (t : TapSet) : Nat := nth 10 [10, 12, 16] (fld t.fmt 5 2)
/-- A Y'CbCr format, one with half the chroma lines, one with a chroma plane (R260). -/
def TapSet.ycc (t : TapSet) : Bool := 4 ≤ t.format && t.format ≤ 6
def TapSet.sub420 (t : TapSet) : Bool := t.format == 5
def TapSet.planar (t : TapSet) : Bool := t.format == 4 || t.format == 5

/-- Bytes of a line, of the luma plane where there are two. -/
def TapSet.lineBytes (t : TapSet) : Nat :=
  let per := nth 4 [4, 8, 8, 12, 2, 2, 2, 4] t.format
  t.outW * per

/-- A tap of a slice in a register set. -/
def tapSetOf (rd : Nat → Nat) (t : Nat) : TapSet :=
  let b := 0x2100 + 0x1000 * (t / 2) + 0x100 * (t % 2)
  ⟨rd b, rd (b + 4), rd (b + 8), rd (b + 0xC), rd (b + 0x10), rd (b + 0x14) + 2 ^ 32 * rd (b + 0x18), rd (b + 0x1C),
   rd (b + 0x20), rd (b + 0x24), rd (b + 0x28) + 2 ^ 32 * rd (b + 0x2C), rd (b + 0x30) + 2 ^ 32 * rd (b + 0x34)⟩

/-- The scene-linear lines that output line m reads, from and to, before they are held inside the frame (R259). -/
def TapSet.support (t : TapSet) (m : Nat) : Int × Int :=
  let i := (scalePos m t.cropH t.outH).1 + t.cropY
  (i - 3, i + 4)

/-- One scaled pixel: the horizontal pass on each of eight lines, then the vertical pass (R258, R259). scene x y is the
scene-linear pixel at a frame position; ch and cv are the coefficients. -/
def scaledPixel (t : TapSet) (w h : Nat) (ch cv : Nat → Nat → Int) (scene : Nat → Nat → Rgb) (x m : Nat) : Rgb :=
  let px := scalePos x t.cropW t.outW
  let py := scalePos m t.cropH t.outH
  rgbOf (fun c => scaleSum (cv py.2) (fun k =>
    let y := clampIdx h (t.cropY + py.1 - 3 + k)
    scaleSum (ch px.2) (fun j => rgbAt (scene (clampIdx w (t.cropX + px.1 - 3 + j)) y) c)))

/-! ### Output formats -/

/-- (a × v + b), rounded to nearest even, for a binary32 v; a value that is no number is open. -/
def quantLin (d a b : Nat) (lo hi : Int) (v : Nat) : Nat :=
  match ieee32.unpack v with
  | .nan => Config.nanCode % 2 ^ d
  | .inf neg => (if neg then lo else hi).toNat
  | .fin neg m e =>
    let i := if 0 ≤ e then (a : Int) * sgn neg m * 2 ^ e.toNat + b
      else rneInt ((a : Int) * sgn neg m + (b : Int) * 2 ^ (-e).toNat) (2 ^ (-e).toNat)
    (max lo (min hi i)).toNat

/-- The quantiser (R261). -/
def quantise (full chroma : Bool) (d v : Nat) : Nat :=
  let s := 2 ^ (d - 8)
  if full then quantLin d (2 ^ d - 1) (if chroma then 2 ^ (d - 1) else 0) 0 (2 ^ d - 1) v
  else quantLin d (s * (if chroma then 224 else 219)) (s * (if chroma then 128 else 16)) s (2 ^ d - s - 1) v

/-- Binary32 written by a float format: a NaN is 0 and an infinity saturates (R261). -/
def floatOut (v : Nat) : Nat :=
  match ieee32.unpack v with
  | .nan => 0
  | .inf neg => (if neg then 2 ^ 31 else 0) + 0x7F7FFFFF
  | .fin _ _ _ => v

/-- One pixel of formats 0x0–0x3 and 0x7 (R260). -/
def pixelBytes (t : TapSet) (p : Rgb) : List Byte :=
  let q (d c : Nat) : Nat := quantise t.full false d (rgbAt p c)
  if t.format = 0 then leBytes 4 (q 10 0 + 2 ^ 10 * q 10 1 + 2 ^ 20 * q 10 2 + 3 * 2 ^ 30)
  else if t.format = 1 then leBytes 2 (q 16 0) ++ leBytes 2 (q 16 1) ++ leBytes 2 (q 16 2) ++ leBytes 2 0xFFFF
  else if t.format = 2 then leBytes 2 (halfOf p.1) ++ leBytes 2 (halfOf p.2.1) ++ leBytes 2 (halfOf p.2.2) ++ leBytes 2 0x3C00
  else if t.format = 3 then leBytes 4 (floatOut p.1) ++ leBytes 4 (floatOut p.2.1) ++ leBytes 4 (floatOut p.2.2)
  else leBytes 1 (q 8 0) ++ leBytes 1 (q 8 1) ++ leBytes 1 (q 8 2) ++ leBytes 1 0xFF

/-- A chroma component of pair k of a line of n pixels: (C(2k − 1) + 2C(2k) + C(2k + 1)) / 4, edges replicated (R261). -/
def chromaAt (line : List Rgb) (c k : Nat) : Nat :=
  let v (i : Int) : Nat := rgbAt (nth (0, 0, 0) line (clampIdx line.length i)) c
  let i : Int := 2 * k
  halve (ieee32.add (ieee32.add (v (i - 1)) (twice (v i))) (v (i + 1))) 2

/-- A 16-bit container: a code of d bits in its most significant bits. -/
def container (d v : Nat) : List Byte := leBytes 2 (v * 2 ^ (16 - d))

/-- The luma plane's or the packed bytes of a line (R260). -/
def lumaBytes (t : TapSet) (line : List Rgb) : List Byte :=
  if t.planar then line.flatMap (fun p => container t.ydepth (quantise t.full false t.ydepth p.1))
  else if t.format = 6 then
    (List.range (line.length / 2)).flatMap (fun k =>
      let y (i : Nat) : Nat := quantise t.full false 8 (nth (0, 0, 0) line i).1
      leBytes 1 (y (2 * k)) ++ leBytes 1 (quantise t.full true 8 (chromaAt line 1 k)) ++
        leBytes 1 (y (2 * k + 1)) ++ leBytes 1 (quantise t.full true 8 (chromaAt line 2 k)))
  else line.flatMap (pixelBytes t)

/-- The chroma plane's bytes of a line, or of two lines averaged for 4:2:0 (R261). -/
def chromaBytes (t : TapSet) (a : List Rgb) (b : Option (List Rgb)) : List Byte :=
  let d := t.ydepth
  (List.range (a.length / 2)).flatMap (fun k =>
    let v (c : Nat) : Nat := match b with
      | none => chromaAt a c k
      | some b => halve (ieee32.add (chromaAt a c k) (chromaAt b c k)) 1
    container d (quantise t.full true d (v 1)) ++ container d (quantise t.full true d (v 2)))

end Sys2Proof.Machine
end

