-- ==== Sys2Proof/Machine/Slices.lean ====
section
/-! DEFINITION. The slices as they run (07_image_pipeline.md, R251–R278): frames and lines taken up, release to the sinks,
records, spill rings, recompute by PS4, retirement, table loads. -/

namespace Sys2Proof.Machine

/-! ### Accesses that belong to no numbered master (R623) -/

/-- HBM read by an engine without a master number: none where the access is refused or the data is lost. -/
def State.engineRead (s : State) (a n : Nat) : Option (List Byte) :=
  if !(a + n ≤ s.installed && s.inPlan 17 a n) then none
  else if s.anyPcOut && (spans a n).any (fun x => (s.regionAt x).any (fun r => !s.byteLive r x)) then none
  else some (s.hbmRead a n)

/-- HBM written by such an engine, and whether the write lands. -/
def State.engineWrite (s : State) (a : Nat) (l : List Byte) : Bool × State :=
  if a + l.length ≤ s.installed && s.inPlan 17 a l.length then (true, s.hbmStore a l) else (false, s)

/-- A range of HBM inside installed memory and the active plan. -/
def State.hbmInside (s : State) (a n : Nat) : Bool := a + n ≤ s.installed && s.inPlan 17 a n

/-! ### DMA request credits (R650) -/

/-- A request to the channels that count this source and selection; one that finds a counter saturated is lost. -/
def State.dmaCredit (s : State) (src sel : Nat) : State :=
  (List.range 16).foldl (fun s c =>
    let b := DMA c
    if s.powered b && s.g b DMA_CFG_REQ_SRC == src && (src == 1 || s.g b DMA_CFG_REQ_SEL == sel) then
      (if s.g b DMA_REQ_STAT_CREDITS = 65535 then s.addSat b DMA_CNT_LOST_REQ 1 else s.addSat b DMA_REQ_STAT_CREDITS 1)
    else s) s

/-! ### Work and BUSY -/

/-- Work ends on a block: BUSY falls at once while the block is enabled; a disabled block stops by BLOCK_STOPPED (R39). -/
def State.workEnds (s : State) (b : Nat) : State := if s.enabled b then s.setBusy b false else s

/-! ### Slices -/

def State.sl (s : State) (p : Nat) : Slice := nth Slice.init s.slices p
def State.setSlice (s : State) (p : Nat) (f : Slice → Slice) : State := { s with slices := upd s.slices p f }

def State.tapState (s : State) (p t : Nat) : TapState := nth TapState.init (s.sl p).taps t
def State.setTapState (s : State) (p t : Nat) (f : TapState → TapState) : State :=
  s.setSlice p (fun x => { x with taps := upd x.taps t f })

/-- The base that places a tap's registers of pages 2 and 3. -/
def tapBase (p t : Nat) : Nat := PSL p + 0x1000 * (t / 2) + 0x100 * (t % 2)

/-- A tap's settings in the active set. -/
def State.tapActive (s : State) (p t : Nat) : TapSet := tapSetOf (fun o => s.rdA (PSL p + o)) t
def State.tapShadow (s : State) (p t : Nat) : TapSet := tapSetOf (fun o => s.rd (PSL p + o)) t

def SliceFrame.tap (f : SliceFrame) (p t : Nat) : TapSet := tapSetOf (fun o => (Sparse.get resetVal f.regs (PSL p + o)).toNat) t
def SliceFrame.run (f : SliceFrame) (t : Nat) : TapRun := nth ⟨false, none, 0, 0, 0, 0, true, true⟩ f.runs t
def SliceFrame.setRun (f : SliceFrame) (t : Nat) (g : TapRun → TapRun) : SliceFrame := { f with runs := upd f.runs t g }

def SliceFrame.pipe (f : SliceFrame) (p : Nat) : Pipe :=
  ⟨f.frame.w, f.frame.h, f.frame.depth, f.frame.cfa, PSL p, f.regs, f.tbl, f.defects, f.lines⟩

/-- A slice's frame changed, by its FRAME_SEQ. -/
def State.setFrame (s : State) (p seq : Nat) (g : SliceFrame → SliceFrame) : State :=
  s.setSlice p (fun x => { x with frames := x.frames.map (fun f => if f.frame.seq = seq then g f else f) })

def State.sliceFrame (s : State) (p seq : Nat) : Option SliceFrame := (s.sl p).frames.find? (fun f => f.frame.seq == seq)

/-- The registers of the active sets at bases from lo to hi. -/
def State.activeRegs (s : State) (lo hi : Nat) : List (Nat × Word) := s.actv.filter (fun x => decide (lo ≤ x.1) && decide (x.1 < hi))

def State.clrOf (s : State) (i : Nat) : Clr := nth Clr.init s.clr i
def State.setClr (s : State) (i : Nat) (f : Clr → Clr) : State := { s with clr := upd s.clr i f }

/-- The display transform in force on a CLR instance (R290, R304). -/
def State.transform (s : State) (i : Nat) : Transform :=
  let src := s.clrOf (s.ga (CLR i) CLR_CFG_LUT_SRC)
  ⟨i, s.activeRegs (CLR i) (CLR i + 0x1000), (s.clrOf i).curveA, src.lutA, (s.clrOf i).curveBypass == 2, src.lutBypass == 2⟩

/-- The slice runs and takes frames; after a takeover it does so whatever its ENABLE. -/
def State.sliceRuns (s : State) (p : Nat) : Bool := (s.enabled (PSL p) || (s.sl p).takeover) && s.powered (PSL p)

/-- PS4 is the spare and can recompute (R224, R268). -/
def State.spareReady (s : State) : Bool := s.on (PSL 4) PSL_STAT_SPARE && !s.on (PSL 4) PSL_STAT_RETIRED && s.powered (PSL 4)

/-! ### Tap sinks -/

def spillBytes (l : List SpillLine) : Nat := (l.map (fun x => cdiv x.bytes.length 256)).foldl (· + ·) 0

/-- The registers that follow a tap's spill ring. -/
def State.spillSync (s : State) (p t : Nat) : State :=
  let n := spillBytes (s.tapState p t).spill
  (s.p (tapBase p t) PSL_TAP_SPILL_STAT_HELD n).p (tapBase p t) PSL_TAP_SPILL_STAT_ACTIVE (b2n (!(s.tapState p t).spill.isEmpty))

/-- A tap drops the frame: the rest of it is not written (R263, R273). -/
def State.tapDrop (s : State) (p t seq flag : Nat) (cnt : Fld) : State :=
  let s := s.setFrame p seq (fun f => f.setRun t (fun r => { r with flags := r.flags ||| 2 ^ flag, ended := true }))
  (s.addSat (tapBase p t) cnt 1).irq (PSL p) 12

/-- Bytes of a line enter the spill ring; a line that does not fit makes the tap drop the frame (R271, R273). -/
def State.spillPut (s : State) (p t seq spill addr : Nat) (l : List Byte) : State :=
  let st := s.tapState p t
  let s := if st.spill.isEmpty then (s.hbmSpan spill (2 ^ 21) false).irq (PSL p) 11 else s
  if 8192 < spillBytes st.spill + cdiv l.length 256 then
    let s := s.setTapState p t (fun x => { x with spill := x.spill.filter (fun e => e.seq != seq), blocked := true })
    (s.tapDrop p t seq 5 PSL_TAP_DROP_SPILL).spillSync p t
  else (s.setTapState p t (fun x => { x with spill := x.spill ++ [(⟨seq, addr, l⟩ : SpillLine)] })).spillSync p t

/-- Bytes of a line written to the sink of a tap, or diverted (R271–R273). -/
def State.tapWrite (s : State) (p t seq : Nat) (ts : TapSet) (addr : Nat) (l : List Byte) : State :=
  if l.isEmpty then s
  else if !(s.tapState p t).spill.isEmpty then s.spillPut p t seq ts.spill addr l
  else
    let r := s.masterWrite (4 * p + t) ts.asid addr l
    if r.1 = .waits then r.2.spillPut p t seq ts.spill addr l
    else if r.1 = .xlt then r.2.tapDrop p t seq 6 PSL_TAP_DROP_XLT
    else r.2

/-- The spill ring drains to host memory, oldest line first, until it is empty or a write must wait (R271). -/
def State.spillDrain (s : State) (p t : Nat) : Nat → State
  | 0 => s
  | n + 1 =>
    match (s.tapState p t).spill with
    | [] => s.spillSync p t
    | e :: r =>
      let asid := ((s.sliceFrame p e.seq).map (fun f => (f.tap p t).asid)).getD (s.tapActive p t).asid
      let x := s.masterWrite (4 * p + t) asid e.addr e.bytes
      if x.1 = .waits then x.2.spillSync p t
      else if x.1 = .xlt then
        let s := x.2.setTapState p t (fun y => { y with spill := r.filter (fun z => z.seq != e.seq) })
        (s.tapDrop p t e.seq 6 PSL_TAP_DROP_XLT).spillDrain p t n
      else (x.2.setTapState p t (fun y => { y with spill := r })).spillDrain p t n

/-- The address of a line in a buffer (R263). -/
def TapSet.lineAddr (ts : TapSet) (buf m : Nat) : Nat := ts.base + buf * ts.bufsz * 4096 + m * ts.stride

/-! ### Records -/

/-- A tap record is written: what the senders and the codec see of the tap (R508, R543). -/
def State.tapRecorded (s : State) (tap fseq : Nat) (buf : Option Nat) : State :=
  let old : TapNews := (s.tapNews.find? (fun (x : TapNews) => x.tap == tap)).getD ⟨tap, 0, 0, 0, []⟩
  let n : TapNews := match buf with
    | some b => { old with count := old.count + 1, fseq := fseq, buf := b }
    | none => old
  { s with tapNews := { n with recent := (fseq, buf.isSome) :: n.recent.take 31 } :: s.tapNews.filter (fun (x : TapNews) => x.tap != tap) }

/-- The layers that follow a tap of a retired slice follow the same tap of PS4 (R608). -/
def State.dspRepoint (s : State) (p : Nat) : State :=
  forN 4 s (fun l s =>
    let b := DSP + 0x40 * l
    let s := if s.on b DSP_L_CFG_SOURCE && s.g b DSP_L_SRC_SLICE == p then s.p b DSP_L_SRC_SLICE 4 else s
    if s.ga b DSP_L_CFG_SOURCE == 1 && s.ga b DSP_L_SRC_SLICE == p then s.pa b DSP_L_SRC_SLICE 4 else s)

/-- The senders that read a tap of a retired slice read the same tap of PS4 (R540), and so do the display's layers. -/
def State.sndRepoint (s : State) (p : Nat) : State :=
  let s := s.dspRepoint p
  let s := { s with tapNews := (s.tapNews.filter (fun (x : TapNews) => x.tap / 16 != 4)).map (fun (x : TapNews) =>
    if x.tap / 16 = p then { x with tap := 64 + x.tap % 16 } else x) }
  forN 32 s (fun i s =>
    let b := ETH (i / 8) + 0x40 * (i % 8)
    if s.on b ETH_SND_CFG_EN && !s.on b ETH_SND_CFG_TYPE && s.g b ETH_SND_SRC_SLICE == p then
      let s := s.p b ETH_SND_SRC_SLICE 4
      { s with eth := upd s.eth (i / 8) (fun (u : EthUnit) => { u with senders := upd u.senders (i % 8) (fun (x : Sender) =>
          { x with regs := upd x.regs 1 (fun _ => s.rd (b + ETH_SND_SRC.off)) }) }) }
    else s)

/-- The 64 bytes of a tap's record (R264). -/
def recordBytes (f : Frame) (no setId flags : Nat) (buf : Option Nat) (src outWh recomp unrec : Nat) : List Byte :=
  let r := leBytes 8 f.seq ++ leBytes 4 no ++ leBytes 2 setId ++ leBytes 2 f.flags ++ leBytes 2 flags ++
    leBytes 1 (buf.getD 0xFF) ++ leBytes 1 src ++ leBytes 4 outWh ++ leBytes 2 recomp ++ leBytes 2 unrec ++ zeros 4 ++
    f.start.bytes ++ zeros 16
  r ++ leBytes 4 (crc32c r)

/-- The tap flags of a frame's record. -/
def SliceFrame.tapFlags (f : SliceFrame) (r : TapRun) : Nat :=
  let proc := f.mode == 0
  r.flags ||| (if proc && f.lines.length < f.frame.h then 1 else 0) ||| (if f.overrun then 8 else 0) |||
    (if proc && f.refReset then 2 ^ 9 else 0) ||| (if f.spare then 2 ^ 10 else 0)

/-- The records due on a tap are written in FRAME_SEQ order, each once its frame is closed, its lines are released and none
of them waits in the spill ring (R264). -/
def State.tapRecords (s : State) (p t : Nat) : List SliceFrame → State
  | [] => s
  | f :: rest =>
    let r := f.run t
    if !r.on || r.recorded then s.tapRecords p t rest
    else if !(f.closed && r.ended) || (s.tapState p t).spill.any (fun e => e.seq == f.frame.seq) then s
    else
      let ts := f.tap p t
      let no := (s.tapState p t).recNo
      let l := recordBytes f.frame no f.frame.setId (f.tapFlags r) r.buf (p * 16 + t) ts.outWh r.recomp r.unrec
      let x := s.masterWrite (4 * p + t) ts.asid (ts.recBase + 64 * (no % 2 ^ ts.recLog2)) l
      if x.1 = .waits then x.2
      else
        let s := x.2.setTapState p t (fun y => { y with recNo := inc32 y.recNo })
        let s := s.setFrame p f.frame.seq (fun g => g.setRun t (fun r => { r with recorded := true }))
        let s := s.count { cls := 6, ev := 2, inst := some p }
        let s := ((s.addMod (tapBase p t) PSL_TAP_BUF_RECORDS 1).irq (PSL p) t).tapRecorded (16 * p + t) f.frame.seq r.buf
        s.tapRecords p t rest

/-- Frames that every tap has recorded leave the slice, and BUSY follows (R749). -/
def State.sliceTidy (s : State) (p : Nat) : State :=
  let s := (List.range 4).foldl (fun s t => s.tapRecords p t (s.sl p).frames) s
  let s := s.setSlice p (fun x => { x with frames := x.frames.filter (fun f => !f.closed || f.runs.any (fun r => r.on && !r.recorded)) })
  if (s.sl p).frames.isEmpty then s.workEnds (PSL p) else s

/-! ### Frames and lines -/

/-- The shed and decimation of a new frame: 0 processed, 1 decimated, 2 shed (R275, R278). stopped: the processed routes are
stopped by step 5. -/
def State.frameMode (s : State) (p : Nat) (stopped : Bool) : Nat :=
  let d := s.g (PSL p) PSL_STAT_DECIM
  let n := (s.sl p).decimCount
  if stopped then 2
  else if d = 0 then 0
  else if d = 4 then 1
  else if n % 2 ^ d = 0 then 0 else 1

/-- What shedding steps 3 and 4 ask of a slice (R275, R276): the taps shed, and the decimation. -/
def State.shedTarget (s : State) (p : Nat) : Nat × Nat :=
  let step := s.g PWR PWR_SHED_STEP
  if !s.shed.scope.contains p || step < 3 then (0, 0)
  else
    let least := max 1 (6 - step)
    let taps := (List.range 4).foldl (fun n t => let pri := (s.tapActive p t).shedPri; if pri != 0 && decide (least ≤ pri) then n + 2 ^ t else n) 0
    (taps, min (min 4 (step - 5)) (s.ga (PSL p) PSL_SHED_CFG_DECIM_MAX))

/-- A frame boundary of a slice: steps 3 and 4 take effect or are released, and PSL_STAT says so (R275, R277, R279). -/
def State.sliceShed (s : State) (p : Nat) : State :=
  let (taps, decim) := s.shedTarget p
  let b := PSL p
  let same := s.g b PSL_STAT_TAPS_SHED == taps && s.g b PSL_STAT_DECIM == decim
  let s := if s.g b PSL_STAT_DECIM = decim then s else s.setSlice p (fun x => { x with decimCount := 0 })
  if same then s else ((s.p b PSL_STAT_TAPS_SHED taps).p b PSL_STAT_DECIM decim).irq b 7

/-- A frame starts in its slice, under the sets in force after the hand-over point. -/
def State.sliceStart (s : State) (p : Nat) (fr : Frame) (stopped : Bool) : State :=
  if !s.sliceRuns p then s
  else
    let s := s.sliceShed p
    let b := PSL p
    let sl := s.sl p
    let mode := s.frameMode p stopped
    let nmax := s.ga b PSL_TNR_CFG_NMAX
    let reset := sl.refDue || sl.geom != (fr.w, fr.h)
    let useRef := mode == 0 && nmax != 0
    let wr := match sl.refLast with | some k => 1 - k | none => 0
    let bufOf (k : Nat) : Nat := if k = 0 then s.ga64 b PSL_TNR_BASE_0_LO else s.ga64 b PSL_TNR_BASE_1_LO
    let runs := (List.range 4).map (fun t =>
      let ts := s.tapActive p t
      let shed := bitOf (s.g b PSL_STAT_TAPS_SHED) t || mode == 2
      let fl := if shed then 2 ^ 7 else if mode = 1 then 2 ^ 8 else 0
      (⟨ts.sink != 0, none, fl, 0, 0, 0, shed || mode == 1, false⟩ : TapRun))
    let (defects, skip) := if s.ga b PSL_CFG_DEFECT_EN = 1 && mode == 0 then
        (match s.engineRead (s.ga64 b PSL_DEFECT_BASE_LO) (4 * s.ga b PSL_DEFECT_COUNT_COUNT) with
         | some img => readDefects img (s.ga b PSL_DEFECT_COUNT_COUNT)
         | none => ([], 0)) else ([], 0)
    let f : SliceFrame := ⟨{ fr with lines := [] }, [], false, mode, s.activeRegs b (b + 0x4000), sl.tbl,
      (List.range 4).map (fun t => s.transform (4 * p + t)), defects, [],
      (if useRef && !reset then sl.refLast.map bufOf else none), (if useRef then some (bufOf wr) else none),
      useRef && reset, sl.takeover, false, runs⟩
    let s := s.addSat b PSL_RES_CNT_DEFECT_SKIP skip
    let s := s.setSlice p (fun x => { x with frames := x.frames ++ [f], geom := (fr.w, fr.h), decimCount := x.decimCount + 1,
                                             refDue := if useRef then false else reset,
                                             refLast := if useRef then some wr else x.refLast })
    let s := if useRef then s.p b PSL_STAT_TNR_BUF wr else s
    let s := (List.range 4).foldl (fun s t =>
      let r := nth ⟨false, none, 0, 0, 0, 0, true, true⟩ runs t
      if r.on && r.ended then s.addSat (tapBase p t) PSL_TAP_DROP_SHED 1 else s) s
    s.setBusy b true

/-- Each tap takes its buffer at the frame's first line, or drops the frame (R263, R273). -/
def State.takeBuffers (s : State) (p seq : Nat) : State :=
  (List.range 4).foldl (fun s t =>
    match s.sliceFrame p seq with
    | none => s
    | some f =>
      let r := f.run t
      let ts := f.tap p t
      let tb := tapBase p t
      let st := s.tapState p t
      if !r.on || r.ended || r.buf.isSome then s
      else if st.blocked && 4096 < spillBytes st.spill then s.tapDrop p t seq 5 PSL_TAP_DROP_SPILL
      else
        let s := s.setTapState p t (fun x => { x with blocked := false })
        if ts.bufMode && s.g tb PSL_TAP_BUF_FREE == 0 then s.tapDrop p t seq 4 PSL_TAP_DROP_NOBUF
        else
          let k := s.g tb PSL_TAP_BUF_NEXT
          let s := s.p tb PSL_TAP_BUF_NEXT ((k + 1) % ts.nbuf)
          let s := if ts.bufMode then s.p tb PSL_TAP_BUF_FREE (s.g tb PSL_TAP_BUF_FREE - 1) else s
          let s := (s.p tb PSL_TAP_REL_LINES 0).p tb PSL_TAP_REL_FRAME_SEQ (seq % 65536)
          s.setFrame p seq (fun f => f.setRun t (fun r => { r with buf := some k }))) s

/-- One scene-linear line: stages 1–6, with the reference line read and written (R251–R253). -/
def State.sceneLine (s : State) (p : Nat) (f : SliceFrame) (n : Nat) : List Rgb × State :=
  let c := f.pipe p
  let stride := cdiv (8 * c.w) 256 * 256
  let whole := c.delivered n
  let (ref, s) := match f.refRead with
    | none => (none, s)
    | some a =>
      if !whole then (none, s)
      else match s.engineRead (a + n * stride) (8 * c.w) with
        | some l => (some l, s.hbmCount 0 (0x50 + p) (a + n * stride) (8 * c.w))
        | none => (none, s.fault (PSL p) 2 true)
  let cur := (List.range c.w).map (fun x => c.stage4 x n)
  match f.refWrite with
  | none => (cur.map c.stage6, s)
  | some a =>
    let out := (List.range c.w).map (fun x =>
      c.stage5 n (nth (0, 0, 0) cur x) (ref.map (fun l => RefPixel.ofBytes (slice l (8 * x) 8))))
    let s := (s.engineWrite (a + n * stride) (out.flatMap RefPixel.bytes)).2.hbmCount 1 (0x50 + p) (a + n * stride) (8 * c.w)
    (out.map (fun q => c.stage6 q.rgb), s)

/-- The scene-linear lines that can be computed are computed: those two below the last line, or all of a closed frame
(R240). -/
def State.sceneFill (s : State) (p seq : Nat) : Nat → State
  | 0 => s
  | k + 1 =>
    match s.sliceFrame p seq with
    | none => s
    | some f =>
      let n := f.scene.length
      if f.mode == 0 && n < f.frame.h && (f.closed || Nat.min (n + 3) f.frame.h ≤ f.lines.length) then
        let (l, s) := s.sceneLine p f n
        (s.setFrame p seq (fun f => { f with scene := f.scene ++ [l] })).sceneFill p seq k
      else s

/-- A line enters its slice; full: it finds the input queue full (R274). -/
def State.sliceLine (s : State) (p seq : Nat) (px : List Nat) (full : Bool) : State :=
  match s.sliceFrame p seq with
  | none => s
  | some f =>
    let s := if f.lines.isEmpty then s.takeBuffers p seq else s
    let s := s.setFrame p seq (fun f => { f with lines := f.lines ++ [if full then none else some px], overrun := f.overrun || full })
    let s := if full then ((s.addSat (PSL p) PSL_OVERRUN 1).irq (PSL p) 6).count { cls := 6, ev := 3, inst := some p } else s
    let s := s.count { cls := 6, ev := 0, inst := some p }
    s.sceneFill p seq (f.frame.h + 1)

/-- The end-of-frame mark (R211): the rest of the frame is filled (R262), and records without lines follow. -/
def State.sliceClose (s : State) (p : Nat) (fr : Frame) : State :=
  match s.sliceFrame p fr.seq with
  | none => s
  | some f =>
    let s := if f.lines.isEmpty then s.takeBuffers p fr.seq else s
    let s := s.setFrame p fr.seq (fun f => { f with closed := true, frame := { fr with lines := [] } })
    (s.sceneFill p fr.seq (fr.h + 1)).sliceTidy p

/-! ### Release -/

/-- The scene-linear pixel that a tap reads, with what stands for missing lines (R262). -/
def SliceFrame.sceneAt (f : SliceFrame) (ts : TapSet) (x y : Nat) : Rgb :=
  if f.lines.isEmpty || (ts.fill && f.lines.length ≤ y) then (0, 0, 0) else nth (0, 0, 0) (nth [] f.scene y) x

/-- An output line of a tap after its display transform, and the pixels its LUT clamped. -/
def SliceFrame.outLine (f : SliceFrame) (p t m : Nat) : List Rgb × Nat :=
  let ts := f.tap p t
  let c := f.pipe p
  let xf := nth ⟨4 * p + t, [], ⟨.none, .none, none⟩, none, false, false⟩ f.xforms t
  let l := (List.range ts.outW).map (fun x =>
    xf.apply (scaledPixel ts c.w c.h (c.coef t false) (c.coef t true) (f.sceneAt ts) x m))
  (l.map (fun x => x.1), (l.filter (fun x => x.2)).length)

/-- Every line that output line m reads is there. -/
def SliceFrame.lineReady (f : SliceFrame) (ts : TapSet) (m : Nat) : Bool :=
  f.closed || clampIdx f.frame.h (ts.support m).2 < f.scene.length

/-- The bytes and addresses of output line m of a tap, of the luma and the chroma plane (R260, R263). -/
def SliceFrame.lineWrites (f : SliceFrame) (p t m buf : Nat) (line : List Rgb) : List (Nat × List Byte) :=
  let ts := f.tap p t
  let luma := (ts.lineAddr buf m, lumaBytes ts line)
  if ts.format = 4 then [luma, (ts.lineAddr buf m + ts.plane, chromaBytes ts line none)]
  else if ts.format = 5 ∧ m % 2 = 1 then
    [luma, (ts.lineAddr buf (m / 2) + ts.plane, chromaBytes ts (f.outLine p t (m - 1)).1 (some line))]
  else [luma]

/-- The slice is lasting and PS4 recomputes its every line until the binding moves (R90). -/
def State.carried (s : State) (p : Nat) : Bool := p < 4 && s.gBit (PSL p) FAULT_SUM 0 && s.spareReady

/-- The frame whose line a tap releases next. -/
def State.releasing (s : State) (p t : Nat) : Option SliceFrame :=
  (s.sl p).frames.find? (fun f => (f.run t).on && !(f.run t).ended && (f.run t).buf.isSome)

/-- A tap releases its next output line (R265). -/
def State.releaseLine (s : State) (p t : Nat) : State :=
  match s.releasing p t with
  | none => s
  | some f =>
    let ts := f.tap p t
    let r := f.run t
    let m := r.next
    let seq := f.frame.seq
    if !f.lineReady ts m then s
    else
      let (line, clamps) := f.outLine p t m
      let s := s.addSat (CLR (4 * p + t)) CLR_LUT_CLAMP clamps
      let s := (f.lineWrites p t m (r.buf.getD 0) line).foldl (fun s w => s.tapWrite p t seq ts w.1 w.2) s
      let car := s.carried p
      let s := if car then (s.addSat (PSL 4) PSL_RECOMP_CNT 1).count { cls := 6, ev := 1, inst := some 4 } else s
      let s := s.setFrame p seq (fun f => f.setRun t (fun r =>
        { r with next := m + 1, ended := r.ended || decide (ts.outH ≤ m + 1),
                 flags := if car then r.flags ||| 2 else r.flags, recomp := r.recomp + b2n car }))
      let s := (s.p (tapBase p t) PSL_TAP_REL_LINES (m + 1)).p (tapBase p t) PSL_TAP_REL_FRAME_SEQ (seq % 65536)
      (s.dmaCredit 2 (4 * p + t)).sliceTidy p

/-! ### Residue failures and recompute (R266–R268) -/

/-- PS4 is retired (R89, R90). -/
def State.retireSpare (s : State) : State :=
  let s := (s.p (PSL 4) PSL_STAT_RETIRED 1).p (PSL 4) PSL_STAT_SPARE 0
  ((s.p (PSL 4) PSL_RES_STAT_LASTING 1).fault (PSL 4) 0 true).irq (PSL 4) 13

/-- A slice is lasting or severe: PS4 is retired while it serves no head; a bound slice waits for its head's next
hand-over point (R90, R224). -/
def State.sliceLasting (s : State) (p : Nat) : State :=
  if p = 4 && !s.on (PSL 4) PSL_STAT_BOUND then s.retireSpare
  else (s.fault (PSL p) 0 true).p (PSL p) PSL_RES_STAT_LASTING 1

/-- The Bittern source of a stage of a slice (R664). -/
def sliceSource (p stage : Nat) : Nat := 128 + 9 * p + stage - 1

def sliceDetail (unit tap line : Nat) (patrol : Bool) : Nat := unit + 256 * tap + 4096 * b2n patrol + 65536 * line

/-- The output lines of a tap whose support holds scene-linear line n, or the line itself for a failure in the tap's own
stages, with its pair under 4:2:0 (R266). -/
def SliceFrame.touched (f : SliceFrame) (p t : Nat) (q : Recompute) : List Nat :=
  let ts := f.tap p t
  match q.tap with
  | some u =>
    if u != t then []
    else if ts.sub420 then [q.line / 2 * 2, q.line / 2 * 2 + 1] else [q.line]
  | none =>
    (List.range ts.outH).filter (fun m =>
      let a := ts.support m
      clampIdx f.frame.h a.1 ≤ q.line && q.line ≤ clampIdx f.frame.h a.2)

/-- The lines of a recompute marked in the records of their frame: flag 1 RECOMPUTED or 2 UNRECOVERED. -/
def State.markLines (s : State) (q : Recompute) (good : Bool) : State :=
  let p := if (s.sliceFrame q.slice q.seq).isSome then q.slice else 4
  match s.sliceFrame p q.seq with
  | none => s
  | some f =>
    let n := ((List.range 4).map (fun t => if (f.run t).on then (f.touched p t q).length else 0)).foldl (· + ·) 0
    let s := s.setFrame p q.seq (fun f => (List.range 4).foldl (fun g t =>
      let k := (f.touched p t q).length
      if k = 0 then g
      else g.setRun t (fun r => if good then { r with flags := r.flags ||| 2, recomp := r.recomp + k }
                                else { r with flags := r.flags ||| 4, unrec := r.unrec + k })) f)
    if good then (if n = 0 then s else (s.addSat (PSL 4) PSL_RECOMP_CNT n).count { cls := 6, ev := 1, inst := some 4, amount := n })
    else (s.addSat (PSL q.slice) PSL_RES_CNT_UNRECOVERED n).irq (PSL q.slice) 5

/-- RECOMPUTING follows the requests queued on PS4. -/
def State.recomputeSync (s : State) : State := s.p (PSL 4) PSL_STAT_RECOMPUTING (b2n (!s.recompute.isEmpty))

/-- The slice's event of a failed check; stage 0 is a Sump word, whose event is its own. -/
def State.sliceEvent (s : State) (q : Recompute) (patrol lasting : Bool) : State :=
  if q.stage = 0 then s
  else s.report ⟨sliceSource q.slice q.stage, q.unit, sliceDetail q.unit (q.tap.getD 0) q.line patrol, lasting, q.injected, q.real, q.counted⟩
    (fun s => s.sliceLasting q.slice)

/-- A residue failure of a bound slice, or an uncorrectable word in its buffers: PS4 is asked to recompute, or the lines
stay as they are where PS4 cannot (R266, R268). -/
def State.residueFail (s : State) (q : Recompute) : State :=
  let b := PSL q.slice
  let s := if q.stage = 0 then s else
    let s := ((s.p b PSL_RES_STAT_UNIT q.unit).p b PSL_RES_STAT_STAGE q.stage).p b PSL_RES_STAT_TAP (q.tap.getD 0)
    let s := (s.p b PSL_RES_STAT_PATROL 0).p b PSL_RES_STAT_LASTING (b2n (s.gBit b FAULT_SUM 0))
    ((s.p b PSL_RES_LINE q.line).p64 b PSL_RES_SEQ_LO q.seq).irq b 4
  if q.slice != 4 && s.spareReady then { s.testYield 1 4 with recompute := s.recompute ++ [q] }.recomputeSync
  else (s.markLines q false).sliceEvent q false false

/-- PS4 finishes the oldest recompute; fails: its own residue check failed twice (R267). -/
def State.recomputeDone (s : State) (fails : Bool) : State :=
  match s.recompute with
  | [] => s
  | q :: r =>
    let s := { s with recompute := r }.recomputeSync
    if fails || q.both then
      let s := if fails then
          s.report ⟨sliceSource 4 (max q.stage 1), q.unit, sliceDetail q.unit (q.tap.getD 0) q.line false, true, false, false, true⟩ State.retireSpare
        else s
      (s.markLines q false).sliceEvent q false true
    else
      let s := (s.markLines q true).sliceEvent q false false
      if q.stage = 0 then s else s.addSat (PSL q.slice) PSL_RES_CNT_TRANSIENT 1

/-- A recompute misses its deadline (R268). -/
def State.recomputeLate (s : State) : State :=
  match s.recompute with
  | [] => s
  | q :: r => (({ s with recompute := r }.recomputeSync).markLines q false).sliceEvent q false false

/-- The checks of one line of a frame in a slice, stages from lo to hi: a true failure given, and an armed injection
(R675, R676). -/
def State.lineChecks (s : State) (p seq lo hi : Nat) (fail : Option ResFail) (line : Nat) (tap : Option Nat) : State :=
  let s := match fail with
    | some x =>
      if lo ≤ x.stage ∧ x.stage ≤ hi then
        let r := s.check (sliceSource p x.stage) x.unit true false
        r.2.residueFail ⟨p, if 7 ≤ x.stage then some x.tap else none, x.line, x.unit, x.stage, seq, r.1.injected, r.1.real, r.1.counted, r.1.injected && r.1.retryFails⟩
      else s
    | none => s
  let src := s.g BIT BIT_INJ_CFG_SOURCE
  let unit := s.g BIT BIT_INJ_CFG_UNIT
  if s.g BIT BIT_INJ_STAT_STATE = 1 ∧ sliceSource p lo ≤ src ∧ src ≤ sliceSource p hi then
    let r := s.check src unit false false
    r.2.residueFail ⟨p, tap, line, unit, src + 1 - 128 - 9 * p, seq, r.1.injected, r.1.real, r.1.counted, r.1.retryFails⟩
  else s

/-- PS4 checks itself on a patrol line (R89): a residue failure, and whether it repeats. -/
def State.patrol (s : State) (fail : Option ResFail) (repeats : Bool) : State :=
  if !(s.spareReady && s.recompute.isEmpty) then s
  else match fail with
    | none => s
    | some x =>
      let b := PSL 4
      let s := ((s.p b PSL_RES_STAT_UNIT x.unit).p b PSL_RES_STAT_STAGE x.stage).p b PSL_RES_STAT_TAP x.tap
      let s := ((s.p b PSL_RES_STAT_PATROL 1).p b PSL_RES_STAT_LASTING (b2n repeats)).p b PSL_RES_LINE x.line
      let r := (s.irq b 4).check (sliceSource 4 x.stage) x.unit true repeats
      r.2.report ⟨sliceSource 4 x.stage, x.unit, sliceDetail x.unit x.tap x.line true, r.1.retryFails, r.1.injected, r.1.real, r.1.counted⟩
        (fun s => s.sliceLasting 4)

/-! ### Table loads (R254–R257) -/

/-- The committed line time of a head in nanoseconds times the rate, as line times since the hand-over point: less than
64 of them have passed (R257). rate is in mHz. -/
def withinSpan (now hand h rate : Nat) : Bool := (now - hand) * h * rate < 64 * 1000 * nsPerSec * 2 ^ 48

/-- The head bound to a slice. -/
def State.boundHead (s : State) (p : Nat) : Option Nat := if s.on (PSL p) PSL_STAT_BOUND then some (s.g (PSL p) PSL_STAT_HEAD) else none

/-- The previous set of a slice is still kept (R257). -/
def State.spanRuns (s : State) (p : Nat) : Bool :=
  match s.boundHead p, (s.sl p).handAt with
  | some h, some t => withinSpan s.time.units t (s.ga (ING h) ING_GEOM_HEIGHT) (s.ga (ING h) ING_RATE)
  | _, _ => false

/-- The scaler rows of a table image sum to 16,384 each (R255); the first table that breaks this. -/
def badScaler (img : List Byte) : Option Nat :=
  (List.range 8).find? (fun k => (List.range 64).any (fun ph =>
    ((List.range 8).map (fun j => sint 16 (leAt img (0x24800 + 0x400 * k + 16 * ph + 2 * j) 2))).foldl (· + ·) 0 != 16384))

/-- PSL_TBL_LOAD.START (R255–R257). -/
def State.tblLoadStart (s : State) (p v : Nat) : State :=
  let b := PSL p
  if !bitOf v 0 then s
  else if s.on b PAGE_STAT_COMMIT_PEND || s.g b PSL_TBL_STAT_STATE == 1 then s.refuse4 (b + 0x148)
  else ((s.p b PSL_TBL_LOAD_START 1).p b PSL_TBL_STAT_STATE 1).setSlice p (fun x => { x with tblPend := none })

/-- A table load ends (R255). -/
def State.tblLoadEnd (s : State) (p : Nat) : State :=
  let b := PSL p
  if s.g b PSL_TBL_STAT_STATE != 1 then s
  else
    let base := s.rd (b + 0x140) + 2 ^ 32 * s.rd (b + 0x144)
    let s := s.p b PSL_TBL_LOAD_START 0
    let fail (s : State) (reason : Nat) : State := ((s.p b PSL_TBL_STAT_STATE 3).p b PSL_TBL_STAT_REASON reason).irq b 8
    if !(s.hbmInside base 0x26800) then fail s 1
    else match s.engineRead base 0x26800 with
      | none => (fail s 3).fault b 1 true
      | some img =>
        match badScaler img with
        | some k => (fail s 2).p b PSL_TBL_STAT_ROW_TABLE k
        | none =>
          let s := ((s.p b PSL_TBL_STAT_STATE 2).p b PSL_TBL_STAT_REASON 0).p b PSL_TBL_STAT_ROW_TABLE 0
          (s.setSlice p (fun x => { x with tblPend := some img })).irq b 8

/-- A commit of a slice's set applies (R253, R255, R256). -/
def State.applySlice (s : State) (p num : Nat) : State :=
  let b := PSL p
  let s := s.applyCommit .psl p num
  let s := if s.g b PSL_TBL_STAT_STATE = 2 then
      (s.setSlice p (fun x => { x with tbl := x.tblPend, tblPend := x.tbl })).p b PSL_TBL_STAT_STATE 0 else s
  if s.ga b PSL_TNR_CFG_RESET = 1 then
    ((s.p b PSL_TNR_CFG_RESET 0).pa b PSL_TNR_CFG_RESET 0).setSlice p (fun x => { x with refDue := true })
  else s

/-- Buffers returned (R263, R280): COUNT above what is out is a reserved encoding. -/
def State.tapReturn (s : State) (p t v : Nat) : State :=
  let tb := tapBase p t
  let n := fld v 0 5
  let nbuf := (s.tapActive p t).nbuf
  if nbuf < n + s.g tb PSL_TAP_BUF_FREE then s.badWrite (PSL p) (tb + 0x2188) 1
  else s.p tb PSL_TAP_BUF_FREE (s.g tb PSL_TAP_BUF_FREE + n)

/-! ### Commands -/

/-- RECOMPUTE_DONE (R266, R267). -/
def execRecomputeDone (fails : Bool) (s : State) : Host.Outcome State Fault Refusal := .next (s.recomputeDone fails)

/-- RECOMPUTE_DEADLINE (R268). -/
def execRecomputeDeadline (s : State) : Host.Outcome State Fault Refusal := .next s.recomputeLate

/-- PATROL_RECOMPUTE (R89): not while shedding step 1 is in force (R275). -/
def execPatrolRecompute (fail : Option ResFail) (repeats : Bool) (s : State) : Host.Outcome State Fault Refusal :=
  .next (if s.g PWR PWR_SHED_STEP != 0 then s else s.patrol fail repeats)

/-- LINE_RELEASE (R265). -/
def execLineRelease (p : Fin 5) (t : Fin 4) (fail : Option ResFail) (s : State) : Host.Outcome State Fault Refusal :=
  .next (match s.releasing p t with
    | none => s
    | some f => (s.lineChecks p f.frame.seq 7 9 fail (f.run t).next (some t.val)).releaseLine p t)

/-- TBL_LOAD_START (R255). -/
def execTblLoadStart (p : Fin 5) (s : State) : Host.Outcome State Fault Refusal :=
  .next (s.hostReg (PSL p + 0x148) 1 (fun s => s.tblLoadStart p 1))

/-- TBL_LOAD_BEGIN (R257): the span has ended and the load, which read LOADING while it waited, begins to read. -/
def execTblLoadBegin (p : Fin 5) (s : State) : Host.Outcome State Fault Refusal :=
  .next (if s.g (PSL p) PSL_TBL_STAT_STATE = 1 then s.setSlice p (fun x => { x with handAt := none }) else s)

/-- TBL_LOAD_END (R255): a load that waits under R257 has not begun. -/
def execTblLoadEnd (p : Fin 5) (s : State) : Host.Outcome State Fault Refusal :=
  .next (if s.spanRuns p then s else s.tblLoadEnd p)

/-- TAP_BUFFER_RETURN (R263). -/
def execTapBufferReturn (p : Fin 5) (t : Fin 4) (v : Word) (s : State) : Host.Outcome State Fault Refusal :=
  .next (s.hostReg (tapBase p t + 0x2188) v.toNat (fun s => s.tapReturn p t v.toNat))

end Sys2Proof.Machine
end

