-- ==== Sys2Proof/Machine/Checks.lean ====
section
/-! DEFINITION. The checks of a commit on the PSL and CLR pages (R282, R303, R305), and the sets of the CLR instances as
they apply (R302, R306). -/

namespace Sys2Proof.Machine

/-! ### Taps -/

/-- Lines of the chroma plane. -/
def TapSet.chromaLines (t : TapSet) : Nat := if t.format = 5 then (t.outH + 1) / 2 else t.outH

/-- Bytes from the start of a buffer to its end. -/
def TapSet.bufferSpan (t : TapSet) : Nat :=
  if t.planar then t.plane + t.stride * t.chromaLines else t.stride * t.outH

/-- Bytes from the start of the first buffer to the end of the last. -/
def TapSet.span (t : TapSet) : Nat := (t.nbuf - 1) * t.bufsz * 4096 + t.bufferSpan
def TapSet.recSpan (t : TapSet) : Nat := 64 * 2 ^ t.recLog2

/-- The evenness of R282 rule 0x2. -/
def TapSet.evenOk (t : TapSet) : Bool :=
  (t.format != 4 && t.format != 5 && t.format != 6 || t.outW % 2 == 0) && (t.format != 5 || t.outH % 2 == 0)

/-- Rule 0x3 of R282: strides, planes, and nothing overlaps. -/
def TapSet.planesOk (t : TapSet) : Bool :=
  decide (t.lineBytes ≤ t.stride) && (!t.planar || decide (t.stride * t.outH ≤ t.plane)) &&
    (t.nbuf == 1 || decide (t.bufferSpan ≤ t.bufsz * 4096)) &&
    !(decide (t.base < t.recBase + t.recSpan) && decide (t.recBase < t.base + t.span))

/-- A span of HBM that a sink may use: installed, outside the take-store and journal regions. -/
def State.hbmUsable (s : State) (a n : Nat) : Bool := decide (a + n ≤ s.installed) && !s.inStoreRegions a n

/-- A span in host memory (R26). -/
def inHost (a n : Nat) : Bool := addrRegion a n == some 2

/-- Rule 0x4 of R282; spill: a host sink needs its spill ring (R271). -/
def State.sinkOk (s : State) (t : TapSet) (spill : Bool) : Bool :=
  if t.sink = 1 then s.hbmUsable t.base t.span && s.hbmUsable t.recBase t.recSpan
  else inHost t.base t.span && inHost t.recBase t.recSpan && (!spill || (t.spill % 65536 == 0 && s.hbmUsable t.spill (2 ^ 21)))

/-- A slice tap's first broken rule among 0x1–0x4 of R282 in a W × H frame; 0 none. -/
def State.tapRule (s : State) (t : TapSet) (w h : Nat) : Nat :=
  if t.sink = 0 then 0
  else if !(decide (t.cropX + t.cropW ≤ w) && decide (t.cropY + t.cropH ≤ h) && decide (16 ≤ t.cropW) && decide (8 ≤ t.cropH)) then 1
  else if !(decide (t.cropW ≤ 8 * t.outW) && decide (t.outW ≤ 8 * t.cropW) && decide (t.cropH ≤ 8 * t.outH) &&
      decide (t.outH ≤ 8 * t.cropH) && decide (16 ≤ t.outW) && decide (8 ≤ t.outH) && t.evenOk) then 2
  else if !t.planesOk then 3
  else if !s.sinkOk t true then 4 else 0

/-- The least broken rule of some taps, and its tap. -/
def leastRule (l : List Nat) : Nat × Nat :=
  (l.zipIdx).foldl (fun (a : Nat × Nat) (x : Nat × Nat) => if x.1 != 0 && (a.1 == 0 || decide (x.1 < a.1)) then x else a) (0, 0)

/-! ### Slices -/

/-- Width, height and rate that a commit to a slice is checked against. -/
def State.sliceGeom (s : State) (p : Nat) : Nat × Nat × Nat :=
  match s.boundHead p with
  | none => (32768, 16384, 0)
  | some h =>
    if s.on (ING h) PAGE_STAT_COMMIT_PEND then (s.g (ING h) ING_GEOM_WIDTH, s.g (ING h) ING_GEOM_HEIGHT, s.g (ING h) ING_RATE)
    else (s.ga (ING h) ING_GEOM_WIDTH, s.ga (ING h) ING_GEOM_HEIGHT, s.ga (ING h) ING_RATE)

/-- The first rule of R282 that a slice's shadow set breaks, and the tap. -/
def State.sliceCheck (s : State) (p : Nat) : Nat × Nat :=
  let b := PSL p
  let (w, h, _) := s.sliceGeom p
  let taps := leastRule ((List.range 4).map (fun t => s.tapRule (s.tapShadow p t) w h))
  let ref := cdiv (8 * w) 256 * 256 * h
  if taps.1 != 0 then taps
  else if s.g b PSL_TBL_STAT_STATE = 1 then (5, 0)
  else if s.g b PSL_TNR_CFG_NMAX != 0 && !(decide (s.g64 b PSL_TNR_BASE_0_LO + ref ≤ s.installed) && decide (s.g64 b PSL_TNR_BASE_1_LO + ref ≤ s.installed)) then (6, 0)
  else if s.on b PSL_STAT_RETIRED then (7, 0)
  else (0, 0)

/-- What a slice's shadow set leaves the envelope by (R360). -/
def State.sliceEnv (s : State) (p : Nat) : Nat :=
  pslEnvelope s.sump.recs p (s.sliceGeom p).2.2 (s.g (PSL p) PSL_TNR_CFG_NMAX)
    ((List.range 4).map (fun t => let ts := s.tapShadow p t; (ts.sink, ts.outW, ts.outH)))

/-- The rules that a slice's taps break in a W × H frame. -/
def State.tapRules (s : State) (taps : Nat → TapSet) (w h : Nat) : List Nat := (List.range 4).map (fun t => s.tapRule (taps t) w h)

/-- At the latch instant of an ING commit that changes the geometry, the PSL set that will be in force is checked again and
a breach is recorded (R282). -/
def State.sliceLatchCheck (s : State) (p w h : Nat) : State :=
  let pend := s.on (PSL p) PAGE_STAT_COMMIT_PEND
  let l := leastRule (s.tapRules (fun t => if pend then s.tapShadow p t else s.tapActive p t) w h)
  if l.1 = 0 then s
  else (((s.p (PSL p) PSL_CHECK_REASON l.1).p (PSL p) PSL_CHECK_TAP l.2).p (PSL p) PSL_CHECK_AT_LATCH 1).irq (PSL p) 10

/-- Each tap in breach under the new geometry loses its sink in the active set (R282). -/
def State.sliceSinks (s : State) (p w h : Nat) : State :=
  ((s.tapRules (s.tapActive p) w h).zipIdx).foldl (fun (s : State) (x : Nat × Nat) => if x.1 = 0 then s else s.pa (tapBase p x.2) PSL_TAP_CFG_SINK 0) s

/-! ### CLR -/

/-- The valid LUT sources of an instance (R304). -/
def lutSource (i src : Nat) : Bool := tapOwner i == tapOwner src && src < 28

/-- The tap that a CLR instance serves has a Y'CbCr format: in the shadow set of its page when a commit is pending there,
in the active set otherwise (R303). -/
def State.clrTapYcc (s : State) (i : Nat) : Bool :=
  let f := if i < 20 then
      let t := tapBase (i / 4) (i % 4)
      if s.on (PSL (i / 4)) PAGE_STAT_COMMIT_PEND then s.g t PSL_TAP_FMT_FORMAT else s.ga t PSL_TAP_FMT_FORMAT
    else
      let t := WIT ((i - 20) / 2) + 0x40 * (i % 2)
      if s.on (WIT ((i - 20) / 2)) PAGE_STAT_COMMIT_PEND then s.g t WIT_TAP_FMT_FORMAT else s.ga t WIT_TAP_FMT_FORMAT
  4 ≤ f && f ≤ 6

/-- MATRIX and format agree (R303 rule 0x2). -/
def State.matrixOk (s : State) (i matrix : Nat) : Bool := (matrix == 0) != s.clrTapYcc i

/-- A domain's bounds are in order (R303 rule 0x3). -/
def domOk (dom min max : Nat) : Bool :=
  if domLog dom then decide (domMin dom < domMax dom) else colour32.lt min max

/-- The first rule of R303 that a CLR instance's shadow set breaks. -/
def State.clrCheck (s : State) (i : Nat) : Nat :=
  let b := CLR i
  let c := s.clrOf i
  let src := s.g b CLR_CFG_LUT_SRC
  let curves := s.on b CLR_CFG_PRE_EN || s.on b CLR_CFG_POST_EN
  if curves && !(c.curveEver && s.g b CLR_TBL_STAT_CURVE_COPIES != 0) then 1
  else if s.on b CLR_CFG_LUT_EN && !(lutSource i src && (s.clrOf src).lutEver && s.g (CLR src) CLR_TBL_STAT_LUT_COPIES != 0) then 1
  else if !s.matrixOk i (s.g b CLR_CFG_MATRIX) then 2
  else if !(domOk (s.g b CLR_PRE_DOM) (s.g b CLR_PRE_MIN) (s.g b CLR_PRE_MAX) && domOk (s.g b CLR_POST_DOM) (s.g b CLR_POST_MIN) (s.g b CLR_POST_MAX)) then 3
  else if s.g b CLR_TBL_STAT_CURVE_STATE == 1 || s.g b CLR_TBL_STAT_LUT_STATE == 1 then 4
  else 0

/-- At a latch instant of its tap's page, an instance whose set breaks rule 0x2 records it; the set still applies (R305). -/
def State.clrLatchCheck (s : State) (i : Nat) : State :=
  let b := CLR i
  let m := if s.on b PAGE_STAT_COMMIT_PEND then s.g b CLR_CFG_MATRIX else s.ga b CLR_CFG_MATRIX
  if s.matrixOk i m then s
  else ((s.p b CLR_CHECK_REASON 2).p b CLR_CHECK_AT_LATCH 1).irq b 3

/-- The active set of an instance uses a LUT. -/
def State.lutUsers (s : State) (src : Nat) : List Nat :=
  (List.range 28).filter (fun i => s.ga (CLR i) CLR_CFG_LUT_EN == 1 && s.ga (CLR i) CLR_CFG_LUT_SRC == src)

/-- A commit of a CLR instance applies: loaded tables become active (R302); a set with LUT_EN 1 that stops applying is
noted (R300); a bypass of a table ends with the table that applies (R307). -/
def State.applyClr (s : State) (i num : Nat) : State :=
  let b := CLR i
  let users := s.lutUsers (s.ga b CLR_CFG_LUT_SRC)
  let oldSrc := s.ga b CLR_CFG_LUT_SRC
  let s := s.applyCommit .clr i num
  let s := if users.contains i && !(s.lutUsers oldSrc).contains i then
      s.setClr oldSrc (fun c => { c with lutStop := some s.time.units }) else s
  let s := if s.g b CLR_TBL_STAT_CURVE_STATE = 2 then
      ((s.setClr i (fun c => { c with curveA := c.curveP, curveP := c.curveA, curveBypass := 0 })).p b CLR_TBL_STAT_CURVE_STATE 0).fault b 0 false
    else s
  if s.g b CLR_TBL_STAT_LUT_STATE = 2 then
    let one := s.g b CLR_TBL_STAT_LUT_COPIES == 1
    ((s.setClr i (fun c => if one then { c with lutBypass := 0 } else { c with lutA := c.lutP, lutP := c.lutA, lutBaseA := c.lutBaseP, lutBaseP := c.lutBaseA, lutBypass := 0 })).p b CLR_TBL_STAT_LUT_STATE 0).fault b 1 false
  else s

/-- A bypass begins at a hand-over point (R307). -/
def State.clrBoundary (s : State) (i : Nat) : State :=
  s.setClr i (fun c => { c with curveBypass := if c.curveBypass = 1 then 2 else c.curveBypass,
                                lutBypass := if c.lutBypass = 1 then 2 else c.lutBypass })

end Sys2Proof.Machine
end

