-- ==== Sys2Proof/Machine/Clr.lean ====
section
/-! DEFINITION. The tables of the CLR instances (08_colour.md): loads, generation and refill (R298–R308). -/

namespace Sys2Proof.Machine

/-- Less than 64 committed line times have passed since an instant, for the slice or witness pipeline that an instance
serves (R257, R301). -/
def State.clrWithin (s : State) (i since : Nat) : Bool :=
  if i < 20 then
    match s.boundHead (i / 4) with
    | some h => withinSpan s.time.units since (s.ga (ING h) ING_GEOM_HEIGHT) (s.ga (ING h) ING_RATE)
    | none => false
  else
    let w := WIT ((i - 20) / 2)
    s.ga w WIT_RATE != 0 && withinSpan s.time.units since (s.ga w WIT_GEOM_HEIGHT) (s.ga w WIT_RATE)

/-- The span after the hand-over point of the pipeline that an instance serves still runs (R301). -/
def State.clrSpan (s : State) (i : Nat) : Bool :=
  if i < 20 then s.spanRuns (i / 4)
  else match (nth Wit.init s.wits ((i - 20) / 2)).handAt with
    | some t => s.clrWithin i t
    | none => false

/-- The only LUT copy of an instance is in use (R300). -/
def State.lutInUse (s : State) (i : Nat) : Bool :=
  !(s.lutUsers i).isEmpty || (match (s.clrOf i).lutStop with | some t => s.clrWithin i t | none => false)

/-- A write of CLR_LOAD is refused with cause 0x4 (R300). -/
def State.clrLoadRefused (s : State) (i v : Nat) : Bool :=
  let b := CLR i
  let curves := bitOf v 0 || bitOf v 2
  s.on b PAGE_STAT_COMMIT_PEND || (bitOf v 0 && bitOf v 2) ||
    (curves && (s.g b CLR_TBL_STAT_CURVE_STATE == 1 || s.g b CLR_TBL_STAT_CURVE_COPIES == 0)) ||
    (bitOf v 1 && (s.g b CLR_TBL_STAT_LUT_STATE == 1 || s.g b CLR_TBL_STAT_LUT_COPIES == 0 ||
      (s.g b CLR_TBL_STAT_LUT_COPIES == 1 && s.lutInUse i)))

/-- The generator's settings as a write of GEN finds them: SET, FUNC and the set's shadow domain (R308). -/
def State.genSettings (s : State) (i : Nat) : Nat × Nat × Nat × Nat × Nat :=
  let b := CLR i
  let set := s.g b CLR_GEN_CFG_SET
  if set = 0 then (0, s.g b CLR_GEN_CFG_FUNC, s.g b CLR_PRE_DOM, s.g b CLR_PRE_MIN, s.g b CLR_PRE_MAX)
  else (1, s.g b CLR_GEN_CFG_FUNC, s.g b CLR_POST_DOM, s.g b CLR_POST_MIN, s.g b CLR_POST_MAX)

/-- A write of CLR_LOAD (R298, R300, R301). -/
def State.clrLoad (s : State) (i v : Nat) : State :=
  let b := CLR i
  if v % 8 = 0 then s
  else if s.clrLoadRefused i v then s.refuse4 (b + 0x214)
  else
    let gen := s.genSettings i
    let fresh := s.g b CLR_TBL_STAT_CURVE_STATE == 2
    let s := s.p b CLR_LOAD (s.g b CLR_LOAD ||| v % 8)
    let s := if bitOf v 0 || bitOf v 2 then s.p b CLR_TBL_STAT_CURVE_STATE 1 else s
    let s := if bitOf v 1 then s.p b CLR_TBL_STAT_LUT_STATE 1 else s
    let s := if bitOf v 2 then s.setClr i (fun c =>
        { c with gen := some gen,
                 curveP := if fresh then c.curveP
                           else if gen.1 = 0 then { c.curveP with post := c.curveA.post, base := c.curveA.base }
                           else { c.curveP with pre := c.curveA.pre, base := c.curveA.base } }) else s
    s.p b CLR_TBL_STAT_WAITING (b2n (s.clrSpan i))

/-- A binary32 value that a colour page does not admit (R287). -/
def f32Reserved (v : Nat) : Bool := f32Special v || f32Subnormal v

/-- A curve image holds a reserved encoding among its entries and slopes (R296, R299). -/
def curveImageBad (img : List Byte) : Bool :=
  (List.range 6).any (fun c => (List.range 4098).any (fun k => f32Reserved (leAt img (16400 * c + 4 * k) 4)))

/-- A LUT image holds a component with the exponent 0xFF (R285). -/
def lutImageBad (img : List Byte) : Bool :=
  (List.range (3 * 65 * 65 * 65)).any (fun k => fld (leAt img (3 * k) 3) 15 8 == 255)

/-- What a load of n bytes at a base ends with: a reason of R299, or the image. -/
def State.clrFetch (s : State) (base n : Nat) : Nat × List Byte :=
  if !(s.hbmUsable base n && s.hbmInside base n) then (1, [])
  else match s.engineRead base n with
    | none => (4, [])
    | some img => (0, img)

/-- A curve load or generation ends: state, reason, interrupt. -/
def State.curveEnd (s : State) (i reason : Nat) : State :=
  let b := CLR i
  let s := (s.p b CLR_LOAD_CURVES 0).p b CLR_LOAD_GEN 0
  let s := (s.p b CLR_TBL_STAT_CURVE_STATE (if reason = 0 then 2 else 3)).p b CLR_TBL_STAT_CURVE_REASON reason
  let s := s.setClr i (fun c => { c with gen := none, curveEver := c.curveEver || reason == 0 })
  s.irq b 0

/-- A curve load ends (R296, R299). -/
def State.curveLoadEnd (s : State) (i : Nat) : State :=
  let b := CLR i
  let base := s.g64 b CLR_TBL_BASE_LO
  let (r, img) := s.clrFetch base 98400
  let r := if r = 0 && curveImageBad img then 2 else r
  let s := s.setClr i (fun c => { c with curveP :=
    if r = 0 then ⟨.image (img.take 49200), .image (img.drop 49200), some base⟩ else ⟨.none, .none, none⟩ })
  s.curveEnd i r

/-- A generation ends (R308). -/
def State.genEnd (s : State) (i : Nat) : State :=
  match (s.clrOf i).gen with
  | none => s
  | some (set, func, dom, min, max) =>
    let t := CurveSet.gen func dom min max
    (s.setClr i (fun c => { c with curveP := if set = 0 then { c.curveP with pre := t } else { c.curveP with post := t } })).curveEnd i 0

/-- The load of a LUT table ends with what its fetch brought: a result and the image read from base. -/
def State.lutLoaded (s : State) (i base : Nat) (x : Nat × List Byte) : State :=
  let b := CLR i
  let img := x.2
  let r := if x.1 != 0 then x.1 else if lutImageBad img then 2 else if crc32c img != s.g b CLR_LUT_CRC then 3 else 0
  let lut := if r = 0 then some img else none
  let one := s.g b CLR_TBL_STAT_LUT_COPIES == 1
  let s := s.setClr i (fun c => if one then { c with lutA := lut, lutBaseA := base, lutEver := c.lutEver || r == 0 }
                                else { c with lutP := lut, lutBaseP := base, lutEver := c.lutEver || r == 0 })
  let s := (s.p b CLR_LOAD_LUT 0).p b CLR_TBL_STAT_LUT_STATE (if r = 0 then 2 else 3)
  (s.p b CLR_TBL_STAT_LUT_REASON r).irq b 1

/-- A LUT load ends (R297, R299); with one copy it fills that copy (R302). -/
def State.lutLoadEnd (s : State) (i : Nat) : State :=
  let base := s.g64 (CLR i) CLR_LUT_BASE_LO
  s.lutLoaded i base (s.clrFetch base 2471625)

/-! ### Refill (R307) -/

/-- Bytes of a curve copy from an offset of its image: none of a generated set has an image. -/
def CurveCopy.bytes (c : CurveCopy) : Option (List Byte) :=
  match c.pre, c.post with
  | .image a, .image b => some (a ++ b)
  | _, _ => none

/-- The part of a copy that a granule holds, read again from its image: it matches what the granule held. -/
def State.refillMatches (s : State) (base : Nat) (copy : List Byte) (part : Nat) : Bool :=
  let n := Nat.min 131072 (copy.length - 131072 * part)
  match s.engineRead (base + 131072 * part) n with
  | none => false
  | some img => crc32c img == crc32c (slice copy (131072 * part) n)

/-- A replacement granule of a CLR table is refilled and checked; active: it belongs to the active copy. -/
def State.clrRefill (s : State) (new : Nat) (active : Bool) : State :=
  match s.sump.pend.find? (fun (x : Nat × Nat × Nat) => x.2.2 == new) with
  | none => s
  | some (k, _, _) =>
    let r := nth ⟨0, 0, 0, 0, 0, []⟩ s.sump.recs k
    if (r.kind != 4 && r.kind != 5) || s.sump.filled.contains new then s
    else
      let i := r.inst
      let part := (r.granules.findIdx (fun g => g == new)) % 19
      let c := s.clrOf i
      let good := if r.kind = 4 then
          (let cp := if active then c.curveA else c.curveP
           match cp.bytes, cp.base with
           | some l, some b => s.refillMatches b l 0
           | _, _ => false)
        else (match (if active then c.lutA else c.lutP) with
          | some l => s.refillMatches (if active then c.lutBaseA else c.lutBaseP) l part
          | none => false)
      let s := { s with sump := { s.sump with filled := new :: s.sump.filled } }
      let s := if good then s.irq (CLR i) 4
        else if r.kind = 4 then (s.setClr i (fun c => { c with curveBypass := 1 })).fault (CLR i) 0 true
        else (s.setClr i (fun c => { c with lutBypass := 1 })).fault (CLR i) 1 true
      if s.consumerStopped r then s.takeUp new else s

/-! ### Commands -/

/-- CLR_LOAD_CURVES, CLR_LOAD_LUT, CLR_LOAD_GEN (R298). -/
def execClrLoadCurves (i : Fin 28) (s : State) : Host.Outcome State Fault Refusal :=
  .next (s.hostReg (CLR i + 0x214) 1 (fun s => s.clrLoad i 1))

def execClrLoadLut (i : Fin 28) (s : State) : Host.Outcome State Fault Refusal :=
  .next (s.hostReg (CLR i + 0x214) 2 (fun s => s.clrLoad i 2))

def execClrLoadGen (i : Fin 28) (s : State) : Host.Outcome State Fault Refusal :=
  .next (s.hostReg (CLR i + 0x214) 4 (fun s => s.clrLoad i 4))

/-- CLR_LOAD_BEGIN (R301): the span has ended. -/
def execClrLoadBegin (i : Fin 28) (s : State) : Host.Outcome State Fault Refusal :=
  .next (s.p (CLR i) CLR_TBL_STAT_WAITING 0)

/-- CLR_OPERATION_END (R299): lut names the LUT load, otherwise the curve load or the generation that runs. -/
def execClrOperationEnd (i : Fin 28) (lut : Bool) (s : State) : Host.Outcome State Fault Refusal :=
  .next (if s.on (CLR i) CLR_TBL_STAT_WAITING then s
    else if lut then (if s.g (CLR i) CLR_TBL_STAT_LUT_STATE = 1 then s.lutLoadEnd i else s)
    else if s.g (CLR i) CLR_TBL_STAT_CURVE_STATE = 1 then
      (if s.on (CLR i) CLR_LOAD_GEN then s.genEnd i else s.curveLoadEnd i)
    else s)

/-- CLR_TABLE_REFILL (R307). -/
def execClrTableRefill (granule : Fin 192) (active : Bool) (s : State) : Host.Outcome State Fault Refusal :=
  .next (s.clrRefill granule active)

end Sys2Proof.Machine
end

