-- ==== Sys2Proof/Machine/Witness.lean ====
section
/-! DEFINITION. The witness camera ports (09_witness_ports.md, R315–R339). A frame's tap output is written when the frame
closes: no reader may read it before its record is written (R329). -/

namespace Sys2Proof.Machine

def State.wit (s : State) (w : Nat) : Wit := nth Wit.init s.wits w
def State.setWit (s : State) (w : Nat) (f : Wit → Wit) : State := { s with wits := upd s.wits w f }

/-! ### Settings of a frame -/

def WitFrame.rd (f : WitFrame) (w off : Nat) : Nat := (Sparse.get resetVal f.regs (WIT w + off)).toNat
def WitFrame.g (f : WitFrame) (w : Nat) (x : Fld) : Nat := fld (f.rd w x.off) x.lo x.w

/-- A witness tap in a register set (R336). -/
def witTapOf (rd : Nat → Nat) (u : Nat) : TapSet :=
  let b := 0x140 + 0x40 * u
  ⟨rd b, rd (b + 4), rd (b + 8), rd (b + 0xC), rd (b + 0x10), rd (b + 0x14) + 2 ^ 32 * rd (b + 0x18), rd (b + 0x1C),
   rd (b + 0x20), rd (b + 0x24), rd (b + 0x28) + 2 ^ 32 * rd (b + 0x2C), 0⟩

def WitFrame.tap (f : WitFrame) (w u : Nat) : TapSet := witTapOf (f.rd w) u
def WitFrame.run (f : WitFrame) (u : Nat) : TapRun := nth ⟨false, none, 0, 0, 0, 0, true, true⟩ f.runs u

/-! ### Samples and pixels (R319, R320, R327) -/

/-- The pixels of a run of samples, a pixel a word. YCC422_8 pairs its samples: chroma, then luma. -/
def pairUp : List Nat → List Nat
  | c :: y :: r => (y % 256 * 256 + c % 256) :: pairUp r
  | _ => []

def witPixels (fmt depth : Nat) (samples : List Nat) : List Nat :=
  if fmt = 3 then pairUp samples
  else if fmt ≤ 1 then samples.map (fun v => v % 2 ^ depth) else samples.map (fun v => v % 65536)

/-- The pixel that pads position i of a line: the luma, or the whole sample, of the last pixel, and for a chroma-pair
format the chroma of the latest pixel of the same parity. -/
def padPixel (fmt : Nat) (px : List Nat) (i : Nat) : Nat :=
  let last := nth 0 px (px.length - 1)
  if fmt = 2 ∨ fmt = 3 then
    let k := px.length - 1
    let j := if k % 2 = i % 2 then k else if k = 0 then 0 else k - 1
    last / 256 * 256 + nth 0 px j % 256
  else last

/-- A line of W pixels (R322). -/
def witLine (fmt w : Nat) (px : List Nat) : RawLine :=
  ⟨px.take w ++ (List.range (w - px.length)).map (fun k => padPixel fmt px (px.length + k)), Nat.min px.length w, decide (px.length < w), decide (w < px.length)⟩

/-- v / (2ⁿ − 1) in binary32. -/
def unitF (v : Int) (n : Nat) : Nat := ieee32.div (ieee32.ofInt v 0) (ieee32.ofInt (2 ^ n - 1) 0)

/-- The line that row y reads: those the camera did not send repeat the last one of the same CFA parity (R262). -/
def WitFrame.line (f : WitFrame) (y : Nat) : List Nat :=
  if y < f.lines.length then (nth ⟨[], 0, false, false⟩ f.lines y).px
  else
    let n := f.lines.length
    let k := if n % 2 = y % 2 then n - 2 else n - 1
    (nth ⟨[], 0, false, false⟩ f.lines (if n = 1 then 0 else k)).px

def WitFrame.sample (f : WitFrame) (x y : Nat) : Nat := nth 0 (f.line y) x

/-- Stages W1 and W2: a photosite in the working format (R241, R327). -/
def WitFrame.work (f : WitFrame) (w x y : Nat) : Int :=
  let c := if f.g w WIT_CFG_IN_FMT = 0 then cfaChannel (f.g w WIT_CFG_CFA) x y else 0
  let u : Int := f.sample x y * 2 ^ (16 - f.g w WIT_CFG_DEPTH) * 256
  let d := u - (f.rd w (0x114 + 4 * c) % 2 ^ 24 : Nat)
  workSat (rneInt (d * (f.rd w (0x124 + 4 * c) % 65536 : Nat)) (2 ^ 12))

def WitFrame.photo (f : WitFrame) (w wd ht : Nat) (x y : Int) : Nat := f32OfFix (f.work w (mirror wd x) (mirror ht y)) 24

/-- Stage W3 of a RAW photosite: each missing colour is the mean of the nearest 2 or 4 photosites of it (R327). -/
def WitFrame.rawPixel (f : WitFrame) (w wd ht x y : Nat) : Rgb :=
  let cfa := f.g w WIT_CFG_CFA
  let p (dx dy : Int) : Nat := f.photo w wd ht (x + dx) (y + dy)
  let ch := cfaChannel cfa x y
  let cross := meanF [p 0 (-1), p (-1) 0, p 1 0, p 0 1]
  let diag := meanF [p (-1) (-1), p 1 (-1), p (-1) 1, p 1 1]
  let hor := meanF [p (-1) 0, p 1 0]
  let ver := meanF [p 0 (-1), p 0 1]
  if ch = 0 then (p 0 0, cross, diag)
  else if ch = 3 then (diag, cross, p 0 0)
  else if ch = 1 then (hor, p 0 0, ver)
  else (ver, p 0 0, hor)

/-- Chroma of the even pixel of pair k: Cb in its word, Cr in the next. -/
def WitFrame.chroma (f : WitFrame) (y k c : Nat) : Nat := unitF ((f.sample (2 * k + c) y % 256 : Nat) - 128) 8

/-- Stage W3 (R327). -/
def WitFrame.pixel (f : WitFrame) (w wd ht x y : Nat) : Rgb :=
  let fmt := f.g w WIT_CFG_IN_FMT
  if fmt = 0 then f.rawPixel w wd ht x y
  else if fmt = 1 then let v := f.photo w wd ht x y; (v, v, v)
  else
    let v := f.sample x y
    if fmt = 4 then (unitF (fld v 11 5) 5, unitF (fld v 5 6) 6, unitF (fld v 0 5) 5)
    else
      let k := x / 2
      let k' := Nat.min (k + 1) (wd / 2 - 1)
      let c (i : Nat) : Nat := if x % 2 = 0 then f.chroma y k i else meanF [f.chroma y k i, f.chroma y k' i]
      (unitF (v / 256) 8, c 0, c 1)

/-- A pixel with what stands for missing lines (R262, R322). -/
def WitFrame.pixelAt (f : WitFrame) (ts : TapSet) (w wd ht x y : Nat) : Rgb :=
  if f.lines.isEmpty || (ts.fill && f.lines.length ≤ y) then (0, 0, 0) else f.pixel w wd ht x y

/-! ### Taps (R328, R329) -/

/-- A tap's scaler on one axis: in(i) + f × (in(i + 1) − in(i)) (R328). -/
def witScale (j inSize outSize : Nat) (v : Int → Nat) : Nat :=
  let P : Int := ((2 * j + 1) * inSize * 2 ^ 24 / (2 * outSize) : Nat) - 2 ^ 23
  let i := P / 2 ^ 24
  let f := ieee32.ofInt (P % 2 ^ 24) (-24)
  ieee32.add (v i) (ieee32.mul f (ieee32.sub (v (i + 1)) (v i)))

def witScaled (t : TapSet) (wd ht : Nat) (pix : Nat → Nat → Rgb) (x m : Nat) : Rgb :=
  rgbOf (fun c => witScale m t.cropH t.outH (fun i =>
    witScale x t.cropW t.outW (fun j => rgbAt (pix (clampIdx wd (t.cropX + j)) (clampIdx ht (t.cropY + i))) c)))

/-- An output line after its display transform, and how many pixels its LUT clamped. -/
def WitFrame.outLine (f : WitFrame) (w u m : Nat) : List Rgb × Nat :=
  let t := f.tap w u
  let wd := f.g w WIT_GEOM_WIDTH
  let ht := f.g w WIT_GEOM_HEIGHT
  let xf := nth ⟨20 + 2 * w + u, [], ⟨.none, .none, none⟩, none, false, false⟩ f.xforms u
  let l := (List.range t.outW).map (fun x => xf.apply (witScaled t wd ht (f.pixelAt t w wd ht) x m))
  (l.map (fun x => x.1), (l.filter (fun x => x.2)).length)

/-- What output line m writes where. -/
def WitFrame.lineWrites (f : WitFrame) (w u m buf : Nat) (line : List Rgb) : List (Nat × List Byte) :=
  let t := f.tap w u
  let luma := (t.lineAddr buf m, lumaBytes t line)
  if t.format = 4 then [luma, (t.lineAddr buf m + t.plane, chromaBytes t line none)]
  else if t.format = 5 ∧ m % 2 = 1 then
    [luma, (t.lineAddr buf (m / 2) + t.plane, chromaBytes t (f.outLine w u (m - 1)).1 (some line))]
  else [luma]

/-- The master number of a witness tap (R623). -/
def witMaster (w u : Nat) : Nat := 0x14 + 2 * w + u

/-- A tap has a page request outstanding (R330). -/
def State.witRequest (s : State) (w u : Nat) : Bool :=
  s.xlt.requests.any (fun r => !r.timedOut && r.waiters.any (fun x => x.master == witMaster w u))

/-- The tap base that places its status registers. -/
def witTapBase (w u : Nat) : Nat := WIT w + 0x10 * u

/-- A frame's taps changed, wherever the frame stands. -/
def WitFrame.setRun (f : WitFrame) (u : Nat) (g : TapRun → TapRun) : WitFrame := { f with runs := upd f.runs u g }

/-- A tap writes a whole frame, until a write meets a translation fault (R330). -/
def State.witWriteLines (s : State) (w u : Nat) (f : WitFrame) (buf : Nat) : List Nat → Bool × State
  | [] => (true, s)
  | m :: r =>
    let t := f.tap w u
    let (line, clamps) := f.outLine w u m
    let s := s.addSat (CLR (20 + 2 * w + u)) CLR_LUT_CLAMP clamps
    let x := (f.lineWrites w u m buf line).foldl (fun (a : Bool × State) (q : Nat × List Byte) =>
      if a.1 then let y := a.2.masterWrite (witMaster w u) t.asid q.1 q.2; (y.1 != .waits && y.1 != .xlt, y.2) else a) (true, s)
    if x.1 then x.2.witWriteLines w u f buf r else (false, x.2)

/-- A tap drops a frame (R329, R330). -/
def State.witDrop (s : State) (w u : Nat) (cnt : Fld) : State := (s.addSat (witTapBase w u) cnt 1).irq (WIT w) 6

/-- A closed frame goes through one tap: its output is written, or it is not, with the reason in the tap flags. -/
def State.witTapFrame (s : State) (w u : Nat) (f : WitFrame) : WitFrame × State :=
  let r := f.run u
  let t := f.tap w u
  let tb := witTapBase w u
  if !r.on then (f, s)
  else if f.abandoned != 0 then
    -- an abandoned frame's buffer is not written, so it stays the next one
    let s := match r.buf with
      | some k => let s := s.p tb WIT_TAP_BUF_NEXT k
                  if t.bufMode then s.p tb WIT_TAP_BUF_FREE (s.g tb WIT_TAP_BUF_FREE + 1) else s
      | none => s
    (f.setRun u (fun r => { r with buf := none }), s)
  else if f.shed then (f.setRun u (fun r => { r with flags := 2 ^ 7 }), s.addSat tb WIT_TAP_DROP_SHED 1)
  else match r.buf with
    | none => (f, s)
    | some k =>
      let x := s.witWriteLines w u f k (List.range t.outH)
      let fl := (if f.lines.length < f.g w WIT_GEOM_HEIGHT then 1 else 0) ||| (if x.1 then 0 else 2 ^ 6)
      (f.setRun u (fun r => { r with flags := r.flags ||| fl }),
       if x.1 then x.2.dmaCredit 2 (4 * (8 + w) + u) else x.2.witDrop w u WIT_TAP_DROP_XLT)

/-- Each tap takes its buffer at the frame's first line, or drops the frame (R263, R330). -/
def State.witBuffers (s : State) (w : Nat) (f : WitFrame) : WitFrame × State :=
  [0, 1].foldl (fun (a : WitFrame × State) (u : Nat) =>
    let (f, s) := a
    let r := f.run u
    let t := f.tap w u
    let tb := witTapBase w u
    if !r.on || r.ended || f.shed || f.abandoned != 0 then a
    else if s.witRequest w u then (f.setRun u (fun r => { r with flags := 2 ^ 6, ended := true }), s.witDrop w u WIT_TAP_DROP_XLT)
    else if t.bufMode && s.g tb WIT_TAP_BUF_FREE == 0 then
      (f.setRun u (fun r => { r with flags := 2 ^ 4, ended := true }), s.witDrop w u WIT_TAP_DROP_NOBUF)
    else
      let k := s.g tb WIT_TAP_BUF_NEXT
      let s := s.p tb WIT_TAP_BUF_NEXT ((k + 1) % t.nbuf)
      let s := if t.bufMode then s.p tb WIT_TAP_BUF_FREE (s.g tb WIT_TAP_BUF_FREE - 1) else s
      (f.setRun u (fun r => { r with buf := some k, ended := true }), s)) (f, s)

/-- The records due on a tap, oldest frame first (R264, R329). -/
def State.witRecords (s : State) (w u : Nat) : List WitFrame → State
  | [] => s
  | f :: rest =>
    let r := f.run u
    if !r.on || r.recorded then s.witRecords w u rest
    else
      let t := f.tap w u
      let no := nth 0 (s.wit w).recNo u
      let hdr : Frame := ⟨0, f.wfn, 0, 0, 0, 0, 0, 0, f.start, f.flags, 0, 0, 0, 0, 0, []⟩
      let l := recordBytes hdr no 0 r.flags r.buf ((8 + w) * 16 + u) t.outWh 0 0
      let x := s.masterWrite (witMaster w u) t.asid (t.recBase + 64 * (no % 2 ^ t.recLog2)) l
      if x.1 = .waits then x.2
      else
        let s := x.2.setWit w (fun y => { y with recNo := upd y.recNo u inc32,
                                                 closed := y.closed.map (fun g => if g.wfn = f.wfn then g.setRun u (fun r => { r with recorded := true }) else g) })
        let s := s.count { cls := 6, ev := 2, inst := some (8 + w) }
        let s := ((s.addMod (witTapBase w u) WIT_TAP_BUF_RECORDS 1).irq (WIT w) u).tapRecorded (16 * (8 + w) + u) f.wfn r.buf
        s.witRecords w u rest

/-- STATE follows the port (R337). -/
def State.witSync (s : State) (w : Nat) : State :=
  let b := WIT w
  let x := s.wit w
  let st := if !(s.enabled b || s.busy b) then 0 else if x.stopped then 5 else if x.clock != 0 then x.clock
    else if x.cur.isSome then 2 else 1
  let was := s.g b WIT_STAT_STATE
  (s.p b WIT_STAT_STATE st).irqIf (st != was && ([3, 4].contains st || [3, 4].contains was)) b 5

/-- Records are written, and frames without more to write leave. -/
def State.witTidy (s : State) (w : Nat) : State :=
  let s := [0, 1].foldl (fun s u => s.witRecords w u (s.wit w).closed) s
  let s := s.setWit w (fun x => { x with closed := x.closed.filter (fun f => f.runs.any (fun r => r.on && !r.recorded)) })
  let x := s.wit w
  let s := if x.cur.isNone && x.closed.isEmpty && x.stats.isEmpty then s.workEnds (WIT w) else s
  s.witSync w

/-! ### Abandonment (R326) -/

/-- The run of abandoned frames that the registers show. -/
def State.witAbandonLog (s : State) (w wfn reason : Nat) : State :=
  let b := WIT w
  let joins := s.g b WIT_ABN_REASON == reason && s.g64 b WIT_ABN_LAST_LO + 1 == wfn
  let s := if joins then s else s.p64 b WIT_ABN_FIRST_LO wfn
  let s := (s.p64 b WIT_ABN_LAST_LO wfn).p b WIT_ABN_REASON reason
  (s.addSat b WIT_ABN_CNT 1).irq b 4

/-- The frame in progress is abandoned. -/
def State.witAbandon (s : State) (w reason : Nat) : State :=
  match (s.wit w).cur with
  | none => s
  | some f =>
    if f.abandoned != 0 then s
    else (s.setWit w (fun x => { x with cur := some { f with abandoned := reason, flags := f.flags ||| 2 ^ 10 } })).witAbandonLog w f.wfn reason

/-! ### Closing and starting frames -/

/-- A latch instant of a port: its page and its two CLR pages latch (R59, R321). -/
def State.witLatch (s : State) (w : Nat) : State :=
  let s := s.latch (WIT w)
  [20 + 2 * w, 21 + 2 * w].foldl (fun s i => (s.clrLatchCheck i).latch (CLR i)) s

/-- The frame in progress closes with more flags: counters, taps, statistics (R322, R326, R331). -/
def State.witClose (s : State) (w flags : Nat) : State :=
  match (s.wit w).cur with
  | none => s
  | some f =>
    let b := WIT w
    let cut := decide (f.lines.length < f.g w WIT_GEOM_HEIGHT)
    let f := { f with flags := f.flags ||| flags ||| (if cut then 4 else 0) }
    let s := if cut then s.addSat b WIT_FRAME_ERR_CUT 1 else s
    let s := s.irqIf ((f.flags &&& 0x17F) != 0) b 3
    let (f, s) := if f.lines.isEmpty then s.witBuffers w f else (f, s)
    let (f, s) := [0, 1].foldl (fun (a : WitFrame × State) (u : Nat) => a.2.witTapFrame w u a.1) (f, s)
    let stats := f.g w WIT_STAT_CFG_EN == 1
    let s := s.setWit w (fun x => { x with cur := none, closed := x.closed ++ [f], extra := false,
                                           stats := if stats then x.stats ++ [f] else x.stats })
    (s.witTidy w).witLatch w

/-- Every commit latched on a port applies (R321, R55). -/
def State.witHandOver (s : State) (w num : Nat) : State :=
  let s := s.handOver .wit w num
  let s := [20 + 2 * w, 21 + 2 * w].foldl (fun s i => (if s.latched (CLR i) then s.applyClr i num else s).clrBoundary i) s
  s.setWit w (fun x => { x with handAt := some s.time.units })

/-- Shedding step 5 is in force (R275). -/
def State.step5 (s : State) : Bool := 10 ≤ s.g PWR PWR_SHED_STEP

/-- A numbered frame begins at a VSYNC edge (R321–R325, R335). -/
def State.witStart (s : State) (w : Nat) : State :=
  let b := WIT w
  let wfn := s.g64 b WIT_NEXT_WFN_LO
  let s := s.witHandOver w wfn
  let x := s.wit w
  let rate := s.ga b WIT_RATE
  let tol := s.ga b WIT_TIMING_TOL
  let span := match x.prevStart with | some t => s.time.units - t | none => 0
  let unit := 1000 * nsPerSec * 2 ^ 48
  let checked := rate != 0 && x.prevStart.isSome
  let early := checked && decide (span * rate * 256 < unit * (256 - tol))
  let late := checked && decide (unit * (256 + tol) < span * rate * 256)
  let s := s.p b WIT_STAT_SHED (b2n s.step5)
  let regs := s.activeRegs b (b + 0x1000)
  let f : WitFrame := ⟨wfn, s.time, (if early then 2 ^ 5 else 0) ||| (if late then 2 ^ 6 else 0) ||| (if x.gap then 2 ^ 8 else 0),
    0, [], s.step5, 0, regs, [s.transform (20 + 2 * w), s.transform (21 + 2 * w)], []⟩
  let f := { f with runs := [0, 1].map (fun u => ⟨(f.tap w u).sink != 0, none, 0, 0, 0, 0, false, false⟩) }
  let s := (s.addSat b WIT_FRAME_ERR_EARLY (b2n early)).addSat b WIT_FRAME_ERR_LATE (b2n late)
  let s := s.setWit w (fun x => { x with cur := some f, gap := false, extra := false, prevStart := some s.time.units })
  let s := (s.p64 b WIT_NEXT_WFN_LO (wfn + 1)).setBusy b true
  (if x.stopped then s.witAbandon w 5 else if s.g THM THM_STAT_STAGE != 0 then s.witAbandon w 6 else s).witSync w

/-! ### Lines -/

/-- The pipeline stops on a lasting or severe source (R334). -/
def State.witStop (s : State) (w : Nat) : State :=
  let s := s.setWit w (fun x => { x with stopped := true })
  (((s.p (WIT w) WIT_STAT_LASTING 1).fault (WIT w) 0 true).witAbandon w 5).witSync w

/-- A residue failure or an uncorrectable Sump word of the pipeline (R333, R334). -/
def State.witFail (s : State) (w unit : Nat) (sump : Bool) (c : Check) : State :=
  let s := s.addSat (WIT w) WIT_RES_CNT 1
  let s := s.report ⟨173 + w, unit, unit + 256 * b2n sump, c.retryFails, c.injected, c.real, c.counted⟩ (fun s => s.witStop w)
  (s.witAbandon w 4).setWit w (fun x => { x with clearing := true })

/-- The pipeline's checks on one line: a failure given, then an armed injection. -/
def State.witChecks (s : State) (w : Nat) (fail : Option (Nat × Bool)) : State :=
  match fail with
  | some (unit, sump) => let r := s.check (173 + w) unit true false; r.2.witFail w unit sump r.1
  | none =>
    let unit := s.g BIT BIT_INJ_CFG_UNIT
    if s.armedFor (173 + w) unit then let r := s.check (173 + w) unit false false; r.2.witFail w unit false r.1 else s

/-- A line of pixels of the frame in progress (R322, R327, R333). -/
def State.witTakeLine (s : State) (w : Nat) (px : List Nat) (fail : Option (Nat × Bool)) : State :=
  match (s.wit w).cur with
  | none => s
  | some f =>
    let b := WIT w
    let wd := f.g w WIT_GEOM_WIDTH
    let l := witLine (f.g w WIT_CFG_IN_FMT) wd px
    let s := (s.addSat b WIT_LINE_ERR_SHORT (b2n l.short)).addSat b WIT_LINE_ERR_LONG (b2n l.long)
    let s := if f.lines.isEmpty && (s.wit w).clearing then s.witAbandon w 4 else s
    let f := ((s.wit w).cur).getD f
    let (f, s) := if f.lines.isEmpty then s.witBuffers w f else (f, s)
    let f := { f with lines := f.lines ++ [l], flags := f.flags ||| b2n l.short ||| 2 * b2n l.long }
    let s := (s.setWit w (fun x => { x with cur := some f })).count { cls := 6, ev := 0, inst := some (8 + w) }
    let s := if f.shed || f.abandoned != 0 then s else s.witChecks w fail
    if f.g w WIT_GEOM_HEIGHT ≤ f.lines.length then s.witClose w 0 else s

/-- A line after HEIGHT lines: it is discarded and the frame that closed is long (R322). -/
def State.witExtraLine (s : State) (w : Nat) : State :=
  if (s.wit w).extra || (s.wit w).prevStart.isNone then s
  else (s.addSat (WIT w) WIT_FRAME_ERR_LONG_FRAME 1).setWit w (fun x =>
    { x with extra := true, stats := upd x.stats (x.stats.length - 1) (fun f => { f with flags := f.flags ||| 8 }) })

/-- A witness line ends (R320). Under SYNC_MODE 0 samples is a run of active DE; under SYNC_MODE 1 it is what follows an
active HSYNC edge. -/
def State.witLineEnd (s : State) (w : Nat) (samples : List Nat) (fail : Option (Nat × Bool)) : State :=
  let b := WIT w
  let x := s.wit w
  if x.clock != 0 || !(s.enabled b || s.busy b) then s
  else
    let cfg (q : Fld) : Nat := match x.cur with | some f => f.g w q | none => s.ga b q
    let fmt := cfg WIT_CFG_IN_FMT
    if cfg WIT_CFG_SYNC_MODE = 0 then
      if samples.length < 4 then s.addSat b WIT_LINE_ERR_GLITCH 1
      else
        let px := witPixels fmt (cfg WIT_CFG_DEPTH) samples
        if x.cur.isSome then s.witTakeLine w px fail else s.witExtraLine w
    else
      let edge := (x.cur.map (fun f => f.edges + 1)).getD 0
      let s := s.setWit w (fun x => { x with cur := x.cur.map (fun f => { f with edges := edge }) })
      let n := cfg WIT_GEOM_WIDTH * (if fmt = 3 then 2 else 1)
      let px := witPixels fmt (cfg WIT_CFG_DEPTH) (slice samples (cfg WIT_SYNC_OFS_H_START) n)
      if x.cur.isNone then s.witExtraLine w
      else if edge < cfg WIT_SYNC_OFS_V_START ∨ px.isEmpty then s
      else s.witTakeLine w px fail

/-- An active VSYNC edge, with the samples of a line that it cuts (R320–R322). -/
def State.witVsync (s : State) (w : Nat) (cut : List Nat) : State :=
  let b := WIT w
  let x := s.wit w
  if x.clock != 0 || !(s.enabled b || s.busy b) then s
  else
    let s := if cut.isEmpty || x.cur.isNone then s else s.witLineEnd w cut none
    let s := s.witClose w 0
    if s.enabled b then s.witStart w else s

/-! ### Clock (R318) -/

/-- PCLK is lost or out of its limit: the frame closes NO_END. -/
def State.witClock (s : State) (w st : Nat) : State :=
  let s := s.witClose w 0x10
  (s.setWit w (fun x => { x with clock := st, gap := true })).witSync w

/-- The upper limit of PCLK in kHz for the bank (R317). -/
def State.witLimit (s : State) (w : Nat) : Nat := if s.g (WIT w) WIT_STAT_BANK = 2 then 200000 else 250000

/-! ### Statistics (R331) -/

/-- The components of a pixel: channel, the top 8 bits, value. -/
def WitFrame.comps (f : WitFrame) (w x y v : Nat) : List (Nat × Nat × Nat) :=
  let fmt := f.g w WIT_CFG_IN_FMT
  let d := f.g w WIT_CFG_DEPTH
  if fmt = 0 then [(cfaChannel (f.g w WIT_CFG_CFA) x y, v / 2 ^ (d - 8), v)]
  else if fmt = 1 then [(0, v / 2 ^ (d - 8), v)]
  else if fmt = 4 then [(0, fld v 11 5 * 8, fld v 11 5), (1, fld v 5 6 * 4, fld v 5 6), (2, fld v 0 5 * 8, fld v 0 5)]
  else [(0, v / 256, v / 256), (1 + x % 2, v % 256, v % 256)]

/-- Every component received in a frame, with its place: (x, y, channel, bin, value). -/
def WitFrame.received (f : WitFrame) (w : Nat) : List (Nat × Nat × Nat × Nat × Nat) :=
  (f.lines.zipIdx).flatMap (fun (l : RawLine × Nat) => ((l.1.px.take l.1.got).zipIdx).flatMap (fun (p : Nat × Nat) =>
    (f.comps w p.2 l.2 p.1).map (fun c => (p.2, l.2, c.1, c.2.1, c.2.2))))

def WitFrame.statBytes (f : WitFrame) (w seq : Nat) : List Byte :=
  let wd := f.g w WIT_GEOM_WIDTH
  let ht := f.g w WIT_GEOM_HEIGHT
  let all := f.received w
  let hist := (List.range 1024).flatMap (fun k =>
    leBytes 4 ((all.filter (fun p => p.2.2.1 == k / 256 && p.2.2.2.1 == k % 256)).length))
  let zones := (List.range 128).flatMap (fun z =>
    let x0 := 2 * (z % 16 * wd / 32)
    let x1 := 2 * ((z % 16 + 1) * wd / 32)
    let y0 := 2 * (z / 16 * ht / 16)
    let y1 := 2 * ((z / 16 + 1) * ht / 16)
    let inz := all.filter (fun p => decide (x0 ≤ p.1) && decide (p.1 < x1) && decide (y0 ≤ p.2.1) && decide (p.2.1 < y1))
    let ch (c : Nat) := inz.filter (fun p => p.2.2.1 == c)
    (List.range 4).flatMap (fun c => leBytes 8 (((ch c).map (fun p => p.2.2.2.2)).foldl (· + ·) 0)) ++
      (List.range 4).flatMap (fun c => leBytes 4 (ch c).length))
  let r := leBytes 8 f.wfn ++ leBytes 4 seq ++ leBytes 2 f.flags ++ leBytes 2 f.lines.length ++ leBytes 2 wd ++
    leBytes 1 (f.g w WIT_CFG_IN_FMT) ++ leBytes 1 w ++ f.start.bytes ++ zeros 32 ++ hist ++ zones ++ zeros 6076
  r ++ leBytes 4 (crc32c r)

/-- The oldest statistics block due is written (R236, R331). -/
def State.witStats (s : State) (w : Nat) : State :=
  match (s.wit w).stats with
  | [] => s
  | f :: r =>
    let b := WIT w
    let seq := (s.wit w).statNext
    let base := f.rd w 0x138 + 2 ^ 32 * f.rd w 0x13C
    let x := s.engineWrite (base + 16384 * (seq % 2 ^ f.g w WIT_STAT_CFG_RING_LOG2)) (f.statBytes w seq)
    let s := x.2.setWit w (fun y => { y with stats := r, statNext := inc32 y.statNext })
    let s := if x.1 then (s.p b WIT_STAT_WR seq).irq b 2 else s.fault b 1 true
    s.witTidy w

/-! ### Commit check (R338) -/

/-- A witness tap's first broken rule, 0x3 or 0x4. -/
def State.witTapRule (s : State) (t : TapSet) : Nat :=
  if t.sink = 0 then 0
  else if !(decide (t.outW ≤ t.cropW) && decide (t.cropW ≤ 16 * t.outW) && decide (t.outH ≤ t.cropH) && decide (t.cropH ≤ 16 * t.outH) &&
      decide (16 ≤ t.cropW) && decide (8 ≤ t.cropH) && decide (16 ≤ t.outW) && decide (8 ≤ t.outH) && t.evenOk) then 3
  else if !(t.planesOk && s.sinkOk t false) then 4 else 0

/-- The first rule of R338 that a port's shadow set breaks, and the tap. -/
def State.witCheck (s : State) (w : Nat) : Nat × Nat :=
  let b := WIT w
  let wd := s.g b WIT_GEOM_WIDTH
  let ht := s.g b WIT_GEOM_HEIGHT
  let taps := leastRule ([0, 1].map (fun u => s.witTapRule (witTapOf (fun o => s.rd (b + o)) u)))
  let base := s.g64 b WIT_STAT_BASE_LO
  if !(decide (64 ≤ wd) && decide (wd ≤ 8192) && wd % 2 == 0 && decide (32 ≤ ht) && decide (ht ≤ 8192) && (s.g b WIT_CFG_IN_FMT != 0 || ht % 2 == 0)) then (1, 0)
  else if 1000000 < s.g b WIT_RATE then (2, 0)
  else if taps.1 != 0 then taps
  else if s.on b WIT_STAT_CFG_EN && !(base % 16384 == 0 && s.hbmUsable base (16384 * 2 ^ s.g b WIT_STAT_CFG_RING_LOG2)) then (5, 0)
  else if (s.wit w).stopped then (6, 0)
  else (0, 0)

/-- What a port's shadow set leaves the envelope by (R360). -/
def State.witEnv (s : State) (w : Nat) : Nat :=
  witEnvelope s.sump.recs w (s.g (WIT w) WIT_GEOM_WIDTH)
    ([0, 1].map (fun u => let t := witTapOf (fun o => s.rd (WIT w + o)) u; (t.sink, t.outW)))

/-- Buffers returned to a witness tap (R263, R329). -/
def State.witReturn (s : State) (w u v : Nat) : State :=
  let tb := witTapBase w u
  let n := fld v 0 5
  let t := witTapOf (fun o => s.rdA (WIT w + o)) u
  if t.nbuf < n + s.g tb WIT_TAP_BUF_FREE then s.badWrite (WIT w) (tb + 0x244) 1
  else s.p tb WIT_TAP_BUF_FREE (s.g tb WIT_TAP_BUF_FREE + n)

/-- A half of WIT_NEXT_WFN written (R323). -/
def State.witNextWrite (s : State) (w : Nat) (hi : Bool) (v : Nat) : State :=
  let b := WIT w
  let old := s.g64 b WIT_NEXT_WFN_LO
  let new := if hi then old % 2 ^ 32 + 2 ^ 32 * v else old / 2 ^ 32 * 2 ^ 32 + v
  let off := b + 0x208 + 4 * b2n hi
  if s.enabled b || s.busy b || decide (new < old) then s.refuse4 off else s.wr off v

/-! ### Commands -/

/-- VSYNC_EDGE (R321): cut holds the samples of a line that the edge cuts. -/
def execVsyncEdge (w : Fin 4) (cut : List Nat) (s : State) : Host.Outcome State Fault Refusal := .next (s.witVsync w cut)

/-- WITNESS_LINE_END (R320): the samples, and a failure that the pipeline's checks find (unit, in the Sump). -/
def execWitnessLineEnd (w : Fin 4) (samples : List Nat) (fail : Option (Fin 256 × Bool)) (s : State) : Host.Outcome State Fault Refusal :=
  .next (s.witLineEnd w samples (fail.map (fun x => (x.1.val, x.2))))

/-- PCLK_LOST (R318). -/
def execPclkLost (w : Fin 4) (s : State) : Host.Outcome State Fault Refusal :=
  .next (if (s.wit w).clock = 3 then s else s.witClock w 3)

/-- PCLK_WINDOW_END (R318): the frequency measured. -/
def execPclkWindowEnd (w : Fin 4) (kHz : Nat) (s : State) : Host.Outcome State Fault Refusal :=
  .next (
    let s := s.p (WIT w) WIT_PCLK (min kHz (2 ^ 20 - 1))
    if s.witLimit w * 102 < kHz * 100 ∧ (s.wit w).clock = 0 then s.witClock w 4 else s)

/-- PCLK_RESTORED (R318). -/
def execPclkRestored (w : Fin 4) (s : State) : Host.Outcome State Fault Refusal :=
  .next (if (s.wit w).clock = 0 then s else (s.setWit w (fun x => { x with clock := 0 })).witSync w)

/-- WIT_FRAME_TIMEOUT (R322): without a frame in progress it is a latch instant (R321). -/
def execWitFrameTimeout (w : Fin 4) (s : State) : Host.Outcome State Fault Refusal :=
  .next (if (s.wit w).cur.isSome then s.witClose w 0x10
    else if s.enabled (WIT w) then s.witLatch w else s)

/-- WIT_STOP_DEADLINE (R326). -/
def execWitStopDeadline (w : Fin 4) (s : State) : Host.Outcome State Fault Refusal :=
  .next (if s.enabled (WIT w) then s else (s.witAbandon w 3).witClose w 0)

/-- WIT_DATAPATH_CLEAR (R333). -/
def execWitDatapathClear (w : Fin 4) (s : State) : Host.Outcome State Fault Refusal :=
  .next (s.setWit w (fun x => { x with clearing := false }))

/-- WIT_STATS_WRITTEN (R331). -/
def execWitStatsWritten (w : Fin 4) (s : State) : Host.Outcome State Fault Refusal := .next (s.witStats w)

/-- WIT_NEXT_WFN_WRITE (R323): the upper or the lower half. -/
def execWitNextWfnWrite (w : Fin 4) (hi : Bool) (v : Word) (s : State) : Host.Outcome State Fault Refusal :=
  .next (s.hostReg (WIT w + 0x208 + 4 * b2n hi) v.toNat (fun s => s.witNextWrite w hi v.toNat))

/-- WIT_TAP_RETURN (R329). -/
def execWitTapReturn (w : Fin 4) (u : Fin 2) (v : Word) (s : State) : Host.Outcome State Fault Refusal :=
  .next (s.hostReg (witTapBase w u + 0x244) v.toNat (fun s => s.witReturn w u v.toNat))

/-- WITNESS_BANK_CHANGE (R316, R761). -/
def execWitnessBankChange (w : Fin 4) (bank : Fin 3) (s : State) : Host.Outcome State Fault Refusal :=
  .next (s.p (WIT w) WIT_STAT_BANK bank)

end Sys2Proof.Machine
end

