-- ==== Sys2Proof/Machine/RawCode.lean ====
section
/-! DEFINITION. VRLC, the raw line coder, as functions of a strip (11_raw_compression.md, R370–R381). -/

namespace Sys2Proof.Machine

/-- A strip to code: its lines, width, depth b, CFA code and first line. -/
structure StripGeom where
  w : Nat
  b : Nat
  cfa : Nat
  first : Nat
  deriving DecidableEq, Repr

/-- Segments of a line. -/
def segCount (w : Nat) : Nat := cdiv w 256
/-- Photosites of segment i. -/
def segLen (w i : Nat) : Nat := Nat.min 256 (w - 256 * i)

/-- B of R371 for n lines. -/
def vlcBudget (n w b ratio : Nat) : Nat :=
  max (4 * (n * w * b / (2 * ratio))) (68 + 4 * cdiv (n * (w + 8 * segCount w)) 32)

/-- Bytes of a STORED record (R381). -/
def storedLen (n w b : Nat) : Nat := 68 + n * 4 * cdiv (w * b) 32

/-! ### Prediction (R374, R375) -/

/-- The neighbours of a photosite: W, WW, N, NN, NW, NE, NNE, each where it is available, as the decoded values of the
lines above and of the line so far give them. -/
def neighbour (rows : List (Array Nat)) (cur : Array Nat) (w : Nat) (x r : Int) (row : Nat) : Option Nat :=
  if x < 0 ∨ (w : Int) ≤ x ∨ r < 0 then none
  else if r = row then cur[x.toNat]? else (nth #[] rows r.toNat)[x.toNat]?

def absDiff (a b : Nat) : Int := ((a : Int) - b).natAbs

/-- Prediction and activity of a photosite (R374). -/
def predict (b : Nat) (nW nWW nN nNN nNW nNE nNNE : Option Nat) : Nat × Int :=
  let s : Int := 2 ^ (b - 8)
  let top : Int := 2 ^ b - 1
  match nN with
  | none => (match nW with | some w => (w, 0) | none => (2 ^ (b - 1), 0))
  | some n =>
    let w := nW.getD n
    let ww := nWW.getD w
    let nw := nNW.getD n
    let ne := nNE.getD n
    let nn := nNN.getD n
    let nne := nNNE.getD ne
    let dh := absDiff w ww + absDiff n nw + absDiff n ne
    let dv := absDiff w nw + absDiff n nn + absDiff ne nne
    let p : Int :=
      if 80 * s < dv - dh then w
      else if 80 * s < dh - dv then n
      else
        let t : Int := 4 * ((w : Int) + n) + 2 * ((ne : Int) - nw)
        let t := if 32 * s < dv - dh then (t + 8 * w) / 2
          else if 8 * s < dv - dh then (3 * t + 8 * w) / 4
          else if 32 * s < dh - dv then (t + 8 * n) / 2
          else if 8 * s < dh - dv then (3 * t + 8 * n) / 4
          else t
        (t + 4) / 8
    ((max 0 (min p top)).toNat, dh + dv)

/-- The class of a photosite's context (R375). -/
def activityClass (b : Nat) (a : Int) : Nat :=
  let s : Int := 2 ^ (b - 8)
  if a < 8 * s then 0 else if a < 32 * s then 1 else if a < 128 * s then 2 else 3

/-- The reset state of the 16 contexts at PRED level q. -/
def ctxReset (b q : Nat) : Array (Nat × Nat) := Array.replicate 16 (max (2 ^ (b - 6) / 2 ^ q) 1, 1)

/-! ### Adaptive codes (R376, R377) -/

/-- A code: its bits as a number, most significant first, and its length. -/
abbrev Code := Nat × Nat

/-- The smallest k from k0 on, at most b, with N·2^k ≥ A. -/
def riceFrom (n a b : Nat) : Nat → Nat → Nat
  | 0, k => k
  | f + 1, k => if a ≤ n * 2 ^ k ∨ b ≤ k then k else riceFrom n a b f (k + 1)

def riceK (n a b : Nat) : Nat := riceFrom n a b (b + 1) 0

/-- The index of a residual at level q. -/
def quantIndex (q : Nat) (e : Int) : Int :=
  if q = 0 then e
  else
    let m : Int := ((e.natAbs + 2 ^ (q - 1)) / 2 ^ q : Nat)
    if e < 0 then -m else m

def mapIndex (j : Int) : Nat := if 0 ≤ j then (2 * j).toNat else (-2 * j - 1).toNat

/-- The code of a mapped value with Rice parameter k. -/
def riceCode (b k m : Nat) : Code :=
  let u := m / 2 ^ k
  if u < 24 then (((2 ^ u - 1) * 2) * 2 ^ k + m % 2 ^ k, u + 1 + k) else ((2 ^ 24 - 1) * 2 ^ (b + 1) + m, b + 25)

/-- The context's state after a code. -/
def ctxStep (st : Nat × Nat) (m : Nat) : Nat × Nat :=
  let a := st.1 + m
  let n := st.2 + 1
  if n = 64 then ((a + 1) / 2, 32) else (a, n)

/-- What a coding pass carries: contexts, decoded line so far, codes of the segment (latest first), their bits. -/
structure PassState where
  ctx : Array (Nat × Nat)
  cur : Array Nat
  codes : List Code
  bits : Nat

/-- One photosite under PRED. -/
def predStep (g : StripGeom) (q : Nat) (rows : List (Array Nat)) (row x v : Nat) (s : PassState) : PassState :=
  let d : Int := if 4 ≤ g.cfa then 1 else 2
  let at_ (dx dy : Int) : Option Nat := neighbour rows s.cur g.w (x + dx) (row + dy) row
  let (p, a) := predict g.b (at_ (-d) 0) (at_ (-2 * d) 0) (at_ 0 (-d)) (at_ 0 (-2 * d)) (at_ (-d) (-d)) (at_ d (-d)) (at_ d (-2 * d))
  let c := 4 * cfaChannel g.cfa x (g.first + row) + activityClass g.b a
  let st := s.ctx.getD c (1, 1)
  let j := quantIndex q ((v : Int) - p)
  let m := mapIndex j
  let code := riceCode g.b (riceK st.2 st.1 g.b) m
  let dec := (max 0 (min ((p : Int) + j * 2 ^ q) (2 ^ g.b - 1))).toNat
  ⟨s.ctx.setIfInBounds c (ctxStep st m), s.cur.push dec, code :: s.codes, s.bits + code.2⟩

/-- A segment of a strip at a ladder index (R373, R378). -/
def codeSegment (g : StripGeom) (level : Nat) (rows : List (Array Nat)) (row : Nat) (vs : List Nat) (s : PassState) : PassState × Bool :=
  let s := { s with codes := [], bits := 0 }
  if level < 8 then
    let t := vs.foldl (fun (t : PassState) (v : Nat) => predStep g level rows row t.cur.size v t) s
    if g.b * vs.length < t.bits then
      -- VERBATIM, with the adaptive state untouched
      (⟨s.ctx, vs.foldl (fun (a : Array Nat) v => a.push v) s.cur,
        (vs.map (fun v => (v, g.b))).reverse ++ [(0x20, 8)], 8 + g.b * vs.length⟩, true)
    else ({ t with codes := t.codes ++ [(level, 8)], bits := t.bits + 8 }, false)
  else
    let k := g.b - level
    (⟨s.ctx, vs.foldl (fun (a : Array Nat) v => a.push (v / 2 ^ (g.b - k) * 2 ^ (g.b - k) + 2 ^ (g.b - k - 1))) s.cur,
      (vs.map (fun v => (v / 2 ^ (g.b - k), k))).reverse ++ [(0x10 + k, 8)], 8 + k * vs.length⟩, false)

/-- The outcome of coding a strip: codes in order, payload bits, decoded lines, whether VERBATIM was used. -/
structure Coded where
  codes : List Code
  bits : Nat
  decoded : List (List Nat)
  verbatim : Bool

def chunks256 (l : List Nat) : Nat → List (List Nat)
  | 0 => []
  | n + 1 => l.take 256 :: chunks256 (l.drop 256) n

/-- A coding pass over a strip at a ladder index (R372, R379). -/
def codeStrip (g : StripGeom) (level : Nat) (lines : List (List Nat)) : Coded :=
  let start : Array (Nat × Nat) × List (Array Nat) × List Code × Nat × Bool := (ctxReset g.b (if level < 8 then level else 0), [], [], 0, false)
  let r := (lines.zipIdx).foldl (fun (a : Array (Nat × Nat) × List (Array Nat) × List Code × Nat × Bool) (l : List Nat × Nat) =>
    let (ctx, rows, out, bits, vb) := a
    let t := (chunks256 l.1 (segCount g.w)).foldl (fun (t : PassState × List Code × Nat × Bool) (vs : List Nat) =>
      let x := codeSegment g level rows l.2 vs t.1
      (x.1, x.1.codes ++ t.2.1, t.2.2.1 + x.1.bits, t.2.2.2 || x.2)) (⟨ctx, #[], [], 0⟩, out, bits, vb)
    (t.1.ctx, rows ++ [t.1.cur], t.2.1, t.2.2.1, t.2.2.2)) start
  ⟨r.2.2.1.reverse, r.2.2.2.1, r.2.1.map (fun a => a.toList), r.2.2.2.2⟩

/-- The ladder's last index for depth b (R378). -/
def ladderTop (b : Nat) : Nat := b - 1

/-- The payload bits of a FLAT level follow from the geometry (R379). -/
def flatBits (n w k : Nat) : Nat := n * (8 * segCount w + k * w)

def levelBits (g : StripGeom) (level : Nat) (lines : List (List Nat)) : Nat :=
  if level < 8 then (codeStrip g level lines).bits else flatBits lines.length g.w (g.b - level)

/-- The lowest ladder index whose payload fits in P bits (R379). -/
def chooseLevel (g : StripGeom) (lines : List (List Nat)) (pbits : Nat) : Nat :=
  ((List.range (ladderTop g.b)).find? (fun l => decide (32 * cdiv (levelBits g l lines) 32 ≤ pbits))).getD (ladderTop g.b)

/-! ### Bits and bytes -/

def codeBits (c : Code) : List Bool := (List.range c.2).map (fun i => bitOf c.1 (c.2 - 1 - i))

/-- Bits into bytes, from bit 7 down. -/
def packMsb : List Bool → List Byte
  | a :: b :: c :: d :: e :: f :: g :: h :: r =>
    BitVec.ofNat 8 (128 * b2n a + 64 * b2n b + 32 * b2n c + 16 * b2n d + 8 * b2n e + 4 * b2n f + 2 * b2n g + b2n h) :: packMsb r
  | _ => []

/-- A payload, padded with zero bits to 32 (R372). -/
def payloadBytes (codes : List Code) (bits : Nat) : List Byte :=
  packMsb (codes.flatMap codeBits ++ List.replicate (32 * cdiv bits 32 - bits) false)

/-- Photosites packed as R206, filled out to 4 bytes. -/
def packLsb (b : Nat) (l : List Nat) : List Byte :=
  let v := l.flatMap (fun p => (List.range b).map (fun i => bitOf p i))
  let v := v ++ List.replicate (32 * cdiv v.length 32 - v.length) false
  (packMsb ((List.range (v.length / 8)).flatMap (fun k => (slice v (8 * k) 8).reverse)))

def stripPhotosites (l : List (List Nat)) : List Byte := l.flatMap (fun r => r.flatMap (fun v => leBytes 2 v))

/-- The fields of a record's header that the strip and its frame give (R370). -/
structure RecordHdr where
  seq : Nat
  strip : Nat
  head : Nat
  ratio : Nat
  budget : Nat
  setId : Nat
  flags : Nat
  level : Nat

/-- A record (R370, R372, R381). stored: the strip uncoded. -/
def stripRecord (g : StripGeom) (h : RecordHdr) (stored : Bool) (lines : List (List Nat)) : List Byte :=
  let c := codeStrip g h.level lines
  let (payload, bits, dec, flags) :=
    if stored then (lines.flatMap (packLsb g.b), lines.length * g.w * g.b, lines, h.flags)
    else (payloadBytes c.codes c.bits, c.bits, c.decoded, h.flags ||| b2n (h.level != 0) ||| 2 * b2n c.verbatim)
  let len := 68 + payload.length
  let hdr := ([0x56, 0x52, 0x4C, 0x43] : List Byte) ++ leBytes 1 1 ++ leBytes 1 (b2n stored) ++ leBytes 1 (if stored then 0xFF else h.level) ++
    zeros 1 ++ leBytes 8 h.seq ++ leBytes 2 h.strip ++ leBytes 2 (16 * h.strip) ++ leBytes 1 lines.length ++ leBytes 1 g.b ++
    leBytes 1 g.cfa ++ leBytes 1 h.head ++ leBytes 2 g.w ++ leBytes 2 (if stored then 0 else h.ratio) ++ leBytes 4 len ++
    leBytes 4 (if stored then len else h.budget) ++ leBytes 4 bits ++ leBytes 2 h.setId ++ leBytes 2 flags ++
    leBytes 4 (crc32c (stripPhotosites dec)) ++ zeros 16
  let r := hdr ++ payload
  r ++ leBytes 4 (crc32c r)

end Sys2Proof.Machine
end

