-- ==== Sys2Proof/Machine/CwyQueue.lean ====
section
/-! DEFINITION. The message layer of a Causeway link on the device's side (R176–R180, R197, R199–R201). -/

namespace Sys2Proof.Machine

def State.cw (s : State) (h : Nat) : Cwy := nth Cwy.init s.cwy h
def State.setCw (s : State) (h : Nat) (f : Cwy → Cwy) : State := { s with cwy := upd s.cwy h f }

def State.linkState (s : State) (h : Nat) : Nat := s.g (CWY h) CWY_STAT_STATE
def State.linkUp (s : State) (h : Nat) : Bool := s.linkState h == 5
/-- The states in which sequenced messages flow (R197). -/
def State.linkLive (s : State) (h : Nat) : Bool := s.linkState h == 4 || s.linkState h == 5

/-- Host messages still queued or unanswered. -/
def Cwy.hostHeld (c : Cwy) : Nat := ((c.queue ++ c.unans).filter (fun m => m.owner == 1)).length

/-- The registers that follow the queues (R200). -/
def State.msgSync (s : State) (h : Nat) : State :=
  let b := CWY h
  let c := s.cw h
  let s := (s.p b CWY_TXQ_STAT_FREE (32 - c.hostHeld)).p b CWY_RXQ_STAT_COUNT c.rxq.length
  let s := if c.rxq.isEmpty then s.p b CWY_RXQ_STAT_OVERFLOW 0 else s
  let e := c.rxq.headD ⟨0, false, 0, 0⟩
  let s := ((s.p b CWY_RXQ_TYPE_MTYPE e.mtype).p b CWY_RXQ_TYPE_LOCAL (b2n e.loc)).p b CWY_RXQ_TYPE_SEQ e.seq
  ((s.wr (b + 0x1120) (fld e.body 0 32)).wr (b + 0x1124) (fld e.body 32 32)).wr (b + 0x1128) (fld e.body 64 16)

/-- Messages leave with the next SEQ while fewer than 32 are unanswered (R177). -/
def State.pump (s : State) (h : Nat) : Nat → State
  | 0 => s
  | n + 1 =>
    let c := s.cw h
    match c.queue with
    | [] => s
    | m :: r =>
      if c.unans.length < 32 && s.linkLive h then
        let m := { m with seq := c.txSeq }
        ((s.setCw h (fun c => { c with queue := r, unans := c.unans ++ [m], txSeq := (c.txSeq + 1) % 65536 })).emit
          (.down h m.mtype m.seq m.body 1)).pump h n
      else s

/-- A sequenced message of an owner. -/
def State.sendMsg (s : State) (h mtype body owner : Nat) : State :=
  ((s.setCw h (fun c => { c with queue := c.queue ++ [⟨0, mtype, body, owner⟩] })).pump h 64).msgSync h

/-- The SEQ that a message sent now will take. -/
def State.nextTxSeq (s : State) (h : Nat) : Nat := ((s.cw h).txSeq + (s.cw h).queue.length) % 65536

/-- TRAIN, PRESET, REMAP and STANDBY go in four consecutive blocks (R178). -/
def State.sendFour (s : State) (h mtype body : Nat) : State := s.emit (.down h mtype 0 body 4)

/-- An entry for the receive queue; one that finds it full is dropped (R201). -/
def State.rxPush (s : State) (h : Nat) (m : RMsg) : State :=
  let n := (s.cw h).rxq.length
  if 64 ≤ n then s.p (CWY h) CWY_RXQ_STAT_OVERFLOW 1
  else ((s.setCw h (fun c => { c with rxq := c.rxq ++ [m] })).msgSync h).irqIf (n == 0) (CWY h) 5

/-- A host message is answered; reason 0 is an ACK; loc: the device itself answers (R181, R201). -/
def State.hostAnswered (s : State) (h seq reason : Nat) (loc : Bool) : State :=
  let s := (s.addMod (CWY h) CWY_TXQ_STAT_ANSWERED 1).irq (CWY h) 6
  if reason = 0 then s else s.rxPush h ⟨0x02, loc, seq, reason⟩

/-- ING_SET_STAT takes an outcome of the set it reports (R230). -/
def State.setOutcome (s : State) (h setId st reason : Nat) : State :=
  let b := ING h
  if s.g b ING_SET_STAT_SET_ID = setId ∧ s.g b ING_SET_STAT_STATE = 1 then
    ((s.p b ING_SET_STAT_STATE st).p b ING_SET_STAT_REASON reason).irq b 4
  else s

/-- What an answer does for the message's owner. -/
def State.ownerAnswered (s : State) (h : Nat) (m : DMsg) (reason : Nat) (loc : Bool) : State :=
  if m.owner = 1 then s.hostAnswered h m.seq reason loc
  else if m.owner = 2 && reason != 0 then s.setOutcome h (fld m.body 0 16) 4 reason
  else s

/-- An answer to a downstream SEQ, and the message it answers (R177). -/
def State.answer (s : State) (h seq reason : Nat) : Option DMsg × State :=
  match (s.cw h).unans.find? (fun m => m.seq == seq) with
  | none => (none, s)
  | some m =>
    let s := s.setCw h (fun c => { c with unans := c.unans.filter (fun x => x.seq != seq), resends := 0 })
    (some m, ((s.ownerAnswered h m reason false).pump h 64).msgSync h)

/-- The link leaves CAPS and UP: host messages are answered LINK_DOWN, and so is ingest (R197, R230). -/
def State.msgDown (s : State) (h : Nat) : State :=
  let c := s.cw h
  let q := (c.queue.zipIdx).map (fun (x : DMsg × Nat) => { x.1 with seq := (c.txSeq + x.2) % 65536 })
  let s := s.setCw h (fun c => { c with queue := [], unans := [], resends := 0, probe := none })
  ((c.unans ++ q).foldl (fun s m => s.ownerAnswered h m 0x80 true) s).msgSync h

/-- Numbering starts again, and every unanswered message of the previous one is discarded (R177). -/
def State.msgRestart (s : State) (h : Nat) : State :=
  (s.setCw h (fun c => { c with queue := [], unans := [], resends := 0, txSeq := 0, rxSeq := 0 })).msgSync h

/-- An FLR empties both queues without sending or answering their entries (R199). -/
def State.msgFlr (s : State) (h : Nat) : State :=
  (s.setCw h (fun c => { c with queue := c.queue.filter (fun m => m.owner != 1), rxq := [],
                                unans := c.unans.map (fun m => if m.owner = 1 then { m with owner := 4 } else m) })).msgSync h

/-- The types that the host may push (R180). -/
def hostMsgType (t : Nat) : Bool := [0x10, 0x11, 0x12, 0x30, 0x31, 0x32, 0x40].contains t

/-- CWY_TXQ_PUSH (R200). -/
def State.txqPush (s : State) (h v : Nat) : State :=
  let b := CWY h
  if !bitOf v 0 then s
  else if s.g b CWY_TXQ_STAT_FREE = 0 ∨ !s.linkUp h then s.refuse4 (b + 0x1110)
  else if !hostMsgType (s.g b CWY_TXQ_TYPE_MTYPE) then s.badWrite b (b + 0x1110) 1
  else
    let body := s.rd (b + 0x1104) + 2 ^ 32 * s.rd (b + 0x1108) + 2 ^ 64 * (s.rd (b + 0x110C) % 65536)
    let t := s.g b CWY_TXQ_TYPE_MTYPE
    let s := if t = 0x40 then s.p b CWY_STAT_RUN (body % 2) else s
    s.sendMsg h t body 1

/-- CWY_RXQ_POP (R200). -/
def State.rxqPop (s : State) (h v : Nat) : State :=
  if bitOf v 0 then (s.setCw h (fun c => { c with rxq := c.rxq.drop 1 })).msgSync h else s

/-- CWY_TXQ_PUSH. -/
def execCwyTxqPush (h : Fin 4) (s : State) : Host.Outcome State Fault Refusal :=
  .next (s.hostReg (CWY h + 0x1110) 1 (fun s => s.txqPush h 1))

/-- CWY_RXQ_POP. -/
def execCwyRxqPop (h : Fin 4) (s : State) : Host.Outcome State Fault Refusal :=
  .next (s.hostReg (CWY h + 0x112C) 1 (fun s => s.rxqPop h 1))

end Sys2Proof.Machine
end

