-- ==== Sys2Proof/Machine/RawRoute.lean ====
section
/-! DEFINITION. The raw route: frames and their strips on the way to the take store (R211, R368, R388), their places in
the capture areas (R417–R422) and the frame record (R419). -/

namespace Sys2Proof.Machine

/-! ### Frames of a head on the raw route -/

def State.rawOf (s : State) (h : Nat) : List RawFrame := nth [] s.raw h
def State.setRaws (s : State) (h : Nat) (f : List RawFrame → List RawFrame) : State := { s with raw := upd s.raw h f }

/-- A frame of the raw route changed, by its FRAME_SEQ. -/
def State.setRaw (s : State) (h seq : Nat) (f : RawFrame → RawFrame) : State :=
  s.setRaws h (fun l => l.map (fun x => if x.frame.seq = seq then f x else x))

def State.rawFrame (s : State) (h seq : Nat) : Option RawFrame := (s.rawOf h).find? (fun f => f.frame.seq == seq)

/-- A strip of a frame changed, by its index. -/
def State.setStrip (s : State) (h seq i : Nat) (f : Strip → Strip) : State :=
  s.setRaw h seq (fun x => { x with strips := x.strips.map (fun t => if t.idx = i then f t else t) })

/-- The base of head h's block on VLC page 1. -/
def vlcHead (h : Nat) : Nat := VLC + 0x40 * h

/-- ACTIVE of a head and the work that VLC holds. -/
def State.vlcSync (s : State) (h : Nat) : State :=
  let act := (s.rawOf h).any (fun f => f.strips.any (fun t => t.at_ != StripAt.gather && t.at_ != StripAt.passed))
  let s := s.p (vlcHead h) VLC_HEAD_STAT_ACTIVE (b2n act)
  if s.raw.all (fun l => l.isEmpty) then s.workEnds VLC else s.setBusy VLC true

/-- A frame begins on the raw route with its head's VLC setting (R388). -/
def State.rawStart (s : State) (h : Nat) (fr : Frame) : State :=
  (s.setRaws h (fun l => l ++ [(⟨{ fr with lines := [] }, s.rd (vlcHead h + 0x1100), none, 0, [], false, none, false⟩ : RawFrame)])).vlcSync h

/-- FORM and RATIO of a frame. -/
def RawFrame.coded (f : RawFrame) : Bool := fld f.cfg 0 2 == 0
def RawFrame.ratio (f : RawFrame) : Nat := if f.coded then fld f.cfg 8 8 else 0

def Strip.fresh (i : Nat) : Strip := ⟨i, [], .gather, 0, 0, 0, 0, false, false, false, false, (false, false, false, false), []⟩

/-- A line joins the strip that gathers, or begins the next (R368). -/
def addLine (l : List Strip) (x : RawLine) : List Strip :=
  let (done, t) : List Strip × Strip := match l.getLast? with
    | some t => if t.at_ = StripAt.gather then (l.dropLast, t) else (l, Strip.fresh l.length)
    | none => ([], Strip.fresh 0)
  let t := { t with lines := t.lines ++ [x] }
  done ++ [if 16 ≤ t.lines.length then { t with at_ := .ready } else t]

def State.rawLine (s : State) (h seq : Nat) (x : RawLine) : State :=
  (s.setRaw h seq (fun f => { f with strips := addLine f.strips x })).vlcSync h

/-! ### Places in the capture area (R414–R420) -/

/-- Bytes stored in area h from a byte of its stream. -/
def State.areaPut (s : State) (h : Nat) : Nat → Nat → List Byte → State
  | 0, _, _ => s
  | n + 1, at_, l =>
    if l.isEmpty then s
    else
      let k := 4096 - at_ % 4096
      let a := s.area h
      let x := s.blockAddr (a.base + at_ / 4096 % a.len) + at_ % 4096
      ((s.hbmStore x (l.take k)).hbmCount 1 0x4C x (min k l.length)).areaPut h n (at_ + k) (l.drop k)

def State.areaStore (s : State) (h at_ : Nat) (l : List Byte) : State := s.areaPut h (l.length / 4096 + 2) at_ l

/-- Bytes of area h from a byte of its stream. -/
def State.areaGet (s : State) (h : Nat) : Nat → Nat → Nat → List Byte
  | 0, _, _ => []
  | n + 1, at_, len =>
    if len = 0 then []
    else
      let k := Nat.min (4096 - at_ % 4096) len
      let a := s.area h
      s.hbmRead (s.blockAddr (a.base + at_ / 4096 % a.len) + at_ % 4096) k ++ s.areaGet h n (at_ + k) (len - k)

/-- Bytes of the frame record of n strips: 256, the strip table, its CRC. -/
def frameRecLen (n : Nat) : Nat := 260 + 8 * n

/-- Blocks that R420 asks for: the longest frame of H lines with its record, and one displaced record. -/
def placementNeed (w h b ratio : Nat) : Nat :=
  let n := cdiv h 16
  let bound (k : Nat) : Nat := if ratio = 0 then storedLen k w b else vlcBudget k w b ratio
  let u := (n - 1) * bound 16 + bound (h - 16 * (n - 1))
  cdiv (u + 8 * n + 515) 4096 + cdiv (68 + 64 * cdiv (w * b) 32) 4096

/-- A frame's place ends: its record lies at the next 256-byte boundary (R417). -/
def RawFrame.seal (f : RawFrame) : RawFrame :=
  match f.recOff with
  | some _ => f
  | none => { f with recOff := some (cdiv f.nextOff 256 * 256) }

/-- Blocks from the frame's first to the one that holds its record's last byte. -/
def RawFrame.nblk (f : RawFrame) : Nat := cdiv (f.recOff.getD 0 + frameRecLen f.strips.length) 4096

/-- The first block behind what a placed frame takes. -/
def RawFrame.endPos (f : RawFrame) : Nat :=
  f.first.getD 0 + (if f.recOff.isSome then f.nblk else cdiv f.nextOff 4096)

/-- The placement position follows a placed frame, where it is the last. -/
def State.placeSync (s : State) (h seq : Nat) : State :=
  match s.rawFrame h seq with
  | none => s
  | some f => s.setArea h (fun a => { a with placement := max a.placement f.endPos })

/-- The frames placed before are sealed (R417). -/
def State.sealPlaced (s : State) (h : Nat) : State :=
  (s.rawOf h).foldl (fun s f =>
    if f.first.isSome then (s.setRaw h f.frame.seq RawFrame.seal).placeSync h f.frame.seq else s) s

/-- A frame is placed at its first strip, or when it closes without a line; false: the check of R420 fails or the journal
has no block for its FRAME entry (R428). -/
def State.rawPlace (s : State) (h seq : Nat) (ratio : Nat) : Bool × State :=
  match s.rawFrame h seq with
  | none => (true, s)
  | some f =>
    if f.first.isSome then (true, s)
    else
      let s := s.sealPlaced h
      let a := s.area h
      if a.len + a.tail < a.placement + placementNeed f.frame.w f.frame.h f.frame.depth ratio || s.jnlFree = 0 then (false, s.irq TSQ 7)
      else (true, s.setRaw h seq (fun f => { f with first := some a.placement }))

/-- A strip takes its slot (R418). -/
def State.takeSlot (s : State) (h seq i len : Nat) : State :=
  match s.rawFrame h seq with
  | none => s
  | some f =>
    let off := f.nextOff
    let s := s.setRaw h seq (fun f => { f with nextOff := off + len })
    (s.setStrip h seq i (fun t => { t with slot := off, slotLen := len, off := off })).placeSync h seq

/-- Where the stream's next free byte lies: in the last frame placed while its record has no place, at the placement
position otherwise. -/
def State.freeByte (s : State) (h : Nat) : Option Nat × Nat :=
  match ((s.rawOf h).filter (fun f => f.first.isSome)).getLast? with
  | some g => if g.recOff.isNone then (some g.frame.seq, 4096 * g.first.getD 0 + g.nextOff) else (none, 4096 * (s.area h).placement)
  | none => (none, 4096 * (s.area h).placement)

/-- A record goes into its slot, or is displaced (R418); false: it does not fit in the free space (R420). -/
def State.putRecord (s : State) (h seq i : Nat) (l : List Byte) : Bool × State :=
  match s.rawFrame h seq with
  | none => (true, s)
  | some f =>
    let t := nth (Strip.fresh i) f.strips i
    let base := 4096 * f.first.getD 0
    if l.length ≤ t.slotLen then
      (true, (s.areaStore h (base + t.slot) l).setStrip h seq i (fun t => { t with record := l, off := t.slot, displaced := false }))
    else
      let (owner, at_) := s.freeByte h
      let a := s.area h
      if 4096 * (a.tail + a.len) < at_ + l.length then (false, s.irq TSQ 7)
      else
        let s := (s.areaStore h at_ l).setStrip h seq i (fun t => { t with record := l, off := at_ - base, displaced := true })
        match owner with
        | some o => (true, (s.setRaw h o (fun g => { g with nextOff := g.nextOff + l.length, foreign := g.foreign || o != seq })).placeSync h o)
        | none => (true, s.setArea h (fun a => { a with placement := cdiv (at_ + l.length) 4096 }))

/-- A frame leaves the raw route without being accepted: the last frame placed gives its place back, unless another frame's
record lies in it (R422). -/
def State.rawDrop (s : State) (h seq : Nat) : State :=
  match s.rawFrame h seq with
  | none => s
  | some f =>
    let placed := (s.rawOf h).filter (fun g => g.first.isSome)
    let last := (placed.getLast?.map (fun g => g.frame.seq)) == some seq
    let s := s.setRaws h (fun l => l.filter (fun g => g.frame.seq != seq))
    let s := match f.first with
      | some p => if last && !f.foreign then s.setArea h (fun a => { a with placement := p }) else s
      | none => s
    s.vlcSync h

/-! ### Acceptance (R419, R421) -/

/-- Photosite bytes of the strips, n × W × b / 8 each. -/
def RawFrame.rawBytes (f : RawFrame) : Nat := (f.strips.map (fun t => t.lines.length * f.frame.w * f.frame.depth / 8)).foldl (· + ·) 0

/-- The strip table (R419). -/
def RawFrame.table (f : RawFrame) : List Byte :=
  f.strips.flatMap (fun t => leBytes 5 t.off ++ leBytes 1 (b2n t.displaced + 2 * b2n t.stored) ++ zeros 2)

/-- The frame record (R419). -/
def RawFrame.recordBytes (f : RawFrame) (head : Nat) : List Byte :=
  let x := f.frame
  let lines := (f.strips.map (fun t => t.lines.length)).foldl (· + ·) 0
  let r := ([0x56, 0x58, 0x46, 0x52] : List Byte) ++ leBytes 1 1 ++ leBytes 1 head ++ leBytes 2 f.strips.length ++
    leBytes 8 x.seq ++ leBytes 4 x.hfc ++ leBytes 2 x.setId ++ leBytes 2 x.flags ++ leBytes 8 (f.first.getD 0) ++
    leBytes 4 f.nblk ++ leBytes 2 lines ++ leBytes 2 x.w ++ leBytes 2 x.h ++ leBytes 1 x.depth ++ leBytes 1 x.cfa ++
    leBytes 2 f.ratio ++ zeros 2 ++ x.start.bytes ++ leBytes 4 x.expDur ++ leBytes 6 x.expSec ++ leBytes 4 x.expNs ++
    leBytes 2 x.expFrac ++ leBytes 1 x.headFlags ++ zeros 3 ++ leBytes 8 f.rawBytes ++
    leBytes 8 ((f.strips.map (fun t => t.record.length)).foldl (· + ·) 0) ++ zeros 156
  r ++ leBytes 4 (crc32c r) ++ f.table ++ leBytes 4 (crc32c f.table)

/-- FRAME_COMMITTED (R421): the oldest frame of a head, closed, every record of it handed over. -/
def State.frameCommitted (s : State) (h : Nat) : State :=
  match s.rawOf h with
  | [] => s
  | f :: _ =>
    if !(f.closed && f.first.isSome && f.strips.all (fun t => t.at_ == StripAt.passed)) || s.jnlFree = 0 then s
    else
      let s := (s.setRaw h f.frame.seq RawFrame.seal).placeSync h f.frame.seq
      let f := f.seal
      let off := f.recOff.getD 0
      let first := f.first.getD 0
      let l := f.recordBytes h
      let s := s.areaStore h (4096 * first + off) (l ++ zeros (4096 * f.nblk - off - l.length))
      let s := s.count { cls := 10, ev := 0, inst := some h, amount := f.nblk }
      let s := s.commitFrame h ⟨f.frame.seq, first, f.nblk, off⟩ f.frame.flags f.frame.setId
      (s.setRaws h (fun l => l.drop 1)).vlcSync h

/-- FRAME_COMMITTED (R421). -/
def execFrameCommitted (h : Fin 4) (s : State) : Host.Outcome State Fault Refusal := .next (s.frameCommitted h)

end Sys2Proof.Machine
end

