-- ==== Sys2Proof/Machine/Ingest.lean ====
section
/-! DEFINITION. Raw ingest (06_raw_ingest.md): framing, FRAME_SEQ, latch instants and hand-over points, settings, binding,
the retention ring, statistics and abandoned frames (R82–R85, R204–R239). -/

namespace Sys2Proof.Machine

def State.ig (s : State) (h : Nat) : Ingest := nth Ingest.init s.ing h
def State.setIg (s : State) (h : Nat) (f : Ingest → Ingest) : State := { s with ing := upd s.ing h f }

/-- The binding in force (R221). -/
def State.boundSlice (s : State) (h : Nat) : Nat := s.g (ING h) ING_STAT_SLICE

/-- STATE and the count of the abandon log (R238). -/
def State.ingSync (s : State) (h : Nat) : State :=
  let b := ING h
  let x := s.ig h
  let st := if s.enabled b then (if x.cur.isSome then 2 else 1) else if s.busy b then 3 else 0
  (s.p b ING_STAT_STATE st).p b ING_ABN_STAT_COUNT x.log.length

/-- Ingest holds work while a frame is in progress or a statistics block is due. -/
def State.ingTidy (s : State) (h : Nat) : State :=
  let x := s.ig h
  (if x.cur.isNone && x.stats.isEmpty then s.workEnds (ING h) else s).ingSync h

/-! ### The abandon log (R83, R85, R220) -/

def State.abandonLog (s : State) (h first last reason : Nat) : State :=
  let b := ING h
  let l := (s.ig h).log
  match l.getLast? with
  | some (f, e, r) =>
    if r = reason ∧ e + 1 = first then ((s.setIg h (fun x => { x with log := l.dropLast ++ [(f, last, r)] })).irq b 2).ingSync h
    else if 16 ≤ l.length then
      let was := s.on b ING_ABN_STAT_OVERFLOW
      ((s.p b ING_ABN_STAT_OVERFLOW 1).irqIf (!was) b 3).jnlAbandon h first last reason
    else ((s.setIg h (fun x => { x with log := l ++ [(first, last, reason)] })).irq b 2).ingSync h
  | none => ((s.setIg h (fun x => { x with log := [(first, last, reason)] })).irq b 2).ingSync h

/-! ### Latch instants (R208, R226–R228, R282, R305) -/

/-- The pages that latch with a head: its slice and the slice's four CLR instances (R59, R223). -/
def slicePages (p : Nat) : List Nat := if p < 5 then PSL p :: (List.range 4).map (fun t => CLR (4 * p + t)) else []

/-- SET_COMMIT for a commit with SEND 1 that latches (R226, R228): sent with the HFC it names, or NOT_SENT. -/
def State.setSend (s : State) (h : Nat) (held : List Nat) : State :=
  let b := ING h
  let id := s.g b ING_SET_SET_ID
  let s := s.p b ING_SET_STAT_SET_ID id
  let no (s : State) (reason : Nat) : State := ((s.p b ING_SET_STAT_STATE 5).p b ING_SET_STAT_REASON reason).irq b 4
  if !s.linkUp h then no s 0x81
  else if !(s.ig h).hasHfc then no s 0x82
  else
    let hfc := (s.g b ING_LAST_HFC + 1 + fld (s.rd (CWY h + 0x114C)) 4 4) % 2 ^ 32
    let s := ((s.p b ING_SET_STAT_STATE 1).p b ING_SET_STAT_REASON 0).p b ING_SET_HFC hfc
    let s := s.setIg h (fun x => { x with named := some hfc, held := b :: held })
    s.sendMsg h 0x13 (id + 2 ^ 16 * s.g b ING_SET_COUNT + 2 ^ 32 * hfc) 2

/-- A latch instant of a head (R54, R208). -/
def State.ingLatch (s : State) (h : Nat) : State :=
  let b := ING h
  let p := s.boundSlice h
  let fresh (q : Nat) : Bool := s.on q PAGE_STAT_COMMIT_PEND && !s.on q PAGE_STAT_COMMIT_LATCHED
  let newly := fresh b
  let held := (slicePages p).filter fresh
  let w := s.g b ING_GEOM_WIDTH
  let ht := s.g b ING_GEOM_HEIGHT
  let moved := newly && (w != s.ga b ING_GEOM_WIDTH || ht != s.ga b ING_GEOM_HEIGHT || s.g b ING_BIND_SLICE != p)
  let s := s.latch b
  let s := (slicePages p).foldl (fun s q => s.latch q) s
  let s := if p < 5 then (List.range 4).foldl (fun s t => s.clrLatchCheck (4 * p + t)) s else s
  let s := if moved && s.g b ING_BIND_SLICE < 5 then s.sliceLatchCheck (s.g b ING_BIND_SLICE) w ht else s
  if newly && s.on b ING_SET_SEND then s.setSend h held else s

/-! ### Closing and abandoning frames (R210, R211, R220) -/

/-- The frame in progress leaves ingest with more flags: counts, the slice's end-of-frame mark, the statistics due. -/
def State.frameLeaves (s : State) (h : Nat) (fr : Frame) : State :=
  let b := ING h
  let s := (s.addSat b ING_FRAME_ERR_CUT (b2n (bitOf fr.flags 2))).addSat b ING_FRAME_ERR_LONG_FRAME (b2n (bitOf fr.flags 3))
  let s := s.addSat b ING_FRAME_ERR2_NO_END (b2n (bitOf fr.flags 4))
  let s := s.irqIf (fr.flags % 1024 != 0) b 1
  let job : StatJob := ⟨fr, s.ga b ING_STAT_CFG_CLIP, s.ga64 b ING_STAT_BASE_LO, s.ga b ING_STAT_CFG_RING_LOG2,
    (List.range 16).map (fun k => (s.rdA (b + 0x140 + 4 * k), s.rdA (b + 0x180 + 4 * k)))⟩
  let on := s.ga b ING_STAT_CFG_EN == 1
  let s := s.setIg h (fun x => { x with cur := none, line := none, stats := if on then x.stats ++ [job] else x.stats })
  if s.boundSlice h < 5 then s.sliceClose (s.boundSlice h) fr else s

/-- A frame that was numbered is abandoned (R220): the log, the raw route, and the flag in what is still to be written. A
frame in progress closes. -/
def State.abandonFrame (s : State) (h seq reason : Nat) : State :=
  let s := (s.abandonLog h seq seq reason).rawDrop h seq
  match (s.ig h).cur with
  | some f =>
    if f.seq = seq then ((s.frameLeaves h { f with flags := f.flags ||| 1024 }).ingLatch h).ingTidy h
    else s
  | none =>
    let mark (f : Frame) : Frame := if f.seq = seq then { f with flags := f.flags ||| 1024 } else f
    let s := s.setIg h (fun x => { x with stats := x.stats.map (fun j => { j with frame := mark j.frame }) })
    if s.boundSlice h < 5 then s.setFrame (s.boundSlice h) seq (fun g => { g with frame := mark g.frame }) else s

/-- Every numbered frame of a head not yet accepted is abandoned, logged in FRAME_SEQ order. -/
def State.abandonAll (s : State) (h reason : Nat) : State :=
  let l := (s.rawOf h).map (fun f => f.frame.seq)
  let cur := (s.ig h).cur.map (fun f => f.seq)
  let s := l.foldl (fun (s : State) (q : Nat) => if cur = some q then s else s.abandonLog h q q reason) s
  let s := match cur with | some q => s.abandonFrame h q reason | none => s
  l.reverse.foldl (fun (s : State) (q : Nat) => s.rawDrop h q) s

/-- The frame in progress is abandoned. -/
def State.abandonCur (s : State) (h reason : Nat) : State :=
  match (s.ig h).cur with
  | some f => s.abandonFrame h f.seq reason
  | none => s

/-- A closed frame on the raw route: its last strip is complete; a frame without a line is placed now (R420). -/
def State.rawClose (s : State) (h : Nat) (fr : Frame) : State :=
  let s := (s.setRaw h fr.seq (fun f =>
    { f with closed := true, frame := { fr with lines := [] },
             strips := f.strips.map (fun t => if t.at_ = StripAt.gather then { t with at_ := .ready } else t) })).vlcSync h
  match s.rawFrame h fr.seq with
  | some f =>
    if f.strips.isEmpty then
      let r := s.rawPlace h fr.seq f.ratio
      if r.1 then r.2 else r.2.abandonFrame h fr.seq 5
    else s
  | none => s

/-- The frame in progress closes (R210). -/
def State.ingClose (s : State) (h flags : Nat) : State :=
  match (s.ig h).cur with
  | none => s
  | some f =>
    let f := { f with flags := f.flags ||| flags ||| (if f.lines.length < f.h then 4 else 0) }
    (((s.frameLeaves h f).rawClose h f).ingLatch h).ingTidy h

/-! ### Lines (R206, R210, R232) -/

/-- Photosites of a line's bytes (R206). -/
def photosites (b : Nat) (data : List Byte) (n : Nat) : List Nat :=
  let v := ofLe data
  (List.range n).map (fun p => v / 2 ^ (p * b) % 2 ^ b)

/-- A delivered line in the retention ring (R232, R233). -/
def State.ringWrite (s : State) (h : Nat) (fr : Frame) (num : Nat) (l : RawLine) : State :=
  let b := ING h
  let n := s.g b ING_RET_LINE
  let k := n % 64
  let base := s.ga64 b ING_RET_BASE_LO
  let stride := cdiv (2 * fr.w) 256 * 256
  let x := s.engineWrite (base + k * stride) (l.px.flatMap (fun v => leBytes 2 v))
  let y := x.2.engineWrite (base + 64 * stride + 16 * k)
    (leBytes 8 fr.seq ++ leBytes 2 num ++ leBytes 2 (b2n l.short + 2 * b2n l.long) ++ zeros 4)
  let s := (y.2.hbmCount 1 (0x48 + h) (base + k * stride) (2 * l.px.length)).hbmCount 1 (0x48 + h) (base + 64 * stride + 16 * k) 16
  let s := s.p b ING_RET_LINE (inc32 n)
  if x.1 && y.1 then s else s.fault b 0 true

/-- What the slice's checks find on a line (R266, R341). -/
def State.slicePasses (s : State) (p seq num : Nat) (env : LineEnv) : State :=
  if (s.sliceFrame p seq).isNone then s
  else
    let s := s.lineChecks p seq 1 6 env.residue num none
    match env.sump with
    | none => s
    | some (bank, word, again) =>
      let r := s.sumpWord bank word true again
      r.2.residueFail ⟨p, none, num, 0, 0, seq, r.1.injected, r.1.real, r.1.counted, false⟩

/-- A line is handed over: to the retention ring, the raw route and the bound slice (LINE_HANDOVER). -/
def State.deliver (s : State) (h : Nat) (l : RawLine) (env : LineEnv) : State :=
  match (s.ig h).cur with
  | none => s
  | some f =>
    let b := ING h
    let num := f.lines.length
    let s := (s.addSat b ING_LINE_ERR_SHORT_LINES (b2n l.short)).addSat b ING_LINE_ERR_LONG_LINES (b2n l.long)
    let f := { f with lines := f.lines ++ [l], flags := f.flags ||| b2n l.short ||| 2 * b2n l.long }
    let s := s.setIg h (fun x => { x with cur := some f, line := none })
    let s := (s.ringWrite h f num l).rawLine h f.seq l
    let p := s.boundSlice h
    if p < 5 then (s.sliceLine p f.seq l.px env.queueFull).slicePasses p f.seq num env else s

/-- The open line ends: delivered, padded or cut, or discarded (R210). -/
def State.lineEnds (s : State) (h : Nat) (env : LineEnv) : State :=
  match (s.ig h).line, (s.ig h).cur with
  | some l, some f =>
    if l.keep then
      let n := min (min l.width f.w) (8 * l.data.length / f.depth)
      let pad := s.ga (ING h) ING_PAD_VALUE % 2 ^ f.depth
      let px := photosites f.depth l.data n
      s.deliver h ⟨px ++ List.replicate (f.w - n) pad, n, decide (n < f.w), decide (f.w < l.width)⟩ env
    else s.setIg h (fun x => { x with line := none })
  | _, _ => s.setIg h (fun x => { x with line := none })

def quietLine : LineEnv := ⟨false, none, none⟩

/-- A LINE stripe. -/
def State.lineStripe (s : State) (h num width hfc : Nat) : State :=
  let s := s.lineEnds h quietLine
  match (s.ig h).cur with
  | none => s
  | some f =>
    let b := ING h
    let open_ (s : State) (keep : Bool) : State :=
      let n := cdiv (width * f.depth) 1280
      let s := s.setIg h (fun x => { x with line := some ⟨width, n, [], keep⟩ })
      if n = 0 then s.lineEnds h quietLine else s
    if f.h ≤ f.lines.length then
      open_ (s.setIg h (fun x => { x with cur := some { f with flags := f.flags ||| 8 } })) false
    else if hfc ≠ f.hfc ∨ num < f.lines.length then open_ (s.addSat b ING_FRAME_ERR2_DISCARDED_LINES 1) false
    else if f.lines.length < num then s.ingClose h 0
    else open_ s true

/-- A data stripe: photosites of the open line, or stray (R206, R210). -/
def State.dataStripe (s : State) (h : Nat) (bytes : List Byte) (env : LineEnv) : State :=
  match (s.ig h).cur, (s.ig h).line with
  | none, _ => s
  | some f, none => s.setIg h (fun x => { x with cur := some { f with flags := f.flags ||| 2 } })
  | some _, some l =>
    let s := s.setIg h (fun x => { x with line := some { l with left := l.left - 1, data := l.data ++ bytes } })
    if l.left ≤ 1 then s.lineEnds h env else s

/-! ### Binding (R221–R224, R269, R306) -/

/-- PS4 is the spare while no head is bound to it and it is not retired. -/
def State.spareSync (s : State) : State :=
  s.p (PSL 4) PSL_STAT_SPARE (b2n (!s.on (PSL 4) PSL_STAT_BOUND && !s.on (PSL 4) PSL_STAT_RETIRED))

/-- A slice that loses its head has no more hand-over points: what is pending on it applies (R270). -/
def State.unbind (s : State) (p : Nat) : State :=
  let s := if s.on (PSL p) PAGE_STAT_COMMIT_PEND then s.applySlice p noNumber else s
  let s := (List.range 4).foldl (fun s t => if s.on (CLR (4 * p + t)) PAGE_STAT_COMMIT_PEND then s.applyClr (4 * p + t) noNumber else s) s
  (s.p (PSL p) PSL_STAT_BOUND 0).setSlice p (fun x => { x with takeover := false, handAt := none })

/-- The binding in force becomes another (R25). -/
def State.rebind (s : State) (h new : Nat) : State :=
  let old := s.boundSlice h
  if old = new then s
  else
    let s := if old < 5 then s.unbind old else s
    let s := if new < 5 then (s.p (PSL new) PSL_STAT_BOUND 1).p (PSL new) PSL_STAT_HEAD h else s
    (s.p (ING h) ING_STAT_SLICE new).spareSync

/-- Every register of a block, by offset from the base of an instance. -/
def Blk.offs (b : Blk) : List Nat := b.regs.flatMap RegDesc.offs

/-- Registers, active copies and commit state of an instance copied to another. -/
def State.copyPage (s : State) (blk : Blk) (i j : Nat) (offs : List Nat) : State :=
  let a := blk.at i
  let b := blk.at j
  let s := offs.foldl (fun s o => (s.wr (b + o) (s.rd (a + o))).wrA (b + o) (s.rdA (a + o))) s
  let s := (s.wr (b + 0x20) (s.rd (a + 0x20))).p64 b SHADOW_AT_LO (s.g64 a SHADOW_AT_LO)
  let s := (s.p b PAGE_STAT_COMMIT_PEND (s.g a PAGE_STAT_COMMIT_PEND)).p b PAGE_STAT_COMMIT_LATCHED (s.g a PAGE_STAT_COMMIT_LATCHED)
  (s.p a PAGE_STAT_COMMIT_PEND 0).p a PAGE_STAT_COMMIT_LATCHED 0

/-- The registers of a slice that pass with its head: the shadowed ones, the table's, the taps'. -/
def sliceOffs : List Nat := (Blk.psl.offs.filter (fun o => (decide (0x140 ≤ o) && decide (o ≤ 0x14C)) || decide (0x2000 ≤ o))) ++ Blk.psl.shadowOffs

/-- A frame of slice p as slice 4 carries it. -/
def SliceFrame.moved (f : SliceFrame) (p : Nat) : SliceFrame :=
  { f with regs := f.regs.map (fun x => (x.1 + PSL 4 - PSL p, x.2)),
           xforms := f.xforms.map (fun x => { x with inst := x.inst + 16 - 4 * p, regs := x.regs.map (fun y => (y.1 + CLR 16 - CLR (4 * p), y.2)) }) }

/-- A CLR instance of slice p passes to slice 4, its LUT source with it (R306). -/
def State.moveClr (s : State) (p t : Nat) : State :=
  let i := 4 * p + t
  let j := 16 + t
  let s := s.copyPage .clr i j Blk.clr.offs
  let src (v : Nat) : Nat := if 4 * p ≤ v ∧ v < 4 * p + 4 then v + 16 - 4 * p else v
  let s := (s.p (CLR j) CLR_CFG_LUT_SRC (src (s.g (CLR i) CLR_CFG_LUT_SRC))).pa (CLR j) CLR_CFG_LUT_SRC (src (s.ga (CLR i) CLR_CFG_LUT_SRC))
  let c := s.clrOf i
  s.setClr j (fun _ => c)

/-- The binding of a head moves to PS4 (R224, R269): what the failed slice holds passes, and it is retired. -/
def State.takeOver (s : State) (h p : Nat) : State :=
  let s := s.testYield 1 4
  let s := s.copyPage .psl p 4 sliceOffs
  let s := (List.range 4).foldl (fun s t => s.moveClr p t) s
  let x := s.sl p
  let s := s.setSlice 4 (fun _ => { x with frames := x.frames.map (fun f => f.moved p), takeover := true, refDue := x.refDue })
  let s := (s.setSlice p (fun _ => Slice.init)).p (PSL 4) PSL_STAT_TNR_BUF (s.g (PSL p) PSL_STAT_TNR_BUF)
  let own (r : SRec) : Bool := ((r.kind == 1 || r.kind == 2) && r.inst == p) || ((r.kind == 3 || r.kind == 4 || r.kind == 5) && r.inst / 4 == p)
  let s := { s with sump := { s.sump with recs := s.sump.recs.map (fun r => if own r then { r with inst := if r.kind ≤ 2 then 4 else r.inst + 16 - 4 * p } else r) } }
  let s := (s.setBusy (PSL p) false).setBusy (PSL 4) (!x.frames.isEmpty)
  let s := ((s.p (PSL p) PSL_STAT_BOUND 0).p (PSL p) PSL_STAT_RETIRED 1).irq (PSL p) 13
  let s := (s.p (PSL 4) PSL_STAT_BOUND 1).p (PSL 4) PSL_STAT_HEAD h
  let b := ING h
  let s := ((s.p b ING_BIND_SLICE 4).pa b ING_BIND_SLICE 4).p b ING_STAT_SLICE 4
  (((s.p b ING_STAT_SPARE_IN_USE 1).irq b 6).spareSync).sndRepoint p

/-! ### Hand-over points (R55, R207, R224, R227–R229) -/

/-- The commits of a slice and its CLR instances that wait for this hand-over point apply. -/
def State.sliceHandOver (s : State) (p num : Nat) (held : List Nat) : State :=
  let go (s : State) (q : Nat) : Bool := s.latched q && !held.contains q
  let s := if go s (PSL p) then s.applySlice p num else s
  let s := (List.range 4).foldl (fun s t =>
    let i := 4 * p + t
    (if go s (CLR i) then s.applyClr i num else s).clrBoundary i) s
  s.setSlice p (fun x => { x with handAt := some s.time.units })

/-- A commit of ING applies (R55, R229); with SEND 1 it clears SEND in both copies. -/
def State.applyIng (s : State) (h num : Nat) : State :=
  let b := ING h
  let s := s.applyCommit .ing h num
  let s := (s.p b ING_SET_SEND 0).pa b ING_SET_SEND 0
  let s := s.setIg h (fun x => { x with named := none, held := [] })
  s.rebind h (s.ga b ING_BIND_SLICE)

/-- The hand-over point of a head: whether the frame's SET_ID differs from the one sent with the commit that applies
(R231). -/
def State.ingHandOver (s : State) (h num hfc setId : Nat) : Bool × State :=
  let b := ING h
  let x := s.ig h
  let due := match x.named with
    | some n => decide ((hfc + 2 ^ 32 - n) % 2 ^ 32 < 2 ^ 31)
    | none => true
  let p := s.boundSlice h
  let failed := p < 4 && s.gBit (PSL p) FAULT_SUM 0 && s.on (PSL 4) PSL_STAT_SPARE && s.powered (PSL 4)
  let w := s.ga b ING_GEOM_WIDTH
  let ht := s.ga b ING_GEOM_HEIGHT
  let s := if p < 5 then s.sliceHandOver p num (if due then [] else x.held) else s
  let applies := s.latched b && due
  let sent := applies && x.named.isSome && s.g b ING_SET_SET_ID != setId
  let s := if failed then s.p b ING_BIND_SLICE p else s
  let s := if applies then s.applyIng h num else s
  let s := if failed then s.takeOver h p else s
  let q := s.boundSlice h
  let s := if q < 5 && (q != p || w != s.ga b ING_GEOM_WIDTH || ht != s.ga b ING_GEOM_HEIGHT) then
      s.sliceSinks q (s.ga b ING_GEOM_WIDTH) (s.ga b ING_GEOM_HEIGHT) else s
  (sent, s)

/-! ### FRAME_START (R205, R210, R214–R216) -/

/-- The fields of a FRAME_START stripe (R205). -/
structure FrameStart where
  hfc : Nat
  setId : Nat
  width : Nat
  height : Nat
  depth : Nat
  expDur : Nat
  expSec : Nat
  expNs : Nat
  expFrac : Nat

/-- Frames that an HFC leaves missing take FRAME_SEQ values and are recorded abandoned (R215); the flag HFC_GAP. -/
def State.hfcGap (s : State) (h hfc : Nat) : Bool × State :=
  let b := ING h
  let x := s.ig h
  let g := (hfc + 2 ^ 32 - s.g b ING_LAST_HFC) % 2 ^ 32
  let seq := s.g64 b ING_NEXT_SEQ_LO
  if x.rebase || (x.hasHfc && (g = 0 || 2 ^ 31 < g)) then
    (true, (s.addSat b ING_FRAME_ERR2_HFC_GAP 1).setIg h (fun x => { x with prevStart := none }))
  else if !x.hasHfc || g = 1 then (false, s)
  else
    let s := s.abandonLog h seq (seq + g - 2) (if x.warmGap then 1 else 4)
    (true, s.p64 b ING_NEXT_SEQ_LO (seq + g - 1))

/-- Why a frame is abandoned as it starts: THERMAL (R697), HEADROOM (R275), STORE_FULL (R94). -/
def State.startReason (s : State) (h : Nat) : Nat :=
  if s.g THM THM_STAT_STAGE != 0 then 8
  else if s.g PWR PWR_SHED_STEP = 11 && (s.ig h).shedNext then 6
  else if 2 ≤ (s.rawOf h).length then 5 else 0

/-- A FRAME_START stripe at an enabled ingest. -/
def State.frameStart (s : State) (h : Nat) (x : FrameStart) : State :=
  let s := (s.lineEnds h quietLine).ingClose h 16
  let b := ING h
  if !s.enabled b then s
  else
    let (gap, s) := s.hfcGap h x.hfc
    let seq := s.g64 b ING_NEXT_SEQ_LO
    let (mis, s) := s.ingHandOver h seq x.hfc x.setId
    let rate := s.ga b ING_RATE
    let tol := s.ga b ING_TIMING_TOL
    let prev := (s.ig h).prevStart
    let span := match prev with | some t => s.time.units - t | none => 0
    let unit := 1000 * nsPerSec * 2 ^ 48
    let early := prev.isSome && decide (span * rate * 256 < unit * (256 - tol))
    let late := prev.isSome && decide (unit * (256 + tol) < span * rate * 256)
    let w := s.ga b ING_GEOM_WIDTH
    let ht := s.ga b ING_GEOM_HEIGHT
    let d := s.ga b ING_FORMAT_DEPTH
    let geom := x.width != w || x.height != ht || x.depth != d
    let flags := 32 * b2n early + 64 * b2n late + 128 * b2n geom + 256 * b2n gap + 512 * b2n mis
    let s := (s.addSat b ING_FRAME_ERR_EARLY (b2n early)).addSat b ING_FRAME_ERR_LATE (b2n late)
    let s := s.addSat b ING_FRAME_ERR2_GEOM_MISMATCH (b2n geom)
    let fr : Frame := ⟨h, seq, x.hfc, x.setId, x.expDur, x.expSec, x.expNs, x.expFrac, s.time, flags, 0, w, ht, 10 + 2 * d, s.ga b ING_FORMAT_CFA, []⟩
    let s := ((s.p64 b ING_NEXT_SEQ_LO (seq + 1)).p b ING_LAST_HFC x.hfc).p b ING_STAT_CUR_SET_ID x.setId
    let reason := s.startReason h
    let step6 := s.g PWR PWR_SHED_STEP == 11
    let s := s.setIg h (fun y => { y with cur := some fr, line := none, hasHfc := true, rebase := false, warmGap := false,
                                          prevStart := some s.time.units, shedNext := step6 && !y.shedNext })
    let s := (s.setBusy b true).rawStart h fr
    let s := if s.boundSlice h < 5 then s.sliceStart (s.boundSlice h) fr s.step5 else s
    let s := s.ingSync h
    if reason = 0 then s else s.abandonFrame h seq reason

/-- A FRAME_END stripe (R208, R210); one that names another HFC than the frame in progress changes nothing. -/
def State.frameEnd (s : State) (h hfc flags : Nat) : State :=
  match (s.ig h).cur with
  | some f =>
    if f.hfc ≠ hfc then s
    else
      let s := s.lineEnds h quietLine
      match (s.ig h).cur with
      | some f => (s.setIg h (fun x => { x with cur := some { f with headFlags := flags } })).ingClose h 0
      | none => s
  | none => if s.enabled (ING h) && (s.ig h).hasHfc && s.g (ING h) ING_LAST_HFC == hfc then s.ingLatch h else s

/-! ### Statistics (R234–R236) -/

/-- The photosites that the head sent: (x, y, channel, value). -/
def Frame.received (f : Frame) : List (Nat × Nat × Nat × Nat) :=
  (f.lines.zipIdx).flatMap (fun (l : RawLine × Nat) => ((l.1.px.take l.1.got).zipIdx).map (fun (p : Nat × Nat) =>
    (p.2, l.2, cfaChannel f.cfa p.2 l.2, p.1)))

/-- SUMSQ, SUMABS and COUNT of a focus window. -/
def Frame.focus (f : Frame) (tl br : Nat) : Nat × Nat × Nat :=
  let step := if 4 ≤ f.cfa then 1 else 2
  let x1 := min (fld br 0 16) f.w
  let y1 := min (fld br 16 16) f.h
  if fld br 0 16 ≤ fld tl 0 16 ∨ fld br 16 16 ≤ fld tl 16 16 then (0, 0, 0)
  else (f.received).foldl (fun (a : Nat × Nat × Nat) (p : Nat × Nat × Nat × Nat) =>
    let (x, y, c, v) := p
    let row := nth ⟨[], 0, false, false⟩ f.lines y
    if decide (fld tl 0 16 ≤ x) && decide (x + step < x1) && decide (fld tl 16 16 ≤ y) && decide (y < y1) && (step == 1 || c == 1 || c == 2) &&
        decide (x + step < row.got) then
      let d := (absDiff v (nth 0 row.px (x + step))).toNat
      (a.1 + d * d, a.2.1 + d, a.2.2 + 1)
    else a) (0, 0, 0)

/-- A statistics block (R235). -/
def StatJob.bytes (j : StatJob) (seq : Nat) : List Byte :=
  let f := j.frame
  let all := f.received
  let open_ := all.filter (fun p => decide (p.2.2.2 < j.clip))
  let hist := (List.range 1024).flatMap (fun k =>
    leBytes 4 ((all.filter (fun p => p.2.2.1 == k / 256 && p.2.2.2 / 2 ^ (f.depth - 8) == k % 256)).length))
  let zones := (List.range 512).flatMap (fun z =>
    let x0 := 2 * (z % 32 * f.w / 64)
    let x1 := 2 * ((z % 32 + 1) * f.w / 64)
    let y0 := 2 * (z / 32 * f.h / 32)
    let y1 := 2 * ((z / 32 + 1) * f.h / 32)
    let inz := open_.filter (fun p => decide (x0 ≤ p.1) && decide (p.1 < x1) && decide (y0 ≤ p.2.1) && decide (p.2.1 < y1))
    let ch (c : Nat) := inz.filter (fun p => p.2.2.1 == c)
    (List.range 4).flatMap (fun c => leBytes 8 (((ch c).map (fun p => p.2.2.2)).foldl (· + ·) 0)) ++
      (List.range 4).flatMap (fun c => leBytes 4 (ch c).length))
  let focus := j.focus.flatMap (fun w => let r := f.focus w.1 w.2; leBytes 8 r.1 ++ leBytes 8 r.2.1 ++ leBytes 4 r.2.2 ++ zeros 4)
  let r := leBytes 8 f.seq ++ leBytes 4 seq ++ leBytes 4 f.hfc ++ leBytes 2 f.setId ++ leBytes 2 f.flags ++
    leBytes 2 f.lines.length ++ leBytes 2 f.w ++ leBytes 8 f.expSec ++ leBytes 4 f.expNs ++ leBytes 2 f.expFrac ++
    leBytes 1 f.depth ++ leBytes 1 f.cfa ++ leBytes 4 f.expDur ++ leBytes 2 j.clip ++ zeros 2 ++ f.start.bytes ++
    leBytes 1 f.head ++ leBytes 1 1 ++ leBytes 1 f.headFlags ++ zeros 1 ++ hist ++ zones ++ focus ++ zeros 3644
  r ++ leBytes 4 (crc32c r)

/-- The oldest statistics block due is written (R236). -/
def State.ingStats (s : State) (h : Nat) : State :=
  match (s.ig h).stats with
  | [] => s
  | j :: r =>
    let b := ING h
    let seq := (s.ig h).statNext
    let x := s.engineWrite (j.base + 32768 * (seq % 2 ^ j.log2)) (j.bytes seq)
    let s := x.2.setIg h (fun y => { y with stats := r, statNext := inc32 y.statNext })
    (if x.1 then (s.p b ING_STAT_WR seq).irq b 0 else s.fault b 1 true).ingTidy h

/-! ### Registers and commits (R209, R217, R222, R238) -/

/-- The binding rule of R222 is broken. -/
def State.bindBad (s : State) (h p : Nat) : Bool :=
  p != 7 && (s.on (PSL p) PSL_STAT_RETIRED || !s.powered (PSL p) ||
    (s.on (PSL p) PSL_STAT_BOUND && s.g (PSL p) PSL_STAT_HEAD != h) ||
    (List.range 4).any (fun k => k != h && s.on (ING k) PAGE_STAT_COMMIT_PEND && s.g (ING k) ING_BIND_SLICE == p))

/-- The first rule of R209 that the shadow set of ING_h breaks. -/
def State.ingCheck (s : State) (h : Nat) : Nat :=
  let b := ING h
  let w := s.g b ING_GEOM_WIDTH
  let ht := s.g b ING_GEOM_HEIGHT
  let rate := s.g b ING_RATE
  let d := 10 + 2 * s.g b ING_FORMAT_DEPTH
  let ret := s.g64 b ING_RET_BASE_LO
  let st := s.g64 b ING_STAT_BASE_LO
  if !(decide (256 ≤ w) && decide (w ≤ 32768) && w % 2 == 0 && decide (64 ≤ ht) && decide (ht ≤ 16384) && ht % 2 == 0) then 1
  else if rate = 0 ∨ 10000000 < rate then 2
  else if 64 * 10 ^ 12 < w * ht * rate ∨ 2 * 10 ^ 12 < cdiv w 32 * ht * rate then 3
  else if 25 * 10 ^ 9 < ht * rate then 4
  else if 1097 * 10 ^ 12 < rate * (ht * (1 + cdiv (w * d) 1280) + 2) * 1280 then 5
  else if s.bindBad h (s.g b ING_BIND_SLICE) then 6
  else if ret % 65536 != 0 || !s.hbmUsable ret (64 * (cdiv (2 * w) 256 * 256) + 1024) then 7
  else if s.on b ING_STAT_CFG_EN && (st % 32768 != 0 || !s.hbmUsable st (32768 * 2 ^ s.g b ING_STAT_CFG_RING_LOG2)) then 8
  else if s.on b ING_SET_SEND && (s.g b ING_SET_SET_ID == 0 || s.g b ING_SET_COUNT == 0) then 9 else 0

/-- What the shadow set of ING_h leaves the envelope by (R360). -/
def State.ingEnv (s : State) (h : Nat) : Nat :=
  let b := ING h
  ingEnvelope s.sump.recs h (s.g b ING_BIND_SLICE) (s.g b ING_GEOM_WIDTH) (s.g b ING_GEOM_HEIGHT) (s.g b ING_RATE)

/-- ING_NEXT_SEQ written whole (R217). -/
def State.nextSeqWrite (s : State) (h v : Nat) : State :=
  let b := ING h
  if s.enabled b || s.busy b || decide (v < s.g64 b ING_NEXT_SEQ_LO) then s.refuse4 (b + 0x208) else s.p64 b ING_NEXT_SEQ_LO v

/-- ING_ABN_CTRL (R238). -/
def State.abnCtrl (s : State) (h v : Nat) : State :=
  let s := if bitOf v 0 then (s.setIg h (fun x => { x with log := x.log.drop 1 })).ingSync h else s
  if bitOf v 1 then
    let j := s.nextJsn
    (s.p (ING h) ING_ABN_STAT_OVERFLOW 0).setTsq (fun t => { t with abnClr := upd t.abnClr h (fun _ => j) })
  else s

/-! ### Commands -/

/-- FRAME_START_STRIPE (R214). -/
def execFrameStartStripe (h : Fin 4) (hfc : Word) (setId width height : BitVec 16) (depth : Fin 4) (expDur : Word)
    (expSec : BitVec 48) (expNs : Word) (expFrac : BitVec 16) (s : State) : Host.Outcome State Fault Refusal :=
  .next (s.frameStart h ⟨hfc.toNat, setId.toNat, width.toNat, height.toNat, depth, expDur.toNat, expSec.toNat, expNs.toNat, expFrac.toNat⟩)

/-- LINE_STRIPE (R210). -/
def execLineStripe (h : Fin 4) (num width : BitVec 16) (hfc : Word) (s : State) : Host.Outcome State Fault Refusal :=
  .next (s.lineStripe h num.toNat width.toNat hfc.toNat)

/-- DATA_STRIPE (R206): 160 bytes, and what the line meets where this stripe completes it. -/
def execDataStripe (h : Fin 4) (bytes : Vector Byte 160) (env : LineEnv) (s : State) : Host.Outcome State Fault Refusal :=
  .next (s.dataStripe h bytes.toList env)

/-- FRAME_END_STRIPE (R208). -/
def execFrameEndStripe (h : Fin 4) (hfc : Word) (lines : BitVec 16) (flags : Byte) (s : State) : Host.Outcome State Fault Refusal :=
  .next (let _ := lines; s.frameEnd h hfc.toNat flags.toNat)

/-- FRAME_TIMEOUT (R208, R210): the frame in progress closes, or ingest that waits passes a latch instant. -/
def execFrameTimeout (h : Fin 4) (s : State) : Host.Outcome State Fault Refusal :=
  .next (if (s.ig h).cur.isSome then s.ingClose h 16 else if s.enabled (ING h) then s.ingLatch h else s)

/-- INGEST_STOP_DEADLINE (R219). -/
def execIngestStopDeadline (h : Fin 4) (s : State) : Host.Outcome State Fault Refusal :=
  .next (if s.enabled (ING h) then s else s.abandonCur h 7)

/-- STATS_BLOCK_WRITTEN (R236). -/
def execStatsBlockWritten (h : Fin 4) (s : State) : Host.Outcome State Fault Refusal := .next (s.ingStats h)

/-- ING_NEXT_SEQ_WRITE (R217): one 8-byte write. -/
def execIngNextSeqWrite (h : Fin 4) (v : BitVec 64) (s : State) : Host.Outcome State Fault Refusal :=
  .next (s.hostSized 8 (fun s => s.regOp (ING h + 0x208) (v.toNat % 2 ^ 32) (fun s => s.nextSeqWrite h v.toNat)))

/-- ABN_POP (R238). -/
def execAbnPop (h : Fin 4) (s : State) : Host.Outcome State Fault Refusal :=
  .next (s.hostReg (ING h + 0x234) 1 (fun s => s.abnCtrl h 1))

/-- ABN_CLR_OVF (R238). -/
def execAbnClrOvf (h : Fin 4) (s : State) : Host.Outcome State Fault Refusal :=
  .next (s.hostReg (ING h + 0x234) 2 (fun s => s.abnCtrl h 2))

end Sys2Proof.Machine
end

