-- ==== Sys2Proof/Machine/Vrlc.lean ====
section
/-! DEFINITION. VRLC as it runs: sizing, coding, verify, re-code, the stored and the forced form (11_raw_compression.md,
R378–R391). -/

namespace Sys2Proof.Machine

/-- A strip's geometry under its frame. -/
def RawFrame.geom (f : RawFrame) : StripGeom := ⟨f.frame.w, f.frame.depth, f.frame.cfa, 0⟩

/-- The oldest strip of a head in a state, with its frame. -/
def State.oldestStrip (s : State) (h : Nat) (at_ : StripAt) : Option (RawFrame × Strip) :=
  (s.rawOf h).findSome? (fun f => (f.strips.find? (fun t => t.at_ == at_)).map (fun t => (f, t)))

/-- Head h is forced STORED (R386). -/
def State.vlcForced (s : State) (h : Nat) : Bool := s.on (vlcHead h) VLC_HEAD_STAT_FORCED_STORED

/-- The stored form is forced on a head (R386). -/
def State.vlcForce (s : State) (h : Nat) : State :=
  if s.vlcForced h then s
  else (((s.p (vlcHead h) VLC_HEAD_STAT_FORCED_STORED 1).pBit VLC VLC_STAT_FORCED h true).fault VLC h true).irq VLC (4 + h)

/-- RECODING follows the strips that C4 has. -/
def State.recodeSync (s : State) : State :=
  s.p VLC VLC_STAT_RECODING (b2n (s.raw.any (fun l => l.any (fun f => f.strips.any (fun t => t.at_ == StripAt.mismatch)))))

/-! ### Sizing (R379, R418, R420) -/

/-- The photosites of a strip, line by line. -/
def Strip.rows (t : Strip) : List (List Nat) := t.lines.map (fun l => l.px)

/-- The level and the slot length of a strip (R371, R379, R381). -/
def Strip.sizeAs (t : Strip) (f : RawFrame) (stored : Bool) : Nat × Nat :=
  let n := t.lines.length
  if stored then (0, storedLen n f.frame.w f.frame.depth)
  else
    let g := { f.geom with first := 16 * t.idx }
    let p := 8 * (vlcBudget n f.frame.w f.frame.depth f.ratio - 68)
    let l := chooseLevel g t.rows p
    (l, 68 + 4 * cdiv (levelBits g l t.rows) 32)

/-- STRIP_SIZED (R379): the oldest strip whose lines are complete takes its level and its slot. -/
def State.stripSized (s : State) (h : Nat) : State :=
  match s.oldestStrip h .ready with
  | none => s
  | some (f, t) =>
    let seq := f.frame.seq
    let forced := f.coded && s.vlcForced h
    let stored := !f.coded || forced
    let (level, len) := t.sizeAs f stored
    let r := s.rawPlace h seq (if stored then 0 else f.ratio)
    if !r.1 then r.2.abandonFrame h seq 5
    else
      let s := r.2
      let a := s.area h
      let first := ((s.rawFrame h seq).bind (fun f => f.first)).getD 0
      if 4096 * (a.tail + a.len) < 4096 * first + f.nextOff + len then (s.irq TSQ 7).abandonFrame h seq 5
      else
        let s := s.setStrip h seq t.idx (fun t => { t with level := level, stored := stored, forced := forced, at_ := .sized })
        (s.takeSlot h seq t.idx len).vlcSync h

/-! ### Records (R370, R380, R381) -/

/-- The record of a strip as it stands: LAST on the frame's last strip, PADDED where ingest padded or cut a line. -/
def Strip.build (t : Strip) (f : RawFrame) (h : Nat) : List Byte :=
  let n := t.lines.length
  let last := (f.closed && t.idx + 1 == f.strips.length) || decide (f.frame.h ≤ 16 * t.idx + n)
  let padded := t.lines.any (fun l => l.short || l.long)
  stripRecord { f.geom with first := 16 * t.idx }
    ⟨f.frame.seq, t.idx, h, f.ratio, vlcBudget n f.frame.w f.frame.depth f.ratio, f.frame.setId,
     4 * b2n t.recoded + 8 * b2n t.forced + 16 * b2n last + 32 * b2n padded, t.level⟩ t.stored t.rows

/-- A strip's record is formed and written; a displaced one that does not fit abandons its frame (R420). -/
def State.formRecord (s : State) (h seq i : Nat) : State :=
  match s.rawFrame h seq with
  | none => s
  | some f =>
    let t := nth (Strip.fresh i) f.strips i
    let r := s.putRecord h seq i (t.build f h)
    if r.1 then r.2.vlcSync h else r.2.abandonFrame h seq 5

/-- STRIP_CODED (R380): the coding pass ends and the record is in HBM. -/
def State.stripCoded (s : State) (h : Nat) : State :=
  match s.oldestStrip h .sized with
  | none => s
  | some (f, t) => (s.setStrip h f.frame.seq t.idx (fun t => { t with at_ := .coded })).formRecord h f.frame.seq t.idx

/-! ### Verify (R383–R387) -/

/-- A record is handed to the take store (R383, R390). -/
def State.handRecord (s : State) (h seq i : Nat) : State :=
  match s.rawFrame h seq with
  | none => s
  | some f =>
    let t := nth (Strip.fresh i) f.strips i
    let b := vlcHead h
    let s := s.setStrip h seq i (fun t => { t with at_ := .passed })
    let s := (s.addSat b VLC_STRIPS 1).addSat b VLC_LOSSLESS (b2n (t.stored || t.level == 0))
    let s := (s.addSat b VLC_FLAT (b2n (!t.stored && 8 ≤ t.level))).addSat b VLC_RECODE (b2n t.recoded)
    let s := s.p64 b VLC_IN_LO (s.g64 b VLC_IN_LO + t.lines.length * f.frame.w * f.frame.depth / 8)
    let s := s.p64 b VLC_OUT_LO (s.g64 b VLC_OUT_LO + t.record.length)
    let s := s.p b VLC_HEAD_STAT_LAST_FORM (b2n t.stored)
    let s := if t.stored then s else s.p b VLC_HEAD_STAT_LAST_LEVEL t.level
    (s.p b VLC_HEAD_STAT_LAST_STRIP i).vlcSync h

/-- A verify mismatch is counted and told (R385, R391). -/
def State.mismatch (s : State) (h seq i : Nat) (c4 : Bool) : State :=
  let s := (s.addSat VLC VLC_VERIFY_MISMATCH 1).p VLC VLC_FAIL_INFO (h + 4 * b2n c4 + 8 + 2 ^ 16 * (i % 65536))
  (s.p64 VLC VLC_FAIL_SEQ_LO seq).irq VLC h

/-- A strip is written in the stored form instead (R385, R386); its verify follows. -/
def State.storeInstead (s : State) (h seq i : Nat) : State :=
  let s := (s.addSat VLC VLC_VERIFY_STORED_INSTEAD 1).setStrip h seq i (fun t => { t with stored := true, recoded := true, at_ := .coded })
  (s.formRecord h seq i).recodeSync

/-- A stored record fails its verify (R387): it is handed over all the same. -/
def State.storeFails (s : State) (h seq i : Nat) : State :=
  let s := s.setStrip h seq i (fun t => { t with forced := true })
  let s := ((s.formRecord h seq i).fault VLC 4 true).irq VLC 8
  (s.reportOnly 182 (h + 2 ^ 16 * i)).handRecord h seq i

/-- STRIP_VERIFIED (R383): fails: the record does not pass; c4Late: C4 cannot begin a re-code within 2 line times. -/
def State.stripVerified (s : State) (h : Nat) (fails c4Late : Bool) : State :=
  match s.oldestStrip h .coded with
  | none => s
  | some (f, t) =>
    let seq := f.frame.seq
    if t.stored then
      (if fails then (s.mismatch h seq t.idx false).storeFails h seq t.idx else s.handRecord h seq t.idx)
    else
      let r := s.check (178 + h) 0 fails false
      if !r.1.fails then r.2.handRecord h seq t.idx
      else
        let s := r.2.mismatch h seq t.idx false
        let c := r.1
        if s.on VLC VLC_STAT_RECODING && c4Late then
          (s.storeInstead h seq t.idx).report ⟨178 + h, 0, t.idx % 65536, false, c.injected, c.real, c.counted⟩ (fun s => s.vlcForce h)
        else
          (s.setStrip h seq t.idx (fun t => { t with at_ := .mismatch, inj := (c.injected, c.real, c.counted, c.retryFails) })).recodeSync

/-- STRIP_RECODED (R385, R386): C4's record, in the same slot, and its verify. -/
def State.stripRecoded (s : State) (h : Nat) (fails : Bool) : State :=
  match s.oldestStrip h .mismatch with
  | none => s
  | some (f, t) =>
    let seq := f.frame.seq
    let (injd, real, counted, both) := t.inj
    let bad := fails || both
    let s := (s.setStrip h seq t.idx (fun t => { t with recoded := true, at_ := .recoded })).formRecord h seq t.idx
    let s := s.recodeSync
    let ev (s : State) : State := s.report ⟨178 + h, 0, t.idx % 65536, bad, injd, real, counted⟩ (fun s => s.vlcForce h)
    if bad then ev ((s.mismatch h seq t.idx true).storeInstead h seq t.idx)
    else ev ((s.addSat VLC VLC_VERIFY_RECODED 1).handRecord h seq t.idx)

/-- VLC_HEAD_CTRL_h (R391). -/
def State.clrForced (s : State) (h v : Nat) : State :=
  if !bitOf v 0 then s
  else if s.enabled (ING h) || s.busy (ING h) then s.refuse4 (vlcHead h + 0x1108)
  else ((s.p (vlcHead h) VLC_HEAD_STAT_FORCED_STORED 0).pBit VLC VLC_STAT_FORCED h false).fault VLC h false

/-! ### Commands -/

/-- STRIP_SIZED (R379). -/
def execStripSized (h : Fin 4) (s : State) : Host.Outcome State Fault Refusal := .next (s.stripSized h)

/-- STRIP_CODED (R380). -/
def execStripCoded (h : Fin 4) (s : State) : Host.Outcome State Fault Refusal := .next (s.stripCoded h)

/-- STRIP_VERIFIED (R383). -/
def execStripVerified (h : Fin 4) (fails c4Late : Bool) (s : State) : Host.Outcome State Fault Refusal :=
  .next (s.stripVerified h fails c4Late)

/-- STRIP_RECODED (R386). -/
def execStripRecoded (h : Fin 4) (fails : Bool) (s : State) : Host.Outcome State Fault Refusal := .next (s.stripRecoded h fails)

/-- CLR_FORCED (R391). -/
def execClrForced (h : Fin 4) (s : State) : Host.Outcome State Fault Refusal :=
  .next (s.hostReg (vlcHead h + 0x1108) 1 (fun s => s.clrForced h 1))

end Sys2Proof.Machine
end

