-- ==== Sys2Proof/Machine/Lanes.lean ====
section
/-! DEFINITION. The 96 lanes and their 24 quad clock units (04_lanes.md, R98–R151), up to what a lane's owner does with
what it is told: training searches, power states, detectors, the auxiliary sampler, the pattern checkers. -/

namespace Sys2Proof.Machine

def State.lane (s : State) (n : Nat) : Lane := nth Lane.init s.lanes n
def State.setLane (s : State) (n : Nat) (f : Lane → Lane) : State := { s with lanes := upd s.lanes n f }
def State.quad (s : State) (q : Nat) : Quad := nth Quad.init s.quads q
def State.setQuad (s : State) (q : Nat) (f : Quad → Quad) : State := { s with quads := upd s.quads q f }

/-- The base that places the registers of a lane (R98, R146). -/
def lnb (n : Nat) : Nat := LNK (n / 4) + 0x40 * (n % 4)

/-! ### Owners (R101–R105) -/

/-- The quad that a half-port of an Ethernet unit sits on: the head-slot quad it is placed on, or its home quad. -/
def State.halfQuad (s : State) (k j : Nat) : Nat :=
  ((List.range 12).find? (fun q => s.g (LNK q) LNK_QUAD_CFG_ROLE == 1 && s.g (LNK q) LNK_QUAD_CFG_ETH_UNIT == k &&
    s.g (LNK q) LNK_QUAD_CFG_ETH_HALF == j)).getD (12 + 2 * k + j)

/-- OWNER and OWNER_INDEX of a quad (R147): 0 none, 1 CWY, 2 Ethernet unit, 3 HIF. -/
def State.quadOwner (s : State) (q : Nat) : Nat × Nat :=
  if 20 ≤ q then (3, 0)
  else if q < 12 then
    (if s.g (LNK q) LNK_QUAD_CFG_ROLE = 0 then (1, q / 3) else (2, s.g (LNK q) LNK_QUAD_CFG_ETH_UNIT))
  else
    let k := (q - 12) / 2
    if s.halfQuad k (q % 2) = q then (2, k) else (0, 0)

/-- The owner of a quad is enabled; HIF always is (R102). -/
def State.ownerOn (s : State) (q : Nat) : Bool :=
  match s.quadOwner q with
  | (1, h) => s.enabled (CWY h)
  | (2, k) => s.enabled (ETH k)
  | (3, _) => true
  | _ => false

/-- A write that an enabled owner makes the device refuse (R101); LNK_LANE_TRAIN is open as R121 permits. -/
def State.ownerRefuses (s : State) (off v : Nat) : Bool :=
  match owner off with
  | some ⟨.lnk, q, rel⟩ =>
    s.ownerOn q &&
    (rel == 0x100 ||
     (0x200 ≤ rel && rel < 0x300 &&
      ([0x00, 0x04, 0x1C, 0x38].contains ((rel - 0x200) % 0x40) ||
       ((rel - 0x200) % 0x40 == 0x0C && bitOf v 0 &&
        s.g (LNK q + (rel - 0x200) / 0x40 * 0x40) LNK_LANE_STAT_TRAIN_FAILED == 0))))
  | _ => false

/-- N and W of a quad's lane sources by its role (R664, R665). -/
def State.laneDefaults (s : State) (q role : Nat) : State :=
  let d := laneSrcDefault role
  forN 4 s (fun l s =>
    (s.p (bitSrc (4 * q + l)) BIT_SRC_CFG_N_M1 (d.1 - 1)).p (bitSrc (4 * q + l)) BIT_SRC_CFG_W d.2.1)

/-- A write of LNK_QUAD_CFG (R103, R104, R665). -/
def State.quadRoleWrite (s : State) (q v : Nat) : State :=
  let off := LNK q + 0x100
  let role := fld v 0 1
  let k := fld v 1 2
  let j := fld v 3 1
  let placed := (List.range 12).any (fun p => p != q && s.g (LNK p) LNK_QUAD_CFG_ROLE == 1 &&
    s.g (LNK p) LNK_QUAD_CFG_ETH_UNIT == k && s.g (LNK p) LNK_QUAD_CFG_ETH_HALF == j)
  if s.ownerOn q then s.refuse4 off
  else if role = 1 ∧ (s.enabled (CWY (q / 3)) ∨ s.busy (CWY (q / 3)) ∨ placed ∨ s.enabled (ETH k)) then s.refuse4 off
  else
    let was := s.g (LNK q) LNK_QUAD_CFG_ROLE
    let s := s.plainWrite off v
    if was = role then s else s.laneDefaults q role

/-! ### Power states (R126–R129) -/

/-- LNK PAGE_STAT.BUSY: some lane half is above P3 (R128). -/
def State.lnkSync (s : State) (q : Nat) : State :=
  s.setBusy (LNK q) ((List.range 4).any (fun l =>
    s.g (lnb (4 * q + l)) LNK_LANE_STAT_RX_NOW != 3 || s.g (lnb (4 * q + l)) LNK_LANE_STAT_TX_NOW != 3))

/-- The target of a lane half: what LNK_LANE_PWR holds, or P3 while the quad is not enabled (R128, R129), and in STOPPED but for
Q20–Q23 (R697). -/
def State.halfTarget (s : State) (n : Nat) (tx : Bool) : Nat :=
  if n < 80 ∧ s.g THM THM_STAT_STAGE = 2 then 3
  else if s.enabled (LNK (n / 4)) then s.g (lnb n) (if tx then LNK_LANE_PWR_TX_PSTATE else LNK_LANE_PWR_RX_PSTATE) else 3

def State.halfNow (s : State) (n : Nat) (tx : Bool) : Nat :=
  s.g (lnb n) (if tx then LNK_LANE_STAT_TX_NOW else LNK_LANE_STAT_RX_NOW)

def Lane.move (l : Lane) (tx : Bool) : Option Nat := if tx then l.txMove else l.rxMove

def State.setMove (s : State) (n : Nat) (tx : Bool) (m : Option Nat) : State :=
  s.setLane n (fun l => if tx then { l with txMove := m } else { l with rxMove := m })

/-- The power domain of a lane half (R707). -/
def halfDomain (n : Nat) (tx : Bool) : Nat := 2 * n + b2n tx

/-- A lane half starts towards its target unless a transition is in progress (R127); P3 takes its domain down, leaving P3
takes it up. -/
def State.kick (s : State) (n : Nat) (tx : Bool) : State :=
  if ((s.lane n).move tx).isSome then s
  else if s.halfTarget n tx = s.halfNow n tx then s
  else
    let goal := s.halfTarget n tx
    let now := s.halfNow n tx
    let s := s.setMove n tx (some goal)
    if goal = 3 ∨ now = 3 then s.seqRequest (halfDomain n tx) (goal != 3) else s

/-- New targets for a lane; none keeps the one that stands. -/
def State.setPstate (s : State) (n : Nat) (rx tx : Option Nat) : State :=
  let s := match rx with | some v => s.p (lnb n) LNK_LANE_PWR_RX_PSTATE v | none => s
  let s := match tx with | some v => s.p (lnb n) LNK_LANE_PWR_TX_PSTATE v | none => s
  (s.kick n false).kick n true

/-- A write of LNK_LANE_PWR. -/
def State.lanePwrWrite (s : State) (n v : Nat) : State :=
  if s.ownerOn (n / 4) then s.refuse4 (lnb n + 0x204)
  else ((s.plainWrite (lnb n + 0x204) v).kick n false).kick n true

/-! ### Transmit equalisation (R112–R116) -/

/-- The band's default preset of a quad's receivers' heads, or of its control transmitters (R113). -/
def State.bandPreset (s : State) (q : Nat) (ctrl : Bool) : Nat :=
  fld (s.rd (LNK q + 0x108)) (4 * s.g (LNK q) LNK_QUAD_STAT_BAND + (if ctrl then 16 else 0)) 3

/-- A control transmitter takes up a preset of its quad's table (R115). -/
def State.ctrlCoef (s : State) (n p : Nat) : State :=
  let b := LNK (n / 4) + 4 * p
  let s' := s.wr (lnb n + 0x210) 0
  ((s'.p (lnb n) LNK_TX_COEF_C_M1 ((64 - s.g b LNK_PRESET_PRE) % 64)).p (lnb n) LNK_TX_COEF_C_0 (s.g b LNK_PRESET_MAIN)).p
    (lnb n) LNK_TX_COEF_C_P1 ((64 - s.g b LNK_PRESET_POST) % 64)

/-- A quad that carries the control transmitters of a head slot. -/
def State.ctrlQuad (s : State) (q : Nat) : Bool := q < 12 && q % 3 == 2 && s.g (LNK q) LNK_QUAD_CFG_ROLE == 0

/-- The band of a quad changes (R114, R115): head lane 10's control transmitter moves at once, head lane 11's later. -/
def State.quadBand (s : State) (q band : Nat) : State :=
  if s.g (LNK q) LNK_QUAD_STAT_BAND = band then s
  else
    let s := (s.p (LNK q) LNK_QUAD_STAT_BAND band).irq (LNK q) 18
    if s.ctrlQuad q && s.halfNow (4 * q + 2) true == 0 then
      let p := s.bandPreset q true
      (s.ctrlCoef (4 * q + 2) p).setQuad q (fun x => { x with ctrlMove := some p })
    else s

/-- CTRL_PRESET_MOVE. -/
def State.ctrlPresetMove (s : State) (q : Nat) : State :=
  match (s.quad q).ctrlMove with
  | some p => (s.ctrlCoef (4 * q + 3) p).setQuad q (fun x => { x with ctrlMove := none })
  | none => s

/-! ### Training searches (R117–R121) -/

/-- d, d + 1, d − 1, d + 2, … without the indices outside 0–7 (R117). -/
def presetOrder (d : Nat) : List Nat :=
  d :: ((List.range 8).flatMap (fun k => (if d + k + 1 ≤ 7 then [d + k + 1] else []) ++ (if k + 1 ≤ d then [d - (k + 1)] else [])))

/-- The head and head lane of a lane of a Causeway quad. -/
def headLane (n : Nat) : Nat × Nat := (n / 12, n % 12)

/-- A lane whose trainings are Causeway searches. -/
def State.cwyLane (s : State) (n : Nat) : Bool := n < 48 && s.g (LNK (n / 4)) LNK_QUAD_CFG_ROLE == 0

/-- The downstream copies carry messages (R197). -/
def State.linkTalks (s : State) (h : Nat) : Bool := 2 ≤ s.linkState h && s.linkState h ≤ 5

/-- TRAIN for a head lane (R180). -/
def State.sendTrain (s : State) (n : Nat) (on : Bool) : State :=
  let (h, j) := headLane n
  if s.cwyLane n && s.linkTalks h then s.sendFour h 0x50 (j + 16 * b2n on) else s

/-- A search tries its next preset: PRESET asks the head for it. -/
def State.askPreset (s : State) (n p : Nat) : State :=
  let (h, j) := headLane n
  let b := LNK (n / 4) + 4 * p
  if s.cwyLane n && s.linkTalks h then
    s.sendFour h 0x51 (j + 0x10 * p + 0x100 * s.g b LNK_PRESET_PRE + 0x1000 * s.g b LNK_PRESET_POST)
  else s

/-- A training begins on a receiver in P0; one that is not there is woken first. -/
def State.beginTraining (s : State) (n : Nat) : State :=
  if s.halfNow n false != 0 then (s.setLane n (fun l => { l with waking := true })).setPstate n (some 0) none
  else
    let s := (s.setLane n (fun l => { l with waking := false })).p (lnb n) LNK_LANE_STAT_TRAINING 1
    if s.cwyLane n then
      let order := presetOrder (s.bandPreset (n / 4) false)
      let s := s.setLane n (fun l => { l with trying := order.head?, searchLeft := order.drop 1 })
      (s.sendTrain n true).askPreset n (order.headD 0)
    else s

/-- A training ends without a word of its own. -/
def State.trainingOver (s : State) (n : Nat) : State :=
  ((s.setLane n (fun l => { l with trying := none, searchLeft := [], waking := false })).p (lnb n)
    LNK_LANE_STAT_TRAINING 0).p (lnb n) LNK_LANE_TRAIN_START 0

/-- A training passes (R118, R121). -/
def State.trainPass (s : State) (n preset : Nat) : State :=
  let s := s.trainingOver n
  let s := ((s.p (lnb n) LNK_LANE_STAT_TRAINED 1).p (lnb n) LNK_LANE_STAT_TRAIN_FAILED 0).p (lnb n) LNK_LANE_STAT_PRESET preset
  ((s.setLane n (fun l => { l with searches := 0 })).fault (LNK (n / 4)) (2 + n % 4) false).irq (LNK (n / 4)) (8 + n % 4)

/-- No setting works (R120). -/
def State.trainFail (s : State) (n : Nat) : State :=
  let s := s.trainingOver n
  let s := (s.p (lnb n) LNK_LANE_STAT_TRAINED 0).p (lnb n) LNK_LANE_STAT_TRAIN_FAILED 1
  let s := ((s.addSat (lnb n) LNK_EVT_CNT_TRAIN_FAIL_CNT 1).irq (LNK (n / 4)) (12 + n % 4)).setPstate n (some 2) none
  let s := s.fault (LNK (n / 4)) (2 + n % 4) true
  s.report { src := n, unit := 0, detail := 0x50, lasting := true } (fun s => s)

/-- The preset tried fails: the next is asked for, or the search has failed. The answer says whether the search ended. -/
def State.attemptFail (s : State) (n : Nat) : State × Bool :=
  match (s.lane n).searchLeft with
  | p :: r => ((s.setLane n (fun l => { l with trying := some p, searchLeft := r })).askPreset n p, false)
  | [] => (s.trainFail n, true)

/-- LNK_MARGIN takes a result (R118, R136). -/
def State.setMargin (s : State) (n h w : Nat) : State :=
  ((((s.p (lnb n) LNK_MARGIN_HEIGHT h).p (lnb n) LNK_MARGIN_WIDTH w).p (lnb n) LNK_MARGIN_AGE 0).p (lnb n) LNK_MARGIN_VALID 1).setLane
    n (fun l => { l with marginMs := some s.time.ms })

/-- An attempt ends with its check and margin test (R118); a standing LOS or LOL fails it (R119). -/
def State.attemptEnd (s : State) (n : Nat) (errors : Bool) (h w : Nat) : State × Option Bool :=
  match (s.lane n).trying with
  | none => (s, none)
  | some p =>
    if s.on (lnb n) LNK_LANE_STAT_LOS || s.on (lnb n) LNK_LANE_STAT_LOL then
      let r := s.attemptFail n
      (r.1, if r.2 then some false else none)
    else
      let s := s.setMargin n (h % 256) (w % 256)
      if !errors && s.g (LNK (n / 4)) LNK_DET_CFG_EYE_MIN_H ≤ h % 256 && s.g (LNK (n / 4)) LNK_DET_CFG_EYE_MIN_W ≤ w % 256 then
        (s.trainPass n p, some true)
      else
        let r := s.attemptFail n
        (r.1, if r.2 then some false else none)

/-- A write of LNK_LANE_TRAIN: START (R121, R149) and AUTO_RETRY. -/
def State.laneTrainWrite (s : State) (n v : Nat) : State :=
  let b := lnb n
  let failed := s.on b LNK_LANE_STAT_TRAIN_FAILED
  if s.ownerRefuses (b + 0x20C) v then s.refuse4 (b + 0x20C)
  else if bitOf v 0 ∧ (s.on b LNK_LANE_STAT_TRAINING ∨ (s.lane n).waking ∨ (s.halfNow n false != 0 ∧ !failed)) then
    s.refuse4 (b + 0x20C)
  else
    let s := s.plainWrite (b + 0x20C) v
    if bitOf v 0 then (s.setLane n (fun l => { l with searches := 0 })).beginTraining n else s

/-- AUTO_RETRY (R121). -/
def State.autoRetry (s : State) (n : Nat) : State :=
  if s.on (lnb n) LNK_LANE_TRAIN_AUTO_RETRY && s.on (lnb n) LNK_LANE_STAT_TRAIN_FAILED &&
      !s.on (lnb n) LNK_LANE_STAT_TRAINING && !(s.lane n).waking && decide ((s.lane n).searches < 6) then
    (s.setLane n (fun l => { l with searches := l.searches + 1 })).beginTraining n
  else s

/-! ### Transitions completed -/

/-- Every half of every lane of a quad stands at its target. -/
def State.allReached (s : State) (q : Nat) : Bool :=
  (List.range 4).all (fun l => [false, true].all (fun tx =>
    ((s.lane (4 * q + l)).move tx).isNone && s.halfNow (4 * q + l) tx == s.halfTarget (4 * q + l) tx))

/-- A receiver has arrived in a state. -/
def State.rxArrived (s : State) (n goal : Nat) : State :=
  let s := s.p (lnb n) LNK_LANE_STAT_RX_NOW goal
  if goal = 0 then
    let s := s.p (lnb n) LNK_MARGIN_VALID 0
    if (s.lane n).waking then s.beginTraining n else s
  else
    let s := (s.p (lnb n) LNK_LANE_STAT_LOS 0).p (lnb n) LNK_LANE_STAT_LOL 0
    let s := if s.on (lnb n) LNK_LANE_STAT_TRAINING then s.trainingOver n else s
    let s := (s.p (lnb n) LNK_LANE_STAT_IN_CAL 0).setQuad (n / 4) (fun x => { x with calDue := x.calDue.filter (fun m => m != n) })
    if goal = 3 then s.p (lnb n) LNK_LANE_STAT_TRAINED 0 else s

/-- A transmitter has arrived in a state. -/
def State.txArrived (s : State) (n goal : Nat) : State :=
  let s := s.p (lnb n) LNK_LANE_STAT_TX_NOW goal
  if goal = 0 && s.ctrlQuad (n / 4) && decide (2 ≤ n % 4) then s.ctrlCoef n (s.bandPreset (n / 4) true)
  else if goal = 3 then s.wr (lnb n + 0x210) 0 else s

/-- PSTATE_REACHED (R126, R127). -/
def State.pstateReached (s : State) (n : Nat) (tx : Bool) : State :=
  match (s.lane n).move tx with
  | none => s
  | some goal =>
    let s := (s.setMove n tx none).seqFinish (halfDomain n tx)
    let s := if tx then s.txArrived n goal else s.rxArrived n goal
    let s := (s.kick n tx).lnkSync (n / 4)
    s.irqIf (s.allReached (n / 4)) (LNK (n / 4)) 19

/-- LNK ENABLE is written: every half starts towards its target (R129). -/
def State.lnkEnabled (s : State) (q : Nat) : State := forN 4 s (fun l s => (s.kick (4 * q + l) false).kick (4 * q + l) true)

/-! ### Detectors (R131–R133) -/

/-- A detector asserts: status, interrupt, count. The answer says whether it was news. -/
def State.detect (s : State) (n : Nat) (lol : Bool) : State × Bool :=
  let f := if lol then LNK_LANE_STAT_LOL else LNK_LANE_STAT_LOS
  if s.halfNow n false != 0 || s.on (lnb n) f then (s, false)
  else
    (((s.p (lnb n) f 1).irq (LNK (n / 4)) ((if lol then 4 else 0) + n % 4)).addSat (lnb n)
      (if lol then LNK_EVT_CNT_LOL_CNT else LNK_EVT_CNT_LOS_CNT) 1, true)

/-! ### The auxiliary sampler (R134–R140) -/

/-- The next calibration due begins once no scan point dwells; with none due a waiting point goes on. -/
def State.samplerNext (s : State) (q : Nat) : State :=
  let b := LNK q
  let dwelling := s.on b LNK_SCAN_CTRL_START && !s.on b LNK_SCAN_STAT_WAITING
  match (s.quad q).calDue with
  | n :: _ => if dwelling then s else s.p (lnb n) LNK_LANE_STAT_IN_CAL 1
  | [] => s.p b LNK_SCAN_STAT_WAITING 0

def State.calibrationDue (s : State) (n : Nat) : State :=
  if s.halfNow n false != 0 || (s.quad (n / 4)).calDue.contains n then s
  else
    let busy := !(s.quad (n / 4)).calDue.isEmpty
    let s := s.setQuad (n / 4) (fun x => { x with calDue := x.calDue ++ [n] })
    if busy then s else s.samplerNext (n / 4)

def State.calDone (s : State) (n : Nat) : State :=
  if s.on (lnb n) LNK_LANE_STAT_IN_CAL then
    ((s.p (lnb n) LNK_LANE_STAT_IN_CAL 0).setQuad (n / 4) (fun x => { x with calDue := x.calDue.filter (fun m => m != n) })).samplerNext (n / 4)
  else s

def State.marginVisit (s : State) (n h w : Nat) : State :=
  if s.halfNow n false != 0 || !(s.quad (n / 4)).calDue.isEmpty || s.on (LNK (n / 4)) LNK_SCAN_CTRL_START then s
  else s.setMargin n h w

/-- A write of LNK_SCAN_CTRL with START (R140). -/
def State.scanWrite (s : State) (q v : Nat) : State :=
  let b := LNK q
  if !bitOf v 31 then s.plainWrite (b + 0x114) v
  else if s.on b LNK_SCAN_CTRL_START ∨ s.halfNow (4 * q + fld v 0 2) false != 0 ∨ (s.rxNrz q ∧ fld v 15 2 != 1) then
    s.refuse4 (b + 0x114)
  else
    let s := (s.plainWrite (b + 0x114) v).p b LNK_SCAN_STAT_DONE 0
    s.p b LNK_SCAN_STAT_WAITING (b2n (!(s.quad q).calDue.isEmpty))

def State.scanPointDone (s : State) (q errors : Nat) : State :=
  let b := LNK q
  if s.on b LNK_SCAN_CTRL_START && !s.on b LNK_SCAN_STAT_WAITING then
    let s := ((s.p b LNK_SCAN_CTRL_START 0).p b LNK_SCAN_STAT_DONE 1).p b LNK_SCAN_ERR (min errors (2 ^ 32 - 1))
    (s.irq b 17).samplerNext q
  else s

/-! ### Pattern checkers (R141–R144, R151) -/

/-- The generator or checker of a lane may run (R144). -/
def State.prbsFree (s : State) (n : Nat) : Bool := !s.ownerOn (n / 4)

/-- Compared bits and bit errors counted while locked; both counters stop when either saturates (R142, R151). -/
def State.prbsCount (s : State) (n errors bits : Nat) : State :=
  let b := lnb n
  if s.on b LNK_PRBS_STAT_SATURATED then s
  else
    let top := 2 ^ 48 - 1
    let e := min top (s.g64 b LNK_PRBS_ERR_LO + errors)
    let c := min top (s.g64 b LNK_PRBS_BITS_LO + bits)
    let s := (s.p64 b LNK_PRBS_ERR_LO e).p64 b LNK_PRBS_BITS_LO c
    if e = top ∨ c = top then s.p b LNK_PRBS_STAT_SATURATED 1 else s

/-- A write of LNK_PRBS_CTRL. -/
def State.prbsCtrl (s : State) (n v : Nat) : State :=
  let b := lnb n
  if s.ownerOn (n / 4) then s.refuse4 (b + 0x21C)
  else
    let s := s.plainWrite (b + 0x21C) v
    let s := if s.on b LNK_PRBS_CTRL_CHK_EN then s else s.p b LNK_PRBS_STAT_LOCK 0
    if bitOf v 6 then ((s.p64 b LNK_PRBS_ERR_LO 0).p64 b LNK_PRBS_BITS_LO 0).p b LNK_PRBS_STAT_SATURATED 0 else s

/-- A write of LNK_PRBS_INJ (R143). -/
def State.prbsInj (s : State) (n v : Nat) : State :=
  s.setLane n (fun l => { l with injectRate := fld v 8 6,
                                 injectOne := l.injectOne || (bitOf v 0 && s.prbsFree n && s.on (lnb n) LNK_PRBS_CTRL_GEN_EN) })

/-! ### Commands that the owner is not told of -/

/-- QUAD_ROLE_WRITE (R103). -/
def execQuadRoleWrite (q : Fin 24) (value : Word) (s : State) : Host.Outcome State Fault Refusal :=
  .next (s.hostReg (LNK q + 0x100) value.toNat (fun s => s.quadRoleWrite q value.toNat))

/-- CTRL_PRESET_MOVE (R115). -/
def execCtrlPresetMove (h : Fin 4) (s : State) : Host.Outcome State Fault Refusal := .next (s.ctrlPresetMove (3 * h + 2))

/-- TRAINING_START (R121). -/
def execTrainingStart (lane : Fin 96) (autoRetry : Bool) (s : State) : Host.Outcome State Fault Refusal :=
  let v := 1 + 2 * b2n autoRetry
  .next (s.hostReg (lnb lane + 0x20C) v (fun s => s.laneTrainWrite lane v))

/-- AUTO_RETRY (R121). -/
def execAutoRetry (lane : Fin 96) (s : State) : Host.Outcome State Fault Refusal := .next (s.autoRetry lane)

/-- PSTATE_TARGET_WRITE (R127). -/
def execPstateTargetWrite (lane : Fin 96) (value : Word) (s : State) : Host.Outcome State Fault Refusal :=
  .next (s.hostReg (lnb lane + 0x204) value.toNat (fun s => s.lanePwrWrite lane value.toNat))

/-- PSTATE_REACHED (R126). -/
def execPstateReached (lane : Fin 96) (tx : Bool) (s : State) : Host.Outcome State Fault Refusal := .next (s.pstateReached lane tx)

/-- LOS_DEASSERT (R131). -/
def execLosDeassert (lane : Fin 96) (s : State) : Host.Outcome State Fault Refusal := .next (s.p (lnb lane) LNK_LANE_STAT_LOS 0)

/-- LOL_DEASSERT (R131). -/
def execLolDeassert (lane : Fin 96) (s : State) : Host.Outcome State Fault Refusal := .next (s.p (lnb lane) LNK_LANE_STAT_LOL 0)

/-- CALIBRATION_DUE (R135). -/
def execCalibrationDue (lane : Fin 96) (s : State) : Host.Outcome State Fault Refusal := .next (s.calibrationDue lane)

/-- SLICER_CAL_DONE (R134). -/
def execSlicerCalDone (lane : Fin 96) (s : State) : Host.Outcome State Fault Refusal := .next (s.calDone lane)

/-- MARGIN_VISIT_DONE (R136). -/
def execMarginVisitDone (lane : Fin 96) (height width : Byte) (s : State) : Host.Outcome State Fault Refusal :=
  .next (s.marginVisit lane height.toNat width.toNat)

/-- SCAN_START (R140). -/
def execScanStart (q : Fin 24) (value : Word) (s : State) : Host.Outcome State Fault Refusal :=
  let v := value.toNat % 2 ^ 31 + 2 ^ 31
  .next (s.hostReg (LNK q + 0x114) v (fun s => s.scanWrite q v))

/-- SCAN_POINT_DONE (R148). -/
def execScanPointDone (q : Fin 24) (errors : Nat) (s : State) : Host.Outcome State Fault Refusal := .next (s.scanPointDone q errors)

/-- PRBS_CHECKER_LOCK (R142). -/
def execPrbsCheckerLock (lane : Fin 96) (s : State) : Host.Outcome State Fault Refusal :=
  .next (if s.prbsFree lane && s.on (lnb lane) LNK_PRBS_CTRL_CHK_EN then s.p (lnb lane) LNK_PRBS_STAT_LOCK 1 else s)

/-- PRBS_CHECKER_UNLOCK (R142): what was counted since lock stands in the counters. -/
def execPrbsCheckerUnlock (lane : Fin 96) (errors bits : Nat) (s : State) : Host.Outcome State Fault Refusal :=
  .next (if s.on (lnb lane) LNK_PRBS_STAT_LOCK then (s.prbsCount lane errors bits).p (lnb lane) LNK_PRBS_STAT_LOCK 0 else s)

/-- PRBS_CLEAR (R149). -/
def execPrbsClear (lane : Fin 96) (value : Word) (s : State) : Host.Outcome State Fault Refusal :=
  let v := setFld value.toNat 6 1 1
  .next (s.hostReg (lnb lane + 0x21C) v (fun s => s.prbsCtrl lane v))

/-- PRBS_SINGLE_INJECT (R143). -/
def execPrbsSingleInject (lane : Fin 96) (s : State) : Host.Outcome State Fault Refusal :=
  .next (s.hostReg (lnb lane + 0x224) 1 (fun s => s.prbsInj lane 1))

/-- PRBS_RATE_INJECT (R143). -/
def execPrbsRateInject (lane : Fin 96) (rate : Fin 64) (s : State) : Host.Outcome State Fault Refusal :=
  .next (s.hostReg (lnb lane + 0x224) (0x100 * rate) (fun s => s.prbsInj lane (0x100 * rate)))

/-- PRBS_COUNTER_SATURATION (R151): the counts since lock bring a counter to its top. -/
def execPrbsCounterSaturation (lane : Fin 96) (errors bits : Nat) (s : State) : Host.Outcome State Fault Refusal :=
  .next (if s.on (lnb lane) LNK_PRBS_STAT_LOCK then s.prbsCount lane errors bits else s)

end Sys2Proof.Machine
end

