-- ==== Sys2Proof/Machine/Servo.lean ====
section
/-! DEFINITION. Probes and the head time servo (R183, R184, R588–R591). Times here are in units of 2^−16 ns. -/

namespace Sys2Proof.Machine

/-- Units of 2^−16 ns in a second. -/
def secUnits : Nat := nsPerSec * 65536

/-- Device time in units of 2^−16 ns. -/
def DevTime.u16 (t : DevTime) : Nat := t.units / 2 ^ 32

/-- The base that places the servo registers of a head. -/
def hsb (h : Nat) : Nat := TIM + 0x20 * h

def State.hsState (s : State) (h : Nat) : Nat := s.g (hsb h) TIM_HS_STAT_STATE
def State.setServo (s : State) (h : Nat) (f : Servo → Servo) : State := s.setCw h (fun c => { c with servo := f c.servo })

/-- The time increment in force (R568). -/
def State.incForce (s : State) : Nat := s.rdA (TIM + 0x118) + 2 ^ 32 * (s.rdA (TIM + 0x11C) % 2 ^ 17)

/-- A time given by its nanoseconds and fraction, in the second that brings it nearest to a reference. -/
def nearTime (ref ns frac : Nat) : Nat :=
  let v := ref - ref % secUnits + ns * 65536 + frac
  if ref + secUnits / 2 < v then (if secUnits ≤ v then v - secUnits else v)
  else if v + secUnits / 2 < ref then v + secUnits else v

/-- STATE changes; LOADING or HOLD from TRACK raises HS_HOLD (R595). -/
def State.hsGo (s : State) (h st : Nat) : State :=
  let was := s.hsState h
  (s.p (hsb h) TIM_HS_STAT_STATE st).irqIf (was == 3 && (st == 2 || st == 5)) TIM 6

def State.hsLocked (s : State) (h : Nat) (v : Bool) : State :=
  if s.on (hsb h) TIM_HS_STAT_LOCKED = v then s else (s.p (hsb h) TIM_HS_STAT_LOCKED (b2n v)).irq TIM 5

/-- Device time at which the downstream comma n ahead arrives at the head: its departure and CWY_OWD (R155). -/
def State.commaArrival (s : State) (h n : Nat) : Nat :=
  (s.cw h).downAt / 2 ^ 32 + n * 33280 * 65536 / 7 + s.rd (CWY h + 0x138)

/-- TIME_SEC and TIME_LOAD for the comma n ahead, with a time for that comma (R588). -/
def State.sendLoad (s : State) (h n t : Nat) : State :=
  let sfc := ((s.cw h).downSfc + n) % 2 ^ 24
  let s := s.sendMsg h 0x21 (t / secUnits % 2 ^ 48) 3
  let seq := s.nextTxSeq h
  let s := s.sendMsg h 0x22 (t / 65536 % nsPerSec + 2 ^ 32 * (t % 65536) + 2 ^ 48 * sfc) 3
  s.setServo h (fun v => { v with change := some (sfc, seq, false) })

/-- TIME_STEP for the comma n ahead. -/
def State.sendStep (s : State) (h n : Nat) (off : Int) : State :=
  let sfc := ((s.cw h).downSfc + n) % 2 ^ 24
  let seq := s.nextTxSeq h
  (s.sendMsg h 0x23 (ofSint 48 off + 2 ^ 48 * sfc) 3).setServo h (fun v => { v with change := some (sfc, seq, true) })

/-- The servo loads the head's time (R588). -/
def State.servoLoad (s : State) (h : Nat) : State := (s.hsGo h 2).sendLoad h 16 (s.commaArrival h 16)

/-- EN and the link decide between OFF and running (R588). -/
def State.servoSync (s : State) (h : Nat) : State :=
  if s.on (hsb h) TIM_HS_CFG_EN && s.linkUp h then
    (if s.hsState h = 0 then (s.hsGo h 1).setServo h (fun _ => ⟨0, 0, 0, 0, none⟩) else s)
  else (s.hsLocked h false |>.hsGo h 0).setServo h (fun v => { v with change := none })

/-- The TRACK procedure on an offset θ (R589). -/
def State.servoTrack (s : State) (h : Nat) (theta : Int) : State :=
  let v := (s.cw h).servo
  let good := decide (theta.natAbs ≤ s.g (hsb h) TIM_HS_LOCK)
  let s := s.setServo h (fun v => { v with within := if good then v.within + 1 else 0, above := if good then 0 else v.above + 1 })
  let s := if good && decide (16 ≤ v.within + 1) then s.hsLocked h true
           else if !good && decide (4 ≤ v.above + 1) then s.hsLocked h false else s
  if s.rd (hsb h + 0x1308) < theta.natAbs then (s.hsGo h 4).sendStep h 16 (-theta)
  else
    let integ := clampS 32 (v.integ + theta)
    let ff : Int := ((s.incForce : Int) - incNominal) * 2 ^ 40 / incNominal
    let rate := ff - ((s.g (hsb h) TIM_HS_GAIN_KP : Int) * theta + (s.g (hsb h) TIM_HS_GAIN_KI : Int) * integ) / 256
    let rate := max (-(2 ^ 30)) (min (2 ^ 30) rate)
    ((s.setServo h (fun v => { v with integ := integ })).wr (hsb h + 0x1318) (ofSint 32 rate)).sendMsg h 0x24 (ofSint 32 rate) 3

/-- A probe result reaches the servo (R588). -/
def State.servoResult (s : State) (h : Nat) (theta : Int) : State :=
  let s := s.wr (hsb h + 0x1314) (ofSint 32 (clampS 32 theta))
  match s.hsState h with
  | 1 =>
    let n := (s.cw h).servo.results + 1
    let s := s.setServo h (fun v => { v with results := n })
    if 4 ≤ n then s.servoLoad h else s
  | 3 => s.servoTrack h theta
  | 5 => (s.hsGo h 3).servoTrack h theta
  | _ => s

/-- A probe has its T3: CWY_OWD and CWY_OFFSET (R184). -/
def State.probeDone (s : State) (h : Nat) (p : Probe) (t3ns t3frac : Nat) : State :=
  match p.t2 with
  | none => s
  | some (t2, copy) =>
    let b := CWY h
    let t3 := nearTime t2 t3ns t3frac
    let asym := sint 32 (s.rd (b + if copy then 0x134 else 0x130))
    let owd : Int := (((p.t4 : Int) - p.t1) - ((t3 : Int) - t2) - asym) / 2
    let off : Int := (t2 : Int) - p.t1 - owd
    let s := (s.wr (b + 0x138) (ofSint 32 owd)).p64 b CWY_OFFSET_LO (ofSint 64 off)
    let s := (s.wr (b + 0x144) ((s.rd (b + 0x144) + 1) % 2 ^ 32)).setCw h (fun c => { c with probe := none })
    (s.p (hsb h) TIM_HS_STAT_COPY (b2n copy)).servoResult h off

/-- A downstream comma leaves (R588, R591): the change that it names has taken effect when its message was acknowledged. -/
def State.downComma (s : State) (h : Nat) : State :=
  let s := s.setCw h (fun c => { c with downSfc := (c.downSfc + 1) % 2 ^ 24, downAt := s.time.units })
  match (s.cw h).servo.change with
  | none => s
  | some (sfc, seq, _) =>
    if sfc != (s.cw h).downSfc then s
    else
      let acked := !((s.cw h).unans ++ (s.cw h).queue).any (fun m => m.owner == 3 && m.seq == seq)
      let s := s.setServo h (fun v => { v with change := none })
      if !acked then s.servoLoad h
      else if s.hsState h = 2 ∨ s.hsState h = 4 then s.hsGo h 3 else s

/-- DOWNSTREAM_COMMA (R591); commas leave while the copies run (R197). -/
def execDownstreamComma (h : Fin 4) (s : State) : Host.Outcome State Fault Refusal :=
  .next (if s.linkState h = 0 then s else s.downComma h)

/-- PROBE_TIMER (R197): t1 is the device time at which the probe leaves. -/
def execProbeTimer (h : Fin 4) (s : State) : Host.Outcome State Fault Refusal :=
  .next (if s.linkUp h ∧ s.g (CWY h) CWY_PROBE_CFG_PERIOD ≠ 0 then
    let id := (s.cw h).probeId
    (s.setCw h (fun c => { c with probe := some ⟨id, s.time.u16, none, 0⟩, probeId := (id + 1) % 65536 })).sendMsg h 0x20 id 0
  else s)

/-- PROBE_LOST_TIMER (R589). -/
def execProbeLostTimer (h : Fin 4) (s : State) : Host.Outcome State Fault Refusal :=
  .next (if (s.cw h).probe.isSome then
    (s.setCw h (fun c => { c with probe := none })).addSat (hsb h) TIM_HS_LOST 1 else s)

/-- SERVO_HOLD_TIMER (R588). -/
def execServoHoldTimer (h : Fin 4) (s : State) : Host.Outcome State Fault Refusal :=
  .next (if s.hsState h = 3 then s.hsGo h 5 else s)

end Sys2Proof.Machine
end

