-- ==== Sys2Proof/Machine/Causeway.lean ====
section
/-! DEFINITION. A Causeway link on the device's side: states, roles, lane loss, standby and REMAP (R168–R174, R191,
R197–R199), the feed (R193–R196), and upstream messages (R177, R181, R201). -/

namespace Sys2Proof.Machine

def State.setCl (s : State) (h j : Nat) (f : CLane → CLane) : State := s.setCw h (fun c => { c with lanes := upd c.lanes j f })
def State.cl (s : State) (h j : Nat) : CLane := nth CLane.init (s.cw h).lanes j

/-- The roles whose lane is lost or that have none (R169). -/
def State.erased (s : State) (h : Nat) : List Nat :=
  (List.range 11).filter (fun r => match nth none (s.cw h).roles r with
    | some l => !(s.cl h l).trained
    | none => true)

/-- The role that awaits its new lane: the one the standby trains for, or the one a REMAP names. -/
def State.replacing (s : State) (h : Nat) : Option Nat :=
  match (s.cw h).replace with
  | some r => some r
  | none => (s.cw h).remap.bind (fun m => m.role)

/-- PROT of R174. -/
def State.protOf (s : State) (h : Nat) : Nat :=
  match s.erased h with
  | [] => if (s.cw h).standby.isSome && (s.replacing h).isNone then 2 else 1
  | [r] => if s.replacing h == some r then 1 else 0
  | _ => 0

/-- LANE_l of CWY_LANE_STAT (R202). -/
def State.laneCode (s : State) (h l : Nat) : Nat :=
  if (s.cw h).roles.contains (some l) then (if (s.cl h l).trained then 0 else 1)
  else if (s.cw h).standby == some l then 2 else 3

/-- The registers that follow the roles; before roles are assigned they hold their reset values. -/
def State.linkSync (s : State) (h : Nat) : State :=
  let b := CWY h
  let c := s.cw h
  let st := s.linkState h
  if st = 6 then s
  else if st < 4 then
    (((((s.p b CWY_STAT_PROT 0).p b CWY_STAT_REBUILDING 0).p b CWY_STAT_REMAP_PEND (b2n c.remap.isSome)).p b CWY_LANE_STAT 0xFFFFFF).wr
      (b + 0x110) 0x76543210).wr (b + 0x114) 0xBA98
  else
    let was := s.g b CWY_STAT_PROT
    let prot := s.protOf h
    let m := (c.roles ++ [c.standby]).map (fun (x : Option Nat) => x.getD 15)
    let s := ((s.p b CWY_STAT_PROT prot).p b CWY_STAT_REBUILDING (b2n (!(s.erased h).isEmpty))).p b CWY_STAT_REMAP_PEND (b2n c.remap.isSome)
    let s := s.p b CWY_LANE_STAT ((List.range 12).foldl (fun a l => a + 4 ^ l * s.laneCode h l) 0)
    let s := (s.wr (b + 0x110) ((List.range 8).foldl (fun a r => a + 16 ^ r * nth 15 m r) 0)).wr (b + 0x114)
      ((List.range 4).foldl (fun a r => a + 16 ^ r * nth 15 m (8 + r)) 0)
    s.irqIf (was < prot) b 3

/-- The link enters a state (R197). Leaving UP abandons the frame in progress; leaving CAPS or UP answers the host's
messages. cause: of a DOWN. -/
def State.linkGo (s : State) (h st cause : Nat) : State :=
  let b := CWY h
  let was := s.linkState h
  let s := s.p b CWY_STAT_STATE st
  let s := if st = 6 then s.p b CWY_STAT_CAUSE cause else s
  let s := if st = 5 then s.fault b 12 false else s
  let s := if 4 ≤ was ∧ was ≤ 5 ∧ !(4 ≤ st ∧ st ≤ 5) then s.msgDown h else s
  let s := if was = 5 ∧ st ≠ 5 then s.abandonCur h 4 else s
  let s := if st ≤ 1 ∨ st = 6 then s.setCw h (fun c => { c with remap := none, replace := none, caps := 0 }) else s
  let s := (s.setBusy b (st != 0)).linkSync h
  (s.irqIf (was != st) b 0).servoSync h

def State.linkDown (s : State) (h cause : Nat) : State := s.linkGo h 6 cause

/-- Lane j of the link starts its search. -/
def State.linkTrain (s : State) (h j : Nat) : State := s.beginTraining (12 * h + j)

/-- CTRL_UP begins: lanes and roles as at bring-up, receivers and control transmitters towards P0 (R130). -/
def State.linkCtrlUp (s : State) (h : Nat) : State :=
  let s := s.setCw h (fun c => { c with lanes := List.replicate 12 CLane.init, roles := (List.range 11).map some, standby := some 11 })
  let s := forN 12 s (fun j s => s.setPstate (12 * h + j) (some 0) (some (if 10 ≤ j then 0 else 3)))
  s.linkGo h 1 0

/-- The feed's level is driven; a head that it powers up starts afresh (R192). -/
def State.feedDrive (s : State) (h : Nat) (on : Bool) : State :=
  let b := CWY h
  if s.on b CWY_FEED_STAT_EN = on then s.p b CWY_FEED_STAT_PENDING 0
  else
    let s := ((s.p b CWY_FEED_STAT_EN (b2n on)).p b CWY_FEED_STAT_PENDING 0).emit (.feed h on)
    if on then
      let s := s.setCw h (fun c => { c with feedAt := some s.time.units })
      { s with heads := upd s.heads h (fun x => { Head.init with caps := x.caps, minFrame := x.minFrame }) }
    else s

/-- CWY ENABLE is refused (R198). -/
def State.cwyEnableRefused (s : State) (h : Nat) : Bool :=
  !s.on (CWY h) CWY_FEED_STAT_EN ||
  (List.range 3).any (fun i => !s.enabled (LNK (3 * h + i)) || s.g (LNK (3 * h + i)) LNK_QUAD_CFG_ROLE == 1)

/-- ENABLE rises, or the feed of an enabled link does: OFF is left (R197). -/
def State.linkWake (s : State) (h : Nat) : State :=
  if s.enabled (CWY h) ∧ s.on (CWY h) CWY_FEED_STAT_EN ∧ s.linkState h = 0 then s.linkCtrlUp h else s

/-- ENABLE falls (R198). -/
def State.linkDisable (s : State) (h : Nat) : State :=
  let s := s.linkGo h 0 0
  forN 12 s (fun j s => (s.trainingOver (12 * h + j)).setPstate (12 * h + j) (some 3) (some 3))

/-! ### Lane loss, standby and rejoin (R168–R174) -/

/-- REMAP of a role onto a lane, 16 commas ahead (R171, R172). -/
def State.sendRemap (s : State) (h r l tries : Nat) : State :=
  let sfc := (s.g (CWY h) CWY_SFC + 16) % 2 ^ 24
  let s := s.setCw h (fun c => { c with remap := some ⟨some r, l, sfc, tries, false⟩, replace := none })
  (s.sendFour h 0x52 (r + 0x10 * l + 0x100 * sfc)).linkSync h

/-- A role whose lane is lost is given to the standby, which trains first (R171). -/
def State.maybeReplace (s : State) (h : Nat) : State :=
  let c := s.cw h
  match c.standby, s.erased h with
  | some l, r :: _ =>
    if s.on (CWY h) CWY_CTRL_AUTO_STANDBY && c.replace.isNone && c.remap.isNone && s.linkLive h then
      ((s.setCw h (fun c => { c with replace := some r })).linkTrain h l).linkSync h
    else s
  | _, _ => s

/-- A lane is lost (R168); cause as R664 encodes it. A lane in training is not declared lost (R119). -/
def State.laneLost (s : State) (h j cause : Nat) : State :=
  if !s.linkLive h || !(s.cl h j).trained || s.on (lnb (12 * h + j)) LNK_LANE_STAT_TRAINING then s
  else
    let s := s.setCl h j (fun l => { l with trained := false, commaLock := false, blockLock := false, retrain := true, lostCause := cause })
    let s := ((s.addSat (CWY h + 4 * j) CWY_LANE_ERR_LOST 1).irq (CWY h) 2)
    let s := if (s.cw h).standby = some j then s.setCw h (fun c => { c with standby := none, replace := none, remap := none }) else s
    let s := s.linkTrain h j
    if 2 ≤ ((s.erased h).filter (fun r => r < 10)).length then (s.linkSync h).linkDown h 4
    else (s.linkSync h).maybeReplace h

/-- Every lane of the link has ended its search. -/
def State.searchesDone (s : State) (h : Nat) : Bool := (s.cw h).lanes.all (fun l => l.trained || l.failed)

/-- The standby's own search for a replacement has ended. -/
def State.standbyDone (s : State) (h j : Nat) (ok : Bool) : State :=
  if ok then (s.setCl h j (fun l => { l with commaLock := false, blockLock := false })).sendTrain (12 * h + j) false
  else
    (((s.setCl h j (fun l => { l with trained := false, failed := true })).setCw h
      (fun c => { c with replace := none, standby := none })).linkSync h)

/-- A lost lane's background search has ended (R173, R88). -/
def State.lostDone (s : State) (h j : Nat) (ok : Bool) : State :=
  let l := s.cl h j
  if !ok then s.setCl h j (fun l => { l with failed := true, lostCause := 0 })
  else
    let s := if l.lostCause = 0 then s else
      s.report { src := 12 * h + j, unit := 0, detail := 16 * l.lostCause, lasting := false } (fun s => s)
    let s := (s.setCl h j (fun l => { l with retrain := false, failed := false, lostCause := 0 })).sendTrain (12 * h + j) false
    if s.on (CWY h) CWY_CTRL_AUTO_REJOIN && (s.cw h).standby.isNone && (s.cw h).remap.isNone && !(s.cw h).roles.contains (some j) then
      let sfc := (s.g (CWY h) CWY_SFC + 16) % 2 ^ 24
      ((s.setCw h (fun c => { c with remap := some ⟨none, j, sfc, 0, false⟩ })).sendFour h 0x53 (j + 0x10 * sfc)).linkSync h
    else s

/-- A lane of the link has ended its search (R171, R173, R197). -/
def State.searchEnd (s : State) (n : Nat) (ok : Bool) : State :=
  let (h, j) := headLane n
  let s := s.fault (CWY h) j (!ok)
  if s.linkState h = 2 then
    let s := s.setCl h j (fun l => { l with trained := ok, failed := !ok })
    let s := if ok then s.sendTrain n false else s
    let s := if n % 4 < 3 then s.linkTrain h (j + 1) else s
    if s.searchesDone h then s.linkGo h 3 0 else s
  else if (s.cw h).replace.isSome && (s.cw h).standby == some j then s.standbyDone h j ok
  else s.lostDone h j ok

/-! ### Alignment and capabilities (R159, R191, R197) -/

/-- A lane has come through training, comma lock and skew. -/
def State.aligned (s : State) (h j : Nat) : Bool :=
  (s.cl h j).trained && (s.cl h j).commaLock && !(s.on (CWY h + 4 * j) CWY_SKEW_VALID && decide (40000 < s.g (CWY h + 4 * j) CWY_SKEW))

/-- The five capability words are asked for. -/
def State.linkCaps (s : State) (h : Nat) : State :=
  let s := (s.linkGo h 4 0).setCw h (fun c => { c with caps := 5 })
  forN 5 s (fun k s => s.sendMsg h 0x11 (4 * k) 0)

/-- Roles are assigned (R197). -/
def State.linkAligned (s : State) (h : Nat) : State :=
  if s.linkState h ≠ 3 then s
  else
    let missing (good : Nat → Bool) : List Nat := (List.range 11).filter (fun r => !good r)
    let without (good : Nat → Bool) : Nat := (missing good).length - b2n (good 11)
    let bad := missing (s.aligned h)
    let trainedOnly := without (fun j => (s.cl h j).trained)
    let n := without (s.aligned h)
    let spare := s.aligned h 11
    let s := forN 12 s (fun j s => s.setCl h j (fun l => { l with trained := s.aligned h j }))
    let s := s.setCw h (fun c => { c with roles := (List.range 11).map some, standby := if spare then some 11 else none })
    if 1 < n then s.linkDown h (if 1 < trainedOnly then 1 else 2)
    else
      let s := if spare && !bad.isEmpty then s.sendRemap h (bad.headD 0) 11 0 else s
      if 1 < (s.erased h).length then s else s.linkCaps h

/-- A REMAP has failed for good: the standby is DOWN (R172, R197). -/
def State.remapGone (s : State) (h : Nat) : State :=
  let s := (s.setCw h (fun c => { c with remap := none, standby := none })).linkSync h
  if s.linkState h = 3 then s.linkDown h 2 else s

/-- A REMAP or STANDBY has taken effect (R172, R173). -/
def State.remapDone (s : State) (h : Nat) (m : Remap) : State :=
  let s := match m.role with
    | some r => s.setCw h (fun c => { c with remap := none, standby := none, roles := upd c.roles r (fun _ => some m.lane) })
    | none => (s.setCw h (fun c => { c with remap := none, standby := some m.lane })).setCl h m.lane (fun l => { l with trained := true })
  let s := ((s.setCl h m.lane (fun l => { l with trained := true })).linkSync h).irq (CWY h) 8
  let s := if s.linkState h = 3 then s.linkCaps h else s
  s.maybeReplace h

/-- A comma of the lane that a REMAP names: its count, the role it carries, whether its interval passed (R172). -/
def State.remapComma (s : State) (h j sfc role : Nat) (ok : Bool) : State :=
  match (s.cw h).remap with
  | none => s
  | some m =>
    if m.lane ≠ j then s
    else if m.shown then (if ok then s.remapDone h m else s)
    else if sfc ≠ m.sfc then s
    else match m.role with
      | none => if role = 14 then s.remapDone h m else (s.setCw h (fun c => { c with remap := none })).linkSync h
      | some r =>
        if role = r then s.setCw h (fun c => { c with remap := some { m with shown := true } })
        else if m.tries < 4 then s.sendRemap h r j (m.tries + 1) else s.remapGone h

/-- All capability words are in (R191). -/
def State.capsIn (s : State) (h : Nat) : State :=
  let b := CWY h
  let w (k : Nat) : Nat := s.rd (b + 0x1140 + 4 * k)
  if fld (w 1) 0 8 ≠ 1 ∨ fld (w 3) 0 4 = 0 ∨ fld (w 3) 4 4 = 0 ∨ 30 < fld (w 4) 16 8 then s.linkDown h 3 else s.linkGo h 5 0

/-! ### Upstream messages (R177, R181, R201) -/

/-- A sequenced upstream message: acted on when it is the next one, answered again when it is an earlier one. -/
def State.upstream (s : State) (h seq : Nat) (act : State → State) : State :=
  let next := (s.cw h).rxSeq
  if !s.linkLive h then s
  else if seq = next then act ((s.setCw h (fun c => { c with rxSeq := (next + 1) % 65536 })).emit (.down h 1 seq 0 1))
  else if (next + 65536 - seq) % 65536 < 0x8000 then s.emit (.down h 1 seq 0 1) else s

/-- An upstream message of an undefined type (R181). -/
def State.upUnknown (s : State) (h seq : Nat) : State :=
  let next := (s.cw h).rxSeq
  if !s.linkLive h then s
  else if seq = next then (s.setCw h (fun c => { c with rxSeq := (next + 1) % 65536 })).emit (.down h 2 seq 5 1)
  else if (next + 65536 - seq) % 65536 < 0x8000 then s.emit (.down h 2 seq 5 1) else s

/-- An answer of the head: ACK (reason 0) or NACK. A NACK of a capability read ends CAPS (R197). -/
def State.upAnswer (s : State) (h seq reason : Nat) : State :=
  if !s.linkLive h then s
  else
    let (m, s) := s.answer h seq reason
    match m with
    | some m => if m.owner = 0 ∧ m.mtype = 0x11 ∧ reason ≠ 0 ∧ s.linkState h = 4 then s.linkDown h 3 else s
    | none => s

def State.upReadRsp (s : State) (h seq addr data : Nat) : State :=
  s.upstream h seq (fun s =>
    if s.linkState h = 4 && decide (addr % 4 = 0) && decide (addr < 0x14) && decide (0 < (s.cw h).caps) then
      let s := (s.wr (CWY h + 0x1140 + addr) data).setCw h (fun c => { c with caps := c.caps - 1 })
      if (s.cw h).caps = 0 then s.capsIn h else s
    else s.rxPush h ⟨0x81, false, seq, addr % 2 ^ 24 + 2 ^ 24 * (data % 2 ^ 32)⟩)

def State.upTimeT2 (s : State) (h seq id ns frac : Nat) (copy : Bool) : State :=
  s.upstream h seq (fun s => match (s.cw h).probe with
    | some p => if p.id = id then s.setCw h (fun c => { c with probe := some { p with t2 := some (nearTime p.t1 ns frac, copy), t4 := s.time.u16 } }) else s
    | none => s)

def State.upTimeT3 (s : State) (h seq id ns frac : Nat) : State :=
  s.upstream h seq (fun s => match (s.cw h).probe with
    | some p => if p.id = id then s.probeDone h p ns frac else s
    | none => s)

/-- STATUS: CWY_HEAD_ERR, and a head whose time is not valid is loaded again (R588). -/
def State.upStatus (s : State) (h seq errA errB : Nat) (timeValid : Bool) : State :=
  s.upstream h seq (fun s =>
    let s := (s.p (CWY h) CWY_HEAD_ERR_CTRL_ERR_A errA).p (CWY h) CWY_HEAD_ERR_CTRL_ERR_B errB
    if !timeValid && 3 ≤ s.hsState h then s.servoLoad h else s)

/-- An EVENT: the SET events are ingest's (R230), the others the host's. -/
def State.upEvent (s : State) (h seq code detail : Nat) : State :=
  s.upstream h seq (fun s =>
    let setId := fld detail 0 16
    if code = 1 then s.setOutcome h setId 2 0
    else if code = 2 then
      let same := s.g (ING h) ING_SET_STAT_SET_ID = setId ∧ s.g (ING h) ING_SET_STAT_STATE = 1
      let s := s.setOutcome h setId 3 0
      if same then s.wr (ING h + ING_SET_HFC.off) (fld detail 16 32) else s
    else s.rxPush h ⟨0x85, false, seq, code % 256 + 256 * (detail % 2 ^ 72)⟩)

/-- CRC-16 of a message payload (R176), most significant register bit first. -/
def crc16 (payload n : Nat) : Nat :=
  (List.range n).foldl (fun c i =>
    let top := bitOf c 15 != bitOf payload i
    if top then (c * 2 % 65536) ^^^ 0x1021 else c * 2 % 65536) 0xFFFF

/-- One upstream message of a MSG stripe, by its 128 bits (R176, R181). -/
def State.upMessage (s : State) (h payload : Nat) : State :=
  let t := fld payload 8 8
  let seq := fld payload 16 16
  let body := fld payload 32 80
  if t = 0 ∨ fld payload 0 8 ≠ 0x3A ∨ crc16 payload 112 ≠ fld payload 112 16 then s
  else match t with
    | 0x01 => s.upAnswer h seq 0
    | 0x02 => s.upAnswer h seq (fld body 0 8)
    | 0x81 => s.upReadRsp h seq (fld body 0 24) (fld body 24 32)
    | 0x82 => s.upTimeT2 h seq (fld body 0 16) (fld body 16 32) (fld body 48 16) (bitOf body 64)
    | 0x83 => s.upTimeT3 h seq (fld body 0 16) (fld body 16 32) (fld body 48 16)
    | 0x84 => s.upStatus h seq (fld body 0 16) (fld body 16 16) (bitOf body 42)
    | 0x85 => s.upEvent h seq (fld body 0 8) (fld body 8 72)
    | _ => s.upUnknown h seq

/-! ### Feed (R193–R196) -/

/-- A feed is still within the 10 ms after another rose (R194). -/
def State.feedWaits (s : State) (h : Nat) : Bool :=
  (List.range 4).any (fun i => i != h && match (s.cw i).feedAt with
    | some t => s.on (CWY i) CWY_FEED_STAT_EN && decide (s.time.units < t + 10000000 * 2 ^ 48)
    | none => false)

def State.feedRaise (s : State) (h : Nat) : State := (s.feedDrive h true).linkWake h

/-- REQ = OFF, or what acts as it (R196, R197). -/
def State.feedOff (s : State) (h : Nat) : State := (s.feedDrive h false).linkGo h 0 0

/-- A write of CWY_FEED_CTRL. -/
def State.feedCtrl (s : State) (h v : Nat) : State :=
  let b := CWY h
  match fld v 0 2 with
  | 1 =>
    if s.g b CWY_FEED_STAT_HOLDOFF ≠ 0 ∨ s.on b CWY_FEED_STAT_FLT then s.refuse4 (b + 0x124)
    else
      let s := s.p b CWY_FEED_STAT_FAULTED 0
      if s.on b CWY_FEED_STAT_EN then s
      else if s.feedWaits h then s.p b CWY_FEED_STAT_PENDING 1 else s.feedRaise h
  | 2 => s.feedOff h
  | _ => s

/-- A feed fault (R195). -/
def State.feedFault (s : State) (h : Nat) : State :=
  let b := CWY h
  let s := (s.feedDrive h false).p b CWY_FEED_STAT_FLT 1
  let s := ((s.p b CWY_FEED_STAT_FAULTED 1).p b CWY_FEED_STAT_HOLDOFF 500).setCw h (fun c => { c with holdAt := some s.time.ms })
  let s := (s.fault b 13 true).irq b 1
  let s := s.report { src := 120 + h, unit := 0, detail := 0, lasting := true } (fun s => s)
  if s.linkState h = 0 then s else s.linkDown h 5

/-! ### Resends and the start of numbering (R177) -/

def State.msgResend (s : State) (h : Nat) : State :=
  let c := s.cw h
  if !s.linkLive h || c.unans.isEmpty then s
  else if 8 ≤ c.resends then ((s.fault (CWY h) 12 true).irq (CWY h) 7).linkDown h 6
  else c.unans.foldl (fun s m => s.emit (.down h m.mtype m.seq m.body 1)) (s.setCw h (fun c => { c with resends := c.resends + 1 }))

/-- CTRL_UP ends: TRAINING, three quads at once and the lanes of a quad in turn (R197). -/
def State.ctrlUpEnd (s : State) (h : Nat) : State :=
  if s.linkState h ≠ 1 then s
  else forN 3 ((s.msgRestart h).linkGo h 2 0) (fun i s => s.linkTrain h (4 * i))

/-- A write of CWY_CTRL: RESTART from DOWN with the feed on (R202). -/
def State.cwyCtrl (s : State) (h v : Nat) : State :=
  if bitOf v 2 then
    if s.linkState h ≠ 6 ∨ !s.on (CWY h) CWY_FEED_STAT_EN then s.refuse4 (CWY h + 0x100)
    else (s.plainWrite (CWY h + 0x100) (v % 4)).linkCtrlUp h
  else s.plainWrite (CWY h + 0x100) v

/-! ### Commands -/

/-- STANDBY_READY_REMAP (R171): the trained standby has its comma lock back. -/
def execStandbyReadyRemap (h : Fin 4) (s : State) : Host.Outcome State Fault Refusal :=
  .next (match (s.cw h).replace, (s.cw h).standby with
    | some r, some l =>
      if s.linkLive h && (s.cl h l).commaLock && !s.on (lnb (12 * h + l)) LNK_LANE_STAT_TRAINING then s.sendRemap h r l 0 else s
    | _, _ => s)

/-- MSG_RESEND_TIMER (R177). -/
def execMsgResendTimer (h : Fin 4) (s : State) : Host.Outcome State Fault Refusal := .next (s.msgResend h)

/-- HEAD_ACK (R177). -/
def execHeadAck (h : Fin 4) (seq : BitVec 16) (s : State) : Host.Outcome State Fault Refusal := .next (s.upAnswer h seq.toNat 0)

/-- HEAD_NACK (R181). -/
def execHeadNack (h : Fin 4) (seq : BitVec 16) (reason : Byte) (s : State) : Host.Outcome State Fault Refusal :=
  .next (s.upAnswer h seq.toNat reason.toNat)

/-- READ_RSP (R201). -/
def execReadRsp (h : Fin 4) (seq : BitVec 16) (addr : BitVec 24) (data : Word) (s : State) : Host.Outcome State Fault Refusal :=
  .next (s.upReadRsp h seq.toNat addr.toNat data.toNat)

/-- TIME_T2 (R183): t4 is the instant of this arrival. -/
def execTimeT2 (h : Fin 4) (seq probeId : BitVec 16) (ns : Word) (frac : BitVec 16) (copyB : Bool) (s : State) : Host.Outcome State Fault Refusal :=
  .next (s.upTimeT2 h seq.toNat probeId.toNat ns.toNat frac.toNat copyB)

/-- TIME_T3 (R184). -/
def execTimeT3 (h : Fin 4) (seq probeId : BitVec 16) (ns : Word) (frac : BitVec 16) (s : State) : Host.Outcome State Fault Refusal :=
  .next (s.upTimeT3 h seq.toNat probeId.toNat ns.toNat frac.toNat)

/-- HEAD_STATUS (R181). -/
def execHeadStatus (h : Fin 4) (seq errA errB : BitVec 16) (timeValid : Bool) (s : State) : Host.Outcome State Fault Refusal :=
  .next (s.upStatus h seq.toNat errA.toNat errB.toNat timeValid)

/-- SET_APPLIED (R230). -/
def execSetApplied (h : Fin 4) (seq setId : BitVec 16) (hfc : Word) (s : State) : Host.Outcome State Fault Refusal :=
  .next (s.upEvent h seq.toNat 1 (setId.toNat + 2 ^ 16 * hfc.toNat))

/-- SET_LATE (R230). -/
def execSetLate (h : Fin 4) (seq setId : BitVec 16) (hfc : Word) (s : State) : Host.Outcome State Fault Refusal :=
  .next (s.upEvent h seq.toNat 2 (setId.toNat + 2 ^ 16 * hfc.toNat))

/-- HEAD_EVENT (R201): the codes of R181 other than the SET events. -/
def execHeadEvent (h : Fin 4) (seq : BitVec 16) (code : Byte) (detail : BitVec 72) (s : State) : Host.Outcome State Fault Refusal :=
  .next (s.upEvent h seq.toNat code.toNat detail.toNat)

/-- UNKNOWN_UPSTREAM_MSG (R181). -/
def execUnknownUpstreamMsg (h : Fin 4) (seq : BitVec 16) (s : State) : Host.Outcome State Fault Refusal := .next (s.upUnknown h seq.toNat)

/-- MSG_STRIPE (R176): ten slots, one per data role. -/
def execMsgStripe (h : Fin 4) (slots : List (BitVec 128)) (s : State) : Host.Outcome State Fault Refusal :=
  .next ((slots.take 10).foldl (fun s m => s.upMessage h m.toNat) s)

/-- FEED_ON (R194). -/
def execFeedOn (h : Fin 4) (s : State) : Host.Outcome State Fault Refusal :=
  .next (s.hostReg (CWY h + 0x124) 1 (fun s => s.feedCtrl h 1))

/-- FEED_OFF (R196). -/
def execFeedOff (h : Fin 4) (s : State) : Host.Outcome State Fault Refusal :=
  .next (s.hostReg (CWY h + 0x124) 2 (fun s => s.feedCtrl h 2))

/-- FEED_PENDING_RAISE (R194): the lowest head that waits is served. -/
def execFeedPendingRaise (h : Fin 4) (s : State) : Host.Outcome State Fault Refusal :=
  .next (if s.on (CWY h) CWY_FEED_STAT_PENDING && !(List.range h).any (fun i => s.on (CWY i) CWY_FEED_STAT_PENDING) then s.feedRaise h else s)

/-- FEED_FAULT (R195). -/
def execFeedFault (h : Fin 4) (s : State) : Host.Outcome State Fault Refusal := .next (s.feedFault h)

/-- FEED_HOLDOFF_END (R195). -/
def execFeedHoldoffEnd (h : Fin 4) (s : State) : Host.Outcome State Fault Refusal :=
  .next (((s.p (CWY h) CWY_FEED_STAT_HOLDOFF 0).setCw h (fun c => { c with holdAt := none })).fault (CWY h) 13 false)

/-- HEAD_FEED_FLT_RISE (R196). -/
def execHeadFeedFltRise (h : Fin 4) (s : State) : Host.Outcome State Fault Refusal := .next (s.p (CWY h) CWY_FEED_STAT_FLT 0)

/-- CTRL_UP_TIMER (R197). -/
def execCtrlUpTimer (h : Fin 4) (s : State) : Host.Outcome State Fault Refusal := .next (s.ctrlUpEnd h)

/-- LINK_ALIGNED (R197). -/
def execLinkAligned (h : Fin 4) (s : State) : Host.Outcome State Fault Refusal := .next (s.linkAligned h)

/-- LINK_RESTART (R202). -/
def execLinkRestart (h : Fin 4) (value : Word) (s : State) : Host.Outcome State Fault Refusal :=
  let v := setFld value.toNat 2 1 1
  .next (s.hostReg (CWY h + 0x100) v (fun s => s.cwyCtrl h v))

end Sys2Proof.Machine
end

