-- ==== Sys2Proof/Machine/Stripes.lean ====
section
/-! DEFINITION. Blocks, commas and stripes of a Causeway link (R152–R170). A block is 130 bits: bit 0 is H0, bit 1 is
H1, bit 2 + k is payload bit k, as transmitted. -/

namespace Sys2Proof.Machine

/-- One step of the scrambler of R154: the generator, its output bit first. -/
def scrambleStep (st : Nat) : Bool × Nat :=
  let fb := bitOf st 22
  let n := st * 2 % 2 ^ 23
  (fb, if fb then n ^^^ 0x210125 else n)

/-- The generator after n payload bits. -/
def scrambleSkip : Nat → Nat → Nat
  | 0, st => st
  | n + 1, st => scrambleSkip n (scrambleStep st).2

/-- A payload exclusive-ored with the generator's output; bits k upwards, n of them. -/
def descramble : Nat → Nat → Nat → Nat → Nat
  | 0, _, _, v => v
  | n + 1, k, st, v =>
    let r := scrambleStep st
    descramble n (k + 1) r.2 (if r.1 then v ^^^ 2 ^ k else v)

/-- The payload of the block at position i of an interval on a lane (R154). -/
def plainPayload (lane i : Nat) (block : Nat) : Nat :=
  descramble 128 0 (scrambleSkip (128 * (i - 1)) (0x7FFFF0 + lane)) (block / 4 % 2 ^ 128)

/-- CRC-24 of R157 over the blocks of an interval. -/
def ichkOf (blocks : List (BitVec 130)) : Nat :=
  blocks.foldl (fun c b => (List.range 130).foldl (fun c i =>
    if bitOf c 23 != bitOf b.toNat i then (c * 2 % 2 ^ 24) ^^^ 0x864CFB else c * 2 % 2 ^ 24) c) 0xFFFFFF

/-! ### Commas (R156–R159, R168) -/

/-- A comma error on a lane: two in a row end comma lock and lose the lane. -/
def State.commaError (s : State) (h j : Nat) : State :=
  let l := s.cl h j
  let s := s.addSat (CWY h + 4 * j) CWY_LANE_ERR_COMMA_ERR 1
  let s := s.setCl h j (fun l => { l with missed := l.missed + 1 })
  if 2 ≤ l.missed + 1 then
    let was := l.commaLock
    let s := s.setCl h j (fun l => { l with commaLock := false })
    if was then s.laneLost h j 3 else s
  else s

/-- The interval check of a lane in comma lock (R157, R168, R676): one failure is a corrected error, two in four
consecutive intervals lose the lane. -/
def State.intervalCheck (s : State) (h j : Nat) (ok : Bool) : State :=
  let (c, s) := s.check (12 * h + j) 0 (!ok) false
  let s := s.setCl h j (fun l => { l with ichk := ((!c.fails) :: l.ichk).take 4, verified := !c.fails, syncErr := 0 })
  let s := if c.fails then s.addSat (CWY h + 4 * j) CWY_LANE_ERR_ICHK_FAIL 1 else s
  let s := if c.injected then
      s.report ⟨12 * h + j, 0, 0x40, c.retryFails, true, c.real, c.counted⟩ (fun s => s.laneLost h j 0)
    else s
  if 2 ≤ ((s.cl h j).ichk.filter (fun x => !x)).length then s.laneLost h j 4 else s

/-- A comma block arrives on head lane j, ps after the earliest lane, closing an interval of blocks. -/
def State.comma (s : State) (h j payload : Nat) (interval : List (BitVec 130)) (ps : Nat) : State :=
  if fld payload 0 8 ≠ 0xC5 ∨ fld payload 8 64 ≠ 0xA7F10C3E5B92D468 ∨ fld payload 72 4 ≠ j then s.commaError h j
  else
    let sfc := fld payload 80 24
    let l := s.cl h j
    let next := match l.sfc with | some p => decide (sfc = (p + 1) % 2 ^ 24) | none => false
    let locked := l.commaLock
    let s := s.setCl h j (fun l => { l with sfc := some sfc, missed := 0, commaLock := l.commaLock || (l.blockLock && next) })
    let s := s.p (CWY h) CWY_SFC sfc
    let s := (s.p (CWY h + 4 * j) CWY_SKEW (min ps 65535)).p (CWY h + 4 * j) CWY_SKEW_VALID 1
    let ok := ichkOf interval == fld payload 104 24
    let s := if locked && next then s.intervalCheck h j ok else s
    let s := s.remapComma h j sfc (fld payload 76 4) (locked && next && ok)
    if 40000 < ps then s.laneLost h j 3 else s

/-- COMMA_RECEIVED (R158). -/
def execCommaReceived (h : Fin 4) (lane : Fin 12) (payload : BitVec 128) (interval : List (BitVec 130)) (skewPs : Nat) (s : State) :
    Host.Outcome State Fault Refusal :=
  .next (if s.linkState h < 3 ∨ 5 < s.linkState h ∨ s.on (lnb (12 * h + lane)) LNK_LANE_STAT_TRAINING then s
    else s.comma h lane payload.toNat interval skewPs)

/-- COMMA_ERROR (R158). -/
def execCommaError (h : Fin 4) (lane : Fin 12) (s : State) : Host.Outcome State Fault Refusal :=
  .next (if s.linkState h < 3 ∨ 5 < s.linkState h ∨ s.on (lnb (12 * h + lane)) LNK_LANE_STAT_TRAINING then s else s.commaError h lane)

/-- BLOCK_LOCK_ACQUIRED (R158). -/
def execBlockLockAcquired (h : Fin 4) (lane : Fin 12) (s : State) : Host.Outcome State Fault Refusal :=
  .next (s.setCl h lane (fun l => { l with blockLock := true }))

/-- SYNC_HEADER_ERROR (R168): four in one interval lose the lane. -/
def execSyncHeaderError (h : Fin 4) (lane : Fin 12) (s : State) : Host.Outcome State Fault Refusal :=
  .next (if s.linkState h < 3 ∨ 5 < s.linkState h ∨ s.on (lnb (12 * h + lane)) LNK_LANE_STAT_TRAINING then s else
    let s := (s.addSat (CWY h + 4 * lane) CWY_LANE_ERR_SYNC_ERR 1).setCl h lane (fun l => { l with syncErr := l.syncErr + 1 })
    if 4 ≤ (s.cl h lane).syncErr then s.laneLost h lane 3 else s)

/-! ### Stripes (R160–R164, R169, R170) -/

/-- The block of a role in a stripe: its sync header and plain payload; none where no lane is known to hold it. -/
structure RoleBlock where
  head : Nat
  payload : Nat
  verified : Bool
  erased : Bool
  deriving DecidableEq, Repr

/-- The check of the interval that a stripe lies in has passed on a lane (R169). -/
def State.intervalVerified (s : State) (h l sn : Nat) : Bool :=
  match (s.cl h l).sfc with
  | none => false
  | some c =>
    let back := (c + 2 ^ 24 - (sn / 1024 + 1) % 2 ^ 24) % 2 ^ 24
    if back < 4 then nth false (s.cl h l).ichk back else false

/-- The block of role r at a stripe number, from the blocks of the twelve lanes. -/
def State.roleBlock (s : State) (h sn : Nat) (blocks : List (BitVec 130)) (r : Nat) : RoleBlock :=
  match nth none (s.cw h).roles r with
  | none => ⟨0, 0, false, true⟩
  | some l =>
    let b := (nth 0 blocks l).toNat
    let ver := s.intervalVerified h l sn
    ⟨b % 4, plainPayload l (sn % 1024) b, ver, !ver && !(s.cl h l).trained⟩

/-- What the parity covers of a payload: in a control stripe byte 0 of every block is BTYPE (R162), so it stands outside. -/
def parityPart (hd v : Nat) : Nat := if hd = 1 then v / 256 * 256 else v

/-- What becomes of a stripe (R169, R170): the roles 0–9, whether it was rebuilt; none where it is unrecoverable. -/
def resolve (rs : List RoleBlock) : Option (List RoleBlock × Bool) :=
  let first := (rs.find? (fun r => !r.erased)).getD ⟨0, 0, false, false⟩
  let x := rs.foldl (fun a (r : RoleBlock) => if r.erased then a else a ^^^ parityPart first.head r.payload) 0
  let mismatch := rs.any (fun r => r.erased) || x != 0
  let bad := (rs.zipIdx).filter (fun (p : RoleBlock × Nat) => p.1.erased || (!p.1.verified && mismatch))
  match bad with
  | [] => some (rs.take 10, false)
  | [(_, 10)] => some (rs.take 10, false)
  | [(_, k)] =>
    let others := (rs.zipIdx).filter (fun (p : RoleBlock × Nat) => p.2 != k)
    let model := (others.headD (⟨0, 0, false, false⟩, 0)).1
    let v := others.foldl (fun a (p : RoleBlock × Nat) => a ^^^ parityPart model.head p.1.payload) 0
    let v := if model.head = 1 then v + model.payload % 256 else v
    some ((upd rs k (fun r => { r with head := model.head, payload := v })).take 10, true)
  | _ => none

/-- The 160 bytes of a stripe: role 0 first (R163). -/
def stripeBytes (rs : List RoleBlock) : List Byte := rs.flatMap (fun (r : RoleBlock) => leBytes 16 r.payload)

/-- A stripe at ingest, by its kind (R164, R204, R205). -/
def State.stripeKind (s : State) (h : Nat) (rs : List RoleBlock) (env : LineEnv) : State :=
  let bytes := stripeBytes rs
  let hd := (rs.headD ⟨0, 0, false, false⟩).head
  let ty := (rs.headD ⟨0, 0, false, false⟩).payload % 256
  let same := rs.all (fun r => r.head == hd && (hd == 2 || r.payload % 256 == ty))
  let up := s.linkUp h
  let proto := s.addSat (CWY h) CWY_PROTO_ERR 1
  if !same then proto
  else if hd = 2 then (if up then s.dataStripe h bytes env else s)
  else if hd ≠ 1 then proto
  else match ty with
    | 0x1E => s
    | 0x3A => rs.foldl (fun s (r : RoleBlock) => s.upMessage h r.payload) s
    | 0x4C => if up then s.lineStripe h (leAt bytes 1 2) (leAt bytes 3 2) (leAt bytes 5 4) else s
    | 0xF5 =>
      if up then s.frameStart h ⟨leAt bytes 1 4, leAt bytes 5 2, leAt bytes 7 2, leAt bytes 9 2, leAt bytes 11 1 % 4,
        leAt bytes 12 4, leAt bytes 17 6, leAt bytes 23 4, leAt bytes 27 2⟩ else s
    | 0xFE => if up then s.frameEnd h (leAt bytes 1 4) (leAt bytes 7 1) else s
    | _ => proto

/-- STRIPE_DELIVERY (R160): the stripe of a number, by the blocks that its lanes received. -/
def State.stripe (s : State) (h sn : Nat) (blocks : List (BitVec 130)) (env : LineEnv) : State :=
  if !s.linkLive h || sn % 1024 == 0 then s
  else match resolve ((List.range 11).map (s.roleBlock h sn blocks)) with
    | none =>
      let s := (s.addSat (CWY h) CWY_UNRECOV 1).irq (CWY h) 4
      if s.linkUp h then s.abandonCur h 4 else s
    | some (rs, rebuilt) => (if rebuilt then s.addSat (CWY h) CWY_REBUILT 1 else s).stripeKind h rs env

def execStripeDelivery (h : Fin 4) (number : BitVec 34) (blocks : List (BitVec 130)) (env : LineEnv) (s : State) :
    Host.Outcome State Fault Refusal := .next (s.stripe h number.toNat blocks env)

end Sys2Proof.Machine
end

