-- ==== Sys2Proof/Machine/Heads.lean ====
section
/-! DEFINITION. A sensor head, as the manual binds it (R175, R177–R192): its messages, time, settings and exposures. -/

namespace Sys2Proof.Machine

def State.hd (s : State) (h : Nat) : Head := nth Head.init s.heads h
def State.setHd (s : State) (h : Nat) (f : Head → Head) : State := { s with heads := upd s.heads h f }

/-- Head time in units of 2^−16 ns. -/
def Head.now (x : Head) : Nat := x.time / 2 ^ 32

/-- A sequenced upstream message: sent while fewer than 32 are unanswered (R177). -/
def Head.send (x : Head) (mtype body : Nat) : Head :=
  if x.unans.length < 32 && x.wait.isEmpty then
    { x with up := ⟨mtype, x.txSeq, body⟩ :: x.up, unans := x.unans ++ [x.txSeq], txSeq := (x.txSeq + 1) % 65536 }
  else { x with wait := x.wait ++ [⟨mtype, 0, body⟩] }

/-- Messages that wait are sent while there is room. -/
def Head.pump : Nat → Head → Head
  | 0, x => x
  | n + 1, x =>
    match x.wait with
    | m :: r => if x.unans.length < 32 then Head.pump n ({ x with wait := [] }.send m.mtype m.body |> fun y => { y with wait := r }) else x
    | [] => x

/-- ACK (reason 0) or NACK of a downstream SEQ. -/
def Head.reply (x : Head) (seq reason : Nat) : Head :=
  { x with up := ⟨if reason = 0 then 1 else 2, seq, reason⟩ :: x.up }

/-- A sequenced downstream message at the head: acted on when it is the next one, answered again when earlier, and
discarded when later (R177). act answers with a NACK reason, 0 for ACK. -/
def Head.receive (x : Head) (seq : Nat) (act : Head → Nat × Head) : Head :=
  if seq = x.rxSeq then
    let r := act { x with rxSeq := (x.rxSeq + 1) % 65536 }
    ({ r.2 with answers := ((seq, r.1) :: r.2.answers).take 64 }).reply seq r.1
  else if (x.rxSeq + 65536 - seq) % 65536 < 0x8000 then
    x.reply seq ((x.answers.find? (fun a => a.1 == seq)).map (fun a => a.2) |>.getD 0)
  else x

def State.headMsg (s : State) (h seq : Nat) (act : Head → Nat × Head) : State := s.setHd h (fun x => x.receive seq act)

/-! ### Registers and sets (R189, R190) -/

/-- An address that the head answers with BAD_ADDR (R190); write: for HREG_WRITE and SET_WRITE. -/
def headBadAddr (addr : Nat) (write : Bool) : Bool :=
  addr % 4 != 0 || (0x14 ≤ addr && addr < 0x100) || (write && addr < 0x14)

def Head.reg (x : Head) (addr : Nat) : Nat :=
  if addr < 0x14 then nth 0 x.caps (addr / 4) else ((x.regs.find? (fun r => r.1 == addr)).map (fun r => r.2)).getD 0

def Head.setReg (x : Head) (addr v : Nat) : Head := { x with regs := (x.regs.filter (fun r => r.1 != addr)) ++ [(addr, v)] }

def Head.setCommit (x : Head) (setId count hfc : Nat) : Nat × Head :=
  let mine := x.sets.filter (fun w => w.1 == setId)
  let x := { x with sets := x.sets.filter (fun w => w.1 != setId) }
  if mine.length ≠ count then (6, x)
  else
    let late := decide (0x80000000 ≤ (hfc + 2 ^ 32 - x.hfc) % 2 ^ 32)
    (0, { x with due := x.due ++ [(if late then x.hfc else hfc, late, setId, mine.map (fun w => (w.2.1, w.2.2)))] })

/-! ### Exposures (R185–R188) -/

/-- The head time that SEC_LO, NS and FRAC name: the next second with those low bits (R185). -/
def Head.resolve (x : Head) (secLo ns frac : Nat) : Nat :=
  let base := x.now / secUnits / 65536 * 65536 + secLo
  let t := base * secUnits + ns * 65536 + frac
  if t ≤ x.now then t + 65536 * secUnits else t

/-- EXP_LEAD in units of 2^−16 ns. -/
def Head.lead (x : Head) : Nat := nth 0 x.caps 4 % 65536 * 1000 * 65536

/-- The shortest interval between exposures, never below 1 / MAX_FPS (R187). -/
def Head.least (x : Head) : Nat :=
  let fps := nth 0 x.caps 3 / 65536
  max x.minFrame (if fps = 0 then 0 else secUnits / fps)

/-- Only the exposures of a schedule that start before t stay. -/
def Schedule.before (c : Schedule) (t : Nat) : Schedule :=
  let n := if t ≤ c.next then 0 else if c.period = 0 then 1 else cdiv (t - c.next) c.period
  { c with left := some (match c.left with | some l => min l n | none => n) }

def Schedule.live (c : Schedule) : Bool := c.left != some 0

def Head.truncate (x : Head) (t : Nat) : Head := { x with sched := (x.sched.map (fun c => c.before t)).filter Schedule.live }

/-- EXP_START (R186, R187). -/
def Head.expStart (x : Head) (secLo ns frac : Nat) (periodic replace : Bool) : Nat × Head :=
  let t := x.resolve secLo ns frac
  let soon := (periodic && decide (x.period.1 < x.least)) || (match x.lastStart with
    | some l => decide (t < l + x.least)
    | none => false)
  if t < x.now + x.lead then (1, x)
  else if soon then (2, x)
  else if !x.sched.isEmpty && !replace then (7, x)
  else
    let x := x.truncate t
    let c : Schedule := if periodic then ⟨t, x.period.1, if x.period.2 = 0 then none else some x.period.2⟩ else ⟨t, 0, some 1⟩
    (0, { x with sched := x.sched ++ [c] })

/-- EXP_STOP (R187, R188). -/
def Head.expStop (x : Head) (secLo ns frac : Nat) (now : Bool) : Nat × Head :=
  if now then (0, { x with sched := [] })
  else
    let t := x.resolve secLo ns frac
    if t < x.now + x.lead then (1, x) else (0, x.truncate t)

/-- The sets due for an exposure are applied and reported (R189). -/
def Head.applySets (x : Head) (hfc : Nat) : Head :=
  let mine := x.due.filter (fun d => d.1 == hfc)
  mine.foldl (fun x d => (d.2.2.2.foldl (fun x (w : Nat × Nat) => x.setReg w.1 w.2) x).send 0x85
    ((if d.2.1 then 2 else 1) + 2 ^ 8 * d.2.2.1 + 2 ^ 24 * hfc)) { x with due := x.due.filter (fun d => d.1 != hfc) }

/-- The next scheduled exposure begins, or is skipped while RUN is 0 (R185, R186). -/
def Head.expose (x : Head) : Head :=
  match x.sched with
  | [] => x
  | c0 :: r =>
    let c := r.foldl (fun (a : Schedule) b => if b.next < a.next then b else a) c0
    let rest := (c0 :: r).erase c
    let c' : Schedule := { c with next := c.next + c.period, left := c.left.map (fun n => n - 1) }
    let x := { x with sched := if c'.live && c.period != 0 then c' :: rest else rest }
    if !x.run then x
    else { (x.applySets x.hfc) with hfc := (x.hfc + 1) % 2 ^ 32, lastStart := some c.next }

/-! ### Time (R182, R183, R590) -/

/-- A load or step waits for its comma; one whose comma has passed is ignored (R590). -/
def Head.adjust (x : Head) (sfc : Nat) (step : Bool) (v : Int) : Head :=
  if (sfc + 2 ^ 24 - x.lastSfc) % 2 ^ 24 = 0 ∨ 2 ^ 23 ≤ (sfc + 2 ^ 24 - x.lastSfc) % 2 ^ 24 then x
  else { x with adj := some (sfc, step, v) }

/-- The comma that an adjustment names arrives. -/
def Head.commaTime (x : Head) (sfc : Nat) : Head :=
  match x.adj with
  | some (k, step, v) =>
    if k ≠ sfc then x
    else { x with adj := none, time := Int.toNat (((if step then (x.time : Int) else 0) + v * (2 ^ 32 : Int)) % ((2 ^ 48 * secUnits * 2 ^ 32 : Nat) : Int)) }
  | none => x

/-! ### Lanes and copies (R172, R173, R175, R177–R179, R192) -/

def Head.copy (x : Head) (b : Bool) : Bool := if b then x.copies.2 else x.copies.1
def Head.setCopy (x : Head) (b v : Bool) : Head := { x with copies := if b then (x.copies.1, v) else (v, x.copies.2) }

/-- A downstream comma arrives on a copy: numbering, the copy's return, the changes it names. -/
def Head.comma (x : Head) (copyB : Bool) (sfc role : Nat) : Head :=
  let back := !x.copy copyB
  let x := x.setCopy copyB true
  let used := !copyB || !x.copies.1
  let x := if !used then x
    else if role = 15 then { x with numbering := true }
    else if x.numbering ∧ (role = 12 ∨ role = 13) then
      { x with numbering := false, rxSeq := 0, txSeq := 0, unans := [], wait := [], answers := [] }
    else x
  let x := if role = 15 ∨ !back then x else x.send 0x85 (4 + 2 ^ 8 * b2n copyB)
  let x := if x.stopped ∧ role ≠ 15 then { x with stopped := false }.send 0x85 5 else x
  if used then { x with lastSfc := sfc }.commaTime sfc else x

/-! ### Commands -/

/-- HREG_WRITE (R190). -/
def execHregWrite (h : Fin 4) (seq : BitVec 16) (addr : BitVec 24) (data : Word) (s : State) : Host.Outcome State Fault Refusal :=
  .next (s.headMsg h seq.toNat (fun x => if headBadAddr addr.toNat true then (3, x) else (0, x.setReg addr.toNat data.toNat)))

/-- HREG_READ (R190). -/
def execHregRead (h : Fin 4) (seq : BitVec 16) (addr : BitVec 24) (s : State) : Host.Outcome State Fault Refusal :=
  .next (s.headMsg h seq.toNat (fun x => if headBadAddr addr.toNat false then (3, x)
    else (0, x.send 0x81 (addr.toNat + 2 ^ 24 * x.reg addr.toNat))))

/-- SET_WRITE (R189). -/
def execHeadSetWrite (h : Fin 4) (seq : BitVec 16) (addr : BitVec 24) (data : Word) (setId : BitVec 16) (s : State) : Host.Outcome State Fault Refusal :=
  .next (s.headMsg h seq.toNat (fun x => if headBadAddr addr.toNat true then (3, x)
    else (0, { x with sets := x.sets ++ [(setId.toNat, addr.toNat, data.toNat)] })))

/-- SET_COMMIT (R189). -/
def execHeadSetCommit (h : Fin 4) (seq setId count : BitVec 16) (hfc : Word) (s : State) : Host.Outcome State Fault Refusal :=
  .next (s.headMsg h seq.toNat (fun x => x.setCommit setId.toNat count.toNat hfc.toNat))

/-- TIME_PROBE (R183): residence is the time until the block of TIME_T2 leaves, in units of 2^−16 ns. -/
def execHeadTimeProbe (h : Fin 4) (seq probeId : BitVec 16) (residence : Word) (s : State) : Host.Outcome State Fault Refusal :=
  .next (s.headMsg h seq.toNat (fun x =>
    let t3 := x.now + residence.toNat
    let body (t : Nat) : Nat := probeId.toNat + 2 ^ 16 * (t / 65536 % nsPerSec) + 2 ^ 48 * (t % 65536)
    (0, (x.send 0x82 (body x.now + 2 ^ 64 * b2n (!x.copies.1))).send 0x83 (body t3))))

/-- TIME_SEC (R180). -/
def execHeadTimeSec (h : Fin 4) (seq : BitVec 16) (seconds : BitVec 48) (s : State) : Host.Outcome State Fault Refusal :=
  .next (s.headMsg h seq.toNat (fun x => (0, { x with sec := seconds.toNat })))

/-- TIME_LOAD (R182). -/
def execHeadTimeLoad (h : Fin 4) (seq : BitVec 16) (ns : Word) (frac : BitVec 16) (sfc : BitVec 24) (s : State) : Host.Outcome State Fault Refusal :=
  .next (s.headMsg h seq.toNat (fun x => (0, x.adjust sfc.toNat false ((x.sec * secUnits + ns.toNat * 65536 + frac.toNat : Nat) : Int))))

/-- TIME_STEP (R182). -/
def execHeadTimeStep (h : Fin 4) (seq : BitVec 16) (offset : BitVec 48) (sfc : BitVec 24) (s : State) : Host.Outcome State Fault Refusal :=
  .next (s.headMsg h seq.toNat (fun x => (0, x.adjust sfc.toNat true (sint 48 offset.toNat))))

/-- TIME_RATE (R182). -/
def execHeadTimeRate (h : Fin 4) (seq : BitVec 16) (rate : Word) (s : State) : Host.Outcome State Fault Refusal :=
  .next (s.headMsg h seq.toNat (fun x => (0, { x with rate := sint 32 rate.toNat })))

/-- EXP_START (R186). -/
def execExpStart (h : Fin 4) (seq secLo : BitVec 16) (ns : Word) (frac : BitVec 16) (periodic replace : Bool) (s : State) : Host.Outcome State Fault Refusal :=
  .next (s.headMsg h seq.toNat (fun x => x.expStart secLo.toNat ns.toNat frac.toNat periodic replace))

/-- EXP_PERIOD (R186). -/
def execExpPeriod (h : Fin 4) (seq : BitVec 16) (ns : Word) (frac : BitVec 16) (count : Word) (s : State) : Host.Outcome State Fault Refusal :=
  .next (s.headMsg h seq.toNat (fun x => (0, { x with period := (ns.toNat * 65536 + frac.toNat, count.toNat) })))

/-- EXP_STOP (R188). -/
def execExpStop (h : Fin 4) (seq secLo : BitVec 16) (ns : Word) (frac : BitVec 16) (now : Bool) (s : State) : Host.Outcome State Fault Refusal :=
  .next (s.headMsg h seq.toNat (fun x => x.expStop secLo.toNat ns.toNat frac.toNat now))

/-- STREAM (R186). -/
def execHeadStream (h : Fin 4) (seq : BitVec 16) (run : Bool) (s : State) : Host.Outcome State Fault Refusal :=
  .next (s.headMsg h seq.toNat (fun x => (0, { x with run := run })))

/-- TRAIN (R178). -/
def execHeadTrain (h : Fin 4) (lane : Fin 12) (on : Bool) (s : State) : Host.Outcome State Fault Refusal :=
  .next (s.setHd h (fun x => { x with training := upd x.training lane (fun _ => on) }))

/-- PRESET (R179). -/
def execHeadPreset (h : Fin 4) (lane : Fin 12) (index : Fin 8) (pre post : Fin 16) (s : State) : Host.Outcome State Fault Refusal :=
  .next (s.setHd h (fun x => { x with presets := upd x.presets lane (fun _ => (index, pre, post)) }))

/-- REMAP (R172): the role is on the lane from the comma named, and no longer on another. -/
def execHeadRemap (h : Fin 4) (role : Fin 11) (lane : Fin 12) (sfc : BitVec 24) (s : State) : Host.Outcome State Fault Refusal :=
  .next (s.setHd h (fun x => { x with roles := upd (x.roles.map (fun r => if r.1 = role.val then (15, sfc.toNat) else r)) lane (fun _ => (role.val, sfc.toNat)) }))

/-- STANDBY (R173). -/
def execHeadStandby (h : Fin 4) (lane : Fin 12) (sfc : BitVec 24) (s : State) : Host.Outcome State Fault Refusal :=
  .next (s.setHd h (fun x => { x with roles := upd x.roles lane (fun _ => (14, sfc.toNat)) }))

/-- EXPOSURE_START (R185, R186). -/
def execExposureStart (h : Fin 4) (s : State) : Host.Outcome State Fault Refusal := .next (s.setHd h Head.expose)

/-- HEAD_COMMA_ARRIVAL (R177, R192). -/
def execHeadCommaArrival (h : Fin 4) (copyB : Bool) (sfc : BitVec 24) (role : Fin 16) (s : State) : Host.Outcome State Fault Refusal :=
  .next (s.setHd h (fun x => x.comma copyB sfc.toNat role))

/-- HEAD_COPY_LOST (R175). -/
def execHeadCopyLost (h : Fin 4) (copyB : Bool) (s : State) : Host.Outcome State Fault Refusal :=
  .next (s.setHd h (fun x => if x.copy copyB then (x.setCopy copyB false).send 0x85 (3 + 2 ^ 8 * b2n copyB) else x))

/-- HEAD_CTRL_LOST_TIMEOUT (R192). -/
def execHeadCtrlLostTimeout (h : Fin 4) (s : State) : Host.Outcome State Fault Refusal :=
  .next (s.setHd h (fun x => if x.copies.1 || x.copies.2 then x else { x with stopped := true, sched := [] }))

/-- DOWNSTREAM_ACK (R177): the head's message is answered. -/
def execDownstreamAck (h : Fin 4) (seq : BitVec 16) (s : State) : Host.Outcome State Fault Refusal :=
  .next (s.setHd h (fun x => Head.pump 32 { x with unans := x.unans.filter (fun n => n != seq.toNat) }))

end Sys2Proof.Machine
end

