-- ==== Sys2Proof/Machine/Inflate.lean ====
section
/-! DEFINITION. The DEFLATE family as the general compressor's decompressor reads it (R393: RFC 1951, 1950, 1952), with
an output that may stop short (R401). The standards are named by the manual; what is written here of them is PRESUMED. -/

namespace Sys2Proof.Machine

/-- How a decoding stands: going on, the stream ended, the output is full and more would follow, the input ended, or an
error with its DETAIL (R399). -/
inductive DStat where
  | run | ended | full | short
  | bad (detail : Nat)
  deriving DecidableEq, Repr

/-- A decoding: output so far, input position in bits, how it stands. -/
structure Dec where
  out : Array Byte
  pos : Nat
  st : DStat
  deriving DecidableEq, Repr

def dBad (d : Dec) (detail : Nat) : Dec := { d with st := .bad detail }

/-- n bits of the input from a bit position, least significant first. -/
def takeBits (a : Array Byte) (pos n : Nat) : Option Nat :=
  if 8 * a.size < pos + n then none
  else some ((List.range n).foldl (fun v i => v + 2 ^ i * b2n (bitOf (a.getD ((pos + i) / 8) 0).toNat ((pos + i) % 8))) 0)

/-- A little-endian number of n bytes at a byte position. -/
def takeBytes (a : Array Byte) (at_ n : Nat) : Option Nat :=
  if a.size < at_ + n then none
  else some ((List.range n).foldl (fun v i => v + 256 ^ i * (a.getD (at_ + i) 0).toNat) 0)

/-- A canonical Huffman code: how many codes of each length, and the symbols in code order (RFC 1951, 3.2.2). -/
structure Huff where
  count : Array Nat
  symbol : Array Nat

def huffOf (lens : List Nat) : Huff :=
  ⟨((List.range 16).map (fun n => (lens.filter (fun l => l == n && l != 0)).length)).toArray,
   ((List.range 15).flatMap (fun n => (lens.zipIdx.filter (fun (p : Nat × Nat) => p.1 == n + 1)).map (fun (p : Nat × Nat) => p.2))).toArray⟩

/-- Codes left over (positive) or too many (negative). -/
def Huff.left (h : Huff) : Int :=
  (List.range 15).foldl (fun (l : Int) n => if l < 0 then l else 2 * l - h.count.getD (n + 1) 0) 1

/-- One symbol, bit by bit. -/
def Huff.walk (h : Huff) (a : Array Byte) : Nat → Nat → Nat → Nat → Nat → Nat → DStat × Nat × Nat
  | 0, pos, _, _, _, _ => (.bad 2, 0, pos)
  | fuel + 1, pos, len, code, first, index =>
    match takeBits a pos 1 with
    | none => (.short, 0, pos)
    | some b =>
      let code := code + b
      let c := h.count.getD len 0
      if code < first + c then (.run, h.symbol.getD (index + (code - first)) 0, pos + 1)
      else h.walk a fuel (pos + 1) (len + 1) (2 * code) (2 * (first + c)) (index + c)

def Huff.next (h : Huff) (a : Array Byte) (pos : Nat) : DStat × Nat × Nat := h.walk a 15 pos 1 0 0 0

def lenBase : List Nat := [3, 4, 5, 6, 7, 8, 9, 10, 11, 13, 15, 17, 19, 23, 27, 31, 35, 43, 51, 59, 67, 83, 99, 115, 131, 163, 195, 227, 258]
def lenExtra : List Nat := [0, 0, 0, 0, 0, 0, 0, 0, 1, 1, 1, 1, 2, 2, 2, 2, 3, 3, 3, 3, 4, 4, 4, 4, 5, 5, 5, 5, 0]
def distBase : List Nat := [1, 2, 3, 4, 5, 7, 9, 13, 17, 25, 33, 49, 65, 97, 129, 193, 257, 385, 513, 769, 1025, 1537, 2049, 3073, 4097, 6145, 8193, 12289, 16385, 24577]
def distExtra : List Nat := [0, 0, 0, 0, 1, 1, 2, 2, 3, 3, 4, 4, 5, 5, 6, 6, 7, 7, 8, 8, 9, 9, 10, 10, 11, 11, 12, 12, 13, 13]

/-- A match copied byte by byte, until the output is full. -/
def copyBack (max_ dist : Nat) : Nat → Dec → Dec
  | 0, d => d
  | n + 1, d =>
    if max_ ≤ d.out.size then { d with st := .full }
    else copyBack max_ dist n { d with out := d.out.push (d.out.getD (d.out.size - dist) 0) }

/-- Literals and matches up to the end of a block. base: where this stream's output begins. -/
def blockCodes (a : Array Byte) (ll dd : Huff) (base max_ : Nat) : Nat → Dec → Dec
  | 0, d => dBad d 2
  | fuel + 1, d =>
    let (st, sym, pos) := ll.next a d.pos
    if st != .run then { d with st := st }
    else if sym < 256 then
      if max_ ≤ d.out.size then { d with st := .full }
      else blockCodes a ll dd base max_ fuel { d with out := d.out.push (BitVec.ofNat 8 sym), pos := pos }
    else if sym = 256 then { d with pos := pos }
    else if 286 ≤ sym then dBad d 2
    else match takeBits a pos (nth 0 lenExtra (sym - 257)) with
      | none => { d with st := .short }
      | some x =>
        let len := nth 0 lenBase (sym - 257) + x
        let (st, ds, pos) := dd.next a (pos + nth 0 lenExtra (sym - 257))
        if st != .run then { d with st := st }
        else if 30 ≤ ds then dBad d 2
        else match takeBits a pos (nth 0 distExtra ds) with
          | none => { d with st := .short }
          | some y =>
            let dist := nth 0 distBase ds + y
            if d.out.size < base + dist then dBad d 2
            else
              let d := copyBack max_ dist len { d with pos := pos + nth 0 distExtra ds }
              if d.st == .run then blockCodes a ll dd base max_ fuel d else d

def fixedLit : Huff := huffOf (List.replicate 144 8 ++ List.replicate 112 9 ++ List.replicate 24 7 ++ List.replicate 8 8)
def fixedDist : Huff := huffOf (List.replicate 30 5)

/-- The code lengths of a dynamic block, n of them. -/
def readLens (a : Array Byte) (cl : Huff) (n : Nat) : Nat → Nat → List Nat → Except DStat (List Nat × Nat)
  | 0, _, _ => .error (.bad 2)
  | fuel + 1, pos, acc =>
    if n = acc.length then .ok (acc.reverse, pos)
    else if n < acc.length then .error (.bad 2)
    else
      let (st, sym, pos) := cl.next a pos
      if st != .run then .error st
      else if sym < 16 then readLens a cl n fuel pos (sym :: acc)
      else
        let w := if sym = 16 then 2 else if sym = 17 then 3 else 7
        match takeBits a pos w with
        | none => .error .short
        | some x =>
          if sym = 16 ∧ acc = [] then .error (.bad 2)
          else
            let v := if sym = 16 then acc.headD 0 else 0
            readLens a cl n fuel (pos + w) (List.replicate (x + if sym = 18 then 11 else 3) v ++ acc)

def clOrder : List Nat := [16, 17, 18, 0, 8, 7, 9, 6, 10, 5, 11, 4, 12, 3, 13, 2, 14, 1, 15]

/-- The two codes of a dynamic block. -/
def dynamicCodes (a : Array Byte) (pos : Nat) : Except DStat (Huff × Huff × Nat) :=
  match takeBits a pos 5, takeBits a (pos + 5) 5, takeBits a (pos + 10) 4 with
  | some hl, some hd, some hc =>
    match (List.range (hc + 4)).foldl (fun (r : Option (List (Nat × Nat))) i => match r, takeBits a (pos + 14 + 3 * i) 3 with
        | some l, some v => some ((nth 0 clOrder i, v) :: l)
        | _, _ => none) (some []) with
    | none => .error .short
    | some ls =>
      let cl := huffOf ((List.range 19).map (fun k => ((ls.find? (fun p => p.1 == k)).map (fun p => p.2)).getD 0))
      if cl.left ≠ 0 ∨ 29 < hl ∨ 29 < hd then .error (.bad 2)
      else
        match readLens a cl (hl + hd + 258) 400 (pos + 14 + 3 * (hc + 4)) [] with
        | .error e => .error e
        | .ok (lens, pos) =>
          let ll := huffOf (lens.take (hl + 257))
          let dd := huffOf (lens.drop (hl + 257))
          let one (h : Huff) : Bool := (List.range 15).foldl (fun n i => n + h.count.getD (i + 1) 0) 0 ≤ 1
          if nth 0 lens 256 = 0 ∨ ll.left < 0 ∨ dd.left < 0 ∨ (0 < ll.left ∧ !one ll) ∨ (0 < dd.left ∧ !one dd) then .error (.bad 2)
          else .ok (ll, dd, pos)
  | _, _, _ => .error .short

/-- The bytes of a stored block. -/
def storedBytes (a : Array Byte) (max_ : Nat) : Nat → Dec → Dec
  | 0, d => d
  | n + 1, d =>
    if max_ ≤ d.out.size then { d with st := .full }
    else match takeBytes a (d.pos / 8) 1 with
      | none => { d with st := .short }
      | some v => storedBytes a max_ n { d with out := d.out.push (BitVec.ofNat 8 v), pos := d.pos + 8 }

/-- DEFLATE blocks up to the final one (RFC 1951). -/
def inflate (a : Array Byte) (base max_ : Nat) : Nat → Dec → Dec
  | 0, d => dBad d 2
  | fuel + 1, d =>
    match takeBits a d.pos 3 with
    | none => { d with st := .short }
    | some h =>
      let body : Dec :=
        match h / 2 with
        | 0 =>
          let at_ := cdiv (d.pos + 3) 8
          match takeBytes a at_ 2, takeBytes a (at_ + 2) 2 with
          | some n, some m => if n + m ≠ 65535 then dBad d 2 else storedBytes a max_ n { d with pos := 8 * (at_ + 4) }
          | _, _ => { d with st := .short }
        | 1 => blockCodes a fixedLit fixedDist base max_ (8 * a.size + 1) { d with pos := d.pos + 3 }
        | 2 => match dynamicCodes a (d.pos + 3) with
          | .error e => { d with st := e }
          | .ok (ll, dd, pos) => blockCodes a ll dd base max_ (8 * a.size + 1) { d with pos := pos }
        | _ => dBad d 2
      if body.st != .run then body
      else if h % 2 = 1 then { body with st := .ended } else inflate a base max_ fuel body

def inflateAll (a : Array Byte) (base max_ : Nat) (d : Dec) : Dec := inflate a base max_ (8 * a.size + 1) d

/-- Adler-32 (RFC 1950). -/
def adler32 (l : List Byte) : Nat :=
  let r := l.foldl (fun (p : Nat × Nat) b => ((p.1 + b.toNat) % 65521, (p.2 + p.1 + b.toNat) % 65521)) (1, 0)
  r.2 * 65536 + r.1

/-- CRC-32 (RFC 1952). -/
def crc32 (l : List Byte) : Nat := (l.foldl (crcByte 0xEDB88320) 0xFFFFFFFF) ^^^ 0xFFFFFFFF

/-- A decoding and the stream's checksum (R399). -/
abbrev Decoded := Dec × Nat

/-- zlib (RFC 1950, R393). -/
def unzlib (a : Array Byte) (max_ : Nat) : Decoded :=
  let d : Dec := ⟨#[], 0, .run⟩
  match takeBytes a 0 1, takeBytes a 1 1 with
  | some cmf, some flg =>
    if cmf % 16 ≠ 8 ∨ 7 < cmf / 16 ∨ (cmf * 256 + flg) % 31 ≠ 0 then (dBad d 6, 0)
    else if bitOf flg 5 then (dBad d 5, 0)
    else
      let d := inflateAll a 0 max_ { d with pos := 16 }
      if d.st != .ended then (d, 0)
      else
        let at_ := cdiv d.pos 8
        let sum := adler32 d.out.toList
        match takeBytes a at_ 4 with
        | none => ({ d with st := .short }, sum)
        | some v => (if ofBe (leBytes 4 v) = sum then { d with pos := 8 * (at_ + 4) } else dBad d 3, sum)
  | _, _ => ({ d with st := .short }, 0)

/-- The end of a zero-terminated field of a gzip header. -/
def zeroEnd (a : Array Byte) : Nat → Nat → Option Nat
  | 0, _ => none
  | fuel + 1, at_ => match takeBytes a at_ 1 with
    | none => none
    | some 0 => some (at_ + 1)
    | some _ => zeroEnd a fuel (at_ + 1)

/-- The byte after a gzip header at a byte position, or how it fails (R393). -/
def gzipHeader (a : Array Byte) (at0 : Nat) : Except DStat Nat :=
  match takeBytes a at0 10 with
  | none => .error .short
  | some h =>
    if h % 65536 ≠ 0x8B1F ∨ fld h 16 8 ≠ 8 ∨ 32 ≤ fld h 24 8 then .error (.bad 6)
    else
      let flg := fld h 24 8
      let e1 : Option Nat := if bitOf flg 2 then (takeBytes a (at0 + 10) 2).map (fun n => at0 + 12 + n) else some (at0 + 10)
      let e2 := e1.bind (fun e => if bitOf flg 3 then zeroEnd a 65537 e else some e)
      let e3 := e2.bind (fun e => if bitOf flg 4 then zeroEnd a 65537 e else some e)
      match e3 with
      | none => .error (if at0 + 65536 < a.size then .bad 6 else .short)
      | some e =>
        let e' := if bitOf flg 1 then e + 2 else e
        if 65536 < e' - at0 then .error (.bad 6)
        else if a.size < e' then .error .short
        else if bitOf flg 1 ∧ (takeBytes a e 2).getD 0 ≠ crc32 ((a.toList.drop at0).take (e - at0)) % 65536 then .error (.bad 3)
        else .ok e'

/-- gzip members (RFC 1952): one, or all of them under MULTI (R393). -/
def ungzip (a : Array Byte) (multi : Bool) (max_ : Nat) : Nat → Dec → Nat → Decoded
  | 0, d, sum => (dBad d 2, sum)
  | fuel + 1, d, sum =>
    match gzipHeader a (d.pos / 8) with
    | .error e => ({ d with st := e }, sum)
    | .ok e =>
      let base := d.out.size
      let d := inflateAll a base max_ { d with pos := 8 * e, st := .run }
      if d.st != .ended then (d, sum)
      else
        let at_ := cdiv d.pos 8
        let mine := d.out.toList.drop base
        let sum := crc32 mine
        match takeBytes a at_ 4, takeBytes a (at_ + 4) 4 with
        | some c, some n =>
          if c ≠ sum ∨ n ≠ mine.length % 2 ^ 32 then (dBad d 3, sum)
          else
            let d := { d with pos := 8 * (at_ + 8) }
            if multi && decide (at_ + 8 < a.size) then ungzip a multi max_ fuel { d with st := .run } sum else (d, sum)
        | _, _ => ({ d with st := .short }, sum)

end Sys2Proof.Machine
end

