-- ==== Sys2Proof/Machine/Zstd.lean ====
section
/-! DEFINITION. Zstandard as the general compressor's decompressor reads it (R393: RFC 8878), with an output that may
stop short (R401). The standard is named by the manual; what is written here of it is PRESUMED. -/

namespace Sys2Proof.Machine

/-! ### XXH64 (R399) -/

def m64 (v : Nat) : Nat := v % 2 ^ 64
def rol64 (v r : Nat) : Nat := m64 (v * 2 ^ r) + m64 v / 2 ^ (64 - r)
def xxP1 : Nat := 11400714785074694791
def xxP2 : Nat := 14029467366897019727
def xxP3 : Nat := 1609587929392839161
def xxP4 : Nat := 9650029242287828579
def xxP5 : Nat := 2870177450012600261

def xxRound (acc v : Nat) : Nat := m64 (rol64 (m64 (acc + v * xxP2)) 31 * xxP1)
def xxMerge (acc v : Nat) : Nat := m64 ((acc ^^^ xxRound 0 v) * xxP1 + xxP4)

/-- The stripes of 32 bytes. -/
def xxStripes (a : Array Byte) : Nat → Nat → Nat × Nat × Nat × Nat → Nat × Nat × Nat × Nat
  | 0, _, v => v
  | n + 1, at_, (v1, v2, v3, v4) =>
    let r (i : Nat) : Nat := (takeBytes a (at_ + 8 * i) 8).getD 0
    xxStripes a n (at_ + 32) (xxRound v1 (r 0), xxRound v2 (r 1), xxRound v3 (r 2), xxRound v4 (r 3))

def xxh64 (l : List Byte) : Nat :=
  let a := l.toArray
  let n := a.size
  let k := n / 32
  let h := if n < 32 then xxP5 else
    let v := xxStripes a k 0 (m64 (xxP1 + xxP2), xxP2, 0, 2 ^ 64 - xxP1)
    let h := m64 (rol64 v.1 1 + rol64 v.2.1 7 + rol64 v.2.2.1 12 + rol64 v.2.2.2 18)
    xxMerge (xxMerge (xxMerge (xxMerge h v.1) v.2.1) v.2.2.1) v.2.2.2
  let h := m64 (h + n)
  let at_ := 32 * k
  let q := (n - at_) / 8
  let h := (List.range q).foldl (fun h i => m64 (rol64 (h ^^^ xxRound 0 ((takeBytes a (at_ + 8 * i) 8).getD 0)) 27 * xxP1 + xxP4)) h
  let at_ := at_ + 8 * q
  let (h, at_) := if 4 ≤ n - at_ then
    (m64 (rol64 (h ^^^ m64 ((takeBytes a at_ 4).getD 0 * xxP1)) 23 * xxP2 + xxP3), at_ + 4) else (h, at_)
  let h := (List.range (n - at_)).foldl (fun h i => m64 (rol64 (h ^^^ m64 ((a.getD (at_ + i) 0).toNat * xxP5)) 11 * xxP1)) h
  let h := m64 ((h ^^^ (h / 2 ^ 33)) * xxP2)
  let h := m64 ((h ^^^ (h / 2 ^ 29)) * xxP3)
  h ^^^ (h / 2 ^ 32)

/-! ### Bit streams and FSE tables -/

/-- Bits read forward, those beyond the input reading 0. -/
def zBits (a : Array Byte) (pos n : Nat) : Nat :=
  (List.range n).foldl (fun v i => v + 2 ^ i * b2n (bitOf (a.getD ((pos + i) / 8) 0).toNat ((pos + i) % 8))) 0

/-- Bits read backward from an offset: the value, and the offset after, which may fall below 0. -/
def backBits (a : Array Byte) (off : Int) (n : Nat) : Nat × Int :=
  let o := off - n
  if 0 ≤ o then (zBits a o.toNat n, o)
  else (zBits a 0 (Int.toNat (n + o)) * 2 ^ (min n (-o).toNat), o)

/-- Where a backward bit stream begins: below its highest set bit; none without one. -/
def backStart (a : Array Byte) : Option Int :=
  let l := (a.getD (a.size - 1) 0).toNat
  if a.size = 0 ∨ l = 0 then none else some (8 * (a.size : Int) - 8 + Nat.log2 l)

/-- An FSE table: accuracy, and for each state its symbol, bits and base of the next state. -/
structure Fse where
  acc : Nat
  sym : Array Nat
  bits : Array Nat
  base : Array Nat

/-- The places of the symbols of positive probability. -/
def fseSpread (size high : Nat) (step : Nat) : Nat → Nat → Nat
  | 0, pos => pos
  | n + 1, pos =>
    let p := (pos + step) % size
    if high ≤ p then fseSpread size high step n p else p

def fseTable (acc : Nat) (norm : List Int) : Fse :=
  let size := 2 ^ acc
  let low := (norm.zipIdx).foldl (fun (r : Array Nat × Nat) (p : Int × Nat) => if p.1 = -1 then (r.1.set! (r.2 - 1) p.2, r.2 - 1) else r)
    (Array.replicate size 0, size)
  let step := size / 2 + size / 8 + 3
  let put := (norm.zipIdx).foldl (fun (r : Array Nat × Nat) (p : Int × Nat) =>
    if p.1 ≤ 0 then r
    else (List.range p.1.toNat).foldl (fun (r : Array Nat × Nat) _ => (r.1.set! r.2 p.2, fseSpread size low.2 step size r.2)) r) (low.1, 0)
  let sym := put.1
  let desc : Array Nat := (norm.map (fun p => if p = -1 then 1 else p.toNat)).toArray
  let fill := (List.range size).foldl (fun (r : Array Nat × Array Nat × Array Nat) i =>
    let s := sym.getD i 0
    let d := r.1.getD s 1
    let nb := acc - Nat.log2 d
    (r.1.set! s (d + 1), r.2.1.push nb, r.2.2.push (d * 2 ^ nb - size))) (desc, #[], #[])
  ⟨acc, sym, fill.2.1, fill.2.2⟩

/-- The zero probabilities that repeat flags announce. -/
def fseZeros (a : Array Byte) : Nat → Nat → List Int → List Int × Nat
  | 0, pos, acc => (acc, pos)
  | n + 1, pos, acc =>
    let r := zBits a pos 2
    let acc := List.replicate r 0 ++ acc
    if r = 3 then fseZeros a n (pos + 2) acc else (acc, pos + 2)

/-- The probabilities of an FSE table description, newest first. -/
def fseNorm (a : Array Byte) : Nat → Nat → Nat → List Int → Option (List Int × Nat)
  | 0, _, _, _ => none
  | fuel + 1, pos, remaining, acc =>
    if remaining = 0 then some (acc.reverse, pos)
    else
      let n := Nat.log2 (remaining + 1) + 1
      let v := zBits a pos n
      let lowMask := 2 ^ (n - 1) - 1
      let thr := 2 ^ n - 1 - (remaining + 1)
      let (v, pos) := if v % 2 ^ (n - 1) < thr then (v % 2 ^ (n - 1), pos + n - 1)
        else if lowMask < v then (v - thr, pos + n) else (v, pos + n)
      let p : Int := (v : Int) - 1
      let used := p.natAbs
      if remaining < used then none
      else if p = 0 then
        let z := fseZeros a 256 pos (0 :: acc)
        fseNorm a fuel z.2 remaining z.1
      else fseNorm a fuel pos (remaining - used) (p :: acc)

/-- An FSE table description at a byte: the table and the byte after it. -/
def fseRead (a : Array Byte) (at_ maxAcc maxSym : Nat) : Option (Fse × Nat) :=
  match takeBits a (8 * at_) 4 with
  | none => none
  | some x =>
    let acc := x + 5
    if maxAcc < acc then none
    else match fseNorm a 300 (8 * at_ + 4) (2 ^ acc) [] with
      | none => none
      | some (norm, pos) => if maxSym + 1 < norm.length ∨ 8 * a.size < pos then none else some (fseTable acc norm, cdiv pos 8)

def Fse.next (t : Fse) (a : Array Byte) (st : Nat) (off : Int) : Nat × Int :=
  let r := backBits a off (t.bits.getD st 0)
  (t.base.getD st 0 + r.1, r.2)

/-! ### Huffman literals -/

/-- A Huffman table: longest code, and for each index its symbol and code length. -/
structure HTab where
  maxBits : Nat
  sym : Array Nat
  bits : Array Nat

/-- Weights from two interleaved FSE states. -/
def huffWeights (t : Fse) (a : Array Byte) : Nat → Nat → Nat → Int → List Nat → List Nat
  | 0, _, _, _, acc => acc.reverse
  | fuel + 1, s1, s2, off, acc =>
    let acc := t.sym.getD s1 0 :: acc
    let (n1, off) := t.next a s1 off
    if off < 0 then (t.sym.getD s2 0 :: acc).reverse else huffWeights t a fuel s2 n1 off acc

/-- The table of a list of weights; the last weight is what completes the sum (RFC 8878, 4.2.1). -/
def huffTable (ws : List Nat) : Option HTab :=
  let sum := ws.foldl (fun n w => if w = 0 then n else n + 2 ^ (w - 1)) 0
  if sum = 0 then none
  else
    let maxBits := Nat.log2 sum + 1
    let left := 2 ^ maxBits - sum
    if 11 < maxBits ∨ 2 ^ Nat.log2 left ≠ left ∨ 255 < ws.length then none
    else
      let bits := (ws ++ [Nat.log2 left + 1]).map (fun w => if w = 0 then 0 else maxBits + 1 - w)
      let order := (List.range maxBits).reverse.flatMap (fun k =>
        (bits.zipIdx.filter (fun (p : Nat × Nat) => p.1 == k + 1)).map (fun (p : Nat × Nat) => (p.2, k + 1)))
      let cells := order.flatMap (fun (p : Nat × Nat) => List.replicate (2 ^ (maxBits - p.2)) p)
      some ⟨maxBits, (cells.map (fun (p : Nat × Nat) => p.1)).toArray, (cells.map (fun (p : Nat × Nat) => p.2)).toArray⟩

/-- A Huffman tree description: the table and the byte after it. -/
def huffRead (a : Array Byte) (at_ : Nat) : Option (HTab × Nat) :=
  match takeBytes a at_ 1 with
  | none => none
  | some h =>
    if 128 ≤ h then
      let n := h - 127
      if a.size < at_ + 1 + (n + 1) / 2 then none
      else (huffTable ((List.range n).map (fun i =>
        let b := (a.getD (at_ + 1 + i / 2) 0).toNat
        if i % 2 = 0 then b / 16 else b % 16))).map (fun t => (t, at_ + 1 + (n + 1) / 2))
    else
      let sub := a.extract (at_ + 1) (at_ + 1 + h)
      if sub.size ≠ h then none
      else match fseRead sub 0 6 255 with
        | none => none
        | some (t, e) =>
          let bs := sub.extract e h
          match backStart bs with
          | none => none
          | some off =>
            let r1 := backBits bs off t.acc
            let r2 := backBits bs r1.2 t.acc
            (huffTable (huffWeights t bs 256 r1.1 r2.1 r2.2 [])).map (fun t => (t, at_ + 1 + h))

/-- The symbols of one Huffman stream. -/
def huffStream (t : HTab) (a : Array Byte) : Nat → Nat → Int → Array Byte → Array Byte × Int
  | 0, _, off, acc => (acc, off)
  | fuel + 1, st, off, acc =>
    if off ≤ -(t.maxBits : Int) then (acc, off)
    else
      let n := t.bits.getD st 0
      let r := backBits a off n
      huffStream t a fuel ((st * 2 ^ n + r.1) % 2 ^ t.maxBits) r.2 (acc.push (BitVec.ofNat 8 (t.sym.getD st 0)))

def huffLits (t : HTab) (a : Array Byte) (n : Nat) : Option (Array Byte) :=
  match backStart a with
  | none => none
  | some off =>
    let r := backBits a off t.maxBits
    let x := huffStream t a (n + 1) r.1 r.2 #[]
    if x.1.size = n ∧ x.2 = -(t.maxBits : Int) then some x.1 else none

/-! ### Blocks -/

/-- What a frame carries from block to block: Huffman table, sequence tables (literals, offsets, matches), offsets. -/
structure ZCtx where
  huff : Option HTab
  ll : Option Fse
  off : Option Fse
  ml : Option Fse
  hist : Nat × Nat × Nat

/-- The literals section at the start of a block: the literals, the byte after it, the table in force. -/
def literals (b : Array Byte) (old : Option HTab) : Option (Array Byte × Nat × Option HTab) :=
  let h := zBits b 0 40
  let ty := h % 4
  let sf := h / 4 % 4
  if ty ≤ 1 then
    let (len, at_) := if sf % 2 = 0 then (h % 256 / 8, 1) else if sf = 1 then (h % 2 ^ 16 / 16, 2) else (h % 2 ^ 24 / 16, 3)
    if ty = 0 then (if b.size < at_ + len then none else some (b.extract at_ (at_ + len), at_ + len, old))
    else if b.size < at_ + 1 then none else some (Array.replicate len (b.getD at_ 0), at_ + 1, old)
  else
    let (n, m, at_) := if sf ≤ 1 then (fld h 4 10, fld h 14 10, 3) else if sf = 2 then (fld h 4 14, fld h 18 14, 4) else (fld h 4 18, fld h 22 18, 5)
    let e := at_ + m
    if b.size < e then none
    else
      let tab : Option (HTab × Nat) := if ty = 2 then huffRead (b.extract 0 e) at_ else old.map (fun t => (t, at_))
      match tab with
      | none => none
      | some (t, p) =>
        if sf = 0 then (huffLits t (b.extract p e) n).map (fun l => (l, e, some t))
        else
          match takeBytes b p 2, takeBytes b (p + 2) 2, takeBytes b (p + 4) 2 with
          | some s1, some s2, some s3 =>
            let q := p + 6
            let k := (n + 3) / 4
            if e < q + s1 + s2 + s3 ∨ n < 3 * k then none
            else
              match huffLits t (b.extract q (q + s1)) k, huffLits t (b.extract (q + s1) (q + s1 + s2)) k,
                  huffLits t (b.extract (q + s1 + s2) (q + s1 + s2 + s3)) k, huffLits t (b.extract (q + s1 + s2 + s3) e) (n - 3 * k) with
              | some l1, some l2, some l3, some l4 => some (l1 ++ l2 ++ l3 ++ l4, e, some t)
              | _, _, _, _ => none
          | _, _, _ => none

def zllBase : List Nat := List.range 16 ++ [16, 18, 20, 22, 24, 28, 32, 40, 48, 64, 128, 256, 512, 1024, 2048, 4096, 8192, 16384, 32768, 65536]
def zllExtra : List Nat := List.replicate 16 0 ++ [1, 1, 1, 1, 2, 2, 3, 3, 4, 6, 7, 8, 9, 10, 11, 12, 13, 14, 15, 16]
def zmlBase : List Nat := (List.range 32).map (fun n => n + 3) ++
  [35, 37, 39, 41, 43, 47, 51, 59, 67, 83, 99, 131, 259, 515, 1027, 2051, 4099, 8195, 16387, 32771, 65539]
def zmlExtra : List Nat := List.replicate 32 0 ++ [1, 1, 1, 1, 2, 2, 3, 3, 4, 4, 5, 7, 8, 9, 10, 11, 12, 13, 14, 15, 16]
def zllNorm : List Int := [4, 3, 2, 2, 2, 2, 2, 2, 2, 2, 2, 2, 2, 1, 1, 1, 2, 2, 2, 2, 2, 2, 2, 2, 2, 3, 2, 1, 1, 1, 1, 1, -1, -1, -1, -1]
def zmlNorm : List Int := [1, 4, 3, 2, 2, 2, 2, 2, 2] ++ List.replicate 37 1 ++ List.replicate 7 (-1)
def zofNorm : List Int := [1, 1, 1, 1, 1, 1, 2, 2, 2] ++ List.replicate 15 1 ++ List.replicate 5 (-1)

/-- A sequence table by its mode: predefined, one symbol, described, repeated. -/
def seqTable (b : Array Byte) (mode at_ : Nat) (old : Option Fse) (acc0 : Nat) (norm0 : List Int) (maxAcc maxSym : Nat) : Option (Fse × Nat) :=
  match mode with
  | 0 => some (fseTable acc0 norm0, at_)
  | 1 => (takeBytes b at_ 1).bind (fun s => if maxSym < s then none else some (⟨0, #[s], #[0], #[0]⟩, at_ + 1))
  | 2 => fseRead b at_ maxAcc maxSym
  | _ => old.map (fun t => (t, at_))

/-- The offset that an offset value names, and the offsets in memory after it (RFC 8878, 3.1.2.5). -/
def zOffset (v ll : Nat) (h : Nat × Nat × Nat) : Nat × (Nat × Nat × Nat) :=
  if 3 < v then (v - 3, (v - 3, h.1, h.2.1))
  else match v - 1 + b2n (ll == 0) with
    | 0 => (h.1, h)
    | 1 => (h.2.1, (h.2.1, h.1, h.2.2))
    | 2 => (h.2.2, (h.2.2, h.1, h.2.1))
    | _ => (h.1 - 1, (h.1 - 1, h.1, h.2.1))

/-- A match, copied byte by byte. -/
def zCopy (dist : Nat) : Nat → Array Byte → Array Byte
  | 0, o => o
  | n + 1, o => zCopy dist n (o.push (o.getD (o.size - dist) 0))

/-- The sequences of a block, executed as they are decoded. -/
def sequences (b : Array Byte) (tl tf tm : Fse) (lits : Array Byte) (base : Nat) :
    Nat → Nat → Nat → Nat → Int → Nat → Nat × Nat × Nat → Array Byte → Option (Array Byte × Nat × (Nat × Nat × Nat) × Int)
  | 0, _, _, _, off, used, hist, out => some (out, used, hist, off)
  | n + 1, sl, sf, sm, off, used, hist, out =>
    let oc := tf.sym.getD sf 0
    let r := backBits b off oc
    let mc := tm.sym.getD sm 0
    let rm := backBits b r.2 (nth 0 zmlExtra mc)
    let lc := tl.sym.getD sl 0
    let rl := backBits b rm.2 (nth 0 zllExtra lc)
    let ml := nth 0 zmlBase mc + rm.1
    let ll := nth 0 zllBase lc + rl.1
    let (dist, hist) := zOffset (2 ^ oc + r.1) ll hist
    if lits.size < used + ll then none
    else
      let out := out ++ lits.extract used (used + ll)
      if dist = 0 ∨ out.size < base + dist then none
      else
        let out := zCopy dist ml out
        if n = 0 then some (out, used + ll, hist, rl.2)
        else
          let (sl, off) := tl.next b sl rl.2
          let (sm, off) := tm.next b sm off
          let (sf, off) := tf.next b sf off
          sequences b tl tf tm lits base n sl sf sm off (used + ll) hist out

/-- A compressed block: the output with it, or none where it is not valid. -/
def zBlock (b : Array Byte) (c : ZCtx) (base : Nat) (out : Array Byte) : Option (Array Byte × ZCtx) :=
  match literals b c.huff with
  | none => none
  | some (lits, at_, huff) =>
    let c := { c with huff := huff }
    match takeBytes b at_ 1 with
    | none => none
    | some n0 =>
      let b1 := (b.getD (at_ + 1) 0).toNat
      let b2 := (b.getD (at_ + 2) 0).toNat
      let (n, at_) := if n0 < 128 then (n0, at_ + 1) else if n0 < 255 then ((n0 - 128) * 256 + b1, at_ + 2) else (b1 + b2 * 256 + 0x7F00, at_ + 3)
      if n = 0 then (if at_ = b.size then some (out ++ lits, c) else none)
      else match takeBytes b at_ 1 with
        | none => none
        | some modes =>
          if modes % 4 ≠ 0 then none
          else
            match seqTable b (modes / 64) (at_ + 1) c.ll 6 zllNorm 9 35 with
            | none => none
            | some (tl, at_) => match seqTable b (modes / 16 % 4) at_ c.off 5 zofNorm 8 31 with
              | none => none
              | some (tf, at_) => match seqTable b (modes / 4 % 4) at_ c.ml 6 zmlNorm 9 52 with
                | none => none
                | some (tm, at_) =>
                  let bs := b.extract at_ b.size
                  match backStart bs with
                  | none => none
                  | some off =>
                    let r1 := backBits bs off tl.acc
                    let r2 := backBits bs r1.2 tf.acc
                    let r3 := backBits bs r2.2 tm.acc
                    match sequences bs tl tf tm lits base n r1.1 r2.1 r3.1 r3.2 0 c.hist out with
                    | none => none
                    | some (out, used, hist, off) =>
                      if off ≠ 0 then none
                      else some (out ++ lits.extract used lits.size, ⟨huff, some tl, some tf, some tm, hist⟩)

/-- The blocks of a frame. -/
def zBlocks (a : Array Byte) (base max_ limit : Nat) : Nat → ZCtx → Dec → Dec
  | 0, _, d => dBad d 2
  | fuel + 1, c, d =>
    let at_ := d.pos / 8
    match takeBytes a at_ 3 with
    | none => { d with st := .short }
    | some h =>
      let size := h / 8
      let n := if h / 2 % 4 = 1 then 1 else size
      if limit < size ∨ h / 2 % 4 = 3 then dBad d 2
      else if a.size < at_ + 3 + n then { d with st := .short }
      else
        let b := a.extract (at_ + 3) (at_ + 3 + n)
        let r : Option (Array Byte × ZCtx) := match h / 2 % 4 with
          | 0 => some (d.out ++ b, c)
          | 1 => some (d.out ++ Array.replicate size (b.getD 0 0), c)
          | _ => zBlock b c base d.out
        match r with
        | none => dBad d 2
        | some (out, c) =>
          if max_ < out.size then ⟨out.extract 0 max_, d.pos, .full⟩
          else
            let d : Dec := ⟨out, 8 * (at_ + 3 + n), .run⟩
            if h % 2 = 1 then { d with st := .ended } else zBlocks a base max_ limit fuel c d

/-- One frame, or a skippable one (R393). window: the largest window. -/
def zFrame (a : Array Byte) (window max_ : Nat) (d : Dec) (sum : Nat) : Decoded :=
  let at_ := d.pos / 8
  match takeBytes a at_ 4 with
  | none => ({ d with st := .short }, sum)
  | some magic =>
    if 0x184D2A50 ≤ magic ∧ magic ≤ 0x184D2A5F then
      match takeBytes a (at_ + 4) 4 with
      | some n => if a.size < at_ + 8 + n then ({ d with st := .short }, sum) else ({ d with pos := 8 * (at_ + 8 + n), st := .ended }, sum)
      | none => ({ d with st := .short }, sum)
    else if magic ≠ 0xFD2FB528 then (dBad d 2, sum)
    else match takeBytes a (at_ + 4) 1 with
      | none => ({ d with st := .short }, sum)
      | some f =>
        let single := bitOf f 5
        let p := at_ + 5
        let wLen := if single then 0 else 1
        let dLen := nth 0 [0, 1, 2, 4] (f % 4)
        let cLen := if f / 64 = 0 then b2n single else nth 0 [0, 2, 4, 8] (f / 64)
        match takeBytes a p wLen, takeBytes a (p + wLen) dLen, takeBytes a (p + wLen + dLen) cLen with
        | some w, some did, some cs =>
          let content := if f / 64 = 1 then cs + 256 else cs
          let win := if single then content else 2 ^ (10 + w / 8) + 2 ^ (10 + w / 8) / 8 * (w % 8)
          if bitOf f 3 then (dBad d 2, sum)
          else if did ≠ 0 then (dBad d 5, sum)
          else if window < win then (dBad d 4, sum)
          else
            let base := d.out.size
            let d := zBlocks a base max_ (min win (2 ^ 17)) (a.size + 1) ⟨none, none, none, none, (1, 4, 8)⟩
              { d with pos := 8 * (p + wLen + dLen + cLen), st := .run }
            if d.st != .ended then (d, sum)
            else if (single ∨ f / 64 ≠ 0) ∧ d.out.size ≠ base + content then (dBad d 2, sum)
            else if !bitOf f 2 then (d, 0)
            else
              let x := xxh64 (d.out.toList.drop base) % 2 ^ 32
              match takeBytes a (d.pos / 8) 4 with
              | none => ({ d with st := .short }, x)
              | some v => (if v = x then { d with pos := d.pos + 32 } else dBad d 3, x)
        | _, _, _ => ({ d with st := .short }, sum)

/-- Zstandard frames: the first that is not skippable, or all of them under MULTI (R393). -/
def unzstd (a : Array Byte) (window : Nat) (multi : Bool) (max_ : Nat) : Nat → Dec → Nat → Decoded
  | 0, d, sum => (dBad d 2, sum)
  | fuel + 1, d, sum =>
    let skip := match takeBytes a (d.pos / 8) 4 with
      | some m => decide (0x184D2A50 ≤ m) && decide (m ≤ 0x184D2A5F)
      | none => false
    let r := zFrame a window max_ d sum
    if r.1.st != .ended then r
    else if (skip || multi) && decide (r.1.pos / 8 < a.size) then unzstd a window multi max_ fuel { r.1 with st := .run } r.2
    else r

end Sys2Proof.Machine
end

