-- ==== Sys2Proof/Machine/Gcx.lean ====
section
/-! DEFINITION. The general compressor (11_raw_compression.md, R393–R408): jobs, what they write, faults and aborts. -/

namespace Sys2Proof.Machine

def State.setGcx (s : State) (f : GcxState → GcxState) : State := { s with gcx := f s.gcx }

/-- Entries of the rings. -/
def State.gcxSize (s : State) : Nat := 2 ^ s.g GCX GCX_RING_CFG_RING_LOG2

/-- The largest Zstandard window in bytes (R407). -/
def State.gcxWindow (s : State) : Nat := nth 0 [0, 2 ^ 17, 2 ^ 18, 2 ^ 19] (s.g GCX GCX_WINDOW_WINDOW)

/-- RUNNING and BUSY follow the job; a block without work that is not enabled has stopped. -/
def State.gcxSync (s : State) : State :=
  let run := s.gcx.job.isSome
  (s.p GCX GCX_STAT_RUNNING (b2n run)).setBusy GCX run

/-- A write of GCX_PROD (R407). -/
def State.gcxProd (s : State) (v : Nat) : State :=
  if s.gcxSize < (v % 65536 + 65536 - s.g GCX GCX_DONE) % 65536 then s.refuse4 (GCX + 0x114) else s.plainWrite (GCX + 0x114) v

/-- A descriptor (R398). -/
def gcxParse (d : List Byte) : GcxJob :=
  ⟨leAt d 0 4, leAt d 4 1, leAt d 5 1, leAt d 6 1, leAt d 7 1, leAt d 8 8, leAt d 16 4, leAt d 20 4, leAt d 24 8, leAt d 32 8,
   leAt d 40 8, leAt d 48 4, leAt d 52 1, none⟩

/-- A descriptor that ends with BAD_DESC (R398, R399). -/
def gcxBad (j : GcxJob) (reserved : Nat) : Bool :=
  !(1 ≤ j.op && j.op ≤ 3) || 3 < j.format || (if j.op = 1 then !(1 ≤ j.level && j.level ≤ 12) else j.level != 0) ||
  8 ≤ j.flags || j.srcLen == 0 || j.outLen == 0 || (j.op != 1 && j.state % 4096 != 0) ||
  (if j.op = 2 then !(1 ≤ j.limit && j.limit ≤ 2 ^ 40) else j.limit != 0) || 64 ≤ j.asid || reserved != 0

def GcxJob.ends (j : GcxJob) (status detail consumed produced check : Nat) : GcxJob :=
  { j with done := some (status, detail, consumed, produced, check) }

/-- A failed access of a job: XLT or BUS (R403). -/
def State.gcxFailed (s : State) (j : GcxJob) (r : Access) : State :=
  let s := s.setGcx (fun g => { g with job := some (j.ends 2 (if r = .xlt then 9 else 10) 0 0 0) })
  if r = .failed then s.report { src := 188, unit := 0, detail := 0, lasting := true } (fun s => s) else s

/-- The next descriptor is fetched in ring order (R397). -/
def State.gcxStart (s : State) : State :=
  let i := s.g GCX GCX_CONS
  if !s.enabled GCX || s.gcx.job.isSome || s.on GCX GCX_STAT_SHED || i == s.g GCX GCX_PROD then s
  else
    let a := s.g64 GCX GCX_RING_LO_REG + 64 * (i % s.gcxSize)
    match s.masterRead 0x38 (s.g GCX GCX_RING_CFG_ASID) a 64 with
    | (.waits, _, s) => s
    | (.ok, d, s) =>
      let j := gcxParse d
      let j := if gcxBad j (ofLe (d.drop 53)) then j.ends 2 1 0 0 0 else j
      ((s.setGcx (fun g => { g with job := some j })).p GCX GCX_CONS ((i + 1) % 65536)).gcxSync
    | (r, _, s) => (((s.p GCX GCX_CONS ((i + 1) % 65536))).gcxFailed (gcxParse (zeros 64)) r).gcxSync

/-! ### Compression (R393–R396, R400) -/

/-- FLEVEL of zlib and XFL of gzip by level (R393). -/
def zlibFlevel (level : Nat) : Nat := if level ≤ 2 then 0 else if level ≤ 5 then 1 else if level = 6 then 2 else 3
def gzipXfl (level : Nat) : Nat := if level = 1 then 4 else if 7 ≤ level then 2 else 0

/-- The window of a Zstandard level (R395, R396). -/
def zstdWindow (level largest : Nat) : Nat := min (if level ≤ 6 then 2 ^ 17 else if level ≤ 9 then 2 ^ 18 else 2 ^ 19) largest

/-- The stream that a COMPRESS job writes, and its checksum: wrappers as R393 fixes them, blocks as the part chooses
them, within the bound of R400. -/
def gcxCompressed (j : GcxJob) (window : Nat) (input : List Byte) : List Byte × Nat :=
  let n := input.length
  let body := Config.gcxBlocks j.format j.level window input
  let deflate := body.take (n + 5 * cdiv n 65535)
  match j.format with
  | 0 => (deflate, 0)
  | 1 =>
    let flg := 64 * zlibFlevel j.level
    let sum := adler32 input
    ([0x78, BitVec.ofNat 8 (flg + (31 - (0x7800 + flg) % 31) % 31)] ++ deflate ++ beBytes 4 sum, sum)
  | 2 =>
    let sum := crc32 input
    ([0x1F, 0x8B, 8, 0] ++ leBytes 4 j.mtime ++ [BitVec.ofNat 8 (gzipXfl j.level), 255] ++ deflate ++ leBytes 4 sum ++ leBytes 4 n, sum)
  | _ =>
    let chk := bitOf j.flags 0
    let sum := xxh64 input % 2 ^ 32
    (leBytes 4 0xFD2FB528 ++ body.take (n + 3 * cdiv n 65536 + 14) ++ (if chk then leBytes 4 sum else []), if chk then sum else 0)

/-- Undefined bytes at a destination. -/
def State.gcxUndefined (s : State) (asid a n : Nat) : Access × State :=
  let t := s.freeCtr
  { s with freeCtr := t + 1 }.masterWrite 0x38 asid a ((List.range n).map (fun i => Config.freeByte t (a + i)))

def State.gcxSet (s : State) (j : GcxJob) : State := s.setGcx (fun g => { g with job := some j })

/-- A job runs again from its restart point: PAUSED falls. -/
def State.gcxRuns (s : State) : State := s.p GCX GCX_STAT_PAUSED 0

/-- The job in progress, where its work is still to be done and nothing holds it. -/
def State.gcxReady (s : State) (op : Nat) : Option GcxJob :=
  match s.gcx.job with
  | some j => if j.op = op && j.done.isNone && !s.on GCX GCX_STAT_SHED && !s.on GCX GCX_CTRL_ABORT then some j else none
  | none => none

/-- COMPRESS (R394, R400). -/
def State.gcxCompress (s : State) : State :=
  match s.gcxReady 1 with
  | none => s
  | some j =>
    match s.masterRead 0x38 j.asid j.src j.srcLen with
    | (.waits, _, s) => s
    | (.ok, input, s) =>
      let r := gcxCompressed j (zstdWindow j.level s.gcxWindow) input
      if j.outLen < r.1.length then
        match s.gcxUndefined j.asid j.dst j.outLen with
        | (.waits, s) => s
        | (.ok, s) =>
          let (c, s) := s.free (j.srcLen + 1)
          s.gcxRuns.gcxSet (j.ends 1 0 c j.outLen 0)
        | (x, s) => s.gcxRuns.gcxFailed j x
      else match s.masterWrite 0x38 j.asid j.dst r.1 with
        | (.waits, s) => s
        | (.ok, s) => s.gcxRuns.gcxSet (j.ends 0 0 j.srcLen r.1.length r.2)
        | (x, s) => s.gcxRuns.gcxFailed j x
    | (x, _, s) => s.gcxRuns.gcxFailed j x

/-! ### Decompression (R399, R401, R402) -/

/-- A stream decoded from its start, to at most max bytes of output. -/
def gcxDecode (format : Nat) (multi : Bool) (window max_ : Nat) (input : List Byte) : Decoded :=
  let a := input.toArray
  let d : Dec := ⟨#[], 0, .run⟩
  match format with
  | 0 => (inflateAll a 0 max_ d, 0)
  | 1 => unzlib a max_
  | 2 => ungzip a multi max_ (a.size + 1) d 0
  | _ => unzstd a window multi max_ (a.size + 1) d 0

/-- Bytes of a state record (R398). -/
def State.gcxRecordLen (s : State) (format : Nat) : Nat := if format = 3 then s.gcxWindow + 4096 else 36864

def State.gcxForget (s : State) (j : GcxJob) : State :=
  s.setGcx (fun g => { g with saved := g.saved.filter (fun v => !(v.addr == j.state && v.asid == j.asid)) })

/-- The work of a DECOMPRESS or CONTINUE job over the chain so far. -/
def State.gcxExpand (s : State) (j : GcxJob) (c : GcxSaved) : State :=
  match s.masterRead 0x38 j.asid j.src j.srcLen with
  | (.waits, _, s) => s
  | (.ok, fresh, s) =>
    let cap := c.total + min j.outLen (c.limit - c.total)
    let input := c.input ++ fresh
    let r := gcxDecode c.format (bitOf j.flags 1) s.gcxWindow cap input
    let out := r.1.out.toList.drop c.total
    let used := (if r.1.st = .full then r.1.pos / 8 else cdiv r.1.pos 8) - c.input.length
    let limited := cap = c.limit
    match (if out.isEmpty then (Access.ok, s) else s.masterWrite 0x38 j.asid j.dst out) with
    | (.waits, s) => s
    | (.ok, s) =>
      let s := s.gcxRuns
      match r.1.st with
      | .ended => (s.gcxForget j).gcxSet (j.ends 0 0 used out.length r.2)
      | .full =>
        if limited then (s.gcxForget j).gcxSet (j.ends 2 8 used out.length 0)
        else
          let s := (s.gcxUndefined j.asid j.state (s.gcxRecordLen c.format)).2
          let keep : GcxSaved := ⟨j.state, j.asid, c.format, input.take (c.input.length + used), c.total + out.length, c.limit⟩
          ((s.gcxForget j).setGcx (fun g => { g with saved := keep :: g.saved })).gcxSet (j.ends 1 0 used out.length 0)
      | .bad k => (s.gcxForget j).gcxSet (j.ends 2 k used out.length 0)
      | _ => (s.gcxForget j).gcxSet (j.ends 2 7 used out.length 0)
    | (x, s) => s.gcxRuns.gcxFailed j x
  | (x, _, s) => s.gcxRuns.gcxFailed j x

def State.gcxDecompress (s : State) : State :=
  match s.gcxReady 2 with
  | none => s
  | some j => s.gcxExpand j ⟨j.state, j.asid, j.format, [], 0, j.limit⟩

/-- CONTINUE (R401): without a saved position it ends NO_STATE. -/
def State.gcxContinue (s : State) : State :=
  match s.gcxReady 3 with
  | none => s
  | some j => match s.gcx.saved.find? (fun v => v.addr == j.state && v.asid == j.asid) with
    | none => s.gcxRuns.gcxSet (j.ends 2 11 0 0 0)
    | some c => s.gcxExpand j c

/-! ### Completions, pauses, aborts and resets (R399, R403–R405) -/

/-- A completion record (R399). -/
def gcxCompletion (seq : Nat) (d : Nat × Nat × Nat × Nat × Nat) : List Byte :=
  let b := leBytes 4 seq ++ leBytes 1 d.1 ++ leBytes 1 d.2.1 ++ zeros 2 ++ leBytes 8 d.2.2.1 ++ leBytes 8 d.2.2.2.1 ++ leBytes 4 d.2.2.2.2
  b ++ leBytes 4 (crc32c b)

/-- A completion is written at the index of GCX_DONE; waits until host memory answers. -/
def State.gcxComplete (s : State) (seq : Nat) (d : Nat × Nat × Nat × Nat × Nat) : Bool × State :=
  let i := s.g GCX GCX_DONE
  match s.masterWrite 0x38 (s.g GCX GCX_RING_CFG_ASID) (s.g64 GCX GCX_CPL_LO_REG + 32 * (i % s.gcxSize)) (gcxCompletion seq d) with
  | (.waits, s) => (false, s)
  | (_, s) => (true, s.p GCX GCX_DONE ((i + 1) % 65536))

/-- GCX_JOB_END (R399): the job whose work is done, or that an abort ends at its restart point. -/
def State.gcxJobEnd (s : State) : State :=
  match s.gcx.job with
  | none => s
  | some j =>
    let d : Option (Nat × Nat × Nat × Nat × Nat) := match j.done with
      | some d => some d
      | none => if s.on GCX GCX_CTRL_ABORT then some (4, 0, 0, 0, 0) else none
    match d with
    | none => s
    | some d =>
      match s.gcxComplete j.seq d with
      | (false, s) => s
      | (true, s) =>
        let s := ((s.setGcx (fun g => { g with job := none })).p GCX GCX_CTRL_ABORT 0).p GCX GCX_STAT_PAUSED 0
        let s := if d.1 = 2 then s.addSat GCX GCX_ERR_CNT 1 else s
        let s := if d.1 = 2 ∧ d.2.1 = 10 then s.fault GCX 0 true else s
        ((s.irqIf (bitOf j.flags 2) GCX 0).irqIf (d.1 != 0) GCX 1).gcxSync

/-- GCX_PAUSE (R403): 0 a page request, 1 an uncorrectable Sump word (bank, word, whether its reread fails), 2 shedding. -/
def State.gcxPause (s : State) (cause : Nat) (sump : Option (Nat × Nat × Bool)) : State :=
  if (s.gcx.job.map (fun j => j.done.isNone)).getD false then
    let s := match cause, sump with
      | 1, some (bank, word, again) =>
        let (c, s) := s.sumpWord bank word true again
        if c.retryFails then s.fault GCX 1 true else s
      | _, _ => s
    let s := if cause = 2 then s.p GCX GCX_STAT_SHED 1 else s
    if s.on GCX GCX_STAT_PAUSED then s else (s.p GCX GCX_STAT_PAUSED 1).irq GCX 2
  else if cause = 2 then s.p GCX GCX_STAT_SHED 1 else s

/-- Shedding step 2 ends. -/
def State.gcxUnshed (s : State) : State := (s.p GCX GCX_STAT_SHED 0).p GCX GCX_STAT_PAUSED 0

/-- A write of GCX_CTRL (R404). -/
def State.gcxCtrl (s : State) (v : Nat) : State :=
  if !bitOf v 0 then s
  else
    let s := s.p GCX GCX_STAT_ABORT_IDLE 0
    match s.gcx.job with
    | none => s.p GCX GCX_STAT_ABORT_IDLE 1
    | some j => if j.done.isNone then s.p GCX GCX_CTRL_ABORT 1 else s

/-- A warm reset leaves the rings and GCX_DONE; the job that GCX_DONE names will run again (R405). -/
def State.gcxWarm (s : State) : State :=
  ((s.setGcx (fun g => { g with job := none })).p GCX GCX_CONS (s.g GCX GCX_DONE)).gcxSync

/-- An FLR completes every job between GCX_DONE and GCX_PROD with RESET (R405). -/
def State.gcxFlr (s : State) : State :=
  let n := (s.g GCX GCX_PROD + 65536 - s.g GCX GCX_DONE) % 65536
  let s := forN n s (fun _ s =>
    let i := s.g GCX GCX_DONE
    let (seq, s) := match s.masterRead 0x38 (s.g GCX GCX_RING_CFG_ASID) (s.g64 GCX GCX_RING_LO_REG + 64 * (i % s.gcxSize)) 4 with
      | (.ok, b, s) => (ofLe b, s)
      | (_, _, s) => (0, s)
    (s.gcxComplete seq (3, 0, 0, 0, 0)).2)
  let s := (s.p GCX GCX_DONE (s.g GCX GCX_PROD)).p GCX GCX_CONS (s.g GCX GCX_PROD)
  (s.setGcx (fun g => { g with job := none })).gcxSync

/-! ### Commands -/

/-- GCX_PROD_WRITE (R397). -/
def execGcxProdWrite (value : Word) (s : State) : Host.Outcome State Fault Refusal :=
  .next (s.hostReg (GCX + 0x114) value.toNat (fun s => s.gcxProd value.toNat))

/-- GCX_JOB_START (R397). -/
def execGcxJobStart (s : State) : Host.Outcome State Fault Refusal := .next s.gcxStart

/-- COMPRESS (R394). -/
def execGcxCompress (s : State) : Host.Outcome State Fault Refusal := .next s.gcxCompress

/-- DECOMPRESS (R401). -/
def execGcxDecompress (s : State) : Host.Outcome State Fault Refusal := .next s.gcxDecompress

/-- CONTINUE (R401). -/
def execGcxContinue (s : State) : Host.Outcome State Fault Refusal := .next s.gcxContinue

/-- GCX_JOB_END (R399). -/
def execGcxJobEnd (s : State) : Host.Outcome State Fault Refusal := .next s.gcxJobEnd

/-- GCX_PAUSE (R403). -/
def execGcxPause (cause : Fin 3) (sump : Option (Fin 192 × Nat × Bool)) (s : State) : Host.Outcome State Fault Refusal :=
  .next (s.gcxPause cause (sump.map (fun x => (x.1.val, x.2.1, x.2.2))))

/-- GCX_ABORT (R404). -/
def execGcxAbort (s : State) : Host.Outcome State Fault Refusal :=
  .next (s.hostReg (GCX + 0x120) 1 (fun s => s.gcxCtrl 1))

end Sys2Proof.Machine
end

