-- ==== Sys2Proof/Machine/SumpCmd.lean ====
section
/-! DEFINITION. The Sump's commands (10_sump.md): checking and activating a plan (R355–R358), the scrubber (R342) and
replacement granules taking up their work (R362). -/

namespace Sys2Proof.Machine

/-- A write of SMP_PLAN_CTRL: refused with cause 0x4 while STATE is not IDLE (R358), otherwise a check starts (R355). -/
def State.planCtrl (s : State) (v : Nat) : State :=
  if s.g SMP SMP_PLAN_STAT_STATE != 0 then s.refuse4 (SMP + 0x108)
  else if v % 4 = 0 then s
  else
    let s := { s with sump := { s.sump with late := [], activating := bitOf v 1 } }
    (s.p SMP SMP_PLAN_CTRL (v % 4)).p SMP SMP_PLAN_STAT_STATE 1

/-- The granules that a record of a kind and instance holds in a plan. -/
def recGranules (recs : List SRec) (kind inst : Nat) : Nat := (findRec recs kind inst).elim 0 (fun r => r.granules.length)

/-- The record of a kind and instance differs between two plans. -/
def recChanged (old new : List SRec) (kind inst : Nat) : Bool := findRec old kind inst != findRec new kind inst

/-- A slice's tables return to their reset contents (R357). -/
def State.sliceTablesReset (s : State) (p : Nat) : State :=
  ((s.p (PSL p) PSL_TBL_STAT_STATE 0).p (PSL p) PSL_TBL_LOAD_START 0).setSlice p (fun x => { x with tbl := none, tblPend := none })

/-- The curve copies of a CLR instance count as never loaded (R357). -/
def State.curvesReset (s : State) (i copies : Nat) : State :=
  let b := CLR i
  let s := ((s.p b CLR_TBL_STAT_CURVE_STATE 0).p b CLR_TBL_STAT_CURVE_COPIES copies)
  let s := (s.p b CLR_LOAD_CURVES 0).p b CLR_LOAD_GEN 0
  s.setClr i (fun c => { c with curveA := ⟨.none, .none, none⟩, curveP := ⟨.none, .none, none⟩, curveEver := false, gen := none, curveBypass := 0 })

/-- The LUT copies of a CLR instance count as never loaded (R357). -/
def State.lutReset (s : State) (i copies : Nat) : State :=
  let b := CLR i
  let s := ((s.p b CLR_TBL_STAT_LUT_STATE 0).p b CLR_TBL_STAT_LUT_COPIES copies).p b CLR_LOAD_LUT 0
  s.setClr i (fun c => { c with lutA := none, lutP := none, lutEver := false, lutStop := none, lutBypass := 0 })

/-- The table state of the consumers that a plan changes (R357). -/
def State.planTables (s : State) (old new : List SRec) : State :=
  let s := (List.range 5).foldl (fun s p => if recChanged old new 2 p then s.sliceTablesReset p else s) s
  (List.range 28).foldl (fun s i =>
    let s := if recChanged old new 4 i then s.curvesReset i (recGranules new 4 i) else s
    if recChanged old new 5 i then s.lutReset i (recGranules new 5 i / 19) else s) s

/-- GCX_WINDOW for a count of granules (R349). -/
def gcxWindowOf (granules : Nat) : Nat := if granules = 2 then 1 else if granules = 4 then 2 else if granules = 8 then 3 else 0

/-- A plan that passed its check is applied: groups on, the map in one step, the tables of changed consumers (R357). -/
def State.sumpApply (s : State) (im : PlanImage) : State :=
  let old := s.sump.recs
  let s := { s with sump := { s.sump with recs := im.recs } }
  let s := (List.range 192).foldl (fun s g => if s.bankFailed g then s.setMapByte g 0xFD else s.setMapByte g (nth 0xFF im.map g)) s
  let was := s.g SMP SMP_GROUP_PWR
  let s := s.p SMP SMP_GROUP_PWR (was ||| s.groupsUsed)
  let s := (List.range 24).foldl (fun (s : State) k => s.seqRequest (241 + k) (bitOf s.groupsUsed k)) s
  let s := s.p SMP SMP_PLAN_ID im.planId
  let s := if recChanged old im.recs 12 0 then s.p GCX GCX_WINDOW_WINDOW (gcxWindowOf (recGranules im.recs 12 0)) else s
  let l := planLoad im.recs
  let above := decide (sumpShare < l.1) || decide (sumpShare < l.2)
  let s := (s.p SMP SMP_STAT_LOAD_OVER (b2n above)).fault SMP 2 above
  ((s.planTables old im.recs).p SMP SMP_PLAN_STAT_STATE 2).reserveSync

/-- The operation ends at the end of its check: STATE and SMP_PLAN_CTRL return to idle. -/
def State.planIdle (s : State) : State :=
  (s.p SMP SMP_PLAN_CTRL 0).p SMP SMP_PLAN_STAT_STATE 0

/-- The check ends (R355, R356). -/
def State.planCheckEnd (s : State) : State :=
  if s.g SMP SMP_PLAN_STAT_STATE != 1 then s
  else
    let a := s.g64 SMP SMP_PLAN_BASE_LO_REG
    let im := s.planImage a
    let f := s.sumpCheck a im s.sump.activating
    let s := ((s.p SMP SMP_CHECK_REASON f.reason).p SMP SMP_CHECK_RECORD f.record).p SMP SMP_CHECK_GRANULE f.granule
    let s := (s.p SMP SMP_CHECK_DIE f.die).p SMP SMP_PLAN_STAT_LAST_OK (b2n (f.reason == 0))
    let s := if f.reason = 1 ∨ f.reason = 2 then s else s.planFigures im
    let s := (s.irq SMP 0).irqIf (f.reason != 0) SMP 2
    if f.reason = 0 ∧ s.sump.activating then s.sumpApply im
    else { s.planIdle with sump := { s.sump with late := [], activating := false } }

/-- The last emptied group is off (R357); banks declared lasting meanwhile are remapped under the new plan (R358). -/
def State.planActivateEnd (s : State) : State :=
  if s.g SMP SMP_PLAN_STAT_STATE != 2 then s
  else
    let late := s.sump.late
    let s := { s.planIdle with sump := { s.sump with late := [], activating := false } }
    let s := ((List.range 24).foldl (fun (s : State) k => s.seqFinish (241 + k)) s)
    let s := (s.p SMP SMP_GROUP_PWR s.groupsUsed).irq SMP 1
    let s := late.foldl (fun s bank => match s.recHolding bank with
      | some i => s.selectReserve i bank
      | none => s) s
    s.reserveSync

/-- A slice-table replacement is refilled from the image at PSL_TBL_BASE (R362): the first two granules of the record hold
the active copy, the others the pending one. -/
def State.sliceTblRefill (s : State) (r : SRec) (new : Nat) : State :=
  let k := r.granules.findIdx (fun g => g == new)
  let x := nth Slice.init s.slices r.inst
  let good := match (if k < 2 then x.tbl else x.tblPend) with
    | some l => s.refillMatches (s.g64 (PSL r.inst) PSL_TBL_BASE_LO_REG) l (k % 2)
    | none => false
  if good then s
  else (s.setSlice r.inst (fun x => if k < 2 then { x with tbl := none } else { x with tblPend := none })).fault (PSL r.inst) 1 true

/-- A replacement takes up its record's work at its consumer's boundary, or at once where that is stopped (R362). A CLR
table waits for its refill, a write-buffer copy for its rebuild. -/
def State.remapTakeup (s : State) (new : Nat) : State :=
  match s.sump.pend.find? (fun (x : Nat × Nat × Nat) => x.2.2 == new) with
  | none => s
  | some (k, _, _) =>
    let r := nth ⟨0, 0, 0, 0, 0, []⟩ s.sump.recs k
    if r.kind = 8 then s
    else if (r.kind = 4 ∨ r.kind = 5) ∧ !s.sump.filled.contains new then s
    else if r.kind = 6 ∧ !s.recompute.isEmpty then s
    else
      let s := if r.kind = 2 then s.sliceTblRefill r new else s
      { s with sump := { s.sump with filled := s.sump.filled.filter (fun g => g != new) } }.takeUp new

/-- A rebuilt write-buffer granule comes into use (R362); FAULT_SUM follows once no copy rebuilds. -/
def State.wrbufRebuildEnd (s : State) (new : Nat) : State :=
  match s.sump.pend.find? (fun (x : Nat × Nat × Nat) => x.2.2 == new) with
  | none => s
  | some (k, _, _) =>
    if (nth ⟨0, 0, 0, 0, 0, []⟩ s.sump.recs k).kind ≠ 8 then s
    else
      let s := s.takeUp new
      let more := s.sump.pend.any (fun (x : Nat × Nat × Nat) => (nth ⟨0, 0, 0, 0, 0, []⟩ s.sump.recs x.1).kind == 8)
      s.fault TSQ 2 more

/-! ### Commands -/

/-- PLAN_CHECK (R355). -/
def execPlanCheck (s : State) : Host.Outcome State Fault Refusal :=
  .next (s.hostReg (SMP + 0x108) 1 (fun s => s.planCtrl 1))

/-- PLAN_ACTIVATE (R357). -/
def execPlanActivate (s : State) : Host.Outcome State Fault Refusal :=
  .next (s.hostReg (SMP + 0x108) 2 (fun s => s.planCtrl 2))

/-- PLAN_CHECK_END (R355). -/
def execPlanCheckEnd (s : State) : Host.Outcome State Fault Refusal := .next s.planCheckEnd

/-- PLAN_ACTIVATE_END (R357). -/
def execPlanActivateEnd (s : State) : Host.Outcome State Fault Refusal := .next s.planActivateEnd

/-- SUMP_SCRUB_PASS (R342): a pass ends, having corrected so many words and met at most one that is uncorrectable: its
bank, the word, and whether its reread fails too. -/
def execSumpScrubPass (corrected : Nat) (bad : Option (Fin 192 × Fin 16384 × Bool)) (s : State) : Host.Outcome State Fault Refusal :=
  .next (let s := (s.addMod SMP SMP_SCRUB 1).addSat SMP SMP_ECC_CNT_CORRECTED corrected
    match bad with
    | some (bank, word, again) => (s.sumpWord bank word true again).2
    | none => s)

/-- SUMP_REMAP_TAKEUP (R362). -/
def execSumpRemapTakeup (granule : Fin 192) (s : State) : Host.Outcome State Fault Refusal := .next (s.remapTakeup granule)

/-- WRBUF_REBUILD_END (R362). -/
def execWrbufRebuildEnd (granule : Fin 192) (s : State) : Host.Outcome State Fault Refusal := .next (s.wrbufRebuildEnd granule)

end Sys2Proof.Machine
end

