-- ==== Sys2Proof/Machine/Ether.lean ====
section
/-! DEFINITION. Ethernet ports, templates and ST 2110 senders (15_network_offload.md, R528–R549). -/

namespace Sys2Proof.Machine

def State.ethUnit (s : State) (k : Nat) : EthUnit := nth EthUnit.init s.eth k
def State.setEth (s : State) (k : Nat) (f : EthUnit → EthUnit) : State := { s with eth := upd s.eth k f }
def State.snd (s : State) (k i : Nat) : Sender := nth Sender.init (s.ethUnit k).senders i
def State.setSnd (s : State) (k i : Nat) (f : Sender → Sender) : State :=
  s.setEth k (fun u => { u with senders := upd u.senders i f })

/-! ### Ports (R528) -/

/-- A port exists under the SPLIT of its unit. -/
def State.portExists (s : State) (k j : Nat) : Bool := j == 0 || s.on (ETH k) ETH_PORT_CFG_SPLIT

/-- The rate of a port in Mbit/s. -/
def State.portRate (s : State) (k j : Nat) : Nat :=
  if !s.on (ETH k) ETH_PORT_CFG_SPLIT then 800000
  else 100000 * 2 ^ s.g (ETH k) (if j = 0 then ETH_PORT_CFG_RATE_0 else ETH_PORT_CFG_RATE_1)

def State.portUp (s : State) (k j : Nat) : Bool := s.on (ETH k) (if j = 0 then ETH_PORT_STAT_UP_0 else ETH_PORT_STAT_UP_1)

/-- The lanes of a port: all eight home lanes, or the first lanes of the half-port's quad (R528, R103). -/
def State.portLanes (s : State) (k j : Nat) : List Nat :=
  if !s.on (ETH k) ETH_PORT_CFG_SPLIT then (if j = 0 then (List.range 8).map (fun l => 48 + 8 * k + l) else [])
  else (List.range (s.portRate k j / 100000)).map (fun l => 4 * s.halfQuad k j + l)

/-- The port that a lane belongs to. -/
def State.portOfLane (s : State) (n : Nat) : Option (Nat × Nat) :=
  ((List.range 8).map (fun p => (p / 2, p % 2))).find? (fun p => (s.portLanes p.1 p.2).contains n)

def State.maxFrame (s : State) (k : Nat) : Nat := s.g (ETH k) ETH_PORT_CFG_MAX_FRAME

/-- The MAC address of a port. -/
def State.portMac (s : State) (k j : Nat) : Nat :=
  if j = 0 then s.rd (ETH k + 0x108) + 2 ^ 32 * s.g (ETH k) ETH_MAC_0_HI else s.rd (ETH k + 0x110) + 2 ^ 32 * s.g (ETH k) ETH_MAC_1_HI

/-- A port sends a frame, filled up to the 64 bytes of the shortest one (R531). -/
def State.ethSend (s : State) (k j : Nat) (l : List Byte) : State :=
  ((s.emit (.eth k j (l ++ zeros (60 - l.length)))).addSat (ETH k + 0x20 * j) ETH_TX_FRAMES 1).count
    { cls := 7, ev := 0, inst := some k, amount := max 60 l.length + 4 }

/-! ### Templates (R535) -/

/-- The one's-complement sum of the 16-bit words of some bytes. -/
def onesSum : List Byte → Nat
  | a :: b :: r => a.toNat * 256 + b.toNat + onesSum r
  | [a] => a.toNat * 256
  | [] => 0

/-- A sum folded to 16 bits and complemented. -/
def inetSum (n : Nat) : Nat :=
  let n := n % 65536 + n / 65536
  let n := n % 65536 + n / 65536
  65535 - (n % 65536 + n / 65536)

/-- Bytes of a list replaced from an offset. -/
def putBytes (l : List Byte) (at_ : Nat) (b : List Byte) : List Byte := l.take at_ ++ b ++ l.drop (at_ + b.length)

def tmplLen (t : List Byte) : Nat := leAt t 0x50 1
def tmplIp (t : List Byte) : Nat := leAt t 0x51 1

/-- HDR_LEN and IP_OFS are valid. -/
def tmplOk (t : List Byte) : Bool :=
  t.length == 128 && decide (42 ≤ tmplLen t) && decide (tmplLen t ≤ 80) && (tmplIp t == 14 || tmplIp t == 18)

/-- An entry of a unit's template table, where it can be read. -/
def State.template (s : State) (k i : Nat) : Option (List Byte) := s.engineRead (s.g64 (ETH k) ETH_TMPL_LO_REG + 128 * i) 128

/-- The frame of a template, a source address and a UDP payload: lengths and checksums filled in (R535). -/
def buildFrame (t : List Byte) (mac : Nat) (payload : List Byte) : List Byte :=
  let h := putBytes (t.take (tmplLen t)) 6 (beBytes 6 mac)
  let ip := tmplIp t
  let udp := tmplLen t - 8
  let v6 := leAt h ip 1 / 16 == 6
  let h := putBytes h (udp + 4) (beBytes 2 (8 + payload.length) ++ [0, 0])
  let h := if v6 then putBytes h (ip + 4) (beBytes 2 (tmplLen t - ip - 40 + payload.length))
    else
      let h := putBytes (putBytes h (ip + 2) (beBytes 2 (tmplLen t - ip + payload.length))) (ip + 10) [0, 0]
      putBytes h (ip + 10) (beBytes 2 (inetSum (onesSum (slice h ip (udp - ip)))))
  let sum := inetSum (onesSum (if v6 then slice h (ip + 8) 32 else slice h (ip + 12) 8) + 17 + (8 + payload.length) +
    onesSum (h.drop udp ++ payload))
  let h := if v6 || bitOf (leAt t 0x53 1) 0 then putBytes h (udp + 6) (beBytes 2 (if sum = 0 then 65535 else sum)) else h
  h ++ payload

/-! ### Senders: configuration (R538, R539, R549) -/

/-- The base that places the registers of sender i of unit k. -/
def sndBase (k i : Nat) : Nat := ETH k + 0x40 * i

/-- Octets, pixels and bits a sample of the pgroup of a tap format (R538); none where the stream is not supported. -/
def pgroup (format ydepth : Nat) (d16 : Bool) : Option (Nat × Nat × Nat) :=
  match format with
  | 4 => if ydepth = 10 then some (5, 2, 10) else if ydepth = 12 then some (6, 2, 12) else none
  | 6 => some (4, 2, 8)
  | 0 => some (15, 4, 10)
  | 1 => if d16 then some (6, 1, 16) else some (9, 2, 12)
  | _ => none

/-- The tap that ETH_SND_SRC names, in the active set: 0–4 a slice's, 8–11 a witness pipeline's. -/
def State.srcTap (s : State) (src : Nat) : TapSet :=
  let p := fld src 0 4
  if p < 8 then tapSetOf (fun o => s.rdA (PSL p + o)) (fld src 4 2) else witTapOf (fun o => s.rdA (WIT (p - 8) + o)) (fld src 4 2 % 2)

/-- The frame rate of a source in mHz; 0 where it has none. -/
def State.srcRate (s : State) (src : Nat) : Nat :=
  let p := fld src 0 4
  if p < 8 then s.sliceRate p else s.rdA (WIT (p - 8) + WIT_RATE.off)

/-- A sender's registers as it was enabled: configuration, source, rate, templates. -/
def Sender.reg (x : Sender) (f : Fld) : Nat := fld (nth 0 x.regs ((f.off - 0x1100) / 4)) f.lo f.w

def Sender.anc? (x : Sender) : Bool := x.reg ETH_SND_CFG_TYPE == 1
def Sender.src (x : Sender) : Nat := x.reg ETH_SND_SRC

/-- Payload octets of every packet of a frame: per line whole packets of Pm and the rest (R539). -/
def packetOctets (lineOctets pm : Nat) : List Nat :=
  List.replicate (lineOctets / pm) pm ++ (if lineOctets % pm = 0 then [] else [lineOctets % pm])

/-- Pm (R539). -/
def payloadPm (group max_ : Nat) : Nat := max_ / group * group

/-- Octets on the wire of a frame or an ancillary packet: payload, headers, FCS, preamble and gap (R549). -/
def Sender.wireOctets (x : Sender) (t : TapSet) : Nat :=
  let rest_ := tmplLen x.pri + 20 + 4 + 20
  if x.anc? then tmplLen x.pri + 14 + 1016 + 24
  else match pgroup t.format t.ydepth (x.reg ETH_SND_CFG_DEPTH16 == 1) with
    | none => 0
    | some (g, px, _) => t.outH * (packetOctets (t.outW / px * g) (payloadPm g (x.reg ETH_SND_TMPL_PAYLOAD_MAX))).foldl (fun n o => n + o + rest_) 0

/-- ETH_SND_BW: Mbit/s, rounded up (R534). -/
def Sender.bandwidth (x : Sender) (t : TapSet) : Nat := cdiv (x.wireOctets t * 8 * x.reg ETH_SND_RATE_NUM) (x.reg ETH_SND_RATE_DEN * 1000000)

/-- The ports of a sender: the primary and, with PARTNER_EN, the partner. -/
def Sender.ports (x : Sender) (k : Nat) : List (Nat × Nat) :=
  (k, x.reg ETH_SND_CFG_PRI_HALF) :: (if x.reg ETH_SND_CFG_PARTNER_EN = 1 then [(x.reg ETH_SND_CFG_PARTNER_UNIT, x.reg ETH_SND_CFG_PARTNER_HALF)] else [])

/-- The reservation of a port: ETH_SND_BW over the enabled senders that send on it (R534). -/
def State.portLoad (s : State) (k j : Nat) : Nat :=
  (List.range 32).foldl (fun n i => let b := sndBase (i / 8) (i % 8)
    if s.on b ETH_SND_CFG_EN && ((s.snd (i / 8) (i % 8)).ports (i / 8)).contains (k, j) then n + s.g b ETH_SND_BW else n) 0

/-- ETH_RT_LOAD follows the enabled senders. -/
def State.loadSync (s : State) : State :=
  forN 4 s (fun k s => (s.p (ETH k) ETH_RT_LOAD_P0 (cdiv (s.portLoad k 0) 100)).p (ETH k) ETH_RT_LOAD_P1 (cdiv (s.portLoad k 1) 100))

/-- The first broken rule of R549 for a sender about to be enabled. -/
def State.sndReason (s : State) (k : Nat) (x : Sender) : Nat :=
  let t := s.srcTap x.src
  let num := x.reg ETH_SND_RATE_NUM
  let den := x.reg ETH_SND_RATE_DEN
  let video := !x.anc?
  let group := pgroup t.format t.ydepth (x.reg ETH_SND_CFG_DEPTH16 == 1)
  let rateOk := num != 0 && den != 0 && decide (den ≤ num) && decide (num ≤ 1000 * den) &&
    decide (x.reg ETH_SND_OFS * num < den * nsPerSec)
  let fsrc := s.srcRate x.src
  let ports := x.ports k
  if video && !(t.sink == 1 && !t.bufMode && group.any (fun g => t.outW % g.2.1 == 0)) then 1
  else if video && num != 0 && !(fsrc != 0 && decide (2 + cdiv (fsrc * den) (num * 1000) ≤ t.nbuf + 1)) then 2
  else if !(ports.all (fun p => s.portExists p.1 p.2)) || (ports.length == 2 && ports.head? == ports.getLast?) then 3
  else if !(((x.pri, k) :: (if ports.length = 2 then [(x.part, x.reg ETH_SND_CFG_PARTNER_UNIT)] else [])).all (fun y =>
      tmplOk y.1 && decide (tmplLen y.1 + 24 + x.reg ETH_SND_TMPL_PAYLOAD_MAX ≤ s.maxFrame y.2))) then 4
  else if rateOk && ports.any (fun p => 9 * s.portRate p.1 p.2 < 10 * (s.portLoad p.1 p.2 + x.bandwidth t)) then 5
  else if !rateOk then 6 else 0

/-! ### Senders: states -/

/-- STATE written; a change is announced (R566). -/
def State.sndState (s : State) (k i st : Nat) : State :=
  let b := sndBase k i
  (s.p b ETH_SND_STAT_STATE st).irqIf (s.g b ETH_SND_STAT_STATE != st) (ETH k) 1

/-- PRI_UP, PARTNER_UP and STATE follow the ports, EN and the frame being sent (R549, R565). -/
def State.sndSync (s : State) (k i : Nat) : State :=
  let b := sndBase k i
  let x := s.snd k i
  if x.regs.isEmpty then s
  else
    let up := (x.ports k).map (fun p => s.portUp p.1 p.2)
    let s := (s.p b ETH_SND_STAT_PRI_UP (b2n (up.headD false))).p b ETH_SND_STAT_PARTNER_UP (b2n (nth false up 1))
    if !s.on b ETH_SND_CFG_EN && !x.sending then
      ((s.setSnd k i (fun x => { x with regs := [] })).sndState k i 0)
    else s.sndState k i (if up.all (fun u => !u) then 3 else if x.sending then 2 else 1)

def State.sndSyncAll (s : State) : State := forN 32 s (fun n s => s.sndSync (n / 8) (n % 8))

/-- A write of ETH_SND_CFG (R549): one that sets EN is checked; one that clears it lets the frame end; any other write while
EN is 1 is refused. -/
def State.sndCfgWrite (s : State) (k i v : Nat) : State :=
  let b := sndBase k i
  let off := b + ETH_SND_CFG.off
  if s.on b ETH_SND_CFG_EN then
    (if bitOf v 0 then s.refuse4 off else (((s.plainWrite off v).p b ETH_SND_BW 0).sndSync k i).loadSync)
  else if !bitOf v 0 then s.plainWrite off v
  else
    let s := (s.plainWrite off v).p b ETH_SND_CFG_EN 0
    let regs := (List.range 8).map (fun n => s.rd (b + 0x1100 + 4 * n))
    let t (f : Fld) : List Byte := (s.template k (s.g b f)).getD []
    let old := nth ⟨0, 0, 0, 0, []⟩ (s.tapNews.filter (fun (n : TapNews) => n.tap == 16 * fld (s.rd (b + ETH_SND_SRC.off)) 0 4 + fld (s.rd (b + ETH_SND_SRC.off)) 4 2)) 0
    let x : Sender := { Sender.init with regs := regs, pri := t ETH_SND_TMPL_PRI_TMPL, part := t ETH_SND_TMPL_PARTNER_TMPL, base := old.count }
    let r := s.sndReason k x
    let s := s.p b ETH_SND_STAT_REASON r
    if r ≠ 0 then (s.refuse4 off).irq (ETH k) 1
    else
      let s := (s.p b ETH_SND_CFG_EN 1).setSnd k i (fun _ => x)
      ((s.p b ETH_SND_BW (x.bandwidth (s.srcTap x.src))).sndSync k i).loadSync

/-- A write to the registers of an enabled sender, other than ETH_SND_CFG and ETH_SND_ANC_PROD, is refused (R549). -/
def State.sndRefuses (s : State) (off : Nat) : Bool :=
  match owner off with
  | some ⟨.eth, k, rel⟩ => 0x1100 ≤ rel && rel < 0x1300 && (rel - 0x1100) % 0x40 != 0 && (rel - 0x1100) % 0x40 != 0x20 &&
    s.on (sndBase k ((rel - 0x1100) / 0x40)) ETH_SND_CFG_EN
  | _ => false

/-- Whether an enabled sender reads a tap (R540). -/
def State.tapSent (s : State) (p t : Nat) : Bool :=
  (List.range 32).any (fun n => let b := sndBase (n / 8) (n % 8)
    s.on b ETH_SND_CFG_EN && !s.on b ETH_SND_CFG_TYPE && s.g b ETH_SND_SRC_SLICE == p && s.g b ETH_SND_SRC_TAP == t)

/-- What R540 pins of a tap. -/
def TapSet.pinned (t : TapSet) : List Nat :=
  [t.sink, b2n t.bufMode, t.nbuf, t.format, fld t.fmt 5 2, t.outWh, t.base, t.stride, t.plane, t.bufsz]

/-- A PSL or WIT commit would change what an enabled sender reads (R540). -/
def State.sndForbids (s : State) (wit : Bool) (p : Nat) : Bool :=
  (List.range (if wit then 2 else 4)).any (fun t => s.tapSent (if wit then 8 + p else p) t &&
    (if wit then (witTapOf (fun o => s.rd (WIT p + o)) t).pinned != (witTapOf (fun o => s.rdA (WIT p + o)) t).pinned
     else (tapSetOf (fun o => s.rd (PSL p + o)) t).pinned != (tapSetOf (fun o => s.rdA (PSL p + o)) t).pinned))

/-! ### Senders: slots and packets (R541–R547) -/

/-- A frame period in units of device time, rounded down, and the slot under way: its number and its start (R541). -/
def Sender.period (x : Sender) : Nat := x.reg ETH_SND_RATE_DEN * nsPerSec * 2 ^ 48 / max 1 (x.reg ETH_SND_RATE_NUM)

def Sender.slotStart (x : Sender) (n : Nat) : Nat :=
  (n * x.reg ETH_SND_RATE_DEN * nsPerSec * 2 ^ 48) / max 1 (x.reg ETH_SND_RATE_NUM) + x.reg ETH_SND_OFS * 2 ^ 48

def Sender.slotAt (x : Sender) (now : Nat) : Option Nat :=
  let ofs := x.reg ETH_SND_OFS * 2 ^ 48
  if now < ofs then none else some ((now - ofs) * x.reg ETH_SND_RATE_NUM / max 1 (x.reg ETH_SND_RATE_DEN * nsPerSec * 2 ^ 48))

/-- The RTP timestamp of a slot (R541). -/
def Sender.rtpTime (x : Sender) : Nat := x.slot * 90000 * x.reg ETH_SND_RATE_DEN / max 1 (x.reg ETH_SND_RATE_NUM) % 2 ^ 32

/-- The latest record with a buffer of the tap a sender reads. -/
def State.sndNews (s : State) (x : Sender) : Option TapNews :=
  s.tapNews.find? (fun (n : TapNews) => n.tap == 16 * fld x.src 0 4 + fld x.src 4 2 && decide (x.base < n.count))

def State.sndErr (s : State) (k i : Nat) (f : Fld) : State :=
  (s.addSat (sndBase k i) f 1).irqIf (f == ETH_SND_ERR_TORN || f == ETH_SND_ERR_NO_FRAME) (ETH k) 8

/-- A video sender takes the newest frame of its tap (R543). -/
def State.sndTake (s : State) (k i : Nat) : State :=
  let x := s.snd k i
  match s.sndNews x with
  | none => s.sndErr k i ETH_SND_ERR_NO_FRAME
  | some n =>
    let s := match x.sent with
      | some (c, _, _) => if c = n.count then s.sndErr k i ETH_SND_ERR_REPEAT
          else if c + 1 < n.count then s.sndErr k i ETH_SND_ERR_SKIP else s
      | none => s
    let s := s.setSnd k i (fun x => { x with sent := some (n.count, n.fseq, n.buf), next := 0, sending := true, torn := false })
    s.p (sndBase k i) ETH_SND_FSEQ n.fseq

/-- The payload of a slot without an ancillary entry (R547): Length 0, ANC_Count 0, F 0. -/
def emptyAnc : List Byte := zeros 6

/-- An ancillary sender takes its next entry (R547); an entry whose access does not end is left for the next slot. -/
def State.ancTake (s : State) (k i : Nat) : State :=
  let b := sndBase k i
  let x := s.snd k i
  let cons := s.g b ETH_SND_ANC_CONS
  let done (s : State) (l : List Byte) (used : Bool) : State :=
    let s := s.setSnd k i (fun x => { x with anc := l, next := 0, sending := true })
    if used then s.p b ETH_SND_ANC_CONS ((cons + 1) % 65536) else s
  if cons = s.g b ETH_SND_ANC_PROD then done s emptyAnc false
  else
    let a := nth 0 x.regs 5 + 2 ^ 32 * nth 0 x.regs 6 + 1024 * (cons % 2 ^ x.reg ETH_SND_ANC_CFG_LOG2)
    match s.masterRead (0x44 + k) (x.reg ETH_SND_ANC_CFG_ASID) a 1024 with
    | (.ok, l, s) => done s (slice l 8 (min (leAt l 0 2) 1016)) true
    | (.waits, _, s) => done s emptyAnc false
    | (_, _, s) => done s emptyAnc true

/-- A slot of a sender starts (R541, R543, R545–R547): at least a frame period after its last one; each port that is up
carries the frame. Senders stop during a warm reset (R563). -/
def State.sndSlot (s : State) (k i : Nat) : State :=
  let b := sndBase k i
  let x := s.snd k i
  match (if s.on b ETH_SND_CFG_EN && !s.on TOP TOP_RESET_STAT_WARM_BUSY then x.slotAt s.time.units else none) with
  | none => s
  | some n =>
    let t := x.slotStart n
    if x.lastStart.any (fun l => decide (t < l + x.period)) then s
    else
      let up := (x.ports k).map (fun p => s.portUp p.1 p.2)
      let s := s.setSnd k i (fun x => { x with lastStart := some t, slot := n, sending := false, priOn := up.headD false, partOn := nth false up 1 })
      let s := if up.all (fun u => !u) then s else if x.anc? then s.ancTake k i else s.sndTake k i
      s.sndSync k i

/-- Samples packed most significant bit first. -/
def packBits (d : Nat) (l : List Nat) : List Byte := beBytes (l.length * d / 8) (l.foldl (fun n v => n * 2 ^ d + v % 2 ^ d) 0)

/-- 16 bits to 12, to nearest with ties to even, saturated (R538). -/
def to12 (v : Nat) : Nat := min 4095 (rneInt v 16).toNat

/-- The samples of one pgroup at pixel x of line y of a buffer (R538). -/
def State.groupSamples (s : State) (t : TapSet) (buf : Nat) (px d y x : Nat) : List Nat :=
  let line := t.base + buf * t.bufsz * 4096 + t.stride * y
  match t.format with
  | 4 =>
    let c := t.base + buf * t.bufsz * 4096 + t.plane + t.stride * y + 2 * x
    let top (a : Nat) : Nat := s.hbmNum a 2 / 2 ^ (16 - d)
    [top c, top (line + 2 * x), top (c + 2), top (line + 2 * x + 2)]
  | 6 =>
    let b (n : Nat) : Nat := s.hbmNum (line + 2 * x + n) 1
    [b 1, b 0, b 3, b 2]
  | 0 => (List.range px).flatMap (fun n => let w := s.hbmNum (line + 4 * (x + n)) 4; [fld w 0 10, fld w 10 10, fld w 20 10])
  | _ => (List.range px).flatMap (fun n => (List.range 3).map (fun c =>
      let v := s.hbmNum (line + 8 * (x + n) + 2 * c) 2
      if d = 12 then to12 v else v))

/-- An RTP header: payload type, marker, sequence number, timestamp, SSRC (R539). -/
def rtpHeader (t : List Byte) (marker : Bool) (seq time : Nat) : List Byte :=
  beBytes 1 0x80 ++ beBytes 1 (leAt t 0x52 1 % 128 + 128 * b2n marker) ++ beBytes 2 (seq % 65536) ++ beBytes 4 time ++ slice t 0x54 4

/-- The tap has begun to write the buffer of the frame being sent again (R544). -/
def State.rewritten (s : State) (x : Sender) (t : TapSet) : Bool :=
  match x.sent, s.sndNews x with
  | some (c, fseq, buf), some n =>
    let p := fld x.src 0 4
    decide (c + t.nbuf ≤ n.count) || (decide (p < 8) && (nth Slice.init s.slices p).frames.any (fun f =>
      decide (fseq < f.frame.seq) && (nth ⟨false, none, 0, 0, 0, 0, false, false⟩ f.runs (fld x.src 4 2)).buf == some buf))
  | _, _ => false

/-- A UDP payload sent on the ports that carry the frame and are up, each under its own template; the RTP header stands
first in it, with the SSRC and payload type of the primary one (R546). -/
def State.sndSend (s : State) (k : Nat) (x : Sender) (payload : List Byte) : State :=
  let one (s : State) (p : Nat × Nat) (t : List Byte) : State :=
    if s.portUp p.1 p.2 then
      (s.ethSend p.1 p.2 (buildFrame t (s.portMac p.1 p.2) payload)).count { cls := 7, ev := 1, inst := some k }
    else s
  let ports := x.ports k
  let s := if x.priOn then one s (nth (k, 0) ports 0) x.pri else s
  if x.partOn then one s (nth (k, 0) ports 1) x.part else s

/-- The next packet of a frame falls due (R539, R542, R544, R547). -/
def State.sndPacket (s : State) (k i : Nat) : State :=
  let x := s.snd k i
  if !x.sending then s
  else if x.anc? then
    let s := s.sndSend k x (rtpHeader x.pri true x.seq x.rtpTime ++ beBytes 2 (x.seq / 65536) ++ x.anc)
    (s.setSnd k i (fun x => { x with seq := inc32 x.seq, sending := false })).sndSync k i
  else
    let t := s.srcTap x.src
    match pgroup t.format t.ydepth (x.reg ETH_SND_CFG_DEPTH16 == 1), x.sent with
    | some (g, px, d), some (_, _, buf) =>
      let per := packetOctets (t.outW / px * g) (payloadPm g (x.reg ETH_SND_TMPL_PAYLOAD_MAX))
      let y := x.next / max 1 per.length
      let n := nth 0 per (x.next % max 1 per.length)
      let x0 := (per.take (x.next % max 1 per.length)).foldl (· + ·) 0 / g * px
      let last := x.next + 1 == t.outH * per.length
      let data := (List.range (n / g)).flatMap (fun c => packBits d (s.groupSamples t buf px d y (x0 + c * px)))
      let tear := !x.torn && s.rewritten x t
      let s := if tear then s.sndErr k i ETH_SND_ERR_TORN else s
      let s := s.sndSend k x (rtpHeader x.pri last x.seq x.rtpTime ++ beBytes 2 (x.seq / 65536) ++ beBytes 2 n ++ beBytes 2 y ++ beBytes 2 x0 ++ data)
      let s := s.setSnd k i (fun x => { x with seq := inc32 x.seq, next := x.next + 1, torn := x.torn || tear, sending := !last })
      if last then s.sndSync k i else s
    | _, _ => s

/-- Device time is stepped or loaded: slots keep their distance in real time (R545). -/
def State.sndShift (s : State) (d : Int) : State :=
  { s with eth := s.eth.map (fun u => { u with senders := u.senders.map (fun x =>
      { x with lastStart := x.lastStart.map (fun (l : Nat) => ((l : Int) + d).toNat) }) }) }

/-! ### Commands -/

/-- SND_ENABLE (R549): ETH_SND_CFG written with EN 1. -/
def execSndEnable (k : Fin 4) (sender : Fin 8) (value : Word) (s : State) : Host.Outcome State Fault Refusal :=
  let v := value.toNat ||| 1
  .next (s.hostReg (sndBase k sender + 0x1100) v (fun s => s.sndCfgWrite k sender v))

/-- SND_DISABLE (R549): ETH_SND_CFG written with EN 0 and the rest as it stands. -/
def execSndDisable (k : Fin 4) (sender : Fin 8) (s : State) : Host.Outcome State Fault Refusal :=
  let off := sndBase k sender + 0x1100
  let v := s.rd off &&& 0xFFFFFFFE
  .next (s.hostReg off v (fun s => s.sndCfgWrite k sender v))

/-- SND_SLOT_START (R543). -/
def execSndSlotStart (k : Fin 4) (sender : Fin 8) (s : State) : Host.Outcome State Fault Refusal := .next (s.sndSlot k sender)

/-- SND_PACKET_DUE (R542). -/
def execSndPacketDue (k : Fin 4) (sender : Fin 8) (s : State) : Host.Outcome State Fault Refusal := .next (s.sndPacket k sender)

/-- ANC_PROD_WRITE (R547). -/
def execAncProdWrite (k : Fin 4) (sender : Fin 8) (value : Word) (s : State) : Host.Outcome State Fault Refusal :=
  let off := sndBase k sender + 0x1120
  .next (s.hostReg off value.toNat (fun s => s.plainWrite off value.toNat))

end Sys2Proof.Machine
end

