-- ==== Sys2Proof/Machine/Sluice.lean ====
section
/-! DEFINITION. Sluice: messages, sessions, segments and the recorder (15_network_offload.md, R550–R563), and the RELEASE
command, which sessions bound (R423, R558). -/

namespace Sys2Proof.Machine

def State.ses (s : State) (k t : Nat) : Session := nth Session.init (s.ethUnit k).sessions t
def State.setSes (s : State) (k t : Nat) (f : Session → Session) : State :=
  s.setEth k (fun u => { u with sessions := upd u.sessions t f })

/-- The base that places the registers of session t of unit k. -/
def sesBase (k t : Nat) : Nat := ETH k + 0x80 * t

def State.sesState (s : State) (k t : Nat) : Nat := s.g (sesBase k t) ETH_SES_STAT_STATE

/-- STATE written; a change is announced (R566). -/
def State.setSesState (s : State) (k t st : Nat) : State :=
  (s.p (sesBase k t) ETH_SES_STAT_STATE st).irqIf (s.sesState k t != st) (ETH k) 2

/-! ### Messages (R550, R551) -/

/-- The common header of a message (R550). -/
def sluiceHeader (type id seq : Nat) : List Byte := [0x53, 0x4C, 0x01] ++ beBytes 1 type ++ beBytes 4 id ++ beBytes 8 seq

/-- A message of a type with its body, closed by its CRC (R551). -/
def sluiceMsg (type id seq : Nat) (body : List Byte) : List Byte :=
  let m := sluiceHeader type id seq ++ body
  m ++ beBytes 4 (crc32c m)

/-- A big-endian field of a message. -/
def beAt (l : List Byte) (at_ n : Nat) : Nat := ofBe (slice l at_ n)

/-- A message of a type is whole: header, length and CRC (R551). -/
def sluiceOk (m : List Byte) (type len : Nat) : Bool :=
  m.length == len && slice m 0 3 == [0x53, 0x4C, 0x01] && beAt m 3 1 == type && beAt m (len - 4) 4 == crc32c (m.take (len - 4))

/-- The open session of a unit that a message names. -/
def State.sesOf (s : State) (k : Nat) (m : List Byte) : Option Nat :=
  (List.range 8).find? (fun t => s.sessionOpen k t && s.rd (sesBase k t + ETH_SES_ID.off) == beAt m 4 4)

/-! ### Ports of a session -/

/-- The ports of a session: its primary and, with ALT_EN, its alternate. -/
def State.sesPri (s : State) (k t : Nat) : Nat × Nat := (k, s.g (sesBase k t) ETH_SES_CFG_PRI_HALF)
def State.sesAlt (s : State) (k t : Nat) : Option (Nat × Nat) :=
  let b := sesBase k t
  if s.on b ETH_SES_CFG_ALT_EN then some (s.g b ETH_SES_CFG_ALT_UNIT, s.g b ETH_SES_CFG_ALT_HALF) else none

/-- The port that a session sends on. -/
def State.sesPort (s : State) (k t : Nat) : Nat × Nat :=
  if s.on (sesBase k t) ETH_SES_STAT_ON_ALT then (s.sesAlt k t).getD (s.sesPri k t) else s.sesPri k t

def State.sesUp (s : State) (k t : Nat) : Bool := let p := s.sesPort k t; s.portUp p.1 p.2

/-- A session's message goes out on its port. -/
def State.sesSend (s : State) (k t : Nat) (m : List Byte) : State :=
  let p := s.sesPort k t
  let x := s.ses k t
  if s.portUp p.1 p.2 then
    s.ethSend p.1 p.2 (buildFrame (if s.on (sesBase k t) ETH_SES_STAT_ON_ALT then x.alt else x.pri) (s.portMac p.1 p.2) m)
  else s

/-- A session moves to its alternate port, whose template it reads (R535, R562). -/
def State.sesToAlt (s : State) (k t : Nat) : State :=
  let b := sesBase k t
  if s.on b ETH_SES_STAT_ON_ALT || (s.sesAlt k t).isNone then s
  else (s.setSes k t (fun x => { x with alt := (s.template k (s.g b ETH_SES_TMPL_ALT_TMPL)).getD x.alt })).p b ETH_SES_STAT_ON_ALT 1

/-! ### Frames of the area -/

def State.sesHead (s : State) (k t : Nat) : Nat := s.g (sesBase k t) ETH_SES_CFG_HEAD

/-- The next frame to queue: the first retained frame from the session's position on. -/
def State.sesFrame (s : State) (k t : Nat) : Option AreaFrame :=
  (s.area (s.sesHead k t)).frames.find? (fun f => decide ((s.ses k t).pos ≤ f.first))

/-- The oldest frame that a session has not wholly acknowledged: FRAME_SEQ and FIRST_POS (R557). -/
def State.sesOldest (s : State) (k t : Nat) : Option (Nat × Nat) :=
  match (s.ses k t).segs with
  | g :: _ => some (g.fseq, g.first)
  | [] => (s.sesFrame k t).map (fun f => (f.seq, f.first))

/-- ETH_SES_WIN and ETH_SES_FSEQ follow the session. -/
def State.sesSync (s : State) (k t : Nat) : State :=
  let b := sesBase k t
  let s := s.p b ETH_SES_WIN_UNACK (s.ses k t).segs.length
  match s.sesOldest k t with
  | some (q, _) => s.p64 b ETH_SES_FSEQ_LO q
  | none => s

/-- Blocks from the next frame to queue up to HEAD_h (R561). -/
def State.sesLag (s : State) (k t : Nat) : Nat :=
  let a := s.area (s.sesHead k t)
  a.head - max (s.ses k t).pos a.tail

/-! ### Closing and failing -/

/-- CLOSE is sent, and counted while the port is up. -/
def State.sendClose (s : State) (k t : Nat) : State :=
  let b := sesBase k t
  let up := s.sesUp k t
  let s := s.sesSend k t (sluiceMsg 5 (s.rd (b + ETH_SES_ID.off)) (s.g64 b ETH_SES_NEXT_LO) (beBytes 4 (s.ses k t).closeReason))
  s.setSes k t (fun x => { x with tries := x.tries + b2n up })

/-- A session enters CLOSING with a REASON (R552). -/
def State.sesClosing (s : State) (k t reason : Nat) : State :=
  (((s.setSes k t (fun x => { x with tries := 0, closeReason := reason })).setSesState k t 4).sendClose k t)

/-- FAULT_SUM.SES_FAILED follows the sessions (R566). -/
def State.sesFaultSync (s : State) (k : Nat) : State :=
  s.fault (ETH k) 2 ((List.range 8).any (fun t => s.sesState k t == 6 && s.g (sesBase k t) ETH_SES_STAT_REASON == 8))

/-- A session fails with a reason. -/
def State.sesFail (s : State) (k t reason : Nat) : State :=
  ((s.setSesState k t 6).p (sesBase k t) ETH_SES_STAT_REASON reason).sesFaultSync k

/-- Every unacknowledged segment ends with an outcome, and the range is reported (R559, R563). -/
def State.sesEnd (s : State) (k t outcome reason : Nat) : State :=
  let b := sesBase k t
  let s := match (s.ses k t).segs, (s.ses k t).segs.getLast? with
    | g :: _, some l =>
      (((s.p64 b ETH_SES_END_FIRST_LO g.ssn).p64 b ETH_SES_END_LAST_LO l.ssn).p b ETH_SES_STAT_END outcome).p b ETH_SES_STAT_END_VALID 1
    | _, _ => s
  ((s.setSes k t (fun x => { x with segs := [] })).p b ETH_SES_STAT_REASON reason).p b ETH_SES_WIN_UNACK 0

/-- An FLR ends an open session (R563). -/
def State.sesFlr (s : State) (k t : Nat) : State :=
  if !s.sessionOpen k t then s
  else
    let s := s.setSes k t (fun x => { x with closeReason := 2 })
    ((s.sendClose k t).sesEnd k t 2 9).setSesState k t 7

/-! ### The host's writes (R552, R553, R559) -/

/-- The first rule of R553 that an OPEN breaks. -/
def State.openReason (s : State) (k t : Nat) (pri alt : Option (List Byte)) : Nat :=
  let b := sesBase k t
  let h := s.sesHead k t
  let len (t : List Byte) : Nat := tmplLen t + 52 + 4096 * (1 + s.g b ETH_SES_CFG_BLOCKS) + 4
  let altPort := s.sesAlt k t
  let used := (k, pri) :: (match altPort with | some p => [(p.1, alt)] | none => [])
  if s.g TSQ TSQ_RCV_STAT_STATE != 2 || (s.area h).len == 0 then 1
  else if used.any (fun x => x.2.any (fun y => tmplOk y && decide (s.maxFrame x.1 < len y))) then 2
  else if !used.all (fun x => x.2.any tmplOk) then 3
  else if altPort.any (fun p => p == s.sesPri k t || !s.portExists p.1 p.2) then 4
  else if (List.range 32).any (fun n => !(n / 8 == k && n % 8 == t) && s.sessionOpen (n / 8) (n % 8) &&
      s.rd (sesBase (n / 8) (n % 8) + ETH_SES_ID.off) == s.rd (b + ETH_SES_ID.off)) then 5
  else 0

/-- OPEN is sent (R551), and counted while the port is up. -/
def State.sendOpen (s : State) (k t : Nat) : State :=
  let b := sesBase k t
  let first := if s.on b ETH_SES_CFG_START then 2 ^ 64 - 1 else ((s.sesFrame k t).map (fun f => f.seq)).getD (2 ^ 64 - 1)
  let up := s.sesUp k t
  let s := s.sesSend k t (sluiceMsg 1 (s.rd (b + ETH_SES_ID.off)) 0 (beBytes 1 (s.sesHead k t) ++
    beBytes 1 (1 + s.g b ETH_SES_CFG_BLOCKS) ++ [0, 0] ++ beBytes 4 (s.rd (ETH k + ETH_SLUICE_DEV.off)) ++ beBytes 8 first))
  s.setSes k t (fun x => { x with tries := x.tries + b2n up })

/-- OPEN written (R552, R553). -/
def State.sesOpenWrite (s : State) (k t : Nat) : State :=
  let b := sesBase k t
  let off := b + ETH_SES_CTRL.off
  let pri := s.template k (s.g b ETH_SES_TMPL_PRI_TMPL)
  let alt := s.template k (s.g b ETH_SES_TMPL_ALT_TMPL)
  let r := s.openReason k t pri alt
  if s.sessionOpen k t then s.refuse4 off
  else if r ≠ 0 then (s.refuse4 off).p b ETH_SES_STAT_REASON r
  else
    let s := s.setSes k t (fun _ => { Session.init with pos := (if s.on b ETH_SES_CFG_START then (s.area (s.sesHead k t)).head else (s.area (s.sesHead k t)).tail), pri := pri.getD [] })
    let s := (s.p b ETH_SES_STAT 0).p64 b ETH_SES_NEXT_LO 0
    let s := (s.p64 b ETH_SES_CUM_LO 0).p b ETH_SES_WIN 0
    let s := (s.setSesState k t 1).sesFaultSync k
    (s.sesSync k t).sendOpen k t

/-- A host write takes a session that has ended to IDLE (R552); segments that were still accepted end ABORTED. -/
def State.sesIdle (s : State) (k t : Nat) (abort : Bool) : State :=
  let s := if abort && s.sesState k t == 6 then s.sesEnd k t 3 10 else s.setSes k t (fun x => { x with segs := [] })
  ((s.p (sesBase k t) ETH_SES_WIN_UNACK 0).setSesState k t 0).sesFaultSync k

/-- A write of ETH_SES_CTRL. -/
def State.sesCtrl (s : State) (k t v : Nat) : State :=
  let st := s.sesState k t
  let off := sesBase k t + ETH_SES_CTRL.off
  if bitOf v 0 then s.sesOpenWrite k t
  else if v % 8 = 0 then s
  else if 5 ≤ st then s.sesIdle k t (bitOf v 2)
  else if bitOf v 1 then
    (if st = 2 then
      (let s := s.setSesState k t 3
       if (s.ses k t).segs.isEmpty then s.sesClosing k t 0 else s)
     else s.refuse4 off)
  else if st = 1 ∨ st = 2 ∨ st = 3 then (s.sesEnd k t 3 10).sesClosing k t 1
  else s.refuse4 off

/-- The registers of a session that stay closed while it is open (R564). -/
def State.sesRefuses (s : State) (off : Nat) : Bool :=
  match owner off with
  | some ⟨.eth, k, rel⟩ => 0x2100 ≤ rel && rel < 0x2500 && (rel - 0x2100) % 0x80 < 0x14 && s.sessionOpen k ((rel - 0x2100) / 0x80)
  | _ => false

/-! ### Answers of the recorder (R552, R553, R556) -/

/-- OPEN_ACK. -/
def State.openAckIn (s : State) (k : Nat) (m : List Byte) : State :=
  match (if sluiceOk m 2 28 then s.sesOf k m else none) with
  | none => s
  | some t =>
    if s.sesState k t ≠ 1 then s
    else if beAt m 20 1 ≠ 0 then s.sesFail k t 7
    else
      let b := sesBase k t
      let s := if s.on b ETH_SES_CFG_START then s.setSes k t (fun x => { x with pos := (s.area (s.sesHead k t)).head }) else s
      ((s.p b ETH_SES_WIN_WINDOW (min (beAt m 16 4) 65535)).setSesState k t 2).sesSync k t

/-- ACK (R556). -/
def State.ackIn (s : State) (k : Nat) (m : List Byte) : State :=
  match (if sluiceOk m 4 32 then s.sesOf k m else none) with
  | none => s
  | some t =>
    if s.sesState k t ≠ 2 ∧ s.sesState k t ≠ 3 then s
    else
      let b := sesBase k t
      let cum := beAt m 8 8
      let held (n : Nat) : Bool := decide (n < cum) || (decide (cum < n) && decide (n ≤ cum + 64) && bitOf (beAt m 16 8) (n - cum - 1))
      let s := s.setSes k t (fun x => { x with segs := x.segs.filter (fun g => !held g.ssn) })
      let s := ((s.p64 b ETH_SES_CUM_LO cum).p b ETH_SES_WIN_WINDOW (min (beAt m 24 4) 65535)).sesSync k t
      if s.sesState k t = 3 ∧ (s.ses k t).segs.isEmpty then s.sesClosing k t 0 else s

/-- CLOSE_ACK. -/
def State.closeAckIn (s : State) (k : Nat) (m : List Byte) : State :=
  match (if sluiceOk m 6 20 then s.sesOf k m else none) with
  | none => s
  | some t => if s.sesState k t = 4 then s.setSesState k t 5 else s

/-! ### Segments (R554–R556) -/

/-- The payload of a segment, read afresh from the take store (R414, R555). -/
def State.segData (s : State) (h : Nat) (g : Segment) : List Byte :=
  let a := s.area h
  (List.range g.blocks).flatMap (fun i => s.hbmRead (s.blockAddr (a.base + (g.first + g.idx + i) % max 1 a.len)) 4096)

/-- A segment is sent (R551, R555): the read wakes the store. -/
def State.segSend (s : State) (k t : Nat) (g : Segment) (retx : Bool) : State :=
  let b := sesBase k t
  let h := s.sesHead k t
  let s := s.tsqWake
  let flags := b2n (g.idx == 0) + 2 * b2n (g.idx + g.blocks == g.nblk) + 4 * b2n retx
  let s := s.sesSend k t (sluiceMsg 3 (s.rd (b + ETH_SES_ID.off)) g.ssn (beBytes 8 g.fseq ++ beBytes 4 g.idx ++ beBytes 4 g.nblk ++
    beBytes 1 h ++ beBytes 1 flags ++ beBytes 1 g.blocks ++ [0] ++ beBytes 4 (s.rd (ETH k + ETH_SLUICE_DEV.off)) ++ zeros 8 ++ s.segData h g))
  let s := s.setSes k t (fun x => { x with segs := x.segs.map (fun (y : Segment) => if y.ssn = g.ssn then { y with sends := y.sends + 1, again := false } else y) })
  let a := s.area h
  let s := (List.range g.blocks).foldl (fun (s : State) i =>
    s.hbmCount 0 (0x44 + k) (s.blockAddr (a.base + (g.first + g.idx + i) % max 1 a.len)) 4096) s
  let s := if g.blocks = 0 then s else s.count { cls := 10, ev := 2, inst := some h, amount := g.blocks }
  let s := s.count { cls := 7, ev := 2, inst := some k }
  if retx then (s.addSat b ETH_SES_RETX 1).count { cls := 7, ev := 3, inst := some k } else s

/-- The session queues the next segment of its next frame and sends it (R554). -/
def State.segQueue (s : State) (k t : Nat) : State :=
  let b := sesBase k t
  let x := s.ses k t
  match s.sesFrame k t with
  | none => s
  | some f =>
    let window := min 4096 (s.g b ETH_SES_WIN_WINDOW)
    if window ≤ x.segs.length then s
    else
      let idx := if f.first = x.pos then x.idx else 0
      let n := min (1 + s.g b ETH_SES_CFG_BLOCKS) (f.nblk - idx)
      let ssn := s.g64 b ETH_SES_NEXT_LO
      let g : Segment := ⟨ssn, f.seq, f.first, f.nblk, idx, n, 0, false⟩
      let last_ := decide (f.nblk ≤ idx + n)
      let s := s.setSes k t (fun x => { x with segs := x.segs ++ [g], pos := if last_ then f.first + f.nblk else f.first, idx := if last_ then 0 else idx + n })
      let s := (s.p64 b ETH_SES_NEXT_LO (ssn + 1)).irqIf (x.segs.length + 1 == window) (ETH k) 3
      (s.segSend k t g false).sesSync k t

/-- A session with a port up sends its next segment: resends first, then new ones (R555). -/
def State.segNext (s : State) (k t : Nat) : State :=
  let st := s.sesState k t
  if !s.sesUp k t || !(st == 2 || st == 3) then s
  else match (s.ses k t).segs.find? (fun g => g.again) with
    | some g => s.segSend k t g true
    | none => if st = 2 then s.segQueue k t else s

/-- A segment's RTO passes without an acknowledgement (R556): it is sent again, or after eight sends it is lasting. -/
def State.segRto (s : State) (k t ssn : Nat) : State :=
  match (s.ses k t).segs.find? (fun (g : Segment) => g.ssn == ssn) with
  | none => s
  | some g =>
    let b := sesBase k t
    let lasting := decide (8 ≤ g.sends)
    let canMove := (s.sesAlt k t).isSome && !s.on b ETH_SES_STAT_ON_ALT
    let s := s.report ⟨208 + k, t, t, lasting, false, false, true⟩ (fun s => if canMove && !lasting then s.sesToAlt k t else s)
    if !lasting then s.segSend k t g true
    else if canMove then
      let s := (s.sesToAlt k t).setSes k t (fun x => { x with segs := x.segs.map (fun (y : Segment) => { y with sends := 0 }) })
      if s.sesUp k t then s.segSend k t g true else s
    else s.sesFail k t 8

/-- RTO expires for a session (R553, R556): in OPENING and CLOSING for its message, otherwise for a segment. A session with
no port up sends nothing and counts no sends (R562). -/
def State.sesRto (s : State) (k t ssn : Nat) : State :=
  let n := (s.ses k t).tries
  if !s.sesUp k t then s
  else match s.sesState k t with
    | 1 => if 8 ≤ n then s.sesFail k t 6 else s.sendOpen k t
    | 2 | 3 => s.segRto k t ssn
    | 4 => if 8 ≤ n then s.setSesState k t 5 else s.sendClose k t
    | _ => s

/-! ### Release (R423, R557, R558) -/

/-- TAIL_h moves, and sessions with HOLD 0 whose next frame was released go on at the new TAIL (R558). -/
def State.releaseTo (s : State) (h tail source : Nat) : State :=
  let frames := (s.area h).frames
  let s := s.moveTail h tail source
  forN 32 s (fun n s =>
    let k := n / 8
    let t := n % 8
    let x := s.ses k t
    if s.sessionOpen k t && s.sesHead k t == h && decide (x.pos < tail) then
      let gone := (frames.filter (fun f => decide (x.pos ≤ f.first) && decide (f.first < tail))).length
      let s := s.setSes k t (fun x => { x with pos := tail, idx := 0 })
      (((s.addSat (sesBase k t) ETH_SES_SKIP gone).irqIf (gone != 0) (ETH k) 7)).sesSync k t
    else s)

/-- How far a host RELEASE of area h may move TAIL_h (R558). -/
def State.releaseBound (s : State) (h : Nat) : Option Nat :=
  (List.range 32).foldl (fun (b : Option Nat) n =>
    let k := n / 8
    let t := n % 8
    let lim := if !(s.sessionOpen k t && s.sesHead k t == h) then none
      else if s.on (sesBase k t) ETH_SES_CFG_HOLD then (s.sesOldest k t).map (fun x => x.2)
      else (s.ses k t).segs.head?.map (fun g => g.first)
    match b, lim with
    | some x, some y => some (min x y)
    | none, l => l
    | b, none => b) none

/-- Where the HOLD sessions of head h let TAIL_h go (R557). -/
def State.holdTarget (s : State) (h : Nat) : Option Nat :=
  let l := (List.range 32).filter (fun n => s.sessionOpen (n / 8) (n % 8) && s.sesHead (n / 8) (n % 8) == h &&
    s.on (sesBase (n / 8) (n % 8)) ETH_SES_CFG_HOLD)
  if l.isEmpty then none
  else some (l.foldl (fun b n => match s.sesOldest (n / 8) (n % 8) with | some x => min b x.2 | none => b) (s.area h).head)

/-- A HOLD session releases what its recorder has (R557). -/
def State.holdRelease (s : State) (h : Nat) : State :=
  match s.holdTarget h with
  | none => s
  | some tgt =>
    if tgt ≤ (s.area h).tail || s.jnlFree == 0 then s
    else
      let s := s.releaseTo h tgt 1
      forN 4 s (fun k s => s.irqIf ((List.range 8).any (fun t => s.sessionOpen k t && s.sesHead k t == h &&
        s.on (sesBase k t) ETH_SES_CFG_HOLD)) (ETH k) 6)

/-! ### The recorder (R560) -/

/-- OPEN at the recorder, which answers with a window and a status. -/
def State.recOpen (s : State) (m : List Byte) (window status : Nat) : State :=
  if !sluiceOk m 1 36 then s
  else
    let id := beAt m 4 4
    let s := if status % 256 = 0 then { s with recorder := { s.recorder with sessions := (id, []) :: s.recorder.sessions.filter (fun x => x.1 != id) } } else s
    s.emit (.recorder (sluiceMsg 2 id 0 (beBytes 4 (min window 4096) ++ beBytes 1 status ++ [0, 0, 0])))

/-- The lowest SSN not held. -/
def cumOf (held : List Nat) : Nat := ((List.range (held.length + 1)).find? (fun n => !held.contains n)).getD 0

/-- DATA at the recorder: the segment is held once, and acknowledged (R76, R560). -/
def State.recData (s : State) (m : List Byte) (window : Nat) : State :=
  let blocks := beAt m 34 1
  let id := beAt m 4 4
  if !sluiceOk m 3 (52 + 4096 * blocks) || !(blocks == 1 || blocks == 2) then s
  else match s.recorder.sessions.find? (fun x => x.1 == id) with
    | none => s
    | some (_, held) =>
      let ssn := beAt m 8 8
      let key (i : Nat) : Nat × Nat × Nat × Nat := (beAt m 36 4, beAt m 32 1, beAt m 16 8, beAt m 24 4 + i)
      let r := s.recorder
      let fresh := (List.range blocks).filter (fun i => !r.held.any (fun y => (y.1, y.2.1, y.2.2.1, y.2.2.2.1) == key i))
      let held := if held.contains ssn then held else ssn :: held
      let r : Recorder := ⟨r.sessions.map (fun x => if x.1 = id then (id, held) else x),
        r.held ++ fresh.map (fun i => let y := key i; (y.1, y.2.1, y.2.2.1, y.2.2.2, slice m (48 + 4096 * i) 4096))⟩
      let cum := cumOf held
      let sack := (List.range 64).foldl (fun n i => if held.contains (cum + 1 + i) then n + 2 ^ i else n) 0
      { s with recorder := r }.emit (.recorder (sluiceMsg 4 id cum (beBytes 8 sack ++ beBytes 4 (min window 4096))))

/-- CLOSE at the recorder. -/
def State.recClose (s : State) (m : List Byte) : State :=
  if !sluiceOk m 5 24 then s
  else
    let id := beAt m 4 4
    { s with recorder := { s.recorder with sessions := s.recorder.sessions.filter (fun x => x.1 != id) } }.emit (.recorder (sluiceMsg 6 id 0 []))

/-! ### Commands -/

/-- RELEASE (R423, R558). -/
def execSlotRelease (slot : Fin 32) (s : State) : Host.Outcome State Fault Refusal :=
  .next (match s.runnable slot 4 with
    | none => s
    | some c =>
      let a := s.area c.area
      match a.targetKind c.blk with
      | 0 => ((s.setCmd c.csn (fun c => { c with entry := true })).endCmd c ⟨0, 0, a.tail, 0⟩).settleFua
      | 1 =>
        let tgt := max a.tail ((s.releaseBound c.area).elim c.blk (fun b => min b c.blk))
        if s.jnlFree = 0 then s.activate c
        else
          let s := (s.releaseTo c.area tgt 0).setCmd c.csn (fun c => { c with entry := true })
          (s.endCmd c ⟨0, 0, tgt, 0⟩).settleFua
      | _ => (s.endCmd c (plainDone 1 5)).settleFua)

/-- SES_OPEN (R553). -/
def execSesOpen (k : Fin 4) (t : Fin 8) (s : State) : Host.Outcome State Fault Refusal :=
  .next (s.hostReg (sesBase k t + 0x2114) 1 (fun s => s.sesCtrl k t 1))

/-- SES_CLOSE (R552). -/
def execSesClose (k : Fin 4) (t : Fin 8) (s : State) : Host.Outcome State Fault Refusal :=
  .next (s.hostReg (sesBase k t + 0x2114) 2 (fun s => s.sesCtrl k t 2))

/-- SES_ABORT (R559). -/
def execSesAbort (k : Fin 4) (t : Fin 8) (s : State) : Host.Outcome State Fault Refusal :=
  .next (s.hostReg (sesBase k t + 0x2114) 4 (fun s => s.sesCtrl k t 4))

/-- OPEN_ACK (R553). -/
def execSluiceOpenAck (k : Fin 4) (msg : List Byte) (s : State) : Host.Outcome State Fault Refusal := .next (s.openAckIn k msg)

/-- ACK (R556). -/
def execSluiceAck (k : Fin 4) (msg : List Byte) (s : State) : Host.Outcome State Fault Refusal := .next (s.ackIn k msg)

/-- CLOSE_ACK (R552). -/
def execSluiceCloseAck (k : Fin 4) (msg : List Byte) (s : State) : Host.Outcome State Fault Refusal := .next (s.closeAckIn k msg)

/-- SES_RTO_EXPIRY (R556). -/
def execSesRtoExpiry (k : Fin 4) (t : Fin 8) (ssn : Nat) (s : State) : Host.Outcome State Fault Refusal := .next (s.sesRto k t ssn)

/-- SES_SEGMENT_SEND (R555). -/
def execSesSegmentSend (k : Fin 4) (t : Fin 8) (s : State) : Host.Outcome State Fault Refusal := .next (s.segNext k t)

/-- SES_HOLD_RELEASE (R557). -/
def execSesHoldRelease (h : Fin 4) (s : State) : Host.Outcome State Fault Refusal := .next (s.holdRelease h)

/-- REC_OPEN (R560). -/
def execRecOpen (msg : List Byte) (window : Nat) (status : Byte) (s : State) : Host.Outcome State Fault Refusal :=
  .next (s.recOpen msg window status.toNat)

/-- DATA (R560). -/
def execRecData (msg : List Byte) (window : Nat) (s : State) : Host.Outcome State Fault Refusal := .next (s.recData msg window)

/-- CLOSE (R560). -/
def execRecClose (msg : List Byte) (s : State) : Host.Outcome State Fault Refusal := .next (s.recClose msg)

end Sys2Proof.Machine
end

