-- ==== Sys2Proof/Machine/NetPorts.lean ====
section
/-! DEFINITION. Ethernet ports coming up and going down, received frames, the host rings and the transparent clock
(15_network_offload.md, R528–R537, R562; 16_time_sync.md, R575–R580). -/

namespace Sys2Proof.Machine

/-! ### Ports up and down (R532, R562) -/

/-- The lanes of a port train where its interface trains (R122, R124). -/
def State.ethTrain (s : State) (k j : Nat) : State :=
  if s.enabled (ETH k) && s.portExists k j && s.g (ETH k) ETH_PORT_CFG_IF != 2 then
    (s.portLanes k j).foldl (fun s n => if s.on (lnb n) LNK_LANE_STAT_TRAINING || (s.lane n).waking then s else s.beginTraining n) s
  else s

/-- UP_j or REMOTE_FAULT written; a change is announced (R566). -/
def State.portStat (s : State) (k : Nat) (f : Fld) (v : Bool) : State :=
  (s.p (ETH k) f (b2n v)).irqIf (s.on (ETH k) f != v) (ETH k) 0

def upFld (j : Nat) : Fld := if j = 0 then ETH_PORT_STAT_UP_0 else ETH_PORT_STAT_UP_1

/-- A port goes down: sessions on it move to their alternate ports, and it trains again (R532, R562). -/
def State.portDown (s : State) (k j : Nat) : State :=
  if !s.portUp k j then s
  else
    let s := s.portStat k (upFld j) false
    let s := forN 32 s (fun n s =>
      let a := s.sesAlt (n / 8) (n % 8)
      if s.sessionOpen (n / 8) (n % 8) && s.sesPort (n / 8) (n % 8) == (k, j) && a.any (fun p => s.portUp p.1 p.2) then s.sesToAlt (n / 8) (n % 8)
      else s)
    (s.sndSyncAll).ethTrain k j

/-- Every lane of a port has come through its training and receives. -/
def State.lanesReady (s : State) (k j : Nat) : Bool :=
  (s.portLanes k j).all (fun n => s.halfNow n false == 0 && !s.on (lnb n) LNK_LANE_STAT_TRAINING && !s.on (lnb n) LNK_LANE_STAT_LOL &&
    (s.g (ETH k) ETH_PORT_CFG_IF == 2 || s.on (lnb n) LNK_LANE_STAT_TRAINED))

/-- A port comes up once its PCS is aligned; sessions without a port up go on there (R532, R562). -/
def State.portUpNow (s : State) (k j : Nat) : State :=
  if !s.enabled (ETH k) || !s.portExists k j || s.portUp k j || (s.ethUnit k).remote.contains j || !s.lanesReady k j then s
  else
    let s := forN 32 s (fun n s =>
      let e := n / 8
      let t := n % 8
      let ports := s.sesPri e t :: (s.sesAlt e t).toList
      if s.sessionOpen e t && ports.contains (k, j) && ports.all (fun p => !s.portUp p.1 p.2) then
        (if s.sesPri e t = (k, j) then s.p (sesBase e t) ETH_SES_STAT_ON_ALT 0 else s.sesToAlt e t)
      else s)
    ((s.portStat k (upFld j) true).fault (ETH k) j false).sndSyncAll

/-- A lane of a port is lasting (R532, R566). -/
def State.portLaneLost (s : State) (n : Nat) : State :=
  match s.portOfLane n with
  | none => s
  | some (k, j) => if s.enabled (ETH k) then (s.fault (ETH k) j true).portDown k j else s

/-- A remote fault begins or ends at a port (R532). -/
def State.remoteFault (s : State) (k j : Nat) (on : Bool) : State :=
  if !s.enabled (ETH k) || !s.portExists k j then s
  else
    let s := s.setEth k (fun u => { u with remote := if on then (if u.remote.contains j then u.remote else j :: u.remote) else u.remote.filter (fun x => x != j) })
    let s := s.portStat k ETH_PORT_STAT_REMOTE_FAULT (!(s.ethUnit k).remote.isEmpty)
    if on then s.portDown k j else s

/-- ENABLE is refused (R529). -/
def State.ethEnableRefused (s : State) (k : Nat) : Bool :=
  !s.on (ETH k) ETH_PORT_CFG_SPLIT && (List.range 12).any (fun q => s.g (LNK q) LNK_QUAD_CFG_ROLE == 1 && s.g (LNK q) LNK_QUAD_CFG_ETH_UNIT == k)

/-- The unit is enabled, or disabled: its ports begin to train, or go down. -/
def State.ethEnabled (s : State) (k : Nat) : State := (s.ethTrain k 0).ethTrain k 1
def State.ethDisabled (s : State) (k : Nat) : State := (s.portDown k 0).portDown k 1

/-- Writes refused while ENABLE or BUSY is 1 (R564). -/
def State.ethRefuses (s : State) (off : Nat) : Bool :=
  match owner off with
  | some ⟨.eth, k, rel⟩ => (rel == 0x100 || (0x108 ≤ rel && rel < 0x120) || (0x130 ≤ rel && rel < 0x13C) || (0x150 ≤ rel && rel < 0x15C)) &&
      (s.enabled (ETH k) || s.busy (ETH k))
  | _ => false

/-! ### Parsing a frame (R536, R578) -/

/-- Where the layers of a frame begin: Ethertype, layer 3, the UDP header where there is one. -/
structure Layers where
  type : Nat
  l3 : Nat
  udp : Option Nat
  deriving DecidableEq, Repr

def layers (f : List Byte) : Layers :=
  let tag := beAt f 12 2 == 0x8100
  let l3 := if tag then 18 else 14
  let type := beAt f (l3 - 2) 2
  let udp := if type = 0x0800 && beAt f l3 1 / 16 == 4 && beAt f (l3 + 9) 1 == 17 then some (l3 + 4 * (beAt f l3 1 % 16))
    else if type = 0x86DD && beAt f (l3 + 6) 1 == 17 then some (l3 + 40) else none
  ⟨type, l3, udp⟩

/-- Where the PTP message of a frame begins (R536). -/
def ptpAt (f : List Byte) : Option Nat :=
  let y := layers f
  if y.type = 0x88F7 then some y.l3
  else y.udp.filter (fun u => beAt f (u + 2) 2 == 319 || beAt f (u + 2) 2 == 320) |>.map (· + 8)

/-- A PTP message that the transparent clock forwards (R578). -/
def tcForwards (f : List Byte) (p : Nat) : Bool :=
  let v := beAt f (p + 1) 1
  v % 16 == 2 && v / 16 ≤ 1 && !([2, 3, 10].contains (beAt f p 1 % 16))

/-- The UDP checksum after 8 bytes change (R579), where it is not zero. -/
def sumAfter (old : Nat) (was now : List Byte) : Nat :=
  if old = 0 then 0 else inetSum ((65535 - old) + (4 * 65535 - onesSum was) + onesSum now)

/-- A residence time in units of 2^−16 ns added to correctionField (R579). -/
def corrected (f : List Byte) (p residence : Nat) : List Byte :=
  let was := slice f (p + 8) 8
  let now := beBytes 8 (ofBe was + residence)
  let f' := putBytes f (p + 8) now
  match (layers f).udp with
  | some u => putBytes f' (u + 6) (beBytes 2 (sumAfter (beAt f (u + 6) 2) was now))
  | none => f'

/-- The transparent clock forwards a message received at a port (R578–R580). residence gives, by half-port 2k + j, the time
that the message takes to its departure there. -/
def State.tcForward (s : State) (k j : Nat) (f : List Byte) (residence : List Nat) : State :=
  let part (q : Nat) : Bool := bitOf (s.g TIM TIM_TC_CFG_PORTS) q
  match ptpAt f with
  | none => s
  | some p =>
    if !s.on TIM TIM_TC_CFG_EN || !part (2 * k + j) || !tcForwards f p then s
    else forN 8 s (fun q s =>
      if q = 2 * k + j || !part q then s
      else
        let r := nth 0 residence q
        if !s.portUp (q / 2) (q % 2) || decide (100000 * 2 ^ 16 < r) then (s.addSat TIM TIM_TC_CNT_DROPPED 1).irq TIM 7
        else
          let l := if beAt f p 1 % 16 ≤ 1 then corrected f p r else f
          (s.ethSend (q / 2) (q % 2) l).addSat TIM TIM_TC_CNT_FORWARDED 1)

/-! ### The host rings (R537) -/

/-- An entry is written at ETH_HRX_TAIL, which then moves; one that meets a translation fault waits; one that fails is
discarded and counted. -/
def State.hrxStore (s : State) (k j : Nat) (entry : List Byte) : State :=
  let b := ETH k
  let a := s.g64 b ETH_HRX_BASE_LO_REG + 16384 * (s.g b ETH_HRX_TAIL % 2 ^ s.g b ETH_HRX_CFG_LOG2)
  match s.masterWrite (0x44 + k) (s.g b ETH_HRX_CFG_ASID) a entry with
  | (.ok, s) => ((s.setEth k (fun u => { u with rxWait := none })).p b ETH_HRX_TAIL (inc32 (s.g b ETH_HRX_TAIL))).irq b 4
  | (.waits, s) => s.setEth k (fun u => { u with rxWait := some (entry, j) })
  | (_, s) => (s.setEth k (fun u => { u with rxWait := none })).addSat (b + 0x20 * j) ETH_RX_DROP_FULL 1

/-- An entry that waited is tried again. -/
def State.hrxRetry (s : State) (k : Nat) : State :=
  match (s.ethUnit k).rxWait with
  | some (l, j) => s.hrxStore k j l
  | none => s

/-- A frame goes to the host receive ring with its timestamp (R537, R576). -/
def State.hrxFrame (s : State) (k j : Nat) (f : List Byte) : State :=
  let b := ETH k
  let s := s.hrxRetry k
  let used := (s.g b ETH_HRX_TAIL + 2 ^ 32 - s.g b ETH_HRX_HEAD) % 2 ^ 32
  if 2 ^ s.g b ETH_HRX_CFG_LOG2 ≤ used ∨ (s.ethUnit k).rxWait.isSome then s.addSat (b + 0x20 * j) ETH_RX_DROP_FULL 1
  else s.hrxStore k j (leBytes 2 f.length ++ leBytes 1 j ++ leBytes 1 1 ++ zeros 12 ++ s.time.bytes ++ zeros 4 ++ f)

/-- A received frame is classified (R531, R536). -/
def State.frameRx (s : State) (k j : Nat) (f : List Byte) (good : Bool) (residence : List Nat) : State :=
  let b := ETH k + 0x20 * j
  if !s.enabled (ETH k) || !s.portUp k j then s
  else
    let s := if good then s.addSat b ETH_RX_FRAMES 1 else s
    if !good || decide (s.maxFrame k < f.length + 4) then s.addSat b ETH_RX_DROP_ERR 1
    else
      let y := layers f
      let sluice := match y.udp with
        | some u => beAt f (u + 2) 2 == s.g (ETH k) ETH_SLUICE_UDP && (s.sesOf k (f.drop (u + 8))).isSome
        | none => false
      if y.type = 0x8808 then s.addSat b ETH_PAUSE 1
      else if sluice then
        let u := y.udp.getD 0
        let m := slice f (u + 8) (beAt f (u + 4) 2 - 8)
        ((s.openAckIn k m).ackIn k m).closeAckIn k m
      else (s.tcForward k j f residence).hrxFrame k j f

/-- A write of ETH_HTX_PROD (R564). -/
def State.htxWrite (s : State) (k v : Nat) : State :=
  let b := ETH k
  if 2 ^ s.g b ETH_HTX_CFG_LOG2 < (v + 2 ^ 32 - s.g b ETH_HTX_DONE) % 2 ^ 32 then s.refuse4 (b + 0x15C) else s.p b ETH_HTX_PROD v

/-- The oldest host frame is sent, or skipped (R537). -/
def State.htxSend (s : State) (k : Nat) : State :=
  let b := ETH k
  let done := s.g b ETH_HTX_DONE
  let asid := s.g b ETH_HTX_CFG_ASID
  let a := s.g64 b ETH_HTX_BASE_LO_REG + 16384 * (done % 2 ^ s.g b ETH_HTX_CFG_LOG2)
  let next (s : State) : State := s.p b ETH_HTX_DONE (inc32 done)
  if !s.enabled b || done == s.g b ETH_HTX_PROD then s
  else match s.masterRead (0x44 + k) asid a 32 with
    | (.waits, _, s) => s
    | (.ok, hdr, s) =>
      let len := leAt hdr 0 2
      let j := leAt hdr 2 1
      let flags := leAt hdr 3 1
      if 1 < j ∨ !s.portExists k j ∨ s.maxFrame k < len + 4 then next s
      else if !s.portUp k j then s
      else (match s.masterRead (0x44 + k) asid (a + 32) len with
        | (.waits, _, s) => s
        | (.ok, f, s) =>
          let s := s.ethSend k j f
          if bitOf flags 2 then
            let (_, s) := s.masterWrite (0x44 + k) asid (a + 16) s.time.bytes
            let (_, s) := s.masterWrite (0x44 + k) asid (a + 3) (leBytes 1 (flags ||| 1))
            (next s).irq b 5
          else next s
        | (_, _, s) => next s)
    | (_, _, s) => next s

/-! ### Commands -/

/-- PORT_UP (R532). -/
def execPortUp (k : Fin 4) (j : Fin 2) (s : State) : Host.Outcome State Fault Refusal := .next (s.portUpNow k j)

/-- REMOTE_FAULT (R532). -/
def execRemoteFault (k : Fin 4) (j : Fin 2) (s : State) : Host.Outcome State Fault Refusal := .next (s.remoteFault k j true)

/-- REMOTE_FAULT_CLEAR (R532). -/
def execRemoteFaultClear (k : Fin 4) (j : Fin 2) (s : State) : Host.Outcome State Fault Refusal := .next (s.remoteFault k j false)

/-- ETH_FRAME_RX (R536): the frame without its FCS, whether that was good, the residence times of the transparent clock, and
the codewords that the RS-FEC corrected and could not correct since the frame before (R530). -/
def execEthFrameRx (k : Fin 4) (j : Fin 2) (frame : List Byte) (good : Bool) (residence : List Nat) (corr uncorr : Nat) (s : State) :
    Host.Outcome State Fault Refusal :=
  let b := ETH k + 0x20 * j
  .next (((s.frameRx k j frame good residence).addSat b ETH_FEC_CORR corr).addSat b ETH_FEC_UNCORR uncorr)

/-- HTX_PROD_WRITE (R537). -/
def execHtxProdWrite (k : Fin 4) (value : Word) (s : State) : Host.Outcome State Fault Refusal :=
  .next (s.hostReg (ETH k + 0x15C) value.toNat (fun s => s.htxWrite k value.toNat))

/-- HTX_FRAME_SENT (R537). -/
def execHtxFrameSent (k : Fin 4) (s : State) : Host.Outcome State Fault Refusal := .next (s.htxSend k)

/-! ### Lane events and their owners (R88, R90, R108–R110, R118, R125, R131, R132) -/

/-- A Causeway search that has come to its end is told to its link. -/
def State.searchTold (s : State) (n : Nat) (r : Option Bool) : State :=
  match r with
  | some ok => if s.cwyLane n then s.searchEnd n ok else s
  | none => s

/-- A preset attempt fails (R119). -/
def State.attemptFailed (s : State) (n : Nat) : State :=
  let r := s.attemptFail n
  r.1.searchTold n (if r.2 then some false else none)

/-- An Ethernet lane's lock or codewords are lost (R88): lasting, and its port goes down. -/
def State.ethLaneLost (s : State) (n detail : Nat) : State :=
  match s.portOfLane n with
  | none => s
  | some (k, _) =>
    if !s.enabled (ETH k) then s
    else (s.report { src := n, unit := 0, detail := detail, lasting := true } (fun s => s)).portLaneLost n

/-- A detector asserts on a lane and its owner is told (R131, R132). settling: within the first 100 µs of an attempt (R119). -/
def State.detected (s : State) (n : Nat) (lol settling : Bool) : State :=
  let (s, news) := s.detect n lol
  if !news then s
  else if s.on (lnb n) LNK_LANE_STAT_TRAINING then
    (if s.cwyLane n && !settling && (s.lane n).trying.isSome then s.attemptFailed n else s)
  else match s.quadOwner (n / 4) with
    | (1, _) => let (h, j) := headLane n; s.laneLost h j (if lol then 2 else 1)
    | (2, _) => if lol then s.ethLaneLost n 0x20 else s
    | _ => s

/-- LOS_ASSERT (R131). -/
def execLosAssert (lane : Fin 96) (settling : Bool) (s : State) : Host.Outcome State Fault Refusal := .next (s.detected lane false settling)

/-- LOL_ASSERT (R131). -/
def execLolAssert (lane : Fin 96) (settling : Bool) (s : State) : Host.Outcome State Fault Refusal := .next (s.detected lane true settling)

/-- PRESET_ATTEMPT_END (R118): whether the check met an error, and the margin test's eye height and width. -/
def execPresetAttemptEnd (lane : Fin 96) (errors : Bool) (height width : Byte) (s : State) : Host.Outcome State Fault Refusal :=
  .next (let r := s.attemptEnd lane errors height.toNat width.toNat
    r.1.searchTold lane r.2)

/-- ETH_LANE_TRAINING_END (R125). -/
def execEthLaneTrainingEnd (lane : Fin 96) (pass : Bool) (s : State) : Host.Outcome State Fault Refusal :=
  .next (if !s.on (lnb lane) LNK_LANE_STAT_TRAINING || s.cwyLane lane || (s.quadOwner (lane / 4)).1 != 2 then s
    else if pass then s.trainPass lane 0
    else
      let s := s.trainFail lane
      match s.portOfLane lane with
      | some (k, j) => if s.enabled (ETH k) then (s.fault (ETH k) j true).beginTraining lane else s
      | none => s)

/-- ETH_FEC_FAILURE (R88): uncorrectable codewords for 1 ms. -/
def execEthFecFailure (lane : Fin 96) (uncorr : Nat) (s : State) : Host.Outcome State Fault Refusal :=
  .next (match s.portOfLane lane with
    | some (k, j) => if s.portUp k j then (s.addSat (ETH k + 0x20 * j) ETH_FEC_UNCORR uncorr).ethLaneLost lane 0x60 else s
    | none => s)

/-- A quad with no locked PLL stops its lanes: each receiver in P0 asserts LOL (R110). -/
def State.quadStops (s : State) (q : Nat) : State := forN 4 s (fun l s => s.detected (4 * q + l) true false)

/-- PLL_LOCK_LOSS (R108, R110): of the PLL that clocks the quad, or of the reserve. -/
def execPllLockLoss (q : Fin 24) (pllB : Bool) (s : State) : Host.Outcome State Fault Refusal :=
  .next (let b := LNK q
    let mine := if pllB then LNK_QUAD_STAT_PLL_B_LOCK else LNK_QUAD_STAT_PLL_A_LOCK
    let other := if pllB then LNK_QUAD_STAT_PLL_A_LOCK else LNK_QUAD_STAT_PLL_B_LOCK
    if !s.powered b || !s.on b mine then s
    else
      let s := (s.p b mine 0).setQuad q (fun x => { x with relock := x.relock ++ [b2n pllB] })
      if s.g b LNK_QUAD_STAT_PLL_ACTIVE != b2n pllB then s
      else if s.on b other then (s.p b LNK_QUAD_STAT_PLL_ACTIVE (b2n (!pllB))).irq b 16
      else s.quadStops q)

/-- PLL_RELOCK_END (R110): the PLL has held lock for 10 ms, or has failed. -/
def execPllRelockEnd (q : Fin 24) (pllB locked : Bool) (s : State) : Host.Outcome State Fault Refusal :=
  .next (let b := LNK q
    if !(s.quad q).relock.contains (b2n pllB) then s
    else
      let s := s.setQuad q (fun x => { x with relock := x.relock.filter (fun n => n != b2n pllB) })
      let s := if locked then
          (let s := s.p b (if pllB then LNK_QUAD_STAT_PLL_B_LOCK else LNK_QUAD_STAT_PLL_A_LOCK) 1
           let other := if pllB then LNK_QUAD_STAT_PLL_A_LOCK else LNK_QUAD_STAT_PLL_B_LOCK
           if s.on b other then s else s.p b LNK_QUAD_STAT_PLL_ACTIVE (b2n pllB))
        else s.fault b (b2n pllB) true
      s.report { src := 96 + q, unit := 0, detail := b2n pllB, lasting := !locked } (fun s => s))

end Sys2Proof.Machine
end

