-- ==== Sys2Proof/Machine/Codec.lean ====
section
/-! DEFINITION. The codec (14_codec.md): contexts and their configuration (R499, R500), submission (R501–R505), the encoder's
source, rate control and hard cap (R507–R513), decode jobs (R514–R518), priorities and pre-emption (R519–R521), completions
(R504, R506), aborts and resets (R522, R523). The bits that the standards leave to the encoder are free, and what a stream
comes to under its standard is the environment's. -/

namespace Sys2Proof.Machine

/-- The base that places the registers of context c (R525). -/
def ctxBase (c : Nat) : Nat := CTX4 + 0x1000 * (c / 4) + 0x200 * (c % 4)

def State.cx (s : State) (c : Nat) : CodCtx := nth CodCtx.init s.cod.ctx c
def State.setCx (s : State) (c : Nat) (f : CodCtx → CodCtx) : State := { s with cod := { s.cod with ctx := upd s.cod.ctx c f } }

/-- A job of a context replaced by a function of itself. -/
def State.setJob (s : State) (c seq : Nat) (f : CodJob → CodJob) : State :=
  s.setCx c (fun x => { x with jobs := x.jobs.map (fun j => if j.seq = seq then f j else j) })

/-- The oldest job of a context whose outcome is not decided. -/
def CodCtx.current (x : CodCtx) : Option CodJob := x.jobs.find? (fun j => j.done.isNone)

/-- Fields of a descriptor (R503): KIND, FLAGS, SLOT_MAP_OUT, TARGETS. -/
def CodJob.kind (j : CodJob) : Nat := leAt j.desc 0 1
def CodJob.fl (j : CodJob) : Nat := leAt j.desc 1 1
def CodJob.encodes (j : CodJob) : Bool := j.kind == 1
def CodJob.slotMapOut (j : CodJob) : List Nat := (slice j.desc 0x58 8).map (fun b => b.toNat)
def CodJob.targets (j : CodJob) : List Nat := ((slice j.desc 0x20 4).map (fun b => b.toNat)).filter (fun b => b != 0xFF)

/-! ### Configuration (R499, R500) -/

/-- The W_MAX of a pixel engine's plan record. -/
def State.pixMax (s : State) (e : Nat) : Nat := (s.srec 11 e).elim 0 (fun r => r.p0)

/-- An engine is powered and enabled and has its plan record (COD_ENG_AVAIL). -/
def State.engineAvail (s : State) (e : Nat) : Bool :=
  s.powered (COD e) && s.enabled (COD e) && (s.srec (if e < 2 then 10 else 11) (if e < 2 then e else e)).isSome

/-- The size limits of R494. -/
def codSizeOk (w h : Nat) : Bool :=
  64 ≤ w && w ≤ 16384 && 64 ≤ h && h ≤ 16384 && w % 2 == 0 && h % 2 == 0 && w * h ≤ 35651584

/-- COD_LIVE_LOAD: CTX_RATE over the live contexts. -/
def State.liveLoad (s : State) : Nat :=
  (List.range 64).foldl (fun n c => if s.g (ctxBase c) CTX_CFG_MODE != 0 && s.on (ctxBase c) CTX_CFG_LIVE then n + s.g (ctxBase c) CTX_RATE else n) 0

/-- The first broken rule of R500 for a context that would run under the value v of CTX_CFG. -/
def State.ctxReason (s : State) (c v : Nat) : Nat :=
  let b := ctxBase c
  let st := s.g64 b CTX_STATE_LO_REG
  let rob := s.g64 b CTX_ROB_LO_REG
  let robLen := s.g b CTX_ROB_SIZE * 2 ^ 20
  let w := s.g b CTX_GEOM_MAX_W
  let h := s.g b CTX_GEOM_MAX_H
  let n := s.g b CTX_PB_CFG_PB_COUNT
  let pb := s.g64 b CTX_PB_BASE_LO_REG
  let stride := s.g b CTX_PB_CFG_PB_STRIDE * 65536
  let pitch := s.g b CTX_PB_PITCH
  let plane := s.g b CTX_PB_PLANE
  let mv := s.g b CTX_PB_MV
  let cpl := s.g64 b CTX_CPL_LO_REG
  let cplLen := 64 * 2 ^ s.g b CTX_CPL_CFG_CPL_LOG2
  let std := fld v 2 1
  let level := s.g b CTX_ENC_0_LEVEL
  let cols := s.g b CTX_ENC_0_TILE_COLS
  let rows := s.g b CTX_ENC_0_TILE_ROWS
  let pow (x : Nat) : Bool := [1, 2, 4, 8, 16].contains x
  let meet (a n a' n' : Nat) : Bool := decide (a < a' + n') && decide (a' < a + n)
  if !(st % 2 ^ 20 == 0 && s.hbmUsable st (2 ^ 20)) then 1
  else if !(s.hbmUsable rob robLen && !meet rob robLen st (2 ^ 20) && decide (2 ≤ Config.robRows (s.g b CTX_ROB_SIZE) w)) then 2
  else if !(decide (2 ≤ n) && decide (n ≤ 12) && decide (2 * w ≤ pitch) && decide (pitch * h ≤ plane) && decide (plane + pitch * h ≤ mv) &&
      decide (mv + 16 * cdiv w 16 * cdiv h 16 ≤ stride) && s.hbmUsable pb (n * stride) && !meet pb (n * stride) st (2 ^ 20) &&
      !meet pb (n * stride) rob robLen && !meet pb (n * stride) cpl cplLen) then 3
  else if !(codSizeOk w h && (List.range 2).any (fun i => s.engineAvail (2 + i) && decide (w ≤ s.pixMax (2 + i)))) then 4
  else if bitOf v 3 && !(decide (1 ≤ s.g b CTX_RATE) && decide (s.g b CTX_RATE ≤ 4250) && decide (s.liveLoad + s.g b CTX_RATE ≤ 8500)) then 5
  else if !(addrRegion cpl cplLen == some 2 || s.hbmUsable cpl cplLen) then 6
  else if fld v 0 2 = 1 && !(
      (if std = 0 then [30, 60, 63, 90, 93, 120, 123, 150, 153, 156, 180, 183, 186].contains level && decide (1 ≤ cols) && decide (cols ≤ 20) &&
          decide (1 ≤ rows) && decide (rows ≤ 22)
        else decide (level ≤ 18) && s.on b CTX_ENC_0_CTB && pow cols && pow rows) &&
      !(s.on b CTX_ENC_0_DEPTH8 && std == 1)) then 7
  else 0

/-- CTX_STAT.QUEUED, RUNNING, WAITING and CTX_PB_VALID follow the context. -/
def State.cxSync (s : State) (c : Nat) : State :=
  let b := ctxBase c
  let x := s.cx c
  let s := (s.p b CTX_STAT_QUEUED x.jobs.length).p b CTX_STAT_RUNNING (b2n (s.cod.engine.any (fun e => e == some c)))
  let s := s.p b CTX_STAT_WAITING (b2n (x.current.any (fun j => j.waits)))
  s.p b CTX_PB_VALID ((List.range 12).foldl (fun n k => if x.map.contains k || x.held.contains k then n + 2 ^ k else n) 0)

/-- A write of CTX_CFG (R500). -/
def State.ctxModeWrite (s : State) (c v : Nat) : State :=
  let b := ctxBase c
  let off := b + CTX_CFG.off
  let mode := s.g b CTX_CFG_MODE
  if mode != 0 then
    (if fld v 0 2 != 0 || s.g b CTX_NEXT_SEQ != s.g b CTX_DONE_SEQ then s.refuse4 off
     else
      let s := s.plainWrite off v
      ((s.setCx c (fun _ => CodCtx.init)).p CTX4 COD_LIVE_LOAD s.liveLoad).cxSync c)
  else if fld v 0 2 = 0 then s.plainWrite off v
  else
    let r := s.ctxReason c v
    let s := s.p b CTX_CHECK_REASON r
    if r ≠ 0 then s.refuse4 off
    else
      let s := s.plainWrite off v
      let st := s.g64 b CTX_STATE_LO_REG
      let old := ((s.cod.left.find? (fun x => x.1 == st)).elim [] (fun x => x.2)).map (fun (j : CodJob) => if j.done.isNone then { j with done := some (2, 0) } else j)
      let s := { s with cod := { s.cod with left := s.cod.left.filter (fun x => x.1 != st) } }
      let s := s.setCx c (fun _ => { CodCtx.init with jobs := old })
      let s := match old.getLast? with
        | some j => (s.p b CTX_NEXT_SEQ (inc32 j.seq)).p b CTX_DONE_SEQ (old.headD j).seq
        | none => s
      let s := (s.hbmSpan st (2 ^ 20) false).hbmSpan (s.g64 b CTX_ROB_LO_REG) (s.g b CTX_ROB_SIZE * 2 ^ 20) false
      (s.p CTX4 COD_LIVE_LOAD s.liveLoad).cxSync c

/-- A configuration register is written only while MODE is OFF (R500). -/
def State.ctxRefuses (s : State) (off : Nat) : Bool :=
  match owner off with
  | some ⟨.ctx, _, rel⟩ =>
    let po := rel % 0x1000
    decide (0x100 ≤ po) && decide (po < 0x900) && decide (4 ≤ (po - 0x100) % 0x200) && decide ((po - 0x100) % 0x200 < 0x60) &&
      s.g (ctxBase (4 * (rel / 0x1000) + (po - 0x100) / 0x200)) CTX_CFG_MODE != 0
  | _ => false

/-! ### Descriptors (R502–R505) -/

/-- The size of the coded picture, after rotation. -/
def CodJob.codedW (j : CodJob) : Nat := if leAt j.desc 0x35 1 % 2 = 1 then leAt j.desc 0x46 2 else leAt j.desc 0x44 2
def CodJob.codedH (j : CodJob) : Nat := if leAt j.desc 0x35 1 % 2 = 1 then leAt j.desc 0x44 2 else leAt j.desc 0x46 2

/-- The side of a coding tree unit or superblock of a context. -/
def State.ctuSide (s : State) (c : Nat) : Nat := if s.on (ctxBase c) CTX_ENC_0_CTB || s.on (ctxBase c) CTX_CFG_STD then 64 else 32

/-- M_r (R512) and the number of rows of an encode job. -/
def State.minRowBits (s : State) (c : Nat) (j : CodJob) (intra : Bool) : Nat :=
  let av1 := s.on (ctxBase c) CTX_CFG_STD
  let per := if av1 then (if intra then 96 else 64) else (if intra then 48 else 24)
  cdiv j.codedW (s.ctuSide c) * per + 32

def State.encRows (s : State) (c : Nat) (j : CodJob) : Nat := cdiv j.codedH (s.ctuSide c)

/-- A buffer that the codec may read or write (R26–R28), outside the take-store and journal regions. -/
def State.codBuffer (s : State) (a n : Nat) : Bool := addrRegion a n == some 2 || s.hbmUsable a n

/-- The slot map once every accepted job completes DONE (R505). -/
def CodCtx.projected (x : CodCtx) : List Nat :=
  ((x.jobs.filter (fun j => j.encodes)).getLast?).elim x.map (fun j => j.slotMapOut)

/-- Buffers that will not be free in the projected state (R514). -/
def CodCtx.taken (x : CodCtx) : List Nat := x.map ++ x.held ++ x.jobs.flatMap (fun j => if j.kind == 2 then j.targets else [])

/-- All of some bytes are zero. -/
def allZero (l : List Byte) (at_ n : Nat) : Bool := (slice l at_ n).all (fun b => b == 0)

/-- The first broken rule of R502 for an encode descriptor, after MODE. -/
def State.encReason (s : State) (c : Nat) (j : CodJob) : Nat :=
  let b := ctxBase c
  let x := s.cx c
  let d := j.desc
  let n (o k : Nat) : Nat := leAt d o k
  let geom := n 0x35 1
  let fmt := n 0x34 1
  let chroma := fld geom 4 2
  let rot := fld geom 0 2
  let ptype := n 0x48 1
  let proj := x.projected
  let target := n 0x49 1
  let l0 := (slice d 0x4C 4).map (fun b => b.toNat)
  let l1 := (slice d 0x50 2).map (fun b => b.toNat)
  let out := j.slotMapOut
  let pbs := s.g b CTX_PB_CFG_PB_COUNT
  let holds (k : Nat) : Bool := proj.contains k
  let refOk (k : Nat) : Bool := k == 0xFF || (decide (k < 8) && nth 0xFF proj k != 0xFF)
  let av1 := s.on b CTX_CFG_STD
  let between (x : Int) : Bool := if av1 then decide (0 ≤ x) && decide (x ≤ 255) else decide (-12 ≤ x) && decide (x ≤ 51)
  let pitch := n 0x2C 4
  let plane := n 0x30 4
  let srcLen := (if fmt = 4 ∨ fmt = 5 then plane + pitch * (if fmt = 5 then (n 0x42 2 + 1) / 2 else n 0x42 2) else pitch * n 0x42 2)
  let hdr := if bitOf j.fl 1 then 4096 else 512
  let rows := s.encRows c j
  if !([0, 1, 4, 5, 6].contains fmt && chroma != 3 && !bitOf geom 3 && geom < 64 && ptype ≤ 3 && n 0x4A 1 ≤ 1 && j.fl < 8 &&
      pitch % 256 == 0 && plane % 256 == 0 && n 0x36 2 < 2 ^ 13 && n 0x18 4 == 0 &&
      between (sint 16 (n 0x52 2)) && between (sint 16 (n 0x54 2)) && between (sint 16 (n 0x56 2)) &&
      allZero d 2 6 && allZero d 0x1C 4 && allZero d 0x6C 4 && allZero d 0x78 8) then 3
  else if !(decide (n 0x38 2 + n 0x3C 2 ≤ n 0x40 2) && decide (n 0x3A 2 + n 0x3E 2 ≤ n 0x42 2) &&
      decide (n 0x3C 2 ≤ 4 * n 0x44 2) && decide (n 0x44 2 ≤ n 0x3C 2) && decide (n 0x3E 2 ≤ 4 * n 0x46 2) && decide (n 0x46 2 ≤ n 0x3E 2) &&
      codSizeOk j.codedW j.codedH && decide (j.codedW ≤ s.g b CTX_GEOM_MAX_W) && decide (j.codedH ≤ s.g b CTX_GEOM_MAX_H) &&
      !(rot % 2 == 1 && chroma == 1)) then 4
  else if !(s.codBuffer (n 0x10 8) srcLen && s.codBuffer (n 0x20 8) (n 0x28 4) && decide (target < pbs) && !holds target && !x.held.contains target &&
      (l0 ++ l1).all refOk && out.all (fun k => k == 0xFF || k == target || holds k) &&
      (ptype != 0 || ((l0 ++ l1).all (fun k => k == 0xFF) && out.all (fun k => k == 0xFF || k == target)))) then 5
  else if !(decide (n 0x64 4 ≤ n 0x68 4) && decide (4096 + rows * s.minRowBits c j (ptype ≤ 1) ≤ n 0x68 4) && decide (cdiv (n 0x68 4) 8 + hdr ≤ n 0x28 4)) then 6
  else if !((match fmt with
      | 4 | 6 => (chroma == 1 && !av1) || chroma == 0
      | 5 => chroma == 0
      | _ => chroma == 2 && av1) && (!s.on b CTX_ENC_0_DEPTH8 || chroma == 0)) then 7
  else 0

/-- The first broken rule of R502 for a decode, compatibility or drain descriptor, after MODE. -/
def State.decReason (s : State) (c : Nat) (j : CodJob) : Nat :=
  let d := j.desc
  let n (o k : Nat) : Nat := leAt d o k
  let x := s.cx c
  let pbs := s.g (ctxBase c) CTX_PB_CFG_PB_COUNT
  let drain := j.kind == 4
  if !(j.fl < 8 && allZero d 2 6 && allZero d 0x1C 4 && allZero d 0x24 4 && allZero d 0x34 0x4C && (j.kind == 3 || allZero d 0x28 12) &&
      (if drain then n 0x10 8 == 0 && n 0x18 4 == 0 else n 0x18 4 != 0)) then 3
  else if !((drain || s.codBuffer (n 0x10 8) (n 0x18 4)) && (j.kind != 3 || s.codBuffer (n 0x28 8) (n 0x30 4)) &&
      j.targets.all (fun k => decide (k < pbs) && (j.kind == 3 || !x.taken.contains k))) then 5
  else 0

/-- The reason a submission is refused for; 0 accepts it. -/
def State.jobReason (s : State) (c : Nat) (j : CodJob) : Nat :=
  let mode := s.g (ctxBase c) CTX_CFG_MODE
  if 16 ≤ (s.cx c).jobs.length then 1
  else if !(match j.kind with | 1 => mode == 1 | 2 | 4 => mode == 2 | 3 => mode == 3 | _ => mode != 0) then 2
  else match j.kind with
    | 1 => s.encReason c j
    | 2 | 3 | 4 => s.decReason c j
    | _ => 3

/-- A fresh job. -/
def newJob (seq : Nat) (desc : List Byte) (proj : List Nat) (acc ms : Nat) : CodJob :=
  ⟨seq, desc, proj, acc, false, 0, 0, 0, 0, 0, 0, [], 0, 0, false, 0, 0, [], none, 0, 0, [], ms, false, none, 0⟩

/-- A submission is decided (R501, R502). -/
def State.submitDecide (s : State) (c : Nat) : State :=
  let b := ctxBase c
  match s.masterRead 0x34 (s.g b CTX_CFG_ASID) (s.g64 b CTX_SUBMIT_LO_REG) 128 with
  | (.waits, _, s) => s
  | (a, d, s) =>
    let seq := s.g b CTX_NEXT_SEQ
    let j := newJob seq d (s.cx c).projected s.cod.acc s.time.ms
    let r := if a != .ok then 8 else s.jobReason c j
    let s := (s.p b CTX_SUBMIT_STAT_PENDING 0).p b CTX_SUBMIT_STAT_REASON r
    if r ≠ 0 then (s.p b CTX_SUBMIT_STAT_RESULT 2).irq CTX4 1
    else
      let s := { s with cod := { s.cod with acc := s.cod.acc + 1 } }.setCx c (fun x => { x with jobs := x.jobs ++ [j] })
      ((s.p b CTX_SUBMIT_STAT_RESULT 1).p b CTX_NEXT_SEQ (inc32 seq)).cxSync c

/-- A write of CTX_SUBMIT (R501): refused while a submission is being decided. -/
def State.ctxSubmit (s : State) (c v : Nat) : State :=
  let b := ctxBase c
  if !bitOf v 0 then s
  else if s.on b CTX_SUBMIT_STAT_PENDING then s.refuse4 (b + CTX_SUBMIT.off)
  else (s.p b CTX_SUBMIT_STAT_PENDING 1).submitDecide c

/-! ### Outcomes and completions (R504, R506) -/

/-- Engines that serve a context leave it. -/
def State.enginesLeave (s : State) (c : Nat) : State :=
  let s := (List.range 4).foldl (fun s e => if nth none s.cod.engine e = some c then (s.p (COD e) COD_ENG_STAT_RUNNING 0).workEnds (COD e) else s) s
  { s with cod := { s.cod with engine := s.cod.engine.map (fun e => if e = some c then none else e) } }

/-- The buffers that a job writes: their contents are what the codec made of them, which the manual leaves open. -/
def State.pbSpan (s : State) (c k : Nat) : State :=
  let b := ctxBase c
  let n := s.g b CTX_PB_CFG_PB_STRIDE * 65536
  if k < s.g b CTX_PB_CFG_PB_COUNT then s.hbmSpan (s.g64 b CTX_PB_BASE_LO_REG + k * n) n false else s

/-- A job's outcome is decided (R506): DONE replaces the slot map. The buffers it wrote hold what the codec made of them; a DRAIN
writes none. -/
def State.codDecide (s : State) (c : Nat) (j : CodJob) (outcome detail : Nat) : State :=
  let s := s.enginesLeave c
  let s := s.setJob c j.seq (fun j => { j with done := some (outcome, detail), waits := false })
  let s := if j.started then (if j.encodes then [leAt j.desc 0x49 1] else if j.kind = 4 then [] else j.targets).foldl (fun s k => s.pbSpan c k) s else s
  let s := if outcome ≠ 0 then s
    else s.setCx c (fun x =>
      let u := j.unit
      let outs := u.elim [] (fun u => u.out)
      if j.kind = 3 then x
      else if j.kind = 4 then { x with shown := [], held := x.held ++ x.shown.map (fun y => y.2) }
      else { x with map := j.map, held := x.held ++ outs,
                    shown := (x.shown ++ (if j.encodes then [] else (j.targets.take (u.elim 0 (fun u => u.frames))).map (fun k => (u.elim 0 (fun u => u.order), k)))).filter
                      (fun y => !outs.contains y.2) })
  let s := if outcome = 1 then (s.addSat (ctxBase c) CTX_ERR_CNT_FAILED 1).irq CTX4 3 else s
  s.cxSync c

/-- Insertion of a decoded picture in order of ORDER. -/
def insertShown (x : Nat × Nat) : List (Nat × Nat) → List (Nat × Nat)
  | [] => [x]
  | y :: r => if x.1 < y.1 then x :: y :: r else y :: insertShown x r

/-- The pictures that a DRAIN outputs, in output order (R514). -/
def CodCtx.drained (x : CodCtx) : List Nat := (x.shown.foldl (fun l y => insertShown y l) []).map (fun y => y.2)

/-- A completion record (R504). -/
def State.codRecord (_s : State) (c : Nat) (j : CodJob) (outs : List Nat) : List Byte :=
  let (outcome, detail) := j.done.getD (0, 0)
  let d := j.desc
  let ok := outcome == 0
  let u := j.unit
  let enc := j.encodes
  let order := if enc then leAt d 0x60 4 else u.elim 0 (fun u => u.order)
  let skipped := u.any (fun u => u.skipped)
  let buf := if enc then leAt d 0x49 1 else if skipped || j.kind == 4 then 0xFF else j.targets.headD 0xFF
  let ptype := if enc then (if bitOf j.flags 2 then 0 else leAt d 0x48 1) else u.elim 0 (fun u => u.ptype)
  let mean := if enc then ofSint 16 (j.qSum * 16 / (max 1 j.first : Nat)) else u.elim 0 (fun u => u.meanQp)
  let flags := j.flags ||| (if j.preempts ≠ 0 then 16 else 0)
  let r := leBytes 4 j.seq ++ leBytes 1 outcome ++ leBytes 1 detail ++ leBytes 1 c ++ leBytes 1 j.kind ++ slice d 8 8 ++
    leBytes 4 j.bytes ++ leBytes 4 flags ++ leBytes 4 order ++ leBytes 1 (if ok then buf else 0xFF) ++ leBytes 1 ptype ++ leBytes 2 mean ++
    leBytes 2 j.second ++ leBytes 2 j.minRows ++ leBytes 2 j.recodes ++ leBytes 2 j.preempts ++ leBytes 4 (u.elim 0 (fun u => u.concealed)) ++ zeros 4 ++
    (List.range 8).flatMap (fun k => leBytes 1 (if ok then nth 0xFF outs k else 0xFF)) ++ zeros 4
  r ++ leBytes 4 (crc32c r)

/-- The oldest job is posted once its outcome is decided and the ring has room (R504, R434). -/
def State.codPost (s : State) (c : Nat) : State :=
  let b := ctxBase c
  match (s.cx c).jobs with
  | [] => s
  | j :: _ =>
    let tail := s.g b CTX_CPL_TAIL
    let log2 := s.g b CTX_CPL_CFG_CPL_LOG2
    if j.done.isNone || decide (2 ^ log2 ≤ (tail + 2 ^ 32 - s.g b CTX_CPL_HEAD) % 2 ^ 32) then s
    else
      let r := s.codRecord c j (j.unit.elim [] (fun u => u.out))
      match s.masterWrite 0x34 (s.g b CTX_CPL_CFG_ASID) (s.g64 b CTX_CPL_LO_REG + 64 * (tail % 2 ^ log2)) r with
      | (.waits, s) => s
      | (_, s) =>
        let s := (s.setCx c (fun x => { x with jobs := x.jobs.drop 1 })).p b CTX_CPL_TAIL (inc32 tail)
        let s := s.p b CTX_DONE_SEQ (inc32 j.seq)
        let s := if bitOf j.fl 0 then
            (let f := if c < 32 then COD_CPL_PEND_LO else COD_CPL_PEND_HI
             let was := s.gBit CTX4 f (c % 32)
             (s.pBit CTX4 f (c % 32) true).irqIf (!was) CTX4 0) else s
        s.cxSync c

/-! ### The encoder's source (R507–R509) -/

/-- Sixteenth-phase position of an output index (R509). -/
def encPos (j inSize outSize : Nat) : Int × Nat :=
  let P : Int := ((2 * j + 1) * inSize * 2 ^ 24 / (2 * outSize) : Nat) - 2 ^ 23
  let i := P / 2 ^ 24
  let ph := ((P % 2 ^ 24).toNat + 2 ^ 19) / 2 ^ 20
  if ph = 16 then (i + 1, 0) else (i, ph)

/-- The four weights at phase p, times 2 · 16³ (R509). -/
def encWeights (p : Nat) : List Int :=
  let t : Int := p
  [-(t ^ 3) + 32 * t ^ 2 - 256 * t, 3 * t ^ 3 - 80 * t ^ 2 + 8192, -3 * t ^ 3 + 64 * t ^ 2 + 256 * t, t ^ 3 - 16 * t ^ 2]

/-- A scaled sample: the exact sum over four by four inputs, rounded to nearest even and clamped (R509). -/
def encScale (d : Nat) (x y : Int × Nat) (inp : Int → Int → Int) : Nat :=
  let wx := encWeights x.2
  let wy := encWeights y.2
  let sum := (List.range 4).foldl (fun a m => a + nth 0 wy m * (List.range 4).foldl (fun b k => b + nth 0 wx k * inp (x.1 - 1 + k) (y.1 - 1 + m)) 0) 0
  (max 0 (min (2 ^ d - 1 : Int) (rneInt sum (8192 * 8192)))).toNat

/-- A container's value in d bits (R507). -/
def toDepth (from_ d v : Nat) : Nat :=
  if d ≤ from_ then min (2 ^ d - 1) (rneInt v (2 ^ (from_ - d))).toNat else v * 2 ^ (d - from_)

/-- The lines of the source that a range of rows reads, first and last, edges included; a picture turned by 90 or 270 reads
them all. -/
def CodJob.srcLines (j : CodJob) (y0 y1 : Nat) : Nat × Nat :=
  let h := leAt j.desc 0x42 2
  let cy := leAt j.desc 0x3A 2
  let ch := leAt j.desc 0x3E 2
  let eh := leAt j.desc 0x46 2
  let rot := fld (leAt j.desc 0x35 1) 0 2
  if rot % 2 = 1 then (clampIdx h (cy - 1), clampIdx h (cy + ch + 1))
  else
    let (a, b) := if rot = 2 then (eh - min y1 eh, eh - 1 - min y0 (eh - 1)) else (y0, min y1 eh - 1)
    (clampIdx h (cy + (encPos a ch eh).1 - 1), clampIdx h (cy + (encPos b ch eh).1 + 2))

/-- Bytes of a source line. -/
def srcLineBytes (fmt w : Nat) : Nat := w * nth 4 [4, 8, 8, 12, 2, 2, 2] fmt

/-- Source lines read, in order: luma lines and, where there is a chroma plane, chroma lines, each with its number. -/
def State.readLines (s : State) (e asid : Nat) (j : CodJob) : List (Bool × Nat) → Access × List (Bool × Nat × List Byte) × State
  | [] => (.ok, [], s)
  | (chroma, y) :: r =>
    let d := j.desc
    let a := leAt d 0x10 8 + leAt d 0x2C 4 * y + (if chroma then leAt d 0x30 4 else 0)
    match s.masterRead (0x30 + e) asid a (srcLineBytes (leAt d 0x34 1) (leAt d 0x40 2)) with
    | (.ok, l, s) =>
      let (a, ls, s) := s.readLines e asid j r
      (a, (chroma, y, l) :: ls, s)
    | (a, _, s) => (a, [], s)

/-- A sample of the source: plane 0, 1 or 2 (Y, Cb, Cr or R, G, B), in d bits, at a place inside the plane. -/
def srcSample (fmt d : Nat) (lines : List (Bool × Nat × List Byte)) (plane x y : Nat) : Nat :=
  let line (c : Bool) : List Byte := (lines.find? (fun l => l.1 == c && l.2.1 == y)).elim [] (fun l => l.2.2)
  match fmt with
  | 0 => toDepth 10 d (fld (leAt (line false) (4 * x) 4) (10 * plane) 10)
  | 1 => toDepth 16 d (leAt (line false) (8 * x + 2 * plane) 2)
  | 6 => toDepth 8 d (if plane = 0 then leAt (line false) (4 * (x / 2) + 2 * (x % 2)) 1 else leAt (line false) (4 * x + 2 * plane - 1) 1)
  | _ => if plane = 0 then toDepth 16 d (leAt (line false) (2 * x) 2) else toDepth 16 d (leAt (line true) (4 * x + 2 * (plane - 1)) 2)

/-- A sample of the picture to code, at (x, y) of a plane: cropped, scaled, mirrored, rotated (R507, R509). Chroma lines of a
4:2:2 source are averaged in pairs for 4:2:0, before any rotation. -/
def encSample (j : CodJob) (d : Nat) (lines : List (Bool × Nat × List Byte)) (plane x y : Nat) : Nat :=
  let n (o k : Nat) : Nat := leAt j.desc o k
  let fmt := n 0x34 1
  let geom := n 0x35 1
  let chroma := fld geom 4 2
  let c := plane != 0
  let outH := if c && chroma != 2 then 2 else 1
  let outV := if c && chroma == 0 then 2 else 1
  let srcH := if c && 4 ≤ fmt then 2 else 1
  let srcV := if c && fmt == 5 then 2 else 1
  let one (ew eh x y : Nat) : Nat :=
    let mw := if bitOf geom 2 then ew - 1 - x else x
    if n 0x3C 2 = n 0x44 2 ∧ n 0x3E 2 = n 0x46 2 then
      srcSample fmt d lines plane (min (n 0x38 2 / srcH + mw) (n 0x40 2 / srcH - 1)) (min (n 0x3A 2 / srcV + y) (n 0x42 2 / srcV - 1))
    else
      encScale d (encPos mw (n 0x3C 2 / srcH) ew) (encPos y (n 0x3E 2 / srcV) eh) (fun sx sy =>
        (srcSample fmt d lines plane (clampIdx (n 0x40 2 / srcH) (n 0x38 2 / srcH + sx)) (clampIdx (n 0x42 2 / srcV) (n 0x3A 2 / srcV + sy)) : Nat))
  let ew := n 0x44 2 / outH
  let eh := n 0x46 2 / outV
  let px (x y : Nat) : Nat :=
    if outV = 2 ∧ srcV = 1 then (rneInt ((one ew (2 * eh) x (2 * y) + one ew (2 * eh) x (2 * y + 1) : Nat) : Int) 2).toNat else one ew eh x y
  match fld geom 0 2 with
  | 0 => px x y
  | 1 => px y (eh - 1 - x)
  | 2 => px (ew - 1 - x) (eh - 1 - y)
  | _ => px (ew - 1 - y) x

/-- The samples of a coded row: planes in turn, lines and samples in order, edges repeated past the picture (R494). -/
def rowSamples (j : CodJob) (d side r : Nat) (lines : List (Bool × Nat × List Byte)) : List Nat :=
  let chroma := fld (leAt j.desc 0x35 1) 4 2
  (List.range 3).flatMap (fun p =>
    let hx := if p ≠ 0 ∧ chroma ≠ 2 then 2 else 1
    let vx := if p ≠ 0 ∧ chroma = 0 then 2 else 1
    (List.range (side / vx)).flatMap (fun y => (List.range (8 * cdiv j.codedW 8 / hx)).map (fun x =>
      encSample j d lines p (min x (j.codedW / hx - 1)) (min (r * side / vx + y) (j.codedH / vx - 1)))))

/-- Whether a source line may be read under WAIT (R508): 0 not yet, 1 yes, 2 the job fails. -/
def State.srcReady (s : State) (j : CodJob) (last : Nat) : Nat :=
  if !bitOf j.fl 2 then 1
  else
    let tap := leAt j.desc 0x4B 1
    let p := tap / 16
    let t := tap % 16
    let seq := leAt j.desc 0x70 8
    let rel := s.rd (PSL (p % 8) + 0x1000 * (t / 2 % 2) + 0x100 * (t % 2) + PSL_TAP_REL.off)
    let recs := (s.tapNews.find? (fun (x : TapNews) => x.tap == tap)).elim [] (fun x => x.recent)
    match recs.find? (fun r => r.1 == seq) with
    | some (_, withBuf) => if withBuf then 1 else 2
    | none =>
      if recs.any (fun r => decide (seq < r.1)) then 2
      else if p < 5 && fld rel 16 16 == seq % 65536 && decide (last < fld rel 0 16) then 1 else 0

/-! ### Engines (R497, R519–R521) -/

/-- Shedding pauses a context (R521): step 2 the non-live ones, step 5 the live ones too. -/
def State.codShed (s : State) (c : Nat) : Bool :=
  let st := s.g PWR PWR_SHED_STEP
  if s.on (ctxBase c) CTX_CFG_LIVE then 10 ≤ st else 2 ≤ st

/-- The rows that a job's first class may be ahead of its second: what the reorder buffer holds (R496). -/
def State.robRoom (s : State) (c : Nat) : Nat := max 2 (Config.robRows (s.g (ctxBase c) CTX_ROB_SIZE) (s.g (ctxBase c) CTX_GEOM_MAX_W))

/-- The last source line that the next row of an encode job reads. -/
def State.nextLines (s : State) (c : Nat) (j : CodJob) : Nat × Nat :=
  let side := s.ctuSide c
  j.srcLines (side * j.first) (side * (j.first + 1))

/-- A context's next row is ready for a class of engine, pixel or entropy. -/
def State.codReady (s : State) (c : Nat) (pixel : Bool) : Bool :=
  match (s.cx c).current with
  | none => false
  | some j =>
    let isFirst := j.encodes == pixel
    j.started && !s.codShed c && !j.waits &&
      (if isFirst then decide (j.first < j.rows) && decide (j.first < j.second + s.robRoom c) &&
          (!j.encodes || s.srcReady j (s.nextLines c j).2 == 1)
       else decide (j.second < j.first))

/-- An engine may serve a context: no other engine of its class does, and a pixel engine's record is wide enough (R497,
R498). -/
def State.codServes (s : State) (e c : Nat) : Bool :=
  let pair := if e % 2 = 0 then e + 1 else e - 1
  nth none s.cod.engine pair != some c && (e < 2 || s.g (ctxBase c) CTX_GEOM_MAX_W ≤ s.pixMax e) && s.codReady c (2 ≤ e)

/-- The context whose next row engine e takes (R519), after context old. -/
def State.codPick (s : State) (e : Nat) (old : Option Nat) : Option Nat :=
  let l := (List.range 64).filter (fun c => s.codServes e c)
  let live (c : Nat) : Bool := s.on (ctxBase c) CTX_CFG_LIVE
  let better (a b : Nat) : Bool :=
    let pa := s.g (ctxBase a) CTX_CFG_PRI
    let pb := s.g (ctxBase b) CTX_CFG_PRI
    if live a != live b then live a
    else if live a then decide (pb < pa) || (pa == pb && decide ((s.cx a).served < (s.cx b).served))
    else if old == some b then false else if old == some a then true
    else decide (pb < pa) || (pa == pb && decide (((s.cx a).current.elim 0 (fun j => j.acc)) < ((s.cx b).current.elim 0 (fun j => j.acc))))
  l.foldl (fun (b : Option Nat) c => match b with | none => some c | some x => if better c x then some c else b) none

/-- Engine e takes its next row: it goes on, changes context, or falls idle. A non-live job left for a live one is
pre-empted (R519, R520). -/
def State.codTake (s : State) (e : Nat) : State :=
  let old := nth none s.cod.engine e
  let new := if s.engineAvail e then s.codPick e old else none
  let left := match old, new with
    | some a, some b => a != b && !s.on (ctxBase a) CTX_CFG_LIVE && s.codReady a (2 ≤ e)
    | _, _ => false
  let s := if left then
      (let a := old.getD 0
       match (s.cx a).current with
       | some j => ((s.setJob a j.seq (fun j => { j with preempts := j.preempts + 1 })).addSat (COD e) COD_ENG_PREEMPT 1).count
           { cls := 8, ev := 2, inst := some e }
       | none => s)
    else s
  let s := { s with cod := { s.cod with engine := upd s.cod.engine e (fun _ => new), turn := s.cod.turn + 1 } }
  let s := match new with
    | some c =>
      let s := s.setCx c (fun x => { x with served := s.cod.turn })
      let row := (s.cx c).current.elim 0 (fun j => if j.encodes == decide (2 ≤ e) then j.first else j.second)
      let s := ((s.p (COD e) COD_ENG_STAT_CONTEXT c).p (COD e) COD_ENG_STAT_RUNNING 1).p (COD e) COD_ENG_STAT_ROW row
      ((s.p (COD e) COD_ENG_STAT_PAUSED 0).setBusy (COD e) true).cxSync c
    | none => (s.p (COD e) COD_ENG_STAT_RUNNING 0).workEnds (COD e)
  match old with
  | some c => s.cxSync c
  | none => s

/-- Jobs whose wait on a source its record ends fail (R508). -/
def State.srcFailures (s : State) : State :=
  (List.range 64).foldl (fun s c => match (s.cx c).current with
    | some j => if j.encodes && j.started && decide (j.first < j.rows) && s.srcReady j (s.nextLines c j).2 == 2 then s.codDecide c j 1 3 else s
    | none => s) s

/-- Idle engines take what has become ready. -/
def State.codKick (s : State) : State :=
  let s := s.srcFailures
  (List.range 4).foldl (fun s e => if (nth none s.cod.engine e).isNone then s.codTake e else s) s

/-- CTX_STAT.SHED follows the shedding step; a context paused or released is announced (R521, R527). -/
def State.codShedSync (s : State) : State :=
  let s := (List.range 64).foldl (fun s c =>
    let b := ctxBase c
    let sh := s.g b CTX_CFG_MODE != 0 && s.codShed c
    if s.on b CTX_STAT_SHED = sh then s else (s.p b CTX_STAT_SHED (b2n sh)).irq CTX4 4) s
  s.codKick

/-! ### Encode jobs (R511–R513) -/

/-- An encode job starts: missing references first (R513), then its first row's QP and size (R511, R512). hdr: bytes of
parameter sets; slice: bits of the slice or tile-group header. -/
def State.encStart (s : State) (c : Nat) (j : CodJob) (hdr sliceBits : Nat) : State :=
  let x := s.cx c
  let missing := x.map != j.proj
  let key := missing && s.on (ctxBase c) CTX_CFG_REF_POLICY
  if missing && !key then s.codDecide c j 1 6
  else
    let s := if key then s.setCx c (fun x => { x with map := List.replicate 8 0xFF }) else s
    let target := leAt j.desc 0x49 1
    let heads := bitOf j.fl 1 || key
    let map := if key then j.slotMapOut.map (fun k => if k = target then k else 0xFF) else j.slotMapOut
    let flags := (if key then 4 else 0) ||| (if heads then 32 else 0)
    (s.setJob c j.seq (fun j => { j with
      started := true, rows := s.encRows c j, q := sint 16 (leAt j.desc 0x52 2), size := 4096, bits := min sliceBits 4096,
      hdr := if heads then min hdr (if bitOf j.fl 1 then 4096 else 512) else 0, map := map, flags := j.flags ||| flags, lineMs := s.time.ms })).codKick

/-- The QP of the next row (R511). -/
def rowQp (av1 : Bool) (rcRow : Bool) (q qmin qmax : Int) (r rows target size : Nat) : Int :=
  let dq : Int := if av1 then 4 else 1
  let share := target * r / max 1 rows
  let q := if rcRow ∧ r ≠ 0 then
      (if share + target / 8 < size then q + 2 * dq else if share + target / 32 < size then q + dq
       else if size + target / 32 < share then q - dq else q)
    else q
  min (max q qmin) qmax

/-- A row coded under the hard cap (R512): E of the trial and of the recode at QP_MAX. -/
def State.encRow (s : State) (c : Nat) (j : CodJob) (trial recode : Nat) (samples : List Nat) : State :=
  let d := j.desc
  let av1 := s.on (ctxBase c) CTX_CFG_STD
  let qmax := sint 16 (leAt d 0x56 2)
  let q := rowQp av1 (leAt d 0x4A 1 == 1) j.q (sint 16 (leAt d 0x54 2)) qmax j.first j.rows (leAt d 0x64 4) j.size
  let intra := leAt d 0x48 1 ≤ 1 || bitOf j.flags 2
  let m := s.minRowBits c j intra
  let reserve := m * (j.rows - 1 - j.first)
  let max_ := leAt d 0x68 4
  let fits (e : Nat) : Bool := decide (j.size + e + reserve ≤ max_)
  let again := !j.minimal && !fits trial && decide (q < qmax)
  let e := if again then recode else trial
  let minimal := j.minimal || !fits e
  let bound := if minimal then m else e
  let tok := Config.codeRow samples (if again then qmax else q) s.freeCtr
  let s := { s with freeCtr := s.freeCtr + 1 }
  s.setJob c j.seq (fun j => { j with
    first := j.first + 1, q := q, qSum := j.qSum + (if again then qmax else q), size := j.size + bound, bounds := j.bounds ++ [bound],
    minimal := minimal, minRows := j.minRows + b2n minimal, recodes := j.recodes + b2n again,
    flags := j.flags ||| (if minimal || again then 8 else 0), syntaxes := j.syntaxes ++ [tok], lineMs := s.time.ms })

/-- An entropy engine finishes a row of an encode job: its bound gives way to its size (R512). -/
def State.entRow (s : State) (c : Nat) (j : CodJob) (bits : Nat) : State :=
  let bound := nth 0 j.bounds j.second
  let n := min bits bound
  s.setJob c j.seq (fun j => { j with second := j.second + 1, size := j.size - bound + n, bits := j.bits + n })

/-- The bytes of a finished encode job. -/
def State.encBytes (s : State) (c : Nat) (j : CodJob) : List Byte :=
  let settings := [s.g (ctxBase c) CTX_ENC_0, s.g (ctxBase c) CTX_ENC_1, leAt j.desc 0x36 2, j.hdr, j.bits]
  (List.range (j.hdr + cdiv j.bits 8)).map (fun i => Config.bitstream settings j.syntaxes i)

/-- How an access of a job ends where it does not succeed (R521). -/
def State.codAccess (s : State) (c : Nat) (j : CodJob) (a : Access) : State :=
  match a with
  | .waits => ((s.enginesLeave c).setJob c j.seq (fun j => { j with waits := true })).cxSync c
  | .xlt => s.codDecide c j 1 1
  | _ =>
    let s := (List.range 4).foldl (fun s e => if nth none s.cod.engine e = some c then s.fault (COD e) 1 true else s) s
    s.codDecide c j 1 2

/-- A pixel engine reads the source lines of the next row and codes it. -/
def State.encPixelRow (s : State) (e c : Nat) (j : CodJob) (trial recode : Nat) : State :=
  let (lo, hi) := s.nextLines c j
  let fmt := leAt j.desc 0x34 1
  let luma := (List.range (hi + 1 - lo)).map (fun y => (false, lo + y))
  let chroma := if fmt = 4 then luma.map (fun y => (true, y.2)) else if fmt = 5 then (List.range (hi / 2 + 1 - lo / 2)).map (fun y => (true, lo / 2 + y)) else []
  match s.readLines e (s.g (ctxBase c) CTX_CFG_ASID) j (luma ++ chroma) with
  | (.ok, lines, s) =>
    let d := if s.on (ctxBase c) CTX_ENC_0_DEPTH8 then 8 else 10
    s.encRow c j trial recode (rowSamples j d (s.ctuSide c) j.first lines)
  | (a, _, s) => s.codAccess c j a

/-! ### Decode jobs (R514–R518) -/

/-- A decode job starts with what its unit comes to. -/
def State.decStart (s : State) (c : Nat) (j : CodJob) (u : DecUnit) : State :=
  let b := ctxBase c
  let x := s.cx c
  let asid := s.g b CTX_CFG_ASID
  match s.masterRead 0x34 asid (leAt j.desc 0x10 8) (leAt j.desc 0x18 4) with
  | (.ok, _, s) =>
    let free (k : Nat) : Bool := !x.map.contains k && !x.held.contains k && !x.shown.any (fun y => y.2 == k)
    let big := !codSizeOk u.width u.height || decide (s.g b CTX_GEOM_MAX_W < u.width) || decide (s.g b CTX_GEOM_MAX_H < u.height)
    let s := s.setJob c j.seq (fun j => { j with bytes := min u.consumed (leAt j.desc 0x18 4) })
    if u.fail ≠ 0 then s.codDecide c j 1 u.fail
    else if j.kind = 2 ∧ (!(j.targets.all free) ∨ j.targets.length < u.frames) then s.codDecide c j 1 5
    else if big then s.codDecide c j 1 5
    else if u.refMissing && s.on b CTX_CFG_STRICT then s.codDecide c j 1 6
    else
      let flags := (if u.concealed ≠ 0 then 1 else 0) ||| (if u.refMissing then 2 else 0) ||| (if u.hash = 2 then 64 else 0) |||
        (if u.hash = 1 then 128 else 0) ||| (if u.skipped then 256 else 0) ||| (if u.grain then 512 else 0)
      let keep := j.targets ++ x.map ++ x.held ++ x.shown.map (fun y => y.2)
      let unit : DecUnit := { u with map := (u.map.take 8).map (fun k => if keep.contains k then k else 0xFF), out := (u.out.take 8).filter (fun k => keep.contains k) }
      let s := s.addSat b CTX_ERR_CNT_CONCEALED (b2n (u.concealed != 0))
      (s.setJob c j.seq (fun j => { j with
        started := true, rows := if u.skipped then 0 else cdiv u.height (s.ctuSide c), unit := some unit,
        map := if unit.map.isEmpty then x.map else unit.map, flags := j.flags ||| flags })).codKick
  | (a, _, s) => s.codAccess c j a

/-- The parameter block of a COMPAT job (R515): its counts and lengths hold. -/
def compatOk (p : List Byte) (srcLen : Nat) : Bool :=
  let nSeq := leAt p 6 2
  let nPic := leAt p 8 2
  let nUnit := leAt p 0xA 2
  let base := 0x20 + 4 * nSeq + 4 * nPic
  slice p 0 4 == [0x56, 0x34, 0x34, 0x30] && leAt p 4 1 == 2 && leAt p 5 1 ≤ 1 && allZero p 0xC 4 && decide (base + 8 * nUnit ≤ p.length) && decide (1 ≤ nUnit) &&
    (leAt p base 4 + leAt p (base + 4) 4 ≤ srcLen)

/-! ### Commands' effects -/

/-- The current job of a context, where it is of a KIND and has not started. -/
def State.toStart (s : State) (c kind : Nat) : Option CodJob :=
  (s.cx c).current.filter (fun j => j.kind == kind && !j.started && !s.codShed c)

/-- Jobs that an abort names and how it is decided (R522). -/
def State.abortDecideCtx (s : State) (c seq : Nat) : State :=
  let b := ctxBase c
  let named := (s.cx c).jobs.filter (fun j => (j.seq + 2 ^ 32 - seq) % 2 ^ 32 < 2 ^ 31)
  let hit := named.filter (fun j => j.done.isNone)
  let s := hit.foldl (fun s j => s.codDecide c j 3 0) s
  let r := if named.isEmpty then 3 else if (named.head?.any (fun j => j.done.isSome)) then 2 else 1
  let s := ((s.p b CTX_ABORT_STAT_PENDING 0).p b CTX_ABORT_STAT_RESULT r).p b CTX_ABORT_STAT_COUNT (min hit.length 255)
  (((s.setCx c (fun x => { x with abort := none })).irq CTX4 2).cxSync c).codKick

/-- An abort that waited for a restart point is decided. -/
def State.abortDue (s : State) (c : Nat) : State :=
  match (s.cx c).abort with
  | some seq => s.abortDecideCtx c seq
  | none => s

/-- A write of CTX_ABORT (R522): a running job is aborted at its next restart point. -/
def State.ctxAbort (s : State) (c v : Nat) : State :=
  let b := ctxBase c
  let seq := s.g b CTX_ABORT_SEQ
  if !bitOf v 0 then s
  else if s.on b CTX_ABORT_STAT_PENDING then s.refuse4 (b + CTX_ABORT.off)
  else
    let named := (s.cx c).current.any (fun j => decide ((j.seq + 2 ^ 32 - seq) % 2 ^ 32 < 2 ^ 31))
    if named && s.cod.engine.any (fun e => e == some c) then (s.setCx c (fun x => { x with abort := some seq })).p b CTX_ABORT_STAT_PENDING 1
    else s.abortDecideCtx c seq

/-- A row ends on an engine (R519, R520), with the sizes it came to. -/
def State.codRowEnd (s : State) (e trial recode : Nat) : State :=
  match nth none s.cod.engine e with
  | none => s.codTake e
  | some c => match (s.cx c).current with
    | none => s.codTake e
    | some j =>
      let pixel := decide (2 ≤ e)
      if !s.codReady c pixel then s.codTake e
      else
        let s := if j.encodes then (if pixel then s.encPixelRow e c j trial recode else s.entRow c j trial)
          else s.setJob c j.seq (fun j => if pixel then { j with second := j.second + 1 } else { j with first := j.first + 1 })
        let moved := (s.cx c).current.any (fun (k : CodJob) => k.seq == j.seq && decide (j.first + j.second < k.first + k.second))
        let s := if moved then (s.addSat (COD e) COD_ENG_ROWS 1).count { cls := 8, ev := 0, inst := some e } else s
        let s := if moved && !pixel then s.freeCount { cls := 8, ev := 1, inst := some e } none else s
        let s := s.abortDue c
        let s := s.codTake e
        let s := if s.enabled (COD e) then s else ((s.p (COD e) COD_ENG_STAT_PAUSED 1).irq (COD e) 0)
        s.codKick

/-- A job whose work has ended is decided, and the oldest decided job is posted (R504, R506). -/
def State.codJobEnd (s : State) (c : Nat) : State :=
  let s := match (s.cx c).current with
    | some j =>
      if j.started && j.second == j.rows && j.first == j.rows then
        (if j.encodes then
          (let l := s.encBytes c j
           match s.masterWrite 0x34 (s.g (ctxBase c) CTX_CFG_ASID) (leAt j.desc 0x20 8) l with
           | (.ok, s) =>
             let s := s.setJob c j.seq (fun j => { j with bytes := l.length })
             (s.codDecide c { j with bytes := l.length } 0 0)
           | (a, s) => s.codAccess c j a)
         else s.codDecide c j 0 0)
      else s
    | none => s
  (s.codPost c).codKick

/-- A source that waits too long, or whose record ends the wait, fails its job (R508). -/
def State.sourceTimeout (s : State) (c : Nat) : State :=
  match (s.cx c).current with
  | some j => if j.encodes && bitOf j.fl 2 && j.started && decide (j.first < j.rows) && s.srcReady j (s.nextLines c j).2 != 1 then (s.codDecide c j 1 3).codKick else s
  | none => s

/-- Output buffers returned by the host (R514). -/
def State.pbRet (s : State) (c v : Nat) : State := (s.setCx c (fun x => { x with held := x.held.filter (fun k => !bitOf v k) })).cxSync c

/-- A job stops at its latest restart point (R521): 0 a page request, 1 an uncorrectable Sump read, 2 a bus error after its
retry, 3 shedding or the engine's ENABLE cleared. -/
def State.codPause (s : State) (e cause : Nat) : State :=
  match nth none s.cod.engine e with
  | none => s
  | some c => match (s.cx c).current with
    | none => s
    | some j =>
      match cause with
      | 1 => (s.addSat (COD e) COD_ENG_SUMP 1).irq (COD e) 1
      | 2 => ((s.fault (COD e) 1 true).codDecide c j 1 2).codKick
      | _ =>
        let s := if cause = 0 then s.setJob c j.seq (fun j => { j with waits := true }) else s
        let s := { s with cod := { s.cod with engine := upd s.cod.engine e (fun _ => none) } }
        let s := ((s.p (COD e) COD_ENG_STAT_RUNNING 0).p (COD e) COD_ENG_STAT_PAUSED 1).irq (COD e) 0
        (((s.workEnds (COD e)).abortDue c).cxSync c).codKick

/-- Page requests have resolved: jobs that waited go on at their restart points (R521). -/
def State.codResume (s : State) : State :=
  let s := (List.range 64).foldl (fun s c =>
    let s := if (s.cx c).jobs.any (fun j => j.waits) then (s.setCx c (fun x => { x with jobs := x.jobs.map (fun j => { j with waits := false }) })).cxSync c else s
    if s.on (ctxBase c) CTX_SUBMIT_STAT_PENDING then s.submitDecide c else s) s
  s.codKick

/-- A warm reset: jobs resume from their restart records (R523). -/
def State.codWarm (s : State) : State :=
  { s with cod := { s.cod with engine := [none, none, none, none], ctx := s.cod.ctx.map (fun x => { x with
      jobs := x.jobs.map (fun j => if j.done.isNone && j.started then { j with flags := j.flags ||| 1024, waits := false } else { j with waits := false }), abort := none }) } }

/-- An FLR: undecided jobs end RESET (R523). -/
def State.codFlr (s : State) : State :=
  (List.range 64).foldl (fun s c =>
    let s := ((s.cx c).jobs.filter (fun j => j.done.isNone)).foldl (fun s j => s.codDecide c j 2 0) s
    s.setCx c (fun x => { x with abort := none })) s

/-- A cold reset that keeps HBM: the jobs stay in their state areas (R523). -/
def State.codCold (s : State) (kept : Bool) : State :=
  let found := (List.range 64).filterMap (fun c => if (s.cx c).jobs.isEmpty then none else some (s.g64 (ctxBase c) CTX_STATE_LO_REG, (s.cx c).jobs))
  { s with cod := { Codec.init with left := if kept then found ++ s.cod.left else [] } }

/-! ### Commands -/

/-- CTX_MODE_WRITE (R500). -/
def execCtxModeWrite (c : Fin 64) (value : Word) (s : State) : Host.Outcome State Fault Refusal :=
  .next (s.hostReg (ctxBase c + 0x100) value.toNat (fun s => s.ctxModeWrite c value.toNat))

/-- CTX_SUBMIT (R501). -/
def execCtxSubmit (c : Fin 64) (s : State) : Host.Outcome State Fault Refusal :=
  .next (s.hostReg (ctxBase c + 0x190) 1 (fun s => s.ctxSubmit c 1))

/-- ENCODE (R511): the job starts, with the bytes of its parameter sets and the bits of its slice header. -/
def execCodEncode (c : Fin 64) (hdr sliceBits : Nat) (s : State) : Host.Outcome State Fault Refusal :=
  .next (match s.toStart c 1 with
    | some j => s.encStart c j hdr sliceBits
    | none => s)

/-- DECODE (R514). -/
def execCodDecode (c : Fin 64) (unit : DecUnit) (s : State) : Host.Outcome State Fault Refusal :=
  .next (match s.toStart c 2 with
    | some j => s.decStart c j unit
    | none => s)

/-- COMPAT (R515). -/
def execCodCompat (c : Fin 64) (unit : DecUnit) (s : State) : Host.Outcome State Fault Refusal :=
  .next (match s.toStart c 3 with
    | some j =>
      (match s.masterRead 0x34 (s.g (ctxBase c) CTX_CFG_ASID) (leAt j.desc 0x28 8) (leAt j.desc 0x30 4) with
      | (.ok, p, s) => if compatOk p (leAt j.desc 0x18 4) then s.decStart c j { unit with out := [] } else s.codDecide c j 1 4
      | (a, _, s) => s.codAccess c j a)
    | none => s)

/-- DRAIN (R514): every picture left in the buffer is output. -/
def execCodDrain (c : Fin 64) (s : State) : Host.Outcome State Fault Refusal :=
  .next (match s.toStart c 4 with
    | some j =>
      let outs := (s.cx c).drained
      let s := s.setJob c j.seq (fun j => { j with started := true, unit := some ⟨0, 0, 0, 0, 0, false, false, 0, false, 0, 0, 0, 0, [], outs⟩ })
      s.codDecide c { j with started := true } 0 0
    | none => s)

/-- CODEC_ROW_END (R519): on a pixel engine that encodes, E of the trial and of a recode at QP_MAX; on an entropy engine the
row's size in bits. -/
def execCodecRowEnd (e : Fin 4) (trial recode : Nat) (s : State) : Host.Outcome State Fault Refusal := .next (s.codRowEnd e trial recode)

/-- CODEC_JOB_END (R506). -/
def execCodecJobEnd (c : Fin 64) (s : State) : Host.Outcome State Fault Refusal := .next (s.codJobEnd c)

/-- SOURCE_WAIT_TIMEOUT (R508). -/
def execSourceWaitTimeout (c : Fin 64) (s : State) : Host.Outcome State Fault Refusal := .next (s.sourceTimeout c)

/-- CTX_PB_RET (R514). -/
def execCtxPbRet (c : Fin 64) (value : Word) (s : State) : Host.Outcome State Fault Refusal :=
  .next (s.hostReg (ctxBase c + 0x1B4) value.toNat (fun s => s.pbRet c value.toNat))

/-- CTX_ABORT (R522). -/
def execCtxAbort (c : Fin 64) (s : State) : Host.Outcome State Fault Refusal :=
  .next (s.hostReg (ctxBase c + 0x198) 1 (fun s => s.ctxAbort c 1))

/-- CODEC_PAUSE (R521). -/
def execCodecPause (e : Fin 4) (cause : Fin 4) (s : State) : Host.Outcome State Fault Refusal := .next (s.codPause e cause)

end Sys2Proof.Machine
end

