-- ==== Sys2Proof/Machine/Time.lean ====
section
/-! DEFINITION. The time base, its captures and the strobes (R567–R587, R591, R594, R595). Accuracies of stamps and edges
are left out: a stamp is the device time at which its command comes. -/

namespace Sys2Proof.Machine

/-! ### Device time -/

/-- Units of 2^−48 ns after which SEC wraps (R567). -/
def timeWrap : Nat := 2 ^ 48 * nsPerSec * 2 ^ 48

/-- The difference a − b of two times in units of 2^−48 ns, by the signed compare of R570. -/
def timeDiff (a b : Nat) : Int :=
  let d := ((a : Int) - b) % (timeWrap : Int)
  if d < (timeWrap / 2 : Nat) then d else d - timeWrap

/-- Device time set to a number of units, modulo the wrap of SEC. -/
def State.setTime (s : State) (u : Int) : State := { s with time := DevTime.ofUnits (u % (timeWrap : Int)).toNat }

/-- Real time passes, by device time: head time runs on at the head's RATE (R182, R567). -/
def State.advance (s : State) (d : Nat) : State :=
  { s with time := DevTime.ofUnits (s.time.units + d),
           heads := s.heads.map (fun (h : Head) => { h with time := (((h.time : Int) + d) + (d : Int) * h.rate / 2 ^ 40).toNat }) }

/-- Real time passes until device time reaches an instant, where it lies ahead. -/
def State.advanceTo (s : State) (u : Nat) : State :=
  let d := timeDiff u s.time.units
  if 0 < d then s.advance d.toNat else s

/-- A time given by registers: SEC, NS, FRAC (R567). -/
def timeOf (sec ns frac : Nat) : Nat := (sec * nsPerSec + ns) * 2 ^ 48 + frac * 2 ^ 32

/-- TIM_NOW_SEC_LO is read (R569). -/
def State.nowLatch (s : State) : State :=
  ((((s.wr (TIM + 0x108) (s.time.sec % 2 ^ 32)).p TIM TIM_NOW_SEC_HI (s.time.sec / 2 ^ 32)).p TIM TIM_NOW_NS s.time.ns)).p TIM
    TIM_NOW_FRAC s.time.frac

/-- TIM_INC_HI is written: the staged pair is in force from the next cycle (R568). -/
def State.incHiWrite (s : State) (v : Nat) : State :=
  let s := s.plainWrite (TIM + 0x11C) v
  (s.wrA (TIM + 0x118) (s.rd (TIM + 0x118))).wrA (TIM + 0x11C) (s.rd (TIM + 0x11C))

/-- TIM_CTRL.LOCKED, with its copy (R594). -/
def State.timLocked (s : State) (v : Bool) : State := (s.p TIM TIM_CTRL_LOCKED (b2n v)).p TIM TIM_STAT_LOCKED (b2n v)

/-- FAULT_SUM.TREF_LOST (R595). -/
def State.trefSync (s : State) : State :=
  s.fault TIM 1 (s.g TIM TIM_CTRL_TREF_MODE != 0 && !s.on TIM TIM_STAT_TREF_PRESENT)

/-- TIM_CTRL is written (R572, R577): a write with LOCKED 1 clears FREE_RUN; a change of TREF_MODE starts the edge count. -/
def State.timCtrl (s : State) (v : Nat) : State :=
  let was := s.g TIM TIM_CTRL_TREF_MODE
  let s := (s.plainWrite (TIM + 0x100) v).timLocked (bitOf v 0)
  let s := if bitOf v 0 then s.p TIM TIM_STAT_FREE_RUN 0 else s
  if s.g TIM TIM_CTRL_TREF_MODE = was then s
  else { s with tim := { s.tim with trefEdges := 0 } }.p TIM TIM_STAT_TREF_PRESENT 0 |>.trefSync

/-! ### Steps and loads (R571, R591) -/

/-- The first downstream comma that arrives at the head at or after an instant in units of 2^−16 ns. -/
def State.commaAt (s : State) (h x : Nat) : Nat := max 1 (cdiv (7 * (x - s.commaArrival h 0)) (33280 * 65536))

/-- The message of R591 to a head whose servo follows device time. -/
def State.headChange (s : State) (load : Bool) (v : Int) (x h : Nat) : State :=
  let n := s.commaAt h x
  let at_ := s.commaArrival h n
  if load then s.sendLoad h n (v + ((at_ : Int) - x)).toNat
  else if v.natAbs ≤ 2000000 * 65536 then s.sendStep h n v
  else s.sendLoad h n ((at_ : Int) + v).toNat

/-- TIM_ADJ_CTRL is written (R571): X lies 80 µs ahead, and the heads learn of the change (R591). -/
def State.adjCtrl (s : State) (v : Nat) : State :=
  if fld v 0 2 = 0 then s
  else if s.on TIM TIM_STAT_ADJ_PEND then s.refuse (TIM + 0x138) 4
  else
    let load := bitOf v 1
    let x := (DevTime.ofUnits (s.time.units + 80000 * 2 ^ 48)).units
    let amount : Int :=
      if load then
        ((timeOf (s.g64 TIM TIM_SET_SEC_LO % 2 ^ 48) (s.g TIM TIM_SET_NS) (s.g TIM TIM_SET_FRAC) / 2 ^ 32 : Nat) : Int)
      else sint 64 (s.g64 TIM TIM_ADJ_LO)
    let s := { s with tim := { s.tim with adj := some (load, amount, x) } }.p TIM TIM_STAT_ADJ_PEND 1
    (List.range 4).foldl (fun s h =>
      if s.hsState h = 3 ∨ s.hsState h = 4 ∨ s.hsState h = 5 then s.headChange load amount (x / 2 ^ 32) h else s) s

/-! ### Captures (R577) -/

/-- The capture registers show the oldest entry; COUNT (R594). -/
def State.capSync (s : State) : State :=
  let (src, t) := match s.tim.caps with | [] => (0, DevTime.mk 0 0 0) | c :: _ => (c.src, c.time)
  ((((((s.p TIM TIM_CAP_STAT_COUNT s.tim.caps.length).wr (TIM + 0x148) src).wr (TIM + 0x14C) (t.sec % 2 ^ 32)).p TIM
    TIM_CAP_SEC_HI (t.sec / 2 ^ 32)).p TIM TIM_CAP_NS t.ns)).p TIM TIM_CAP_FRAC t.frac

/-- The present time is captured; a capture that finds 32 entries is discarded. -/
def State.capture (s : State) (src : Nat) : State :=
  if 32 ≤ s.tim.caps.length then
    (if s.on TIM TIM_CAP_STAT_OVERFLOW then s else (s.p TIM TIM_CAP_STAT_OVERFLOW 1).irq TIM 3)
  else
    let was := s.tim.caps.length
    ({ s with tim := { s.tim with caps := s.tim.caps ++ [Capture.mk src s.time] } }.capSync).irqIf (was == 0) TIM 2

/-- TIM_CAP_CTRL is written. -/
def State.capCtrl (s : State) (v : Nat) : State :=
  let s := if bitOf v 0 then { s with tim := { s.tim with caps := s.tim.caps.drop 1 } }.capSync else s
  let s := if bitOf v 1 then s.p TIM TIM_CAP_STAT_OVERFLOW 0 else s
  if bitOf v 2 then s.capture 3 else s

/-! ### Strobes (R581–R587) -/

/-- The base that places a strobe's registers. -/
def stb (n : Nat) : Nat := TIM + 0x40 * n

def State.strobe (s : State) (n : Nat) : Strobe := nth Strobe.init s.tim.strobes n
def State.setStrobe (s : State) (n : Nat) (f : Strobe → Strobe) : State :=
  { s with tim := { s.tim with strobes := upd s.tim.strobes n f } }

def State.stbMode (s : State) (n : Nat) : Nat := s.g (stb n) TIM_STB_CFG_MODE
def State.stbArmed (s : State) (n : Nat) : Bool := s.on (stb n) TIM_STB_STAT_ARMED

/-- SYNC_IN is in the strobe's active state (R587). -/
def State.syncActive (s : State) (n : Nat) : Bool := s.tim.syncIn != s.on (stb n) TIM_STB_CFG_SYNC_INV

/-- The pin belongs at its active level (R581): during a pulse, under FORCE while armed, under SYNC with SYNC_IN. -/
def State.stbActive (s : State) (n : Nat) : Bool :=
  (s.strobe n).pulse || (s.stbArmed n && (s.stbMode n == 4 || (s.stbMode n == 3 && !(s.strobe n).arming && s.syncActive n)))

/-- The level of a strobe's pin. -/
def State.stbLevel (s : State) (n : Nat) : Bool := s.on (stb n) TIM_STB_STAT_ACTIVE != s.on (stb n) TIM_STB_CFG_POL

/-- ACTIVE follows, and the pin with it where its level changes from an earlier one. -/
def State.stbPin (s : State) (n : Nat) (was : Bool) : State :=
  let s := s.p (stb n) TIM_STB_STAT_ACTIVE (b2n (s.stbActive n))
  if s.stbLevel n = was then s else s.emit (.strobe n (s.stbLevel n))

/-- The start of pulse k, in units of 2^−48 ns (R582). -/
def State.stbAt (s : State) (n k : Nat) : Nat :=
  let b := stb n
  timeOf (s.g64 b TIM_STB_START_SEC_LO % 2 ^ 48) (s.g b TIM_STB_START_NS) (s.g b TIM_STB_START_FRAC)
    + (if s.stbMode n = 2 then k * s.g b TIM_STB_DEN * (nsPerSec * 65536) / s.g b TIM_STB_NUM else 0) * 2 ^ 32

/-- The strobe sets DONE and clears ARMED (R586). -/
def State.stbFinish (s : State) (n : Nat) : State :=
  ((s.p (stb n) TIM_STB_STAT_ARMED 0).p (stb n) TIM_STB_STAT_DONE 1).irq TIM 4

/-- Pulses that lie less than 100 ns ahead are passed over (R585): always found late at an ARM within the floor. -/
def State.stbFloor (s : State) (n : Nat) (force : Bool) : State :=
  let k := (s.strobe n).next
  let lead : Int := 100 * 2 ^ 48
  if !s.stbArmed n || (s.strobe n).pulse || (s.stbMode n != 1 && s.stbMode n != 2) then s
  else if !force && decide (lead ≤ timeDiff (s.stbAt n k) s.time.units) then s
  else
    let s := (s.p (stb n) TIM_STB_STAT_LATE 1).irq TIM 4
    if s.stbMode n = 1 then s
    else
      let start := timeDiff (s.stbAt n 0) s.time.units
      let need := ((lead - start + (2 ^ 32 - 1)) / 2 ^ 32).toNat
      let k' := max k (cdiv (need * s.g (stb n) TIM_STB_NUM) (s.g (stb n) TIM_STB_DEN * (nsPerSec * 65536)))
      let count := s.g (stb n) TIM_STB_COUNT
      let k' := if count = 0 then k' else min k' (max k count)
      let s := (s.addSat (stb n) TIM_STB_SKIP (k' - k)).setStrobe n (fun x => { x with next := k' })
      if count ≠ 0 ∧ count ≤ k' then s.stbFinish n else s

/-- Device time has changed: pulses passed are skipped as at an ARM (R585); a pulse under way keeps its width (R586). -/
def State.stbShift (s : State) (forward : Bool) : State :=
  if !forward then s else (List.range 8).foldl (fun s n =>
    if (s.strobe n).pulse then s.setStrobe n (fun x => { x with stepped := true }) else s.stbFloor n false) s

/-- What makes an ARM be refused (R584). -/
def State.stbRefused (s : State) (n : Nat) : Bool :=
  let b := stb n
  let w := s.g b TIM_STB_WIDTH
  let num := s.g b TIM_STB_NUM
  let den := s.g b TIM_STB_DEN
  ((s.stbMode n == 1 || s.stbMode n == 2) && decide (25 * w < 4000))
    || (s.stbMode n == 2 && decide (10 ^ 12 * den < (25 * w + 4000) * num))
    || num == 0 || den == 0 || decide (10 ^ 8 * den < num)

/-- A strobe is armed (R585, R587). -/
def State.stbArm (s : State) (n : Nat) : State :=
  let b := stb n
  let was := s.stbLevel n
  let s := s.wr (b + 0x1128) (1 + 2 * s.g b TIM_STB_STAT_ACTIVE)
  let s := s.setStrobe n (fun x => { x with next := 0, old := x.pulse, stepped := false, ending := false,
                                            arming := s.stbMode n == 3 && s.syncActive n })
  let s := if (s.stbMode n == 1 || s.stbMode n == 2) && decide (timeDiff (s.stbAt n 0) s.time.units ≤ 100 * 2 ^ 48) then
      s.stbFloor n true else s
  s.stbPin n was

/-- A SYNC strobe's DISARM takes effect. -/
def State.stbOff (s : State) (n : Nat) : State :=
  let was := s.stbLevel n
  ((s.p (stb n) TIM_STB_STAT_ARMED 0).setStrobe n (fun x => { x with arming := false, ending := false })).stbPin n was

/-- A strobe is disarmed (R586, R587). -/
def State.stbDisarm (s : State) (n : Nat) : State :=
  if !s.stbArmed n then s
  else if s.stbMode n == 3 && !(s.strobe n).arming && s.on (stb n) TIM_STB_STAT_ACTIVE then
    s.setStrobe n (fun x => { x with ending := true })
  else s.stbOff n

/-- TIM_STB_CTRL is written. -/
def State.stbCtrl (s : State) (n v : Nat) : State :=
  if bitOf v 0 then (if s.stbRefused n then s.refuse (stb n + 0x1124) 4 else s.stbArm n)
  else if bitOf v 1 then s.stbDisarm n else s

/-- TIM_STB_CFG is written while the strobe is not armed: POL moves the pin (R581). -/
def State.stbCfg (s : State) (n v : Nat) : State :=
  let was := s.stbLevel n
  (s.plainWrite (stb n + 0x1100) v).stbPin n was

/-- SYNC_IN has an edge: SYNC strobes follow it (R587). -/
def State.stbSync (s : State) (n : Nat) : State :=
  if s.stbMode n != 3 || !s.stbArmed n then s
  else
    let was := s.stbLevel n
    let s := if s.syncActive n then s
             else if (s.strobe n).ending then
               (s.p (stb n) TIM_STB_STAT_ARMED 0).setStrobe n (fun x => { x with ending := false })
             else s.setStrobe n (fun x => { x with arming := false })
    s.stbPin n was

/-- A write that TIM refuses with cause 0x4: TIM_ADJ and TIM_SET while a change pends (R571), a strobe's registers while it
is armed (R584). -/
def State.timRefuses (s : State) (off : Nat) : Bool :=
  let o := off - TIM
  (0x120 ≤ o && o < 0x138 && s.on TIM TIM_STAT_ADJ_PEND)
    || (0x1100 ≤ o && o < 0x1300 && (o - 0x1100) % 0x40 < 0x24 && s.stbArmed ((o - 0x1100) / 0x40))

/-! ### Commands -/

/-- TIM_INC_HI_WRITE (R568): it restarts the watchdog (R572). -/
def execTimIncHiWrite (value : Word) (s : State) : Host.Outcome State Fault Refusal :=
  .next (s.hostReg (TIM + 0x11C) value.toNat (fun s => s.incHiWrite value.toNat))

/-- TIME_NOW_READ (R569): the host reads TIM_NOW_SEC_LO. -/
def execTimeNowRead (s : State) : Host.Outcome State Fault Refusal :=
  .next (s.host (fun s =>
    let s := s.hostCount 0 none none 4
    if s.on TOP TOP_RESET_STAT_WARM_BUSY then s.emit (.barData (zeros 4) false)
    else s.nowLatch.emit (.barData (leBytes 4 (s.time.sec % 2 ^ 32)) false)))

/-- STEP (R571). -/
def execTimStep (s : State) : Host.Outcome State Fault Refusal :=
  .next (s.hostReg (TIM + 0x138) 1 (fun s => s.adjCtrl 1))

/-- LOAD (R571). -/
def execTimLoad (s : State) : Host.Outcome State Fault Refusal :=
  .next (s.hostReg (TIM + 0x138) 2 (fun s => s.adjCtrl 2))

/-- TIME_ADJ_APPLY (R571, R545, R585): the command comes at the instant X. -/
def execTimeAdjApply (s : State) : Host.Outcome State Fault Refusal :=
  .next (match s.tim.adj with
  | none => s
  | some (load, amount, x) =>
    let s := s.advanceTo x
    let old := s.time.units
    let s := s.setTime (if load then amount * 2 ^ 32 else (old : Int) + amount * 2 ^ 32)
    let d := timeDiff s.time.units old
    let s := ({ s with tim := { s.tim with adj := none } }.p TIM TIM_STAT_ADJ_PEND 0).irq TIM 1
    (s.sndShift d).stbShift (decide (0 < d)))

/-- TIM_CTRL_WRITE (R572). -/
def execTimCtrlWrite (value : Word) (s : State) : Host.Outcome State Fault Refusal :=
  .next (s.hostReg (TIM + 0x100) value.toNat (fun s => s.timCtrl value.toNat))

/-- WATCHDOG_EXPIRY (R572): the watchdog runs while LOCKED is 1 and TIM_WDOG is not 0. -/
def execWatchdogExpiry (s : State) : Host.Outcome State Fault Refusal :=
  .next (if s.on TIM TIM_CTRL_LOCKED ∧ s.g TIM TIM_WDOG ≠ 0 then ((s.timLocked false).p TIM TIM_STAT_FREE_RUN 1).irq TIM 0 else s)

/-- TIME_PLL_LOSS (R574): source 125 has its event. -/
def execTimePllLoss (s : State) : Host.Outcome State Fault Refusal :=
  .next (if s.tim.pllOut then s else
    (({ s with tim := { s.tim with pllOut := true } }.fault TIM 0 true).timLocked false).report
      { src := 125, unit := 0, detail := 0, lasting := true } (fun s => s))

/-- TIME_PLL_RELOCK (R574): the PLL has been locked again for 10 ms. -/
def execTimePllRelock (s : State) : Host.Outcome State Fault Refusal :=
  .next (if s.tim.pllOut then { s with tim := { s.tim with pllOut := false } }.fault TIM 0 false else s)

/-- SYNC_IN_EDGE (R577, R587). -/
def execSyncInEdge (rise : Bool) (s : State) : Host.Outcome State Fault Refusal :=
  .next (if s.tim.syncIn = rise then s else
    let s := { s with tim := { s.tim with syncIn := rise } }.p TIM TIM_STAT_SYNC_PRESENT 1
    let s := if s.on TIM (if rise then TIM_CAP_EN_SYNC_RISE else TIM_CAP_EN_SYNC_FALL) then s.capture (if rise then 0 else 1) else s
    (List.range 8).foldl (fun s n => s.stbSync n) s)

/-- TIME_REF_EDGE (R577): a rising edge, counted and captured as TREF_MODE says. -/
def execTimeRefEdge (s : State) : Host.Outcome State Fault Refusal :=
  let m := s.g TIM TIM_CTRL_TREF_MODE
  .next (if m = 0 then s else
    let n := s.tim.trefEdges
    let s := ({ s with tim := { s.tim with trefEdges := n + 1 } }.p TIM TIM_STAT_TREF_PRESENT 1).trefSync
    if s.on TIM TIM_CAP_EN_TREF ∧ (m = 1 ∨ n % 10000000 = 0) then s.capture 2 else s)

/-- TREF_PRESENT_LAPSE (R594, R595): of TIME_REF, or of SYNC_IN. -/
def execTrefPresentLapse (sync : Bool) (s : State) : Host.Outcome State Fault Refusal :=
  .next (if sync then s.p TIM TIM_STAT_SYNC_PRESENT 0 else (s.p TIM TIM_STAT_TREF_PRESENT 0).trefSync)

/-- CAP_SOFT (R577). -/
def execCapSoft (s : State) : Host.Outcome State Fault Refusal :=
  .next (s.hostReg (TIM + 0x15C) 4 (fun s => s.capCtrl 4))

/-- CAP_POP (R594): ignored when COUNT is 0. -/
def execCapPop (s : State) : Host.Outcome State Fault Refusal :=
  .next (s.hostReg (TIM + 0x15C) 1 (fun s => s.capCtrl 1))

/-- CAP_CLR_OVF (R594). -/
def execCapClrOvf (s : State) : Host.Outcome State Fault Refusal :=
  .next (s.hostReg (TIM + 0x15C) 2 (fun s => s.capCtrl 2))

/-- STROBE_ARM (R584, R585). -/
def execStrobeArm (n : Fin 8) (s : State) : Host.Outcome State Fault Refusal :=
  .next (s.hostReg (stb n + 0x1124) 1 (fun s => s.stbCtrl n 1))

/-- STROBE_DISARM (R586, R587). -/
def execStrobeDisarm (n : Fin 8) (s : State) : Host.Outcome State Fault Refusal :=
  .next (s.hostReg (stb n + 0x1124) 2 (fun s => s.stbCtrl n 2))

/-- STROBE_PULSE_START (R582): the next pulse of an armed strobe begins, at its time where that lies ahead. -/
def execStrobePulseStart (n : Fin 8) (s : State) : Host.Outcome State Fault Refusal :=
  .next (if s.stbArmed n ∧ (s.stbMode n = 1 ∨ s.stbMode n = 2) ∧ !(s.strobe n).pulse then
    let s := s.advanceTo (s.stbAt n (s.strobe n).next)
    let was := s.stbLevel n
    let s := ((s.setStrobe n (fun x => { x with pulse := true, old := false })).addMod (stb n) TIM_STB_SENT 1).stbPin n was
    s.dmaCredit 3 n
  else s)

/-- STROBE_PULSE_END (R586). -/
def execStrobePulseEnd (n : Fin 8) (s : State) : Host.Outcome State Fault Refusal :=
  .next (if (s.strobe n).pulse then
    let x := s.strobe n
    let was := s.stbLevel n
    let s := (s.setStrobe n (fun y => { y with pulse := false, old := false, stepped := false })).stbPin n was
    if !s.stbArmed n || (s.stbMode n != 1 && s.stbMode n != 2) then s
    else if x.old then s.stbFloor n false
    else if s.stbMode n = 1 then s.stbFinish n
    else
      let s := s.setStrobe n (fun y => { y with next := x.next + 1 })
      let count := s.g (stb n) TIM_STB_COUNT
      if count ≠ 0 ∧ count ≤ x.next + 1 then s.stbFinish n
      else if x.stepped then s.stbFloor n false else s
  else s)

/-- SYNC_DISARM_CUT (R587): 1 µs after the DISARM. -/
def execSyncDisarmCut (n : Fin 8) (s : State) : Host.Outcome State Fault Refusal :=
  .next (if (s.strobe n).ending then s.stbOff n else s)

end Sys2Proof.Machine
end

