-- ==== Sys2Proof/Machine/Display.lean ====
section
/-! DEFINITION. The display (R596–R621). A frame is composed whole at its start from what memory holds then. -/

namespace Sys2Proof.Machine

/-! ### Checks -/

/-- The base that places a layer's registers. -/
def dspL (l : Nat) : Nat := DSP + 0x40 * l

/-- Bits per component. -/
def State.dspBpc (s : State) : Nat := if s.g DSP DSP_CFG_BPC = 0 then 8 else 10

/-- Payload of one lane in bit/s times 165, the payload factors being 132/165 and 160/165 (R596). -/
def dspPayload165 (rate : Nat) : Nat :=
  nth 0 [1620000000 * 132, 2700000000 * 132, 5400000000 * 132, 8100000000 * 132, 10000000000 * 160, 13500000000 * 160,
    20000000000 * 160] rate

def State.dspLanes (s : State) : Nat := 2 ^ s.g DSP DSP_LINK_CFG_LANES

/-- The first rule of R600 that the timing breaks; 0 none. -/
def State.dspTimingRule (s : State) : Nat :=
  let g (f : Fld) := s.g DSP f
  let ha := g DSP_H_TIMING_0_H_ACTIVE
  let ht := g DSP_H_TIMING_0_H_TOTAL
  let va := g DSP_V_TIMING_0_V_ACTIVE
  let vt := g DSP_V_TIMING_0_V_TOTAL_MIN
  let ok1 := decide (320 ≤ ha ∧ ha ≤ 8192 ∧ ha % 4 = 0 ∧ ha + 32 ≤ ht) &&
    decide (g DSP_H_TIMING_1_HS_START < g DSP_H_TIMING_1_HS_END ∧ g DSP_H_TIMING_1_HS_END + ha ≤ ht) &&
    decide (240 ≤ va ∧ va ≤ 4352 ∧ va + 8 ≤ vt) &&
    decide (g DSP_V_TIMING_1_VS_START < g DSP_V_TIMING_1_VS_END ∧ g DSP_V_TIMING_1_VS_END + va ≤ vt) &&
    (g DSP_CFG_SYNC_MODE == 0 || decide (vt ≤ g DSP_V_TOTAL_MAX_V_TOTAL_MAX))
  let pclk := g DSP_PCLK
  if !ok1 then 1
  else if pclk < 25000 ∨ 2200000 < pclk then 2
  else if s.dspLanes * dspPayload165 (g DSP_LINK_CFG_RATE) < pclk * 1000 * 3 * s.dspBpc * 165 then 3 else 0

/-- The check of an ENABLE (R600): the state with its record, and whether the write is refused. -/
def State.dspEnableCheck (s : State) : State × Bool :=
  let r := s.dspTimingRule
  if r = 0 then (s, false)
  else (((s.p DSP DSP_CHECK_REASON r).p DSP DSP_CHECK_LAYER 0).p DSP DSP_CHECK_AT_ENABLE 1, true)

/-- Bytes of a pixel in a layer format (R605); 0: no such format. -/
def layerBytes (fmt : Nat) : Nat := match fmt with | 0 => 4 | 1 => 8 | 2 => 8 | 7 => 4 | _ => 0

/-- The first rule of R609 that a layer of the shadow set breaks. -/
def State.layerRule (s : State) (l : Nat) : Nat :=
  let b := dspL l
  if !s.on b DSP_L_CFG_EN then 0
  else
    let src := s.on b DSP_L_CFG_SOURCE
    let t := s.srcTap (s.rd (b + DSP_L_SRC.off))
    let w := if src then t.outW else s.g b DSP_L_SIZE_W
    let h := if src then t.outH else s.g b DSP_L_SIZE_H
    if !(decide (s.g b DSP_L_POS_X + w ≤ s.g DSP DSP_H_TIMING_0_H_ACTIVE) && decide (s.g b DSP_L_POS_Y + h ≤ s.g DSP DSP_V_TIMING_0_V_ACTIVE)
        && decide (16 ≤ w) && decide (8 ≤ h)) then 4
    else if !src then
      let base := s.g64 b DSP_L_BASE_LO_REG
      let stride := s.g b DSP_L_STRIDE
      let per := layerBytes (s.g b DSP_L_CFG_FORMAT)
      if per != 0 && base % 256 == 0 && stride % 256 == 0 && decide (w * per ≤ stride) &&
          (s.hbmUsable base (stride * h) || inHost base (stride * h)) then 0 else 5
    else
      let rate := s.srcRate (s.rd (b + DSP_L_SRC.off))
      let vt := if s.g DSP DSP_CFG_SYNC_MODE = 1 then s.g DSP DSP_V_TOTAL_MAX_V_TOTAL_MAX else s.g DSP DSP_V_TIMING_0_V_TOTAL_MIN
      let pclk := s.g DSP DSP_PCLK
      if t.sink == 1 && !t.bufMode && layerBytes t.format != 0 && rate != 0 && pclk != 0 &&
          decide (2 + cdiv (rate * s.g DSP DSP_H_TIMING_0_H_TOTAL * vt) (pclk * 1000000) ≤ t.nbuf) then 0 else 6

/-- The check of a commit (R609). -/
def State.dspCommitCheck (s : State) : State × Bool :=
  let r := leastRule ((List.range 4).map s.layerRule)
  if r.1 = 0 then (s, false)
  else ((((s.p DSP DSP_CHECK_REASON r.1).p DSP DSP_CHECK_LAYER r.2).p DSP DSP_CHECK_AT_ENABLE 0).irq DSP 6, true)

/-- A tap that an enabled layer of the active set follows (R608). -/
def State.tapShownBy (s : State) (p t : Nat) : Bool :=
  (List.range 4).any (fun l => s.ga (dspL l) DSP_L_CFG_EN == 1 && s.ga (dspL l) DSP_L_CFG_SOURCE == 1 &&
    s.ga (dspL l) DSP_L_SRC_SLICE == p && s.ga (dspL l) DSP_L_SRC_TAP == t)

/-- A PSL or WIT commit would change what an enabled layer shows (R608). -/
def State.dspForbids (s : State) (wit : Bool) (p : Nat) : Bool :=
  (List.range (if wit then 2 else 4)).any (fun t => s.tapShownBy (if wit then 8 + p else p) t &&
    (if wit then (witTapOf (fun o => s.rd (WIT p + o)) t).pinned != (witTapOf (fun o => s.rdA (WIT p + o)) t).pinned
     else (tapSetOf (fun o => s.rd (PSL p + o)) t).pinned != (tapSetOf (fun o => s.rdA (PSL p + o)) t).pinned))

/-- Writes accepted only while ENABLE and BUSY are 0 (R600). -/
def State.dspRefuses (s : State) (off : Nat) : Bool :=
  let o := off - DSP
  DSP ≤ off && ((0x100 ≤ o && o ≤ 0x118) || o == 0x130) && (s.enabled DSP || s.busy DSP)

/-! ### Output state -/

/-- Video may be sent (R597, R617). -/
def State.videoOk (s : State) : Bool :=
  s.g DSP DSP_LINK_TRAIN_PATTERN == 0 && s.enabled DSP && s.on DSP DSP_STAT_HPD && !s.on DSP DSP_STAT_STOPPED

/-- The output falls back to the idle pattern where video may not be sent; it resumes at a frame start. -/
def State.dspSync (s : State) : State :=
  if s.videoOk then s else { s with dsp := { s.dsp with whole := false } }.p DSP DSP_STAT_VIDEO 0

/-- The display source is lasting or severe (R617). -/
def State.dspStop (s : State) : State := ((s.p DSP DSP_STAT_STOPPED 1).fault DSP 0 true).dspSync

/-- DSP_STAT.SHED follows shedding step 5 (R615). -/
def State.dspShedSync (s : State) : State := if s.powered DSP then s.p DSP DSP_STAT_SHED (b2n s.step5) else s

/-- A layer's translation has failed (R614). -/
def State.dspXltFail (s : State) (l : Nat) : State :=
  if s.on (dspL l) DSP_L_STAT_XLT_FAIL then s
  else ((s.p (dspL l) DSP_L_STAT_XLT_FAIL 1).addSat DSP DSP_FRAME_ERR_XLT 1).irq DSP 5

/-- Translation failures that wait for a layer's next access reach it at once (R614). -/
def State.dspXltSync (s : State) : State :=
  (List.range 4).foldl (fun (s : State) l =>
    if s.xlt.faults.any (fun (x : Nat × Nat × Nat) => x.1 == 0x3C + l) then
      { s with xlt := { s.xlt with faults := s.xlt.faults.filter (fun (x : Nat × Nat × Nat) => x.1 != 0x3C + l) } }.dspXltFail l
    else s) s

/-- A DSP commit applies: XLT_FAIL ends (R614). -/
def State.dspApplied (s : State) : State := (List.range 4).foldl (fun s l => s.p (dspL l) DSP_L_STAT_XLT_FAIL 0) s

/-- A pending commit applies on a display that does not run. -/
def State.applyDsp (s : State) : State :=
  if s.on DSP PAGE_STAT_COMMIT_PEND then (s.applyPending .dsp 0 ((s.g64 DSP DSP_DFN_LO + 1) % 2 ^ 64)).dspApplied else s

/-! ### Composition (R605, R606) -/

def DspSet.reg (d : DspSet) (base : Nat) (f : Fld) : Nat := fld (Sparse.get resetVal d.regs (base + f.off)).toNat f.lo f.w

/-- A component v of n at full scale, as binary32. -/
def unitOf (v n : Nat) : Nat := colour32.div (colour32.ofInt v 0) (colour32.ofInt n 0)

/-- A binary16 component clamped to [0, 1]; a NaN is 0. -/
def halfUnit (v : Nat) : Nat :=
  let x := ofHalf v
  match ieee32.unpack x with
  | .nan => f32Zero
  | _ => if bitOf x 31 then f32Zero else if ieee32.lt f32One x then f32One else x

/-- A pixel of a layer format: R, G, B, alpha. -/
def layerPixel (fmt : Nat) (l : List Byte) : Nat × Nat × Nat × Nat :=
  let w := ofLe l
  match fmt with
  | 0 => (unitOf (fld w 0 10) 1023, unitOf (fld w 10 10) 1023, unitOf (fld w 20 10) 1023, unitOf (fld w 30 2) 3)
  | 1 => (unitOf (fld w 0 16) 65535, unitOf (fld w 16 16) 65535, unitOf (fld w 32 16) 65535, unitOf (fld w 48 16) 65535)
  | 2 => (halfUnit (fld w 0 16), halfUnit (fld w 16 16), halfUnit (fld w 32 16), halfUnit (fld w 48 16))
  | _ => (unitOf (fld w 0 8) 255, unitOf (fld w 8 8) 255, unitOf (fld w 16 8) 255, unitOf (fld w 24 8) 255)

/-- One component blended over what lies below. -/
def blend (premult : Bool) (ga s a c : Nat) : Nat :=
  let f := colour32
  let under := f.mul c (f.sub f32One a)
  f.add (if premult then f.div (f.mul s (f.ofInt ga 0)) (f.ofInt 255 0) else f.mul s a) under

/-- The output code of a component: clamped to [0, 1], scaled, rounded to nearest with ties to even. -/
def outCode (bpc c : Nat) : Nat :=
  let top := 2 ^ bpc - 1
  match colour32.unpack c with
  | .fin false m e => min top (if 0 ≤ e then m * 2 ^ e.toNat * top else rne (m * top) (2 ^ (-e).toNat))
  | .inf false => top
  | _ => 0

/-- A layer as one frame shows it: its number, where it reads, format, position and size. -/
structure Layer where
  idx : Nat
  addr : Nat
  stride : Nat
  fmt : Nat
  x : Nat
  y : Nat
  w : Nat
  h : Nat
  ga : Nat
  premult : Bool
  asid : Nat
  deriving DecidableEq, Repr

/-- The layers that a set shows, lowest first (R605, R607). -/
def State.dspLayers (s : State) (d : DspSet) : List Layer :=
  (List.range 4).filterMap (fun l =>
    let b := dspL l
    if d.reg b DSP_L_CFG_EN = 0 ∨ s.on b DSP_L_STAT_XLT_FAIL then none
    else
      let mk (addr stride fmt w h : Nat) : Layer :=
        ⟨l, addr, stride, fmt, d.reg b DSP_L_POS_X, d.reg b DSP_L_POS_Y, w, h, d.reg b DSP_L_CFG_GALPHA,
          d.reg b DSP_L_CFG_PREMULT == 1, d.reg b DSP_L_CFG_ASID⟩
      if d.reg b DSP_L_CFG_SOURCE = 0 then
        some (mk (d.reg b DSP_L_BASE_LO_REG + 2 ^ 32 * d.reg b DSP_L_BASE_HI) (d.reg b DSP_L_STRIDE) (d.reg b DSP_L_CFG_FORMAT)
          (d.reg b DSP_L_SIZE_W) (d.reg b DSP_L_SIZE_H))
      else match nth none d.shown l with
        | some [_, addr, fmt, w, h, stride] => some (mk addr stride fmt w h)
        | _ => none)

/-- The bytes that the layers hold for one line, with those that did not come: none. A translation failure disables the
layer; the flag says that a read failed beyond recovery (R613, R614, R616). -/
def State.dspFetch (s : State) (y : Nat) : List Layer → List (Layer × Option (List Byte)) × Bool × State
  | [] => ([], false, s)
  | l :: r =>
    if y < l.y ∨ l.y + l.h ≤ y ∨ s.on (dspL l.idx) DSP_L_STAT_XLT_FAIL then s.dspFetch y r
    else
      let (a, bytes, s) := s.masterRead (0x3C + l.idx) l.asid (l.addr + (y - l.y) * l.stride) (l.w * layerBytes l.fmt)
      let s := if a = .xlt then s.dspXltFail l.idx else s
      let (rest, bad, s) := s.dspFetch y r
      if a = .xlt then (rest, bad, s)
      else ((l, if a = .ok then some bytes else none) :: rest, bad || a == .failed, s)

/-- A pixel of a line from the layers' bytes; none: a layer's pixel is missing. -/
def composePixel (bg : Nat × Nat × Nat) (miss : Layer → Nat → Bool) (bpc x : Nat) (ls : List (Layer × Option (List Byte))) : Option (Nat × Nat × Nat) :=
  (ls.foldl (fun (c : Option (Nat × Nat × Nat)) (p : Layer × Option (List Byte)) =>
    let l := p.1
    if x < l.x ∨ l.x + l.w ≤ x then c
    else match c, p.2 with
      | some (r, g, b), some bytes =>
        if miss l x then none
        else
          let n := layerBytes l.fmt
          let (sr, sg, sb, al) := layerPixel l.fmt (slice bytes ((x - l.x) * n) n)
          let a := colour32.div (colour32.mul al (colour32.ofInt l.ga 0)) (colour32.ofInt 255 0)
          some (blend l.premult l.ga sr a r, blend l.premult l.ga sg a g, blend l.premult l.ga sb a b)
      | _, _ => none) (some bg)).map (fun (r, g, b) => (outCode bpc r, outCode bpc g, outCode bpc b))

/-- The pixels of a line as sent: a missing pixel repeats the last one sent on the line (R613); before the first one the
manual gives no value. -/
def sendLine (open_ : Nat × Nat × Nat) : List (Option (Nat × Nat × Nat)) → List (Nat × Nat × Nat)
  | [] => []
  | none :: r => open_ :: sendLine open_ r
  | some p :: r => p :: sendLine p r

/-- What the lines of a frame come to: pixels, lines with an underrun, the first line with a fault that a read raised. -/
structure Composed where
  lines : List (List (Nat × Nat × Nat))
  under : Nat
  bad : Bool
  deriving DecidableEq, Repr

/-- Lines y, y + 1, … composed. missing names pixels (layer, line, pixel) that did not arrive; from dark on, every line is
missing whole. -/
def State.composeLines (s : State) (d : DspSet) (ls : List Layer) (missing : List (Nat × Nat × Nat)) (dark : Option Nat)
    (w bpc : Nat) : Nat → Nat → Composed × State
  | _, 0 => (⟨[], 0, false⟩, s)
  | y, n + 1 =>
    let isDark := (dark.map (fun k => decide (k ≤ y))).getD false
    let (fetched, bad, s) := if isDark then (([] : List (Layer × Option (List Byte))), false, s) else s.dspFetch y ls
    let bg := (unitOf (d.reg DSP DSP_BG_R) 1023, unitOf (d.reg DSP DSP_BG_G) 1023, unitOf (d.reg DSP DSP_BG_B) 1023)
    let px := (List.range w).map (fun x => if isDark || bad then none
      else composePixel bg (fun l x => missing.contains (l.idx, y, x)) bpc x fetched)
    let under := px.any (fun p => p.isNone)
    let (r, s) := if under then s.free (2 ^ bpc) else (0, s)
    let (g, s) := if under then s.free (2 ^ bpc) else (0, s)
    let (b, s) := if under then s.free (2 ^ bpc) else (0, s)
    let (c, s) := s.composeLines d ls missing (if bad && dark.isNone then some y else dark) w bpc (y + 1) n
    (⟨sendLine (r, g, b) px :: c.lines, c.under + b2n under, c.bad || bad⟩, s)

/-- The tags that the frame signals (R610): PRIMARIES and TRANSFER. -/
def State.dspTags (s : State) (d : DspSet) : Nat × Nat :=
  let l := d.reg DSP DSP_COMP_TAG_LAYER
  let b := dspL l
  if d.reg b DSP_L_CFG_EN = 1 ∧ d.reg b DSP_L_CFG_SOURCE = 1 then
    let p := d.reg b DSP_L_SRC_SLICE
    let t := d.reg b DSP_L_SRC_TAP
    let c := CLR (if p < 8 then 4 * p + t else 20 + 2 * (p - 8) + t % 2)
    (s.ga c CLR_CFG_PRIMARIES, s.ga c CLR_CFG_TRANSFER)
  else (d.reg DSP DSP_OUT_TAGS_PRIMARIES, d.reg DSP DSP_OUT_TAGS_TRANSFER)

/-- EOTF of the HDR static metadata, where it is sent (R610). -/
def eotfOf (transfer : Nat) : Option Nat :=
  match transfer with | 1 => some 0 | 2 => some 2 | 3 => some 3 | _ => none

/-! ### Frames -/

/-- A latch instant (R602, R604, R607): the commit is latched and the followed taps' newest frames are taken. -/
def State.dspLatch (s : State) (line : Nat) : State :=
  let s := s.latch DSP
  let live := s.on DSP PAGE_STAT_COMMIT_PEND
  let get (f : Fld) (l : Nat) : Nat := if live then s.g (dspL l) f else s.ga (dspL l) f
  let pick (l : Nat) : Option (List Nat) :=
    let src := get DSP_L_SRC l
    let t := s.srcTap src
    (s.tapNews.find? (fun (n : TapNews) => n.tap == 16 * fld src 0 4 + fld src 4 2 && decide (0 < n.count))).map
      (fun (n : TapNews) => [n.fseq, t.lineAddr n.buf 0, t.format, t.outW, t.outH, t.stride])
  let shown := (List.range 4).map (fun l => if get DSP_L_CFG_SOURCE l = 1 then pick l else none)
  ({ s with dsp := { s.dsp with latch := some line, shown := shown } }.p DSP DSP_STAT_VBLANK 1).p DSP DSP_STAT_LINE line

/-- The line of a latch instant that R602–R604 admit now. -/
def State.dspLatchOk (s : State) (line : Nat) : Bool :=
  let lo := s.g DSP DSP_V_TIMING_0_V_TOTAL_MIN - 4
  let hi := s.g DSP DSP_V_TOTAL_MAX_V_TOTAL_MAX - 4
  if s.g DSP DSP_CFG_SYNC_MODE = 0 then line == lo
  else decide (lo ≤ line) && decide (line ≤ hi) && (s.on DSP PAGE_STAT_COMMIT_PEND || line == hi)

/-- The frame that ends (R604, R611): its length, and DSP_SAFE_SEQ where it was output in full. -/
def State.dspFrameEnd (s : State) : State :=
  let s := match s.dsp.latch with | some l => s.p DSP DSP_VTOTAL_LAST (l + 4) | none => s
  if s.dsp.whole then { s with dsp := { s.dsp with safe := s.dsp.cur } }.p64 DSP DSP_SAFE_SEQ_LO (s.g64 DSP DSP_DFN_LO) else s

/-- A fault in the fetch or the composer (R616): the frame is damaged and the next one repeats. -/
def State.dspDamage (s : State) : State :=
  { s with dsp := { s.dsp with whole := false, again := true } }.addSat DSP DSP_FRAME_ERR_DAMAGED 1

/-- The residue, Sump or read failure of a frame: line, unit, whether Sump or HBM, whether its retry fails. -/
structure DspFail where
  line : Nat
  unit : Nat
  mem : Bool
  repeats : Bool
  deriving DecidableEq, Repr

/-- The checks of a frame and the line its first fault falls on (R616, R676). -/
def State.dspChecks (s : State) (fail : Option DspFail) : Option Nat × State :=
  match fail with
  | some x =>
    let r := s.checkReport 177 x.unit x.unit (x.unit + 256 * b2n x.mem) true x.repeats State.dspStop
    (some x.line, r.2)
  | none =>
    let unit := s.g BIT BIT_INJ_CFG_UNIT
    let r := s.checkReport 177 unit unit unit false false State.dspStop
    (if r.1.fails then some 0 else none, r.2)

/-- A frame starts (R602–R616). -/
def State.dspFrame (s : State) (missing : List (Nat × Nat × Nat)) (fail : Option DspFail) : State :=
  let s := s.dspFrameEnd
  let dfn := (s.g64 DSP DSP_DFN_LO + 1) % 2 ^ 64
  let again := s.dsp.again
  let s := (s.p64 DSP DSP_DFN_LO dfn).setBusy DSP true
  let applies := !again && s.latched DSP
  let s := if again then s else s.handOver .dsp 0 dfn
  let s := if applies then s.dspApplied else s
  let now : DspSet := ⟨s.activeRegs DSP (DSP + 0x2000), s.dsp.shown⟩
  let d := if again then s.dsp.safe.getD now else now
  let s := { s with dsp := { s.dsp with latch := none, cur := some d, again := false, whole := true } }
  let s := ((s.p DSP DSP_STAT_VBLANK 0).p DSP DSP_STAT_LINE 0).irq DSP 0
  let s := if again then (s.addSat DSP DSP_FRAME_ERR_REPEATED 1).irq DSP 7 else s
  let s := s.dspShedSync
  let s := (List.range 4).foldl (fun (s : State) l =>
    if d.reg (dspL l) DSP_L_CFG_SOURCE = 1 then
      match nth none d.shown l with
      | some (f :: _) => (s.wr (dspL l + DSP_L_SHOWN.off) (f % 2 ^ 32)).p (dspL l) DSP_L_STAT_NO_FRAME 0
      | _ => s.p (dspL l) DSP_L_STAT_NO_FRAME 1
    else s) s
  let shed := s.step5
  let (dark, s) := s.dspChecks fail
  let ls := if shed then [] else s.dspLayers d
  let (c, s) := s.composeLines d ls missing dark (s.g DSP DSP_H_TIMING_0_H_ACTIVE) s.dspBpc 0 (s.g DSP DSP_V_TIMING_0_V_ACTIVE)
  let s := if c.bad && dark.isNone then
      s.report { src := 177, unit := 0, detail := 256, lasting := false } State.dspStop else s
  let s := if c.under = 0 then s
    else ((s.addSat DSP DSP_UNDERRUN_LINES c.under).addSat DSP DSP_UNDERRUN_FRAMES 1).irq DSP 4
  let s := if c.bad || dark.isSome then s.dspDamage
           else if shed then { s with dsp := { s.dsp with whole := false } } else s
  if s.videoOk then
    let tags := s.dspTags d
    (s.p DSP DSP_STAT_VIDEO 1).emit (.video dfn (tags.1 == 2) (eotfOf tags.2) c.lines)
  else s.dspSync

/-! ### AUX (R598) -/

/-- DSP_AUX_CMD is written. -/
def State.auxCmd (s : State) (v : Nat) : State :=
  if !bitOf v 31 then s
  else if s.on DSP DSP_AUX_STAT_BUSY then s.refuse (DSP + 0x13C) 4
  else
    let cmd := fld v 0 4
    let len := fld v 8 4 + 1
    let data := ((List.range 4).flatMap (fun n => leBytes 4 (s.rd (DSP + 0x140 + 4 * n)))).take len
    let s := { s with dsp := { s.dsp with aux := some (cmd, len) } }.wr (DSP + 0x150) 1
    s.emit (.aux cmd (s.g DSP DSP_AUX_ADDR) len (if cmd % 2 = 0 then data else []))

/-- An AUX transaction ends with a REPLY, the bytes it read or how many it wrote. -/
def State.auxEnd (s : State) (reply count : Nat) (bytes : List Byte) : State :=
  match s.dsp.aux with
  | none => s
  | some (cmd, len) =>
    let data := bytes.take len
    let rd := cmd % 2 == 1 && reply == 1
    let s := if rd then
        (data.zipIdx).foldl (fun (s : State) (x : Byte × Nat) => s.p DSP ⟨0x140 + 4 * (x.2 / 4), 8 * (x.2 % 4), 8⟩ x.1.toNat) s else s
    let n := if rd then data.length else if cmd % 2 = 0 then min count len else 0
    (({ s with dsp := { s.dsp with aux := none } }.wr (DSP + 0x150) (2 * reply + 16 * n))).irq DSP 3

/-! ### Commands -/

/-- DISPLAY_FRAME_START (R602): missing names the layer pixels (layer, line, pixel) that do not arrive in time. -/
def execDisplayFrameStart (missing : List (Nat × Nat × Nat)) (fail : Option (Nat × Nat × Bool × Bool)) (s : State) :
    Host.Outcome State Fault Refusal :=
  .next (if s.enabled DSP ∧ s.powered DSP ∧ !s.on DSP DSP_STAT_STOPPED then
    s.dspFrame missing (fail.map (fun x => ⟨x.1, x.2.1, x.2.2.1, x.2.2.2⟩)) else s)

/-- DISPLAY_LATCH (R602, R604): at a line boundary of the frame being output. -/
def execDisplayLatch (line : Nat) (s : State) : Host.Outcome State Fault Refusal :=
  .next (if s.enabled DSP ∧ s.powered DSP ∧ s.dsp.latch = none ∧ s.dspLatchOk line then s.dspLatch line else s)

/-- HPD_LOSS (R599). -/
def execHpdLoss (s : State) : Host.Outcome State Fault Refusal :=
  let s := { s with dsp := { s.dsp with hpd := false } }
  .next (if s.powered DSP ∧ s.on DSP DSP_STAT_HPD then ((s.p DSP DSP_STAT_HPD 0).dspSync).irq DSP 1 else s)

/-- HPD_IRQ_PULSE (R599). -/
def execHpdIrqPulse (s : State) : Host.Outcome State Fault Refusal :=
  .next (if s.powered DSP ∧ s.on DSP DSP_STAT_HPD then s.irq DSP 2 else s)

/-- HPD_ASSERT (R597, R599). -/
def execHpdAssert (s : State) : Host.Outcome State Fault Refusal :=
  let s := { s with dsp := { s.dsp with hpd := true } }
  .next (if s.powered DSP then s.p DSP DSP_STAT_HPD 1 else s)

/-- AUX_GO (R598): a write of DSP_AUX_CMD with GO. -/
def execAuxGo (value : Word) (s : State) : Host.Outcome State Fault Refusal :=
  let v := value.toNat ||| 2 ^ 31
  .next (s.hostReg (DSP + 0x13C) v (fun s => s.auxCmd v))

/-- AUX_END (R598): the reply, 1 ACK to 5 reply error, with what it carries. -/
def execAuxEnd (reply : Fin 5) (count : Fin 17) (bytes : List Byte) (s : State) : Host.Outcome State Fault Refusal :=
  .next (s.auxEnd (reply.val + 1) count bytes)

end Sys2Proof.Machine
end

