-- ==== Sys2Proof/Machine/Dma.lean ====
section
/-! DEFINITION. The DMA channels (R644–R663): descriptors, their checks, checksums, credits, halts, aborts, write-backs. The
element moves, which may reach registers (R28), follow the register pages. -/

namespace Sys2Proof.Machine

def State.ch (s : State) (c : Nat) : DmaChan := nth DmaChan.init s.dma c
def State.setCh (s : State) (c : Nat) (f : DmaChan → DmaChan) : State := { s with dma := upd s.dma c f }

/-! ### Descriptors (R645–R647) -/

def DmaDesc.ctrl (d : DmaDesc) : Nat := leAt d.body 0 2
def DmaDesc.op (d : DmaDesc) : Nat := fld d.ctrl 0 4
def DmaDesc.waitReq (d : DmaDesc) : Bool := bitOf d.ctrl 5
def DmaDesc.csum (d : DmaDesc) : Nat := fld d.ctrl 6 2
def DmaDesc.elem (d : DmaDesc) : Nat := leAt d.body 4 4
def DmaDesc.count (d : DmaDesc) (n : Nat) : Nat := leAt d.body (0x18 + 2 * n) 2
def DmaDesc.step (d : DmaDesc) (dst : Bool) (n : Nat) : Int := sint 32 (leAt d.body ((if dst then 0x2C else 0x20) + 4 * n) 4)

/-- The address of an element, modulo 2^64 (R646). -/
def DmaDesc.addr (d : DmaDesc) (dst : Bool) (k0 k1 k2 : Nat) : Nat :=
  ofSint 64 ((leAt d.body (if dst then 0x10 else 8) 8 : Int) + k0 * d.step dst 0 + k1 * d.step dst 1 + k2 * d.step dst 2)

/-- The descriptor breaks R647, or waits for requests that never come (R650). -/
def DmaDesc.bad (d : DmaDesc) (reqSrc : Nat) : Bool :=
  decide (4 ≤ d.op) || d.csum == 3 || fld d.ctrl 10 6 != 0 || leAt d.body 0x1E 2 != 0
    || (bitOf d.ctrl 9 && d.csum == 0)
    || (d.waitReq && reqSrc == 0)
    || decide (64 ≤ leAt d.body 2 1) || decide (64 ≤ leAt d.body 3 1)
    || (d.op != 3 && (d.elem == 0 || decide (2 ^ 24 < d.elem) || d.count 0 == 0 || d.count 1 == 0 || d.count 2 == 0))

/-! ### Checksums (R648, R649) -/

/-- Ones'-complement addition of 16-bit words. -/
def inetAdd (a b : Nat) : Nat := let x := a + b; if 65535 < x then x - 65535 else x

/-- The running state of a checksum over further bytes: its value and the odd byte of an INET stream. -/
def csumBytes (mode : Nat) (v : Nat × Option Nat) : List Byte → Nat × Option Nat
  | [] => v
  | b :: r =>
    let v' : Nat × Option Nat := match mode with
      | 1 => (crcByte 0x82F63B78 v.1 b, none)
      | 2 => (match v.2 with | none => (v.1, some b.toNat) | some h => (inetAdd v.1 (h * 256 + b.toNat), none))
      | _ => v
    csumBytes mode v' r

/-- The value a descriptor starts from. -/
def DmaDesc.csumStart (d : DmaDesc) (saved : Option (Nat × Option Nat)) : Nat × Option Nat :=
  let start : Nat × Option Nat := (if d.csum = 1 then 0xFFFFFFFF else 0, none)
  if bitOf d.ctrl 8 then saved.getD start else start

/-- The final value (R649). -/
def csumFinal (mode : Nat) (v : Nat × Option Nat) : Nat :=
  match mode with
  | 1 => v.1 ^^^ 0xFFFFFFFF
  | 2 => 65535 - (match v.2 with | none => v.1 | some h => inetAdd v.1 (h * 256))
  | _ => 0

/-- The bytes of CSUM_STORE. -/
def csumStored (mode v : Nat) : List Byte := if mode = 1 then leBytes 4 v else beBytes 2 v

/-! ### State and positions -/

/-- Work of a channel is paused by shedding (R657). -/
def State.dmaShed (s : State) (c : Nat) : Bool := s.step5 || (decide (2 ≤ s.g PWR PWR_SHED_STEP) && !s.on (DMA c) DMA_CFG_RT)

/-- STATE of a channel that is not halted: IDLE, PAUSED, or RUNNING (R662); BUSY while it holds accepted work (R749). -/
def State.dmaSync (s : State) (c : Nat) : State :=
  let b := DMA c
  let has := !(s.ch c).descs.isEmpty
  let s := if has then s.setBusy b true else s.workEnds b
  let was := s.g b DMA_STAT_STATE
  if was = 4 then s
  else
    let st := if !has then 0 else if s.dmaShed c then 5 else if was = 2 ∨ was = 3 then was else 1
    (s.p b DMA_STAT_STATE st).irqIf ((was == 5) != (st == 5)) b 4

/-- Shedding has changed (R657). -/
def State.dmaShedSync (s : State) : State :=
  (List.range 16).foldl (fun (s : State) c => if s.powered (DMA c) then s.dmaSync c else s) s

/-- The channel halts at its restart point (R654): cause 1 XLT, 2 BUS, 3 RANGE. -/
def State.dmaHalt (s : State) (c cause : Nat) (fetch : Bool) : State :=
  let b := DMA c
  let s := ((s.p b DMA_STAT_STATE 4).p b DMA_STAT_CAUSE cause).p b DMA_STAT_FETCH (b2n fetch)
  let s := (s.addSat b DMA_CNT_HALTS 1).irq b 1
  if cause = 2 then s.fault b 0 true else s

/-- A halt ends. -/
def State.dmaUnhalt (s : State) (c : Nat) : State :=
  let b := DMA c
  (((s.p b DMA_STAT_STATE 1).p b DMA_STAT_CAUSE 0).p b DMA_STAT_FETCH 0).fault b 0 false |>.dmaSync c

/-- A bus error of a channel (R654): the reissue passes, or fails and halts it. The event is of source 192 + c. -/
def State.dmaBusError (s : State) (c : Nat) (again fetch : Bool) : State :=
  let idx := match (s.ch c).descs with | d :: _ => d.idx | [] => s.g (DMA c) DMA_CONS
  let s := s.addSat (DMA c) DMA_CNT_REISSUE 1
  let s := s.report { src := 192 + c, unit := 0, detail := idx, lasting := again } (fun s => if again then s else s.dmaHalt c 2 fetch)
  if again then s.dmaHalt c 2 fetch else s

/-- The oldest descriptor ends, its write-back still to come. -/
def State.dmaEnd (s : State) (c outcome detail csum : Nat) : State :=
  (s.setCh c (fun x => { x with descs := upd x.descs 0 (fun d => { d with done := some (outcome, detail, csum) }), began := false,
                                paid := false, dataDone := false, odd := none })).p (DMA c) DMA_STAT_PAST_PNR 0

/-- A descriptor ends without DONE: its checksum is not stated. -/
def State.dmaEndOther (s : State) (c outcome detail : Nat) : State :=
  let (v, s) := s.free (2 ^ 32)
  s.dmaEnd c outcome detail v

/-- Descriptors after the oldest that end without DONE. -/
def DmaChan.endAll (x : DmaChan) (outcome : Nat) (v : Nat) (p : DmaDesc → Bool) : DmaChan :=
  { x with descs := x.descs.map (fun d => if d.done.isNone && p d then { d with done := some (outcome, 0, v) } else d) }

/-! ### Ring -/

/-- The address of a descriptor's ring entry. -/
def State.dmaEntry (s : State) (c idx : Nat) : Nat :=
  s.g64 (DMA c) DMA_RING_LO_REG + 64 * (idx % 2 ^ s.g (DMA c) DMA_RING_CFG_LOG2)

/-- DMA_PROD is written (R661). -/
def State.dmaProd (s : State) (c v : Nat) : State :=
  let b := DMA c
  if 2 ^ s.g b DMA_RING_CFG_LOG2 < (v + 2 ^ 32 - s.g b DMA_DONE) % 2 ^ 32 then s.refuse (b + 0x10C) 4
  else s.plainWrite (b + 0x10C) v

/-- Writes of the ring, the configuration and the rate while the channel runs are refused (R661). -/
def State.dmaRefuses (s : State) (off : Nat) : Bool :=
  match owner off with
  | some ⟨.dma, c, rel⟩ => 0x100 ≤ rel && rel ≤ 0x11C && rel != 0x10C && (s.enabled (DMA c) || s.busy (DMA c))
  | _ => false

/-- A descriptor is fetched and accepted (R644, R647). -/
def State.dmaFetch (s : State) (c : Nat) (err : Option Bool) : State :=
  let b := DMA c
  let idx := s.g b DMA_CONS
  if !s.enabled b || !s.powered b || (s.ch c).held || s.g b DMA_STAT_STATE == 4 || idx == s.g b DMA_PROD || 8 ≤ (s.ch c).descs.length then s
  else
    let s := match err with | some again => s.dmaBusError c again true | none => s
    if err = some true then s
    else match s.masterRead (0x20 + c) (s.g b DMA_RING_CFG_ASID) (s.dmaEntry c idx) 64 with
      | (.ok, l, s) =>
        let d : DmaDesc := ⟨idx, l.take 56, none⟩
        let (v, s) := s.free (2 ^ 32)
        let named := match (s.ch c).abort with
          | some (lo, hi) => decide ((idx + 2 ^ 32 - lo) % 2 ^ 32 < (hi + 2 ^ 32 - lo) % 2 ^ 32)
          | none => false
        let d := if named then { d with done := some (3, 0, v) }
                 else if d.bad (s.g b DMA_CFG_REQ_SRC) then { d with done := some (1, 4, v) } else d
        ((s.setCh c (fun x => { x with descs := x.descs ++ [d] })).p b DMA_CONS (inc32 idx)).dmaSync c
      | (.waits, _, s) => s
      | (.xlt, _, s) => s.dmaHalt c 1 true
      | (.refused, _, s) => s.dmaHalt c 3 true
      | (.failed, _, s) => s.dmaBusError c true true

/-- The outcome of the oldest descriptor is written back (R644). -/
def State.dmaWriteBack (s : State) (c : Nat) (err : Option Bool) : State :=
  let b := DMA c
  match (s.ch c).descs with
  | [] => s
  | d :: r =>
    match d.done with
    | none => s
    | some (outcome, detail, csum) =>
      let s := match err with | some again => s.dmaBusError c again false | none => s
      if err = some true then s
      else match s.masterWrite (0x20 + c) (s.g b DMA_RING_CFG_ASID) (s.dmaEntry c d.idx + 0x38)
          (leBytes 1 outcome ++ leBytes 1 detail ++ zeros 2 ++ leBytes 4 csum) with
        | (.ok, s) =>
          let s := (s.setCh c (fun x => { x with descs := r })).p b DMA_DONE (inc32 (s.g b DMA_DONE))
          let s := if s.g b DMA_STAT_STATE = 4 then s else s.p b DMA_STAT_STATE (b2n (!r.isEmpty))
          ((s.irqIf (bitOf d.ctrl 4) b 0).irqIf (outcome == 1) b 3).dmaSync c
        | (.waits, s) => s
        | (.xlt, s) => s.dmaHalt c 1 false
        | (.refused, s) => s.dmaHalt c 3 false
        | (.failed, s) => s.dmaBusError c true false

/-! ### Host controls -/

/-- DMA_REQ_CTRL is written (R650, R651). -/
def State.dmaReqCtrl (s : State) (c v : Nat) : State :=
  let b := DMA c
  if bitOf v 0 then
    (if s.g b DMA_CFG_REQ_SRC != 1 then s
     else if s.g b DMA_REQ_STAT_CREDITS = 65535 then s.addSat b DMA_CNT_LOST_REQ 1 else s.addSat b DMA_REQ_STAT_CREDITS 1)
  else if bitOf v 1 then
    (if s.g b DMA_REQ_STAT_CREDITS = 0 then s.addSat b DMA_CNT_LATE_WITHDRAW 1
     else s.p b DMA_REQ_STAT_CREDITS (s.g b DMA_REQ_STAT_CREDITS - 1))
  else s

/-- An abort (R656). -/
def State.dmaAbort (s : State) (c : Nat) : State :=
  let b := DMA c
  let at_ := s.g b DMA_ABORT_IDX
  let after (i : Nat) : Bool := decide ((i + 2 ^ 32 - at_) % 2 ^ 32 < 2 ^ 31)
  let x := s.ch c
  let live := x.descs.filter (fun d => d.done.isNone && after d.idx)
  let past (d : DmaDesc) : Bool := s.on b DMA_STAT_PAST_PNR && (x.descs.head?.map (fun (h : DmaDesc) => h.idx == d.idx)).getD false
  let cons := s.g b DMA_CONS
  let prod := s.g b DMA_PROD
  let from_ := if after cons then cons else at_
  let posted := (prod + 2 ^ 32 - cons) % 2 ^ 32
  let skip := if after cons then 0 else (at_ + 2 ^ 32 - cons) % 2 ^ 32
  let unfetched := posted - skip
  let ends := (live.filter (fun d => !past d)).length + unfetched
  let result := if live.isEmpty && unfetched == 0 then 3
                else if (live.head?.map past).getD false then 2 else 1
  let (v, s) := s.free (2 ^ 32)
  let headEnds := (x.descs.head?.map (fun (h : DmaDesc) => h.done.isNone && after h.idx && !past h)).getD false
  let s := s.setCh c (fun y => { y.endAll 3 v (fun d => after d.idx && !past d) with
    abort := if unfetched = 0 then y.abort else some (from_, prod) })
  let s := if headEnds then s.setCh c (fun y => { y with began := false, paid := false, dataDone := false, odd := none }) else s
  let s := if headEnds && s.g b DMA_STAT_STATE == 4 && !s.on b DMA_STAT_FETCH then s.dmaUnhalt c else s
  (((s.p b DMA_ABORT_STAT_PENDING 0).p b DMA_ABORT_STAT_RESULT result).p b DMA_ABORT_STAT_COUNT ends).irq b 2

/-- DMA_CTRL is written (R654, R656). -/
def State.dmaCtrl (s : State) (c v : Nat) : State :=
  let b := DMA c
  let halted := s.g b DMA_STAT_STATE == 4
  if bitOf v 0 then (if halted then s.dmaUnhalt c else s)
  else if bitOf v 1 then
    (if s.on b DMA_STAT_PAST_PNR || (halted && s.on b DMA_STAT_FETCH) then s.refuse (b + 0x128) 4
     else if halted then (s.dmaEndOther c 1 (s.g b DMA_STAT_CAUSE)).dmaUnhalt c else s)
  else if bitOf v 2 then s.dmaAbort c
  else s

/-! ### Resets (R657) -/

/-- A warm reset: accepted work is held until ENABLE rises. -/
def State.dmaWarm (s : State) (c : Nat) : State := s.setCh c (fun x => { x with held := true })

/-- An FLR: what has not reached its point of no return ends RESET. -/
def State.dmaFlr (s : State) (c : Nat) : State :=
  let b := DMA c
  let past := s.on b DMA_STAT_PAST_PNR
  let (v, s) := s.free (2 ^ 32)
  let first := (s.ch c).descs.head?.map (fun (d : DmaDesc) => d.idx)
  let s := s.setCh c (fun x => { x.endAll 2 v (fun d => !(past && first == some d.idx)) with held := true })
  if past then s else s.setCh c (fun x => { x with began := false, paid := false, dataDone := false, odd := none })

/-- ENABLE rises: held work goes on. -/
def State.dmaEnabled (s : State) (c : Nat) : State := (s.setCh c (fun x => { x with held := false })).dmaSync c

/-- A soft reset discards what was posted and not fetched, and the running checksum. -/
def State.dmaSoft (s : State) (c : Nat) : State := s.setCh c (fun _ => DmaChan.init)

/-! ### Commands -/

/-- DMA_PROD_WRITE (R644). -/
def execDmaProdWrite (c : Fin 16) (value : Word) (s : State) : Host.Outcome State Fault Refusal :=
  .next (s.hostReg (DMA c + 0x10C) value.toNat (fun s => s.dmaProd c value.toNat))

/-- DMA_DESC_FETCH (R644): err, a bus error meets the fetch, and whether the reissue fails too. -/
def execDmaDescFetch (c : Fin 16) (err : Option Bool) (s : State) : Host.Outcome State Fault Refusal := .next (s.dmaFetch c err)

/-- DMA_DESC_END (R644): the write-back. -/
def execDmaDescEnd (c : Fin 16) (err : Option Bool) (s : State) : Host.Outcome State Fault Refusal := .next (s.dmaWriteBack c err)

/-- DMA_REQ_SOFT (R650). -/
def execDmaReqSoft (c : Fin 16) (s : State) : Host.Outcome State Fault Refusal :=
  .next (s.hostReg (DMA c + 0x120) 1 (fun s => s.dmaReqCtrl c 1))

/-- DMA_REQ_WITHDRAW (R651). -/
def execDmaReqWithdraw (c : Fin 16) (s : State) : Host.Outcome State Fault Refusal :=
  .next (s.hostReg (DMA c + 0x120) 2 (fun s => s.dmaReqCtrl c 2))

/-- DMA_HALT (R654): a channel with work halts: a fault of the translation, a repeated bus error, a refused access. -/
def execDmaHalt (c : Fin 16) (cause : Fin 3) (s : State) : Host.Outcome State Fault Refusal :=
  .next (if (s.ch c).descs.isEmpty ∨ s.g (DMA c) DMA_STAT_STATE = 4 then s
    else if cause = 1 then s.dmaBusError c true false else s.dmaHalt c (cause + 1) false)

/-- DMA_RESUME (R654). -/
def execDmaResume (c : Fin 16) (s : State) : Host.Outcome State Fault Refusal :=
  .next (s.hostReg (DMA c + 0x128) 1 (fun s => s.dmaCtrl c 1))

/-- DMA_SKIP (R654). -/
def execDmaSkip (c : Fin 16) (s : State) : Host.Outcome State Fault Refusal :=
  .next (s.hostReg (DMA c + 0x128) 2 (fun s => s.dmaCtrl c 2))

/-- DMA_ABORT (R656). -/
def execDmaAbort (c : Fin 16) (s : State) : Host.Outcome State Fault Refusal :=
  .next (s.hostReg (DMA c + 0x128) 4 (fun s => s.dmaCtrl c 4))

end Sys2Proof.Machine
end

