-- ==== Sys2Proof/Machine/Power.lean ====
section
/-! DEFINITION. Headroom and shedding (R14–R21, R275–R279), the supply loop (R702–R706), and what the end of a domain's
transition does to its pages (R41, R707, R779). -/

namespace Sys2Proof.Machine

/-! ### Units (R700) -/

/-- The power domain of a Reedbed unit. -/
def unitDomain (u : Nat) : Nat :=
  if u < 5 then 216 + u else if u < 9 then 216 + u else if u < 13 then 216 + u else if u = 13 then 237 else if u = 14 then 238
  else if u = 15 then 240 else 239

/-- The die of a Reedbed unit. -/
def unitDie (u : Nat) : Nat := if u ≤ 2 || (5 ≤ u && u ≤ 8) || u == 13 then 0 else 1

/-- Required rate of a head's slice in handshakes per 8,000 s, from its ingest geometry (R15, R701). -/
def State.headNeed (s : State) (h : Nat) : Nat :=
  let need (w ht f : Nat) : Nat := cdiv w 32 * ht * f * 8
  let act := need (s.ga (ING h) ING_GEOM_WIDTH) (s.ga (ING h) ING_GEOM_HEIGHT) (s.ga (ING h) ING_RATE)
  if s.on (ING h) PAGE_STAT_COMMIT_PEND then
    max act (need (s.g (ING h) ING_GEOM_WIDTH) (s.g (ING h) ING_GEOM_HEIGHT) (s.g (ING h) ING_RATE))
  else act

/-- What decimation leaves of a required rate (R278). -/
def decimated (need d : Nat) : Nat := if 4 ≤ d then 0 else need / 2 ^ d

/-- The required rate of a unit in handshakes per 8,000 s (R15–R17); without shedding where full. -/
def State.unitNeed (s : State) (full : Bool) (u : Nat) : Nat :=
  let ofHead (h : Nat) : Nat := if full then s.headNeed h else decimated (s.headNeed h) (s.g (PSL (s.boundSlice h)) PSL_STAT_DECIM)
  let bound := (List.range 4).filter (fun h => decide (s.boundSlice h < 5))
  if u < 4 then ((bound.filter (fun h => s.boundSlice h == u)).map ofHead).foldl max 0
  else if u = 4 then (bound.map ofHead).foldl max 0
  else Config.unitRate u * 8000

/-- Headroom in 1/1024 (R18), from the handshakes counted in a window of 10 µs. -/
def headroom (count need : Nat) : Int :=
  if need = 0 then 32767 else max (-32768) (min 32767 ((((count : Int) * 800000000 - need) * 1024) / need))

/-! ### Shedding (R275–R277) -/

/-- The last shedding step that an exhausted unit asks for, and the slices in its scope (R276). -/
def State.shedScope (s : State) (u : Nat) : Nat × List Nat :=
  let bound := (List.range 5).filter (fun p => s.on (PSL p) PSL_STAT_BOUND)
  if u < 5 then (if bound.contains u then (9, [u]) else (2, []))
  else if u = 13 then (11, bound) else (2, [])

/-- The latest step has taken effect (R275, R277). -/
def State.shedSettled (s : State) : Bool :=
  let step := s.g PWR PWR_SHED_STEP
  let engines := s.cod.engine.all (fun e => match e with | some c => !s.codShed c | none => true)
  let dma := (List.range 16).all (fun c => !s.dmaShed c || (s.ch c).descs.isEmpty || s.g (DMA c) DMA_STAT_STATE == 5 || s.g (DMA c) DMA_STAT_STATE == 4)
  let gcx := s.gcx.job.isNone || s.on GCX GCX_STAT_SHED
  let slices := s.shed.scope.all (fun p => !s.sliceRuns p ||
    (s.g (PSL p) PSL_STAT_TAPS_SHED == (s.shedTarget p).1 && s.g (PSL p) PSL_STAT_DECIM == (s.shedTarget p).2))
  let routes := s.slices.all (fun x => x.frames.all (fun f => f.mode == 2)) && s.wits.all (fun w => (w.cur.map (fun f => f.shed)).getD true)
  if step ≤ 1 then true
  else if step = 2 then engines && dma && gcx
  else if step ≤ 9 then slices
  else if step = 10 then engines && dma && routes
  else true

/-- PWR_SHED.STEP changes, and with it every block that shedding pauses or releases. -/
def State.setShed (s : State) (step : Nat) : State :=
  if s.g PWR PWR_SHED_STEP = step then s
  else
    let old := s.g PWR PWR_SHED_STEP
    let s := (s.p PWR PWR_SHED_STEP step).irq PWR 1
    let s := if step < 3 then { s with shed := { s.shed with scope := [] } } else s
    let s := if 2 ≤ step then (if s.gcx.job.isNone && s.powered GCX then s.p GCX GCX_STAT_SHED 1 else s) else if 2 ≤ old then s.gcxUnshed else s
    ((s.codShedSync).dmaShedSync).dspShedSync.codKick

/-- One step more where a unit in scope stays exhausted and the previous step has taken effect. -/
def State.shedStep (s : State) (exhausted : List Nat) : State :=
  let l := exhausted.map s.shedScope
  let last := (l.map (fun x => x.1)).foldl max 0
  let scope := (l.flatMap (fun x => x.2)).filter (fun p => !s.shed.scope.contains p)
  let step := s.g PWR PWR_SHED_STEP
  let s := if step + 1 < 3 then s else { s with shed := { s.shed with scope := s.shed.scope ++ scope.eraseDups } }
  if step < last && s.shedSettled then
    let s := { s with shed := { s.shed with scope := if 3 ≤ step + 1 then s.shed.scope else [] } }
    s.setShed (step + 1)
  else s

/-! ### The pace window (R18–R20) -/

/-- PWR_HEAD_u: headroom, the band of its die's margins, POWERED. -/
def State.setHead (s : State) (u : Nat) (h : Int) : State :=
  s.wr (PWR + PWR_HEAD.off + 4 * u) (ofSint 16 h + 2 ^ 16 * nth 0 s.supply.bands (unitDie u) + 2 ^ 18 * b2n (s.domOn (unitDomain u)))

/-- A 10 µs pace window ends, with the handshakes that each unit's monitor counted. -/
def State.paceWindow (s : State) (counts : List Nat) : State :=
  let on := (List.range 17).filter (fun u => s.domOn (unitDomain u))
  let hr (u : Nat) : Int := headroom (nth 0 counts u) (s.unitNeed false u)
  let full (u : Nat) : Int := headroom (nth 0 counts u) (s.unitNeed true u)
  let least := on.foldl (fun (a : Int × Nat) u => if hr u < a.1 then (hr u, u) else a) (32767, 0)
  let exhausted := on.filter (fun u => decide (hr u < 0))
  let calm := on.all (fun u => decide ((s.g PWR PWR_LOOP_CFG_RELEASE : Int) ≤ full u))
  let was := s.g PWR PWR_SHED_EXH
  let fresh := exhausted.filter (fun u => !bitOf was u)
  let heads := (List.range 17).map (fun u => if on.contains u then hr u else (32767 : Int))
  let s := (heads.zipIdx).foldl (fun (s : State) (x : Int × Nat) => s.setHead x.2 x.1) s
  let s := (s.p PWR PWR_MIN_HEAD_H (ofSint 16 least.1)).p PWR PWR_MIN_HEAD_UNIT least.2
  let s := (s.p PWR PWR_SHED_EXH (exhausted.foldl (fun n u => n + 2 ^ u) 0)).fault PWR 1 (!exhausted.isEmpty)
  let s := s.addSat PWR PWR_EXH_CNT (b2n (!exhausted.isEmpty))
  let s := fresh.foldl (fun (s : State) u => s.reportOnly 236 u) (s.irqIf (!fresh.isEmpty) PWR 0)
  let s := on.foldl (fun (s : State) u =>
    let s := if nth 0 counts u = 0 then s else s.count { cls := 5, ev := 0, inst := some u, amount := nth 0 counts u }
    if exhausted.contains u then s.count { cls := 5, ev := 1, inst := some u } else s) s
  let s := { s with shed := { s.shed with calm := calm } }
  if exhausted.isEmpty then s else s.shedStep exhausted

/-! ### The supply loop (R702–R706) -/

/-- One bit of the CRC-8 of R703, polynomial 0x07. -/
def crc8Bit (c : Nat) (b : Bool) : Nat := if (bitOf c 7) != b then ((c * 2) % 256) ^^^ 7 else (c * 2) % 256

/-- A frame or an answer with its CRC-8 over bits [23:8]. -/
def avsWord (x : Nat) : Nat := x * 256 + ((List.range 16).reverse.foldl (fun c i => crc8Bit c (bitOf x i)) 0)

def avsSet (code : Nat) : Nat := avsWord (1 * 2 ^ 14 + code * 2 ^ 6)
def avsGet : Nat := avsWord (2 * 2 ^ 14)
def avsIsSet (f : Nat) : Bool := fld f 22 2 == 1

/-- A frame is sent on AVS_DATA. -/
def State.avsSend (s : State) (f : Nat) (retry : Bool) : State :=
  let s := { s with supply := { s.supply with asked := some f, again := none, retried := retry } }
  let s := if retry then s.addSat PWR PWR_AVS_CNT_RETRIES 1 else s
  (if avsIsSet f then s.addSat PWR PWR_AVS_CNT_SETS 1 else s).emit (.avs f)

/-- The longer margins that wait apply (R694). -/
def State.marginsApply (s : State) : State :=
  let bands := s.supply.margin.foldl (fun l m => upd l m.1 (fun _ => m.2)) s.supply.bands
  let s := { s with supply := { s.supply with bands := bands, margin := [], raiseDue := false } }
  (List.range 17).foldl (fun (s : State) u => s.p (PWR + 4 * u) PWR_HEAD_BAND (nth 0 bands (unitDie u))) s

/-- No raise can be sent: the loop is held, not enabled, or at VMAX (R694). -/
def State.noRaise (s : State) : Bool :=
  s.supply.held || !s.on PWR PWR_LOOP_CFG_EN || s.g PWR PWR_VFAB_REQ == s.g PWR PWR_VLIM_VMAX

/-- A die's zone changes band (R694). -/
def State.dieBand (s : State) (die band : Nat) : State :=
  let m := (die, band)
  let s := { s with supply := { s.supply with margin := m :: s.supply.margin.filter (fun x => x.1 != die) } }
  if band ≤ nth 0 s.supply.bands die then
    let rest := s.supply.margin.filter (fun x => x.1 != die)
    let s := { s with supply := { s.supply with margin := [m] } }
    let due := s.supply.raiseDue
    let s := s.marginsApply
    { s with supply := { s.supply with margin := rest, raiseDue := due && !rest.isEmpty } }
  else if s.noRaise then s.marginsApply
  else { s with supply := { s.supply with raiseDue := true } }

/-- SET(target), with what it means for a raise. -/
def State.loopSet (s : State) (target : Nat) : State :=
  let up := decide (s.g PWR PWR_VFAB_REQ < target)
  let s := { s with supply := { s.supply with raise := if up then some (target, false) else s.supply.raise } }
  (s.p PWR PWR_VFAB_REQ target).avsSend (avsSet target) false

/-- The end of a 10 µs window of the loop (R702). -/
def State.loopWindow (s : State) : State :=
  let h := sint 16 (s.g PWR PWR_MIN_HEAD_H)
  let g (f : Fld) := s.g PWR f
  let req := g PWR_VFAB_REQ
  let vmax := g PWR_VLIM_VMAX
  let low := if (g PWR_LOOP_CFG_LOWER_THR : Int) < h then s.supply.low + 1 else 0
  let s := { s with supply := { s.supply with low := low } }
  match s.supply.again with
  | some f => s.avsSend f true
  | none =>
    let s := if s.supply.raiseDue && s.noRaise then s.marginsApply else s
    if s.supply.held || !s.on PWR PWR_LOOP_CFG_EN then s.avsSend avsGet false
    else if s.supply.raiseDue && s.supply.raise.isNone then
      { s with supply := { s.supply with raiseDue := false } }.loopSet (min (req + 8) vmax)
    else
      let wanted := decide (h < (g PWR_LOOP_CFG_RAISE_THR : Int))
      let s := s.irqIf (wanted && req == vmax) PWR 3
      let target :=
        if h < (g PWR_LOOP_STEP_EMERG_THR : Int) then min (req + 4 * g PWR_LOOP_STEP_UP) vmax
        else if wanted then min (req + g PWR_LOOP_STEP_UP) vmax
        else if 100 * g PWR_LOOP_STEP_LOWER_HOLD ≤ low && g PWR_SHED_STEP == 0 then max (req - g PWR_LOOP_STEP_DN) (g PWR_VLIM_VMIN)
        else req
      if target = req || (decide (req < target) && s.supply.raise.isSome) then s.avsSend avsGet false
      else
        let s := if target < req then { s with supply := { s.supply with low := 0 } } else s
        s.loopSet target

/-- A supply fault (R704). -/
def State.avsFault (s : State) : State :=
  let s := { s with supply := { s.supply with held := true, asked := none, again := none, retried := false } }
  (((s.report { src := 238, unit := 0, detail := 0x1FF, lasting := true } (fun s => s)).irq PWR 2).fault PWR 0 true)

/-- The regulator's answer, or none (R703, R704). -/
def State.avsAnswer (s : State) (a : Option Nat) : State :=
  match s.supply.asked with
  | none => s
  | some f =>
    let good := match a with | some v => avsWord (v / 256) == v && fld v 22 2 != 3 | none => false
    let v := a.getD 0
    if !good then
      (if s.supply.retried then s.avsFault else { s with supply := { s.supply with asked := none, again := some f } })
    else
      let s := { s with supply := { s.supply with asked := none, retried := false } }
      let status := fld v 22 2
      let code := fld v 14 8
      if status = 2 then s.avsFault
      else
        let s := (s.p PWR (if avsIsSet f then PWR_VFAB_ACK else PWR_VFAB_MEAS) code).p PWR PWR_VFAB_BUSY status
        if status = 1 then s
        else
          let s := ({ s with supply := { s.supply with held := false } }).fault PWR 0 false
          match s.supply.raise with
          | some (c, _) =>
            if !avsIsSet f && c == code then
              let due := s.supply.raiseDue
              let s := { s with supply := { s.supply with raise := none } }
              if due then s else s.marginsApply
            else s
          | none => s

/-- A raise has drawn no OK within its bound (R694, R706). -/
def State.raiseTimeout (s : State) : State :=
  match s.supply.raise with
  | none => s
  | some (code, again) =>
    let s := if s.supply.raiseDue then s else s.marginsApply
    if again then { s with supply := { s.supply with raise := none } }.avsFault
    else { s with supply := { s.supply with raise := some (code, true), again := some (avsSet code) } }

/-! ### Domains and their pages (R65, R707, R779) -/

/-- The pages that share a domain. -/
def domPages (d : Nat) : List Nat :=
  if 192 ≤ d && d ≤ 215 then [LNK (d - 192)]
  else if 216 ≤ d && d ≤ 220 then PSL (d - 216) :: (List.range 4).map (fun t => CLR (4 * (d - 216) + t))
  else if 221 ≤ d && d ≤ 224 then WIT (d - 221) :: (List.range 2).map (fun t => CLR (20 + 2 * (d - 221) + t))
  else if 225 ≤ d && d ≤ 228 then [COD (d - 225)]
  else if 229 ≤ d && d ≤ 232 then [ETH (d - 229)]
  else if 233 ≤ d && d ≤ 236 then [HBM (d - 233)]
  else if d = 237 then [VLC] else if d = 238 then [GCX] else if d = 239 then [DSP]
  else if d = 240 then XLT :: (List.range 16).map (fun c => DMA c)
  else []

/-- The domain of an instance; none: always-on. -/
def instDomain (blk : Blk) (i : Nat) : Option Nat :=
  match blk with
  | .lnk => some (192 + i)
  | .psl => some (216 + i)
  | .clr => some (if i < 20 then 216 + i / 4 else 221 + (i - 20) / 2)
  | .wit => some (221 + i)
  | .cod => if i < 4 then some (225 + i) else none
  | .eth => some (229 + i)
  | .hbm => some (233 + i)
  | .vlc => some 237
  | .gcx => some 238
  | .dsp => some 239
  | .xlt | .dma => some 240
  | _ => none

/-- The self-test whose target is in a domain: it ends ABORTED with the domain's power (R683). -/
def testTarget (d : Nat) : Option (Nat × Nat) :=
  if 192 ≤ d && d ≤ 215 then some (6, d - 192)
  else if 216 ≤ d && d ≤ 220 then some (1, d - 216)
  else if 221 ≤ d && d ≤ 224 then some (3, d - 221)
  else if 225 ≤ d && d ≤ 228 then some (4, d - 225)
  else none

/-- A domain's outputs are on or off at the end of its transition: POWERED of its pages, and what follows it. -/
def State.domPowered (s : State) (d : Nat) (up : Bool) : State :=
  let s := (domPages d).foldl (fun (s : State) b => s.p b PAGE_STAT_POWERED (b2n up)) s
  let s := if up then s else match testTarget d with | some (kind, i) => s.testYield kind i | none => s
  if 192 ≤ d && d ≤ 215 then
    let q := LNK (d - 192)
    ((s.p q LNK_QUAD_STAT_PLL_A_LOCK (b2n up)).p q LNK_QUAD_STAT_PLL_B_LOCK (b2n up)).p q LNK_QUAD_STAT_PLL_ACTIVE 0
  else if 233 ≤ d && d ≤ 236 then s.p (HBM (d - 233)) HBM_STAT_PLL_LOCK (b2n up)
  else if d = 239 then (if up then s.p DSP DSP_STAT_HPD (b2n s.dsp.hpd) else s)
  else if d = 220 then s.spareSync
  else s

/-- A granted segment settles; with the last one the domain's pages follow. -/
def State.segmentSettled (s : State) (d : Nat) : State :=
  match s.seqSettle d with
  | (some up, s) => s.domPowered d up
  | (none, s) => s

/-- The power request of an instance reaches its domain (R779). -/
def State.domRequest (s : State) (blk : Blk) (i : Nat) : State :=
  match instDomain blk i with
  | none => s
  | some d => s.seqRequest d ((domPages d).any (fun b => s.g b PAGE_CTRL_POWER_REQ == 1))

/-! ### Commands -/

/-- PACE_WINDOW_END (R14, R20): the handshakes that each unit's pace monitor counted in the window. -/
def execPaceWindowEnd (counts : List Nat) (s : State) : Host.Outcome State Fault Refusal := .next (s.paceWindow counts)

/-- SHED_RELEASE (R277): 100 ms at or above the release margin; the orderly shutdown holds its steps (R697). -/
def execShedRelease (s : State) : Host.Outcome State Fault Refusal :=
  let step := s.g PWR PWR_SHED_STEP
  .next (if step ≠ 0 ∧ s.shed.calm ∧ s.g THM THM_STAT_STAGE = 0 then s.setShed (step - 1) else s)

/-- SUPPLY_LOOP_WINDOW (R702). -/
def execSupplyLoopWindow (s : State) : Host.Outcome State Fault Refusal := .next s.loopWindow

/-- AVS_ANSWER (R703): none where no answer came. -/
def execAvsAnswer (answer : Option (BitVec 24)) (s : State) : Host.Outcome State Fault Refusal :=
  .next (s.avsAnswer (answer.map (fun a => a.toNat)))

/-- AVS_RAISE_TIMEOUT (R706). -/
def execAvsRaiseTimeout (s : State) : Host.Outcome State Fault Refusal := .next s.raiseTimeout

/-- DOMAIN_SEGMENT_SETTLED (R708). -/
def execDomainSegmentSettled (d : Fin 265) (s : State) : Host.Outcome State Fault Refusal := .next (s.segmentSettled d)

/-- PACE_BUDGET_WINDOW (R708). -/
def execPaceBudgetWindow (s : State) : Host.Outcome State Fault Refusal := .next s.seqWindow

end Sys2Proof.Machine
end

