-- ==== Sys2Proof/Machine/Thermal.lean ====
section
/-! DEFINITION. Sensors and the housekeeping round (R688–R695), orderly shutdown (R696–R699), the HBM refresh multiplier (R471). -/

namespace Sys2Proof.Machine

/-! ### Sensors (R688, R690) -/

/-- The zone of a sensor. -/
def sensorZone (i : Nat) : Nat :=
  if i < 24 then 0 else if i < 48 then 1 else if i < 60 then 2 + (i - 48) / 2 else if i < 62 then 0 else 1

/-- The grid sensors one row or one column away in the same die's grid. -/
def gridNear (i : Nat) : List Nat :=
  let base := if i < 24 then 0 else 24
  let r := (i - base) / 6
  let c := (i - base) % 6
  (if 0 < r then [i - 6] else []) ++ (if r < 3 then [i + 6] else []) ++ (if 0 < c then [i - 1] else []) ++ (if c < 5 then [i + 1] else [])

/-- The sensors whose median a sensor is compared with (R690). -/
def sensorPeers (i : Nat) : List Nat :=
  if i < 48 then gridNear i
  else if i < 60 then []
  else if i < 62 then List.range 24 else (List.range 24).map (fun j => 24 + j)

/-- The place of an element in a rising list. -/
def insertInt (x : Int) : List Int → List Int
  | [] => [x]
  | y :: r => if x ≤ y then x :: y :: r else y :: insertInt x r

def sortInts (l : List Int) : List Int := l.foldl (fun a x => insertInt x a) []

/-- Twice the median: with an even count the mean of the two middle values is taken. -/
def median2 (l : List Int) : Int :=
  let x := sortInts l
  if l.length % 2 = 1 then 2 * nth 0 x (l.length / 2) else nth 0 x (l.length / 2 - 1) + nth 0 x (l.length / 2)

def State.sensorBroken (s : State) (i : Nat) : Bool := s.on (THM + 4 * i) THM_SENS_BROKEN
def State.sensorRead (s : State) (i : Nat) : Int := sint 11 (s.g (THM + 4 * i) THM_SENS_TEMP)

/-- A reading in units of 0.25 °C lies from −40 °C to 150 °C and its count is not zero (R690). -/
def readingOk (x : Nat × Int) : Bool := x.1 != 0 && decide (-160 ≤ x.2) && decide (x.2 ≤ 600)

/-- A sensor passes its check in this round: readings give each sensor's raw count and temperature (R690). -/
def State.sensorPasses (s : State) (readings : List (Nat × Int)) (i : Nat) : Bool :=
  let x := nth (0, 0) readings i
  let peers := (sensorPeers i).filter (fun j => !s.sensorBroken j && readingOk (nth (0, 0) readings j))
  let m := median2 (peers.map (fun j => (nth (0, 0) readings j).2))
  readingOk x && (peers.isEmpty || decide ((2 * x.2 - m).natAbs ≤ 8 * s.g THM THM_CFG_0_XCHK))

/-- The check of a sensor: its reading, and the retry of a failure in the next round (R690). -/
def State.sensorCheck (s : State) (passes : Bool) (x : Nat × Int) (i : Nat) : State :=
  let s := s.p (THM + 4 * i) THM_SENS_RAW (min x.1 0xFFFF)
  if s.sensorBroken i then s
  else
    let failed := s.thermal.failed.contains i
    let drop (s : State) : State := { s with thermal := { s.thermal with failed := s.thermal.failed.filter (fun j => j != i) } }
    if passes then
      let s := s.p (THM + 4 * i) THM_SENS_TEMP (ofSint 11 x.2)
      if failed then (drop s).reportOnly 237 i else s
    else
      let s := s.irq THM 3
      if failed then
        let s := (((drop s).p (THM + 4 * i) THM_SENS_BROKEN 1).pBit (THM + 4 * (i / 32)) THM_BROKEN_LO (i % 32) true).fault THM 0 true
        s.report { src := 237, unit := 0, detail := i, lasting := true } (fun s => s)
      else { s with thermal := { s.thermal with failed := i :: s.thermal.failed } }

/-- The two sensors of a chiplet are compared with each other (R691). -/
def State.pairCheck (s : State) (k : Nat) : State :=
  let a := 48 + 2 * k
  if s.sensorBroken a || s.sensorBroken (a + 1) then s
  else if 4 * s.g THM THM_CFG_0_XCHK < (s.sensorRead a - s.sensorRead (a + 1)).natAbs then s.reportOnly 237 (a + 1) else s

def State.validSensors (s : State) : List Nat := (List.range 64).filter (fun i => !s.sensorBroken i)

/-- The highest of some readings; none of none. -/
def highest : List Int → Option Int
  | [] => none
  | x :: r => some (r.foldl max x)

/-- The hot default of a zone: 10 °C above its highest valid reading, or 105 °C (R692). -/
def State.hotDefault (s : State) (z : Nat) : Int :=
  match highest ((s.validSensors.filter (fun i => sensorZone i == z)).map s.sensorRead) with
  | some t => t + 40
  | none => 420

/-- Broken sensors read their zone's hot default. -/
def State.substitute (s : State) : State :=
  let hot := (List.range 8).map s.hotDefault
  ((List.range 64).filter s.sensorBroken).foldl (fun (s : State) i =>
    (s.p (THM + 4 * i) THM_SENS_TEMP (ofSint 11 (nth 0 hot (sensorZone i)))).p (THM + 4 * i) THM_SENS_SUBST 1) s

/-! ### Bands (R693) and their users -/

/-- Up while the temperature is at or above the next boundary. -/
def bandUp (b : List Int) (t : Int) (k : Nat) : Nat :=
  (List.range 3).foldl (fun n i => if n = i ∧ nth 0 b i ≤ t then n + 1 else n) k

/-- Down while the temperature is at or below the boundary by HYST. -/
def bandDown (b : List Int) (hyst t : Int) (k : Nat) : Nat :=
  (List.range 3).foldl (fun n i => if n = 3 - i ∧ t ≤ nth 0 b (n - 1) - hyst then n - 1 else n) k

/-- The band that a zone in band k enters at a temperature. -/
def State.bandOf (s : State) (t : Int) (k : Nat) : Nat :=
  let b : List Int := [THM_BAND_CFG_B1, THM_BAND_CFG_B2, THM_BAND_CFG_B3].map (fun f => (4 * s.g THM f : Nat))
  bandDown b (4 * s.g THM THM_BAND_CFG_HYST) t (bandUp b t k)

def State.zoneBand (s : State) (z : Nat) : Nat := s.g (THM + 4 * z) THM_ZONE_BAND

/-- The refresh multiplier of an interface: by its die's band and, with STACK_EN, by the stack's own temperature (R471). -/
def State.hbmMult (s : State) (k : Nat) : State :=
  let b := HBM k
  let byBand := nth 0 ([HBM_REF_CFG_TB0, HBM_REF_CFG_TB1, HBM_REF_CFG_TB2, HBM_REF_CFG_TB3].map (fun f => s.g b f)) (s.zoneBand (k / 2))
  let t := sint 8 (s.g b HBM_TEMP_TEMP)
  let byStack := if s.on b HBM_REF_CFG_STACK_EN then (if 95 ≤ t then 2 else if 85 ≤ t then 1 else 0) else 0
  let m := max byBand byStack
  if s.g b HBM_TEMP_MULT = m then s else (s.p b HBM_TEMP_MULT m).irq b 6

/-- A zone's temperature and band; the users of a changed band follow (R693). The answer says whether the band changed. -/
def State.zoneRound (s : State) (z : Nat) : Bool × State :=
  let t := (highest (((List.range 64).filter (fun i => sensorZone i == z)).map s.sensorRead)).getD 0
  let old := s.zoneBand z
  let new := s.bandOf t old
  let s := (s.p (THM + 4 * z) THM_ZONE_TEMP (ofSint 11 t)).p (THM + 4 * z) THM_ZONE_BAND new
  if new = old then (false, s)
  else if z < 2 then (true, s.dieBand z new)
  else (true, forN 4 s (fun i s => s.quadBand (4 * (z - 2) + i) new))

/-! ### Orderly shutdown (R696–R699) -/

/-- Orderly shutdown begins. -/
def State.shutdownBegin (s : State) (cause detail : Nat) : State :=
  let s := { s with thermal := { s.thermal with host := false, drain := 0, drained := false } }
  let s := ((s.p THM THM_STAT_STAGE 1).p THM THM_STAT_CAUSE cause).irq THM 4
  let s := (s.fault THM 1 true).report { src := 237, unit := 0, detail := detail, lasting := true } (fun s => s)
  let s := (s.faultNCause false).setShed (max 10 (s.g PWR PWR_SHED_STEP))
  forN 4 s (fun w s => s.witAbandon w 6)

/-- The drain ends: head frames in progress are abandoned, updates issued complete, every stack enters self-refresh. -/
def State.drainEnd (s : State) (hard : Bool) : State :=
  let s := { s with thermal := { s.thermal with drained := true } }
  let s := s.p THM THM_STAT_HARD (b2n hard)
  let s := forN 4 s (fun h s => s.abandonAll h 8)
  forN 4 s (fun k s => s.p (HBM k) HBM_STAT_IN_SR 1)

/-- Every frame of the heads is accepted or abandoned, and the write buffer holds no write without its APPLIED entry. -/
def State.drainDone (s : State) : Bool :=
  (List.range 4).all (fun h => (s.ig h).cur.isNone && (s.rawOf h).isEmpty) && s.tsq.cmds.all (fun c => !(c.isWrite && c.started && !c.applied))

/-- The reading of a sensor ROR_WIN before the latest, and before it where the rounds are too few the oldest one. -/
def State.readBefore (s : State) (i : Nat) : Int :=
  let n := 10 * s.g THM THM_CFG_1_ROR_WIN
  let old := s.thermal.past
  match (if n ≤ old.length then (old.drop (n - 1)).head? else old.getLast?) with
  | some l => nth 0 l i
  | none => s.sensorRead i

/-- The hard condition (R698). -/
def State.hardCondition (s : State) (hot : Nat) : Bool :=
  let t := s.sensorRead hot
  let rise := t - s.readBefore hot
  let left : Int := (s.g THM THM_CFG_1_DRAIN : Int) - s.thermal.drain
  decide (460 ≤ t) || (decide (0 < rise) && decide ((460 - t) * (10 * s.g THM THM_CFG_1_ROR_WIN : Nat) < rise * left))

/-! ### The round (R689) -/

/-- Interrupt bits that are raised again only after a clear round (R695). -/
def State.thresholds (s : State) (hi ror band : Bool) : State :=
  let old := s.thermal
  let s := ((s.irqIf (hi && !old.hi) THM 0).irqIf (ror && !old.ror) THM 1).irqIf (band && !old.band) THM 2
  { s with thermal := { s.thermal with hi := hi, ror := ror, band := band } }

/-- The readings enter the history that rate-of-rise looks back on: at most 1,000 rounds (R711). -/
def State.remember (s : State) : State :=
  { s with thermal := { s.thermal with past := ((List.range 64).map s.sensorRead :: s.thermal.past).take 1001 } }

/-- The causes of an orderly shutdown at the end of a round, in the order of R696. -/
def State.shutdownCause (s : State) (hot : Option Nat) : Option (Nat × Nat) :=
  let few (die : Nat) : Bool := decide (((List.range 24).filter (fun i => !s.sensorBroken (24 * die + i))).length < 8)
  let shut := 4 * s.g THM THM_CFG_0_SHUT
  match hot with
  | some i => if (shut : Int) ≤ s.sensorRead i then some (1, i) else if few 0 || few 1 then some (2, 0) else if s.thermal.host then some (3, 0) else none
  | none => some (2, 0)

/-- The hottest valid sensor. -/
def State.hottest (s : State) : Option Nat :=
  s.validSensors.foldl (fun (a : Option Nat) i =>
    match a with
    | some j => if s.sensorRead j < s.sensorRead i then some i else a
    | none => some i) none

/-- A stack's temperature is read into HBM_TEMP while its interface is powered (R471, R689). -/
def State.stackTemp (s : State) (t : Int) (k : Nat) : State :=
  if s.powered (HBM k) then (s.p (HBM k) HBM_TEMP_TEMP (ofSint 8 t)).hbmMult k else s

/-- The housekeeping round. -/
def State.housekeeping (s : State) (readings : List (Nat × Int)) (temps : List Int) : State :=
  let passes := (List.range 64).map (s.sensorPasses readings)
  let s := forN 64 s (fun i s => s.sensorCheck (nth false passes i) (nth (0, 0) readings i) i)
  let s := (forN 6 s (fun k s => s.pairCheck k)).substitute
  let (band, s) := (List.range 8).foldl (fun (x : Bool × State) z => let y := x.2.zoneRound z; (x.1 || y.1, y.2)) (false, s)
  let s := forN 4 s (fun k s => s.stackTemp (nth 0 temps k) k)
  let valid := s.validSensors
  let hot := s.hottest
  let hi := valid.any (fun i => decide (((4 * s.g THM THM_CFG_0_HI : Nat) : Int) ≤ s.sensorRead i))
  let ror := valid.any (fun i => decide ((s.g THM THM_CFG_1_ROR_THR : Int) < s.sensorRead i - s.readBefore i))
  let hard := match hot with | some i => s.hardCondition i | none => false
  let s := s.thresholds hi ror band
  let s := match hot with | some i => (s.p THM THM_MAX_TEMP (ofSint 11 (s.sensorRead i))).p THM THM_MAX_SENSOR i | none => s
  let cool := valid.all (fun i => decide (s.sensorRead i + 60 ≤ ((4 * s.g THM THM_CFG_0_SHUT : Nat) : Int)))
  let s := ((s.p THM THM_STAT_COOL (b2n cool)).addMod THM THM_ROUND 1).remember.count { cls := 1, ev := 1 }
  match s.g THM THM_STAT_STAGE with
  | 0 => match s.shutdownCause hot with | some (c, d) => s.shutdownBegin c d | none => s
  | 1 =>
    if s.thermal.drained then s
    else if hard then s.drainEnd true
    else { s with thermal := { s.thermal with drain := s.thermal.drain + 1 } }
  | _ => s

/-- THM_CTRL written: a SHUTDOWN waits for the end of its round (R696). -/
def State.thmCtrl (s : State) (v : Nat) : State :=
  if bitOf v 0 && s.g THM THM_STAT_STAGE == 0 then { s with thermal := { s.thermal with host := true } } else s

/-- Power-down of every switched domain but Q20–Q23 with their lane halves and the Sump groups; feeds and links go off (R697). -/
def State.stopped (s : State) : State :=
  let s := s.p THM THM_STAT_STAGE 2
  let s := forN 80 s (fun n s => (s.kick n false).kick n true)
  let doms := (List.range 241).filter (fun d => !((160 ≤ d && d ≤ 191) || (212 ≤ d && d ≤ 215)))
  let s := doms.foldl (fun (s : State) d => s.seqRequest d false) s
  forN 4 s (fun h s => s.feedOff h)

/-- A shutdown ends with the reset that leaves it (R699). -/
def State.shutdownLeave (s : State) : State :=
  let s := { s with thermal := { s.thermal with drained := false, drain := 0, host := false } }
  let s := (((s.p THM THM_STAT_STAGE 0).p THM THM_STAT_CAUSE 0).p THM THM_STAT_HARD 0).fault THM 1 false
  s.setShed 0

/-! ### Commands -/

/-- HOUSEKEEPING_ROUND (R689): each sensor's raw count and its reading in 0.25 °C, and each stack's temperature in °C. -/
def execHousekeepingRound (readings : List (Nat × Int)) (temps : List Int) (s : State) : Host.Outcome State Fault Refusal :=
  .next (s.housekeeping readings temps)

/-- THM_SHUTDOWN (R696). -/
def execThmShutdown (s : State) : Host.Outcome State Fault Refusal := .next (s.hostReg (THM + 0x10C) 1 (fun s => s.thmCtrl 1))

/-- DRAIN_END (R697): by completion or by the DRAIN timer; the hard condition ends the drain within its round. -/
def execDrainEnd (s : State) : Host.Outcome State Fault Refusal :=
  .next (if s.g THM THM_STAT_STAGE = 1 ∧ !s.thermal.drained ∧ (s.drainDone ∨ s.g THM THM_CFG_1_DRAIN ≤ s.thermal.drain) then s.drainEnd false else s)

/-- SHUTDOWN_STOPPED (R697). -/
def execShutdownStopped (s : State) : Host.Outcome State Fault Refusal :=
  .next (if s.g THM THM_STAT_STAGE = 1 ∧ s.thermal.drained then s.stopped else s)

end Sys2Proof.Machine
end

