-- ==== Sys2Proof/Machine/Counters.lean ====
section
/-! DEFINITION. The counters' own registers (R719–R728) and the BAR4 window (R725, R726). What is counted stands with the events
(State.count). -/

namespace Sys2Proof.Machine

/-- CNT_STAT.ENABLED: counters with EN 1. -/
def State.cntEnabled (s : State) : Nat := ((List.range 256).filter (fun n => s.on (CNT + 4 * n) CNT_CFG_EN)).length

/-- Every counter and every OVF bit to zero (R724). -/
def State.cntClear (s : State) : State :=
  forN 8 { s with cnt := s.cnt.map (fun _ => 0) } (fun k s => s.p (CNT + 4 * k) CNT_OVF 0)

/-- CNT_CTRL written: RUN takes effect at one edge and settles later (R720); CLEAR_ALL is done at once (R724). -/
def State.cntCtrl (s : State) (v : Nat) : State :=
  let was := s.on CNT CNT_CTRL_RUN
  let s := if bitOf v 2 then s.cntClear else s
  let s := (s.p CNT CNT_CTRL_RUN (b2n (bitOf v 0))).p CNT CNT_CTRL_USER_EN (b2n (bitOf v 1))
  if was = bitOf v 0 then s else s.p CNT CNT_STAT_SETTLED 0

/-- CNT_CFG_n written: the value stays (R721). -/
def State.cntCfg (s : State) (n v : Nat) : State :=
  let s := s.plainWrite (CNT + 0x1100 + 4 * n) v
  s.p CNT CNT_STAT_ENABLED s.cntEnabled

/-- CNT_VAL_LO_n and CNT_VAL_HI_n, by their place on pages 2 and 3 (R728). -/
def cntVal (n : Nat) : Nat := CNT + 0x2000 + 0x1000 * (n / 128) + 0x100 + 8 * (n % 128)

/-- A write of half a counter's value: refused while its EN is 1 (R721). -/
def State.cntValWrite (s : State) (n : Nat) (high : Bool) (v : Nat) : State :=
  if s.on (CNT + 4 * n) CNT_CFG_EN then s.refuse (cntVal n + (if high then 4 else 0)) 4
  else { s with cnt := upd s.cnt n (fun x => if high then x % 2 ^ 32 + 2 ^ 32 * (v % 2 ^ 16) else x / 2 ^ 32 * 2 ^ 32 + v % 2 ^ 32) }

/-- A counter's OVF bit. -/
def State.cntOvf (s : State) (n : Nat) : Bool := s.gBit (CNT + 4 * (n / 32)) CNT_OVF (n % 32)

/-- A read of CNT_VAL_LO_n latches the upper bits and OVF (R722). -/
def State.cntLatch (s : State) (n : Nat) : State :=
  s.wr (cntVal n + 4) (nth 0 s.cnt n / 2 ^ 32 % 2 ^ 16 + 2 ^ 16 * b2n (s.cntOvf n))

/-- The 8 bytes of counter n in the BAR4 window, as a number (R725). A read of the window changes nothing (R726). -/
def State.bar4 (s : State) (n : Nat) : Nat :=
  if s.on CNT CNT_CTRL_USER_EN && n < 256 && s.gBit (CNT + 4 * (n / 32)) CNT_USER (n % 32) then nth 0 s.cnt n + 2 ^ 48 * b2n (s.cntOvf n) else 0

/-! ### Commands -/

/-- CNT_RUN (R720): a write of CNT_CTRL with RUN and USER_EN. -/
def execCntRun (run userEn : Bool) (s : State) : Host.Outcome State Fault Refusal :=
  let v := b2n run + 2 * b2n userEn
  .next (s.hostReg (CNT + 0x100) v (fun s => s.cntCtrl v))

/-- CNT_SETTLED (R720). -/
def execCntSettled (s : State) : Host.Outcome State Fault Refusal := .next (s.p CNT CNT_STAT_SETTLED 1)

/-- CLEAR_ALL (R724): a write of CNT_CTRL that leaves RUN and USER_EN as they are. -/
def execClearAll (s : State) : Host.Outcome State Fault Refusal :=
  let v := b2n (s.on CNT CNT_CTRL_RUN) + 2 * b2n (s.on CNT CNT_CTRL_USER_EN) + 4
  .next (s.hostReg (CNT + 0x100) v (fun s => s.cntCtrl v))

/-- CNT_CFG_WRITE (R721). -/
def execCntCfgWrite (n : Fin 256) (value : Word) (s : State) : Host.Outcome State Fault Refusal :=
  .next (s.hostReg (CNT + 0x1100 + 4 * n.val) value.toNat (fun s => s.cntCfg n.val value.toNat))

/-- COUNTER_READ (R722): a read of CNT_VAL_LO_n, of 8 bytes with CNT_VAL_HI_n where wide. -/
def execCounterRead (n : Fin 256) (wide : Bool) (s : State) : Host.Outcome State Fault Refusal :=
  .next (s.host (fun s =>
    let s := s.hostCount 0 none none (if wide then 8 else 4)
    if s.on TOP TOP_RESET_STAT_WARM_BUSY then s.emit (.barData (List.replicate (if wide then 8 else 4) 0) false)
    else
      let s := s.cntLatch n.val
      let lo := leBytes 4 (nth 0 s.cnt n.val % 2 ^ 32)
      s.emit (.barData (if wide then lo ++ leBytes 4 (s.rd (cntVal n.val + 4)) else lo) false)))

end Sys2Proof.Machine
end

