-- ==== Sys2Proof/Machine/Selftest.lean ====
section
/-! DEFINITION. Events that a checker reports to Bittern, with the switch-over of each source (R666–R668, R90), fault injection
(R675–R681, R780) and self-tests (R682–R684). -/

namespace Sys2Proof.Machine

/-! ### Switch-over (R90) -/

/-- The spare slice is lost, or a bound slice's binding moves. -/
def State.sliceSwitch (s : State) (p : Nat) : State :=
  if p = 4 && s.on (PSL 4) PSL_STAT_SPARE then s.retireSpare else s.sliceLasting p

/-- A lasting state area (R523): the context's running job ends FAILED with detail BUS. -/
def State.stateAreaLost (s : State) (c : Nat) : State :=
  let s := s.fault CTX4 0 true
  match (s.cx c).current with
  | some j => (s.codDecide c j 1 2).codKick
  | none => s

/-- What the resource of a source does when its fault is lasting, or severe with severe action 0 (R90, R668). -/
def State.switchOver (s : State) (n unit detail : Nat) : State :=
  if n < 96 then
    if s.cwyLane n then s.laneLost (n / 12) (n % 12) (fld detail 4 4)
    else if n < 80 then s.portLaneLost n else s
  else if n < 128 then s
  else if n < 173 then s.sliceSwitch ((n - 128) / 9)
  else if n < 177 then s.witStop (n - 173)
  else if n = 177 then s.dspStop
  else if n < 182 then s.vlcForce (n - 178)
  else if n < 187 then s
  else if n = 187 then s.stateAreaLost (fld detail 0 6)
  else if n < 192 then s
  else if n < 208 then (if s.g (DMA (n - 192)) DMA_STAT_STATE = 5 then s else s.dmaHalt (n - 192) 2 false)
  else if n < 212 then
    let k := n - 208
    let t := fld detail 0 3
    if (s.sesAlt k t).isSome && !s.on (sesBase k t) ETH_SES_STAT_ON_ALT then s.sesToAlt k t else s
  else if n < 236 then s.bankLasting (8 * (n - 212) + unit % 8)
  else if n < 256 then s
  else s.pcLasting (n - 256)

/-- An event of any source, with its switch-over where one falls due. -/
def State.faultEvent (s : State) (n unit detail : Nat) (lasting : Bool) : State :=
  s.report { src := n, unit := unit, detail := detail, lasting := lasting } (fun s => s.switchOver n unit detail)

/-! ### Injection (R675–R681) -/

/-- A source accepts injection of a UNIT (R664, R676). -/
def State.injectable (s : State) (n unit : Nat) : Bool :=
  if n < 96 then s.cwyLane n && unit == 0
  else if n = 124 then true
  else if 128 ≤ n && n ≤ 177 then true
  else if 178 ≤ n && n ≤ 181 then unit == 0
  else if 183 ≤ n && n ≤ 186 then true
  else if n = 190 then unit == 0
  else if 212 ≤ n && n ≤ 235 then decide (unit < 8)
  else 256 ≤ n && n ≤ 511 && unit == 0

/-- The protection of the source's class is full (R780). -/
def State.protectionFull (s : State) (n : Nat) : Bool :=
  if n < 96 then s.g (CWY (n / 12)) CWY_STAT_PROT == 2
  else if 128 ≤ n && n ≤ 172 then s.on (PSL 4) PSL_STAT_SPARE && !s.on (PSL 4) PSL_STAT_RETIRED
  else if 212 ≤ n && n ≤ 235 then !s.on SMP SMP_STAT_NO_RESERVE && !s.on SMP SMP_STAT_REMAP_PEND
  else if 256 ≤ n then
    (List.range 256).all (fun g => !s.pcFailed g || s.spareLogged g) && !s.on (HBM 0) HBM_SPARE_STAT_SPARING &&
      s.g (HBM 0) HBM_SPARE_STAT_UNSPARED == 0 && decide (s.g (HBM 0) HBM_SPARE_STAT_USED < s.g (HBM 0) HBM_SPARE_STAT_SLOTS)
  else true

/-- ARM is refused (R677). -/
def State.armRefused (s : State) : Bool :=
  let n := s.g BIT BIT_INJ_CFG_SOURCE
  s.g BIT BIT_INJ_STAT_STATE == 1 || !s.injectable n (s.g BIT BIT_INJ_CFG_UNIT) || s.g (bitSrc n) BIT_SRC_STAT_STATE == 3 ||
    (s.g BIT BIT_INJ_CFG_MODE == 2 && !s.protectionFull n)

/-- BIT_INJ_CTRL written. -/
def State.injCtrl (s : State) (v : Nat) : State :=
  if bitOf v 0 then
    if s.armRefused then s.refuse4 (BIT + 0x144)
    else (s.p BIT BIT_INJ_STAT_STATE 1).p BIT BIT_INJ_STAT_REAL 0
  else if bitOf v 1 && s.g BIT BIT_INJ_STAT_STATE == 1 then s.p BIT BIT_INJ_STAT_STATE 4
  else s

/-- An armed injection is disarmed by a warm reset (R678). -/
def State.injWarm (s : State) : State := if s.g BIT BIT_INJ_STAT_STATE = 1 then s.p BIT BIT_INJ_STAT_STATE 4 else s

/-- A write of BIT_INJ_CFG (R685). -/
def State.injCfg (s : State) (v : Nat) : State :=
  if s.g BIT BIT_INJ_STAT_STATE = 1 then s.refuse4 (BIT + 0x140) else s.plainWrite (BIT + 0x140) v

/-! ### Self-tests (R682–R684) -/

/-- START is refused: a test runs, the INDEX is out of range, or the target is in live use (R682). -/
def State.testRefused (s : State) : Bool :=
  let i := s.g BIT BIT_TEST_CFG_INDEX
  s.g BIT BIT_TEST_STAT_STATE == 1 ||
  match s.g BIT BIT_TEST_CFG_KIND with
  | 1 => 5 ≤ i || s.on (PSL i) PSL_STAT_BOUND || s.on (PSL i) PSL_STAT_RETIRED
  | 2 => 192 ≤ i || (s.recHolding i).isSome || s.bankFailed i
  | 3 => 4 ≤ i || s.enabled (WIT i) || s.busy (WIT i)
  | 4 => 4 ≤ i || s.enabled (COD i) || s.busy (COD i)
  | 5 => 2 ≤ i
  | 6 => 24 ≤ i || (List.range 4).all (fun l => s.halfNow (4 * i + l) false != 0)
  | _ => true

/-- A LANE_CAL calibrates every receiver of the quad in P0, ahead of the calibrations already due but for one under way (R683). -/
def State.laneCal (s : State) (q : Nat) : State :=
  let l := ((List.range 4).map (fun l => 4 * q + l)).filter (fun n => s.halfNow n false == 0)
  let due := (s.quad q).calDue
  let now := due.filter (fun n => s.on (lnb n) LNK_LANE_STAT_IN_CAL)
  let rest := due.filter (fun n => !now.contains n && !l.contains n)
  let s := s.setQuad q (fun x => { x with calDue := now ++ l.filter (fun n => !now.contains n) ++ rest })
  if now.isEmpty then s.samplerNext q else s

/-- BIT_TEST_CTRL written. -/
def State.testCtrl (s : State) (v : Nat) : State :=
  if bitOf v 0 then
    if s.testRefused then s.refuse4 (BIT + 0x164)
    else
      let s := s.p BIT BIT_TEST_STAT_STATE 1
      if s.g BIT BIT_TEST_CFG_KIND = 6 then s.laneCal (s.g BIT BIT_TEST_CFG_INDEX) else s
  else if bitOf v 1 then s.testAbort else s

/-- The source of a failed test; part is the failing stage of a slice or the failing lane of a quad (R684). -/
def testSource (kind i part : Nat) : Nat :=
  match kind with
  | 1 => sliceSource i (max 1 (min 9 part))
  | 2 => 212 + i / 8
  | 3 => 173 + i
  | 4 => 183 + i
  | 5 => 124
  | _ => 4 * i + part % 4

/-- The running test ends PASS or FAIL. -/
def State.testEnd (s : State) (pass : Bool) (part detail : Nat) : State :=
  if s.g BIT BIT_TEST_STAT_STATE ≠ 1 then s
  else if pass then (s.p BIT BIT_TEST_STAT_STATE 2).irq BIT 6
  else
    let kind := s.g BIT BIT_TEST_CFG_KIND
    let i := s.g BIT BIT_TEST_CFG_INDEX
    let n := testSource kind i part
    let detail := if kind = 2 then i % 8 else detail
    let unit := if kind = 2 then i % 8 else 0
    let s := (s.p BIT BIT_TEST_STAT_STATE 3).bitLog ⟨n, 3, false, false, detail, s.time⟩
    (s.faultEvent n unit detail true).irq BIT 6

/-! ### Commands -/

/-- FAULT_EVENT (R666): a checker's event, TRANSIENT or LASTING, of a source with its UNIT and DETAIL. -/
def execFaultEvent (source : Fin 512) (unit : BitVec 8) (detail : Word) (lasting : Bool) (s : State) : Host.Outcome State Fault Refusal :=
  .next (s.faultEvent source.val unit.toNat detail.toNat lasting)

/-- INJ_ARM (R677). -/
def execInjArm (s : State) : Host.Outcome State Fault Refusal := .next (s.hostReg (BIT + 0x144) 1 (fun s => s.injCtrl 1))

/-- INJ_DISARM (R678). -/
def execInjDisarm (s : State) : Host.Outcome State Fault Refusal := .next (s.hostReg (BIT + 0x144) 2 (fun s => s.injCtrl 2))

/-- INJ_EXPIRY (R678). -/
def execInjExpiry (s : State) : Host.Outcome State Fault Refusal :=
  .next (if s.g BIT BIT_INJ_STAT_STATE = 1 then (s.p BIT BIT_INJ_STAT_STATE 3).irq BIT 5 else s)

/-- TEST_START (R682). -/
def execTestStart (s : State) : Host.Outcome State Fault Refusal := .next (s.hostReg (BIT + 0x164) 1 (fun s => s.testCtrl 1))

/-- TEST_STOP (R683). -/
def execTestStop (s : State) : Host.Outcome State Fault Refusal := .next (s.hostReg (BIT + 0x164) 2 (fun s => s.testCtrl 2))

/-- TEST_END (R684): the test's result, the failing stage or lane, and DETAIL. -/
def execTestEnd (pass : Bool) (part : Nat) (detail : Word) (s : State) : Host.Outcome State Fault Refusal :=
  .next (s.testEnd pass part detail.toNat)

end Sys2Proof.Machine
end

