-- ==== Sys2Proof/Machine/Control.lean ====
section
/-! DEFINITION. The page header's own registers: PAGE_CTRL with ENABLE, SOFT_RESET and POWER_REQ (R39–R41, R779), commits and
reverts (R50–R59), interrupts (R60–R63). -/

namespace Sys2Proof.Machine

/-! ### Instances by summary bit (R64, R65) -/

def instIn : List Blk → Nat → Blk × Nat
  | [], _ => (.top, 0)
  | b :: r, n => if b.row.bit0 ≤ n ∧ n < b.row.bit0 + b.row.count then (b, n - b.row.bit0) else instIn r n

/-- The instance with summary bit n. -/
def instOf (n : Nat) : Blk × Nat := instIn Blk.all n

/-- The interrupts a block defines, numbered from bit 0. -/
def Blk.irqs : Blk → Nat
  | .lnk => 20 | .cwy => 9 | .ing => 7 | .psl => 14 | .clr => 5 | .wit => 8 | .smp => 7 | .vlc => 9 | .gcx => 3 | .tsq => 8
  | .hbm => 7 | .cod => 2 | .ctx => 5 | .eth => 9 | .tim => 8 | .dsp => 8 | .xlt => 5 | .dma => 5 | .bit => 7 | .thm => 5
  | .pwr => 5 | .cnt => 1 | .top => 2 | .hif => 4

/-- A write to an instance's page header, which answers whatever its power (R36), but not during a warm reset (R745). -/
def State.hdrOp (s : State) (blk : Blk) (op : State → State) : State :=
  if s.on TOP TOP_RESET_STAT_WARM_BUSY && blk != .top && blk != .hif then s else op s

/-! ### ENABLE (R39, R359 and the blocks' own refusals) -/

/-- A record that the active plan must hold before the block runs (R359). -/
def State.lacksRecord (s : State) (blk : Blk) (i : Nat) : Bool :=
  match blk with
  | .psl => !s.hasRec 1 i || !s.hasRec 2 i
  | .ing => !s.hasRec 7 i
  | .wit => !s.hasRec 9 i
  | .tsq => !s.hasRec 8 0
  | .cod => if i < 2 then !s.hasRec 10 i else !s.hasRec 11 i
  | .gcx => !s.hasRec 12 0
  | .dma => !s.hasRec 13 0
  | _ => false

/-- ENABLE is refused by the block's own rules. -/
def State.enableRefused (s : State) (blk : Blk) (i : Nat) : Bool :=
  s.lacksRecord blk i ||
  match blk with
  | .cwy => s.cwyEnableRefused i
  | .ing => !s.enabled VLC || !s.enabled TSQ || s.g TSQ TSQ_RCV_STAT_STATE != 2 || s.rd (TSQ + TSQ_AREA_LEN.off + 0x20 * i) == 0 || s.g TSQ TSQ_PWR_TARGET == 2
  | .wit => s.g (WIT i) WIT_STAT_BANK == 0
  | .eth => s.ethEnableRefused i
  | _ => false

/-- Clearing ENABLE is refused by the block's own rules (R101, R389). -/
def State.disableRefused (s : State) (blk : Blk) (i : Nat) : Bool :=
  match blk with
  | .lnk => s.ownerOn i
  | .vlc => (List.range 4).any (fun h => s.enabled (ING h) || s.busy (ING h))
  | _ => false

/-- What the block does as ENABLE rises. -/
def State.enableHook (s : State) (blk : Blk) (i : Nat) : State :=
  match blk with
  | .lnk => s.lnkEnabled i
  | .cwy => s.linkWake i
  | .ing => ((s.setIg i (fun x => { x with hasHfc := x.hasHfc && !x.rebase })).p (ING i) ING_RET_LINE 0).ingSync i
  | .wit => (s.setWit i (fun x => { x with gap := true })).witSync i
  | .tsq => s.recoveryStart
  | .cod => s.codKick
  | .ctx => s.codKick
  | .eth => s.ethEnabled i
  | .dsp => s.dspSync
  | .dma => s.dmaEnabled i
  | _ => s

/-- What the block does as ENABLE falls; what remains in hand is finished first (R39). -/
def State.disableHook (s : State) (blk : Blk) (i : Nat) : State :=
  match blk with
  | .lnk => s.lnkEnabled i
  | .cwy => s.linkDisable i
  | .ing => (s.setIg i (fun x => { x with rebase := true })).ingSync i
  | .wit => s.witSync i
  | .tsq => s.tsqSync
  | .eth => s.ethDisabled i
  | .dsp => s.dspSync
  | _ => s

/-! ### Commits that apply where no hand-over point is passed (R56–R58, R270) -/

/-- The number that the block's next hand-over point would carry (R56). -/
def State.nextNumber (s : State) (blk : Blk) (i : Nat) : Nat :=
  let ofSlice (p : Nat) : Nat := match s.boundHead p with | some h => s.g64 (ING h) ING_NEXT_SEQ_LO | none => noNumber
  match blk with
  | .ing => s.g64 (ING i) ING_NEXT_SEQ_LO
  | .psl => ofSlice i
  | .clr => if i < 20 then ofSlice (i / 4) else s.g64 (WIT ((i - 20) / 2)) WIT_NEXT_WFN_LO
  | .wit => s.g64 (WIT i) WIT_NEXT_WFN_LO
  | .dsp => (s.g64 DSP DSP_DFN_LO + 1) % 2 ^ 64
  | _ => 1

/-- A pending commit applies now. -/
def State.applyNow (s : State) (blk : Blk) (i : Nat) : State :=
  let n := s.nextNumber blk i
  if !s.on (blk.at i) PAGE_STAT_COMMIT_PEND then s
  else match blk with
  | .ing => s.applyIng i n
  | .psl => s.applySlice i n
  | .clr => s.applyClr i n
  | .dsp => s.applyDsp
  | _ => s.applyCommit blk i n

/-- The block runs, in the sense of R57: it passes hand-over points of its own or of the pipeline that it serves (R59). -/
def State.runs (s : State) (blk : Blk) (i : Nat) : Bool :=
  let on (b : Nat) : Bool := s.enabled b || s.busy b
  let slice (p : Nat) : Bool := (s.boundHead p).isSome && (on (PSL p) || s.sliceRuns p)
  match blk with
  | .psl => slice i
  | .clr => if i < 20 then slice (i / 4) else on (WIT ((i - 20) / 2))
  | _ => on (blk.at i)

/-! ### Stopping and soft reset (R41, R58, R749) -/

/-- The block holds work in progress. -/
def State.holdsWork (s : State) (blk : Blk) (i : Nat) : Bool :=
  match blk with
  | .ing => (s.ig i).cur.isSome || !(s.ig i).stats.isEmpty
  | .psl => !(s.sl i).frames.isEmpty
  | .wit => (s.wit i).cur.isSome || !(s.wit i).closed.isEmpty || !(s.wit i).stats.isEmpty
  | .vlc => !s.raw.all (fun l => l.isEmpty)
  | .cod => (nth none s.cod.engine i).isSome
  | .dma => !(s.ch i).descs.isEmpty
  | .clr | .dsp | .top | .hif => false
  | _ => s.busy (blk.at i)

/-- A disabled block reaches its stop. -/
def State.blockStopped (s : State) (blk : Blk) (i : Nat) : State :=
  let b := blk.at i
  if s.enabled b || s.holdsWork blk i then s
  else
    let s := (s.setBusy b false).applyNow blk i
    match blk with
    | .ing => s.ingSync i
    | .wit => ([20 + 2 * i, 21 + 2 * i].foldl (fun (s : State) c => s.applyNow .clr c) s).witSync i
    | .psl => (List.range 4).foldl (fun (s : State) t => s.applyNow .clr (4 * i + t)) s
    | _ => s

/-- The registers at 0x100 and above of an instance return to their reset values in both sets, but for the offsets kept. -/
def State.regsReset (s : State) (blk : Blk) (i : Nat) (keep keepA : List Nat) : State :=
  let lo := blk.at i
  let hi := lo + blk.row.pages * 0x1000
  let stays (keep : List Nat) (k : Nat) : Bool := k < lo || hi ≤ k || k % 0x1000 < 0x100 || keep.contains (k - lo)
  { s with regs := s.regs.filter (fun x => stays keep x.1), actv := s.actv.filter (fun x => stays keepA x.1) }

/-- The header's part of a soft reset (R41). -/
def State.headerReset (s : State) (blk : Blk) (i : Nat) : State :=
  let b := blk.at i
  let s := ((s.p b IRQ_STAT 0).p b FAULT_SUM 0).p b PAGE_STAT_FAULT 0
  let s := (s.p b PAGE_STAT_COMMIT_PEND 0).p b PAGE_STAT_COMMIT_LATCHED 0
  s.p b SHADOW_SEQ_APPLIED (s.g b SHADOW_SEQ_REQ)

/-- Every fourth offset of a span. -/
def offsFrom (lo n : Nat) : List Nat := (List.range n).map (fun k => lo + 4 * k)

/-- Registers that show what a soft reset does not touch: the state of pins, rails, sensors, memory and links, and the registers
that R749 and R468 keep. -/
def Blk.liveOffs : Blk → List Nat
  | .top => offsFrom 0x100 7
  | .hif => offsFrom 0x100 5
  | .lnk => [0x104]
  | .cwy => [0x128]
  | .ing => [0x208, 0x20C, 0x210, 0x228, 0x230, 0x238, 0x23C, 0x240, 0x244, 0x248]
  | .wit => [0x200]
  | .hbm => [0x104, 0x108, 0x130, 0x134, 0x1190, 0x1194, 0x1198] ++ offsFrom 0x11A0 8
  | .xlt => [0x104]
  | .psl => [0x160]
  | .pwr => 0x10C :: offsFrom 0x1100 9 ++ offsFrom 0x1140 9 ++ [0x1180]
  | .thm => 0x110 :: offsFrom 0x114 12 ++ offsFrom 0x200 64
  | _ => []

/-- What a soft reset returns beyond the registers. -/
def State.blockReset (s : State) (blk : Blk) (i : Nat) : State :=
  match blk with
  | .lnk => forN 4 (s.setQuad i (fun _ => Quad.init)) (fun l s => s.setLane (4 * i + l) (fun _ => Lane.init))
  | .cwy => s.setCw i (fun c => { Cwy.init with feedAt := c.feedAt, holdAt := c.holdAt })
  | .ing => ((s.setIg i (fun x => { Ingest.init with log := x.log, statNext := x.statNext, rebase := true })).rebind i
      (s.ga (ING i) ING_BIND_SLICE)).ingSync i
  | .psl =>
    let s := s.setSlice i (fun _ => Slice.init)
    let s := (s.p (PSL i) PSL_STAT_RECOMPUTING 0).p (PSL i) PSL_STAT_TNR_BUF 0
    (s.p (PSL i) PSL_STAT_TAPS_SHED 0).p (PSL i) PSL_STAT_DECIM 0
  | .clr => s.setClr i (fun _ => Clr.init)
  | .wit => (s.setWit i (fun x => { Wit.init with clock := x.clock })).witSync i
  | .smp => { s with sump := ⟨[], [], [], false, []⟩ }
  | .gcx => s.setGcx (fun g => { g with job := none })
  | .tsq => s.setTsq (fun t => { t with waiting := [], replays := [], defLog := [], defSince := 0, pwrMove := none })
  | .ctx => { s with cod := { Codec.init with engine := s.cod.engine } }
  | .eth => s.setEth i (fun _ => EthUnit.init)
  | .tim => { s with tim := { TimState.init with syncIn := s.tim.syncIn, pllOut := s.tim.pllOut } }
  | .dsp => { s with dsp := { Display.init with hpd := s.dsp.hpd } }.p DSP DSP_STAT_HPD (b2n s.dsp.hpd)
  | .xlt => s.xltReset true
  | .dma => s.dmaSoft i
  | .bit =>
    let out := s.on BIT BIT_FAULTN_STAT_ASSERTED
    let s := { s with bit := ⟨[], [], false⟩ }
    if out then s.emit (.faultN false) else s
  | .thm => { s with thermal := { s.thermal with hi := false, ror := false, band := false } }
  | .pwr => { s with supply := { s.supply with low := 0 }, shed := ⟨[], true⟩ }
  | .cnt => { s with cnt := s.cnt.map (fun _ => 0) }
  | _ => s

/-- A soft reset of an instance (R41). -/
def State.softReset (s : State) (blk : Blk) (i : Nat) : State :=
  ((s.regsReset blk i blk.liveOffs []).headerReset blk i).blockReset blk i

/-! ### PAGE_CTRL (R39–R41) -/

/-- The instances that share the domain of an instance, itself included (R779). -/
def sharers (blk : Blk) (i : Nat) : List Nat :=
  match instDomain blk i with
  | some d => domPages d
  | none => [blk.at i]

/-- POWER_REQ 0b00 would leave no sharing instance requesting on while one of them runs (R779). -/
def State.shareRefused (s : State) (blk : Blk) (i : Nat) : Bool :=
  let l := sharers blk i
  !(l.any (fun b => b != blk.at i && s.g b PAGE_CTRL_POWER_REQ == 1)) && l.any (fun b => s.enabled b || s.busy b)

/-- The write of PAGE_CTRL is refused with cause 0x4 (R40, R102, R699, R779). -/
def State.ctrlRefused (s : State) (blk : Blk) (i v : Nat) : Bool :=
  let b := blk.at i
  let on := s.enabled b
  let power := s.g b PAGE_CTRL_POWER_REQ
  let off := fld v 2 2 == 0 && power != 0
  let runs := on || s.busy b
  (blk == .lnk && 20 ≤ i) ||
  (bitOf v 0 && !s.powered b) ||
  (off && (runs || !blk.row.switched || s.shareRefused blk i)) ||
  (fld v 2 2 == 1 && power == 0 && s.g THM THM_STAT_STAGE == 2) ||
  (bitOf v 1 && runs) ||
  (bitOf v 0 && !on && s.enableRefused blk i) ||
  (!bitOf v 0 && on && s.disableRefused blk i)

/-- A write of PAGE_CTRL. -/
def State.pageCtrl (s : State) (blk : Blk) (i v : Nat) : State :=
  let b := blk.at i
  if 2 ≤ fld v 2 2 then s.badWrite b 0x008 1
  else if s.ctrlRefused blk i v then s.badWrite b 0x008 4
  else
    let on := s.enabled b
    let (s, bad) := if blk == .dsp && bitOf v 0 && !on then s.dspEnableCheck else (s, false)
    if bad then s.badWrite b 0x008 4
    else
      let s := if bitOf v 4 then ((s.p b PAGE_STAT_BAD_WRITE 0).p b PAGE_STAT_BAD_CAUSE 0).p b PAGE_STAT_BAD_OFFSET 0 else s
      let power := s.g b PAGE_CTRL_POWER_REQ
      let s := s.p b PAGE_CTRL_POWER_REQ (fld v 2 2)
      let s := if power != fld v 2 2 || (fld v 2 2 == 1 && s.g THM THM_STAT_STAGE != 2) then s.domRequest blk i else s
      let s := s.p b PAGE_CTRL_ENABLE (b2n (bitOf v 0))
      let s := if bitOf v 0 && !on then s.enableHook blk i
        else if !bitOf v 0 && on then (let s := s.disableHook blk i; if s.busy b then s else s.applyNow blk i)
        else s
      if bitOf v 1 then (s.softReset blk i).p b PAGE_CTRL_SOFT_RESET 1 else s

/-! ### SHADOW_COMMIT (R50–R59) -/

/-- A commit refused for leaving the envelope of the active plan (R360). -/
def State.envRefused (s : State) (blk : Blk) (i rule : Nat) : State :=
  (((s.p SMP SMP_ENV_BLOCK_TYPE blk.row.code).p SMP SMP_ENV_INSTANCE i).p SMP SMP_ENV_RULE rule).irq SMP 5

/-- The checks of a commit by the block's chapter; the answer says whether it is refused. -/
def State.commitCheck (s : State) (blk : Blk) (i : Nat) : State × Bool :=
  let env (s : State) (rule : Nat) : State × Bool := if rule = 0 then (s, false) else (s.envRefused blk i rule, true)
  match blk with
  | .ing =>
    let r := s.ingCheck i
    if r = 0 then env s (s.ingEnv i) else ((s.p (ING i) ING_CHECK_REASON r).irq (ING i) 5, true)
  | .psl =>
    let r := s.sliceCheck i
    if r.1 ≠ 0 then ((((s.p (PSL i) PSL_CHECK_REASON r.1).p (PSL i) PSL_CHECK_TAP r.2).p (PSL i) PSL_CHECK_AT_LATCH 0).irq (PSL i) 9, true)
    else if s.sndForbids false i || s.dspForbids false i then (s, true)
    else env s (s.sliceEnv i)
  | .clr =>
    let r := s.clrCheck i
    if r = 0 then (s, false) else (((s.p (CLR i) CLR_CHECK_REASON r).p (CLR i) CLR_CHECK_AT_LATCH 0).irq (CLR i) 2, true)
  | .wit =>
    let r := s.witCheck i
    if r.1 ≠ 0 then ((s.p (WIT i) WIT_CHECK (r.1 + 16 * r.2)).irq (WIT i) 7, true)
    else if s.sndForbids true i || s.dspForbids true i then (s, true)
    else env s (s.witEnv i)
  | .dsp => s.dspCommitCheck
  | _ => (s, false)

/-- A write of SHADOW_COMMIT. -/
def State.shadowCommit (s : State) (blk : Blk) (i v : Nat) : State :=
  let b := blk.at i
  if fld v 0 2 = 0 then s
  else if fld v 0 2 = 3 then s.badWrite b 0x024 1
  else if s.on b PAGE_STAT_COMMIT_PEND then s.badWrite b 0x024 2
  else if fld v 0 2 = 2 then s.copyShadow blk i
  else
    let (s, bad) := s.commitCheck blk i
    if bad then s.badWrite b 0x024 4
    else
      let s := s.commitAccept blk i false 0
      if s.runs blk i then s else s.applyNow blk i

/-! ### Interrupts (R60–R63) -/

/-- A write of IRQ_STAT: ones clear; a request that stays sends its message again (R60). -/
def State.irqStatWrite (s : State) (b v : Nat) : State := (s.p b IRQ_STAT (s.g b IRQ_STAT - (s.g b IRQ_STAT &&& v))).irqRecheck b

/-- A write of IRQ_EN. -/
def State.irqEnWrite (s : State) (blk : Blk) (b v : Nat) : State := (s.p b IRQ_EN (v % 2 ^ blk.irqs)).irqRecheck b

/-- A write of IRQ_FORCE: bits without an IRQ_STAT bit are ignored (R63). -/
def State.irqForce (s : State) (blk : Blk) (b v : Nat) : State := s.irqMask b (v % 2 ^ blk.irqs)

/-- The holdoff of an instance ends: one message merges those that fell due (R61). -/
def State.holdoffEnd (s : State) (b : Nat) : State :=
  if !s.msix.holdoff.contains b then s
  else
    let due := s.msix.due.contains b
    let s := { s with msix := { s.msix with holdoff := s.msix.holdoff.filter (fun x => x != b), due := s.msix.due.filter (fun x => x != b) } }
    if due then s.sendMessage b else s

/-- Vectors in the Pending Bit Array that are open now are sent (R62). -/
def State.pendingSend (s : State) : State :=
  let l := (s.msix.pba.filter s.vectorOpen).reverse
  let s := { s with msix := { s.msix with pba := s.msix.pba.filter (fun v => !l.contains v) } }
  l.foldl (fun (s : State) v => s.sendVector v) s

/-! ### Commands -/

/-- A host write to a register of the header of the instance with summary bit n. -/
def State.header (s : State) (n : Nat) (op : State → State) : State :=
  s.hostSized 4 (fun s => s.hdrOp (instOf n).1 op)

/-- PAGE_CTRL as it stands, with some bits set and others cleared. -/
def State.ctrlWith (s : State) (n clear set : Nat) : Nat :=
  let b := (instOf n).1.at (instOf n).2
  let old := s.g b PAGE_CTRL_ENABLE + 4 * s.g b PAGE_CTRL_POWER_REQ
  old - (old &&& clear) ||| set

/-- ENABLE (R39). -/
def execEnable (n : Fin 111) (s : State) : Host.Outcome State Fault Refusal :=
  .next (s.header n.val (fun s => s.pageCtrl (instOf n.val).1 (instOf n.val).2 (s.ctrlWith n.val 0 1)))

/-- DISABLE (R39). -/
def execDisable (n : Fin 111) (s : State) : Host.Outcome State Fault Refusal :=
  .next (s.header n.val (fun s => s.pageCtrl (instOf n.val).1 (instOf n.val).2 (s.ctrlWith n.val 1 0)))

/-- BLOCK_STOPPED (R58). -/
def execBlockStopped (n : Fin 111) (s : State) : Host.Outcome State Fault Refusal :=
  .next (s.blockStopped (instOf n.val).1 (instOf n.val).2)

/-- SOFT_RESET (R41). -/
def execSoftReset (n : Fin 111) (s : State) : Host.Outcome State Fault Refusal :=
  .next (s.header n.val (fun s => s.pageCtrl (instOf n.val).1 (instOf n.val).2 (s.ctrlWith n.val 0 2)))

/-- SOFT_RESET_DONE (R41). -/
def execSoftResetDone (n : Fin 111) (s : State) : Host.Outcome State Fault Refusal :=
  .next (s.p ((instOf n.val).1.at (instOf n.val).2) PAGE_CTRL_SOFT_RESET 0)

/-- POWER_REQ (R39, R779): the two bits written. -/
def execPowerReq (n : Fin 111) (req : Fin 4) (s : State) : Host.Outcome State Fault Refusal :=
  .next (s.header n.val (fun s => s.pageCtrl (instOf n.val).1 (instOf n.val).2 (s.ctrlWith n.val 12 (4 * req.val))))

/-- BAD_WRITE_CLR (R43). -/
def execBadWriteClr (n : Fin 111) (s : State) : Host.Outcome State Fault Refusal :=
  .next (s.header n.val (fun s => s.pageCtrl (instOf n.val).1 (instOf n.val).2 (s.ctrlWith n.val 0 16)))

/-- IRQ_FORCE (R63). -/
def execIrqForce (n : Fin 111) (value : Word) (s : State) : Host.Outcome State Fault Refusal :=
  .next (s.header n.val (fun s => s.irqForce (instOf n.val).1 ((instOf n.val).1.at (instOf n.val).2) value.toNat))

/-- COMMIT (R52). -/
def execCommit (n : Fin 111) (s : State) : Host.Outcome State Fault Refusal :=
  .next (s.header n.val (fun s => s.shadowCommit (instOf n.val).1 (instOf n.val).2 1))

/-- REVERT (R51). -/
def execRevert (n : Fin 111) (s : State) : Host.Outcome State Fault Refusal :=
  .next (s.header n.val (fun s => s.shadowCommit (instOf n.val).1 (instOf n.val).2 2))

/-- IRQ_HOLDOFF_END (R61). -/
def execIrqHoldoffEnd (n : Fin 111) (s : State) : Host.Outcome State Fault Refusal :=
  .next (s.holdoffEnd ((instOf n.val).1.at (instOf n.val).2))

/-- MSIX_UNMASK (R62): MSI-X Enable and the Function Mask as they become, and the vector whose mask bit is cleared. -/
def execMsixUnmask (enable functionMask : Bool) (vector : Option (Fin 256)) (s : State) : Host.Outcome State Fault Refusal :=
  let s := { s with msix := { s.msix with enable := enable, functionMask := functionMask } }
  let s := match vector with
    | some v => { s with msix := { s.msix with table := Sparse.put msixReset s.msix.table (16 * v.val + 12) 0 } }
    | none => s
  .next s.pendingSend

end Sys2Proof.Machine
end

