-- ==== Sys2Proof/Machine/Read.lean ====
section
/-! DEFINITION. What a read of BAR0 returns and does: the page header (R35–R38), registers whose value follows from other state,
the MSI-X structures (R737), absent power (R48), warm reset (R745), RC fields (R6) and reads that latch (R569, R722). -/

namespace Sys2Proof.Machine

/-! ### Values -/

/-- PAGE_CAP.BLOCK_CAP of an instance (R38, R146, R487, R524, R525, R685, R710, R713, R728). -/
def State.blockCap (s : State) (blk : Blk) (i : Nat) : Nat :=
  match blk with
  | .lnk => i / 4 + 8 * (if i < 12 then 0 else if i < 20 then 1 else 2)
  | .hbm => if s.part.variantH then 0x40 else 0x30
  | .cod => i / 2
  | .ctx => 64
  | .bit => 512
  | .thm => 64
  | .pwr => 265
  | .cnt => 256
  | _ => 0

/-- PAGE_ID at a page of an instance (R37). -/
def pageId (blk : Blk) (i page : Nat) : Nat :=
  blk.row.code * 2 ^ 24 + (if blk == .ctx then 4 else i) * 2 ^ 16 + page * 2 ^ 8 + 1

/-- PAGE_CAP of an instance (R38). -/
def State.pageCap (s : State) (blk : Blk) (i : Nat) : Nat :=
  blk.row.pages + blk.handover * 2 ^ 8 + b2n blk.row.switched * 2 ^ 10 + s.blockCap blk i * 2 ^ 16

/-- TOP_IRQ_PEND_k (R64). -/
def State.irqPend (s : State) (k : Nat) : Nat :=
  ((List.range 32).map (fun b =>
    let n := 32 * k + b
    if n < 111 && s.requests ((instOf n).1.at (instOf n).2) then 2 ^ b else 0)).foldl (· + ·) 0

/-- A word of a number's 32-bit words. -/
def wordOf (v k : Nat) : Nat := v / 2 ^ (32 * k) % 2 ^ 32

/-- BIT_LOG_SRC and the registers after it show the oldest entry (R671, R685). -/
def State.bitLogWord (s : State) (k : Nat) : Nat :=
  match s.bit.log with
  | [] => 0
  | e :: _ => nth 0 [e.src + e.kind * 2 ^ 9 + b2n e.injected * 2 ^ 11 + b2n e.real * 2 ^ 12, e.detail, wordOf e.time.sec 0,
      wordOf e.time.sec 1, e.time.ns, e.time.frac] k

/-- ING_ABN_FIRST and the registers after it show the oldest entry (R83, R237). -/
def State.abnWord (s : State) (h k : Nat) : Nat :=
  match (s.ig h).log with
  | [] => 0
  | (a, b, r) :: _ => nth 0 [wordOf a 0, wordOf a 1, wordOf b 0, wordOf b 1, r] k

/-- TSQ_DEF_CSN and the registers after it show the oldest entry (R444, R456). -/
def State.defWord (s : State) (k : Nat) : Nat :=
  match s.tsq.defLog with
  | [] => 0
  | d :: _ => nth 0 [wordOf d.csn 0, wordOf d.csn 1, d.hsn, d.blk, d.detail] k

/-- LNK_QUAD_STAT with the quad's owner (R101, R102). -/
def State.quadStat (s : State) (q : Nat) : Nat :=
  let o := s.quadOwner q
  let v := setFld (s.rd (LNK q + 0x104)) 5 2 o.1
  setFld (setFld v 7 2 (if o.1 == 3 then 0 else o.2)) 9 1 (b2n (s.ownerOn q))

/-- LNK_MARGIN with its age (R136, R139). -/
def State.marginReg (s : State) (n off : Nat) : Nat :=
  match (nth Lane.init s.lanes n).marginMs with
  | some m => setFld (s.rd off) 16 8 (min (s.time.ms - m) 255)
  | none => s.rd off

/-- CWY_FEED_STAT with the holdoff that remains (R196). -/
def State.feedStat (s : State) (h : Nat) : Nat :=
  match (s.cw h).holdAt with
  | some m => setFld (s.rd (CWY h + 0x128)) 16 10 (500 - (s.time.ms - m))
  | none => s.rd (CWY h + 0x128)

/-- A register at 0x100 or above of a powered instance, as a read shows it. -/
def State.blockReg (s : State) (o : Owner) (off : Nat) : Nat :=
  let v := s.rd off
  let i := o.inst
  match o.blk with
  | .top =>
    if o.rel = 0x100 then 0x09600100 + b2n s.part.variantH
    else if o.rel = 0x104 then wordOf s.part.serial 0
    else if o.rel = 0x108 then wordOf s.part.serial 1
    else if 0x200 ≤ o.rel ∧ o.rel ≤ 0x20C then s.irqPend ((o.rel - 0x200) / 4)
    else v
  | .hif => if o.rel = 0x100 then s.part.vendor % 2 ^ 16 + s.part.device % 2 ^ 16 * 2 ^ 16 else v
  | .lnk =>
    if o.rel = 0x104 then s.quadStat i
    else if 0x200 ≤ o.rel ∧ o.rel < 0x300 ∧ (o.rel - 0x200) % 0x40 = 0x14 then s.marginReg (4 * i + (o.rel - 0x200) / 0x40) off
    else v
  | .cwy => if o.rel = 0x128 then s.feedStat i else v
  | .ing => if 0x238 ≤ o.rel ∧ o.rel ≤ 0x248 then s.abnWord i ((o.rel - 0x238) / 4) else v
  | .tsq => if 0x3104 ≤ o.rel ∧ o.rel ≤ 0x3114 then s.defWord ((o.rel - 0x3104) / 4) else v
  | .hbm =>
    if o.rel = 0x1184 then setFld v 4 1 (b2n (s.regionRegs != s.hbm.plan))
    else if o.rel = 0x170 then Sparse.get (fun _ => 0) s.hbm.laneMap (s.trnSel i)
    else v
  | .ctx => if o.rel = 0xC04 then ((List.range 4).map (fun e => b2n (s.engineAvail e) * 2 ^ e)).foldl (· + ·) 0 else v
  | .eth =>
    if 0x2100 ≤ o.rel ∧ o.rel < 0x2500 ∧ (o.rel - 0x2100) % 0x80 = 0x50 then s.sesLag i ((o.rel - 0x2100) / 0x80) else v
  | .xlt =>
    if 0x1100 ≤ o.rel ∧ o.rel < 0x1500 ∧ (o.rel - 0x1100) % 0x10 = 0 then setFld v 31 1 (b2n (s.asBusy ((o.rel - 0x1100) / 0x10)))
    else v
  | .tim => if o.rel = 0x108 then s.time.sec % 2 ^ 32 else v
  | .bit => if 0x128 ≤ o.rel ∧ o.rel ≤ 0x13C then s.bitLogWord ((o.rel - 0x128) / 4) else v
  | .cnt =>
    if 0x2100 ≤ o.rel ∧ o.rel < 0x4000 ∧ 0x100 ≤ o.rel % 0x1000 ∧ o.rel % 8 = 0 then
      nth 0 s.cnt (128 * ((o.rel - 0x2000) / 0x1000) + (o.rel % 0x1000 - 0x100) / 8) % 2 ^ 32
    else v
  | _ => v

/-- A page answers in BAR0: during a warm reset only TOP and HIF do (R745). -/
def State.answers (s : State) (o : Owner) : Bool := !s.on TOP TOP_RESET_STAT_WARM_BUSY || o.blk == .top || o.blk == .hif

/-- A register at 0x100 or above can be read (R47, R48). -/
def State.readable (s : State) (o : Owner) : Bool :=
  s.answers o && s.powered (o.blk.at o.inst) && !absentHere o && (regAt o.blk o.rel).isSome

/-- What the MSI-X table and Pending Bit Array hold at a BAR0 offset (R737). -/
def State.msixReg (s : State) (off : Nat) : Nat :=
  if 0x2000 ≤ off ∧ off < 0x3000 then s.msixWord (off - 0x2000)
  else if 0x3000 ≤ off ∧ off < 0x3020 then
    ((List.range 32).map (fun b => b2n (s.msix.pba.contains (8 * (off - 0x3000) + b)) * 2 ^ b)).foldl (· + ·) 0
  else 0

/-- The aligned 4-byte register at a BAR0 offset, as a read returns it (R36, R47–R49, R745). -/
def State.readReg (s : State) (off : Nat) : Nat :=
  match owner off with
  | none => if s.on TOP TOP_RESET_STAT_WARM_BUSY then 0 else s.msixReg off
  | some o =>
    let b := o.blk.at o.inst
    let po := o.rel % 0x1000
    if !s.answers o then 0
    else if po = 0 then pageId o.blk o.inst (o.rel / 0x1000)
    else if po = 4 then s.pageCap o.blk o.inst
    else if po < 0x100 then s.rd (b + po)
    else if s.readable o then s.blockReg o off
    else 0

/-! ### Effects of a read -/

/-- The RC fields of a register are cleared (R6). -/
def rcClear (v : Nat) (f : FieldDesc) : Nat := if f.acc == .rc then setFld v f.lo f.w 0 else v

/-- What a read of an aligned 4-byte register does to it and to those it latches. -/
def State.readEffect (s : State) (off : Nat) : State :=
  match owner off with
  | none => s
  | some o =>
    if o.rel % 0x1000 < 0x100 || !s.readable o then s
    else if o.blk == .tim && o.rel == 0x108 then s.nowLatch
    else if o.blk == .cnt && 0x2000 ≤ o.rel && o.rel % 8 == 0 then
      s.cntLatch (128 * ((o.rel - 0x2000) / 0x1000) + (o.rel % 0x1000 - 0x100) / 8)
    else match regAt o.blk o.rel with
      | some (d, _) => if d.fields.any (fun f => f.acc == .rc) then s.wr off (d.fields.foldl rcClear (s.rd off)) else s
      | none => s

/-- Aligned 4-byte registers read in ascending order, each with its effects (R44, R45): n of them from an offset. -/
def State.readRegs (s : State) (off : Nat) : Nat → List Nat × State
  | 0 => ([], s)
  | n + 1 =>
    let v := s.readReg off
    let x := (s.readEffect off).readRegs (off + 4) n
    (v :: x.1, x.2)

/-- The aligned DWORDs that an access of len bytes from an offset touches. -/
def dwords (off len : Nat) : Nat := if len = 0 then 0 else (off % 4 + len + 3) / 4

/-- RC_READ (R6, R44, R45): a host read of BAR0. Each DWORD of its completion is the whole aligned register, whatever the byte
enables; an aligned access of 8 bytes reads two registers in ascending order at one instant. -/
def execRcRead (off : Fin 0x4000000) (len : Fin 4097) (s : State) : Host.Outcome State Fault Refusal :=
  .next (s.host (fun s =>
    let x := s.readRegs (off.val / 4 * 4) (dwords off.val len.val)
    (x.2.hostCount 0 none none (4 * x.1.length)).emit (.barData (x.1.flatMap (leBytes 4)) false)))

end Sys2Proof.Machine
end

