-- ==== Sys2Proof/Machine/Reset.lean ====
section
/-! DEFINITION. The resets: cold (R743, R748, R765, R766, R771), warm and PERST_N (R743–R747), FLR (R746), and the holding of one
reset while another is in progress (R744). -/

namespace Sys2Proof.Machine

/-! ### Held resets (R744) -/

def State.setHif (s : State) (f : HostLink → HostLink) : State := { s with hif := f s.hif }

/-- TOP_RESET_STAT.HELD follows the resets held. -/
def State.heldSync (s : State) : State := s.p TOP TOP_RESET_STAT_HELD (b2n (!s.hif.held.isEmpty))

/-- A reset is in progress. -/
def State.resetting (s : State) : Bool := s.hif.cold.isSome || s.hif.now.isSome

/-- A cause is recorded (R751). -/
def State.resetCause (s : State) (bit : Nat) : State := s.pBit TOP TOP_RESET_CAUSE bit true

/-- The latest reset found STAGE at STOPPED (R751). -/
def State.fromStopped (s : State) : State := if s.g THM THM_STAT_STAGE = 2 then s.resetCause 7 else s

/-! ### The configuration space -/

/-- The function's configuration space is reset: Memory Space Enable, Bus Master Enable, D3hot, MSI-X with every vector masked
(R737), ATS Enable (R635) and PRI Enable. -/
def State.configReset (s : State) : State :=
  let s := s.setHif (fun x => { x with memory := false })
  let s := (s.p HIF HIF_LINK_STAT_BME 0).p HIF HIF_LINK_STAT_D3HOT 0
  let s := { s with msix := { s.msix with table := [], enable := false, functionMask := false } }
  let s := s.cacheDrop (fun (e : Xlation) => s.g (asBase e.asid) XLT_AS_CFG_MODE == 2)
  let s := ({ s with xlt := { s.xlt with ats := [] } }).p XLT XLT_STAT_ATS_EN 0
  ((s.p XLT XLT_STAT_PRI_STOPPED 0).fault XLT 1 false).p XLT XLT_STAT_PRI_EN 0

/-- The PCIe link goes down (R743). -/
def State.linkLost (s : State) : State :=
  let s := ((s.p HIF HIF_LINK_STAT_UP 0).p HIF HIF_LINK_STAT_WIDTH 0).p HIF HIF_LINK_STAT_RATE 0
  ((s.p HIF HIF_LINK_STAT_FLIT 0).p HIF HIF_LINK_STAT_DEGRADED 0).fault HIF 0 false

/-! ### Warm reset (R746, R747) -/

/-- ENABLE is cleared; registers stay. -/
def State.off (s : State) (b : Nat) : State := s.p b PAGE_CTRL_ENABLE 0

/-- A stopped block: as a soft reset, but for the offsets kept in the shadow and in the active set. -/
def State.stopPage (s : State) (blk : Blk) (i : Nat) (keep keepA : List Nat) : State :=
  ((((s.off (blk.at i)).setBusy (blk.at i) false).regsReset blk i keep keepA)).headerReset blk i

/-- Ingest stops (R218, R747): the binding, the latest HFC, STAT_SEQ and the abandon log stay. -/
def State.warmIng (s : State) (h : Nat) : State :=
  let bound := s.boundSlice h
  let s := s.stopPage .ing h (0x10C :: Blk.ing.liveOffs) [0x10C]
  let s := s.setIg h (fun x => { Ingest.init with hasHfc := x.hasHfc, rebase := x.rebase, warmGap := true, statNext := x.statNext, log := x.log })
  (s.p (ING h) ING_STAT_SLICE bound).ingSync h

/-- A slice stops: RETIRED, the binding it shows, and the tables stay. -/
def State.warmPsl (s : State) (p : Nat) : State :=
  let s := s.stopPage .psl p [0x14C, 0x160] []
  let s := s.setSlice p (fun x => { Slice.init with tbl := x.tbl, tblPend := x.tblPend })
  let s := (s.p (PSL p) PSL_STAT_RECOMPUTING 0).p (PSL p) PSL_STAT_TNR_BUF 0
  (s.p (PSL p) PSL_STAT_TAPS_SHED 0).p (PSL p) PSL_STAT_DECIM 0

/-- A CLR instance stops: its tables stay. -/
def State.warmClr (s : State) (i : Nat) : State :=
  (s.stopPage .clr i [0x21C] []).setClr i (fun x => { x with gen := none, lutStop := none, curveBypass := 0, lutBypass := 0 })

/-- A witness port stops: WIT_NEXT_WFN and STAT_SEQ stay. -/
def State.warmWit (s : State) (w : Nat) : State :=
  let s := s.stopPage .wit w ([0x208, 0x20C, 0x21C] ++ Blk.wit.liveOffs) []
  (s.setWit w (fun x => { Wit.init with clock := x.clock, statNext := x.statNext, gap := true })).witSync w

/-- Ingest is stopped and frames are abandoned, with their records and statistics (R218, R326). -/
def State.warmAbandon (s : State) : State :=
  let s := forN 4 s (fun h s => s.abandonAll h 1)
  let s := forN 4 s (fun h s => forN (s.ig h).stats.length s (fun _ s => s.ingStats h))
  let s := forN 4 s (fun w s => (s.witAbandon w 1).witClose w 0)
  forN 4 s (fun w s => forN (s.wit w).stats.length s (fun _ s => s.witStats w))

/-- Each block as the table of R746 has it at a warm reset. -/
def State.warmBlocks (s : State) : State :=
  let s := forN 4 s (fun h s => s.warmIng h)
  let s := forN 5 s (fun p s => s.warmPsl p)
  let s := forN 28 s (fun i s => s.warmClr i)
  let s := forN 4 s (fun w s => s.warmWit w)
  let s := { s with recompute := [], raw := List.replicate 4 [] }
  let s := ((s.off VLC).setBusy VLC false).off GCX |>.gcxWarm
  let s := (forN 4 s (fun e s => ((s.off (COD e)).p (COD e) COD_ENG_STAT_RUNNING 0).p (COD e) COD_ENG_STAT_PAUSED 0)).codWarm
  let s := ((s.off DSP).dspSync).tsqWarm
  let s := if s.hif.lost then s.tsqLost else s
  let s := forN 4 s (fun k s => s.setEth k (fun x => { x with senders := x.senders.map (fun (n : Sender) => { n with sending := false }) }))
  let s := s.sndSyncAll.xltReset false
  (forN 16 s (fun c s => (s.off (DMA c)).dmaWarm c)).injWarm.testAbort

/-- A warm reset starts. -/
def State.warmStart (s : State) (perst : Bool) : State :=
  let s := (s.setHif (fun x => { x with now := some (.warm perst) })).fromStopped
  let s := (s.p TOP TOP_RESET_STAT_WARM_BUSY 1).addSat TOP TOP_RESET_CNT_WARM 1
  let s := s.warmAbandon
  let s := forN 4 s (fun k s => (s.p (HBM k) HBM_STAT_IN_SR 1).p (HBM k) HBM_STAT_KEPT (b2n (s.hbm.trained.any (fun x => x.1 / 16384 == k))))
  let s := s.warmBlocks
  if s.g THM THM_STAT_STAGE = 2 && s.on THM THM_STAT_COOL then s.shutdownLeave else s

/-- A warm reset ends (R746): the stacks leave self-refresh with the kept delays, unless the device stays in STOPPED, and open
sessions send every unacknowledged segment again (R563). -/
def State.warmEnd (s : State) : State :=
  let s := if s.g THM THM_STAT_STAGE = 2 then s
    else forN 4 s (fun k s => if nth false s.hbm.woken k then s.p (HBM k) HBM_STAT_IN_SR 0 else s)
  let s := forN 32 s (fun n s => if s.sessionOpen (n / 8) (n % 8) then
    s.setSes (n / 8) (n % 8) (fun x => { x with segs := x.segs.map (fun (g : Segment) => { g with again := true }) }) else s)
  ((s.setHif (fun x => { x with now := none })).p TOP TOP_RESET_STAT_WARM_BUSY 0).irq TOP 0

/-! ### FLR (R746) -/

/-- An FLR starts: accepted work ends as R79 sets out, then the configuration space is reset. -/
def State.flrStart (s : State) : State :=
  let s := (s.setHif (fun x => { x with now := some .flr })).fromStopped
  let s := (s.p TOP TOP_RESET_STAT_FLR_BUSY 1).addSat TOP TOP_RESET_CNT_FLR 1
  let s := forN 4 s (fun h s => ((s.msgFlr h).abandonCur h 2).setIg h (fun x => { x with rebase := true }))
  let s := forN 4 s (fun w s => (s.witAbandon w 2).setWit w (fun x => { x with gap := true }))
  let s := s.gcxFlr.codFlr.tsqFlr
  let s := forN 32 s (fun n s => s.sesFlr (n / 8) (n % 8))
  let s := forN 16 s (fun c s => (s.dmaFlr c).off (DMA c))
  ((s.xltReset true).p CNT CNT_CTRL_USER_EN 0).configReset

/-- An FLR ends (R752). -/
def State.flrEnd (s : State) : State :=
  ((s.setHif (fun x => { x with now := none })).p TOP TOP_RESET_STAT_FLR_BUSY 0).irq TOP 1

/-! ### Requests -/

/-- A reset other than a cold one is requested: it starts, is held, or is absorbed into one of its kind (R744). -/
def State.resetRequest (s : State) (r : HeldReset) : State :=
  if s.resetting then
    (if s.hif.now == some r || s.hif.held.contains r then s
     else (s.setHif (fun x => { x with held := x.held ++ [r] })).heldSync)
  else match r with
    | .warm perst => s.warmStart perst
    | .flr => s.flrStart

/-- A write of TOP_RESET_CTRL, by the host (cause 3) or through the SMBus window (cause 4) (R751). -/
def State.resetCtrl (s : State) (v cause : Nat) : State :=
  if bitOf v 0 then (s.resetCause cause).resetRequest (.warm false) else s

/-! ### Cold reset (R748) -/

/-- The registers that outlive a cold reset: TOP_RESET_CAUSE, and what R468 keeps. -/
def coldKept : List Nat :=
  (TOP + 0x114) :: (List.range 4).flatMap (fun k => [HBM k + 0x130, HBM k + 0x134]) ++ offsFrom (HBM 0 + 0x11A0) 8

/-- What the HBM interfaces hold after a cold reset: with VDD_AON kept, the delays and lane repairs; with the HBM rails kept too, the
plan that was in force, to compare the next one with (R467, R468). -/
def State.coldHbm (s : State) (aon lost : Bool) : HbmState :=
  if aon then HbmState.init
  else { HbmState.init with trained := s.hbm.trained, delays := s.hbm.trained, laneMap := s.hbm.laneMap,
                            prior := if lost then noPlan else if s.hbm.plan == noPlan then s.hbm.prior else s.hbm.plan }

/-- The pins that a cold reset drives: feeds off, strobes inactive, FAULT_N released while COLD_RST_N is low (R193, R573, R674). -/
def State.coldPins (s : State) (faultN : Bool) : State :=
  let s := forN 4 s (fun h s => s.feedDrive h false)
  let s := forN 8 s (fun n s => s.emit (.strobe n false))
  if faultN && s.on BIT BIT_FAULTN_STAT_ASSERTED then s.emit (.faultN false) else s

/-- Every field at its reset state, but for those that outlive a cold reset. -/
def State.coldBase (s : State) (kind : Nat) (aon : Bool) (hbm : HbmState) : State :=
  { State.reset with
    part := s.part, regs := if aon then [] else s.regs.filter (fun x => coldKept.contains x.1), mem := s.mem, memGen := s.memGen,
    hostMem := s.hostMem, out := s.out, hbm := hbm, tsq := s.tsq, heads := s.heads, cod := s.cod, recorder := s.recorder,
    tim := { TimState.init with syncIn := s.tim.syncIn, pllOut := s.tim.pllOut }, dsp := { Display.init with hpd := s.dsp.hpd },
    hif := { HostLink.init with perst := s.hif.perst, cold := some kind }, freeCtr := s.freeCtr, pending := s.pending }

/-- Every register and buffer returns to its reset state, but for what outlives a cold reset; kind as HostLink.cold has it, aon
whether VDD_AON was lost. -/
def State.coldStart (s : State) (kind : Nat) (aon : Bool) : State :=
  let lost := s.hif.lost || aon
  let s := (s.fromStopped).coldPins (kind == 1)
  let used := s.g (HBM 0) HBM_SPARE_STAT_USED
  let s := (if lost then s.tsqLost else s.tsqCold).codCold (!lost)
  let hbm := s.coldHbm aon lost
  let r := s.coldBase kind aon hbm
  let r := if aon then r else r.p (HBM 0) HBM_SPARE_STAT_USED used
  let r := r.p DSP DSP_STAT_HPD (b2n s.dsp.hpd)
  forN 4 r (fun k r => (r.p (HBM k) HBM_STAT_IN_SR (b2n (!lost))).p (HBM k) HBM_STAT_KEPT (b2n (hbm.trained.any (fun x => x.1 / 16384 == k))))

/-- The take store and what HBM holds are lost (R80, R765). -/
def State.storeLost (s : State) : State :=
  let s := (s.hbmSpan 0 s.installed false).resetCause 6
  if s.hif.cold.isSome then
    let s := ({ s with hbm := { s.hbm with prior := noPlan }, cod := { s.cod with left := [] } }).tsqLost
    forN 4 s (fun k s => s.p (HBM k) HBM_STAT_IN_SR 0)
  else s.setHif (fun x => { x with lost := true })

/-- The device is ready: quads 20–23 powered and their lanes in P0 (R102). -/
def State.coldEnd (s : State) : State :=
  let doms := (List.range 32).map (· + 160) ++ (List.range 4).map (· + 212)
  let s := doms.foldl (fun (s : State) d => s.setDomOn d true) s
  let s := forN 16 s (fun i s =>
    let b := lnb (80 + i)
    let s := (s.p b LNK_LANE_PWR_RX_PSTATE 0).p b LNK_LANE_PWR_TX_PSTATE 0
    (s.p b LNK_LANE_STAT_RX_NOW 0).p b LNK_LANE_STAT_TX_NOW 0)
  let s := forN 4 s (fun i s => s.lnkSync (20 + i))
  (s.setHif (fun x => { x with cold := none })).p TOP TOP_RESET_STAT_READY 1

/-! ### Commands -/

/-- COLD_RST_N_FALL (R743, R771): low for 1 µs or more; it takes effect at once, over any reset in progress (R744). -/
def execColdRstNFall (s : State) : Host.Outcome State Fault Refusal := .next ((s.resetCause 1).coldStart 1 false)

/-- COLD_RESET_END (R743, R771). -/
def execColdResetEnd (s : State) : Host.Outcome State Fault Refusal :=
  .next (if s.hif.cold = some 1 then s.coldEnd else s)

/-- VDD_AON_RISE (R743, R765): after a loss POWER_ON, COLD and STORE_LOST are set together, and nothing survives. -/
def execVddAonRise (s : State) : Host.Outcome State Fault Refusal :=
  .next (((s.hbmSpan 0 s.installed false).coldStart 1 true).p TOP TOP_RESET_CAUSE 0x43)

/-- CORE_RAIL_DEPARTURE (R766): FAULT_N is asserted, and the effects are those of a cold reset; neither POWER_ON nor COLD is set. -/
def execCoreRailDeparture (s : State) : Host.Outcome State Fault Refusal :=
  .next (if s.hif.cold.isSome then s else ((s.resetCause 6).coldStart 2 false).faultNCause false)

/-- CORE_RAIL_RECOVERY (R766): as though COLD_RST_N had risen. -/
def execCoreRailRecovery (s : State) : Host.Outcome State Fault Refusal :=
  .next (if s.hif.cold = some 2 then s.coldEnd else s)

/-- HBM_RAIL_DEPARTURE (R80, R765): an HBM rail, or with aon VDD_AON, leaves its limits for 2 µs. -/
def execHbmRailDeparture (aon : Bool) (s : State) : Host.Outcome State Fault Refusal :=
  let s := s.storeLost
  .next (if aon then { s with hbm := { s.hbm with trained := [], laneMap := [] } } else s)

/-- PERST_N_FALL (R743): the link goes down at once and the configuration space is reset, even where the warm reset is held. -/
def execPerstNFall (s : State) : Host.Outcome State Fault Refusal :=
  .next (if s.hif.perst then
    let s := (s.setHif (fun x => { x with perst := false })).resetCause 2
    (s.linkLost.configReset).resetRequest (.warm true)
  else s)

/-- PERST_N_RISE (R743, R742): the link may train, and SUBSYS is locked. -/
def execPerstNRise (s : State) : Host.Outcome State Fault Refusal :=
  .next (if s.hif.perst then s
    else (s.setHif (fun x => { x with perst := true, first := none })).p HIF HIF_SMB_STAT_SUBSYS_LOCKED 1)

/-- WARM (R746): the host writes TOP_RESET_CTRL with WARM 1 and a KEY. -/
def execWarmReset (key : Byte) (s : State) : Host.Outcome State Fault Refusal :=
  let v := 1 + 256 * key.toNat
  .next (s.hostReg (TOP + 0x10C) v (fun s => s.resetCtrl v 3))

/-- WARM_RESET_END (R746). -/
def execWarmResetEnd (s : State) : Host.Outcome State Fault Refusal :=
  .next (match s.hif.now with | some (.warm _) => s.warmEnd | _ => s)

/-- FLR (R743): Initiate Function Level Reset. -/
def execFlr (s : State) : Host.Outcome State Fault Refusal := .next ((s.resetCause 5).resetRequest .flr)

/-- FLR_END (R752). -/
def execFlrEnd (s : State) : Host.Outcome State Fault Refusal :=
  .next (match s.hif.now with | some .flr => s.flrEnd | _ => s)

/-- HELD_RESET_START (R744): the oldest reset held is performed once no reset is in progress. -/
def execHeldResetStart (s : State) : Host.Outcome State Fault Refusal :=
  .next (match s.hif.held with
    | [] => s
    | r :: l => if s.resetting then s else ((s.setHif (fun x => { x with held := l })).heldSync).resetRequest r)

end Sys2Proof.Machine
end

