-- ==== Sys2Proof/Machine/Host.lean ====
section
/-! DEFINITION. The host's link (R731–R738, R754, R755), BAR2 (R29–R31, R745), the SMBus sideband (R739–R742, R772) and the answers
to page requests (R638). -/

namespace Sys2Proof.Machine

/-! ### Accesses to host memory resume (R638, R738) -/

/-- What waited for a translation or for Bus Master Enable goes on: taps, witness ports, receive rings, codec jobs, the display. -/
def State.wake (s : State) : State :=
  let s := forN 20 s (fun n s => s.spillDrain (n / 4) (n % 4) ((s.tapState (n / 4) (n % 4)).spill.length + 1))
  let s := forN 4 s (fun w s => if s.powered (WIT w) then s.witTidy w else s)
  let s := forN 4 s (fun k s => s.hrxRetry k)
  s.codResume.dspXltSync

/-- Messages held while the function could not master the bus are sent (R738). -/
def State.heldSend (s : State) : State :=
  let l := s.msix.held.reverse
  l.foldl (fun (s : State) v => s.sendVector v) { s with msix := { s.msix with held := [] } }

/-- BUS_MASTER_ENABLE (R736, R738): the host writes Memory Space Enable, Bus Master Enable and the power state. -/
def execBusMasterEnable (memory bme d3hot : Bool) (s : State) : Host.Outcome State Fault Refusal :=
  let was := s.masterOn
  let moved := s.on HIF HIF_LINK_STAT_D3HOT != d3hot
  let s := s.setHif (fun x => { x with memory := memory })
  let s := (s.p HIF HIF_LINK_STAT_BME (b2n bme)).p HIF HIF_LINK_STAT_D3HOT (b2n d3hot)
  let s := s.irqIf moved HIF 3
  .next (if !was && s.masterOn then s.heldSend.wake else s)

/-- PRQ_RESPONSE (R638): a write of XLT_PRQ_RESP with INDEX and CODE. -/
def execPrqResponse (value : Word) (s : State) : Host.Outcome State Fault Refusal :=
  .next (s.hostReg (XLT + 0x120) value.toNat (fun s => (s.prqResponse value.toNat).wake))

/-- PRG_RESPONSE (R638): 0 Success, 1 Invalid Request, 2 Response Failure. -/
def execPrgResponse (index : Fin 512) (code : Fin 3) (s : State) : Host.Outcome State Fault Refusal :=
  .next (s.prgResponse index.val code.val).wake

/-! ### The link -/

/-- HIF_LINK_STAT.DEGRADED: rate or width below those first reached since PERST_N rose (R754, R755). -/
def State.degradedSync (s : State) : State :=
  match s.hif.first with
  | none => s
  | some (rate, width) =>
    let d := decide (s.g HIF HIF_LINK_STAT_RATE < rate) || decide (s.g HIF HIF_LINK_STAT_WIDTH < width)
    let was := s.on HIF HIF_LINK_STAT_DEGRADED
    let s := (s.p HIF HIF_LINK_STAT_DEGRADED (b2n d)).fault HIF 0 d
    s.irqIf (d && !was) HIF 0

/-- PCIE_LINK_UP (R732, R754): the rate as HIF_LINK_STAT codes it, 2^width lanes; 64 GT/s is always in FLIT mode. -/
def execPcieLinkUp (rate : Fin 6) (width : Fin 5) (flit : Bool) (s : State) : Host.Outcome State Fault Refusal :=
  .next (if !s.hif.perst || !s.on TOP TOP_RESET_STAT_READY then s
  else
    let s := (s.p HIF HIF_LINK_STAT_RATE rate.val).p HIF HIF_LINK_STAT_WIDTH (2 ^ width.val)
    let s := (s.p HIF HIF_LINK_STAT_FLIT (b2n (flit || rate.val == 5))).p HIF HIF_LINK_STAT_UP 1
    let s := if s.hif.first.isNone then s.setHif (fun x => { x with first := some (rate.val, 2 ^ width.val) }) else s
    s.degradedSync)

/-- PCIE_LINK_RECOVERY (R88, R90, R755): the rate and width that the link comes back at, and the lane that failed. The second
Recovery within 1 s makes the link lasting. -/
def execPcieLinkRecovery (rate : Fin 6) (width : Fin 5) (lane : Option (Fin 16)) (s : State) : Host.Outcome State Fault Refusal :=
  .next (if !s.on HIF HIF_LINK_STAT_UP then s
  else
    let down := decide (2 ^ width.val < s.g HIF HIF_LINK_STAT_WIDTH)
    let s := (s.irq HIF 1).addSat HIF HIF_LINK_CNT_RECOVERY 1
    let s := s.addSat HIF HIF_LINK_CNT_WIDTH_DOWN (b2n down)
    let s := (s.p HIF HIF_LINK_STAT_RATE rate.val).p HIF HIF_LINK_STAT_WIDTH (2 ^ width.val)
    let s := s.degradedSync
    let s := match lane with
      | some i => s.report { src := 80 + i.val, unit := 0, detail := 0x70, lasting := true } (fun s => s)
      | none => s
    let again := s.hif.recov.any (fun m => decide (s.time.ms < m + 1000))
    let s := s.setHif (fun x => { x with recov := some s.time.ms })
    if again then s.report { src := 126, unit := 0, detail := 0, lasting := true } (fun s => s) else s)

/-- FLIT_REPLAY (R88). -/
def execFlitReplay (s : State) : Host.Outcome State Fault Refusal :=
  .next (((s.addSat HIF HIF_LINK_CNT_REPLAY 1).reportOnly 126 0).count { cls := 4, ev := 2 })

/-! ### BAR2 (R29–R31) -/

/-- The pieces of n bytes at a that lie in one aligned 256 bytes each. -/
def bar2Pieces (a n : Nat) : List (Nat × Nat) := (List.range (n / 256 + 2)).filterMap (fun i =>
  let lo := max a ((a / 256 + i) * 256)
  let hi := min (a + n) ((a / 256 + i + 1) * 256)
  if lo < hi then some (lo, hi - lo) else none)

/-- BAR2 may read n bytes that lie in one region. -/
def State.bar2Readable (s : State) (a n : Nat) : Bool := decide (a + n ≤ s.installed) && s.bar2Attr a != 0

/-- BAR2 may write n bytes that lie in one region; not while it is zeroed (R467). -/
def State.bar2Writable (s : State) (a n : Nat) : Bool := decide (a + n ≤ s.installed) && s.bar2Attr a == 2 && !s.bar2Zeroing a

/-- A BAR2 read of a piece: the bytes, and whether the completion is poisoned (R476); the unit's ECC check fails or not, and its
reread and its verify. -/
def State.bar2Load (s : State) (a n : Nat) (fails rereadFails verifyFails : Bool) : List Byte × Bool × State :=
  if !s.bar2Readable a n then (List.replicate n 0xFF, false, s)
  else if s.bar2Zeroing a then (zeros n, false, s)
  else match s.regionAt a with
    | none => (List.replicate n 0xFF, false, s)
    | some r =>
      let (s, served) := s.unitRead ((s.region r).place a) (s.region r).isProtected fails rereadFails verifyFails
      if served && s.byteLive r a then (s.hbmRead a n, false, (s.hbmCount 0 0x58 a n).rebuiltCount 0x58 a n) else (List.replicate n 0xFF, true, s)

/-- BAR2_READ (R30, R745): at most 4,096 bytes (R734); the ECC outcome is that of the first unit. -/
def execBar2Read (addr : Fin 0x4000000000) (len : Fin 4097) (fails rereadFails verifyFails : Bool) (s : State) :
    Host.Outcome State Fault Refusal :=
  .next (if !s.hif.memory then s
  else
    let s := (s.count { cls := 4, ev := 4, addr := some addr.val }).hostCount 0 (some 0x58) none len.val
    if s.on TOP TOP_RESET_STAT_WARM_BUSY then s.emit (.barData (List.replicate len.val 0xFF) false)
    else
      let l := bar2Pieces addr.val len.val
      let s := if l.all (fun x => s.bar2Readable x.1 x.2) then s else s.refusedAccess 0xFF false
      let r := (l.zipIdx).foldl (fun (x : List Byte × Bool × State) (p : (Nat × Nat) × Nat) =>
        let first := p.2 == 0
        let y := x.2.2.bar2Load p.1.1 p.1.2 (first && fails) (first && rereadFails) (first && verifyFails)
        (x.1 ++ y.1, x.2.1 || y.2.1, y.2.2)) ([], false, s)
      r.2.2.emit (.barData r.1 r.2.1))

/-- BAR2_WRITE (R30, R31, R745). -/
def execBar2Write (addr : Fin 0x4000000000) (bytes : List Byte) (s : State) : Host.Outcome State Fault Refusal :=
  .next (if !s.hif.memory then s
  else
    let s := (s.count { cls := 4, ev := 4, addr := some addr.val }).hostCount 1 (some 0x58) none bytes.length
    if s.on TOP TOP_RESET_STAT_WARM_BUSY then s
    else
      let l := bar2Pieces addr.val bytes.length
      let s := if l.all (fun x => s.bar2Writable x.1 x.2) then s else s.refusedAccess 0xFF true
      l.foldl (fun (s : State) (x : Nat × Nat) =>
        if s.bar2Writable x.1 x.2 then
          (s.hbmStore x.1 (slice bytes (x.1 - addr.val) x.2)).hbmCount 1 0x58 x.1 x.2
        else s) s)

/-! ### SMBus (R739–R742) -/

/-- A command is served: LAST_CMD, and the data read. -/
def State.smbServe (s : State) (code : Nat) (bytes : List Byte) : State :=
  (s.p HIF HIF_SMB_STAT_LAST_CMD code).emit (.smb true bytes)

def State.smbNack (s : State) : State := s.emit (.smb false [])

/-- A transaction of the board controller: nothing is answered before READY; a write whose PEC fails is counted (R739). -/
def State.smbus (s : State) (pecOk : Bool) (op : State → State) : State :=
  if !s.on TOP TOP_RESET_STAT_READY then s.smbNack
  else if !pecOk then (s.addSat HIF HIF_SMB_STAT_PEC_ERR 1).smbNack
  else op s

/-- IDENT (R740). -/
def execSmbIdent (s : State) : Host.Outcome State Fault Refusal :=
  .next (s.smbus true (fun s => s.smbServe 0x00 ([0x100, 0x104, 0x108].flatMap (fun o => leBytes 4 (s.readReg (TOP + o))))))

/-- STATUS (R740). -/
def execSmbStatus (s : State) : Host.Outcome State Fault Refusal :=
  .next (s.smbus true (fun s => s.smbServe 0x01 (leBytes 2 (s.g BIT BIT_FAULTN_STAT_ASSERTED + 2 * s.g TOP TOP_RESET_STAT_READY +
    4 * s.g TOP TOP_RESET_STAT_WARM_BUSY + 8 * s.g TOP TOP_RESET_STAT_FLR_BUSY + 16 * s.g THM THM_STAT_STAGE + 64 * s.g HIF HIF_LINK_STAT_UP))))

/-- TEMPS (R740). -/
def execSmbTemps (s : State) : Host.Outcome State Fault Refusal :=
  .next (s.smbus true (fun s => s.smbServe 0x02 ((List.range 8).flatMap (fun z => leBytes 2 (s.rd (THM + THM_ZONE.off + 4 * z))))))

/-- VFAB (R740). -/
def execSmbVfab (s : State) : Host.Outcome State Fault Refusal :=
  .next (s.smbus true (fun s => s.smbServe 0x03 [BitVec.ofNat 8 (s.g PWR PWR_VFAB_REQ), BitVec.ofNat 8 (s.g PWR PWR_VFAB_ACK)]))

/-- WIN_ADDR (R740): the window is read, or written. -/
def execSmbWinAddr (value : Option Word) (pecOk : Bool) (s : State) : Host.Outcome State Fault Refusal :=
  .next (s.smbus pecOk (fun s =>
    match value with
    | none => s.smbServe 0x08 (leBytes 4 s.hif.window)
    | some v =>
      if v.toNat % 4 != 0 || decide (0x03FFFFFC < v.toNat) then s.smbNack
      else (s.setHif (fun x => { x with window := v.toNat })).smbServe 0x08 []))

/-- WIN_DATA_READ (R741): as a 4-byte BAR0 read at the window offset. -/
def execSmbWinDataRead (s : State) : Host.Outcome State Fault Refusal :=
  .next (s.smbus true (fun s => (s.readEffect s.hif.window).smbServe 0x09 (leBytes 4 (s.readReg s.hif.window))))

/-- WIN_DATA_WRITE (R741): performed at TOP_RESET_CTRL and THM_CTRL only. -/
def execSmbWinDataWrite (value : Word) (pecOk : Bool) (s : State) : Host.Outcome State Fault Refusal :=
  let v := value.toNat
  .next (s.smbus pecOk (fun s =>
    if s.hif.window = TOP + 0x10C then
      ((s.smbServe 0x09 []).regOp (TOP + 0x10C) v (fun s => s.resetCtrl v 4)).irq HIF 2
    else if s.hif.window = THM + 0x10C then
      ((s.smbServe 0x09 []).regOp (THM + 0x10C) v (fun s => s.thmCtrl v)).irq HIF 2
    else s.smbNack))

/-- SUBSYS (R742): from READY until PERST_N first rises. -/
def execSmbSubsys (vid sid : BitVec 16) (pecOk : Bool) (s : State) : Host.Outcome State Fault Refusal :=
  .next (s.smbus pecOk (fun s =>
    if s.on HIF HIF_SMB_STAT_SUBSYS_LOCKED then s.smbNack
    else ((s.p HIF HIF_SUBSYS_VID vid.toNat).p HIF HIF_SUBSYS_SID sid.toNat).smbServe 0x10 []))

/-- SMBUS_TIMEOUT (R772): the transaction is abandoned, with none of its effect. -/
def execSmbusTimeout (s : State) : Host.Outcome State Fault Refusal := .next s

end Sys2Proof.Machine
end

