-- ==== Sys2Proof/Machine/Page.lean ====
section
/-! DEFINITION. A write of any shape to BAR0: the page header (R35–R51), the registers of every block with the rule that each has
beyond its access codes, the MSI-X table (R737), and accesses that the device ignores (R44–R49). -/

namespace Sys2Proof.Machine

/-- The index in an array of n registers, stride bytes apart from lo. -/
def idxIn (rel lo stride n : Nat) : Option Nat :=
  if lo ≤ rel ∧ rel < lo + stride * n ∧ (rel - lo) % stride = 0 then some ((rel - lo) / stride) else none

/-- An access-code write, refused with cause 0x4 where a rule of the block says so. -/
def State.guarded (s : State) (off v : Nat) (refused : Bool) : State := if refused then s.refuse4 off else s.plainWrite off v

/-- ENABLE or BUSY is 1. -/
def State.active (s : State) (b : Nat) : Bool := s.enabled b || s.busy b

/-! ### Registers by block -/

/-- LNK (R101, R103, R121, R129, R140–R145). -/
def State.lnkWrite (s : State) (q rel off v : Nat) : State :=
  let l := (rel - 0x200) / 0x40
  let r := (rel - 0x200) % 0x40
  let n := 4 * q + l
  if rel = 0x100 then s.quadRoleWrite q v
  else if rel = 0x114 then s.scanWrite q v
  else if 0x200 ≤ rel ∧ rel < 0x300 then
    (if r = 0x04 then s.lanePwrWrite n v
     else if r = 0x0C then s.laneTrainWrite n v
     else if r = 0x1C then s.prbsCtrl n v
     else if r = 0x24 then s.prbsInj n v
     else s.guarded off v (s.ownerRefuses off v || (r == 0 && fld v 2 2 == 2 && s.ctrlLane q l)))
  else s.plainWrite off v

/-- CWY (R180, R194, R197, R200). -/
def State.cwyWrite (s : State) (h rel off v : Nat) : State :=
  if rel = 0x100 then s.cwyCtrl h v
  else if rel = 0x124 then s.feedCtrl h v
  else if rel = 0x1110 then s.txqPush h v
  else if rel = 0x112C then s.rxqPop h v
  else s.plainWrite off v

/-- ING: ING_NEXT_SEQ takes only one 8-byte write (R217). -/
def State.ingWrite (s : State) (h rel off v : Nat) : State :=
  if rel = 0x208 ∨ rel = 0x20C then s.refuse4 off
  else if rel = 0x234 then s.abnCtrl h v
  else s.plainWrite off v

/-- PSL: a retired slice takes no write to a shadowed register (R269). -/
def State.pslWrite (s : State) (p rel off v : Nat) (shadowed : Bool) : State :=
  if rel = 0x148 then s.tblLoadStart p v
  else if rel = 0x2188 then s.tapReturn p 0 v
  else if rel = 0x2288 then s.tapReturn p 1 v
  else if rel = 0x3188 then s.tapReturn p 2 v
  else if rel = 0x3288 then s.tapReturn p 3 v
  else s.guarded off v (shadowed && s.on (PSL p) PSL_STAT_RETIRED)

/-- CLR: the table bases and the LUT's CRC are not written during a load (R312). -/
def State.clrWrite (s : State) (i rel off v : Nat) : State :=
  let busy := s.g (CLR i) CLR_TBL_STAT_CURVE_STATE == 1 || s.g (CLR i) CLR_TBL_STAT_LUT_STATE == 1
  if rel = 0x214 then s.clrLoad i v else s.guarded off v (decide (0x200 ≤ rel) && decide (rel ≤ 0x210) && busy)

/-- WIT (R323, R329). -/
def State.witWrite (s : State) (w rel off v : Nat) : State :=
  if rel = 0x208 then s.witNextWrite w false v
  else if rel = 0x20C then s.witNextWrite w true v
  else if rel = 0x244 then s.witReturn w 0 v
  else if rel = 0x254 then s.witReturn w 1 v
  else s.plainWrite off v

/-- SMP (R358). -/
def State.smpWrite (s : State) (rel off v : Nat) : State :=
  if rel = 0x108 then s.planCtrl v
  else s.guarded off v ((rel == 0x100 || rel == 0x104) && s.g SMP SMP_PLAN_STAT_STATE != 0)

/-- VLC (R391). -/
def State.vlcWrite (s : State) (rel off v : Nat) : State :=
  match idxIn rel 0x1108 0x40 4 with
  | some h => s.clrForced h v
  | none => s.plainWrite off v

/-- GCX (R397, R404, R406). -/
def State.gcxWrite (s : State) (rel off v : Nat) : State :=
  if rel = 0x114 then s.gcxProd v
  else if rel = 0x120 then s.gcxCtrl v
  else s.guarded off v (decide (rel ≤ 0x110) && s.active GCX)

/-- TSQ (R415, R429, R445, R450, R456, R457). -/
def State.tsqWrite (s : State) (rel off v : Nat) : State :=
  let po := rel % 0x1000
  let slot := 16 * (rel / 0x1000 - 1) + (po - 0x100) / 0x40
  if rel = 0x140 then s.headWrite TSQ TSQ_CQ_HEAD TSQ_CQ_TAIL v
  else if rel = 0x150 then s.tsqPwrWrite v
  else if rel = 0x160 then s.abortWrite v
  else if rel = 0x3118 then s.defCtrl v
  else if 0x200 ≤ rel ∧ rel < 0x280 ∧ rel % 0x20 ≤ 4 then s.areaWrite ((rel - 0x200) / 0x20) (rel % 0x20 == 4) v
  else if 0x1000 ≤ rel ∧ rel < 0x3000 ∧ 0x100 ≤ po ∧ po < 0x500 then
    (if po % 0x40 = 0 then s.slotSubmit slot v
     else
       let st := s.g (slotBase slot) TSQ_SLOT_STAT_STATE
       s.guarded off v (decide (po % 0x40 ≤ 0x1C) && st != 0 && st != 5))
  else s.guarded off v (decide (rel ≤ 0x11C) && s.active TSQ)

/-- HBM (R466, R471, R483–R488). -/
def State.hbmWriteReg (s : State) (k rel off v : Nat) : State :=
  if rel = 0x100 then
    (if bitOf v 1 && !(nth false s.hbm.woken k && !s.on (HBM k) HBM_CTRL_WAKE) then s.refuse4 off
     else
       let s := if bitOf v 1 then s.hbmGo k else s
       if bitOf v 0 then (s.p (HBM k) HBM_CTRL_WAKE 1).p (HBM k) HBM_STAT_IN_SR 0 else s)
  else if rel = 0x10C then (s.plainWrite off v).hbmMult k
  else if rel = 0x140 then s.pcCtrl k v
  else if rel = 0x154 then (s.plainWrite off v).trnDelay k
  else if rel = 0x158 then (if bitOf v 0 then s.helperStart k else s)
  else if rel = 0x170 then
    { s with hbm := { s.hbm with laneMap := Sparse.put (fun _ => 0) s.hbm.laneMap (s.trnSel k) (fld v 0 7 + fld v 8 7 * 2 ^ 8) } }
  else if rel = 0x1180 then (if bitOf v 0 then s.planApply else s)
  else s.guarded off v (decide (0x1100 ≤ rel) && decide (rel < 0x1180) && s.g (HBM 0) HBM_PLAN_STAT_STATE != 0)

/-- COD_4 (R500–R525). -/
def State.ctxWrite (s : State) (rel off v : Nat) : State :=
  let po := rel % 0x1000
  let c := 4 * (rel / 0x1000) + (po - 0x100) / 0x200
  let r := (po - 0x100) % 0x200
  if po < 0x900 then
    (if r = 0 then s.ctxModeWrite c v
     else if r = 0x84 then s.headWrite (ctxBase c) CTX_CPL_HEAD CTX_CPL_TAIL v
     else if r = 0x90 then s.ctxSubmit c v
     else if r = 0x98 then s.ctxAbort c v
     else if r = 0xB4 then s.pbRet c v
     else s.guarded off v (s.ctxRefuses off))
  else s.plainWrite off v

/-- ETH (R537, R549, R552, R564). -/
def State.ethWrite (s : State) (k rel off v : Nat) : State :=
  if rel = 0x140 then s.headWrite (ETH k) ETH_HRX_HEAD ETH_HRX_TAIL v
  else if rel = 0x15C then s.htxWrite k v
  else match idxIn rel 0x1100 0x40 8, idxIn rel 0x2114 0x80 8 with
    | some i, _ => s.sndCfgWrite k i v
    | _, some t => s.sesCtrl k t v
    | _, _ => s.guarded off v (s.ethRefuses off || s.sndRefuses off || s.sesRefuses off)

/-- TIM (R568–R594). -/
def State.timWrite (s : State) (rel off v : Nat) : State :=
  if s.timRefuses off then s.refuse4 off
  else if rel = 0x100 then s.timCtrl v
  else if rel = 0x11C then s.incHiWrite v
  else if rel = 0x138 then s.adjCtrl v
  else if rel = 0x15C then s.capCtrl v
  else match idxIn rel 0x1100 0x40 8, idxIn rel 0x1124 0x40 8, idxIn rel 0x1300 0x20 4 with
    | some n, _, _ => s.stbCfg n v
    | _, some n, _ => s.stbCtrl n v
    | _, _, some h => (s.plainWrite off v).servoSync h
    | _, _, _ => s.plainWrite off v

/-- DSP (R597–R600). -/
def State.dspWrite (s : State) (rel off v : Nat) : State :=
  if rel = 0x13C then s.auxCmd v
  else if rel = 0x134 then (s.plainWrite off v).dspSync
  else s.guarded off v (s.dspRefuses off)

/-- A write of a register of an address space would be refused (R627). -/
def State.asRefused (s : State) (a rel off v : Nat) : Bool :=
  let t := s.plainWrite off v
  let mode := t.g (asBase a) XLT_AS_CFG_MODE
  s.asBusy a || (mode == 1 && !s.tableOk (t.g64 (asBase a) XLT_AS_ROOT_LO_REG)) ||
    (rel % 0x10 == 0 && mode == 2 && s.g (asBase a) XLT_AS_CFG_MODE != 2 && !s.on XLT XLT_STAT_ATS_EN)

/-- XLT (R627, R636, R638, R642, R658). -/
def State.xltWrite (s : State) (rel off v : Nat) : State :=
  let outside : Bool := decide (rel ≤ 0x10C) && decide (s.installed ≤ (s.plainWrite off v).g64 XLT XLT_FLT_BASE_LO_REG)
  if rel = 0x118 then s.headWrite XLT XLT_FLT_HEAD XLT_FLT_TAIL v
  else if rel = 0x120 then (s.prqResponse v).wake
  else if rel = 0x12C then s.xltInvalidate v
  else if 0x1100 ≤ rel then s.guarded off v (s.asRefused ((rel - 0x1100) / 0x10) rel off v)
  else s.guarded off v (decide (0x108 ≤ rel) && decide (rel ≤ 0x110) && (s.active XLT || outside))

/-- DMA (R644–R661). -/
def State.dmaWrite (s : State) (c rel off v : Nat) : State :=
  if rel = 0x10C then s.dmaProd c v
  else if rel = 0x120 then s.dmaReqCtrl c v
  else if rel = 0x128 then s.dmaCtrl c v
  else s.guarded off v (s.dmaRefuses off)

/-- BIT: a write to the configuration of a reserved source is ignored (R664, R686). -/
def State.bitWrite (s : State) (rel off v : Nat) : State :=
  if rel = 0x108 then s.faultNCtrl v
  else if rel = 0x110 then s.srcClearWrite v
  else if rel = 0x124 then s.bitLogCtrl v
  else if rel = 0x140 then s.injCfg v
  else if rel = 0x144 then s.injCtrl v
  else if rel = 0x164 then s.testCtrl v
  else if 0x1000 ≤ rel ∧ srcReserved (256 * (rel / 0x1000 - 1) + (rel % 0x1000 - 0x100) / 4) then s
  else s.plainWrite off v

/-- CNT (R720–R724). -/
def State.cntWrite (s : State) (rel off v : Nat) : State :=
  if rel = 0x100 then s.cntCtrl v
  else if 0x1000 ≤ rel ∧ rel < 0x2000 then s.cntCfg ((rel - 0x1100) / 4) v
  else if 0x2000 ≤ rel then
    s.cntValWrite (128 * ((rel - 0x2000) / 0x1000) + (rel % 0x1000 - 0x100) / 8) (rel % 8 == 4) v
  else s.plainWrite off v

/-- The register's own rule: what a write of v that no earlier rule refuses does. -/
def State.writeBlock (s : State) (o : Owner) (off v : Nat) : State :=
  let shadowed := match regAt o.blk o.rel with | some (d, _) => d.shadowed | none => false
  match o.blk with
  | .top => if o.rel = 0x10C then s.resetCtrl v 3 else s.plainWrite off v
  | .hif => s.plainWrite off v
  | .lnk => s.lnkWrite o.inst o.rel off v
  | .cwy => s.cwyWrite o.inst o.rel off v
  | .ing => s.ingWrite o.inst o.rel off v
  | .psl => s.pslWrite o.inst o.rel off v shadowed
  | .clr => s.clrWrite o.inst o.rel off v
  | .wit => s.witWrite o.inst o.rel off v
  | .smp => s.smpWrite o.rel off v
  | .vlc => s.vlcWrite o.rel off v
  | .gcx => s.gcxWrite o.rel off v
  | .tsq => s.tsqWrite o.rel off v
  | .hbm => s.hbmWriteReg o.inst o.rel off v
  | .cod => s.plainWrite off v
  | .ctx => s.ctxWrite o.rel off v
  | .eth => s.ethWrite o.inst o.rel off v
  | .tim => s.timWrite o.rel off v
  | .dsp => s.dspWrite o.rel off v
  | .xlt => s.xltWrite o.rel off v
  | .dma => s.dmaWrite o.inst o.rel off v
  | .bit => s.bitWrite o.rel off v
  | .thm => if o.rel = 0x10C then s.thmCtrl v else s.plainWrite off v
  | .pwr => if 0x120 ≤ o.rel ∧ o.rel ≤ 0x130 then (s.plainWrite off v).seqGrant else s.plainWrite off v
  | .cnt => s.cntWrite o.rel off v

/-! ### The header -/

/-- A write to a header register of an instance, at its offset within the page. -/
def State.headerWrite (s : State) (blk : Blk) (i po v : Nat) : State :=
  let b := blk.at i
  if po = 0x008 then s.pageCtrl blk i v
  else if po = 0x010 then s.irqStatWrite b v
  else if po = 0x014 then s.irqEnWrite blk b v
  else if po = 0x018 then s.irqForce blk b v
  else if po = 0x024 then s.shadowCommit blk i v
  else if po = 0x040 then s.p b IRQ_VEC v
  else if po = 0x044 then s.p b IRQ_HOLDOFF v
  else if po = 0x050 then s.wr (b + 0x050) v
  else if po ≤ 0x020 ∨ po = 0x048 ∨ po = 0x04C then s
  else s.badWrite b po 5

/-! ### The MSI-X table (R737) -/

/-- A byte of the MSI-X table written; address bits [1:0] and all of Vector Control but the mask bit are reserved. -/
def State.msixByte (s : State) (k : Nat) (b : Byte) : State :=
  let w := k / 4 * 4
  let v := setFld (s.msixWord w) (8 * (k % 4)) 8 b.toNat
  let v := if w % 16 = 12 then v % 2 else if w % 16 = 0 then v / 4 * 4 else v
  { s with msix := { s.msix with table := Sparse.put msixReset s.msix.table w (BitVec.ofNat 32 v) } }

/-- The enabled bytes of a write to the MSI-X table; the Pending Bit Array is read-only. -/
def State.msixWrite (s : State) (off : Nat) (data : List (Option Byte)) : State :=
  ((data.zipIdx).foldl (fun (s : State) (x : Option Byte × Nat) =>
    match x.1 with
    | some b => if off + x.2 < 0x3000 then s.msixByte (off + x.2 - 0x2000) b else s
    | none => s) s).pendingSend

/-! ### Writes of any shape -/

/-- An aligned 4-byte write with every byte enabled. -/
def State.writeDword (s : State) (off v : Nat) : State :=
  match owner off with
  | some o =>
    if o.rel % 0x1000 < 0x100 then s.hdrOp o.blk (fun s => s.headerWrite o.blk o.inst (o.rel % 0x1000) v)
    else s.regOp off v (fun s => s.writeBlock o off v)
  | none => s.regOp off v (fun s => s)

/-- The offset of ING_NEXT_SEQ_LO of a head. -/
def nextSeqOf (off : Nat) : Option Nat := (List.range 4).find? (fun h => off == ING h + 0x208)

/-- A write to BAR0, a byte without its enable being none. -/
def State.bar0Write (s : State) (off : Nat) (data : List (Option Byte)) : State :=
  let bytes := data.filterMap (fun x => x)
  let full := bytes.length == data.length
  if 0x2000 ≤ off ∧ off < 0x3020 then (if s.on TOP TOP_RESET_STAT_WARM_BUSY then s else s.msixWrite off data)
  else if full && data.length == 4 && off % 4 == 0 then s.writeDword off (ofLe bytes)
  else if full && data.length == 8 && off % 8 == 0 then
    match nextSeqOf off with
    | some h => s.regOp off (leAt bytes 0 4) (fun s => s.nextSeqWrite h (ofLe bytes))
    | none => (s.writeDword off (leAt bytes 0 4)).writeDword (off + 4) (leAt bytes 4 4)
  else match owner off with
    | some o => s.hdrOp o.blk (fun s => s.badWrite (o.blk.at o.inst) off 6)
    | none => s.regOp off 0 (fun s => s)

/-- REGISTER_WRITE (R4, R43–R49). -/
def execRegisterWrite (off : Fin 0x4000000) (data : List (Option Byte)) (s : State) : Host.Outcome State Fault Refusal :=
  .next (s.host (fun s => (s.hostCount 1 none none (data.filterMap (fun x => x)).length).bar0Write off.val data))

end Sys2Proof.Machine
end

