-- ==== Sys2Proof/Machine/DmaRun.lean ====
section
/-! DEFINITION. The element moves of the DMA channels (R646–R655): passes and their credits, reads and writes of every region,
restart points, running checksums, the checksum store. -/

namespace Sys2Proof.Machine

/-! ### Accesses of a channel -/

/-- Registers read by a channel: whole aligned DWORDs in ascending order, each with its effects (R45); the asked bytes. -/
def State.dmaRegRead (s : State) (off n : Nat) : List Byte × State :=
  let x := s.readRegs (off / 4 * 4) (dwords off n)
  (((x.1.flatMap (leBytes 4)).drop (off % 4)).take n, x.2)

/-- Registers written by a channel, one aligned DWORD after another; a DWORD written in part is refused (R45). -/
def State.dmaRegWrite (s : State) (off : Nat) (l : List Byte) : State :=
  let start := off / 4 * 4
  (List.range (dwords off l.length)).foldl (fun (s : State) k =>
    let word : List (Option Byte) := (List.range 4).map (fun j =>
      let x := start + 4 * k + j
      if off ≤ x then l[x - off]? else none)
    s.bar0Write (start + 4 * k) word) s

/-- A read by channel c (R26–R28). -/
def State.dmaRead (s : State) (c asid a n : Nat) : Access × List Byte × State :=
  if addrRegion a n = some 1 then let x := s.dmaRegRead (a % 2 ^ 62) n; (.ok, x.1, x.2)
  else s.masterRead (0x20 + c) asid a n

/-- A write by channel c (R26–R28). -/
def State.dmaStore (s : State) (c asid a : Nat) (l : List Byte) : Access × State :=
  if addrRegion a l.length = some 1 then (.ok, s.dmaRegWrite (a % 2 ^ 62) l)
  else s.masterWrite (0x20 + c) asid a l

/-- What the channel does after an access: nothing more when it was served; a wait, a halt or a failure otherwise (R654). -/
def State.dmaAfter (s : State) (c : Nat) : Access → State
  | .ok => s
  | .waits => s.p (DMA c) DMA_STAT_STATE 3
  | .xlt => s.dmaHalt c 1 false
  | .refused => s.dmaHalt c 3 false
  | .failed => s.dmaBusError c true false

/-! ### Position (R655) -/

/-- The position of the oldest descriptor: loop indices and the offset within the element. -/
def State.dmaPos (s : State) (c : Nat) : Nat × Nat × Nat × Nat :=
  (s.g (DMA c) DMA_POS_0_K0, s.g (DMA c) DMA_POS_0_K1, s.g (DMA c) DMA_POS_1_K2, s.g (DMA c) DMA_POS_OFS)

def State.setDmaPos (s : State) (c : Nat) (k : Nat × Nat × Nat × Nat) : State :=
  (((s.p (DMA c) DMA_POS_0_K0 k.1).p (DMA c) DMA_POS_0_K1 k.2.1).p (DMA c) DMA_POS_1_K2 k.2.2.1).p (DMA c) DMA_POS_OFS k.2.2.2

/-- The running checksum with an odd byte. -/
def State.dmaCsum (s : State) (c : Nat) : Nat × Option Nat := (s.g (DMA c) DMA_POS_CSUM, (s.ch c).odd)

def State.setDmaCsum (s : State) (c : Nat) (v : Nat × Option Nat) : State :=
  (s.p (DMA c) DMA_POS_CSUM v.1).setCh c (fun x => { x with odd := v.2 })

/-- Bytes written are counted. -/
def State.dmaWrote (s : State) (c n : Nat) : State :=
  s.p64 (DMA c) DMA_BYTES_LO ((s.g64 (DMA c) DMA_BYTES_LO + n) % 2 ^ 64)

/-- The position after n bytes, the loops taken innermost first; whether a pass of the inner loop, and the data, end. -/
def DmaDesc.advance (d : DmaDesc) (k : Nat × Nat × Nat × Nat) (n : Nat) : (Nat × Nat × Nat × Nat) × Bool × Bool :=
  if k.2.2.2 + n < d.elem then ((k.1, k.2.1, k.2.2.1, k.2.2.2 + n), false, false)
  else if k.1 + 1 < d.count 0 then ((k.1 + 1, k.2.1, k.2.2.1, 0), false, false)
  else if k.2.1 + 1 < d.count 1 then ((0, k.2.1 + 1, k.2.2.1, 0), true, false)
  else ((0, 0, k.2.2.1 + 1, 0), true, decide (d.count 2 ≤ k.2.2.1 + 1))

/-- Bytes of the pattern from an offset within an element (R646). -/
def DmaDesc.pattern (d : DmaDesc) (ofs n : Nat) : List Byte :=
  (List.range n).map (fun i => BitVec.ofNat 8 (leAt d.body (8 + (ofs + i) % 8) 1))

/-! ### One descriptor -/

/-- The descriptor that the channel works on: its oldest, not yet ended, of an operation. -/
def State.dmaHead (s : State) (c op : Nat) : Option DmaDesc :=
  match (s.ch c).descs with
  | d :: _ => if d.done.isNone && d.op == op then some d else none
  | [] => none

/-- The channel may work: powered, enabled, not held, not halted, not paused. -/
def State.dmaRuns (s : State) (c : Nat) : Bool :=
  s.powered (DMA c) && s.enabled (DMA c) && !(s.ch c).held && s.g (DMA c) DMA_STAT_STATE != 4 && !s.dmaShed c

/-- The oldest descriptor ends DONE with its checksum, whose running state the channel keeps (R648, R649). -/
def State.dmaDone (s : State) (c : Nat) (d : DmaDesc) (v : Nat × Option Nat) : State :=
  let s := s.dmaEnd c 0 0 (csumFinal d.csum v)
  if d.csum = 0 then s else s.setCh c (fun x => { x with saved := some v })

/-- The checksum store, then the end (R649). -/
def State.dmaFinish (s : State) (c : Nat) (d : DmaDesc) : State :=
  let v := s.dmaCsum c
  if bitOf d.ctrl 9 then
    let a := if d.op = 2 then leAt d.body 0x10 8
             else (d.addr true (d.count 0 - 1) (d.count 1 - 1) (d.count 2 - 1) + d.elem) % 2 ^ 64
    let l := csumStored d.csum (csumFinal d.csum v)
    match s.dmaStore c (leAt d.body 3 1) a l with
    | (.ok, s) => (((s.p (DMA c) DMA_STAT_PAST_PNR 1).p (DMA c) DMA_STAT_STATE 1).dmaWrote c l.length).dmaDone c d v
    | (r, s) => s.dmaAfter c r
  else s.dmaDone c d v

/-- The descriptor is the channel's work: its position starts at its first element, and its checksum (R646, R648). -/
def State.dmaBegin (s : State) (c : Nat) (d : DmaDesc) : State :=
  if (s.ch c).began then s
  else ((s.setDmaPos c (0, 0, 0, 0)).setDmaCsum c (d.csumStart (s.ch c).saved)).setCh c
    (fun x => { x with began := true, paid := false, dataDone := false })

/-- The first access of a pass consumes its credit (R651). -/
def State.dmaPay (s : State) (c : Nat) (d : DmaDesc) : State :=
  if d.waitReq && !(s.ch c).paid then
    ((s.p (DMA c) DMA_REQ_STAT_CREDITS (s.g (DMA c) DMA_REQ_STAT_CREDITS - 1)).p (DMA c) DMA_STAT_STATE 1).setCh c (fun x => { x with paid := true })
  else s.p (DMA c) DMA_STAT_STATE 1

/-- Bytes moved at the position k: the position, the checksum and the credit go on (R651, R655). A pass's end is a request to
the channels chained to this one (R650). -/
def State.dmaMoved (s : State) (c : Nat) (d : DmaDesc) (k : Nat × Nat × Nat × Nat) (l : List Byte) : State :=
  let x := d.advance k l.length
  let s := (s.setDmaPos c x.1).setDmaCsum c (csumBytes d.csum (s.dmaCsum c) l)
  let s := if x.2.1 then (s.setCh c (fun y => { y with paid := false })).dmaCredit 4 c else s
  if x.2.2 then (s.setCh c (fun y => { y with dataDone := true })).dmaFinish c d else s

/-- A piece of up to 4 KiB of an element, read with an outcome of the bus and written: a restart point stands at its start
(R646, R654, R655). -/
def State.dmaPiece (s : State) (c : Nat) (d : DmaDesc) (err : Option Bool) : State :=
  let k := s.dmaPos c
  let n := min (4096 - k.2.2.2 % 4096) (d.elem - k.2.2.2)
  let s := s.dmaPay c d
  let s := match err with | some again => if d.op = 1 then s else s.dmaBusError c again false | none => s
  if s.g (DMA c) DMA_STAT_STATE = 4 then s
  else
    let (r, l, s) := if d.op = 1 then (Access.ok, d.pattern k.2.2.2 n, s)
      else s.dmaRead c (leAt d.body 2 1) ((d.addr false k.1 k.2.1 k.2.2.1 + k.2.2.2) % 2 ^ 64) n
    if r ≠ .ok then s.dmaAfter c r
    else if d.op = 2 then s.dmaMoved c d k l
    else match s.dmaStore c (leAt d.body 3 1) ((d.addr true k.1 k.2.1 k.2.2.1 + k.2.2.2) % 2 ^ 64) l with
      | (.ok, s) =>
        if (s.dmaHead c d.op).any (fun (x : DmaDesc) => x.idx == d.idx) then
          ((s.p (DMA c) DMA_STAT_PAST_PNR 1).dmaWrote c l.length).dmaMoved c d k l
        else s
      | (r, s) => s.dmaAfter c r

/-- Up to `chunks` pieces of the oldest descriptor, which has operation op; a pass without a credit waits (R650). The bus
error, if any, meets the first read. -/
def State.dmaWork (s : State) (c op : Nat) : Nat → Option Bool → State
  | 0, _ => s
  | m + 1, err =>
    match s.dmaHead c op with
    | none => s
    | some d =>
      if !s.dmaRuns c then s
      else
        let s := s.dmaBegin c d
        if (s.ch c).dataDone then s.dmaFinish c d
        else if d.waitReq && !(s.ch c).paid && s.g (DMA c) DMA_REQ_STAT_CREDITS == 0 then s.p (DMA c) DMA_STAT_STATE 2
        else
          let s := s.dmaPiece c d err
          if s.g (DMA c) DMA_STAT_STATE = 3 then s else s.dmaWork c op m none

/-! ### Commands -/

/-- COPY (R646): up to `chunks` pieces of the oldest descriptor of channel c; err, a bus error meets the first read, and
whether its reissue fails too. -/
def execDmaCopy (c : Fin 16) (chunks : Nat) (err : Option Bool) (s : State) : Host.Outcome State Fault Refusal :=
  .next (s.dmaWork c 0 chunks err)

/-- FILL (R646). -/
def execDmaFill (c : Fin 16) (chunks : Nat) (s : State) : Host.Outcome State Fault Refusal := .next (s.dmaWork c 1 chunks none)

/-- CHECK (R646). -/
def execDmaCheck (c : Fin 16) (chunks : Nat) (err : Option Bool) (s : State) : Host.Outcome State Fault Refusal :=
  .next (s.dmaWork c 2 chunks err)

/-- DMA_NOP (R646): a NOP ends DONE at once. -/
def execDmaNop (c : Fin 16) (s : State) : Host.Outcome State Fault Refusal :=
  .next (match s.dmaHead c 3 with
    | some d => if s.dmaRuns c then let s := s.dmaBegin c d; s.dmaDone c d (s.dmaCsum c) else s
    | none => s)

end Sys2Proof.Machine
end

