-- ==== Sys2Proof/Machine/Tick.lean ====
section
/-! DEFINITION. The tick of the time base (R567): what a step does when no command waits. -/

namespace Sys2Proof.Machine

/-- TIM_INC in force, in units of 2^−48 ns (R568). -/
def State.timInc (s : State) : Nat := s.rdA (TIM + 0x118) + 2 ^ 32 * s.rdA (TIM + 0x11C)

/-- The words of the Sump read, written and carried across the bridge in a cycle (R716, class 9), by die and master: the manual
leaves their number to the blocks' own schedules. -/
def State.sumpCount (s : State) : State :=
  if !s.on CNT CNT_CTRL_RUN then s
  else forN 2 s (fun die s => forN 3 s (fun ev s => forN 0x5A s (fun m s =>
    s.freeCount { cls := 9, ev := ev, inst := some die, master := some m } none)))

/-- One cycle of the 625 MHz time-base clock: the increment in force is added, head time runs on, the cycle and the
words that cross the Sump in it are counted (R567, R716). -/
def State.tick (s : State) : State := (s.advance s.timInc).count { cls := 1, ev := 0 } |>.sumpCount

end Sys2Proof.Machine
end

