-- ==== Sys2Proof/Machine/Dispatch.lean ====
section
/-! DEFINITION. One arm per command of the opcode table: the direct call of its meaning. -/

namespace Sys2Proof.Machine
open Host

/-- The effect of a command on everything but the queue. -/
def exec (i : Instr) (s : State) : Host.Outcome State Fault Refusal :=
  match i with
  | .registerWrite off data => Sys2Proof.Machine.execRegisterWrite off data s
  | .rcRead off len => Sys2Proof.Machine.execRcRead off len s
  | .enable n => Sys2Proof.Machine.execEnable n s
  | .disable n => Sys2Proof.Machine.execDisable n s
  | .blockStopped n => Sys2Proof.Machine.execBlockStopped n s
  | .softReset n => Sys2Proof.Machine.execSoftReset n s
  | .softResetDone n => Sys2Proof.Machine.execSoftResetDone n s
  | .powerReq n req => Sys2Proof.Machine.execPowerReq n req s
  | .badWriteClr n => Sys2Proof.Machine.execBadWriteClr n s
  | .irqForce n value => Sys2Proof.Machine.execIrqForce n value s
  | .commit n => Sys2Proof.Machine.execCommit n s
  | .revert n => Sys2Proof.Machine.execRevert n s
  | .irqHoldoffEnd n => Sys2Proof.Machine.execIrqHoldoffEnd n s
  | .msixUnmask enable functionMask vector => Sys2Proof.Machine.execMsixUnmask enable functionMask vector s
  | .quadRoleWrite q value => Sys2Proof.Machine.execQuadRoleWrite q value s
  | .pllLockLoss q pllB => Sys2Proof.Machine.execPllLockLoss q pllB s
  | .pllRelockEnd q pllB locked => Sys2Proof.Machine.execPllRelockEnd q pllB locked s
  | .ctrlPresetMove h => Sys2Proof.Machine.execCtrlPresetMove h s
  | .trainingStart lane autoRetry => Sys2Proof.Machine.execTrainingStart lane autoRetry s
  | .presetAttemptEnd lane errors height width => Sys2Proof.Machine.execPresetAttemptEnd lane errors height width s
  | .autoRetry lane => Sys2Proof.Machine.execAutoRetry lane s
  | .pstateTargetWrite lane value => Sys2Proof.Machine.execPstateTargetWrite lane value s
  | .pstateReached lane tx => Sys2Proof.Machine.execPstateReached lane tx s
  | .losAssert lane settling => Sys2Proof.Machine.execLosAssert lane settling s
  | .losDeassert lane => Sys2Proof.Machine.execLosDeassert lane s
  | .lolAssert lane settling => Sys2Proof.Machine.execLolAssert lane settling s
  | .lolDeassert lane => Sys2Proof.Machine.execLolDeassert lane s
  | .calibrationDue lane => Sys2Proof.Machine.execCalibrationDue lane s
  | .slicerCalDone lane => Sys2Proof.Machine.execSlicerCalDone lane s
  | .marginVisitDone lane height width => Sys2Proof.Machine.execMarginVisitDone lane height width s
  | .scanStart q value => Sys2Proof.Machine.execScanStart q value s
  | .scanPointDone q errors => Sys2Proof.Machine.execScanPointDone q errors s
  | .prbsCheckerLock lane => Sys2Proof.Machine.execPrbsCheckerLock lane s
  | .prbsCheckerUnlock lane errors bits => Sys2Proof.Machine.execPrbsCheckerUnlock lane errors bits s
  | .prbsClear lane value => Sys2Proof.Machine.execPrbsClear lane value s
  | .prbsSingleInject lane => Sys2Proof.Machine.execPrbsSingleInject lane s
  | .prbsRateInject lane rate => Sys2Proof.Machine.execPrbsRateInject lane rate s
  | .ethLaneTrainingEnd lane pass => Sys2Proof.Machine.execEthLaneTrainingEnd lane pass s
  | .commaReceived h lane payload interval skewPs => Sys2Proof.Machine.execCommaReceived h lane payload interval skewPs s
  | .syncHeaderError h lane => Sys2Proof.Machine.execSyncHeaderError h lane s
  | .stripeDelivery h number blocks env => Sys2Proof.Machine.execStripeDelivery h number blocks env s
  | .standbyReadyRemap h => Sys2Proof.Machine.execStandbyReadyRemap h s
  | .msgResendTimer h => Sys2Proof.Machine.execMsgResendTimer h s
  | .headAck h seq => Sys2Proof.Machine.execHeadAck h seq s
  | .headNack h seq reason => Sys2Proof.Machine.execHeadNack h seq reason s
  | .readRsp h seq addr data => Sys2Proof.Machine.execReadRsp h seq addr data s
  | .timeT2 h seq probeId ns frac copyB => Sys2Proof.Machine.execTimeT2 h seq probeId ns frac copyB s
  | .timeT3 h seq probeId ns frac => Sys2Proof.Machine.execTimeT3 h seq probeId ns frac s
  | .headStatus h seq errA errB timeValid => Sys2Proof.Machine.execHeadStatus h seq errA errB timeValid s
  | .setApplied h seq setId hfc => Sys2Proof.Machine.execSetApplied h seq setId hfc s
  | .setLate h seq setId hfc => Sys2Proof.Machine.execSetLate h seq setId hfc s
  | .headEvent h seq code detail => Sys2Proof.Machine.execHeadEvent h seq code detail s
  | .unknownUpstreamMsg h seq => Sys2Proof.Machine.execUnknownUpstreamMsg h seq s
  | .hregWrite h seq addr data => Sys2Proof.Machine.execHregWrite h seq addr data s
  | .hregRead h seq addr => Sys2Proof.Machine.execHregRead h seq addr s
  | .headSetWrite h seq addr data setId => Sys2Proof.Machine.execHeadSetWrite h seq addr data setId s
  | .headSetCommit h seq setId count hfc => Sys2Proof.Machine.execHeadSetCommit h seq setId count hfc s
  | .headTimeProbe h seq probeId residence => Sys2Proof.Machine.execHeadTimeProbe h seq probeId residence s
  | .headTimeSec h seq seconds => Sys2Proof.Machine.execHeadTimeSec h seq seconds s
  | .headTimeLoad h seq ns frac sfc => Sys2Proof.Machine.execHeadTimeLoad h seq ns frac sfc s
  | .headTimeStep h seq offset sfc => Sys2Proof.Machine.execHeadTimeStep h seq offset sfc s
  | .headTimeRate h seq rate => Sys2Proof.Machine.execHeadTimeRate h seq rate s
  | .expStart h seq secLo ns frac periodic replace => Sys2Proof.Machine.execExpStart h seq secLo ns frac periodic replace s
  | .expPeriod h seq ns frac count => Sys2Proof.Machine.execExpPeriod h seq ns frac count s
  | .expStop h seq secLo ns frac now => Sys2Proof.Machine.execExpStop h seq secLo ns frac now s
  | .headStream h seq run => Sys2Proof.Machine.execHeadStream h seq run s
  | .headTrain h lane on => Sys2Proof.Machine.execHeadTrain h lane on s
  | .headPreset h lane index pre post => Sys2Proof.Machine.execHeadPreset h lane index pre post s
  | .headRemap h role lane sfc => Sys2Proof.Machine.execHeadRemap h role lane sfc s
  | .headStandby h lane sfc => Sys2Proof.Machine.execHeadStandby h lane sfc s
  | .exposureStart h => Sys2Proof.Machine.execExposureStart h s
  | .probeTimer h => Sys2Proof.Machine.execProbeTimer h s
  | .probeLostTimer h => Sys2Proof.Machine.execProbeLostTimer h s
  | .servoHoldTimer h => Sys2Proof.Machine.execServoHoldTimer h s
  | .feedOn h => Sys2Proof.Machine.execFeedOn h s
  | .feedOff h => Sys2Proof.Machine.execFeedOff h s
  | .feedPendingRaise h => Sys2Proof.Machine.execFeedPendingRaise h s
  | .feedFault h => Sys2Proof.Machine.execFeedFault h s
  | .feedHoldoffEnd h => Sys2Proof.Machine.execFeedHoldoffEnd h s
  | .ctrlUpTimer h => Sys2Proof.Machine.execCtrlUpTimer h s
  | .linkAligned h => Sys2Proof.Machine.execLinkAligned h s
  | .linkRestart h value => Sys2Proof.Machine.execLinkRestart h value s
  | .cwyTxqPush h => Sys2Proof.Machine.execCwyTxqPush h s
  | .cwyRxqPop h => Sys2Proof.Machine.execCwyRxqPop h s
  | .frameStartStripe h hfc setId width height depth expDur expSec expNs expFrac => Sys2Proof.Machine.execFrameStartStripe h hfc setId width height depth expDur expSec expNs expFrac s
  | .lineStripe h num width hfc => Sys2Proof.Machine.execLineStripe h num width hfc s
  | .dataStripe h bytes env => Sys2Proof.Machine.execDataStripe h bytes env s
  | .frameEndStripe h hfc lines flags => Sys2Proof.Machine.execFrameEndStripe h hfc lines flags s
  | .msgStripe h slots => Sys2Proof.Machine.execMsgStripe h slots s
  | .frameTimeout h => Sys2Proof.Machine.execFrameTimeout h s
  | .ingestStopDeadline h => Sys2Proof.Machine.execIngestStopDeadline h s
  | .statsBlockWritten h => Sys2Proof.Machine.execStatsBlockWritten h s
  | .ingNextSeqWrite h v => Sys2Proof.Machine.execIngNextSeqWrite h v s
  | .abnPop h => Sys2Proof.Machine.execAbnPop h s
  | .abnClrOvf h => Sys2Proof.Machine.execAbnClrOvf h s
  | .recomputeDone fails => Sys2Proof.Machine.execRecomputeDone fails s
  | .recomputeDeadline => Sys2Proof.Machine.execRecomputeDeadline s
  | .patrolRecompute fail repeats => Sys2Proof.Machine.execPatrolRecompute fail repeats s
  | .lineRelease p t fail => Sys2Proof.Machine.execLineRelease p t fail s
  | .tblLoadStart p => Sys2Proof.Machine.execTblLoadStart p s
  | .tblLoadBegin p => Sys2Proof.Machine.execTblLoadBegin p s
  | .tblLoadEnd p => Sys2Proof.Machine.execTblLoadEnd p s
  | .tapBufferReturn p t v => Sys2Proof.Machine.execTapBufferReturn p t v s
  | .paceWindowEnd counts => Sys2Proof.Machine.execPaceWindowEnd counts s
  | .shedRelease => Sys2Proof.Machine.execShedRelease s
  | .clrLoadCurves k => Sys2Proof.Machine.execClrLoadCurves k s
  | .clrLoadLut k => Sys2Proof.Machine.execClrLoadLut k s
  | .clrLoadGen k => Sys2Proof.Machine.execClrLoadGen k s
  | .clrLoadBegin k => Sys2Proof.Machine.execClrLoadBegin k s
  | .clrOperationEnd k lut => Sys2Proof.Machine.execClrOperationEnd k lut s
  | .clrTableRefill granule active => Sys2Proof.Machine.execClrTableRefill granule active s
  | .vsyncEdge w cut => Sys2Proof.Machine.execVsyncEdge w cut s
  | .witnessLineEnd w samples fail => Sys2Proof.Machine.execWitnessLineEnd w samples fail s
  | .pclkLost w => Sys2Proof.Machine.execPclkLost w s
  | .pclkWindowEnd w kHz => Sys2Proof.Machine.execPclkWindowEnd w kHz s
  | .pclkRestored w => Sys2Proof.Machine.execPclkRestored w s
  | .witFrameTimeout w => Sys2Proof.Machine.execWitFrameTimeout w s
  | .witStopDeadline w => Sys2Proof.Machine.execWitStopDeadline w s
  | .witDatapathClear w => Sys2Proof.Machine.execWitDatapathClear w s
  | .witStatsWritten w => Sys2Proof.Machine.execWitStatsWritten w s
  | .witNextWfnWrite w hi v => Sys2Proof.Machine.execWitNextWfnWrite w hi v s
  | .witTapReturn w u v => Sys2Proof.Machine.execWitTapReturn w u v s
  | .planCheck => Sys2Proof.Machine.execPlanCheck s
  | .planActivate => Sys2Proof.Machine.execPlanActivate s
  | .planCheckEnd => Sys2Proof.Machine.execPlanCheckEnd s
  | .planActivateEnd => Sys2Proof.Machine.execPlanActivateEnd s
  | .sumpScrubPass corrected bad => Sys2Proof.Machine.execSumpScrubPass corrected bad s
  | .sumpRemapTakeup granule => Sys2Proof.Machine.execSumpRemapTakeup granule s
  | .wrbufRebuildEnd granule => Sys2Proof.Machine.execWrbufRebuildEnd granule s
  | .stripSized h => Sys2Proof.Machine.execStripSized h s
  | .stripCoded h => Sys2Proof.Machine.execStripCoded h s
  | .stripVerified h fails c4Late => Sys2Proof.Machine.execStripVerified h fails c4Late s
  | .stripRecoded h fails => Sys2Proof.Machine.execStripRecoded h fails s
  | .clrForced h => Sys2Proof.Machine.execClrForced h s
  | .gcxProdWrite value => Sys2Proof.Machine.execGcxProdWrite value s
  | .gcxJobStart => Sys2Proof.Machine.execGcxJobStart s
  | .gcxCompress => Sys2Proof.Machine.execGcxCompress s
  | .gcxDecompress => Sys2Proof.Machine.execGcxDecompress s
  | .gcxContinue => Sys2Proof.Machine.execGcxContinue s
  | .gcxJobEnd => Sys2Proof.Machine.execGcxJobEnd s
  | .gcxPause cause sump => Sys2Proof.Machine.execGcxPause cause sump s
  | .gcxAbort => Sys2Proof.Machine.execGcxAbort s
  | .slotCmdSubmit slot v => Sys2Proof.Machine.execSlotCmdSubmit slot v s
  | .acceptDurable slot => Sys2Proof.Machine.execAcceptDurable slot s
  | .slotNop slot => Sys2Proof.Machine.execSlotNop slot s
  | .slotRead slot => Sys2Proof.Machine.execSlotRead slot s
  | .slotWrite slot => Sys2Proof.Machine.execSlotWrite slot s
  | .slotFlush slot => Sys2Proof.Machine.execSlotFlush slot s
  | .slotRelease slot => Sys2Proof.Machine.execSlotRelease slot s
  | .slotVerify slot => Sys2Proof.Machine.execSlotVerify slot s
  | .slotFormat slot => Sys2Proof.Machine.execSlotFormat slot s
  | .slotJread slot => Sys2Proof.Machine.execSlotJread slot s
  | .writeBuffered slot => Sys2Proof.Machine.execWriteBuffered slot s
  | .writeEntryDurable csn lost => Sys2Proof.Machine.execWriteEntryDurable csn lost s
  | .writeApplied csn => Sys2Proof.Machine.execWriteApplied csn s
  | .completionPosted slot => Sys2Proof.Machine.execCompletionPosted slot s
  | .cqHeadWrite v => Sys2Proof.Machine.execCqHeadWrite v s
  | .frameCommitted h => Sys2Proof.Machine.execFrameCommitted h s
  | .areaWrite h len v => Sys2Proof.Machine.execAreaWrite h len v s
  | .tsqAbort slot => Sys2Proof.Machine.execTsqAbort slot s
  | .tsqPwrTarget v => Sys2Proof.Machine.execTsqPwrTarget v s
  | .tsqPwrReached => Sys2Proof.Machine.execTsqPwrReached s
  | .tsqIdleTimer => Sys2Proof.Machine.execTsqIdleTimer s
  | .recoveryEnd readable => Sys2Proof.Machine.execRecoveryEnd readable s
  | .formatEnd => Sys2Proof.Machine.execFormatEnd s
  | .journalReclaim => Sys2Proof.Machine.execJournalReclaim s
  | .defPop => Sys2Proof.Machine.execDefPop s
  | .defClrOvf => Sys2Proof.Machine.execDefClrOvf s
  | .hbmPlanApply => Sys2Proof.Machine.execHbmPlanApply s
  | .hbmPlanDrained => Sys2Proof.Machine.execHbmPlanDrained s
  | .zeroingEnd => Sys2Proof.Machine.execZeroingEnd s
  | .refreshDue g bank traffic => Sys2Proof.Machine.execRefreshDue g bank traffic s
  | .hbmScrub g bank row unit found verifyFails => Sys2Proof.Machine.execHbmScrub g bank row unit found verifyFails s
  | .sparingEnd => Sys2Proof.Machine.execSparingEnd s
  | .hbmWake k => Sys2Proof.Machine.execHbmWake k s
  | .hbmWakeDone k => Sys2Proof.Machine.execHbmWakeDone k s
  | .hbmGo k => Sys2Proof.Machine.execHbmGo k s
  | .helperRunStart k => Sys2Proof.Machine.execHelperRunStart k s
  | .helperRunEnd k lanes errors => Sys2Proof.Machine.execHelperRunEnd k lanes errors s
  | .trnDelayWrite k v => Sys2Proof.Machine.execTrnDelayWrite k v s
  | .pcOffline k pc => Sys2Proof.Machine.execPcOffline k pc s
  | .pcOnline k pc => Sys2Proof.Machine.execPcOnline k pc s
  | .declareFailed k pc => Sys2Proof.Machine.execDeclareFailed k pc s
  | .pcOfflineDrained k => Sys2Proof.Machine.execPcOfflineDrained k s
  | .hbmCalUpdate g kind moves => Sys2Proof.Machine.execHbmCalUpdate g kind moves s
  | .ctxModeWrite c value => Sys2Proof.Machine.execCtxModeWrite c value s
  | .ctxSubmit c => Sys2Proof.Machine.execCtxSubmit c s
  | .codEncode c hdr sliceBits => Sys2Proof.Machine.execCodEncode c hdr sliceBits s
  | .codDecode c unit => Sys2Proof.Machine.execCodDecode c unit s
  | .codCompat c unit => Sys2Proof.Machine.execCodCompat c unit s
  | .codDrain c => Sys2Proof.Machine.execCodDrain c s
  | .codecRowEnd e trial recode => Sys2Proof.Machine.execCodecRowEnd e trial recode s
  | .codecJobEnd c => Sys2Proof.Machine.execCodecJobEnd c s
  | .sourceWaitTimeout c => Sys2Proof.Machine.execSourceWaitTimeout c s
  | .ctxPbRet c value => Sys2Proof.Machine.execCtxPbRet c value s
  | .ctxAbort c => Sys2Proof.Machine.execCtxAbort c s
  | .codecPause e cause => Sys2Proof.Machine.execCodecPause e cause s
  | .portUp k j => Sys2Proof.Machine.execPortUp k j s
  | .remoteFault k j => Sys2Proof.Machine.execRemoteFault k j s
  | .ethFrameRx k j frame good residence corr uncorr => Sys2Proof.Machine.execEthFrameRx k j frame good residence corr uncorr s
  | .htxProdWrite k value => Sys2Proof.Machine.execHtxProdWrite k value s
  | .htxFrameSent k => Sys2Proof.Machine.execHtxFrameSent k s
  | .sndEnable k sender value => Sys2Proof.Machine.execSndEnable k sender value s
  | .sndDisable k sender => Sys2Proof.Machine.execSndDisable k sender s
  | .sndSlotStart k sender => Sys2Proof.Machine.execSndSlotStart k sender s
  | .sndPacketDue k sender => Sys2Proof.Machine.execSndPacketDue k sender s
  | .ancProdWrite k sender value => Sys2Proof.Machine.execAncProdWrite k sender value s
  | .sesOpen k t => Sys2Proof.Machine.execSesOpen k t s
  | .sesClose k t => Sys2Proof.Machine.execSesClose k t s
  | .sesAbort k t => Sys2Proof.Machine.execSesAbort k t s
  | .sluiceOpenAck k msg => Sys2Proof.Machine.execSluiceOpenAck k msg s
  | .sluiceAck k msg => Sys2Proof.Machine.execSluiceAck k msg s
  | .sluiceCloseAck k msg => Sys2Proof.Machine.execSluiceCloseAck k msg s
  | .sesRtoExpiry k t ssn => Sys2Proof.Machine.execSesRtoExpiry k t ssn s
  | .sesSegmentSend k t => Sys2Proof.Machine.execSesSegmentSend k t s
  | .sesHoldRelease h => Sys2Proof.Machine.execSesHoldRelease h s
  | .recOpen msg window status => Sys2Proof.Machine.execRecOpen msg window status s
  | .recData msg window => Sys2Proof.Machine.execRecData msg window s
  | .recClose msg => Sys2Proof.Machine.execRecClose msg s
  | .timIncHiWrite value => Sys2Proof.Machine.execTimIncHiWrite value s
  | .timeNowRead => Sys2Proof.Machine.execTimeNowRead s
  | .timStep => Sys2Proof.Machine.execTimStep s
  | .timLoad => Sys2Proof.Machine.execTimLoad s
  | .timeAdjApply => Sys2Proof.Machine.execTimeAdjApply s
  | .timCtrlWrite value => Sys2Proof.Machine.execTimCtrlWrite value s
  | .watchdogExpiry => Sys2Proof.Machine.execWatchdogExpiry s
  | .timePllLoss => Sys2Proof.Machine.execTimePllLoss s
  | .syncInEdge rise => Sys2Proof.Machine.execSyncInEdge rise s
  | .timeRefEdge => Sys2Proof.Machine.execTimeRefEdge s
  | .capSoft => Sys2Proof.Machine.execCapSoft s
  | .capPop => Sys2Proof.Machine.execCapPop s
  | .capClrOvf => Sys2Proof.Machine.execCapClrOvf s
  | .strobeArm n => Sys2Proof.Machine.execStrobeArm n s
  | .strobeDisarm n => Sys2Proof.Machine.execStrobeDisarm n s
  | .strobePulseStart n => Sys2Proof.Machine.execStrobePulseStart n s
  | .strobePulseEnd n => Sys2Proof.Machine.execStrobePulseEnd n s
  | .displayFrameStart missing fail => Sys2Proof.Machine.execDisplayFrameStart missing fail s
  | .displayLatch line => Sys2Proof.Machine.execDisplayLatch line s
  | .hpdLoss => Sys2Proof.Machine.execHpdLoss s
  | .hpdIrqPulse => Sys2Proof.Machine.execHpdIrqPulse s
  | .auxGo value => Sys2Proof.Machine.execAuxGo value s
  | .auxEnd reply count bytes => Sys2Proof.Machine.execAuxEnd reply count bytes s
  | .prqResponse value => Sys2Proof.Machine.execPrqResponse value s
  | .prgResponse index code => Sys2Proof.Machine.execPrgResponse index code s
  | .translationWalkEnd master asid addr write tableErr rewalkErr completion => Sys2Proof.Machine.execTranslationWalkEnd master asid addr write tableErr rewalkErr completion s
  | .prqTimeout index => Sys2Proof.Machine.execPrqTimeout index s
  | .atsInvalidate asid addr size => Sys2Proof.Machine.execAtsInvalidate asid addr size s
  | .xltInvalidate scope asid => Sys2Proof.Machine.execXltInvalidate scope asid s
  | .xltInvDone => Sys2Proof.Machine.execXltInvDone s
  | .dmaProdWrite c value => Sys2Proof.Machine.execDmaProdWrite c value s
  | .dmaDescFetch c err => Sys2Proof.Machine.execDmaDescFetch c err s
  | .dmaCopy c chunks err => Sys2Proof.Machine.execDmaCopy c chunks err s
  | .dmaFill c chunks => Sys2Proof.Machine.execDmaFill c chunks s
  | .dmaCheck c chunks err => Sys2Proof.Machine.execDmaCheck c chunks err s
  | .dmaNop c => Sys2Proof.Machine.execDmaNop c s
  | .dmaDescEnd c err => Sys2Proof.Machine.execDmaDescEnd c err s
  | .dmaReqSoft c => Sys2Proof.Machine.execDmaReqSoft c s
  | .dmaReqWithdraw c => Sys2Proof.Machine.execDmaReqWithdraw c s
  | .dmaHalt c cause => Sys2Proof.Machine.execDmaHalt c cause s
  | .dmaResume c => Sys2Proof.Machine.execDmaResume c s
  | .dmaSkip c => Sys2Proof.Machine.execDmaSkip c s
  | .dmaAbort c => Sys2Proof.Machine.execDmaAbort c s
  | .faultEvent source unit detail lasting => Sys2Proof.Machine.execFaultEvent source unit detail lasting s
  | .bitEventAgeOut source => Sys2Proof.Machine.execBitEventAgeOut source s
  | .srcClear source => Sys2Proof.Machine.execSrcClear source s
  | .faultnRelease => Sys2Proof.Machine.execFaultnRelease s
  | .faultnAssert => Sys2Proof.Machine.execFaultnAssert s
  | .faultnMinEnd => Sys2Proof.Machine.execFaultnMinEnd s
  | .logPop => Sys2Proof.Machine.execLogPop s
  | .logClrOvf => Sys2Proof.Machine.execLogClrOvf s
  | .injArm => Sys2Proof.Machine.execInjArm s
  | .injDisarm => Sys2Proof.Machine.execInjDisarm s
  | .injExpiry => Sys2Proof.Machine.execInjExpiry s
  | .testStart => Sys2Proof.Machine.execTestStart s
  | .testStop => Sys2Proof.Machine.execTestStop s
  | .testEnd pass part detail => Sys2Proof.Machine.execTestEnd pass part detail s
  | .housekeepingRound readings temps => Sys2Proof.Machine.execHousekeepingRound readings temps s
  | .thmShutdown => Sys2Proof.Machine.execThmShutdown s
  | .drainEnd => Sys2Proof.Machine.execDrainEnd s
  | .shutdownStopped => Sys2Proof.Machine.execShutdownStopped s
  | .supplyLoopWindow => Sys2Proof.Machine.execSupplyLoopWindow s
  | .avsAnswer answer => Sys2Proof.Machine.execAvsAnswer answer s
  | .avsRaiseTimeout => Sys2Proof.Machine.execAvsRaiseTimeout s
  | .domainSegmentSettled d => Sys2Proof.Machine.execDomainSegmentSettled d s
  | .paceBudgetWindow => Sys2Proof.Machine.execPaceBudgetWindow s
  | .cntRun run userEn => Sys2Proof.Machine.execCntRun run userEn s
  | .cntSettled => Sys2Proof.Machine.execCntSettled s
  | .clearAll => Sys2Proof.Machine.execClearAll s
  | .cntCfgWrite n value => Sys2Proof.Machine.execCntCfgWrite n value s
  | .counterRead n wide => Sys2Proof.Machine.execCounterRead n wide s
  | .bar2Read addr len fails rereadFails verifyFails => Sys2Proof.Machine.execBar2Read addr len fails rereadFails verifyFails s
  | .bar2Write addr bytes => Sys2Proof.Machine.execBar2Write addr bytes s
  | .busMasterEnable memory bme d3hot => Sys2Proof.Machine.execBusMasterEnable memory bme d3hot s
  | .coldRstNFall => Sys2Proof.Machine.execColdRstNFall s
  | .coldResetEnd => Sys2Proof.Machine.execColdResetEnd s
  | .vddAonRise => Sys2Proof.Machine.execVddAonRise s
  | .perstNFall => Sys2Proof.Machine.execPerstNFall s
  | .perstNRise => Sys2Proof.Machine.execPerstNRise s
  | .warmReset key => Sys2Proof.Machine.execWarmReset key s
  | .warmResetEnd => Sys2Proof.Machine.execWarmResetEnd s
  | .flr => Sys2Proof.Machine.execFlr s
  | .flrEnd => Sys2Proof.Machine.execFlrEnd s
  | .heldResetStart => Sys2Proof.Machine.execHeldResetStart s
  | .hbmRailDeparture aon => Sys2Proof.Machine.execHbmRailDeparture aon s
  | .coreRailDeparture => Sys2Proof.Machine.execCoreRailDeparture s
  | .smbIdent => Sys2Proof.Machine.execSmbIdent s
  | .smbStatus => Sys2Proof.Machine.execSmbStatus s
  | .smbTemps => Sys2Proof.Machine.execSmbTemps s
  | .smbVfab => Sys2Proof.Machine.execSmbVfab s
  | .smbWinAddr value pecOk => Sys2Proof.Machine.execSmbWinAddr value pecOk s
  | .smbWinDataRead => Sys2Proof.Machine.execSmbWinDataRead s
  | .smbWinDataWrite value pecOk => Sys2Proof.Machine.execSmbWinDataWrite value pecOk s
  | .smbSubsys vid sid pecOk => Sys2Proof.Machine.execSmbSubsys vid sid pecOk s
  | .smbusTimeout => Sys2Proof.Machine.execSmbusTimeout s
  | .blockLockAcquired h lane => Sys2Proof.Machine.execBlockLockAcquired h lane s
  | .commaError h lane => Sys2Proof.Machine.execCommaError h lane s
  | .downstreamComma h => Sys2Proof.Machine.execDownstreamComma h s
  | .headCommaArrival h copyB sfc role => Sys2Proof.Machine.execHeadCommaArrival h copyB sfc role s
  | .headCopyLost h copyB => Sys2Proof.Machine.execHeadCopyLost h copyB s
  | .headCtrlLostTimeout h => Sys2Proof.Machine.execHeadCtrlLostTimeout h s
  | .downstreamAck h seq => Sys2Proof.Machine.execDownstreamAck h seq s
  | .headFeedFltRise h => Sys2Proof.Machine.execHeadFeedFltRise h s
  | .timePllRelock => Sys2Proof.Machine.execTimePllRelock s
  | .trefPresentLapse sync => Sys2Proof.Machine.execTrefPresentLapse sync s
  | .syncDisarmCut n => Sys2Proof.Machine.execSyncDisarmCut n s
  | .hpdAssert => Sys2Proof.Machine.execHpdAssert s
  | .witnessBankChange w bank => Sys2Proof.Machine.execWitnessBankChange w bank s
  | .remoteFaultClear k j => Sys2Proof.Machine.execRemoteFaultClear k j s
  | .ethFecFailure lane uncorr => Sys2Proof.Machine.execEthFecFailure lane uncorr s
  | .flitReplay => Sys2Proof.Machine.execFlitReplay s
  | .pcieLinkUp rate width flit => Sys2Proof.Machine.execPcieLinkUp rate width flit s
  | .pcieLinkRecovery rate width lane => Sys2Proof.Machine.execPcieLinkRecovery rate width lane s
  | .atsEnableChange enable => Sys2Proof.Machine.execAtsEnableChange enable s
  | .priReset enable => Sys2Proof.Machine.execPriReset enable s
  | .coreRailRecovery => Sys2Proof.Machine.execCoreRailRecovery s
  | .prbsCounterSaturation lane errors bits => Sys2Proof.Machine.execPrbsCounterSaturation lane errors bits s

end Sys2Proof.Machine
end

