-- ==== Sys2Proof/Safety.lean ====
section
/-! DEFINITION. The terms in which claims are stated: the canonical form of the tables, what a host write meets, what a command
leaves unchanged. -/

namespace Sys2Proof.Machine

/-- HBM and host memory are in their canonical form. -/
def State.memoryCanonical (s : State) : Bool := Memory.wf s.memGen s.mem && Memory.wf [] s.hostMem

/-- The BAR0 registers, as the host sees them and as active copies, are in their canonical form. -/
def State.registersCanonical (s : State) : Bool := Sparse.wf resetVal s.regs && Sparse.wf resetVal s.actv

/-- There are 256 counters, each of 48 bits (R719). -/
def State.countersInRange (s : State) : Bool := s.cnt.length == 256 && s.cnt.all (fun v => decide (v < 2 ^ 48))

/-- How many lanes, quads, CLR instances, ingests, links, heads, slices, witness ports, raw routes, Ethernet units and DMA channels
the state holds. -/
def State.shape (s : State) : List Nat :=
  [s.lanes.length, s.quads.length, s.clr.length, s.ing.length, s.cwy.length, s.heads.length, s.slices.length, s.wits.length,
   s.raw.length, s.eth.length, s.dma.length]

/-- How many of them the device has. -/
def deviceShape : List Nat := [96, 24, 28, 4, 4, 4, 5, 4, 4, 4, 16]

/-- What every step keeps: canonical memories and registers, counters in range, every unit of the device there. -/
def State.canonical (s : State) : Bool :=
  s.memoryCanonical && s.registersCanonical && s.countersInRange && s.shape == deviceShape

/-- The state in which a host access of n bytes to BAR0 takes effect: the access and its payload are counted (R716). -/
def State.claimed (s : State) (n : Nat := 4) : State :=
  (s.count { cls := 4, ev := 3 }).count { cls := 4, ev := 1, amount := n, user := some false }

/-- A write of v to the register at off is not refused: an instance owns the offset, no warm reset hides its page (R745), and no rule
of R42–R49 refuses the write. -/
def State.accepts (s : State) (off v : Nat) : Bool :=
  match owner off with
  | none => false
  | some o => (!s.on TOP TOP_RESET_STAT_WARM_BUSY || o.blk == .top || o.blk == .hif) && (s.writeCause o v).isNone

/-- A host write of v to the register at off takes effect: the function claims it (R736), and nothing refuses it. -/
def State.reaches (s : State) (off v : Nat) (n : Nat := 4) : Bool := s.hif.memory && (s.claimed n).accepts off v

/-- A host write to the page header of the instance with summary bit n takes effect (R36, R736, R745). -/
def State.headerReaches (s : State) (n : Nat) : Bool :=
  s.hif.memory && (!s.claimed.on TOP TOP_RESET_STAT_WARM_BUSY || (instOf n).1 == .top || (instOf n).1 == .hif)

/-- The base of the page header of the instance with summary bit n. -/
def pageOf (n : Nat) : Nat := (instOf n).1.at (instOf n).2

/-- An offset on the pages of the counters: what a counted event may change. -/
def cntPage (off : Nat) : Bool := decide (CNT ≤ off) && decide (off < CNT + 0x4000)

/-- From s to t only BAR0 registers at the offsets l changed, and no other state. -/
def OnlyRegs (l : List Nat) (s t : State) : Prop := t = { s with regs := t.regs } ∧ ∀ off, off ∉ l → t.rd off = s.rd off

/-- From s to t every BAR0 register but those at l, and those that counted events change, reads as before, and the memories, the
part and the queue are the same. -/
def RegsBut (l : List Nat) (s t : State) : Prop :=
  (∀ off, off ∉ l → cntPage off = false → t.rd off = s.rd off) ∧ t.mem = s.mem ∧ t.memGen = s.memGen ∧ t.hostMem = s.hostMem ∧
    t.part = s.part ∧ t.pending = s.pending

/-- From s to t every BAR0 register outside the instances with bases bs, and outside what counted events change, reads as before. -/
def PagesBut (bs : List Nat) (s t : State) : Prop :=
  ∀ off, (∀ b ∈ bs, (owner off).map (fun o => o.blk.at o.inst) ≠ some b) → cntPage off = false → t.rd off = s.rd off

/-- From s to t the head h took the message seq as its next one and answered it, with an ACK where the NACK reason is 0 (R177); nothing
but that head changed. -/
abbrev HeadAnswers (h seq reason : Nat) (s t : State) : Prop :=
  t = s.setHd h (fun _ => t.hd h) ∧ (t.hd h).rxSeq = (seq + 1) % 65536 ∧
    (t.hd h).up.head? = some ⟨if reason = 0 then 1 else 2, seq, reason⟩

/-- Where the strips of a head's frames stand, with their slots; their records; where the frames were placed. -/
def State.stripsOf (s : State) (h : Nat) : List (List (StripAt × Nat × Nat)) :=
  (s.rawOf h).map (fun f => f.strips.map (fun u => (u.at_, u.slot, u.slotLen)))
def State.recordsOf (s : State) (h : Nat) : List (List (List Byte × Bool × Nat)) :=
  (s.rawOf h).map (fun f => f.strips.map (fun u => (u.record, u.displaced, u.off)))
def State.placesOf (s : State) (h : Nat) : List (Nat × Option Nat) := (s.rawOf h).map (fun f => (f.nextOff, f.first))

/-- How the take-store commands that the device holds have ended. -/
def State.doneOf (s : State) : List (Option Done) := s.tsq.cmds.map (fun c => c.done)

/-- The command may store to HBM or to host memory, or change what a byte of HBM that nothing has written reads as: the master of an
engine that it starts or ends, a record or statistics block, a report, a plan, a loss of power. -/
def mayStore : Instr → Bool
  | .registerWrite .. | .enable .. | .disable .. | .softReset .. | .powerReq .. | .badWriteClr .. | .pllLockLoss ..
  | .presetAttemptEnd .. | .losAssert .. | .lolAssert .. | .commaReceived .. | .syncHeaderError .. | .stripeDelivery ..
  | .msgResendTimer .. | .headAck .. | .headNack .. | .readRsp .. | .feedOn .. | .feedOff .. | .feedPendingRaise ..
  | .feedFault .. | .ctrlUpTimer .. | .linkAligned .. | .linkRestart .. | .frameStartStripe .. | .lineStripe ..
  | .dataStripe .. | .frameEndStripe .. | .msgStripe .. | .frameTimeout .. | .ingestStopDeadline .. | .statsBlockWritten ..
  | .lineRelease .. | .paceWindowEnd .. | .shedRelease | .vsyncEdge .. | .witnessLineEnd .. | .pclkLost .. | .pclkWindowEnd ..
  | .witFrameTimeout .. | .witStopDeadline .. | .witStatsWritten .. | .stripSized .. | .stripCoded .. | .stripVerified ..
  | .stripRecoded .. | .gcxJobStart | .gcxCompress | .gcxDecompress | .gcxContinue | .gcxJobEnd | .slotRead .. | .slotWrite ..
  | .slotJread .. | .writeApplied .. | .completionPosted .. | .frameCommitted .. | .recoveryEnd .. | .formatEnd
  | .hbmPlanDrained | .ctxModeWrite .. | .ctxSubmit .. | .codEncode .. | .codDecode .. | .codCompat .. | .codDrain ..
  | .codecRowEnd .. | .codecJobEnd .. | .sourceWaitTimeout .. | .ctxAbort .. | .codecPause .. | .ethFrameRx ..
  | .htxFrameSent .. | .sndSlotStart .. | .displayFrameStart .. | .prqResponse .. | .prgResponse .. | .translationWalkEnd ..
  | .prqTimeout .. | .dmaDescFetch .. | .dmaCopy .. | .dmaFill .. | .dmaCheck .. | .dmaDescEnd .. | .faultEvent ..
  | .testEnd .. | .housekeepingRound .. | .drainEnd | .shutdownStopped | .bar2Write .. | .busMasterEnable .. | .vddAonRise
  | .perstNFall | .warmReset .. | .flr | .heldResetStart | .hbmRailDeparture .. | .smbWinDataWrite .. | .commaError .. => true
  | .rcRead .. | .blockStopped .. | .softResetDone .. | .irqForce .. | .commit .. | .revert .. | .irqHoldoffEnd ..
  | .msixUnmask .. | .quadRoleWrite .. | .pllRelockEnd .. | .ctrlPresetMove .. | .trainingStart .. | .autoRetry ..
  | .pstateTargetWrite .. | .pstateReached .. | .losDeassert .. | .lolDeassert .. | .calibrationDue .. | .slicerCalDone ..
  | .marginVisitDone .. | .scanStart .. | .scanPointDone .. | .prbsCheckerLock .. | .prbsCheckerUnlock .. | .prbsClear ..
  | .prbsSingleInject .. | .prbsRateInject .. | .ethLaneTrainingEnd .. | .standbyReadyRemap .. | .timeT2 .. | .timeT3 ..
  | .headStatus .. | .setApplied .. | .setLate .. | .headEvent .. | .unknownUpstreamMsg .. | .hregWrite .. | .hregRead ..
  | .headSetWrite .. | .headSetCommit .. | .headTimeProbe .. | .headTimeSec .. | .headTimeLoad .. | .headTimeStep ..
  | .headTimeRate .. | .expStart .. | .expPeriod .. | .expStop .. | .headStream .. | .headTrain .. | .headPreset ..
  | .headRemap .. | .headStandby .. | .exposureStart .. | .probeTimer .. | .probeLostTimer .. | .servoHoldTimer ..
  | .feedHoldoffEnd .. | .cwyTxqPush .. | .cwyRxqPop .. | .ingNextSeqWrite .. | .abnPop .. | .abnClrOvf .. | .recomputeDone ..
  | .recomputeDeadline | .patrolRecompute .. | .tblLoadStart .. | .tblLoadBegin .. | .tblLoadEnd .. | .tapBufferReturn ..
  | .clrLoadCurves .. | .clrLoadLut .. | .clrLoadGen .. | .clrLoadBegin .. | .clrOperationEnd .. | .clrTableRefill ..
  | .pclkRestored .. | .witDatapathClear .. | .witNextWfnWrite .. | .witTapReturn .. | .planCheck | .planActivate
  | .planCheckEnd | .planActivateEnd | .sumpScrubPass .. | .sumpRemapTakeup .. | .wrbufRebuildEnd .. | .clrForced ..
  | .gcxProdWrite .. | .gcxPause .. | .gcxAbort | .slotCmdSubmit .. | .acceptDurable .. | .slotNop .. | .slotFlush ..
  | .slotRelease .. | .slotVerify .. | .slotFormat .. | .writeBuffered .. | .writeEntryDurable .. | .cqHeadWrite ..
  | .areaWrite .. | .tsqAbort .. | .tsqPwrTarget .. | .tsqPwrReached | .tsqIdleTimer | .journalReclaim | .defPop | .defClrOvf
  | .hbmPlanApply | .zeroingEnd | .refreshDue .. | .hbmScrub .. | .sparingEnd | .hbmWake .. | .hbmWakeDone .. | .hbmGo ..
  | .helperRunStart .. | .helperRunEnd .. | .trnDelayWrite .. | .pcOffline .. | .pcOnline .. | .declareFailed ..
  | .pcOfflineDrained .. | .hbmCalUpdate .. | .ctxPbRet .. | .portUp .. | .remoteFault .. | .htxProdWrite .. | .sndEnable ..
  | .sndDisable .. | .sndPacketDue .. | .ancProdWrite .. | .sesOpen .. | .sesClose .. | .sesAbort .. | .sluiceOpenAck ..
  | .sluiceAck .. | .sluiceCloseAck .. | .sesRtoExpiry .. | .sesSegmentSend .. | .sesHoldRelease .. | .recOpen ..
  | .recData .. | .recClose .. | .timIncHiWrite .. | .timeNowRead | .timStep | .timLoad | .timeAdjApply | .timCtrlWrite ..
  | .watchdogExpiry | .timePllLoss | .syncInEdge .. | .timeRefEdge | .capSoft | .capPop | .capClrOvf | .strobeArm ..
  | .strobeDisarm .. | .strobePulseStart .. | .strobePulseEnd .. | .displayLatch .. | .hpdLoss | .hpdIrqPulse | .auxGo ..
  | .auxEnd .. | .atsInvalidate .. | .xltInvalidate .. | .xltInvDone | .dmaProdWrite .. | .dmaNop .. | .dmaReqSoft ..
  | .dmaReqWithdraw .. | .dmaHalt .. | .dmaResume .. | .dmaSkip .. | .dmaAbort .. | .bitEventAgeOut .. | .srcClear ..
  | .faultnRelease | .faultnAssert | .faultnMinEnd | .logPop | .logClrOvf | .injArm | .injDisarm | .injExpiry | .testStart
  | .testStop | .thmShutdown | .supplyLoopWindow | .avsAnswer .. | .avsRaiseTimeout | .domainSegmentSettled ..
  | .paceBudgetWindow | .cntRun .. | .cntSettled | .clearAll | .cntCfgWrite .. | .counterRead .. | .bar2Read ..
  | .coldRstNFall | .coldResetEnd | .perstNRise | .warmResetEnd | .flrEnd | .coreRailDeparture | .smbIdent | .smbStatus
  | .smbTemps | .smbVfab | .smbWinAddr .. | .smbWinDataRead | .smbSubsys .. | .smbusTimeout | .blockLockAcquired ..
  | .downstreamComma .. | .headCommaArrival .. | .headCopyLost .. | .headCtrlLostTimeout .. | .downstreamAck ..
  | .headFeedFltRise .. | .timePllRelock | .trefPresentLapse .. | .syncDisarmCut .. | .hpdAssert | .witnessBankChange ..
  | .remoteFaultClear .. | .ethFecFailure .. | .flitReplay | .pcieLinkUp .. | .pcieLinkRecovery .. | .atsEnableChange ..
  | .priReset .. | .coreRailRecovery | .prbsCounterSaturation .. => false

end Sys2Proof.Machine
end

