-- ==== Sys2Proof/Certificates/Slice0/Obligations.lean ====
section
/-! DEFINITION. The statements for the provers. -/

open Sys2Proof Sys2Proof.Machine

/-- LOS_DEASSERT clears LNK_LANE_STAT.LOS and LOL_DEASSERT clears LOL. A pattern checker that may run takes LOCK on
PRBS_CHECKER_LOCK; a locked one loses it on PRBS_CHECKER_UNLOCK, its counters taking, saturated at 2^48 - 1, the errors and bits
since lock, as they do on PRBS_COUNTER_SATURATION, where SATURATED rises with a counter at its top. Only the registers named
change. (R131, R142, R151.) -/
def Obligations.DetectorsAndCheckersFollowTheirCommands : Prop :=
∀ (s : State) (lane : Fin 96) (errors bits : Nat), s.canonical = true →
    let b := lnb lane
    let counters := [b + LNK_PRBS_STAT.off, b + LNK_PRBS_ERR_LO.off, b + LNK_PRBS_ERR_HI.off, b + LNK_PRBS_BITS_LO.off, b + LNK_PRBS_BITS_HI.off]
    (∃ t, exec (.losDeassert lane) s = .next t ∧ t.g b LNK_LANE_STAT_LOS = 0 ∧ OnlyRegs [b + LNK_LANE_STAT.off] s t) ∧
    (∃ t, exec (.lolDeassert lane) s = .next t ∧ t.g b LNK_LANE_STAT_LOL = 0 ∧ OnlyRegs [b + LNK_LANE_STAT.off] s t) ∧
    (s.ownerOn (lane / 4) = false → s.on b LNK_PRBS_CTRL_CHK_EN = true → ∃ t, exec (.prbsCheckerLock lane) s = .next t ∧
      t.g b LNK_PRBS_STAT_LOCK = 1 ∧ OnlyRegs [b + LNK_PRBS_STAT.off] s t) ∧
    (s.on b LNK_PRBS_STAT_LOCK = true → s.on b LNK_PRBS_STAT_SATURATED = false →
      ∃ t, exec (.prbsCheckerUnlock lane errors bits) s = .next t ∧ t.g b LNK_PRBS_STAT_LOCK = 0 ∧
      t.g64 b LNK_PRBS_ERR_LO = min (2 ^ 48 - 1) (s.g64 b LNK_PRBS_ERR_LO + errors) ∧
      t.g64 b LNK_PRBS_BITS_LO = min (2 ^ 48 - 1) (s.g64 b LNK_PRBS_BITS_LO + bits) ∧ OnlyRegs counters s t) ∧
    (s.on b LNK_PRBS_STAT_LOCK = true → s.on b LNK_PRBS_STAT_SATURATED = false →
      2 ^ 48 - 1 ≤ s.g64 b LNK_PRBS_ERR_LO + errors → ∃ t, exec (.prbsCounterSaturation lane errors bits) s = .next t ∧
      t.g b LNK_PRBS_STAT_SATURATED = 1 ∧ t.g64 b LNK_PRBS_ERR_LO = 2 ^ 48 - 1 ∧
      t.g64 b LNK_PRBS_BITS_LO = min (2 ^ 48 - 1) (s.g64 b LNK_PRBS_BITS_LO + bits) ∧ OnlyRegs counters s t)

/-- CALIBRATION_DUE of a receiver in P0 that is not yet due joins the calibrations of its quad and starts at once where none
waits and no scan point dwells. SLICER_CAL_DONE ends the one that runs, and where no other is due a waiting scan point goes on.
A MARGIN_VISIT_DONE that nothing forbids puts its result in LNK_MARGIN with AGE 0 and VALID 1. SCAN_START, where the point may
be taken, clears DONE and shows WAITING while a calibration is due; SCAN_POINT_DONE of a dwelling point sets DONE, clears START,
gives LNK_SCAN_ERR and raises interrupt 17. (R134-R136, R140, R148.) -/
def Obligations.SamplerCalibratesVisitsAndScans : Prop :=
∀ (s : State) (lane : Fin 96) (q : Fin 24) (height width : Byte) (errors : Nat) (value : Word), s.canonical = true →
    let b := lnb lane
    let k := lane.val / 4
    let v := value.toNat % 2 ^ 31 + 2 ^ 31
    (s.g b LNK_LANE_STAT_RX_NOW = 0 → (s.quad k).calDue.contains lane.val = false →
      ∃ t, exec (.calibrationDue lane) s = .next t ∧
      t.quads = upd s.quads k (fun x => { x with calDue := x.calDue ++ [lane.val] }) ∧
      ((s.quad k).calDue = [] → s.on (LNK k) LNK_SCAN_CTRL_START = false → t.g b LNK_LANE_STAT_IN_CAL = 1) ∧
      OnlyRegs [b + LNK_LANE_STAT.off] { s with quads := t.quads } t) ∧
    (s.on b LNK_LANE_STAT_IN_CAL = true → (s.quad k).calDue = [lane.val] → ∃ t, exec (.slicerCalDone lane) s = .next t ∧
      (t.quad k).calDue = [] ∧ t.g b LNK_LANE_STAT_IN_CAL = 0 ∧ t.g (LNK k) LNK_SCAN_STAT_WAITING = 0 ∧
      OnlyRegs [b + LNK_LANE_STAT.off, LNK k + LNK_SCAN_STAT.off] { s with quads := t.quads } t) ∧
    (s.g b LNK_LANE_STAT_RX_NOW = 0 → (s.quad k).calDue = [] → s.on (LNK k) LNK_SCAN_CTRL_START = false →
      ∃ t, exec (.marginVisitDone lane height width) s = .next t ∧ t.g b LNK_MARGIN_HEIGHT = height.toNat ∧
      t.g b LNK_MARGIN_WIDTH = width.toNat ∧ t.g b LNK_MARGIN_AGE = 0 ∧ t.g b LNK_MARGIN_VALID = 1 ∧
      OnlyRegs [b + LNK_MARGIN.off] { s with lanes := t.lanes } t) ∧
    (s.reaches (LNK q + LNK_SCAN_CTRL.off) v = true → s.on (LNK q) LNK_SCAN_CTRL_START = false →
      s.g (lnb (4 * q + v % 4)) LNK_LANE_STAT_RX_NOW = 0 → (s.rxNrz q && fld v 15 2 != 1) = false →
      ∃ t, exec (.scanStart q value) s = .next t ∧ t.g (LNK q) LNK_SCAN_CTRL_START = 1 ∧ t.g (LNK q) LNK_SCAN_STAT_DONE = 0 ∧
      t.g (LNK q) LNK_SCAN_STAT_WAITING = b2n (!(s.quad q).calDue.isEmpty) ∧
      OnlyRegs [LNK q + LNK_SCAN_CTRL.off, LNK q + LNK_SCAN_STAT.off] s.claimed t) ∧
    (s.on (LNK q) LNK_SCAN_CTRL_START = true → s.on (LNK q) LNK_SCAN_STAT_WAITING = false → (s.quad q).calDue = [] →
      ∃ t, exec (.scanPointDone q errors) s = .next t ∧ t.g (LNK q) LNK_SCAN_CTRL_START = 0 ∧
      t.g (LNK q) LNK_SCAN_STAT_DONE = 1 ∧ t.g (LNK q) LNK_SCAN_ERR = min errors (2 ^ 32 - 1) ∧
      t.gBit (LNK q) IRQ_STAT 17 = true ∧
      RegsBut [LNK q + LNK_SCAN_CTRL.off, LNK q + LNK_SCAN_STAT.off, LNK q + LNK_SCAN_ERR.off, LNK q + IRQ_STAT.off] s t)

/-- Where the write is taken and no rule refuses it: QUAD_ROLE_WRITE sets ROLE, unit and half; PSTATE_TARGET_WRITE sets both
targets, and in a quad that runs both halves start towards them; TRAINING_START starts a search on a receiver in P0; PRBS_CLEAR
zeroes both counters and SATURATED; PRBS_SINGLE_INJECT arms one inverted bit and PRBS_RATE_INJECT the periodic ones.
CTRL_PRESET_MOVE loads the control transmitter of head lane 11 with its preset, and AUTO_RETRY of a failed lane in P0 starts
another search, at most six. (R103, R115, R121, R127, R143, R149.) -/
def Obligations.LaneSettingsTakeEffect : Prop :=
∀ (s : State) (q : Fin 24) (lane : Fin 96) (h : Fin 4) (value : Word) (retry : Bool) (rate : Fin 64) (p : Nat), s.canonical =
    true →
    let b := lnb lane
    let v := value.toNat
    (s.reaches (LNK q + LNK_QUAD_CFG.off) v = true → s.claimed.ownerOn q = false → v % 2 = 0 →
      s.g (LNK q) LNK_QUAD_CFG_ROLE = 0 → ∃ t, exec (.quadRoleWrite q value) s = .next t ∧
      t.g (LNK q) LNK_QUAD_CFG_ROLE = 0 ∧ t.g (LNK q) LNK_QUAD_CFG_ETH_UNIT = fld v 1 2 ∧
      t.g (LNK q) LNK_QUAD_CFG_ETH_HALF = fld v 3 1 ∧ OnlyRegs [LNK q + LNK_QUAD_CFG.off] s.claimed t) ∧
    (s.reaches (b + LNK_LANE_PWR.off) v = true → s.claimed.ownerOn (lane / 4) = false → s.enabled (LNK (lane / 4)) = false →
      s.g b LNK_LANE_STAT_RX_NOW = 3 → s.g b LNK_LANE_STAT_TX_NOW = 3 →
      ∃ t, exec (.pstateTargetWrite lane value) s = .next t ∧ t.g b LNK_LANE_PWR_RX_PSTATE = fld v 0 2 ∧
      t.g b LNK_LANE_PWR_TX_PSTATE = fld v 4 2 ∧ OnlyRegs [b + LNK_LANE_PWR.off] s.claimed t) ∧
    (s.reaches (b + LNK_LANE_PWR.off) v = true → s.claimed.ownerOn (lane / 4) = false → s.enabled (LNK (lane / 4)) = true →
      s.g THM THM_STAT_STAGE ≠ 2 → (s.lane lane).rxMove = none → (s.lane lane).txMove = none →
      s.g b LNK_LANE_STAT_RX_NOW ≠ 3 → s.g b LNK_LANE_STAT_TX_NOW ≠ 3 → fld v 0 2 ≠ 3 → fld v 4 2 ≠ 3 →
      fld v 0 2 ≠ s.g b LNK_LANE_STAT_RX_NOW → fld v 4 2 ≠ s.g b LNK_LANE_STAT_TX_NOW →
      ∃ t, exec (.pstateTargetWrite lane value) s = .next t ∧ t.g b LNK_LANE_PWR_RX_PSTATE = fld v 0 2 ∧
      t.g b LNK_LANE_PWR_TX_PSTATE = fld v 4 2 ∧ (t.lane lane).rxMove = some (fld v 0 2) ∧
      (t.lane lane).txMove = some (fld v 4 2) ∧ RegsBut [b + LNK_LANE_PWR.off] s t) ∧
    (s.reaches (b + LNK_LANE_TRAIN.off) (1 + 2 * b2n retry) = true →
      s.claimed.ownerRefuses (b + LNK_LANE_TRAIN.off) (1 + 2 * b2n retry) = false → s.on b LNK_LANE_STAT_TRAINING = false →
      (s.lane lane).waking = false → s.g b LNK_LANE_STAT_RX_NOW = 0 → ∃ t, exec (.trainingStart lane retry) s = .next t ∧
      t.g b LNK_LANE_STAT_TRAINING = 1 ∧ t.g b LNK_LANE_TRAIN_AUTO_RETRY = b2n retry ∧ (t.lane lane).searches = 0 ∧
      RegsBut [b + LNK_LANE_TRAIN.off, b + LNK_LANE_STAT.off] s t) ∧
    (s.reaches (b + LNK_PRBS_CTRL.off) (setFld v 6 1 1) = true → s.claimed.ownerOn (lane / 4) = false →
      ∃ t, exec (.prbsClear lane value) s = .next t ∧ t.g64 b LNK_PRBS_ERR_LO = 0 ∧ t.g64 b LNK_PRBS_BITS_LO = 0 ∧
      t.g b LNK_PRBS_STAT_SATURATED = 0 ∧
      OnlyRegs [b + LNK_PRBS_CTRL.off, b + LNK_PRBS_STAT.off, b + LNK_PRBS_ERR_LO.off, b + LNK_PRBS_ERR_HI.off, b +
        LNK_PRBS_BITS_LO.off, b + LNK_PRBS_BITS_HI.off] s.claimed t) ∧
    (s.reaches (b + LNK_PRBS_INJ.off) 1 = true → s.claimed.ownerOn (lane / 4) = false → s.on b LNK_PRBS_CTRL_GEN_EN = true →
      ∃ t, exec (.prbsSingleInject lane) s = .next t ∧ (t.lane lane).injectOne = true ∧ RegsBut [] s t) ∧
    (s.reaches (b + LNK_PRBS_INJ.off) (0x100 * rate) = true → ∃ t, exec (.prbsRateInject lane rate) s = .next t ∧
      (t.lane lane).injectRate = rate ∧ RegsBut [] s t) ∧
    ((s.quad (3 * h + 2)).ctrlMove = some p → ∃ t, exec (.ctrlPresetMove h) s = .next t ∧
      (t.quad (3 * h + 2)).ctrlMove = none ∧
      t.g (lnb (12 * h + 11)) LNK_TX_COEF_C_0 = s.g (LNK (3 * h + 2) + 4 * p) LNK_PRESET_MAIN ∧
      RegsBut [lnb (12 * h + 11) + LNK_TX_COEF.off] s t) ∧
    (s.on b LNK_LANE_TRAIN_AUTO_RETRY = true → s.on b LNK_LANE_STAT_TRAIN_FAILED = true →
      s.on b LNK_LANE_STAT_TRAINING = false → (s.lane lane).waking = false → s.g b LNK_LANE_STAT_RX_NOW = 0 →
      (s.lane lane).searches < 6 → ∃ t, exec (.autoRetry lane) s = .next t ∧ t.g b LNK_LANE_STAT_TRAINING = 1 ∧
      (t.lane lane).searches = (s.lane lane).searches + 1 ∧ RegsBut [b + LNK_LANE_STAT.off] s t)

/-- A refused write on a page whose BAD_WRITE is 0 sets it and records its cause and its offset within the page in BAD_CAUSE and
BAD_OFFSET; while BAD_WRITE is 1 a further refusal leaves both fields, and all else, unchanged; the command BAD_WRITE_CLR, where
the page takes the write, clears all three fields, so that the next refusal is recorded. (For a page whose power is switched,
the clause on the command is said where POWER_REQ reads 0; such a write with POWER_REQ 1 also renews the power request.) -/
def Obligations.FirstRefusedWriteIsRecorded : Prop :=
  ∀ (s : State) (b off cause : Nat) (n : Fin 111), s.canonical = true →
    let blk := (instOf n.val).1
    let p := pageOf n.val
    let u := s.claimed
    (s.on b PAGE_STAT_BAD_WRITE = false →
      (s.badWrite b off cause).g b PAGE_STAT_BAD_WRITE = 1 ∧ (s.badWrite b off cause).g b PAGE_STAT_BAD_CAUSE = cause % 16 ∧
        (s.badWrite b off cause).g b PAGE_STAT_BAD_OFFSET = off % 0x1000 ∧
        OnlyRegs [b + PAGE_STAT.off] s (s.badWrite b off cause)) ∧
    (s.on b PAGE_STAT_BAD_WRITE = true → s.badWrite b off cause = s) ∧
    (s.headerReaches n = true → u.ctrlRefused blk (instOf n.val).2 (u.ctrlWith n 0 16) = false →
      u.g p PAGE_CTRL_POWER_REQ = 0 ∨ (u.g p PAGE_CTRL_POWER_REQ = 1 ∧ instDomain blk (instOf n.val).2 = none) →
      ∃ t, exec (.badWriteClr n) s = .next t ∧ t.g p PAGE_STAT_BAD_WRITE = 0 ∧ t.g p PAGE_STAT_BAD_CAUSE = 0 ∧
        t.g p PAGE_STAT_BAD_OFFSET = 0 ∧ OnlyRegs [p + PAGE_STAT.off, p + PAGE_CTRL.off] u t)

/-- While PAGE_STAT.POWERED of an instance is 0, a read of an aligned 4-byte register at 0x100 or above of any of its pages
returns four bytes of 0, and a write there changes nothing but PAGE_STAT, where BAD_WRITE is set and, if it was 0, the cause is
0x3 and the offset that of the write. The accesses are ones that the function claims outside a warm reset; the switched
instances are those that can be without power. -/
def Obligations.NoPowerMeansReadsZeroAndRefusedWrites : Prop :=
  ∀ (s : State) (off : Fin 0x4000000) (v : Word) (blk : Blk) (i rel : Nat), s.canonical = true → s.hif.memory = true →
    s.on TOP TOP_RESET_STAT_WARM_BUSY = false → owner off.val = some ⟨blk, i, rel⟩ → blk.row.switched = true →
    0x100 ≤ rel % 0x1000 → off.val % 4 = 0 → s.powered (blk.at i) = false →
    let p := blk.at i
    (∃ t, exec (.rcRead off 4) s = .next t ∧ t.out.head? = some (.barData [0, 0, 0, 0] false) ∧ RegsBut [] s t) ∧
    (∃ t, exec (.registerWrite off ((leBytes 4 v.toNat).map some)) s = .next t ∧ t.on p PAGE_STAT_BAD_WRITE = true ∧
      (s.on p PAGE_STAT_BAD_WRITE = false →
        t.g p PAGE_STAT_BAD_CAUSE = 3 ∧ t.g p PAGE_STAT_BAD_OFFSET = off.val % 0x1000) ∧
      (s.on p PAGE_STAT_BAD_WRITE = true → t.rd (p + PAGE_STAT.off) = s.rd (p + PAGE_STAT.off)) ∧
      RegsBut [p + PAGE_STAT.off] s t)

/-- Where R40 and the block's own rules do not refuse it, ENABLE sets PAGE_CTRL.ENABLE and the block starts; DISABLE clears it
and the block goes to its stop, and where it holds no work a pending commit applies; SOFT_RESET resets the instance and reads 1
until SOFT_RESET_DONE; POWER_REQ takes the value written, and a value that changes, or 0b01 out of STOPPED, requests the
instance's domain. A POWER_REQ of 0b10 or 0b11 is refused with cause 0x1. (R39-R41, R46, R779.) -/
def Obligations.EnableStartsAndDisableStops : Prop :=
∀ (s : State) (n : Fin 111) (req : Fin 4), s.canonical = true → s.headerReaches n = true → s.claimed.g (pageOf n.val)
    PAGE_CTRL_POWER_REQ < 2 →
    let blk := (instOf n.val).1
    let i := (instOf n.val).2
    let p := pageOf n.val
    let u := s.claimed
    let again := u.g p PAGE_CTRL_POWER_REQ = 1 ∧ u.g THM THM_STAT_STAGE ≠ 2
    let w := u.p p PAGE_CTRL_POWER_REQ (u.g p PAGE_CTRL_POWER_REQ)
    let x := if again then w.domRequest blk i else w
    (u.ctrlRefused blk i (u.ctrlWith n 0 1) = false → (blk == .dsp) = false → u.enabled p = false →
      ∃ t, exec (.enable n) s = .next t ∧ t = (x.p p PAGE_CTRL_ENABLE 1).enableHook blk i) ∧
    (u.ctrlRefused blk i (u.ctrlWith n 0 1) = false → blk.row.switched = false → instDomain blk i = none →
      blk ∈ [.smp, .tim, .bit, .thm, .pwr, .cnt] → ∃ t, exec (.enable n) s = .next t ∧ t.g p PAGE_CTRL_ENABLE = 1 ∧
      OnlyRegs [p + PAGE_CTRL.off] u t) ∧
    (u.ctrlRefused blk i (u.ctrlWith n 1 0) = false → u.enabled p = true → ∃ t, exec (.disable n) s = .next t ∧
      (let y := (x.p p PAGE_CTRL_ENABLE 0).disableHook blk i; t = if y.busy p then y else y.applyNow blk i)) ∧
    (u.ctrlRefused blk i (u.ctrlWith n 1 0) = false → blk.row.switched = false → instDomain blk i = none →
      blk ∈ [.smp, .tim, .bit, .thm, .pwr, .cnt] → u.on p PAGE_STAT_COMMIT_PEND = false →
      ∃ t, exec (.disable n) s = .next t ∧ t.g p PAGE_CTRL_ENABLE = 0 ∧ OnlyRegs [p + PAGE_CTRL.off] u t) ∧
    (u.ctrlRefused blk i (u.ctrlWith n 0 2) = false → u.enabled p = false → ∃ t, exec (.softReset n) s = .next t ∧
      t = ((x.p p PAGE_CTRL_ENABLE 0).softReset blk i).p p PAGE_CTRL_SOFT_RESET 1 ∧ t.g p PAGE_CTRL_SOFT_RESET = 1) ∧
    (∃ t, exec (.softResetDone n) s = .next t ∧ t.g p PAGE_CTRL_SOFT_RESET = 0 ∧ OnlyRegs [p + PAGE_CTRL.off] s t) ∧
    (req.val < 2 → u.ctrlRefused blk i (u.ctrlWith n 12 (4 * req)) = false → u.enabled p = false →
      ∃ t, exec (.powerReq n req) s = .next t ∧
      (let v := u.p p PAGE_CTRL_POWER_REQ req; t = (if u.g p PAGE_CTRL_POWER_REQ ≠ req ∨ req.val = 1 ∧ u.g THM THM_STAT_STAGE
        ≠ 2 then v.domRequest blk i else v).p p PAGE_CTRL_ENABLE 0)) ∧
    (2 ≤ req.val → u.on p PAGE_STAT_BAD_WRITE = false → ∃ t, exec (.powerReq n req) s = .next t ∧
      t.g p PAGE_STAT_BAD_CAUSE = 1 ∧ t.g p PAGE_STAT_BAD_OFFSET = 8 ∧ OnlyRegs [p + PAGE_STAT.off] u t)

/-- A soft reset returns every register at 0x100 and above of the instance, in both sets, to its reset value, but for those that
show what it does not touch; it clears IRQ_STAT and FAULT_SUM, discards a pending commit with APPLIED equal to REQ, keeps
IRQ_EN, IRQ_VEC, IRQ_HOLDOFF, SCRATCH and POWER_REQ, and leaves every register of every other instance alone. This is the part
that all blocks share; what a block holds beyond its registers is returned by its own rule. (R41.) -/
def Obligations.SoftResetReturnsRegisters : Prop :=
  ∀ (s : State) (blk : Blk) (i rel : Nat), s.canonical = true → i < blk.row.count → rel < blk.row.pages * 0x1000 →
    let b := blk.at i
    let t := (s.regsReset blk i blk.liveOffs []).headerReset blk i
    (0x100 ≤ rel % 0x1000 → t.rdA (b + rel) = (resetVal (b + rel)).toNat ∧
      (rel ∉ blk.liveOffs → t.rd (b + rel) = (resetVal (b + rel)).toNat) ∧
      (rel ∈ blk.liveOffs → t.rd (b + rel) = s.rd (b + rel))) ∧
    t.g b IRQ_STAT = 0 ∧ t.g b FAULT_SUM = 0 ∧ t.g b PAGE_STAT_COMMIT_PEND = 0 ∧
    t.g b SHADOW_SEQ_APPLIED = s.g b SHADOW_SEQ_REQ ∧
    t.g b IRQ_EN = s.g b IRQ_EN ∧ t.g b IRQ_VEC = s.g b IRQ_VEC ∧ t.g b IRQ_HOLDOFF = s.g b IRQ_HOLDOFF ∧
    t.g b SCRATCH = s.g b SCRATCH ∧ t.g b PAGE_CTRL_POWER_REQ = s.g b PAGE_CTRL_POWER_REQ ∧
    (∀ off, off < b ∨ b + blk.row.pages * 0x1000 ≤ off → t.rd off = s.rd off ∧ t.rdA off = s.rdA off)

/-- When a commit of an instance applies with a hand-over number, every shadowed register's active copy takes the shadow's
value, SHADOW_SEQ.APPLIED grows by one modulo 2^16, SHADOW_AT holds the number, and COMMIT_PEND and COMMIT_LATCHED are 0 in one
step; the shadow registers keep their values and no other active copy changes, so that no work runs under part of a set. -/
def Obligations.CommitCopiesTheWholeSet : Prop :=
  ∀ (s : State) (blk : Blk) (i num : Nat), s.canonical = true → i < blk.row.count → num < 2 ^ 64 →
    let b := blk.at i
    let t := s.applyCommit blk i num
    (∀ o ∈ blk.shadowOffs, t.rdA (b + o) = s.rd (b + o)) ∧ (∀ off, (∀ o ∈ blk.shadowOffs, off ≠ b + o) → t.rdA off = s.rdA off) ∧
    t.g b SHADOW_SEQ_APPLIED = (s.g b SHADOW_SEQ_APPLIED + 1) % 2 ^ 16 ∧ t.g64 b SHADOW_AT_LO = num ∧
    t.g b PAGE_STAT_COMMIT_PEND = 0 ∧ t.g b PAGE_STAT_COMMIT_LATCHED = 0 ∧
    OnlyRegs [b + SHADOW_SEQ_REQ.off, b + SHADOW_AT_LO.off, b + SHADOW_AT_HI.off, b + PAGE_STAT.off] { s with actv := t.actv } t

/-- A COMMIT that nothing refuses and none precedes increments SHADOW_SEQ.REQ and sets COMMIT_PEND where the block runs, and
applies at once where it does not. REVERT copies the active set back into the shadow set. A disabled block without work in hand
clears PAGE_STAT.BUSY at BLOCK_STOPPED. (R51, R52, R57, R58.) -/
def Obligations.CommitsRevertsAndStops : Prop :=
∀ (s : State) (n : Fin 111), s.canonical = true →
    let blk := (instOf n.val).1
    let i := (instOf n.val).2
    let p := pageOf n.val
    let u := s.claimed
    (s.headerReaches n = true → u.on p PAGE_STAT_COMMIT_PEND = false → u.commitCheck blk i = (u, false) →
      (u.commitAccept blk i false 0).runs blk i = true → ∃ t, exec (.commit n) s = .next t ∧
      t.g p SHADOW_SEQ_REQ = (u.g p SHADOW_SEQ_REQ + 1) % 2 ^ 16 ∧ t.g p PAGE_STAT_COMMIT_PEND = 1 ∧
      OnlyRegs [p + SHADOW_SEQ_REQ.off, p + PAGE_STAT.off] u t) ∧
    (s.headerReaches n = true → u.on p PAGE_STAT_COMMIT_PEND = false → u.commitCheck blk i = (u, false) →
      (u.commitAccept blk i false 0).runs blk i = false → ∃ t, exec (.commit n) s = .next t ∧
      t = (u.commitAccept blk i false 0).applyNow blk i) ∧
    (s.headerReaches n = true → u.on p PAGE_STAT_COMMIT_PEND = false → ∃ t, exec (.revert n) s = .next t ∧
      (blk.shadowOffs.all fun o => t.rd (p + o) == u.rdA (p + o)) = true ∧
      OnlyRegs (blk.shadowOffs.map (fun o => p + o)) u t) ∧
    (s.enabled p = false → s.holdsWork blk i = false → s.on p PAGE_STAT_COMMIT_PEND = false → blk ∉ [.ing, .wit, .psl] →
      ∃ t, exec (.blockStopped n) s = .next t ∧ t.busy p = false ∧ OnlyRegs [p + PAGE_STAT.off] s t) ∧
    (s.enabled p = false → s.holdsWork blk i = false → s.on p PAGE_STAT_COMMIT_PEND = false → blk = .ing →
      ∃ t, exec (.blockStopped n) s = .next t ∧ t.busy p = false ∧ t.g p ING_STAT_STATE = 0 ∧
      OnlyRegs [p + PAGE_STAT.off, p + ING_STAT_STATE.off, p + ING_ABN_STAT_COUNT.off] s t)

/-- IRQ_FORCE sets the IRQ_STAT bits that exist among those written to 1 and clears none. When a holdoff ends it is over, and
where a message fell due during it one message is sent; where none did, nothing else changes. MSIX_UNMASK takes MSI-X Enable,
the Function Mask and the vector's mask bit as they become; where no message is pending nothing is sent, and a pending message
of a vector that is open then is sent while the device may master the bus. (R60-R63.) -/
def Obligations.InterruptsAreForcedMergedAndUnmasked : Prop :=
∀ (s : State) (n : Fin 111) (value : Word) (enable fmask : Bool) (vector : Fin 256), s.canonical = true →
    let blk := (instOf n.val).1
    let p := pageOf n.val
    (s.headerReaches n = true → (blk == .cnt) = false → ∃ t, exec (.irqForce n value) s = .next t ∧
      t.g p IRQ_STAT = s.g p IRQ_STAT ||| value.toNat % 2 ^ blk.irqs ∧ RegsBut [p + IRQ_STAT.off] s t) ∧
    (s.headerReaches n = true → (blk == .cnt) = true → value.toNat % 2 = 1 → ∃ t, exec (.irqForce n value) s = .next t ∧
      t.gBit CNT IRQ_STAT 0 = true ∧ RegsBut [] s t) ∧
    (s.msix.holdoff.contains p = true → s.msix.due.contains p = false → ∃ t, exec (.irqHoldoffEnd n) s = .next t ∧
      t = { s with msix := { s.msix with holdoff := s.msix.holdoff.filter (fun y => y != p), due := s.msix.due.filter (fun y
        => y != p) } }) ∧
    (s.msix.holdoff.contains p = true → s.msix.due.contains p = true → s.g p IRQ_HOLDOFF ≠ 0 →
      s.vectorOpen (s.g p IRQ_VEC) = true → s.masterOn = true → ∃ t, exec (.irqHoldoffEnd n) s = .next t ∧
      Out.msix (s.g p IRQ_VEC) ∈ t.out ∧ t.msix.holdoff.contains p = true ∧ RegsBut [] s t) ∧
    (s.msix.pba = [] → ∃ t, exec (.msixUnmask enable fmask (some vector)) s = .next t ∧ t.msix.enable = enable ∧
      t.msix.functionMask = fmask ∧ t.msixWord (16 * vector.val + 12) = 0 ∧ t = { s with msix := t.msix }) ∧
    (s.msix.pba = [vector.val] → enable = true → fmask = false → s.msixWord (16 * vector.val + 12) = 0 → s.masterOn = true →
      ∃ t, exec (.msixUnmask enable fmask none) s = .next t ∧ Out.msix vector.val ∈ t.out ∧ RegsBut [] s t)

/-- CNT_RUN sets RUN and USER_EN, and a change of RUN leaves SETTLED 0 until CNT_SETTLED. CLEAR_ALL leaves every counter and
every OVF bit 0 and RUN and USER_EN as they were. CNT_CFG_WRITE sets class, event and EN of its counter, and no counter's value
changes. A read of 8 bytes at CNT_VAL_LO_n completes with the counter's 48 bits and OVF of one instant, which CNT_VAL_HI_n holds
from then on. (R719-R722, R724.) -/
def Obligations.CountersRunAndClear : Prop :=
∀ (s : State) (run userEn : Bool) (n : Fin 256) (value : Word), s.canonical = true →
    let v := b2n run + 2 * b2n userEn
    let clear := b2n (s.on CNT CNT_CTRL_RUN) + 2 * b2n (s.on CNT CNT_CTRL_USER_EN) + 4
    let cfg := CNT + 0x1100 + 4 * n.val
    let u := s.claimed
    let r := (s.count { cls := 4, ev := 3 }).count { cls := 4, ev := 0, amount := 8, user := some false }
    (s.reaches (CNT + CNT_CTRL.off) v = true → ∃ t, exec (.cntRun run userEn) s = .next t ∧ t.g CNT CNT_CTRL_RUN = b2n run ∧
      t.g CNT CNT_CTRL_USER_EN = b2n userEn ∧ (u.on CNT CNT_CTRL_RUN ≠ run → t.g CNT CNT_STAT_SETTLED = 0) ∧
      OnlyRegs [CNT + CNT_CTRL.off, CNT + CNT_STAT.off] u t) ∧
    (∃ t, exec .cntSettled s = .next t ∧ t.g CNT CNT_STAT_SETTLED = 1 ∧ OnlyRegs [CNT + CNT_STAT.off] s t) ∧
    (s.reaches (CNT + CNT_CTRL.off) clear = true → ∃ t, exec .clearAll s = .next t ∧ t.cnt = List.replicate 256 0 ∧
      ((List.range 8).all fun k => t.g (CNT + 4 * k) CNT_OVF == 0) = true ∧ t.g CNT CNT_CTRL_RUN = s.g CNT CNT_CTRL_RUN ∧
      t.g CNT CNT_CTRL_USER_EN = s.g CNT CNT_CTRL_USER_EN ∧
      OnlyRegs ([CNT + CNT_CTRL.off, CNT + CNT_STAT.off] ++ (List.range 8).map (fun k => CNT + 4 * k + CNT_OVF.off)) { u with
        cnt := t.cnt } t) ∧
    (s.reaches cfg value.toNat = true → ∃ t, exec (.cntCfgWrite n value) s = .next t ∧
      t.g (CNT + 4 * n.val) CNT_CFG_CLASS = fld value.toNat 0 4 ∧ t.g (CNT + 4 * n.val) CNT_CFG_EVENT = fld value.toNat 4 6 ∧
      t.g (CNT + 4 * n.val) CNT_CFG_EN = fld value.toNat 31 1 ∧ t.cnt = u.cnt ∧ OnlyRegs [cfg, CNT + CNT_STAT.off] u t) ∧
    (s.hif.memory = true → r.on TOP TOP_RESET_STAT_WARM_BUSY = false → ∃ t, exec (.counterRead n true) s = .next t ∧
      t.out = .barData (leBytes 4 (nth 0 r.cnt n.val % 2 ^ 32) ++ leBytes 4 (nth 0 r.cnt n.val / 2 ^ 32 + 2 ^ 16 * b2n
        (r.cntOvf n.val))) false :: r.out ∧
      t.rd (cntVal n.val + 4) = nth 0 r.cnt n.val / 2 ^ 32 + 2 ^ 16 * b2n (r.cntOvf n.val) ∧ t.cnt = r.cnt ∧
      OnlyRegs [cntVal n.val + 4] { r with out := t.out } t)

/-- When an amount reaches a counter, its value grows by it modulo 2^48. Where it passes 2^48 - 1 its bit in CNT_OVF becomes 1,
and the wrap asks for IRQ_STAT.OVF exactly when the counter's OVF_IRQ is 1, which then is raised; where it does not pass, no
register changes. A counter preset to 2^48 - m asks after m events. No other counter changes. -/
def Obligations.CountersWrapAndStick : Prop :=
  ∀ (s : State) (n : Fin 256) (amount : Nat), s.canonical = true →
    let was := nth 0 s.cnt n.val
    let x := s.cntAdd n amount
    nth 0 x.2.cnt n.val = (was + amount) % 2 ^ 48 ∧
    (∀ k, k ≠ n.val → nth 0 x.2.cnt k = nth 0 s.cnt k) ∧
    (2 ^ 48 ≤ was + amount → x.2.cntOvf n = true ∧ x.1 = s.on (CNT + 4 * n.val) CNT_CFG_OVF_IRQ ∧
      OnlyRegs [CNT + 4 * (n.val / 32) + CNT_OVF.off] { s with cnt := x.2.cnt } x.2) ∧
    (was + amount < 2 ^ 48 → x.1 = false ∧ x.2 = { s with cnt := x.2.cnt }) ∧
    (s.cntIrq).gBit CNT IRQ_STAT 0 = true

/-- The 8 bytes of the BAR4 window at 8n, as a number, are the counter's value with OVF in bit 48 and 0 above, while both
CNT_CTRL.USER_EN and bit n of CNT_USER are 1; otherwise they are 0, and so they are for n of 256 and more, the offsets 0x800 to
0xFFF. -/
def Obligations.UserWindowShowsOnlyPermittedCounters : Prop :=
  ∀ (s : State) (n : Nat), s.canonical = true →
    (n < 256 → s.on CNT CNT_CTRL_USER_EN = true → s.gBit (CNT + 4 * (n / 32)) CNT_USER (n % 32) = true →
      s.bar4 n % 2 ^ 48 = nth 0 s.cnt n ∧ s.bar4 n / 2 ^ 48 = b2n (s.cntOvf n)) ∧
    (n < 256 → s.on CNT CNT_CTRL_USER_EN = false ∨ s.gBit (CNT + 4 * (n / 32)) CNT_USER (n % 32) = false → s.bar4 n = 0) ∧
    (256 ≤ n → s.bar4 n = 0)

/-- REGISTER_WRITE of four aligned bytes to a page's SCRATCH stores them, and to a register with RW fields alone (shown for
LNK_DET_CFG) each field; a write with a byte enable missing changes nothing but PAGE_STAT, where it is reported with cause 0x6.
RC_READ of an RC register (shown for CWY_PROTO_ERR) completes with its value and clears it, and no other register but the
counters' changes. (R4, R6, R35, R45.) -/
def Obligations.HostAccessesReadAndWriteRegisters : Prop :=
∀ (s : State) (off : Fin 0x4000000) (value : Word) (n : Fin 111) (h : Fin 4) (q : Fin 24) (x y z : Byte), s.canonical = true →
    let p := pageOf n.val
    let bytes := (leBytes 4 value.toNat).map some
    (s.headerReaches n = true → off.val = p + SCRATCH.off → ∃ t, exec (.registerWrite off bytes) s = .next t ∧
      t.g p SCRATCH = value.toNat ∧ RegsBut [p + SCRATCH.off] s t) ∧
    (s.reaches off.val value.toNat = true → off.val = LNK q + LNK_DET_CFG.off →
      ∃ t, exec (.registerWrite off bytes) s = .next t ∧ t.g (LNK q) LNK_DET_CFG_LOS_THRESH = fld value.toNat 0 8 ∧
      t.g (LNK q) LNK_DET_CFG_EYE_MIN_H = fld value.toNat 8 8 ∧ t.g (LNK q) LNK_DET_CFG_EYE_MIN_W = fld value.toNat 16 8 ∧
      OnlyRegs [LNK q + LNK_DET_CFG.off] s.claimed t) ∧
    (s.hif.memory = true → s.on TOP TOP_RESET_STAT_WARM_BUSY = false → off.val = LNK q + LNK_DET_CFG.off →
      s.on (LNK q) PAGE_STAT_BAD_WRITE = false → ∃ t, exec (.registerWrite off [some x, some y, none, some z]) s = .next t ∧
      t.g (LNK q) PAGE_STAT_BAD_WRITE = 1 ∧ t.g (LNK q) PAGE_STAT_BAD_CAUSE = 6 ∧
      t.g (LNK q) PAGE_STAT_BAD_OFFSET = LNK_DET_CFG.off ∧ RegsBut [LNK q + PAGE_STAT.off] s t) ∧
    (s.hif.memory = true → s.on TOP TOP_RESET_STAT_WARM_BUSY = false → s.powered (CWY h) = true →
      off.val = CWY h + CWY_PROTO_ERR.off → ∃ t, exec (.rcRead off 4) s = .next t ∧
      t.out.head? = some (.barData (leBytes 4 (s.rd off.val)) false) ∧ t.rd off.val = 0 ∧ RegsBut [off.val] s t)

/-- A detector that asserts on a receiver in P0 sets its bit of LNK_LANE_STAT, counts it in LNK_EVT_CNT and raises the lane's
interrupt; a second assertion changes nothing. A preset attempt with no error and an eye at least as large as LNK_DET_CFG asks
ends the search with TRAINED and the preset; one with errors tries the next preset. ETH_LANE_TRAINING_END that passes sets
TRAINED. PLL_LOCK_LOSS of the PLL that clocks a quad passes the clock to the other PLL that holds lock, with interrupt 16;
PLL_RELOCK_END gives the lock back. (R88, R108-R110, R118-R120, R125, R131, R132.) -/
def Obligations.LaneEventsReachTheOwner : Prop :=
∀ (s : State) (lane : Fin 96) (settling errors : Bool) (height width : Byte) (q : Fin 24) (pllB : Bool) (r : List Nat) (p :
    Nat), s.canonical = true →
    let b := lnb lane
    let k := lane.val / 4
    let mine := if pllB then LNK_QUAD_STAT_PLL_B_LOCK else LNK_QUAD_STAT_PLL_A_LOCK
    let other := if pllB then LNK_QUAD_STAT_PLL_A_LOCK else LNK_QUAD_STAT_PLL_B_LOCK
    (s.g b LNK_LANE_STAT_RX_NOW = 0 → s.on b LNK_LANE_STAT_LOS = false → s.on b LNK_LANE_STAT_TRAINING = false →
      (s.quadOwner k).1 ≠ 1 → ∃ t, exec (.losAssert lane settling) s = .next t ∧ t.g b LNK_LANE_STAT_LOS = 1 ∧
      t.g b LNK_EVT_CNT_LOS_CNT = min (s.g b LNK_EVT_CNT_LOS_CNT + 1) 255 ∧ t.gBit (LNK k) IRQ_STAT (lane.val % 4) = true ∧
      RegsBut [b + LNK_LANE_STAT.off, b + LNK_EVT_CNT.off, LNK k + IRQ_STAT.off] s t) ∧
    (s.on b LNK_LANE_STAT_LOS = true → ∃ t, exec (.losAssert lane settling) s = .next t ∧ t = s) ∧
    (s.g b LNK_LANE_STAT_RX_NOW = 0 → s.on b LNK_LANE_STAT_LOL = false → s.on b LNK_LANE_STAT_TRAINING = false →
      (s.quadOwner k).1 ≠ 1 → (s.quadOwner k).1 ≠ 2 → ∃ t, exec (.lolAssert lane settling) s = .next t ∧
      t.g b LNK_LANE_STAT_LOL = 1 ∧ t.g b LNK_EVT_CNT_LOL_CNT = min (s.g b LNK_EVT_CNT_LOL_CNT + 1) 255 ∧
      t.gBit (LNK k) IRQ_STAT (4 + lane.val % 4) = true ∧
      RegsBut [b + LNK_LANE_STAT.off, b + LNK_EVT_CNT.off, LNK k + IRQ_STAT.off] s t) ∧
    (s.g b LNK_LANE_STAT_RX_NOW = 0 → s.on b LNK_LANE_STAT_LOS = false → s.on b LNK_LANE_STAT_TRAINING = false →
      (s.quadOwner k).1 = 1 → s.linkLive (lane.val / 12) = true → (s.cl (lane.val / 12) (lane.val % 12)).trained = true →
      ∃ t, exec (.losAssert lane settling) s = .next t ∧ t.g b LNK_LANE_STAT_LOS = 1 ∧
      t.gBit (CWY (lane.val / 12)) IRQ_STAT 2 = true ∧ (t.cl (lane.val / 12) (lane.val % 12)).commaLock = false) ∧
    ((s.lane lane).trying = some p → s.cwyLane lane = false → errors = false → s.on b LNK_LANE_STAT_LOS = false →
      s.on b LNK_LANE_STAT_LOL = false → s.g (LNK k) LNK_DET_CFG_EYE_MIN_H ≤ height.toNat →
      s.g (LNK k) LNK_DET_CFG_EYE_MIN_W ≤ width.toNat → ∃ t, exec (.presetAttemptEnd lane errors height width) s = .next t ∧
      t.g b LNK_LANE_STAT_TRAINED = 1 ∧ t.g b LNK_LANE_STAT_TRAINING = 0 ∧ t.g b LNK_LANE_STAT_PRESET = p % 16 ∧
      t.g b LNK_MARGIN_HEIGHT = height.toNat ∧ t.g b LNK_MARGIN_WIDTH = width.toNat ∧
      t.gBit (LNK k) IRQ_STAT (8 + lane.val % 4) = true ∧
      RegsBut [b + LNK_LANE_STAT.off, b + LNK_LANE_TRAIN.off, b + LNK_MARGIN.off, LNK k + FAULT_SUM.off, LNK k +
        PAGE_STAT.off, LNK k + IRQ_STAT.off] s t) ∧
    ((s.lane lane).trying = some 0 → (s.lane lane).searchLeft = p :: r → s.cwyLane lane = false → errors = true →
      s.on b LNK_LANE_STAT_LOS = false → s.on b LNK_LANE_STAT_LOL = false →
      ∃ t, exec (.presetAttemptEnd lane errors height width) s = .next t ∧ (t.lane lane).trying = some p ∧
      (t.lane lane).searchLeft = r ∧ t.g b LNK_LANE_STAT_TRAINED = s.g b LNK_LANE_STAT_TRAINED ∧
      RegsBut [b + LNK_MARGIN.off] s t) ∧
    (s.on b LNK_LANE_STAT_TRAINING = true → s.cwyLane lane = false → (s.quadOwner k).1 = 2 →
      ∃ t, exec (.ethLaneTrainingEnd lane true) s = .next t ∧ t.g b LNK_LANE_STAT_TRAINED = 1 ∧
      t.g b LNK_LANE_STAT_TRAINING = 0 ∧ t.g b LNK_LANE_STAT_TRAIN_FAILED = 0 ∧
      t.gBit (LNK k) IRQ_STAT (8 + lane.val % 4) = true ∧
      RegsBut [b + LNK_LANE_STAT.off, b + LNK_LANE_TRAIN.off, LNK k + FAULT_SUM.off, LNK k + PAGE_STAT.off, LNK k +
        IRQ_STAT.off] s t) ∧
    (s.powered (LNK q) = true → s.on (LNK q) mine = true → s.on (LNK q) other = true →
      s.g (LNK q) LNK_QUAD_STAT_PLL_ACTIVE = b2n pllB → ∃ t, exec (.pllLockLoss q pllB) s = .next t ∧ t.g (LNK q) mine = 0 ∧
      t.g (LNK q) LNK_QUAD_STAT_PLL_ACTIVE = b2n (!pllB) ∧ (t.quad q).relock = (s.quad q).relock ++ [b2n pllB] ∧
      t.gBit (LNK q) IRQ_STAT 16 = true ∧ RegsBut [LNK q + LNK_QUAD_STAT.off, LNK q + IRQ_STAT.off] s t) ∧
    ((s.quad q).relock = [b2n pllB] → s.on (LNK q) other = true → ∃ t, exec (.pllRelockEnd q pllB true) s = .next t ∧
      t.g (LNK q) mine = 1 ∧ t.g (LNK q) LNK_QUAD_STAT_PLL_ACTIVE = s.g (LNK q) LNK_QUAD_STAT_PLL_ACTIVE ∧
      (t.quad q).relock = [])

/-- A comma of a lane that is not in training gives CWY_SFC and CWY_SKEW; the next one in number, of a lane in block lock, gives
comma lock. A comma error and a sync header error count, and BLOCK_LOCK_ACQUIRED notes the block lock. A stripe of a live link
whose blocks cannot be known or rebuilt counts in CWY_UNRECOV and raises interrupt 4; stripes whose number is a multiple of 1024
hold commas and are none. Outside ALIGN, CAPS and UP commas are not looked at. (R156-R160, R168-R170.) -/
def Obligations.CommasAndStripesAreJudged : Prop :=
∀ (s : State) (h : Fin 4) (lane : Fin 12) (payload : BitVec 128) (interval : List (BitVec 130)) (skewPs : Nat) (number :
    BitVec 34) (blocks : List (BitVec 130)) (env : LineEnv), s.canonical = true →
    let b := CWY h
    let p := payload.toNat
    (3 ≤ s.linkState h → s.linkState h ≤ 5 → s.on (lnb (12 * h + lane)) LNK_LANE_STAT_TRAINING = false → fld p 0 8 = 0xC5 →
      fld p 8 64 = 0xA7F10C3E5B92D468 → fld p 72 4 = lane → (s.cl h lane).commaLock = false →
      (s.cl h lane).blockLock = true → (s.cl h lane).sfc = some ((fld p 80 24 + 2 ^ 24 - 1) % 2 ^ 24) →
      (s.cw h).remap = none → skewPs ≤ 40000 → ∃ t, exec (.commaReceived h lane payload interval skewPs) s = .next t ∧
      t.g b CWY_SFC = fld p 80 24 ∧ t.g (b + 4 * lane) CWY_SKEW = skewPs ∧ t.g (b + 4 * lane) CWY_SKEW_VALID = 1 ∧
      (t.cl h lane).commaLock = true ∧ (t.cl h lane).sfc = some (fld p 80 24) ∧
      OnlyRegs [b + CWY_SFC.off, b + 4 * lane + CWY_SKEW.off] { s with cwy := t.cwy } t) ∧
    (s.linkState h < 3 ∨ 5 < s.linkState h → ∃ t, exec (.commaReceived h lane payload interval skewPs) s = .next t ∧ t = s) ∧
    (3 ≤ s.linkState h → s.linkState h ≤ 5 → s.on (lnb (12 * h + lane)) LNK_LANE_STAT_TRAINING = false →
      (s.cl h lane).missed = 0 → ∃ t, exec (.commaError h lane) s = .next t ∧
      t.g (b + 4 * lane) CWY_LANE_ERR_COMMA_ERR = min (s.g (b + 4 * lane) CWY_LANE_ERR_COMMA_ERR + 1) 255 ∧
      t.cwy = (s.setCl h lane (fun l => { l with missed := 1 })).cwy ∧
      OnlyRegs [b + 4 * lane + CWY_LANE_ERR.off] { s with cwy := t.cwy } t) ∧
    (∃ t, exec (.blockLockAcquired h lane) s = .next t ∧
      t.cwy = upd s.cwy h (fun c => { c with lanes := upd c.lanes lane (fun l => { l with blockLock := true }) }) ∧
      t = { s with cwy := t.cwy }) ∧
    (3 ≤ s.linkState h → s.linkState h ≤ 5 → s.on (lnb (12 * h + lane)) LNK_LANE_STAT_TRAINING = false →
      (s.cl h lane).syncErr < 3 → ∃ t, exec (.syncHeaderError h lane) s = .next t ∧
      t.g (b + 4 * lane) CWY_LANE_ERR_SYNC_ERR = min (s.g (b + 4 * lane) CWY_LANE_ERR_SYNC_ERR + 1) 255 ∧
      t.cwy = (s.setCl h lane (fun l => { l with syncErr := l.syncErr + 1 })).cwy ∧
      OnlyRegs [b + 4 * lane + CWY_LANE_ERR.off] { s with cwy := t.cwy } t) ∧
    (s.linkLive h = true → s.linkUp h = false → number.toNat % 1024 ≠ 0 →
      resolve ((List.range 11).map (s.roleBlock h number.toNat blocks)) = none →
      ∃ t, exec (.stripeDelivery h number blocks env) s = .next t ∧
      t.g b CWY_UNRECOV = min (s.g b CWY_UNRECOV + 1) (2 ^ 32 - 1) ∧ t.gBit b IRQ_STAT 4 = true ∧
      RegsBut [b + CWY_UNRECOV.off, b + IRQ_STAT.off] s t) ∧
    (number.toNat % 1024 = 0 → ∃ t, exec (.stripeDelivery h number blocks env) s = .next t ∧ t = s)

/-- PORT_UP of a port that exists, whose lanes receive and which holds no remote fault, sets UP; REMOTE_FAULT keeps it down
until REMOTE_FAULT_CLEAR, and ETH_FEC_FAILURE counts the codewords of a port that is up. ETH_FRAME_RX of a bad frame counts it
in RX_DROP_ERR, a PAUSE frame counts as received and as PAUSE. HTX_PROD_WRITE moves the producer within the ring and is refused
beyond it with cause 4; HTX_FRAME_SENT with an empty ring changes nothing. (R530-R532, R536, R537, R562, R564.) -/
def Obligations.EthernetPortsAndHostRings : Prop :=
∀ (s : State) (k : Fin 4) (j : Fin 2) (lane : Fin 96) (frame : List Byte) (residence : List Nat) (corr uncorr : Nat) (value :
    Word) (m : Nat × Nat), s.canonical = true →
    let b := ETH k
    let pb := ETH k + 0x20 * j
    let v := value.toNat
    (s.enabled b = true → s.portExists k j = true → s.portUp k j = false → (s.ethUnit k).remote.contains j.val = false →
      s.lanesReady k j = true → (List.range 32).all (fun n => !s.sessionOpen (n / 8) (n % 8)) = true →
      ∃ t, exec (.portUp k j) s = .next t ∧ t.g b (upFld j) = 1 ∧ t.gBit b FAULT_SUM j = false ∧ t.gBit b IRQ_STAT 0 = true) ∧
    (s.enabled b = true → s.portExists k j = true → s.portUp k j = false → ∃ t, exec (.remoteFault k j) s = .next t ∧
      (t.ethUnit k).remote.contains j.val = true ∧ t.g b ETH_PORT_STAT_REMOTE_FAULT = 1 ∧
      RegsBut [b + ETH_PORT_STAT.off, b + IRQ_STAT.off] s t) ∧
    (s.enabled b = true → s.portExists k j = true → (s.ethUnit k).remote = [j.val] →
      ∃ t, exec (.remoteFaultClear k j) s = .next t ∧ (t.ethUnit k).remote = [] ∧ t.g b ETH_PORT_STAT_REMOTE_FAULT = 0 ∧
      RegsBut [b + ETH_PORT_STAT.off, b + IRQ_STAT.off] s t) ∧
    (s.portOfLane lane = some m → s.portUp m.1 m.2 = true → s.enabled (ETH m.1) = false →
      ∃ t, exec (.ethFecFailure lane uncorr) s = .next t ∧
      t.g (ETH m.1 + 0x20 * m.2) ETH_FEC_UNCORR = min (s.g (ETH m.1 + 0x20 * m.2) ETH_FEC_UNCORR + uncorr) (2 ^ 32 - 1) ∧
      OnlyRegs [ETH m.1 + 0x20 * m.2 + ETH_FEC_UNCORR.off] s t) ∧
    (s.enabled b = true → s.portUp k j = true → ∃ t, exec (.ethFrameRx k j frame false residence corr uncorr) s = .next t ∧
      t.g pb ETH_RX_DROP_ERR = min (s.g pb ETH_RX_DROP_ERR + 1) (2 ^ 32 - 1) ∧
      t.g pb ETH_FEC_CORR = min (s.g pb ETH_FEC_CORR + corr) (2 ^ 32 - 1) ∧
      t.g pb ETH_FEC_UNCORR = min (s.g pb ETH_FEC_UNCORR + uncorr) (2 ^ 32 - 1) ∧
      OnlyRegs [pb + ETH_RX_DROP_ERR.off, pb + ETH_FEC_CORR.off, pb + ETH_FEC_UNCORR.off] s t) ∧
    (s.enabled b = true → s.portUp k j = true → frame.length + 4 ≤ s.maxFrame k → (layers frame).type = 0x8808 →
      (layers frame).udp = none → ∃ t, exec (.ethFrameRx k j frame true residence corr uncorr) s = .next t ∧
      t.g pb ETH_RX_FRAMES = min (s.g pb ETH_RX_FRAMES + 1) (2 ^ 32 - 1) ∧
      t.g pb ETH_PAUSE = min (s.g pb ETH_PAUSE + 1) (2 ^ 32 - 1) ∧
      OnlyRegs [pb + ETH_RX_FRAMES.off, pb + ETH_PAUSE.off, pb + ETH_FEC_CORR.off, pb + ETH_FEC_UNCORR.off] s t) ∧
    (s.reaches (b + ETH_HTX_PROD.off) v = true → (v + 2 ^ 32 - s.g b ETH_HTX_DONE) % 2 ^ 32 ≤ 2 ^ s.g b ETH_HTX_CFG_LOG2 →
      ∃ t, exec (.htxProdWrite k value) s = .next t ∧ t.g b ETH_HTX_PROD = v ∧ OnlyRegs [b + ETH_HTX_PROD.off] s.claimed t) ∧
    (s.reaches (b + ETH_HTX_PROD.off) v = true → 2 ^ s.g b ETH_HTX_CFG_LOG2 < (v + 2 ^ 32 - s.g b ETH_HTX_DONE) % 2 ^ 32 →
      s.on b PAGE_STAT_BAD_WRITE = false → ∃ t, exec (.htxProdWrite k value) s = .next t ∧
      t.g b ETH_HTX_PROD = s.g b ETH_HTX_PROD ∧ t.g b PAGE_STAT_BAD_WRITE = 1 ∧ t.g b PAGE_STAT_BAD_CAUSE = 4 ∧
      t.g b PAGE_STAT_BAD_OFFSET = ETH_HTX_PROD.off ∧ OnlyRegs [b + PAGE_STAT.off] s.claimed t) ∧
    (s.g b ETH_HTX_DONE = s.g b ETH_HTX_PROD → ∃ t, exec (.htxFrameSent k) s = .next t ∧ t = s)

/-- On a link in CAPS or UP, the upstream message with the next SEQ is acknowledged: a READ_RSP in UP, and an event that is not
ingest's, goes to the receive queue, one in CAPS stores its capability word; TIME_T2 of the probe under way records t2 and t4;
TIME_T3 completes it with CWY_OWD and CWY_OFFSET; STATUS updates CWY_HEAD_ERR; SET_APPLIED and SET_LATE report the set that
ingest waits for; a message of an undefined type is answered NACK with reason 5. (R177, R181, R183, R184, R191, R201, R230.) -/
def Obligations.UpstreamMessagesAreAnsweredAndActedOn : Prop :=
∀ (s : State) (h : Fin 4) (seq id errA errB : BitVec 16) (addr : BitVec 24) (data ns : Word) (frac : BitVec 16) (copyB : Bool)
    (code : Byte) (detail : BitVec 72) (p : Probe) (t2 : Nat), s.canonical = true → s.linkLive h = true → seq.toNat = (s.cw
    h).rxSeq →
    let b := CWY h
    let c := s.cw h
    let ack := Out.down h 1 seq.toNat 0 1
    let queued := c.rxq.length < 64
    let rxRegs := [b + CWY_TXQ_STAT.off, b + CWY_RXQ_STAT.off, b + CWY_RXQ_TYPE.off, b + CWY_RXQ_BODY.off, b + CWY_RXQ_BODY.off + 4, b + CWY_RXQ_BODY.off + 8, b + IRQ_STAT.off]
    let t3 := nearTime t2 ns.toNat frac.toNat
    let asym := sint 32 (s.rd (b + if copyB then CWY_ASYM_B.off else CWY_ASYM_A.off))
    let owd := (((p.t4 : Int) - p.t1) - ((t3 : Int) - t2) - asym) / 2
    (s.linkUp h = true → queued → ∃ t, exec (.readRsp h seq addr data) s = .next t ∧
      (t.cw h).rxq = c.rxq ++ [⟨0x81, false, seq.toNat, addr.toNat + 2 ^ 24 * data.toNat⟩] ∧
      (t.cw h).rxSeq = (seq.toNat + 1) % 65536 ∧ ack ∈ t.out ∧ RegsBut rxRegs s t) ∧
    (s.linkState h = 4 → addr.toNat % 4 = 0 → addr.toNat < 0x14 → 1 < c.caps →
      ∃ t, exec (.readRsp h seq addr data) s = .next t ∧ t.rd (b + CWY_HEAD_CAP.off + addr.toNat) = data.toNat ∧
      (t.cw h).caps = c.caps - 1 ∧ RegsBut [b + CWY_HEAD_CAP.off + addr.toNat] s t) ∧
    (c.probe = some p → p.id = id.toNat → ∃ t, exec (.timeT2 h seq id ns frac copyB) s = .next t ∧
      (t.cw h).probe = some { p with t2 := some (nearTime p.t1 ns.toNat frac.toNat, copyB), t4 := s.time.u16 } ∧
      t.out = ack :: s.out ∧ RegsBut [] s t) ∧
    (c.probe = some p → p.id = id.toNat → p.t2 = some (t2, copyB) → s.hsState h = 0 →
      ∃ t, exec (.timeT3 h seq id ns frac) s = .next t ∧ (t.cw h).probe = none ∧ t.rd (b + CWY_OWD.off) = ofSint 32 owd ∧
      t.g64 b CWY_OFFSET_LO = ofSint 64 ((t2 : Int) - p.t1 - owd) ∧
      t.rd (b + CWY_PROBE_CNT.off) = (s.rd (b + CWY_PROBE_CNT.off) + 1) % 2 ^ 32 ∧ t.g (hsb h) TIM_HS_STAT_COPY = b2n copyB ∧
      t.out = ack :: s.out) ∧
    (∃ t, exec (.headStatus h seq errA errB true) s = .next t ∧ t.g b CWY_HEAD_ERR_CTRL_ERR_A = errA.toNat ∧
      t.g b CWY_HEAD_ERR_CTRL_ERR_B = errB.toNat ∧ RegsBut [b + CWY_HEAD_ERR.off] s t) ∧
    (s.g (ING h) ING_SET_STAT_SET_ID = id.toNat → s.g (ING h) ING_SET_STAT_STATE = 1 →
      ∃ t, exec (.setApplied h seq id data) s = .next t ∧ t.g (ING h) ING_SET_STAT_STATE = 2 ∧
      t.gBit (ING h) IRQ_STAT 4 = true ∧ RegsBut [ING h + ING_SET_STAT.off, ING h + IRQ_STAT.off] s t) ∧
    (s.g (ING h) ING_SET_STAT_SET_ID = id.toNat → s.g (ING h) ING_SET_STAT_STATE = 1 →
      ∃ t, exec (.setLate h seq id data) s = .next t ∧ t.g (ING h) ING_SET_STAT_STATE = 3 ∧
      t.g (ING h) ING_SET_HFC = data.toNat ∧ t.gBit (ING h) IRQ_STAT 4 = true ∧
      RegsBut [ING h + ING_SET_STAT.off, ING h + ING_SET_HFC.off, ING h + IRQ_STAT.off] s t) ∧
    (code.toNat ≠ 1 → code.toNat ≠ 2 → queued → ∃ t, exec (.headEvent h seq code detail) s = .next t ∧
      (t.cw h).rxq = c.rxq ++ [⟨0x85, false, seq.toNat, code.toNat + 256 * detail.toNat⟩] ∧ ack ∈ t.out ∧ RegsBut rxRegs s t) ∧
    (∃ t, exec (.unknownUpstreamMsg h seq) s = .next t ∧ t.out = .down h 2 seq.toNat 5 1 :: s.out ∧
      (t.cw h).rxSeq = (seq.toNat + 1) % 65536 ∧ RegsBut [] s t)

/-- CWY_TXQ_PUSH of a type that the host may push, on a link in UP with room, sends the message with the next SEQ where none
waits before it. HEAD_ACK takes the message with its SEQ off the unanswered ones, and the resends start from 0; one of the host
also counts in ANSWERED and raises interrupt 6, and HEAD_NACK of it is queued for the host with its reason. CWY_RXQ_POP removes
the oldest entry. MSG_RESEND_TIMER sends every unanswered message again, oldest first. A stripe whose first slot is a sound ACK
does what HEAD_ACK does. (R176, R177, R181, R199-R201.) -/
def Obligations.DownstreamMessagesAreSentAndAnswered : Prop :=
∀ (s : State) (h : Fin 4) (seq : BitVec 16) (reason : Byte) (m : DMsg) (slot : BitVec 128), s.canonical = true →
    let b := CWY h
    let c := s.cw h
    let mtype := s.g b CWY_TXQ_TYPE_MTYPE
    let body := s.rd (b + CWY_TXQ_BODY.off) + 2 ^ 32 * s.rd (b + CWY_TXQ_BODY.off + 4) + 2 ^ 64 * (s.rd (b + CWY_TXQ_BODY.off + 8) % 65536)
    let qRegs := [b + CWY_TXQ_STAT.off, b + CWY_RXQ_STAT.off, b + CWY_RXQ_TYPE.off, b + CWY_RXQ_BODY.off, b + CWY_RXQ_BODY.off + 4, b + CWY_RXQ_BODY.off + 8, b + IRQ_STAT.off]
    (s.reaches (b + CWY_TXQ_PUSH.off) 1 = true → s.g b CWY_TXQ_STAT_FREE ≠ 0 → s.linkUp h = true → hostMsgType mtype = true →
      c.queue = [] → c.unans.length < 32 → ∃ t, exec (.cwyTxqPush h) s = .next t ∧
      (t.cw h).unans = c.unans ++ [⟨c.txSeq, mtype, body, 1⟩] ∧ (t.cw h).queue = [] ∧
      (t.cw h).txSeq = (c.txSeq + 1) % 65536 ∧ t.out.head? = some (.down h mtype c.txSeq body 1) ∧
      (mtype = 0x40 → t.g b CWY_STAT_RUN = body % 2) ∧ RegsBut ((b + CWY_STAT.off) :: qRegs) s t) ∧
    (s.linkLive h = true → c.unans.find? (fun x => x.seq == seq.toNat) = some m → m.owner ≠ 1 → c.queue = [] →
      ∃ t, exec (.headAck h seq) s = .next t ∧ (t.cw h).unans = c.unans.filter (fun x => x.seq != seq.toNat) ∧
      (t.cw h).resends = 0 ∧ RegsBut qRegs s t) ∧
    (s.linkLive h = true → c.unans.find? (fun x => x.seq == seq.toNat) = some m → m.owner = 1 → c.queue = [] →
      ∃ t, exec (.headAck h seq) s = .next t ∧ (t.cw h).unans = c.unans.filter (fun x => x.seq != seq.toNat) ∧
      t.g b CWY_TXQ_STAT_ANSWERED = (s.g b CWY_TXQ_STAT_ANSWERED + 1) % 2 ^ 16 ∧ t.gBit b IRQ_STAT 6 = true ∧
      RegsBut qRegs s t) ∧
    (s.linkLive h = true → c.unans.find? (fun x => x.seq == seq.toNat) = some m → m.owner = 1 → c.queue = [] →
      c.rxq.length < 64 → reason.toNat ≠ 0 → ∃ t, exec (.headNack h seq reason) s = .next t ∧
      (t.cw h).rxq = c.rxq ++ [⟨0x02, false, seq.toNat, reason.toNat⟩] ∧
      (t.cw h).unans = c.unans.filter (fun x => x.seq != seq.toNat) ∧ RegsBut qRegs s t) ∧
    (s.reaches (b + CWY_RXQ_POP.off) 1 = true → ∃ t, exec (.cwyRxqPop h) s = .next t ∧ (t.cw h).rxq = c.rxq.drop 1 ∧
      t.g b CWY_RXQ_STAT_COUNT = (c.rxq.length - 1) % 128 ∧ RegsBut qRegs s t) ∧
    (s.linkLive h = true → c.unans ≠ [] → c.resends < 8 → ∃ t, exec (.msgResendTimer h) s = .next t ∧
      t.out = (c.unans.map (fun x => Out.down h x.mtype x.seq x.body 1)).reverse ++ s.out ∧
      (t.cw h).resends = c.resends + 1 ∧ RegsBut [] s t) ∧
    (fld slot.toNat 0 8 = 0x3A → fld slot.toNat 8 8 = 1 → crc16 slot.toNat 112 = fld slot.toNat 112 16 →
      ∃ t, exec (.msgStripe h (slot :: List.replicate 9 0)) s = .next t ∧
      exec (.headAck h (BitVec.ofNat 16 (fld slot.toNat 16 16))) s = .next t)

/-- FEED_ON raises the feed of a head that needs no wait, which starts the head afresh, and makes it PENDING where another feed
rose within 10 ms; FEED_PENDING_RAISE serves the lowest head that waits; FEED_OFF lowers it and the link is OFF. A feed fault
lowers it with FLT, FAULTED and a holdoff; the holdoff's end and the rise of the pin clear their status. CTRL_UP_TIMER starts
TRAINING, LINK_ALIGNED of twelve good lanes assigns the roles and asks for the five capability words, LINK_RESTART leaves DOWN
for CTRL_UP, and STANDBY_READY_REMAP sends REMAP 16 commas ahead. (R171, R194-R197, R202.) -/
def Obligations.LinkAndFeedFollowTheirEvents : Prop :=
∀ (s : State) (h : Fin 4) (value : Word) (r l : Nat), s.canonical = true →
    let b := CWY h
    let c := s.cw h
    let sfc := (s.g b CWY_SFC + 16) % 2 ^ 24
    (s.reaches (b + CWY_FEED_CTRL.off) 1 = true → s.g b CWY_FEED_STAT_HOLDOFF = 0 → s.on b CWY_FEED_STAT_FLT = false →
      s.on b CWY_FEED_STAT_EN = false → s.claimed.feedWaits h = true → ∃ t, exec (.feedOn h) s = .next t ∧
      t.g b CWY_FEED_STAT_PENDING = 1 ∧ t.g b CWY_FEED_STAT_FAULTED = 0 ∧ OnlyRegs [b + CWY_FEED_STAT.off] s.claimed t) ∧
    (s.reaches (b + CWY_FEED_CTRL.off) 1 = true → s.g b CWY_FEED_STAT_HOLDOFF = 0 → s.on b CWY_FEED_STAT_FLT = false →
      s.on b CWY_FEED_STAT_EN = false → s.claimed.feedWaits h = false → s.enabled b = false →
      ∃ t, exec (.feedOn h) s = .next t ∧ t.g b CWY_FEED_STAT_EN = 1 ∧ (t.cw h).feedAt = some s.time.units ∧
      t.out.head? = some (.feed h true) ∧
      t.heads = upd s.heads h (fun x => { Head.init with caps := x.caps, minFrame := x.minFrame }) ∧
      RegsBut [b + CWY_FEED_STAT.off] s t) ∧
    (s.on b CWY_FEED_STAT_PENDING = true → (List.range h).any (fun i => s.on (CWY i) CWY_FEED_STAT_PENDING) = false →
      s.on b CWY_FEED_STAT_EN = false → s.enabled b = false → ∃ t, exec (.feedPendingRaise h) s = .next t ∧
      t.g b CWY_FEED_STAT_EN = 1 ∧ t.g b CWY_FEED_STAT_PENDING = 0 ∧ t.out = .feed h true :: s.out ∧
      RegsBut [b + CWY_FEED_STAT.off] s t) ∧
    (s.reaches (b + CWY_FEED_CTRL.off) 2 = true → s.on b CWY_FEED_STAT_EN = true → s.linkLive h = false →
      ∃ t, exec (.feedOff h) s = .next t ∧ t.g b CWY_FEED_STAT_EN = 0 ∧ t.linkState h = 0 ∧ Out.feed h false ∈ t.out) ∧
    (s.linkState h = 0 → ∃ t, exec (.feedFault h) s = .next t ∧ t.g b CWY_FEED_STAT_EN = 0 ∧ t.g b CWY_FEED_STAT_FLT = 1 ∧
      t.g b CWY_FEED_STAT_FAULTED = 1 ∧ t.g b CWY_FEED_STAT_HOLDOFF = 500 ∧ t.gBit b IRQ_STAT 1 = true ∧
      (t.cw h).holdAt = some s.time.ms) ∧
    (∃ t, exec (.feedHoldoffEnd h) s = .next t ∧ t.g b CWY_FEED_STAT_HOLDOFF = 0 ∧ t.gBit b FAULT_SUM 13 = false ∧
      (t.cw h).holdAt = none ∧ RegsBut [b + CWY_FEED_STAT.off, b + FAULT_SUM.off, b + PAGE_STAT.off] s t) ∧
    (∃ t, exec (.headFeedFltRise h) s = .next t ∧ t.g b CWY_FEED_STAT_FLT = 0 ∧ OnlyRegs [b + CWY_FEED_STAT.off] s t) ∧
    (s.linkState h = 1 → ∃ t, exec (.ctrlUpTimer h) s = .next t ∧ t.linkState h = 2 ∧ (t.cw h).txSeq = 0 ∧
      (t.cw h).unans = []) ∧
    (s.linkState h = 3 → (List.range 12).all (fun j => s.aligned h j) = true → c.queue = [] → c.unans = [] →
      ∃ t, exec (.linkAligned h) s = .next t ∧ t.linkState h = 4 ∧ (t.cw h).caps = 5 ∧ (t.cw h).standby = some 11 ∧
      (t.cw h).roles = (List.range 11).map some ∧ (t.cw h).unans.map (fun x => x.body) = [0, 4, 8, 12, 16]) ∧
    (s.reaches (b + CWY_CTRL.off) (setFld value.toNat 2 1 1) = true → s.linkState h = 6 → s.on b CWY_FEED_STAT_EN = true →
      ∃ t, exec (.linkRestart h value) s = .next t ∧ t.linkState h = 1 ∧ (t.cw h).standby = some 11 ∧
      t.g b CWY_CTRL_AUTO_STANDBY = fld value.toNat 0 1) ∧
    (c.replace = some r → c.standby = some l → s.linkLive h = true → (s.cl h l).commaLock = true →
      s.on (lnb (12 * h + l)) LNK_LANE_STAT_TRAINING = false → ∃ t, exec (.standbyReadyRemap h) s = .next t ∧
      (t.cw h).remap = some ⟨some r, l, sfc, 0, false⟩ ∧ (t.cw h).replace = none ∧
      Out.down h 0x52 0 (r + 0x10 * l + 0x100 * sfc) 4 ∈ t.out)

/-- PROBE_TIMER on a link in UP with a PERIOD starts a probe that leaves at the device time, under the next number;
PROBE_LOST_TIMER gives up the probe under way and counts it; DOWNSTREAM_COMMA of a running link advances the downstream frame
counter and notes when it left; SERVO_HOLD_TIMER takes a servo in TRACK to HOLD and raises interrupt 6 of TIM. (R183, R197,
R588, R589, R591, R595.) -/
def Obligations.ProbesCommasAndTheHeadServo : Prop :=
∀ (s : State) (h : Fin 4), s.canonical = true →
    let b := CWY h
    let c := s.cw h
    (s.linkUp h = true → s.g b CWY_PROBE_CFG_PERIOD ≠ 0 → c.queue = [] → c.unans.length < 32 →
      ∃ t, exec (.probeTimer h) s = .next t ∧ (t.cw h).probe = some ⟨c.probeId, s.time.u16, none, 0⟩ ∧
      (t.cw h).probeId = (c.probeId + 1) % 65536 ∧ t.out = .down h 0x20 c.txSeq c.probeId 1 :: s.out) ∧
    (c.probe.isSome = true → ∃ t, exec (.probeLostTimer h) s = .next t ∧ (t.cw h).probe = none ∧
      t.g (hsb h) TIM_HS_LOST = min (s.g (hsb h) TIM_HS_LOST + 1) (2 ^ 32 - 1) ∧ RegsBut [hsb h + TIM_HS_LOST.off] s t) ∧
    (s.linkState h ≠ 0 → c.servo.change = none → ∃ t, exec (.downstreamComma h) s = .next t ∧
      (t.cw h).downSfc = (c.downSfc + 1) % 2 ^ 24 ∧ (t.cw h).downAt = s.time.units ∧ RegsBut [] s t) ∧
    (s.hsState h = 3 → ∃ t, exec (.servoHoldTimer h) s = .next t ∧ t.hsState h = 5 ∧ t.gBit TIM IRQ_STAT 6 = true ∧
      RegsBut [hsb h + TIM_HS_STAT.off, TIM + IRQ_STAT.off] s t)

/-- A sequenced message whose SEQ is the next one is answered and does, at its head only, what its type says: HREG_WRITE writes
the register it names, and a bad address is answered BAD_ADDR with no effect; HREG_READ sends HREG_DATA; SET_WRITE adds to its
set, SET_COMMIT with the right count hands the set to its exposure and with a wrong count is answered and drops it; TIME_SEC,
TIME_LOAD, TIME_STEP and TIME_RATE set what the head's clock takes; TIME_PROBE sends TIME_T1 and TIME_T2; EXP_PERIOD, EXP_START,
EXP_STOP and STREAM set its schedule. An earlier SEQ is answered again and a later one discarded. (R177, R180, R182, R183,
R186-R190, R590.) -/
def Obligations.SequencedMessagesActAtTheHead : Prop :=
∀ (s : State) (h : Fin 4) (seq : BitVec 16) (addr : BitVec 24) (data hfc ns rate residence : Word) (setId count probeId secLo
    frac : BitVec 16) (seconds offset : BitVec 48) (sfc : BitVec 24) (run replace : Bool), s.canonical = true →
    let x := s.hd h
    let room := x.unans.length < 31 ∧ x.wait = []
    let due := (sfc.toNat + 2 ^ 24 - x.lastSfc) % 2 ^ 24
    let start := x.resolve secLo.toNat ns.toNat frac.toNat
    (seq.toNat = x.rxSeq → headBadAddr addr.toNat true = false → ∃ t, exec (.hregWrite h seq addr data) s = .next t ∧
      HeadAnswers h seq.toNat 0 s t ∧ (t.hd h).reg addr.toNat = data.toNat ∧ (t.hd h).unans = x.unans) ∧
    (seq.toNat = x.rxSeq → headBadAddr addr.toNat true = true → ∃ t, exec (.hregWrite h seq addr data) s = .next t ∧
      HeadAnswers h seq.toNat 3 s t ∧ (t.hd h).regs = x.regs) ∧
    (0 < (x.rxSeq + 65536 - seq.toNat) % 65536 → 0x8000 ≤ (x.rxSeq + 65536 - seq.toNat) % 65536 →
      ∃ t, exec (.hregWrite h seq addr data) s = .next t ∧ t.hd h = x ∧ t = { s with heads := t.heads }) ∧
    (0 < (x.rxSeq + 65536 - seq.toNat) % 65536 → (x.rxSeq + 65536 - seq.toNat) % 65536 < 0x8000 →
      x.answers.find? (fun a => a.1 == seq.toNat) = some (seq.toNat, 0) →
      ∃ t, exec (.hregWrite h seq addr data) s = .next t ∧ t.hd h = { x with up := ⟨1, seq.toNat, 0⟩ :: x.up }) ∧
    (seq.toNat = x.rxSeq → headBadAddr addr.toNat false = false → room → ∃ t, exec (.hregRead h seq addr) s = .next t ∧
      HeadAnswers h seq.toNat 0 s t ∧
      (t.hd h).up = ⟨1, seq.toNat, 0⟩ :: ⟨0x81, x.txSeq, addr.toNat + 2 ^ 24 * x.reg addr.toNat⟩ :: x.up ∧
      (t.hd h).unans = x.unans ++ [x.txSeq]) ∧
    (seq.toNat = x.rxSeq → headBadAddr addr.toNat true = false →
      ∃ t, exec (.headSetWrite h seq addr data setId) s = .next t ∧ HeadAnswers h seq.toNat 0 s t ∧
      (t.hd h).sets = x.sets ++ [(setId.toNat, addr.toNat, data.toNat)] ∧ (t.hd h).regs = x.regs) ∧
    (seq.toNat = x.rxSeq → (x.sets.filter (fun w => w.1 == setId.toNat)).length = count.toNat →
      (hfc.toNat + 2 ^ 32 - x.hfc) % 2 ^ 32 < 0x80000000 → ∃ t, exec (.headSetCommit h seq setId count hfc) s = .next t ∧
      HeadAnswers h seq.toNat 0 s t ∧ (t.hd h).sets = x.sets.filter (fun w => w.1 != setId.toNat) ∧
      (t.hd h).due = x.due ++ [(hfc.toNat, false, setId.toNat, (x.sets.filter (fun w => w.1 == setId.toNat)).map (fun w =>
        (w.2.1, w.2.2)))]) ∧
    (seq.toNat = x.rxSeq → (x.sets.filter (fun w => w.1 == setId.toNat)).length ≠ count.toNat →
      ∃ t, exec (.headSetCommit h seq setId count hfc) s = .next t ∧ HeadAnswers h seq.toNat 6 s t ∧
      (t.hd h).sets = x.sets.filter (fun w => w.1 != setId.toNat) ∧ (t.hd h).due = x.due) ∧
    (seq.toNat = x.rxSeq → x.unans.length < 31 ∧ x.wait = [] →
      ∃ t, exec (.headTimeProbe h seq probeId residence) s = .next t ∧ HeadAnswers h seq.toNat 0 s t ∧
      (t.hd h).unans = x.unans ++ [x.txSeq, (x.txSeq + 1) % 65536] ∧
      ((t.hd h).up.drop 1).head?.map (fun m => (m.mtype, m.seq, m.body)) = some (0x83, (x.txSeq + 1) % 65536, probeId.toNat +
        2 ^ 16 * ((x.now + residence.toNat) / 65536 % nsPerSec) + 2 ^ 48 * ((x.now + residence.toNat) % 65536))) ∧
    (seq.toNat = x.rxSeq → ∃ t, exec (.headTimeSec h seq seconds) s = .next t ∧ HeadAnswers h seq.toNat 0 s t ∧
      (t.hd h).sec = seconds.toNat ∧ (t.hd h).time = x.time) ∧
    (seq.toNat = x.rxSeq → 0 < due ∧ due < 2 ^ 23 → ∃ t, exec (.headTimeLoad h seq ns frac sfc) s = .next t ∧
      HeadAnswers h seq.toNat 0 s t ∧
      (t.hd h).adj = some (sfc.toNat, false, ((x.sec * secUnits + ns.toNat * 65536 + frac.toNat : Nat) : Int)) ∧
      (t.hd h).time = x.time) ∧
    (seq.toNat = x.rxSeq → 0 < due ∧ due < 2 ^ 23 → ∃ t, exec (.headTimeStep h seq offset sfc) s = .next t ∧
      HeadAnswers h seq.toNat 0 s t ∧ (t.hd h).adj = some (sfc.toNat, true, sint 48 offset.toNat)) ∧
    (seq.toNat = x.rxSeq → due = 0 ∨ 2 ^ 23 ≤ due → ∃ t, exec (.headTimeStep h seq offset sfc) s = .next t ∧
      HeadAnswers h seq.toNat 0 s t ∧ (t.hd h).adj = x.adj) ∧
    (seq.toNat = x.rxSeq → ∃ t, exec (.headTimeRate h seq rate) s = .next t ∧ HeadAnswers h seq.toNat 0 s t ∧
      (t.hd h).rate = sint 32 rate.toNat) ∧
    (seq.toNat = x.rxSeq → ∃ t, exec (.expPeriod h seq ns frac hfc) s = .next t ∧ HeadAnswers h seq.toNat 0 s t ∧
      (t.hd h).period = (ns.toNat * 65536 + frac.toNat, hfc.toNat) ∧ (t.hd h).sched = x.sched) ∧
    (seq.toNat = x.rxSeq → x.now + x.lead ≤ start → x.lastStart = none → x.sched = [] →
      ∃ t, exec (.expStart h seq secLo ns frac false replace) s = .next t ∧ HeadAnswers h seq.toNat 0 s t ∧
      (t.hd h).sched = [⟨start, 0, some 1⟩]) ∧
    (seq.toNat = x.rxSeq → start < x.now + x.lead → ∃ t, exec (.expStart h seq secLo ns frac false replace) s = .next t ∧
      HeadAnswers h seq.toNat 1 s t ∧ (t.hd h).sched = x.sched) ∧
    (seq.toNat = x.rxSeq → ∃ t, exec (.expStop h seq secLo ns frac true) s = .next t ∧ HeadAnswers h seq.toNat 0 s t ∧
      (t.hd h).sched = []) ∧
    (seq.toNat = x.rxSeq → x.now + x.lead ≤ start → ∃ t, exec (.expStop h seq secLo ns frac false) s = .next t ∧
      HeadAnswers h seq.toNat 0 s t ∧ (t.hd h).sched = (x.sched.map (fun c => c.before start)).filter Schedule.live) ∧
    (seq.toNat = x.rxSeq → x.now + x.lead ≤ start → x.lastStart = none → x.sched = [] → x.least ≤ x.period.1 →
      ∃ t, exec (.expStart h seq secLo ns frac true replace) s = .next t ∧ HeadAnswers h seq.toNat 0 s t ∧
      (t.hd h).sched = [⟨start, x.period.1, if x.period.2 = 0 then none else some x.period.2⟩]) ∧
    (seq.toNat = x.rxSeq → ∃ t, exec (.headStream h seq run) s = .next t ∧ HeadAnswers h seq.toNat 0 s t ∧
      (t.hd h).run = run ∧ (t.hd h).sched = x.sched)

/-- TRAIN and PRESET set the head's transmitter of one lane; REMAP puts a role on its lane from the comma named and takes it off
the other, STANDBY gives a lane role 14. EXPOSURE_START of a running head counts the frame and remembers when it started; of one
that does not run it only moves the schedule on. HEAD_COMMA_ARRIVAL brings a lost copy back and is reported; HEAD_COPY_LOST
reports a copy's loss, and HEAD_CTRL_LOST_TIMEOUT with both copies lost stops the exposures. DOWNSTREAM_ACK answers one of the
head's messages. Nothing but the head changes. (R172, R173, R175, R177-R179, R185, R186, R192.) -/
def Obligations.HeadsFollowTheirLanesCopiesAndExposures : Prop :=
∀ (s : State) (h : Fin 4) (lane : Fin 12) (on copyB : Bool) (index : Fin 8) (pre post role16 : Fin 16) (role : Fin 11) (sfc :
    BitVec 24) (seq : BitVec 16) (c : Schedule), s.canonical = true →
    let x := s.hd h
    let event := 3 + 2 ^ 8 * b2n copyB
    let taken := x.roles.map (fun r => if r.1 = role.val then (15, sfc.toNat) else r)
    (∃ t, exec (.headTrain h lane on) s = .next t ∧
      t = s.setHd h (fun x => { x with training := upd x.training lane (fun _ => on) })) ∧
    (∃ t, exec (.headPreset h lane index pre post) s = .next t ∧
      t = s.setHd h (fun x => { x with presets := upd x.presets lane (fun _ => (index.val, pre.val, post.val)) })) ∧
    (x.roles.length = 12 → ∃ t, exec (.headRemap h role lane sfc) s = .next t ∧
      t = s.setHd h (fun x => { x with roles := upd taken lane (fun _ => (role.val, sfc.toNat)) }) ∧
      nth (0, 0) (t.hd h).roles lane = (role.val, sfc.toNat)) ∧
    (x.roles.length = 12 → ∃ t, exec (.headStandby h lane sfc) s = .next t ∧
      t = s.setHd h (fun x => { x with roles := upd x.roles lane (fun _ => (14, sfc.toNat)) }) ∧
      nth (0, 0) (t.hd h).roles lane = (14, sfc.toNat)) ∧
    (x.sched = [c] → x.run = true → x.due = [] → ∃ t, exec (.exposureStart h) s = .next t ∧ t = { s with heads := t.heads } ∧
      (t.hd h).hfc = (x.hfc + 1) % 2 ^ 32 ∧ (t.hd h).lastStart = some c.next ∧ (t.hd h).up = x.up) ∧
    (x.sched = [c] → x.run = false → c.left = none → 0 < c.period → ∃ t, exec (.exposureStart h) s = .next t ∧
      t = s.setHd h (fun x => { x with sched := [{ c with next := c.next + c.period }] })) ∧
    (x.copy copyB = false → role16.val < 12 → x.unans.length < 32 → x.wait = [] → x.stopped = false → x.adj = none →
      ∃ t, exec (.headCommaArrival h copyB sfc role16) s = .next t ∧ (t.hd h).copy copyB = true ∧
      (t.hd h).up = ⟨0x85, x.txSeq, 4 + 2 ^ 8 * b2n copyB⟩ :: x.up ∧ t = { s with heads := t.heads }) ∧
    (x.copy copyB = true → x.unans.length < 32 → x.wait = [] → ∃ t, exec (.headCopyLost h copyB) s = .next t ∧
      (t.hd h).copy copyB = false ∧ (t.hd h).up = ⟨0x85, x.txSeq, event⟩ :: x.up ∧ t = { s with heads := t.heads }) ∧
    (x.copies = (false, false) → ∃ t, exec (.headCtrlLostTimeout h) s = .next t ∧
      t = s.setHd h (fun x => { x with stopped := true, sched := [] })) ∧
    (x.copies ≠ (false, false) → ∃ t, exec (.headCtrlLostTimeout h) s = .next t ∧ t = s) ∧
    (x.wait = [] → ∃ t, exec (.downstreamAck h seq) s = .next t ∧
      t = s.setHd h (fun x => { x with unans := x.unans.filter (fun n => n != seq.toNat) }))

/-- FRAME_START_STRIPE at an enabled ingest with no frame in progress, whose HFC follows the last one, takes the next FRAME_SEQ
and shows HFC and SET_ID; at one that is not enabled it changes nothing. LINE_STRIPE opens the line that is due, DATA_STRIPE
adds its 160 bytes to it, and without an open line flags the frame. FRAME_END_STRIPE of the frame in progress and FRAME_TIMEOUT
close it, counting a frame cut short, and the timeout one with no end; one that names another HFC changes nothing.
INGEST_STOP_DEADLINE of a disabled ingest abandons the frame with reason 7. STATS_BLOCK_WRITTEN with none due changes nothing.
ING_NEXT_SEQ takes a value that is not lower, while nothing runs, and is refused otherwise; ABN_POP and ABN_CLR_OVF serve the
abandon log. (R205, R206, R208, R210, R214-R217, R219, R220, R236, R238.) -/
def Obligations.IngestFramesLinesAndNumbers : Prop :=
∀ (s : State) (h : Fin 4) (hfc expDur expNs : Word) (setId width height num lines expFrac : BitVec 16) (depth : Fin 4) (expSec
    : BitVec 48) (flags : Byte) (bytes : Vector Byte 160) (env : LineEnv) (v : BitVec 64) (f : Frame) (l : OpenLine) (j :
    StatJob) (js : List StatJob), s.canonical = true →
    let b := ING h
    let x := s.ig h
    let next := s.g64 b ING_NEXT_SEQ_LO
    let n := cdiv (width.toNat * f.depth) 1280
    let tally := min (s.g b ING_FRAME_ERR_CUT + b2n (decide (f.lines.length < f.h))) 255
    (s.enabled b = true → x.cur = none → x.line = none → x.hasHfc = true → x.rebase = false →
      hfc.toNat = (s.g b ING_LAST_HFC + 1) % 2 ^ 32 → s.latched b = false → s.boundSlice h = 7 → s.g THM THM_STAT_STAGE = 0 →
      s.g PWR PWR_SHED_STEP ≠ 11 → s.rawOf h = [] →
      ∃ t, exec (.frameStartStripe h hfc setId width height depth expDur expSec expNs expFrac) s = .next t ∧
      t.g64 b ING_NEXT_SEQ_LO = (next + 1) % 2 ^ 64 ∧ t.g b ING_LAST_HFC = hfc.toNat ∧
      t.g b ING_STAT_CUR_SET_ID = setId.toNat ∧ t.g b ING_STAT_STATE = 2 ∧
      (t.ig h).cur.map (fun f => (f.seq, f.hfc, f.setId, f.lines)) = some (next, hfc.toNat, setId.toNat, []) ∧
      (t.rawOf h).map (fun f => f.frame.seq) = [next]) ∧
    (s.enabled b = false → x.cur = none → x.line = none →
      ∃ t, exec (.frameStartStripe h hfc setId width height depth expDur expSec expNs expFrac) s = .next t ∧ t = s ∧
      (t.ig h).cur = none ∧ t.g64 b ING_NEXT_SEQ_LO = next) ∧
    (x.cur = some f → x.line = none → f.lines.length < f.h → hfc.toNat = f.hfc → num.toNat = f.lines.length → 0 < n →
      ∃ t, exec (.lineStripe h num width hfc) s = .next t ∧ (t.ig h).line = some ⟨width.toNat, n, [], true⟩ ∧
      (t.ig h).cur = some f ∧ t = { s with ing := t.ing }) ∧
    (x.cur = some f → x.line = some l → 1 < l.left → ∃ t, exec (.dataStripe h bytes env) s = .next t ∧
      (t.ig h).line = some { l with left := l.left - 1, data := l.data ++ bytes.toList } ∧ (t.ig h).cur = some f ∧
      t = { s with ing := t.ing }) ∧
    (x.cur = some f → x.line = none → ∃ t, exec (.dataStripe h bytes env) s = .next t ∧
      (t.ig h).cur = some { f with flags := f.flags ||| 2 } ∧ t = { s with ing := t.ing }) ∧
    (x.cur = some f → x.line = none → hfc.toNat = f.hfc → f.flags = 0 → s.boundSlice h = 7 → s.enabled b = true →
      s.rawFrame h f.seq = none → s.on b PAGE_STAT_COMMIT_PEND = false →
      ∃ t, exec (.frameEndStripe h hfc lines flags) s = .next t ∧ (t.ig h).cur = none ∧ t.g b ING_FRAME_ERR_CUT = tally ∧
      t.g b ING_STAT_STATE = 1) ∧
    (x.cur = some f → hfc.toNat ≠ f.hfc → ∃ t, exec (.frameEndStripe h hfc lines flags) s = .next t ∧ t = s) ∧
    (x.cur = some f → f.flags = 0 → s.boundSlice h = 7 → s.enabled b = true → s.rawFrame h f.seq = none →
      s.on b PAGE_STAT_COMMIT_PEND = false → ∃ t, exec (.frameTimeout h) s = .next t ∧ (t.ig h).cur = none ∧
      t.g b ING_FRAME_ERR_CUT = tally ∧ t.g b ING_FRAME_ERR2_NO_END = min (s.g b ING_FRAME_ERR2_NO_END + 1) 255 ∧
      t.gBit b IRQ_STAT 1 = true) ∧
    (s.enabled b = false → x.cur = some f → x.log = [] → s.boundSlice h = 7 → s.rawFrame h f.seq = none →
      s.on b PAGE_STAT_COMMIT_PEND = false → ∃ t, exec (.ingestStopDeadline h) s = .next t ∧ (t.ig h).cur = none ∧
      (t.ig h).log = [(f.seq, f.seq, 7)] ∧ t.g b ING_ABN_STAT_COUNT = 1 ∧ t.gBit b IRQ_STAT 2 = true) ∧
    (s.enabled b = true → ∃ t, exec (.ingestStopDeadline h) s = .next t ∧ t = s) ∧
    (x.stats = [] → ∃ t, exec (.statsBlockWritten h) s = .next t ∧ t = s) ∧
    (x.stats = j :: js → ∃ t, exec (.statsBlockWritten h) s = .next t ∧ (t.ig h).stats = js ∧
      (t.ig h).statNext = inc32 x.statNext) ∧
    (s.reaches (b + ING_NEXT_SEQ_LO.off) (v.toNat % 2 ^ 32) 8 = true → s.enabled b = false → s.busy b = false →
      next ≤ v.toNat → ∃ t, exec (.ingNextSeqWrite h v) s = .next t ∧ t.g64 b ING_NEXT_SEQ_LO = v.toNat ∧
      OnlyRegs [b + ING_NEXT_SEQ_LO.off, b + ING_NEXT_SEQ_HI.off] (s.claimed 8) t) ∧
    (s.reaches (b + ING_NEXT_SEQ_LO.off) (v.toNat % 2 ^ 32) 8 = true → v.toNat < next → s.on b PAGE_STAT_BAD_WRITE = false →
      ∃ t, exec (.ingNextSeqWrite h v) s = .next t ∧ t.g64 b ING_NEXT_SEQ_LO = next ∧ t.g b PAGE_STAT_BAD_WRITE = 1 ∧
      t.g b PAGE_STAT_BAD_CAUSE = 4 ∧ OnlyRegs [b + PAGE_STAT.off] (s.claimed 8) t) ∧
    (s.reaches (b + ING_ABN_CTRL.off) 1 = true → ∃ t, exec (.abnPop h) s = .next t ∧ (t.ig h).log = x.log.drop 1 ∧
      t.g b ING_ABN_STAT_COUNT = x.log.tail.length % 32 ∧ RegsBut [b + ING_STAT.off, b + ING_ABN_STAT.off] s t) ∧
    (s.reaches (b + ING_ABN_CTRL.off) 2 = true → ∃ t, exec (.abnClrOvf h) s = .next t ∧ t.g b ING_ABN_STAT_OVERFLOW = 0 ∧
      (t.ig h).log = x.log ∧ t.tsq = { s.tsq with abnClr := upd s.tsq.abnClr h (fun _ => s.nextJsn) } ∧
      RegsBut [b + ING_ABN_STAT.off] s t)

/-- LINE_RELEASE of a line that is ready counts it in TAP_REL with the frame's number. RECOMPUTE_DONE of a residue failure that
does not repeat takes the oldest request and counts TRANSIENT; RECOMPUTE_DEADLINE takes it too. PATROL_RECOMPUTE of a spare
slice that finds a failure records it with PATROL. TBL_LOAD_START sets LOADING, TBL_LOAD_BEGIN ends its wait, and TBL_LOAD_END
of an image outside the plan ends FAILED with reason 1. TAP_BUFFER_RETURN adds the buffers to FREE, and more than are out are
refused as a reserved encoding. (R89, R255, R257, R263, R265-R268, R280.) -/
def Obligations.SlicesReleaseRecomputeAndLoad : Prop :=
∀ (s : State) (p : Fin 5) (u : Fin 4) (v : Word) (q : Recompute) (r : List Recompute) (x : ResFail) (f : SliceFrame),
    s.canonical = true →
    let b := PSL p
    let tb := tapBase p u
    let n := fld v.toNat 0 5
    let base := s.rd (b + PSL_TBL_BASE_LO_REG.off) + 2 ^ 32 * s.rd (b + PSL_TBL_BASE_HI.off)
    (s.recompute = q :: r → q.slice < 5 → q.stage ≠ 0 → q.both = false → ∃ t, exec (.recomputeDone false) s = .next t ∧
      t.recompute = r ∧ t.g (PSL q.slice) PSL_RES_CNT_TRANSIENT = min (s.g (PSL q.slice) PSL_RES_CNT_TRANSIENT + 1) 4095) ∧
    (s.recompute = [] → ∃ t, exec (.recomputeDone false) s = .next t ∧ t = s) ∧
    (s.recompute = q :: r → q.slice < 5 → ∃ t, exec .recomputeDeadline s = .next t ∧ t.recompute = r ∧
      t.g (PSL 4) PSL_STAT_RECOMPUTING = b2n (!r.isEmpty)) ∧
    (s.g PWR PWR_SHED_STEP = 0 → s.spareReady = true → s.recompute = [] →
      ∃ t, exec (.patrolRecompute (some x) false) s = .next t ∧ t.g (PSL 4) PSL_RES_STAT_UNIT = x.unit % 256 ∧
      t.g (PSL 4) PSL_RES_STAT_STAGE = x.stage % 16 ∧ t.g (PSL 4) PSL_RES_STAT_PATROL = 1 ∧
      t.g (PSL 4) PSL_RES_LINE = x.line % 65536 ∧ t.gBit (PSL 4) IRQ_STAT 4 = true) ∧
    (∃ t, exec (.patrolRecompute none false) s = .next t ∧ t = s) ∧
    (s.releasing p u = some f → f.lineReady (f.tap p u) (f.run u).next = true → s.g BIT BIT_INJ_STAT_STATE ≠ 1 →
      ∃ t, exec (.lineRelease p u none) s = .next t ∧ t.g tb PSL_TAP_REL_LINES = ((f.run u).next + 1) % 65536 ∧
      t.g tb PSL_TAP_REL_FRAME_SEQ = f.frame.seq % 65536) ∧
    (s.releasing p u = none → ∃ t, exec (.lineRelease p u none) s = .next t ∧ t = s) ∧
    (s.reaches (b + PSL_TBL_LOAD.off) 1 = true → s.on b PAGE_STAT_COMMIT_PEND = false → s.g b PSL_TBL_STAT_STATE ≠ 1 →
      ∃ t, exec (.tblLoadStart p) s = .next t ∧ t.g b PSL_TBL_LOAD_START = 1 ∧ t.g b PSL_TBL_STAT_STATE = 1 ∧
      (t.sl p).tblPend = none ∧ RegsBut [b + PSL_TBL_LOAD.off, b + PSL_TBL_STAT.off] s t) ∧
    (s.reaches (b + PSL_TBL_LOAD.off) 1 = true → s.g b PSL_TBL_STAT_STATE = 1 → s.on b PAGE_STAT_BAD_WRITE = false →
      ∃ t, exec (.tblLoadStart p) s = .next t ∧ t.g b PAGE_STAT_BAD_CAUSE = 4 ∧ OnlyRegs [b + PAGE_STAT.off] s.claimed t) ∧
    (s.g b PSL_TBL_STAT_STATE = 1 → ∃ t, exec (.tblLoadBegin p) s = .next t ∧
      t = s.setSlice p (fun x => { x with handAt := none })) ∧
    (s.spanRuns p = false → s.g b PSL_TBL_STAT_STATE = 1 → s.hbmInside base 0x26800 = false →
      ∃ t, exec (.tblLoadEnd p) s = .next t ∧ t.g b PSL_TBL_STAT_STATE = 3 ∧ t.g b PSL_TBL_STAT_REASON = 1 ∧
      t.g b PSL_TBL_LOAD_START = 0 ∧ t.gBit b IRQ_STAT 8 = true ∧
      RegsBut [b + PSL_TBL_LOAD.off, b + PSL_TBL_STAT.off, b + IRQ_STAT.off] s t) ∧
    (s.spanRuns p = true → ∃ t, exec (.tblLoadEnd p) s = .next t ∧ t = s) ∧
    (s.reaches (tb + PSL_TAP_BUF_FREE.off) v.toNat = true → n + s.g tb PSL_TAP_BUF_FREE ≤ (s.tapActive p u).nbuf →
      (s.tapActive p u).nbuf ≤ 16 → ∃ t, exec (.tapBufferReturn p u v) s = .next t ∧
      t.g tb PSL_TAP_BUF_FREE = s.g tb PSL_TAP_BUF_FREE + n ∧ OnlyRegs [tb + PSL_TAP_BUF.off] s.claimed t) ∧
    (s.reaches (tb + 0x2188) v.toNat = true → (s.tapActive p u).nbuf < n + s.g tb PSL_TAP_BUF_FREE →
      s.on b PAGE_STAT_BAD_WRITE = false → ∃ t, exec (.tapBufferReturn p u v) s = .next t ∧ t.g b PAGE_STAT_BAD_CAUSE = 1 ∧
      t.g tb PSL_TAP_BUF_FREE = s.g tb PSL_TAP_BUF_FREE ∧ OnlyRegs [b + PAGE_STAT.off] s.claimed t)

/-- A load or generation that R300 does not refuse sets its bit of CLR_LOAD and LOADING, and WAITING while the span runs; a
generation takes its settings at the write. One that R300 refuses is recorded with cause 4. CLR_LOAD_BEGIN ends the wait.
CLR_OPERATION_END of a generation gives LOADED with interrupt 0, of a load outside the plan FAILED with reason 1.
CLR_TABLE_REFILL of a granule of curves that cannot be read again from an image bypasses the curves and raises the fault.
(R298-R301, R307, R308.) -/
def Obligations.ColourTablesLoadGenerateAndRefill : Prop :=
∀ (s : State) (i : Fin 28) (granule : Fin 192) (active : Bool) (k o : Nat) (r : SRec) (gs : Nat × Nat × Nat × Nat × Nat),
    s.canonical = true →
    let b := CLR i
    let c := s.clrOf i
    let off := b + CLR_LOAD.off
    (s.reaches off 1 = true → s.claimed.clrLoadRefused i 1 = false → ∃ t, exec (.clrLoadCurves i) s = .next t ∧
      t.g b CLR_LOAD_CURVES = 1 ∧ t.g b CLR_TBL_STAT_CURVE_STATE = 1 ∧ t.g b CLR_TBL_STAT_WAITING = b2n (s.clrSpan i) ∧
      OnlyRegs [off, b + CLR_TBL_STAT.off] s.claimed t) ∧
    (s.reaches off 1 = true → s.claimed.clrLoadRefused i 1 = true → s.on b PAGE_STAT_BAD_WRITE = false →
      ∃ t, exec (.clrLoadCurves i) s = .next t ∧ t.g b PAGE_STAT_BAD_WRITE = 1 ∧ t.g b PAGE_STAT_BAD_CAUSE = 4 ∧
      OnlyRegs [b + PAGE_STAT.off] s.claimed t) ∧
    (s.reaches off 2 = true → s.claimed.clrLoadRefused i 2 = false → ∃ t, exec (.clrLoadLut i) s = .next t ∧
      t.g b CLR_LOAD_LUT = 1 ∧ t.g b CLR_TBL_STAT_LUT_STATE = 1 ∧ t.g b CLR_TBL_STAT_WAITING = b2n (s.clrSpan i) ∧
      OnlyRegs [off, b + CLR_TBL_STAT.off] s.claimed t) ∧
    (s.reaches off 4 = true → s.claimed.clrLoadRefused i 4 = false → ∃ t, exec (.clrLoadGen i) s = .next t ∧
      t.g b CLR_LOAD_GEN = 1 ∧ t.g b CLR_TBL_STAT_CURVE_STATE = 1 ∧ (t.clrOf i).gen = some (s.genSettings i) ∧
      RegsBut [off, b + CLR_TBL_STAT.off] s t) ∧
    (∃ t, exec (.clrLoadBegin i) s = .next t ∧ t.g b CLR_TBL_STAT_WAITING = 0 ∧ OnlyRegs [b + CLR_TBL_STAT.off] s t) ∧
    (s.on b CLR_TBL_STAT_WAITING = false → s.g b CLR_TBL_STAT_CURVE_STATE = 1 → s.on b CLR_LOAD_GEN = true →
      c.gen = some gs → ∃ t, exec (.clrOperationEnd i false) s = .next t ∧ t.g b CLR_TBL_STAT_CURVE_STATE = 2 ∧
      t.g b CLR_TBL_STAT_CURVE_REASON = 0 ∧ t.g b CLR_LOAD_GEN = 0 ∧ (t.clrOf i).gen = none ∧ (t.clrOf i).curveEver = true ∧
      t.gBit b IRQ_STAT 0 = true ∧ RegsBut [off, b + CLR_TBL_STAT.off, b + IRQ_STAT.off] s t) ∧
    (s.on b CLR_TBL_STAT_WAITING = false → s.g b CLR_TBL_STAT_LUT_STATE = 1 →
      s.hbmInside (s.g64 b CLR_LUT_BASE_LO) 2471625 = false → ∃ t, exec (.clrOperationEnd i true) s = .next t ∧
      t.g b CLR_TBL_STAT_LUT_STATE = 3 ∧ t.g b CLR_TBL_STAT_LUT_REASON = 1 ∧ t.g b CLR_LOAD_LUT = 0 ∧
      t.gBit b IRQ_STAT 1 = true) ∧
    (s.sump.pend = [(k, o, granule.val)] → nth ⟨0, 0, 0, 0, 0, []⟩ s.sump.recs k = r → r.kind = 4 → r.inst = i.val →
      s.sump.filled = [] → (if active then c.curveA else c.curveP).bytes = none → s.consumerStopped r = false →
      ∃ t, exec (.clrTableRefill granule active) s = .next t ∧ (t.clrOf i).curveBypass = 1 ∧ t.gBit b FAULT_SUM 0 = true ∧
      t.sump.filled = [granule.val] ∧
      OnlyRegs [b + FAULT_SUM.off, b + PAGE_STAT.off] { s with sump := t.sump, clr := t.clr } t)

/-- A VSYNC edge at an enabled port whose clock runs starts the frame of the next WFN. WITNESS_LINE_END adds a line to the frame
in progress, padded and counted where it is short; under SYNC_MODE 0 a run of fewer than four samples is a glitch. PCLK_LOST and
a PCLK_WINDOW_END above the limit stop the port's clock, PCLK_RESTORED lets it run. WIT_FRAME_TIMEOUT closes a frame in
progress, cut short and without end, and latches a pending commit where none is. WIT_STOP_DEADLINE of a disabled port abandons
its frame with reason 3. WIT_DATAPATH_CLEAR and WIT_STATS_WRITTEN end what they name; WIT_NEXT_WFN takes no lower value;
WIT_TAP_RETURN adds buffers to FREE; WITNESS_BANK_CHANGE shows the bank. (R316, R318, R320-R323, R326, R329, R331, R333, R761.)
-/
def Obligations.WitnessPortsTakeFramesAndLines : Prop :=
∀ (s : State) (w : Fin 4) (u : Fin 2) (samples : List Nat) (kHz : Nat) (hi : Bool) (v : Word) (bank : Fin 3) (f : WitFrame) (r
    : List WitFrame), s.canonical = true →
    let b := WIT w
    let x := s.wit w
    let wfn := s.g64 b WIT_NEXT_WFN_LO
    let px := witPixels (f.g w WIT_CFG_IN_FMT) (f.g w WIT_CFG_DEPTH) samples
    let line := witLine (f.g w WIT_CFG_IN_FMT) (f.g w WIT_GEOM_WIDTH) px
    let new := if hi then wfn % 2 ^ 32 + 2 ^ 32 * v.toNat else wfn / 2 ^ 32 * 2 ^ 32 + v.toNat
    let half := b + WIT_NEXT_WFN_LO.off + 4 * b2n hi
    let tb := witTapBase w u
    let nbuf := (witTapOf (fun o => s.rdA (b + o)) u).nbuf
    (x.clock = 0 → s.enabled b = true → x.cur = none → x.stopped = false → s.latched b = false →
      s.latched (CLR (20 + 2 * w)) = false → s.latched (CLR (21 + 2 * w)) = false → s.g THM THM_STAT_STAGE = 0 →
      ∃ t, exec (.vsyncEdge w []) s = .next t ∧ t.g64 b WIT_NEXT_WFN_LO = (wfn + 1) % 2 ^ 64 ∧
      (t.wit w).cur.map (fun f => (f.wfn, f.start, f.lines, f.shed, f.abandoned)) = some (wfn, s.time, [], s.step5, 0) ∧
      (t.wit w).prevStart = some s.time.units ∧ t.g b WIT_STAT_STATE = 2 ∧ t.busy b = true) ∧
    (s.enabled b = false → s.busy b = false → ∃ t, exec (.vsyncEdge w []) s = .next t ∧ t = s) ∧
    (x.clock = 0 → s.enabled b = true → x.cur = some f → f.lines ≠ [] → f.g w WIT_CFG_SYNC_MODE = 0 → 4 ≤ samples.length →
      f.lines.length + 1 < f.g w WIT_GEOM_HEIGHT → s.g BIT BIT_INJ_STAT_STATE ≠ 1 →
      ∃ t, exec (.witnessLineEnd w samples none) s = .next t ∧
      (t.wit w).cur = some { f with lines := f.lines ++ [line], flags := f.flags ||| b2n line.short ||| 2 * b2n line.long } ∧
      t.g b WIT_LINE_ERR_SHORT = min (s.g b WIT_LINE_ERR_SHORT + b2n line.short) 255 ∧ RegsBut [b + WIT_LINE_ERR.off] s t) ∧
    (x.clock = 0 → s.enabled b = true → x.cur = some f → f.g w WIT_CFG_SYNC_MODE = 0 → samples.length < 4 →
      ∃ t, exec (.witnessLineEnd w samples none) s = .next t ∧
      t.g b WIT_LINE_ERR_GLITCH = min (s.g b WIT_LINE_ERR_GLITCH + 1) 255 ∧ OnlyRegs [b + WIT_LINE_ERR.off] s t) ∧
    (x.clock ≠ 3 → x.cur = none → ∃ t, exec (.pclkLost w) s = .next t ∧ (t.wit w).clock = 3 ∧ (t.wit w).gap = true ∧
      RegsBut [b + WIT_STAT.off, b + IRQ_STAT.off] s t) ∧
    (x.clock = 3 → ∃ t, exec (.pclkLost w) s = .next t ∧ t = s) ∧
    (kHz * 100 ≤ s.witLimit w * 102 → ∃ t, exec (.pclkWindowEnd w kHz) s = .next t ∧ t.g b WIT_PCLK = kHz ∧
      OnlyRegs [b + WIT_PCLK.off] s t) ∧
    (s.witLimit w * 102 < kHz * 100 → x.clock = 0 → x.cur = none → ∃ t, exec (.pclkWindowEnd w kHz) s = .next t ∧
      t.g b WIT_PCLK = min kHz (2 ^ 20 - 1) ∧ (t.wit w).clock = 4 ∧
      RegsBut [b + WIT_PCLK.off, b + WIT_STAT.off, b + IRQ_STAT.off] s t) ∧
    (x.clock ≠ 0 → ∃ t, exec (.pclkRestored w) s = .next t ∧ (t.wit w).clock = 0 ∧ (t.wit w).gap = x.gap ∧
      RegsBut [b + WIT_STAT.off, b + IRQ_STAT.off] s t) ∧
    (x.cur = some f → f.runs = [] → f.lines.length < f.g w WIT_GEOM_HEIGHT → ∃ t, exec (.witFrameTimeout w) s = .next t ∧
      (t.wit w).cur = none ∧ t.g b WIT_FRAME_ERR_CUT = min (s.g b WIT_FRAME_ERR_CUT + 1) 255 ∧ t.gBit b IRQ_STAT 3 = true) ∧
    (x.cur = none → s.enabled b = true → s.on b PAGE_STAT_COMMIT_PEND = true → ∃ t, exec (.witFrameTimeout w) s = .next t ∧
      t.g b PAGE_STAT_COMMIT_LATCHED = 1) ∧
    (s.enabled b = false → x.cur = some f → f.abandoned = 0 → f.runs = [] → ∃ t, exec (.witStopDeadline w) s = .next t ∧
      (t.wit w).cur = none ∧ t.g b WIT_ABN_REASON = 3 ∧ t.g64 b WIT_ABN_LAST_LO = f.wfn % 2 ^ 64 ∧
      t.g b WIT_ABN_CNT = min (s.g b WIT_ABN_CNT + 1) (2 ^ 32 - 1) ∧ t.gBit b IRQ_STAT 4 = true) ∧
    (∃ t, exec (.witDatapathClear w) s = .next t ∧ t = s.setWit w (fun x => { x with clearing := false })) ∧
    (x.stats = f :: r → ∃ t, exec (.witStatsWritten w) s = .next t ∧ (t.wit w).stats = r ∧
      (t.wit w).statNext = inc32 x.statNext) ∧
    (x.stats = [] → ∃ t, exec (.witStatsWritten w) s = .next t ∧ t = s) ∧
    (s.reaches half v.toNat = true → s.enabled b = false → s.busy b = false → wfn ≤ new →
      ∃ t, exec (.witNextWfnWrite w hi v) s = .next t ∧ t.g64 b WIT_NEXT_WFN_LO = new ∧ OnlyRegs [half] s.claimed t) ∧
    (s.reaches half v.toNat = true → new < wfn → s.on b PAGE_STAT_BAD_WRITE = false →
      ∃ t, exec (.witNextWfnWrite w hi v) s = .next t ∧ t.g64 b WIT_NEXT_WFN_LO = wfn ∧ t.g b PAGE_STAT_BAD_CAUSE = 4 ∧
      OnlyRegs [b + PAGE_STAT.off] s.claimed t) ∧
    (s.reaches (tb + WIT_TAP_BUF_FREE.off + 4) v.toNat = true → fld v.toNat 0 5 + s.g tb WIT_TAP_BUF_FREE ≤ nbuf →
      nbuf ≤ 16 → ∃ t, exec (.witTapReturn w u v) s = .next t ∧
      t.g tb WIT_TAP_BUF_FREE = s.g tb WIT_TAP_BUF_FREE + fld v.toNat 0 5 ∧ OnlyRegs [tb + WIT_TAP_BUF.off] s.claimed t) ∧
    (∃ t, exec (.witnessBankChange w bank) s = .next t ∧ t.g b WIT_STAT_BANK = bank.val ∧ OnlyRegs [b + WIT_STAT.off] s t)

/-- STRIP_SIZED gives a strip of the stored form its slot behind the frame's bytes so far; STRIP_CODED forms its record there;
STRIP_VERIFIED of a stored record that passes hands it over and counts it as lossless, and of a coded one that does not counts
the mismatch and leaves the strip for C4; STRIP_RECODED of a record that then passes counts RECODED and hands it over.
FRAME_COMMITTED takes a closed frame whose records are all handed over off the route. CLR_FORCED ends the stored form of a head
whose ingest is stopped and is refused with cause 4 otherwise. With nothing due a strip command changes nothing. (R379, R380,
R383-R386, R391, R418, R421.) -/
def Obligations.StripsAreSizedCodedVerifiedAndCommitted : Prop :=
∀ (s : State) (h : Fin 4) (f : RawFrame) (u : Strip) (k : Nat), s.canonical = true →
    let vb := vlcHead h
    let a := s.area h
    let len := storedLen u.lines.length f.frame.w f.frame.depth
    let coded := { u with at_ := .coded }
    let record := coded.build { f with strips := [coded] } h
    let again := { u with at_ := .recoded, recoded := true }
    let record2 := again.build { f with strips := [again] } h
    (s.rawOf h = [f] → f.strips = [u] → u.idx = 0 → u.at_ = .ready → f.coded = false → f.first = some k →
      4096 * k + f.nextOff + len ≤ 4096 * (a.tail + a.len) → ∃ t, exec (.stripSized h) s = .next t ∧
      t.stripsOf h = [[(.sized, f.nextOff, len)]] ∧ t.placesOf h = [(f.nextOff + len, some k)]) ∧
    (s.rawOf h = [] → ∃ t, exec (.stripSized h) s = .next t ∧ t = s) ∧
    (s.rawOf h = [f] → f.strips = [u] → u.idx = 0 → u.at_ = .sized → record.length ≤ u.slotLen →
      ∃ t, exec (.stripCoded h) s = .next t ∧ t.stripsOf h = [[(.coded, u.slot, u.slotLen)]] ∧
      t.recordsOf h = [[(record, false, u.slot)]]) ∧
    (s.rawOf h = [f] → f.strips = [u] → u.idx = 0 → u.at_ = .coded → u.stored = true →
      ∃ t, exec (.stripVerified h false false) s = .next t ∧ t.stripsOf h = [[(.passed, u.slot, u.slotLen)]] ∧
      t.g vb VLC_STRIPS = min (s.g vb VLC_STRIPS + 1) (2 ^ 32 - 1) ∧
      t.g vb VLC_LOSSLESS = min (s.g vb VLC_LOSSLESS + 1) (2 ^ 32 - 1) ∧ t.g vb VLC_HEAD_STAT_LAST_FORM = 1 ∧
      t.g vb VLC_HEAD_STAT_LAST_STRIP = 0) ∧
    (s.rawOf h = [f] → f.strips = [u] → u.idx = 0 → u.at_ = .coded → u.stored = false → s.g BIT BIT_INJ_STAT_STATE ≠ 1 →
      ∃ t, exec (.stripVerified h true false) s = .next t ∧ t.stripsOf h = [[(.mismatch, u.slot, u.slotLen)]] ∧
      t.g VLC VLC_VERIFY_MISMATCH = min (s.g VLC VLC_VERIFY_MISMATCH + 1) 255 ∧ t.g VLC VLC_STAT_RECODING = 1 ∧
      t.gBit VLC IRQ_STAT h = true ∧
      RegsBut [VLC + VLC_VERIFY.off, VLC + VLC_FAIL_INFO.off, VLC + VLC_FAIL_SEQ_LO.off, VLC + VLC_FAIL_SEQ_HI.off, VLC +
        VLC_STAT.off, VLC + IRQ_STAT.off] s t) ∧
    (s.rawOf h = [f] → f.strips = [u] → u.idx = 0 → u.at_ = .mismatch → u.inj = (false, true, true, false) →
      record2.length ≤ u.slotLen → ∃ t, exec (.stripRecoded h false) s = .next t ∧
      t.stripsOf h = [[(.passed, u.slot, u.slotLen)]] ∧
      t.g VLC VLC_VERIFY_RECODED = min (s.g VLC VLC_VERIFY_RECODED + 1) 255) ∧
    (s.rawOf h = [f] → f.closed = true → f.first = some k → f.strips.all (fun u => u.at_ == .passed) = true → 0 < s.jnlFree →
      ∃ t, exec (.frameCommitted h) s = .next t ∧ t.rawOf h = []) ∧
    (s.rawOf h = [] → ∃ t, exec (.frameCommitted h) s = .next t ∧ t = s) ∧
    (s.reaches (vb + 0x1108) 1 = true → s.enabled (ING h) = false → s.busy (ING h) = false →
      ∃ t, exec (.clrForced h) s = .next t ∧ t.g vb VLC_HEAD_STAT_FORCED_STORED = 0 ∧ t.gBit VLC VLC_STAT_FORCED h = false ∧
      t.gBit VLC FAULT_SUM h = false ∧
      OnlyRegs [vb + VLC_HEAD_STAT.off, VLC + VLC_STAT.off, VLC + FAULT_SUM.off, VLC + PAGE_STAT.off] s.claimed t) ∧
    (s.reaches (vb + 0x1108) 1 = true → s.enabled (ING h) = true → s.on VLC PAGE_STAT_BAD_WRITE = false →
      ∃ t, exec (.clrForced h) s = .next t ∧ t.g VLC PAGE_STAT_BAD_CAUSE = 4 ∧
      t.g vb VLC_HEAD_STAT_FORCED_STORED = s.g vb VLC_HEAD_STAT_FORCED_STORED ∧ OnlyRegs [VLC + PAGE_STAT.off] s.claimed t)

/-- A write of TSQ_SLOT_CMD to a free slot of an enabled take store that is not in recovery and finds no broken rule gives the
command the next CSN; one that breaks a rule leaves the slot REFUSED with the reason; in recovery it waits; on a slot in use it
is refused with cause 4. ACCEPT_DURABLE writes the ACCEPT entry and the slot reads ACCEPTED. NOP ends DONE. COMPLETION_POSTED
writes the completion entry at the tail of the ring and frees the slot, and waits while the ring is full; CQ_HEAD moves up to
the tail and no further. TSQ_ABORT of a command that is not past its point of no return ends it ABORTED, of one past it is
TOO_LATE, of none MISS. (R428-R436, R445, R446, R457.) -/
def Obligations.TakeStoreCommandsAreAccepted : Prop :=
∀ (s : State) (slot : Fin 32) (v : Word) (c : TCmd) (d : Done) (reason : Nat), s.canonical = true →
    let b := slotBase slot
    let w := (((s.claimed.plainWrite (b + TSQ_SLOT_CMD.off) v.toNat).tsqWake).p b TSQ_SLOT_STAT_STATE 1).p b TSQ_SLOT_STAT_REASON 0
    let idle := s.g b TSQ_SLOT_STAT_STATE = 0 ∨ s.g b TSQ_SLOT_STAT_STATE = 5
    let tail := s.g TSQ TSQ_CQ_TAIL
    let entry := s.masterWrite 0x40 (s.g TSQ TSQ_CQ_CFG_ASID) (s.g64 TSQ TSQ_CQ_BASE_LO + 32 * (tail % 2 ^ s.g TSQ TSQ_CQ_CFG_CQ_LOG2)) (completionBytes c d slot false)
    let old := s.g TSQ TSQ_CQ_HEAD
    (s.reaches (b + TSQ_SLOT_CMD.off) v.toNat = true → s.enabled TSQ = true → idle → s.g TSQ TSQ_RCV_STAT_STATE ≠ 1 →
      w.submitReason (w.slotArgs slot) = 0 → w.formatBusy (w.slotArgs slot) = false → s.tsq.cmds = [] →
      ∃ t, exec (.slotCmdSubmit slot v) s = .next t ∧ t.tsq.cmds = [{ w.slotArgs slot with csn := s.tsq.lastCsn + 1 }] ∧
      t.tsq.lastCsn = s.tsq.lastCsn + 1 ∧ t.g64 b TSQ_SLOT_CSN_LO = (s.tsq.lastCsn + 1) % 2 ^ 64 ∧
      t.g b TSQ_SLOT_STAT_STATE = 1) ∧
    (s.reaches (b + TSQ_SLOT_CMD.off) v.toNat = true → s.enabled TSQ = true → idle → s.g TSQ TSQ_RCV_STAT_STATE ≠ 1 →
      w.submitReason (w.slotArgs slot) = reason → reason ≠ 0 → ∃ t, exec (.slotCmdSubmit slot v) s = .next t ∧
      t.g b TSQ_SLOT_STAT_STATE = 5 ∧ t.g b TSQ_SLOT_STAT_LAST = 2 ∧ t.g b TSQ_SLOT_STAT_REASON = reason % 16 ∧
      t.gBit TSQ IRQ_STAT 1 = true ∧ t.tsq.lastCsn = s.tsq.lastCsn) ∧
    (s.reaches (b + TSQ_SLOT_CMD.off) v.toNat = true → s.enabled TSQ = true → idle → s.g TSQ TSQ_RCV_STAT_STATE = 1 →
      ∃ t, exec (.slotCmdSubmit slot v) s = .next t ∧ t.tsq.waiting = s.tsq.waiting ++ [slot.val] ∧
      t.g b TSQ_SLOT_STAT_STATE = 1 ∧ t.tsq.cmds = s.tsq.cmds) ∧
    (s.reaches (b + TSQ_SLOT_CMD.off) v.toNat = true → ¬ idle → s.on TSQ PAGE_STAT_BAD_WRITE = false →
      ∃ t, exec (.slotCmdSubmit slot v) s = .next t ∧ t.g TSQ PAGE_STAT_BAD_CAUSE = 4 ∧
      t.g b TSQ_SLOT_STAT_STATE = s.g b TSQ_SLOT_STAT_STATE ∧ OnlyRegs [TSQ + PAGE_STAT.off] s.claimed t) ∧
    (s.tsq.cmds = [c] → c.slot = slot.val → c.posted = false → c.durable = false → c.done = none → c.op ≠ 6 →
      s.jnlAdmits s.entryBlocks = true → ∃ t, exec (.acceptDurable slot) s = .next t ∧
      t.tsq.cmds = [{ c with durable := true }] ∧ t.g b TSQ_SLOT_STAT_STATE = 2 ∧ t.nextJsn = (s.nextJsn + 1) % 2 ^ 64 ∧
      t.mem = s.mem) ∧
    (s.tsq.cmds = [c] → s.runnable slot 0 = some c → ∃ t, exec (.slotNop slot) s = .next t ∧
      t.tsq.cmds = [{ c with done := some ⟨0, 0, 0, 0⟩ }] ∧ t.g b TSQ_SLOT_STAT_STATE = 4 ∧ t.mem = s.mem) ∧
    (s.runnable slot 0 = none → ∃ t, exec (.slotNop slot) s = .next t ∧ t = s) ∧
    (s.cqRoom = true → s.tsq.replays = [] → s.tsq.cmds = [c] → c.slot = slot.val → c.posted = false → c.done = some d →
      entry.1 = .ok → ∃ t, exec (.completionPosted slot) s = .next t ∧ t.g TSQ TSQ_CQ_TAIL = inc32 tail ∧
      t.g b TSQ_SLOT_STAT_STATE = 0 ∧ t.g b TSQ_SLOT_STAT_LAST = 1 ∧ t.tsq.cmds = [{ c with posted := true }] ∧
      t.mem = entry.2.mem) ∧
    (s.cqRoom = false → ∃ t, exec (.completionPosted slot) s = .next t ∧ t = s) ∧
    (s.reaches (TSQ + TSQ_CQ_HEAD.off) v.toNat = true → (v.toNat + 2 ^ 32 - old) % 2 ^ 32 ≤ (tail + 2 ^ 32 - old) % 2 ^ 32 →
      ∃ t, exec (.cqHeadWrite v) s = .next t ∧ t.g TSQ TSQ_CQ_HEAD = v.toNat ∧ OnlyRegs [TSQ + TSQ_CQ_HEAD.off] s.claimed t) ∧
    (s.reaches (TSQ + TSQ_CQ_HEAD.off) v.toNat = true → (tail + 2 ^ 32 - old) % 2 ^ 32 < (v.toNat + 2 ^ 32 - old) % 2 ^ 32 →
      s.on TSQ PAGE_STAT_BAD_WRITE = false → ∃ t, exec (.cqHeadWrite v) s = .next t ∧ t.g TSQ PAGE_STAT_BAD_CAUSE = 4 ∧
      t.g TSQ TSQ_CQ_HEAD = old ∧ OnlyRegs [TSQ + PAGE_STAT.off] s.claimed t) ∧
    (s.reaches (TSQ + TSQ_ABORT.off) (0x100 + slot) = true → s.on TSQ TSQ_ABORT_STAT_PENDING = false → s.tsq.waiting = [] →
      s.slotCmd slot = none → ∃ t, exec (.tsqAbort slot) s = .next t ∧ t.g TSQ TSQ_ABORT_STAT_RESULT = 3 ∧
      t.gBit TSQ IRQ_STAT 2 = true ∧ RegsBut [TSQ + TSQ_ABORT_STAT.off, TSQ + IRQ_STAT.off] s t) ∧
    (s.reaches (TSQ + TSQ_ABORT.off) (0x100 + slot) = true → s.on TSQ TSQ_ABORT_STAT_PENDING = false → s.tsq.waiting = [] →
      s.tsq.cmds = [c] → c.slot = slot.val → c.posted = false → c.hsn = s.g TSQ TSQ_ABORT_HSN → c.past = false →
      ∃ t, exec (.tsqAbort slot) s = .next t ∧ t.g TSQ TSQ_ABORT_STAT_RESULT = 1 ∧ t.doneOf = [some ⟨3, 0, 0, 0⟩] ∧
      t.g b TSQ_SLOT_STAT_STATE = 4) ∧
    (s.reaches (TSQ + TSQ_ABORT.off) (0x100 + slot) = true → s.on TSQ TSQ_ABORT_STAT_PENDING = false → s.tsq.waiting = [] →
      s.tsq.cmds = [c] → c.slot = slot.val → c.posted = false → c.hsn = s.g TSQ TSQ_ABORT_HSN → c.past = true →
      ∃ t, exec (.tsqAbort slot) s = .next t ∧ t.g TSQ TSQ_ABORT_STAT_RESULT = 2 ∧ t.tsq.cmds = [c])

/-- SLOT_READ moves the blocks, from the write buffer or the store, to the buffer and ends DONE with the blocks the buffer gave.
SLOT_WRITE fetches the data, WRITE_BUFFERED of a write without FUA ends it DONE, WRITE_ENTRY_DURABLE makes its entry durable
where the journal admits it, and WRITE_APPLIED puts the data in place. SLOT_FLUSH ends DONE once every earlier write is durable
and no error was deferred, SLOT_VERIFY with nothing failed ends DONE, SLOT_JREAD of an empty journal ends DONE with COUNT 0.
SLOT_FORMAT shows FORMATTING, and FORMAT_END leaves a formatted, empty store. (R430, R437, R439, R440, R443, R444.) -/
def Obligations.TakeStoreCommandsTakeEffect : Prop :=
∀ (s : State) (slot : Fin 32) (c : TCmd), s.canonical = true →
    let b := slotBase slot
    let got := (s.activate c).gatherBlocks c
    let put := got.2.2.2.masterWrite 0x40 c.asid c.buf got.1
    let fetch := (s.activate c).masterRead 0x40 c.asid c.buf (4096 * c.count)
    let mine := s.tsq.cmds = [c] ∧ c.slot = slot.val ∧ c.posted = false ∧ c.durable = true ∧ c.done = none
    (mine → c.op = 1 → got.2.2.1 = [] → put.1 = .ok → ∃ t, exec (.slotRead slot) s = .next t ∧
      t.doneOf = [some ⟨0, 0, 0, got.2.1⟩] ∧ t.g b TSQ_SLOT_STAT_STATE = 4 ∧ t.mem = put.2.mem ∧ t.hostMem = put.2.hostMem) ∧
    (mine → c.op = 2 → c.buffered = false →
      c.started = true ∨ s.g TSQ TSQ_WB_STAT_USED + c.count ≤ 32 * s.g TSQ TSQ_WB_STAT_GRANULES → fetch.1 = .ok →
      ∃ t, exec (.slotWrite slot) s = .next t ∧ t.tsq.cmds = [{ c with started := true, data := fetch.2.1 }] ∧
      t.g b TSQ_SLOT_STAT_STATE = 3 ∧ t.mem = s.mem) ∧
    (mine → c.op = 2 → c.buffered = false → c.fua = false → c.data.length = 4096 * c.count →
      ∃ t, exec (.writeBuffered slot) s = .next t ∧ t.tsq.cmds = [{ c with buffered := true, done := some ⟨0, 0, 0, 0⟩ }] ∧
      t.g b TSQ_SLOT_STAT_STATE = 4 ∧ t.mem = s.mem) ∧
    (mine → c.op = 2 → c.buffered = false → c.fua = true → c.data.length = 4096 * c.count →
      ∃ t, exec (.writeBuffered slot) s = .next t ∧ t.tsq.cmds = [{ c with buffered := true }] ∧ t.mem = s.mem) ∧
    (s.tsq.cmds = [c] → c.op = 2 → c.fua = false → c.buffered = true → c.entry = false → c.done = some ⟨0, 0, 0, 0⟩ →
      s.jnlAdmits (c.count + 1) = true → ∃ t, exec (.writeEntryDurable c.csn false) s = .next t ∧
      t.tsq.cmds = [{ c with entry := true }] ∧ t.mem = s.mem) ∧
    (s.tsq.cmds = [c] → c.op = 2 → c.entry = true → c.applied = false → ∃ t, exec (.writeApplied c.csn) s = .next t ∧
      t.tsq.cmds = [{ c with applied := true }] ∧ t.mem = (s.hbmWrite (s.blockAddr c.blk) c.data).mem ∧
      t.hostMem = s.hostMem) ∧
    (mine → c.op = 3 → c.csn ≤ s.tsq.lastCsn + 1 → s.tsq.defSince = 0 → ∃ t, exec (.slotFlush slot) s = .next t ∧
      t.doneOf = [some ⟨0, 0, 0, 0⟩] ∧ t.g b TSQ_SLOT_STAT_STATE = 4 ∧ t.mem = s.mem) ∧
    (mine → c.op = 5 → s.anyPcOut = false → ∃ t, exec (.slotVerify slot) s = .next t ∧
      t.doneOf = [some ⟨0, 0, 2 ^ 64 - 1, 0⟩] ∧ t.g b TSQ_SLOT_STAT_STATE = 4 ∧ t.mem = s.mem) ∧
    (mine → c.op = 7 → s.tsq.jnl = [] → ∃ t, exec (.slotJread slot) s = .next t ∧ t.doneOf = [some ⟨0, 0, 0, 0⟩] ∧
      t.g b TSQ_SLOT_STAT_STATE = 4) ∧
    (mine → c.op = 6 → ∃ t, exec (.slotFormat slot) s = .next t ∧ t.g TSQ TSQ_STORE_STAT_FORMATTING = 1 ∧
      t.g b TSQ_SLOT_STAT_STATE = 3 ∧ t.tsq.cmds = [{ c with started := true }] ∧
      OnlyRegs [TSQ + TSQ_STORE_STAT.off, b + TSQ_SLOT_STAT.off] { s with tsq := t.tsq } t) ∧
    (mine → c.op = 6 → c.started = true → ∃ t, exec .formatEnd s = .next t ∧ t.g TSQ TSQ_STORE_STAT = 1 ∧
      t.g TSQ TSQ_RCV_STAT_STATE = 2 ∧ t.tsq.hdr = some s.headerRegs ∧ t.tsq.areas = List.replicate 4 ⟨0, 0, 0, 0, 0, []⟩ ∧
      t.doneOf = [some ⟨0, 0, 0, 0⟩] ∧ t.g b TSQ_SLOT_STAT_STATE = 4)

/-- A write of an area's base or length takes effect while its ingest stands still, the area is empty and the layout holds,
which empties its positions; while the ingest is enabled it is refused with cause 4. TSQ_PWR_TARGET starts a transition and
TSQ_PWR_REACHED ends it with interrupt 5; RETAIN is refused while an ingest runs; TSQ_IDLE_TIMER of an idle store with AUTO asks
for state 1. RECOVERY_END ends READY with a header that agrees, FAILED where none can be read. JOURNAL_RECLAIM frees the oldest
block; DEF_POP takes the oldest deferred error and DEF_CLR_OVF clears OVERFLOW. (R414, R415, R427, R449-R452, R455, R457.) -/
def Obligations.TakeStorePowerAreasAndJournal : Prop :=
∀ (s : State) (h : Fin 4) (len : Bool) (v : Word) (blk : JBlock) (rest : List JBlock) (tgt : Nat) (readable : Bool),
    s.canonical = true →
    let a := s.area h
    let new := if len then { a with len := v.toNat } else { a with base := v.toNat }
    let off := TSQ + 0x200 + 0x20 * h + (if len then 4 else 0)
    let layout := upd (s.tsq.areas.map (fun x => (x.base, x.len))) h (fun _ => (new.base, new.len))
    (s.reaches off v.toNat = true → s.enabled (ING h) = false → s.busy (ING h) = false → a.head = a.tail →
      s.layoutOk layout = true → ∃ t, exec (.areaWrite h len v) s = .next t ∧
      t.tsq.areas = upd s.tsq.areas h (fun _ => { new with head := 0, tail := 0, placement := 0, frames := [] }) ∧
      t.nextJsn = (s.nextJsn + 1) % 2 ^ 64 ∧ t.mem = s.mem) ∧
    (s.reaches off v.toNat = true → s.enabled (ING h) = true → s.on TSQ PAGE_STAT_BAD_WRITE = false →
      ∃ t, exec (.areaWrite h len v) s = .next t ∧ t.g TSQ PAGE_STAT_BAD_CAUSE = 4 ∧
      OnlyRegs [TSQ + PAGE_STAT.off] s.claimed t) ∧
    (s.reaches (TSQ + TSQ_PWR.off) v.toNat = true → fld v.toNat 0 2 ≠ 2 → fld v.toNat 0 2 ≠ s.g TSQ TSQ_PWR_STAT_NOW →
      s.tsq.pwrMove = none → ∃ t, exec (.tsqPwrTarget v) s = .next t ∧ t.g TSQ TSQ_PWR_TARGET = fld v.toNat 0 2 ∧
      t.g TSQ TSQ_PWR_STAT_MOVING = 1 ∧ t.tsq.pwrMove = some (fld v.toNat 0 2) ∧
      RegsBut [TSQ + TSQ_PWR.off, TSQ + TSQ_PWR_STAT.off] s t) ∧
    (s.reaches (TSQ + TSQ_PWR.off) v.toNat = true → fld v.toNat 0 2 = 2 → s.anyIngestLive = true →
      s.on TSQ PAGE_STAT_BAD_WRITE = false → ∃ t, exec (.tsqPwrTarget v) s = .next t ∧ t.g TSQ PAGE_STAT_BAD_CAUSE = 4 ∧
      t.g TSQ TSQ_PWR_TARGET = s.g TSQ TSQ_PWR_TARGET) ∧
    (s.tsq.pwrMove = some tgt → s.g TSQ TSQ_PWR_TARGET = tgt → tgt ≠ 2 ∨ s.g TSQ TSQ_WB_STAT_USED = 0 →
      ∃ t, exec .tsqPwrReached s = .next t ∧ t.g TSQ TSQ_PWR_STAT_NOW = tgt ∧ t.g TSQ TSQ_PWR_STAT_MOVING = 0 ∧
      t.tsq.pwrMove = none ∧ t.gBit TSQ IRQ_STAT 5 = true ∧ RegsBut [TSQ + TSQ_PWR_STAT.off, TSQ + IRQ_STAT.off] s t) ∧
    (s.on TSQ TSQ_PWR_AUTO = true → s.g TSQ TSQ_PWR_STAT_NOW = 0 → s.tsq.pwrMove = none →
      (List.range 32).all (fun n => s.g (slotBase n) TSQ_SLOT_STAT_STATE == 0) = true → ∃ t, exec .tsqIdleTimer s = .next t ∧
      t.g TSQ TSQ_PWR_TARGET = 1 ∧ t.tsq.pwrMove = some 1 ∧ t.g TSQ TSQ_PWR_STAT_MOVING = 1 ∧
      RegsBut [TSQ + TSQ_PWR.off, TSQ + TSQ_PWR_STAT.off] s t) ∧
    (s.g TSQ TSQ_RCV_STAT_STATE = 1 → ∃ t, exec (.recoveryEnd false) s = .next t ∧ t.g TSQ TSQ_RCV_STAT_STATE = 3 ∧
      t.gBit TSQ IRQ_STAT 4 = true ∧ t.mem = s.mem) ∧
    (s.g TSQ TSQ_RCV_STAT_STATE = 1 → s.on TOP TOP_RESET_CAUSE_STORE_LOST = false → s.tsq.hdr = some s.headerRegs →
      s.tsq.cmds = [] → s.tsq.waiting = [] → s.tsq.fromCold = false → s.on TSQ TSQ_ABORT_STAT_PENDING = false →
      ∃ t, exec (.recoveryEnd true) s = .next t ∧ t.g TSQ TSQ_RCV_STAT_STATE = 2 ∧ t.g TSQ TSQ_STORE_STAT_FORMATTED = 1 ∧
      t.g TSQ TSQ_STORE_STAT_GEOM_MISMATCH = 0 ∧ t.gBit TSQ IRQ_STAT 4 = true ∧ t.mem = s.mem) ∧
    (s.g TSQ TSQ_RCV_STAT_STATE ≠ 1 → ∃ t, exec (.recoveryEnd readable) s = .next t ∧ t = s) ∧
    (s.tsq.jnl = blk :: rest → blk.entries = [] → blk.data = none → s.tsq.abnWait = [] →
      ∃ t, exec .journalReclaim s = .next t ∧ t.tsq.jnl = rest ∧ t.nextJsn = s.nextJsn ∧
      t.g TSQ TSQ_JNL_FREE = (s.jnlCapacity - rest.length) % 2 ^ 32) ∧
    (s.reaches (TSQ + TSQ_DEF_CTRL.off) 1 = true → ∃ t, exec .defPop s = .next t ∧
      t.tsq = { s.tsq with defLog := s.tsq.defLog.drop 1 } ∧ t.g TSQ TSQ_DEF_STAT_COUNT = (s.tsq.defLog.drop 1).length % 32 ∧
      RegsBut [TSQ + TSQ_DEF_STAT.off] s t) ∧
    (s.reaches (TSQ + TSQ_DEF_CTRL.off) 2 = true → ∃ t, exec .defClrOvf s = .next t ∧ t.g TSQ TSQ_DEF_STAT_OVERFLOW = 0 ∧
      t.tsq = s.tsq ∧ OnlyRegs [TSQ + TSQ_DEF_STAT.off] s.claimed t)

/-- PLAN_CHECK and PLAN_ACTIVATE of an idle Sump start a check, the second of them to be followed by an activation; either is
refused with cause 4 while one runs. PLAN_CHECK_END of a check alone gives SMP_CHECK and LAST_OK what R356 finds and ends it
with interrupt 0, and the plan in force stays. PLAN_ACTIVATE_END leaves powered the groups that the plan uses. SUMP_SCRUB_PASS
counts the pass and the words it corrected. SUMP_REMAP_TAKEUP and WRBUF_REBUILD_END take the replacement into use with interrupt
3. (R342, R343, R355-R358, R362.) -/
def Obligations.SumpPlansAreCheckedAndActivated : Prop :=
∀ (s : State) (corrected bank k : Nat) (granule : Fin 192) (r : SRec), s.canonical = true →
    let f := s.sumpCheck (s.g64 SMP SMP_PLAN_BASE_LO_REG) (s.planImage (s.g64 SMP SMP_PLAN_BASE_LO_REG)) false
    (s.reaches (SMP + SMP_PLAN_CTRL.off) 1 = true → s.g SMP SMP_PLAN_STAT_STATE = 0 → ∃ t, exec .planCheck s = .next t ∧
      t.g SMP SMP_PLAN_CTRL = 1 ∧ t.g SMP SMP_PLAN_STAT_STATE = 1 ∧
      t.sump = { s.sump with late := [], activating := false } ∧
      RegsBut [SMP + SMP_PLAN_CTRL.off, SMP + SMP_PLAN_STAT.off] s t) ∧
    (s.reaches (SMP + SMP_PLAN_CTRL.off) 1 = true → s.g SMP SMP_PLAN_STAT_STATE ≠ 0 → s.on SMP PAGE_STAT_BAD_WRITE = false →
      ∃ t, exec .planCheck s = .next t ∧ t.g SMP PAGE_STAT_BAD_CAUSE = 4 ∧ OnlyRegs [SMP + PAGE_STAT.off] s.claimed t) ∧
    (s.reaches (SMP + SMP_PLAN_CTRL.off) 2 = true → s.g SMP SMP_PLAN_STAT_STATE = 0 → ∃ t, exec .planActivate s = .next t ∧
      t.g SMP SMP_PLAN_CTRL = 2 ∧ t.g SMP SMP_PLAN_STAT_STATE = 1 ∧ t.sump = { s.sump with late := [], activating := true } ∧
      RegsBut [SMP + SMP_PLAN_CTRL.off, SMP + SMP_PLAN_STAT.off] s t) ∧
    (s.g SMP SMP_PLAN_STAT_STATE = 1 → s.sump.activating = false → ∃ t, exec .planCheckEnd s = .next t ∧
      t.g SMP SMP_CHECK_REASON = f.reason % 16 ∧ t.g SMP SMP_PLAN_STAT_LAST_OK = b2n (f.reason == 0) ∧
      t.g SMP SMP_PLAN_STAT_STATE = 0 ∧ t.g SMP SMP_PLAN_CTRL = 0 ∧ t.gBit SMP IRQ_STAT 0 = true ∧
      t.sump = { s.sump with late := [] }) ∧
    (s.g SMP SMP_PLAN_STAT_STATE ≠ 1 → ∃ t, exec .planCheckEnd s = .next t ∧ t = s) ∧
    (s.g SMP SMP_PLAN_STAT_STATE = 2 → s.sump.late = [] → ∃ t, exec .planActivateEnd s = .next t ∧
      t.g SMP SMP_PLAN_STAT_STATE = 0 ∧ t.g SMP SMP_PLAN_CTRL = 0 ∧ t.g SMP SMP_GROUP_PWR = s.groupsUsed % 2 ^ 24 ∧
      t.gBit SMP IRQ_STAT 1 = true ∧ t.sump = { s.sump with activating := false }) ∧
    (∃ t, exec (.sumpScrubPass corrected none) s = .next t ∧ t.g SMP SMP_SCRUB = (s.g SMP SMP_SCRUB + 1) % 2 ^ 16 ∧
      t.g SMP SMP_ECC_CNT_CORRECTED = min (s.g SMP SMP_ECC_CNT_CORRECTED + corrected) (2 ^ 16 - 1) ∧
      OnlyRegs [SMP + SMP_SCRUB.off, SMP + SMP_ECC_CNT.off] s t) ∧
    (s.sump.pend = [(k, bank, granule.val)] → nth ⟨0, 0, 0, 0, 0, []⟩ s.sump.recs k = r → r.kind = 1 →
      ∃ t, exec (.sumpRemapTakeup granule) s = .next t ∧ t.sump.pend = [] ∧ t.g SMP SMP_STAT_REMAP_PEND = 0 ∧
      t.gBit SMP IRQ_STAT 3 = true ∧ RegsBut [SMP + SMP_STAT.off, SMP + IRQ_STAT.off] s t) ∧
    (s.sump.pend = [] → ∃ t, exec (.sumpRemapTakeup granule) s = .next t ∧ t = s) ∧
    (s.sump.pend = [(k, bank, granule.val)] → nth ⟨0, 0, 0, 0, 0, []⟩ s.sump.recs k = r → r.kind = 8 →
      ∃ t, exec (.wrbufRebuildEnd granule) s = .next t ∧ t.sump.pend = [] ∧ t.gBit TSQ FAULT_SUM 2 = false ∧
      t.gBit SMP IRQ_STAT 3 = true ∧
      RegsBut [SMP + SMP_STAT.off, SMP + IRQ_STAT.off, TSQ + FAULT_SUM.off, TSQ + PAGE_STAT.off] s t)

/-- HBM_PLAN_APPLY of a plan that R466 passes sets APPLYING, of another gives REASON and REGION with interrupt 5, and is refused
while one is applied; HBM_PLAN_DRAINED installs the plan, and ZEROING_END ends it. REFRESH_DUE with a real-time request queued
postpones and counts, with nothing queued pays the debt. HBM_SCRUB of a corrected unit counts it. SPARING_END logs the
pseudo-channel with its slot. PC_OFFLINE takes one pseudo-channel at most out of service, PC_OFFLINE_DRAINED says so, PC_ONLINE
brings it back, and DECLARE_FAILED marks it failed. (R466, R467, R472, R477-R481, R486.) -/
def Obligations.HbmPlansRefreshScrubAndSparing : Prop :=
∀ (s : State) (g : Fin 256) (bank : Fin 64) (row : Nat) (unit : Fin 32) (k : Fin 4) (pc : Fin 64) (n slot : Nat) (verifyFails
    : Bool), s.canonical = true →
    let b := HBM 0
    let found := s.claimed.planCheck s.claimed.regionRegs
    let key := 64 * g.val + bank.val
    let debt := Sparse.get (fun _ => 0) s.hbm.debt key
    let gb := HBM (g.val / 64)
    let used := s.g b HBM_SPARE_STAT_USED
    let off := HBM k + HBM_PC_CTRL.off
    (s.reaches (b + HBM_PLAN_CTRL.off) 1 = true → s.g b HBM_PLAN_STAT_STATE = 0 → found.1 = 0 →
      ∃ t, exec .hbmPlanApply s = .next t ∧ t.g b HBM_PLAN_STAT_STATE = 1 ∧ t.g b HBM_PLAN_STAT_LAST_OK = 1 ∧
      t.g b HBM_PLAN_CTRL_APPLY = 1 ∧ t.g b HBM_PLAN_STAT_NO_SLOT = b2n (noSlot s.regionRegs) ∧
      OnlyRegs [b + HBM_PLAN_CTRL.off, b + HBM_PLAN_STAT.off, b + FAULT_SUM.off, b + PAGE_STAT.off] s.claimed t) ∧
    (s.reaches (b + HBM_PLAN_CTRL.off) 1 = true → s.g b HBM_PLAN_STAT_STATE = 0 → found.1 ≠ 0 →
      ∃ t, exec .hbmPlanApply s = .next t ∧ t.g b HBM_PLAN_STAT_STATE = 0 ∧ t.g b HBM_PLAN_STAT_LAST_OK = 0 ∧
      t.g b HBM_PLAN_STAT_REASON = found.1 ∧ t.g b HBM_PLAN_STAT_REGION = found.2 ∧ t.gBit b IRQ_STAT 5 = true ∧
      RegsBut [b + HBM_PLAN_STAT.off, b + IRQ_STAT.off] s t) ∧
    (s.reaches (b + HBM_PLAN_CTRL.off) 1 = true → s.g b HBM_PLAN_STAT_STATE ≠ 0 → s.on b PAGE_STAT_BAD_WRITE = false →
      ∃ t, exec .hbmPlanApply s = .next t ∧ t.g b PAGE_STAT_BAD_CAUSE = 4 ∧ OnlyRegs [b + PAGE_STAT.off] s.claimed t) ∧
    (s.g b HBM_PLAN_STAT_STATE = 1 → ∃ t, exec .hbmPlanDrained s = .next t ∧ t.hbm.plan = s.regionRegs ∧
      t.hbm.prior = s.regionRegs ∧ t.hostMem = s.hostMem) ∧
    (s.g b HBM_PLAN_STAT_STATE = 2 → ∃ t, exec .zeroingEnd s = .next t ∧ t.g b HBM_PLAN_STAT_STATE = 0 ∧
      t.g b HBM_PLAN_CTRL_APPLY = 0 ∧ t.hbm = { s.hbm with zeroing := [] } ∧ t.gBit b IRQ_STAT 5 = true ∧
      RegsBut [b + HBM_PLAN_CTRL.off, b + HBM_PLAN_STAT.off, b + IRQ_STAT.off] s t) ∧
    (debt < 7 → ∃ t, exec (.refreshDue g bank 2) s = .next t ∧
      t.g gb HBM_REF_CNT_POSTPONED = min (s.g gb HBM_REF_CNT_POSTPONED + 1) (2 ^ 16 - 1) ∧
      t.hbm = { s.hbm with debt := Sparse.put (fun _ => 0) s.hbm.debt key (debt + 1) } ∧ RegsBut [gb + HBM_REF_CNT.off] s t) ∧
    (7 ≤ debt → ∃ t, exec (.refreshDue g bank 2) s = .next t ∧
      t.g gb HBM_REF_CNT_FORCED = min (s.g gb HBM_REF_CNT_FORCED + 1) (2 ^ 16 - 1) ∧
      t.hbm = { s.hbm with debt := Sparse.put (fun _ => 0) s.hbm.debt key 7 }) ∧
    (∃ t, exec (.refreshDue g bank 0) s = .next t ∧
      t = { s with hbm := { s.hbm with debt := Sparse.put (fun _ => 0) s.hbm.debt key 0 } }) ∧
    (s.pcOut g = false → s.g gb HBM_SCRUB_CFG_PERIOD ≠ 0 → ∃ t, exec (.hbmScrub g bank row unit 1 verifyFails) s = .next t ∧
      t.g gb HBM_ECC_CNT_CORRECTED = min (s.g gb HBM_ECC_CNT_CORRECTED + 1) (2 ^ 16 - 1) ∧
      RegsBut [gb + HBM_ECC_CNT.off] s t) ∧
    (s.hbm.sparing = some (n, slot) → s.hbm.waiting = [] → n < 256 → slot < 16 → used < 8 →
      ∃ t, exec .sparingEnd s = .next t ∧ t.g (b + 4 * used) HBM_SPARE_LOG_G = n ∧
      t.g (b + 4 * used) HBM_SPARE_LOG_SLOT = slot ∧ t.g (b + 4 * used) HBM_SPARE_LOG_VALID = 1 ∧
      t.g b HBM_SPARE_STAT_USED = used + 1 ∧ t.g b HBM_SPARE_STAT_SPARING = 0 ∧ t.hbm = { s.hbm with sparing := none } ∧
      t.gBit b IRQ_STAT 2 = true) ∧
    (s.reaches off (0x100 + pc) = true → s.hbm.offline = none → s.hbm.sparing = none → s.hbm.waiting = [] →
      s.g b HBM_SPARE_STAT_UNSPARED = 0 → ∃ t, exec (.pcOffline k pc) s = .next t ∧
      t.hbm = { s.hbm with offline := some (64 * k.val + pc.val) } ∧ t.g (HBM k) HBM_STAT_OFFLINE_PC = pc.val ∧
      t.g (HBM k) HBM_STAT_OFFLINE = 0 ∧ RegsBut [HBM k + HBM_STAT.off] s t) ∧
    (s.reaches off (0x100 + pc) = true → s.hbm.offline = some n → n ≠ 64 * k.val + pc.val →
      s.on (HBM k) PAGE_STAT_BAD_WRITE = false → ∃ t, exec (.pcOffline k pc) s = .next t ∧
      t.g (HBM k) PAGE_STAT_BAD_CAUSE = 4 ∧ t.hbm.offline = some n ∧ OnlyRegs [HBM k + PAGE_STAT.off] s.claimed t) ∧
    (s.reaches off (0x200 + pc) = true → s.hbm.offline = some (64 * k.val + pc.val) →
      ∃ t, exec (.pcOnline k pc) s = .next t ∧ t.hbm = { s.hbm with offline := none } ∧ t.g (HBM k) HBM_STAT_OFFLINE = 0 ∧
      RegsBut [HBM k + HBM_STAT.off] s t) ∧
    (s.hbm.offline = some (64 * k.val + pc.val) → ∃ t, exec (.pcOfflineDrained k) s = .next t ∧
      t.g (HBM k) HBM_STAT_OFFLINE = 1 ∧ OnlyRegs [HBM k + HBM_STAT.off] s t) ∧
    (s.reaches off (0x300 + pc) = true → ∃ t, exec (.declareFailed k pc) s = .next t ∧
      t.pcFailed (64 * k.val + pc.val) = true)

/-- HBM_WAKE takes the stack out of self-refresh and HBM_WAKE_DONE ends it; HBM_GO of a stack that has woken sets READY and is
refused with cause 4 before. HELPER_RUN_START before READY starts the helper, and HELPER_RUN_END gives its lanes and errors with
interrupt 4. A write of HBM_TRN_DLY moves the delay that it names. HBM_CAL_UPDATE moves a delay, and records a drift of more
than eight steps with interrupt 3. (R473, R483, R485, R486, R488.) -/
def Obligations.HbmWakesTrainsAndCalibrates : Prop :=
∀ (s : State) (k : Fin 4) (lanes errors lane m : Nat) (v : Word) (g : Fin 256) (kind : Fin 3), s.canonical = true →
    let b := HBM k
    let gb := HBM (g.val / 64)
    let key := delayKey g kind lane
    let trained := Sparse.get (fun _ => 0) s.hbm.trained key
    let ca := delayKey (s.trnSel k) 0 0
    (s.reaches (b + HBM_CTRL.off) 1 = true → ∃ t, exec (.hbmWake k) s = .next t ∧ t.g b HBM_CTRL_WAKE = 1 ∧
      t.g b HBM_STAT_IN_SR = 0 ∧ OnlyRegs [b + HBM_CTRL.off, b + HBM_STAT.off] s.claimed t) ∧
    (s.on b HBM_CTRL_WAKE = true → ∃ t, exec (.hbmWakeDone k) s = .next t ∧ t.g b HBM_CTRL_WAKE = 0 ∧
      t.hbm = { s.hbm with woken := upd s.hbm.woken k (fun _ => true) } ∧ RegsBut [b + HBM_CTRL.off] s t) ∧
    (s.reaches (b + HBM_CTRL.off) 2 = true → nth false s.hbm.woken k = true → s.on b HBM_CTRL_WAKE = false →
      ∃ t, exec (.hbmGo k) s = .next t ∧ t.g b HBM_CTRL_GO = 1 ∧ t.g b HBM_STAT_READY = 1 ∧
      OnlyRegs [b + HBM_CTRL.off, b + HBM_STAT.off] s.claimed t) ∧
    (s.reaches (b + HBM_CTRL.off) 2 = true → nth false s.hbm.woken k = false → s.on b PAGE_STAT_BAD_WRITE = false →
      ∃ t, exec (.hbmGo k) s = .next t ∧ t.g b PAGE_STAT_BAD_CAUSE = 4 ∧ t.g b HBM_STAT_READY = s.g b HBM_STAT_READY ∧
      OnlyRegs [b + PAGE_STAT.off] s.claimed t) ∧
    (s.reaches (b + HBM_TRN_RUN.off) 1 = true → s.on b HBM_TRN_RUN_START = false → s.on b HBM_STAT_READY = false →
      ∃ t, exec (.helperRunStart k) s = .next t ∧ t.g b HBM_TRN_RUN_START = 1 ∧ t.g b HBM_TRN_STAT_DONE = 0 ∧
      t.g b HBM_TRN_STAT_ABORTED = 0 ∧ t.hbm = { s.hbm with helper := upd s.hbm.helper k (fun _ => some (s.trnSel k)) } ∧
      RegsBut [b + HBM_TRN_RUN.off, b + HBM_TRN_STAT.off] s t) ∧
    (s.on b HBM_TRN_RUN_START = true → ∃ t, exec (.helperRunEnd k lanes errors) s = .next t ∧
      t.g b HBM_TRN_ERR_LO = lanes % 2 ^ 32 ∧ t.g b HBM_TRN_ERR_HI = lanes / 2 ^ 32 % 64 ∧
      t.g b HBM_TRN_CNT = min errors (2 ^ 32 - 1) ∧ t.g b HBM_TRN_RUN_START = 0 ∧ t.g b HBM_TRN_STAT_DONE = 1 ∧
      t.gBit b IRQ_STAT 4 = true ∧
      RegsBut [b + HBM_TRN_ERR_LO.off, b + HBM_TRN_ERR_HI.off, b + HBM_TRN_CNT.off, b + HBM_TRN_RUN.off, b +
        HBM_TRN_STAT.off, b + IRQ_STAT.off] s t) ∧
    (s.reaches (b + HBM_TRN_DLY.off) v.toNat = true → fld v.toNat 6 2 = 0 → ∃ t, exec (.trnDelayWrite k v) s = .next t ∧
      t.g b HBM_TRN_DLY_VALUE = fld v.toNat 8 7 ∧
      t.hbm.trained = Sparse.put (fun _ => 0) s.hbm.trained ca (fld v.toNat 8 7) ∧
      t.hbm.delays = Sparse.put (fun _ => 0) s.hbm.delays ca (fld v.toNat 8 7) ∧ t.hbm.plan = s.hbm.plan ∧
      RegsBut [b + HBM_TRN_DLY.off] s t) ∧
    (s.pcOut g = false → m ≤ 127 → m ≤ trained + 8 → trained ≤ m + 8 →
      ∃ t, exec (.hbmCalUpdate g kind [(lane, m)]) s = .next t ∧
      t = { s with hbm := { s.hbm with delays := Sparse.put (fun _ => 0) s.hbm.delays key m } }) ∧
    (s.pcOut g = false → m ≤ 127 → trained + 8 < m → ∃ t, exec (.hbmCalUpdate g kind [(lane, m)]) s = .next t ∧
      t.hbm = { s.hbm with delays := Sparse.put (fun _ => 0) s.hbm.delays key m } ∧ t.g gb HBM_CAL_STAT_VALID = 1 ∧
      t.g gb HBM_CAL_STAT_PC = g.val % 64 ∧ t.g gb HBM_CAL_STAT_LANE = lane % 64 ∧ t.gBit gb IRQ_STAT 3 = true ∧
      RegsBut [gb + HBM_CAL_STAT.off, gb + IRQ_STAT.off] s t)

/-- A write of GCX_PROD that keeps the ring within its size sets it, one beyond it is refused with cause 4. GCX_JOB_START takes
the descriptor at GCX_CONS, a bad one already ended BAD_DESC, and does nothing on an empty ring. COMPRESS of a job whose stream
fits writes it and ends DONE with the whole input consumed; one that does not fit ends OUT_FULL. DECOMPRESS of a whole stream
writes its output and ends DONE; CONTINUE without a saved position ends NO_STATE. GCX_JOB_END writes the completion at GCX_DONE
and moves on. A page request pauses an undone job with interrupt 2, shedding sets SHED. GCX_ABORT marks an undone job, and
without a job sets ABORT_IDLE. (R394-R404, R407.) -/
def Obligations.CompressorRunsJobs : Prop :=
∀ (s : State) (v : Word) (j : GcxJob) (d : Nat × Nat × Nat × Nat × Nat) (sump : Option (Fin 192 × Nat × Bool)), s.canonical =
    true →
    let at_ := s.g GCX GCX_CONS
    let fetch := s.masterRead 0x38 (s.g GCX GCX_RING_CFG_ASID) (s.g64 GCX GCX_RING_LO_REG + 64 * (at_ % s.gcxSize)) 64
    let desc := gcxParse fetch.2.1
    let bad := gcxBad desc (ofLe (fetch.2.1.drop 53))
    let input := s.masterRead 0x38 j.asid j.src j.srcLen
    let z := gcxCompressed j (zstdWindow j.level input.2.2.gcxWindow) input.2.1
    let put := input.2.2.masterWrite 0x38 j.asid j.dst z.1
    let fill := input.2.2.gcxUndefined j.asid j.dst j.outLen
    let r := gcxDecode j.format (bitOf j.flags 1) input.2.2.gcxWindow (min j.outLen j.limit) input.2.1
    let out := r.1.out.toList
    let put2 := input.2.2.masterWrite 0x38 j.asid j.dst out
    let n := s.g GCX GCX_DONE
    let post := s.masterWrite 0x38 (s.g GCX GCX_RING_CFG_ASID) (s.g64 GCX GCX_CPL_LO_REG + 32 * (n % s.gcxSize)) (gcxCompletion j.seq d)
    (s.reaches (GCX + GCX_PROD.off) v.toNat = true → (v.toNat % 65536 + 65536 - n) % 65536 ≤ s.gcxSize →
      ∃ t, exec (.gcxProdWrite v) s = .next t ∧ t.g GCX GCX_PROD = v.toNat % 65536 ∧
      OnlyRegs [GCX + GCX_PROD.off] s.claimed t) ∧
    (s.reaches (GCX + GCX_PROD.off) v.toNat = true → s.gcxSize < (v.toNat % 65536 + 65536 - n) % 65536 →
      s.on GCX PAGE_STAT_BAD_WRITE = false → ∃ t, exec (.gcxProdWrite v) s = .next t ∧ t.g GCX PAGE_STAT_BAD_CAUSE = 4 ∧
      t.g GCX GCX_PROD = s.g GCX GCX_PROD ∧ OnlyRegs [GCX + PAGE_STAT.off] s.claimed t) ∧
    (s.enabled GCX = true → s.gcx.job = none → s.on GCX GCX_STAT_SHED = false → at_ ≠ s.g GCX GCX_PROD → fetch.1 = .ok →
      ∃ t, exec .gcxJobStart s = .next t ∧ t.gcx.job = some (if bad then desc.ends 2 1 0 0 0 else desc) ∧
      t.g GCX GCX_CONS = (at_ + 1) % 65536 ∧ t.g GCX GCX_STAT_RUNNING = 1 ∧ t.mem = s.mem) ∧
    (at_ = s.g GCX GCX_PROD → ∃ t, exec .gcxJobStart s = .next t ∧ t = s) ∧
    (s.gcxReady 1 = some j → input.1 = .ok → z.1.length ≤ j.outLen → put.1 = .ok → ∃ t, exec .gcxCompress s = .next t ∧
      t.gcx.job = some (j.ends 0 0 j.srcLen z.1.length z.2) ∧ t.g GCX GCX_STAT_PAUSED = 0 ∧ t.mem = put.2.mem ∧
      t.hostMem = put.2.hostMem) ∧
    (s.gcxReady 1 = some j → input.1 = .ok → j.outLen < z.1.length → fill.1 = .ok → ∃ t, exec .gcxCompress s = .next t ∧
      t.gcx.job.map (fun k => k.done.map (fun x => (x.1, x.2.1, x.2.2.2.1, x.2.2.2.2))) = some (some (1, 0, j.outLen, 0)) ∧
      t.gcx.job.all (fun k => k.done.all (fun x => decide (x.2.2.1 ≤ j.srcLen))) = true ∧ t.mem = fill.2.mem ∧
      t.hostMem = fill.2.hostMem) ∧
    (s.gcxReady 2 = some j → input.1 = .ok → r.1.st = .ended → out ≠ [] → put2.1 = .ok →
      ∃ t, exec .gcxDecompress s = .next t ∧ t.gcx.job = some (j.ends 0 0 (cdiv r.1.pos 8) out.length r.2) ∧
      t.g GCX GCX_STAT_PAUSED = 0 ∧ t.mem = put2.2.mem ∧ t.hostMem = put2.2.hostMem) ∧
    (s.gcxReady 2 = some j → input.1 = .ok → r.1.st = .ended → out = [] → ∃ t, exec .gcxDecompress s = .next t ∧
      t.gcx.job = some (j.ends 0 0 (cdiv r.1.pos 8) 0 r.2) ∧ t.mem = s.mem) ∧
    (s.gcxReady 3 = some j → s.gcx.saved = [] → ∃ t, exec .gcxContinue s = .next t ∧ t.gcx.job = some (j.ends 2 11 0 0 0) ∧
      t.mem = s.mem) ∧
    (s.gcx.job = some j → j.done = some d → post.1 = .ok → ∃ t, exec .gcxJobEnd s = .next t ∧ t.gcx.job = none ∧
      t.g GCX GCX_DONE = (n + 1) % 65536 ∧ t.g GCX GCX_STAT_RUNNING = 0 ∧ (d.1 ≠ 0 → t.gBit GCX IRQ_STAT 1 = true) ∧
      t.mem = post.2.mem ∧ t.hostMem = post.2.hostMem) ∧
    (s.gcx.job = some j → j.done = none → s.on GCX GCX_STAT_PAUSED = false → ∃ t, exec (.gcxPause 0 sump) s = .next t ∧
      t.g GCX GCX_STAT_PAUSED = 1 ∧ t.gBit GCX IRQ_STAT 2 = true ∧ t.gcx.job = some j ∧
      RegsBut [GCX + GCX_STAT.off, GCX + IRQ_STAT.off] s t) ∧
    (s.gcx.job = none → ∃ t, exec (.gcxPause 2 sump) s = .next t ∧ t.g GCX GCX_STAT_SHED = 1 ∧
      OnlyRegs [GCX + GCX_STAT.off] s t) ∧
    (s.reaches (GCX + GCX_CTRL.off) 1 = true → s.gcx.job = none → ∃ t, exec .gcxAbort s = .next t ∧
      t.g GCX GCX_STAT_ABORT_IDLE = 1 ∧ OnlyRegs [GCX + GCX_STAT.off] s.claimed t) ∧
    (s.reaches (GCX + GCX_CTRL.off) 1 = true → s.gcx.job = some j → j.done = none → ∃ t, exec .gcxAbort s = .next t ∧
      t.g GCX GCX_CTRL_ABORT = 1 ∧ t.g GCX GCX_STAT_ABORT_IDLE = 0 ∧ t.gcx.job = some j ∧
      OnlyRegs [GCX + GCX_STAT.off, GCX + GCX_CTRL.off] s.claimed t)

/-- CTX_CFG is written freely while its context stays OFF. A context that runs is turned OFF only when every job is complete,
which empties it; any other write is refused with cause 4 and keeps MODE, and so is a start that breaks a rule, with the rule in
CTX_CHECK. CTX_SUBMIT of a descriptor that breaks no rule accepts the job at CTX_NEXT_SEQ; of one that breaks a rule reports
REFUSED, the reason and interrupt 1. CTX_PB_RET gives the named buffers back. A DRAIN outputs every picture left and is decided
DONE. CODEC_JOB_END posts the oldest decided job at the tail of its ring. A source that waits too long fails its job with DETAIL
3 and interrupt 3. CTX_ABORT without a job is a MISS, and it ends a job that no engine serves ABORTED. (R500-R502, R504-R508,
R514, R522.) -/
def Obligations.CodecContextsTakeAndEndJobs : Prop :=
∀ (s : State) (c : Fin 64) (value : Word) (j : CodJob) (r : Nat), s.canonical = true →
    let b := ctxBase c
    let v := value.toNat
    let w := s.claimed.p b CTX_SUBMIT_STAT_PENDING 1
    let fetch := w.masterRead 0x34 (w.g b CTX_CFG_ASID) (w.g64 b CTX_SUBMIT_LO_REG) 128
    let u := fetch.2.2
    let new := newJob (u.g b CTX_NEXT_SEQ) fetch.2.1 (u.cx c).projected u.cod.acc u.time.ms
    let tail := s.g b CTX_CPL_TAIL
    let size := 2 ^ s.g b CTX_CPL_CFG_CPL_LOG2
    let post := s.masterWrite 0x34 (s.g b CTX_CPL_CFG_ASID) (s.g64 b CTX_CPL_LO_REG + 64 * (tail % size)) (s.codRecord c j (j.unit.elim [] (fun x => x.out)))
    let whole := s.cod.ctx.length = 64
    (s.reaches (b + CTX_CFG.off) v = true → s.g b CTX_CFG_MODE = 0 → fld v 0 2 = 0 →
      ∃ t, exec (.ctxModeWrite c value) s = .next t ∧ t.g b CTX_CFG_MODE = 0 ∧ t.g b CTX_CFG_PRI = fld v 4 2 ∧
      OnlyRegs [b + CTX_CFG.off] s.claimed t) ∧
    (s.reaches (b + CTX_CFG.off) v = true → s.g b CTX_CFG_MODE ≠ 0 → fld v 0 2 = 0 →
      s.g b CTX_NEXT_SEQ = s.g b CTX_DONE_SEQ → whole → ∃ t, exec (.ctxModeWrite c value) s = .next t ∧
      t.g b CTX_CFG_MODE = 0 ∧ t.cx c = CodCtx.init ∧ t.mem = s.mem) ∧
    (s.reaches (b + CTX_CFG.off) v = true → s.g b CTX_CFG_MODE ≠ 0 →
      fld v 0 2 ≠ 0 ∨ s.g b CTX_NEXT_SEQ ≠ s.g b CTX_DONE_SEQ → s.on CTX4 PAGE_STAT_BAD_WRITE = false →
      ∃ t, exec (.ctxModeWrite c value) s = .next t ∧ t.g b CTX_CFG_MODE = s.g b CTX_CFG_MODE ∧
      t.g CTX4 PAGE_STAT_BAD_CAUSE = 4 ∧ OnlyRegs [CTX4 + PAGE_STAT.off] s.claimed t) ∧
    (s.reaches (b + CTX_CFG.off) v = true → s.g b CTX_CFG_MODE = 0 → fld v 0 2 ≠ 0 → s.claimed.ctxReason c v = r → r ≠ 0 →
      s.on CTX4 PAGE_STAT_BAD_WRITE = false → ∃ t, exec (.ctxModeWrite c value) s = .next t ∧
      t.g b CTX_CHECK_REASON = r % 16 ∧ t.g b CTX_CFG_MODE = 0 ∧ t.g CTX4 PAGE_STAT_BAD_CAUSE = 4 ∧
      OnlyRegs [CTX4 + PAGE_STAT.off, b + CTX_CHECK.off] s.claimed t) ∧
    (s.reaches (b + CTX_SUBMIT.off) 1 = true → s.on b CTX_SUBMIT_STAT_PENDING = false → fetch.1 = .ok →
      u.jobReason c new = 0 → u.cod.ctx.length = 64 → ∃ t, exec (.ctxSubmit c) s = .next t ∧
      (t.cx c).jobs = (u.cx c).jobs ++ [new] ∧ t.g b CTX_NEXT_SEQ = inc32 (u.g b CTX_NEXT_SEQ) ∧
      t.g b CTX_SUBMIT_STAT_RESULT = 1 ∧ t.g b CTX_SUBMIT_STAT_PENDING = 0 ∧ t.mem = s.mem) ∧
    (s.reaches (b + CTX_SUBMIT.off) 1 = true → s.on b CTX_SUBMIT_STAT_PENDING = false → fetch.1 = .ok →
      u.jobReason c new = r → r ≠ 0 → ∃ t, exec (.ctxSubmit c) s = .next t ∧ t.g b CTX_SUBMIT_STAT_RESULT = 2 ∧
      t.g b CTX_SUBMIT_STAT_REASON = r % 16 ∧ t.gBit CTX4 IRQ_STAT 1 = true ∧ t.cod = u.cod ∧ t.mem = s.mem) ∧
    (s.reaches (b + CTX_PB_RET.off) v = true → whole → ∃ t, exec (.ctxPbRet c value) s = .next t ∧
      (t.cx c).held = (s.cx c).held.filter (fun k => !bitOf v k) ∧ (t.cx c).jobs = (s.cx c).jobs ∧
      OnlyRegs [b + CTX_STAT.off, b + CTX_PB_VALID.off] { s.claimed with cod := t.cod } t) ∧
    (s.toStart c 4 = some j → (s.cx c).jobs = [j] → ∃ t, exec (.codDrain c) s = .next t ∧ (t.cx c).shown = [] ∧
      (t.cx c).held = (s.cx c).held ++ (s.cx c).shown.map (fun y => y.2) ∧
      (t.cx c).jobs.map (fun k => (k.done, k.unit.map (fun x => x.out))) = [(some (0, 0), some (s.cx c).drained)] ∧
      t.mem = s.mem) ∧
    ((s.cx c).jobs = [j] → j.done ≠ none → (tail + 2 ^ 32 - s.g b CTX_CPL_HEAD) % 2 ^ 32 < size → post.1 = .ok →
      ∃ t, exec (.codecJobEnd c) s = .next t ∧ (t.cx c).jobs = [] ∧ t.g b CTX_CPL_TAIL = inc32 tail ∧
      t.g b CTX_DONE_SEQ = inc32 j.seq) ∧
    ((s.cx c).jobs = [j] → j.done = none → j.encodes = true → bitOf j.fl 2 = true → j.started = true → j.first < j.rows →
      s.srcReady j (s.nextLines c j).2 ≠ 1 → ∃ t, exec (.sourceWaitTimeout c) s = .next t ∧
      (t.cx c).jobs.map (fun k => k.done) = [some (1, 3)] ∧ t.gBit CTX4 IRQ_STAT 3 = true) ∧
    ((s.cx c).jobs = [] → ∃ t, exec (.sourceWaitTimeout c) s = .next t ∧ t = s) ∧
    (s.reaches (b + CTX_ABORT.off) 1 = true → s.on b CTX_ABORT_STAT_PENDING = false → (s.cx c).jobs = [] →
      ∃ t, exec (.ctxAbort c) s = .next t ∧ t.g b CTX_ABORT_STAT_RESULT = 3 ∧ t.g b CTX_ABORT_STAT_COUNT = 0 ∧
      t.gBit CTX4 IRQ_STAT 2 = true) ∧
    (s.reaches (b + CTX_ABORT.off) 1 = true → s.on b CTX_ABORT_STAT_PENDING = false → (s.cx c).jobs = [j] → j.done = none →
      (j.seq + 2 ^ 32 - s.g b CTX_ABORT_SEQ) % 2 ^ 32 < 2 ^ 31 → s.cod.engine.all (fun e => e != some c.val) = true →
      ∃ t, exec (.ctxAbort c) s = .next t ∧ (t.cx c).jobs.map (fun k => k.done) = [some (3, 0)] ∧
      t.g b CTX_ABORT_STAT_RESULT = 1 ∧ t.g b CTX_ABORT_STAT_COUNT = 1 ∧ t.gBit CTX4 IRQ_STAT 2 = true)

/-- ENCODE starts an encode job none of whose references is missing, with its rows, its first QP and its slot map; DECODE and
COMPAT start a job whose unit holds, with the unit and its rows, and a unit that fails decides the job FAILED with its DETAIL.
CODEC_ROW_END of an engine that serves no context leaves that engine's job untouched; of a pixel engine that decodes it counts a
row of the second class, of an entropy engine that decodes one of the first, and of an entropy engine that encodes it adds the
row's bits, at most its bound. A Sump error is counted, a bus error fails the job with DETAIL 2 and a page request makes it
wait. (R511-R515, R519-R521.) -/
def Obligations.CodecJobsStartAndRun : Prop :=
∀ (s : State) (c : Fin 64) (e : Fin 4) (unit : DecUnit) (j : CodJob) (hdr bits trial recode : Nat), s.canonical = true →
    let b := ctxBase c
    let fetch := s.masterRead 0x34 (s.g b CTX_CFG_ASID) (leAt j.desc 0x10 8) (leAt j.desc 0x18 4)
    let u := fetch.2.2
    let free := fun (k : Nat) => !(s.cx c).map.contains k && !(s.cx c).held.contains k && !(s.cx c).shown.any (fun y => y.2 == k)
    let fits := codSizeOk unit.width unit.height = true ∧ unit.width ≤ u.g b CTX_GEOM_MAX_W ∧ unit.height ≤ u.g b CTX_GEOM_MAX_H
    let par := s.masterRead 0x34 (s.g b CTX_CFG_ASID) (leAt j.desc 0x28 8) (leAt j.desc 0x30 4)
    let pu := par.2.2
    let pfetch := pu.masterRead 0x34 (pu.g b CTX_CFG_ASID) (leAt j.desc 0x10 8) (leAt j.desc 0x18 4)
    let pfits := codSizeOk unit.width unit.height = true ∧ unit.width ≤ pfetch.2.2.g b CTX_GEOM_MAX_W ∧ unit.height ≤ pfetch.2.2.g b CTX_GEOM_MAX_H
    let served := nth none s.cod.engine e = some c.val ∧ (s.cx c).jobs = [j] ∧ j.done = none
    (s.toStart c 1 = some j → (s.cx c).jobs = [j] → (s.cx c).map = j.proj → ∃ t, exec (.codEncode c hdr bits) s = .next t ∧
      (t.cx c).jobs.map (fun k => (k.started, k.rows, k.first, k.second)) = [(true, s.encRows c j, j.first, j.second)] ∧
      (t.cx c).jobs.map (fun k => (k.q, k.size, k.map, k.bits)) = [(sint 16 (leAt j.desc 0x52 2), 4096, j.slotMapOut, min
        bits 4096)] ∧ (t.cx c).map = (s.cx c).map) ∧
    (s.toStart c 2 = some j → (s.cx c).jobs = [j] → fetch.1 = .ok → unit.fail = 0 → j.targets.all free = true →
      unit.frames ≤ j.targets.length → fits → unit.refMissing = false → unit.map = [] →
      ∃ t, exec (.codDecode c unit) s = .next t ∧
      (t.cx c).jobs.map (fun k => (k.started, k.rows, k.first, k.second)) = [(true, if unit.skipped then 0 else cdiv
        unit.height (u.ctuSide c), j.first, j.second)] ∧
      (t.cx c).jobs.map (fun k => (k.map, k.bytes)) = [((s.cx c).map, min unit.consumed (leAt j.desc 0x18 4))]) ∧
    (s.toStart c 2 = some j → (s.cx c).jobs = [j] → fetch.1 = .ok → unit.fail ≠ 0 →
      ∃ t, exec (.codDecode c unit) s = .next t ∧ (t.cx c).jobs.map (fun k => k.done) = [some (1, unit.fail)] ∧
      t.gBit CTX4 IRQ_STAT 3 = true) ∧
    (s.toStart c 3 = some j → (s.cx c).jobs = [j] → par.1 = .ok → compatOk par.2.1 (leAt j.desc 0x18 4) = true →
      pfetch.1 = .ok → unit.fail = 0 → pfits → unit.refMissing = false → ∃ t, exec (.codCompat c unit) s = .next t ∧
      (t.cx c).jobs.map (fun k => (k.started, k.rows)) = [(true, if unit.skipped then 0 else cdiv unit.height
        (pfetch.2.2.ctuSide c))]) ∧
    (s.toStart c 3 = some j → (s.cx c).jobs = [j] → par.1 = .ok → compatOk par.2.1 (leAt j.desc 0x18 4) = false →
      ∃ t, exec (.codCompat c unit) s = .next t ∧ (t.cx c).jobs.map (fun k => k.done) = [some (1, 4)] ∧
      t.gBit CTX4 IRQ_STAT 3 = true) ∧
    (served → j.encodes = false → 2 ≤ e.val → s.codReady c true = true →
      ∃ t, exec (.codecRowEnd e trial recode) s = .next t ∧
      (t.cx c).jobs.map (fun k => (k.first, k.second)) = [(j.first, j.second + 1)]) ∧
    (served → j.encodes = true → e.val < 2 → s.codReady c false = true →
      ∃ t, exec (.codecRowEnd e trial recode) s = .next t ∧
      (t.cx c).jobs.map (fun k => (k.first, k.second, k.bits)) = [(j.first, j.second + 1, j.bits + min trial (nth 0 j.bounds
        j.second))]) ∧
    (served → ∃ t, exec (.codecPause e 1) s = .next t ∧ t.g (COD e) COD_ENG_SUMP = min 65535 (s.g (COD e) COD_ENG_SUMP + 1) ∧
      t.gBit (COD e) IRQ_STAT 1 = true ∧ t.cod = s.cod ∧ RegsBut [COD e + COD_ENG_SUMP.off, COD e + IRQ_STAT.off] s t) ∧
    (served → ∃ t, exec (.codecPause e 2) s = .next t ∧ (t.cx c).jobs.map (fun k => k.done) = [some (1, 2)] ∧
      t.gBit CTX4 IRQ_STAT 3 = true) ∧
    (served → j.encodes = false → (s.cx c).abort = none → ∃ t, exec (.codecPause e 0) s = .next t ∧
      (t.cx c).jobs.map (fun k => (k.waits, k.done)) = [(true, none)] ∧ t.g b CTX_STAT_WAITING = 1)

/-- SND_ENABLE of a sender that breaks no rule of R549 enables it with its reservation; one that breaks a rule leaves EN 0 with
the reason, interrupt 1 and cause 4; an enabled one is refused. SND_DISABLE of a sender between frames stops it at once; of a
disabled one the write is plain. SND_SLOT_START of an enabled sender whose slot is at least a frame period after its last starts
the slot with the newest frame of its tap or, without an ancillary entry, with an empty payload; of a disabled one it changes
nothing. SND_PACKET_DUE sends the next packet and moves the sequence number on, mod 2^32. ANC_PROD_WRITE sets the producer
index. (R541-R549.) -/
def Obligations.SendersEnableSlotAndSend : Prop :=
∀ (s : State) (k : Fin 4) (sender : Fin 8) (value : Word) (x : Sender) (r n : Nat) (d : TapNews) (g : Nat × Nat × Nat) (f :
    Nat × Nat × Nat), s.canonical = true →
    let b := sndBase k sender
    let off := b + ETH_SND_CFG.off
    let v := value.toNat ||| 1
    let q := (s.claimed.plainWrite off v).p b ETH_SND_CFG_EN 0
    let regs := (List.range 8).map (fun m => q.rd (b + 0x1100 + 4 * m))
    let tmpl := fun (z : Fld) => (q.template k (q.g b z)).getD []
    let t0 := x.slotStart n
    let due := s.on b ETH_SND_CFG_EN = true ∧ s.on TOP TOP_RESET_STAT_WARM_BUSY = false ∧ x.slotAt s.time.units = some n ∧ x.lastStart.all (fun l => decide (l + x.period ≤ t0)) = true ∧ (x.ports k).any (fun p => s.portUp p.1 p.2) = true
    let tap := s.srcTap x.src
    let fresh := ({ Sender.init with regs := regs, pri := tmpl ETH_SND_TMPL_PRI_TMPL, part := tmpl ETH_SND_TMPL_PARTNER_TMPL, base := x.base } : Sender)
    let ups := (x.ports k).map (fun p => s.portUp p.1 p.2)
    let begun := ({ x with lastStart := some t0, slot := n, sending := true, priOn := ups.headD false, partOn := nth false ups 1, anc := emptyAnc, next := 0 } : Sender)
    let per := packetOctets (tap.outW / g.2.1 * g.1) (payloadPm g.1 (x.reg ETH_SND_TMPL_PAYLOAD_MAX))
    (s.reaches off v = true → s.on b ETH_SND_CFG_EN = false → x = fresh → q.sndReason k x = 0 →
      ∃ t, exec (.sndEnable k sender value) s = .next t ∧ t.g b ETH_SND_CFG_EN = 1 ∧ t.g b ETH_SND_STAT_REASON = 0 ∧
      t.g b ETH_SND_BW = x.bandwidth (q.srcTap x.src) % 2 ^ 20 ∧ t.mem = s.mem) ∧
    (s.reaches off v = true → s.on b ETH_SND_CFG_EN = false → x = fresh → q.sndReason k x = r → r ≠ 0 →
      s.on (ETH k) PAGE_STAT_BAD_WRITE = false → ∃ t, exec (.sndEnable k sender value) s = .next t ∧
      t.g b ETH_SND_CFG_EN = 0 ∧ t.g b ETH_SND_STAT_REASON = r % 16 ∧ t.gBit (ETH k) IRQ_STAT 1 = true ∧
      t.g (ETH k) PAGE_STAT_BAD_CAUSE = 4) ∧
    (s.reaches off v = true → s.on b ETH_SND_CFG_EN = true → s.on (ETH k) PAGE_STAT_BAD_WRITE = false →
      ∃ t, exec (.sndEnable k sender value) s = .next t ∧ t.g (ETH k) PAGE_STAT_BAD_CAUSE = 4 ∧
      OnlyRegs [ETH k + PAGE_STAT.off] s.claimed t) ∧
    (s.reaches off (s.rd off &&& 0xFFFFFFFE) = true → s.on b ETH_SND_CFG_EN = true → s.snd k sender = x → x.regs ≠ [] →
      x.sending = false → ∃ t, exec (.sndDisable k sender) s = .next t ∧ t.g b ETH_SND_CFG_EN = 0 ∧ t.g b ETH_SND_BW = 0 ∧
      t.g b ETH_SND_STAT_STATE = 0 ∧ t.snd k sender = { x with regs := [] } ∧ t.mem = s.mem) ∧
    (s.reaches off (s.rd off &&& 0xFFFFFFFE) = true → s.on b ETH_SND_CFG_EN = false →
      ∃ t, exec (.sndDisable k sender) s = .next t ∧ t.g b ETH_SND_CFG_EN = 0 ∧ t.eth = s.eth ∧ OnlyRegs [off] s.claimed t) ∧
    (s.on b ETH_SND_CFG_EN = false → ∃ t, exec (.sndSlotStart k sender) s = .next t ∧ t = s) ∧
    (s.snd k sender = x → due → x.anc? = true → s.g b ETH_SND_ANC_CONS = s.g b ETH_SND_ANC_PROD →
      ∃ t, exec (.sndSlotStart k sender) s = .next t ∧ t.snd k sender = begun ∧ t.mem = s.mem) ∧
    (s.snd k sender = x → due → x.anc? = false → x.regs ≠ [] → s.sndNews x = some d →
      ∃ t, exec (.sndSlotStart k sender) s = .next t ∧ (t.snd k sender).sent = some (d.count, d.fseq, d.buf) ∧
      (t.snd k sender).slot = n ∧ (t.snd k sender).next = 0 ∧ (t.snd k sender).sending = true ∧
      t.g b ETH_SND_FSEQ = d.fseq % 2 ^ 32 ∧ t.mem = s.mem) ∧
    (s.snd k sender = x → x.sending = true → x.anc? = true → ∃ t, exec (.sndPacketDue k sender) s = .next t ∧
      (t.snd k sender).seq = inc32 x.seq ∧ (t.snd k sender).sending = false ∧ t.mem = s.mem) ∧
    (s.snd k sender = x → x.sending = true → x.anc? = false →
      pgroup tap.format tap.ydepth (x.reg ETH_SND_CFG_DEPTH16 == 1) = some g → x.sent = some f →
      ∃ t, exec (.sndPacketDue k sender) s = .next t ∧ (t.snd k sender).seq = inc32 x.seq ∧
      (t.snd k sender).next = x.next + 1 ∧ (t.snd k sender).sending = !(x.next + 1 == tap.outH * per.length) ∧ t.mem = s.mem) ∧
    (s.snd k sender = x → x.sending = false → ∃ t, exec (.sndPacketDue k sender) s = .next t ∧ t = s) ∧
    (s.reaches (b + ETH_SND_ANC_PROD.off) value.toNat = true → ∃ t, exec (.ancProdWrite k sender value) s = .next t ∧
      t.g b ETH_SND_ANC_PROD = value.toNat % 65536 ∧ OnlyRegs [b + ETH_SND_ANC_PROD.off] s.claimed t)

/-- SES_OPEN of a session that is not open and breaks no rule of R553 takes it to OPENING with SSN 0; one that breaks a rule
reports it, an open one is refused. SES_CLOSE takes OPEN to DRAINING, or to CLOSING with nothing unacknowledged; SES_ABORT ends
every segment ABORTED and goes to CLOSING. OPEN_ACK with STATUS 0 takes OPENING to OPEN with its window, any other STATUS to
FAILED. ACK drops the segments it covers and sets the window. CLOSE_ACK takes CLOSING to CLOSED. SES_SEGMENT_SEND queues the
next segment inside the window; SES_RTO_EXPIRY sends a segment again, and after eight tries an OPENING session fails with reason
6. With its port down a session neither sends nor counts. (R552-R556, R559, R562.) -/
def Obligations.SluiceSessionsFollowTheirMessages : Prop :=
∀ (s : State) (k : Fin 4) (u : Fin 8) (msg : List Byte) (ssn n r : Nat) (f : AreaFrame) (g : Segment), s.canonical = true →
    let b := sesBase k u
    let q := s.claimed
    let pri := q.template k (q.g b ETH_SES_TMPL_PRI_TMPL)
    let alt := q.template k (q.g b ETH_SES_TMPL_ALT_TMPL)
    let off := b + ETH_SES_CTRL.off
    let x := s.ses k u
    let bn := sesBase k n
    let cum := beAt msg 8 8
    let held := fun (m : Nat) => decide (m < cum) || (decide (cum < m) && decide (m ≤ cum + 64) && bitOf (beAt msg 16 8) (m - cum - 1))
    (s.reaches off 1 = true → s.sessionOpen k u = false → q.openReason k u pri alt = 0 →
      ∃ t, exec (.sesOpen k u) s = .next t ∧ t.sesState k u = 1 ∧ t.g b ETH_SES_STAT_REASON = 0 ∧
      t.g64 b ETH_SES_NEXT_LO = 0 ∧ t.g64 b ETH_SES_CUM_LO = 0 ∧ t.mem = s.mem) ∧
    (s.reaches off 1 = true → s.sessionOpen k u = false → q.openReason k u pri alt = r → r ≠ 0 →
      s.on (ETH k) PAGE_STAT_BAD_WRITE = false → ∃ t, exec (.sesOpen k u) s = .next t ∧ t.sesState k u = s.sesState k u ∧
      t.g b ETH_SES_STAT_REASON = r % 16 ∧ t.g (ETH k) PAGE_STAT_BAD_CAUSE = 4 ∧
      OnlyRegs [ETH k + PAGE_STAT.off, b + ETH_SES_STAT.off] q t) ∧
    (s.reaches off 1 = true → s.sessionOpen k u = true → s.on (ETH k) PAGE_STAT_BAD_WRITE = false →
      ∃ t, exec (.sesOpen k u) s = .next t ∧ t.g (ETH k) PAGE_STAT_BAD_CAUSE = 4 ∧ OnlyRegs [ETH k + PAGE_STAT.off] q t) ∧
    (s.reaches off 2 = true → s.sesState k u = 2 → x.segs = [] → ∃ t, exec (.sesClose k u) s = .next t ∧ t.sesState k u = 4 ∧
      t.mem = s.mem) ∧
    (s.reaches off 2 = true → s.sesState k u = 2 → x.segs ≠ [] → ∃ t, exec (.sesClose k u) s = .next t ∧ t.sesState k u = 3 ∧
      t.gBit (ETH k) IRQ_STAT 2 = true ∧ RegsBut [b + ETH_SES_STAT.off, ETH k + IRQ_STAT.off] q t) ∧
    (s.reaches off 4 = true → s.sesState k u ∈ [1, 2, 3] → ∃ t, exec (.sesAbort k u) s = .next t ∧ t.sesState k u = 4 ∧
      (t.ses k u).segs = [] ∧ t.g b ETH_SES_STAT_REASON = 10 ∧
      (x.segs ≠ [] → t.g b ETH_SES_STAT_END = 3 ∧ t.g b ETH_SES_STAT_END_VALID = 1) ∧ t.mem = s.mem) ∧
    (sluiceOk msg 2 28 = true → s.sesOf k msg = some n → s.sesState k n = 1 → beAt msg 20 1 = 0 →
      ∃ t, exec (.sluiceOpenAck k msg) s = .next t ∧ t.sesState k n = 2 ∧
      t.g bn ETH_SES_WIN_WINDOW = min (beAt msg 16 4) 65535 ∧ t.gBit (ETH k) IRQ_STAT 2 = true ∧
      RegsBut [bn + ETH_SES_STAT.off, bn + ETH_SES_WIN.off, bn + ETH_SES_FSEQ_LO.off, bn + ETH_SES_FSEQ_HI.off, ETH k +
        IRQ_STAT.off] s t) ∧
    (sluiceOk msg 2 28 = true → s.sesOf k msg = some n → s.sesState k n = 1 → beAt msg 20 1 ≠ 0 →
      ∃ t, exec (.sluiceOpenAck k msg) s = .next t ∧ t.sesState k n = 6 ∧ t.g bn ETH_SES_STAT_REASON = 7 ∧ t.mem = s.mem) ∧
    (sluiceOk msg 4 32 = true → s.sesOf k msg = some n → s.sesState k n = 2 → ∃ t, exec (.sluiceAck k msg) s = .next t ∧
      (t.ses k n).segs = (s.ses k n).segs.filter (fun y => !held y.ssn) ∧ t.g64 bn ETH_SES_CUM_LO = cum ∧
      t.g bn ETH_SES_WIN_WINDOW = min (beAt msg 24 4) 65535 ∧ t.sesState k n = 2 ∧
      RegsBut [bn + ETH_SES_CUM_LO.off, bn + ETH_SES_CUM_HI.off, bn + ETH_SES_WIN.off, bn + ETH_SES_FSEQ_LO.off, bn +
        ETH_SES_FSEQ_HI.off] s t) ∧
    (sluiceOk msg 6 20 = true → s.sesOf k msg = some n → s.sesState k n = 4 → ∃ t, exec (.sluiceCloseAck k msg) s = .next t ∧
      t.sesState k n = 5 ∧ t.gBit (ETH k) IRQ_STAT 2 = true ∧ RegsBut [bn + ETH_SES_STAT.off, ETH k + IRQ_STAT.off] s t) ∧
    (s.sesOf k msg = none → ∃ t, exec (.sluiceCloseAck k msg) s = .next t ∧ t = s) ∧
    (s.sesUp k u = false → ∃ t, exec (.sesRtoExpiry k u ssn) s = .next t ∧ t = s) ∧
    (s.sesUp k u = true → s.sesState k u = 1 → 8 ≤ x.tries → ∃ t, exec (.sesRtoExpiry k u ssn) s = .next t ∧
      t.sesState k u = 6 ∧ t.g b ETH_SES_STAT_REASON = 6) ∧
    (s.sesUp k u = true → s.sesState k u = 2 → x.segs = [g] → g.ssn = ssn → g.sends < 8 → s.sesAlt k u = none →
      ∃ t, exec (.sesRtoExpiry k u ssn) s = .next t ∧ (t.ses k u).segs = [{ g with sends := g.sends + 1, again := false }] ∧
      t.sesState k u = 2 ∧ t.mem = s.mem) ∧
    (s.sesUp k u = false → ∃ t, exec (.sesSegmentSend k u) s = .next t ∧ t = s) ∧
    (s.sesUp k u = true → s.sesState k u = 2 → x.segs = [] → (s.ethUnit k).sessions.length = 8 → s.sesFrame k u = some f →
      s.g b ETH_SES_WIN_WINDOW ≠ 0 → f.first = x.pos → ∃ t, exec (.sesSegmentSend k u) s = .next t ∧
      (t.ses k u).segs = [⟨s.g64 b ETH_SES_NEXT_LO, f.seq, f.first, f.nblk, x.idx, min (1 + s.g b ETH_SES_CFG_BLOCKS) (f.nblk
        - x.idx), 1, false⟩] ∧ t.g64 b ETH_SES_NEXT_LO = (s.g64 b ETH_SES_NEXT_LO + 1) % 2 ^ 64 ∧ t.mem = s.mem)

/-- At the recorder a whole OPEN answers its window, at most 4096, with the status, and STATUS 0 begins the session afresh; a
whole CLOSE forgets the session and answers CLOSE_ACK; whole DATA of a session holds its blocks once and answers an ACK; a
message that is not whole changes nothing. RELEASE of a position behind TAIL ends DONE with TAIL as RESULT, of one that begins
no retained frame ends FAILED, and of a valid one moves TAIL to it, or to what open sessions allow. SES_HOLD_RELEASE moves TAIL
to the oldest frame that a HOLD session has not wholly acknowledged. (R423, R557, R558, R560.) -/
def Obligations.RecorderAndReleaseFollowTheirRules : Prop :=
∀ (s : State) (msg : List Byte) (window : Nat) (status : Byte) (slot : Fin 32) (c : TCmd) (h : Fin 4) (tgt : Nat) (held : List
    Nat), s.canonical = true →
    let id := beAt msg 4 4
    let others := s.recorder.sessions.filter (fun x => x.1 != id)
    let mine := s.tsq.cmds = [c] ∧ s.runnable slot 4 = some c
    let a := s.area c.area
    (sluiceOk msg 1 36 = true → status = 0 → ∃ t, exec (.recOpen msg window status) s = .next t ∧
      t = { s with recorder := { s.recorder with sessions := (id, []) :: others } }.emit (.recorder (sluiceMsg 2 id 0
        (beBytes 4 (min window 4096) ++ [0, 0, 0, 0])))) ∧
    (sluiceOk msg 1 36 = true → status ≠ 0 → ∃ t, exec (.recOpen msg window status) s = .next t ∧
      t = s.emit (.recorder (sluiceMsg 2 id 0 (beBytes 4 (min window 4096) ++ beBytes 1 status.toNat ++ [0, 0, 0])))) ∧
    (beAt msg 34 1 = 1 → sluiceOk msg 3 4148 = true → s.recorder.sessions = [(id, held)] →
      held.contains (beAt msg 8 8) = false → s.recorder.held = [] → ∃ t, exec (.recData msg window) s = .next t ∧
      t.recorder.sessions = [(id, beAt msg 8 8 :: held)] ∧
      t.recorder.held = [(beAt msg 36 4, beAt msg 32 1, beAt msg 16 8, beAt msg 24 4, slice msg 48 4096)] ∧
      t.out.length = s.out.length + 1 ∧ OnlyRegs [] { s with recorder := t.recorder, out := t.out } t) ∧
    (sluiceOk msg 3 (52 + 4096 * beAt msg 34 1) = false → ∃ t, exec (.recData msg window) s = .next t ∧ t = s) ∧
    (sluiceOk msg 5 24 = true → ∃ t, exec (.recClose msg) s = .next t ∧
      t = { s with recorder := { s.recorder with sessions := others } }.emit (.recorder (sluiceMsg 6 id 0 []))) ∧
    (sluiceOk msg 5 24 = false → ∃ t, exec (.recClose msg) s = .next t ∧ t = s) ∧
    (mine → c.blk < a.tail → ∃ t, exec (.slotRelease slot) s = .next t ∧ t.doneOf = [some ⟨0, 0, a.tail, 0⟩] ∧
      t.tsq.areas = s.tsq.areas ∧ t.mem = s.mem) ∧
    (mine → a.targetKind c.blk = 2 → ∃ t, exec (.slotRelease slot) s = .next t ∧ t.doneOf = [some ⟨1, 5, 0, 0⟩] ∧
      t.tsq.areas = s.tsq.areas ∧ t.mem = s.mem) ∧
    (mine → a.targetKind c.blk = 1 → s.jnlFree ≠ 0 → s.releaseBound c.area = none →
      ∃ t, exec (.slotRelease slot) s = .next t ∧ t.doneOf = [some ⟨0, 0, max a.tail c.blk, 0⟩] ∧
      (t.area c.area).tail = max a.tail c.blk ∧ t.mem = s.mem) ∧
    (s.holdTarget h = none → ∃ t, exec (.sesHoldRelease h) s = .next t ∧ t = s) ∧
    (s.holdTarget h = some tgt → (s.area h).tail < tgt → s.jnlFree ≠ 0 → ∃ t, exec (.sesHoldRelease h) s = .next t ∧
      (t.area h).tail = tgt ∧ t.mem = s.mem)

/-- TIM_INC_HI_WRITE puts the staged increment in force. A read of TIM_NOW_SEC_LO latches SEC, NS and FRAC of the same instant
and returns SEC. STEP and LOAD make a change pend for the instant 80 µs ahead, and are refused with cause 4 while one pends;
TIME_ADJ_APPLY takes it, clears ADJ_PEND and raises interrupt 1. TIM_CTRL_WRITE copies LOCKED, and with LOCKED 1 clears
FREE_RUN. WATCHDOG_EXPIRY of a running watchdog clears LOCKED, sets FREE_RUN and raises interrupt 0. TIME_PLL_LOSS clears LOCKED
and sets FAULT_SUM bit 0 until TIME_PLL_RELOCK. TIME_REF_EDGE counts edges unless TREF_MODE is 0, and TREF_PRESENT_LAPSE clears
the presence. (R567-R574, R577, R594, R595.) -/
def Obligations.DeviceTimeIsReadSteppedAndLoaded : Prop :=
∀ (s : State) (value : Word) (load : Bool) (amount : Int) (x : Nat), s.canonical = true →
    let v := value.toNat
    let ahead := (DevTime.ofUnits (s.time.units + 80000 * 2 ^ 48)).units
    let r := s.advanceTo x
    let set : Nat := (s.g64 TIM TIM_SET_SEC_LO % 2 ^ 48 * nsPerSec + s.g TIM TIM_SET_NS) * 65536 + s.g TIM TIM_SET_FRAC
    (s.reaches (TIM + TIM_INC_HI.off) v = true → ∃ t, exec (.timIncHiWrite value) s = .next t ∧
      t.rdA (TIM + TIM_INC_HI.off) = v % 2 ^ 17 ∧ t.rdA (TIM + TIM_INC_LO.off) = s.rd (TIM + TIM_INC_LO.off) ∧
      t.rd (TIM + TIM_INC_HI.off) = v % 2 ^ 17 ∧ OnlyRegs [TIM + TIM_INC_HI.off] { s.claimed with actv := t.actv } t) ∧
    (s.hif.memory = true → s.on TOP TOP_RESET_STAT_WARM_BUSY = false → ∃ t, exec .timeNowRead s = .next t ∧
      t.g TIM TIM_NOW_SEC_LO = s.time.sec % 2 ^ 32 ∧ t.g TIM TIM_NOW_SEC_HI = s.time.sec / 2 ^ 32 % 2 ^ 16 ∧
      t.g TIM TIM_NOW_NS = s.time.ns % 2 ^ 32 ∧ t.g TIM TIM_NOW_FRAC = s.time.frac % 2 ^ 16 ∧
      t.out.head? = some (.barData (leBytes 4 (s.time.sec % 2 ^ 32)) false) ∧
      RegsBut [TIM + TIM_NOW_SEC_LO.off, TIM + TIM_NOW_SEC_HI.off, TIM + TIM_NOW_NS.off, TIM + TIM_NOW_FRAC.off] s t) ∧
    (s.reaches (TIM + TIM_ADJ_CTRL.off) 1 = true → s.on TIM TIM_STAT_ADJ_PEND = false → ∃ t, exec .timStep s = .next t ∧
      t.tim.adj = some (false, sint 64 (s.g64 TIM TIM_ADJ_LO), ahead) ∧ t.g TIM TIM_STAT_ADJ_PEND = 1 ∧ t.time = s.time ∧
      PagesBut [TIM, CWY 0, CWY 1, CWY 2, CWY 3] s t ∧ t.mem = s.mem) ∧
    (s.reaches (TIM + TIM_ADJ_CTRL.off) 1 = true → s.on TIM TIM_STAT_ADJ_PEND = true → s.on TIM PAGE_STAT_BAD_WRITE = false →
      ∃ t, exec .timStep s = .next t ∧ t.g TIM PAGE_STAT_BAD_CAUSE = 4 ∧ OnlyRegs [TIM + PAGE_STAT.off] s.claimed t) ∧
    (s.reaches (TIM + TIM_ADJ_CTRL.off) 2 = true → s.on TIM TIM_STAT_ADJ_PEND = false → ∃ t, exec .timLoad s = .next t ∧
      t.tim.adj = some (true, (set : Int), ahead) ∧ t.g TIM TIM_STAT_ADJ_PEND = 1 ∧ t.time = s.time ∧
      PagesBut [TIM, CWY 0, CWY 1, CWY 2, CWY 3] s t ∧ t.mem = s.mem) ∧
    (s.tim.adj = none → ∃ t, exec .timeAdjApply s = .next t ∧ t = s) ∧
    (s.tim.adj = some (load, amount, x) → ∃ t, exec .timeAdjApply s = .next t ∧ t.tim.adj = none ∧
      t.g TIM TIM_STAT_ADJ_PEND = 0 ∧ t.gBit TIM IRQ_STAT 1 = true ∧
      t.time = DevTime.ofUnits ((if load then amount * 2 ^ 32 else (r.time.units : Int) + amount * 2 ^ 32) % (timeWrap :
        Int)).toNat ∧ t.mem = s.mem) ∧
    (s.reaches (TIM + TIM_CTRL.off) v = true → ∃ t, exec (.timCtrlWrite value) s = .next t ∧
      t.g TIM TIM_CTRL_LOCKED = v % 2 ∧ t.g TIM TIM_STAT_LOCKED = v % 2 ∧ t.g TIM TIM_CTRL_TREF_MODE = fld v 1 2 ∧
      t.g TIM TIM_STAT_FREE_RUN = (if v % 2 = 1 then 0 else s.g TIM TIM_STAT_FREE_RUN) ∧
      (fld v 1 2 ≠ s.g TIM TIM_CTRL_TREF_MODE → t.tim.trefEdges = 0 ∧ t.g TIM TIM_STAT_TREF_PRESENT = 0) ∧
      OnlyRegs [TIM + TIM_CTRL.off, TIM + TIM_STAT.off, TIM + FAULT_SUM.off, TIM + PAGE_STAT.off] { s.claimed with tim :=
        t.tim } t) ∧
    (s.on TIM TIM_CTRL_LOCKED = true → s.g TIM TIM_WDOG ≠ 0 → ∃ t, exec .watchdogExpiry s = .next t ∧
      t.g TIM TIM_CTRL_LOCKED = 0 ∧ t.g TIM TIM_STAT_LOCKED = 0 ∧ t.g TIM TIM_STAT_FREE_RUN = 1 ∧
      t.gBit TIM IRQ_STAT 0 = true ∧ RegsBut [TIM + TIM_CTRL.off, TIM + TIM_STAT.off, TIM + IRQ_STAT.off] s t) ∧
    (s.on TIM TIM_CTRL_LOCKED = false ∨ s.g TIM TIM_WDOG = 0 → ∃ t, exec .watchdogExpiry s = .next t ∧ t = s) ∧
    (s.tim.pllOut = false → ∃ t, exec .timePllLoss s = .next t ∧ t.tim.pllOut = true ∧ t.g TIM TIM_CTRL_LOCKED = 0 ∧
      t.g TIM TIM_STAT_LOCKED = 0 ∧ t.gBit TIM FAULT_SUM 0 = true ∧ t.mem = s.mem) ∧
    (s.tim.pllOut = true → ∃ t, exec .timePllRelock s = .next t ∧ t.tim.pllOut = false ∧ t.gBit TIM FAULT_SUM 0 = false ∧
      OnlyRegs [TIM + FAULT_SUM.off, TIM + PAGE_STAT.off] { s with tim := t.tim } t) ∧
    (s.g TIM TIM_CTRL_TREF_MODE = 0 → ∃ t, exec .timeRefEdge s = .next t ∧ t = s) ∧
    (s.g TIM TIM_CTRL_TREF_MODE = 1 → s.on TIM TIM_CAP_EN_TREF = true → s.tim.caps.length < 32 →
      ∃ t, exec .timeRefEdge s = .next t ∧ t.tim.trefEdges = s.tim.trefEdges + 1 ∧ t.g TIM TIM_STAT_TREF_PRESENT = 1 ∧
      t.tim.caps = s.tim.caps ++ [⟨2, s.time⟩] ∧ t.g TIM TIM_CAP_STAT_COUNT = s.tim.caps.length + 1 ∧ t.mem = s.mem) ∧
    (∃ t, exec (.trefPresentLapse false) s = .next t ∧ t.g TIM TIM_STAT_TREF_PRESENT = 0 ∧
      t.gBit TIM FAULT_SUM 1 = (s.g TIM TIM_CTRL_TREF_MODE != 0) ∧
      OnlyRegs [TIM + TIM_STAT.off, TIM + FAULT_SUM.off, TIM + PAGE_STAT.off] s t) ∧
    (∃ t, exec (.trefPresentLapse true) s = .next t ∧ t.g TIM TIM_STAT_SYNC_PRESENT = 0 ∧ OnlyRegs [TIM + TIM_STAT.off] s t)

/-- An edge of SYNC_IN that is enabled, and CAP_SOFT, append a capture of the present time while fewer than 32 wait; a full
queue sets OVERFLOW once and loses it. CAP_POP takes the oldest, CAP_CLR_OVF clears OVERFLOW. STROBE_ARM is refused with cause 4
where R584 refuses it, arms a strobe whose first pulse lies far enough ahead, and finds a single pulse too near LATE; FORCE
raises the pin. STROBE_PULSE_START makes the pin active and counts the pulse; STROBE_PULSE_END ends it, which finishes a single
strobe with interrupt 4 and moves a repeating one to its next pulse. STROBE_DISARM disarms at once, but an active SYNC strobe
ends with its pulse or at SYNC_DISARM_CUT. (R577, R581-R587, R594.) -/
def Obligations.CapturesAndStrobesFollowTheirRules : Prop :=
∀ (s : State) (n : Fin 8) (rise : Bool) (c : Capture) (rest : List Capture), s.canonical = true →
    let b := stb n
    let full := s.tim.caps.length = 32
    let first := s.stbAt n 0
    let x := s.strobe n
    (s.tim.syncIn = rise → ∃ t, exec (.syncInEdge rise) s = .next t ∧ t = s) ∧
    (s.tim.syncIn = false → s.on TIM TIM_CAP_EN_SYNC_RISE = true → s.tim.caps.length < 32 →
      ∃ t, exec (.syncInEdge true) s = .next t ∧ t.tim.syncIn = true ∧ t.g TIM TIM_STAT_SYNC_PRESENT = 1 ∧
      t.tim.caps = s.tim.caps ++ [⟨0, s.time⟩] ∧ t.mem = s.mem) ∧
    (s.tim.syncIn = true → s.on TIM TIM_CAP_EN_SYNC_FALL = true → full → ∃ t, exec (.syncInEdge false) s = .next t ∧
      t.tim.syncIn = false ∧ t.tim.caps = s.tim.caps ∧ t.g TIM TIM_CAP_STAT_OVERFLOW = 1 ∧ t.mem = s.mem) ∧
    (s.reaches (TIM + TIM_CAP_CTRL.off) 4 = true → s.tim.caps = [] → ∃ t, exec .capSoft s = .next t ∧
      t.tim.caps = [⟨3, s.time⟩] ∧ t.g TIM TIM_CAP_STAT_COUNT = 1 ∧ t.g TIM TIM_CAP_SRC = 3 ∧
      t.g TIM TIM_CAP_NS = s.time.ns % 2 ^ 32 ∧ t.gBit TIM IRQ_STAT 2 = true) ∧
    (s.reaches (TIM + TIM_CAP_CTRL.off) 4 = true → full → s.on TIM TIM_CAP_STAT_OVERFLOW = false →
      ∃ t, exec .capSoft s = .next t ∧ t.tim.caps = s.tim.caps ∧ t.g TIM TIM_CAP_STAT_OVERFLOW = 1 ∧
      t.gBit TIM IRQ_STAT 3 = true ∧ RegsBut [TIM + TIM_CAP_STAT.off, TIM + IRQ_STAT.off] s t) ∧
    (s.reaches (TIM + TIM_CAP_CTRL.off) 1 = true → s.tim.caps = c :: rest → ∃ t, exec .capPop s = .next t ∧
      t.tim.caps = rest ∧ t.g TIM TIM_CAP_STAT_COUNT = rest.length % 64) ∧
    (s.reaches (TIM + TIM_CAP_CTRL.off) 2 = true → ∃ t, exec .capClrOvf s = .next t ∧ t.g TIM TIM_CAP_STAT_OVERFLOW = 0 ∧
      OnlyRegs [TIM + TIM_CAP_STAT.off] s.claimed t) ∧
    (s.reaches (b + TIM_STB_CTRL.off) 1 = true → s.stbRefused n = true → s.on TIM PAGE_STAT_BAD_WRITE = false →
      ∃ t, exec (.strobeArm n) s = .next t ∧ t.g TIM PAGE_STAT_BAD_CAUSE = 4 ∧ OnlyRegs [TIM + PAGE_STAT.off] s.claimed t) ∧
    (s.reaches (b + TIM_STB_CTRL.off) 1 = true → s.stbRefused n = false → s.stbMode n = 4 → s.tim.strobes.length = 8 →
      ∃ t, exec (.strobeArm n) s = .next t ∧ t.g b TIM_STB_STAT_ARMED = 1 ∧ t.g b TIM_STB_STAT_ACTIVE = 1 ∧
      t.g b TIM_STB_STAT_DONE = 0 ∧ (t.strobe n).next = 0 ∧ RegsBut [b + TIM_STB_STAT.off] s t) ∧
    (s.reaches (b + TIM_STB_CTRL.off) 1 = true → s.stbRefused n = false → s.stbMode n = 1 →
      100 * 2 ^ 48 < timeDiff first s.time.units → ∃ t, exec (.strobeArm n) s = .next t ∧ t.g b TIM_STB_STAT_ARMED = 1 ∧
      t.g b TIM_STB_STAT_LATE = 0 ∧ t.g b TIM_STB_STAT_DONE = 0 ∧ RegsBut [b + TIM_STB_STAT.off] s t) ∧
    (s.reaches (b + TIM_STB_CTRL.off) 1 = true → s.stbRefused n = false → s.stbMode n = 1 → x.pulse = false →
      timeDiff first s.time.units ≤ 100 * 2 ^ 48 → ∃ t, exec (.strobeArm n) s = .next t ∧ t.g b TIM_STB_STAT_ARMED = 1 ∧
      t.g b TIM_STB_STAT_LATE = 1 ∧ t.gBit TIM IRQ_STAT 4 = true ∧ RegsBut [b + TIM_STB_STAT.off, TIM + IRQ_STAT.off] s t) ∧
    (s.reaches (b + TIM_STB_CTRL.off) 2 = true → s.stbArmed n = true → s.stbMode n ≠ 3 → x.pulse = false →
      ∃ t, exec (.strobeDisarm n) s = .next t ∧ t.g b TIM_STB_STAT_ARMED = 0 ∧ t.g b TIM_STB_STAT_ACTIVE = 0 ∧
      RegsBut [b + TIM_STB_STAT.off] s t) ∧
    (s.reaches (b + TIM_STB_CTRL.off) 2 = true → s.stbArmed n = true → s.stbMode n = 3 → s.on b TIM_STB_STAT_ACTIVE = true →
      x.arming = false → s.tim.strobes.length = 8 → ∃ t, exec (.strobeDisarm n) s = .next t ∧ (t.strobe n).ending = true ∧
      t.g b TIM_STB_STAT_ARMED = 1 ∧ RegsBut [] s t) ∧
    (x.ending = true → ∃ t, exec (.syncDisarmCut n) s = .next t ∧ t.g b TIM_STB_STAT_ARMED = 0 ∧
      (t.strobe n).ending = false ∧ RegsBut [b + TIM_STB_STAT.off] s t) ∧
    (x.ending = false → ∃ t, exec (.syncDisarmCut n) s = .next t ∧ t = s) ∧
    (s.stbArmed n = true → s.stbMode n = 1 → x.pulse = false → s.tim.strobes.length = 8 →
      ∃ t, exec (.strobePulseStart n) s = .next t ∧ (t.strobe n).pulse = true ∧ t.g b TIM_STB_STAT_ACTIVE = 1 ∧
      t.g b TIM_STB_SENT = inc32 (s.g b TIM_STB_SENT)) ∧
    (x.pulse = true → x.old = false → s.stbArmed n = true → s.stbMode n = 1 → ∃ t, exec (.strobePulseEnd n) s = .next t ∧
      (t.strobe n).pulse = false ∧ t.g b TIM_STB_STAT_ACTIVE = 0 ∧ t.g b TIM_STB_STAT_ARMED = 0 ∧
      t.g b TIM_STB_STAT_DONE = 1 ∧ t.gBit TIM IRQ_STAT 4 = true ∧ RegsBut [b + TIM_STB_STAT.off, TIM + IRQ_STAT.off] s t) ∧
    (x.pulse = true → x.old = false → x.stepped = false → s.stbArmed n = true → s.stbMode n = 2 → s.g b TIM_STB_COUNT = 0 →
      ∃ t, exec (.strobePulseEnd n) s = .next t ∧ t.strobe n = { x with pulse := false, next := x.next + 1 } ∧
      t.g b TIM_STB_STAT_ARMED = 1 ∧ RegsBut [b + TIM_STB_STAT.off] s t)

/-- A write of DMA_PROD within the ring sets it, one beyond it is refused with cause 4. A fetch accepts the descriptor at
DMA_CONS, a bad one already ended ERROR with DETAIL 4. The write-back of the oldest descriptor that has ended frees it and moves
DMA_DONE on. A software request adds a credit, or is lost and counted at 65535; a withdrawal takes one back, or is counted when
none is left. A halt shows STATE HALTED, its cause and interrupt 1; RESUME goes on; SKIP ends the oldest descriptor ERROR with
the cause and is refused past the point of no return; an ABORT ends the named descriptors ABORTED, and is a MISS where it names
none. (R644, R647, R650, R651, R654, R656, R661.) -/
def Obligations.DmaChannelsFetchHaltAndWriteBack : Prop :=
∀ (s : State) (c : Fin 16) (value : Word) (d : DmaDesc) (r : List DmaDesc) (o detail csum : Nat), s.canonical = true →
    let b := DMA c
    let v := value.toNat
    let x := s.ch c
    let at_ := s.g b DMA_CONS
    let got := s.masterRead (0x20 + c) (s.g b DMA_RING_CFG_ASID) (s.dmaEntry c at_) 64
    let new := (⟨at_, got.2.1.take 56, none⟩ : DmaDesc)
    let runs := s.enabled b = true ∧ s.powered b = true ∧ x.held = false ∧ s.g b DMA_STAT_STATE ≠ 4
    let put := s.masterWrite (0x20 + c) (s.g b DMA_RING_CFG_ASID) (s.dmaEntry c d.idx + 0x38) (leBytes 1 o ++ leBytes 1 detail ++ zeros 2 ++ leBytes 4 csum)
    let ends := fun (l : List DmaDesc) => l.map (fun k => (k.idx, k.body, k.done.map (fun y => (y.1, y.2.1))))
    let credits := s.g b DMA_REQ_STAT_CREDITS
    let named := (d.idx + 2 ^ 32 - s.g b DMA_ABORT_IDX) % 2 ^ 32 < 2 ^ 31
    (s.reaches (b + DMA_PROD.off) v = true → (v + 2 ^ 32 - s.g b DMA_DONE) % 2 ^ 32 ≤ 2 ^ s.g b DMA_RING_CFG_LOG2 →
      ∃ t, exec (.dmaProdWrite c value) s = .next t ∧ t.g b DMA_PROD = v ∧ OnlyRegs [b + DMA_PROD.off] s.claimed t) ∧
    (s.reaches (b + DMA_PROD.off) v = true → 2 ^ s.g b DMA_RING_CFG_LOG2 < (v + 2 ^ 32 - s.g b DMA_DONE) % 2 ^ 32 →
      s.on b PAGE_STAT_BAD_WRITE = false → ∃ t, exec (.dmaProdWrite c value) s = .next t ∧ t.g b PAGE_STAT_BAD_CAUSE = 4 ∧
      t.g b DMA_PROD = s.g b DMA_PROD ∧ OnlyRegs [b + PAGE_STAT.off] s.claimed t) ∧
    (runs → at_ ≠ s.g b DMA_PROD → x.descs.length < 8 → x.abort = none → got.1 = .ok →
      new.bad (s.g b DMA_CFG_REQ_SRC) = false → ∃ t, exec (.dmaDescFetch c none) s = .next t ∧
      (t.ch c).descs = x.descs ++ [new] ∧ t.g b DMA_CONS = inc32 at_ ∧ t.mem = s.mem) ∧
    (runs → at_ ≠ s.g b DMA_PROD → x.descs.length < 8 → x.abort = none → got.1 = .ok →
      new.bad (s.g b DMA_CFG_REQ_SRC) = true → ∃ t, exec (.dmaDescFetch c none) s = .next t ∧
      ends (t.ch c).descs = ends x.descs ++ [(at_, got.2.1.take 56, some (1, 4))] ∧ t.g b DMA_CONS = inc32 at_ ∧
      t.mem = s.mem) ∧
    (at_ = s.g b DMA_PROD → ∃ t, exec (.dmaDescFetch c none) s = .next t ∧ t = s) ∧
    (x.descs = d :: r → d.done = some (o, detail, csum) → put.1 = .ok → ∃ t, exec (.dmaDescEnd c none) s = .next t ∧
      (t.ch c).descs = r ∧ t.g b DMA_DONE = inc32 (s.g b DMA_DONE) ∧ t.mem = put.2.mem ∧ t.hostMem = put.2.hostMem) ∧
    (s.reaches (b + DMA_REQ_CTRL.off) 1 = true → s.g b DMA_CFG_REQ_SRC = 1 → credits ≠ 65535 →
      ∃ t, exec (.dmaReqSoft c) s = .next t ∧ t.g b DMA_REQ_STAT_CREDITS = credits + 1 ∧
      OnlyRegs [b + DMA_REQ_STAT.off] s.claimed t) ∧
    (s.reaches (b + DMA_REQ_CTRL.off) 1 = true → s.g b DMA_CFG_REQ_SRC = 1 → credits = 65535 →
      ∃ t, exec (.dmaReqSoft c) s = .next t ∧ t.g b DMA_CNT_LOST_REQ = min 255 (s.g b DMA_CNT_LOST_REQ + 1) ∧
      OnlyRegs [b + DMA_CNT.off] s.claimed t) ∧
    (s.reaches (b + DMA_REQ_CTRL.off) 2 = true → credits ≠ 0 → ∃ t, exec (.dmaReqWithdraw c) s = .next t ∧
      t.g b DMA_REQ_STAT_CREDITS = credits - 1 ∧ OnlyRegs [b + DMA_REQ_STAT.off] s.claimed t) ∧
    (s.reaches (b + DMA_REQ_CTRL.off) 2 = true → credits = 0 → ∃ t, exec (.dmaReqWithdraw c) s = .next t ∧
      t.g b DMA_CNT_LATE_WITHDRAW = min 255 (s.g b DMA_CNT_LATE_WITHDRAW + 1) ∧ OnlyRegs [b + DMA_CNT.off] s.claimed t) ∧
    (x.descs ≠ [] → s.g b DMA_STAT_STATE ≠ 4 → ∃ t, exec (.dmaHalt c 0) s = .next t ∧ t.g b DMA_STAT_STATE = 4 ∧
      t.g b DMA_STAT_CAUSE = 1 ∧ t.g b DMA_STAT_FETCH = 0 ∧ t.gBit b IRQ_STAT 1 = true ∧
      RegsBut [b + DMA_STAT.off, b + DMA_CNT.off, b + IRQ_STAT.off] s t) ∧
    (x.descs ≠ [] → s.g b DMA_STAT_STATE ≠ 4 → ∃ t, exec (.dmaHalt c 2) s = .next t ∧ t.g b DMA_STAT_STATE = 4 ∧
      t.g b DMA_STAT_CAUSE = 3 ∧ t.gBit b IRQ_STAT 1 = true ∧
      RegsBut [b + DMA_STAT.off, b + DMA_CNT.off, b + IRQ_STAT.off] s t) ∧
    (s.reaches (b + DMA_CTRL.off) 1 = true → s.g b DMA_STAT_STATE = 4 → x.descs ≠ [] → s.dmaShed c = false →
      ∃ t, exec (.dmaResume c) s = .next t ∧ t.g b DMA_STAT_STATE = 1 ∧ t.g b DMA_STAT_CAUSE = 0 ∧
      t.gBit b FAULT_SUM 0 = false ∧ RegsBut [b + DMA_STAT.off, b + FAULT_SUM.off, b + PAGE_STAT.off] s t) ∧
    (s.reaches (b + DMA_CTRL.off) 1 = true → s.g b DMA_STAT_STATE ≠ 4 → ∃ t, exec (.dmaResume c) s = .next t ∧ t = s.claimed) ∧
    (s.reaches (b + DMA_CTRL.off) 2 = true → s.g b DMA_STAT_STATE = 4 → s.on b DMA_STAT_FETCH = false →
      s.on b DMA_STAT_PAST_PNR = false → x.descs = d :: r → s.dmaShed c = false → ∃ t, exec (.dmaSkip c) s = .next t ∧
      t.g b DMA_STAT_STATE = 1 ∧ ends (t.ch c).descs = (d.idx, d.body, some (1, s.g b DMA_STAT_CAUSE)) :: ends r ∧
      t.mem = s.mem) ∧
    (s.reaches (b + DMA_CTRL.off) 2 = true → s.on b DMA_STAT_PAST_PNR = true → s.on b PAGE_STAT_BAD_WRITE = false →
      ∃ t, exec (.dmaSkip c) s = .next t ∧ t.g b PAGE_STAT_BAD_CAUSE = 4 ∧ OnlyRegs [b + PAGE_STAT.off] s.claimed t) ∧
    (s.reaches (b + DMA_CTRL.off) 4 = true → x.descs = [] → at_ = s.g b DMA_PROD → ∃ t, exec (.dmaAbort c) s = .next t ∧
      t.g b DMA_ABORT_STAT_RESULT = 3 ∧ t.g b DMA_ABORT_STAT_COUNT = 0 ∧ t.gBit b IRQ_STAT 2 = true ∧
      RegsBut [b + DMA_ABORT_STAT.off, b + IRQ_STAT.off] s t) ∧
    (s.reaches (b + DMA_CTRL.off) 4 = true → x.descs = [d] → d.done = none → named → at_ = s.g b DMA_PROD →
      at_ = inc32 d.idx → s.on b DMA_STAT_PAST_PNR = false → ∃ t, exec (.dmaAbort c) s = .next t ∧
      t.g b DMA_ABORT_STAT_RESULT = 1 ∧ t.g b DMA_ABORT_STAT_COUNT = 1 ∧ t.gBit b IRQ_STAT 2 = true ∧
      (t.ch c).descs.map (fun (k : DmaDesc) => k.done.map (fun y => (y.1, y.2.1))) = [some (3, 0)] ∧ t.mem = s.mem)

/-- One chunk of a COPY of a single element of at most 4096 bytes without a checksum reads it at its source, writes the same
bytes at its destination and ends DONE; of a FILL it writes the pattern; of a CHECK without a checksum store it writes nothing
and ends DONE with the checksum of the bytes read; a NOP ends DONE at once. A chunk of an operation that the channel is not at,
changes nothing. (R646, R648, R649, R655.) -/
def Obligations.DmaDescriptorsMoveTheirBytes : Prop :=
∀ (s : State) (c : Fin 16) (d : DmaDesc) (n : Nat) (err : Option Bool), s.canonical = true →
    let x := s.ch c
    let q := (s.dmaBegin c d).dmaPay c d
    let single := x.began = false ∧ d.waitReq = false ∧ bitOf d.ctrl 8 = false ∧ bitOf d.ctrl 9 = false ∧ d.count 0 = 1 ∧ d.count 1 = 1 ∧ d.count 2 = 1 ∧ 1 ≤ d.elem ∧ d.elem ≤ 4096
    let got := q.dmaRead c (leAt d.body 2 1) (d.addr false 0 0 0) d.elem
    let put := got.2.2.dmaStore c (leAt d.body 3 1) (d.addr true 0 0 0) got.2.1
    let fill := q.dmaStore c (leAt d.body 3 1) (d.addr true 0 0 0) (d.pattern 0 d.elem)
    let run := csumBytes d.csum (d.csumStart none) got.2.1
    (s.dmaHead c 0 = some d → s.dmaRuns c = true → single → d.csum = 0 → got.1 = .ok → got.2.1.length = d.elem →
      put.1 = .ok → put.2.dmaHead c 0 = some d → ∃ t, exec (.dmaCopy c 1 none) s = .next t ∧
      (t.ch c).descs.head?.map (fun k => k.done) = some (some (0, 0, 0)) ∧ t.mem = put.2.mem ∧ t.hostMem = put.2.hostMem) ∧
    (s.dmaHead c 1 = some d → s.dmaRuns c = true → single → d.csum = 0 → fill.1 = .ok → fill.2.dmaHead c 1 = some d →
      ∃ t, exec (.dmaFill c 1) s = .next t ∧ (t.ch c).descs.head?.map (fun k => k.done) = some (some (0, 0, 0)) ∧
      t.mem = fill.2.mem ∧ t.hostMem = fill.2.hostMem) ∧
    (s.dmaHead c 2 = some d → s.dmaRuns c = true → single → addrRegion (d.addr false 0 0 0) d.elem ≠ some 1 → got.1 = .ok →
      got.2.1.length = d.elem → ∃ t, exec (.dmaCheck c 1 none) s = .next t ∧
      (t.ch c).descs.head?.map (fun k => k.done) = some (some (0, 0, csumFinal d.csum run)) ∧ t.mem = s.mem ∧
      t.hostMem = s.hostMem) ∧
    (s.dmaHead c 3 = some d → s.dmaRuns c = true → d.csum = 0 → ∃ t, exec (.dmaNop c) s = .next t ∧
      (t.ch c).descs.head?.map (fun k => k.done) = some (some (0, 0, 0)) ∧ t.mem = s.mem) ∧
    (s.dmaHead c 3 = none → ∃ t, exec (.dmaNop c) s = .next t ∧ t = s) ∧
    (s.dmaHead c 0 = none → ∃ t, exec (.dmaCopy c n err) s = .next t ∧ t = s) ∧
    (s.dmaHead c 1 = none → ∃ t, exec (.dmaFill c n) s = .next t ∧ t = s) ∧
    (s.dmaHead c 2 = none → ∃ t, exec (.dmaCheck c n err) s = .next t ∧ t = s)

/-- DISPLAY_FRAME_START of a running display advances the frame number, starts at line 0 out of blanking and raises interrupt 0;
DISPLAY_LATCH at a line that R602 to R604 admit takes the latch and shows blanking. HPD_LOSS clears HPD and VIDEO and raises
interrupt 1, HPD_ASSERT sets HPD, and an HPD pulse raises interrupt 2. AUX_GO starts the transaction that the registers hold,
and is refused with cause 4 while one runs; AUX_END records the reply and raises interrupt 3. (R597-R604.) -/
def Obligations.DisplayFollowsItsCommands : Prop :=
∀ (s : State) (missing : List (Nat × Nat × Nat)) (fail : Option (Nat × Nat × Bool × Bool)) (line : Nat) (value : Word) (reply
    : Fin 5) (count : Fin 17) (bytes : List Byte) (cmd len : Nat), s.canonical = true →
    let v := value.toNat ||| 2 ^ 31
    let runs := s.enabled DSP = true ∧ s.powered DSP = true
    (s.enabled DSP = false → ∃ t, exec (.displayFrameStart missing fail) s = .next t ∧ t = s) ∧
    (runs → s.on DSP DSP_STAT_STOPPED = false → ∃ t, exec (.displayFrameStart missing fail) s = .next t ∧
      t.g64 DSP DSP_DFN_LO = (s.g64 DSP DSP_DFN_LO + 1) % 2 ^ 64 ∧ t.g DSP DSP_STAT_VBLANK = 0 ∧ t.g DSP DSP_STAT_LINE = 0 ∧
      t.gBit DSP IRQ_STAT 0 = true ∧ t.dsp.latch = none ∧ t.mem = s.mem) ∧
    (runs → s.dsp.latch = none → s.dspLatchOk line = true → ∃ t, exec (.displayLatch line) s = .next t ∧
      t.dsp.latch = some line ∧ t.g DSP DSP_STAT_VBLANK = 1 ∧ t.g DSP DSP_STAT_LINE = line % 65536 ∧ t.mem = s.mem) ∧
    (s.dspLatchOk line = false → ∃ t, exec (.displayLatch line) s = .next t ∧ t = s) ∧
    (s.powered DSP = true → s.on DSP DSP_STAT_HPD = true → ∃ t, exec .hpdLoss s = .next t ∧ t.dsp.hpd = false ∧
      t.g DSP DSP_STAT_HPD = 0 ∧ t.g DSP DSP_STAT_VIDEO = 0 ∧ t.gBit DSP IRQ_STAT 1 = true ∧
      RegsBut [DSP + DSP_STAT.off, DSP + IRQ_STAT.off] s t) ∧
    (s.powered DSP = true → s.on DSP DSP_STAT_HPD = true → ∃ t, exec .hpdIrqPulse s = .next t ∧
      t.gBit DSP IRQ_STAT 2 = true ∧ RegsBut [DSP + IRQ_STAT.off] s t) ∧
    (s.powered DSP = true → ∃ t, exec .hpdAssert s = .next t ∧ t.dsp.hpd = true ∧ t.g DSP DSP_STAT_HPD = 1 ∧
      OnlyRegs [DSP + DSP_STAT.off] { s with dsp := t.dsp } t) ∧
    (s.reaches (DSP + DSP_AUX_CMD.off) v = true → s.on DSP DSP_AUX_STAT_BUSY = false → ∃ t, exec (.auxGo value) s = .next t ∧
      t.dsp.aux = some (fld v 0 4, fld v 8 4 + 1) ∧ t.g DSP DSP_AUX_STAT = 1 ∧ t.out.length = s.claimed.out.length + 1 ∧
      OnlyRegs [DSP + DSP_AUX_STAT.off] { s.claimed with dsp := t.dsp, out := t.out } t) ∧
    (s.reaches (DSP + DSP_AUX_CMD.off) v = true → s.on DSP DSP_AUX_STAT_BUSY = true → s.on DSP PAGE_STAT_BAD_WRITE = false →
      ∃ t, exec (.auxGo value) s = .next t ∧ t.g DSP PAGE_STAT_BAD_CAUSE = 4 ∧ OnlyRegs [DSP + PAGE_STAT.off] s.claimed t) ∧
    (s.dsp.aux = some (cmd, len) → cmd % 2 = 0 → ∃ t, exec (.auxEnd reply count bytes) s = .next t ∧ t.dsp.aux = none ∧
      t.g DSP DSP_AUX_STAT_BUSY = 0 ∧ t.g DSP DSP_AUX_STAT_REPLY = reply.val + 1 ∧
      t.g DSP DSP_AUX_STAT_COUNT = min count.val len ∧ t.gBit DSP IRQ_STAT 3 = true ∧
      RegsBut [DSP + DSP_AUX_STAT.off, DSP + IRQ_STAT.off] s t) ∧
    (s.dsp.aux = none → ∃ t, exec (.auxEnd reply count bytes) s = .next t ∧ t = s)

/-- TRANSLATION_WALK_END in a LOCAL space whose walk finds a page with the access's permission caches it, one that finds a fault
leaves it for the master; in an ATS space a completion with the permission is cached and an error leaves a fault. A response
resolves the outstanding request of its index, and one for an index that is not outstanding in LOCAL mode is refused with cause
4. A Response Failure stops page requests with interrupt 4 until PRI_RESET. PRQ_TIMEOUT leaves a fault for every waiting access
and keeps the index. ATS_INVALIDATE drops the range's translations; XLT_INVALIDATE drops those of LOCAL spaces in its scope and
shows PENDING until XLT_INV_DONE; ATS_ENABLE_CHANGE without ATS Enable drops every request. (R629, R631, R633-R636, R638-R640.)
-/
def Obligations.TranslationFollowsItsCommands : Prop :=
∀ (s : State) (asid : Fin 64) (master addr size out : Nat) (write rd wr tableErr rewalkErr enable : Bool) (comp : Option (Nat
    × Nat × Bool × Bool)) (value : Word) (index : Fin 512) (scope : Fin 3) (r : PageReq) (a : AtsReq) (kind : Nat),
    s.canonical = true →
    let x := addr % 2 ^ 48
    let mode := s.asMode asid
    let wave := value.toNat
    let u := s.claimed.resolveRequest r (fld wave 16 2 == 1)
    let ctrl := asid.val + 256 * scope.val + 2 ^ 31
    let local_ := fun (e : Xlation) => s.g (asBase e.asid) XLT_AS_CFG_MODE == 1
    let hits := fun (e : Xlation) => e.asid == asid.val && decide (e.base < addr + size) && decide (addr < e.base + e.size)
    (mode = 1 → s.armedFor 190 0 = false → s.walk asid x = .page out size rd wr → (if write then wr else rd) = true →
      ∃ t, exec (.translationWalkEnd master asid addr write false rewalkErr comp) s = .next t ∧
      t.xlt.cache.contains ⟨xltGroup master, asid, x / size * size, size, out, rd, wr⟩ = true ∧ t.xlt.faults = s.xlt.faults ∧
      t.mem = s.mem) ∧
    (mode = 1 → s.armedFor 190 0 = false → s.walk asid x = .fault kind →
      ∃ t, exec (.translationWalkEnd master asid addr write false rewalkErr comp) s = .next t ∧
      t.xlt.faults = s.xlt.faults ++ [(master, asid.val, x / 4096)] ∧ t.xlt.cache = s.xlt.cache ∧ t.hostMem = s.hostMem) ∧
    (mode = 2 → s.xlt.ats = [a] → a.asid = asid.val → a.page = x / 4096 → a.stale = false →
      (if a.waiter.write then wr else rd) = true →
      ∃ t, exec (.translationWalkEnd master asid addr write tableErr rewalkErr (some (out, size, rd, wr))) s = .next t ∧
      t.xlt.ats = [] ∧ t.xlt.cache.any (fun e => e.covers (xltGroup a.waiter.master) asid a.waiter.addr) = true ∧
      t.mem = s.mem) ∧
    (mode = 2 → s.xlt.ats = [a] → a.asid = asid.val → a.page = x / 4096 → a.stale = false →
      ∃ t, exec (.translationWalkEnd master asid addr write tableErr rewalkErr none) s = .next t ∧ t.xlt.ats = [] ∧
      t.xlt.faults = s.xlt.faults ++ [(a.waiter.master, asid.val, a.waiter.addr / 4096)] ∧ t.xlt.cache = s.xlt.cache) ∧
    (s.reaches (XLT + XLT_PRQ_RESP.off) wave = true → s.xlt.requests = [r] → r.index = fld wave 0 9 → r.ats = false →
      ∃ t, exec (.prqResponse value) s = .next t ∧ u.xlt.requests = [] ∧ u.g XLT XLT_STAT_PRQ_OUT = 0 ∧ t = u.wake) ∧
    (s.reaches (XLT + XLT_PRQ_RESP.off) wave = true → s.xlt.requests.all (fun q => q.ats || q.index != fld wave 0 9) = true →
      ∃ t, exec (.prqResponse value) s = .next t ∧ t = (s.claimed.refuse4 (XLT + XLT_PRQ_RESP.off)).wake) ∧
    (s.xlt.requests = [r] → r.index = index.val → r.ats = true → ∃ t, exec (.prgResponse index 0) s = .next t ∧
      (s.resolveRequest r true).xlt.requests = [] ∧ t = (s.resolveRequest r true).wake) ∧
    (∃ t, exec (.prgResponse index 2) s = .next t ∧ t.g XLT XLT_STAT_PRI_STOPPED = 1 ∧ t.gBit XLT FAULT_SUM 1 = true ∧
      t.gBit XLT IRQ_STAT 4 = true) ∧
    (s.xlt.requests = [r] → r.index = index.val → r.timedOut = false → s.masterOn = true →
      ∃ t, exec (.prqTimeout index) s = .next t ∧ t.xlt.requests = [{ r with waiters := [], timedOut := true }] ∧
      t.xlt.faults = s.xlt.faults ++ r.waiters.map (fun w => (w.master, r.asid, w.addr / 4096)) ∧ t.hostMem = s.hostMem) ∧
    (s.xlt.requests = [] → ∃ t, exec (.prqTimeout index) s = .next t ∧ t = s) ∧
    (s.xlt.ats = [] → ∃ t, exec (.atsInvalidate asid addr size) s = .next t ∧
      t.xlt = { s.xlt with cache := s.xlt.cache.filter (fun e => !hits e) } ∧ OnlyRegs [] { s with xlt := t.xlt } t) ∧
    (s.reaches (XLT + XLT_INV_CTRL.off) ctrl = true → s.on XLT XLT_INV_STAT_PENDING = false → scope = 0 →
      ∃ t, exec (.xltInvalidate scope asid) s = .next t ∧ t.xlt.cache = s.xlt.cache.filter (fun e => !local_ e) ∧
      t.g XLT XLT_INV_STAT_PENDING = 1 ∧ OnlyRegs [XLT + XLT_INV_STAT.off] { s.claimed with xlt := t.xlt } t) ∧
    (s.reaches (XLT + XLT_INV_CTRL.off) ctrl = true → s.on XLT XLT_INV_STAT_PENDING = false → scope = 1 →
      ∃ t, exec (.xltInvalidate scope asid) s = .next t ∧
      t.xlt.cache = s.xlt.cache.filter (fun e => !(local_ e && e.asid == asid.val)) ∧ t.g XLT XLT_INV_STAT_PENDING = 1) ∧
    (s.reaches (XLT + XLT_INV_CTRL.off) ctrl = true → s.on XLT XLT_INV_STAT_PENDING = true →
      s.on XLT PAGE_STAT_BAD_WRITE = false → ∃ t, exec (.xltInvalidate scope asid) s = .next t ∧
      t.g XLT PAGE_STAT_BAD_CAUSE = 4 ∧ OnlyRegs [XLT + PAGE_STAT.off] s.claimed t) ∧
    (s.on XLT XLT_INV_STAT_PENDING = true → ∃ t, exec .xltInvDone s = .next t ∧ t.g XLT XLT_INV_STAT_PENDING = 0 ∧
      t.gBit XLT IRQ_STAT 2 = true ∧ RegsBut [XLT + XLT_INV_STAT.off, XLT + IRQ_STAT.off] s t) ∧
    (s.on XLT XLT_INV_STAT_PENDING = false → ∃ t, exec .xltInvDone s = .next t ∧ t = s) ∧
    (∃ t, exec (.atsEnableChange true) s = .next t ∧ t.g XLT XLT_STAT_ATS_EN = 1 ∧ OnlyRegs [XLT + XLT_STAT.off] s t) ∧
    (∃ t, exec (.atsEnableChange false) s = .next t ∧ t.g XLT XLT_STAT_ATS_EN = 0 ∧ t.xlt.ats = [] ∧
      t.xlt.cache = s.xlt.cache.filter (fun e => !(s.g (asBase e.asid) XLT_AS_CFG_MODE == 2)) ∧
      OnlyRegs [XLT + XLT_STAT.off] { s with xlt := t.xlt } t) ∧
    (∃ t, exec (.priReset enable) s = .next t ∧ t.g XLT XLT_STAT_PRI_STOPPED = 0 ∧ t.g XLT XLT_STAT_PRI_EN = b2n enable ∧
      t.gBit XLT FAULT_SUM 1 = false ∧ OnlyRegs [XLT + XLT_STAT.off, XLT + FAULT_SUM.off, XLT + PAGE_STAT.off] s t)

/-- An event that is not LASTING, of a source that has no switch-over and stays within its threshold, counts it and shows
TRANSIENT; a LASTING one shows LASTING and is logged; a reserved source changes nothing. BIT_EVENT_AGE_OUT of a source that is
not SEVERE and whose events have all left the window shows QUIET. SRC_CLEAR returns a source to QUIET with COUNT 0.
FAULTN_ASSERT asserts FAULT_N with a new minimum; a RELEASE is held during the minimum and takes effect at FAULTN_MIN_END, else
at once, and does nothing while FAULT_N is not asserted. LOG_POP takes the oldest entry, LOG_CLR_OVF clears OVERFLOW and its
fault. (R666-R673.) -/
def Obligations.FaultCollectorFollowsItsCommands : Prop :=
∀ (s : State) (source : Fin 512) (n : Nat) (unit : BitVec 8) (detail : Word) (e : LogEntry) (rest : List LogEntry),
    s.canonical = true →
    let b := bitSrc source
    let quiet := 96 ≤ source.val ∧ source.val < 127
    let within := (s.srcEvents source).length
    let m := n % 512
    (quiet → s.g b BIT_SRC_STAT_STATE < 2 → within < s.g b BIT_SRC_CFG_N_M1 →
      ∃ t, exec (.faultEvent source unit detail false) s = .next t ∧ t.g b BIT_SRC_STAT_STATE = 1 ∧
      t.g b BIT_SRC_STAT_COUNT = within + 1 ∧ t.g b BIT_SRC_STAT_TOTAL = min 4095 (s.g b BIT_SRC_STAT_TOTAL + 1) ∧
      t.g b BIT_SRC_STAT_UNIT = unit.toNat ∧ t.mem = s.mem) ∧
    (quiet → s.bit.log.length < 64 → ∃ t, exec (.faultEvent source unit detail true) s = .next t ∧
      t.g b BIT_SRC_STAT_STATE = 3 ∧ t.gBit (BIT + 4 * (source / 32)) BIT_SEV (source % 32) = true ∧
      t.g b BIT_SRC_STAT_TOTAL = min 4095 (s.g b BIT_SRC_STAT_TOTAL + 1) ∧
      t.bit.log = s.bit.log ++ [⟨source, 2, false, false, detail.toNat, s.time⟩] ∧ t.mem = s.mem) ∧
    (srcReserved source = true → ∃ t, exec (.faultEvent source unit detail false) s = .next t ∧ t = s) ∧
    (srcReserved source = false → s.srcEvents source = [] → s.g b BIT_SRC_STAT_STATE < 2 →
      ∃ t, exec (.bitEventAgeOut source) s = .next t ∧ t.g b BIT_SRC_STAT_STATE = 0 ∧ t.g b BIT_SRC_STAT_COUNT = 0 ∧
      t.mem = s.mem) ∧
    (s.reaches (BIT + BIT_SRC_CLEAR.off) (m + 2 ^ 31) = true → srcReserved m = false → ∃ t, exec (.srcClear n) s = .next t ∧
      t.g (bitSrc m) BIT_SRC_STAT_STATE = 0 ∧ t.g (bitSrc m) BIT_SRC_STAT_COUNT = 0 ∧
      t.gBit (BIT + 4 * (m / 32)) BIT_SEV (m % 32) = false ∧ t.bit.events = s.bit.events.filter (fun x => x.src != m) ∧
      t.mem = s.mem) ∧
    (s.reaches (BIT + BIT_FAULTN_CTRL.off) 2 = true → s.on BIT BIT_FAULTN_STAT_ASSERTED = false →
      ∃ t, exec .faultnAssert s = .next t ∧ t.g BIT BIT_FAULTN_STAT_ASSERTED = 1 ∧ t.g BIT BIT_FAULTN_STAT_IN_MIN = 1 ∧
      t.g BIT BIT_FAULTN_STAT_HOST = 1 ∧ t.bit.heldRelease = false ∧ t.gBit BIT IRQ_STAT 4 = true ∧
      RegsBut [BIT + BIT_FAULTN_STAT.off, BIT + IRQ_STAT.off] s t) ∧
    (s.reaches (BIT + BIT_FAULTN_CTRL.off) 1 = true → s.on BIT BIT_FAULTN_STAT_ASSERTED = false →
      ∃ t, exec .faultnRelease s = .next t ∧ t = s.claimed) ∧
    (s.reaches (BIT + BIT_FAULTN_CTRL.off) 1 = true → s.on BIT BIT_FAULTN_STAT_ASSERTED = true →
      s.on BIT BIT_FAULTN_STAT_IN_MIN = true → ∃ t, exec .faultnRelease s = .next t ∧ t.bit.heldRelease = true ∧
      OnlyRegs [] { s.claimed with bit := t.bit } t) ∧
    (s.reaches (BIT + BIT_FAULTN_CTRL.off) 1 = true → s.on BIT BIT_FAULTN_STAT_ASSERTED = true →
      s.on BIT BIT_FAULTN_STAT_IN_MIN = false → ∃ t, exec .faultnRelease s = .next t ∧ t.g BIT BIT_FAULTN_STAT = 0 ∧
      t.out = .faultN false :: s.claimed.out ∧ OnlyRegs [BIT + BIT_FAULTN_STAT.off] { s.claimed with out := t.out } t) ∧
    (s.on BIT BIT_FAULTN_STAT_IN_MIN = true → s.bit.heldRelease = false → ∃ t, exec .faultnMinEnd s = .next t ∧
      t.g BIT BIT_FAULTN_STAT_IN_MIN = 0 ∧ t.g BIT BIT_FAULTN_STAT_ASSERTED = s.g BIT BIT_FAULTN_STAT_ASSERTED ∧
      OnlyRegs [BIT + BIT_FAULTN_STAT.off] s t) ∧
    (s.on BIT BIT_FAULTN_STAT_IN_MIN = true → s.bit.heldRelease = true → ∃ t, exec .faultnMinEnd s = .next t ∧
      t.g BIT BIT_FAULTN_STAT = 0 ∧ t.bit.heldRelease = false ∧ t.out = .faultN false :: s.out) ∧
    (s.reaches (BIT + BIT_LOG_CTRL.off) 1 = true → s.bit.log = e :: rest → ∃ t, exec .logPop s = .next t ∧ t.bit.log = rest ∧
      t.g BIT BIT_LOG_STAT_COUNT = rest.length % 128 ∧ OnlyRegs [BIT + BIT_LOG_STAT.off] { s.claimed with bit := t.bit } t) ∧
    (s.reaches (BIT + BIT_LOG_CTRL.off) 2 = true → ∃ t, exec .logClrOvf s = .next t ∧ t.g BIT BIT_LOG_STAT_OVERFLOW = 0 ∧
      t.gBit BIT FAULT_SUM 1 = false ∧
      OnlyRegs [BIT + BIT_LOG_STAT.off, BIT + FAULT_SUM.off, BIT + PAGE_STAT.off] s.claimed t)

/-- INJ_ARM of a source and unit that R677 admits arms the injection, else it is refused with cause 4; INJ_DISARM and INJ_EXPIRY
end an armed one, the expiry with interrupt 5. TEST_START of a target that R682 admits runs the test, else it is refused;
TEST_STOP aborts a running test with interrupt 6; TEST_END of a running one shows PASS, or FAIL with a log entry, and interrupt
6, and without one changes nothing. (R677, R678, R682-R684.) -/
def Obligations.InjectionAndSelfTestsFollowTheirRules : Prop :=
∀ (s : State) (part : Nat) (detail : Word) (pass : Bool), s.canonical = true →
    let state := s.g BIT BIT_INJ_STAT_STATE
    let test := s.g BIT BIT_TEST_STAT_STATE
    (s.reaches (BIT + BIT_INJ_CTRL.off) 1 = true → s.claimed.armRefused = false → ∃ t, exec .injArm s = .next t ∧
      t.g BIT BIT_INJ_STAT_STATE = 1 ∧ t.g BIT BIT_INJ_STAT_REAL = 0 ∧ OnlyRegs [BIT + BIT_INJ_STAT.off] s.claimed t) ∧
    (s.reaches (BIT + BIT_INJ_CTRL.off) 1 = true → s.claimed.armRefused = true → s.on BIT PAGE_STAT_BAD_WRITE = false →
      ∃ t, exec .injArm s = .next t ∧ t.g BIT PAGE_STAT_BAD_CAUSE = 4 ∧ t.g BIT BIT_INJ_STAT_STATE = state ∧
      OnlyRegs [BIT + PAGE_STAT.off] s.claimed t) ∧
    (s.reaches (BIT + BIT_INJ_CTRL.off) 2 = true → state = 1 → ∃ t, exec .injDisarm s = .next t ∧
      t.g BIT BIT_INJ_STAT_STATE = 4 ∧ OnlyRegs [BIT + BIT_INJ_STAT.off] s.claimed t) ∧
    (s.reaches (BIT + BIT_INJ_CTRL.off) 2 = true → state ≠ 1 → ∃ t, exec .injDisarm s = .next t ∧ t = s.claimed) ∧
    (state = 1 → ∃ t, exec .injExpiry s = .next t ∧ t.g BIT BIT_INJ_STAT_STATE = 3 ∧ t.gBit BIT IRQ_STAT 5 = true ∧
      RegsBut [BIT + BIT_INJ_STAT.off, BIT + IRQ_STAT.off] s t) ∧
    (state ≠ 1 → ∃ t, exec .injExpiry s = .next t ∧ t = s) ∧
    (s.reaches (BIT + BIT_TEST_CTRL.off) 1 = true → s.claimed.testRefused = false → s.g BIT BIT_TEST_CFG_KIND ≠ 6 →
      ∃ t, exec .testStart s = .next t ∧ t.g BIT BIT_TEST_STAT_STATE = 1 ∧ OnlyRegs [BIT + BIT_TEST_STAT.off] s.claimed t) ∧
    (s.reaches (BIT + BIT_TEST_CTRL.off) 1 = true → s.claimed.testRefused = true → s.on BIT PAGE_STAT_BAD_WRITE = false →
      ∃ t, exec .testStart s = .next t ∧ t.g BIT PAGE_STAT_BAD_CAUSE = 4 ∧ OnlyRegs [BIT + PAGE_STAT.off] s.claimed t) ∧
    (s.reaches (BIT + BIT_TEST_CTRL.off) 2 = true → test = 1 → ∃ t, exec .testStop s = .next t ∧
      t.g BIT BIT_TEST_STAT_STATE = 4 ∧ t.gBit BIT IRQ_STAT 6 = true ∧
      RegsBut [BIT + BIT_TEST_STAT.off, BIT + IRQ_STAT.off] s t) ∧
    (test ≠ 1 → ∃ t, exec (.testEnd pass part detail) s = .next t ∧ t = s) ∧
    (test = 1 → ∃ t, exec (.testEnd true part detail) s = .next t ∧ t.g BIT BIT_TEST_STAT_STATE = 2 ∧
      t.gBit BIT IRQ_STAT 6 = true ∧ RegsBut [BIT + BIT_TEST_STAT.off, BIT + IRQ_STAT.off] s t) ∧
    (test = 1 → s.g BIT BIT_TEST_CFG_KIND = 5 → s.bit.log.length < 63 → ∃ t, exec (.testEnd false part detail) s = .next t ∧
      t.g BIT BIT_TEST_STAT_STATE = 3 ∧ t.gBit BIT IRQ_STAT 6 = true ∧
      t.bit.log = s.bit.log ++ [⟨124, 3, false, false, detail.toNat, s.time⟩, ⟨124, 2, false, false, detail.toNat, s.time⟩] ∧
      t.g (bitSrc 124) BIT_SRC_STAT_STATE = 3 ∧ t.mem = s.mem)

/-- PACE_WINDOW_END gives PWR_SHED.EXH the powered units whose headroom is below 0 and PWR_MIN_HEAD the least headroom of the
powered units; no step changes without such a unit, nor beyond the last. SHED_RELEASE of a calm device outside a shutdown takes
one step off; otherwise it changes nothing. SUPPLY_LOOP_WINDOW sends SET of a code UP above below RAISE_THR, four times UP above
below EMERG_THR, never above VMAX, GET while the loop is held, not enabled or satisfied, and a frame that had no good answer
once more. An OK answer of a SET gives ACK and clears BUSY and the hold, one of a GET gives MEAS; the first bad answer asks for
a retry and the second holds the loop. AVS_RAISE_TIMEOUT retries a raise once, and then holds the loop. (R18-R20, R275-R277,
R694, R702-R706.) -/
def Obligations.SupplyAndSheddingFollowTheirWindows : Prop :=
∀ (s : State) (counts : List Nat) (answer : BitVec 24) (f code : Nat), s.canonical = true →
    let on := (List.range 17).filter (fun u => s.domOn (unitDomain u))
    let hr := fun (u : Nat) => headroom (nth 0 counts u) (s.unitNeed false u)
    let step := s.g PWR PWR_SHED_STEP
    let head := sint 16 (s.g PWR PWR_MIN_HEAD_H)
    let req := s.g PWR PWR_VFAB_REQ
    let vmax := s.g PWR PWR_VLIM_VMAX
    let up := s.g PWR PWR_LOOP_STEP_UP
    let far := min (req + 4 * up) vmax
    let near := min (req + up) vmax
    let v := answer.toNat
    let good := avsWord (v / 256) = v ∧ fld v 22 2 = 0
    let loopRegs := [PWR + PWR_VFAB.off, PWR + PWR_AVS_CNT.off]
    let quietCodec := (List.range 64).all (fun c => (s.cx c).current.isNone && s.g (ctxBase c) CTX_CFG_MODE == 0 && !s.on (ctxBase c) CTX_STAT_SHED)
    (counts.length = 17 → on.all (fun u => decide (0 ≤ hr u)) = true → ∃ t, exec (.paceWindowEnd counts) s = .next t ∧
      t.g PWR PWR_SHED_EXH = 0 ∧ t.g PWR PWR_SHED_STEP = step ∧
      on.all (fun u => decide (sint 16 (t.g PWR PWR_MIN_HEAD_H) ≤ hr u)) = true ∧
      (on ≠ [] → on.any (fun u => decide (sint 16 (t.g PWR PWR_MIN_HEAD_H) = hr u)) = true) ∧
      t.g PWR PWR_EXH_CNT = s.g PWR PWR_EXH_CNT ∧ t.shed.scope = s.shed.scope ∧ t.mem = s.mem) ∧
    (counts.length = 17 → on.any (fun u => decide (hr u < 0)) = true → step = 11 →
      ∃ t, exec (.paceWindowEnd counts) s = .next t ∧
      (List.range 17).all (fun u => bitOf (t.g PWR PWR_SHED_EXH) u == (on.contains u && decide (hr u < 0))) = true ∧
      t.g PWR PWR_SHED_STEP = 11 ∧ t.g PWR PWR_EXH_CNT = min (s.g PWR PWR_EXH_CNT + 1) (2 ^ 32 - 1) ∧
      t.gBit PWR FAULT_SUM 1 = true ∧ t.mem = s.mem) ∧
    (step ≠ 0 → s.shed.calm = true → s.g THM THM_STAT_STAGE = 0 → quietCodec = true → ∃ t, exec .shedRelease s = .next t ∧
      t.g PWR PWR_SHED_STEP = step - 1 ∧ t.gBit PWR IRQ_STAT 1 = true ∧ t.mem = s.mem) ∧
    ((step = 0 ∨ s.shed.calm = false ∨ s.g THM THM_STAT_STAGE ≠ 0) → ∃ t, exec .shedRelease s = .next t ∧ t = s) ∧
    (s.supply.again = none → s.supply.raiseDue = false → s.supply.held = false → s.on PWR PWR_LOOP_CFG_EN = true →
      s.supply.raise = none → head < (s.g PWR PWR_LOOP_STEP_EMERG_THR : Int) → req < vmax → up ≠ 0 →
      ∃ t, exec .supplyLoopWindow s = .next t ∧ t.g PWR PWR_VFAB_REQ = far ∧ t.supply.asked = some (avsSet far) ∧
      t.supply.raise = some (far, false) ∧ t.out.head? = some (.avs (avsSet far)) ∧
      OnlyRegs loopRegs { s with supply := t.supply, out := t.out } t) ∧
    (s.supply.again = none → s.supply.raiseDue = false → s.supply.held = false → s.on PWR PWR_LOOP_CFG_EN = true →
      s.supply.raise = none → (s.g PWR PWR_LOOP_STEP_EMERG_THR : Int) ≤ head →
      head < (s.g PWR PWR_LOOP_CFG_RAISE_THR : Int) → req < vmax → up ≠ 0 → ∃ t, exec .supplyLoopWindow s = .next t ∧
      t.g PWR PWR_VFAB_REQ = near ∧ t.supply.asked = some (avsSet near) ∧ t.supply.raise = some (near, false) ∧
      t.mem = s.mem) ∧
    (s.supply.again = none → s.supply.raiseDue = false → (s.supply.held = true ∨ s.on PWR PWR_LOOP_CFG_EN = false) →
      ∃ t, exec .supplyLoopWindow s = .next t ∧ t.g PWR PWR_VFAB_REQ = req ∧ t.supply.asked = some avsGet ∧
      t.out.head? = some (.avs avsGet) ∧ t.regs = s.regs) ∧
    (s.supply.again = some f → ∃ t, exec .supplyLoopWindow s = .next t ∧ t.supply.asked = some f ∧ t.supply.again = none ∧
      t.supply.retried = true ∧ t.g PWR PWR_AVS_CNT_RETRIES = min (s.g PWR PWR_AVS_CNT_RETRIES + 1) 0xFFFF ∧
      OnlyRegs [PWR + PWR_AVS_CNT.off] { s with supply := t.supply, out := t.out } t) ∧
    (s.supply.asked = none → ∃ t, exec (.avsAnswer none) s = .next t ∧ t = s) ∧
    (s.supply.asked = some f → avsIsSet f = true → good → ∃ t, exec (.avsAnswer (some answer)) s = .next t ∧
      t.g PWR PWR_VFAB_ACK = fld v 14 8 ∧ t.g PWR PWR_VFAB_BUSY = 0 ∧ t.supply.held = false ∧ t.supply.asked = none ∧
      t.gBit PWR FAULT_SUM 0 = false ∧ t.mem = s.mem) ∧
    (s.supply.asked = some f → avsIsSet f = false → s.supply.raise = none → good →
      ∃ t, exec (.avsAnswer (some answer)) s = .next t ∧ t.g PWR PWR_VFAB_MEAS = fld v 14 8 ∧ t.g PWR PWR_VFAB_BUSY = 0 ∧
      t.supply.held = false ∧
      OnlyRegs [PWR + PWR_VFAB.off, PWR + FAULT_SUM.off, PWR + PAGE_STAT.off] { s with supply := t.supply } t) ∧
    (s.supply.asked = some f → s.supply.retried = false → avsWord (v / 256) ≠ v →
      ∃ t, exec (.avsAnswer (some answer)) s = .next t ∧ t.supply.again = some f ∧ t.supply.asked = none ∧ t.regs = s.regs) ∧
    (s.supply.asked = some f → s.supply.retried = true → ∃ t, exec (.avsAnswer none) s = .next t ∧ t.supply.held = true ∧
      t.supply.asked = none ∧ t.gBit PWR IRQ_STAT 2 = true ∧ t.gBit PWR FAULT_SUM 0 = true ∧ t.g PWR PWR_VFAB_REQ = req ∧
      t.mem = s.mem) ∧
    (s.supply.raise = none → ∃ t, exec .avsRaiseTimeout s = .next t ∧ t = s) ∧
    (s.supply.raise = some (code, false) → ∃ t, exec .avsRaiseTimeout s = .next t ∧ t.supply.raise = some (code, true) ∧
      t.supply.again = some (avsSet code) ∧ t.g PWR PWR_VFAB_REQ = req ∧ t.mem = s.mem) ∧
    (s.supply.raise = some (code, true) → ∃ t, exec .avsRaiseTimeout s = .next t ∧ t.supply.raise = none ∧
      t.supply.held = true ∧ t.gBit PWR FAULT_SUM 0 = true ∧ t.mem = s.mem)

/-- The last segment of a domain's transition to settle sets or clears its PWR_DOM_ON bit, clears its PEND bit, gives
PAGE_STAT.POWERED of every page of the domain that value and raises interrupt 4; one before the last lets the next be granted
where its charges fit. One of a domain not in transition changes nothing. PACE_BUDGET_WINDOW returns every budget and grants
what then fits. PSTATE_REACHED ends a lane half's transition: LNK_LANE_STAT shows the state reached. (R41, R126, R127,
R707-R709.) -/
def Obligations.TheSequencerMovesDomains : Prop :=
∀ (s : State) (d : Fin 265) (up : Bool) (n goal : Nat) (m : SeqMove) (lane : Fin 96) (tx : Bool), s.canonical = true →
    let empty := { s with seq := { s.seq with used := [0, 0, 0, 0, 0] } }
    (s.seq.moves = [⟨d.val, up, 0, true⟩] → s.seq.later = [] → ∃ t, exec (.domainSegmentSettled d) s = .next t ∧
      t.domOn d = up ∧ t.gBit (PWR + 4 * (d.val / 32)) PWR_DOM_PEND (d.val % 32) = false ∧ t.seq.moves = [] ∧
      (domPages d).all (fun b => t.powered b == up) = true ∧ t.gBit PWR IRQ_STAT 4 = true) ∧
    (s.seq.moves = [⟨d.val, up, n + 1, true⟩] → s.seqFits (domCharges d) = true →
      ∃ t, exec (.domainSegmentSettled d) s = .next t ∧ t.seq.moves = [⟨d.val, up, n, true⟩] ∧
      t.g PWR PWR_SEQ_STAT_LATEST = d.val ∧ t.domOn d = s.domOn d ∧
      OnlyRegs [PWR + PWR_SEQ_STAT.off] { s with seq := t.seq } t) ∧
    (s.seq.moves.any (fun m => m.dom == d.val && m.busy) = false → ∃ t, exec (.domainSegmentSettled d) s = .next t ∧ t = s) ∧
    (s.seq.moves = [m] → m.busy = false → m.left = n + 1 → empty.seqFits (domCharges m.dom) = true → m.dom < 265 →
      ∃ t, exec .paceBudgetWindow s = .next t ∧ t.seq.moves = [⟨m.dom, m.up, n, true⟩] ∧
      (domCharges m.dom).all (fun x => nth 0 t.seq.used x.1 == x.2) = true ∧ t.g PWR PWR_SEQ_STAT_WAITING = 0 ∧
      OnlyRegs [PWR + PWR_SEQ_STAT.off] { s with seq := t.seq } t) ∧
    (s.seq.moves = [m] → m.busy = false → m.left = n + 1 → empty.seqFits (domCharges m.dom) = false →
      ∃ t, exec .paceBudgetWindow s = .next t ∧ t.seq.moves = [m] ∧ t.seq.used = [0, 0, 0, 0, 0] ∧
      t.g PWR PWR_SEQ_STAT_WAITING = 1 ∧ OnlyRegs [PWR + PWR_SEQ_STAT.off] { s with seq := t.seq } t) ∧
    ((s.lane lane).move tx = none → ∃ t, exec (.pstateReached lane tx) s = .next t ∧ t = s) ∧
    ((s.lane lane).move tx = some goal → goal < 4 → s.halfTarget lane tx = goal →
      (tx = false → (s.lane lane).waking = false ∧ s.on (lnb lane) LNK_LANE_STAT_TRAINING = false) →
      ∃ t, exec (.pstateReached lane tx) s = .next t ∧ t.halfNow lane tx = goal ∧ (t.lane lane).move tx = none ∧
      t.mem = s.mem)

/-- A round in which every sensor passes stores every reading, the highest and its sensor, and counts itself; below SHUT and
with no SHUTDOWN asked for it starts no shutdown, and at or above SHUT it starts one with cause 1. A sensor's first failure
raises interrupt 3 and leaves it in use; a failure in the next round breaks it. THM_SHUTDOWN asks for a shutdown in RUN and does
nothing after it. DRAIN_END ends a drain that is complete or at its limit: every stack enters self-refresh. SHUTDOWN_STOPPED
after the drain sets STAGE to STOPPED, and every switched domain but those of Q20-Q23 and the Sump groups is off, on its way off
or has the request to go off. (R688-R690, R696-R698.) -/
def Obligations.TheRoundSensesAndShutsDown : Prop :=
∀ (s : State) (readings : List (Nat × Int)) (temps : List Int) (i : Fin 64), s.canonical = true →
    let stage := s.g THM THM_STAT_STAGE
    let pass := (List.range 64).all (fun j => s.sensorPasses readings j && !s.sensorBroken j)
    let at_ := fun (j : Nat) => (nth (0, 0) readings j).2
    let shut := ((4 * s.g THM THM_CFG_0_SHUT : Nat) : Int)
    let idle := stage = 2 ∨ (stage = 1 ∧ s.thermal.drained = true)
    let doms := (List.range 241).filter (fun d => !((160 ≤ d && d ≤ 191) || (212 ≤ d && d ≤ 215)))
    (readings.length = 64 → temps.length = 4 → pass = true → stage = 0 → s.thermal.host = false →
      (List.range 64).all (fun j => decide (at_ j < shut)) = true →
      ∃ t, exec (.housekeepingRound readings temps) s = .next t ∧ t.g THM THM_STAT_STAGE = 0 ∧
      (List.range 64).all (fun j => sint 11 (t.g (THM + 4 * j) THM_SENS_TEMP) == at_ j) = true ∧
      (List.range 64).all (fun j => decide (at_ j ≤ sint 11 (t.g THM THM_MAX_TEMP))) = true ∧
      at_ (t.g THM THM_MAX_SENSOR) = sint 11 (t.g THM THM_MAX_TEMP) ∧ t.g THM THM_ROUND = (s.g THM THM_ROUND + 1) % 2 ^ 32 ∧
      t.mem = s.mem) ∧
    (readings.length = 64 → temps.length = 4 → pass = true → stage = 0 → 10 ≤ s.g PWR PWR_SHED_STEP →
      (List.range 64).any (fun j => decide (shut ≤ at_ j)) = true →
      ∃ t, exec (.housekeepingRound readings temps) s = .next t ∧ t.g THM THM_STAT_STAGE = 1 ∧ t.g THM THM_STAT_CAUSE = 1 ∧
      t.gBit THM IRQ_STAT 4 = true ∧ t.g PWR PWR_SHED_STEP = s.g PWR PWR_SHED_STEP ∧ t.g BIT BIT_FAULTN_STAT_ASSERTED = 1) ∧
    (readings.length = 64 → temps.length = 4 → idle → s.sensorPasses readings i = false → s.sensorBroken i = false →
      s.thermal.failed.contains i.val = false → ∃ t, exec (.housekeepingRound readings temps) s = .next t ∧
      t.sensorBroken i = false ∧ t.thermal.failed.contains i.val = true ∧ t.gBit THM IRQ_STAT 3 = true ∧
      t.g THM THM_STAT_STAGE = stage) ∧
    (readings.length = 64 → temps.length = 4 → idle → s.sensorPasses readings i = false → s.sensorBroken i = false →
      s.thermal.failed.contains i.val = true → ∃ t, exec (.housekeepingRound readings temps) s = .next t ∧
      t.sensorBroken i = true ∧ t.gBit (THM + 4 * (i.val / 32)) THM_BROKEN_LO (i.val % 32) = true ∧
      t.on (THM + 4 * i.val) THM_SENS_SUBST = true ∧ t.thermal.failed.contains i.val = false ∧
      t.g THM THM_STAT_STAGE = stage) ∧
    (s.reaches (THM + THM_CTRL.off) 1 = true → stage = 0 → ∃ t, exec .thmShutdown s = .next t ∧
      t = { s.claimed with thermal := { s.thermal with host := true } }) ∧
    (s.reaches (THM + THM_CTRL.off) 1 = true → stage ≠ 0 → ∃ t, exec .thmShutdown s = .next t ∧ t = s.claimed) ∧
    (stage = 1 → s.thermal.drained = false → (s.drainDone = true ∨ s.g THM THM_CFG_1_DRAIN ≤ s.thermal.drain) →
      ∃ t, exec .drainEnd s = .next t ∧ t.thermal.drained = true ∧ t.g THM THM_STAT_HARD = 0 ∧
      (List.range 4).all (fun k => t.on (HBM k) HBM_STAT_IN_SR) = true) ∧
    ((stage ≠ 1 ∨ s.thermal.drained = true ∨ (s.drainDone = false ∧ s.thermal.drain < s.g THM THM_CFG_1_DRAIN)) →
      ∃ t, exec .drainEnd s = .next t ∧ t = s) ∧
    (stage = 1 → s.thermal.drained = true → ∃ t, exec .shutdownStopped s = .next t ∧ t.g THM THM_STAT_STAGE = 2 ∧
      doms.all (fun d => if t.seq.moves.any (fun m => m.dom == d) then t.seq.moves.any (fun m => m.dom == d && !m.up) ||
        t.seq.later.any (fun x => x == (d, false)) else !t.domOn d) = true ∧
      (List.range 4).all (fun h => !t.on (CWY h) CWY_FEED_STAT_EN) = true) ∧
    ((stage ≠ 1 ∨ s.thermal.drained = false) → ∃ t, exec .shutdownStopped s = .next t ∧ t = s)

/-- COLD_RST_N_FALL and, outside a cold reset, CORE_RAIL_DEPARTURE return every register but TOP_RESET_CAUSE and what R468 keeps
to its reset value over any reset in progress, and drop every reset held; VDD_AON_RISE keeps nothing and sets POWER_ON, COLD and
STORE_LOST. COLD_RESET_END or CORE_RAIL_RECOVERY of that kind makes the device READY with the lanes of quads 20-23 in P0.
HBM_RAIL_DEPARTURE loses what HBM holds. PERST_N_FALL takes the link down and starts, holds or absorbs a warm reset; a warm
reset and an FLR likewise, with their busy bit, count and cause; their ends clear the busy bit and raise TOP interrupt 0 or 1.
HELD_RESET_START performs the oldest reset held once none is in progress. (R102, R743, R744, R746, R748, R751, R752, R765,
R766.) -/
def Obligations.ResetsLeaveWhatTheirRulesSay : Prop :=
∀ (s : State) (key : Byte) (aon perst : Bool) (l : List HeldReset), s.canonical = true →
    let hbms := (List.range 4).map (fun k => HBM k + HBM_STAT.off)
    let kept := coldKept ++ hbms ++ [HBM 0 + HBM_SPARE_STAT.off, DSP + DSP_STAT.off]
    let lost := (TOP + TOP_RESET_CAUSE.off) :: hbms ++ [DSP + DSP_STAT.off]
    let halves := (List.range 32).map (fun n => 160 + n)
    let wave := 1 + 256 * key.toNat
    let ctrl := TOP + TOP_RESET_CTRL.off
    let ready_ := fun (t : State) => t.on TOP TOP_RESET_STAT_READY = true ∧ t.hif.cold = none ∧ halves.all (fun d => t.domOn d) = true ∧ (List.range 16).all (fun i => t.halfNow (80 + i) false == 0 && t.halfNow (80 + i) true == 0) = true
    (∃ t, exec .coldRstNFall s = .next t ∧ OnlyRegs kept { t with regs := State.reset.regs } t ∧
      t.gBit TOP TOP_RESET_CAUSE 1 = true ∧ t.hif.cold = some 1 ∧ t.hif.held = [] ∧ t.hif.now = none ∧
      t.slices = State.reset.slices ∧ t.xlt = State.reset.xlt ∧ t.actv = []) ∧
    (s.hif.cold = some 1 → ∃ t, exec .coldResetEnd s = .next t ∧ ready_ t ∧ t.mem = s.mem) ∧
    (s.hif.cold ≠ some 1 → ∃ t, exec .coldResetEnd s = .next t ∧ t = s) ∧
    (∃ t, exec .vddAonRise s = .next t ∧ t.rd (TOP + TOP_RESET_CAUSE.off) = 0x43 ∧
      OnlyRegs lost { t with regs := State.reset.regs } t ∧
      (List.range 4).all (fun k => !t.on (HBM k) HBM_STAT_IN_SR) = true ∧ t.hbm = State.reset.hbm ∧
      t.memGen = (0, s.installed, some s.freeCtr) :: s.memGen) ∧
    (s.hif.cold = none → ∃ t, exec .coreRailDeparture s = .next t ∧ t.hif.cold = some 2 ∧
      t.gBit TOP TOP_RESET_CAUSE 6 = true ∧ t.on BIT BIT_FAULTN_STAT_ASSERTED = true ∧
      t.on TOP TOP_RESET_STAT_READY = false ∧ t.slices = State.reset.slices ∧ t.hif.held = []) ∧
    (s.hif.cold ≠ none → ∃ t, exec .coreRailDeparture s = .next t ∧ t = s) ∧
    (s.hif.cold = some 2 → ∃ t, exec .coreRailRecovery s = .next t ∧ ready_ t ∧ t.mem = s.mem) ∧
    (s.hif.cold ≠ some 2 → ∃ t, exec .coreRailRecovery s = .next t ∧ t = s) ∧
    (s.hif.cold = none → ∃ t, exec (.hbmRailDeparture aon) s = .next t ∧ t.hif.lost = true ∧
      t.gBit TOP TOP_RESET_CAUSE 6 = true ∧ t.memGen.head? = some (0, s.installed, some s.freeCtr) ∧
      (aon = true → t.hbm.trained = [] ∧ t.hbm.laneMap = []) ∧
      OnlyRegs [TOP + TOP_RESET_CAUSE.off] { s with hif := t.hif, hbm := t.hbm, mem := t.mem, memGen := t.memGen, freeCtr :=
        t.freeCtr } t) ∧
    (s.hif.cold ≠ none → ∃ t, exec (.hbmRailDeparture aon) s = .next t ∧
      (List.range 4).all (fun k => !t.on (HBM k) HBM_STAT_IN_SR) = true ∧ t.gBit TOP TOP_RESET_CAUSE 6 = true ∧
      t.memGen.head? = some (0, s.installed, some s.freeCtr) ∧ t.hbm.prior = noPlan) ∧
    (s.hif.perst = false → ∃ t, exec .perstNFall s = .next t ∧ t = s) ∧
    (s.hif.perst = true → s.resetting = true → s.hif.now ≠ some (.warm true) → s.hif.held = [] →
      ∃ t, exec .perstNFall s = .next t ∧ t.hif.perst = false ∧ t.hif.memory = false ∧ t.hif.held = [.warm true] ∧
      t.on TOP TOP_RESET_STAT_HELD = true ∧ t.on HIF HIF_LINK_STAT_UP = false ∧ t.gBit TOP TOP_RESET_CAUSE 2 = true ∧
      t.on XLT XLT_STAT_ATS_EN = false ∧ t.mem = s.mem) ∧
    (s.hif.perst = true → s.resetting = false → ∃ t, exec .perstNFall s = .next t ∧ t.hif.perst = false ∧
      t.hif.now = some (.warm true) ∧ t.on TOP TOP_RESET_STAT_WARM_BUSY = true ∧ t.on HIF HIF_LINK_STAT_UP = false ∧
      t.gBit TOP TOP_RESET_CAUSE 2 = true) ∧
    (s.hif.perst = true → ∃ t, exec .perstNRise s = .next t ∧ t = s) ∧
    (s.hif.perst = false → ∃ t, exec .perstNRise s = .next t ∧ t.hif = { s.hif with perst := true, first := none } ∧
      t.g HIF HIF_SMB_STAT_SUBSYS_LOCKED = 1 ∧ OnlyRegs [HIF + HIF_SMB_STAT.off] { s with hif := t.hif } t) ∧
    (s.reaches ctrl wave = true → s.resetting = true → s.hif.now ≠ some (.warm false) → s.hif.held = [.flr] →
      ∃ t, exec (.warmReset key) s = .next t ∧ t.hif.held = [.flr, .warm false] ∧ t.gBit TOP TOP_RESET_CAUSE 3 = true ∧
      t.on TOP TOP_RESET_STAT_HELD = true ∧ t.mem = s.mem) ∧
    (s.reaches ctrl wave = true → s.resetting = false → ∃ t, exec (.warmReset key) s = .next t ∧
      t.hif.now = some (.warm false) ∧ t.on TOP TOP_RESET_STAT_WARM_BUSY = true ∧ t.gBit TOP TOP_RESET_CAUSE 3 = true ∧
      t.g TOP TOP_RESET_CNT_WARM = min (s.g TOP TOP_RESET_CNT_WARM + 1) 0xFFFF) ∧
    (s.hif.memory = false → ∃ t, exec (.warmReset key) s = .next t ∧ t = s) ∧
    (s.hif.now = some (.warm perst) → ∃ t, exec .warmResetEnd s = .next t ∧ t.hif.now = none ∧
      t.on TOP TOP_RESET_STAT_WARM_BUSY = false ∧ t.gBit TOP IRQ_STAT 0 = true ∧
      (s.g THM THM_STAT_STAGE ≠ 2 → (List.range 4).all (fun k => !nth false s.hbm.woken k || !t.on (HBM k) HBM_STAT_IN_SR) =
        true) ∧ t.mem = s.mem) ∧
    ((s.hif.now = none ∨ s.hif.now = some .flr) → ∃ t, exec .warmResetEnd s = .next t ∧ t = s) ∧
    (s.resetting = true → s.hif.now ≠ some .flr → s.hif.held = [] → ∃ t, exec .flr s = .next t ∧ t.hif.held = [.flr] ∧
      t.gBit TOP TOP_RESET_CAUSE 5 = true ∧
      OnlyRegs [TOP + TOP_RESET_CAUSE.off, TOP + TOP_RESET_STAT.off] { s with hif := t.hif } t) ∧
    (s.hif.now = some .flr → ∃ t, exec .flr s = .next t ∧ t.hif = s.hif ∧ OnlyRegs [TOP + TOP_RESET_CAUSE.off] s t) ∧
    (s.resetting = false → ∃ t, exec .flr s = .next t ∧ t.hif.now = some .flr ∧ t.on TOP TOP_RESET_STAT_FLR_BUSY = true ∧
      t.gBit TOP TOP_RESET_CAUSE 5 = true ∧ t.g TOP TOP_RESET_CNT_FLR = min (s.g TOP TOP_RESET_CNT_FLR + 1) 0xFFFF ∧
      t.hif.memory = false ∧ t.on HIF HIF_LINK_STAT_BME = false) ∧
    (s.hif.now = some .flr → ∃ t, exec .flrEnd s = .next t ∧ t.hif = { s.hif with now := none } ∧
      t.on TOP TOP_RESET_STAT_FLR_BUSY = false ∧ t.gBit TOP IRQ_STAT 1 = true ∧
      RegsBut [TOP + TOP_RESET_STAT.off, TOP + IRQ_STAT.off] s t) ∧
    (s.hif.now ≠ some .flr → ∃ t, exec .flrEnd s = .next t ∧ t = s) ∧
    ((s.hif.held = [] ∨ s.resetting = true) → ∃ t, exec .heldResetStart s = .next t ∧ t = s) ∧
    (s.hif.held = [.flr] → s.resetting = false → ∃ t, exec .heldResetStart s = .next t ∧ t.hif.now = some .flr ∧
      t.hif.held = [] ∧ t.on TOP TOP_RESET_STAT_FLR_BUSY = true ∧ t.on TOP TOP_RESET_STAT_HELD = false) ∧
    (s.hif.held = .warm perst :: l → s.resetting = false → ∃ t, exec .heldResetStart s = .next t ∧
      t.hif.now = some (.warm perst) ∧ t.hif.held = l ∧ t.on TOP TOP_RESET_STAT_WARM_BUSY = true)

/-- BUS_MASTER_ENABLE sets Memory Space Enable, Bus Master Enable and D3hot, a moved power state raising HIF interrupt 3; what
was held goes on once the function may master the bus. PCIE_LINK_UP with PERST_N high on a READY device gives the rate, the
width and FLIT mode; a Recovery of an up link counts itself and raises interrupt 1, its lane and a second one within a second
becoming LASTING. FLIT_REPLAY counts. A BAR2 access within one 256-byte piece of a region that allows it reads or stores its
bytes, one that the region does not allow reads all ones or stores nothing. SMBus commands answer nothing before READY and count
a failed PEC; IDENT, STATUS, TEMPS, VFAB and the window give what R740 and R741 say, a write through the window takes effect at
TOP_RESET_CTRL and THM_CTRL only, SUBSYS is written until PERST_N first rises, and an abandoned transaction has no effect.
(R29-R31, R88, R476, R731-R742, R754, R755, R772.) -/
def Obligations.TheHostsConnectionsServeTheirCommands : Prop :=
∀ (s : State) (memory bme d3hot flit f1 f2 f3 : Bool) (rate : Fin 6) (width : Fin 5) (rates : Nat × Nat) (i : Fin 16) (lane :
    Option (Fin 16)) (addr : Fin 0x4000000000) (len : Fin 4097) (bytes : List Byte) (rg : Nat) (value : Word) (vid sid :
    BitVec 16) (window : Option Word), s.canonical = true →
    let moved := s.on HIF HIF_LINK_STAT_D3HOT ≠ d3hot
    let up := s.on HIF HIF_LINK_STAT_UP
    let ready_ := s.on TOP TOP_RESET_STAT_READY
    let warm := s.on TOP TOP_RESET_STAT_WARM_BUSY
    let x := (s.region rg).place addr
    let served := fun (l : List Byte) => { s with out := .smb true l :: s.out }
    let nack := { s with out := .smb false [] :: s.out }
    let status := s.g BIT BIT_FAULTN_STAT_ASSERTED + 2 + 4 * s.g TOP TOP_RESET_STAT_WARM_BUSY + 8 * s.g TOP TOP_RESET_STAT_FLR_BUSY + 16 * s.g THM THM_STAT_STAGE + 64 * s.g HIF HIF_LINK_STAT_UP
    ((s.masterOn = true ∨ bme = false ∨ d3hot = true) → ∃ t, exec (.busMasterEnable memory bme d3hot) s = .next t ∧
      t.hif = { s.hif with memory := memory } ∧ t.on HIF HIF_LINK_STAT_BME = bme ∧ t.on HIF HIF_LINK_STAT_D3HOT = d3hot ∧
      (moved → t.gBit HIF IRQ_STAT 3 = true) ∧ RegsBut [HIF + HIF_LINK_STAT.off, HIF + IRQ_STAT.off] s t) ∧
    (s.masterOn = false → ∃ t, exec (.busMasterEnable memory true false) s = .next t ∧
      t = ((((s.setHif (fun y => { y with memory := memory })).p HIF HIF_LINK_STAT_BME 1).p HIF HIF_LINK_STAT_D3HOT 0).irqIf
        (s.on HIF HIF_LINK_STAT_D3HOT) HIF 3).heldSend.wake) ∧
    (s.hif.perst = true → ready_ = true → s.hif.first = none → ∃ t, exec (.pcieLinkUp rate width flit) s = .next t ∧
      t.g HIF HIF_LINK_STAT_RATE = rate.val ∧ t.g HIF HIF_LINK_STAT_WIDTH = 2 ^ width.val ∧
      t.on HIF HIF_LINK_STAT_FLIT = (flit || rate == 5) ∧ t.on HIF HIF_LINK_STAT_UP = true ∧
      t.on HIF HIF_LINK_STAT_DEGRADED = false ∧ t.hif = { s.hif with first := some (rate.val, 2 ^ width.val) } ∧
      t.mem = s.mem) ∧
    (s.hif.perst = true → ready_ = true → s.hif.first = some rates → ∃ t, exec (.pcieLinkUp rate width flit) s = .next t ∧
      t.on HIF HIF_LINK_STAT_UP = true ∧
      t.on HIF HIF_LINK_STAT_DEGRADED = (decide (rate.val < rates.1) || decide (2 ^ width.val < rates.2)) ∧
      t.gBit HIF FAULT_SUM 0 = t.on HIF HIF_LINK_STAT_DEGRADED ∧ t.hif = s.hif) ∧
    ((s.hif.perst = false ∨ ready_ = false) → ∃ t, exec (.pcieLinkUp rate width flit) s = .next t ∧ t = s) ∧
    (up = true → s.hif.recov = none → ∃ t, exec (.pcieLinkRecovery rate width none) s = .next t ∧
      t.g HIF HIF_LINK_STAT_RATE = rate.val ∧ t.g HIF HIF_LINK_STAT_WIDTH = 2 ^ width.val ∧
      t.g HIF HIF_LINK_CNT_RECOVERY = min (s.g HIF HIF_LINK_CNT_RECOVERY + 1) 0xFF ∧ t.gBit HIF IRQ_STAT 1 = true ∧
      t.hif = { s.hif with recov := some s.time.ms } ∧
      RegsBut [HIF + HIF_LINK_STAT.off, HIF + HIF_LINK_CNT.off, HIF + IRQ_STAT.off, HIF + FAULT_SUM.off, HIF + PAGE_STAT.off]
        s t) ∧
    (up = true → s.hif.recov = some s.time.ms → ∃ t, exec (.pcieLinkRecovery rate width (some i)) s = .next t ∧
      t.g (bitSrc (80 + i.val)) BIT_SRC_STAT_STATE = 3 ∧ t.g (bitSrc 126) BIT_SRC_STAT_STATE = 3 ∧
      t.g HIF HIF_LINK_STAT_WIDTH = 2 ^ width.val ∧ t.mem = s.mem) ∧
    (up = false → ∃ t, exec (.pcieLinkRecovery rate width lane) s = .next t ∧ t = s) ∧
    (∃ t, exec .flitReplay s = .next t ∧ t.g HIF HIF_LINK_CNT_REPLAY = min (s.g HIF HIF_LINK_CNT_REPLAY + 1) 0xFFFF ∧
      t.g (bitSrc 126) BIT_SRC_STAT_TOTAL = min (s.g (bitSrc 126) BIT_SRC_STAT_TOTAL + 1) 0xFFF ∧ t.mem = s.mem) ∧
    (s.hif.memory = true → warm = false → 0 < len.val → len.val ≤ 256 - addr.val % 256 → s.bar2Readable addr len = true →
      s.bar2Zeroing addr = false → s.regionAt addr = some rg → s.byteLive rg addr = true → s.armedFor (256 + x.g) 0 = false →
      ∃ t, exec (.bar2Read addr len false f2 f3) s = .next t ∧ t.out.head? = some (.barData (s.hbmRead addr len) false) ∧
      t.mem = s.mem ∧ t.hif = s.hif) ∧
    (s.hif.memory = true → warm = false → 0 < len.val → len.val ≤ 256 - addr.val % 256 → s.bar2Readable addr len = false →
      ∃ t, exec (.bar2Read addr len f1 f2 f3) s = .next t ∧
      t.out.head? = some (.barData (List.replicate len.val 0xFF) false) ∧
      t.g (bitSrc 191) BIT_SRC_STAT_TOTAL = min (s.g (bitSrc 191) BIT_SRC_STAT_TOTAL + 1) 0xFFF ∧ t.mem = s.mem) ∧
    (s.hif.memory = false → ∃ t, exec (.bar2Read addr len f1 f2 f3) s = .next t ∧ t = s) ∧
    (bytes ≠ [] → s.hif.memory = true → warm = false → bytes.length ≤ 256 - addr.val % 256 →
      s.bar2Writable addr bytes.length = true → ∃ t, exec (.bar2Write addr bytes) s = .next t ∧
      t.mem = (s.hbmStore addr bytes).mem ∧ t.memGen = s.memGen ∧ t.hostMem = s.hostMem) ∧
    (bytes ≠ [] → s.hif.memory = true → warm = false → bytes.length ≤ 256 - addr.val % 256 →
      s.bar2Writable addr bytes.length = false → ∃ t, exec (.bar2Write addr bytes) s = .next t ∧ t.mem = s.mem ∧
      t.g (bitSrc 191) BIT_SRC_STAT_TOTAL = min (s.g (bitSrc 191) BIT_SRC_STAT_TOTAL + 1) 0xFFF) ∧
    (s.hif.memory = false → ∃ t, exec (.bar2Write addr bytes) s = .next t ∧ t = s) ∧
    (ready_ = true → ∃ t, exec .smbIdent s = .next t ∧ t.g HIF HIF_SMB_STAT_LAST_CMD = 0 ∧
      OnlyRegs [HIF + HIF_SMB_STAT.off] (served (leBytes 4 (s.readReg (TOP + TOP_DEVICE_ID.off)) ++ leBytes 4 (s.readReg (TOP
        + 0x104)) ++ leBytes 4 (s.readReg (TOP + 0x108)))) t) ∧
    (ready_ = true → ∃ t, exec .smbStatus s = .next t ∧ t.g HIF HIF_SMB_STAT_LAST_CMD = 1 ∧
      OnlyRegs [HIF + HIF_SMB_STAT.off] (served (leBytes 2 status)) t) ∧
    (ready_ = true → ∃ t, exec .smbTemps s = .next t ∧ t.g HIF HIF_SMB_STAT_LAST_CMD = 2 ∧
      OnlyRegs [HIF + HIF_SMB_STAT.off] (served ((List.range 8).flatMap (fun z => leBytes 2 (s.rd (THM + THM_ZONE.off + 4 *
        z))))) t) ∧
    (ready_ = true → ∃ t, exec .smbVfab s = .next t ∧ t.g HIF HIF_SMB_STAT_LAST_CMD = 3 ∧
      OnlyRegs [HIF + HIF_SMB_STAT.off] (served [BitVec.ofNat 8 (s.g PWR PWR_VFAB_REQ), BitVec.ofNat 8 (s.g PWR
        PWR_VFAB_ACK)]) t) ∧
    (ready_ = false → ∃ t, exec .smbIdent s = .next t ∧ t = nack) ∧
    (ready_ = true → ∃ t, exec (.smbWinAddr window false) s = .next t ∧
      t.g HIF HIF_SMB_STAT_PEC_ERR = min (s.g HIF HIF_SMB_STAT_PEC_ERR + 1) 0xFF ∧ t.hif = s.hif ∧
      OnlyRegs [HIF + HIF_SMB_STAT.off] nack t) ∧
    (ready_ = true → ∃ t, exec (.smbWinAddr none true) s = .next t ∧ t.g HIF HIF_SMB_STAT_LAST_CMD = 8 ∧
      OnlyRegs [HIF + HIF_SMB_STAT.off] (served (leBytes 4 s.hif.window)) t ∧ t.hif = s.hif) ∧
    (ready_ = true → value.toNat % 4 = 0 → value.toNat ≤ 0x03FFFFFC → ∃ t, exec (.smbWinAddr (some value) true) s = .next t ∧
      t.hif = { s.hif with window := value.toNat } ∧ t.g HIF HIF_SMB_STAT_LAST_CMD = 8 ∧
      OnlyRegs [HIF + HIF_SMB_STAT.off] { served [] with hif := t.hif } t) ∧
    (ready_ = true → (value.toNat % 4 ≠ 0 ∨ 0x03FFFFFC < value.toNat) →
      ∃ t, exec (.smbWinAddr (some value) true) s = .next t ∧ t = nack) ∧
    (ready_ = true → ∃ t, exec .smbWinDataRead s = .next t ∧
      t.out.head? = some (.smb true (leBytes 4 (s.readReg s.hif.window))) ∧ t.g HIF HIF_SMB_STAT_LAST_CMD = 9 ∧
      t.mem = s.mem) ∧
    (ready_ = true → s.hif.window = THM + THM_CTRL.off → s.accepts (THM + THM_CTRL.off) 1 = true →
      s.g THM THM_STAT_STAGE = 0 → value = 1 → ∃ t, exec (.smbWinDataWrite value true) s = .next t ∧ t.thermal.host = true ∧
      t.g HIF HIF_SMB_STAT_LAST_CMD = 9 ∧ t.gBit HIF IRQ_STAT 2 = true ∧ t.out.contains (.smb true []) = true ∧
      t.mem = s.mem) ∧
    (ready_ = true → s.hif.window = TOP + TOP_RESET_CTRL.off → s.accepts (TOP + TOP_RESET_CTRL.off) value.toNat = true →
      bitOf value.toNat 0 = true → s.hif.now = some .flr → s.hif.held = [] →
      ∃ t, exec (.smbWinDataWrite value true) s = .next t ∧ t.hif.held = [.warm false] ∧
      t.gBit TOP TOP_RESET_CAUSE 4 = true ∧ t.on TOP TOP_RESET_STAT_HELD = true ∧ t.gBit HIF IRQ_STAT 2 = true ∧
      t.mem = s.mem) ∧
    (ready_ = true → s.hif.window ≠ TOP + TOP_RESET_CTRL.off → s.hif.window ≠ THM + THM_CTRL.off →
      ∃ t, exec (.smbWinDataWrite value true) s = .next t ∧ t = nack) ∧
    (ready_ = true → s.g HIF HIF_SMB_STAT_SUBSYS_LOCKED = 0 → ∃ t, exec (.smbSubsys vid sid true) s = .next t ∧
      t.g HIF HIF_SUBSYS_VID = vid.toNat ∧ t.g HIF HIF_SUBSYS_SID = sid.toNat ∧ t.g HIF HIF_SMB_STAT_LAST_CMD = 16 ∧
      OnlyRegs [HIF + HIF_SUBSYS.off, HIF + HIF_SMB_STAT.off] { s with out := t.out } t) ∧
    (ready_ = true → s.g HIF HIF_SMB_STAT_SUBSYS_LOCKED = 1 → ∃ t, exec (.smbSubsys vid sid true) s = .next t ∧ t = nack) ∧
    (∃ t, exec .smbusTimeout s = .next t ∧ t = s)

/-- For every command c and every state, the step of the state with c in front of its queue is the effect of c on the state with
the rest of the queue. -/
def Obligations.StepRunsFrontCommand : Prop :=
  ∀ (c : Instr) (q : List Instr) (s : State), step { s with pending := c :: q } = exec c { s with pending := q }

/-- A step of a state whose queue is empty completes; the device time advances by the increment in force, and the memories and
the queue stay as they are. (R567; that a step with nothing to do is one cycle is DESIGN CHOICE, log entry 1.) -/
def Obligations.EmptyQueueTicks : Prop :=
  ∀ s : State, s.canonical = true → s.pending = [] →
    ∃ t, step s = .next t ∧ t.time = DevTime.ofUnits (s.time.units + s.timInc) ∧ t.pending = [] ∧ t.mem = s.mem ∧ t.hostMem = s.hostMem

/-- Every command in every state, well-formed or not, ends in a next state: nothing refuses and nothing faults. The commands
that wait, and what the part fixes at manufacture, are as before. -/
def Obligations.EveryCommandCompletes : Prop :=
  ∀ (c : Instr) (s : State), ∃ t, exec c s = .next t ∧ t.pending = s.pending ∧ t.part = s.part

/-- The state after reset is canonical and its queue is empty. READY is 0, every always-on page is powered and no switched page
but those of quads 20 to 23 is, PWR_VFAB gives the code 0x50 three times, TOP_RESET_STAT is 0 and no lane has a trained
receiver. -/
def Obligations.ResetHolds : Prop :=
  State.reset.canonical = true ∧ State.reset.pending = [] ∧ State.reset.rd (TOP + TOP_RESET_STAT.off) = 0 ∧
    [TOP, HIF, SMP, TSQ, TIM, BIT, THM, PWR, CNT].all (fun b => State.reset.powered b) = true ∧
    ((List.range 5).map (fun p => PSL p) ++ (List.range 4).map (fun w => WIT w) ++ (List.range 4).map (fun k => HBM k) ++
      [VLC, GCX, DSP, XLT]).all (fun b => !State.reset.powered b) = true ∧
    State.reset.rd (PWR + PWR_VFAB.off) = 0x505050 ∧
    (List.range 96).all (fun n => !State.reset.on (lnb n) LNK_LANE_STAT_TRAINED) = true

/-- From every canonical state, whatever command is in front of the queue and with none, a step ends in a next state, and that
state is canonical: both memories and both copies of the registers stay strictly rising tables without an entry equal to its
default, the 256 counters stay below 2^48, and every lane, quad, port, slice and channel of the device is there. -/
def Obligations.StepKeepsCanonical : Prop :=
  ∀ s : State, s.canonical = true → ∃ t, step s = .next t ∧ t.canonical = true

/-- A command outside the list of mayStore, in every state and with every operand, leaves every byte of HBM and of host memory
as it reads before: no write to them, and no change of what an unwritten byte reads as. -/
def Obligations.QuietCommandsKeepMemory : Prop :=
  ∀ (c : Instr) (s : State), mayStore c = false →
    ∃ t, exec c s = .next t ∧ (∀ a n, t.hbmRead a n = s.hbmRead a n) ∧ (∀ a n, t.hostRead a n = s.hostRead a n)

/-- After bytes are stored at an address of a canonical HBM, reading as many from there gives them, a read that touches none of
them gives what it gave before, and the memory is canonical; the same holds of host memory. A span that is zeroed reads as zero,
and outside it HBM reads as before. -/
def Obligations.BytesWrittenAreReadBack : Prop :=
  ∀ (s : State) (a : Nat) (l : List Byte), s.canonical = true →
    (s.hbmWrite a l).hbmRead a l.length = l ∧ (s.hostWrite a l).hostRead a l.length = l ∧
    (s.hbmWrite a l).canonical = true ∧ (s.hostWrite a l).canonical = true ∧
    (∀ b n, b + n ≤ a ∨ a + l.length ≤ b →
      (s.hbmWrite a l).hbmRead b n = s.hbmRead b n ∧ (s.hostWrite a l).hostRead b n = s.hostRead b n) ∧
    (∀ n b m, a ≤ b → b + m ≤ a + n → (s.hbmSpan a n true).hbmRead b m = List.replicate m 0) ∧
    (∀ n b m, b + m ≤ a ∨ a + n ≤ b → (s.hbmSpan a n true).hbmRead b m = s.hbmRead b m)
end

