-- ==== Sys2Proof/Laws/Canon.lean ====
section
/-! SUPPORT. Sparse tables and memories keep their canonical form; the relation Keeps between a state and what a function of the
model makes of it. -/

namespace Sys2Proof.Machine

theorem Sparse.above_mono {β : Type} [DecidableEq β] (d : Nat → β) (l : List (Nat × β)) {lo lo' : Option Nat}
    (h : Sparse.above d lo l = true) (hl : ∀ a ∈ lo', ∀ b, l.head? = some b → a < b.1) : Sparse.above d lo' l = true := by
  cases l with
  | nil => rfl
  | cons x r =>
    obtain ⟨a, b⟩ := x
    simp only [Sparse.above, Bool.and_eq_true] at h ⊢
    refine ⟨⟨?_, h.1.2⟩, h.2⟩
    cases lo' with
    | none => rfl
    | some l => simpa using hl l rfl (a, b) rfl

theorem Sparse.above_put {β : Type} [DecidableEq β] (d : Nat → β) (l : List (Nat × β)) (lo : Option Nat) (k : Nat) (v : β)
    (h : Sparse.above d lo l = true) (hk : ∀ a ∈ lo, a < k) : Sparse.above d lo (Sparse.put d l k v) = true := by
  induction l generalizing lo with
  | nil =>
    simp only [Sparse.put]
    split
    · rfl
    · cases lo <;> simp_all [Sparse.above]
  | cons x r ih =>
    obtain ⟨a, b⟩ := x
    have h0 := h
    simp only [Sparse.above, Bool.and_eq_true] at h
    simp only [Sparse.put]
    split
    · split
      · exact h0
      · simp only [Sparse.above, Bool.and_eq_true]
        refine ⟨⟨?_, by simpa⟩, ⟨by simpa, h.1.2⟩, h.2⟩
        cases lo <;> simp_all
    · split
      · subst k
        split
        · refine Sparse.above_mono d r h.2 ?_
          intro l hl y hy
          cases r with
          | nil => simp at hy
          | cons z r =>
            obtain ⟨c, e⟩ := z
            simp only [List.head?_cons, Option.some.injEq] at hy
            subst hy
            have h2 := h.2
            simp only [Sparse.above, Bool.and_eq_true, decide_eq_true_eq] at h2
            have := hk l hl
            exact Nat.lt_trans this h2.1.1
        · simp only [Sparse.above, Bool.and_eq_true]
          exact ⟨⟨h.1.1, by simpa⟩, h.2⟩
      · simp only [Sparse.above, Bool.and_eq_true]
        refine ⟨h.1, ih (some a) h.2 ?_⟩
        intro y hy
        simp only [Option.mem_def, Option.some.injEq] at hy
        omega

theorem Sparse.put_wf {β : Type} [DecidableEq β] (d : Nat → β) (l : List (Nat × β)) (k : Nat) (v : β)
    (h : Sparse.wf d l = true) : Sparse.wf d (Sparse.put d l k v) = true :=
  Sparse.above_put d l none k v h (by simp)

theorem Sparse.above_filter {β : Type} [DecidableEq β] (d : Nat → β) (p : Nat × β → Bool) (l : List (Nat × β)) (lo : Option Nat)
    (h : Sparse.above d lo l = true) : Sparse.above d lo (l.filter p) = true := by
  induction l generalizing lo with
  | nil => rfl
  | cons x r ih =>
    obtain ⟨a, b⟩ := x
    simp only [Sparse.above, Bool.and_eq_true] at h
    simp only [List.filter_cons]
    split
    · simp only [Sparse.above, Bool.and_eq_true]
      exact ⟨h.1, ih _ h.2⟩
    · have := ih _ h.2
      refine Sparse.above_mono d _ this ?_
      intro l hl y hy
      cases lo with
      | none => simp at hl
      | some l' =>
        simp only [Option.mem_def, Option.some.injEq] at hl
        subst hl
        have h1 : l' < a := by simpa using h.1.1
        cases hf : r.filter p with
        | nil => rw [hf] at hy; simp at hy
        | cons z r' =>
          obtain ⟨c, e⟩ := z
          rw [hf] at hy this
          simp only [List.head?_cons, Option.some.injEq] at hy
          subst hy
          simp only [Sparse.above, Bool.and_eq_true, decide_eq_true_eq] at this
          exact Nat.lt_trans h1 this.1.1

theorem Sparse.filter_wf {β : Type} [DecidableEq β] (d : Nat → β) (p : Nat × β → Bool) (l : List (Nat × β))
    (h : Sparse.wf d l = true) : Sparse.wf d (l.filter p) = true := Sparse.above_filter d p l none h

theorem Sparse.above_congr {β : Type} [DecidableEq β] (d d' : Nat → β) (l : List (Nat × β)) (lo : Option Nat)
    (h : Sparse.above d lo l = true) (he : ∀ x ∈ l, d' x.1 = d x.1) : Sparse.above d' lo l = true := by
  induction l generalizing lo with
  | nil => rfl
  | cons x r ih =>
    obtain ⟨a, b⟩ := x
    simp only [Sparse.above, Bool.and_eq_true] at h ⊢
    refine ⟨⟨h.1.1, ?_⟩, ih _ h.2 (fun y hy => he y (List.mem_cons_of_mem _ hy))⟩
    rw [he (a, b) (List.mem_cons_self ..)]
    exact h.1.2

theorem Memory.write_wf (u : List (Nat × Nat × Option Nat)) (m : List Host.Cell) (a : Nat) (b : Byte)
    (h : Memory.wf u m = true) : Memory.wf u (Memory.write u m a b) = true := Sparse.put_wf _ _ _ _ h

theorem Memory.writeN_wf (u : List (Nat × Nat × Option Nat)) (l : List Byte) (m : List Host.Cell) (a : Nat)
    (h : Memory.wf u m = true) : Memory.wf u (Memory.writeN u m a l) = true := by
  induction l generalizing m a with
  | nil => exact h
  | cons b r ih => exact ih _ _ (Memory.write_wf u m a b h)

theorem Memory.span_wf (u : List (Nat × Nat × Option Nat)) (m : List Host.Cell) (lo hi : Nat) (t : Option Nat)
    (h : Memory.wf u m = true) :
    Memory.wf ((lo, hi, t) :: u) (m.filter (fun c => !(decide (lo ≤ c.1) && decide (c.1 < hi)))) = true := by
  refine Sparse.above_congr (memDflt u) _ _ none (Sparse.above_filter _ _ _ _ h) ?_
  intro x hx
  have := (List.mem_filter.1 hx).2
  simp only [memDflt]
  rw [if_neg]
  simp only [Bool.not_eq_true', Bool.and_eq_false_iff, decide_eq_false_iff_not, Bool.and_eq_true, decide_eq_true_eq] at this ⊢
  omega

/-- The tables of a state are in their canonical form and its counters are 48-bit numbers. -/
structure Canon (s : State) : Prop where
  regs : Sparse.wf resetVal s.regs = true
  actv : Sparse.wf resetVal s.actv = true
  mem : Memory.wf s.memGen s.mem = true
  host : Memory.wf [] s.hostMem = true
  len : s.cnt.length = 256
  range : ∀ v ∈ s.cnt, v < 2 ^ 48
  shape : s.shape = deviceShape

/-- From s to t: the part and the queue (and, where mm, the memories) stay; canonical tables stay canonical. -/
structure Keeps (mm : Bool) (s t : State) : Prop where
  part : t.part = s.part
  pending : t.pending = s.pending
  mem : mm = true → t.mem = s.mem ∧ t.memGen = s.memGen ∧ t.hostMem = s.hostMem
  canon : Canon s → Canon t

theorem upd_length {α : Type} (l : List α) (n : Nat) (f : α → α) : (upd l n f).length = l.length := by
  induction l generalizing n with
  | nil => rfl
  | cons a r ih => cases n <;> simp [upd, ih]

theorem upd_forall {α : Type} {P : α → Prop} (l : List α) (n : Nat) (f : α → α) (h : ∀ a ∈ l, P a) (hf : ∀ a, P a → P (f a)) :
    ∀ a ∈ upd l n f, P a := by
  induction l generalizing n with
  | nil => simp [upd]
  | cons a r ih =>
    cases n with
    | zero => simp only [upd, List.mem_cons, forall_eq_or_imp]; exact ⟨hf a (h a (by simp)), fun x hx => h x (by simp [hx])⟩
    | succ n =>
      simp only [upd, List.mem_cons, forall_eq_or_imp]
      exact ⟨h a (by simp), ih n (fun x hx => h x (by simp [hx]))⟩

end Sys2Proof.Machine
end

