-- ==== Sys2Proof/Laws/KeepsOps.lean ====
section
/-! SUPPORT. What the functions of Machine/Ops.lean keep: the part, the queue, the memories where they store nothing, and the
canonical form of the tables. -/

namespace Sys2Proof.Machine
def mkS := State.mk
theorem mkS_eq (part regs actv mem memGen hostMem out time msix bit hbm xlt tsq sump lanes quads clr ing cwy heads slices recompute wits raw gcx eth tapNews recorder tim cod dsp dma seq supply shed thermal hif cnt freeCtr pending) : State.mk part regs actv mem memGen hostMem out time msix bit hbm xlt tsq sump lanes quads clr ing cwy heads slices recompute wits raw gcx eth tapNews recorder tim cod dsp dma seq supply shed thermal hif cnt freeCtr pending = mkS part regs actv mem memGen hostMem out time msix bit hbm xlt tsq sump lanes quads clr ing cwy heads slices recompute wits raw gcx eth tapNews recorder tim cod dsp dma seq supply shed thermal hif cnt freeCtr pending := rfl
theorem Keeps.refl {mm : Bool} (s : State) : Keeps mm s s := ⟨rfl, rfl, fun _ => ⟨rfl, rfl, rfl⟩, fun h => h⟩
theorem Keeps.trans {mm : Bool} {a b c : State} (h : Keeps mm a b) (h' : Keeps mm b c) : Keeps mm a c :=
  ⟨h'.part.trans h.part, h'.pending.trans h.pending,
   fun e => ⟨(h'.mem e).1.trans (h.mem e).1, (h'.mem e).2.1.trans (h.mem e).2.1, (h'.mem e).2.2.trans (h.mem e).2.2⟩,
   fun c => h'.canon (h.canon c)⟩
theorem Keeps.abs {mm : Bool} {s x : State} {P : Prop} (h : Keeps mm s x) (h' : Keeps mm s x → P) : P := h' h
theorem Keeps.weaken {mm : Bool} {s t : State} (h : Keeps true s t) : Keeps mm s t := ⟨h.1, h.2, fun _ => h.3 rfl, h.4⟩
theorem Keeps.ofpair {α : Type} {mm : Bool} {s t : State} {p : α × State} {a : α} (e : p = (a, t)) (h : Keeps mm s p.2) : Keeps mm s t := by
  subst e; exact h
theorem Keeps.ofpair1 {α : Type} {mm : Bool} {s t : State} {p : State × α} {a : α} (e : p = (t, a)) (h : Keeps mm s p.1) : Keeps mm s t := by
  subst e; exact h
theorem Keeps.oftriple {α β : Type} {mm : Bool} {s t : State} {p : α × β × State} {a : α} {b : β} (e : p = (a, b, t)) (h : Keeps mm s p.2.2) : Keeps mm s t := by
  subst e; exact h
def KeepsF (mm : Bool) (f : State → State) : Prop := ∀ s, Keeps mm s (f s)
theorem KeepsF.intro {mm : Bool} {f : State → State} (h : ∀ s, Keeps mm s (f s)) : KeepsF mm f := h
theorem KeepsF.ap {mm : Bool} {f : State → State} (h : KeepsF mm f) {s0 s : State} (h0 : Keeps mm s0 s) : Keeps mm s0 (f s) := h0.trans (h s)
def KeepsP {β : Type} (mm : Bool) (f : β × State → β × State) : Prop := ∀ x, Keeps mm x.2 (f x).2
theorem KeepsP.intro {β : Type} {mm : Bool} {f : β × State → β × State} (h : ∀ b s, Keeps mm s (f (b, s)).2) : KeepsP mm f := fun x => h x.1 x.2
def after (s : State) (o : Host.Outcome State Fault Refusal) : State := match o with | .next t => t | _ => s
theorem after_next_keeps {mm : Bool} {s0 s t : State} (h : Keeps mm s0 t) : Keeps mm s0 (after s (.next t)) := h
theorem foldl_keeps {α : Type} {mm : Bool} {f : State → α → State} {s0 s : State} (h : Keeps mm s0 s) (hf : ∀ a, KeepsF mm (fun s => f s a)) (l : List α) :
    Keeps mm s0 (l.foldl f s) := by
  induction l generalizing s with
  | nil => exact h
  | cons a l ih => exact ih (h.trans (hf a s))
theorem foldl2_keeps {α β : Type} {mm : Bool} {f : β × State → α → β × State} {s0 : State} {x : β × State} (h : Keeps mm s0 x.2)
    (hf : ∀ a, KeepsP mm (fun x => f x a)) (l : List α) : Keeps mm s0 (l.foldl f x).2 := by
  induction l generalizing x with
  | nil => exact h
  | cons a l ih => exact ih (h.trans (hf a x))
theorem forN_keeps {mm : Bool} {f : Nat → State → State} {s0 s : State} (h : Keeps mm s0 s) (hf : ∀ i, KeepsF mm (f i)) (n : Nat) :
    Keeps mm s0 (forN n s f) := foldl_keeps h hf _
/-- A list of sizes becomes another, which fits the device if the first did. -/
def Fits (a b : List Nat) : Prop := a = deviceShape → b = deviceShape
theorem Fits.intro {a b : List Nat} (h : a = deviceShape → b = deviceShape) : Fits a b := h
theorem Fits.refl (a : List Nat) : Fits a a := id
theorem upd_keeps {mm : Bool} {s0 e : State} (h : Keeps mm s0 e) (out time msix bit hbm xlt tsq sump lanes quads clr ing cwy heads slices recompute wits raw gcx eth tapNews recorder tim cod dsp dma seq supply shed thermal hif freeCtr)
    (hl : Fits [e.lanes.length, e.quads.length, e.clr.length, e.ing.length, e.cwy.length, e.heads.length, e.slices.length, e.wits.length, e.raw.length, e.eth.length, e.dma.length] [List.length lanes, List.length quads, List.length clr, List.length ing, List.length cwy, List.length heads, List.length slices, List.length wits, List.length raw, List.length eth, List.length dma]) :
    Keeps mm s0 (mkS e.part e.regs e.actv e.mem e.memGen e.hostMem out time msix bit hbm xlt tsq sump lanes quads clr ing cwy heads slices recompute wits raw gcx eth tapNews recorder tim cod dsp dma seq supply shed thermal hif e.cnt freeCtr e.pending) := ⟨h.1, h.2, h.3, fun c => ⟨(h.4 c).1, (h.4 c).2, (h.4 c).3, (h.4 c).4, (h.4 c).5, (h.4 c).6, hl (h.4 c).7⟩⟩
def KeepsF2 {α : Type} (mm : Bool) (f : State → α → State) : Prop := ∀ n s, Keeps mm s (f s n)
theorem KeepsF2.intro {α : Type} {mm : Bool} {f : State → α → State} (h : ∀ n s, Keeps mm s (f s n)) : KeepsF2 mm f := h
theorem KeepsF2.ap {α : Type} {mm : Bool} {f : State → α → State} (h : KeepsF2 mm f) {s0 s : State} (h0 : Keeps mm s0 s) (n : α) : Keeps mm s0 (f s n) :=
  h0.trans (h n s)
theorem KeepsF2.abs {α : Type} {mm : Bool} {x : State → α → State} {P : Prop} (h : KeepsF2 mm x) (h' : KeepsF2 mm x → P) : P := h' h
theorem KeepsF.id {mm : Bool} : KeepsF mm id := fun s => Keeps.refl s
theorem KeepsF.abs {mm : Bool} {x : State → State} {P : Prop} (h : KeepsF mm x) (h' : KeepsF mm x → P) : P := h' h
def KeepsF3 {α β : Type} (mm : Bool) (f : State → α → β → State) : Prop := ∀ a b s, Keeps mm s (f s a b)
theorem KeepsF3.intro {α β : Type} {mm : Bool} {f : State → α → β → State} (h : ∀ a b s, Keeps mm s (f s a b)) : KeepsF3 mm f := h
theorem KeepsF3.ap {α β : Type} {mm : Bool} {f : State → α → β → State} (h : KeepsF3 mm f) {s0 s : State} (h0 : Keeps mm s0 s) (a : α) (b : β) :
    Keeps mm s0 (f s a b) := h0.trans (h a b s)
theorem KeepsF3.abs {α β : Type} {mm : Bool} {x : State → α → β → State} {P : Prop} (h : KeepsF3 mm x) (h' : KeepsF3 mm x → P) : P := h' h
def KeepsG {α β : Type} (mm : Bool) (f : State → α → State × β) : Prop := ∀ a s, Keeps mm s (f s a).1
theorem KeepsG.intro {α β : Type} {mm : Bool} {f : State → α → State × β} (h : ∀ a s, Keeps mm s (f s a).1) : KeepsG mm f := h
theorem KeepsG.ap {α β : Type} {mm : Bool} {f : State → α → State × β} (h : KeepsG mm f) {s0 s : State} (h0 : Keeps mm s0 s) (a : α) :
    Keeps mm s0 (f s a).1 := h0.trans (h a s)
theorem KeepsG.abs {α β : Type} {mm : Bool} {x : State → α → State × β} {P : Prop} (h : KeepsG mm x) (h' : KeepsG mm x → P) : P := h' h
def KeepsQ {β γ δ : Type} (mm : Bool) (f : β × γ × δ × State → β × γ × δ × State) : Prop := ∀ x, Keeps mm x.2.2.2 (f x).2.2.2
theorem KeepsQ.intro {β γ δ : Type} {mm : Bool} {f : β × γ × δ × State → β × γ × δ × State} (h : ∀ b c d s, Keeps mm s (f (b, c, d, s)).2.2.2) : KeepsQ mm f :=
  fun x => h x.1 x.2.1 x.2.2.1 x.2.2.2
theorem foldl4_keeps {α β γ δ : Type} {mm : Bool} {f : β × γ × δ × State → α → β × γ × δ × State} {s0 : State} {x : β × γ × δ × State}
    (h : Keeps mm s0 x.2.2.2) (hf : ∀ a, KeepsQ mm (fun x => f x a)) (l : List α) : Keeps mm s0 (l.foldl f x).2.2.2 := by
  induction l generalizing x with
  | nil => exact h
  | cons a l ih => exact ih (h.trans (hf a x))
theorem Keeps.ite {mm : Bool} {s a b : State} {c : Prop} {_ : Decidable c} (h1 : Keeps mm s a) (h2 : Keeps mm s b) : Keeps mm s (if c then a else b) := by
  split
  · exact h1
  · exact h2
theorem zero_keeps {mm : Bool} {s0 e : State} (h : Keeps mm s0 e) : Keeps mm s0 (mkS e.part e.regs e.actv e.mem e.memGen e.hostMem e.out e.time e.msix e.bit e.hbm e.xlt e.tsq e.sump e.lanes e.quads e.clr e.ing e.cwy e.heads e.slices e.recompute e.wits e.raw e.gcx e.eth e.tapNews e.recorder e.tim e.cod e.dsp e.dma e.seq e.supply e.shed e.thermal e.hif (e.cnt.map (fun _ => 0)) e.freeCtr e.pending) :=
  ⟨h.1, h.2, h.3, fun z => let c := h.4 z; ⟨c.1, c.2, c.3, c.4, (List.length_map _).trans c.5, by intro v hv; obtain ⟨a, ha, rfl⟩ := List.mem_map.1 hv; decide, c.7⟩⟩
def KeepsT {β γ : Type} (mm : Bool) (f : β × γ × State → β × γ × State) : Prop := ∀ x, Keeps mm x.2.2 (f x).2.2
theorem KeepsT.intro {β γ : Type} {mm : Bool} {f : β × γ × State → β × γ × State} (h : ∀ b c s, Keeps mm s (f (b, c, s)).2.2) : KeepsT mm f :=
  fun x => h x.1 x.2.1 x.2.2
theorem foldl3_keeps {α β γ : Type} {mm : Bool} {f : β × γ × State → α → β × γ × State} {s0 : State} {x : β × γ × State}
    (h : Keeps mm s0 x.2.2) (hf : ∀ a, KeepsT mm (fun x => f x a)) (l : List α) : Keeps mm s0 (l.foldl f x).2.2 := by
  induction l generalizing x with
  | nil => exact h
  | cons a l ih => exact ih (h.trans (hf a x))
theorem State.wr_keeps {mm : Bool} {s0 s : State} (hk : Keeps mm s0 s) (off v : Nat) : Keeps mm s0 (State.wr s off v) :=
  ⟨hk.1, hk.2, hk.3, fun h => let c := hk.4 h; ⟨Sparse.put_wf _ _ _ _ c.1, c.2, c.3, c.4, c.5, c.6, c.7⟩⟩

theorem State.wrA_keeps {mm : Bool} {s0 s : State} (hk : Keeps mm s0 s) (off v : Nat) : Keeps mm s0 (State.wrA s off v) :=
  ⟨hk.1, hk.2, hk.3, fun h => let c := hk.4 h; ⟨c.1, Sparse.put_wf _ _ _ _ c.2, c.3, c.4, c.5, c.6, c.7⟩⟩

theorem State.p_keeps {mm : Bool} {s0 s : State} (hk : Keeps mm s0 s) (base : Nat) (f : Fld) (v : Nat) :
    Keeps mm s0 (State.p s base f v) := by
  refine hk.trans ?_; clear hk; unfold State.p; try dsimp -zeta only [mkS_eq]
  try lift_lets -underBinder
  with_reducible repeat' first
    | assumption
    | exact Keeps.refl _
    | (intro x; try clear_value x)
    | apply State.wr_keeps

theorem State.pa_keeps {mm : Bool} {s0 s : State} (hk : Keeps mm s0 s) (base : Nat) (f : Fld) (v : Nat) :
    Keeps mm s0 (State.pa s base f v) := by
  refine hk.trans ?_; clear hk; unfold State.pa; try dsimp -zeta only [mkS_eq]
  try lift_lets -underBinder
  with_reducible repeat' first
    | assumption
    | exact Keeps.refl _
    | (intro x; try clear_value x)
    | apply State.wrA_keeps

theorem State.p64_keeps {mm : Bool} {s0 s : State} (hk : Keeps mm s0 s) (base : Nat) (f : Fld) (v : Nat) :
    Keeps mm s0 (State.p64 s base f v) := by
  refine hk.trans ?_; clear hk; unfold State.p64; try dsimp -zeta only [mkS_eq]
  try lift_lets -underBinder
  with_reducible repeat' first
    | assumption
    | exact Keeps.refl _
    | (intro x; try clear_value x)
    | apply State.wr_keeps

theorem State.addSat_keeps {mm : Bool} {s0 s : State} (hk : Keeps mm s0 s) (base : Nat) (f : Fld) (n : Nat) :
    Keeps mm s0 (State.addSat s base f n) := by
  refine hk.trans ?_; clear hk; unfold State.addSat; try dsimp -zeta only [mkS_eq]
  try lift_lets -underBinder
  with_reducible repeat' first
    | assumption
    | exact Keeps.refl _
    | (intro x; try clear_value x)
    | apply State.p_keeps

theorem State.addMod_keeps {mm : Bool} {s0 s : State} (hk : Keeps mm s0 s) (base : Nat) (f : Fld) (n : Nat) :
    Keeps mm s0 (State.addMod s base f n) := by
  refine hk.trans ?_; clear hk; unfold State.addMod; try dsimp -zeta only [mkS_eq]
  try lift_lets -underBinder
  with_reducible repeat' first
    | assumption
    | exact Keeps.refl _
    | (intro x; try clear_value x)
    | apply State.p_keeps

theorem State.pBit_keeps {mm : Bool} {s0 s : State} (hk : Keeps mm s0 s) (base : Nat) (f : Fld) (n : Nat) (b : Bool) :
    Keeps mm s0 (State.pBit s base f n b) := by
  refine hk.trans ?_; clear hk; unfold State.pBit; try dsimp -zeta only [mkS_eq]
  try lift_lets -underBinder
  with_reducible repeat' first
    | assumption
    | exact Keeps.refl _
    | (intro x; try clear_value x)
    | apply State.p_keeps

theorem State.hbmWrite_keeps {s0 s : State} (hk : Keeps false s0 s) (a : Nat) (l : List Byte) : Keeps false s0 (State.hbmWrite s a l) :=
  ⟨hk.1, hk.2, nofun, fun h => let c := hk.4 h; ⟨c.1, c.2, Memory.writeN_wf _ _ _ _ c.3, c.4, c.5, c.6, c.7⟩⟩

theorem State.hbmSpan_keeps {s0 s : State} (hk : Keeps false s0 s) (a n : Nat) (zero : Bool) : Keeps false s0 (State.hbmSpan s a n zero) := by
  refine hk.trans ?_
  unfold State.hbmSpan
  cases zero <;>
  exact ⟨rfl, rfl, nofun, fun c => ⟨c.1, c.2, Memory.span_wf _ _ _ _ _ c.3, c.4, c.5, c.6, c.7⟩⟩

theorem State.hostWrite_keeps {s0 s : State} (hk : Keeps false s0 s) (a : Nat) (l : List Byte) : Keeps false s0 (State.hostWrite s a l) :=
  ⟨hk.1, hk.2, nofun, fun h => let c := hk.4 h; ⟨c.1, c.2, c.3, Memory.writeN_wf _ _ _ _ c.4, c.5, c.6, c.7⟩⟩

theorem State.emit_keeps {mm : Bool} {s0 s : State} (hk : Keeps mm s0 s) (o : Out) :
    Keeps mm s0 (State.emit s o) := by
  refine hk.trans ?_; clear hk; unfold State.emit; try dsimp -zeta only [mkS_eq]
  try lift_lets -underBinder
  with_reducible repeat' first
    | assumption
    | exact Keeps.refl _
    | (intro x; try clear_value x)
    | apply upd_keeps
    | exact Fits.refl _

theorem State.free_keeps {mm : Bool} {s0 s : State} (hk : Keeps mm s0 s) (bound : Nat) :
    Keeps mm s0 (State.free s bound).2 := by
  refine hk.trans ?_; clear hk; unfold State.free; try dsimp -zeta only [mkS_eq]
  try lift_lets -underBinder
  with_reducible repeat' first
    | assumption
    | exact Keeps.refl _
    | (intro x; try clear_value x)
    | apply upd_keeps
    | exact Fits.refl _

theorem State.rawVector_keeps {mm : Bool} {s0 s : State} (hk : Keeps mm s0 s) (v : Nat) :
    Keeps mm s0 (State.rawVector s v) := by
  refine hk.trans ?_; clear hk; unfold State.rawVector; try dsimp -zeta only [mkS_eq]
  try lift_lets -underBinder
  with_reducible repeat' first
    | assumption
    | exact Keeps.refl _
    | (intro x; try clear_value x)
    | apply State.emit_keeps
    | apply upd_keeps
    | exact Fits.refl _
    | lift_lets -underBinder
    | apply Keeps.ite

theorem State.messageBy_keeps {mm : Bool} {s0 s : State} (hk : Keeps mm s0 s) (send : State → Nat → State) (b : Nat) (hksend : KeepsF2 mm send) :
    Keeps mm s0 (State.messageBy send s b) := by
  refine hk.trans ?_; clear hk; unfold State.messageBy; try dsimp -zeta only [mkS_eq]
  try lift_lets -underBinder
  with_reducible repeat' first
    | assumption
    | exact Keeps.refl _
    | (intro x; refine Keeps.abs (mm := mm) (x := x) (s := s) ?_ (fun hk => ?_); rotate_left; clear_value x; rotate_right; dsimp -zeta only [x]; try clear x)
    | (intro x; try clear_value x)
    | exact hksend
    | apply KeepsF2.ap hksend
    | apply upd_keeps
    | exact Fits.refl _
    | lift_lets -underBinder
    | apply Keeps.ite

theorem State.setCnt_keeps {mm : Bool} {s0 s : State} (hk : Keeps mm s0 s) (f : Nat → Nat) (n : Nat) (hf : ∀ v, v < 2 ^ 48 → f v < 2 ^ 48) :
    Keeps mm s0 { s with cnt := upd s.cnt n f } :=
  ⟨hk.1, hk.2, hk.3, fun h => let c := hk.4 h; ⟨c.1, c.2, c.3, c.4, (upd_length _ _ _).trans c.5, upd_forall _ _ _ c.6 hf, c.7⟩⟩
theorem State.cntAdd_keeps {mm : Bool} {s0 s : State} (hk : Keeps mm s0 s) (n amount : Nat) : Keeps mm s0 (State.cntAdd s n amount).2 := by
  have h1 := State.setCnt_keeps hk (fun _ => (nth 0 s.cnt n + amount) % 2 ^ 48) n (fun _ _ => Nat.mod_lt _ (by decide))
  unfold State.cntAdd
  lift_lets
  intro v x
  split
  · exact h1
  · exact State.pBit_keeps h1 ..

theorem State.cntTake_keeps {mm : Bool} {s0 s : State} (hk : Keeps mm s0 s) (e : CntEvent) :
    Keeps mm s0 (State.cntTake s e).2 := by
  refine hk.trans ?_; clear hk; unfold State.cntTake; try dsimp -zeta only [mkS_eq]
  try lift_lets -underBinder
  with_reducible repeat' first
    | assumption
    | exact Keeps.refl _
    | (apply KeepsP.intro; intro b s; (try dsimp -zeta only); try lift_lets -underBinder)
    | (intro x; refine Keeps.abs (mm := mm) (x := x.2) (s := s) ?_ (fun hk => ?_); rotate_left; clear_value x; rotate_right; dsimp -zeta only [x]; try clear x)
    | (intro x; try clear_value x)
    | apply State.cntAdd_keeps
    | apply foldl_keeps
    | apply foldl2_keeps
    | lift_lets -underBinder
    | apply Keeps.ite
    | split

theorem State.sentCount_keeps {mm : Bool} {s0 s : State} (hk : Keeps mm s0 s) (v : Nat) :
    Keeps mm s0 (State.sentCount s v).2 := by
  refine hk.trans ?_; clear hk; unfold State.sentCount; try dsimp -zeta only [mkS_eq]
  try lift_lets -underBinder
  with_reducible repeat' first
    | assumption
    | exact Keeps.refl _
    | (intro x; refine Keeps.abs (mm := mm) (x := x) (s := s) ?_ (fun hk => ?_); rotate_left; clear_value x; rotate_right; dsimp -zeta only [x]; try clear x)
    | (intro x; refine Keeps.abs (mm := mm) (x := x.2) (s := s) ?_ (fun hk => ?_); rotate_left; clear_value x; rotate_right; dsimp -zeta only [x]; try clear x)
    | (intro x; try clear_value x)
    | apply State.rawVector_keeps
    | apply State.cntTake_keeps
    | lift_lets -underBinder
    | apply Keeps.ite
    | split

theorem State.cntIrq_keeps {mm : Bool} {s0 s : State} (hk : Keeps mm s0 s) :
    Keeps mm s0 (State.cntIrq s) := by
  refine hk.trans ?_; clear hk; unfold State.cntIrq; try dsimp -zeta only [mkS_eq]
  try lift_lets -underBinder
  with_reducible repeat' first
    | assumption
    | exact Keeps.refl _
    | (apply KeepsF2.intro; intro n s; (try dsimp -zeta only); try lift_lets -underBinder)
    | (intro x; refine Keeps.abs (mm := mm) (x := x) (s := s) ?_ (fun hk => ?_); rotate_left; clear_value x; rotate_right; dsimp -zeta only [x]; try clear x)
    | (intro x; try clear_value x)
    | apply State.p_keeps
    | apply State.messageBy_keeps
    | apply State.sentCount_keeps
    | lift_lets -underBinder
    | apply Keeps.ite

theorem State.count_keeps {mm : Bool} {s0 s : State} (hk : Keeps mm s0 s) (e : CntEvent) :
    Keeps mm s0 (State.count s e) := by
  refine hk.trans ?_; clear hk; unfold State.count; try dsimp -zeta only [mkS_eq]
  try lift_lets -underBinder
  with_reducible repeat' first
    | assumption
    | exact Keeps.refl _
    | (intro x; refine Keeps.abs (mm := mm) (x := x.2) (s := s) ?_ (fun hk => ?_); rotate_left; clear_value x; rotate_right; dsimp -zeta only [x]; try clear x)
    | (intro x; try clear_value x)
    | apply State.cntTake_keeps
    | apply State.cntIrq_keeps
    | lift_lets -underBinder
    | apply Keeps.ite

theorem State.freeCount_keeps {mm : Bool} {s0 s : State} (hk : Keeps mm s0 s) (e : CntEvent) (most : Option Nat) :
    Keeps mm s0 (State.freeCount s e most) := State.count_keeps hk _

theorem State.sendVector_keeps {mm : Bool} {s0 s : State} (hk : Keeps mm s0 s) (v : Nat) :
    Keeps mm s0 (State.sendVector s v) := by
  refine hk.trans ?_; clear hk; unfold State.sendVector; try dsimp -zeta only [mkS_eq]
  try lift_lets -underBinder
  with_reducible repeat' first
    | assumption
    | exact Keeps.refl _
    | (intro x; refine Keeps.abs (mm := mm) (x := x.2) (s := s) ?_ (fun hk => ?_); rotate_left; clear_value x; rotate_right; dsimp -zeta only [x]; try clear x)
    | (intro x; try clear_value x)
    | apply State.sentCount_keeps
    | apply State.cntIrq_keeps
    | lift_lets -underBinder
    | apply Keeps.ite

theorem State.messageDue_keeps {mm : Bool} {s0 s : State} (hk : Keeps mm s0 s) (b : Nat) :
    Keeps mm s0 (State.messageDue s b) := by
  refine hk.trans ?_; clear hk; unfold State.messageDue; try dsimp -zeta only [mkS_eq]
  try lift_lets -underBinder
  with_reducible repeat' first
    | assumption
    | exact Keeps.refl _
    | (apply KeepsF2.intro; intro n s; (try dsimp -zeta only); try lift_lets -underBinder)
    | (intro x; try clear_value x)
    | apply State.messageBy_keeps
    | apply State.sendVector_keeps

theorem State.sendMessage_keeps {mm : Bool} {s0 s : State} (hk : Keeps mm s0 s) (b : Nat) :
    Keeps mm s0 (State.sendMessage s b) := by
  refine hk.trans ?_; clear hk; unfold State.sendMessage; try dsimp -zeta only [mkS_eq]
  try lift_lets -underBinder
  with_reducible repeat' first
    | assumption
    | exact Keeps.refl _
    | (intro x; refine Keeps.abs (mm := mm) (x := x) (s := s) ?_ (fun hk => ?_); rotate_left; clear_value x; rotate_right; dsimp -zeta only [x]; try clear x)
    | (intro x; try clear_value x)
    | apply State.sendVector_keeps
    | apply upd_keeps
    | exact Fits.refl _
    | lift_lets -underBinder
    | apply Keeps.ite

theorem State.irqMask_keeps {mm : Bool} {s0 s : State} (hk : Keeps mm s0 s) (b mask : Nat) :
    Keeps mm s0 (State.irqMask s b mask) := by
  refine hk.trans ?_; clear hk; unfold State.irqMask; try dsimp -zeta only [mkS_eq]
  try lift_lets -underBinder
  with_reducible repeat' first
    | assumption
    | exact Keeps.refl _
    | (intro x; refine Keeps.abs (mm := mm) (x := x) (s := s) ?_ (fun hk => ?_); rotate_left; clear_value x; rotate_right; dsimp -zeta only [x]; try clear x)
    | (intro x; try clear_value x)
    | apply State.p_keeps
    | apply State.messageDue_keeps
    | lift_lets -underBinder
    | apply Keeps.ite

theorem State.irq_keeps {mm : Bool} {s0 s : State} (hk : Keeps mm s0 s) (b n : Nat) :
    Keeps mm s0 (State.irq s b n) := by
  refine hk.trans ?_; clear hk; unfold State.irq; try dsimp -zeta only [mkS_eq]
  try lift_lets -underBinder
  with_reducible repeat' first
    | assumption
    | exact Keeps.refl _
    | (intro x; try clear_value x)
    | apply State.irqMask_keeps

theorem State.irqIf_keeps {mm : Bool} {s0 s : State} (hk : Keeps mm s0 s) (c : Bool) (b n : Nat) :
    Keeps mm s0 (State.irqIf s c b n) := by
  refine hk.trans ?_; clear hk; unfold State.irqIf; try dsimp -zeta only [mkS_eq]
  try lift_lets -underBinder
  with_reducible repeat' first
    | assumption
    | exact Keeps.refl _
    | (intro x; try clear_value x)
    | apply State.irq_keeps
    | lift_lets -underBinder
    | apply Keeps.ite

theorem State.irqRecheck_keeps {mm : Bool} {s0 s : State} (hk : Keeps mm s0 s) (b : Nat) :
    Keeps mm s0 (State.irqRecheck s b) := by
  refine hk.trans ?_; clear hk; unfold State.irqRecheck; try dsimp -zeta only [mkS_eq]
  try lift_lets -underBinder
  with_reducible repeat' first
    | assumption
    | exact Keeps.refl _
    | (intro x; try clear_value x)
    | apply State.messageDue_keeps
    | lift_lets -underBinder
    | apply Keeps.ite

theorem State.fault_keeps {mm : Bool} {s0 s : State} (hk : Keeps mm s0 s) (b n : Nat) (v : Bool) :
    Keeps mm s0 (State.fault s b n v) := by
  refine hk.trans ?_; clear hk; unfold State.fault; try dsimp -zeta only [mkS_eq]
  try lift_lets -underBinder
  with_reducible repeat' first
    | assumption
    | exact Keeps.refl _
    | (intro x; refine Keeps.abs (mm := mm) (x := x) (s := s) ?_ (fun hk => ?_); rotate_left; clear_value x; rotate_right; dsimp -zeta only [x]; try clear x)
    | (intro x; try clear_value x)
    | apply State.pBit_keeps
    | apply State.p_keeps

theorem State.badWrite_keeps {mm : Bool} {s0 s : State} (hk : Keeps mm s0 s) (b off cause : Nat) :
    Keeps mm s0 (State.badWrite s b off cause) := by
  refine hk.trans ?_; clear hk; unfold State.badWrite; try dsimp -zeta only [mkS_eq]
  try lift_lets -underBinder
  with_reducible repeat' first
    | assumption
    | exact Keeps.refl _
    | (intro x; try clear_value x)
    | apply State.p_keeps
    | lift_lets -underBinder
    | apply Keeps.ite

theorem State.refuse_keeps {mm : Bool} {s0 s : State} (hk : Keeps mm s0 s) (off cause : Nat) :
    Keeps mm s0 (State.refuse s off cause) := by
  refine hk.trans ?_; clear hk; unfold State.refuse; try dsimp -zeta only [mkS_eq]
  try lift_lets -underBinder
  with_reducible repeat' first
    | assumption
    | exact Keeps.refl _
    | (intro x; try clear_value x)
    | apply State.badWrite_keeps
    | apply upd_keeps
    | exact Fits.refl _
    | lift_lets -underBinder
    | apply Keeps.ite
    | split

theorem State.setBusy_keeps {mm : Bool} {s0 s : State} (hk : Keeps mm s0 s) (b : Nat) (v : Bool) :
    Keeps mm s0 (State.setBusy s b v) := by
  refine hk.trans ?_; clear hk; unfold State.setBusy; try dsimp -zeta only [mkS_eq]
  try lift_lets -underBinder
  with_reducible repeat' first
    | assumption
    | exact Keeps.refl _
    | (intro x; try clear_value x)
    | apply State.p_keeps

end Sys2Proof.Machine
end

