-- ==== Sys2Proof/Laws/KeepsAccess.lean ====
section
/-! SUPPORT. What the functions of Machine/Access.lean keep: the part, the queue, the memories where they store nothing, and the
canonical form of the tables. -/

namespace Sys2Proof.Machine
theorem State.regOp_keeps {mm : Bool} {s0 s : State} (hk : Keeps mm s0 s) (off v : Nat) (op : State → State) (hkop : KeepsF mm op) :
    Keeps mm s0 (State.regOp s off v op) := by
  refine hk.trans ?_; clear hk; unfold State.regOp; try dsimp -zeta only [mkS_eq]
  try lift_lets -underBinder
  with_reducible repeat' first
    | assumption
    | exact Keeps.refl _
    | (intro x; try clear_value x)
    | exact hkop
    | apply KeepsF.ap hkop
    | apply State.badWrite_keeps
    | apply upd_keeps
    | exact Fits.refl _
    | lift_lets -underBinder
    | apply Keeps.ite
    | split

theorem State.host_keeps {mm : Bool} {s0 s : State} (hk : Keeps mm s0 s) (op : State → State) (hkop : KeepsF mm op) :
    Keeps mm s0 (State.host s op) := by
  refine hk.trans ?_; clear hk; unfold State.host; try dsimp -zeta only [mkS_eq]
  try lift_lets -underBinder
  with_reducible repeat' first
    | assumption
    | exact Keeps.refl _
    | (intro x; try clear_value x)
    | exact hkop
    | apply KeepsF.ap hkop
    | apply State.count_keeps
    | lift_lets -underBinder
    | apply Keeps.ite

theorem State.hostSized_keeps {mm : Bool} {s0 s : State} (hk : Keeps mm s0 s) (n : Nat) (op : State → State) (hkop : KeepsF mm op) :
    Keeps mm s0 (State.hostSized s n op) := by
  refine hk.trans ?_; clear hk; unfold State.hostSized; try dsimp -zeta only [mkS_eq]
  try lift_lets -underBinder
  with_reducible repeat' first
    | assumption
    | exact Keeps.refl _
    | (apply KeepsF.intro; intro s; (try dsimp -zeta only); try lift_lets -underBinder)
    | (intro x; try clear_value x)
    | exact hkop
    | apply KeepsF.ap hkop
    | apply State.host_keeps
    | apply State.count_keeps

theorem State.hostReg_keeps {mm : Bool} {s0 s : State} (hk : Keeps mm s0 s) (off v : Nat) (op : State → State) (hkop : KeepsF mm op) :
    Keeps mm s0 (State.hostReg s off v op) := by
  refine hk.trans ?_; clear hk; unfold State.hostReg; try dsimp -zeta only [mkS_eq]
  try lift_lets -underBinder
  with_reducible repeat' first
    | assumption
    | exact Keeps.refl _
    | (apply KeepsF.intro; intro s; (try dsimp -zeta only); try lift_lets -underBinder)
    | (intro x; try clear_value x)
    | exact hkop
    | apply KeepsF.ap hkop
    | apply State.hostSized_keeps
    | apply State.regOp_keeps

theorem State.plainWrite_keeps {mm : Bool} {s0 s : State} (hk : Keeps mm s0 s) (off v : Nat) :
    Keeps mm s0 (State.plainWrite s off v) := by
  refine hk.trans ?_; clear hk; unfold State.plainWrite; try dsimp -zeta only [mkS_eq]
  try lift_lets -underBinder
  with_reducible repeat' first
    | assumption
    | exact Keeps.refl _
    | (intro x; try clear_value x)
    | apply State.wr_keeps
    | apply foldl_keeps
    | apply upd_keeps
    | exact Fits.refl _
    | lift_lets -underBinder
    | apply Keeps.ite
    | split

end Sys2Proof.Machine
end

