-- ==== Sys2Proof/Laws/KeepsBittern.lean ====
section
/-! SUPPORT. What the functions of Machine/Bittern.lean keep: the part, the queue, the memories where they store nothing, and the
canonical form of the tables. -/

namespace Sys2Proof.Machine
theorem State.faultNCause_keeps {mm : Bool} {s0 s : State} (hk : Keeps mm s0 s) (host : Bool) :
    Keeps mm s0 (State.faultNCause s host) := by
  refine hk.trans ?_; clear hk; unfold State.faultNCause; try dsimp -zeta only [mkS_eq]
  try lift_lets -underBinder
  with_reducible repeat' first
    | assumption
    | exact Keeps.refl _
    | (intro x; refine Keeps.abs (mm := mm) (x := x) (s := s) ?_ (fun hk => ?_); rotate_left; clear_value x; rotate_right; dsimp -zeta only [x]; try clear x)
    | (intro x; try clear_value x)
    | apply State.p_keeps
    | apply State.irq_keeps
    | apply State.emit_keeps
    | apply upd_keeps
    | exact Fits.refl _
    | lift_lets -underBinder
    | apply Keeps.ite

theorem State.faultNRelease_keeps {mm : Bool} {s0 s : State} (hk : Keeps mm s0 s) :
    Keeps mm s0 (State.faultNRelease s) := by
  refine hk.trans ?_; clear hk; unfold State.faultNRelease; try dsimp -zeta only [mkS_eq]
  try lift_lets -underBinder
  with_reducible repeat' first
    | assumption
    | exact Keeps.refl _
    | (intro x; try clear_value x)
    | apply State.emit_keeps
    | apply State.p_keeps

theorem State.bitLog_keeps {mm : Bool} {s0 s : State} (hk : Keeps mm s0 s) (e : LogEntry) :
    Keeps mm s0 (State.bitLog s e) := by
  refine hk.trans ?_; clear hk; unfold State.bitLog; try dsimp -zeta only [mkS_eq]
  try lift_lets -underBinder
  with_reducible repeat' first
    | assumption
    | exact Keeps.refl _
    | (intro x; refine Keeps.abs (mm := mm) (x := x) (s := s) ?_ (fun hk => ?_); rotate_left; clear_value x; rotate_right; dsimp -zeta only [x]; try clear x)
    | (intro x; try clear_value x)
    | apply State.irq_keeps
    | apply State.fault_keeps
    | apply State.p_keeps
    | apply State.irqIf_keeps
    | apply upd_keeps
    | exact Fits.refl _
    | lift_lets -underBinder
    | apply Keeps.ite

theorem State.setSrcState_keeps {mm : Bool} {s0 s : State} (hk : Keeps mm s0 s) (n st : Nat) :
    Keeps mm s0 (State.setSrcState s n st) := by
  refine hk.trans ?_; clear hk; unfold State.setSrcState; try dsimp -zeta only [mkS_eq]
  try lift_lets -underBinder
  with_reducible repeat' first
    | assumption
    | exact Keeps.refl _
    | (intro x; refine Keeps.abs (mm := mm) (x := x) (s := s) ?_ (fun hk => ?_); rotate_left; clear_value x; rotate_right; dsimp -zeta only [x]; try clear x)
    | (intro x; try clear_value x)
    | apply State.pBit_keeps
    | apply State.count_keeps
    | apply State.p_keeps
    | apply State.fault_keeps
    | lift_lets -underBinder
    | apply Keeps.ite

theorem State.setSrcEvents_keeps {mm : Bool} {s0 s : State} (hk : Keeps mm s0 s) (n : Nat) (l : List CountedEvent) :
    Keeps mm s0 (State.setSrcEvents s n l) := by
  refine hk.trans ?_; clear hk; unfold State.setSrcEvents; try dsimp -zeta only [mkS_eq]
  try lift_lets -underBinder
  with_reducible repeat' first
    | assumption
    | exact Keeps.refl _
    | (intro x; refine Keeps.abs (mm := mm) (x := x) (s := s) ?_ (fun hk => ?_); rotate_left; clear_value x; rotate_right; dsimp -zeta only [x]; try clear x)
    | (intro x; try clear_value x)
    | apply State.p_keeps
    | apply upd_keeps
    | exact Fits.refl _

theorem State.countEvent_keeps {mm : Bool} {s0 s : State} (hk : Keeps mm s0 s) (n unit : Nat) :
    Keeps mm s0 (State.countEvent s n unit) := by
  refine hk.trans ?_; clear hk; unfold State.countEvent; try dsimp -zeta only [mkS_eq]
  try lift_lets -underBinder
  with_reducible repeat' first
    | assumption
    | exact Keeps.refl _
    | (intro x; refine Keeps.abs (mm := mm) (x := x) (s := s) ?_ (fun hk => ?_); rotate_left; clear_value x; rotate_right; dsimp -zeta only [x]; try clear x)
    | (intro x; try clear_value x)
    | apply State.setSrcEvents_keeps
    | apply State.p_keeps

theorem State.severeEntry_keeps {mm : Bool} {s0 s : State} (hk : Keeps mm s0 s) (n : Nat) :
    Keeps mm s0 (State.severeEntry s n) := by
  refine hk.trans ?_; clear hk; unfold State.severeEntry; try dsimp -zeta only [mkS_eq]
  try lift_lets -underBinder
  with_reducible repeat' first
    | assumption
    | exact Keeps.refl _
    | (intro x; refine Keeps.abs (mm := mm) (x := x) (s := s) ?_ (fun hk => ?_); rotate_left; clear_value x; rotate_right; dsimp -zeta only [x]; try clear x)
    | (intro x; try clear_value x)
    | apply State.irqIf_keeps
    | apply State.faultNCause_keeps
    | lift_lets -underBinder
    | apply Keeps.ite

theorem State.bitEvent_keeps {mm : Bool} {s0 s : State} (hk : Keeps mm s0 s) (e : BitEvent) :
    Keeps mm s0 (State.bitEvent s e).1 := by
  refine hk.trans ?_; clear hk; unfold State.bitEvent; try dsimp -zeta only [mkS_eq]
  try lift_lets -underBinder
  with_reducible repeat' first
    | assumption
    | exact Keeps.refl _
    | (intro x; refine Keeps.abs (mm := mm) (x := x) (s := s) ?_ (fun hk => ?_); rotate_left; clear_value x; rotate_right; dsimp -zeta only [x]; try clear x)
    | (intro x; try clear_value x)
    | apply State.addSat_keeps
    | apply State.p_keeps
    | apply State.bitLog_keeps
    | apply State.setSrcState_keeps
    | apply State.severeEntry_keeps
    | apply State.count_keeps
    | apply State.countEvent_keeps
    | apply State.irqIf_keeps
    | lift_lets -underBinder
    | apply Keeps.ite
    | split

theorem State.report_keeps {mm : Bool} {s0 s : State} (hk : Keeps mm s0 s) (e : BitEvent) (sw : State → State) (hksw : KeepsF mm sw) :
    Keeps mm s0 (State.report s e sw) := by
  refine hk.trans ?_; clear hk; unfold State.report; try dsimp -zeta only [mkS_eq]
  try lift_lets -underBinder
  with_reducible repeat' first
    | assumption
    | exact Keeps.refl _
    | (intro x; refine Keeps.abs (mm := mm) (x := x.1) (s := s) ?_ (fun hk => ?_); rotate_left; clear_value x; rotate_right; dsimp -zeta only [x]; try clear x)
    | (intro x; try clear_value x)
    | exact hksw
    | apply KeepsF.ap hksw
    | apply State.bitEvent_keeps
    | lift_lets -underBinder
    | apply Keeps.ite

theorem State.reportOnly_keeps {mm : Bool} {s0 s : State} (hk : Keeps mm s0 s) (src detail : Nat) :
    Keeps mm s0 (State.reportOnly s src detail) := by
  refine hk.trans ?_; clear hk; unfold State.reportOnly; try dsimp -zeta only [mkS_eq]
  try lift_lets -underBinder
  with_reducible repeat' first
    | assumption
    | exact Keeps.refl _
    | (intro x; try clear_value x)
    | apply State.bitEvent_keeps

theorem State.check_keeps {mm : Bool} {s0 s : State} (hk : Keeps mm s0 s) (src unit : Nat) (fails retryFails : Bool) :
    Keeps mm s0 (State.check s src unit fails retryFails).2 := by
  refine hk.trans ?_; clear hk; unfold State.check; try dsimp -zeta only [mkS_eq]
  try lift_lets -underBinder
  with_reducible repeat' first
    | assumption
    | exact Keeps.refl _
    | (intro x; refine Keeps.abs (mm := mm) (x := x) (s := s) ?_ (fun hk => ?_); rotate_left; clear_value x; rotate_right; dsimp -zeta only [x]; try clear x)
    | (intro x; try clear_value x)
    | apply State.irq_keeps
    | apply State.p_keeps
    | lift_lets -underBinder
    | apply Keeps.ite
    | split

theorem State.checkReport_keeps {mm : Bool} {s0 s : State} (hk : Keeps mm s0 s) (src unit evUnit detail : Nat) (fails retryFails : Bool) (sw : State → State) (hksw : KeepsF mm sw) :
    Keeps mm s0 (State.checkReport s src unit evUnit detail fails retryFails sw).2 := by
  refine hk.trans ?_; clear hk; unfold State.checkReport; try dsimp -zeta only [mkS_eq]
  try lift_lets -underBinder
  with_reducible repeat' first
    | assumption
    | exact Keeps.refl _
    | (intro x; try clear_value x)
    | exact hksw
    | apply KeepsF.ap hksw
    | apply State.check_keeps
    | apply State.report_keeps
    | (apply Keeps.ofpair (by assumption))
    | (apply Keeps.ofpair1 (by assumption))
    | (apply Keeps.oftriple (by assumption))
    | lift_lets -underBinder
    | apply Keeps.ite

theorem State.testAbort_keeps {mm : Bool} {s0 s : State} (hk : Keeps mm s0 s) :
    Keeps mm s0 (State.testAbort s) := by
  refine hk.trans ?_; clear hk; unfold State.testAbort; try dsimp -zeta only [mkS_eq]
  try lift_lets -underBinder
  with_reducible repeat' first
    | assumption
    | exact Keeps.refl _
    | (intro x; try clear_value x)
    | apply State.irq_keeps
    | apply State.p_keeps
    | lift_lets -underBinder
    | apply Keeps.ite

theorem State.testYield_keeps {mm : Bool} {s0 s : State} (hk : Keeps mm s0 s) (kind index : Nat) :
    Keeps mm s0 (State.testYield s kind index) := by
  refine hk.trans ?_; clear hk; unfold State.testYield; try dsimp -zeta only [mkS_eq]
  try lift_lets -underBinder
  with_reducible repeat' first
    | assumption
    | exact Keeps.refl _
    | (intro x; try clear_value x)
    | apply State.testAbort_keeps
    | lift_lets -underBinder
    | apply Keeps.ite

theorem State.faultNReleaseWrite_keeps {mm : Bool} {s0 s : State} (hk : Keeps mm s0 s) :
    Keeps mm s0 (State.faultNReleaseWrite s) := by
  refine hk.trans ?_; clear hk; unfold State.faultNReleaseWrite; try dsimp -zeta only [mkS_eq]
  try lift_lets -underBinder
  with_reducible repeat' first
    | assumption
    | exact Keeps.refl _
    | (intro x; try clear_value x)
    | apply State.faultNRelease_keeps
    | apply upd_keeps
    | exact Fits.refl _
    | lift_lets -underBinder
    | apply Keeps.ite

theorem State.srcClear_keeps {mm : Bool} {s0 s : State} (hk : Keeps mm s0 s) (n : Nat) :
    Keeps mm s0 (State.srcClear s n) := by
  refine hk.trans ?_; clear hk; unfold State.srcClear; try dsimp -zeta only [mkS_eq]
  try lift_lets -underBinder
  with_reducible repeat' first
    | assumption
    | exact Keeps.refl _
    | (intro x; try clear_value x)
    | apply State.setSrcState_keeps
    | apply State.setSrcEvents_keeps
    | lift_lets -underBinder
    | apply Keeps.ite

theorem State.bitLogPop_keeps {mm : Bool} {s0 s : State} (hk : Keeps mm s0 s) :
    Keeps mm s0 (State.bitLogPop s) := by
  refine hk.trans ?_; clear hk; unfold State.bitLogPop; try dsimp -zeta only [mkS_eq]
  try lift_lets -underBinder
  with_reducible repeat' first
    | assumption
    | exact Keeps.refl _
    | (intro x; try clear_value x)
    | apply State.p_keeps
    | apply upd_keeps
    | exact Fits.refl _

theorem State.bitLogClrOvf_keeps {mm : Bool} {s0 s : State} (hk : Keeps mm s0 s) :
    Keeps mm s0 (State.bitLogClrOvf s) := by
  refine hk.trans ?_; clear hk; unfold State.bitLogClrOvf; try dsimp -zeta only [mkS_eq]
  try lift_lets -underBinder
  with_reducible repeat' first
    | assumption
    | exact Keeps.refl _
    | (intro x; try clear_value x)
    | apply State.fault_keeps
    | apply State.p_keeps

theorem State.faultNCtrl_keeps {mm : Bool} {s0 s : State} (hk : Keeps mm s0 s) (v : Nat) :
    Keeps mm s0 (State.faultNCtrl s v) := by
  refine hk.trans ?_; clear hk; unfold State.faultNCtrl; try dsimp -zeta only [mkS_eq]
  try lift_lets -underBinder
  with_reducible repeat' first
    | assumption
    | exact Keeps.refl _
    | (intro x; try clear_value x)
    | apply State.faultNCause_keeps
    | apply State.faultNReleaseWrite_keeps
    | lift_lets -underBinder
    | apply Keeps.ite

theorem State.srcClearWrite_keeps {mm : Bool} {s0 s : State} (hk : Keeps mm s0 s) (v : Nat) :
    Keeps mm s0 (State.srcClearWrite s v) := by
  refine hk.trans ?_; clear hk; unfold State.srcClearWrite; try dsimp -zeta only [mkS_eq]
  try lift_lets -underBinder
  with_reducible repeat' first
    | assumption
    | exact Keeps.refl _
    | (intro x; try clear_value x)
    | apply State.srcClear_keeps
    | lift_lets -underBinder
    | apply Keeps.ite

theorem State.bitLogCtrl_keeps {mm : Bool} {s0 s : State} (hk : Keeps mm s0 s) (v : Nat) :
    Keeps mm s0 (State.bitLogCtrl s v) := by
  refine hk.trans ?_; clear hk; unfold State.bitLogCtrl; try dsimp -zeta only [mkS_eq]
  try lift_lets -underBinder
  with_reducible repeat' first
    | assumption
    | exact Keeps.refl _
    | (intro x; refine Keeps.abs (mm := mm) (x := x) (s := s) ?_ (fun hk => ?_); rotate_left; clear_value x; rotate_right; dsimp -zeta only [x]; try clear x)
    | (intro x; try clear_value x)
    | apply State.bitLogPop_keeps
    | apply State.bitLogClrOvf_keeps
    | lift_lets -underBinder
    | apply Keeps.ite

theorem execSrcClear_keeps {mm : Bool} {s0 s : State} (hk : Keeps mm s0 s) (source : Nat) :
    Keeps mm s0 (after s (execSrcClear source s)) := by
  refine hk.trans ?_; clear hk; unfold execSrcClear; try dsimp -zeta only [mkS_eq]
  try lift_lets -underBinder
  with_reducible repeat' first
    | assumption
    | exact Keeps.refl _
    | (apply KeepsF.intro; intro s; (try dsimp -zeta only); try lift_lets -underBinder)
    | (intro x; try clear_value x)
    | apply after_next_keeps
    | apply State.hostReg_keeps
    | apply State.srcClearWrite_keeps

theorem execFaultnRelease_keeps {mm : Bool} {s0 s : State} (hk : Keeps mm s0 s) :
    Keeps mm s0 (after s (execFaultnRelease s)) := by
  refine hk.trans ?_; clear hk; unfold execFaultnRelease; try dsimp -zeta only [mkS_eq]
  try lift_lets -underBinder
  with_reducible repeat' first
    | assumption
    | exact Keeps.refl _
    | (apply KeepsF.intro; intro s; (try dsimp -zeta only); try lift_lets -underBinder)
    | (intro x; try clear_value x)
    | apply after_next_keeps
    | apply State.hostReg_keeps
    | apply State.faultNCtrl_keeps

theorem execFaultnAssert_keeps {mm : Bool} {s0 s : State} (hk : Keeps mm s0 s) :
    Keeps mm s0 (after s (execFaultnAssert s)) := by
  refine hk.trans ?_; clear hk; unfold execFaultnAssert; try dsimp -zeta only [mkS_eq]
  try lift_lets -underBinder
  with_reducible repeat' first
    | assumption
    | exact Keeps.refl _
    | (apply KeepsF.intro; intro s; (try dsimp -zeta only); try lift_lets -underBinder)
    | (intro x; try clear_value x)
    | apply after_next_keeps
    | apply State.hostReg_keeps
    | apply State.faultNCtrl_keeps

theorem execFaultnMinEnd_keeps {mm : Bool} {s0 s : State} (hk : Keeps mm s0 s) :
    Keeps mm s0 (after s (execFaultnMinEnd s)) := by
  refine hk.trans ?_; clear hk; unfold execFaultnMinEnd; try dsimp -zeta only [mkS_eq]
  try lift_lets -underBinder
  with_reducible repeat' first
    | assumption
    | exact Keeps.refl _
    | (intro x; refine Keeps.abs (mm := mm) (x := x) (s := s) ?_ (fun hk => ?_); rotate_left; clear_value x; rotate_right; dsimp -zeta only [x]; try clear x)
    | (intro x; try clear_value x)
    | apply after_next_keeps
    | apply State.p_keeps
    | apply State.faultNRelease_keeps
    | apply upd_keeps
    | exact Fits.refl _
    | lift_lets -underBinder
    | apply Keeps.ite

theorem execLogPop_keeps {mm : Bool} {s0 s : State} (hk : Keeps mm s0 s) :
    Keeps mm s0 (after s (execLogPop s)) := by
  refine hk.trans ?_; clear hk; unfold execLogPop; try dsimp -zeta only [mkS_eq]
  try lift_lets -underBinder
  with_reducible repeat' first
    | assumption
    | exact Keeps.refl _
    | (apply KeepsF.intro; intro s; (try dsimp -zeta only); try lift_lets -underBinder)
    | (intro x; try clear_value x)
    | apply after_next_keeps
    | apply State.hostReg_keeps
    | apply State.bitLogCtrl_keeps

theorem execLogClrOvf_keeps {mm : Bool} {s0 s : State} (hk : Keeps mm s0 s) :
    Keeps mm s0 (after s (execLogClrOvf s)) := by
  refine hk.trans ?_; clear hk; unfold execLogClrOvf; try dsimp -zeta only [mkS_eq]
  try lift_lets -underBinder
  with_reducible repeat' first
    | assumption
    | exact Keeps.refl _
    | (apply KeepsF.intro; intro s; (try dsimp -zeta only); try lift_lets -underBinder)
    | (intro x; try clear_value x)
    | apply after_next_keeps
    | apply State.hostReg_keeps
    | apply State.bitLogCtrl_keeps

theorem execBitEventAgeOut_keeps {mm : Bool} {s0 s : State} (hk : Keeps mm s0 s) (source : Fin 512) :
    Keeps mm s0 (after s (execBitEventAgeOut source s)) := by
  refine hk.trans ?_; clear hk; unfold execBitEventAgeOut; try dsimp -zeta only [mkS_eq]
  try lift_lets -underBinder
  with_reducible repeat' first
    | assumption
    | exact Keeps.refl _
    | (intro x; refine Keeps.abs (mm := mm) (x := x) (s := s) ?_ (fun hk => ?_); rotate_left; clear_value x; rotate_right; dsimp -zeta only [x]; try clear x)
    | (intro x; try clear_value x)
    | apply after_next_keeps
    | apply State.setSrcEvents_keeps
    | apply State.setSrcState_keeps
    | lift_lets -underBinder
    | apply Keeps.ite

end Sys2Proof.Machine
end

