-- ==== Sys2Proof/Laws/KeepsSeq.lean ====
section
/-! SUPPORT. What the functions of Machine/Seq.lean keep: the part, the queue, the memories where they store nothing, and the
canonical form of the tables. -/

namespace Sys2Proof.Machine
theorem State.setDomOn_keeps {mm : Bool} {s0 s : State} (hk : Keeps mm s0 s) (d : Nat) (v : Bool) :
    Keeps mm s0 (State.setDomOn s d v) := by
  refine hk.trans ?_; clear hk; unfold State.setDomOn; try dsimp -zeta only [mkS_eq]
  try lift_lets -underBinder
  with_reducible repeat' first
    | assumption
    | exact Keeps.refl _
    | (intro x; try clear_value x)
    | apply State.pBit_keeps

theorem State.setDomPend_keeps {mm : Bool} {s0 s : State} (hk : Keeps mm s0 s) (d : Nat) (v : Bool) :
    Keeps mm s0 (State.setDomPend s d v) := by
  refine hk.trans ?_; clear hk; unfold State.setDomPend; try dsimp -zeta only [mkS_eq]
  try lift_lets -underBinder
  with_reducible repeat' first
    | assumption
    | exact Keeps.refl _
    | (intro x; try clear_value x)
    | apply State.pBit_keeps

theorem State.seqCharge_keeps {mm : Bool} {s0 s : State} (hk : Keeps mm s0 s) (l : List (Nat × Nat)) :
    Keeps mm s0 (State.seqCharge s l) := by
  refine hk.trans ?_; clear hk; unfold State.seqCharge; try dsimp -zeta only [mkS_eq]
  try lift_lets -underBinder
  with_reducible repeat' first
    | assumption
    | exact Keeps.refl _
    | (intro x; try clear_value x)
    | apply foldl_keeps
    | apply upd_keeps
    | exact Fits.refl _

theorem State.seqGrantFrom_keeps {mm : Bool} {s0 s : State} (hk : Keeps mm s0 s) (blocked : List Nat) (l : List SeqMove) :
    Keeps mm s0 (State.seqGrantFrom s blocked l).2 := by
  induction l generalizing s0 s blocked with
  | nil =>
    rw [State.seqGrantFrom.eq_1]; refine hk.trans ?_; clear hk; try dsimp -zeta only [mkS_eq]
    try lift_lets -underBinder
    with_reducible repeat' first
      | assumption
      | exact Keeps.refl _
  | cons a l ih =>
    rw [State.seqGrantFrom.eq_2]; refine hk.trans ?_; clear hk; try dsimp -zeta only [mkS_eq]
    try lift_lets -underBinder
    with_reducible repeat' first
      | assumption
      | exact Keeps.refl _
      | with_reducible apply ih
      | (intro x; refine Keeps.abs (mm := mm) (x := x.2) (s := s) ?_ (fun hk => ?_); rotate_left; clear_value x; rotate_right; dsimp -zeta only [x]; try clear x)
      | (intro x; try clear_value x)
      | apply State.p_keeps
      | apply State.seqCharge_keeps
      | apply upd_keeps
      | exact Fits.refl _
      | lift_lets -underBinder
      | apply Keeps.ite
      | split

theorem State.seqGrant_keeps {mm : Bool} {s0 s : State} (hk : Keeps mm s0 s) :
    Keeps mm s0 (State.seqGrant s) := by
  refine hk.trans ?_; clear hk; unfold State.seqGrant; try dsimp -zeta only [mkS_eq]
  try lift_lets -underBinder
  with_reducible repeat' first
    | assumption
    | exact Keeps.refl _
    | (intro x; refine Keeps.abs (mm := mm) (x := x) (s := s) ?_ (fun hk => ?_); rotate_left; clear_value x; rotate_right; dsimp -zeta only [x]; try clear x)
    | (intro x; refine Keeps.abs (mm := mm) (x := x.2) (s := s) ?_ (fun hk => ?_); rotate_left; clear_value x; rotate_right; dsimp -zeta only [x]; try clear x)
    | (intro x; try clear_value x)
    | apply State.seqGrantFrom_keeps
    | apply State.p_keeps
    | apply upd_keeps
    | exact Fits.refl _

theorem State.seqRequest_keeps {mm : Bool} {s0 s : State} (hk : Keeps mm s0 s) (d : Nat) (up : Bool) :
    Keeps mm s0 (State.seqRequest s d up) := by
  refine hk.trans ?_; clear hk; unfold State.seqRequest; try dsimp -zeta only [mkS_eq]
  try lift_lets -underBinder
  with_reducible repeat' first
    | assumption
    | exact Keeps.refl _
    | (intro x; try clear_value x)
    | apply State.seqGrant_keeps
    | apply State.setDomPend_keeps
    | apply upd_keeps
    | exact Fits.refl _
    | lift_lets -underBinder
    | apply Keeps.ite

theorem State.seqComplete_keeps {mm : Bool} {s0 s : State} (hk : Keeps mm s0 s) (d : Nat) (up : Bool) :
    Keeps mm s0 (State.seqComplete s d up) := by
  refine hk.trans ?_; clear hk; unfold State.seqComplete; try dsimp -zeta only [mkS_eq]
  try lift_lets -underBinder
  with_reducible repeat' first
    | assumption
    | exact Keeps.refl _
    | (intro x; refine Keeps.abs (mm := mm) (x := x) (s := s) ?_ (fun hk => ?_); rotate_left; clear_value x; rotate_right; dsimp -zeta only [x]; try clear x)
    | (intro x; try clear_value x)
    | apply State.irq_keeps
    | apply State.setDomPend_keeps
    | apply State.setDomOn_keeps
    | apply State.seqRequest_keeps
    | apply State.seqGrant_keeps
    | apply upd_keeps
    | exact Fits.refl _
    | lift_lets -underBinder
    | apply Keeps.ite
    | split

theorem State.seqSettle_keeps {mm : Bool} {s0 s : State} (hk : Keeps mm s0 s) (d : Nat) :
    Keeps mm s0 (State.seqSettle s d).2 := by
  refine hk.trans ?_; clear hk; unfold State.seqSettle; try dsimp -zeta only [mkS_eq]
  try lift_lets -underBinder
  with_reducible repeat' first
    | assumption
    | exact Keeps.refl _
    | (intro x; try clear_value x)
    | apply State.seqComplete_keeps
    | apply State.seqGrant_keeps
    | apply upd_keeps
    | exact Fits.refl _
    | lift_lets -underBinder
    | apply Keeps.ite
    | split

theorem State.seqFinish_keeps {mm : Bool} {s0 s : State} (hk : Keeps mm s0 s) (d : Nat) :
    Keeps mm s0 (State.seqFinish s d) := by
  refine hk.trans ?_; clear hk; unfold State.seqFinish; try dsimp -zeta only [mkS_eq]
  try lift_lets -underBinder
  with_reducible repeat' first
    | assumption
    | exact Keeps.refl _
    | (intro x; try clear_value x)
    | apply State.seqComplete_keeps
    | apply upd_keeps
    | exact Fits.refl _
    | lift_lets -underBinder
    | apply Keeps.ite
    | split

theorem State.seqWindow_keeps {mm : Bool} {s0 s : State} (hk : Keeps mm s0 s) :
    Keeps mm s0 (State.seqWindow s) := by
  refine hk.trans ?_; clear hk; unfold State.seqWindow; try dsimp -zeta only [mkS_eq]
  try lift_lets -underBinder
  with_reducible repeat' first
    | assumption
    | exact Keeps.refl _
    | (intro x; try clear_value x)
    | apply State.seqGrant_keeps
    | apply upd_keeps
    | exact Fits.refl _

end Sys2Proof.Machine
end

