-- ==== Sys2Proof/Laws/KeepsMem.lean ====
section
/-! SUPPORT. What the functions of Machine/Mem.lean keep: the part, the queue, the memories where they store nothing, and the
canonical form of the tables. -/

namespace Sys2Proof.Machine
theorem State.startSparing_keeps {mm : Bool} {s0 s : State} (hk : Keeps mm s0 s) :
    Keeps mm s0 (State.startSparing s) := by
  refine hk.trans ?_; clear hk; unfold State.startSparing; try dsimp -zeta only [mkS_eq]
  try lift_lets -underBinder
  with_reducible repeat' first
    | assumption
    | exact Keeps.refl _
    | (intro x; refine Keeps.abs (mm := mm) (x := x) (s := s) ?_ (fun hk => ?_); rotate_left; clear_value x; rotate_right; dsimp -zeta only [x]; try clear x)
    | (intro x; try clear_value x)
    | apply State.p_keeps
    | apply State.fault_keeps
    | apply upd_keeps
    | exact Fits.refl _
    | lift_lets -underBinder
    | apply Keeps.ite
    | split

theorem State.pcLasting_keeps {mm : Bool} {s0 s : State} (hk : Keeps mm s0 s) (g : Nat) :
    Keeps mm s0 (State.pcLasting s g) := by
  refine hk.trans ?_; clear hk; unfold State.pcLasting; try dsimp -zeta only [mkS_eq]
  try lift_lets -underBinder
  with_reducible repeat' first
    | assumption
    | exact Keeps.refl _
    | (intro x; refine Keeps.abs (mm := mm) (x := x) (s := s) ?_ (fun hk => ?_); rotate_left; clear_value x; rotate_right; dsimp -zeta only [x]; try clear x)
    | (intro x; try clear_value x)
    | apply State.pBit_keeps
    | apply State.fault_keeps
    | apply State.irq_keeps
    | apply State.p_keeps
    | apply State.startSparing_keeps
    | apply upd_keeps
    | exact Fits.refl _
    | lift_lets -underBinder
    | apply Keeps.ite
    | split

theorem State.uncorrectable_keeps {mm : Bool} {s0 s : State} (hk : Keeps mm s0 s) (p : Place) (prot : Bool) (c : Check) (verifyFails : Bool) :
    Keeps mm s0 (State.uncorrectable s p prot c verifyFails).1 := by
  refine hk.trans ?_; clear hk; unfold State.uncorrectable; try dsimp -zeta only [mkS_eq]
  try lift_lets -underBinder
  with_reducible repeat' first
    | assumption
    | exact Keeps.refl _
    | (apply KeepsF.intro; intro s; (try dsimp -zeta only); try lift_lets -underBinder)
    | (intro x; refine Keeps.abs (mm := mm) (x := x) (s := s) ?_ (fun hk => ?_); rotate_left; clear_value x; rotate_right; dsimp -zeta only [x]; try clear x)
    | (intro x; try clear_value x)
    | apply State.p_keeps
    | apply State.irq_keeps
    | apply State.addSat_keeps
    | apply State.report_keeps
    | apply State.pcLasting_keeps

theorem State.unitRead_keeps {mm : Bool} {s0 s : State} (hk : Keeps mm s0 s) (p : Place) (prot fails rereadFails verifyFails : Bool) :
    Keeps mm s0 (State.unitRead s p prot fails rereadFails verifyFails).1 := by
  refine hk.trans ?_; clear hk; unfold State.unitRead; try dsimp -zeta only [mkS_eq]
  try lift_lets -underBinder
  with_reducible repeat' first
    | assumption
    | exact Keeps.refl _
    | (intro x; try clear_value x)
    | apply State.check_keeps
    | apply State.uncorrectable_keeps
    | (apply Keeps.ofpair (by assumption))
    | (apply Keeps.ofpair1 (by assumption))
    | (apply Keeps.oftriple (by assumption))
    | lift_lets -underBinder
    | apply Keeps.ite
    | split

theorem State.refusedAccess_keeps {mm : Bool} {s0 s : State} (hk : Keeps mm s0 s) (master : Nat) (write : Bool) :
    Keeps mm s0 (State.refusedAccess s master write) := by
  refine hk.trans ?_; clear hk; unfold State.refusedAccess; try dsimp -zeta only [mkS_eq]
  try lift_lets -underBinder
  with_reducible repeat' first
    | assumption
    | exact Keeps.refl _
    | (intro x; try clear_value x)
    | apply State.reportOnly_keeps

theorem State.hbmCount_keeps {mm : Bool} {s0 s : State} (hk : Keeps mm s0 s) (ev master a n : Nat) :
    Keeps mm s0 (State.hbmCount s ev master a n) := by
  refine hk.trans ?_; clear hk; unfold State.hbmCount; try dsimp -zeta only [mkS_eq]
  try lift_lets -underBinder
  with_reducible repeat' first
    | assumption
    | exact Keeps.refl _
    | (apply KeepsF.intro; intro s; (try dsimp -zeta only); try lift_lets -underBinder)
    | (intro x; try clear_value x)
    | apply State.freeCount_keeps
    | apply State.count_keeps
    | apply forN_keeps
    | lift_lets -underBinder
    | apply Keeps.ite

theorem State.rebuiltCount_keeps {mm : Bool} {s0 s : State} (hk : Keeps mm s0 s) (master a n : Nat) :
    Keeps mm s0 (State.rebuiltCount s master a n) := by
  refine hk.trans ?_; clear hk; unfold State.rebuiltCount; try dsimp -zeta only [mkS_eq]
  try lift_lets -underBinder
  with_reducible repeat' first
    | assumption
    | exact Keeps.refl _
    | (intro x; try clear_value x)
    | apply State.count_keeps
    | apply upd_keeps
    | exact Fits.refl _
    | lift_lets -underBinder
    | apply Keeps.ite
    | split

theorem State.hbmMasterRead_keeps {mm : Bool} {s0 s : State} (hk : Keeps mm s0 s) (master a n : Nat) :
    Keeps mm s0 (State.hbmMasterRead s master a n).2.2 := by
  refine hk.trans ?_; clear hk; unfold State.hbmMasterRead; try dsimp -zeta only [mkS_eq]
  try lift_lets -underBinder
  with_reducible repeat' first
    | assumption
    | exact Keeps.refl _
    | (intro x; try clear_value x)
    | apply State.refusedAccess_keeps
    | apply State.unitRead_keeps
    | apply State.rebuiltCount_keeps
    | apply State.hbmCount_keeps
    | apply upd_keeps
    | exact Fits.refl _
    | (apply Keeps.ofpair (by assumption))
    | (apply Keeps.ofpair1 (by assumption))
    | (apply Keeps.oftriple (by assumption))
    | lift_lets -underBinder
    | apply Keeps.ite
    | split

theorem State.hbmStore_keeps {s0 s : State} (hk : Keeps false s0 s) (a : Nat) (l : List Byte) :
    Keeps false s0 (State.hbmStore s a l) := by
  refine hk.trans ?_; clear hk; unfold State.hbmStore; try dsimp -zeta only [mkS_eq]
  try lift_lets -underBinder
  with_reducible repeat' first
    | assumption
    | exact Keeps.refl _
    | (apply KeepsF.intro; intro s; (try dsimp -zeta only); try lift_lets -underBinder)
    | (intro x; try clear_value x)
    | apply State.hbmWrite_keeps
    | apply foldl_keeps
    | lift_lets -underBinder
    | apply Keeps.ite

theorem State.hbmMasterWrite_keeps {s0 s : State} (hk : Keeps false s0 s) (master a : Nat) (l : List Byte) :
    Keeps false s0 (State.hbmMasterWrite s master a l).2 := by
  refine hk.trans ?_; clear hk; unfold State.hbmMasterWrite; try dsimp -zeta only [mkS_eq]
  try lift_lets -underBinder
  with_reducible repeat' first
    | assumption
    | exact Keeps.refl _
    | (intro x; try clear_value x)
    | apply State.refusedAccess_keeps
    | apply State.hbmCount_keeps
    | apply State.hbmStore_keeps
    | lift_lets -underBinder
    | apply Keeps.ite
    | split

end Sys2Proof.Machine
end

