-- ==== Sys2Proof/Laws/KeepsHbm.lean ====
section
/-! SUPPORT. What the functions of Machine/Hbm.lean keep: the part, the queue, the memories where they store nothing, and the
canonical form of the tables. -/

namespace Sys2Proof.Machine
theorem State.refuse4_keeps {mm : Bool} {s0 s : State} (hk : Keeps mm s0 s) (off : Nat) :
    Keeps mm s0 (State.refuse4 s off) := by
  refine hk.trans ?_; clear hk; unfold State.refuse4; try dsimp -zeta only [mkS_eq]
  try lift_lets -underBinder
  with_reducible repeat' first
    | assumption
    | exact Keeps.refl _
    | (intro x; try clear_value x)
    | apply State.refuse_keeps

theorem State.planApply_keeps {mm : Bool} {s0 s : State} (hk : Keeps mm s0 s) :
    Keeps mm s0 (State.planApply s) := by
  refine hk.trans ?_; clear hk; unfold State.planApply; try dsimp -zeta only [mkS_eq]
  try lift_lets -underBinder
  with_reducible repeat' first
    | assumption
    | exact Keeps.refl _
    | (intro x; refine Keeps.abs (mm := mm) (x := x) (s := s) ?_ (fun hk => ?_); rotate_left; clear_value x; rotate_right; dsimp -zeta only [x]; try clear x)
    | (intro x; try clear_value x)
    | apply State.refuse4_keeps
    | apply State.p_keeps
    | apply State.irq_keeps
    | apply State.fault_keeps
    | lift_lets -underBinder
    | apply Keeps.ite

theorem State.planDone_keeps {mm : Bool} {s0 s : State} (hk : Keeps mm s0 s) :
    Keeps mm s0 (State.planDone s) := by
  refine hk.trans ?_; clear hk; unfold State.planDone; try dsimp -zeta only [mkS_eq]
  try lift_lets -underBinder
  with_reducible repeat' first
    | assumption
    | exact Keeps.refl _
    | (intro x; try clear_value x)
    | apply State.irq_keeps
    | apply State.p_keeps

theorem State.planInstall_keeps {s0 s : State} (hk : Keeps false s0 s) :
    Keeps false s0 (State.planInstall s) := by
  refine hk.trans ?_; clear hk; unfold State.planInstall; try dsimp -zeta only [mkS_eq]
  try lift_lets -underBinder
  with_reducible repeat' first
    | assumption
    | exact Keeps.refl _
    | (apply KeepsF.intro; intro s; (try dsimp -zeta only); try lift_lets -underBinder)
    | (intro x; refine Keeps.abs (mm := false) (x := x) (s := s) ?_ (fun hk => ?_); rotate_left; clear_value x; rotate_right; dsimp -zeta only [x]; try clear x)
    | (intro x; try clear_value x)
    | apply State.hbmSpan_keeps
    | apply State.p_keeps
    | apply State.startSparing_keeps
    | apply State.planDone_keeps
    | apply foldl_keeps
    | apply upd_keeps
    | exact Fits.refl _
    | lift_lets -underBinder
    | apply Keeps.ite

theorem execHbmPlanApply_keeps {mm : Bool} {s0 s : State} (hk : Keeps mm s0 s) :
    Keeps mm s0 (after s (execHbmPlanApply s)) := by
  refine hk.trans ?_; clear hk; unfold execHbmPlanApply; try dsimp -zeta only [mkS_eq]
  try lift_lets -underBinder
  with_reducible repeat' first
    | assumption
    | exact Keeps.refl _
    | (apply KeepsF.intro; intro s; (try dsimp -zeta only); try lift_lets -underBinder)
    | (intro x; try clear_value x)
    | apply after_next_keeps
    | apply State.hostReg_keeps
    | apply State.planApply_keeps

theorem execHbmPlanDrained_keeps {s0 s : State} (hk : Keeps false s0 s) :
    Keeps false s0 (after s (execHbmPlanDrained s)) := by
  refine hk.trans ?_; clear hk; unfold execHbmPlanDrained; try dsimp -zeta only [mkS_eq]
  try lift_lets -underBinder
  with_reducible repeat' first
    | assumption
    | exact Keeps.refl _
    | (intro x; try clear_value x)
    | apply after_next_keeps
    | apply State.planInstall_keeps
    | lift_lets -underBinder
    | apply Keeps.ite

theorem execZeroingEnd_keeps {mm : Bool} {s0 s : State} (hk : Keeps mm s0 s) :
    Keeps mm s0 (after s (execZeroingEnd s)) := by
  refine hk.trans ?_; clear hk; unfold execZeroingEnd; try dsimp -zeta only [mkS_eq]
  try lift_lets -underBinder
  with_reducible repeat' first
    | assumption
    | exact Keeps.refl _
    | (intro x; try clear_value x)
    | apply after_next_keeps
    | apply State.planDone_keeps
    | apply upd_keeps
    | exact Fits.refl _
    | lift_lets -underBinder
    | apply Keeps.ite

theorem execRefreshDue_keeps {mm : Bool} {s0 s : State} (hk : Keeps mm s0 s) (g : Fin 256) (bank : Fin 64) (traffic : Fin 3) :
    Keeps mm s0 (after s (execRefreshDue g bank traffic s)) := by
  refine hk.trans ?_; clear hk; unfold execRefreshDue; try dsimp -zeta only [mkS_eq]
  try lift_lets -underBinder
  with_reducible repeat' first
    | assumption
    | exact Keeps.refl _
    | (intro x; refine Keeps.abs (mm := mm) (x := x) (s := s) ?_ (fun hk => ?_); rotate_left; clear_value x; rotate_right; dsimp -zeta only [x]; try clear x)
    | ((apply KeepsF.ap (by assumption)))
    | (intro x; refine KeepsF2.abs (mm := mm) (x := x) ?_ (fun hk => ?_); rotate_left; clear_value x; rotate_right; dsimp -zeta only [x]; try clear x)
    | (apply KeepsF2.intro; intro n s; (try dsimp -zeta only); try lift_lets -underBinder)
    | ((apply KeepsF2.ap (by assumption)))
    | (intro x; try clear_value x)
    | apply after_next_keeps
    | apply State.count_keeps
    | apply State.addSat_keeps
    | apply upd_keeps
    | exact Fits.refl _
    | lift_lets -underBinder
    | apply Keeps.ite

theorem execHbmScrub_keeps {mm : Bool} {s0 s : State} (hk : Keeps mm s0 s) (g : Fin 256) (bank : Fin 64) (row : Nat) (unit : Fin 32) (found : Fin 4) (verifyFails : Bool) :
    Keeps mm s0 (after s (execHbmScrub g bank row unit found verifyFails s)) := by
  refine hk.trans ?_; clear hk; unfold execHbmScrub; try dsimp -zeta only [mkS_eq]
  try lift_lets -underBinder
  with_reducible repeat' first
    | assumption
    | exact Keeps.refl _
    | (intro x; try clear_value x)
    | apply after_next_keeps
    | apply State.count_keeps
    | apply State.addSat_keeps
    | apply State.unitRead_keeps
    | lift_lets -underBinder
    | apply Keeps.ite

theorem execSparingEnd_keeps {mm : Bool} {s0 s : State} (hk : Keeps mm s0 s) :
    Keeps mm s0 (after s (execSparingEnd s)) := by
  refine hk.trans ?_; clear hk; unfold execSparingEnd; try dsimp -zeta only [mkS_eq]
  try lift_lets -underBinder
  with_reducible repeat' first
    | assumption
    | exact Keeps.refl _
    | (intro x; try clear_value x)
    | apply after_next_keeps
    | apply State.p_keeps
    | apply State.addSat_keeps
    | apply State.fault_keeps
    | apply State.startSparing_keeps
    | apply State.irq_keeps
    | apply upd_keeps
    | exact Fits.refl _
    | lift_lets -underBinder
    | apply Keeps.ite
    | split

theorem execHbmWake_keeps {mm : Bool} {s0 s : State} (hk : Keeps mm s0 s) (k : Fin 4) :
    Keeps mm s0 (after s (execHbmWake k s)) := by
  refine hk.trans ?_; clear hk; unfold execHbmWake; try dsimp -zeta only [mkS_eq]
  try lift_lets -underBinder
  with_reducible repeat' first
    | assumption
    | exact Keeps.refl _
    | (apply KeepsF.intro; intro s; (try dsimp -zeta only); try lift_lets -underBinder)
    | (intro x; try clear_value x)
    | apply after_next_keeps
    | apply State.hostReg_keeps
    | apply State.p_keeps

theorem execHbmWakeDone_keeps {mm : Bool} {s0 s : State} (hk : Keeps mm s0 s) (k : Fin 4) :
    Keeps mm s0 (after s (execHbmWakeDone k s)) := by
  refine hk.trans ?_; clear hk; unfold execHbmWakeDone; try dsimp -zeta only [mkS_eq]
  try lift_lets -underBinder
  with_reducible repeat' first
    | assumption
    | exact Keeps.refl _
    | (intro x; try clear_value x)
    | apply after_next_keeps
    | apply State.p_keeps
    | apply upd_keeps
    | exact Fits.refl _
    | lift_lets -underBinder
    | apply Keeps.ite

theorem State.hbmGo_keeps {mm : Bool} {s0 s : State} (hk : Keeps mm s0 s) (k : Nat) :
    Keeps mm s0 (State.hbmGo s k) := by
  refine hk.trans ?_; clear hk; unfold State.hbmGo; try dsimp -zeta only [mkS_eq]
  try lift_lets -underBinder
  with_reducible repeat' first
    | assumption
    | exact Keeps.refl _
    | (intro x; try clear_value x)
    | apply State.p_keeps
    | apply State.refuse4_keeps
    | lift_lets -underBinder
    | apply Keeps.ite

theorem execHbmGo_keeps {mm : Bool} {s0 s : State} (hk : Keeps mm s0 s) (k : Fin 4) :
    Keeps mm s0 (after s (execHbmGo k s)) := by
  refine hk.trans ?_; clear hk; unfold execHbmGo; try dsimp -zeta only [mkS_eq]
  try lift_lets -underBinder
  with_reducible repeat' first
    | assumption
    | exact Keeps.refl _
    | (apply KeepsF.intro; intro s; (try dsimp -zeta only); try lift_lets -underBinder)
    | (intro x; try clear_value x)
    | apply after_next_keeps
    | apply State.hostReg_keeps
    | apply State.hbmGo_keeps

theorem State.helperStart_keeps {mm : Bool} {s0 s : State} (hk : Keeps mm s0 s) (k : Nat) :
    Keeps mm s0 (State.helperStart s k) := by
  refine hk.trans ?_; clear hk; unfold State.helperStart; try dsimp -zeta only [mkS_eq]
  try lift_lets -underBinder
  with_reducible repeat' first
    | assumption
    | exact Keeps.refl _
    | (intro x; refine Keeps.abs (mm := mm) (x := x) (s := s) ?_ (fun hk => ?_); rotate_left; clear_value x; rotate_right; dsimp -zeta only [x]; try clear x)
    | (intro x; try clear_value x)
    | apply State.refuse4_keeps
    | apply State.p_keeps
    | apply upd_keeps
    | exact Fits.refl _
    | lift_lets -underBinder
    | apply Keeps.ite

theorem execHelperRunStart_keeps {mm : Bool} {s0 s : State} (hk : Keeps mm s0 s) (k : Fin 4) :
    Keeps mm s0 (after s (execHelperRunStart k s)) := by
  refine hk.trans ?_; clear hk; unfold execHelperRunStart; try dsimp -zeta only [mkS_eq]
  try lift_lets -underBinder
  with_reducible repeat' first
    | assumption
    | exact Keeps.refl _
    | (apply KeepsF.intro; intro s; (try dsimp -zeta only); try lift_lets -underBinder)
    | (intro x; try clear_value x)
    | apply after_next_keeps
    | apply State.hostReg_keeps
    | apply State.helperStart_keeps

theorem execHelperRunEnd_keeps {mm : Bool} {s0 s : State} (hk : Keeps mm s0 s) (k : Fin 4) (lanes errors : Nat) :
    Keeps mm s0 (after s (execHelperRunEnd k lanes errors s)) := by
  refine hk.trans ?_; clear hk; unfold execHelperRunEnd; try dsimp -zeta only [mkS_eq]
  try lift_lets -underBinder
  with_reducible repeat' first
    | assumption
    | exact Keeps.refl _
    | (intro x; refine Keeps.abs (mm := mm) (x := x) (s := s) ?_ (fun hk => ?_); rotate_left; clear_value x; rotate_right; dsimp -zeta only [x]; try clear x)
    | (intro x; try clear_value x)
    | apply after_next_keeps
    | apply State.p_keeps
    | apply State.irq_keeps
    | apply upd_keeps
    | exact Fits.refl _
    | lift_lets -underBinder
    | apply Keeps.ite

theorem State.trnDelay_keeps {mm : Bool} {s0 s : State} (hk : Keeps mm s0 s) (k : Nat) :
    Keeps mm s0 (State.trnDelay s k) := by
  refine hk.trans ?_; clear hk; unfold State.trnDelay; try dsimp -zeta only [mkS_eq]
  try lift_lets -underBinder
  with_reducible repeat' first
    | assumption
    | exact Keeps.refl _
    | (intro x; try clear_value x)
    | apply foldl_keeps
    | apply upd_keeps
    | exact Fits.refl _

theorem execTrnDelayWrite_keeps {mm : Bool} {s0 s : State} (hk : Keeps mm s0 s) (k : Fin 4) (v : Word) :
    Keeps mm s0 (after s (execTrnDelayWrite k v s)) := by
  refine hk.trans ?_; clear hk; unfold execTrnDelayWrite; try dsimp -zeta only [mkS_eq]
  try lift_lets -underBinder
  with_reducible repeat' first
    | assumption
    | exact Keeps.refl _
    | (apply KeepsF.intro; intro s; (try dsimp -zeta only); try lift_lets -underBinder)
    | (intro x; try clear_value x)
    | apply after_next_keeps
    | apply State.hostReg_keeps
    | apply State.trnDelay_keeps
    | apply State.plainWrite_keeps

theorem execHbmCalUpdate_keeps {mm : Bool} {s0 s : State} (hk : Keeps mm s0 s) (g : Fin 256) (kind : Fin 3) (moves : List (Nat × Nat)) :
    Keeps mm s0 (after s (execHbmCalUpdate g kind moves s)) := by
  refine hk.trans ?_; clear hk; unfold execHbmCalUpdate; try dsimp -zeta only [mkS_eq]
  try lift_lets -underBinder
  with_reducible repeat' first
    | assumption
    | exact Keeps.refl _
    | (apply KeepsF.intro; intro s; (try dsimp -zeta only); try lift_lets -underBinder)
    | (intro x; refine Keeps.abs (mm := mm) (x := x) (s := s) ?_ (fun hk => ?_); rotate_left; clear_value x; rotate_right; dsimp -zeta only [x]; try clear x)
    | (intro x; try clear_value x)
    | apply after_next_keeps
    | apply State.irq_keeps
    | apply State.p_keeps
    | apply foldl_keeps
    | apply upd_keeps
    | exact Fits.refl _
    | lift_lets -underBinder
    | apply Keeps.ite

theorem State.pcOfflineWrite_keeps {mm : Bool} {s0 s : State} (hk : Keeps mm s0 s) (k pc : Nat) :
    Keeps mm s0 (State.pcOfflineWrite s k pc) := by
  refine hk.trans ?_; clear hk; unfold State.pcOfflineWrite; try dsimp -zeta only [mkS_eq]
  try lift_lets -underBinder
  with_reducible repeat' first
    | assumption
    | exact Keeps.refl _
    | (intro x; try clear_value x)
    | apply State.refuse4_keeps
    | apply State.p_keeps
    | apply upd_keeps
    | exact Fits.refl _
    | lift_lets -underBinder
    | apply Keeps.ite

theorem State.pcOnlineWrite_keeps {mm : Bool} {s0 s : State} (hk : Keeps mm s0 s) (k pc : Nat) :
    Keeps mm s0 (State.pcOnlineWrite s k pc) := by
  refine hk.trans ?_; clear hk; unfold State.pcOnlineWrite; try dsimp -zeta only [mkS_eq]
  try lift_lets -underBinder
  with_reducible repeat' first
    | assumption
    | exact Keeps.refl _
    | (intro x; try clear_value x)
    | apply State.p_keeps
    | apply upd_keeps
    | exact Fits.refl _
    | lift_lets -underBinder
    | apply Keeps.ite

theorem State.declareFailed_keeps {mm : Bool} {s0 s : State} (hk : Keeps mm s0 s) (k pc : Nat) :
    Keeps mm s0 (State.declareFailed s k pc) := by
  refine hk.trans ?_; clear hk; unfold State.declareFailed; try dsimp -zeta only [mkS_eq]
  try lift_lets -underBinder
  with_reducible repeat' first
    | assumption
    | exact Keeps.refl _
    | (intro x; try clear_value x)
    | apply State.pcLasting_keeps
    | apply State.bitEvent_keeps

theorem State.pcCtrl_keeps {mm : Bool} {s0 s : State} (hk : Keeps mm s0 s) (k v : Nat) :
    Keeps mm s0 (State.pcCtrl s k v) := by
  refine hk.trans ?_; clear hk; unfold State.pcCtrl; try dsimp -zeta only [mkS_eq]
  try lift_lets -underBinder
  with_reducible repeat' first
    | assumption
    | exact Keeps.refl _
    | (intro x; try clear_value x)
    | apply State.pcOfflineWrite_keeps
    | apply State.pcOnlineWrite_keeps
    | apply State.declareFailed_keeps
    | apply upd_keeps
    | exact Fits.refl _
    | lift_lets -underBinder
    | apply Keeps.ite
    | split

theorem execPcOffline_keeps {mm : Bool} {s0 s : State} (hk : Keeps mm s0 s) (k : Fin 4) (pc : Fin 64) :
    Keeps mm s0 (after s (execPcOffline k pc s)) := by
  refine hk.trans ?_; clear hk; unfold execPcOffline; try dsimp -zeta only [mkS_eq]
  try lift_lets -underBinder
  with_reducible repeat' first
    | assumption
    | exact Keeps.refl _
    | (apply KeepsF.intro; intro s; (try dsimp -zeta only); try lift_lets -underBinder)
    | (intro x; try clear_value x)
    | apply after_next_keeps
    | apply State.hostReg_keeps
    | apply State.pcOfflineWrite_keeps

theorem execPcOnline_keeps {mm : Bool} {s0 s : State} (hk : Keeps mm s0 s) (k : Fin 4) (pc : Fin 64) :
    Keeps mm s0 (after s (execPcOnline k pc s)) := by
  refine hk.trans ?_; clear hk; unfold execPcOnline; try dsimp -zeta only [mkS_eq]
  try lift_lets -underBinder
  with_reducible repeat' first
    | assumption
    | exact Keeps.refl _
    | (apply KeepsF.intro; intro s; (try dsimp -zeta only); try lift_lets -underBinder)
    | (intro x; try clear_value x)
    | apply after_next_keeps
    | apply State.hostReg_keeps
    | apply State.pcOnlineWrite_keeps

theorem execDeclareFailed_keeps {mm : Bool} {s0 s : State} (hk : Keeps mm s0 s) (k : Fin 4) (pc : Fin 64) :
    Keeps mm s0 (after s (execDeclareFailed k pc s)) := by
  refine hk.trans ?_; clear hk; unfold execDeclareFailed; try dsimp -zeta only [mkS_eq]
  try lift_lets -underBinder
  with_reducible repeat' first
    | assumption
    | exact Keeps.refl _
    | (apply KeepsF.intro; intro s; (try dsimp -zeta only); try lift_lets -underBinder)
    | (intro x; try clear_value x)
    | apply after_next_keeps
    | apply State.hostReg_keeps
    | apply State.declareFailed_keeps

theorem execPcOfflineDrained_keeps {mm : Bool} {s0 s : State} (hk : Keeps mm s0 s) (k : Fin 4) :
    Keeps mm s0 (after s (execPcOfflineDrained k s)) := by
  refine hk.trans ?_; clear hk; unfold execPcOfflineDrained; try dsimp -zeta only [mkS_eq]
  try lift_lets -underBinder
  with_reducible repeat' first
    | assumption
    | exact Keeps.refl _
    | (intro x; try clear_value x)
    | apply after_next_keeps
    | apply State.p_keeps
    | apply upd_keeps
    | exact Fits.refl _
    | lift_lets -underBinder
    | apply Keeps.ite
    | split

end Sys2Proof.Machine
end

