-- ==== Sys2Proof/Laws/KeepsXlt.lean ====
section
/-! SUPPORT. What the functions of Machine/Xlt.lean keep: the part, the queue, the memories where they store nothing, and the
canonical form of the tables. -/

namespace Sys2Proof.Machine
theorem State.faultRecord_keeps {s0 s : State} (hk : Keeps false s0 s) (kind : Nat) (w : Waiter) (asid index : Nat) :
    Keeps false s0 (State.faultRecord s kind w asid index) := by
  refine hk.trans ?_; clear hk; unfold State.faultRecord; try dsimp -zeta only [mkS_eq]
  try lift_lets -underBinder
  with_reducible repeat' first
    | assumption
    | exact Keeps.refl _
    | (intro x; refine Keeps.abs (mm := false) (x := x) (s := s) ?_ (fun hk => ?_); rotate_left; clear_value x; rotate_right; dsimp -zeta only [x]; try clear x)
    | (intro x; try clear_value x)
    | apply State.irq_keeps
    | apply State.addSat_keeps
    | apply State.hbmStore_keeps
    | apply State.p_keeps
    | lift_lets -underBinder
    | apply Keeps.ite

theorem State.cacheAdd_keeps {mm : Bool} {s0 s : State} (hk : Keeps mm s0 s) (e : Xlation) :
    Keeps mm s0 (State.cacheAdd s e) := by
  refine hk.trans ?_; clear hk; unfold State.cacheAdd; try dsimp -zeta only [mkS_eq]
  try lift_lets -underBinder
  with_reducible repeat' first
    | assumption
    | exact Keeps.refl _
    | (intro x; try clear_value x)
    | apply upd_keeps
    | exact Fits.refl _

theorem State.cacheDrop_keeps {mm : Bool} {s0 s : State} (hk : Keeps mm s0 s) (p : Xlation → Bool) :
    Keeps mm s0 (State.cacheDrop s p) := by
  refine hk.trans ?_; clear hk; unfold State.cacheDrop; try dsimp -zeta only [mkS_eq]
  try lift_lets -underBinder
  with_reducible repeat' first
    | assumption
    | exact Keeps.refl _
    | (intro x; try clear_value x)
    | apply upd_keeps
    | exact Fits.refl _

theorem State.xltCount_keeps {mm : Bool} {s0 s : State} (hk : Keeps mm s0 s) (ev asid : Nat) (w : Waiter) :
    Keeps mm s0 (State.xltCount s ev asid w) := by
  refine hk.trans ?_; clear hk; unfold State.xltCount; try dsimp -zeta only [mkS_eq]
  try lift_lets -underBinder
  with_reducible repeat' first
    | assumption
    | exact Keeps.refl _
    | (intro x; try clear_value x)
    | apply State.count_keeps

theorem State.hostCount_keeps {mm : Bool} {s0 s : State} (hk : Keeps mm s0 s) (ev : Nat) (master asid : Option Nat) (n : Nat) :
    Keeps mm s0 (State.hostCount s ev master asid n) := by
  refine hk.trans ?_; clear hk; unfold State.hostCount; try dsimp -zeta only [mkS_eq]
  try lift_lets -underBinder
  with_reducible repeat' first
    | assumption
    | exact Keeps.refl _
    | (intro x; try clear_value x)
    | apply State.count_keeps
    | lift_lets -underBinder
    | apply Keeps.ite

theorem State.xltFault_keeps {s0 s : State} (hk : Keeps false s0 s) (kind : Nat) (w : Waiter) (asid : Nat) :
    Keeps false s0 (State.xltFault s kind w asid) := by
  refine hk.trans ?_; clear hk; unfold State.xltFault; try dsimp -zeta only [mkS_eq]
  try lift_lets -underBinder
  with_reducible repeat' first
    | assumption
    | exact Keeps.refl _
    | (intro x; try clear_value x)
    | apply State.faultRecord_keeps

theorem State.leaveFault_keeps {s0 s : State} (hk : Keeps false s0 s) (kind : Nat) (w : Waiter) (asid index : Nat) :
    Keeps false s0 (State.leaveFault s kind w asid index) := by
  refine hk.trans ?_; clear hk; unfold State.leaveFault; try dsimp -zeta only [mkS_eq]
  try lift_lets -underBinder
  with_reducible repeat' first
    | assumption
    | exact Keeps.refl _
    | (intro x; refine Keeps.abs (mm := false) (x := x) (s := s) ?_ (fun hk => ?_); rotate_left; clear_value x; rotate_right; dsimp -zeta only [x]; try clear x)
    | (intro x; try clear_value x)
    | apply State.faultRecord_keeps
    | apply upd_keeps
    | exact Fits.refl _

theorem State.pageRequest_keeps {s0 s : State} (hk : Keeps false s0 s) (asid : Nat) (w : Waiter) (ats : Bool) :
    Keeps false s0 (State.pageRequest s asid w ats) := by
  refine hk.trans ?_; clear hk; unfold State.pageRequest; try dsimp -zeta only [mkS_eq]
  try lift_lets -underBinder
  with_reducible repeat' first
    | assumption
    | exact Keeps.refl _
    | (intro x; refine Keeps.abs (mm := false) (x := x) (s := s) ?_ (fun hk => ?_); rotate_left; clear_value x; rotate_right; dsimp -zeta only [x]; try clear x)
    | (intro x; try clear_value x)
    | apply State.xltCount_keeps
    | apply State.p_keeps
    | apply State.faultRecord_keeps
    | apply State.emit_keeps
    | apply State.irq_keeps
    | apply upd_keeps
    | exact Fits.refl _
    | lift_lets -underBinder
    | apply Keeps.ite
    | split

theorem State.setResolved_keeps {mm : Bool} {s0 s : State} (hk : Keeps mm s0 s) (asid page n : Nat) :
    Keeps mm s0 (State.setResolved s asid page n) := by
  refine hk.trans ?_; clear hk; unfold State.setResolved; try dsimp -zeta only [mkS_eq]
  try lift_lets -underBinder
  with_reducible repeat' first
    | assumption
    | exact Keeps.refl _
    | (intro x; try clear_value x)
    | apply upd_keeps
    | exact Fits.refl _

theorem State.pageAbsent_keeps {s0 s : State} (hk : Keeps false s0 s) (asid : Nat) (w : Waiter) (may ats : Bool) (kind : Nat) :
    Keeps false s0 (State.pageAbsent s asid w may ats kind).2 := by
  refine hk.trans ?_; clear hk; unfold State.pageAbsent; try dsimp -zeta only [mkS_eq]
  try lift_lets -underBinder
  with_reducible repeat' first
    | assumption
    | exact Keeps.refl _
    | (intro x; try clear_value x)
    | apply State.xltFault_keeps
    | apply State.setResolved_keeps
    | apply State.pageRequest_keeps
    | lift_lets -underBinder
    | apply Keeps.ite
    | split

theorem State.pageFound_keeps {s0 s : State} (hk : Keeps false s0 s) (asid : Nat) (w : Waiter) (out size : Nat) (rd wr : Bool) :
    Keeps false s0 (State.pageFound s asid w out size rd wr).2.2 := by
  refine hk.trans ?_; clear hk; unfold State.pageFound; try dsimp -zeta only [mkS_eq]
  try lift_lets -underBinder
  with_reducible repeat' first
    | assumption
    | exact Keeps.refl _
    | (intro x; refine Keeps.abs (mm := false) (x := x) (s := s) ?_ (fun hk => ?_); rotate_left; clear_value x; rotate_right; dsimp -zeta only [x]; try clear x)
    | (intro x; try clear_value x)
    | apply State.setResolved_keeps
    | apply State.cacheAdd_keeps
    | apply State.xltFault_keeps
    | lift_lets -underBinder
    | apply Keeps.ite
    | split

theorem State.walkAccess_keeps {s0 s : State} (hk : Keeps false s0 s) (asid : Nat) (w : Waiter) (tableErr rewalkErr : Bool) :
    Keeps false s0 (State.walkAccess s asid w tableErr rewalkErr).2.2 := by
  refine hk.trans ?_; clear hk; unfold State.walkAccess; try dsimp -zeta only [mkS_eq]
  try lift_lets -underBinder
  with_reducible repeat' first
    | assumption
    | exact Keeps.refl _
    | exact KeepsF.id
    | (intro x; refine Keeps.abs (mm := false) (x := x) (s := s) ?_ (fun hk => ?_); rotate_left; clear_value x; rotate_right; dsimp -zeta only [x]; try clear x)
    | (intro x; try clear_value x)
    | apply State.checkReport_keeps
    | apply State.addSat_keeps
    | apply State.xltFault_keeps
    | apply State.fault_keeps
    | apply State.count_keeps
    | apply State.pageFound_keeps
    | apply State.pageAbsent_keeps
    | apply upd_keeps
    | exact Fits.refl _
    | (apply Keeps.ofpair (by assumption))
    | (apply Keeps.ofpair1 (by assumption))
    | (apply Keeps.oftriple (by assumption))
    | lift_lets -underBinder
    | apply Keeps.ite
    | split

theorem State.translate_keeps {s0 s : State} (hk : Keeps false s0 s) (asid : Nat) (w : Waiter) :
    Keeps false s0 (State.translate s asid w).2.2 := by
  refine hk.trans ?_; clear hk; unfold State.translate; try dsimp -zeta only [mkS_eq]
  try lift_lets -underBinder
  with_reducible repeat' first
    | assumption
    | exact Keeps.refl _
    | (intro x; refine Keeps.abs (mm := false) (x := x) (s := s) ?_ (fun hk => ?_); rotate_left; clear_value x; rotate_right; dsimp -zeta only [x]; try clear x)
    | (intro x; try clear_value x)
    | apply State.xltFault_keeps
    | apply State.xltCount_keeps
    | apply State.addSat_keeps
    | apply State.cacheAdd_keeps
    | apply State.walkAccess_keeps
    | apply State.pageRequest_keeps
    | apply State.emit_keeps
    | apply upd_keeps
    | exact Fits.refl _
    | (apply Keeps.ofpair (by assumption))
    | (apply Keeps.ofpair1 (by assumption))
    | (apply Keeps.oftriple (by assumption))
    | lift_lets -underBinder
    | apply Keeps.ite
    | split

theorem State.translateAll_keeps {s0 s : State} (hk : Keeps false s0 s) (asid master : Nat) (write : Bool) (l : List (Nat × Nat)) :
    Keeps false s0 (State.translateAll s asid master write l).2.2 := by
  induction l generalizing s0 s  with
  | nil =>
    rw [State.translateAll.eq_1]; refine hk.trans ?_; clear hk; try dsimp -zeta only [mkS_eq]
    try lift_lets -underBinder
    with_reducible repeat' first
      | assumption
      | exact Keeps.refl _
  | cons a l ih =>
    rw [State.translateAll.eq_2]; refine hk.trans ?_; clear hk; try dsimp -zeta only [mkS_eq]
    try lift_lets -underBinder
    with_reducible repeat' first
      | assumption
      | exact Keeps.refl _
      | with_reducible apply ih
      | (intro x; try clear_value x)
      | apply State.translate_keeps
      | apply upd_keeps
      | exact Fits.refl _
      | (apply Keeps.ofpair (by assumption))
      | (apply Keeps.ofpair1 (by assumption))
      | (apply Keeps.oftriple (by assumption))
      | lift_lets -underBinder
      | apply Keeps.ite
      | split

theorem State.masterRead_keeps {s0 s : State} (hk : Keeps false s0 s) (master asid a n : Nat) :
    Keeps false s0 (State.masterRead s master asid a n).2.2 := by
  refine hk.trans ?_; clear hk; unfold State.masterRead; try dsimp -zeta only [mkS_eq]
  try lift_lets -underBinder
  with_reducible repeat' first
    | assumption
    | exact Keeps.refl _
    | (intro x; try clear_value x)
    | apply State.hbmMasterRead_keeps
    | apply State.translateAll_keeps
    | apply State.hostCount_keeps
    | apply State.refusedAccess_keeps
    | apply upd_keeps
    | exact Fits.refl _
    | (apply Keeps.ofpair (by assumption))
    | (apply Keeps.ofpair1 (by assumption))
    | (apply Keeps.oftriple (by assumption))
    | lift_lets -underBinder
    | apply Keeps.ite
    | split

theorem State.hostStoreAll_keeps {s0 s : State} (hk : Keeps false s0 s) (l : List (Nat × Nat)) (b : List Byte) :
    Keeps false s0 (State.hostStoreAll s l b) := by
  induction l generalizing s0 s b with
  | nil =>
    rw [State.hostStoreAll.eq_1]; refine hk.trans ?_; clear hk; try dsimp -zeta only [mkS_eq]
    try lift_lets -underBinder
    with_reducible repeat' first
      | assumption
      | exact Keeps.refl _
  | cons a l ih =>
    rw [State.hostStoreAll.eq_2]; refine hk.trans ?_; clear hk; try dsimp -zeta only [mkS_eq]
    try lift_lets -underBinder
    with_reducible repeat' first
      | assumption
      | exact Keeps.refl _
      | with_reducible apply ih
      | (intro x; try clear_value x)
      | apply State.hostWrite_keeps

theorem State.masterWrite_keeps {s0 s : State} (hk : Keeps false s0 s) (master asid a : Nat) (l : List Byte) :
    Keeps false s0 (State.masterWrite s master asid a l).2 := by
  refine hk.trans ?_; clear hk; unfold State.masterWrite; try dsimp -zeta only [mkS_eq]
  try lift_lets -underBinder
  with_reducible repeat' first
    | assumption
    | exact Keeps.refl _
    | (intro x; try clear_value x)
    | apply State.hbmMasterWrite_keeps
    | apply State.translateAll_keeps
    | apply State.hostCount_keeps
    | apply State.hostStoreAll_keeps
    | apply State.refusedAccess_keeps
    | apply upd_keeps
    | exact Fits.refl _
    | (apply Keeps.ofpair (by assumption))
    | (apply Keeps.ofpair1 (by assumption))
    | (apply Keeps.oftriple (by assumption))
    | lift_lets -underBinder
    | apply Keeps.ite
    | split

theorem State.settle_keeps {mm : Bool} {s0 s : State} (hk : Keeps mm s0 s) (asid : Nat) (w : Waiter) (r : Access) :
    Keeps mm s0 (State.settle s asid w r) := by
  refine hk.trans ?_; clear hk; unfold State.settle; try dsimp -zeta only [mkS_eq]
  try lift_lets -underBinder
  with_reducible repeat' first
    | assumption
    | exact Keeps.refl _
    | (intro x; try clear_value x)
    | apply upd_keeps
    | exact Fits.refl _
    | lift_lets -underBinder
    | apply Keeps.ite

theorem State.atsComplete_keeps {s0 s : State} (hk : Keeps false s0 s) (r : AtsReq) (c : Option (Nat × Nat × Bool × Bool)) :
    Keeps false s0 (State.atsComplete s r c) := by
  refine hk.trans ?_; clear hk; unfold State.atsComplete; try dsimp -zeta only [mkS_eq]
  try lift_lets -underBinder
  with_reducible repeat' first
    | assumption
    | exact Keeps.refl _
    | (intro x; refine Keeps.abs (mm := false) (x := x) (s := s) ?_ (fun hk => ?_); rotate_left; clear_value x; rotate_right; dsimp -zeta only [x]; try clear x)
    | (intro x; try clear_value x)
    | apply State.emit_keeps
    | apply State.leaveFault_keeps
    | apply State.cacheAdd_keeps
    | apply State.setResolved_keeps
    | apply State.pageAbsent_keeps
    | apply State.settle_keeps
    | apply upd_keeps
    | exact Fits.refl _
    | (apply Keeps.ofpair (by assumption))
    | (apply Keeps.ofpair1 (by assumption))
    | (apply Keeps.oftriple (by assumption))
    | lift_lets -underBinder
    | apply Keeps.ite
    | split

theorem execTranslationWalkEnd_keeps {s0 s : State} (hk : Keeps false s0 s) (master : Nat) (asid : Fin 64) (addr : Nat) (write tableErr rewalkErr : Bool) (completion : Option (Nat × Nat × Bool × Bool)) :
    Keeps false s0 (after s (execTranslationWalkEnd master asid addr write tableErr rewalkErr completion s)) := by
  refine hk.trans ?_; clear hk; unfold execTranslationWalkEnd; try dsimp -zeta only [mkS_eq]
  try lift_lets -underBinder
  with_reducible repeat' first
    | assumption
    | exact Keeps.refl _
    | (apply KeepsF.intro; intro s; (try dsimp -zeta only); try lift_lets -underBinder)
    | (intro x; try clear_value x)
    | apply after_next_keeps
    | apply State.walkAccess_keeps
    | apply State.settle_keeps
    | apply State.atsComplete_keeps
    | apply foldl_keeps
    | (apply Keeps.ofpair (by assumption))
    | (apply Keeps.ofpair1 (by assumption))
    | (apply Keeps.oftriple (by assumption))
    | lift_lets -underBinder
    | apply Keeps.ite

theorem State.resolveRequest_keeps {s0 s : State} (hk : Keeps false s0 s) (r : PageReq) (success : Bool) :
    Keeps false s0 (State.resolveRequest s r success) := by
  refine hk.trans ?_; clear hk; unfold State.resolveRequest; try dsimp -zeta only [mkS_eq]
  try lift_lets -underBinder
  with_reducible repeat' first
    | assumption
    | exact Keeps.refl _
    | (apply KeepsF.intro; intro s; (try dsimp -zeta only); try lift_lets -underBinder)
    | (intro x; refine Keeps.abs (mm := false) (x := x) (s := s) ?_ (fun hk => ?_); rotate_left; clear_value x; rotate_right; dsimp -zeta only [x]; try clear x)
    | (intro x; try clear_value x)
    | apply State.p_keeps
    | apply State.setResolved_keeps
    | apply State.leaveFault_keeps
    | apply foldl_keeps
    | apply upd_keeps
    | exact Fits.refl _
    | lift_lets -underBinder
    | apply Keeps.ite

theorem State.prqResponse_keeps {s0 s : State} (hk : Keeps false s0 s) (v : Nat) :
    Keeps false s0 (State.prqResponse s v) := by
  refine hk.trans ?_; clear hk; unfold State.prqResponse; try dsimp -zeta only [mkS_eq]
  try lift_lets -underBinder
  with_reducible repeat' first
    | assumption
    | exact Keeps.refl _
    | (intro x; try clear_value x)
    | apply State.refuse4_keeps
    | apply State.resolveRequest_keeps
    | apply upd_keeps
    | exact Fits.refl _
    | lift_lets -underBinder
    | apply Keeps.ite
    | split

theorem State.prgResponse_keeps {s0 s : State} (hk : Keeps false s0 s) (index code : Nat) :
    Keeps false s0 (State.prgResponse s index code) := by
  refine hk.trans ?_; clear hk; unfold State.prgResponse; try dsimp -zeta only [mkS_eq]
  try lift_lets -underBinder
  with_reducible repeat' first
    | assumption
    | exact Keeps.refl _
    | (apply KeepsF.intro; intro s; (try dsimp -zeta only); try lift_lets -underBinder)
    | (intro x; refine Keeps.abs (mm := false) (x := x) (s := s) ?_ (fun hk => ?_); rotate_left; clear_value x; rotate_right; dsimp -zeta only [x]; try clear x)
    | (intro x; try clear_value x)
    | apply State.resolveRequest_keeps
    | apply State.irq_keeps
    | apply State.fault_keeps
    | apply State.p_keeps
    | apply foldl_keeps
    | apply upd_keeps
    | exact Fits.refl _
    | lift_lets -underBinder
    | apply Keeps.ite
    | split

theorem execPrqTimeout_keeps {s0 s : State} (hk : Keeps false s0 s) (index : Fin 512) :
    Keeps false s0 (after s (execPrqTimeout index s)) := by
  refine hk.trans ?_; clear hk; unfold execPrqTimeout; try dsimp -zeta only [mkS_eq]
  try lift_lets -underBinder
  with_reducible repeat' first
    | assumption
    | exact Keeps.refl _
    | (apply KeepsF.intro; intro s; (try dsimp -zeta only); try lift_lets -underBinder)
    | (intro x; refine Keeps.abs (mm := false) (x := x) (s := s) ?_ (fun hk => ?_); rotate_left; clear_value x; rotate_right; dsimp -zeta only [x]; try clear x)
    | (intro x; try clear_value x)
    | apply after_next_keeps
    | apply State.leaveFault_keeps
    | apply foldl_keeps
    | apply upd_keeps
    | exact Fits.refl _
    | lift_lets -underBinder
    | apply Keeps.ite
    | split

theorem execAtsInvalidate_keeps {mm : Bool} {s0 s : State} (hk : Keeps mm s0 s) (asid : Fin 64) (addr size : Nat) :
    Keeps mm s0 (after s (execAtsInvalidate asid addr size s)) := by
  refine hk.trans ?_; clear hk; unfold execAtsInvalidate; try dsimp -zeta only [mkS_eq]
  try lift_lets -underBinder
  with_reducible repeat' first
    | assumption
    | exact Keeps.refl _
    | (intro x; refine Keeps.abs (mm := mm) (x := x) (s := s) ?_ (fun hk => ?_); rotate_left; clear_value x; rotate_right; dsimp -zeta only [x]; try clear x)
    | (intro x; try clear_value x)
    | apply after_next_keeps
    | apply State.cacheDrop_keeps
    | apply upd_keeps
    | exact Fits.refl _

theorem State.xltInvalidate_keeps {mm : Bool} {s0 s : State} (hk : Keeps mm s0 s) (v : Nat) :
    Keeps mm s0 (State.xltInvalidate s v) := by
  refine hk.trans ?_; clear hk; unfold State.xltInvalidate; try dsimp -zeta only [mkS_eq]
  try lift_lets -underBinder
  with_reducible repeat' first
    | assumption
    | exact Keeps.refl _
    | (intro x; try clear_value x)
    | apply State.refuse4_keeps
    | apply State.p_keeps
    | apply State.cacheDrop_keeps
    | lift_lets -underBinder
    | apply Keeps.ite

theorem execXltInvalidate_keeps {mm : Bool} {s0 s : State} (hk : Keeps mm s0 s) (scope : Fin 3) (asid : Fin 64) :
    Keeps mm s0 (after s (execXltInvalidate scope asid s)) := by
  refine hk.trans ?_; clear hk; unfold execXltInvalidate; try dsimp -zeta only [mkS_eq]
  try lift_lets -underBinder
  with_reducible repeat' first
    | assumption
    | exact Keeps.refl _
    | (apply KeepsF.intro; intro s; (try dsimp -zeta only); try lift_lets -underBinder)
    | (intro x; try clear_value x)
    | apply after_next_keeps
    | apply State.hostReg_keeps
    | apply State.xltInvalidate_keeps

theorem execXltInvDone_keeps {mm : Bool} {s0 s : State} (hk : Keeps mm s0 s) :
    Keeps mm s0 (after s (execXltInvDone s)) := by
  refine hk.trans ?_; clear hk; unfold execXltInvDone; try dsimp -zeta only [mkS_eq]
  try lift_lets -underBinder
  with_reducible repeat' first
    | assumption
    | exact Keeps.refl _
    | (intro x; try clear_value x)
    | apply after_next_keeps
    | apply State.irq_keeps
    | apply State.p_keeps
    | lift_lets -underBinder
    | apply Keeps.ite

theorem execAtsEnableChange_keeps {mm : Bool} {s0 s : State} (hk : Keeps mm s0 s) (enable : Bool) :
    Keeps mm s0 (after s (execAtsEnableChange enable s)) := by
  refine hk.trans ?_; clear hk; unfold execAtsEnableChange; try dsimp -zeta only [mkS_eq]
  try lift_lets -underBinder
  with_reducible repeat' first
    | assumption
    | exact Keeps.refl _
    | (intro x; refine Keeps.abs (mm := mm) (x := x) (s := s) ?_ (fun hk => ?_); rotate_left; clear_value x; rotate_right; dsimp -zeta only [x]; try clear x)
    | (intro x; try clear_value x)
    | apply after_next_keeps
    | apply State.p_keeps
    | apply State.cacheDrop_keeps
    | apply upd_keeps
    | exact Fits.refl _
    | lift_lets -underBinder
    | apply Keeps.ite

theorem execPriReset_keeps {mm : Bool} {s0 s : State} (hk : Keeps mm s0 s) (enable : Bool) :
    Keeps mm s0 (after s (execPriReset enable s)) := by
  refine hk.trans ?_; clear hk; unfold execPriReset; try dsimp -zeta only [mkS_eq]
  try lift_lets -underBinder
  with_reducible repeat' first
    | assumption
    | exact Keeps.refl _
    | (intro x; try clear_value x)
    | apply after_next_keeps
    | apply State.p_keeps
    | apply State.fault_keeps

theorem State.xltReset_keeps {mm : Bool} {s0 s : State} (hk : Keeps mm s0 s) (flr : Bool) :
    Keeps mm s0 (State.xltReset s flr) := by
  refine hk.trans ?_; clear hk; unfold State.xltReset; try dsimp -zeta only [mkS_eq]
  try lift_lets -underBinder
  with_reducible repeat' first
    | assumption
    | exact Keeps.refl _
    | (intro x; refine Keeps.abs (mm := mm) (x := x) (s := s) ?_ (fun hk => ?_); rotate_left; clear_value x; rotate_right; dsimp -zeta only [x]; try clear x)
    | (intro x; try clear_value x)
    | apply State.p_keeps
    | apply upd_keeps
    | exact Fits.refl _

end Sys2Proof.Machine
end

