-- ==== Sys2Proof/Laws/KeepsTakeStore.lean ====
section
/-! SUPPORT. What the functions of Machine/TakeStore.lean keep: the part, the queue, the memories where they store nothing, and the
canonical form of the tables. -/

namespace Sys2Proof.Machine
theorem State.setTsq_keeps {mm : Bool} {s0 s : State} (hk : Keeps mm s0 s) (f : TsqState → TsqState) :
    Keeps mm s0 (State.setTsq s f) := by
  refine hk.trans ?_; clear hk; unfold State.setTsq; try dsimp -zeta only [mkS_eq]
  try lift_lets -underBinder
  with_reducible repeat' first
    | assumption
    | exact Keeps.refl _
    | (intro x; try clear_value x)
    | apply upd_keeps
    | exact Fits.refl _

theorem State.jnlSync_keeps {mm : Bool} {s0 s : State} (hk : Keeps mm s0 s) :
    Keeps mm s0 (State.jnlSync s) := by
  refine hk.trans ?_; clear hk; unfold State.jnlSync; try dsimp -zeta only [mkS_eq]
  try lift_lets -underBinder
  with_reducible repeat' first
    | assumption
    | exact Keeps.refl _
    | (intro x; refine Keeps.abs (mm := mm) (x := x) (s := s) ?_ (fun hk => ?_); rotate_left; clear_value x; rotate_right; dsimp -zeta only [x]; try clear x)
    | (intro x; try clear_value x)
    | apply State.p_keeps
    | apply State.irqIf_keeps

theorem State.jnlAppend_keeps {mm : Bool} {s0 s : State} (hk : Keeps mm s0 s) (type : Nat) (fields : List Nat) :
    Keeps mm s0 (State.jnlAppend s type fields) := by
  refine hk.trans ?_; clear hk; unfold State.jnlAppend; try dsimp -zeta only [mkS_eq]
  try lift_lets -underBinder
  with_reducible repeat' first
    | assumption
    | exact Keeps.refl _
    | (intro x; refine Keeps.abs (mm := mm) (x := x) (s := s) ?_ (fun hk => ?_); rotate_left; clear_value x; rotate_right; dsimp -zeta only [x]; try clear x)
    | (intro x; try clear_value x)
    | apply State.setTsq_keeps
    | apply State.jnlSync_keeps
    | apply State.p64_keeps

theorem State.jnlData_keeps {mm : Bool} {s0 s : State} (hk : Keeps mm s0 s) (csn n : Nat) :
    Keeps mm s0 (State.jnlData s csn n) := by
  refine hk.trans ?_; clear hk; unfold State.jnlData; try dsimp -zeta only [mkS_eq]
  try lift_lets -underBinder
  with_reducible repeat' first
    | assumption
    | exact Keeps.refl _
    | (intro x; refine Keeps.abs (mm := mm) (x := x) (s := s) ?_ (fun hk => ?_); rotate_left; clear_value x; rotate_right; dsimp -zeta only [x]; try clear x)
    | (intro x; try clear_value x)
    | apply State.setTsq_keeps
    | apply State.jnlSync_keeps
    | apply State.p64_keeps

theorem State.jnlReclaim_keeps {mm : Bool} {s0 s : State} (hk : Keeps mm s0 s) :
    Keeps mm s0 (State.jnlReclaim s) := by
  refine hk.trans ?_; clear hk; unfold State.jnlReclaim; try dsimp -zeta only [mkS_eq]
  try lift_lets -underBinder
  with_reducible repeat' first
    | assumption
    | exact Keeps.refl _
    | (apply KeepsF.intro; intro s; (try dsimp -zeta only); try lift_lets -underBinder)
    | (intro x; refine Keeps.abs (mm := mm) (x := x) (s := s) ?_ (fun hk => ?_); rotate_left; clear_value x; rotate_right; dsimp -zeta only [x]; try clear x)
    | (intro x; try clear_value x)
    | apply State.setTsq_keeps
    | apply State.jnlSync_keeps
    | apply State.p64_keeps
    | apply State.jnlData_keeps
    | apply foldl_keeps
    | apply upd_keeps
    | exact Fits.refl _
    | lift_lets -underBinder
    | apply Keeps.ite
    | split

theorem State.abandonFlush_keeps {mm : Bool} {s0 s : State} (hk : Keeps mm s0 s) :
    Keeps mm s0 (State.abandonFlush s) := by
  refine hk.trans ?_; clear hk; unfold State.abandonFlush; try dsimp -zeta only [mkS_eq]
  try lift_lets -underBinder
  with_reducible repeat' first
    | assumption
    | exact Keeps.refl _
    | (apply KeepsF.intro; intro s; (try dsimp -zeta only); try lift_lets -underBinder)
    | (intro x; try clear_value x)
    | apply State.jnlAppend_keeps
    | apply State.setTsq_keeps
    | apply foldl_keeps
    | apply upd_keeps
    | exact Fits.refl _
    | lift_lets -underBinder
    | apply Keeps.ite

theorem State.jnlAbandon_keeps {mm : Bool} {s0 s : State} (hk : Keeps mm s0 s) (h first last reason : Nat) :
    Keeps mm s0 (State.jnlAbandon s h first last reason) := by
  refine hk.trans ?_; clear hk; unfold State.jnlAbandon; try dsimp -zeta only [mkS_eq]
  try lift_lets -underBinder
  with_reducible repeat' first
    | assumption
    | exact Keeps.refl _
    | (intro x; try clear_value x)
    | apply State.setTsq_keeps
    | apply State.jnlAppend_keeps
    | apply upd_keeps
    | exact Fits.refl _
    | lift_lets -underBinder
    | apply Keeps.ite
    | split

theorem State.setCmd_keeps {mm : Bool} {s0 s : State} (hk : Keeps mm s0 s) (csn : Nat) (f : TCmd → TCmd) :
    Keeps mm s0 (State.setCmd s csn f) := by
  refine hk.trans ?_; clear hk; unfold State.setCmd; try dsimp -zeta only [mkS_eq]
  try lift_lets -underBinder
  with_reducible repeat' first
    | assumption
    | exact Keeps.refl _
    | (intro x; try clear_value x)
    | apply State.setTsq_keeps

theorem State.tsqSync_keeps {mm : Bool} {s0 s : State} (hk : Keeps mm s0 s) :
    Keeps mm s0 (State.tsqSync s) := by
  refine hk.trans ?_; clear hk; unfold State.tsqSync; try dsimp -zeta only [mkS_eq]
  try lift_lets -underBinder
  with_reducible repeat' first
    | assumption
    | exact Keeps.refl _
    | (intro x; refine Keeps.abs (mm := mm) (x := x) (s := s) ?_ (fun hk => ?_); rotate_left; clear_value x; rotate_right; dsimp -zeta only [x]; try clear x)
    | (intro x; try clear_value x)
    | apply State.p_keeps
    | apply State.p64_keeps
    | apply State.setBusy_keeps

theorem State.endCmd_keeps {mm : Bool} {s0 s : State} (hk : Keeps mm s0 s) (c : TCmd) (d : Done) :
    Keeps mm s0 (State.endCmd s c d) := by
  refine hk.trans ?_; clear hk; unfold State.endCmd; try dsimp -zeta only [mkS_eq]
  try lift_lets -underBinder
  with_reducible repeat' first
    | assumption
    | exact Keeps.refl _
    | (intro x; refine Keeps.abs (mm := mm) (x := x) (s := s) ?_ (fun hk => ?_); rotate_left; clear_value x; rotate_right; dsimp -zeta only [x]; try clear x)
    | (intro x; try clear_value x)
    | apply State.setCmd_keeps
    | apply State.jnlAppend_keeps
    | apply State.tsqSync_keeps
    | apply State.p_keeps
    | apply upd_keeps
    | exact Fits.refl _
    | lift_lets -underBinder
    | apply Keeps.ite

theorem State.settleFua_keeps {mm : Bool} {s0 s : State} (hk : Keeps mm s0 s) :
    Keeps mm s0 (State.settleFua s) := by
  refine hk.trans ?_; clear hk; unfold State.settleFua; try dsimp -zeta only [mkS_eq]
  try lift_lets -underBinder
  with_reducible repeat' first
    | assumption
    | exact Keeps.refl _
    | (apply KeepsF.intro; intro s; (try dsimp -zeta only); try lift_lets -underBinder)
    | (intro x; try clear_value x)
    | apply State.endCmd_keeps
    | apply State.tsqSync_keeps
    | apply foldl_keeps

theorem State.defPush_keeps {mm : Bool} {s0 s : State} (hk : Keeps mm s0 s) (d : Deferred) :
    Keeps mm s0 (State.defPush s d) := by
  refine hk.trans ?_; clear hk; unfold State.defPush; try dsimp -zeta only [mkS_eq]
  try lift_lets -underBinder
  with_reducible repeat' first
    | assumption
    | exact Keeps.refl _
    | (intro x; refine Keeps.abs (mm := mm) (x := x) (s := s) ?_ (fun hk => ?_); rotate_left; clear_value x; rotate_right; dsimp -zeta only [x]; try clear x)
    | (intro x; try clear_value x)
    | apply State.p_keeps
    | apply State.setTsq_keeps
    | apply upd_keeps
    | exact Fits.refl _
    | lift_lets -underBinder
    | apply Keeps.ite

theorem State.deferError_keeps {mm : Bool} {s0 s : State} (hk : Keeps mm s0 s) (c : TCmd) (blk detail : Nat) :
    Keeps mm s0 (State.deferError s c blk detail) := by
  refine hk.trans ?_; clear hk; unfold State.deferError; try dsimp -zeta only [mkS_eq]
  try lift_lets -underBinder
  with_reducible repeat' first
    | assumption
    | exact Keeps.refl _
    | (intro x; refine Keeps.abs (mm := mm) (x := x) (s := s) ?_ (fun hk => ?_); rotate_left; clear_value x; rotate_right; dsimp -zeta only [x]; try clear x)
    | (intro x; try clear_value x)
    | apply State.defPush_keeps
    | apply State.irq_keeps
    | apply State.setTsq_keeps

theorem State.mediumFault_keeps {mm : Bool} {s0 s : State} (hk : Keeps mm s0 s) (c : TCmd) (blk : Nat) :
    Keeps mm s0 (State.mediumFault s c blk) := by
  refine hk.trans ?_; clear hk; unfold State.mediumFault; try dsimp -zeta only [mkS_eq]
  try lift_lets -underBinder
  with_reducible repeat' first
    | assumption
    | exact Keeps.refl _
    | (intro x; refine Keeps.abs (mm := mm) (x := x) (s := s) ?_ (fun hk => ?_); rotate_left; clear_value x; rotate_right; dsimp -zeta only [x]; try clear x)
    | (intro x; try clear_value x)
    | apply State.defPush_keeps
    | apply State.fault_keeps
    | apply State.bitEvent_keeps

theorem State.journalFault_keeps {mm : Bool} {s0 s : State} (hk : Keeps mm s0 s) :
    Keeps mm s0 (State.journalFault s) := by
  refine hk.trans ?_; clear hk; unfold State.journalFault; try dsimp -zeta only [mkS_eq]
  try lift_lets -underBinder
  with_reducible repeat' first
    | assumption
    | exact Keeps.refl _
    | (intro x; refine Keeps.abs (mm := mm) (x := x) (s := s) ?_ (fun hk => ?_); rotate_left; clear_value x; rotate_right; dsimp -zeta only [x]; try clear x)
    | (intro x; try clear_value x)
    | apply State.fault_keeps
    | apply State.p_keeps
    | apply State.bitEvent_keeps

theorem State.defPop_keeps {mm : Bool} {s0 s : State} (hk : Keeps mm s0 s) :
    Keeps mm s0 (State.defPop s) := by
  refine hk.trans ?_; clear hk; unfold State.defPop; try dsimp -zeta only [mkS_eq]
  try lift_lets -underBinder
  with_reducible repeat' first
    | assumption
    | exact Keeps.refl _
    | (intro x; refine Keeps.abs (mm := mm) (x := x) (s := s) ?_ (fun hk => ?_); rotate_left; clear_value x; rotate_right; dsimp -zeta only [x]; try clear x)
    | (intro x; try clear_value x)
    | apply State.setTsq_keeps
    | apply State.p_keeps

theorem State.defCtrl_keeps {mm : Bool} {s0 s : State} (hk : Keeps mm s0 s) (v : Nat) :
    Keeps mm s0 (State.defCtrl s v) := by
  refine hk.trans ?_; clear hk; unfold State.defCtrl; try dsimp -zeta only [mkS_eq]
  try lift_lets -underBinder
  with_reducible repeat' first
    | assumption
    | exact Keeps.refl _
    | (intro x; refine Keeps.abs (mm := mm) (x := x) (s := s) ?_ (fun hk => ?_); rotate_left; clear_value x; rotate_right; dsimp -zeta only [x]; try clear x)
    | (intro x; try clear_value x)
    | apply State.defPop_keeps
    | apply State.p_keeps
    | lift_lets -underBinder
    | apply Keeps.ite

theorem State.pwrStart_keeps {mm : Bool} {s0 s : State} (hk : Keeps mm s0 s) :
    Keeps mm s0 (State.pwrStart s) := by
  refine hk.trans ?_; clear hk; unfold State.pwrStart; try dsimp -zeta only [mkS_eq]
  try lift_lets -underBinder
  with_reducible repeat' first
    | assumption
    | exact Keeps.refl _
    | (intro x; try clear_value x)
    | apply State.p_keeps
    | apply State.setTsq_keeps
    | apply upd_keeps
    | exact Fits.refl _
    | lift_lets -underBinder
    | apply Keeps.ite

theorem State.tsqWake_keeps {mm : Bool} {s0 s : State} (hk : Keeps mm s0 s) :
    Keeps mm s0 (State.tsqWake s) := by
  refine hk.trans ?_; clear hk; unfold State.tsqWake; try dsimp -zeta only [mkS_eq]
  try lift_lets -underBinder
  with_reducible repeat' first
    | assumption
    | exact Keeps.refl _
    | (intro x; refine Keeps.abs (mm := mm) (x := x) (s := s) ?_ (fun hk => ?_); rotate_left; clear_value x; rotate_right; dsimp -zeta only [x]; try clear x)
    | (intro x; try clear_value x)
    | apply State.p_keeps
    | apply State.setTsq_keeps
    | apply upd_keeps
    | exact Fits.refl _
    | lift_lets -underBinder
    | apply Keeps.ite

theorem State.tsqPwrWrite_keeps {mm : Bool} {s0 s : State} (hk : Keeps mm s0 s) (v : Nat) :
    Keeps mm s0 (State.tsqPwrWrite s v) := by
  refine hk.trans ?_; clear hk; unfold State.tsqPwrWrite; try dsimp -zeta only [mkS_eq]
  try lift_lets -underBinder
  with_reducible repeat' first
    | assumption
    | exact Keeps.refl _
    | (intro x; try clear_value x)
    | apply State.refuse4_keeps
    | apply State.pwrStart_keeps
    | apply State.plainWrite_keeps
    | lift_lets -underBinder
    | apply Keeps.ite

theorem State.slotEnd_keeps {mm : Bool} {s0 s : State} (hk : Keeps mm s0 s) (n state last reason : Nat) :
    Keeps mm s0 (State.slotEnd s n state last reason) := by
  refine hk.trans ?_; clear hk; unfold State.slotEnd; try dsimp -zeta only [mkS_eq]
  try lift_lets -underBinder
  with_reducible repeat' first
    | assumption
    | exact Keeps.refl _
    | (intro x; try clear_value x)
    | apply State.p_keeps

theorem State.validate_keeps {mm : Bool} {s0 s : State} (hk : Keeps mm s0 s) (n : Nat) :
    Keeps mm s0 (State.validate s n) := by
  refine hk.trans ?_; clear hk; unfold State.validate; try dsimp -zeta only [mkS_eq]
  try lift_lets -underBinder
  with_reducible repeat' first
    | assumption
    | exact Keeps.refl _
    | (intro x; refine Keeps.abs (mm := mm) (x := x) (s := s) ?_ (fun hk => ?_); rotate_left; clear_value x; rotate_right; dsimp -zeta only [x]; try clear x)
    | ((apply KeepsF.ap (by assumption)))
    | (intro x; refine KeepsF2.abs (mm := mm) (x := x) ?_ (fun hk => ?_); rotate_left; clear_value x; rotate_right; dsimp -zeta only [x]; try clear x)
    | (apply KeepsF2.intro; intro n s; (try dsimp -zeta only); try lift_lets -underBinder)
    | ((apply KeepsF2.ap (by assumption)))
    | ((apply KeepsF3.ap (by assumption)))
    | (intro x; try clear_value x)
    | apply State.irq_keeps
    | apply State.slotEnd_keeps
    | apply State.setTsq_keeps
    | apply State.addSat_keeps
    | apply State.tsqSync_keeps
    | apply State.count_keeps
    | apply State.p64_keeps
    | apply upd_keeps
    | exact Fits.refl _
    | lift_lets -underBinder
    | apply Keeps.ite
    | split

theorem State.slotSubmit_keeps {mm : Bool} {s0 s : State} (hk : Keeps mm s0 s) (n v : Nat) :
    Keeps mm s0 (State.slotSubmit s n v) := by
  refine hk.trans ?_; clear hk; unfold State.slotSubmit; try dsimp -zeta only [mkS_eq]
  try lift_lets -underBinder
  with_reducible repeat' first
    | assumption
    | exact Keeps.refl _
    | (intro x; refine Keeps.abs (mm := mm) (x := x) (s := s) ?_ (fun hk => ?_); rotate_left; clear_value x; rotate_right; dsimp -zeta only [x]; try clear x)
    | (intro x; try clear_value x)
    | apply State.refuse4_keeps
    | apply State.p_keeps
    | apply State.tsqWake_keeps
    | apply State.plainWrite_keeps
    | apply State.tsqSync_keeps
    | apply State.setTsq_keeps
    | apply State.validate_keeps
    | apply upd_keeps
    | exact Fits.refl _
    | lift_lets -underBinder
    | apply Keeps.ite

theorem execSlotCmdSubmit_keeps {mm : Bool} {s0 s : State} (hk : Keeps mm s0 s) (slot : Fin 32) (v : Word) :
    Keeps mm s0 (after s (execSlotCmdSubmit slot v s)) := by
  refine hk.trans ?_; clear hk; unfold execSlotCmdSubmit; try dsimp -zeta only [mkS_eq]
  try lift_lets -underBinder
  with_reducible repeat' first
    | assumption
    | exact Keeps.refl _
    | (apply KeepsF.intro; intro s; (try dsimp -zeta only); try lift_lets -underBinder)
    | (intro x; try clear_value x)
    | apply after_next_keeps
    | apply State.hostReg_keeps
    | apply State.slotSubmit_keeps

theorem execAcceptDurable_keeps {mm : Bool} {s0 s : State} (hk : Keeps mm s0 s) (slot : Fin 32) :
    Keeps mm s0 (after s (execAcceptDurable slot s)) := by
  refine hk.trans ?_; clear hk; unfold execAcceptDurable; try dsimp -zeta only [mkS_eq]
  try lift_lets -underBinder
  with_reducible repeat' first
    | assumption
    | exact Keeps.refl _
    | (intro x; refine Keeps.abs (mm := mm) (x := x) (s := s) ?_ (fun hk => ?_); rotate_left; clear_value x; rotate_right; dsimp -zeta only [x]; try clear x)
    | (intro x; try clear_value x)
    | apply after_next_keeps
    | apply State.setCmd_keeps
    | apply State.jnlAppend_keeps
    | apply State.tsqSync_keeps
    | apply State.p_keeps
    | apply upd_keeps
    | exact Fits.refl _
    | lift_lets -underBinder
    | apply Keeps.ite
    | split

theorem State.activate_keeps {mm : Bool} {s0 s : State} (hk : Keeps mm s0 s) (c : TCmd) :
    Keeps mm s0 (State.activate s c) := by
  refine hk.trans ?_; clear hk; unfold State.activate; try dsimp -zeta only [mkS_eq]
  try lift_lets -underBinder
  with_reducible repeat' first
    | assumption
    | exact Keeps.refl _
    | (intro x; try clear_value x)
    | apply State.p_keeps
    | apply State.setCmd_keeps

theorem execSlotNop_keeps {mm : Bool} {s0 s : State} (hk : Keeps mm s0 s) (slot : Fin 32) :
    Keeps mm s0 (after s (execSlotNop slot s)) := by
  refine hk.trans ?_; clear hk; unfold execSlotNop; try dsimp -zeta only [mkS_eq]
  try lift_lets -underBinder
  with_reducible repeat' first
    | assumption
    | exact Keeps.refl _
    | (intro x; try clear_value x)
    | apply after_next_keeps
    | apply State.endCmd_keeps
    | apply upd_keeps
    | exact Fits.refl _
    | lift_lets -underBinder
    | apply Keeps.ite
    | split

theorem State.gatherBlocks_keeps {mm : Bool} {s0 s : State} (hk : Keeps mm s0 s) (c : TCmd) :
    Keeps mm s0 (State.gatherBlocks s c).2.2.2 := by
  refine hk.trans ?_; clear hk; unfold State.gatherBlocks; try dsimp -zeta only [mkS_eq]
  try lift_lets -underBinder
  with_reducible repeat' first
    | assumption
    | exact Keeps.refl _
    | (apply KeepsQ.intro; intro b c d s; (try dsimp -zeta only); try lift_lets -underBinder)
    | (intro x; try clear_value x)
    | apply State.addSat_keeps
    | apply State.rebuiltCount_keeps
    | apply State.hbmCount_keeps
    | apply foldl_keeps
    | apply foldl2_keeps
    | apply foldl4_keeps
    | apply upd_keeps
    | exact Fits.refl _
    | lift_lets -underBinder
    | apply Keeps.ite
    | split

theorem State.decideAccess_keeps {mm : Bool} {s0 s : State} (hk : Keeps mm s0 s) (c : TCmd) (a : Access) (ok : Done) :
    Keeps mm s0 (State.decideAccess s c a ok) := by
  refine hk.trans ?_; clear hk; unfold State.decideAccess; try dsimp -zeta only [mkS_eq]
  try lift_lets -underBinder
  with_reducible repeat' first
    | assumption
    | exact Keeps.refl _
    | (intro x; try clear_value x)
    | apply State.endCmd_keeps
    | apply upd_keeps
    | exact Fits.refl _
    | lift_lets -underBinder
    | apply Keeps.ite
    | split

theorem execSlotRead_keeps {s0 s : State} (hk : Keeps false s0 s) (slot : Fin 32) :
    Keeps false s0 (after s (execSlotRead slot s)) := by
  refine hk.trans ?_; clear hk; unfold execSlotRead; try dsimp -zeta only [mkS_eq]
  try lift_lets -underBinder
  with_reducible repeat' first
    | assumption
    | exact Keeps.refl _
    | (apply KeepsF.intro; intro s; (try dsimp -zeta only); try lift_lets -underBinder)
    | (intro x; try clear_value x)
    | apply after_next_keeps
    | apply State.gatherBlocks_keeps
    | apply State.activate_keeps
    | apply State.endCmd_keeps
    | apply State.mediumFault_keeps
    | apply State.masterWrite_keeps
    | apply State.addSat_keeps
    | apply State.decideAccess_keeps
    | apply foldl_keeps
    | apply upd_keeps
    | exact Fits.refl _
    | (apply Keeps.ofpair (by assumption))
    | (apply Keeps.ofpair1 (by assumption))
    | (apply Keeps.oftriple (by assumption))
    | lift_lets -underBinder
    | apply Keeps.ite
    | split

theorem execSlotWrite_keeps {s0 s : State} (hk : Keeps false s0 s) (slot : Fin 32) :
    Keeps false s0 (after s (execSlotWrite slot s)) := by
  refine hk.trans ?_; clear hk; unfold execSlotWrite; try dsimp -zeta only [mkS_eq]
  try lift_lets -underBinder
  with_reducible repeat' first
    | assumption
    | exact Keeps.refl _
    | (intro x; try clear_value x)
    | apply after_next_keeps
    | apply State.masterRead_keeps
    | apply State.activate_keeps
    | apply State.tsqSync_keeps
    | apply State.setCmd_keeps
    | apply State.decideAccess_keeps
    | apply upd_keeps
    | exact Fits.refl _
    | (apply Keeps.ofpair (by assumption))
    | (apply Keeps.ofpair1 (by assumption))
    | (apply Keeps.oftriple (by assumption))
    | lift_lets -underBinder
    | apply Keeps.ite
    | split

theorem execWriteBuffered_keeps {mm : Bool} {s0 s : State} (hk : Keeps mm s0 s) (slot : Fin 32) :
    Keeps mm s0 (after s (execWriteBuffered slot s)) := by
  refine hk.trans ?_; clear hk; unfold execWriteBuffered; try dsimp -zeta only [mkS_eq]
  try lift_lets -underBinder
  with_reducible repeat' first
    | assumption
    | exact Keeps.refl _
    | (intro x; refine Keeps.abs (mm := mm) (x := x) (s := s) ?_ (fun hk => ?_); rotate_left; clear_value x; rotate_right; dsimp -zeta only [x]; try clear x)
    | (intro x; try clear_value x)
    | apply after_next_keeps
    | apply State.setCmd_keeps
    | apply State.tsqSync_keeps
    | apply State.endCmd_keeps
    | apply upd_keeps
    | exact Fits.refl _
    | lift_lets -underBinder
    | apply Keeps.ite
    | split

theorem execWriteEntryDurable_keeps {mm : Bool} {s0 s : State} (hk : Keeps mm s0 s) (csn : Nat) (lost : Bool) :
    Keeps mm s0 (after s (execWriteEntryDurable csn lost s)) := by
  refine hk.trans ?_; clear hk; unfold execWriteEntryDurable; try dsimp -zeta only [mkS_eq]
  try lift_lets -underBinder
  with_reducible repeat' first
    | assumption
    | exact Keeps.refl _
    | (intro x; refine Keeps.abs (mm := mm) (x := x) (s := s) ?_ (fun hk => ?_); rotate_left; clear_value x; rotate_right; dsimp -zeta only [x]; try clear x)
    | (intro x; try clear_value x)
    | apply after_next_keeps
    | apply State.journalFault_keeps
    | apply State.settleFua_keeps
    | apply State.setCmd_keeps
    | apply State.deferError_keeps
    | apply State.endCmd_keeps
    | apply State.jnlAppend_keeps
    | apply State.jnlData_keeps
    | apply upd_keeps
    | exact Fits.refl _
    | lift_lets -underBinder
    | apply Keeps.ite
    | split

theorem State.applyWrite_keeps {s0 s : State} (hk : Keeps false s0 s) (c : TCmd) :
    Keeps false s0 (State.applyWrite s c) := by
  refine hk.trans ?_; clear hk; unfold State.applyWrite; try dsimp -zeta only [mkS_eq]
  try lift_lets -underBinder
  with_reducible repeat' first
    | assumption
    | exact Keeps.refl _
    | (intro x; refine Keeps.abs (mm := false) (x := x) (s := s) ?_ (fun hk => ?_); rotate_left; clear_value x; rotate_right; dsimp -zeta only [x]; try clear x)
    | (intro x; try clear_value x)
    | apply State.hbmCount_keeps
    | apply State.hbmWrite_keeps
    | apply State.deferError_keeps
    | apply State.fault_keeps
    | apply State.setCmd_keeps
    | apply State.jnlAppend_keeps
    | apply upd_keeps
    | exact Fits.refl _
    | lift_lets -underBinder
    | apply Keeps.ite
    | split

theorem execWriteApplied_keeps {s0 s : State} (hk : Keeps false s0 s) (csn : Nat) :
    Keeps false s0 (after s (execWriteApplied csn s)) := by
  refine hk.trans ?_; clear hk; unfold execWriteApplied; try dsimp -zeta only [mkS_eq]
  try lift_lets -underBinder
  with_reducible repeat' first
    | assumption
    | exact Keeps.refl _
    | (intro x; try clear_value x)
    | apply after_next_keeps
    | apply State.tsqSync_keeps
    | apply State.applyWrite_keeps
    | apply upd_keeps
    | exact Fits.refl _
    | lift_lets -underBinder
    | apply Keeps.ite
    | split

theorem execSlotFlush_keeps {mm : Bool} {s0 s : State} (hk : Keeps mm s0 s) (slot : Fin 32) :
    Keeps mm s0 (after s (execSlotFlush slot s)) := by
  refine hk.trans ?_; clear hk; unfold execSlotFlush; try dsimp -zeta only [mkS_eq]
  try lift_lets -underBinder
  with_reducible repeat' first
    | assumption
    | exact Keeps.refl _
    | (intro x; refine Keeps.abs (mm := mm) (x := x) (s := s) ?_ (fun hk => ?_); rotate_left; clear_value x; rotate_right; dsimp -zeta only [x]; try clear x)
    | (intro x; try clear_value x)
    | apply after_next_keeps
    | apply State.activate_keeps
    | apply State.setTsq_keeps
    | apply State.endCmd_keeps
    | apply upd_keeps
    | exact Fits.refl _
    | lift_lets -underBinder
    | apply Keeps.ite
    | split

theorem execSlotVerify_keeps {mm : Bool} {s0 s : State} (hk : Keeps mm s0 s) (slot : Fin 32) :
    Keeps mm s0 (after s (execSlotVerify slot s)) := by
  refine hk.trans ?_; clear hk; unfold execSlotVerify; try dsimp -zeta only [mkS_eq]
  try lift_lets -underBinder
  with_reducible repeat' first
    | assumption
    | exact Keeps.refl _
    | (intro x; refine Keeps.abs (mm := mm) (x := x) (s := s) ?_ (fun hk => ?_); rotate_left; clear_value x; rotate_right; dsimp -zeta only [x]; try clear x)
    | (intro x; try clear_value x)
    | apply after_next_keeps
    | apply State.addSat_keeps
    | apply State.activate_keeps
    | apply State.endCmd_keeps
    | apply State.mediumFault_keeps
    | apply upd_keeps
    | exact Fits.refl _
    | lift_lets -underBinder
    | apply Keeps.ite
    | split

theorem execSlotJread_keeps {s0 s : State} (hk : Keeps false s0 s) (slot : Fin 32) :
    Keeps false s0 (after s (execSlotJread slot s)) := by
  refine hk.trans ?_; clear hk; unfold execSlotJread; try dsimp -zeta only [mkS_eq]
  try lift_lets -underBinder
  with_reducible repeat' first
    | assumption
    | exact Keeps.refl _
    | (intro x; try clear_value x)
    | apply after_next_keeps
    | apply State.activate_keeps
    | apply State.masterWrite_keeps
    | apply State.decideAccess_keeps
    | apply upd_keeps
    | exact Fits.refl _
    | (apply Keeps.ofpair (by assumption))
    | (apply Keeps.ofpair1 (by assumption))
    | (apply Keeps.oftriple (by assumption))
    | lift_lets -underBinder
    | apply Keeps.ite
    | split

theorem execSlotFormat_keeps {mm : Bool} {s0 s : State} (hk : Keeps mm s0 s) (slot : Fin 32) :
    Keeps mm s0 (after s (execSlotFormat slot s)) := by
  refine hk.trans ?_; clear hk; unfold execSlotFormat; try dsimp -zeta only [mkS_eq]
  try lift_lets -underBinder
  with_reducible repeat' first
    | assumption
    | exact Keeps.refl _
    | (intro x; try clear_value x)
    | apply after_next_keeps
    | apply State.p_keeps
    | apply State.activate_keeps
    | apply upd_keeps
    | exact Fits.refl _
    | lift_lets -underBinder
    | apply Keeps.ite
    | split

theorem State.areaSync_keeps {mm : Bool} {s0 s : State} (hk : Keeps mm s0 s) (h : Nat) :
    Keeps mm s0 (State.areaSync s h) := by
  refine hk.trans ?_; clear hk; unfold State.areaSync; try dsimp -zeta only [mkS_eq]
  try lift_lets -underBinder
  with_reducible repeat' first
    | assumption
    | exact Keeps.refl _
    | (intro x; refine Keeps.abs (mm := mm) (x := x) (s := s) ?_ (fun hk => ?_); rotate_left; clear_value x; rotate_right; dsimp -zeta only [x]; try clear x)
    | (intro x; try clear_value x)
    | apply State.p_keeps
    | apply State.p64_keeps

theorem State.setArea_keeps {mm : Bool} {s0 s : State} (hk : Keeps mm s0 s) (h : Nat) (f : Area → Area) :
    Keeps mm s0 (State.setArea s h f) := by
  refine hk.trans ?_; clear hk; unfold State.setArea; try dsimp -zeta only [mkS_eq]
  try lift_lets -underBinder
  with_reducible repeat' first
    | assumption
    | exact Keeps.refl _
    | (intro x; try clear_value x)
    | apply State.areaSync_keeps
    | apply State.setTsq_keeps

theorem execFormatEnd_keeps {s0 s : State} (hk : Keeps false s0 s) :
    Keeps false s0 (after s (execFormatEnd s)) := by
  refine hk.trans ?_; clear hk; unfold execFormatEnd; try dsimp -zeta only [mkS_eq]
  try lift_lets -underBinder
  with_reducible repeat' first
    | assumption
    | exact Keeps.refl _
    | (intro x; try clear_value x)
    | apply after_next_keeps
    | apply State.hbmSpan_keeps
    | apply State.setTsq_keeps
    | apply State.jnlAppend_keeps
    | apply State.p64_keeps
    | apply State.areaSync_keeps
    | apply State.p_keeps
    | apply State.fault_keeps
    | apply State.endCmd_keeps
    | apply upd_keeps
    | exact Fits.refl _
    | lift_lets -underBinder
    | apply Keeps.ite
    | split

theorem State.moveTail_keeps {mm : Bool} {s0 s : State} (hk : Keeps mm s0 s) (h tail source : Nat) :
    Keeps mm s0 (State.moveTail s h tail source) := by
  refine hk.trans ?_; clear hk; unfold State.moveTail; try dsimp -zeta only [mkS_eq]
  try lift_lets -underBinder
  with_reducible repeat' first
    | assumption
    | exact Keeps.refl _
    | (intro x; try clear_value x)
    | apply State.setArea_keeps
    | apply State.jnlAppend_keeps

theorem State.commitFrame_keeps {mm : Bool} {s0 s : State} (hk : Keeps mm s0 s) (h : Nat) (f : AreaFrame) (flags setId : Nat) :
    Keeps mm s0 (State.commitFrame s h f flags setId) := by
  refine hk.trans ?_; clear hk; unfold State.commitFrame; try dsimp -zeta only [mkS_eq]
  try lift_lets -underBinder
  with_reducible repeat' first
    | assumption
    | exact Keeps.refl _
    | (intro x; try clear_value x)
    | apply State.setArea_keeps
    | apply State.jnlAppend_keeps

theorem State.areaWrite_keeps {mm : Bool} {s0 s : State} (hk : Keeps mm s0 s) (h : Nat) (len : Bool) (v : Nat) :
    Keeps mm s0 (State.areaWrite s h len v) := by
  refine hk.trans ?_; clear hk; unfold State.areaWrite; try dsimp -zeta only [mkS_eq]
  try lift_lets -underBinder
  with_reducible repeat' first
    | assumption
    | exact Keeps.refl _
    | (intro x; try clear_value x)
    | apply State.refuse4_keeps
    | apply State.jnlAppend_keeps
    | apply State.setArea_keeps
    | apply upd_keeps
    | exact Fits.refl _
    | lift_lets -underBinder
    | apply Keeps.ite

theorem execAreaWrite_keeps {mm : Bool} {s0 s : State} (hk : Keeps mm s0 s) (h : Fin 4) (len : Bool) (v : Word) :
    Keeps mm s0 (after s (execAreaWrite h len v s)) := by
  refine hk.trans ?_; clear hk; unfold execAreaWrite; try dsimp -zeta only [mkS_eq]
  try lift_lets -underBinder
  with_reducible repeat' first
    | assumption
    | exact Keeps.refl _
    | (apply KeepsF.intro; intro s; (try dsimp -zeta only); try lift_lets -underBinder)
    | (intro x; try clear_value x)
    | apply after_next_keeps
    | apply State.hostReg_keeps
    | apply State.areaWrite_keeps

theorem State.postEntry_keeps {s0 s : State} (hk : Keeps false s0 s) (l : List Byte) :
    Keeps false s0 (State.postEntry s l).2 := by
  refine hk.trans ?_; clear hk; unfold State.postEntry; try dsimp -zeta only [mkS_eq]
  try lift_lets -underBinder
  with_reducible repeat' first
    | assumption
    | exact Keeps.refl _
    | (intro x; try clear_value x)
    | apply State.masterWrite_keeps
    | apply State.p_keeps
    | apply upd_keeps
    | exact Fits.refl _
    | (apply Keeps.ofpair (by assumption))
    | (apply Keeps.ofpair1 (by assumption))
    | (apply Keeps.oftriple (by assumption))
    | lift_lets -underBinder
    | apply Keeps.ite
    | split

theorem State.postCompletion_keeps {s0 s : State} (hk : Keeps false s0 s) (c : TCmd) (d : Done) :
    Keeps false s0 (State.postCompletion s c d) := by
  refine hk.trans ?_; clear hk; unfold State.postCompletion; try dsimp -zeta only [mkS_eq]
  try lift_lets -underBinder
  with_reducible repeat' first
    | assumption
    | exact Keeps.refl _
    | (intro x; refine Keeps.abs (mm := false) (x := x) (s := s) ?_ (fun hk => ?_); rotate_left; clear_value x; rotate_right; dsimp -zeta only [x]; try clear x)
    | (intro x; try clear_value x)
    | apply State.postEntry_keeps
    | apply State.slotEnd_keeps
    | apply State.setCmd_keeps
    | apply State.tsqSync_keeps
    | apply State.irqIf_keeps
    | apply upd_keeps
    | exact Fits.refl _
    | (apply Keeps.ofpair (by assumption))
    | (apply Keeps.ofpair1 (by assumption))
    | (apply Keeps.oftriple (by assumption))
    | lift_lets -underBinder
    | apply Keeps.ite

theorem execCompletionPosted_keeps {s0 s : State} (hk : Keeps false s0 s) (slot : Fin 32) :
    Keeps false s0 (after s (execCompletionPosted slot s)) := by
  refine hk.trans ?_; clear hk; unfold execCompletionPosted; try dsimp -zeta only [mkS_eq]
  try lift_lets -underBinder
  with_reducible repeat' first
    | assumption
    | exact Keeps.refl _
    | (intro x; refine Keeps.abs (mm := false) (x := x) (s := s) ?_ (fun hk => ?_); rotate_left; clear_value x; rotate_right; dsimp -zeta only [x]; try clear x)
    | (intro x; try clear_value x)
    | apply after_next_keeps
    | apply State.postEntry_keeps
    | apply State.slotEnd_keeps
    | apply State.setTsq_keeps
    | apply State.tsqSync_keeps
    | apply State.irqIf_keeps
    | apply State.addSat_keeps
    | apply State.postCompletion_keeps
    | apply upd_keeps
    | exact Fits.refl _
    | (apply Keeps.ofpair (by assumption))
    | (apply Keeps.ofpair1 (by assumption))
    | (apply Keeps.oftriple (by assumption))
    | lift_lets -underBinder
    | apply Keeps.ite
    | split

theorem State.headWrite_keeps {mm : Bool} {s0 s : State} (hk : Keeps mm s0 s) (base : Nat) (head tail : Fld) (v : Nat) :
    Keeps mm s0 (State.headWrite s base head tail v) := by
  refine hk.trans ?_; clear hk; unfold State.headWrite; try dsimp -zeta only [mkS_eq]
  try lift_lets -underBinder
  with_reducible repeat' first
    | assumption
    | exact Keeps.refl _
    | (intro x; try clear_value x)
    | apply State.refuse4_keeps
    | apply State.p_keeps
    | lift_lets -underBinder
    | apply Keeps.ite

theorem execCqHeadWrite_keeps {mm : Bool} {s0 s : State} (hk : Keeps mm s0 s) (v : Word) :
    Keeps mm s0 (after s (execCqHeadWrite v s)) := by
  refine hk.trans ?_; clear hk; unfold execCqHeadWrite; try dsimp -zeta only [mkS_eq]
  try lift_lets -underBinder
  with_reducible repeat' first
    | assumption
    | exact Keeps.refl _
    | (apply KeepsF.intro; intro s; (try dsimp -zeta only); try lift_lets -underBinder)
    | (intro x; try clear_value x)
    | apply after_next_keeps
    | apply State.hostReg_keeps
    | apply State.headWrite_keeps

theorem State.abortResult_keeps {mm : Bool} {s0 s : State} (hk : Keeps mm s0 s) (r : Nat) :
    Keeps mm s0 (State.abortResult s r) := by
  refine hk.trans ?_; clear hk; unfold State.abortResult; try dsimp -zeta only [mkS_eq]
  try lift_lets -underBinder
  with_reducible repeat' first
    | assumption
    | exact Keeps.refl _
    | (intro x; try clear_value x)
    | apply State.irq_keeps
    | apply State.p_keeps

theorem State.abortDecide_keeps {mm : Bool} {s0 s : State} (hk : Keeps mm s0 s) (slot : Nat) :
    Keeps mm s0 (State.abortDecide s slot) := by
  refine hk.trans ?_; clear hk; unfold State.abortDecide; try dsimp -zeta only [mkS_eq]
  try lift_lets -underBinder
  with_reducible repeat' first
    | assumption
    | exact Keeps.refl _
    | (intro x; try clear_value x)
    | apply State.abortResult_keeps
    | apply State.settleFua_keeps
    | apply State.endCmd_keeps
    | apply upd_keeps
    | exact Fits.refl _
    | lift_lets -underBinder
    | apply Keeps.ite
    | split

theorem State.abortWrite_keeps {mm : Bool} {s0 s : State} (hk : Keeps mm s0 s) (v : Nat) :
    Keeps mm s0 (State.abortWrite s v) := by
  refine hk.trans ?_; clear hk; unfold State.abortWrite; try dsimp -zeta only [mkS_eq]
  try lift_lets -underBinder
  with_reducible repeat' first
    | assumption
    | exact Keeps.refl _
    | (intro x; try clear_value x)
    | apply State.refuse4_keeps
    | apply State.p_keeps
    | apply State.abortDecide_keeps
    | lift_lets -underBinder
    | apply Keeps.ite

theorem execTsqAbort_keeps {mm : Bool} {s0 s : State} (hk : Keeps mm s0 s) (slot : Fin 32) :
    Keeps mm s0 (after s (execTsqAbort slot s)) := by
  refine hk.trans ?_; clear hk; unfold execTsqAbort; try dsimp -zeta only [mkS_eq]
  try lift_lets -underBinder
  with_reducible repeat' first
    | assumption
    | exact Keeps.refl _
    | (apply KeepsF.intro; intro s; (try dsimp -zeta only); try lift_lets -underBinder)
    | (intro x; try clear_value x)
    | apply after_next_keeps
    | apply State.hostReg_keeps
    | apply State.abortWrite_keeps

theorem execTsqPwrTarget_keeps {mm : Bool} {s0 s : State} (hk : Keeps mm s0 s) (v : Word) :
    Keeps mm s0 (after s (execTsqPwrTarget v s)) := by
  refine hk.trans ?_; clear hk; unfold execTsqPwrTarget; try dsimp -zeta only [mkS_eq]
  try lift_lets -underBinder
  with_reducible repeat' first
    | assumption
    | exact Keeps.refl _
    | (apply KeepsF.intro; intro s; (try dsimp -zeta only); try lift_lets -underBinder)
    | (intro x; try clear_value x)
    | apply after_next_keeps
    | apply State.hostReg_keeps
    | apply State.tsqPwrWrite_keeps

theorem execTsqPwrReached_keeps {mm : Bool} {s0 s : State} (hk : Keeps mm s0 s) :
    Keeps mm s0 (after s (execTsqPwrReached s)) := by
  refine hk.trans ?_; clear hk; unfold execTsqPwrReached; try dsimp -zeta only [mkS_eq]
  try lift_lets -underBinder
  with_reducible repeat' first
    | assumption
    | exact Keeps.refl _
    | (intro x; refine Keeps.abs (mm := mm) (x := x) (s := s) ?_ (fun hk => ?_); rotate_left; clear_value x; rotate_right; dsimp -zeta only [x]; try clear x)
    | (intro x; try clear_value x)
    | apply after_next_keeps
    | apply State.p_keeps
    | apply State.setTsq_keeps
    | apply State.irq_keeps
    | apply State.pwrStart_keeps
    | apply upd_keeps
    | exact Fits.refl _
    | lift_lets -underBinder
    | apply Keeps.ite
    | split

theorem execTsqIdleTimer_keeps {mm : Bool} {s0 s : State} (hk : Keeps mm s0 s) :
    Keeps mm s0 (after s (execTsqIdleTimer s)) := by
  refine hk.trans ?_; clear hk; unfold execTsqIdleTimer; try dsimp -zeta only [mkS_eq]
  try lift_lets -underBinder
  with_reducible repeat' first
    | assumption
    | exact Keeps.refl _
    | (intro x; try clear_value x)
    | apply after_next_keeps
    | apply State.pwrStart_keeps
    | apply State.p_keeps
    | lift_lets -underBinder
    | apply Keeps.ite

theorem State.recoveryStart_keeps {mm : Bool} {s0 s : State} (hk : Keeps mm s0 s) :
    Keeps mm s0 (State.recoveryStart s) := by
  refine hk.trans ?_; clear hk; unfold State.recoveryStart; try dsimp -zeta only [mkS_eq]
  try lift_lets -underBinder
  with_reducible repeat' first
    | assumption
    | exact Keeps.refl _
    | (intro x; try clear_value x)
    | apply State.tsqSync_keeps
    | apply State.p_keeps
    | lift_lets -underBinder
    | apply Keeps.ite

theorem State.recoveryFail_keeps {mm : Bool} {s0 s : State} (hk : Keeps mm s0 s) :
    Keeps mm s0 (State.recoveryFail s) := by
  refine hk.trans ?_; clear hk; unfold State.recoveryFail; try dsimp -zeta only [mkS_eq]
  try lift_lets -underBinder
  with_reducible repeat' first
    | assumption
    | exact Keeps.refl _
    | (intro x; try clear_value x)
    | apply State.irq_keeps
    | apply State.p_keeps

theorem State.recoverLost_keeps {mm : Bool} {s0 s : State} (hk : Keeps mm s0 s) :
    Keeps mm s0 (State.recoverLost s) := by
  refine hk.trans ?_; clear hk; unfold State.recoverLost; try dsimp -zeta only [mkS_eq]
  try lift_lets -underBinder
  with_reducible repeat' first
    | assumption
    | exact Keeps.refl _
    | (apply KeepsF.intro; intro s; (try dsimp -zeta only); try lift_lets -underBinder)
    | (intro x; refine Keeps.abs (mm := mm) (x := x) (s := s) ?_ (fun hk => ?_); rotate_left; clear_value x; rotate_right; dsimp -zeta only [x]; try clear x)
    | (intro x; try clear_value x)
    | apply State.addSat_keeps
    | apply State.jnlAppend_keeps
    | apply State.setCmd_keeps
    | apply foldl_keeps

theorem State.endByReset_keeps {mm : Bool} {s0 s : State} (hk : Keeps mm s0 s) :
    Keeps mm s0 (State.endByReset s) := by
  refine hk.trans ?_; clear hk; unfold State.endByReset; try dsimp -zeta only [mkS_eq]
  try lift_lets -underBinder
  with_reducible repeat' first
    | assumption
    | exact Keeps.refl _
    | (apply KeepsF.intro; intro s; (try dsimp -zeta only); try lift_lets -underBinder)
    | (intro x; try clear_value x)
    | apply State.setTsq_keeps
    | apply State.endCmd_keeps
    | apply foldl_keeps
    | apply upd_keeps
    | exact Fits.refl _
    | lift_lets -underBinder
    | apply Keeps.ite

theorem execRecoveryEnd_keeps {s0 s : State} (hk : Keeps false s0 s) (readable : Bool) :
    Keeps false s0 (after s (execRecoveryEnd readable s)) := by
  refine hk.trans ?_; clear hk; unfold execRecoveryEnd; try dsimp -zeta only [mkS_eq]
  try lift_lets -underBinder
  with_reducible repeat' first
    | assumption
    | exact Keeps.refl _
    | (apply KeepsF.intro; intro s; (try dsimp -zeta only); try lift_lets -underBinder)
    | (intro x; refine Keeps.abs (mm := false) (x := x) (s := s) ?_ (fun hk => ?_); rotate_left; clear_value x; rotate_right; dsimp -zeta only [x]; try clear x)
    | (intro x; try clear_value x)
    | apply after_next_keeps
    | apply State.tsqSync_keeps
    | apply State.recoveryFail_keeps
    | apply State.p_keeps
    | apply State.applyWrite_keeps
    | apply State.areaSync_keeps
    | apply State.endByReset_keeps
    | apply State.recoverLost_keeps
    | apply State.p64_keeps
    | apply State.setTsq_keeps
    | apply State.irq_keeps
    | apply State.validate_keeps
    | apply State.abortDecide_keeps
    | apply State.jnlSync_keeps
    | apply foldl_keeps
    | apply upd_keeps
    | exact Fits.refl _
    | lift_lets -underBinder
    | apply Keeps.ite
    | split

theorem State.tsqWarm_keeps {mm : Bool} {s0 s : State} (hk : Keeps mm s0 s) :
    Keeps mm s0 (State.tsqWarm s) := by
  refine hk.trans ?_; clear hk; unfold State.tsqWarm; try dsimp -zeta only [mkS_eq]
  try lift_lets -underBinder
  with_reducible repeat' first
    | assumption
    | exact Keeps.refl _
    | (intro x; refine Keeps.abs (mm := mm) (x := x) (s := s) ?_ (fun hk => ?_); rotate_left; clear_value x; rotate_right; dsimp -zeta only [x]; try clear x)
    | (intro x; try clear_value x)
    | apply State.setTsq_keeps
    | apply State.tsqSync_keeps
    | apply State.p_keeps

theorem State.postDecided_keeps {s0 s : State} (hk : Keeps false s0 s) (p : TCmd → Bool) :
    Keeps false s0 (State.postDecided s p) := by
  refine hk.trans ?_; clear hk; unfold State.postDecided; try dsimp -zeta only [mkS_eq]
  try lift_lets -underBinder
  with_reducible repeat' first
    | assumption
    | exact Keeps.refl _
    | (apply KeepsF.intro; intro s; (try dsimp -zeta only); try lift_lets -underBinder)
    | (intro x; try clear_value x)
    | apply State.postCompletion_keeps
    | apply foldl_keeps
    | apply upd_keeps
    | exact Fits.refl _
    | lift_lets -underBinder
    | apply Keeps.ite
    | split

theorem State.tsqFlr_keeps {s0 s : State} (hk : Keeps false s0 s) :
    Keeps false s0 (State.tsqFlr s) := by
  refine hk.trans ?_; clear hk; unfold State.tsqFlr; try dsimp -zeta only [mkS_eq]
  try lift_lets -underBinder
  with_reducible repeat' first
    | assumption
    | exact Keeps.refl _
    | (intro x; try clear_value x)
    | apply State.settleFua_keeps
    | apply State.endByReset_keeps
    | apply State.postDecided_keeps

theorem State.tsqCold_keeps {mm : Bool} {s0 s : State} (hk : Keeps mm s0 s) :
    Keeps mm s0 (State.tsqCold s) := by
  refine hk.trans ?_; clear hk; unfold State.tsqCold; try dsimp -zeta only [mkS_eq]
  try lift_lets -underBinder
  with_reducible repeat' first
    | assumption
    | exact Keeps.refl _
    | (intro x; try clear_value x)
    | apply State.setTsq_keeps

theorem State.tsqLost_keeps {mm : Bool} {s0 s : State} (hk : Keeps mm s0 s) :
    Keeps mm s0 (State.tsqLost s) := by
  refine hk.trans ?_; clear hk; unfold State.tsqLost; try dsimp -zeta only [mkS_eq]
  try lift_lets -underBinder
  with_reducible repeat' first
    | assumption
    | exact Keeps.refl _
    | (intro x; try clear_value x)
    | apply State.setTsq_keeps

theorem execJournalReclaim_keeps {mm : Bool} {s0 s : State} (hk : Keeps mm s0 s) :
    Keeps mm s0 (after s (execJournalReclaim s)) := by
  refine hk.trans ?_; clear hk; unfold execJournalReclaim; try dsimp -zeta only [mkS_eq]
  try lift_lets -underBinder
  with_reducible repeat' first
    | assumption
    | exact Keeps.refl _
    | (intro x; try clear_value x)
    | apply after_next_keeps
    | apply State.tsqSync_keeps
    | apply State.abandonFlush_keeps
    | apply State.jnlReclaim_keeps

theorem execDefPop_keeps {mm : Bool} {s0 s : State} (hk : Keeps mm s0 s) :
    Keeps mm s0 (after s (execDefPop s)) := by
  refine hk.trans ?_; clear hk; unfold execDefPop; try dsimp -zeta only [mkS_eq]
  try lift_lets -underBinder
  with_reducible repeat' first
    | assumption
    | exact Keeps.refl _
    | (apply KeepsF.intro; intro s; (try dsimp -zeta only); try lift_lets -underBinder)
    | (intro x; try clear_value x)
    | apply after_next_keeps
    | apply State.hostReg_keeps
    | apply State.defCtrl_keeps

theorem execDefClrOvf_keeps {mm : Bool} {s0 s : State} (hk : Keeps mm s0 s) :
    Keeps mm s0 (after s (execDefClrOvf s)) := by
  refine hk.trans ?_; clear hk; unfold execDefClrOvf; try dsimp -zeta only [mkS_eq]
  try lift_lets -underBinder
  with_reducible repeat' first
    | assumption
    | exact Keeps.refl _
    | (apply KeepsF.intro; intro s; (try dsimp -zeta only); try lift_lets -underBinder)
    | (intro x; try clear_value x)
    | apply after_next_keeps
    | apply State.hostReg_keeps
    | apply State.defCtrl_keeps

end Sys2Proof.Machine
end

