-- ==== Sys2Proof/Laws/KeepsSumpPlan.lean ====
section
/-! SUPPORT. What the functions of Machine/SumpPlan.lean keep: the part, the queue, the memories where they store nothing, and the
canonical form of the tables. -/

namespace Sys2Proof.Machine
theorem State.setMapByte_keeps {mm : Bool} {s0 s : State} (hk : Keeps mm s0 s) (g v : Nat) :
    Keeps mm s0 (State.setMapByte s g v) := by
  refine hk.trans ?_; clear hk; unfold State.setMapByte; try dsimp -zeta only [mkS_eq]
  try lift_lets -underBinder
  with_reducible repeat' first
    | assumption
    | exact Keeps.refl _
    | (intro x; try clear_value x)
    | apply State.p_keeps

theorem State.reserveSync_keeps {mm : Bool} {s0 s : State} (hk : Keeps mm s0 s) :
    Keeps mm s0 (State.reserveSync s) := by
  refine hk.trans ?_; clear hk; unfold State.reserveSync; try dsimp -zeta only [mkS_eq]
  try lift_lets -underBinder
  with_reducible repeat' first
    | assumption
    | exact Keeps.refl _
    | (intro x; refine Keeps.abs (mm := mm) (x := x) (s := s) ?_ (fun hk => ?_); rotate_left; clear_value x; rotate_right; dsimp -zeta only [x]; try clear x)
    | (intro x; try clear_value x)
    | apply State.p_keeps
    | apply State.irqIf_keeps
    | apply State.fault_keeps

theorem State.envRefuse_keeps {mm : Bool} {s0 s : State} (hk : Keeps mm s0 s) (type inst rule : Nat) :
    Keeps mm s0 (State.envRefuse s type inst rule) := by
  refine hk.trans ?_; clear hk; unfold State.envRefuse; try dsimp -zeta only [mkS_eq]
  try lift_lets -underBinder
  with_reducible repeat' first
    | assumption
    | exact Keeps.refl _
    | (intro x; try clear_value x)
    | apply State.irq_keeps
    | apply State.p_keeps

theorem State.planFigures_keeps {mm : Bool} {s0 s : State} (hk : Keeps mm s0 s) (im : PlanImage) :
    Keeps mm s0 (State.planFigures s im) := by
  refine hk.trans ?_; clear hk; unfold State.planFigures; try dsimp -zeta only [mkS_eq]
  try lift_lets -underBinder
  with_reducible repeat' first
    | assumption
    | exact Keeps.refl _
    | (intro x; refine Keeps.abs (mm := mm) (x := x) (s := s) ?_ (fun hk => ?_); rotate_left; clear_value x; rotate_right; dsimp -zeta only [x]; try clear x)
    | (intro x; try clear_value x)
    | apply State.p_keeps
    | apply foldl_keeps
    | lift_lets -underBinder
    | apply Keeps.ite

theorem State.takeUp_keeps {mm : Bool} {s0 s : State} (hk : Keeps mm s0 s) (new : Nat) :
    Keeps mm s0 (State.takeUp s new) := by
  refine hk.trans ?_; clear hk; unfold State.takeUp; try dsimp -zeta only [mkS_eq]
  try lift_lets -underBinder
  with_reducible repeat' first
    | assumption
    | exact Keeps.refl _
    | (intro x; refine Keeps.abs (mm := mm) (x := x) (s := s) ?_ (fun hk => ?_); rotate_left; clear_value x; rotate_right; dsimp -zeta only [x]; try clear x)
    | (intro x; try clear_value x)
    | apply State.irq_keeps
    | apply State.p_keeps
    | apply upd_keeps
    | exact Fits.refl _

theorem State.selectReserve_keeps {mm : Bool} {s0 s : State} (hk : Keeps mm s0 s) (i bank : Nat) :
    Keeps mm s0 (State.selectReserve s i bank) := by
  refine hk.trans ?_; clear hk; unfold State.selectReserve; try dsimp -zeta only [mkS_eq]
  try lift_lets -underBinder
  with_reducible repeat' first
    | assumption
    | exact Keeps.refl _
    | (intro x; refine Keeps.abs (mm := mm) (x := x) (s := s) ?_ (fun hk => ?_); rotate_left; clear_value x; rotate_right; dsimp -zeta only [x]; try clear x)
    | (intro x; try clear_value x)
    | apply State.p_keeps
    | apply State.setMapByte_keeps
    | apply State.testYield_keeps
    | apply State.fault_keeps
    | apply State.takeUp_keeps
    | apply upd_keeps
    | exact Fits.refl _
    | lift_lets -underBinder
    | apply Keeps.ite
    | split

theorem State.bankLasting_keeps {mm : Bool} {s0 s : State} (hk : Keeps mm s0 s) (bank : Nat) :
    Keeps mm s0 (State.bankLasting s bank) := by
  refine hk.trans ?_; clear hk; unfold State.bankLasting; try dsimp -zeta only [mkS_eq]
  try lift_lets -underBinder
  with_reducible repeat' first
    | assumption
    | exact Keeps.refl _
    | (intro x; refine Keeps.abs (mm := mm) (x := x) (s := s) ?_ (fun hk => ?_); rotate_left; clear_value x; rotate_right; dsimp -zeta only [x]; try clear x)
    | (intro x; try clear_value x)
    | apply State.setMapByte_keeps
    | apply State.pBit_keeps
    | apply State.fault_keeps
    | apply State.selectReserve_keeps
    | apply State.reserveSync_keeps
    | apply upd_keeps
    | exact Fits.refl _
    | lift_lets -underBinder
    | apply Keeps.ite
    | split

theorem State.sumpWord_keeps {mm : Bool} {s0 s : State} (hk : Keeps mm s0 s) (bank word : Nat) (fails rereadFails : Bool) :
    Keeps mm s0 (State.sumpWord s bank word fails rereadFails).2 := by
  refine hk.trans ?_; clear hk; unfold State.sumpWord; try dsimp -zeta only [mkS_eq]
  try lift_lets -underBinder
  with_reducible repeat' first
    | assumption
    | exact Keeps.refl _
    | (apply KeepsF.intro; intro s; (try dsimp -zeta only); try lift_lets -underBinder)
    | (intro x; refine Keeps.abs (mm := mm) (x := x) (s := s) ?_ (fun hk => ?_); rotate_left; clear_value x; rotate_right; dsimp -zeta only [x]; try clear x)
    | (intro x; try clear_value x)
    | apply State.check_keeps
    | apply State.p_keeps
    | apply State.addSat_keeps
    | apply State.irq_keeps
    | apply State.report_keeps
    | apply State.bankLasting_keeps
    | (apply Keeps.ofpair (by assumption))
    | (apply Keeps.ofpair1 (by assumption))
    | (apply Keeps.oftriple (by assumption))
    | lift_lets -underBinder
    | apply Keeps.ite
    | split

end Sys2Proof.Machine
end

