-- ==== Sys2Proof/Laws/KeepsCommit.lean ====
section
/-! SUPPORT. What the functions of Machine/Commit.lean keep: the part, the queue, the memories where they store nothing, and the
canonical form of the tables. -/

namespace Sys2Proof.Machine
theorem State.copyActive_keeps {mm : Bool} {s0 s : State} (hk : Keeps mm s0 s) (blk : Blk) (i : Nat) :
    Keeps mm s0 (State.copyActive s blk i) := by
  refine hk.trans ?_; clear hk; unfold State.copyActive; try dsimp -zeta only [mkS_eq]
  try lift_lets -underBinder
  with_reducible repeat' first
    | assumption
    | exact Keeps.refl _
    | (apply KeepsF.intro; intro s; (try dsimp -zeta only); try lift_lets -underBinder)
    | (intro x; try clear_value x)
    | apply State.wrA_keeps
    | apply foldl_keeps

theorem State.copyShadow_keeps {mm : Bool} {s0 s : State} (hk : Keeps mm s0 s) (blk : Blk) (i : Nat) :
    Keeps mm s0 (State.copyShadow s blk i) := by
  refine hk.trans ?_; clear hk; unfold State.copyShadow; try dsimp -zeta only [mkS_eq]
  try lift_lets -underBinder
  with_reducible repeat' first
    | assumption
    | exact Keeps.refl _
    | (apply KeepsF.intro; intro s; (try dsimp -zeta only); try lift_lets -underBinder)
    | (intro x; try clear_value x)
    | apply State.wr_keeps
    | apply foldl_keeps

theorem State.applyCommit_keeps {mm : Bool} {s0 s : State} (hk : Keeps mm s0 s) (blk : Blk) (i num : Nat) :
    Keeps mm s0 (State.applyCommit s blk i num) := by
  refine hk.trans ?_; clear hk; unfold State.applyCommit; try dsimp -zeta only [mkS_eq]
  try lift_lets -underBinder
  with_reducible repeat' first
    | assumption
    | exact Keeps.refl _
    | (intro x; refine Keeps.abs (mm := mm) (x := x) (s := s) ?_ (fun hk => ?_); rotate_left; clear_value x; rotate_right; dsimp -zeta only [x]; try clear x)
    | (intro x; try clear_value x)
    | apply State.addMod_keeps
    | apply State.copyActive_keeps
    | apply State.p64_keeps
    | apply State.p_keeps

theorem State.latch_keeps {mm : Bool} {s0 s : State} (hk : Keeps mm s0 s) (b : Nat) :
    Keeps mm s0 (State.latch s b) := by
  refine hk.trans ?_; clear hk; unfold State.latch; try dsimp -zeta only [mkS_eq]
  try lift_lets -underBinder
  with_reducible repeat' first
    | assumption
    | exact Keeps.refl _
    | (intro x; try clear_value x)
    | apply State.p_keeps
    | lift_lets -underBinder
    | apply Keeps.ite

theorem State.handOver_keeps {mm : Bool} {s0 s : State} (hk : Keeps mm s0 s) (blk : Blk) (i num : Nat) :
    Keeps mm s0 (State.handOver s blk i num) := by
  refine hk.trans ?_; clear hk; unfold State.handOver; try dsimp -zeta only [mkS_eq]
  try lift_lets -underBinder
  with_reducible repeat' first
    | assumption
    | exact Keeps.refl _
    | (intro x; try clear_value x)
    | apply State.applyCommit_keeps
    | lift_lets -underBinder
    | apply Keeps.ite

theorem State.applyPending_keeps {mm : Bool} {s0 s : State} (hk : Keeps mm s0 s) (blk : Blk) (i num : Nat) :
    Keeps mm s0 (State.applyPending s blk i num) := by
  refine hk.trans ?_; clear hk; unfold State.applyPending; try dsimp -zeta only [mkS_eq]
  try lift_lets -underBinder
  with_reducible repeat' first
    | assumption
    | exact Keeps.refl _
    | (intro x; try clear_value x)
    | apply State.applyCommit_keeps
    | lift_lets -underBinder
    | apply Keeps.ite

theorem State.commitAccept_keeps {mm : Bool} {s0 s : State} (hk : Keeps mm s0 s) (blk : Blk) (i : Nat) (atOnce : Bool) (num : Nat) :
    Keeps mm s0 (State.commitAccept s blk i atOnce num) := by
  refine hk.trans ?_; clear hk; unfold State.commitAccept; try dsimp -zeta only [mkS_eq]
  try lift_lets -underBinder
  with_reducible repeat' first
    | assumption
    | exact Keeps.refl _
    | (intro x; refine Keeps.abs (mm := mm) (x := x) (s := s) ?_ (fun hk => ?_); rotate_left; clear_value x; rotate_right; dsimp -zeta only [x]; try clear x)
    | (intro x; try clear_value x)
    | apply State.p_keeps
    | apply State.addMod_keeps
    | apply State.applyCommit_keeps
    | lift_lets -underBinder
    | apply Keeps.ite

end Sys2Proof.Machine
end

