-- ==== Sys2Proof/Laws/KeepsSlices.lean ====
section
/-! SUPPORT. What the functions of Machine/Slices.lean keep: the part, the queue, the memories where they store nothing, and the
canonical form of the tables. -/

namespace Sys2Proof.Machine
theorem State.engineWrite_keeps {s0 s : State} (hk : Keeps false s0 s) (a : Nat) (l : List Byte) :
    Keeps false s0 (State.engineWrite s a l).2 := by
  refine hk.trans ?_; clear hk; unfold State.engineWrite; try dsimp -zeta only [mkS_eq]
  try lift_lets -underBinder
  with_reducible repeat' first
    | assumption
    | exact Keeps.refl _
    | (intro x; try clear_value x)
    | apply State.hbmStore_keeps
    | lift_lets -underBinder
    | apply Keeps.ite
    | split

theorem State.dmaCredit_keeps {mm : Bool} {s0 s : State} (hk : Keeps mm s0 s) (src sel : Nat) :
    Keeps mm s0 (State.dmaCredit s src sel) := by
  refine hk.trans ?_; clear hk; unfold State.dmaCredit; try dsimp -zeta only [mkS_eq]
  try lift_lets -underBinder
  with_reducible repeat' first
    | assumption
    | exact Keeps.refl _
    | (apply KeepsF.intro; intro s; (try dsimp -zeta only); try lift_lets -underBinder)
    | (intro x; try clear_value x)
    | apply State.addSat_keeps
    | apply foldl_keeps
    | lift_lets -underBinder
    | apply Keeps.ite

theorem State.workEnds_keeps {mm : Bool} {s0 s : State} (hk : Keeps mm s0 s) (b : Nat) :
    Keeps mm s0 (State.workEnds s b) := by
  refine hk.trans ?_; clear hk; unfold State.workEnds; try dsimp -zeta only [mkS_eq]
  try lift_lets -underBinder
  with_reducible repeat' first
    | assumption
    | exact Keeps.refl _
    | (intro x; try clear_value x)
    | apply State.setBusy_keeps
    | lift_lets -underBinder
    | apply Keeps.ite

theorem State.setSlice_keeps {mm : Bool} {s0 s : State} (hk : Keeps mm s0 s) (p : Nat) (f : Slice → Slice) :
    Keeps mm s0 (State.setSlice s p f) := by
  refine hk.trans ?_; clear hk; unfold State.setSlice; try dsimp -zeta only [mkS_eq]
  try lift_lets -underBinder
  with_reducible repeat' first
    | assumption
    | exact Keeps.refl _
    | (intro x; try clear_value x)
    | apply upd_keeps
    | exact Fits.refl _
    | (simp only [upd_length, List.length_map, List.length_replicate]; exact Fits.refl _)

theorem State.setTapState_keeps {mm : Bool} {s0 s : State} (hk : Keeps mm s0 s) (p t : Nat) (f : TapState → TapState) :
    Keeps mm s0 (State.setTapState s p t f) := by
  refine hk.trans ?_; clear hk; unfold State.setTapState; try dsimp -zeta only [mkS_eq]
  try lift_lets -underBinder
  with_reducible repeat' first
    | assumption
    | exact Keeps.refl _
    | (intro x; try clear_value x)
    | apply State.setSlice_keeps

theorem State.setFrame_keeps {mm : Bool} {s0 s : State} (hk : Keeps mm s0 s) (p seq : Nat) (g : SliceFrame → SliceFrame) :
    Keeps mm s0 (State.setFrame s p seq g) := by
  refine hk.trans ?_; clear hk; unfold State.setFrame; try dsimp -zeta only [mkS_eq]
  try lift_lets -underBinder
  with_reducible repeat' first
    | assumption
    | exact Keeps.refl _
    | (intro x; try clear_value x)
    | apply State.setSlice_keeps

theorem State.setClr_keeps {mm : Bool} {s0 s : State} (hk : Keeps mm s0 s) (i : Nat) (f : Clr → Clr) :
    Keeps mm s0 (State.setClr s i f) := by
  refine hk.trans ?_; clear hk; unfold State.setClr; try dsimp -zeta only [mkS_eq]
  try lift_lets -underBinder
  with_reducible repeat' first
    | assumption
    | exact Keeps.refl _
    | (intro x; try clear_value x)
    | apply upd_keeps
    | exact Fits.refl _
    | (simp only [upd_length, List.length_map, List.length_replicate]; exact Fits.refl _)

theorem State.spillSync_keeps {mm : Bool} {s0 s : State} (hk : Keeps mm s0 s) (p t : Nat) :
    Keeps mm s0 (State.spillSync s p t) := by
  refine hk.trans ?_; clear hk; unfold State.spillSync; try dsimp -zeta only [mkS_eq]
  try lift_lets -underBinder
  with_reducible repeat' first
    | assumption
    | exact Keeps.refl _
    | (intro x; try clear_value x)
    | apply State.p_keeps

theorem State.tapDrop_keeps {mm : Bool} {s0 s : State} (hk : Keeps mm s0 s) (p t seq flag : Nat) (cnt : Fld) :
    Keeps mm s0 (State.tapDrop s p t seq flag cnt) := by
  refine hk.trans ?_; clear hk; unfold State.tapDrop; try dsimp -zeta only [mkS_eq]
  try lift_lets -underBinder
  with_reducible repeat' first
    | assumption
    | exact Keeps.refl _
    | (intro x; refine Keeps.abs (mm := mm) (x := x) (s := s) ?_ (fun hk => ?_); rotate_left; clear_value x; rotate_right; dsimp -zeta only [x]; try clear x)
    | (intro x; try clear_value x)
    | apply State.setFrame_keeps
    | apply State.irq_keeps
    | apply State.addSat_keeps

theorem State.spillPut_keeps {s0 s : State} (hk : Keeps false s0 s) (p t seq spill addr : Nat) (l : List Byte) :
    Keeps false s0 (State.spillPut s p t seq spill addr l) := by
  refine hk.trans ?_; clear hk; unfold State.spillPut; try dsimp -zeta only [mkS_eq]
  try lift_lets -underBinder
  with_reducible repeat' first
    | assumption
    | exact Keeps.refl _
    | (intro x; refine Keeps.abs (mm := false) (x := x) (s := s) ?_ (fun hk => ?_); rotate_left; clear_value x; rotate_right; dsimp -zeta only [x]; try clear x)
    | (intro x; try clear_value x)
    | apply State.irq_keeps
    | apply State.hbmSpan_keeps
    | apply State.setTapState_keeps
    | apply State.spillSync_keeps
    | apply State.tapDrop_keeps
    | apply upd_keeps
    | exact Fits.refl _
    | lift_lets -underBinder
    | apply Keeps.ite

theorem State.tapWrite_keeps {s0 s : State} (hk : Keeps false s0 s) (p t seq : Nat) (ts : TapSet) (addr : Nat) (l : List Byte) :
    Keeps false s0 (State.tapWrite s p t seq ts addr l) := by
  refine hk.trans ?_; clear hk; unfold State.tapWrite; try dsimp -zeta only [mkS_eq]
  try lift_lets -underBinder
  with_reducible repeat' first
    | assumption
    | exact Keeps.refl _
    | (intro x; refine Keeps.abs (mm := false) (x := x.2) (s := s) ?_ (fun hk => ?_); rotate_left; clear_value x; rotate_right; dsimp -zeta only [x]; try clear x)
    | (intro x; try clear_value x)
    | apply State.spillPut_keeps
    | apply State.masterWrite_keeps
    | apply State.tapDrop_keeps
    | lift_lets -underBinder
    | apply Keeps.ite

theorem State.spillDrain_keeps {s0 s : State} (hk : Keeps false s0 s) (p t : Nat) (n : Nat) :
    Keeps false s0 (State.spillDrain s p t n) := by
  induction n generalizing s0 s  with
  | zero =>
    rw [State.spillDrain.eq_1]; refine hk.trans ?_; clear hk; try dsimp -zeta only [mkS_eq]
    try lift_lets -underBinder
    with_reducible repeat' first
      | assumption
      | exact Keeps.refl _
  | succ a ih =>
    rw [State.spillDrain.eq_2]; refine hk.trans ?_; clear hk; try dsimp -zeta only [mkS_eq]
    try lift_lets -underBinder
    with_reducible repeat' first
      | assumption
      | exact Keeps.refl _
      | with_reducible apply ih
      | (intro x; refine Keeps.abs (mm := false) (x := x) (s := s) ?_ (fun hk => ?_); rotate_left; clear_value x; rotate_right; dsimp -zeta only [x]; try clear x)
      | (intro x; refine Keeps.abs (mm := false) (x := x.2) (s := s) ?_ (fun hk => ?_); rotate_left; clear_value x; rotate_right; dsimp -zeta only [x]; try clear x)
      | (intro x; try clear_value x)
      | apply State.spillSync_keeps
      | apply State.masterWrite_keeps
      | apply State.setTapState_keeps
      | apply State.tapDrop_keeps
      | apply upd_keeps
      | exact Fits.refl _
      | (apply Keeps.ofpair (by assumption))
      | (apply Keeps.ofpair1 (by assumption))
      | (apply Keeps.oftriple (by assumption))
      | lift_lets -underBinder
      | apply Keeps.ite
      | split

theorem State.tapRecorded_keeps {mm : Bool} {s0 s : State} (hk : Keeps mm s0 s) (tap fseq : Nat) (buf : Option Nat) :
    Keeps mm s0 (State.tapRecorded s tap fseq buf) := by
  refine hk.trans ?_; clear hk; unfold State.tapRecorded; try dsimp -zeta only [mkS_eq]
  try lift_lets -underBinder
  with_reducible repeat' first
    | assumption
    | exact Keeps.refl _
    | (intro x; try clear_value x)
    | apply upd_keeps
    | exact Fits.refl _

theorem State.dspRepoint_keeps {mm : Bool} {s0 s : State} (hk : Keeps mm s0 s) (p : Nat) :
    Keeps mm s0 (State.dspRepoint s p) := by
  refine hk.trans ?_; clear hk; unfold State.dspRepoint; try dsimp -zeta only [mkS_eq]
  try lift_lets -underBinder
  with_reducible repeat' first
    | assumption
    | exact Keeps.refl _
    | (apply KeepsF.intro; intro s; (try dsimp -zeta only); try lift_lets -underBinder)
    | (intro x; refine Keeps.abs (mm := mm) (x := x) (s := s) ?_ (fun hk => ?_); rotate_left; clear_value x; rotate_right; dsimp -zeta only [x]; try clear x)
    | (intro x; try clear_value x)
    | apply State.p_keeps
    | apply State.pa_keeps
    | apply forN_keeps
    | lift_lets -underBinder
    | apply Keeps.ite

theorem State.sndRepoint_keeps {mm : Bool} {s0 s : State} (hk : Keeps mm s0 s) (p : Nat) :
    Keeps mm s0 (State.sndRepoint s p) := by
  refine hk.trans ?_; clear hk; unfold State.sndRepoint; try dsimp -zeta only [mkS_eq]
  try lift_lets -underBinder
  with_reducible repeat' first
    | assumption
    | exact Keeps.refl _
    | (apply KeepsF.intro; intro s; (try dsimp -zeta only); try lift_lets -underBinder)
    | (intro x; refine Keeps.abs (mm := mm) (x := x) (s := s) ?_ (fun hk => ?_); rotate_left; clear_value x; rotate_right; dsimp -zeta only [x]; try clear x)
    | (intro x; try clear_value x)
    | apply State.dspRepoint_keeps
    | apply State.p_keeps
    | apply forN_keeps
    | apply upd_keeps
    | exact Fits.refl _
    | (simp only [upd_length, List.length_map, List.length_replicate]; exact Fits.refl _)
    | lift_lets -underBinder
    | apply Keeps.ite

theorem State.tapRecords_keeps {s0 s : State} (hk : Keeps false s0 s) (p t : Nat) (l : List SliceFrame) :
    Keeps false s0 (State.tapRecords s p t l) := by
  induction l generalizing s0 s  with
  | nil =>
    rw [State.tapRecords.eq_1]; refine hk.trans ?_; clear hk; try dsimp -zeta only [mkS_eq]
    try lift_lets -underBinder
    with_reducible repeat' first
      | assumption
      | exact Keeps.refl _
  | cons a l ih =>
    rw [State.tapRecords.eq_2]; refine hk.trans ?_; clear hk; try dsimp -zeta only [mkS_eq]
    try lift_lets -underBinder
    with_reducible repeat' first
      | assumption
      | exact Keeps.refl _
      | with_reducible apply ih
      | (intro x; refine Keeps.abs (mm := false) (x := x) (s := s) ?_ (fun hk => ?_); rotate_left; clear_value x; rotate_right; dsimp -zeta only [x]; try clear x)
      | (intro x; refine Keeps.abs (mm := false) (x := x.2) (s := s) ?_ (fun hk => ?_); rotate_left; clear_value x; rotate_right; dsimp -zeta only [x]; try clear x)
      | (intro x; try clear_value x)
      | apply State.masterWrite_keeps
      | apply State.setTapState_keeps
      | apply State.setFrame_keeps
      | apply State.count_keeps
      | apply State.tapRecorded_keeps
      | apply State.irq_keeps
      | apply State.addMod_keeps
      | apply upd_keeps
      | exact Fits.refl _
      | (apply Keeps.ofpair (by assumption))
      | (apply Keeps.ofpair1 (by assumption))
      | (apply Keeps.oftriple (by assumption))
      | lift_lets -underBinder
      | apply Keeps.ite

theorem State.sliceTidy_keeps {s0 s : State} (hk : Keeps false s0 s) (p : Nat) :
    Keeps false s0 (State.sliceTidy s p) := by
  refine hk.trans ?_; clear hk; unfold State.sliceTidy; try dsimp -zeta only [mkS_eq]
  try lift_lets -underBinder
  with_reducible repeat' first
    | assumption
    | exact Keeps.refl _
    | (apply KeepsF.intro; intro s; (try dsimp -zeta only); try lift_lets -underBinder)
    | (intro x; refine Keeps.abs (mm := false) (x := x) (s := s) ?_ (fun hk => ?_); rotate_left; clear_value x; rotate_right; dsimp -zeta only [x]; try clear x)
    | (intro x; try clear_value x)
    | apply State.tapRecords_keeps
    | apply State.setSlice_keeps
    | apply State.workEnds_keeps
    | apply foldl_keeps
    | apply upd_keeps
    | exact Fits.refl _
    | lift_lets -underBinder
    | apply Keeps.ite

theorem State.sliceShed_keeps {mm : Bool} {s0 s : State} (hk : Keeps mm s0 s) (p : Nat) :
    Keeps mm s0 (State.sliceShed s p) := by
  refine hk.trans ?_; clear hk; unfold State.sliceShed; try dsimp -zeta only [mkS_eq]
  try lift_lets -underBinder
  with_reducible repeat' first
    | assumption
    | exact Keeps.refl _
    | (intro x; refine Keeps.abs (mm := mm) (x := x) (s := s) ?_ (fun hk => ?_); rotate_left; clear_value x; rotate_right; dsimp -zeta only [x]; try clear x)
    | (intro x; try clear_value x)
    | apply State.setSlice_keeps
    | apply State.irq_keeps
    | apply State.p_keeps
    | apply upd_keeps
    | exact Fits.refl _
    | lift_lets -underBinder
    | apply Keeps.ite

theorem State.sliceStart_keeps {mm : Bool} {s0 s : State} (hk : Keeps mm s0 s) (p : Nat) (fr : Frame) (stopped : Bool) :
    Keeps mm s0 (State.sliceStart s p fr stopped) := by
  refine hk.trans ?_; clear hk; unfold State.sliceStart; try dsimp -zeta only [mkS_eq]
  try lift_lets -underBinder
  with_reducible repeat' first
    | assumption
    | exact Keeps.refl _
    | (apply KeepsF.intro; intro s; (try dsimp -zeta only); try lift_lets -underBinder)
    | (intro x; refine Keeps.abs (mm := mm) (x := x) (s := s) ?_ (fun hk => ?_); rotate_left; clear_value x; rotate_right; dsimp -zeta only [x]; try clear x)
    | (intro x; try clear_value x)
    | apply State.sliceShed_keeps
    | apply State.addSat_keeps
    | apply State.setSlice_keeps
    | apply State.p_keeps
    | apply State.setBusy_keeps
    | apply foldl_keeps
    | apply upd_keeps
    | exact Fits.refl _
    | lift_lets -underBinder
    | apply Keeps.ite

theorem State.takeBuffers_keeps {mm : Bool} {s0 s : State} (hk : Keeps mm s0 s) (p seq : Nat) :
    Keeps mm s0 (State.takeBuffers s p seq) := by
  refine hk.trans ?_; clear hk; unfold State.takeBuffers; try dsimp -zeta only [mkS_eq]
  try lift_lets -underBinder
  with_reducible repeat' first
    | assumption
    | exact Keeps.refl _
    | (apply KeepsF.intro; intro s; (try dsimp -zeta only); try lift_lets -underBinder)
    | (intro x; refine Keeps.abs (mm := mm) (x := x) (s := s) ?_ (fun hk => ?_); rotate_left; clear_value x; rotate_right; dsimp -zeta only [x]; try clear x)
    | (intro x; try clear_value x)
    | apply State.tapDrop_keeps
    | apply State.setTapState_keeps
    | apply State.p_keeps
    | apply State.setFrame_keeps
    | apply foldl_keeps
    | apply upd_keeps
    | exact Fits.refl _
    | lift_lets -underBinder
    | apply Keeps.ite
    | split

theorem State.sceneLine_keeps {s0 s : State} (hk : Keeps false s0 s) (p : Nat) (f : SliceFrame) (n : Nat) :
    Keeps false s0 (State.sceneLine s p f n).2 := by
  refine hk.trans ?_; clear hk; unfold State.sceneLine; try dsimp -zeta only [mkS_eq]
  try lift_lets -underBinder
  with_reducible repeat' first
    | assumption
    | exact Keeps.refl _
    | (intro x; try clear_value x)
    | apply State.hbmCount_keeps
    | apply State.fault_keeps
    | apply State.engineWrite_keeps
    | apply upd_keeps
    | exact Fits.refl _
    | (apply Keeps.ofpair (by assumption))
    | (apply Keeps.ofpair1 (by assumption))
    | (apply Keeps.oftriple (by assumption))
    | lift_lets -underBinder
    | apply Keeps.ite
    | split

theorem State.sceneFill_keeps {s0 s : State} (hk : Keeps false s0 s) (p seq : Nat) (n : Nat) :
    Keeps false s0 (State.sceneFill s p seq n) := by
  induction n generalizing s0 s  with
  | zero =>
    rw [State.sceneFill.eq_1]; refine hk.trans ?_; clear hk; try dsimp -zeta only [mkS_eq]
    try lift_lets -underBinder
    with_reducible repeat' first
      | assumption
      | exact Keeps.refl _
  | succ a ih =>
    rw [State.sceneFill.eq_2]; refine hk.trans ?_; clear hk; try dsimp -zeta only [mkS_eq]
    try lift_lets -underBinder
    with_reducible repeat' first
      | assumption
      | exact Keeps.refl _
      | with_reducible apply ih
      | (intro x; try clear_value x)
      | apply State.sceneLine_keeps
      | apply State.setFrame_keeps
      | apply upd_keeps
      | exact Fits.refl _
      | (apply Keeps.ofpair (by assumption))
      | (apply Keeps.ofpair1 (by assumption))
      | (apply Keeps.oftriple (by assumption))
      | lift_lets -underBinder
      | apply Keeps.ite
      | split

theorem State.sliceLine_keeps {s0 s : State} (hk : Keeps false s0 s) (p seq : Nat) (px : List Nat) (full : Bool) :
    Keeps false s0 (State.sliceLine s p seq px full) := by
  refine hk.trans ?_; clear hk; unfold State.sliceLine; try dsimp -zeta only [mkS_eq]
  try lift_lets -underBinder
  with_reducible repeat' first
    | assumption
    | exact Keeps.refl _
    | (intro x; try clear_value x)
    | apply State.takeBuffers_keeps
    | apply State.setFrame_keeps
    | apply State.count_keeps
    | apply State.irq_keeps
    | apply State.addSat_keeps
    | apply State.sceneFill_keeps
    | apply upd_keeps
    | exact Fits.refl _
    | lift_lets -underBinder
    | apply Keeps.ite
    | split

theorem State.sliceClose_keeps {s0 s : State} (hk : Keeps false s0 s) (p : Nat) (fr : Frame) :
    Keeps false s0 (State.sliceClose s p fr) := by
  refine hk.trans ?_; clear hk; unfold State.sliceClose; try dsimp -zeta only [mkS_eq]
  try lift_lets -underBinder
  with_reducible repeat' first
    | assumption
    | exact Keeps.refl _
    | (intro x; try clear_value x)
    | apply State.takeBuffers_keeps
    | apply State.setFrame_keeps
    | apply State.sliceTidy_keeps
    | apply State.sceneFill_keeps
    | apply upd_keeps
    | exact Fits.refl _
    | lift_lets -underBinder
    | apply Keeps.ite
    | split

theorem State.releaseLine_keeps {s0 s : State} (hk : Keeps false s0 s) (p t : Nat) :
    Keeps false s0 (State.releaseLine s p t) := by
  refine hk.trans ?_; clear hk; unfold State.releaseLine; try dsimp -zeta only [mkS_eq]
  try lift_lets -underBinder
  with_reducible repeat' first
    | assumption
    | exact Keeps.refl _
    | (apply KeepsF.intro; intro s; (try dsimp -zeta only); try lift_lets -underBinder)
    | (intro x; refine Keeps.abs (mm := false) (x := x) (s := s) ?_ (fun hk => ?_); rotate_left; clear_value x; rotate_right; dsimp -zeta only [x]; try clear x)
    | (intro x; try clear_value x)
    | apply State.addSat_keeps
    | apply State.tapWrite_keeps
    | apply State.count_keeps
    | apply State.setFrame_keeps
    | apply State.p_keeps
    | apply State.sliceTidy_keeps
    | apply State.dmaCredit_keeps
    | apply foldl_keeps
    | apply upd_keeps
    | exact Fits.refl _
    | lift_lets -underBinder
    | apply Keeps.ite
    | split

theorem State.retireSpare_keeps {mm : Bool} {s0 s : State} (hk : Keeps mm s0 s) :
    Keeps mm s0 (State.retireSpare s) := by
  refine hk.trans ?_; clear hk; unfold State.retireSpare; try dsimp -zeta only [mkS_eq]
  try lift_lets -underBinder
  with_reducible repeat' first
    | assumption
    | exact Keeps.refl _
    | (intro x; refine Keeps.abs (mm := mm) (x := x) (s := s) ?_ (fun hk => ?_); rotate_left; clear_value x; rotate_right; dsimp -zeta only [x]; try clear x)
    | (intro x; try clear_value x)
    | apply State.p_keeps
    | apply State.irq_keeps
    | apply State.fault_keeps

theorem State.sliceLasting_keeps {mm : Bool} {s0 s : State} (hk : Keeps mm s0 s) (p : Nat) :
    Keeps mm s0 (State.sliceLasting s p) := by
  refine hk.trans ?_; clear hk; unfold State.sliceLasting; try dsimp -zeta only [mkS_eq]
  try lift_lets -underBinder
  with_reducible repeat' first
    | assumption
    | exact Keeps.refl _
    | (intro x; try clear_value x)
    | apply State.retireSpare_keeps
    | apply State.p_keeps
    | apply State.fault_keeps
    | lift_lets -underBinder
    | apply Keeps.ite

theorem State.markLines_keeps {mm : Bool} {s0 s : State} (hk : Keeps mm s0 s) (q : Recompute) (good : Bool) :
    Keeps mm s0 (State.markLines s q good) := by
  refine hk.trans ?_; clear hk; unfold State.markLines; try dsimp -zeta only [mkS_eq]
  try lift_lets -underBinder
  with_reducible repeat' first
    | assumption
    | exact Keeps.refl _
    | (intro x; refine Keeps.abs (mm := mm) (x := x) (s := s) ?_ (fun hk => ?_); rotate_left; clear_value x; rotate_right; dsimp -zeta only [x]; try clear x)
    | (intro x; try clear_value x)
    | apply State.setFrame_keeps
    | apply State.count_keeps
    | apply State.addSat_keeps
    | apply State.irq_keeps
    | apply foldl_keeps
    | apply upd_keeps
    | exact Fits.refl _
    | lift_lets -underBinder
    | apply Keeps.ite
    | split

theorem State.recomputeSync_keeps {mm : Bool} {s0 s : State} (hk : Keeps mm s0 s) :
    Keeps mm s0 (State.recomputeSync s) := by
  refine hk.trans ?_; clear hk; unfold State.recomputeSync; try dsimp -zeta only [mkS_eq]
  try lift_lets -underBinder
  with_reducible repeat' first
    | assumption
    | exact Keeps.refl _
    | (intro x; try clear_value x)
    | apply State.p_keeps

theorem State.sliceEvent_keeps {mm : Bool} {s0 s : State} (hk : Keeps mm s0 s) (q : Recompute) (patrol lasting : Bool) :
    Keeps mm s0 (State.sliceEvent s q patrol lasting) := by
  refine hk.trans ?_; clear hk; unfold State.sliceEvent; try dsimp -zeta only [mkS_eq]
  try lift_lets -underBinder
  with_reducible repeat' first
    | assumption
    | exact Keeps.refl _
    | (apply KeepsF.intro; intro s; (try dsimp -zeta only); try lift_lets -underBinder)
    | (intro x; try clear_value x)
    | apply State.report_keeps
    | apply State.sliceLasting_keeps
    | lift_lets -underBinder
    | apply Keeps.ite

theorem State.residueFail_keeps {mm : Bool} {s0 s : State} (hk : Keeps mm s0 s) (q : Recompute) :
    Keeps mm s0 (State.residueFail s q) := by
  refine hk.trans ?_; clear hk; unfold State.residueFail; try dsimp -zeta only [mkS_eq]
  try lift_lets -underBinder
  with_reducible repeat' first
    | assumption
    | exact Keeps.refl _
    | (intro x; refine Keeps.abs (mm := mm) (x := x) (s := s) ?_ (fun hk => ?_); rotate_left; clear_value x; rotate_right; dsimp -zeta only [x]; try clear x)
    | (intro x; try clear_value x)
    | apply State.p_keeps
    | apply State.irq_keeps
    | apply State.p64_keeps
    | apply State.recomputeSync_keeps
    | apply State.testYield_keeps
    | apply State.sliceEvent_keeps
    | apply State.markLines_keeps
    | apply upd_keeps
    | exact Fits.refl _
    | lift_lets -underBinder
    | apply Keeps.ite

theorem State.recomputeDone_keeps {mm : Bool} {s0 s : State} (hk : Keeps mm s0 s) (fails : Bool) :
    Keeps mm s0 (State.recomputeDone s fails) := by
  refine hk.trans ?_; clear hk; unfold State.recomputeDone; try dsimp -zeta only [mkS_eq]
  try lift_lets -underBinder
  with_reducible repeat' first
    | assumption
    | exact Keeps.refl _
    | (apply KeepsF.intro; intro s; (try dsimp -zeta only); try lift_lets -underBinder)
    | (intro x; refine Keeps.abs (mm := mm) (x := x) (s := s) ?_ (fun hk => ?_); rotate_left; clear_value x; rotate_right; dsimp -zeta only [x]; try clear x)
    | (intro x; try clear_value x)
    | apply State.recomputeSync_keeps
    | apply State.report_keeps
    | apply State.retireSpare_keeps
    | apply State.sliceEvent_keeps
    | apply State.markLines_keeps
    | apply State.addSat_keeps
    | apply upd_keeps
    | exact Fits.refl _
    | lift_lets -underBinder
    | apply Keeps.ite
    | split

theorem State.recomputeLate_keeps {mm : Bool} {s0 s : State} (hk : Keeps mm s0 s) :
    Keeps mm s0 (State.recomputeLate s) := by
  refine hk.trans ?_; clear hk; unfold State.recomputeLate; try dsimp -zeta only [mkS_eq]
  try lift_lets -underBinder
  with_reducible repeat' first
    | assumption
    | exact Keeps.refl _
    | (intro x; try clear_value x)
    | apply State.sliceEvent_keeps
    | apply State.markLines_keeps
    | apply State.recomputeSync_keeps
    | apply upd_keeps
    | exact Fits.refl _
    | lift_lets -underBinder
    | apply Keeps.ite
    | split

theorem State.lineChecks_keeps {mm : Bool} {s0 s : State} (hk : Keeps mm s0 s) (p seq lo hi : Nat) (fail : Option ResFail) (line : Nat) (tap : Option Nat) :
    Keeps mm s0 (State.lineChecks s p seq lo hi fail line tap) := by
  refine hk.trans ?_; clear hk; unfold State.lineChecks; try dsimp -zeta only [mkS_eq]
  try lift_lets -underBinder
  repeat' first
    | with_reducible assumption
    | with_reducible exact Keeps.refl _
    | (intro x; refine Keeps.abs (mm := mm) (x := x) (s := s) ?_ (fun hk => ?_); dsimp -zeta only [x]; try clear x)
    | (intro x; refine Keeps.abs (mm := mm) (x := x.2) (s := s) ?_ (fun hk => ?_); rotate_left; clear_value x; rotate_right; dsimp -zeta only [x]; try clear x)
    | (intro x; try clear_value x)
    | with_reducible apply State.check_keeps
    | with_reducible apply State.residueFail_keeps
    | with_reducible apply upd_keeps
    | with_reducible exact Fits.refl _
    | with_reducible (apply Keeps.ofpair (by assumption))
    | with_reducible (apply Keeps.ofpair1 (by assumption))
    | with_reducible (apply Keeps.oftriple (by assumption))
    | lift_lets -underBinder
    | with_reducible apply Keeps.ite
    | split

theorem State.patrol_keeps {mm : Bool} {s0 s : State} (hk : Keeps mm s0 s) (fail : Option ResFail) (repeats : Bool) :
    Keeps mm s0 (State.patrol s fail repeats) := by
  refine hk.trans ?_; clear hk; unfold State.patrol; try dsimp -zeta only [mkS_eq]
  try lift_lets -underBinder
  with_reducible repeat' first
    | assumption
    | exact Keeps.refl _
    | (apply KeepsF.intro; intro s; (try dsimp -zeta only); try lift_lets -underBinder)
    | (intro x; try clear_value x)
    | apply State.p_keeps
    | apply State.check_keeps
    | apply State.irq_keeps
    | apply State.report_keeps
    | apply State.sliceLasting_keeps
    | apply upd_keeps
    | exact Fits.refl _
    | (apply Keeps.ofpair (by assumption))
    | (apply Keeps.ofpair1 (by assumption))
    | (apply Keeps.oftriple (by assumption))
    | lift_lets -underBinder
    | apply Keeps.ite
    | split

theorem State.tblLoadStart_keeps {mm : Bool} {s0 s : State} (hk : Keeps mm s0 s) (p v : Nat) :
    Keeps mm s0 (State.tblLoadStart s p v) := by
  refine hk.trans ?_; clear hk; unfold State.tblLoadStart; try dsimp -zeta only [mkS_eq]
  try lift_lets -underBinder
  with_reducible repeat' first
    | assumption
    | exact Keeps.refl _
    | (intro x; try clear_value x)
    | apply State.refuse4_keeps
    | apply State.setSlice_keeps
    | apply State.p_keeps
    | apply upd_keeps
    | exact Fits.refl _
    | lift_lets -underBinder
    | apply Keeps.ite

theorem State.tblLoadEnd_keeps {mm : Bool} {s0 s : State} (hk : Keeps mm s0 s) (p : Nat) :
    Keeps mm s0 (State.tblLoadEnd s p) := by
  refine hk.trans ?_; clear hk; unfold State.tblLoadEnd; try dsimp -zeta only [mkS_eq]
  try lift_lets -underBinder
  with_reducible repeat' first
    | assumption
    | exact Keeps.refl _
    | (intro x; refine Keeps.abs (mm := mm) (x := x) (s := s) ?_ (fun hk => ?_); rotate_left; clear_value x; rotate_right; dsimp -zeta only [x]; try clear x)
    | ((apply KeepsF.ap (by assumption)))
    | (intro x; refine KeepsF2.abs (mm := mm) (x := x) ?_ (fun hk => ?_); rotate_left; clear_value x; rotate_right; dsimp -zeta only [x]; try clear x)
    | (apply KeepsF2.intro; intro n s; (try dsimp -zeta only); try lift_lets -underBinder)
    | ((apply KeepsF2.ap (by assumption)))
    | ((apply KeepsF3.ap (by assumption)))
    | (intro x; try clear_value x)
    | apply State.p_keeps
    | apply State.irq_keeps
    | apply State.fault_keeps
    | apply State.setSlice_keeps
    | apply upd_keeps
    | exact Fits.refl _
    | lift_lets -underBinder
    | apply Keeps.ite
    | split

theorem State.applySlice_keeps {mm : Bool} {s0 s : State} (hk : Keeps mm s0 s) (p num : Nat) :
    Keeps mm s0 (State.applySlice s p num) := by
  refine hk.trans ?_; clear hk; unfold State.applySlice; try dsimp -zeta only [mkS_eq]
  try lift_lets -underBinder
  with_reducible repeat' first
    | assumption
    | exact Keeps.refl _
    | (intro x; refine Keeps.abs (mm := mm) (x := x) (s := s) ?_ (fun hk => ?_); rotate_left; clear_value x; rotate_right; dsimp -zeta only [x]; try clear x)
    | (intro x; try clear_value x)
    | apply State.applyCommit_keeps
    | apply State.p_keeps
    | apply State.setSlice_keeps
    | apply State.pa_keeps
    | apply upd_keeps
    | exact Fits.refl _
    | lift_lets -underBinder
    | apply Keeps.ite

theorem State.tapReturn_keeps {mm : Bool} {s0 s : State} (hk : Keeps mm s0 s) (p t v : Nat) :
    Keeps mm s0 (State.tapReturn s p t v) := by
  refine hk.trans ?_; clear hk; unfold State.tapReturn; try dsimp -zeta only [mkS_eq]
  try lift_lets -underBinder
  with_reducible repeat' first
    | assumption
    | exact Keeps.refl _
    | (intro x; try clear_value x)
    | apply State.badWrite_keeps
    | apply State.p_keeps
    | lift_lets -underBinder
    | apply Keeps.ite

theorem execRecomputeDone_keeps {mm : Bool} {s0 s : State} (hk : Keeps mm s0 s) (fails : Bool) :
    Keeps mm s0 (after s (execRecomputeDone fails s)) := by
  refine hk.trans ?_; clear hk; unfold execRecomputeDone; try dsimp -zeta only [mkS_eq]
  try lift_lets -underBinder
  with_reducible repeat' first
    | assumption
    | exact Keeps.refl _
    | (intro x; try clear_value x)
    | apply after_next_keeps
    | apply State.recomputeDone_keeps

theorem execRecomputeDeadline_keeps {mm : Bool} {s0 s : State} (hk : Keeps mm s0 s) :
    Keeps mm s0 (after s (execRecomputeDeadline s)) := by
  refine hk.trans ?_; clear hk; unfold execRecomputeDeadline; try dsimp -zeta only [mkS_eq]
  try lift_lets -underBinder
  with_reducible repeat' first
    | assumption
    | exact Keeps.refl _
    | (intro x; try clear_value x)
    | apply after_next_keeps
    | apply State.recomputeLate_keeps

theorem execPatrolRecompute_keeps {mm : Bool} {s0 s : State} (hk : Keeps mm s0 s) (fail : Option ResFail) (repeats : Bool) :
    Keeps mm s0 (after s (execPatrolRecompute fail repeats s)) := by
  refine hk.trans ?_; clear hk; unfold execPatrolRecompute; try dsimp -zeta only [mkS_eq]
  try lift_lets -underBinder
  with_reducible repeat' first
    | assumption
    | exact Keeps.refl _
    | (intro x; try clear_value x)
    | apply after_next_keeps
    | apply State.patrol_keeps
    | lift_lets -underBinder
    | apply Keeps.ite

theorem execLineRelease_keeps {s0 s : State} (hk : Keeps false s0 s) (p : Fin 5) (t : Fin 4) (fail : Option ResFail) :
    Keeps false s0 (after s (execLineRelease p t fail s)) := by
  refine hk.trans ?_; clear hk; unfold execLineRelease; try dsimp -zeta only [mkS_eq]
  try lift_lets -underBinder
  with_reducible repeat' first
    | assumption
    | exact Keeps.refl _
    | (intro x; try clear_value x)
    | apply after_next_keeps
    | apply State.releaseLine_keeps
    | apply State.lineChecks_keeps
    | apply upd_keeps
    | exact Fits.refl _
    | lift_lets -underBinder
    | apply Keeps.ite
    | split

theorem execTblLoadStart_keeps {mm : Bool} {s0 s : State} (hk : Keeps mm s0 s) (p : Fin 5) :
    Keeps mm s0 (after s (execTblLoadStart p s)) := by
  refine hk.trans ?_; clear hk; unfold execTblLoadStart; try dsimp -zeta only [mkS_eq]
  try lift_lets -underBinder
  with_reducible repeat' first
    | assumption
    | exact Keeps.refl _
    | (apply KeepsF.intro; intro s; (try dsimp -zeta only); try lift_lets -underBinder)
    | (intro x; try clear_value x)
    | apply after_next_keeps
    | apply State.hostReg_keeps
    | apply State.tblLoadStart_keeps

theorem execTblLoadBegin_keeps {mm : Bool} {s0 s : State} (hk : Keeps mm s0 s) (p : Fin 5) :
    Keeps mm s0 (after s (execTblLoadBegin p s)) := by
  refine hk.trans ?_; clear hk; unfold execTblLoadBegin; try dsimp -zeta only [mkS_eq]
  try lift_lets -underBinder
  with_reducible repeat' first
    | assumption
    | exact Keeps.refl _
    | (intro x; try clear_value x)
    | apply after_next_keeps
    | apply State.setSlice_keeps
    | apply upd_keeps
    | exact Fits.refl _
    | lift_lets -underBinder
    | apply Keeps.ite

theorem execTblLoadEnd_keeps {mm : Bool} {s0 s : State} (hk : Keeps mm s0 s) (p : Fin 5) :
    Keeps mm s0 (after s (execTblLoadEnd p s)) := by
  refine hk.trans ?_; clear hk; unfold execTblLoadEnd; try dsimp -zeta only [mkS_eq]
  try lift_lets -underBinder
  with_reducible repeat' first
    | assumption
    | exact Keeps.refl _
    | (intro x; try clear_value x)
    | apply after_next_keeps
    | apply State.tblLoadEnd_keeps
    | lift_lets -underBinder
    | apply Keeps.ite

theorem execTapBufferReturn_keeps {mm : Bool} {s0 s : State} (hk : Keeps mm s0 s) (p : Fin 5) (t : Fin 4) (v : Word) :
    Keeps mm s0 (after s (execTapBufferReturn p t v s)) := by
  refine hk.trans ?_; clear hk; unfold execTapBufferReturn; try dsimp -zeta only [mkS_eq]
  try lift_lets -underBinder
  with_reducible repeat' first
    | assumption
    | exact Keeps.refl _
    | (apply KeepsF.intro; intro s; (try dsimp -zeta only); try lift_lets -underBinder)
    | (intro x; try clear_value x)
    | apply after_next_keeps
    | apply State.hostReg_keeps
    | apply State.tapReturn_keeps

end Sys2Proof.Machine
end

