-- ==== Sys2Proof/Laws/KeepsChecks.lean ====
section
/-! SUPPORT. What the functions of Machine/Checks.lean keep: the part, the queue, the memories where they store nothing, and the
canonical form of the tables. -/

namespace Sys2Proof.Machine
theorem State.sliceLatchCheck_keeps {mm : Bool} {s0 s : State} (hk : Keeps mm s0 s) (p w h : Nat) :
    Keeps mm s0 (State.sliceLatchCheck s p w h) := by
  refine hk.trans ?_; clear hk; unfold State.sliceLatchCheck; try dsimp -zeta only [mkS_eq]
  try lift_lets -underBinder
  with_reducible repeat' first
    | assumption
    | exact Keeps.refl _
    | (intro x; try clear_value x)
    | apply State.irq_keeps
    | apply State.p_keeps
    | lift_lets -underBinder
    | apply Keeps.ite

theorem State.sliceSinks_keeps {mm : Bool} {s0 s : State} (hk : Keeps mm s0 s) (p w h : Nat) :
    Keeps mm s0 (State.sliceSinks s p w h) := by
  refine hk.trans ?_; clear hk; unfold State.sliceSinks; try dsimp -zeta only [mkS_eq]
  try lift_lets -underBinder
  with_reducible repeat' first
    | assumption
    | exact Keeps.refl _
    | (apply KeepsF.intro; intro s; (try dsimp -zeta only); try lift_lets -underBinder)
    | (intro x; try clear_value x)
    | apply State.pa_keeps
    | apply foldl_keeps
    | lift_lets -underBinder
    | apply Keeps.ite

theorem State.clrLatchCheck_keeps {mm : Bool} {s0 s : State} (hk : Keeps mm s0 s) (i : Nat) :
    Keeps mm s0 (State.clrLatchCheck s i) := by
  refine hk.trans ?_; clear hk; unfold State.clrLatchCheck; try dsimp -zeta only [mkS_eq]
  try lift_lets -underBinder
  with_reducible repeat' first
    | assumption
    | exact Keeps.refl _
    | (intro x; try clear_value x)
    | apply State.irq_keeps
    | apply State.p_keeps
    | lift_lets -underBinder
    | apply Keeps.ite

theorem State.applyClr_keeps {mm : Bool} {s0 s : State} (hk : Keeps mm s0 s) (i num : Nat) :
    Keeps mm s0 (State.applyClr s i num) := by
  refine hk.trans ?_; clear hk; unfold State.applyClr; try dsimp -zeta only [mkS_eq]
  try lift_lets -underBinder
  with_reducible repeat' first
    | assumption
    | exact Keeps.refl _
    | (intro x; refine Keeps.abs (mm := mm) (x := x) (s := s) ?_ (fun hk => ?_); rotate_left; clear_value x; rotate_right; dsimp -zeta only [x]; try clear x)
    | (intro x; try clear_value x)
    | apply State.applyCommit_keeps
    | apply State.setClr_keeps
    | apply State.fault_keeps
    | apply State.p_keeps
    | apply upd_keeps
    | exact Fits.refl _
    | lift_lets -underBinder
    | apply Keeps.ite

theorem State.clrBoundary_keeps {mm : Bool} {s0 s : State} (hk : Keeps mm s0 s) (i : Nat) :
    Keeps mm s0 (State.clrBoundary s i) := by
  refine hk.trans ?_; clear hk; unfold State.clrBoundary; try dsimp -zeta only [mkS_eq]
  try lift_lets -underBinder
  with_reducible repeat' first
    | assumption
    | exact Keeps.refl _
    | (intro x; try clear_value x)
    | apply State.setClr_keeps

end Sys2Proof.Machine
end

