-- ==== Sys2Proof/Laws/KeepsClr.lean ====
section
/-! SUPPORT. What the functions of Machine/Clr.lean keep: the part, the queue, the memories where they store nothing, and the
canonical form of the tables. -/

namespace Sys2Proof.Machine
theorem State.clrLoad_keeps {mm : Bool} {s0 s : State} (hk : Keeps mm s0 s) (i v : Nat) :
    Keeps mm s0 (State.clrLoad s i v) := by
  refine hk.trans ?_; clear hk; unfold State.clrLoad; try dsimp -zeta only [mkS_eq]
  try lift_lets -underBinder
  with_reducible repeat' first
    | assumption
    | exact Keeps.refl _
    | (intro x; refine Keeps.abs (mm := mm) (x := x) (s := s) ?_ (fun hk => ?_); rotate_left; clear_value x; rotate_right; dsimp -zeta only [x]; try clear x)
    | (intro x; try clear_value x)
    | apply State.refuse4_keeps
    | apply State.p_keeps
    | apply State.setClr_keeps
    | apply upd_keeps
    | exact Fits.refl _
    | lift_lets -underBinder
    | apply Keeps.ite

theorem State.curveEnd_keeps {mm : Bool} {s0 s : State} (hk : Keeps mm s0 s) (i reason : Nat) :
    Keeps mm s0 (State.curveEnd s i reason) := by
  refine hk.trans ?_; clear hk; unfold State.curveEnd; try dsimp -zeta only [mkS_eq]
  try lift_lets -underBinder
  with_reducible repeat' first
    | assumption
    | exact Keeps.refl _
    | (intro x; refine Keeps.abs (mm := mm) (x := x) (s := s) ?_ (fun hk => ?_); rotate_left; clear_value x; rotate_right; dsimp -zeta only [x]; try clear x)
    | (intro x; try clear_value x)
    | apply State.p_keeps
    | apply State.setClr_keeps
    | apply State.irq_keeps

theorem State.curveLoadEnd_keeps {mm : Bool} {s0 s : State} (hk : Keeps mm s0 s) (i : Nat) :
    Keeps mm s0 (State.curveLoadEnd s i) := by
  refine hk.trans ?_; clear hk; unfold State.curveLoadEnd; try dsimp -zeta only [mkS_eq]
  try lift_lets -underBinder
  with_reducible repeat' first
    | assumption
    | exact Keeps.refl _
    | (intro x; refine Keeps.abs (mm := mm) (x := x) (s := s) ?_ (fun hk => ?_); rotate_left; clear_value x; rotate_right; dsimp -zeta only [x]; try clear x)
    | (intro x; try clear_value x)
    | apply State.setClr_keeps
    | apply State.curveEnd_keeps

theorem State.genEnd_keeps {mm : Bool} {s0 s : State} (hk : Keeps mm s0 s) (i : Nat) :
    Keeps mm s0 (State.genEnd s i) := by
  refine hk.trans ?_; clear hk; unfold State.genEnd; try dsimp -zeta only [mkS_eq]
  try lift_lets -underBinder
  with_reducible repeat' first
    | assumption
    | exact Keeps.refl _
    | (intro x; try clear_value x)
    | apply State.curveEnd_keeps
    | apply State.setClr_keeps
    | apply upd_keeps
    | exact Fits.refl _
    | lift_lets -underBinder
    | apply Keeps.ite
    | split

theorem State.lutLoaded_keeps {mm : Bool} {s0 s : State} (hk : Keeps mm s0 s) (i base : Nat) (x : Nat × List Byte) :
    Keeps mm s0 (State.lutLoaded s i base x) := by
  refine hk.trans ?_; clear hk; unfold State.lutLoaded; try dsimp -zeta only [mkS_eq]
  try lift_lets -underBinder
  with_reducible repeat' first
    | assumption
    | exact Keeps.refl _
    | (intro x; refine Keeps.abs (mm := mm) (x := x) (s := s) ?_ (fun hk => ?_); rotate_left; clear_value x; rotate_right; dsimp -zeta only [x]; try clear x)
    | (intro x; try clear_value x)
    | apply State.setClr_keeps
    | apply State.p_keeps
    | apply State.irq_keeps

theorem State.lutLoadEnd_keeps {mm : Bool} {s0 s : State} (hk : Keeps mm s0 s) (i : Nat) :
    Keeps mm s0 (State.lutLoadEnd s i) := by
  refine hk.trans ?_; clear hk; unfold State.lutLoadEnd; try dsimp -zeta only [mkS_eq]
  try lift_lets -underBinder
  with_reducible repeat' first
    | assumption
    | exact Keeps.refl _
    | (intro x; try clear_value x)
    | apply State.lutLoaded_keeps

theorem State.clrRefill_keeps {mm : Bool} {s0 s : State} (hk : Keeps mm s0 s) (new : Nat) (active : Bool) :
    Keeps mm s0 (State.clrRefill s new active) := by
  refine hk.trans ?_; clear hk; unfold State.clrRefill; try dsimp -zeta only [mkS_eq]
  try lift_lets -underBinder
  with_reducible repeat' first
    | assumption
    | exact Keeps.refl _
    | (intro x; refine Keeps.abs (mm := mm) (x := x) (s := s) ?_ (fun hk => ?_); rotate_left; clear_value x; rotate_right; dsimp -zeta only [x]; try clear x)
    | (intro x; try clear_value x)
    | apply State.irq_keeps
    | apply State.fault_keeps
    | apply State.setClr_keeps
    | apply State.takeUp_keeps
    | apply upd_keeps
    | exact Fits.refl _
    | lift_lets -underBinder
    | apply Keeps.ite
    | split

theorem execClrLoadCurves_keeps {mm : Bool} {s0 s : State} (hk : Keeps mm s0 s) (i : Fin 28) :
    Keeps mm s0 (after s (execClrLoadCurves i s)) := by
  refine hk.trans ?_; clear hk; unfold execClrLoadCurves; try dsimp -zeta only [mkS_eq]
  try lift_lets -underBinder
  with_reducible repeat' first
    | assumption
    | exact Keeps.refl _
    | (apply KeepsF.intro; intro s; (try dsimp -zeta only); try lift_lets -underBinder)
    | (intro x; try clear_value x)
    | apply after_next_keeps
    | apply State.hostReg_keeps
    | apply State.clrLoad_keeps

theorem execClrLoadLut_keeps {mm : Bool} {s0 s : State} (hk : Keeps mm s0 s) (i : Fin 28) :
    Keeps mm s0 (after s (execClrLoadLut i s)) := by
  refine hk.trans ?_; clear hk; unfold execClrLoadLut; try dsimp -zeta only [mkS_eq]
  try lift_lets -underBinder
  with_reducible repeat' first
    | assumption
    | exact Keeps.refl _
    | (apply KeepsF.intro; intro s; (try dsimp -zeta only); try lift_lets -underBinder)
    | (intro x; try clear_value x)
    | apply after_next_keeps
    | apply State.hostReg_keeps
    | apply State.clrLoad_keeps

theorem execClrLoadGen_keeps {mm : Bool} {s0 s : State} (hk : Keeps mm s0 s) (i : Fin 28) :
    Keeps mm s0 (after s (execClrLoadGen i s)) := by
  refine hk.trans ?_; clear hk; unfold execClrLoadGen; try dsimp -zeta only [mkS_eq]
  try lift_lets -underBinder
  with_reducible repeat' first
    | assumption
    | exact Keeps.refl _
    | (apply KeepsF.intro; intro s; (try dsimp -zeta only); try lift_lets -underBinder)
    | (intro x; try clear_value x)
    | apply after_next_keeps
    | apply State.hostReg_keeps
    | apply State.clrLoad_keeps

theorem execClrLoadBegin_keeps {mm : Bool} {s0 s : State} (hk : Keeps mm s0 s) (i : Fin 28) :
    Keeps mm s0 (after s (execClrLoadBegin i s)) := by
  refine hk.trans ?_; clear hk; unfold execClrLoadBegin; try dsimp -zeta only [mkS_eq]
  try lift_lets -underBinder
  with_reducible repeat' first
    | assumption
    | exact Keeps.refl _
    | (intro x; try clear_value x)
    | apply after_next_keeps
    | apply State.p_keeps

theorem execClrOperationEnd_keeps {mm : Bool} {s0 s : State} (hk : Keeps mm s0 s) (i : Fin 28) (lut : Bool) :
    Keeps mm s0 (after s (execClrOperationEnd i lut s)) := by
  refine hk.trans ?_; clear hk; unfold execClrOperationEnd; try dsimp -zeta only [mkS_eq]
  try lift_lets -underBinder
  with_reducible repeat' first
    | assumption
    | exact Keeps.refl _
    | (intro x; try clear_value x)
    | apply after_next_keeps
    | apply State.lutLoadEnd_keeps
    | apply State.genEnd_keeps
    | apply State.curveLoadEnd_keeps
    | lift_lets -underBinder
    | apply Keeps.ite

theorem execClrTableRefill_keeps {mm : Bool} {s0 s : State} (hk : Keeps mm s0 s) (granule : Fin 192) (active : Bool) :
    Keeps mm s0 (after s (execClrTableRefill granule active s)) := by
  refine hk.trans ?_; clear hk; unfold execClrTableRefill; try dsimp -zeta only [mkS_eq]
  try lift_lets -underBinder
  with_reducible repeat' first
    | assumption
    | exact Keeps.refl _
    | (intro x; try clear_value x)
    | apply after_next_keeps
    | apply State.clrRefill_keeps

end Sys2Proof.Machine
end

