-- ==== Sys2Proof/Laws/KeepsWitness.lean ====
section
/-! SUPPORT. What the functions of Machine/Witness.lean keep: the part, the queue, the memories where they store nothing, and the
canonical form of the tables. -/

namespace Sys2Proof.Machine
theorem State.setWit_keeps {mm : Bool} {s0 s : State} (hk : Keeps mm s0 s) (w : Nat) (f : Wit → Wit) :
    Keeps mm s0 (State.setWit s w f) := by
  refine hk.trans ?_; clear hk; unfold State.setWit; try dsimp -zeta only [mkS_eq]
  try lift_lets -underBinder
  with_reducible repeat' first
    | assumption
    | exact Keeps.refl _
    | (intro x; try clear_value x)
    | apply upd_keeps
    | exact Fits.refl _
    | (simp only [upd_length, List.length_map, List.length_replicate]; exact Fits.refl _)

theorem State.witWriteLines_keeps {s0 s : State} (hk : Keeps false s0 s) (w u : Nat) (f : WitFrame) (buf : Nat) (l : List Nat) :
    Keeps false s0 (State.witWriteLines s w u f buf l).2 := by
  induction l generalizing s0 s  with
  | nil =>
    rw [State.witWriteLines.eq_1]; refine hk.trans ?_; clear hk; try dsimp -zeta only [mkS_eq]
    try lift_lets -underBinder
    with_reducible repeat' first
      | assumption
      | exact Keeps.refl _
  | cons a l ih =>
    rw [State.witWriteLines.eq_2]; refine hk.trans ?_; clear hk; try dsimp -zeta only [mkS_eq]
    try lift_lets -underBinder
    with_reducible repeat' first
      | assumption
      | exact Keeps.refl _
      | with_reducible apply ih
      | (apply KeepsP.intro; intro b s; (try dsimp -zeta only); try lift_lets -underBinder)
      | (intro x; refine Keeps.abs (mm := false) (x := x) (s := s) ?_ (fun hk => ?_); rotate_left; clear_value x; rotate_right; dsimp -zeta only [x]; try clear x)
      | (intro x; refine Keeps.abs (mm := false) (x := x.2) (s := s) ?_ (fun hk => ?_); rotate_left; clear_value x; rotate_right; dsimp -zeta only [x]; try clear x)
      | (intro x; try clear_value x)
      | apply State.addSat_keeps
      | apply State.masterWrite_keeps
      | apply foldl_keeps
      | apply foldl2_keeps
      | (apply Keeps.ofpair (by assumption))
      | (apply Keeps.ofpair1 (by assumption))
      | (apply Keeps.oftriple (by assumption))
      | lift_lets -underBinder
      | apply Keeps.ite
      | split

theorem State.witDrop_keeps {mm : Bool} {s0 s : State} (hk : Keeps mm s0 s) (w u : Nat) (cnt : Fld) :
    Keeps mm s0 (State.witDrop s w u cnt) := by
  refine hk.trans ?_; clear hk; unfold State.witDrop; try dsimp -zeta only [mkS_eq]
  try lift_lets -underBinder
  with_reducible repeat' first
    | assumption
    | exact Keeps.refl _
    | (intro x; try clear_value x)
    | apply State.irq_keeps
    | apply State.addSat_keeps

theorem State.witTapFrame_keeps {s0 s : State} (hk : Keeps false s0 s) (w u : Nat) (f : WitFrame) :
    Keeps false s0 (State.witTapFrame s w u f).2 := by
  refine hk.trans ?_; clear hk; unfold State.witTapFrame; try dsimp -zeta only [mkS_eq]
  try lift_lets -underBinder
  with_reducible repeat' first
    | assumption
    | exact Keeps.refl _
    | (intro x; refine Keeps.abs (mm := false) (x := x) (s := s) ?_ (fun hk => ?_); rotate_left; clear_value x; rotate_right; dsimp -zeta only [x]; try clear x)
    | (intro x; refine Keeps.abs (mm := false) (x := x.2) (s := s) ?_ (fun hk => ?_); rotate_left; clear_value x; rotate_right; dsimp -zeta only [x]; try clear x)
    | (intro x; try clear_value x)
    | apply State.p_keeps
    | apply State.addSat_keeps
    | apply State.witWriteLines_keeps
    | apply State.dmaCredit_keeps
    | apply State.witDrop_keeps
    | apply upd_keeps
    | exact Fits.refl _
    | (apply Keeps.ofpair (by assumption))
    | (apply Keeps.ofpair1 (by assumption))
    | (apply Keeps.oftriple (by assumption))
    | lift_lets -underBinder
    | apply Keeps.ite
    | split

theorem State.witBuffers_keeps {mm : Bool} {s0 s : State} (hk : Keeps mm s0 s) (w : Nat) (f : WitFrame) :
    Keeps mm s0 (State.witBuffers s w f).2 := by
  refine hk.trans ?_; clear hk; unfold State.witBuffers; try dsimp -zeta only [mkS_eq]
  try lift_lets -underBinder
  repeat' first
    | with_reducible assumption
    | with_reducible exact Keeps.refl _
    | (with_reducible apply KeepsP.intro; intro b s; (try dsimp -zeta only); try lift_lets -underBinder)
    | (intro x; refine Keeps.abs (mm := mm) (x := x) (s := s) ?_ (fun hk => ?_); rotate_left; clear_value x; rotate_right; dsimp -zeta only [x]; try clear x)
    | (intro x; try clear_value x)
    | with_reducible apply State.witDrop_keeps
    | with_reducible apply State.p_keeps
    | with_reducible apply foldl_keeps
    | with_reducible apply foldl2_keeps
    | with_reducible apply upd_keeps
    | with_reducible exact Fits.refl _
    | lift_lets -underBinder
    | with_reducible apply Keeps.ite
    | split

theorem State.witRecords_keeps {s0 s : State} (hk : Keeps false s0 s) (w u : Nat) (l : List WitFrame) :
    Keeps false s0 (State.witRecords s w u l) := by
  induction l generalizing s0 s  with
  | nil =>
    rw [State.witRecords.eq_1]; refine hk.trans ?_; clear hk; try dsimp -zeta only [mkS_eq]
    try lift_lets -underBinder
    with_reducible repeat' first
      | assumption
      | exact Keeps.refl _
  | cons a l ih =>
    rw [State.witRecords.eq_2]; refine hk.trans ?_; clear hk; try dsimp -zeta only [mkS_eq]
    try lift_lets -underBinder
    with_reducible repeat' first
      | assumption
      | exact Keeps.refl _
      | with_reducible apply ih
      | (intro x; refine Keeps.abs (mm := false) (x := x) (s := s) ?_ (fun hk => ?_); rotate_left; clear_value x; rotate_right; dsimp -zeta only [x]; try clear x)
      | (intro x; refine Keeps.abs (mm := false) (x := x.2) (s := s) ?_ (fun hk => ?_); rotate_left; clear_value x; rotate_right; dsimp -zeta only [x]; try clear x)
      | (intro x; try clear_value x)
      | apply State.masterWrite_keeps
      | apply State.setWit_keeps
      | apply State.count_keeps
      | apply State.tapRecorded_keeps
      | apply State.irq_keeps
      | apply State.addMod_keeps
      | apply upd_keeps
      | exact Fits.refl _
      | lift_lets -underBinder
      | apply Keeps.ite

theorem State.witSync_keeps {mm : Bool} {s0 s : State} (hk : Keeps mm s0 s) (w : Nat) :
    Keeps mm s0 (State.witSync s w) := by
  refine hk.trans ?_; clear hk; unfold State.witSync; try dsimp -zeta only [mkS_eq]
  try lift_lets -underBinder
  with_reducible repeat' first
    | assumption
    | exact Keeps.refl _
    | (intro x; try clear_value x)
    | apply State.irqIf_keeps
    | apply State.p_keeps

theorem State.witTidy_keeps {s0 s : State} (hk : Keeps false s0 s) (w : Nat) :
    Keeps false s0 (State.witTidy s w) := by
  refine hk.trans ?_; clear hk; unfold State.witTidy; try dsimp -zeta only [mkS_eq]
  try lift_lets -underBinder
  with_reducible repeat' first
    | assumption
    | exact Keeps.refl _
    | (apply KeepsF.intro; intro s; (try dsimp -zeta only); try lift_lets -underBinder)
    | (intro x; refine Keeps.abs (mm := false) (x := x) (s := s) ?_ (fun hk => ?_); rotate_left; clear_value x; rotate_right; dsimp -zeta only [x]; try clear x)
    | (intro x; try clear_value x)
    | apply State.witRecords_keeps
    | apply State.setWit_keeps
    | apply State.workEnds_keeps
    | apply State.witSync_keeps
    | apply foldl_keeps
    | apply upd_keeps
    | exact Fits.refl _
    | lift_lets -underBinder
    | apply Keeps.ite

theorem State.witAbandonLog_keeps {mm : Bool} {s0 s : State} (hk : Keeps mm s0 s) (w wfn reason : Nat) :
    Keeps mm s0 (State.witAbandonLog s w wfn reason) := by
  refine hk.trans ?_; clear hk; unfold State.witAbandonLog; try dsimp -zeta only [mkS_eq]
  try lift_lets -underBinder
  with_reducible repeat' first
    | assumption
    | exact Keeps.refl _
    | (intro x; refine Keeps.abs (mm := mm) (x := x) (s := s) ?_ (fun hk => ?_); rotate_left; clear_value x; rotate_right; dsimp -zeta only [x]; try clear x)
    | (intro x; try clear_value x)
    | apply State.p64_keeps
    | apply State.p_keeps
    | apply State.irq_keeps
    | apply State.addSat_keeps
    | lift_lets -underBinder
    | apply Keeps.ite

theorem State.witAbandon_keeps {mm : Bool} {s0 s : State} (hk : Keeps mm s0 s) (w reason : Nat) :
    Keeps mm s0 (State.witAbandon s w reason) := by
  refine hk.trans ?_; clear hk; unfold State.witAbandon; try dsimp -zeta only [mkS_eq]
  try lift_lets -underBinder
  with_reducible repeat' first
    | assumption
    | exact Keeps.refl _
    | (intro x; try clear_value x)
    | apply State.witAbandonLog_keeps
    | apply State.setWit_keeps
    | apply upd_keeps
    | exact Fits.refl _
    | lift_lets -underBinder
    | apply Keeps.ite
    | split

theorem State.witLatch_keeps {mm : Bool} {s0 s : State} (hk : Keeps mm s0 s) (w : Nat) :
    Keeps mm s0 (State.witLatch s w) := by
  refine hk.trans ?_; clear hk; unfold State.witLatch; try dsimp -zeta only [mkS_eq]
  try lift_lets -underBinder
  with_reducible repeat' first
    | assumption
    | exact Keeps.refl _
    | (apply KeepsF.intro; intro s; (try dsimp -zeta only); try lift_lets -underBinder)
    | (intro x; refine Keeps.abs (mm := mm) (x := x) (s := s) ?_ (fun hk => ?_); rotate_left; clear_value x; rotate_right; dsimp -zeta only [x]; try clear x)
    | (intro x; try clear_value x)
    | apply State.latch_keeps
    | apply State.clrLatchCheck_keeps
    | apply foldl_keeps

theorem State.witClose_keeps {s0 s : State} (hk : Keeps false s0 s) (w flags : Nat) :
    Keeps false s0 (State.witClose s w flags) := by
  refine hk.trans ?_; clear hk; unfold State.witClose; try dsimp -zeta only [mkS_eq]
  try lift_lets -underBinder
  with_reducible repeat' first
    | assumption
    | exact Keeps.refl _
    | (apply KeepsP.intro; intro b s; (try dsimp -zeta only); try lift_lets -underBinder)
    | (intro x; try clear_value x)
    | apply State.addSat_keeps
    | apply State.irqIf_keeps
    | apply State.witBuffers_keeps
    | apply State.witTapFrame_keeps
    | apply State.setWit_keeps
    | apply State.witLatch_keeps
    | apply State.witTidy_keeps
    | apply foldl_keeps
    | apply foldl2_keeps
    | apply upd_keeps
    | exact Fits.refl _
    | (apply Keeps.ofpair (by assumption))
    | (apply Keeps.ofpair1 (by assumption))
    | (apply Keeps.oftriple (by assumption))
    | lift_lets -underBinder
    | apply Keeps.ite
    | split

theorem State.witHandOver_keeps {mm : Bool} {s0 s : State} (hk : Keeps mm s0 s) (w num : Nat) :
    Keeps mm s0 (State.witHandOver s w num) := by
  refine hk.trans ?_; clear hk; unfold State.witHandOver; try dsimp -zeta only [mkS_eq]
  try lift_lets -underBinder
  with_reducible repeat' first
    | assumption
    | exact Keeps.refl _
    | (apply KeepsF.intro; intro s; (try dsimp -zeta only); try lift_lets -underBinder)
    | (intro x; refine Keeps.abs (mm := mm) (x := x) (s := s) ?_ (fun hk => ?_); rotate_left; clear_value x; rotate_right; dsimp -zeta only [x]; try clear x)
    | (intro x; try clear_value x)
    | apply State.handOver_keeps
    | apply State.clrBoundary_keeps
    | apply State.applyClr_keeps
    | apply State.setWit_keeps
    | apply foldl_keeps
    | apply upd_keeps
    | exact Fits.refl _
    | lift_lets -underBinder
    | apply Keeps.ite

theorem State.witStart_keeps {mm : Bool} {s0 s : State} (hk : Keeps mm s0 s) (w : Nat) :
    Keeps mm s0 (State.witStart s w) := by
  refine hk.trans ?_; clear hk; unfold State.witStart; try dsimp -zeta only [mkS_eq]
  try lift_lets -underBinder
  with_reducible repeat' first
    | assumption
    | exact Keeps.refl _
    | (intro x; refine Keeps.abs (mm := mm) (x := x) (s := s) ?_ (fun hk => ?_); rotate_left; clear_value x; rotate_right; dsimp -zeta only [x]; try clear x)
    | (intro x; try clear_value x)
    | apply State.witHandOver_keeps
    | apply State.p_keeps
    | apply State.addSat_keeps
    | apply State.setWit_keeps
    | apply State.setBusy_keeps
    | apply State.p64_keeps
    | apply State.witSync_keeps
    | apply State.witAbandon_keeps
    | apply upd_keeps
    | exact Fits.refl _
    | lift_lets -underBinder
    | apply Keeps.ite

theorem State.witStop_keeps {mm : Bool} {s0 s : State} (hk : Keeps mm s0 s) (w : Nat) :
    Keeps mm s0 (State.witStop s w) := by
  refine hk.trans ?_; clear hk; unfold State.witStop; try dsimp -zeta only [mkS_eq]
  try lift_lets -underBinder
  with_reducible repeat' first
    | assumption
    | exact Keeps.refl _
    | (intro x; refine Keeps.abs (mm := mm) (x := x) (s := s) ?_ (fun hk => ?_); rotate_left; clear_value x; rotate_right; dsimp -zeta only [x]; try clear x)
    | (intro x; try clear_value x)
    | apply State.setWit_keeps
    | apply State.witSync_keeps
    | apply State.witAbandon_keeps
    | apply State.fault_keeps
    | apply State.p_keeps

theorem State.witFail_keeps {mm : Bool} {s0 s : State} (hk : Keeps mm s0 s) (w unit : Nat) (sump : Bool) (c : Check) :
    Keeps mm s0 (State.witFail s w unit sump c) := by
  refine hk.trans ?_; clear hk; unfold State.witFail; try dsimp -zeta only [mkS_eq]
  try lift_lets -underBinder
  with_reducible repeat' first
    | assumption
    | exact Keeps.refl _
    | (apply KeepsF.intro; intro s; (try dsimp -zeta only); try lift_lets -underBinder)
    | (intro x; refine Keeps.abs (mm := mm) (x := x) (s := s) ?_ (fun hk => ?_); rotate_left; clear_value x; rotate_right; dsimp -zeta only [x]; try clear x)
    | (intro x; try clear_value x)
    | apply State.addSat_keeps
    | apply State.report_keeps
    | apply State.witStop_keeps
    | apply State.setWit_keeps
    | apply State.witAbandon_keeps

theorem State.witChecks_keeps {mm : Bool} {s0 s : State} (hk : Keeps mm s0 s) (w : Nat) (fail : Option (Nat × Bool)) :
    Keeps mm s0 (State.witChecks s w fail) := by
  refine hk.trans ?_; clear hk; unfold State.witChecks; try dsimp -zeta only [mkS_eq]
  try lift_lets -underBinder
  with_reducible repeat' first
    | assumption
    | exact Keeps.refl _
    | (intro x; refine Keeps.abs (mm := mm) (x := x.2) (s := s) ?_ (fun hk => ?_); rotate_left; clear_value x; rotate_right; dsimp -zeta only [x]; try clear x)
    | (intro x; try clear_value x)
    | apply State.check_keeps
    | apply State.witFail_keeps
    | apply upd_keeps
    | exact Fits.refl _
    | (apply Keeps.ofpair (by assumption))
    | (apply Keeps.ofpair1 (by assumption))
    | (apply Keeps.oftriple (by assumption))
    | lift_lets -underBinder
    | apply Keeps.ite
    | split

theorem State.witTakeLine_keeps {s0 s : State} (hk : Keeps false s0 s) (w : Nat) (px : List Nat) (fail : Option (Nat × Bool)) :
    Keeps false s0 (State.witTakeLine s w px fail) := by
  refine hk.trans ?_; clear hk; unfold State.witTakeLine; try dsimp -zeta only [mkS_eq]
  try lift_lets -underBinder
  with_reducible repeat' first
    | assumption
    | exact Keeps.refl _
    | (intro x; refine Keeps.abs (mm := false) (x := x) (s := s) ?_ (fun hk => ?_); rotate_left; clear_value x; rotate_right; dsimp -zeta only [x]; try clear x)
    | (intro x; try clear_value x)
    | apply State.addSat_keeps
    | apply State.witAbandon_keeps
    | apply State.witBuffers_keeps
    | apply State.count_keeps
    | apply State.setWit_keeps
    | apply State.witChecks_keeps
    | apply State.witClose_keeps
    | apply upd_keeps
    | exact Fits.refl _
    | (apply Keeps.ofpair (by assumption))
    | (apply Keeps.ofpair1 (by assumption))
    | (apply Keeps.oftriple (by assumption))
    | lift_lets -underBinder
    | apply Keeps.ite
    | split

theorem State.witExtraLine_keeps {mm : Bool} {s0 s : State} (hk : Keeps mm s0 s) (w : Nat) :
    Keeps mm s0 (State.witExtraLine s w) := by
  refine hk.trans ?_; clear hk; unfold State.witExtraLine; try dsimp -zeta only [mkS_eq]
  try lift_lets -underBinder
  with_reducible repeat' first
    | assumption
    | exact Keeps.refl _
    | (intro x; try clear_value x)
    | apply State.setWit_keeps
    | apply State.addSat_keeps
    | apply upd_keeps
    | exact Fits.refl _
    | lift_lets -underBinder
    | apply Keeps.ite

theorem State.witLineEnd_keeps {s0 s : State} (hk : Keeps false s0 s) (w : Nat) (samples : List Nat) (fail : Option (Nat × Bool)) :
    Keeps false s0 (State.witLineEnd s w samples fail) := by
  refine hk.trans ?_; clear hk; unfold State.witLineEnd; try dsimp -zeta only [mkS_eq]
  try lift_lets -underBinder
  with_reducible repeat' first
    | assumption
    | exact Keeps.refl _
    | (intro x; refine Keeps.abs (mm := false) (x := x) (s := s) ?_ (fun hk => ?_); rotate_left; clear_value x; rotate_right; dsimp -zeta only [x]; try clear x)
    | (intro x; try clear_value x)
    | apply State.addSat_keeps
    | apply State.witTakeLine_keeps
    | apply State.witExtraLine_keeps
    | apply State.setWit_keeps
    | apply upd_keeps
    | exact Fits.refl _
    | lift_lets -underBinder
    | apply Keeps.ite

theorem State.witVsync_keeps {s0 s : State} (hk : Keeps false s0 s) (w : Nat) (cut : List Nat) :
    Keeps false s0 (State.witVsync s w cut) := by
  refine hk.trans ?_; clear hk; unfold State.witVsync; try dsimp -zeta only [mkS_eq]
  try lift_lets -underBinder
  with_reducible repeat' first
    | assumption
    | exact Keeps.refl _
    | (intro x; refine Keeps.abs (mm := false) (x := x) (s := s) ?_ (fun hk => ?_); rotate_left; clear_value x; rotate_right; dsimp -zeta only [x]; try clear x)
    | (intro x; try clear_value x)
    | apply State.witLineEnd_keeps
    | apply State.witClose_keeps
    | apply State.witStart_keeps
    | lift_lets -underBinder
    | apply Keeps.ite

theorem State.witClock_keeps {s0 s : State} (hk : Keeps false s0 s) (w st : Nat) :
    Keeps false s0 (State.witClock s w st) := by
  refine hk.trans ?_; clear hk; unfold State.witClock; try dsimp -zeta only [mkS_eq]
  try lift_lets -underBinder
  with_reducible repeat' first
    | assumption
    | exact Keeps.refl _
    | (intro x; refine Keeps.abs (mm := false) (x := x) (s := s) ?_ (fun hk => ?_); rotate_left; clear_value x; rotate_right; dsimp -zeta only [x]; try clear x)
    | (intro x; try clear_value x)
    | apply State.witClose_keeps
    | apply State.witSync_keeps
    | apply State.setWit_keeps

theorem State.witStats_keeps {s0 s : State} (hk : Keeps false s0 s) (w : Nat) :
    Keeps false s0 (State.witStats s w) := by
  refine hk.trans ?_; clear hk; unfold State.witStats; try dsimp -zeta only [mkS_eq]
  try lift_lets -underBinder
  with_reducible repeat' first
    | assumption
    | exact Keeps.refl _
    | (intro x; try clear_value x)
    | apply State.engineWrite_keeps
    | apply State.setWit_keeps
    | apply State.irq_keeps
    | apply State.p_keeps
    | apply State.fault_keeps
    | apply State.witTidy_keeps
    | apply upd_keeps
    | exact Fits.refl _
    | (apply Keeps.ofpair (by assumption))
    | (apply Keeps.ofpair1 (by assumption))
    | (apply Keeps.oftriple (by assumption))
    | lift_lets -underBinder
    | apply Keeps.ite
    | split

theorem State.witReturn_keeps {mm : Bool} {s0 s : State} (hk : Keeps mm s0 s) (w u v : Nat) :
    Keeps mm s0 (State.witReturn s w u v) := by
  refine hk.trans ?_; clear hk; unfold State.witReturn; try dsimp -zeta only [mkS_eq]
  try lift_lets -underBinder
  with_reducible repeat' first
    | assumption
    | exact Keeps.refl _
    | (intro x; try clear_value x)
    | apply State.badWrite_keeps
    | apply State.p_keeps
    | lift_lets -underBinder
    | apply Keeps.ite

theorem State.witNextWrite_keeps {mm : Bool} {s0 s : State} (hk : Keeps mm s0 s) (w : Nat) (hi : Bool) (v : Nat) :
    Keeps mm s0 (State.witNextWrite s w hi v) := by
  refine hk.trans ?_; clear hk; unfold State.witNextWrite; try dsimp -zeta only [mkS_eq]
  try lift_lets -underBinder
  with_reducible repeat' first
    | assumption
    | exact Keeps.refl _
    | (intro x; try clear_value x)
    | apply State.refuse4_keeps
    | apply State.wr_keeps
    | lift_lets -underBinder
    | apply Keeps.ite

theorem execVsyncEdge_keeps {s0 s : State} (hk : Keeps false s0 s) (w : Fin 4) (cut : List Nat) :
    Keeps false s0 (after s (execVsyncEdge w cut s)) := by
  refine hk.trans ?_; clear hk; unfold execVsyncEdge; try dsimp -zeta only [mkS_eq]
  try lift_lets -underBinder
  with_reducible repeat' first
    | assumption
    | exact Keeps.refl _
    | (intro x; try clear_value x)
    | apply after_next_keeps
    | apply State.witVsync_keeps

theorem execWitnessLineEnd_keeps {s0 s : State} (hk : Keeps false s0 s) (w : Fin 4) (samples : List Nat) (fail : Option (Fin 256 × Bool)) :
    Keeps false s0 (after s (execWitnessLineEnd w samples fail s)) := by
  refine hk.trans ?_; clear hk; unfold execWitnessLineEnd; try dsimp -zeta only [mkS_eq]
  try lift_lets -underBinder
  with_reducible repeat' first
    | assumption
    | exact Keeps.refl _
    | (intro x; try clear_value x)
    | apply after_next_keeps
    | apply State.witLineEnd_keeps

theorem execPclkLost_keeps {s0 s : State} (hk : Keeps false s0 s) (w : Fin 4) :
    Keeps false s0 (after s (execPclkLost w s)) := by
  refine hk.trans ?_; clear hk; unfold execPclkLost; try dsimp -zeta only [mkS_eq]
  try lift_lets -underBinder
  with_reducible repeat' first
    | assumption
    | exact Keeps.refl _
    | (intro x; try clear_value x)
    | apply after_next_keeps
    | apply State.witClock_keeps
    | lift_lets -underBinder
    | apply Keeps.ite

theorem execPclkWindowEnd_keeps {s0 s : State} (hk : Keeps false s0 s) (w : Fin 4) (kHz : Nat) :
    Keeps false s0 (after s (execPclkWindowEnd w kHz s)) := by
  refine hk.trans ?_; clear hk; unfold execPclkWindowEnd; try dsimp -zeta only [mkS_eq]
  try lift_lets -underBinder
  with_reducible repeat' first
    | assumption
    | exact Keeps.refl _
    | (intro x; refine Keeps.abs (mm := false) (x := x) (s := s) ?_ (fun hk => ?_); rotate_left; clear_value x; rotate_right; dsimp -zeta only [x]; try clear x)
    | (intro x; try clear_value x)
    | apply after_next_keeps
    | apply State.p_keeps
    | apply State.witClock_keeps
    | lift_lets -underBinder
    | apply Keeps.ite

theorem execPclkRestored_keeps {mm : Bool} {s0 s : State} (hk : Keeps mm s0 s) (w : Fin 4) :
    Keeps mm s0 (after s (execPclkRestored w s)) := by
  refine hk.trans ?_; clear hk; unfold execPclkRestored; try dsimp -zeta only [mkS_eq]
  try lift_lets -underBinder
  with_reducible repeat' first
    | assumption
    | exact Keeps.refl _
    | (intro x; try clear_value x)
    | apply after_next_keeps
    | apply State.witSync_keeps
    | apply State.setWit_keeps
    | apply upd_keeps
    | exact Fits.refl _
    | lift_lets -underBinder
    | apply Keeps.ite

theorem execWitFrameTimeout_keeps {s0 s : State} (hk : Keeps false s0 s) (w : Fin 4) :
    Keeps false s0 (after s (execWitFrameTimeout w s)) := by
  refine hk.trans ?_; clear hk; unfold execWitFrameTimeout; try dsimp -zeta only [mkS_eq]
  try lift_lets -underBinder
  with_reducible repeat' first
    | assumption
    | exact Keeps.refl _
    | (intro x; try clear_value x)
    | apply after_next_keeps
    | apply State.witClose_keeps
    | apply State.witLatch_keeps
    | lift_lets -underBinder
    | apply Keeps.ite

theorem execWitStopDeadline_keeps {s0 s : State} (hk : Keeps false s0 s) (w : Fin 4) :
    Keeps false s0 (after s (execWitStopDeadline w s)) := by
  refine hk.trans ?_; clear hk; unfold execWitStopDeadline; try dsimp -zeta only [mkS_eq]
  try lift_lets -underBinder
  with_reducible repeat' first
    | assumption
    | exact Keeps.refl _
    | (intro x; try clear_value x)
    | apply after_next_keeps
    | apply State.witClose_keeps
    | apply State.witAbandon_keeps
    | lift_lets -underBinder
    | apply Keeps.ite

theorem execWitDatapathClear_keeps {mm : Bool} {s0 s : State} (hk : Keeps mm s0 s) (w : Fin 4) :
    Keeps mm s0 (after s (execWitDatapathClear w s)) := by
  refine hk.trans ?_; clear hk; unfold execWitDatapathClear; try dsimp -zeta only [mkS_eq]
  try lift_lets -underBinder
  with_reducible repeat' first
    | assumption
    | exact Keeps.refl _
    | (intro x; try clear_value x)
    | apply after_next_keeps
    | apply State.setWit_keeps

theorem execWitStatsWritten_keeps {s0 s : State} (hk : Keeps false s0 s) (w : Fin 4) :
    Keeps false s0 (after s (execWitStatsWritten w s)) := by
  refine hk.trans ?_; clear hk; unfold execWitStatsWritten; try dsimp -zeta only [mkS_eq]
  try lift_lets -underBinder
  with_reducible repeat' first
    | assumption
    | exact Keeps.refl _
    | (intro x; try clear_value x)
    | apply after_next_keeps
    | apply State.witStats_keeps

theorem execWitNextWfnWrite_keeps {mm : Bool} {s0 s : State} (hk : Keeps mm s0 s) (w : Fin 4) (hi : Bool) (v : Word) :
    Keeps mm s0 (after s (execWitNextWfnWrite w hi v s)) := by
  refine hk.trans ?_; clear hk; unfold execWitNextWfnWrite; try dsimp -zeta only [mkS_eq]
  try lift_lets -underBinder
  with_reducible repeat' first
    | assumption
    | exact Keeps.refl _
    | (apply KeepsF.intro; intro s; (try dsimp -zeta only); try lift_lets -underBinder)
    | (intro x; try clear_value x)
    | apply after_next_keeps
    | apply State.hostReg_keeps
    | apply State.witNextWrite_keeps

theorem execWitTapReturn_keeps {mm : Bool} {s0 s : State} (hk : Keeps mm s0 s) (w : Fin 4) (u : Fin 2) (v : Word) :
    Keeps mm s0 (after s (execWitTapReturn w u v s)) := by
  refine hk.trans ?_; clear hk; unfold execWitTapReturn; try dsimp -zeta only [mkS_eq]
  try lift_lets -underBinder
  with_reducible repeat' first
    | assumption
    | exact Keeps.refl _
    | (apply KeepsF.intro; intro s; (try dsimp -zeta only); try lift_lets -underBinder)
    | (intro x; try clear_value x)
    | apply after_next_keeps
    | apply State.hostReg_keeps
    | apply State.witReturn_keeps

theorem execWitnessBankChange_keeps {mm : Bool} {s0 s : State} (hk : Keeps mm s0 s) (w : Fin 4) (bank : Fin 3) :
    Keeps mm s0 (after s (execWitnessBankChange w bank s)) := by
  refine hk.trans ?_; clear hk; unfold execWitnessBankChange; try dsimp -zeta only [mkS_eq]
  try lift_lets -underBinder
  with_reducible repeat' first
    | assumption
    | exact Keeps.refl _
    | (intro x; try clear_value x)
    | apply after_next_keeps
    | apply State.p_keeps

end Sys2Proof.Machine
end

