-- ==== Sys2Proof/Laws/KeepsCwyQueue.lean ====
section
/-! SUPPORT. What the functions of Machine/CwyQueue.lean keep: the part, the queue, the memories where they store nothing, and the
canonical form of the tables. -/

namespace Sys2Proof.Machine
theorem State.setCw_keeps {mm : Bool} {s0 s : State} (hk : Keeps mm s0 s) (h : Nat) (f : Cwy → Cwy) :
    Keeps mm s0 (State.setCw s h f) := by
  refine hk.trans ?_; clear hk; unfold State.setCw; try dsimp -zeta only [mkS_eq]
  try lift_lets -underBinder
  with_reducible repeat' first
    | assumption
    | exact Keeps.refl _
    | (intro x; try clear_value x)
    | apply upd_keeps
    | exact Fits.refl _
    | (simp only [upd_length, List.length_map, List.length_replicate]; exact Fits.refl _)

theorem State.msgSync_keeps {mm : Bool} {s0 s : State} (hk : Keeps mm s0 s) (h : Nat) :
    Keeps mm s0 (State.msgSync s h) := by
  refine hk.trans ?_; clear hk; unfold State.msgSync; try dsimp -zeta only [mkS_eq]
  try lift_lets -underBinder
  with_reducible repeat' first
    | assumption
    | exact Keeps.refl _
    | (intro x; refine Keeps.abs (mm := mm) (x := x) (s := s) ?_ (fun hk => ?_); rotate_left; clear_value x; rotate_right; dsimp -zeta only [x]; try clear x)
    | (intro x; try clear_value x)
    | apply State.p_keeps
    | apply State.wr_keeps
    | lift_lets -underBinder
    | apply Keeps.ite

theorem State.pump_keeps {mm : Bool} {s0 s : State} (hk : Keeps mm s0 s) (h : Nat) (n : Nat) :
    Keeps mm s0 (State.pump s h n) := by
  induction n generalizing s0 s  with
  | zero =>
    rw [State.pump.eq_1]; refine hk.trans ?_; clear hk; try dsimp -zeta only [mkS_eq]
    try lift_lets -underBinder
    with_reducible repeat' first
      | assumption
      | exact Keeps.refl _
  | succ a ih =>
    rw [State.pump.eq_2]; refine hk.trans ?_; clear hk; try dsimp -zeta only [mkS_eq]
    try lift_lets -underBinder
    with_reducible repeat' first
      | assumption
      | exact Keeps.refl _
      | with_reducible apply ih
      | (intro x; try clear_value x)
      | apply State.emit_keeps
      | apply State.setCw_keeps
      | apply upd_keeps
      | exact Fits.refl _
      | lift_lets -underBinder
      | apply Keeps.ite
      | split

theorem State.sendMsg_keeps {mm : Bool} {s0 s : State} (hk : Keeps mm s0 s) (h mtype body owner : Nat) :
    Keeps mm s0 (State.sendMsg s h mtype body owner) := by
  refine hk.trans ?_; clear hk; unfold State.sendMsg; try dsimp -zeta only [mkS_eq]
  try lift_lets -underBinder
  with_reducible repeat' first
    | assumption
    | exact Keeps.refl _
    | (intro x; try clear_value x)
    | apply State.msgSync_keeps
    | apply State.pump_keeps
    | apply State.setCw_keeps

theorem State.sendFour_keeps {mm : Bool} {s0 s : State} (hk : Keeps mm s0 s) (h mtype body : Nat) :
    Keeps mm s0 (State.sendFour s h mtype body) := by
  refine hk.trans ?_; clear hk; unfold State.sendFour; try dsimp -zeta only [mkS_eq]
  try lift_lets -underBinder
  with_reducible repeat' first
    | assumption
    | exact Keeps.refl _
    | (intro x; try clear_value x)
    | apply State.emit_keeps

theorem State.rxPush_keeps {mm : Bool} {s0 s : State} (hk : Keeps mm s0 s) (h : Nat) (m : RMsg) :
    Keeps mm s0 (State.rxPush s h m) := by
  refine hk.trans ?_; clear hk; unfold State.rxPush; try dsimp -zeta only [mkS_eq]
  try lift_lets -underBinder
  with_reducible repeat' first
    | assumption
    | exact Keeps.refl _
    | (intro x; try clear_value x)
    | apply State.p_keeps
    | apply State.irqIf_keeps
    | apply State.msgSync_keeps
    | apply State.setCw_keeps
    | apply upd_keeps
    | exact Fits.refl _
    | lift_lets -underBinder
    | apply Keeps.ite

theorem State.hostAnswered_keeps {mm : Bool} {s0 s : State} (hk : Keeps mm s0 s) (h seq reason : Nat) (loc : Bool) :
    Keeps mm s0 (State.hostAnswered s h seq reason loc) := by
  refine hk.trans ?_; clear hk; unfold State.hostAnswered; try dsimp -zeta only [mkS_eq]
  try lift_lets -underBinder
  with_reducible repeat' first
    | assumption
    | exact Keeps.refl _
    | (intro x; refine Keeps.abs (mm := mm) (x := x) (s := s) ?_ (fun hk => ?_); rotate_left; clear_value x; rotate_right; dsimp -zeta only [x]; try clear x)
    | (intro x; try clear_value x)
    | apply State.irq_keeps
    | apply State.addMod_keeps
    | apply State.rxPush_keeps
    | lift_lets -underBinder
    | apply Keeps.ite

theorem State.setOutcome_keeps {mm : Bool} {s0 s : State} (hk : Keeps mm s0 s) (h setId st reason : Nat) :
    Keeps mm s0 (State.setOutcome s h setId st reason) := by
  refine hk.trans ?_; clear hk; unfold State.setOutcome; try dsimp -zeta only [mkS_eq]
  try lift_lets -underBinder
  with_reducible repeat' first
    | assumption
    | exact Keeps.refl _
    | (intro x; try clear_value x)
    | apply State.irq_keeps
    | apply State.p_keeps
    | lift_lets -underBinder
    | apply Keeps.ite

theorem State.ownerAnswered_keeps {mm : Bool} {s0 s : State} (hk : Keeps mm s0 s) (h : Nat) (m : DMsg) (reason : Nat) (loc : Bool) :
    Keeps mm s0 (State.ownerAnswered s h m reason loc) := by
  refine hk.trans ?_; clear hk; unfold State.ownerAnswered; try dsimp -zeta only [mkS_eq]
  try lift_lets -underBinder
  with_reducible repeat' first
    | assumption
    | exact Keeps.refl _
    | (intro x; try clear_value x)
    | apply State.hostAnswered_keeps
    | apply State.setOutcome_keeps
    | lift_lets -underBinder
    | apply Keeps.ite

theorem State.answer_keeps {mm : Bool} {s0 s : State} (hk : Keeps mm s0 s) (h seq reason : Nat) :
    Keeps mm s0 (State.answer s h seq reason).2 := by
  refine hk.trans ?_; clear hk; unfold State.answer; try dsimp -zeta only [mkS_eq]
  try lift_lets -underBinder
  with_reducible repeat' first
    | assumption
    | exact Keeps.refl _
    | (intro x; try clear_value x)
    | apply State.setCw_keeps
    | apply State.msgSync_keeps
    | apply State.pump_keeps
    | apply State.ownerAnswered_keeps
    | apply upd_keeps
    | exact Fits.refl _
    | lift_lets -underBinder
    | apply Keeps.ite
    | split

theorem State.msgDown_keeps {mm : Bool} {s0 s : State} (hk : Keeps mm s0 s) (h : Nat) :
    Keeps mm s0 (State.msgDown s h) := by
  refine hk.trans ?_; clear hk; unfold State.msgDown; try dsimp -zeta only [mkS_eq]
  try lift_lets -underBinder
  with_reducible repeat' first
    | assumption
    | exact Keeps.refl _
    | (apply KeepsF.intro; intro s; (try dsimp -zeta only); try lift_lets -underBinder)
    | (intro x; refine Keeps.abs (mm := mm) (x := x) (s := s) ?_ (fun hk => ?_); rotate_left; clear_value x; rotate_right; dsimp -zeta only [x]; try clear x)
    | (intro x; try clear_value x)
    | apply State.setCw_keeps
    | apply State.msgSync_keeps
    | apply State.ownerAnswered_keeps
    | apply foldl_keeps

theorem State.msgRestart_keeps {mm : Bool} {s0 s : State} (hk : Keeps mm s0 s) (h : Nat) :
    Keeps mm s0 (State.msgRestart s h) := by
  refine hk.trans ?_; clear hk; unfold State.msgRestart; try dsimp -zeta only [mkS_eq]
  try lift_lets -underBinder
  with_reducible repeat' first
    | assumption
    | exact Keeps.refl _
    | (intro x; try clear_value x)
    | apply State.msgSync_keeps
    | apply State.setCw_keeps

theorem State.msgFlr_keeps {mm : Bool} {s0 s : State} (hk : Keeps mm s0 s) (h : Nat) :
    Keeps mm s0 (State.msgFlr s h) := by
  refine hk.trans ?_; clear hk; unfold State.msgFlr; try dsimp -zeta only [mkS_eq]
  try lift_lets -underBinder
  with_reducible repeat' first
    | assumption
    | exact Keeps.refl _
    | (intro x; try clear_value x)
    | apply State.msgSync_keeps
    | apply State.setCw_keeps

theorem State.txqPush_keeps {mm : Bool} {s0 s : State} (hk : Keeps mm s0 s) (h v : Nat) :
    Keeps mm s0 (State.txqPush s h v) := by
  refine hk.trans ?_; clear hk; unfold State.txqPush; try dsimp -zeta only [mkS_eq]
  try lift_lets -underBinder
  with_reducible repeat' first
    | assumption
    | exact Keeps.refl _
    | (intro x; refine Keeps.abs (mm := mm) (x := x) (s := s) ?_ (fun hk => ?_); rotate_left; clear_value x; rotate_right; dsimp -zeta only [x]; try clear x)
    | (intro x; try clear_value x)
    | apply State.refuse4_keeps
    | apply State.badWrite_keeps
    | apply State.p_keeps
    | apply State.sendMsg_keeps
    | lift_lets -underBinder
    | apply Keeps.ite

theorem State.rxqPop_keeps {mm : Bool} {s0 s : State} (hk : Keeps mm s0 s) (h v : Nat) :
    Keeps mm s0 (State.rxqPop s h v) := by
  refine hk.trans ?_; clear hk; unfold State.rxqPop; try dsimp -zeta only [mkS_eq]
  try lift_lets -underBinder
  with_reducible repeat' first
    | assumption
    | exact Keeps.refl _
    | (intro x; try clear_value x)
    | apply State.msgSync_keeps
    | apply State.setCw_keeps
    | apply upd_keeps
    | exact Fits.refl _
    | lift_lets -underBinder
    | apply Keeps.ite

theorem execCwyTxqPush_keeps {mm : Bool} {s0 s : State} (hk : Keeps mm s0 s) (h : Fin 4) :
    Keeps mm s0 (after s (execCwyTxqPush h s)) := by
  refine hk.trans ?_; clear hk; unfold execCwyTxqPush; try dsimp -zeta only [mkS_eq]
  try lift_lets -underBinder
  with_reducible repeat' first
    | assumption
    | exact Keeps.refl _
    | (apply KeepsF.intro; intro s; (try dsimp -zeta only); try lift_lets -underBinder)
    | (intro x; try clear_value x)
    | apply after_next_keeps
    | apply State.hostReg_keeps
    | apply State.txqPush_keeps

theorem execCwyRxqPop_keeps {mm : Bool} {s0 s : State} (hk : Keeps mm s0 s) (h : Fin 4) :
    Keeps mm s0 (after s (execCwyRxqPop h s)) := by
  refine hk.trans ?_; clear hk; unfold execCwyRxqPop; try dsimp -zeta only [mkS_eq]
  try lift_lets -underBinder
  with_reducible repeat' first
    | assumption
    | exact Keeps.refl _
    | (apply KeepsF.intro; intro s; (try dsimp -zeta only); try lift_lets -underBinder)
    | (intro x; try clear_value x)
    | apply after_next_keeps
    | apply State.hostReg_keeps
    | apply State.rxqPop_keeps

end Sys2Proof.Machine
end

