-- ==== Sys2Proof/Laws/KeepsRawRoute.lean ====
section
/-! SUPPORT. What the functions of Machine/RawRoute.lean keep: the part, the queue, the memories where they store nothing, and the
canonical form of the tables. -/

namespace Sys2Proof.Machine
theorem State.setRaws_keeps {mm : Bool} {s0 s : State} (hk : Keeps mm s0 s) (h : Nat) (f : List RawFrame → List RawFrame) :
    Keeps mm s0 (State.setRaws s h f) := by
  refine hk.trans ?_; clear hk; unfold State.setRaws; try dsimp -zeta only [mkS_eq]
  try lift_lets -underBinder
  with_reducible repeat' first
    | assumption
    | exact Keeps.refl _
    | (intro x; try clear_value x)
    | apply upd_keeps
    | exact Fits.refl _
    | (simp only [upd_length, List.length_map, List.length_replicate]; exact Fits.refl _)

theorem State.setRaw_keeps {mm : Bool} {s0 s : State} (hk : Keeps mm s0 s) (h seq : Nat) (f : RawFrame → RawFrame) :
    Keeps mm s0 (State.setRaw s h seq f) := by
  refine hk.trans ?_; clear hk; unfold State.setRaw; try dsimp -zeta only [mkS_eq]
  try lift_lets -underBinder
  with_reducible repeat' first
    | assumption
    | exact Keeps.refl _
    | (intro x; try clear_value x)
    | apply State.setRaws_keeps

theorem State.setStrip_keeps {mm : Bool} {s0 s : State} (hk : Keeps mm s0 s) (h seq i : Nat) (f : Strip → Strip) :
    Keeps mm s0 (State.setStrip s h seq i f) := by
  refine hk.trans ?_; clear hk; unfold State.setStrip; try dsimp -zeta only [mkS_eq]
  try lift_lets -underBinder
  with_reducible repeat' first
    | assumption
    | exact Keeps.refl _
    | (intro x; try clear_value x)
    | apply State.setRaw_keeps

theorem State.vlcSync_keeps {mm : Bool} {s0 s : State} (hk : Keeps mm s0 s) (h : Nat) :
    Keeps mm s0 (State.vlcSync s h) := by
  refine hk.trans ?_; clear hk; unfold State.vlcSync; try dsimp -zeta only [mkS_eq]
  try lift_lets -underBinder
  with_reducible repeat' first
    | assumption
    | exact Keeps.refl _
    | (intro x; refine Keeps.abs (mm := mm) (x := x) (s := s) ?_ (fun hk => ?_); rotate_left; clear_value x; rotate_right; dsimp -zeta only [x]; try clear x)
    | (intro x; try clear_value x)
    | apply State.p_keeps
    | apply State.workEnds_keeps
    | apply State.setBusy_keeps
    | lift_lets -underBinder
    | apply Keeps.ite

theorem State.rawStart_keeps {mm : Bool} {s0 s : State} (hk : Keeps mm s0 s) (h : Nat) (fr : Frame) :
    Keeps mm s0 (State.rawStart s h fr) := by
  refine hk.trans ?_; clear hk; unfold State.rawStart; try dsimp -zeta only [mkS_eq]
  try lift_lets -underBinder
  with_reducible repeat' first
    | assumption
    | exact Keeps.refl _
    | (intro x; try clear_value x)
    | apply State.vlcSync_keeps
    | apply State.setRaws_keeps

theorem State.rawLine_keeps {mm : Bool} {s0 s : State} (hk : Keeps mm s0 s) (h seq : Nat) (x : RawLine) :
    Keeps mm s0 (State.rawLine s h seq x) := by
  refine hk.trans ?_; clear hk; unfold State.rawLine; try dsimp -zeta only [mkS_eq]
  try lift_lets -underBinder
  with_reducible repeat' first
    | assumption
    | exact Keeps.refl _
    | (intro x; try clear_value x)
    | apply State.vlcSync_keeps
    | apply State.setRaw_keeps

theorem State.areaPut_keeps {s0 s : State} (hk : Keeps false s0 s) (h : Nat) (n : Nat) (at_ : Nat) (l : List Byte) :
    Keeps false s0 (State.areaPut s h n at_ l) := by
  induction n generalizing s0 s at_ l with
  | zero =>
    rw [State.areaPut.eq_1]; refine hk.trans ?_; clear hk; try dsimp -zeta only [mkS_eq]
    try lift_lets -underBinder
    with_reducible repeat' first
      | assumption
      | exact Keeps.refl _
  | succ a ih =>
    rw [State.areaPut.eq_2]; refine hk.trans ?_; clear hk; try dsimp -zeta only [mkS_eq]
    try lift_lets -underBinder
    with_reducible repeat' first
      | assumption
      | exact Keeps.refl _
      | with_reducible apply ih
      | (intro x; try clear_value x)
      | apply State.hbmCount_keeps
      | apply State.hbmStore_keeps
      | lift_lets -underBinder
      | apply Keeps.ite

theorem State.areaStore_keeps {s0 s : State} (hk : Keeps false s0 s) (h at_ : Nat) (l : List Byte) :
    Keeps false s0 (State.areaStore s h at_ l) := by
  refine hk.trans ?_; clear hk; unfold State.areaStore; try dsimp -zeta only [mkS_eq]
  try lift_lets -underBinder
  with_reducible repeat' first
    | assumption
    | exact Keeps.refl _
    | (intro x; try clear_value x)
    | apply State.areaPut_keeps

theorem State.placeSync_keeps {mm : Bool} {s0 s : State} (hk : Keeps mm s0 s) (h seq : Nat) :
    Keeps mm s0 (State.placeSync s h seq) := by
  refine hk.trans ?_; clear hk; unfold State.placeSync; try dsimp -zeta only [mkS_eq]
  try lift_lets -underBinder
  with_reducible repeat' first
    | assumption
    | exact Keeps.refl _
    | (intro x; try clear_value x)
    | apply State.setArea_keeps
    | apply upd_keeps
    | exact Fits.refl _
    | lift_lets -underBinder
    | apply Keeps.ite
    | split

theorem State.sealPlaced_keeps {mm : Bool} {s0 s : State} (hk : Keeps mm s0 s) (h : Nat) :
    Keeps mm s0 (State.sealPlaced s h) := by
  refine hk.trans ?_; clear hk; unfold State.sealPlaced; try dsimp -zeta only [mkS_eq]
  try lift_lets -underBinder
  with_reducible repeat' first
    | assumption
    | exact Keeps.refl _
    | (apply KeepsF.intro; intro s; (try dsimp -zeta only); try lift_lets -underBinder)
    | (intro x; try clear_value x)
    | apply State.placeSync_keeps
    | apply State.setRaw_keeps
    | apply foldl_keeps
    | lift_lets -underBinder
    | apply Keeps.ite

theorem State.rawPlace_keeps {mm : Bool} {s0 s : State} (hk : Keeps mm s0 s) (h seq : Nat) (ratio : Nat) :
    Keeps mm s0 (State.rawPlace s h seq ratio).2 := by
  refine hk.trans ?_; clear hk; unfold State.rawPlace; try dsimp -zeta only [mkS_eq]
  try lift_lets -underBinder
  with_reducible repeat' first
    | assumption
    | exact Keeps.refl _
    | (intro x; refine Keeps.abs (mm := mm) (x := x) (s := s) ?_ (fun hk => ?_); rotate_left; clear_value x; rotate_right; dsimp -zeta only [x]; try clear x)
    | (intro x; try clear_value x)
    | apply State.sealPlaced_keeps
    | apply State.irq_keeps
    | apply State.setRaw_keeps
    | apply upd_keeps
    | exact Fits.refl _
    | lift_lets -underBinder
    | apply Keeps.ite
    | split

theorem State.takeSlot_keeps {mm : Bool} {s0 s : State} (hk : Keeps mm s0 s) (h seq i len : Nat) :
    Keeps mm s0 (State.takeSlot s h seq i len) := by
  refine hk.trans ?_; clear hk; unfold State.takeSlot; try dsimp -zeta only [mkS_eq]
  try lift_lets -underBinder
  with_reducible repeat' first
    | assumption
    | exact Keeps.refl _
    | (intro x; try clear_value x)
    | apply State.setRaw_keeps
    | apply State.placeSync_keeps
    | apply State.setStrip_keeps
    | apply upd_keeps
    | exact Fits.refl _
    | lift_lets -underBinder
    | apply Keeps.ite
    | split

theorem State.putRecord_keeps {s0 s : State} (hk : Keeps false s0 s) (h seq i : Nat) (l : List Byte) :
    Keeps false s0 (State.putRecord s h seq i l).2 := by
  refine hk.trans ?_; clear hk; unfold State.putRecord; try dsimp -zeta only [mkS_eq]
  try lift_lets -underBinder
  with_reducible repeat' first
    | assumption
    | exact Keeps.refl _
    | (intro x; refine Keeps.abs (mm := false) (x := x) (s := s) ?_ (fun hk => ?_); rotate_left; clear_value x; rotate_right; dsimp -zeta only [x]; try clear x)
    | (intro x; try clear_value x)
    | apply State.setStrip_keeps
    | apply State.areaStore_keeps
    | apply State.irq_keeps
    | apply State.placeSync_keeps
    | apply State.setRaw_keeps
    | apply State.setArea_keeps
    | apply upd_keeps
    | exact Fits.refl _
    | lift_lets -underBinder
    | apply Keeps.ite
    | split

theorem State.rawDrop_keeps {mm : Bool} {s0 s : State} (hk : Keeps mm s0 s) (h seq : Nat) :
    Keeps mm s0 (State.rawDrop s h seq) := by
  refine hk.trans ?_; clear hk; unfold State.rawDrop; try dsimp -zeta only [mkS_eq]
  try lift_lets -underBinder
  with_reducible repeat' first
    | assumption
    | exact Keeps.refl _
    | (intro x; try clear_value x)
    | apply State.setRaws_keeps
    | apply State.setArea_keeps
    | apply State.vlcSync_keeps
    | apply upd_keeps
    | exact Fits.refl _
    | lift_lets -underBinder
    | apply Keeps.ite
    | split

theorem State.frameCommitted_keeps {s0 s : State} (hk : Keeps false s0 s) (h : Nat) :
    Keeps false s0 (State.frameCommitted s h) := by
  refine hk.trans ?_; clear hk; unfold State.frameCommitted; try dsimp -zeta only [mkS_eq]
  try lift_lets -underBinder
  with_reducible repeat' first
    | assumption
    | exact Keeps.refl _
    | (intro x; refine Keeps.abs (mm := false) (x := x) (s := s) ?_ (fun hk => ?_); rotate_left; clear_value x; rotate_right; dsimp -zeta only [x]; try clear x)
    | (intro x; try clear_value x)
    | apply State.placeSync_keeps
    | apply State.setRaw_keeps
    | apply State.areaStore_keeps
    | apply State.count_keeps
    | apply State.commitFrame_keeps
    | apply State.vlcSync_keeps
    | apply State.setRaws_keeps
    | apply upd_keeps
    | exact Fits.refl _
    | lift_lets -underBinder
    | apply Keeps.ite
    | split

theorem execFrameCommitted_keeps {s0 s : State} (hk : Keeps false s0 s) (h : Fin 4) :
    Keeps false s0 (after s (execFrameCommitted h s)) := by
  refine hk.trans ?_; clear hk; unfold execFrameCommitted; try dsimp -zeta only [mkS_eq]
  try lift_lets -underBinder
  with_reducible repeat' first
    | assumption
    | exact Keeps.refl _
    | (intro x; try clear_value x)
    | apply after_next_keeps
    | apply State.frameCommitted_keeps

end Sys2Proof.Machine
end

