-- ==== Sys2Proof/Laws/KeepsIngest.lean ====
section
/-! SUPPORT. What the functions of Machine/Ingest.lean keep: the part, the queue, the memories where they store nothing, and the
canonical form of the tables. -/

namespace Sys2Proof.Machine
theorem State.setIg_keeps {mm : Bool} {s0 s : State} (hk : Keeps mm s0 s) (h : Nat) (f : Ingest → Ingest) :
    Keeps mm s0 (State.setIg s h f) := by
  refine hk.trans ?_; clear hk; unfold State.setIg; try dsimp -zeta only [mkS_eq]
  try lift_lets -underBinder
  with_reducible repeat' first
    | assumption
    | exact Keeps.refl _
    | (intro x; try clear_value x)
    | apply upd_keeps
    | exact Fits.refl _
    | (simp only [upd_length, List.length_map, List.length_replicate]; exact Fits.refl _)

theorem State.ingSync_keeps {mm : Bool} {s0 s : State} (hk : Keeps mm s0 s) (h : Nat) :
    Keeps mm s0 (State.ingSync s h) := by
  refine hk.trans ?_; clear hk; unfold State.ingSync; try dsimp -zeta only [mkS_eq]
  try lift_lets -underBinder
  with_reducible repeat' first
    | assumption
    | exact Keeps.refl _
    | (intro x; try clear_value x)
    | apply State.p_keeps

theorem State.ingTidy_keeps {mm : Bool} {s0 s : State} (hk : Keeps mm s0 s) (h : Nat) :
    Keeps mm s0 (State.ingTidy s h) := by
  refine hk.trans ?_; clear hk; unfold State.ingTidy; try dsimp -zeta only [mkS_eq]
  try lift_lets -underBinder
  with_reducible repeat' first
    | assumption
    | exact Keeps.refl _
    | (intro x; try clear_value x)
    | apply State.ingSync_keeps
    | apply State.workEnds_keeps
    | lift_lets -underBinder
    | apply Keeps.ite

theorem State.abandonLog_keeps {mm : Bool} {s0 s : State} (hk : Keeps mm s0 s) (h first last reason : Nat) :
    Keeps mm s0 (State.abandonLog s h first last reason) := by
  refine hk.trans ?_; clear hk; unfold State.abandonLog; try dsimp -zeta only [mkS_eq]
  try lift_lets -underBinder
  with_reducible repeat' first
    | assumption
    | exact Keeps.refl _
    | (intro x; try clear_value x)
    | apply State.ingSync_keeps
    | apply State.irq_keeps
    | apply State.setIg_keeps
    | apply State.jnlAbandon_keeps
    | apply State.irqIf_keeps
    | apply State.p_keeps
    | apply upd_keeps
    | exact Fits.refl _
    | lift_lets -underBinder
    | apply Keeps.ite
    | split

theorem State.setSend_keeps {mm : Bool} {s0 s : State} (hk : Keeps mm s0 s) (h : Nat) (held : List Nat) :
    Keeps mm s0 (State.setSend s h held) := by
  refine hk.trans ?_; clear hk; unfold State.setSend; try dsimp -zeta only [mkS_eq]
  try lift_lets -underBinder
  with_reducible repeat' first
    | assumption
    | exact Keeps.refl _
    | exact KeepsF.id
    | (intro x; refine Keeps.abs (mm := mm) (x := x) (s := s) ?_ (fun hk => ?_); rotate_left; clear_value x; rotate_right; dsimp -zeta only [x]; try clear x)
    | ((apply KeepsF.ap (by assumption)))
    | (intro x; refine KeepsF2.abs (mm := mm) (x := x) ?_ (fun hk => ?_); rotate_left; clear_value x; rotate_right; dsimp -zeta only [x]; try clear x)
    | (apply KeepsF2.intro; intro n s; (try dsimp -zeta only); try lift_lets -underBinder)
    | ((apply KeepsF2.ap (by assumption)))
    | ((apply KeepsF3.ap (by assumption)))
    | (intro x; try clear_value x)
    | apply State.p_keeps
    | apply State.irq_keeps
    | apply State.setIg_keeps
    | apply State.sendMsg_keeps
    | apply upd_keeps
    | exact Fits.refl _
    | lift_lets -underBinder
    | apply Keeps.ite

theorem State.ingLatch_keeps {mm : Bool} {s0 s : State} (hk : Keeps mm s0 s) (h : Nat) :
    Keeps mm s0 (State.ingLatch s h) := by
  refine hk.trans ?_; clear hk; unfold State.ingLatch; try dsimp -zeta only [mkS_eq]
  try lift_lets -underBinder
  with_reducible repeat' first
    | assumption
    | exact Keeps.refl _
    | (apply KeepsF.intro; intro s; (try dsimp -zeta only); try lift_lets -underBinder)
    | (intro x; refine Keeps.abs (mm := mm) (x := x) (s := s) ?_ (fun hk => ?_); rotate_left; clear_value x; rotate_right; dsimp -zeta only [x]; try clear x)
    | (intro x; try clear_value x)
    | apply State.latch_keeps
    | apply State.clrLatchCheck_keeps
    | apply State.sliceLatchCheck_keeps
    | apply State.setSend_keeps
    | apply foldl_keeps
    | lift_lets -underBinder
    | apply Keeps.ite

theorem State.frameLeaves_keeps {s0 s : State} (hk : Keeps false s0 s) (h : Nat) (fr : Frame) :
    Keeps false s0 (State.frameLeaves s h fr) := by
  refine hk.trans ?_; clear hk; unfold State.frameLeaves; try dsimp -zeta only [mkS_eq]
  try lift_lets -underBinder
  with_reducible repeat' first
    | assumption
    | exact Keeps.refl _
    | (intro x; refine Keeps.abs (mm := false) (x := x) (s := s) ?_ (fun hk => ?_); rotate_left; clear_value x; rotate_right; dsimp -zeta only [x]; try clear x)
    | (intro x; try clear_value x)
    | apply State.addSat_keeps
    | apply State.irqIf_keeps
    | apply State.setIg_keeps
    | apply State.sliceClose_keeps
    | apply upd_keeps
    | exact Fits.refl _
    | lift_lets -underBinder
    | apply Keeps.ite

theorem State.abandonFrame_keeps {s0 s : State} (hk : Keeps false s0 s) (h seq reason : Nat) :
    Keeps false s0 (State.abandonFrame s h seq reason) := by
  refine hk.trans ?_; clear hk; unfold State.abandonFrame; try dsimp -zeta only [mkS_eq]
  try lift_lets -underBinder
  with_reducible repeat' first
    | assumption
    | exact Keeps.refl _
    | (intro x; refine Keeps.abs (mm := false) (x := x) (s := s) ?_ (fun hk => ?_); rotate_left; clear_value x; rotate_right; dsimp -zeta only [x]; try clear x)
    | (intro x; try clear_value x)
    | apply State.rawDrop_keeps
    | apply State.abandonLog_keeps
    | apply State.ingTidy_keeps
    | apply State.ingLatch_keeps
    | apply State.frameLeaves_keeps
    | apply State.setIg_keeps
    | apply State.setFrame_keeps
    | apply upd_keeps
    | exact Fits.refl _
    | lift_lets -underBinder
    | apply Keeps.ite
    | split

theorem State.abandonAll_keeps {s0 s : State} (hk : Keeps false s0 s) (h reason : Nat) :
    Keeps false s0 (State.abandonAll s h reason) := by
  refine hk.trans ?_; clear hk; unfold State.abandonAll; try dsimp -zeta only [mkS_eq]
  try lift_lets -underBinder
  with_reducible repeat' first
    | assumption
    | exact Keeps.refl _
    | (apply KeepsF.intro; intro s; (try dsimp -zeta only); try lift_lets -underBinder)
    | (intro x; refine Keeps.abs (mm := false) (x := x) (s := s) ?_ (fun hk => ?_); rotate_left; clear_value x; rotate_right; dsimp -zeta only [x]; try clear x)
    | (intro x; try clear_value x)
    | apply State.abandonLog_keeps
    | apply State.abandonFrame_keeps
    | apply State.rawDrop_keeps
    | apply foldl_keeps
    | apply upd_keeps
    | exact Fits.refl _
    | lift_lets -underBinder
    | apply Keeps.ite
    | split

theorem State.abandonCur_keeps {s0 s : State} (hk : Keeps false s0 s) (h reason : Nat) :
    Keeps false s0 (State.abandonCur s h reason) := by
  refine hk.trans ?_; clear hk; unfold State.abandonCur; try dsimp -zeta only [mkS_eq]
  try lift_lets -underBinder
  with_reducible repeat' first
    | assumption
    | exact Keeps.refl _
    | (intro x; try clear_value x)
    | apply State.abandonFrame_keeps
    | apply upd_keeps
    | exact Fits.refl _
    | lift_lets -underBinder
    | apply Keeps.ite
    | split

theorem State.rawClose_keeps {s0 s : State} (hk : Keeps false s0 s) (h : Nat) (fr : Frame) :
    Keeps false s0 (State.rawClose s h fr) := by
  refine hk.trans ?_; clear hk; unfold State.rawClose; try dsimp -zeta only [mkS_eq]
  try lift_lets -underBinder
  with_reducible repeat' first
    | assumption
    | exact Keeps.refl _
    | (intro x; refine Keeps.abs (mm := false) (x := x) (s := s) ?_ (fun hk => ?_); rotate_left; clear_value x; rotate_right; dsimp -zeta only [x]; try clear x)
    | (intro x; refine Keeps.abs (mm := false) (x := x.2) (s := s) ?_ (fun hk => ?_); rotate_left; clear_value x; rotate_right; dsimp -zeta only [x]; try clear x)
    | (intro x; try clear_value x)
    | apply State.vlcSync_keeps
    | apply State.setRaw_keeps
    | apply State.rawPlace_keeps
    | apply State.abandonFrame_keeps
    | apply upd_keeps
    | exact Fits.refl _
    | (apply Keeps.ofpair (by assumption))
    | (apply Keeps.ofpair1 (by assumption))
    | (apply Keeps.oftriple (by assumption))
    | lift_lets -underBinder
    | apply Keeps.ite
    | split

theorem State.ingClose_keeps {s0 s : State} (hk : Keeps false s0 s) (h flags : Nat) :
    Keeps false s0 (State.ingClose s h flags) := by
  refine hk.trans ?_; clear hk; unfold State.ingClose; try dsimp -zeta only [mkS_eq]
  try lift_lets -underBinder
  with_reducible repeat' first
    | assumption
    | exact Keeps.refl _
    | (intro x; try clear_value x)
    | apply State.ingTidy_keeps
    | apply State.ingLatch_keeps
    | apply State.rawClose_keeps
    | apply State.frameLeaves_keeps
    | apply upd_keeps
    | exact Fits.refl _
    | lift_lets -underBinder
    | apply Keeps.ite
    | split

theorem State.ringWrite_keeps {s0 s : State} (hk : Keeps false s0 s) (h : Nat) (fr : Frame) (num : Nat) (l : RawLine) :
    Keeps false s0 (State.ringWrite s h fr num l) := by
  refine hk.trans ?_; clear hk; unfold State.ringWrite; try dsimp -zeta only [mkS_eq]
  try lift_lets -underBinder
  with_reducible repeat' first
    | assumption
    | exact Keeps.refl _
    | (intro x; refine Keeps.abs (mm := false) (x := x) (s := s) ?_ (fun hk => ?_); rotate_left; clear_value x; rotate_right; dsimp -zeta only [x]; try clear x)
    | (intro x; refine Keeps.abs (mm := false) (x := x.2) (s := s) ?_ (fun hk => ?_); rotate_left; clear_value x; rotate_right; dsimp -zeta only [x]; try clear x)
    | (intro x; try clear_value x)
    | apply State.engineWrite_keeps
    | apply State.hbmCount_keeps
    | apply State.p_keeps
    | apply State.fault_keeps
    | lift_lets -underBinder
    | apply Keeps.ite

theorem State.slicePasses_keeps {mm : Bool} {s0 s : State} (hk : Keeps mm s0 s) (p seq num : Nat) (env : LineEnv) :
    Keeps mm s0 (State.slicePasses s p seq num env) := by
  refine hk.trans ?_; clear hk; unfold State.slicePasses; try dsimp -zeta only [mkS_eq]
  try lift_lets -underBinder
  with_reducible repeat' first
    | assumption
    | exact Keeps.refl _
    | (intro x; refine Keeps.abs (mm := mm) (x := x) (s := s) ?_ (fun hk => ?_); rotate_left; clear_value x; rotate_right; dsimp -zeta only [x]; try clear x)
    | (intro x; try clear_value x)
    | apply State.lineChecks_keeps
    | apply State.sumpWord_keeps
    | apply State.residueFail_keeps
    | apply upd_keeps
    | exact Fits.refl _
    | (apply Keeps.ofpair (by assumption))
    | (apply Keeps.ofpair1 (by assumption))
    | (apply Keeps.oftriple (by assumption))
    | lift_lets -underBinder
    | apply Keeps.ite
    | split

theorem State.deliver_keeps {s0 s : State} (hk : Keeps false s0 s) (h : Nat) (l : RawLine) (env : LineEnv) :
    Keeps false s0 (State.deliver s h l env) := by
  refine hk.trans ?_; clear hk; unfold State.deliver; try dsimp -zeta only [mkS_eq]
  try lift_lets -underBinder
  with_reducible repeat' first
    | assumption
    | exact Keeps.refl _
    | (intro x; refine Keeps.abs (mm := false) (x := x) (s := s) ?_ (fun hk => ?_); rotate_left; clear_value x; rotate_right; dsimp -zeta only [x]; try clear x)
    | (intro x; try clear_value x)
    | apply State.addSat_keeps
    | apply State.setIg_keeps
    | apply State.rawLine_keeps
    | apply State.ringWrite_keeps
    | apply State.slicePasses_keeps
    | apply State.sliceLine_keeps
    | apply upd_keeps
    | exact Fits.refl _
    | lift_lets -underBinder
    | apply Keeps.ite
    | split

theorem State.lineEnds_keeps {s0 s : State} (hk : Keeps false s0 s) (h : Nat) (env : LineEnv) :
    Keeps false s0 (State.lineEnds s h env) := by
  refine hk.trans ?_; clear hk; unfold State.lineEnds; try dsimp -zeta only [mkS_eq]
  try lift_lets -underBinder
  with_reducible repeat' first
    | assumption
    | exact Keeps.refl _
    | (intro x; try clear_value x)
    | apply State.deliver_keeps
    | apply State.setIg_keeps
    | apply upd_keeps
    | exact Fits.refl _
    | lift_lets -underBinder
    | apply Keeps.ite
    | split

theorem State.lineStripe_keeps {s0 s : State} (hk : Keeps false s0 s) (h num width hfc : Nat) :
    Keeps false s0 (State.lineStripe s h num width hfc) := by
  refine hk.trans ?_; clear hk; unfold State.lineStripe; try dsimp -zeta only [mkS_eq]
  try lift_lets -underBinder
  with_reducible repeat' first
    | assumption
    | exact Keeps.refl _
    | (intro x; refine Keeps.abs (mm := false) (x := x) (s := s) ?_ (fun hk => ?_); rotate_left; clear_value x; rotate_right; dsimp -zeta only [x]; try clear x)
    | ((apply KeepsF.ap (by assumption)))
    | (intro x; refine KeepsF2.abs (mm := false) (x := x) ?_ (fun hk => ?_); rotate_left; clear_value x; rotate_right; dsimp -zeta only [x]; try clear x)
    | (apply KeepsF2.intro; intro n s; (try dsimp -zeta only); try lift_lets -underBinder)
    | ((apply KeepsF2.ap (by assumption)))
    | ((apply KeepsF3.ap (by assumption)))
    | (intro x; try clear_value x)
    | apply State.lineEnds_keeps
    | apply State.setIg_keeps
    | apply State.addSat_keeps
    | apply State.ingClose_keeps
    | apply upd_keeps
    | exact Fits.refl _
    | lift_lets -underBinder
    | apply Keeps.ite
    | split

theorem State.dataStripe_keeps {s0 s : State} (hk : Keeps false s0 s) (h : Nat) (bytes : List Byte) (env : LineEnv) :
    Keeps false s0 (State.dataStripe s h bytes env) := by
  refine hk.trans ?_; clear hk; unfold State.dataStripe; try dsimp -zeta only [mkS_eq]
  try lift_lets -underBinder
  with_reducible repeat' first
    | assumption
    | exact Keeps.refl _
    | (intro x; refine Keeps.abs (mm := false) (x := x) (s := s) ?_ (fun hk => ?_); rotate_left; clear_value x; rotate_right; dsimp -zeta only [x]; try clear x)
    | (intro x; try clear_value x)
    | apply State.setIg_keeps
    | apply State.lineEnds_keeps
    | apply upd_keeps
    | exact Fits.refl _
    | lift_lets -underBinder
    | apply Keeps.ite
    | split

theorem State.spareSync_keeps {mm : Bool} {s0 s : State} (hk : Keeps mm s0 s) :
    Keeps mm s0 (State.spareSync s) := by
  refine hk.trans ?_; clear hk; unfold State.spareSync; try dsimp -zeta only [mkS_eq]
  try lift_lets -underBinder
  with_reducible repeat' first
    | assumption
    | exact Keeps.refl _
    | (intro x; try clear_value x)
    | apply State.p_keeps

theorem State.unbind_keeps {mm : Bool} {s0 s : State} (hk : Keeps mm s0 s) (p : Nat) :
    Keeps mm s0 (State.unbind s p) := by
  refine hk.trans ?_; clear hk; unfold State.unbind; try dsimp -zeta only [mkS_eq]
  try lift_lets -underBinder
  with_reducible repeat' first
    | assumption
    | exact Keeps.refl _
    | (apply KeepsF.intro; intro s; (try dsimp -zeta only); try lift_lets -underBinder)
    | (intro x; refine Keeps.abs (mm := mm) (x := x) (s := s) ?_ (fun hk => ?_); rotate_left; clear_value x; rotate_right; dsimp -zeta only [x]; try clear x)
    | (intro x; try clear_value x)
    | apply State.applySlice_keeps
    | apply State.applyClr_keeps
    | apply State.setSlice_keeps
    | apply State.p_keeps
    | apply foldl_keeps
    | apply upd_keeps
    | exact Fits.refl _
    | lift_lets -underBinder
    | apply Keeps.ite

theorem State.rebind_keeps {mm : Bool} {s0 s : State} (hk : Keeps mm s0 s) (h new : Nat) :
    Keeps mm s0 (State.rebind s h new) := by
  refine hk.trans ?_; clear hk; unfold State.rebind; try dsimp -zeta only [mkS_eq]
  try lift_lets -underBinder
  with_reducible repeat' first
    | assumption
    | exact Keeps.refl _
    | (intro x; refine Keeps.abs (mm := mm) (x := x) (s := s) ?_ (fun hk => ?_); rotate_left; clear_value x; rotate_right; dsimp -zeta only [x]; try clear x)
    | (intro x; try clear_value x)
    | apply State.unbind_keeps
    | apply State.p_keeps
    | apply State.spareSync_keeps
    | lift_lets -underBinder
    | apply Keeps.ite

theorem State.copyPage_keeps {mm : Bool} {s0 s : State} (hk : Keeps mm s0 s) (blk : Blk) (i j : Nat) (offs : List Nat) :
    Keeps mm s0 (State.copyPage s blk i j offs) := by
  refine hk.trans ?_; clear hk; unfold State.copyPage; try dsimp -zeta only [mkS_eq]
  try lift_lets -underBinder
  with_reducible repeat' first
    | assumption
    | exact Keeps.refl _
    | (apply KeepsF.intro; intro s; (try dsimp -zeta only); try lift_lets -underBinder)
    | (intro x; refine Keeps.abs (mm := mm) (x := x) (s := s) ?_ (fun hk => ?_); rotate_left; clear_value x; rotate_right; dsimp -zeta only [x]; try clear x)
    | (intro x; try clear_value x)
    | apply State.wrA_keeps
    | apply State.wr_keeps
    | apply State.p64_keeps
    | apply State.p_keeps
    | apply foldl_keeps

theorem State.moveClr_keeps {mm : Bool} {s0 s : State} (hk : Keeps mm s0 s) (p t : Nat) :
    Keeps mm s0 (State.moveClr s p t) := by
  refine hk.trans ?_; clear hk; unfold State.moveClr; try dsimp -zeta only [mkS_eq]
  try lift_lets -underBinder
  with_reducible repeat' first
    | assumption
    | exact Keeps.refl _
    | (intro x; refine Keeps.abs (mm := mm) (x := x) (s := s) ?_ (fun hk => ?_); rotate_left; clear_value x; rotate_right; dsimp -zeta only [x]; try clear x)
    | (intro x; try clear_value x)
    | apply State.copyPage_keeps
    | apply State.pa_keeps
    | apply State.p_keeps
    | apply State.setClr_keeps

theorem State.takeOver_keeps {mm : Bool} {s0 s : State} (hk : Keeps mm s0 s) (h p : Nat) :
    Keeps mm s0 (State.takeOver s h p) := by
  refine hk.trans ?_; clear hk; unfold State.takeOver; try dsimp -zeta only [mkS_eq]
  try lift_lets -underBinder
  with_reducible repeat' first
    | assumption
    | exact Keeps.refl _
    | (apply KeepsF.intro; intro s; (try dsimp -zeta only); try lift_lets -underBinder)
    | (intro x; refine Keeps.abs (mm := mm) (x := x) (s := s) ?_ (fun hk => ?_); rotate_left; clear_value x; rotate_right; dsimp -zeta only [x]; try clear x)
    | (intro x; try clear_value x)
    | apply State.testYield_keeps
    | apply State.copyPage_keeps
    | apply State.moveClr_keeps
    | apply State.setSlice_keeps
    | apply State.p_keeps
    | apply State.setBusy_keeps
    | apply State.irq_keeps
    | apply State.pa_keeps
    | apply State.sndRepoint_keeps
    | apply State.spareSync_keeps
    | apply foldl_keeps
    | apply upd_keeps
    | exact Fits.refl _

theorem State.sliceHandOver_keeps {mm : Bool} {s0 s : State} (hk : Keeps mm s0 s) (p num : Nat) (held : List Nat) :
    Keeps mm s0 (State.sliceHandOver s p num held) := by
  refine hk.trans ?_; clear hk; unfold State.sliceHandOver; try dsimp -zeta only [mkS_eq]
  try lift_lets -underBinder
  with_reducible repeat' first
    | assumption
    | exact Keeps.refl _
    | (apply KeepsF.intro; intro s; (try dsimp -zeta only); try lift_lets -underBinder)
    | (intro x; refine Keeps.abs (mm := mm) (x := x) (s := s) ?_ (fun hk => ?_); rotate_left; clear_value x; rotate_right; dsimp -zeta only [x]; try clear x)
    | ((apply KeepsF.ap (by assumption)))
    | ((apply KeepsF2.ap (by assumption)))
    | ((apply KeepsF3.ap (by assumption)))
    | (intro x; try clear_value x)
    | apply State.applySlice_keeps
    | apply State.clrBoundary_keeps
    | apply State.applyClr_keeps
    | apply State.setSlice_keeps
    | apply foldl_keeps
    | apply upd_keeps
    | exact Fits.refl _
    | lift_lets -underBinder
    | apply Keeps.ite

theorem State.applyIng_keeps {mm : Bool} {s0 s : State} (hk : Keeps mm s0 s) (h num : Nat) :
    Keeps mm s0 (State.applyIng s h num) := by
  refine hk.trans ?_; clear hk; unfold State.applyIng; try dsimp -zeta only [mkS_eq]
  try lift_lets -underBinder
  with_reducible repeat' first
    | assumption
    | exact Keeps.refl _
    | (intro x; refine Keeps.abs (mm := mm) (x := x) (s := s) ?_ (fun hk => ?_); rotate_left; clear_value x; rotate_right; dsimp -zeta only [x]; try clear x)
    | (intro x; try clear_value x)
    | apply State.applyCommit_keeps
    | apply State.pa_keeps
    | apply State.p_keeps
    | apply State.setIg_keeps
    | apply State.rebind_keeps

theorem State.ingHandOver_keeps {mm : Bool} {s0 s : State} (hk : Keeps mm s0 s) (h num hfc setId : Nat) :
    Keeps mm s0 (State.ingHandOver s h num hfc setId).2 := by
  refine hk.trans ?_; clear hk; unfold State.ingHandOver; try dsimp -zeta only [mkS_eq]
  try lift_lets -underBinder
  with_reducible repeat' first
    | assumption
    | exact Keeps.refl _
    | (intro x; refine Keeps.abs (mm := mm) (x := x) (s := s) ?_ (fun hk => ?_); rotate_left; clear_value x; rotate_right; dsimp -zeta only [x]; try clear x)
    | (intro x; try clear_value x)
    | apply State.sliceHandOver_keeps
    | apply State.p_keeps
    | apply State.applyIng_keeps
    | apply State.takeOver_keeps
    | apply State.sliceSinks_keeps
    | apply upd_keeps
    | exact Fits.refl _
    | lift_lets -underBinder
    | apply Keeps.ite

theorem State.hfcGap_keeps {mm : Bool} {s0 s : State} (hk : Keeps mm s0 s) (h hfc : Nat) :
    Keeps mm s0 (State.hfcGap s h hfc).2 := by
  refine hk.trans ?_; clear hk; unfold State.hfcGap; try dsimp -zeta only [mkS_eq]
  try lift_lets -underBinder
  with_reducible repeat' first
    | assumption
    | exact Keeps.refl _
    | (intro x; refine Keeps.abs (mm := mm) (x := x) (s := s) ?_ (fun hk => ?_); rotate_left; clear_value x; rotate_right; dsimp -zeta only [x]; try clear x)
    | (intro x; try clear_value x)
    | apply State.setIg_keeps
    | apply State.addSat_keeps
    | apply State.abandonLog_keeps
    | apply State.p64_keeps
    | apply upd_keeps
    | exact Fits.refl _
    | lift_lets -underBinder
    | apply Keeps.ite
    | split

theorem State.frameStart_keeps {s0 s : State} (hk : Keeps false s0 s) (h : Nat) (x : FrameStart) :
    Keeps false s0 (State.frameStart s h x) := by
  refine hk.trans ?_; clear hk; unfold State.frameStart; try dsimp -zeta only [mkS_eq]
  try lift_lets -underBinder
  with_reducible repeat' first
    | assumption
    | exact Keeps.refl _
    | (intro x; refine Keeps.abs (mm := false) (x := x) (s := s) ?_ (fun hk => ?_); rotate_left; clear_value x; rotate_right; dsimp -zeta only [x]; try clear x)
    | (intro x; try clear_value x)
    | apply State.ingClose_keeps
    | apply State.lineEnds_keeps
    | apply State.hfcGap_keeps
    | apply State.ingHandOver_keeps
    | apply State.addSat_keeps
    | apply State.p_keeps
    | apply State.p64_keeps
    | apply State.setIg_keeps
    | apply State.rawStart_keeps
    | apply State.setBusy_keeps
    | apply State.sliceStart_keeps
    | apply State.ingSync_keeps
    | apply State.abandonFrame_keeps
    | apply upd_keeps
    | exact Fits.refl _
    | (apply Keeps.ofpair (by assumption))
    | (apply Keeps.ofpair1 (by assumption))
    | (apply Keeps.oftriple (by assumption))
    | lift_lets -underBinder
    | apply Keeps.ite

theorem State.frameEnd_keeps {s0 s : State} (hk : Keeps false s0 s) (h hfc flags : Nat) :
    Keeps false s0 (State.frameEnd s h hfc flags) := by
  refine hk.trans ?_; clear hk; unfold State.frameEnd; try dsimp -zeta only [mkS_eq]
  try lift_lets -underBinder
  with_reducible repeat' first
    | assumption
    | exact Keeps.refl _
    | (intro x; refine Keeps.abs (mm := false) (x := x) (s := s) ?_ (fun hk => ?_); rotate_left; clear_value x; rotate_right; dsimp -zeta only [x]; try clear x)
    | (intro x; try clear_value x)
    | apply State.lineEnds_keeps
    | apply State.ingClose_keeps
    | apply State.setIg_keeps
    | apply State.ingLatch_keeps
    | apply upd_keeps
    | exact Fits.refl _
    | lift_lets -underBinder
    | apply Keeps.ite
    | split

theorem State.ingStats_keeps {s0 s : State} (hk : Keeps false s0 s) (h : Nat) :
    Keeps false s0 (State.ingStats s h) := by
  refine hk.trans ?_; clear hk; unfold State.ingStats; try dsimp -zeta only [mkS_eq]
  try lift_lets -underBinder
  with_reducible repeat' first
    | assumption
    | exact Keeps.refl _
    | (intro x; try clear_value x)
    | apply State.engineWrite_keeps
    | apply State.setIg_keeps
    | apply State.ingTidy_keeps
    | apply State.irq_keeps
    | apply State.p_keeps
    | apply State.fault_keeps
    | apply upd_keeps
    | exact Fits.refl _
    | (apply Keeps.ofpair (by assumption))
    | (apply Keeps.ofpair1 (by assumption))
    | (apply Keeps.oftriple (by assumption))
    | lift_lets -underBinder
    | apply Keeps.ite
    | split

theorem State.nextSeqWrite_keeps {mm : Bool} {s0 s : State} (hk : Keeps mm s0 s) (h v : Nat) :
    Keeps mm s0 (State.nextSeqWrite s h v) := by
  refine hk.trans ?_; clear hk; unfold State.nextSeqWrite; try dsimp -zeta only [mkS_eq]
  try lift_lets -underBinder
  with_reducible repeat' first
    | assumption
    | exact Keeps.refl _
    | (intro x; try clear_value x)
    | apply State.refuse4_keeps
    | apply State.p64_keeps
    | lift_lets -underBinder
    | apply Keeps.ite

theorem State.abnCtrl_keeps {mm : Bool} {s0 s : State} (hk : Keeps mm s0 s) (h v : Nat) :
    Keeps mm s0 (State.abnCtrl s h v) := by
  refine hk.trans ?_; clear hk; unfold State.abnCtrl; try dsimp -zeta only [mkS_eq]
  try lift_lets -underBinder
  with_reducible repeat' first
    | assumption
    | exact Keeps.refl _
    | (intro x; refine Keeps.abs (mm := mm) (x := x) (s := s) ?_ (fun hk => ?_); rotate_left; clear_value x; rotate_right; dsimp -zeta only [x]; try clear x)
    | (intro x; try clear_value x)
    | apply State.ingSync_keeps
    | apply State.setIg_keeps
    | apply State.setTsq_keeps
    | apply State.p_keeps
    | apply upd_keeps
    | exact Fits.refl _
    | lift_lets -underBinder
    | apply Keeps.ite

theorem execFrameStartStripe_keeps {s0 s : State} (hk : Keeps false s0 s) (h : Fin 4) (hfc : Word) (setId width height : BitVec 16) (depth : Fin 4) (expDur : Word) (expSec : BitVec 48) (expNs : Word) (expFrac : BitVec 16) :
    Keeps false s0 (after s (execFrameStartStripe h hfc setId width height depth expDur expSec expNs expFrac s)) := by
  refine hk.trans ?_; clear hk; unfold execFrameStartStripe; try dsimp -zeta only [mkS_eq]
  try lift_lets -underBinder
  with_reducible repeat' first
    | assumption
    | exact Keeps.refl _
    | (intro x; try clear_value x)
    | apply after_next_keeps
    | apply State.frameStart_keeps

theorem execLineStripe_keeps {s0 s : State} (hk : Keeps false s0 s) (h : Fin 4) (num width : BitVec 16) (hfc : Word) :
    Keeps false s0 (after s (execLineStripe h num width hfc s)) := by
  refine hk.trans ?_; clear hk; unfold execLineStripe; try dsimp -zeta only [mkS_eq]
  try lift_lets -underBinder
  with_reducible repeat' first
    | assumption
    | exact Keeps.refl _
    | (intro x; try clear_value x)
    | apply after_next_keeps
    | apply State.lineStripe_keeps

theorem execDataStripe_keeps {s0 s : State} (hk : Keeps false s0 s) (h : Fin 4) (bytes : Vector Byte 160) (env : LineEnv) :
    Keeps false s0 (after s (execDataStripe h bytes env s)) := by
  refine hk.trans ?_; clear hk; unfold execDataStripe; try dsimp -zeta only [mkS_eq]
  try lift_lets -underBinder
  with_reducible repeat' first
    | assumption
    | exact Keeps.refl _
    | (intro x; try clear_value x)
    | apply after_next_keeps
    | apply State.dataStripe_keeps

theorem execFrameEndStripe_keeps {s0 s : State} (hk : Keeps false s0 s) (h : Fin 4) (hfc : Word) (lines : BitVec 16) (flags : Byte) :
    Keeps false s0 (after s (execFrameEndStripe h hfc lines flags s)) := by
  refine hk.trans ?_; clear hk; unfold execFrameEndStripe; try dsimp -zeta only [mkS_eq]
  try lift_lets -underBinder
  with_reducible repeat' first
    | assumption
    | exact Keeps.refl _
    | (intro x; try clear_value x)
    | apply after_next_keeps
    | apply State.frameEnd_keeps

theorem execFrameTimeout_keeps {s0 s : State} (hk : Keeps false s0 s) (h : Fin 4) :
    Keeps false s0 (after s (execFrameTimeout h s)) := by
  refine hk.trans ?_; clear hk; unfold execFrameTimeout; try dsimp -zeta only [mkS_eq]
  try lift_lets -underBinder
  with_reducible repeat' first
    | assumption
    | exact Keeps.refl _
    | (intro x; try clear_value x)
    | apply after_next_keeps
    | apply State.ingClose_keeps
    | apply State.ingLatch_keeps
    | lift_lets -underBinder
    | apply Keeps.ite

theorem execIngestStopDeadline_keeps {s0 s : State} (hk : Keeps false s0 s) (h : Fin 4) :
    Keeps false s0 (after s (execIngestStopDeadline h s)) := by
  refine hk.trans ?_; clear hk; unfold execIngestStopDeadline; try dsimp -zeta only [mkS_eq]
  try lift_lets -underBinder
  with_reducible repeat' first
    | assumption
    | exact Keeps.refl _
    | (intro x; try clear_value x)
    | apply after_next_keeps
    | apply State.abandonCur_keeps
    | lift_lets -underBinder
    | apply Keeps.ite

theorem execStatsBlockWritten_keeps {s0 s : State} (hk : Keeps false s0 s) (h : Fin 4) :
    Keeps false s0 (after s (execStatsBlockWritten h s)) := by
  refine hk.trans ?_; clear hk; unfold execStatsBlockWritten; try dsimp -zeta only [mkS_eq]
  try lift_lets -underBinder
  with_reducible repeat' first
    | assumption
    | exact Keeps.refl _
    | (intro x; try clear_value x)
    | apply after_next_keeps
    | apply State.ingStats_keeps

theorem execIngNextSeqWrite_keeps {mm : Bool} {s0 s : State} (hk : Keeps mm s0 s) (h : Fin 4) (v : BitVec 64) :
    Keeps mm s0 (after s (execIngNextSeqWrite h v s)) := by
  refine hk.trans ?_; clear hk; unfold execIngNextSeqWrite; try dsimp -zeta only [mkS_eq]
  try lift_lets -underBinder
  with_reducible repeat' first
    | assumption
    | exact Keeps.refl _
    | (apply KeepsF.intro; intro s; (try dsimp -zeta only); try lift_lets -underBinder)
    | (intro x; try clear_value x)
    | apply after_next_keeps
    | apply State.hostSized_keeps
    | apply State.regOp_keeps
    | apply State.nextSeqWrite_keeps

theorem execAbnPop_keeps {mm : Bool} {s0 s : State} (hk : Keeps mm s0 s) (h : Fin 4) :
    Keeps mm s0 (after s (execAbnPop h s)) := by
  refine hk.trans ?_; clear hk; unfold execAbnPop; try dsimp -zeta only [mkS_eq]
  try lift_lets -underBinder
  with_reducible repeat' first
    | assumption
    | exact Keeps.refl _
    | (apply KeepsF.intro; intro s; (try dsimp -zeta only); try lift_lets -underBinder)
    | (intro x; try clear_value x)
    | apply after_next_keeps
    | apply State.hostReg_keeps
    | apply State.abnCtrl_keeps

theorem execAbnClrOvf_keeps {mm : Bool} {s0 s : State} (hk : Keeps mm s0 s) (h : Fin 4) :
    Keeps mm s0 (after s (execAbnClrOvf h s)) := by
  refine hk.trans ?_; clear hk; unfold execAbnClrOvf; try dsimp -zeta only [mkS_eq]
  try lift_lets -underBinder
  with_reducible repeat' first
    | assumption
    | exact Keeps.refl _
    | (apply KeepsF.intro; intro s; (try dsimp -zeta only); try lift_lets -underBinder)
    | (intro x; try clear_value x)
    | apply after_next_keeps
    | apply State.hostReg_keeps
    | apply State.abnCtrl_keeps

end Sys2Proof.Machine
end

