-- ==== Sys2Proof/Laws/KeepsVrlc.lean ====
section
/-! SUPPORT. What the functions of Machine/Vrlc.lean keep: the part, the queue, the memories where they store nothing, and the
canonical form of the tables. -/

namespace Sys2Proof.Machine
theorem State.vlcForce_keeps {mm : Bool} {s0 s : State} (hk : Keeps mm s0 s) (h : Nat) :
    Keeps mm s0 (State.vlcForce s h) := by
  refine hk.trans ?_; clear hk; unfold State.vlcForce; try dsimp -zeta only [mkS_eq]
  try lift_lets -underBinder
  with_reducible repeat' first
    | assumption
    | exact Keeps.refl _
    | (intro x; try clear_value x)
    | apply State.irq_keeps
    | apply State.fault_keeps
    | apply State.pBit_keeps
    | apply State.p_keeps
    | lift_lets -underBinder
    | apply Keeps.ite

theorem State.recodeSync_keeps {mm : Bool} {s0 s : State} (hk : Keeps mm s0 s) :
    Keeps mm s0 (State.recodeSync s) := by
  refine hk.trans ?_; clear hk; unfold State.recodeSync; try dsimp -zeta only [mkS_eq]
  try lift_lets -underBinder
  with_reducible repeat' first
    | assumption
    | exact Keeps.refl _
    | (intro x; try clear_value x)
    | apply State.p_keeps

theorem State.stripSized_keeps {s0 s : State} (hk : Keeps false s0 s) (h : Nat) :
    Keeps false s0 (State.stripSized s h) := by
  refine hk.trans ?_; clear hk; unfold State.stripSized; try dsimp -zeta only [mkS_eq]
  try lift_lets -underBinder
  with_reducible repeat' first
    | assumption
    | exact Keeps.refl _
    | (intro x; refine Keeps.abs (mm := false) (x := x) (s := s) ?_ (fun hk => ?_); rotate_left; clear_value x; rotate_right; dsimp -zeta only [x]; try clear x)
    | (intro x; refine Keeps.abs (mm := false) (x := x.2) (s := s) ?_ (fun hk => ?_); rotate_left; clear_value x; rotate_right; dsimp -zeta only [x]; try clear x)
    | (intro x; try clear_value x)
    | apply State.rawPlace_keeps
    | apply State.abandonFrame_keeps
    | apply State.irq_keeps
    | apply State.setStrip_keeps
    | apply State.vlcSync_keeps
    | apply State.takeSlot_keeps
    | apply upd_keeps
    | exact Fits.refl _
    | (apply Keeps.ofpair (by assumption))
    | (apply Keeps.ofpair1 (by assumption))
    | (apply Keeps.oftriple (by assumption))
    | lift_lets -underBinder
    | apply Keeps.ite
    | split

theorem State.formRecord_keeps {s0 s : State} (hk : Keeps false s0 s) (h seq i : Nat) :
    Keeps false s0 (State.formRecord s h seq i) := by
  refine hk.trans ?_; clear hk; unfold State.formRecord; try dsimp -zeta only [mkS_eq]
  try lift_lets -underBinder
  with_reducible repeat' first
    | assumption
    | exact Keeps.refl _
    | (intro x; refine Keeps.abs (mm := false) (x := x.2) (s := s) ?_ (fun hk => ?_); rotate_left; clear_value x; rotate_right; dsimp -zeta only [x]; try clear x)
    | (intro x; try clear_value x)
    | apply State.putRecord_keeps
    | apply State.vlcSync_keeps
    | apply State.abandonFrame_keeps
    | apply upd_keeps
    | exact Fits.refl _
    | (apply Keeps.ofpair (by assumption))
    | (apply Keeps.ofpair1 (by assumption))
    | (apply Keeps.oftriple (by assumption))
    | lift_lets -underBinder
    | apply Keeps.ite
    | split

theorem State.stripCoded_keeps {s0 s : State} (hk : Keeps false s0 s) (h : Nat) :
    Keeps false s0 (State.stripCoded s h) := by
  refine hk.trans ?_; clear hk; unfold State.stripCoded; try dsimp -zeta only [mkS_eq]
  try lift_lets -underBinder
  with_reducible repeat' first
    | assumption
    | exact Keeps.refl _
    | (intro x; try clear_value x)
    | apply State.formRecord_keeps
    | apply State.setStrip_keeps
    | apply upd_keeps
    | exact Fits.refl _
    | lift_lets -underBinder
    | apply Keeps.ite
    | split

theorem State.handRecord_keeps {mm : Bool} {s0 s : State} (hk : Keeps mm s0 s) (h seq i : Nat) :
    Keeps mm s0 (State.handRecord s h seq i) := by
  refine hk.trans ?_; clear hk; unfold State.handRecord; try dsimp -zeta only [mkS_eq]
  try lift_lets -underBinder
  with_reducible repeat' first
    | assumption
    | exact Keeps.refl _
    | (intro x; try clear_value x)
    | apply State.setStrip_keeps
    | apply State.addSat_keeps
    | apply State.p64_keeps
    | apply State.p_keeps
    | apply State.vlcSync_keeps
    | apply upd_keeps
    | exact Fits.refl _
    | lift_lets -underBinder
    | apply Keeps.ite
    | split

theorem State.mismatch_keeps {mm : Bool} {s0 s : State} (hk : Keeps mm s0 s) (h seq i : Nat) (c4 : Bool) :
    Keeps mm s0 (State.mismatch s h seq i c4) := by
  refine hk.trans ?_; clear hk; unfold State.mismatch; try dsimp -zeta only [mkS_eq]
  try lift_lets -underBinder
  with_reducible repeat' first
    | assumption
    | exact Keeps.refl _
    | (intro x; refine Keeps.abs (mm := mm) (x := x) (s := s) ?_ (fun hk => ?_); rotate_left; clear_value x; rotate_right; dsimp -zeta only [x]; try clear x)
    | (intro x; try clear_value x)
    | apply State.p_keeps
    | apply State.addSat_keeps
    | apply State.irq_keeps
    | apply State.p64_keeps

theorem State.storeInstead_keeps {s0 s : State} (hk : Keeps false s0 s) (h seq i : Nat) :
    Keeps false s0 (State.storeInstead s h seq i) := by
  refine hk.trans ?_; clear hk; unfold State.storeInstead; try dsimp -zeta only [mkS_eq]
  try lift_lets -underBinder
  with_reducible repeat' first
    | assumption
    | exact Keeps.refl _
    | (intro x; refine Keeps.abs (mm := false) (x := x) (s := s) ?_ (fun hk => ?_); rotate_left; clear_value x; rotate_right; dsimp -zeta only [x]; try clear x)
    | (intro x; try clear_value x)
    | apply State.setStrip_keeps
    | apply State.addSat_keeps
    | apply State.recodeSync_keeps
    | apply State.formRecord_keeps

theorem State.storeFails_keeps {s0 s : State} (hk : Keeps false s0 s) (h seq i : Nat) :
    Keeps false s0 (State.storeFails s h seq i) := by
  refine hk.trans ?_; clear hk; unfold State.storeFails; try dsimp -zeta only [mkS_eq]
  try lift_lets -underBinder
  with_reducible repeat' first
    | assumption
    | exact Keeps.refl _
    | (intro x; refine Keeps.abs (mm := false) (x := x) (s := s) ?_ (fun hk => ?_); rotate_left; clear_value x; rotate_right; dsimp -zeta only [x]; try clear x)
    | (intro x; try clear_value x)
    | apply State.setStrip_keeps
    | apply State.irq_keeps
    | apply State.fault_keeps
    | apply State.formRecord_keeps
    | apply State.handRecord_keeps
    | apply State.reportOnly_keeps

theorem State.stripVerified_keeps {s0 s : State} (hk : Keeps false s0 s) (h : Nat) (fails c4Late : Bool) :
    Keeps false s0 (State.stripVerified s h fails c4Late) := by
  refine hk.trans ?_; clear hk; unfold State.stripVerified; try dsimp -zeta only [mkS_eq]
  try lift_lets -underBinder
  with_reducible repeat' first
    | assumption
    | exact Keeps.refl _
    | (apply KeepsF.intro; intro s; (try dsimp -zeta only); try lift_lets -underBinder)
    | (intro x; refine Keeps.abs (mm := false) (x := x) (s := s) ?_ (fun hk => ?_); rotate_left; clear_value x; rotate_right; dsimp -zeta only [x]; try clear x)
    | (intro x; refine Keeps.abs (mm := false) (x := x.2) (s := s) ?_ (fun hk => ?_); rotate_left; clear_value x; rotate_right; dsimp -zeta only [x]; try clear x)
    | (intro x; try clear_value x)
    | apply State.storeFails_keeps
    | apply State.mismatch_keeps
    | apply State.handRecord_keeps
    | apply State.check_keeps
    | apply State.report_keeps
    | apply State.storeInstead_keeps
    | apply State.vlcForce_keeps
    | apply State.recodeSync_keeps
    | apply State.setStrip_keeps
    | apply upd_keeps
    | exact Fits.refl _
    | (apply Keeps.ofpair (by assumption))
    | (apply Keeps.ofpair1 (by assumption))
    | (apply Keeps.oftriple (by assumption))
    | lift_lets -underBinder
    | apply Keeps.ite
    | split

theorem State.stripRecoded_keeps {s0 s : State} (hk : Keeps false s0 s) (h : Nat) (fails : Bool) :
    Keeps false s0 (State.stripRecoded s h fails) := by
  refine hk.trans ?_; clear hk; unfold State.stripRecoded; try dsimp -zeta only [mkS_eq]
  try lift_lets -underBinder
  with_reducible repeat' first
    | assumption
    | exact Keeps.refl _
    | (apply KeepsF.intro; intro s; (try dsimp -zeta only); try lift_lets -underBinder)
    | (intro x; refine Keeps.abs (mm := false) (x := x) (s := s) ?_ (fun hk => ?_); rotate_left; clear_value x; rotate_right; dsimp -zeta only [x]; try clear x)
    | (intro x; refine KeepsF.abs (mm := false) (x := x) ?_ (fun hk => ?_); rotate_left; clear_value x; rotate_right; dsimp -zeta only [x]; try clear x)
    | ((apply KeepsF.ap (by assumption)))
    | ((apply KeepsF2.ap (by assumption)))
    | ((apply KeepsF3.ap (by assumption)))
    | (intro x; try clear_value x)
    | apply State.formRecord_keeps
    | apply State.setStrip_keeps
    | apply State.recodeSync_keeps
    | apply State.report_keeps
    | apply State.vlcForce_keeps
    | apply State.storeInstead_keeps
    | apply State.mismatch_keeps
    | apply State.handRecord_keeps
    | apply State.addSat_keeps
    | apply upd_keeps
    | exact Fits.refl _
    | lift_lets -underBinder
    | apply Keeps.ite
    | split

theorem State.clrForced_keeps {mm : Bool} {s0 s : State} (hk : Keeps mm s0 s) (h v : Nat) :
    Keeps mm s0 (State.clrForced s h v) := by
  refine hk.trans ?_; clear hk; unfold State.clrForced; try dsimp -zeta only [mkS_eq]
  try lift_lets -underBinder
  with_reducible repeat' first
    | assumption
    | exact Keeps.refl _
    | (intro x; try clear_value x)
    | apply State.refuse4_keeps
    | apply State.fault_keeps
    | apply State.pBit_keeps
    | apply State.p_keeps
    | lift_lets -underBinder
    | apply Keeps.ite

theorem execStripSized_keeps {s0 s : State} (hk : Keeps false s0 s) (h : Fin 4) :
    Keeps false s0 (after s (execStripSized h s)) := by
  refine hk.trans ?_; clear hk; unfold execStripSized; try dsimp -zeta only [mkS_eq]
  try lift_lets -underBinder
  with_reducible repeat' first
    | assumption
    | exact Keeps.refl _
    | (intro x; try clear_value x)
    | apply after_next_keeps
    | apply State.stripSized_keeps

theorem execStripCoded_keeps {s0 s : State} (hk : Keeps false s0 s) (h : Fin 4) :
    Keeps false s0 (after s (execStripCoded h s)) := by
  refine hk.trans ?_; clear hk; unfold execStripCoded; try dsimp -zeta only [mkS_eq]
  try lift_lets -underBinder
  with_reducible repeat' first
    | assumption
    | exact Keeps.refl _
    | (intro x; try clear_value x)
    | apply after_next_keeps
    | apply State.stripCoded_keeps

theorem execStripVerified_keeps {s0 s : State} (hk : Keeps false s0 s) (h : Fin 4) (fails c4Late : Bool) :
    Keeps false s0 (after s (execStripVerified h fails c4Late s)) := by
  refine hk.trans ?_; clear hk; unfold execStripVerified; try dsimp -zeta only [mkS_eq]
  try lift_lets -underBinder
  with_reducible repeat' first
    | assumption
    | exact Keeps.refl _
    | (intro x; try clear_value x)
    | apply after_next_keeps
    | apply State.stripVerified_keeps

theorem execStripRecoded_keeps {s0 s : State} (hk : Keeps false s0 s) (h : Fin 4) (fails : Bool) :
    Keeps false s0 (after s (execStripRecoded h fails s)) := by
  refine hk.trans ?_; clear hk; unfold execStripRecoded; try dsimp -zeta only [mkS_eq]
  try lift_lets -underBinder
  with_reducible repeat' first
    | assumption
    | exact Keeps.refl _
    | (intro x; try clear_value x)
    | apply after_next_keeps
    | apply State.stripRecoded_keeps

theorem execClrForced_keeps {mm : Bool} {s0 s : State} (hk : Keeps mm s0 s) (h : Fin 4) :
    Keeps mm s0 (after s (execClrForced h s)) := by
  refine hk.trans ?_; clear hk; unfold execClrForced; try dsimp -zeta only [mkS_eq]
  try lift_lets -underBinder
  with_reducible repeat' first
    | assumption
    | exact Keeps.refl _
    | (apply KeepsF.intro; intro s; (try dsimp -zeta only); try lift_lets -underBinder)
    | (intro x; try clear_value x)
    | apply after_next_keeps
    | apply State.hostReg_keeps
    | apply State.clrForced_keeps

end Sys2Proof.Machine
end

