-- ==== Sys2Proof/Laws/KeepsLanes.lean ====
section
/-! SUPPORT. What the functions of Machine/Lanes.lean keep: the part, the queue, the memories where they store nothing, and the
canonical form of the tables. -/

namespace Sys2Proof.Machine
theorem State.setLane_keeps {mm : Bool} {s0 s : State} (hk : Keeps mm s0 s) (n : Nat) (f : Lane → Lane) :
    Keeps mm s0 (State.setLane s n f) := by
  refine hk.trans ?_; clear hk; unfold State.setLane; try dsimp -zeta only [mkS_eq]
  try lift_lets -underBinder
  with_reducible repeat' first
    | assumption
    | exact Keeps.refl _
    | (intro x; try clear_value x)
    | apply upd_keeps
    | exact Fits.refl _
    | (simp only [upd_length, List.length_map, List.length_replicate]; exact Fits.refl _)

theorem State.setQuad_keeps {mm : Bool} {s0 s : State} (hk : Keeps mm s0 s) (q : Nat) (f : Quad → Quad) :
    Keeps mm s0 (State.setQuad s q f) := by
  refine hk.trans ?_; clear hk; unfold State.setQuad; try dsimp -zeta only [mkS_eq]
  try lift_lets -underBinder
  with_reducible repeat' first
    | assumption
    | exact Keeps.refl _
    | (intro x; try clear_value x)
    | apply upd_keeps
    | exact Fits.refl _
    | (simp only [upd_length, List.length_map, List.length_replicate]; exact Fits.refl _)

theorem State.laneDefaults_keeps {mm : Bool} {s0 s : State} (hk : Keeps mm s0 s) (q role : Nat) :
    Keeps mm s0 (State.laneDefaults s q role) := by
  refine hk.trans ?_; clear hk; unfold State.laneDefaults; try dsimp -zeta only [mkS_eq]
  try lift_lets -underBinder
  with_reducible repeat' first
    | assumption
    | exact Keeps.refl _
    | (apply KeepsF.intro; intro s; (try dsimp -zeta only); try lift_lets -underBinder)
    | (intro x; try clear_value x)
    | apply State.p_keeps
    | apply forN_keeps

theorem State.quadRoleWrite_keeps {mm : Bool} {s0 s : State} (hk : Keeps mm s0 s) (q v : Nat) :
    Keeps mm s0 (State.quadRoleWrite s q v) := by
  refine hk.trans ?_; clear hk; unfold State.quadRoleWrite; try dsimp -zeta only [mkS_eq]
  try lift_lets -underBinder
  with_reducible repeat' first
    | assumption
    | exact Keeps.refl _
    | (intro x; refine Keeps.abs (mm := mm) (x := x) (s := s) ?_ (fun hk => ?_); rotate_left; clear_value x; rotate_right; dsimp -zeta only [x]; try clear x)
    | (intro x; try clear_value x)
    | apply State.refuse4_keeps
    | apply State.plainWrite_keeps
    | apply State.laneDefaults_keeps
    | lift_lets -underBinder
    | apply Keeps.ite

theorem State.lnkSync_keeps {mm : Bool} {s0 s : State} (hk : Keeps mm s0 s) (q : Nat) :
    Keeps mm s0 (State.lnkSync s q) := by
  refine hk.trans ?_; clear hk; unfold State.lnkSync; try dsimp -zeta only [mkS_eq]
  try lift_lets -underBinder
  with_reducible repeat' first
    | assumption
    | exact Keeps.refl _
    | (intro x; try clear_value x)
    | apply State.setBusy_keeps

theorem State.setMove_keeps {mm : Bool} {s0 s : State} (hk : Keeps mm s0 s) (n : Nat) (tx : Bool) (m : Option Nat) :
    Keeps mm s0 (State.setMove s n tx m) := by
  refine hk.trans ?_; clear hk; unfold State.setMove; try dsimp -zeta only [mkS_eq]
  try lift_lets -underBinder
  with_reducible repeat' first
    | assumption
    | exact Keeps.refl _
    | (intro x; try clear_value x)
    | apply State.setLane_keeps

theorem State.kick_keeps {mm : Bool} {s0 s : State} (hk : Keeps mm s0 s) (n : Nat) (tx : Bool) :
    Keeps mm s0 (State.kick s n tx) := by
  refine hk.trans ?_; clear hk; unfold State.kick; try dsimp -zeta only [mkS_eq]
  try lift_lets -underBinder
  with_reducible repeat' first
    | assumption
    | exact Keeps.refl _
    | (intro x; refine Keeps.abs (mm := mm) (x := x) (s := s) ?_ (fun hk => ?_); rotate_left; clear_value x; rotate_right; dsimp -zeta only [x]; try clear x)
    | (intro x; try clear_value x)
    | apply State.setMove_keeps
    | apply State.seqRequest_keeps
    | lift_lets -underBinder
    | apply Keeps.ite

theorem State.setPstate_keeps {mm : Bool} {s0 s : State} (hk : Keeps mm s0 s) (n : Nat) (rx tx : Option Nat) :
    Keeps mm s0 (State.setPstate s n rx tx) := by
  refine hk.trans ?_; clear hk; unfold State.setPstate; try dsimp -zeta only [mkS_eq]
  try lift_lets -underBinder
  with_reducible repeat' first
    | assumption
    | exact Keeps.refl _
    | (intro x; refine Keeps.abs (mm := mm) (x := x) (s := s) ?_ (fun hk => ?_); rotate_left; clear_value x; rotate_right; dsimp -zeta only [x]; try clear x)
    | (intro x; try clear_value x)
    | apply State.p_keeps
    | apply State.kick_keeps
    | apply upd_keeps
    | exact Fits.refl _
    | lift_lets -underBinder
    | apply Keeps.ite
    | split

theorem State.lanePwrWrite_keeps {mm : Bool} {s0 s : State} (hk : Keeps mm s0 s) (n v : Nat) :
    Keeps mm s0 (State.lanePwrWrite s n v) := by
  refine hk.trans ?_; clear hk; unfold State.lanePwrWrite; try dsimp -zeta only [mkS_eq]
  try lift_lets -underBinder
  with_reducible repeat' first
    | assumption
    | exact Keeps.refl _
    | (intro x; try clear_value x)
    | apply State.refuse4_keeps
    | apply State.kick_keeps
    | apply State.plainWrite_keeps
    | lift_lets -underBinder
    | apply Keeps.ite

theorem State.ctrlCoef_keeps {mm : Bool} {s0 s : State} (hk : Keeps mm s0 s) (n p : Nat) :
    Keeps mm s0 (State.ctrlCoef s n p) := by
  refine hk.trans ?_; clear hk; unfold State.ctrlCoef; try dsimp -zeta only [mkS_eq]
  try lift_lets -underBinder
  with_reducible repeat' first
    | assumption
    | exact Keeps.refl _
    | (intro x; refine Keeps.abs (mm := mm) (x := x) (s := s) ?_ (fun hk => ?_); rotate_left; clear_value x; rotate_right; dsimp -zeta only [x]; try clear x)
    | (intro x; try clear_value x)
    | apply State.wr_keeps
    | apply State.p_keeps

theorem State.quadBand_keeps {mm : Bool} {s0 s : State} (hk : Keeps mm s0 s) (q band : Nat) :
    Keeps mm s0 (State.quadBand s q band) := by
  refine hk.trans ?_; clear hk; unfold State.quadBand; try dsimp -zeta only [mkS_eq]
  try lift_lets -underBinder
  with_reducible repeat' first
    | assumption
    | exact Keeps.refl _
    | (intro x; refine Keeps.abs (mm := mm) (x := x) (s := s) ?_ (fun hk => ?_); rotate_left; clear_value x; rotate_right; dsimp -zeta only [x]; try clear x)
    | (intro x; try clear_value x)
    | apply State.irq_keeps
    | apply State.p_keeps
    | apply State.setQuad_keeps
    | apply State.ctrlCoef_keeps
    | apply upd_keeps
    | exact Fits.refl _
    | lift_lets -underBinder
    | apply Keeps.ite

theorem State.ctrlPresetMove_keeps {mm : Bool} {s0 s : State} (hk : Keeps mm s0 s) (q : Nat) :
    Keeps mm s0 (State.ctrlPresetMove s q) := by
  refine hk.trans ?_; clear hk; unfold State.ctrlPresetMove; try dsimp -zeta only [mkS_eq]
  try lift_lets -underBinder
  with_reducible repeat' first
    | assumption
    | exact Keeps.refl _
    | (intro x; try clear_value x)
    | apply State.setQuad_keeps
    | apply State.ctrlCoef_keeps
    | apply upd_keeps
    | exact Fits.refl _
    | lift_lets -underBinder
    | apply Keeps.ite
    | split

theorem State.sendTrain_keeps {mm : Bool} {s0 s : State} (hk : Keeps mm s0 s) (n : Nat) (on : Bool) :
    Keeps mm s0 (State.sendTrain s n on) := by
  refine hk.trans ?_; clear hk; unfold State.sendTrain; try dsimp -zeta only [mkS_eq]
  try lift_lets -underBinder
  with_reducible repeat' first
    | assumption
    | exact Keeps.refl _
    | (intro x; try clear_value x)
    | apply State.sendFour_keeps
    | lift_lets -underBinder
    | apply Keeps.ite

theorem State.askPreset_keeps {mm : Bool} {s0 s : State} (hk : Keeps mm s0 s) (n p : Nat) :
    Keeps mm s0 (State.askPreset s n p) := by
  refine hk.trans ?_; clear hk; unfold State.askPreset; try dsimp -zeta only [mkS_eq]
  try lift_lets -underBinder
  with_reducible repeat' first
    | assumption
    | exact Keeps.refl _
    | (intro x; try clear_value x)
    | apply State.sendFour_keeps
    | lift_lets -underBinder
    | apply Keeps.ite

theorem State.beginTraining_keeps {mm : Bool} {s0 s : State} (hk : Keeps mm s0 s) (n : Nat) :
    Keeps mm s0 (State.beginTraining s n) := by
  refine hk.trans ?_; clear hk; unfold State.beginTraining; try dsimp -zeta only [mkS_eq]
  try lift_lets -underBinder
  with_reducible repeat' first
    | assumption
    | exact Keeps.refl _
    | (intro x; refine Keeps.abs (mm := mm) (x := x) (s := s) ?_ (fun hk => ?_); rotate_left; clear_value x; rotate_right; dsimp -zeta only [x]; try clear x)
    | (intro x; try clear_value x)
    | apply State.setPstate_keeps
    | apply State.setLane_keeps
    | apply State.p_keeps
    | apply State.askPreset_keeps
    | apply State.sendTrain_keeps
    | apply upd_keeps
    | exact Fits.refl _
    | lift_lets -underBinder
    | apply Keeps.ite

theorem State.trainingOver_keeps {mm : Bool} {s0 s : State} (hk : Keeps mm s0 s) (n : Nat) :
    Keeps mm s0 (State.trainingOver s n) := by
  refine hk.trans ?_; clear hk; unfold State.trainingOver; try dsimp -zeta only [mkS_eq]
  try lift_lets -underBinder
  with_reducible repeat' first
    | assumption
    | exact Keeps.refl _
    | (intro x; try clear_value x)
    | apply State.p_keeps
    | apply State.setLane_keeps

theorem State.trainPass_keeps {mm : Bool} {s0 s : State} (hk : Keeps mm s0 s) (n preset : Nat) :
    Keeps mm s0 (State.trainPass s n preset) := by
  refine hk.trans ?_; clear hk; unfold State.trainPass; try dsimp -zeta only [mkS_eq]
  try lift_lets -underBinder
  with_reducible repeat' first
    | assumption
    | exact Keeps.refl _
    | (intro x; refine Keeps.abs (mm := mm) (x := x) (s := s) ?_ (fun hk => ?_); rotate_left; clear_value x; rotate_right; dsimp -zeta only [x]; try clear x)
    | (intro x; try clear_value x)
    | apply State.trainingOver_keeps
    | apply State.p_keeps
    | apply State.irq_keeps
    | apply State.fault_keeps
    | apply State.setLane_keeps

theorem State.trainFail_keeps {mm : Bool} {s0 s : State} (hk : Keeps mm s0 s) (n : Nat) :
    Keeps mm s0 (State.trainFail s n) := by
  refine hk.trans ?_; clear hk; unfold State.trainFail; try dsimp -zeta only [mkS_eq]
  try lift_lets -underBinder
  with_reducible repeat' first
    | assumption
    | exact Keeps.refl _
    | (apply KeepsF.intro; intro s; (try dsimp -zeta only); try lift_lets -underBinder)
    | (intro x; refine Keeps.abs (mm := mm) (x := x) (s := s) ?_ (fun hk => ?_); rotate_left; clear_value x; rotate_right; dsimp -zeta only [x]; try clear x)
    | (intro x; try clear_value x)
    | apply State.trainingOver_keeps
    | apply State.p_keeps
    | apply State.setPstate_keeps
    | apply State.irq_keeps
    | apply State.addSat_keeps
    | apply State.fault_keeps
    | apply State.report_keeps

theorem State.attemptFail_keeps {mm : Bool} {s0 s : State} (hk : Keeps mm s0 s) (n : Nat) :
    Keeps mm s0 (State.attemptFail s n).1 := by
  refine hk.trans ?_; clear hk; unfold State.attemptFail; try dsimp -zeta only [mkS_eq]
  try lift_lets -underBinder
  with_reducible repeat' first
    | assumption
    | exact Keeps.refl _
    | (intro x; try clear_value x)
    | apply State.askPreset_keeps
    | apply State.setLane_keeps
    | apply State.trainFail_keeps
    | apply upd_keeps
    | exact Fits.refl _
    | lift_lets -underBinder
    | apply Keeps.ite
    | split

theorem State.setMargin_keeps {mm : Bool} {s0 s : State} (hk : Keeps mm s0 s) (n h w : Nat) :
    Keeps mm s0 (State.setMargin s n h w) := by
  refine hk.trans ?_; clear hk; unfold State.setMargin; try dsimp -zeta only [mkS_eq]
  try lift_lets -underBinder
  with_reducible repeat' first
    | assumption
    | exact Keeps.refl _
    | (intro x; try clear_value x)
    | apply State.setLane_keeps
    | apply State.p_keeps

theorem State.attemptEnd_keeps {mm : Bool} {s0 s : State} (hk : Keeps mm s0 s) (n : Nat) (errors : Bool) (h w : Nat) :
    Keeps mm s0 (State.attemptEnd s n errors h w).1 := by
  refine hk.trans ?_; clear hk; unfold State.attemptEnd; try dsimp -zeta only [mkS_eq]
  try lift_lets -underBinder
  with_reducible repeat' first
    | assumption
    | exact Keeps.refl _
    | (intro x; refine Keeps.abs (mm := mm) (x := x) (s := s) ?_ (fun hk => ?_); rotate_left; clear_value x; rotate_right; dsimp -zeta only [x]; try clear x)
    | (intro x; refine Keeps.abs (mm := mm) (x := x.1) (s := s) ?_ (fun hk => ?_); rotate_left; clear_value x; rotate_right; dsimp -zeta only [x]; try clear x)
    | (intro x; try clear_value x)
    | apply State.attemptFail_keeps
    | apply State.setMargin_keeps
    | apply State.trainPass_keeps
    | apply upd_keeps
    | exact Fits.refl _
    | (apply Keeps.ofpair (by assumption))
    | (apply Keeps.ofpair1 (by assumption))
    | (apply Keeps.oftriple (by assumption))
    | lift_lets -underBinder
    | apply Keeps.ite
    | split

theorem State.laneTrainWrite_keeps {mm : Bool} {s0 s : State} (hk : Keeps mm s0 s) (n v : Nat) :
    Keeps mm s0 (State.laneTrainWrite s n v) := by
  refine hk.trans ?_; clear hk; unfold State.laneTrainWrite; try dsimp -zeta only [mkS_eq]
  try lift_lets -underBinder
  with_reducible repeat' first
    | assumption
    | exact Keeps.refl _
    | (intro x; refine Keeps.abs (mm := mm) (x := x) (s := s) ?_ (fun hk => ?_); rotate_left; clear_value x; rotate_right; dsimp -zeta only [x]; try clear x)
    | (intro x; try clear_value x)
    | apply State.refuse4_keeps
    | apply State.plainWrite_keeps
    | apply State.beginTraining_keeps
    | apply State.setLane_keeps
    | apply upd_keeps
    | exact Fits.refl _
    | lift_lets -underBinder
    | apply Keeps.ite

theorem State.autoRetry_keeps {mm : Bool} {s0 s : State} (hk : Keeps mm s0 s) (n : Nat) :
    Keeps mm s0 (State.autoRetry s n) := by
  refine hk.trans ?_; clear hk; unfold State.autoRetry; try dsimp -zeta only [mkS_eq]
  try lift_lets -underBinder
  with_reducible repeat' first
    | assumption
    | exact Keeps.refl _
    | (intro x; try clear_value x)
    | apply State.beginTraining_keeps
    | apply State.setLane_keeps
    | apply upd_keeps
    | exact Fits.refl _
    | lift_lets -underBinder
    | apply Keeps.ite

theorem State.rxArrived_keeps {mm : Bool} {s0 s : State} (hk : Keeps mm s0 s) (n goal : Nat) :
    Keeps mm s0 (State.rxArrived s n goal) := by
  refine hk.trans ?_; clear hk; unfold State.rxArrived; try dsimp -zeta only [mkS_eq]
  try lift_lets -underBinder
  with_reducible repeat' first
    | assumption
    | exact Keeps.refl _
    | (intro x; refine Keeps.abs (mm := mm) (x := x) (s := s) ?_ (fun hk => ?_); rotate_left; clear_value x; rotate_right; dsimp -zeta only [x]; try clear x)
    | (intro x; try clear_value x)
    | apply State.p_keeps
    | apply State.beginTraining_keeps
    | apply State.trainingOver_keeps
    | apply State.setQuad_keeps
    | apply upd_keeps
    | exact Fits.refl _
    | lift_lets -underBinder
    | apply Keeps.ite

theorem State.txArrived_keeps {mm : Bool} {s0 s : State} (hk : Keeps mm s0 s) (n goal : Nat) :
    Keeps mm s0 (State.txArrived s n goal) := by
  refine hk.trans ?_; clear hk; unfold State.txArrived; try dsimp -zeta only [mkS_eq]
  try lift_lets -underBinder
  with_reducible repeat' first
    | assumption
    | exact Keeps.refl _
    | (intro x; refine Keeps.abs (mm := mm) (x := x) (s := s) ?_ (fun hk => ?_); rotate_left; clear_value x; rotate_right; dsimp -zeta only [x]; try clear x)
    | (intro x; try clear_value x)
    | apply State.p_keeps
    | apply State.ctrlCoef_keeps
    | apply State.wr_keeps
    | lift_lets -underBinder
    | apply Keeps.ite

theorem State.pstateReached_keeps {mm : Bool} {s0 s : State} (hk : Keeps mm s0 s) (n : Nat) (tx : Bool) :
    Keeps mm s0 (State.pstateReached s n tx) := by
  refine hk.trans ?_; clear hk; unfold State.pstateReached; try dsimp -zeta only [mkS_eq]
  try lift_lets -underBinder
  with_reducible repeat' first
    | assumption
    | exact Keeps.refl _
    | (intro x; try clear_value x)
    | apply State.seqFinish_keeps
    | apply State.setMove_keeps
    | apply State.txArrived_keeps
    | apply State.rxArrived_keeps
    | apply State.lnkSync_keeps
    | apply State.kick_keeps
    | apply State.irqIf_keeps
    | apply upd_keeps
    | exact Fits.refl _
    | lift_lets -underBinder
    | apply Keeps.ite
    | split

theorem State.lnkEnabled_keeps {mm : Bool} {s0 s : State} (hk : Keeps mm s0 s) (q : Nat) :
    Keeps mm s0 (State.lnkEnabled s q) := by
  refine hk.trans ?_; clear hk; unfold State.lnkEnabled; try dsimp -zeta only [mkS_eq]
  try lift_lets -underBinder
  with_reducible repeat' first
    | assumption
    | exact Keeps.refl _
    | (apply KeepsF.intro; intro s; (try dsimp -zeta only); try lift_lets -underBinder)
    | (intro x; try clear_value x)
    | apply State.kick_keeps
    | apply forN_keeps

theorem State.detect_keeps {mm : Bool} {s0 s : State} (hk : Keeps mm s0 s) (n : Nat) (lol : Bool) :
    Keeps mm s0 (State.detect s n lol).1 := by
  refine hk.trans ?_; clear hk; unfold State.detect; try dsimp -zeta only [mkS_eq]
  try lift_lets -underBinder
  with_reducible repeat' first
    | assumption
    | exact Keeps.refl _
    | (intro x; try clear_value x)
    | apply State.addSat_keeps
    | apply State.irq_keeps
    | apply State.p_keeps
    | lift_lets -underBinder
    | apply Keeps.ite
    | split

theorem State.samplerNext_keeps {mm : Bool} {s0 s : State} (hk : Keeps mm s0 s) (q : Nat) :
    Keeps mm s0 (State.samplerNext s q) := by
  refine hk.trans ?_; clear hk; unfold State.samplerNext; try dsimp -zeta only [mkS_eq]
  try lift_lets -underBinder
  with_reducible repeat' first
    | assumption
    | exact Keeps.refl _
    | (intro x; try clear_value x)
    | apply State.p_keeps
    | apply upd_keeps
    | exact Fits.refl _
    | lift_lets -underBinder
    | apply Keeps.ite
    | split

theorem State.calibrationDue_keeps {mm : Bool} {s0 s : State} (hk : Keeps mm s0 s) (n : Nat) :
    Keeps mm s0 (State.calibrationDue s n) := by
  refine hk.trans ?_; clear hk; unfold State.calibrationDue; try dsimp -zeta only [mkS_eq]
  try lift_lets -underBinder
  with_reducible repeat' first
    | assumption
    | exact Keeps.refl _
    | (intro x; refine Keeps.abs (mm := mm) (x := x) (s := s) ?_ (fun hk => ?_); rotate_left; clear_value x; rotate_right; dsimp -zeta only [x]; try clear x)
    | (intro x; try clear_value x)
    | apply State.setQuad_keeps
    | apply State.samplerNext_keeps
    | apply upd_keeps
    | exact Fits.refl _
    | lift_lets -underBinder
    | apply Keeps.ite

theorem State.calDone_keeps {mm : Bool} {s0 s : State} (hk : Keeps mm s0 s) (n : Nat) :
    Keeps mm s0 (State.calDone s n) := by
  refine hk.trans ?_; clear hk; unfold State.calDone; try dsimp -zeta only [mkS_eq]
  try lift_lets -underBinder
  with_reducible repeat' first
    | assumption
    | exact Keeps.refl _
    | (intro x; try clear_value x)
    | apply State.samplerNext_keeps
    | apply State.setQuad_keeps
    | apply State.p_keeps
    | apply upd_keeps
    | exact Fits.refl _
    | lift_lets -underBinder
    | apply Keeps.ite

theorem State.marginVisit_keeps {mm : Bool} {s0 s : State} (hk : Keeps mm s0 s) (n h w : Nat) :
    Keeps mm s0 (State.marginVisit s n h w) := by
  refine hk.trans ?_; clear hk; unfold State.marginVisit; try dsimp -zeta only [mkS_eq]
  try lift_lets -underBinder
  with_reducible repeat' first
    | assumption
    | exact Keeps.refl _
    | (intro x; try clear_value x)
    | apply State.setMargin_keeps
    | lift_lets -underBinder
    | apply Keeps.ite

theorem State.scanWrite_keeps {mm : Bool} {s0 s : State} (hk : Keeps mm s0 s) (q v : Nat) :
    Keeps mm s0 (State.scanWrite s q v) := by
  refine hk.trans ?_; clear hk; unfold State.scanWrite; try dsimp -zeta only [mkS_eq]
  try lift_lets -underBinder
  with_reducible repeat' first
    | assumption
    | exact Keeps.refl _
    | (intro x; refine Keeps.abs (mm := mm) (x := x) (s := s) ?_ (fun hk => ?_); rotate_left; clear_value x; rotate_right; dsimp -zeta only [x]; try clear x)
    | (intro x; try clear_value x)
    | apply State.plainWrite_keeps
    | apply State.refuse4_keeps
    | apply State.p_keeps
    | lift_lets -underBinder
    | apply Keeps.ite

theorem State.scanPointDone_keeps {mm : Bool} {s0 s : State} (hk : Keeps mm s0 s) (q errors : Nat) :
    Keeps mm s0 (State.scanPointDone s q errors) := by
  refine hk.trans ?_; clear hk; unfold State.scanPointDone; try dsimp -zeta only [mkS_eq]
  try lift_lets -underBinder
  with_reducible repeat' first
    | assumption
    | exact Keeps.refl _
    | (intro x; refine Keeps.abs (mm := mm) (x := x) (s := s) ?_ (fun hk => ?_); rotate_left; clear_value x; rotate_right; dsimp -zeta only [x]; try clear x)
    | (intro x; try clear_value x)
    | apply State.p_keeps
    | apply State.samplerNext_keeps
    | apply State.irq_keeps
    | lift_lets -underBinder
    | apply Keeps.ite

theorem State.prbsCount_keeps {mm : Bool} {s0 s : State} (hk : Keeps mm s0 s) (n errors bits : Nat) :
    Keeps mm s0 (State.prbsCount s n errors bits) := by
  refine hk.trans ?_; clear hk; unfold State.prbsCount; try dsimp -zeta only [mkS_eq]
  try lift_lets -underBinder
  with_reducible repeat' first
    | assumption
    | exact Keeps.refl _
    | (intro x; refine Keeps.abs (mm := mm) (x := x) (s := s) ?_ (fun hk => ?_); rotate_left; clear_value x; rotate_right; dsimp -zeta only [x]; try clear x)
    | (intro x; try clear_value x)
    | apply State.p64_keeps
    | apply State.p_keeps
    | lift_lets -underBinder
    | apply Keeps.ite

theorem State.prbsCtrl_keeps {mm : Bool} {s0 s : State} (hk : Keeps mm s0 s) (n v : Nat) :
    Keeps mm s0 (State.prbsCtrl s n v) := by
  refine hk.trans ?_; clear hk; unfold State.prbsCtrl; try dsimp -zeta only [mkS_eq]
  try lift_lets -underBinder
  with_reducible repeat' first
    | assumption
    | exact Keeps.refl _
    | (intro x; refine Keeps.abs (mm := mm) (x := x) (s := s) ?_ (fun hk => ?_); rotate_left; clear_value x; rotate_right; dsimp -zeta only [x]; try clear x)
    | (intro x; try clear_value x)
    | apply State.refuse4_keeps
    | apply State.plainWrite_keeps
    | apply State.p_keeps
    | apply State.p64_keeps
    | lift_lets -underBinder
    | apply Keeps.ite

theorem State.prbsInj_keeps {mm : Bool} {s0 s : State} (hk : Keeps mm s0 s) (n v : Nat) :
    Keeps mm s0 (State.prbsInj s n v) := by
  refine hk.trans ?_; clear hk; unfold State.prbsInj; try dsimp -zeta only [mkS_eq]
  try lift_lets -underBinder
  with_reducible repeat' first
    | assumption
    | exact Keeps.refl _
    | (intro x; try clear_value x)
    | apply State.setLane_keeps

theorem execQuadRoleWrite_keeps {mm : Bool} {s0 s : State} (hk : Keeps mm s0 s) (q : Fin 24) (value : Word) :
    Keeps mm s0 (after s (execQuadRoleWrite q value s)) := by
  refine hk.trans ?_; clear hk; unfold execQuadRoleWrite; try dsimp -zeta only [mkS_eq]
  try lift_lets -underBinder
  with_reducible repeat' first
    | assumption
    | exact Keeps.refl _
    | (apply KeepsF.intro; intro s; (try dsimp -zeta only); try lift_lets -underBinder)
    | (intro x; try clear_value x)
    | apply after_next_keeps
    | apply State.hostReg_keeps
    | apply State.quadRoleWrite_keeps

theorem execCtrlPresetMove_keeps {mm : Bool} {s0 s : State} (hk : Keeps mm s0 s) (h : Fin 4) :
    Keeps mm s0 (after s (execCtrlPresetMove h s)) := by
  refine hk.trans ?_; clear hk; unfold execCtrlPresetMove; try dsimp -zeta only [mkS_eq]
  try lift_lets -underBinder
  with_reducible repeat' first
    | assumption
    | exact Keeps.refl _
    | (intro x; try clear_value x)
    | apply after_next_keeps
    | apply State.ctrlPresetMove_keeps

theorem execTrainingStart_keeps {mm : Bool} {s0 s : State} (hk : Keeps mm s0 s) (lane : Fin 96) (autoRetry : Bool) :
    Keeps mm s0 (after s (execTrainingStart lane autoRetry s)) := by
  refine hk.trans ?_; clear hk; unfold execTrainingStart; try dsimp -zeta only [mkS_eq]
  try lift_lets -underBinder
  with_reducible repeat' first
    | assumption
    | exact Keeps.refl _
    | (apply KeepsF.intro; intro s; (try dsimp -zeta only); try lift_lets -underBinder)
    | (intro x; try clear_value x)
    | apply after_next_keeps
    | apply State.hostReg_keeps
    | apply State.laneTrainWrite_keeps

theorem execAutoRetry_keeps {mm : Bool} {s0 s : State} (hk : Keeps mm s0 s) (lane : Fin 96) :
    Keeps mm s0 (after s (execAutoRetry lane s)) := by
  refine hk.trans ?_; clear hk; unfold execAutoRetry; try dsimp -zeta only [mkS_eq]
  try lift_lets -underBinder
  with_reducible repeat' first
    | assumption
    | exact Keeps.refl _
    | (intro x; try clear_value x)
    | apply after_next_keeps
    | apply State.autoRetry_keeps

theorem execPstateTargetWrite_keeps {mm : Bool} {s0 s : State} (hk : Keeps mm s0 s) (lane : Fin 96) (value : Word) :
    Keeps mm s0 (after s (execPstateTargetWrite lane value s)) := by
  refine hk.trans ?_; clear hk; unfold execPstateTargetWrite; try dsimp -zeta only [mkS_eq]
  try lift_lets -underBinder
  with_reducible repeat' first
    | assumption
    | exact Keeps.refl _
    | (apply KeepsF.intro; intro s; (try dsimp -zeta only); try lift_lets -underBinder)
    | (intro x; try clear_value x)
    | apply after_next_keeps
    | apply State.hostReg_keeps
    | apply State.lanePwrWrite_keeps

theorem execPstateReached_keeps {mm : Bool} {s0 s : State} (hk : Keeps mm s0 s) (lane : Fin 96) (tx : Bool) :
    Keeps mm s0 (after s (execPstateReached lane tx s)) := by
  refine hk.trans ?_; clear hk; unfold execPstateReached; try dsimp -zeta only [mkS_eq]
  try lift_lets -underBinder
  with_reducible repeat' first
    | assumption
    | exact Keeps.refl _
    | (intro x; try clear_value x)
    | apply after_next_keeps
    | apply State.pstateReached_keeps

theorem execLosDeassert_keeps {mm : Bool} {s0 s : State} (hk : Keeps mm s0 s) (lane : Fin 96) :
    Keeps mm s0 (after s (execLosDeassert lane s)) := by
  refine hk.trans ?_; clear hk; unfold execLosDeassert; try dsimp -zeta only [mkS_eq]
  try lift_lets -underBinder
  with_reducible repeat' first
    | assumption
    | exact Keeps.refl _
    | (intro x; try clear_value x)
    | apply after_next_keeps
    | apply State.p_keeps

theorem execLolDeassert_keeps {mm : Bool} {s0 s : State} (hk : Keeps mm s0 s) (lane : Fin 96) :
    Keeps mm s0 (after s (execLolDeassert lane s)) := by
  refine hk.trans ?_; clear hk; unfold execLolDeassert; try dsimp -zeta only [mkS_eq]
  try lift_lets -underBinder
  with_reducible repeat' first
    | assumption
    | exact Keeps.refl _
    | (intro x; try clear_value x)
    | apply after_next_keeps
    | apply State.p_keeps

theorem execCalibrationDue_keeps {mm : Bool} {s0 s : State} (hk : Keeps mm s0 s) (lane : Fin 96) :
    Keeps mm s0 (after s (execCalibrationDue lane s)) := by
  refine hk.trans ?_; clear hk; unfold execCalibrationDue; try dsimp -zeta only [mkS_eq]
  try lift_lets -underBinder
  with_reducible repeat' first
    | assumption
    | exact Keeps.refl _
    | (intro x; try clear_value x)
    | apply after_next_keeps
    | apply State.calibrationDue_keeps

theorem execSlicerCalDone_keeps {mm : Bool} {s0 s : State} (hk : Keeps mm s0 s) (lane : Fin 96) :
    Keeps mm s0 (after s (execSlicerCalDone lane s)) := by
  refine hk.trans ?_; clear hk; unfold execSlicerCalDone; try dsimp -zeta only [mkS_eq]
  try lift_lets -underBinder
  with_reducible repeat' first
    | assumption
    | exact Keeps.refl _
    | (intro x; try clear_value x)
    | apply after_next_keeps
    | apply State.calDone_keeps

theorem execMarginVisitDone_keeps {mm : Bool} {s0 s : State} (hk : Keeps mm s0 s) (lane : Fin 96) (height width : Byte) :
    Keeps mm s0 (after s (execMarginVisitDone lane height width s)) := by
  refine hk.trans ?_; clear hk; unfold execMarginVisitDone; try dsimp -zeta only [mkS_eq]
  try lift_lets -underBinder
  with_reducible repeat' first
    | assumption
    | exact Keeps.refl _
    | (intro x; try clear_value x)
    | apply after_next_keeps
    | apply State.marginVisit_keeps

theorem execScanStart_keeps {mm : Bool} {s0 s : State} (hk : Keeps mm s0 s) (q : Fin 24) (value : Word) :
    Keeps mm s0 (after s (execScanStart q value s)) := by
  refine hk.trans ?_; clear hk; unfold execScanStart; try dsimp -zeta only [mkS_eq]
  try lift_lets -underBinder
  with_reducible repeat' first
    | assumption
    | exact Keeps.refl _
    | (apply KeepsF.intro; intro s; (try dsimp -zeta only); try lift_lets -underBinder)
    | (intro x; try clear_value x)
    | apply after_next_keeps
    | apply State.hostReg_keeps
    | apply State.scanWrite_keeps

theorem execScanPointDone_keeps {mm : Bool} {s0 s : State} (hk : Keeps mm s0 s) (q : Fin 24) (errors : Nat) :
    Keeps mm s0 (after s (execScanPointDone q errors s)) := by
  refine hk.trans ?_; clear hk; unfold execScanPointDone; try dsimp -zeta only [mkS_eq]
  try lift_lets -underBinder
  with_reducible repeat' first
    | assumption
    | exact Keeps.refl _
    | (intro x; try clear_value x)
    | apply after_next_keeps
    | apply State.scanPointDone_keeps

theorem execPrbsCheckerLock_keeps {mm : Bool} {s0 s : State} (hk : Keeps mm s0 s) (lane : Fin 96) :
    Keeps mm s0 (after s (execPrbsCheckerLock lane s)) := by
  refine hk.trans ?_; clear hk; unfold execPrbsCheckerLock; try dsimp -zeta only [mkS_eq]
  try lift_lets -underBinder
  with_reducible repeat' first
    | assumption
    | exact Keeps.refl _
    | (intro x; try clear_value x)
    | apply after_next_keeps
    | apply State.p_keeps
    | lift_lets -underBinder
    | apply Keeps.ite

theorem execPrbsCheckerUnlock_keeps {mm : Bool} {s0 s : State} (hk : Keeps mm s0 s) (lane : Fin 96) (errors bits : Nat) :
    Keeps mm s0 (after s (execPrbsCheckerUnlock lane errors bits s)) := by
  refine hk.trans ?_; clear hk; unfold execPrbsCheckerUnlock; try dsimp -zeta only [mkS_eq]
  try lift_lets -underBinder
  with_reducible repeat' first
    | assumption
    | exact Keeps.refl _
    | (intro x; try clear_value x)
    | apply after_next_keeps
    | apply State.p_keeps
    | apply State.prbsCount_keeps
    | lift_lets -underBinder
    | apply Keeps.ite

theorem execPrbsClear_keeps {mm : Bool} {s0 s : State} (hk : Keeps mm s0 s) (lane : Fin 96) (value : Word) :
    Keeps mm s0 (after s (execPrbsClear lane value s)) := by
  refine hk.trans ?_; clear hk; unfold execPrbsClear; try dsimp -zeta only [mkS_eq]
  try lift_lets -underBinder
  with_reducible repeat' first
    | assumption
    | exact Keeps.refl _
    | (apply KeepsF.intro; intro s; (try dsimp -zeta only); try lift_lets -underBinder)
    | (intro x; try clear_value x)
    | apply after_next_keeps
    | apply State.hostReg_keeps
    | apply State.prbsCtrl_keeps

theorem execPrbsSingleInject_keeps {mm : Bool} {s0 s : State} (hk : Keeps mm s0 s) (lane : Fin 96) :
    Keeps mm s0 (after s (execPrbsSingleInject lane s)) := by
  refine hk.trans ?_; clear hk; unfold execPrbsSingleInject; try dsimp -zeta only [mkS_eq]
  try lift_lets -underBinder
  with_reducible repeat' first
    | assumption
    | exact Keeps.refl _
    | (apply KeepsF.intro; intro s; (try dsimp -zeta only); try lift_lets -underBinder)
    | (intro x; try clear_value x)
    | apply after_next_keeps
    | apply State.hostReg_keeps
    | apply State.prbsInj_keeps

theorem execPrbsRateInject_keeps {mm : Bool} {s0 s : State} (hk : Keeps mm s0 s) (lane : Fin 96) (rate : Fin 64) :
    Keeps mm s0 (after s (execPrbsRateInject lane rate s)) := by
  refine hk.trans ?_; clear hk; unfold execPrbsRateInject; try dsimp -zeta only [mkS_eq]
  try lift_lets -underBinder
  with_reducible repeat' first
    | assumption
    | exact Keeps.refl _
    | (apply KeepsF.intro; intro s; (try dsimp -zeta only); try lift_lets -underBinder)
    | (intro x; try clear_value x)
    | apply after_next_keeps
    | apply State.hostReg_keeps
    | apply State.prbsInj_keeps

theorem execPrbsCounterSaturation_keeps {mm : Bool} {s0 s : State} (hk : Keeps mm s0 s) (lane : Fin 96) (errors bits : Nat) :
    Keeps mm s0 (after s (execPrbsCounterSaturation lane errors bits s)) := by
  refine hk.trans ?_; clear hk; unfold execPrbsCounterSaturation; try dsimp -zeta only [mkS_eq]
  try lift_lets -underBinder
  with_reducible repeat' first
    | assumption
    | exact Keeps.refl _
    | (intro x; try clear_value x)
    | apply after_next_keeps
    | apply State.prbsCount_keeps
    | lift_lets -underBinder
    | apply Keeps.ite

end Sys2Proof.Machine
end

