-- ==== Sys2Proof/Laws/KeepsServo.lean ====
section
/-! SUPPORT. What the functions of Machine/Servo.lean keep: the part, the queue, the memories where they store nothing, and the
canonical form of the tables. -/

namespace Sys2Proof.Machine
theorem State.setServo_keeps {mm : Bool} {s0 s : State} (hk : Keeps mm s0 s) (h : Nat) (f : Servo → Servo) :
    Keeps mm s0 (State.setServo s h f) := by
  refine hk.trans ?_; clear hk; unfold State.setServo; try dsimp -zeta only [mkS_eq]
  try lift_lets -underBinder
  with_reducible repeat' first
    | assumption
    | exact Keeps.refl _
    | (intro x; try clear_value x)
    | apply State.setCw_keeps

theorem State.hsGo_keeps {mm : Bool} {s0 s : State} (hk : Keeps mm s0 s) (h st : Nat) :
    Keeps mm s0 (State.hsGo s h st) := by
  refine hk.trans ?_; clear hk; unfold State.hsGo; try dsimp -zeta only [mkS_eq]
  try lift_lets -underBinder
  with_reducible repeat' first
    | assumption
    | exact Keeps.refl _
    | (intro x; try clear_value x)
    | apply State.irqIf_keeps
    | apply State.p_keeps

theorem State.hsLocked_keeps {mm : Bool} {s0 s : State} (hk : Keeps mm s0 s) (h : Nat) (v : Bool) :
    Keeps mm s0 (State.hsLocked s h v) := by
  refine hk.trans ?_; clear hk; unfold State.hsLocked; try dsimp -zeta only [mkS_eq]
  try lift_lets -underBinder
  with_reducible repeat' first
    | assumption
    | exact Keeps.refl _
    | (intro x; try clear_value x)
    | apply State.irq_keeps
    | apply State.p_keeps
    | lift_lets -underBinder
    | apply Keeps.ite

theorem State.sendLoad_keeps {mm : Bool} {s0 s : State} (hk : Keeps mm s0 s) (h n t : Nat) :
    Keeps mm s0 (State.sendLoad s h n t) := by
  refine hk.trans ?_; clear hk; unfold State.sendLoad; try dsimp -zeta only [mkS_eq]
  try lift_lets -underBinder
  with_reducible repeat' first
    | assumption
    | exact Keeps.refl _
    | (intro x; refine Keeps.abs (mm := mm) (x := x) (s := s) ?_ (fun hk => ?_); rotate_left; clear_value x; rotate_right; dsimp -zeta only [x]; try clear x)
    | (intro x; try clear_value x)
    | apply State.sendMsg_keeps
    | apply State.setServo_keeps

theorem State.sendStep_keeps {mm : Bool} {s0 s : State} (hk : Keeps mm s0 s) (h n : Nat) (off : Int) :
    Keeps mm s0 (State.sendStep s h n off) := by
  refine hk.trans ?_; clear hk; unfold State.sendStep; try dsimp -zeta only [mkS_eq]
  try lift_lets -underBinder
  with_reducible repeat' first
    | assumption
    | exact Keeps.refl _
    | (intro x; try clear_value x)
    | apply State.setServo_keeps
    | apply State.sendMsg_keeps

theorem State.servoLoad_keeps {mm : Bool} {s0 s : State} (hk : Keeps mm s0 s) (h : Nat) :
    Keeps mm s0 (State.servoLoad s h) := by
  refine hk.trans ?_; clear hk; unfold State.servoLoad; try dsimp -zeta only [mkS_eq]
  try lift_lets -underBinder
  with_reducible repeat' first
    | assumption
    | exact Keeps.refl _
    | (intro x; try clear_value x)
    | apply State.sendLoad_keeps
    | apply State.hsGo_keeps

theorem State.servoSync_keeps {mm : Bool} {s0 s : State} (hk : Keeps mm s0 s) (h : Nat) :
    Keeps mm s0 (State.servoSync s h) := by
  refine hk.trans ?_; clear hk; unfold State.servoSync; try dsimp -zeta only [mkS_eq]
  try lift_lets -underBinder
  with_reducible repeat' first
    | assumption
    | exact Keeps.refl _
    | (intro x; try clear_value x)
    | apply State.setServo_keeps
    | apply State.hsGo_keeps
    | apply State.hsLocked_keeps
    | apply upd_keeps
    | exact Fits.refl _
    | lift_lets -underBinder
    | apply Keeps.ite

theorem State.servoTrack_keeps {mm : Bool} {s0 s : State} (hk : Keeps mm s0 s) (h : Nat) (theta : Int) :
    Keeps mm s0 (State.servoTrack s h theta) := by
  refine hk.trans ?_; clear hk; unfold State.servoTrack; try dsimp -zeta only [mkS_eq]
  try lift_lets -underBinder
  with_reducible repeat' first
    | assumption
    | exact Keeps.refl _
    | (intro x; refine Keeps.abs (mm := mm) (x := x) (s := s) ?_ (fun hk => ?_); rotate_left; clear_value x; rotate_right; dsimp -zeta only [x]; try clear x)
    | (intro x; try clear_value x)
    | apply State.setServo_keeps
    | apply State.hsLocked_keeps
    | apply State.sendStep_keeps
    | apply State.hsGo_keeps
    | apply State.sendMsg_keeps
    | apply State.wr_keeps
    | apply upd_keeps
    | exact Fits.refl _
    | lift_lets -underBinder
    | apply Keeps.ite

theorem State.servoResult_keeps {mm : Bool} {s0 s : State} (hk : Keeps mm s0 s) (h : Nat) (theta : Int) :
    Keeps mm s0 (State.servoResult s h theta) := by
  refine hk.trans ?_; clear hk; unfold State.servoResult; try dsimp -zeta only [mkS_eq]
  try lift_lets -underBinder
  with_reducible repeat' first
    | assumption
    | exact Keeps.refl _
    | (intro x; refine Keeps.abs (mm := mm) (x := x) (s := s) ?_ (fun hk => ?_); rotate_left; clear_value x; rotate_right; dsimp -zeta only [x]; try clear x)
    | (intro x; try clear_value x)
    | apply State.wr_keeps
    | apply State.setServo_keeps
    | apply State.servoLoad_keeps
    | apply State.servoTrack_keeps
    | apply State.hsGo_keeps
    | apply upd_keeps
    | exact Fits.refl _
    | lift_lets -underBinder
    | apply Keeps.ite
    | split

theorem State.probeDone_keeps {mm : Bool} {s0 s : State} (hk : Keeps mm s0 s) (h : Nat) (p : Probe) (t3ns t3frac : Nat) :
    Keeps mm s0 (State.probeDone s h p t3ns t3frac) := by
  refine hk.trans ?_; clear hk; unfold State.probeDone; try dsimp -zeta only [mkS_eq]
  try lift_lets -underBinder
  with_reducible repeat' first
    | assumption
    | exact Keeps.refl _
    | (intro x; try clear_value x)
    | apply State.p64_keeps
    | apply State.wr_keeps
    | apply State.setCw_keeps
    | apply State.servoResult_keeps
    | apply State.p_keeps
    | apply upd_keeps
    | exact Fits.refl _
    | lift_lets -underBinder
    | apply Keeps.ite
    | split

theorem State.downComma_keeps {mm : Bool} {s0 s : State} (hk : Keeps mm s0 s) (h : Nat) :
    Keeps mm s0 (State.downComma s h) := by
  refine hk.trans ?_; clear hk; unfold State.downComma; try dsimp -zeta only [mkS_eq]
  try lift_lets -underBinder
  with_reducible repeat' first
    | assumption
    | exact Keeps.refl _
    | (intro x; refine Keeps.abs (mm := mm) (x := x) (s := s) ?_ (fun hk => ?_); rotate_left; clear_value x; rotate_right; dsimp -zeta only [x]; try clear x)
    | (intro x; try clear_value x)
    | apply State.setCw_keeps
    | apply State.setServo_keeps
    | apply State.servoLoad_keeps
    | apply State.hsGo_keeps
    | apply upd_keeps
    | exact Fits.refl _
    | lift_lets -underBinder
    | apply Keeps.ite
    | split

theorem execDownstreamComma_keeps {mm : Bool} {s0 s : State} (hk : Keeps mm s0 s) (h : Fin 4) :
    Keeps mm s0 (after s (execDownstreamComma h s)) := by
  refine hk.trans ?_; clear hk; unfold execDownstreamComma; try dsimp -zeta only [mkS_eq]
  try lift_lets -underBinder
  with_reducible repeat' first
    | assumption
    | exact Keeps.refl _
    | (intro x; try clear_value x)
    | apply after_next_keeps
    | apply State.downComma_keeps
    | lift_lets -underBinder
    | apply Keeps.ite

theorem execProbeTimer_keeps {mm : Bool} {s0 s : State} (hk : Keeps mm s0 s) (h : Fin 4) :
    Keeps mm s0 (after s (execProbeTimer h s)) := by
  refine hk.trans ?_; clear hk; unfold execProbeTimer; try dsimp -zeta only [mkS_eq]
  try lift_lets -underBinder
  with_reducible repeat' first
    | assumption
    | exact Keeps.refl _
    | exact KeepsF.id
    | (intro x; try clear_value x)
    | apply after_next_keeps
    | apply State.sendMsg_keeps
    | apply State.setCw_keeps
    | apply upd_keeps
    | exact Fits.refl _
    | lift_lets -underBinder
    | apply Keeps.ite

theorem execProbeLostTimer_keeps {mm : Bool} {s0 s : State} (hk : Keeps mm s0 s) (h : Fin 4) :
    Keeps mm s0 (after s (execProbeLostTimer h s)) := by
  refine hk.trans ?_; clear hk; unfold execProbeLostTimer; try dsimp -zeta only [mkS_eq]
  try lift_lets -underBinder
  with_reducible repeat' first
    | assumption
    | exact Keeps.refl _
    | (intro x; try clear_value x)
    | apply after_next_keeps
    | apply State.addSat_keeps
    | apply State.setCw_keeps
    | apply upd_keeps
    | exact Fits.refl _
    | lift_lets -underBinder
    | apply Keeps.ite

theorem execServoHoldTimer_keeps {mm : Bool} {s0 s : State} (hk : Keeps mm s0 s) (h : Fin 4) :
    Keeps mm s0 (after s (execServoHoldTimer h s)) := by
  refine hk.trans ?_; clear hk; unfold execServoHoldTimer; try dsimp -zeta only [mkS_eq]
  try lift_lets -underBinder
  with_reducible repeat' first
    | assumption
    | exact Keeps.refl _
    | (intro x; try clear_value x)
    | apply after_next_keeps
    | apply State.hsGo_keeps
    | lift_lets -underBinder
    | apply Keeps.ite

end Sys2Proof.Machine
end

