-- ==== Sys2Proof/Laws/KeepsCauseway.lean ====
section
/-! SUPPORT. What the functions of Machine/Causeway.lean keep: the part, the queue, the memories where they store nothing, and the
canonical form of the tables. -/

namespace Sys2Proof.Machine
theorem State.setCl_keeps {mm : Bool} {s0 s : State} (hk : Keeps mm s0 s) (h j : Nat) (f : CLane → CLane) :
    Keeps mm s0 (State.setCl s h j f) := by
  refine hk.trans ?_; clear hk; unfold State.setCl; try dsimp -zeta only [mkS_eq]
  try lift_lets -underBinder
  with_reducible repeat' first
    | assumption
    | exact Keeps.refl _
    | (intro x; try clear_value x)
    | apply State.setCw_keeps

theorem State.linkSync_keeps {mm : Bool} {s0 s : State} (hk : Keeps mm s0 s) (h : Nat) :
    Keeps mm s0 (State.linkSync s h) := by
  refine hk.trans ?_; clear hk; unfold State.linkSync; try dsimp -zeta only [mkS_eq]
  try lift_lets -underBinder
  with_reducible repeat' first
    | assumption
    | exact Keeps.refl _
    | (intro x; refine Keeps.abs (mm := mm) (x := x) (s := s) ?_ (fun hk => ?_); rotate_left; clear_value x; rotate_right; dsimp -zeta only [x]; try clear x)
    | (intro x; try clear_value x)
    | apply State.wr_keeps
    | apply State.p_keeps
    | apply State.irqIf_keeps
    | apply foldl_keeps
    | lift_lets -underBinder
    | apply Keeps.ite

theorem State.linkGo_keeps {s0 s : State} (hk : Keeps false s0 s) (h st cause : Nat) :
    Keeps false s0 (State.linkGo s h st cause) := by
  refine hk.trans ?_; clear hk; unfold State.linkGo; try dsimp -zeta only [mkS_eq]
  try lift_lets -underBinder
  with_reducible repeat' first
    | assumption
    | exact Keeps.refl _
    | (intro x; refine Keeps.abs (mm := false) (x := x) (s := s) ?_ (fun hk => ?_); rotate_left; clear_value x; rotate_right; dsimp -zeta only [x]; try clear x)
    | (intro x; try clear_value x)
    | apply State.p_keeps
    | apply State.fault_keeps
    | apply State.msgDown_keeps
    | apply State.abandonCur_keeps
    | apply State.setCw_keeps
    | apply State.linkSync_keeps
    | apply State.setBusy_keeps
    | apply State.servoSync_keeps
    | apply State.irqIf_keeps
    | apply upd_keeps
    | exact Fits.refl _
    | lift_lets -underBinder
    | apply Keeps.ite

theorem State.linkDown_keeps {s0 s : State} (hk : Keeps false s0 s) (h cause : Nat) :
    Keeps false s0 (State.linkDown s h cause) := by
  refine hk.trans ?_; clear hk; unfold State.linkDown; try dsimp -zeta only [mkS_eq]
  try lift_lets -underBinder
  with_reducible repeat' first
    | assumption
    | exact Keeps.refl _
    | (intro x; try clear_value x)
    | apply State.linkGo_keeps

theorem State.linkTrain_keeps {mm : Bool} {s0 s : State} (hk : Keeps mm s0 s) (h j : Nat) :
    Keeps mm s0 (State.linkTrain s h j) := by
  refine hk.trans ?_; clear hk; unfold State.linkTrain; try dsimp -zeta only [mkS_eq]
  try lift_lets -underBinder
  with_reducible repeat' first
    | assumption
    | exact Keeps.refl _
    | (intro x; try clear_value x)
    | apply State.beginTraining_keeps

theorem State.linkCtrlUp_keeps {s0 s : State} (hk : Keeps false s0 s) (h : Nat) :
    Keeps false s0 (State.linkCtrlUp s h) := by
  refine hk.trans ?_; clear hk; unfold State.linkCtrlUp; try dsimp -zeta only [mkS_eq]
  try lift_lets -underBinder
  with_reducible repeat' first
    | assumption
    | exact Keeps.refl _
    | (apply KeepsF.intro; intro s; (try dsimp -zeta only); try lift_lets -underBinder)
    | (intro x; refine Keeps.abs (mm := false) (x := x) (s := s) ?_ (fun hk => ?_); rotate_left; clear_value x; rotate_right; dsimp -zeta only [x]; try clear x)
    | (intro x; try clear_value x)
    | apply State.setCw_keeps
    | apply State.setPstate_keeps
    | apply State.linkGo_keeps
    | apply forN_keeps

theorem State.feedDrive_keeps {mm : Bool} {s0 s : State} (hk : Keeps mm s0 s) (h : Nat) (on : Bool) :
    Keeps mm s0 (State.feedDrive s h on) := by
  refine hk.trans ?_; clear hk; unfold State.feedDrive; try dsimp -zeta only [mkS_eq]
  try lift_lets -underBinder
  with_reducible repeat' first
    | assumption
    | exact Keeps.refl _
    | (intro x; refine Keeps.abs (mm := mm) (x := x) (s := s) ?_ (fun hk => ?_); rotate_left; clear_value x; rotate_right; dsimp -zeta only [x]; try clear x)
    | (intro x; try clear_value x)
    | apply State.p_keeps
    | apply State.emit_keeps
    | apply State.setCw_keeps
    | apply upd_keeps
    | exact Fits.refl _
    | (simp only [upd_length, List.length_map, List.length_replicate]; exact Fits.refl _)
    | lift_lets -underBinder
    | apply Keeps.ite

theorem State.linkWake_keeps {s0 s : State} (hk : Keeps false s0 s) (h : Nat) :
    Keeps false s0 (State.linkWake s h) := by
  refine hk.trans ?_; clear hk; unfold State.linkWake; try dsimp -zeta only [mkS_eq]
  try lift_lets -underBinder
  with_reducible repeat' first
    | assumption
    | exact Keeps.refl _
    | (intro x; try clear_value x)
    | apply State.linkCtrlUp_keeps
    | lift_lets -underBinder
    | apply Keeps.ite

theorem State.linkDisable_keeps {s0 s : State} (hk : Keeps false s0 s) (h : Nat) :
    Keeps false s0 (State.linkDisable s h) := by
  refine hk.trans ?_; clear hk; unfold State.linkDisable; try dsimp -zeta only [mkS_eq]
  try lift_lets -underBinder
  with_reducible repeat' first
    | assumption
    | exact Keeps.refl _
    | (apply KeepsF.intro; intro s; (try dsimp -zeta only); try lift_lets -underBinder)
    | (intro x; refine Keeps.abs (mm := false) (x := x) (s := s) ?_ (fun hk => ?_); rotate_left; clear_value x; rotate_right; dsimp -zeta only [x]; try clear x)
    | (intro x; try clear_value x)
    | apply State.linkGo_keeps
    | apply State.setPstate_keeps
    | apply State.trainingOver_keeps
    | apply forN_keeps

theorem State.sendRemap_keeps {mm : Bool} {s0 s : State} (hk : Keeps mm s0 s) (h r l tries : Nat) :
    Keeps mm s0 (State.sendRemap s h r l tries) := by
  refine hk.trans ?_; clear hk; unfold State.sendRemap; try dsimp -zeta only [mkS_eq]
  try lift_lets -underBinder
  with_reducible repeat' first
    | assumption
    | exact Keeps.refl _
    | (intro x; refine Keeps.abs (mm := mm) (x := x) (s := s) ?_ (fun hk => ?_); rotate_left; clear_value x; rotate_right; dsimp -zeta only [x]; try clear x)
    | (intro x; try clear_value x)
    | apply State.setCw_keeps
    | apply State.linkSync_keeps
    | apply State.sendFour_keeps

theorem State.maybeReplace_keeps {mm : Bool} {s0 s : State} (hk : Keeps mm s0 s) (h : Nat) :
    Keeps mm s0 (State.maybeReplace s h) := by
  refine hk.trans ?_; clear hk; unfold State.maybeReplace; try dsimp -zeta only [mkS_eq]
  try lift_lets -underBinder
  with_reducible repeat' first
    | assumption
    | exact Keeps.refl _
    | (intro x; try clear_value x)
    | apply State.linkSync_keeps
    | apply State.linkTrain_keeps
    | apply State.setCw_keeps
    | apply upd_keeps
    | exact Fits.refl _
    | lift_lets -underBinder
    | apply Keeps.ite
    | split

theorem State.laneLost_keeps {s0 s : State} (hk : Keeps false s0 s) (h j cause : Nat) :
    Keeps false s0 (State.laneLost s h j cause) := by
  refine hk.trans ?_; clear hk; unfold State.laneLost; try dsimp -zeta only [mkS_eq]
  try lift_lets -underBinder
  with_reducible repeat' first
    | assumption
    | exact Keeps.refl _
    | (intro x; refine Keeps.abs (mm := false) (x := x) (s := s) ?_ (fun hk => ?_); rotate_left; clear_value x; rotate_right; dsimp -zeta only [x]; try clear x)
    | (intro x; try clear_value x)
    | apply State.setCl_keeps
    | apply State.irq_keeps
    | apply State.addSat_keeps
    | apply State.setCw_keeps
    | apply State.linkTrain_keeps
    | apply State.linkDown_keeps
    | apply State.linkSync_keeps
    | apply State.maybeReplace_keeps
    | apply upd_keeps
    | exact Fits.refl _
    | lift_lets -underBinder
    | apply Keeps.ite

theorem State.standbyDone_keeps {mm : Bool} {s0 s : State} (hk : Keeps mm s0 s) (h j : Nat) (ok : Bool) :
    Keeps mm s0 (State.standbyDone s h j ok) := by
  refine hk.trans ?_; clear hk; unfold State.standbyDone; try dsimp -zeta only [mkS_eq]
  try lift_lets -underBinder
  with_reducible repeat' first
    | assumption
    | exact Keeps.refl _
    | (intro x; try clear_value x)
    | apply State.sendTrain_keeps
    | apply State.setCl_keeps
    | apply State.linkSync_keeps
    | apply State.setCw_keeps
    | apply upd_keeps
    | exact Fits.refl _
    | lift_lets -underBinder
    | apply Keeps.ite

theorem State.lostDone_keeps {mm : Bool} {s0 s : State} (hk : Keeps mm s0 s) (h j : Nat) (ok : Bool) :
    Keeps mm s0 (State.lostDone s h j ok) := by
  refine hk.trans ?_; clear hk; unfold State.lostDone; try dsimp -zeta only [mkS_eq]
  try lift_lets -underBinder
  with_reducible repeat' first
    | assumption
    | exact Keeps.refl _
    | (apply KeepsF.intro; intro s; (try dsimp -zeta only); try lift_lets -underBinder)
    | (intro x; refine Keeps.abs (mm := mm) (x := x) (s := s) ?_ (fun hk => ?_); rotate_left; clear_value x; rotate_right; dsimp -zeta only [x]; try clear x)
    | (intro x; try clear_value x)
    | apply State.setCl_keeps
    | apply State.report_keeps
    | apply State.sendTrain_keeps
    | apply State.linkSync_keeps
    | apply State.sendFour_keeps
    | apply State.setCw_keeps
    | apply upd_keeps
    | exact Fits.refl _
    | lift_lets -underBinder
    | apply Keeps.ite

theorem State.searchEnd_keeps {s0 s : State} (hk : Keeps false s0 s) (n : Nat) (ok : Bool) :
    Keeps false s0 (State.searchEnd s n ok) := by
  refine hk.trans ?_; clear hk; unfold State.searchEnd; try dsimp -zeta only [mkS_eq]
  try lift_lets -underBinder
  with_reducible repeat' first
    | assumption
    | exact Keeps.refl _
    | (intro x; refine Keeps.abs (mm := false) (x := x) (s := s) ?_ (fun hk => ?_); rotate_left; clear_value x; rotate_right; dsimp -zeta only [x]; try clear x)
    | (intro x; try clear_value x)
    | apply State.fault_keeps
    | apply State.setCl_keeps
    | apply State.sendTrain_keeps
    | apply State.linkTrain_keeps
    | apply State.linkGo_keeps
    | apply State.standbyDone_keeps
    | apply State.lostDone_keeps
    | apply upd_keeps
    | exact Fits.refl _
    | lift_lets -underBinder
    | apply Keeps.ite

theorem State.linkCaps_keeps {s0 s : State} (hk : Keeps false s0 s) (h : Nat) :
    Keeps false s0 (State.linkCaps s h) := by
  refine hk.trans ?_; clear hk; unfold State.linkCaps; try dsimp -zeta only [mkS_eq]
  try lift_lets -underBinder
  with_reducible repeat' first
    | assumption
    | exact Keeps.refl _
    | (apply KeepsF.intro; intro s; (try dsimp -zeta only); try lift_lets -underBinder)
    | (intro x; refine Keeps.abs (mm := false) (x := x) (s := s) ?_ (fun hk => ?_); rotate_left; clear_value x; rotate_right; dsimp -zeta only [x]; try clear x)
    | (intro x; try clear_value x)
    | apply State.setCw_keeps
    | apply State.linkGo_keeps
    | apply State.sendMsg_keeps
    | apply forN_keeps

theorem State.linkAligned_keeps {s0 s : State} (hk : Keeps false s0 s) (h : Nat) :
    Keeps false s0 (State.linkAligned s h) := by
  refine hk.trans ?_; clear hk; unfold State.linkAligned; try dsimp -zeta only [mkS_eq]
  try lift_lets -underBinder
  with_reducible repeat' first
    | assumption
    | exact Keeps.refl _
    | (apply KeepsF.intro; intro s; (try dsimp -zeta only); try lift_lets -underBinder)
    | (intro x; refine Keeps.abs (mm := false) (x := x) (s := s) ?_ (fun hk => ?_); rotate_left; clear_value x; rotate_right; dsimp -zeta only [x]; try clear x)
    | (intro x; try clear_value x)
    | apply State.setCl_keeps
    | apply State.setCw_keeps
    | apply State.linkDown_keeps
    | apply State.sendRemap_keeps
    | apply State.linkCaps_keeps
    | apply forN_keeps
    | apply upd_keeps
    | exact Fits.refl _
    | lift_lets -underBinder
    | apply Keeps.ite

theorem State.remapGone_keeps {s0 s : State} (hk : Keeps false s0 s) (h : Nat) :
    Keeps false s0 (State.remapGone s h) := by
  refine hk.trans ?_; clear hk; unfold State.remapGone; try dsimp -zeta only [mkS_eq]
  try lift_lets -underBinder
  with_reducible repeat' first
    | assumption
    | exact Keeps.refl _
    | (intro x; refine Keeps.abs (mm := false) (x := x) (s := s) ?_ (fun hk => ?_); rotate_left; clear_value x; rotate_right; dsimp -zeta only [x]; try clear x)
    | (intro x; try clear_value x)
    | apply State.linkSync_keeps
    | apply State.setCw_keeps
    | apply State.linkDown_keeps
    | apply upd_keeps
    | exact Fits.refl _
    | lift_lets -underBinder
    | apply Keeps.ite

theorem State.remapDone_keeps {s0 s : State} (hk : Keeps false s0 s) (h : Nat) (m : Remap) :
    Keeps false s0 (State.remapDone s h m) := by
  refine hk.trans ?_; clear hk; unfold State.remapDone; try dsimp -zeta only [mkS_eq]
  try lift_lets -underBinder
  repeat' first
    | with_reducible assumption
    | with_reducible exact Keeps.refl _
    | (intro x; refine Keeps.abs (mm := false) (x := x) (s := s) ?_ (fun hk => ?_); dsimp -zeta only [x]; try clear x)
    | (intro x; try clear_value x)
    | with_reducible apply State.setCw_keeps
    | with_reducible apply State.setCl_keeps
    | with_reducible apply State.irq_keeps
    | with_reducible apply State.linkSync_keeps
    | with_reducible apply State.linkCaps_keeps
    | with_reducible apply State.maybeReplace_keeps
    | with_reducible apply upd_keeps
    | with_reducible exact Fits.refl _
    | lift_lets -underBinder
    | with_reducible apply Keeps.ite
    | split

theorem State.remapComma_keeps {s0 s : State} (hk : Keeps false s0 s) (h j sfc role : Nat) (ok : Bool) :
    Keeps false s0 (State.remapComma s h j sfc role ok) := by
  refine hk.trans ?_; clear hk; unfold State.remapComma; try dsimp -zeta only [mkS_eq]
  try lift_lets -underBinder
  with_reducible repeat' first
    | assumption
    | exact Keeps.refl _
    | (intro x; try clear_value x)
    | apply State.remapDone_keeps
    | apply State.linkSync_keeps
    | apply State.setCw_keeps
    | apply State.sendRemap_keeps
    | apply State.remapGone_keeps
    | apply upd_keeps
    | exact Fits.refl _
    | lift_lets -underBinder
    | apply Keeps.ite
    | split

theorem State.capsIn_keeps {s0 s : State} (hk : Keeps false s0 s) (h : Nat) :
    Keeps false s0 (State.capsIn s h) := by
  refine hk.trans ?_; clear hk; unfold State.capsIn; try dsimp -zeta only [mkS_eq]
  try lift_lets -underBinder
  with_reducible repeat' first
    | assumption
    | exact Keeps.refl _
    | (intro x; try clear_value x)
    | apply State.linkDown_keeps
    | apply State.linkGo_keeps
    | lift_lets -underBinder
    | apply Keeps.ite

theorem State.upstream_keeps {mm : Bool} {s0 s : State} (hk : Keeps mm s0 s) (h seq : Nat) (act : State → State) (hkact : KeepsF mm act) :
    Keeps mm s0 (State.upstream s h seq act) := by
  refine hk.trans ?_; clear hk; unfold State.upstream; try dsimp -zeta only [mkS_eq]
  try lift_lets -underBinder
  with_reducible repeat' first
    | assumption
    | exact Keeps.refl _
    | (intro x; try clear_value x)
    | exact hkact
    | apply KeepsF.ap hkact
    | apply State.emit_keeps
    | apply State.setCw_keeps
    | apply upd_keeps
    | exact Fits.refl _
    | lift_lets -underBinder
    | apply Keeps.ite

theorem State.upUnknown_keeps {mm : Bool} {s0 s : State} (hk : Keeps mm s0 s) (h seq : Nat) :
    Keeps mm s0 (State.upUnknown s h seq) := by
  refine hk.trans ?_; clear hk; unfold State.upUnknown; try dsimp -zeta only [mkS_eq]
  try lift_lets -underBinder
  with_reducible repeat' first
    | assumption
    | exact Keeps.refl _
    | (intro x; try clear_value x)
    | apply State.emit_keeps
    | apply State.setCw_keeps
    | apply upd_keeps
    | exact Fits.refl _
    | lift_lets -underBinder
    | apply Keeps.ite

theorem State.upAnswer_keeps {s0 s : State} (hk : Keeps false s0 s) (h seq reason : Nat) :
    Keeps false s0 (State.upAnswer s h seq reason) := by
  refine hk.trans ?_; clear hk; unfold State.upAnswer; try dsimp -zeta only [mkS_eq]
  try lift_lets -underBinder
  with_reducible repeat' first
    | assumption
    | exact Keeps.refl _
    | (intro x; try clear_value x)
    | apply State.answer_keeps
    | apply State.linkDown_keeps
    | apply upd_keeps
    | exact Fits.refl _
    | (apply Keeps.ofpair (by assumption))
    | (apply Keeps.ofpair1 (by assumption))
    | (apply Keeps.oftriple (by assumption))
    | lift_lets -underBinder
    | apply Keeps.ite
    | split

theorem State.upReadRsp_keeps {s0 s : State} (hk : Keeps false s0 s) (h seq addr data : Nat) :
    Keeps false s0 (State.upReadRsp s h seq addr data) := by
  refine hk.trans ?_; clear hk; unfold State.upReadRsp; try dsimp -zeta only [mkS_eq]
  try lift_lets -underBinder
  with_reducible repeat' first
    | assumption
    | exact Keeps.refl _
    | (apply KeepsF.intro; intro s; (try dsimp -zeta only); try lift_lets -underBinder)
    | (intro x; refine Keeps.abs (mm := false) (x := x) (s := s) ?_ (fun hk => ?_); rotate_left; clear_value x; rotate_right; dsimp -zeta only [x]; try clear x)
    | (intro x; try clear_value x)
    | apply State.upstream_keeps
    | apply State.setCw_keeps
    | apply State.wr_keeps
    | apply State.capsIn_keeps
    | apply State.rxPush_keeps
    | apply upd_keeps
    | exact Fits.refl _
    | lift_lets -underBinder
    | apply Keeps.ite

theorem State.upTimeT2_keeps {mm : Bool} {s0 s : State} (hk : Keeps mm s0 s) (h seq id ns frac : Nat) (copy : Bool) :
    Keeps mm s0 (State.upTimeT2 s h seq id ns frac copy) := by
  refine hk.trans ?_; clear hk; unfold State.upTimeT2; try dsimp -zeta only [mkS_eq]
  try lift_lets -underBinder
  with_reducible repeat' first
    | assumption
    | exact Keeps.refl _
    | exact KeepsF.id
    | (apply KeepsF.intro; intro s; (try dsimp -zeta only); try lift_lets -underBinder)
    | (intro x; try clear_value x)
    | apply State.upstream_keeps
    | apply State.setCw_keeps
    | apply upd_keeps
    | exact Fits.refl _
    | lift_lets -underBinder
    | apply Keeps.ite
    | split

theorem State.upTimeT3_keeps {mm : Bool} {s0 s : State} (hk : Keeps mm s0 s) (h seq id ns frac : Nat) :
    Keeps mm s0 (State.upTimeT3 s h seq id ns frac) := by
  refine hk.trans ?_; clear hk; unfold State.upTimeT3; try dsimp -zeta only [mkS_eq]
  try lift_lets -underBinder
  with_reducible repeat' first
    | assumption
    | exact Keeps.refl _
    | exact KeepsF.id
    | (apply KeepsF.intro; intro s; (try dsimp -zeta only); try lift_lets -underBinder)
    | (intro x; try clear_value x)
    | apply State.upstream_keeps
    | apply State.probeDone_keeps
    | apply upd_keeps
    | exact Fits.refl _
    | lift_lets -underBinder
    | apply Keeps.ite
    | split

theorem State.upStatus_keeps {mm : Bool} {s0 s : State} (hk : Keeps mm s0 s) (h seq errA errB : Nat) (timeValid : Bool) :
    Keeps mm s0 (State.upStatus s h seq errA errB timeValid) := by
  refine hk.trans ?_; clear hk; unfold State.upStatus; try dsimp -zeta only [mkS_eq]
  try lift_lets -underBinder
  with_reducible repeat' first
    | assumption
    | exact Keeps.refl _
    | (apply KeepsF.intro; intro s; (try dsimp -zeta only); try lift_lets -underBinder)
    | (intro x; refine Keeps.abs (mm := mm) (x := x) (s := s) ?_ (fun hk => ?_); rotate_left; clear_value x; rotate_right; dsimp -zeta only [x]; try clear x)
    | (intro x; try clear_value x)
    | apply State.upstream_keeps
    | apply State.p_keeps
    | apply State.servoLoad_keeps
    | lift_lets -underBinder
    | apply Keeps.ite

theorem State.upEvent_keeps {mm : Bool} {s0 s : State} (hk : Keeps mm s0 s) (h seq code detail : Nat) :
    Keeps mm s0 (State.upEvent s h seq code detail) := by
  refine hk.trans ?_; clear hk; unfold State.upEvent; try dsimp -zeta only [mkS_eq]
  try lift_lets -underBinder
  with_reducible repeat' first
    | assumption
    | exact Keeps.refl _
    | (apply KeepsF.intro; intro s; (try dsimp -zeta only); try lift_lets -underBinder)
    | (intro x; refine Keeps.abs (mm := mm) (x := x) (s := s) ?_ (fun hk => ?_); rotate_left; clear_value x; rotate_right; dsimp -zeta only [x]; try clear x)
    | (intro x; try clear_value x)
    | apply State.upstream_keeps
    | apply State.setOutcome_keeps
    | apply State.wr_keeps
    | apply State.rxPush_keeps
    | lift_lets -underBinder
    | apply Keeps.ite

theorem State.upMessage_keeps {s0 s : State} (hk : Keeps false s0 s) (h payload : Nat) :
    Keeps false s0 (State.upMessage s h payload) := by
  refine hk.trans ?_; clear hk; unfold State.upMessage; try dsimp -zeta only [mkS_eq]
  try lift_lets -underBinder
  with_reducible repeat' first
    | assumption
    | exact Keeps.refl _
    | (intro x; try clear_value x)
    | apply State.upAnswer_keeps
    | apply State.upReadRsp_keeps
    | apply State.upTimeT2_keeps
    | apply State.upTimeT3_keeps
    | apply State.upStatus_keeps
    | apply State.upEvent_keeps
    | apply State.upUnknown_keeps
    | apply upd_keeps
    | exact Fits.refl _
    | lift_lets -underBinder
    | apply Keeps.ite
    | split

theorem State.feedRaise_keeps {s0 s : State} (hk : Keeps false s0 s) (h : Nat) :
    Keeps false s0 (State.feedRaise s h) := by
  refine hk.trans ?_; clear hk; unfold State.feedRaise; try dsimp -zeta only [mkS_eq]
  try lift_lets -underBinder
  with_reducible repeat' first
    | assumption
    | exact Keeps.refl _
    | (intro x; try clear_value x)
    | apply State.linkWake_keeps
    | apply State.feedDrive_keeps

theorem State.feedOff_keeps {s0 s : State} (hk : Keeps false s0 s) (h : Nat) :
    Keeps false s0 (State.feedOff s h) := by
  refine hk.trans ?_; clear hk; unfold State.feedOff; try dsimp -zeta only [mkS_eq]
  try lift_lets -underBinder
  with_reducible repeat' first
    | assumption
    | exact Keeps.refl _
    | (intro x; try clear_value x)
    | apply State.linkGo_keeps
    | apply State.feedDrive_keeps

theorem State.feedCtrl_keeps {s0 s : State} (hk : Keeps false s0 s) (h v : Nat) :
    Keeps false s0 (State.feedCtrl s h v) := by
  refine hk.trans ?_; clear hk; unfold State.feedCtrl; try dsimp -zeta only [mkS_eq]
  try lift_lets -underBinder
  with_reducible repeat' first
    | assumption
    | exact Keeps.refl _
    | (intro x; refine Keeps.abs (mm := false) (x := x) (s := s) ?_ (fun hk => ?_); rotate_left; clear_value x; rotate_right; dsimp -zeta only [x]; try clear x)
    | (intro x; try clear_value x)
    | apply State.refuse4_keeps
    | apply State.p_keeps
    | apply State.feedRaise_keeps
    | apply State.feedOff_keeps
    | apply upd_keeps
    | exact Fits.refl _
    | lift_lets -underBinder
    | apply Keeps.ite
    | split

theorem State.feedFault_keeps {s0 s : State} (hk : Keeps false s0 s) (h : Nat) :
    Keeps false s0 (State.feedFault s h) := by
  refine hk.trans ?_; clear hk; unfold State.feedFault; try dsimp -zeta only [mkS_eq]
  try lift_lets -underBinder
  with_reducible repeat' first
    | assumption
    | exact Keeps.refl _
    | (apply KeepsF.intro; intro s; (try dsimp -zeta only); try lift_lets -underBinder)
    | (intro x; refine Keeps.abs (mm := false) (x := x) (s := s) ?_ (fun hk => ?_); rotate_left; clear_value x; rotate_right; dsimp -zeta only [x]; try clear x)
    | (intro x; try clear_value x)
    | apply State.p_keeps
    | apply State.feedDrive_keeps
    | apply State.setCw_keeps
    | apply State.irq_keeps
    | apply State.fault_keeps
    | apply State.report_keeps
    | apply State.linkDown_keeps
    | apply upd_keeps
    | exact Fits.refl _
    | lift_lets -underBinder
    | apply Keeps.ite

theorem State.msgResend_keeps {s0 s : State} (hk : Keeps false s0 s) (h : Nat) :
    Keeps false s0 (State.msgResend s h) := by
  refine hk.trans ?_; clear hk; unfold State.msgResend; try dsimp -zeta only [mkS_eq]
  try lift_lets -underBinder
  with_reducible repeat' first
    | assumption
    | exact Keeps.refl _
    | (apply KeepsF.intro; intro s; (try dsimp -zeta only); try lift_lets -underBinder)
    | (intro x; try clear_value x)
    | apply State.linkDown_keeps
    | apply State.irq_keeps
    | apply State.fault_keeps
    | apply State.emit_keeps
    | apply State.setCw_keeps
    | apply foldl_keeps
    | apply upd_keeps
    | exact Fits.refl _
    | lift_lets -underBinder
    | apply Keeps.ite

theorem State.ctrlUpEnd_keeps {s0 s : State} (hk : Keeps false s0 s) (h : Nat) :
    Keeps false s0 (State.ctrlUpEnd s h) := by
  refine hk.trans ?_; clear hk; unfold State.ctrlUpEnd; try dsimp -zeta only [mkS_eq]
  try lift_lets -underBinder
  with_reducible repeat' first
    | assumption
    | exact Keeps.refl _
    | (apply KeepsF.intro; intro s; (try dsimp -zeta only); try lift_lets -underBinder)
    | (intro x; try clear_value x)
    | apply State.linkGo_keeps
    | apply State.msgRestart_keeps
    | apply State.linkTrain_keeps
    | apply forN_keeps
    | lift_lets -underBinder
    | apply Keeps.ite

theorem State.cwyCtrl_keeps {s0 s : State} (hk : Keeps false s0 s) (h v : Nat) :
    Keeps false s0 (State.cwyCtrl s h v) := by
  refine hk.trans ?_; clear hk; unfold State.cwyCtrl; try dsimp -zeta only [mkS_eq]
  try lift_lets -underBinder
  with_reducible repeat' first
    | assumption
    | exact Keeps.refl _
    | (intro x; try clear_value x)
    | apply State.refuse4_keeps
    | apply State.linkCtrlUp_keeps
    | apply State.plainWrite_keeps
    | lift_lets -underBinder
    | apply Keeps.ite

theorem execStandbyReadyRemap_keeps {mm : Bool} {s0 s : State} (hk : Keeps mm s0 s) (h : Fin 4) :
    Keeps mm s0 (after s (execStandbyReadyRemap h s)) := by
  refine hk.trans ?_; clear hk; unfold execStandbyReadyRemap; try dsimp -zeta only [mkS_eq]
  try lift_lets -underBinder
  with_reducible repeat' first
    | assumption
    | exact Keeps.refl _
    | (intro x; try clear_value x)
    | apply after_next_keeps
    | apply State.sendRemap_keeps
    | apply upd_keeps
    | exact Fits.refl _
    | lift_lets -underBinder
    | apply Keeps.ite
    | split

theorem execMsgResendTimer_keeps {s0 s : State} (hk : Keeps false s0 s) (h : Fin 4) :
    Keeps false s0 (after s (execMsgResendTimer h s)) := by
  refine hk.trans ?_; clear hk; unfold execMsgResendTimer; try dsimp -zeta only [mkS_eq]
  try lift_lets -underBinder
  with_reducible repeat' first
    | assumption
    | exact Keeps.refl _
    | (intro x; try clear_value x)
    | apply after_next_keeps
    | apply State.msgResend_keeps

theorem execHeadAck_keeps {s0 s : State} (hk : Keeps false s0 s) (h : Fin 4) (seq : BitVec 16) :
    Keeps false s0 (after s (execHeadAck h seq s)) := by
  refine hk.trans ?_; clear hk; unfold execHeadAck; try dsimp -zeta only [mkS_eq]
  try lift_lets -underBinder
  with_reducible repeat' first
    | assumption
    | exact Keeps.refl _
    | (intro x; try clear_value x)
    | apply after_next_keeps
    | apply State.upAnswer_keeps

theorem execHeadNack_keeps {s0 s : State} (hk : Keeps false s0 s) (h : Fin 4) (seq : BitVec 16) (reason : Byte) :
    Keeps false s0 (after s (execHeadNack h seq reason s)) := by
  refine hk.trans ?_; clear hk; unfold execHeadNack; try dsimp -zeta only [mkS_eq]
  try lift_lets -underBinder
  with_reducible repeat' first
    | assumption
    | exact Keeps.refl _
    | (intro x; try clear_value x)
    | apply after_next_keeps
    | apply State.upAnswer_keeps

theorem execReadRsp_keeps {s0 s : State} (hk : Keeps false s0 s) (h : Fin 4) (seq : BitVec 16) (addr : BitVec 24) (data : Word) :
    Keeps false s0 (after s (execReadRsp h seq addr data s)) := by
  refine hk.trans ?_; clear hk; unfold execReadRsp; try dsimp -zeta only [mkS_eq]
  try lift_lets -underBinder
  with_reducible repeat' first
    | assumption
    | exact Keeps.refl _
    | (intro x; try clear_value x)
    | apply after_next_keeps
    | apply State.upReadRsp_keeps

theorem execTimeT2_keeps {mm : Bool} {s0 s : State} (hk : Keeps mm s0 s) (h : Fin 4) (seq probeId : BitVec 16) (ns : Word) (frac : BitVec 16) (copyB : Bool) :
    Keeps mm s0 (after s (execTimeT2 h seq probeId ns frac copyB s)) := by
  refine hk.trans ?_; clear hk; unfold execTimeT2; try dsimp -zeta only [mkS_eq]
  try lift_lets -underBinder
  with_reducible repeat' first
    | assumption
    | exact Keeps.refl _
    | (intro x; try clear_value x)
    | apply after_next_keeps
    | apply State.upTimeT2_keeps

theorem execTimeT3_keeps {mm : Bool} {s0 s : State} (hk : Keeps mm s0 s) (h : Fin 4) (seq probeId : BitVec 16) (ns : Word) (frac : BitVec 16) :
    Keeps mm s0 (after s (execTimeT3 h seq probeId ns frac s)) := by
  refine hk.trans ?_; clear hk; unfold execTimeT3; try dsimp -zeta only [mkS_eq]
  try lift_lets -underBinder
  with_reducible repeat' first
    | assumption
    | exact Keeps.refl _
    | (intro x; try clear_value x)
    | apply after_next_keeps
    | apply State.upTimeT3_keeps

theorem execHeadStatus_keeps {mm : Bool} {s0 s : State} (hk : Keeps mm s0 s) (h : Fin 4) (seq errA errB : BitVec 16) (timeValid : Bool) :
    Keeps mm s0 (after s (execHeadStatus h seq errA errB timeValid s)) := by
  refine hk.trans ?_; clear hk; unfold execHeadStatus; try dsimp -zeta only [mkS_eq]
  try lift_lets -underBinder
  with_reducible repeat' first
    | assumption
    | exact Keeps.refl _
    | (intro x; try clear_value x)
    | apply after_next_keeps
    | apply State.upStatus_keeps

theorem execSetApplied_keeps {mm : Bool} {s0 s : State} (hk : Keeps mm s0 s) (h : Fin 4) (seq setId : BitVec 16) (hfc : Word) :
    Keeps mm s0 (after s (execSetApplied h seq setId hfc s)) := by
  refine hk.trans ?_; clear hk; unfold execSetApplied; try dsimp -zeta only [mkS_eq]
  try lift_lets -underBinder
  with_reducible repeat' first
    | assumption
    | exact Keeps.refl _
    | (intro x; try clear_value x)
    | apply after_next_keeps
    | apply State.upEvent_keeps

theorem execSetLate_keeps {mm : Bool} {s0 s : State} (hk : Keeps mm s0 s) (h : Fin 4) (seq setId : BitVec 16) (hfc : Word) :
    Keeps mm s0 (after s (execSetLate h seq setId hfc s)) := by
  refine hk.trans ?_; clear hk; unfold execSetLate; try dsimp -zeta only [mkS_eq]
  try lift_lets -underBinder
  with_reducible repeat' first
    | assumption
    | exact Keeps.refl _
    | (intro x; try clear_value x)
    | apply after_next_keeps
    | apply State.upEvent_keeps

theorem execHeadEvent_keeps {mm : Bool} {s0 s : State} (hk : Keeps mm s0 s) (h : Fin 4) (seq : BitVec 16) (code : Byte) (detail : BitVec 72) :
    Keeps mm s0 (after s (execHeadEvent h seq code detail s)) := by
  refine hk.trans ?_; clear hk; unfold execHeadEvent; try dsimp -zeta only [mkS_eq]
  try lift_lets -underBinder
  with_reducible repeat' first
    | assumption
    | exact Keeps.refl _
    | (intro x; try clear_value x)
    | apply after_next_keeps
    | apply State.upEvent_keeps

theorem execUnknownUpstreamMsg_keeps {mm : Bool} {s0 s : State} (hk : Keeps mm s0 s) (h : Fin 4) (seq : BitVec 16) :
    Keeps mm s0 (after s (execUnknownUpstreamMsg h seq s)) := by
  refine hk.trans ?_; clear hk; unfold execUnknownUpstreamMsg; try dsimp -zeta only [mkS_eq]
  try lift_lets -underBinder
  with_reducible repeat' first
    | assumption
    | exact Keeps.refl _
    | (intro x; try clear_value x)
    | apply after_next_keeps
    | apply State.upUnknown_keeps

theorem execMsgStripe_keeps {s0 s : State} (hk : Keeps false s0 s) (h : Fin 4) (slots : List (BitVec 128)) :
    Keeps false s0 (after s (execMsgStripe h slots s)) := by
  refine hk.trans ?_; clear hk; unfold execMsgStripe; try dsimp -zeta only [mkS_eq]
  try lift_lets -underBinder
  with_reducible repeat' first
    | assumption
    | exact Keeps.refl _
    | (apply KeepsF.intro; intro s; (try dsimp -zeta only); try lift_lets -underBinder)
    | (intro x; try clear_value x)
    | apply after_next_keeps
    | apply State.upMessage_keeps
    | apply foldl_keeps

theorem execFeedOn_keeps {s0 s : State} (hk : Keeps false s0 s) (h : Fin 4) :
    Keeps false s0 (after s (execFeedOn h s)) := by
  refine hk.trans ?_; clear hk; unfold execFeedOn; try dsimp -zeta only [mkS_eq]
  try lift_lets -underBinder
  with_reducible repeat' first
    | assumption
    | exact Keeps.refl _
    | (apply KeepsF.intro; intro s; (try dsimp -zeta only); try lift_lets -underBinder)
    | (intro x; try clear_value x)
    | apply after_next_keeps
    | apply State.hostReg_keeps
    | apply State.feedCtrl_keeps

theorem execFeedOff_keeps {s0 s : State} (hk : Keeps false s0 s) (h : Fin 4) :
    Keeps false s0 (after s (execFeedOff h s)) := by
  refine hk.trans ?_; clear hk; unfold execFeedOff; try dsimp -zeta only [mkS_eq]
  try lift_lets -underBinder
  with_reducible repeat' first
    | assumption
    | exact Keeps.refl _
    | (apply KeepsF.intro; intro s; (try dsimp -zeta only); try lift_lets -underBinder)
    | (intro x; try clear_value x)
    | apply after_next_keeps
    | apply State.hostReg_keeps
    | apply State.feedCtrl_keeps

theorem execFeedPendingRaise_keeps {s0 s : State} (hk : Keeps false s0 s) (h : Fin 4) :
    Keeps false s0 (after s (execFeedPendingRaise h s)) := by
  refine hk.trans ?_; clear hk; unfold execFeedPendingRaise; try dsimp -zeta only [mkS_eq]
  try lift_lets -underBinder
  with_reducible repeat' first
    | assumption
    | exact Keeps.refl _
    | (intro x; try clear_value x)
    | apply after_next_keeps
    | apply State.feedRaise_keeps
    | lift_lets -underBinder
    | apply Keeps.ite

theorem execFeedFault_keeps {s0 s : State} (hk : Keeps false s0 s) (h : Fin 4) :
    Keeps false s0 (after s (execFeedFault h s)) := by
  refine hk.trans ?_; clear hk; unfold execFeedFault; try dsimp -zeta only [mkS_eq]
  try lift_lets -underBinder
  with_reducible repeat' first
    | assumption
    | exact Keeps.refl _
    | (intro x; try clear_value x)
    | apply after_next_keeps
    | apply State.feedFault_keeps

theorem execFeedHoldoffEnd_keeps {mm : Bool} {s0 s : State} (hk : Keeps mm s0 s) (h : Fin 4) :
    Keeps mm s0 (after s (execFeedHoldoffEnd h s)) := by
  refine hk.trans ?_; clear hk; unfold execFeedHoldoffEnd; try dsimp -zeta only [mkS_eq]
  try lift_lets -underBinder
  with_reducible repeat' first
    | assumption
    | exact Keeps.refl _
    | (intro x; try clear_value x)
    | apply after_next_keeps
    | apply State.fault_keeps
    | apply State.setCw_keeps
    | apply State.p_keeps

theorem execHeadFeedFltRise_keeps {mm : Bool} {s0 s : State} (hk : Keeps mm s0 s) (h : Fin 4) :
    Keeps mm s0 (after s (execHeadFeedFltRise h s)) := by
  refine hk.trans ?_; clear hk; unfold execHeadFeedFltRise; try dsimp -zeta only [mkS_eq]
  try lift_lets -underBinder
  with_reducible repeat' first
    | assumption
    | exact Keeps.refl _
    | (intro x; try clear_value x)
    | apply after_next_keeps
    | apply State.p_keeps

theorem execCtrlUpTimer_keeps {s0 s : State} (hk : Keeps false s0 s) (h : Fin 4) :
    Keeps false s0 (after s (execCtrlUpTimer h s)) := by
  refine hk.trans ?_; clear hk; unfold execCtrlUpTimer; try dsimp -zeta only [mkS_eq]
  try lift_lets -underBinder
  with_reducible repeat' first
    | assumption
    | exact Keeps.refl _
    | (intro x; try clear_value x)
    | apply after_next_keeps
    | apply State.ctrlUpEnd_keeps

theorem execLinkAligned_keeps {s0 s : State} (hk : Keeps false s0 s) (h : Fin 4) :
    Keeps false s0 (after s (execLinkAligned h s)) := by
  refine hk.trans ?_; clear hk; unfold execLinkAligned; try dsimp -zeta only [mkS_eq]
  try lift_lets -underBinder
  with_reducible repeat' first
    | assumption
    | exact Keeps.refl _
    | (intro x; try clear_value x)
    | apply after_next_keeps
    | apply State.linkAligned_keeps

theorem execLinkRestart_keeps {s0 s : State} (hk : Keeps false s0 s) (h : Fin 4) (value : Word) :
    Keeps false s0 (after s (execLinkRestart h value s)) := by
  refine hk.trans ?_; clear hk; unfold execLinkRestart; try dsimp -zeta only [mkS_eq]
  try lift_lets -underBinder
  with_reducible repeat' first
    | assumption
    | exact Keeps.refl _
    | (apply KeepsF.intro; intro s; (try dsimp -zeta only); try lift_lets -underBinder)
    | (intro x; try clear_value x)
    | apply after_next_keeps
    | apply State.hostReg_keeps
    | apply State.cwyCtrl_keeps

end Sys2Proof.Machine
end

