-- ==== Sys2Proof/Laws/KeepsStripes.lean ====
section
/-! SUPPORT. What the functions of Machine/Stripes.lean keep: the part, the queue, the memories where they store nothing, and the
canonical form of the tables. -/

namespace Sys2Proof.Machine
theorem State.commaError_keeps {s0 s : State} (hk : Keeps false s0 s) (h j : Nat) :
    Keeps false s0 (State.commaError s h j) := by
  refine hk.trans ?_; clear hk; unfold State.commaError; try dsimp -zeta only [mkS_eq]
  try lift_lets -underBinder
  with_reducible repeat' first
    | assumption
    | exact Keeps.refl _
    | (intro x; refine Keeps.abs (mm := false) (x := x) (s := s) ?_ (fun hk => ?_); rotate_left; clear_value x; rotate_right; dsimp -zeta only [x]; try clear x)
    | (intro x; try clear_value x)
    | apply State.addSat_keeps
    | apply State.setCl_keeps
    | apply State.laneLost_keeps
    | apply upd_keeps
    | exact Fits.refl _
    | lift_lets -underBinder
    | apply Keeps.ite

theorem State.intervalCheck_keeps {s0 s : State} (hk : Keeps false s0 s) (h j : Nat) (ok : Bool) :
    Keeps false s0 (State.intervalCheck s h j ok) := by
  refine hk.trans ?_; clear hk; unfold State.intervalCheck; try dsimp -zeta only [mkS_eq]
  try lift_lets -underBinder
  with_reducible repeat' first
    | assumption
    | exact Keeps.refl _
    | (apply KeepsF.intro; intro s; (try dsimp -zeta only); try lift_lets -underBinder)
    | (intro x; refine Keeps.abs (mm := false) (x := x) (s := s) ?_ (fun hk => ?_); rotate_left; clear_value x; rotate_right; dsimp -zeta only [x]; try clear x)
    | (intro x; try clear_value x)
    | apply State.check_keeps
    | apply State.setCl_keeps
    | apply State.addSat_keeps
    | apply State.report_keeps
    | apply State.laneLost_keeps
    | apply upd_keeps
    | exact Fits.refl _
    | (apply Keeps.ofpair (by assumption))
    | (apply Keeps.ofpair1 (by assumption))
    | (apply Keeps.oftriple (by assumption))
    | lift_lets -underBinder
    | apply Keeps.ite

theorem State.comma_keeps {s0 s : State} (hk : Keeps false s0 s) (h j payload : Nat) (interval : List (BitVec 130)) (ps : Nat) :
    Keeps false s0 (State.comma s h j payload interval ps) := by
  refine hk.trans ?_; clear hk; unfold State.comma; try dsimp -zeta only [mkS_eq]
  try lift_lets -underBinder
  with_reducible repeat' first
    | assumption
    | exact Keeps.refl _
    | (intro x; refine Keeps.abs (mm := false) (x := x) (s := s) ?_ (fun hk => ?_); rotate_left; clear_value x; rotate_right; dsimp -zeta only [x]; try clear x)
    | (intro x; try clear_value x)
    | apply State.commaError_keeps
    | apply State.setCl_keeps
    | apply State.p_keeps
    | apply State.intervalCheck_keeps
    | apply State.remapComma_keeps
    | apply State.laneLost_keeps
    | apply upd_keeps
    | exact Fits.refl _
    | lift_lets -underBinder
    | apply Keeps.ite

theorem execCommaReceived_keeps {s0 s : State} (hk : Keeps false s0 s) (h : Fin 4) (lane : Fin 12) (payload : BitVec 128) (interval : List (BitVec 130)) (skewPs : Nat) :
    Keeps false s0 (after s (execCommaReceived h lane payload interval skewPs s)) := by
  refine hk.trans ?_; clear hk; unfold execCommaReceived; try dsimp -zeta only [mkS_eq]
  try lift_lets -underBinder
  with_reducible repeat' first
    | assumption
    | exact Keeps.refl _
    | (intro x; try clear_value x)
    | apply after_next_keeps
    | apply State.comma_keeps
    | lift_lets -underBinder
    | apply Keeps.ite

theorem execCommaError_keeps {s0 s : State} (hk : Keeps false s0 s) (h : Fin 4) (lane : Fin 12) :
    Keeps false s0 (after s (execCommaError h lane s)) := by
  refine hk.trans ?_; clear hk; unfold execCommaError; try dsimp -zeta only [mkS_eq]
  try lift_lets -underBinder
  with_reducible repeat' first
    | assumption
    | exact Keeps.refl _
    | (intro x; try clear_value x)
    | apply after_next_keeps
    | apply State.commaError_keeps
    | lift_lets -underBinder
    | apply Keeps.ite

theorem execBlockLockAcquired_keeps {mm : Bool} {s0 s : State} (hk : Keeps mm s0 s) (h : Fin 4) (lane : Fin 12) :
    Keeps mm s0 (after s (execBlockLockAcquired h lane s)) := by
  refine hk.trans ?_; clear hk; unfold execBlockLockAcquired; try dsimp -zeta only [mkS_eq]
  try lift_lets -underBinder
  with_reducible repeat' first
    | assumption
    | exact Keeps.refl _
    | (intro x; try clear_value x)
    | apply after_next_keeps
    | apply State.setCl_keeps

theorem execSyncHeaderError_keeps {s0 s : State} (hk : Keeps false s0 s) (h : Fin 4) (lane : Fin 12) :
    Keeps false s0 (after s (execSyncHeaderError h lane s)) := by
  refine hk.trans ?_; clear hk; unfold execSyncHeaderError; try dsimp -zeta only [mkS_eq]
  try lift_lets -underBinder
  with_reducible repeat' first
    | assumption
    | exact Keeps.refl _
    | (intro x; refine Keeps.abs (mm := false) (x := x) (s := s) ?_ (fun hk => ?_); rotate_left; clear_value x; rotate_right; dsimp -zeta only [x]; try clear x)
    | (intro x; try clear_value x)
    | apply after_next_keeps
    | apply State.setCl_keeps
    | apply State.addSat_keeps
    | apply State.laneLost_keeps
    | apply upd_keeps
    | exact Fits.refl _
    | lift_lets -underBinder
    | apply Keeps.ite

theorem State.stripeKind_keeps {s0 s : State} (hk : Keeps false s0 s) (h : Nat) (rs : List RoleBlock) (env : LineEnv) :
    Keeps false s0 (State.stripeKind s h rs env) := by
  refine hk.trans ?_; clear hk; unfold State.stripeKind; try dsimp -zeta only [mkS_eq]
  try lift_lets -underBinder
  with_reducible repeat' first
    | assumption
    | exact Keeps.refl _
    | (apply KeepsF.intro; intro s; (try dsimp -zeta only); try lift_lets -underBinder)
    | (intro x; refine Keeps.abs (mm := false) (x := x) (s := s) ?_ (fun hk => ?_); rotate_left; clear_value x; rotate_right; dsimp -zeta only [x]; try clear x)
    | (intro x; try clear_value x)
    | apply State.addSat_keeps
    | apply State.dataStripe_keeps
    | apply State.upMessage_keeps
    | apply State.lineStripe_keeps
    | apply State.frameStart_keeps
    | apply State.frameEnd_keeps
    | apply foldl_keeps
    | apply upd_keeps
    | exact Fits.refl _
    | lift_lets -underBinder
    | apply Keeps.ite
    | split

theorem State.stripe_keeps {s0 s : State} (hk : Keeps false s0 s) (h sn : Nat) (blocks : List (BitVec 130)) (env : LineEnv) :
    Keeps false s0 (State.stripe s h sn blocks env) := by
  refine hk.trans ?_; clear hk; unfold State.stripe; try dsimp -zeta only [mkS_eq]
  try lift_lets -underBinder
  with_reducible repeat' first
    | assumption
    | exact Keeps.refl _
    | (intro x; refine Keeps.abs (mm := false) (x := x) (s := s) ?_ (fun hk => ?_); rotate_left; clear_value x; rotate_right; dsimp -zeta only [x]; try clear x)
    | (intro x; try clear_value x)
    | apply State.irq_keeps
    | apply State.addSat_keeps
    | apply State.abandonCur_keeps
    | apply State.stripeKind_keeps
    | apply upd_keeps
    | exact Fits.refl _
    | lift_lets -underBinder
    | apply Keeps.ite
    | split

theorem execStripeDelivery_keeps {s0 s : State} (hk : Keeps false s0 s) (h : Fin 4) (number : BitVec 34) (blocks : List (BitVec 130)) (env : LineEnv) :
    Keeps false s0 (after s (execStripeDelivery h number blocks env s)) := by
  refine hk.trans ?_; clear hk; unfold execStripeDelivery; try dsimp -zeta only [mkS_eq]
  try lift_lets -underBinder
  with_reducible repeat' first
    | assumption
    | exact Keeps.refl _
    | (intro x; try clear_value x)
    | apply after_next_keeps
    | apply State.stripe_keeps

end Sys2Proof.Machine
end

