-- ==== Sys2Proof/Laws/KeepsHeads.lean ====
section
/-! SUPPORT. What the functions of Machine/Heads.lean keep: the part, the queue, the memories where they store nothing, and the
canonical form of the tables. -/

namespace Sys2Proof.Machine
theorem State.setHd_keeps {mm : Bool} {s0 s : State} (hk : Keeps mm s0 s) (h : Nat) (f : Head → Head) :
    Keeps mm s0 (State.setHd s h f) := by
  refine hk.trans ?_; clear hk; unfold State.setHd; try dsimp -zeta only [mkS_eq]
  try lift_lets -underBinder
  with_reducible repeat' first
    | assumption
    | exact Keeps.refl _
    | (intro x; try clear_value x)
    | apply upd_keeps
    | exact Fits.refl _
    | (simp only [upd_length, List.length_map, List.length_replicate]; exact Fits.refl _)

theorem State.headMsg_keeps {mm : Bool} {s0 s : State} (hk : Keeps mm s0 s) (h seq : Nat) (act : Head → Nat × Head) :
    Keeps mm s0 (State.headMsg s h seq act) := by
  refine hk.trans ?_; clear hk; unfold State.headMsg; try dsimp -zeta only [mkS_eq]
  try lift_lets -underBinder
  with_reducible repeat' first
    | assumption
    | exact Keeps.refl _
    | (intro x; try clear_value x)
    | apply State.setHd_keeps

theorem execHregWrite_keeps {mm : Bool} {s0 s : State} (hk : Keeps mm s0 s) (h : Fin 4) (seq : BitVec 16) (addr : BitVec 24) (data : Word) :
    Keeps mm s0 (after s (execHregWrite h seq addr data s)) := by
  refine hk.trans ?_; clear hk; unfold execHregWrite; try dsimp -zeta only [mkS_eq]
  try lift_lets -underBinder
  with_reducible repeat' first
    | assumption
    | exact Keeps.refl _
    | (intro x; try clear_value x)
    | apply after_next_keeps
    | apply State.headMsg_keeps

theorem execHregRead_keeps {mm : Bool} {s0 s : State} (hk : Keeps mm s0 s) (h : Fin 4) (seq : BitVec 16) (addr : BitVec 24) :
    Keeps mm s0 (after s (execHregRead h seq addr s)) := by
  refine hk.trans ?_; clear hk; unfold execHregRead; try dsimp -zeta only [mkS_eq]
  try lift_lets -underBinder
  with_reducible repeat' first
    | assumption
    | exact Keeps.refl _
    | (intro x; try clear_value x)
    | apply after_next_keeps
    | apply State.headMsg_keeps

theorem execHeadSetWrite_keeps {mm : Bool} {s0 s : State} (hk : Keeps mm s0 s) (h : Fin 4) (seq : BitVec 16) (addr : BitVec 24) (data : Word) (setId : BitVec 16) :
    Keeps mm s0 (after s (execHeadSetWrite h seq addr data setId s)) := by
  refine hk.trans ?_; clear hk; unfold execHeadSetWrite; try dsimp -zeta only [mkS_eq]
  try lift_lets -underBinder
  with_reducible repeat' first
    | assumption
    | exact Keeps.refl _
    | (intro x; try clear_value x)
    | apply after_next_keeps
    | apply State.headMsg_keeps

theorem execHeadSetCommit_keeps {mm : Bool} {s0 s : State} (hk : Keeps mm s0 s) (h : Fin 4) (seq setId count : BitVec 16) (hfc : Word) :
    Keeps mm s0 (after s (execHeadSetCommit h seq setId count hfc s)) := by
  refine hk.trans ?_; clear hk; unfold execHeadSetCommit; try dsimp -zeta only [mkS_eq]
  try lift_lets -underBinder
  with_reducible repeat' first
    | assumption
    | exact Keeps.refl _
    | (intro x; try clear_value x)
    | apply after_next_keeps
    | apply State.headMsg_keeps

theorem execHeadTimeProbe_keeps {mm : Bool} {s0 s : State} (hk : Keeps mm s0 s) (h : Fin 4) (seq probeId : BitVec 16) (residence : Word) :
    Keeps mm s0 (after s (execHeadTimeProbe h seq probeId residence s)) := by
  refine hk.trans ?_; clear hk; unfold execHeadTimeProbe; try dsimp -zeta only [mkS_eq]
  try lift_lets -underBinder
  with_reducible repeat' first
    | assumption
    | exact Keeps.refl _
    | (intro x; try clear_value x)
    | apply after_next_keeps
    | apply State.headMsg_keeps

theorem execHeadTimeSec_keeps {mm : Bool} {s0 s : State} (hk : Keeps mm s0 s) (h : Fin 4) (seq : BitVec 16) (seconds : BitVec 48) :
    Keeps mm s0 (after s (execHeadTimeSec h seq seconds s)) := by
  refine hk.trans ?_; clear hk; unfold execHeadTimeSec; try dsimp -zeta only [mkS_eq]
  try lift_lets -underBinder
  with_reducible repeat' first
    | assumption
    | exact Keeps.refl _
    | (intro x; try clear_value x)
    | apply after_next_keeps
    | apply State.headMsg_keeps

theorem execHeadTimeLoad_keeps {mm : Bool} {s0 s : State} (hk : Keeps mm s0 s) (h : Fin 4) (seq : BitVec 16) (ns : Word) (frac : BitVec 16) (sfc : BitVec 24) :
    Keeps mm s0 (after s (execHeadTimeLoad h seq ns frac sfc s)) := by
  refine hk.trans ?_; clear hk; unfold execHeadTimeLoad; try dsimp -zeta only [mkS_eq]
  try lift_lets -underBinder
  with_reducible repeat' first
    | assumption
    | exact Keeps.refl _
    | (intro x; try clear_value x)
    | apply after_next_keeps
    | apply State.headMsg_keeps

theorem execHeadTimeStep_keeps {mm : Bool} {s0 s : State} (hk : Keeps mm s0 s) (h : Fin 4) (seq : BitVec 16) (offset : BitVec 48) (sfc : BitVec 24) :
    Keeps mm s0 (after s (execHeadTimeStep h seq offset sfc s)) := by
  refine hk.trans ?_; clear hk; unfold execHeadTimeStep; try dsimp -zeta only [mkS_eq]
  try lift_lets -underBinder
  with_reducible repeat' first
    | assumption
    | exact Keeps.refl _
    | (intro x; try clear_value x)
    | apply after_next_keeps
    | apply State.headMsg_keeps

theorem execHeadTimeRate_keeps {mm : Bool} {s0 s : State} (hk : Keeps mm s0 s) (h : Fin 4) (seq : BitVec 16) (rate : Word) :
    Keeps mm s0 (after s (execHeadTimeRate h seq rate s)) := by
  refine hk.trans ?_; clear hk; unfold execHeadTimeRate; try dsimp -zeta only [mkS_eq]
  try lift_lets -underBinder
  with_reducible repeat' first
    | assumption
    | exact Keeps.refl _
    | (intro x; try clear_value x)
    | apply after_next_keeps
    | apply State.headMsg_keeps

theorem execExpStart_keeps {mm : Bool} {s0 s : State} (hk : Keeps mm s0 s) (h : Fin 4) (seq secLo : BitVec 16) (ns : Word) (frac : BitVec 16) (periodic replace : Bool) :
    Keeps mm s0 (after s (execExpStart h seq secLo ns frac periodic replace s)) := by
  refine hk.trans ?_; clear hk; unfold execExpStart; try dsimp -zeta only [mkS_eq]
  try lift_lets -underBinder
  with_reducible repeat' first
    | assumption
    | exact Keeps.refl _
    | (intro x; try clear_value x)
    | apply after_next_keeps
    | apply State.headMsg_keeps

theorem execExpPeriod_keeps {mm : Bool} {s0 s : State} (hk : Keeps mm s0 s) (h : Fin 4) (seq : BitVec 16) (ns : Word) (frac : BitVec 16) (count : Word) :
    Keeps mm s0 (after s (execExpPeriod h seq ns frac count s)) := by
  refine hk.trans ?_; clear hk; unfold execExpPeriod; try dsimp -zeta only [mkS_eq]
  try lift_lets -underBinder
  with_reducible repeat' first
    | assumption
    | exact Keeps.refl _
    | (intro x; try clear_value x)
    | apply after_next_keeps
    | apply State.headMsg_keeps

theorem execExpStop_keeps {mm : Bool} {s0 s : State} (hk : Keeps mm s0 s) (h : Fin 4) (seq secLo : BitVec 16) (ns : Word) (frac : BitVec 16) (now : Bool) :
    Keeps mm s0 (after s (execExpStop h seq secLo ns frac now s)) := by
  refine hk.trans ?_; clear hk; unfold execExpStop; try dsimp -zeta only [mkS_eq]
  try lift_lets -underBinder
  with_reducible repeat' first
    | assumption
    | exact Keeps.refl _
    | (intro x; try clear_value x)
    | apply after_next_keeps
    | apply State.headMsg_keeps

theorem execHeadStream_keeps {mm : Bool} {s0 s : State} (hk : Keeps mm s0 s) (h : Fin 4) (seq : BitVec 16) (run : Bool) :
    Keeps mm s0 (after s (execHeadStream h seq run s)) := by
  refine hk.trans ?_; clear hk; unfold execHeadStream; try dsimp -zeta only [mkS_eq]
  try lift_lets -underBinder
  with_reducible repeat' first
    | assumption
    | exact Keeps.refl _
    | (intro x; try clear_value x)
    | apply after_next_keeps
    | apply State.headMsg_keeps

theorem execHeadTrain_keeps {mm : Bool} {s0 s : State} (hk : Keeps mm s0 s) (h : Fin 4) (lane : Fin 12) (on : Bool) :
    Keeps mm s0 (after s (execHeadTrain h lane on s)) := by
  refine hk.trans ?_; clear hk; unfold execHeadTrain; try dsimp -zeta only [mkS_eq]
  try lift_lets -underBinder
  with_reducible repeat' first
    | assumption
    | exact Keeps.refl _
    | (intro x; try clear_value x)
    | apply after_next_keeps
    | apply State.setHd_keeps

theorem execHeadPreset_keeps {mm : Bool} {s0 s : State} (hk : Keeps mm s0 s) (h : Fin 4) (lane : Fin 12) (index : Fin 8) (pre post : Fin 16) :
    Keeps mm s0 (after s (execHeadPreset h lane index pre post s)) := by
  refine hk.trans ?_; clear hk; unfold execHeadPreset; try dsimp -zeta only [mkS_eq]
  try lift_lets -underBinder
  with_reducible repeat' first
    | assumption
    | exact Keeps.refl _
    | (intro x; try clear_value x)
    | apply after_next_keeps
    | apply State.setHd_keeps

theorem execHeadRemap_keeps {mm : Bool} {s0 s : State} (hk : Keeps mm s0 s) (h : Fin 4) (role : Fin 11) (lane : Fin 12) (sfc : BitVec 24) :
    Keeps mm s0 (after s (execHeadRemap h role lane sfc s)) := by
  refine hk.trans ?_; clear hk; unfold execHeadRemap; try dsimp -zeta only [mkS_eq]
  try lift_lets -underBinder
  with_reducible repeat' first
    | assumption
    | exact Keeps.refl _
    | (intro x; try clear_value x)
    | apply after_next_keeps
    | apply State.setHd_keeps

theorem execHeadStandby_keeps {mm : Bool} {s0 s : State} (hk : Keeps mm s0 s) (h : Fin 4) (lane : Fin 12) (sfc : BitVec 24) :
    Keeps mm s0 (after s (execHeadStandby h lane sfc s)) := by
  refine hk.trans ?_; clear hk; unfold execHeadStandby; try dsimp -zeta only [mkS_eq]
  try lift_lets -underBinder
  with_reducible repeat' first
    | assumption
    | exact Keeps.refl _
    | (intro x; try clear_value x)
    | apply after_next_keeps
    | apply State.setHd_keeps

theorem execExposureStart_keeps {mm : Bool} {s0 s : State} (hk : Keeps mm s0 s) (h : Fin 4) :
    Keeps mm s0 (after s (execExposureStart h s)) := by
  refine hk.trans ?_; clear hk; unfold execExposureStart; try dsimp -zeta only [mkS_eq]
  try lift_lets -underBinder
  with_reducible repeat' first
    | assumption
    | exact Keeps.refl _
    | (intro x; try clear_value x)
    | apply after_next_keeps
    | apply State.setHd_keeps

theorem execHeadCommaArrival_keeps {mm : Bool} {s0 s : State} (hk : Keeps mm s0 s) (h : Fin 4) (copyB : Bool) (sfc : BitVec 24) (role : Fin 16) :
    Keeps mm s0 (after s (execHeadCommaArrival h copyB sfc role s)) := by
  refine hk.trans ?_; clear hk; unfold execHeadCommaArrival; try dsimp -zeta only [mkS_eq]
  try lift_lets -underBinder
  with_reducible repeat' first
    | assumption
    | exact Keeps.refl _
    | (intro x; try clear_value x)
    | apply after_next_keeps
    | apply State.setHd_keeps

theorem execHeadCopyLost_keeps {mm : Bool} {s0 s : State} (hk : Keeps mm s0 s) (h : Fin 4) (copyB : Bool) :
    Keeps mm s0 (after s (execHeadCopyLost h copyB s)) := by
  refine hk.trans ?_; clear hk; unfold execHeadCopyLost; try dsimp -zeta only [mkS_eq]
  try lift_lets -underBinder
  with_reducible repeat' first
    | assumption
    | exact Keeps.refl _
    | (intro x; try clear_value x)
    | apply after_next_keeps
    | apply State.setHd_keeps

theorem execHeadCtrlLostTimeout_keeps {mm : Bool} {s0 s : State} (hk : Keeps mm s0 s) (h : Fin 4) :
    Keeps mm s0 (after s (execHeadCtrlLostTimeout h s)) := by
  refine hk.trans ?_; clear hk; unfold execHeadCtrlLostTimeout; try dsimp -zeta only [mkS_eq]
  try lift_lets -underBinder
  with_reducible repeat' first
    | assumption
    | exact Keeps.refl _
    | (intro x; try clear_value x)
    | apply after_next_keeps
    | apply State.setHd_keeps

theorem execDownstreamAck_keeps {mm : Bool} {s0 s : State} (hk : Keeps mm s0 s) (h : Fin 4) (seq : BitVec 16) :
    Keeps mm s0 (after s (execDownstreamAck h seq s)) := by
  refine hk.trans ?_; clear hk; unfold execDownstreamAck; try dsimp -zeta only [mkS_eq]
  try lift_lets -underBinder
  with_reducible repeat' first
    | assumption
    | exact Keeps.refl _
    | (intro x; try clear_value x)
    | apply after_next_keeps
    | apply State.setHd_keeps

end Sys2Proof.Machine
end

