-- ==== Sys2Proof/Laws/KeepsGcx.lean ====
section
/-! SUPPORT. What the functions of Machine/Gcx.lean keep: the part, the queue, the memories where they store nothing, and the
canonical form of the tables. -/

namespace Sys2Proof.Machine
theorem State.setGcx_keeps {mm : Bool} {s0 s : State} (hk : Keeps mm s0 s) (f : GcxState → GcxState) :
    Keeps mm s0 (State.setGcx s f) := by
  refine hk.trans ?_; clear hk; unfold State.setGcx; try dsimp -zeta only [mkS_eq]
  try lift_lets -underBinder
  with_reducible repeat' first
    | assumption
    | exact Keeps.refl _
    | (intro x; try clear_value x)
    | apply upd_keeps
    | exact Fits.refl _

theorem State.gcxSync_keeps {mm : Bool} {s0 s : State} (hk : Keeps mm s0 s) :
    Keeps mm s0 (State.gcxSync s) := by
  refine hk.trans ?_; clear hk; unfold State.gcxSync; try dsimp -zeta only [mkS_eq]
  try lift_lets -underBinder
  with_reducible repeat' first
    | assumption
    | exact Keeps.refl _
    | (intro x; try clear_value x)
    | apply State.setBusy_keeps
    | apply State.p_keeps

theorem State.gcxProd_keeps {mm : Bool} {s0 s : State} (hk : Keeps mm s0 s) (v : Nat) :
    Keeps mm s0 (State.gcxProd s v) := by
  refine hk.trans ?_; clear hk; unfold State.gcxProd; try dsimp -zeta only [mkS_eq]
  try lift_lets -underBinder
  with_reducible repeat' first
    | assumption
    | exact Keeps.refl _
    | (intro x; try clear_value x)
    | apply State.refuse4_keeps
    | apply State.plainWrite_keeps
    | lift_lets -underBinder
    | apply Keeps.ite

theorem State.gcxFailed_keeps {mm : Bool} {s0 s : State} (hk : Keeps mm s0 s) (j : GcxJob) (r : Access) :
    Keeps mm s0 (State.gcxFailed s j r) := by
  refine hk.trans ?_; clear hk; unfold State.gcxFailed; try dsimp -zeta only [mkS_eq]
  try lift_lets -underBinder
  with_reducible repeat' first
    | assumption
    | exact Keeps.refl _
    | (apply KeepsF.intro; intro s; (try dsimp -zeta only); try lift_lets -underBinder)
    | (intro x; refine Keeps.abs (mm := mm) (x := x) (s := s) ?_ (fun hk => ?_); rotate_left; clear_value x; rotate_right; dsimp -zeta only [x]; try clear x)
    | (intro x; try clear_value x)
    | apply State.setGcx_keeps
    | apply State.report_keeps
    | apply upd_keeps
    | exact Fits.refl _
    | lift_lets -underBinder
    | apply Keeps.ite

theorem State.gcxStart_keeps {s0 s : State} (hk : Keeps false s0 s) :
    Keeps false s0 (State.gcxStart s) := by
  refine hk.trans ?_; clear hk; unfold State.gcxStart; try dsimp -zeta only [mkS_eq]
  try lift_lets -underBinder
  with_reducible repeat' first
    | assumption
    | exact Keeps.refl _
    | (intro x; try clear_value x)
    | apply State.masterRead_keeps
    | apply State.gcxSync_keeps
    | apply State.p_keeps
    | apply State.setGcx_keeps
    | apply State.gcxFailed_keeps
    | apply upd_keeps
    | exact Fits.refl _
    | (apply Keeps.ofpair (by assumption))
    | (apply Keeps.ofpair1 (by assumption))
    | (apply Keeps.oftriple (by assumption))
    | lift_lets -underBinder
    | apply Keeps.ite
    | split

theorem State.gcxUndefined_keeps {s0 s : State} (hk : Keeps false s0 s) (asid a n : Nat) :
    Keeps false s0 (State.gcxUndefined s asid a n).2 := by
  refine hk.trans ?_; clear hk; unfold State.gcxUndefined; try dsimp -zeta only [mkS_eq]
  try lift_lets -underBinder
  with_reducible repeat' first
    | assumption
    | exact Keeps.refl _
    | (intro x; try clear_value x)
    | apply State.masterWrite_keeps
    | apply upd_keeps
    | exact Fits.refl _

theorem State.gcxSet_keeps {mm : Bool} {s0 s : State} (hk : Keeps mm s0 s) (j : GcxJob) :
    Keeps mm s0 (State.gcxSet s j) := by
  refine hk.trans ?_; clear hk; unfold State.gcxSet; try dsimp -zeta only [mkS_eq]
  try lift_lets -underBinder
  with_reducible repeat' first
    | assumption
    | exact Keeps.refl _
    | (intro x; try clear_value x)
    | apply State.setGcx_keeps

theorem State.gcxRuns_keeps {mm : Bool} {s0 s : State} (hk : Keeps mm s0 s) :
    Keeps mm s0 (State.gcxRuns s) := by
  refine hk.trans ?_; clear hk; unfold State.gcxRuns; try dsimp -zeta only [mkS_eq]
  try lift_lets -underBinder
  with_reducible repeat' first
    | assumption
    | exact Keeps.refl _
    | (intro x; try clear_value x)
    | apply State.p_keeps

theorem State.gcxCompress_keeps {s0 s : State} (hk : Keeps false s0 s) :
    Keeps false s0 (State.gcxCompress s) := by
  refine hk.trans ?_; clear hk; unfold State.gcxCompress; try dsimp -zeta only [mkS_eq]
  try lift_lets -underBinder
  with_reducible repeat' first
    | assumption
    | exact Keeps.refl _
    | (intro x; try clear_value x)
    | apply State.masterRead_keeps
    | apply State.gcxUndefined_keeps
    | apply State.free_keeps
    | apply State.gcxSet_keeps
    | apply State.gcxRuns_keeps
    | apply State.gcxFailed_keeps
    | apply State.masterWrite_keeps
    | apply upd_keeps
    | exact Fits.refl _
    | (apply Keeps.ofpair (by assumption))
    | (apply Keeps.ofpair1 (by assumption))
    | (apply Keeps.oftriple (by assumption))
    | lift_lets -underBinder
    | apply Keeps.ite
    | split

theorem State.gcxForget_keeps {mm : Bool} {s0 s : State} (hk : Keeps mm s0 s) (j : GcxJob) :
    Keeps mm s0 (State.gcxForget s j) := by
  refine hk.trans ?_; clear hk; unfold State.gcxForget; try dsimp -zeta only [mkS_eq]
  try lift_lets -underBinder
  with_reducible repeat' first
    | assumption
    | exact Keeps.refl _
    | (intro x; try clear_value x)
    | apply State.setGcx_keeps

theorem State.gcxExpand_keeps {s0 s : State} (hk : Keeps false s0 s) (j : GcxJob) (c : GcxSaved) :
    Keeps false s0 (State.gcxExpand s j c) := by
  refine hk.trans ?_; clear hk; unfold State.gcxExpand; try dsimp -zeta only [mkS_eq]
  try lift_lets -underBinder
  with_reducible repeat' first
    | assumption
    | exact Keeps.refl _
    | (intro x; refine Keeps.abs (mm := false) (x := x) (s := s) ?_ (fun hk => ?_); rotate_left; clear_value x; rotate_right; dsimp -zeta only [x]; try clear x)
    | (intro x; try clear_value x)
    | apply State.masterRead_keeps
    | apply State.masterWrite_keeps
    | apply State.gcxRuns_keeps
    | apply State.gcxSet_keeps
    | apply State.gcxForget_keeps
    | apply State.gcxUndefined_keeps
    | apply State.setGcx_keeps
    | apply State.gcxFailed_keeps
    | apply upd_keeps
    | exact Fits.refl _
    | (apply Keeps.ofpair (by assumption))
    | (apply Keeps.ofpair1 (by assumption))
    | (apply Keeps.oftriple (by assumption))
    | lift_lets -underBinder
    | apply Keeps.ite
    | split

theorem State.gcxDecompress_keeps {s0 s : State} (hk : Keeps false s0 s) :
    Keeps false s0 (State.gcxDecompress s) := by
  refine hk.trans ?_; clear hk; unfold State.gcxDecompress; try dsimp -zeta only [mkS_eq]
  try lift_lets -underBinder
  with_reducible repeat' first
    | assumption
    | exact Keeps.refl _
    | (intro x; try clear_value x)
    | apply State.gcxExpand_keeps
    | apply upd_keeps
    | exact Fits.refl _
    | lift_lets -underBinder
    | apply Keeps.ite
    | split

theorem State.gcxContinue_keeps {s0 s : State} (hk : Keeps false s0 s) :
    Keeps false s0 (State.gcxContinue s) := by
  refine hk.trans ?_; clear hk; unfold State.gcxContinue; try dsimp -zeta only [mkS_eq]
  try lift_lets -underBinder
  with_reducible repeat' first
    | assumption
    | exact Keeps.refl _
    | (intro x; try clear_value x)
    | apply State.gcxSet_keeps
    | apply State.gcxRuns_keeps
    | apply State.gcxExpand_keeps
    | apply upd_keeps
    | exact Fits.refl _
    | lift_lets -underBinder
    | apply Keeps.ite
    | split

theorem State.gcxComplete_keeps {s0 s : State} (hk : Keeps false s0 s) (seq : Nat) (d : Nat × Nat × Nat × Nat × Nat) :
    Keeps false s0 (State.gcxComplete s seq d).2 := by
  refine hk.trans ?_; clear hk; unfold State.gcxComplete; try dsimp -zeta only [mkS_eq]
  try lift_lets -underBinder
  with_reducible repeat' first
    | assumption
    | exact Keeps.refl _
    | (intro x; try clear_value x)
    | apply State.masterWrite_keeps
    | apply State.p_keeps
    | apply upd_keeps
    | exact Fits.refl _
    | (apply Keeps.ofpair (by assumption))
    | (apply Keeps.ofpair1 (by assumption))
    | (apply Keeps.oftriple (by assumption))
    | lift_lets -underBinder
    | apply Keeps.ite
    | split

theorem State.gcxJobEnd_keeps {s0 s : State} (hk : Keeps false s0 s) :
    Keeps false s0 (State.gcxJobEnd s) := by
  refine hk.trans ?_; clear hk; unfold State.gcxJobEnd; try dsimp -zeta only [mkS_eq]
  try lift_lets -underBinder
  with_reducible repeat' first
    | assumption
    | exact Keeps.refl _
    | (intro x; try clear_value x)
    | apply State.gcxComplete_keeps
    | apply State.p_keeps
    | apply State.setGcx_keeps
    | apply State.addSat_keeps
    | apply State.fault_keeps
    | apply State.gcxSync_keeps
    | apply State.irqIf_keeps
    | apply upd_keeps
    | exact Fits.refl _
    | (apply Keeps.ofpair (by assumption))
    | (apply Keeps.ofpair1 (by assumption))
    | (apply Keeps.oftriple (by assumption))
    | lift_lets -underBinder
    | apply Keeps.ite
    | split

theorem State.gcxPause_keeps {mm : Bool} {s0 s : State} (hk : Keeps mm s0 s) (cause : Nat) (sump : Option (Nat × Nat × Bool)) :
    Keeps mm s0 (State.gcxPause s cause sump) := by
  refine hk.trans ?_; clear hk; unfold State.gcxPause; try dsimp -zeta only [mkS_eq]
  try lift_lets -underBinder
  with_reducible repeat' first
    | assumption
    | exact Keeps.refl _
    | (intro x; refine Keeps.abs (mm := mm) (x := x) (s := s) ?_ (fun hk => ?_); rotate_left; clear_value x; rotate_right; dsimp -zeta only [x]; try clear x)
    | (intro x; try clear_value x)
    | apply State.sumpWord_keeps
    | apply State.fault_keeps
    | apply State.p_keeps
    | apply State.irq_keeps
    | apply upd_keeps
    | exact Fits.refl _
    | (apply Keeps.ofpair (by assumption))
    | (apply Keeps.ofpair1 (by assumption))
    | (apply Keeps.oftriple (by assumption))
    | lift_lets -underBinder
    | apply Keeps.ite
    | split

theorem State.gcxUnshed_keeps {mm : Bool} {s0 s : State} (hk : Keeps mm s0 s) :
    Keeps mm s0 (State.gcxUnshed s) := by
  refine hk.trans ?_; clear hk; unfold State.gcxUnshed; try dsimp -zeta only [mkS_eq]
  try lift_lets -underBinder
  with_reducible repeat' first
    | assumption
    | exact Keeps.refl _
    | (intro x; try clear_value x)
    | apply State.p_keeps

theorem State.gcxCtrl_keeps {mm : Bool} {s0 s : State} (hk : Keeps mm s0 s) (v : Nat) :
    Keeps mm s0 (State.gcxCtrl s v) := by
  refine hk.trans ?_; clear hk; unfold State.gcxCtrl; try dsimp -zeta only [mkS_eq]
  try lift_lets -underBinder
  with_reducible repeat' first
    | assumption
    | exact Keeps.refl _
    | (intro x; refine Keeps.abs (mm := mm) (x := x) (s := s) ?_ (fun hk => ?_); rotate_left; clear_value x; rotate_right; dsimp -zeta only [x]; try clear x)
    | (intro x; try clear_value x)
    | apply State.p_keeps
    | apply upd_keeps
    | exact Fits.refl _
    | lift_lets -underBinder
    | apply Keeps.ite
    | split

theorem State.gcxWarm_keeps {mm : Bool} {s0 s : State} (hk : Keeps mm s0 s) :
    Keeps mm s0 (State.gcxWarm s) := by
  refine hk.trans ?_; clear hk; unfold State.gcxWarm; try dsimp -zeta only [mkS_eq]
  try lift_lets -underBinder
  with_reducible repeat' first
    | assumption
    | exact Keeps.refl _
    | (intro x; try clear_value x)
    | apply State.gcxSync_keeps
    | apply State.p_keeps
    | apply State.setGcx_keeps

theorem State.gcxFlr_keeps {s0 s : State} (hk : Keeps false s0 s) :
    Keeps false s0 (State.gcxFlr s) := by
  refine hk.trans ?_; clear hk; unfold State.gcxFlr; try dsimp -zeta only [mkS_eq]
  try lift_lets -underBinder
  with_reducible repeat' first
    | assumption
    | exact Keeps.refl _
    | (apply KeepsF.intro; intro s; (try dsimp -zeta only); try lift_lets -underBinder)
    | (intro x; refine Keeps.abs (mm := false) (x := x) (s := s) ?_ (fun hk => ?_); rotate_left; clear_value x; rotate_right; dsimp -zeta only [x]; try clear x)
    | (intro x; try clear_value x)
    | apply State.masterRead_keeps
    | apply State.gcxComplete_keeps
    | apply State.p_keeps
    | apply State.gcxSync_keeps
    | apply State.setGcx_keeps
    | apply forN_keeps
    | apply upd_keeps
    | exact Fits.refl _
    | (apply Keeps.ofpair (by assumption))
    | (apply Keeps.ofpair1 (by assumption))
    | (apply Keeps.oftriple (by assumption))
    | lift_lets -underBinder
    | apply Keeps.ite
    | split

theorem execGcxProdWrite_keeps {mm : Bool} {s0 s : State} (hk : Keeps mm s0 s) (value : Word) :
    Keeps mm s0 (after s (execGcxProdWrite value s)) := by
  refine hk.trans ?_; clear hk; unfold execGcxProdWrite; try dsimp -zeta only [mkS_eq]
  try lift_lets -underBinder
  with_reducible repeat' first
    | assumption
    | exact Keeps.refl _
    | (apply KeepsF.intro; intro s; (try dsimp -zeta only); try lift_lets -underBinder)
    | (intro x; try clear_value x)
    | apply after_next_keeps
    | apply State.hostReg_keeps
    | apply State.gcxProd_keeps

theorem execGcxJobStart_keeps {s0 s : State} (hk : Keeps false s0 s) :
    Keeps false s0 (after s (execGcxJobStart s)) := by
  refine hk.trans ?_; clear hk; unfold execGcxJobStart; try dsimp -zeta only [mkS_eq]
  try lift_lets -underBinder
  with_reducible repeat' first
    | assumption
    | exact Keeps.refl _
    | (intro x; try clear_value x)
    | apply after_next_keeps
    | apply State.gcxStart_keeps

theorem execGcxCompress_keeps {s0 s : State} (hk : Keeps false s0 s) :
    Keeps false s0 (after s (execGcxCompress s)) := by
  refine hk.trans ?_; clear hk; unfold execGcxCompress; try dsimp -zeta only [mkS_eq]
  try lift_lets -underBinder
  with_reducible repeat' first
    | assumption
    | exact Keeps.refl _
    | (intro x; try clear_value x)
    | apply after_next_keeps
    | apply State.gcxCompress_keeps

theorem execGcxDecompress_keeps {s0 s : State} (hk : Keeps false s0 s) :
    Keeps false s0 (after s (execGcxDecompress s)) := by
  refine hk.trans ?_; clear hk; unfold execGcxDecompress; try dsimp -zeta only [mkS_eq]
  try lift_lets -underBinder
  with_reducible repeat' first
    | assumption
    | exact Keeps.refl _
    | (intro x; try clear_value x)
    | apply after_next_keeps
    | apply State.gcxDecompress_keeps

theorem execGcxContinue_keeps {s0 s : State} (hk : Keeps false s0 s) :
    Keeps false s0 (after s (execGcxContinue s)) := by
  refine hk.trans ?_; clear hk; unfold execGcxContinue; try dsimp -zeta only [mkS_eq]
  try lift_lets -underBinder
  with_reducible repeat' first
    | assumption
    | exact Keeps.refl _
    | (intro x; try clear_value x)
    | apply after_next_keeps
    | apply State.gcxContinue_keeps

theorem execGcxJobEnd_keeps {s0 s : State} (hk : Keeps false s0 s) :
    Keeps false s0 (after s (execGcxJobEnd s)) := by
  refine hk.trans ?_; clear hk; unfold execGcxJobEnd; try dsimp -zeta only [mkS_eq]
  try lift_lets -underBinder
  with_reducible repeat' first
    | assumption
    | exact Keeps.refl _
    | (intro x; try clear_value x)
    | apply after_next_keeps
    | apply State.gcxJobEnd_keeps

theorem execGcxPause_keeps {mm : Bool} {s0 s : State} (hk : Keeps mm s0 s) (cause : Fin 3) (sump : Option (Fin 192 × Nat × Bool)) :
    Keeps mm s0 (after s (execGcxPause cause sump s)) := by
  refine hk.trans ?_; clear hk; unfold execGcxPause; try dsimp -zeta only [mkS_eq]
  try lift_lets -underBinder
  with_reducible repeat' first
    | assumption
    | exact Keeps.refl _
    | (intro x; try clear_value x)
    | apply after_next_keeps
    | apply State.gcxPause_keeps

theorem execGcxAbort_keeps {mm : Bool} {s0 s : State} (hk : Keeps mm s0 s) :
    Keeps mm s0 (after s (execGcxAbort s)) := by
  refine hk.trans ?_; clear hk; unfold execGcxAbort; try dsimp -zeta only [mkS_eq]
  try lift_lets -underBinder
  with_reducible repeat' first
    | assumption
    | exact Keeps.refl _
    | (apply KeepsF.intro; intro s; (try dsimp -zeta only); try lift_lets -underBinder)
    | (intro x; try clear_value x)
    | apply after_next_keeps
    | apply State.hostReg_keeps
    | apply State.gcxCtrl_keeps

end Sys2Proof.Machine
end

