-- ==== Sys2Proof/Laws/KeepsSumpCmd.lean ====
section
/-! SUPPORT. What the functions of Machine/SumpCmd.lean keep: the part, the queue, the memories where they store nothing, and the
canonical form of the tables. -/

namespace Sys2Proof.Machine
theorem State.planCtrl_keeps {mm : Bool} {s0 s : State} (hk : Keeps mm s0 s) (v : Nat) :
    Keeps mm s0 (State.planCtrl s v) := by
  refine hk.trans ?_; clear hk; unfold State.planCtrl; try dsimp -zeta only [mkS_eq]
  try lift_lets -underBinder
  with_reducible repeat' first
    | assumption
    | exact Keeps.refl _
    | (intro x; refine Keeps.abs (mm := mm) (x := x) (s := s) ?_ (fun hk => ?_); rotate_left; clear_value x; rotate_right; dsimp -zeta only [x]; try clear x)
    | (intro x; try clear_value x)
    | apply State.refuse4_keeps
    | apply State.p_keeps
    | apply upd_keeps
    | exact Fits.refl _
    | lift_lets -underBinder
    | apply Keeps.ite

theorem State.sliceTablesReset_keeps {mm : Bool} {s0 s : State} (hk : Keeps mm s0 s) (p : Nat) :
    Keeps mm s0 (State.sliceTablesReset s p) := by
  refine hk.trans ?_; clear hk; unfold State.sliceTablesReset; try dsimp -zeta only [mkS_eq]
  try lift_lets -underBinder
  with_reducible repeat' first
    | assumption
    | exact Keeps.refl _
    | (intro x; try clear_value x)
    | apply State.setSlice_keeps
    | apply State.p_keeps

theorem State.curvesReset_keeps {mm : Bool} {s0 s : State} (hk : Keeps mm s0 s) (i copies : Nat) :
    Keeps mm s0 (State.curvesReset s i copies) := by
  refine hk.trans ?_; clear hk; unfold State.curvesReset; try dsimp -zeta only [mkS_eq]
  try lift_lets -underBinder
  with_reducible repeat' first
    | assumption
    | exact Keeps.refl _
    | (intro x; refine Keeps.abs (mm := mm) (x := x) (s := s) ?_ (fun hk => ?_); rotate_left; clear_value x; rotate_right; dsimp -zeta only [x]; try clear x)
    | (intro x; try clear_value x)
    | apply State.p_keeps
    | apply State.setClr_keeps

theorem State.lutReset_keeps {mm : Bool} {s0 s : State} (hk : Keeps mm s0 s) (i copies : Nat) :
    Keeps mm s0 (State.lutReset s i copies) := by
  refine hk.trans ?_; clear hk; unfold State.lutReset; try dsimp -zeta only [mkS_eq]
  try lift_lets -underBinder
  with_reducible repeat' first
    | assumption
    | exact Keeps.refl _
    | (intro x; refine Keeps.abs (mm := mm) (x := x) (s := s) ?_ (fun hk => ?_); rotate_left; clear_value x; rotate_right; dsimp -zeta only [x]; try clear x)
    | (intro x; try clear_value x)
    | apply State.p_keeps
    | apply State.setClr_keeps

theorem State.planTables_keeps {mm : Bool} {s0 s : State} (hk : Keeps mm s0 s) (old new : List SRec) :
    Keeps mm s0 (State.planTables s old new) := by
  refine hk.trans ?_; clear hk; unfold State.planTables; try dsimp -zeta only [mkS_eq]
  try lift_lets -underBinder
  with_reducible repeat' first
    | assumption
    | exact Keeps.refl _
    | (apply KeepsF.intro; intro s; (try dsimp -zeta only); try lift_lets -underBinder)
    | (intro x; refine Keeps.abs (mm := mm) (x := x) (s := s) ?_ (fun hk => ?_); rotate_left; clear_value x; rotate_right; dsimp -zeta only [x]; try clear x)
    | (intro x; try clear_value x)
    | apply State.sliceTablesReset_keeps
    | apply State.curvesReset_keeps
    | apply State.lutReset_keeps
    | apply foldl_keeps
    | lift_lets -underBinder
    | apply Keeps.ite

theorem State.sumpApply_keeps {mm : Bool} {s0 s : State} (hk : Keeps mm s0 s) (im : PlanImage) :
    Keeps mm s0 (State.sumpApply s im) := by
  refine hk.trans ?_; clear hk; unfold State.sumpApply; try dsimp -zeta only [mkS_eq]
  try lift_lets -underBinder
  with_reducible repeat' first
    | assumption
    | exact Keeps.refl _
    | (apply KeepsF.intro; intro s; (try dsimp -zeta only); try lift_lets -underBinder)
    | (intro x; refine Keeps.abs (mm := mm) (x := x) (s := s) ?_ (fun hk => ?_); rotate_left; clear_value x; rotate_right; dsimp -zeta only [x]; try clear x)
    | (intro x; try clear_value x)
    | apply State.setMapByte_keeps
    | apply State.p_keeps
    | apply State.seqRequest_keeps
    | apply State.fault_keeps
    | apply State.reserveSync_keeps
    | apply State.planTables_keeps
    | apply foldl_keeps
    | apply upd_keeps
    | exact Fits.refl _
    | lift_lets -underBinder
    | apply Keeps.ite

theorem State.planIdle_keeps {mm : Bool} {s0 s : State} (hk : Keeps mm s0 s) :
    Keeps mm s0 (State.planIdle s) := by
  refine hk.trans ?_; clear hk; unfold State.planIdle; try dsimp -zeta only [mkS_eq]
  try lift_lets -underBinder
  with_reducible repeat' first
    | assumption
    | exact Keeps.refl _
    | (intro x; try clear_value x)
    | apply State.p_keeps

theorem State.planCheckEnd_keeps {mm : Bool} {s0 s : State} (hk : Keeps mm s0 s) :
    Keeps mm s0 (State.planCheckEnd s) := by
  refine hk.trans ?_; clear hk; unfold State.planCheckEnd; try dsimp -zeta only [mkS_eq]
  try lift_lets -underBinder
  with_reducible repeat' first
    | assumption
    | exact Keeps.refl _
    | (intro x; refine Keeps.abs (mm := mm) (x := x) (s := s) ?_ (fun hk => ?_); rotate_left; clear_value x; rotate_right; dsimp -zeta only [x]; try clear x)
    | (intro x; try clear_value x)
    | apply State.p_keeps
    | apply State.planFigures_keeps
    | apply State.irqIf_keeps
    | apply State.irq_keeps
    | apply State.sumpApply_keeps
    | apply State.planIdle_keeps
    | apply upd_keeps
    | exact Fits.refl _
    | lift_lets -underBinder
    | apply Keeps.ite

theorem State.planActivateEnd_keeps {mm : Bool} {s0 s : State} (hk : Keeps mm s0 s) :
    Keeps mm s0 (State.planActivateEnd s) := by
  refine hk.trans ?_; clear hk; unfold State.planActivateEnd; try dsimp -zeta only [mkS_eq]
  try lift_lets -underBinder
  with_reducible repeat' first
    | assumption
    | exact Keeps.refl _
    | (apply KeepsF.intro; intro s; (try dsimp -zeta only); try lift_lets -underBinder)
    | (intro x; refine Keeps.abs (mm := mm) (x := x) (s := s) ?_ (fun hk => ?_); rotate_left; clear_value x; rotate_right; dsimp -zeta only [x]; try clear x)
    | (intro x; try clear_value x)
    | apply State.planIdle_keeps
    | apply State.seqFinish_keeps
    | apply State.irq_keeps
    | apply State.p_keeps
    | apply State.selectReserve_keeps
    | apply State.reserveSync_keeps
    | apply foldl_keeps
    | apply upd_keeps
    | exact Fits.refl _
    | lift_lets -underBinder
    | apply Keeps.ite
    | split

theorem State.sliceTblRefill_keeps {mm : Bool} {s0 s : State} (hk : Keeps mm s0 s) (r : SRec) (new : Nat) :
    Keeps mm s0 (State.sliceTblRefill s r new) := by
  refine hk.trans ?_; clear hk; unfold State.sliceTblRefill; try dsimp -zeta only [mkS_eq]
  try lift_lets -underBinder
  with_reducible repeat' first
    | assumption
    | exact Keeps.refl _
    | (intro x; try clear_value x)
    | apply State.fault_keeps
    | apply State.setSlice_keeps
    | apply upd_keeps
    | exact Fits.refl _
    | lift_lets -underBinder
    | apply Keeps.ite

theorem State.remapTakeup_keeps {mm : Bool} {s0 s : State} (hk : Keeps mm s0 s) (new : Nat) :
    Keeps mm s0 (State.remapTakeup s new) := by
  refine hk.trans ?_; clear hk; unfold State.remapTakeup; try dsimp -zeta only [mkS_eq]
  try lift_lets -underBinder
  with_reducible repeat' first
    | assumption
    | exact Keeps.refl _
    | (intro x; refine Keeps.abs (mm := mm) (x := x) (s := s) ?_ (fun hk => ?_); rotate_left; clear_value x; rotate_right; dsimp -zeta only [x]; try clear x)
    | (intro x; try clear_value x)
    | apply State.sliceTblRefill_keeps
    | apply State.takeUp_keeps
    | apply upd_keeps
    | exact Fits.refl _
    | lift_lets -underBinder
    | apply Keeps.ite
    | split

theorem State.wrbufRebuildEnd_keeps {mm : Bool} {s0 s : State} (hk : Keeps mm s0 s) (new : Nat) :
    Keeps mm s0 (State.wrbufRebuildEnd s new) := by
  refine hk.trans ?_; clear hk; unfold State.wrbufRebuildEnd; try dsimp -zeta only [mkS_eq]
  try lift_lets -underBinder
  with_reducible repeat' first
    | assumption
    | exact Keeps.refl _
    | (intro x; refine Keeps.abs (mm := mm) (x := x) (s := s) ?_ (fun hk => ?_); rotate_left; clear_value x; rotate_right; dsimp -zeta only [x]; try clear x)
    | (intro x; try clear_value x)
    | apply State.takeUp_keeps
    | apply State.fault_keeps
    | apply upd_keeps
    | exact Fits.refl _
    | lift_lets -underBinder
    | apply Keeps.ite
    | split

theorem execPlanCheck_keeps {mm : Bool} {s0 s : State} (hk : Keeps mm s0 s) :
    Keeps mm s0 (after s (execPlanCheck s)) := by
  refine hk.trans ?_; clear hk; unfold execPlanCheck; try dsimp -zeta only [mkS_eq]
  try lift_lets -underBinder
  with_reducible repeat' first
    | assumption
    | exact Keeps.refl _
    | (apply KeepsF.intro; intro s; (try dsimp -zeta only); try lift_lets -underBinder)
    | (intro x; try clear_value x)
    | apply after_next_keeps
    | apply State.hostReg_keeps
    | apply State.planCtrl_keeps

theorem execPlanActivate_keeps {mm : Bool} {s0 s : State} (hk : Keeps mm s0 s) :
    Keeps mm s0 (after s (execPlanActivate s)) := by
  refine hk.trans ?_; clear hk; unfold execPlanActivate; try dsimp -zeta only [mkS_eq]
  try lift_lets -underBinder
  with_reducible repeat' first
    | assumption
    | exact Keeps.refl _
    | (apply KeepsF.intro; intro s; (try dsimp -zeta only); try lift_lets -underBinder)
    | (intro x; try clear_value x)
    | apply after_next_keeps
    | apply State.hostReg_keeps
    | apply State.planCtrl_keeps

theorem execPlanCheckEnd_keeps {mm : Bool} {s0 s : State} (hk : Keeps mm s0 s) :
    Keeps mm s0 (after s (execPlanCheckEnd s)) := by
  refine hk.trans ?_; clear hk; unfold execPlanCheckEnd; try dsimp -zeta only [mkS_eq]
  try lift_lets -underBinder
  with_reducible repeat' first
    | assumption
    | exact Keeps.refl _
    | (intro x; try clear_value x)
    | apply after_next_keeps
    | apply State.planCheckEnd_keeps

theorem execPlanActivateEnd_keeps {mm : Bool} {s0 s : State} (hk : Keeps mm s0 s) :
    Keeps mm s0 (after s (execPlanActivateEnd s)) := by
  refine hk.trans ?_; clear hk; unfold execPlanActivateEnd; try dsimp -zeta only [mkS_eq]
  try lift_lets -underBinder
  with_reducible repeat' first
    | assumption
    | exact Keeps.refl _
    | (intro x; try clear_value x)
    | apply after_next_keeps
    | apply State.planActivateEnd_keeps

theorem execSumpScrubPass_keeps {mm : Bool} {s0 s : State} (hk : Keeps mm s0 s) (corrected : Nat) (bad : Option (Fin 192 × Fin 16384 × Bool)) :
    Keeps mm s0 (after s (execSumpScrubPass corrected bad s)) := by
  refine hk.trans ?_; clear hk; unfold execSumpScrubPass; try dsimp -zeta only [mkS_eq]
  try lift_lets -underBinder
  with_reducible repeat' first
    | assumption
    | exact Keeps.refl _
    | (intro x; refine Keeps.abs (mm := mm) (x := x) (s := s) ?_ (fun hk => ?_); rotate_left; clear_value x; rotate_right; dsimp -zeta only [x]; try clear x)
    | (intro x; try clear_value x)
    | apply after_next_keeps
    | apply State.addSat_keeps
    | apply State.addMod_keeps
    | apply State.sumpWord_keeps
    | apply upd_keeps
    | exact Fits.refl _
    | (apply Keeps.ofpair (by assumption))
    | (apply Keeps.ofpair1 (by assumption))
    | (apply Keeps.oftriple (by assumption))
    | lift_lets -underBinder
    | apply Keeps.ite
    | split

theorem execSumpRemapTakeup_keeps {mm : Bool} {s0 s : State} (hk : Keeps mm s0 s) (granule : Fin 192) :
    Keeps mm s0 (after s (execSumpRemapTakeup granule s)) := by
  refine hk.trans ?_; clear hk; unfold execSumpRemapTakeup; try dsimp -zeta only [mkS_eq]
  try lift_lets -underBinder
  with_reducible repeat' first
    | assumption
    | exact Keeps.refl _
    | (intro x; try clear_value x)
    | apply after_next_keeps
    | apply State.remapTakeup_keeps

theorem execWrbufRebuildEnd_keeps {mm : Bool} {s0 s : State} (hk : Keeps mm s0 s) (granule : Fin 192) :
    Keeps mm s0 (after s (execWrbufRebuildEnd granule s)) := by
  refine hk.trans ?_; clear hk; unfold execWrbufRebuildEnd; try dsimp -zeta only [mkS_eq]
  try lift_lets -underBinder
  with_reducible repeat' first
    | assumption
    | exact Keeps.refl _
    | (intro x; try clear_value x)
    | apply after_next_keeps
    | apply State.wrbufRebuildEnd_keeps

end Sys2Proof.Machine
end

