-- ==== Sys2Proof/Laws/KeepsEther.lean ====
section
/-! SUPPORT. What the functions of Machine/Ether.lean keep: the part, the queue, the memories where they store nothing, and the
canonical form of the tables. -/

namespace Sys2Proof.Machine
theorem State.setEth_keeps {mm : Bool} {s0 s : State} (hk : Keeps mm s0 s) (k : Nat) (f : EthUnit → EthUnit) :
    Keeps mm s0 (State.setEth s k f) := by
  refine hk.trans ?_; clear hk; unfold State.setEth; try dsimp -zeta only [mkS_eq]
  try lift_lets -underBinder
  with_reducible repeat' first
    | assumption
    | exact Keeps.refl _
    | (intro x; try clear_value x)
    | apply upd_keeps
    | exact Fits.refl _
    | (simp only [upd_length, List.length_map, List.length_replicate]; exact Fits.refl _)

theorem State.setSnd_keeps {mm : Bool} {s0 s : State} (hk : Keeps mm s0 s) (k i : Nat) (f : Sender → Sender) :
    Keeps mm s0 (State.setSnd s k i f) := by
  refine hk.trans ?_; clear hk; unfold State.setSnd; try dsimp -zeta only [mkS_eq]
  try lift_lets -underBinder
  with_reducible repeat' first
    | assumption
    | exact Keeps.refl _
    | (intro x; try clear_value x)
    | apply State.setEth_keeps

theorem State.ethSend_keeps {mm : Bool} {s0 s : State} (hk : Keeps mm s0 s) (k j : Nat) (l : List Byte) :
    Keeps mm s0 (State.ethSend s k j l) := by
  refine hk.trans ?_; clear hk; unfold State.ethSend; try dsimp -zeta only [mkS_eq]
  try lift_lets -underBinder
  with_reducible repeat' first
    | assumption
    | exact Keeps.refl _
    | (intro x; try clear_value x)
    | apply State.count_keeps
    | apply State.addSat_keeps
    | apply State.emit_keeps

theorem State.loadSync_keeps {mm : Bool} {s0 s : State} (hk : Keeps mm s0 s) :
    Keeps mm s0 (State.loadSync s) := by
  refine hk.trans ?_; clear hk; unfold State.loadSync; try dsimp -zeta only [mkS_eq]
  try lift_lets -underBinder
  with_reducible repeat' first
    | assumption
    | exact Keeps.refl _
    | (apply KeepsF.intro; intro s; (try dsimp -zeta only); try lift_lets -underBinder)
    | (intro x; try clear_value x)
    | apply State.p_keeps
    | apply forN_keeps

theorem State.sndState_keeps {mm : Bool} {s0 s : State} (hk : Keeps mm s0 s) (k i st : Nat) :
    Keeps mm s0 (State.sndState s k i st) := by
  refine hk.trans ?_; clear hk; unfold State.sndState; try dsimp -zeta only [mkS_eq]
  try lift_lets -underBinder
  with_reducible repeat' first
    | assumption
    | exact Keeps.refl _
    | (intro x; try clear_value x)
    | apply State.irqIf_keeps
    | apply State.p_keeps

theorem State.sndSync_keeps {mm : Bool} {s0 s : State} (hk : Keeps mm s0 s) (k i : Nat) :
    Keeps mm s0 (State.sndSync s k i) := by
  refine hk.trans ?_; clear hk; unfold State.sndSync; try dsimp -zeta only [mkS_eq]
  try lift_lets -underBinder
  with_reducible repeat' first
    | assumption
    | exact Keeps.refl _
    | (intro x; refine Keeps.abs (mm := mm) (x := x) (s := s) ?_ (fun hk => ?_); rotate_left; clear_value x; rotate_right; dsimp -zeta only [x]; try clear x)
    | (intro x; try clear_value x)
    | apply State.p_keeps
    | apply State.sndState_keeps
    | apply State.setSnd_keeps
    | apply upd_keeps
    | exact Fits.refl _
    | lift_lets -underBinder
    | apply Keeps.ite

theorem State.sndSyncAll_keeps {mm : Bool} {s0 s : State} (hk : Keeps mm s0 s) :
    Keeps mm s0 (State.sndSyncAll s) := by
  refine hk.trans ?_; clear hk; unfold State.sndSyncAll; try dsimp -zeta only [mkS_eq]
  try lift_lets -underBinder
  with_reducible repeat' first
    | assumption
    | exact Keeps.refl _
    | (apply KeepsF.intro; intro s; (try dsimp -zeta only); try lift_lets -underBinder)
    | (intro x; try clear_value x)
    | apply State.sndSync_keeps
    | apply forN_keeps

theorem State.sndCfgWrite_keeps {mm : Bool} {s0 s : State} (hk : Keeps mm s0 s) (k i v : Nat) :
    Keeps mm s0 (State.sndCfgWrite s k i v) := by
  refine hk.trans ?_; clear hk; unfold State.sndCfgWrite; try dsimp -zeta only [mkS_eq]
  try lift_lets -underBinder
  with_reducible repeat' first
    | assumption
    | exact Keeps.refl _
    | (intro x; refine Keeps.abs (mm := mm) (x := x) (s := s) ?_ (fun hk => ?_); rotate_left; clear_value x; rotate_right; dsimp -zeta only [x]; try clear x)
    | (intro x; try clear_value x)
    | apply State.refuse4_keeps
    | apply State.loadSync_keeps
    | apply State.sndSync_keeps
    | apply State.p_keeps
    | apply State.plainWrite_keeps
    | apply State.irq_keeps
    | apply State.setSnd_keeps
    | apply upd_keeps
    | exact Fits.refl _
    | lift_lets -underBinder
    | apply Keeps.ite

theorem State.sndErr_keeps {mm : Bool} {s0 s : State} (hk : Keeps mm s0 s) (k i : Nat) (f : Fld) :
    Keeps mm s0 (State.sndErr s k i f) := by
  refine hk.trans ?_; clear hk; unfold State.sndErr; try dsimp -zeta only [mkS_eq]
  try lift_lets -underBinder
  with_reducible repeat' first
    | assumption
    | exact Keeps.refl _
    | (intro x; try clear_value x)
    | apply State.irqIf_keeps
    | apply State.addSat_keeps

theorem State.sndTake_keeps {mm : Bool} {s0 s : State} (hk : Keeps mm s0 s) (k i : Nat) :
    Keeps mm s0 (State.sndTake s k i) := by
  refine hk.trans ?_; clear hk; unfold State.sndTake; try dsimp -zeta only [mkS_eq]
  try lift_lets -underBinder
  with_reducible repeat' first
    | assumption
    | exact Keeps.refl _
    | (intro x; try clear_value x)
    | apply State.sndErr_keeps
    | apply State.setSnd_keeps
    | apply State.p_keeps
    | apply upd_keeps
    | exact Fits.refl _
    | lift_lets -underBinder
    | apply Keeps.ite
    | split

theorem State.ancTake_keeps {s0 s : State} (hk : Keeps false s0 s) (k i : Nat) :
    Keeps false s0 (State.ancTake s k i) := by
  refine hk.trans ?_; clear hk; unfold State.ancTake; try dsimp -zeta only [mkS_eq]
  try lift_lets -underBinder
  with_reducible repeat' first
    | assumption
    | exact Keeps.refl _
    | (intro x; refine Keeps.abs (mm := false) (x := x) (s := s) ?_ (fun hk => ?_); rotate_left; clear_value x; rotate_right; dsimp -zeta only [x]; try clear x)
    | ((apply KeepsF.ap (by assumption)))
    | ((apply KeepsF2.ap (by assumption)))
    | (intro x; refine KeepsF3.abs (mm := false) (x := x) ?_ (fun hk => ?_); rotate_left; clear_value x; rotate_right; dsimp -zeta only [x]; try clear x)
    | (apply KeepsF3.intro; intro a b s; (try dsimp -zeta only); try lift_lets -underBinder)
    | ((apply KeepsF3.ap (by assumption)))
    | (intro x; try clear_value x)
    | apply State.setSnd_keeps
    | apply State.p_keeps
    | apply State.masterRead_keeps
    | apply upd_keeps
    | exact Fits.refl _
    | (apply Keeps.ofpair (by assumption))
    | (apply Keeps.ofpair1 (by assumption))
    | (apply Keeps.oftriple (by assumption))
    | lift_lets -underBinder
    | apply Keeps.ite
    | split

theorem State.sndSlot_keeps {s0 s : State} (hk : Keeps false s0 s) (k i : Nat) :
    Keeps false s0 (State.sndSlot s k i) := by
  refine hk.trans ?_; clear hk; unfold State.sndSlot; try dsimp -zeta only [mkS_eq]
  try lift_lets -underBinder
  with_reducible repeat' first
    | assumption
    | exact Keeps.refl _
    | (intro x; refine Keeps.abs (mm := false) (x := x) (s := s) ?_ (fun hk => ?_); rotate_left; clear_value x; rotate_right; dsimp -zeta only [x]; try clear x)
    | (intro x; try clear_value x)
    | apply State.setSnd_keeps
    | apply State.ancTake_keeps
    | apply State.sndTake_keeps
    | apply State.sndSync_keeps
    | apply upd_keeps
    | exact Fits.refl _
    | lift_lets -underBinder
    | apply Keeps.ite
    | split

theorem State.sndSend_keeps {mm : Bool} {s0 s : State} (hk : Keeps mm s0 s) (k : Nat) (x : Sender) (payload : List Byte) :
    Keeps mm s0 (State.sndSend s k x payload) := by
  refine hk.trans ?_; clear hk; unfold State.sndSend; try dsimp -zeta only [mkS_eq]
  try lift_lets -underBinder
  with_reducible repeat' first
    | assumption
    | exact Keeps.refl _
    | (intro x; refine Keeps.abs (mm := mm) (x := x) (s := s) ?_ (fun hk => ?_); rotate_left; clear_value x; rotate_right; dsimp -zeta only [x]; try clear x)
    | ((apply KeepsF.ap (by assumption)))
    | ((apply KeepsF2.ap (by assumption)))
    | (intro x; refine KeepsF3.abs (mm := mm) (x := x) ?_ (fun hk => ?_); rotate_left; clear_value x; rotate_right; dsimp -zeta only [x]; try clear x)
    | (apply KeepsF3.intro; intro a b s; (try dsimp -zeta only); try lift_lets -underBinder)
    | ((apply KeepsF3.ap (by assumption)))
    | (intro x; try clear_value x)
    | apply State.count_keeps
    | apply State.ethSend_keeps
    | lift_lets -underBinder
    | apply Keeps.ite

theorem State.sndPacket_keeps {mm : Bool} {s0 s : State} (hk : Keeps mm s0 s) (k i : Nat) :
    Keeps mm s0 (State.sndPacket s k i) := by
  refine hk.trans ?_; clear hk; unfold State.sndPacket; try dsimp -zeta only [mkS_eq]
  try lift_lets -underBinder
  with_reducible repeat' first
    | assumption
    | exact Keeps.refl _
    | (intro x; refine Keeps.abs (mm := mm) (x := x) (s := s) ?_ (fun hk => ?_); rotate_left; clear_value x; rotate_right; dsimp -zeta only [x]; try clear x)
    | (intro x; try clear_value x)
    | apply State.sndSend_keeps
    | apply State.sndSync_keeps
    | apply State.setSnd_keeps
    | apply State.sndErr_keeps
    | apply foldl_keeps
    | apply upd_keeps
    | exact Fits.refl _
    | lift_lets -underBinder
    | apply Keeps.ite
    | split

theorem State.sndShift_keeps {mm : Bool} {s0 s : State} (hk : Keeps mm s0 s) (d : Int) :
    Keeps mm s0 (State.sndShift s d) := by
  refine hk.trans ?_; clear hk; unfold State.sndShift; try dsimp -zeta only [mkS_eq]
  try lift_lets -underBinder
  with_reducible repeat' first
    | assumption
    | exact Keeps.refl _
    | (intro x; try clear_value x)
    | apply upd_keeps
    | exact Fits.refl _
    | (simp only [upd_length, List.length_map, List.length_replicate]; exact Fits.refl _)

theorem execSndEnable_keeps {mm : Bool} {s0 s : State} (hk : Keeps mm s0 s) (k : Fin 4) (sender : Fin 8) (value : Word) :
    Keeps mm s0 (after s (execSndEnable k sender value s)) := by
  refine hk.trans ?_; clear hk; unfold execSndEnable; try dsimp -zeta only [mkS_eq]
  try lift_lets -underBinder
  with_reducible repeat' first
    | assumption
    | exact Keeps.refl _
    | (apply KeepsF.intro; intro s; (try dsimp -zeta only); try lift_lets -underBinder)
    | (intro x; try clear_value x)
    | apply after_next_keeps
    | apply State.hostReg_keeps
    | apply State.sndCfgWrite_keeps

theorem execSndDisable_keeps {mm : Bool} {s0 s : State} (hk : Keeps mm s0 s) (k : Fin 4) (sender : Fin 8) :
    Keeps mm s0 (after s (execSndDisable k sender s)) := by
  refine hk.trans ?_; clear hk; unfold execSndDisable; try dsimp -zeta only [mkS_eq]
  try lift_lets -underBinder
  with_reducible repeat' first
    | assumption
    | exact Keeps.refl _
    | (apply KeepsF.intro; intro s; (try dsimp -zeta only); try lift_lets -underBinder)
    | (intro x; try clear_value x)
    | apply after_next_keeps
    | apply State.hostReg_keeps
    | apply State.sndCfgWrite_keeps

theorem execSndSlotStart_keeps {s0 s : State} (hk : Keeps false s0 s) (k : Fin 4) (sender : Fin 8) :
    Keeps false s0 (after s (execSndSlotStart k sender s)) := by
  refine hk.trans ?_; clear hk; unfold execSndSlotStart; try dsimp -zeta only [mkS_eq]
  try lift_lets -underBinder
  with_reducible repeat' first
    | assumption
    | exact Keeps.refl _
    | (intro x; try clear_value x)
    | apply after_next_keeps
    | apply State.sndSlot_keeps

theorem execSndPacketDue_keeps {mm : Bool} {s0 s : State} (hk : Keeps mm s0 s) (k : Fin 4) (sender : Fin 8) :
    Keeps mm s0 (after s (execSndPacketDue k sender s)) := by
  refine hk.trans ?_; clear hk; unfold execSndPacketDue; try dsimp -zeta only [mkS_eq]
  try lift_lets -underBinder
  with_reducible repeat' first
    | assumption
    | exact Keeps.refl _
    | (intro x; try clear_value x)
    | apply after_next_keeps
    | apply State.sndPacket_keeps

theorem execAncProdWrite_keeps {mm : Bool} {s0 s : State} (hk : Keeps mm s0 s) (k : Fin 4) (sender : Fin 8) (value : Word) :
    Keeps mm s0 (after s (execAncProdWrite k sender value s)) := by
  refine hk.trans ?_; clear hk; unfold execAncProdWrite; try dsimp -zeta only [mkS_eq]
  try lift_lets -underBinder
  with_reducible repeat' first
    | assumption
    | exact Keeps.refl _
    | (apply KeepsF.intro; intro s; (try dsimp -zeta only); try lift_lets -underBinder)
    | (intro x; try clear_value x)
    | apply after_next_keeps
    | apply State.hostReg_keeps
    | apply State.plainWrite_keeps

end Sys2Proof.Machine
end

