-- ==== Sys2Proof/Laws/KeepsSluice.lean ====
section
/-! SUPPORT. What the functions of Machine/Sluice.lean keep: the part, the queue, the memories where they store nothing, and the
canonical form of the tables. -/

namespace Sys2Proof.Machine
theorem State.setSes_keeps {mm : Bool} {s0 s : State} (hk : Keeps mm s0 s) (k t : Nat) (f : Session → Session) :
    Keeps mm s0 (State.setSes s k t f) := by
  refine hk.trans ?_; clear hk; unfold State.setSes; try dsimp -zeta only [mkS_eq]
  try lift_lets -underBinder
  with_reducible repeat' first
    | assumption
    | exact Keeps.refl _
    | (intro x; try clear_value x)
    | apply State.setEth_keeps

theorem State.setSesState_keeps {mm : Bool} {s0 s : State} (hk : Keeps mm s0 s) (k t st : Nat) :
    Keeps mm s0 (State.setSesState s k t st) := by
  refine hk.trans ?_; clear hk; unfold State.setSesState; try dsimp -zeta only [mkS_eq]
  try lift_lets -underBinder
  with_reducible repeat' first
    | assumption
    | exact Keeps.refl _
    | (intro x; try clear_value x)
    | apply State.irqIf_keeps
    | apply State.p_keeps

theorem State.sesSend_keeps {mm : Bool} {s0 s : State} (hk : Keeps mm s0 s) (k t : Nat) (m : List Byte) :
    Keeps mm s0 (State.sesSend s k t m) := by
  refine hk.trans ?_; clear hk; unfold State.sesSend; try dsimp -zeta only [mkS_eq]
  try lift_lets -underBinder
  with_reducible repeat' first
    | assumption
    | exact Keeps.refl _
    | (intro x; try clear_value x)
    | apply State.ethSend_keeps
    | lift_lets -underBinder
    | apply Keeps.ite

theorem State.sesToAlt_keeps {mm : Bool} {s0 s : State} (hk : Keeps mm s0 s) (k t : Nat) :
    Keeps mm s0 (State.sesToAlt s k t) := by
  refine hk.trans ?_; clear hk; unfold State.sesToAlt; try dsimp -zeta only [mkS_eq]
  try lift_lets -underBinder
  with_reducible repeat' first
    | assumption
    | exact Keeps.refl _
    | (intro x; try clear_value x)
    | apply State.p_keeps
    | apply State.setSes_keeps
    | apply upd_keeps
    | exact Fits.refl _
    | lift_lets -underBinder
    | apply Keeps.ite

theorem State.sesSync_keeps {mm : Bool} {s0 s : State} (hk : Keeps mm s0 s) (k t : Nat) :
    Keeps mm s0 (State.sesSync s k t) := by
  refine hk.trans ?_; clear hk; unfold State.sesSync; try dsimp -zeta only [mkS_eq]
  try lift_lets -underBinder
  with_reducible repeat' first
    | assumption
    | exact Keeps.refl _
    | (intro x; refine Keeps.abs (mm := mm) (x := x) (s := s) ?_ (fun hk => ?_); rotate_left; clear_value x; rotate_right; dsimp -zeta only [x]; try clear x)
    | (intro x; try clear_value x)
    | apply State.p_keeps
    | apply State.p64_keeps
    | apply upd_keeps
    | exact Fits.refl _
    | lift_lets -underBinder
    | apply Keeps.ite
    | split

theorem State.sendClose_keeps {mm : Bool} {s0 s : State} (hk : Keeps mm s0 s) (k t : Nat) :
    Keeps mm s0 (State.sendClose s k t) := by
  refine hk.trans ?_; clear hk; unfold State.sendClose; try dsimp -zeta only [mkS_eq]
  try lift_lets -underBinder
  with_reducible repeat' first
    | assumption
    | exact Keeps.refl _
    | (intro x; refine Keeps.abs (mm := mm) (x := x) (s := s) ?_ (fun hk => ?_); rotate_left; clear_value x; rotate_right; dsimp -zeta only [x]; try clear x)
    | (intro x; try clear_value x)
    | apply State.sesSend_keeps
    | apply State.setSes_keeps

theorem State.sesClosing_keeps {mm : Bool} {s0 s : State} (hk : Keeps mm s0 s) (k t reason : Nat) :
    Keeps mm s0 (State.sesClosing s k t reason) := by
  refine hk.trans ?_; clear hk; unfold State.sesClosing; try dsimp -zeta only [mkS_eq]
  try lift_lets -underBinder
  with_reducible repeat' first
    | assumption
    | exact Keeps.refl _
    | (intro x; try clear_value x)
    | apply State.sendClose_keeps
    | apply State.setSesState_keeps
    | apply State.setSes_keeps

theorem State.sesFaultSync_keeps {mm : Bool} {s0 s : State} (hk : Keeps mm s0 s) (k : Nat) :
    Keeps mm s0 (State.sesFaultSync s k) := by
  refine hk.trans ?_; clear hk; unfold State.sesFaultSync; try dsimp -zeta only [mkS_eq]
  try lift_lets -underBinder
  with_reducible repeat' first
    | assumption
    | exact Keeps.refl _
    | (intro x; try clear_value x)
    | apply State.fault_keeps

theorem State.sesFail_keeps {mm : Bool} {s0 s : State} (hk : Keeps mm s0 s) (k t reason : Nat) :
    Keeps mm s0 (State.sesFail s k t reason) := by
  refine hk.trans ?_; clear hk; unfold State.sesFail; try dsimp -zeta only [mkS_eq]
  try lift_lets -underBinder
  with_reducible repeat' first
    | assumption
    | exact Keeps.refl _
    | (intro x; try clear_value x)
    | apply State.sesFaultSync_keeps
    | apply State.p_keeps
    | apply State.setSesState_keeps

theorem State.sesEnd_keeps {mm : Bool} {s0 s : State} (hk : Keeps mm s0 s) (k t outcome reason : Nat) :
    Keeps mm s0 (State.sesEnd s k t outcome reason) := by
  refine hk.trans ?_; clear hk; unfold State.sesEnd; try dsimp -zeta only [mkS_eq]
  try lift_lets -underBinder
  with_reducible repeat' first
    | assumption
    | exact Keeps.refl _
    | (intro x; refine Keeps.abs (mm := mm) (x := x) (s := s) ?_ (fun hk => ?_); rotate_left; clear_value x; rotate_right; dsimp -zeta only [x]; try clear x)
    | (intro x; try clear_value x)
    | apply State.p_keeps
    | apply State.p64_keeps
    | apply State.setSes_keeps
    | apply upd_keeps
    | exact Fits.refl _
    | lift_lets -underBinder
    | apply Keeps.ite
    | split

theorem State.sesFlr_keeps {mm : Bool} {s0 s : State} (hk : Keeps mm s0 s) (k t : Nat) :
    Keeps mm s0 (State.sesFlr s k t) := by
  refine hk.trans ?_; clear hk; unfold State.sesFlr; try dsimp -zeta only [mkS_eq]
  try lift_lets -underBinder
  with_reducible repeat' first
    | assumption
    | exact Keeps.refl _
    | (intro x; refine Keeps.abs (mm := mm) (x := x) (s := s) ?_ (fun hk => ?_); rotate_left; clear_value x; rotate_right; dsimp -zeta only [x]; try clear x)
    | (intro x; try clear_value x)
    | apply State.setSes_keeps
    | apply State.setSesState_keeps
    | apply State.sesEnd_keeps
    | apply State.sendClose_keeps
    | apply upd_keeps
    | exact Fits.refl _
    | lift_lets -underBinder
    | apply Keeps.ite

theorem State.sendOpen_keeps {mm : Bool} {s0 s : State} (hk : Keeps mm s0 s) (k t : Nat) :
    Keeps mm s0 (State.sendOpen s k t) := by
  refine hk.trans ?_; clear hk; unfold State.sendOpen; try dsimp -zeta only [mkS_eq]
  try lift_lets -underBinder
  with_reducible repeat' first
    | assumption
    | exact Keeps.refl _
    | (intro x; refine Keeps.abs (mm := mm) (x := x) (s := s) ?_ (fun hk => ?_); rotate_left; clear_value x; rotate_right; dsimp -zeta only [x]; try clear x)
    | (intro x; try clear_value x)
    | apply State.sesSend_keeps
    | apply State.setSes_keeps

theorem State.sesOpenWrite_keeps {mm : Bool} {s0 s : State} (hk : Keeps mm s0 s) (k t : Nat) :
    Keeps mm s0 (State.sesOpenWrite s k t) := by
  refine hk.trans ?_; clear hk; unfold State.sesOpenWrite; try dsimp -zeta only [mkS_eq]
  try lift_lets -underBinder
  with_reducible repeat' first
    | assumption
    | exact Keeps.refl _
    | (intro x; refine Keeps.abs (mm := mm) (x := x) (s := s) ?_ (fun hk => ?_); rotate_left; clear_value x; rotate_right; dsimp -zeta only [x]; try clear x)
    | (intro x; try clear_value x)
    | apply State.refuse4_keeps
    | apply State.p_keeps
    | apply State.setSes_keeps
    | apply State.p64_keeps
    | apply State.sesFaultSync_keeps
    | apply State.setSesState_keeps
    | apply State.sendOpen_keeps
    | apply State.sesSync_keeps
    | apply upd_keeps
    | exact Fits.refl _
    | lift_lets -underBinder
    | apply Keeps.ite

theorem State.sesIdle_keeps {mm : Bool} {s0 s : State} (hk : Keeps mm s0 s) (k t : Nat) (abort : Bool) :
    Keeps mm s0 (State.sesIdle s k t abort) := by
  refine hk.trans ?_; clear hk; unfold State.sesIdle; try dsimp -zeta only [mkS_eq]
  try lift_lets -underBinder
  with_reducible repeat' first
    | assumption
    | exact Keeps.refl _
    | (intro x; refine Keeps.abs (mm := mm) (x := x) (s := s) ?_ (fun hk => ?_); rotate_left; clear_value x; rotate_right; dsimp -zeta only [x]; try clear x)
    | (intro x; try clear_value x)
    | apply State.sesEnd_keeps
    | apply State.setSes_keeps
    | apply State.sesFaultSync_keeps
    | apply State.setSesState_keeps
    | apply State.p_keeps
    | apply upd_keeps
    | exact Fits.refl _
    | lift_lets -underBinder
    | apply Keeps.ite

theorem State.sesCtrl_keeps {mm : Bool} {s0 s : State} (hk : Keeps mm s0 s) (k t v : Nat) :
    Keeps mm s0 (State.sesCtrl s k t v) := by
  refine hk.trans ?_; clear hk; unfold State.sesCtrl; try dsimp -zeta only [mkS_eq]
  try lift_lets -underBinder
  with_reducible repeat' first
    | assumption
    | exact Keeps.refl _
    | (intro x; refine Keeps.abs (mm := mm) (x := x) (s := s) ?_ (fun hk => ?_); rotate_left; clear_value x; rotate_right; dsimp -zeta only [x]; try clear x)
    | (intro x; try clear_value x)
    | apply State.sesOpenWrite_keeps
    | apply State.sesIdle_keeps
    | apply State.setSesState_keeps
    | apply State.sesClosing_keeps
    | apply State.refuse4_keeps
    | apply State.sesEnd_keeps
    | lift_lets -underBinder
    | apply Keeps.ite

theorem State.openAckIn_keeps {mm : Bool} {s0 s : State} (hk : Keeps mm s0 s) (k : Nat) (m : List Byte) :
    Keeps mm s0 (State.openAckIn s k m) := by
  refine hk.trans ?_; clear hk; unfold State.openAckIn; try dsimp -zeta only [mkS_eq]
  try lift_lets -underBinder
  with_reducible repeat' first
    | assumption
    | exact Keeps.refl _
    | (intro x; refine Keeps.abs (mm := mm) (x := x) (s := s) ?_ (fun hk => ?_); rotate_left; clear_value x; rotate_right; dsimp -zeta only [x]; try clear x)
    | (intro x; try clear_value x)
    | apply State.sesFail_keeps
    | apply State.setSes_keeps
    | apply State.sesSync_keeps
    | apply State.setSesState_keeps
    | apply State.p_keeps
    | apply upd_keeps
    | exact Fits.refl _
    | lift_lets -underBinder
    | apply Keeps.ite
    | split

theorem State.ackIn_keeps {mm : Bool} {s0 s : State} (hk : Keeps mm s0 s) (k : Nat) (m : List Byte) :
    Keeps mm s0 (State.ackIn s k m) := by
  refine hk.trans ?_; clear hk; unfold State.ackIn; try dsimp -zeta only [mkS_eq]
  try lift_lets -underBinder
  with_reducible repeat' first
    | assumption
    | exact Keeps.refl _
    | (intro x; refine Keeps.abs (mm := mm) (x := x) (s := s) ?_ (fun hk => ?_); rotate_left; clear_value x; rotate_right; dsimp -zeta only [x]; try clear x)
    | (intro x; try clear_value x)
    | apply State.setSes_keeps
    | apply State.sesSync_keeps
    | apply State.p_keeps
    | apply State.p64_keeps
    | apply State.sesClosing_keeps
    | apply upd_keeps
    | exact Fits.refl _
    | lift_lets -underBinder
    | apply Keeps.ite
    | split

theorem State.closeAckIn_keeps {mm : Bool} {s0 s : State} (hk : Keeps mm s0 s) (k : Nat) (m : List Byte) :
    Keeps mm s0 (State.closeAckIn s k m) := by
  refine hk.trans ?_; clear hk; unfold State.closeAckIn; try dsimp -zeta only [mkS_eq]
  try lift_lets -underBinder
  with_reducible repeat' first
    | assumption
    | exact Keeps.refl _
    | (intro x; try clear_value x)
    | apply State.setSesState_keeps
    | apply upd_keeps
    | exact Fits.refl _
    | lift_lets -underBinder
    | apply Keeps.ite
    | split

theorem State.segSend_keeps {mm : Bool} {s0 s : State} (hk : Keeps mm s0 s) (k t : Nat) (g : Segment) (retx : Bool) :
    Keeps mm s0 (State.segSend s k t g retx) := by
  refine hk.trans ?_; clear hk; unfold State.segSend; try dsimp -zeta only [mkS_eq]
  try lift_lets -underBinder
  with_reducible repeat' first
    | assumption
    | exact Keeps.refl _
    | (apply KeepsF.intro; intro s; (try dsimp -zeta only); try lift_lets -underBinder)
    | (intro x; refine Keeps.abs (mm := mm) (x := x) (s := s) ?_ (fun hk => ?_); rotate_left; clear_value x; rotate_right; dsimp -zeta only [x]; try clear x)
    | (intro x; try clear_value x)
    | apply State.tsqWake_keeps
    | apply State.sesSend_keeps
    | apply State.setSes_keeps
    | apply State.hbmCount_keeps
    | apply State.count_keeps
    | apply State.addSat_keeps
    | apply foldl_keeps
    | apply upd_keeps
    | exact Fits.refl _
    | lift_lets -underBinder
    | apply Keeps.ite

theorem State.segQueue_keeps {mm : Bool} {s0 s : State} (hk : Keeps mm s0 s) (k t : Nat) :
    Keeps mm s0 (State.segQueue s k t) := by
  refine hk.trans ?_; clear hk; unfold State.segQueue; try dsimp -zeta only [mkS_eq]
  try lift_lets -underBinder
  with_reducible repeat' first
    | assumption
    | exact Keeps.refl _
    | (intro x; refine Keeps.abs (mm := mm) (x := x) (s := s) ?_ (fun hk => ?_); rotate_left; clear_value x; rotate_right; dsimp -zeta only [x]; try clear x)
    | (intro x; try clear_value x)
    | apply State.setSes_keeps
    | apply State.irqIf_keeps
    | apply State.p64_keeps
    | apply State.sesSync_keeps
    | apply State.segSend_keeps
    | apply upd_keeps
    | exact Fits.refl _
    | lift_lets -underBinder
    | apply Keeps.ite
    | split

theorem State.segNext_keeps {mm : Bool} {s0 s : State} (hk : Keeps mm s0 s) (k t : Nat) :
    Keeps mm s0 (State.segNext s k t) := by
  refine hk.trans ?_; clear hk; unfold State.segNext; try dsimp -zeta only [mkS_eq]
  try lift_lets -underBinder
  with_reducible repeat' first
    | assumption
    | exact Keeps.refl _
    | (intro x; try clear_value x)
    | apply State.segSend_keeps
    | apply State.segQueue_keeps
    | apply upd_keeps
    | exact Fits.refl _
    | lift_lets -underBinder
    | apply Keeps.ite
    | split

theorem State.segRto_keeps {mm : Bool} {s0 s : State} (hk : Keeps mm s0 s) (k t ssn : Nat) :
    Keeps mm s0 (State.segRto s k t ssn) := by
  refine hk.trans ?_; clear hk; unfold State.segRto; try dsimp -zeta only [mkS_eq]
  try lift_lets -underBinder
  with_reducible repeat' first
    | assumption
    | exact Keeps.refl _
    | (apply KeepsF.intro; intro s; (try dsimp -zeta only); try lift_lets -underBinder)
    | (intro x; refine Keeps.abs (mm := mm) (x := x) (s := s) ?_ (fun hk => ?_); rotate_left; clear_value x; rotate_right; dsimp -zeta only [x]; try clear x)
    | (intro x; try clear_value x)
    | apply State.report_keeps
    | apply State.sesToAlt_keeps
    | apply State.segSend_keeps
    | apply State.setSes_keeps
    | apply State.sesFail_keeps
    | apply upd_keeps
    | exact Fits.refl _
    | lift_lets -underBinder
    | apply Keeps.ite
    | split

theorem State.sesRto_keeps {mm : Bool} {s0 s : State} (hk : Keeps mm s0 s) (k t ssn : Nat) :
    Keeps mm s0 (State.sesRto s k t ssn) := by
  refine hk.trans ?_; clear hk; unfold State.sesRto; try dsimp -zeta only [mkS_eq]
  try lift_lets -underBinder
  with_reducible repeat' first
    | assumption
    | exact Keeps.refl _
    | (intro x; try clear_value x)
    | apply State.sesFail_keeps
    | apply State.sendOpen_keeps
    | apply State.segRto_keeps
    | apply State.setSesState_keeps
    | apply State.sendClose_keeps
    | apply upd_keeps
    | exact Fits.refl _
    | lift_lets -underBinder
    | apply Keeps.ite
    | split

theorem State.releaseTo_keeps {mm : Bool} {s0 s : State} (hk : Keeps mm s0 s) (h tail source : Nat) :
    Keeps mm s0 (State.releaseTo s h tail source) := by
  refine hk.trans ?_; clear hk; unfold State.releaseTo; try dsimp -zeta only [mkS_eq]
  try lift_lets -underBinder
  with_reducible repeat' first
    | assumption
    | exact Keeps.refl _
    | (apply KeepsF.intro; intro s; (try dsimp -zeta only); try lift_lets -underBinder)
    | (intro x; refine Keeps.abs (mm := mm) (x := x) (s := s) ?_ (fun hk => ?_); rotate_left; clear_value x; rotate_right; dsimp -zeta only [x]; try clear x)
    | (intro x; try clear_value x)
    | apply State.moveTail_keeps
    | apply State.setSes_keeps
    | apply State.sesSync_keeps
    | apply State.irqIf_keeps
    | apply State.addSat_keeps
    | apply forN_keeps
    | apply upd_keeps
    | exact Fits.refl _
    | lift_lets -underBinder
    | apply Keeps.ite

theorem State.holdRelease_keeps {mm : Bool} {s0 s : State} (hk : Keeps mm s0 s) (h : Nat) :
    Keeps mm s0 (State.holdRelease s h) := by
  refine hk.trans ?_; clear hk; unfold State.holdRelease; try dsimp -zeta only [mkS_eq]
  try lift_lets -underBinder
  with_reducible repeat' first
    | assumption
    | exact Keeps.refl _
    | (apply KeepsF.intro; intro s; (try dsimp -zeta only); try lift_lets -underBinder)
    | (intro x; refine Keeps.abs (mm := mm) (x := x) (s := s) ?_ (fun hk => ?_); rotate_left; clear_value x; rotate_right; dsimp -zeta only [x]; try clear x)
    | (intro x; try clear_value x)
    | apply State.releaseTo_keeps
    | apply State.irqIf_keeps
    | apply forN_keeps
    | apply upd_keeps
    | exact Fits.refl _
    | lift_lets -underBinder
    | apply Keeps.ite
    | split

theorem State.recOpen_keeps {mm : Bool} {s0 s : State} (hk : Keeps mm s0 s) (m : List Byte) (window status : Nat) :
    Keeps mm s0 (State.recOpen s m window status) := by
  refine hk.trans ?_; clear hk; unfold State.recOpen; try dsimp -zeta only [mkS_eq]
  try lift_lets -underBinder
  with_reducible repeat' first
    | assumption
    | exact Keeps.refl _
    | exact KeepsF.id
    | (intro x; refine Keeps.abs (mm := mm) (x := x) (s := s) ?_ (fun hk => ?_); rotate_left; clear_value x; rotate_right; dsimp -zeta only [x]; try clear x)
    | (intro x; try clear_value x)
    | apply State.emit_keeps
    | apply upd_keeps
    | exact Fits.refl _
    | lift_lets -underBinder
    | apply Keeps.ite

theorem State.recData_keeps {mm : Bool} {s0 s : State} (hk : Keeps mm s0 s) (m : List Byte) (window : Nat) :
    Keeps mm s0 (State.recData s m window) := by
  refine hk.trans ?_; clear hk; unfold State.recData; try dsimp -zeta only [mkS_eq]
  try lift_lets -underBinder
  with_reducible repeat' first
    | assumption
    | exact Keeps.refl _
    | exact KeepsF.id
    | (intro x; try clear_value x)
    | apply State.emit_keeps
    | apply foldl_keeps
    | apply upd_keeps
    | exact Fits.refl _
    | lift_lets -underBinder
    | apply Keeps.ite
    | split

theorem State.recClose_keeps {mm : Bool} {s0 s : State} (hk : Keeps mm s0 s) (m : List Byte) :
    Keeps mm s0 (State.recClose s m) := by
  refine hk.trans ?_; clear hk; unfold State.recClose; try dsimp -zeta only [mkS_eq]
  try lift_lets -underBinder
  with_reducible repeat' first
    | assumption
    | exact Keeps.refl _
    | exact KeepsF.id
    | (intro x; try clear_value x)
    | apply State.emit_keeps
    | apply upd_keeps
    | exact Fits.refl _
    | lift_lets -underBinder
    | apply Keeps.ite

theorem execSlotRelease_keeps {mm : Bool} {s0 s : State} (hk : Keeps mm s0 s) (slot : Fin 32) :
    Keeps mm s0 (after s (execSlotRelease slot s)) := by
  refine hk.trans ?_; clear hk; unfold execSlotRelease; try dsimp -zeta only [mkS_eq]
  try lift_lets -underBinder
  with_reducible repeat' first
    | assumption
    | exact Keeps.refl _
    | (intro x; refine Keeps.abs (mm := mm) (x := x) (s := s) ?_ (fun hk => ?_); rotate_left; clear_value x; rotate_right; dsimp -zeta only [x]; try clear x)
    | (intro x; try clear_value x)
    | apply after_next_keeps
    | apply State.settleFua_keeps
    | apply State.endCmd_keeps
    | apply State.setCmd_keeps
    | apply State.activate_keeps
    | apply State.releaseTo_keeps
    | apply upd_keeps
    | exact Fits.refl _
    | lift_lets -underBinder
    | apply Keeps.ite
    | split

theorem execSesOpen_keeps {mm : Bool} {s0 s : State} (hk : Keeps mm s0 s) (k : Fin 4) (t : Fin 8) :
    Keeps mm s0 (after s (execSesOpen k t s)) := by
  refine hk.trans ?_; clear hk; unfold execSesOpen; try dsimp -zeta only [mkS_eq]
  try lift_lets -underBinder
  with_reducible repeat' first
    | assumption
    | exact Keeps.refl _
    | (apply KeepsF.intro; intro s; (try dsimp -zeta only); try lift_lets -underBinder)
    | (intro x; try clear_value x)
    | apply after_next_keeps
    | apply State.hostReg_keeps
    | apply State.sesCtrl_keeps

theorem execSesClose_keeps {mm : Bool} {s0 s : State} (hk : Keeps mm s0 s) (k : Fin 4) (t : Fin 8) :
    Keeps mm s0 (after s (execSesClose k t s)) := by
  refine hk.trans ?_; clear hk; unfold execSesClose; try dsimp -zeta only [mkS_eq]
  try lift_lets -underBinder
  with_reducible repeat' first
    | assumption
    | exact Keeps.refl _
    | (apply KeepsF.intro; intro s; (try dsimp -zeta only); try lift_lets -underBinder)
    | (intro x; try clear_value x)
    | apply after_next_keeps
    | apply State.hostReg_keeps
    | apply State.sesCtrl_keeps

theorem execSesAbort_keeps {mm : Bool} {s0 s : State} (hk : Keeps mm s0 s) (k : Fin 4) (t : Fin 8) :
    Keeps mm s0 (after s (execSesAbort k t s)) := by
  refine hk.trans ?_; clear hk; unfold execSesAbort; try dsimp -zeta only [mkS_eq]
  try lift_lets -underBinder
  with_reducible repeat' first
    | assumption
    | exact Keeps.refl _
    | (apply KeepsF.intro; intro s; (try dsimp -zeta only); try lift_lets -underBinder)
    | (intro x; try clear_value x)
    | apply after_next_keeps
    | apply State.hostReg_keeps
    | apply State.sesCtrl_keeps

theorem execSluiceOpenAck_keeps {mm : Bool} {s0 s : State} (hk : Keeps mm s0 s) (k : Fin 4) (msg : List Byte) :
    Keeps mm s0 (after s (execSluiceOpenAck k msg s)) := by
  refine hk.trans ?_; clear hk; unfold execSluiceOpenAck; try dsimp -zeta only [mkS_eq]
  try lift_lets -underBinder
  with_reducible repeat' first
    | assumption
    | exact Keeps.refl _
    | (intro x; try clear_value x)
    | apply after_next_keeps
    | apply State.openAckIn_keeps

theorem execSluiceAck_keeps {mm : Bool} {s0 s : State} (hk : Keeps mm s0 s) (k : Fin 4) (msg : List Byte) :
    Keeps mm s0 (after s (execSluiceAck k msg s)) := by
  refine hk.trans ?_; clear hk; unfold execSluiceAck; try dsimp -zeta only [mkS_eq]
  try lift_lets -underBinder
  with_reducible repeat' first
    | assumption
    | exact Keeps.refl _
    | (intro x; try clear_value x)
    | apply after_next_keeps
    | apply State.ackIn_keeps

theorem execSluiceCloseAck_keeps {mm : Bool} {s0 s : State} (hk : Keeps mm s0 s) (k : Fin 4) (msg : List Byte) :
    Keeps mm s0 (after s (execSluiceCloseAck k msg s)) := by
  refine hk.trans ?_; clear hk; unfold execSluiceCloseAck; try dsimp -zeta only [mkS_eq]
  try lift_lets -underBinder
  with_reducible repeat' first
    | assumption
    | exact Keeps.refl _
    | (intro x; try clear_value x)
    | apply after_next_keeps
    | apply State.closeAckIn_keeps

theorem execSesRtoExpiry_keeps {mm : Bool} {s0 s : State} (hk : Keeps mm s0 s) (k : Fin 4) (t : Fin 8) (ssn : Nat) :
    Keeps mm s0 (after s (execSesRtoExpiry k t ssn s)) := by
  refine hk.trans ?_; clear hk; unfold execSesRtoExpiry; try dsimp -zeta only [mkS_eq]
  try lift_lets -underBinder
  with_reducible repeat' first
    | assumption
    | exact Keeps.refl _
    | (intro x; try clear_value x)
    | apply after_next_keeps
    | apply State.sesRto_keeps

theorem execSesSegmentSend_keeps {mm : Bool} {s0 s : State} (hk : Keeps mm s0 s) (k : Fin 4) (t : Fin 8) :
    Keeps mm s0 (after s (execSesSegmentSend k t s)) := by
  refine hk.trans ?_; clear hk; unfold execSesSegmentSend; try dsimp -zeta only [mkS_eq]
  try lift_lets -underBinder
  with_reducible repeat' first
    | assumption
    | exact Keeps.refl _
    | (intro x; try clear_value x)
    | apply after_next_keeps
    | apply State.segNext_keeps

theorem execSesHoldRelease_keeps {mm : Bool} {s0 s : State} (hk : Keeps mm s0 s) (h : Fin 4) :
    Keeps mm s0 (after s (execSesHoldRelease h s)) := by
  refine hk.trans ?_; clear hk; unfold execSesHoldRelease; try dsimp -zeta only [mkS_eq]
  try lift_lets -underBinder
  with_reducible repeat' first
    | assumption
    | exact Keeps.refl _
    | (intro x; try clear_value x)
    | apply after_next_keeps
    | apply State.holdRelease_keeps

theorem execRecOpen_keeps {mm : Bool} {s0 s : State} (hk : Keeps mm s0 s) (msg : List Byte) (window : Nat) (status : Byte) :
    Keeps mm s0 (after s (execRecOpen msg window status s)) := by
  refine hk.trans ?_; clear hk; unfold execRecOpen; try dsimp -zeta only [mkS_eq]
  try lift_lets -underBinder
  with_reducible repeat' first
    | assumption
    | exact Keeps.refl _
    | (intro x; try clear_value x)
    | apply after_next_keeps
    | apply State.recOpen_keeps

theorem execRecData_keeps {mm : Bool} {s0 s : State} (hk : Keeps mm s0 s) (msg : List Byte) (window : Nat) :
    Keeps mm s0 (after s (execRecData msg window s)) := by
  refine hk.trans ?_; clear hk; unfold execRecData; try dsimp -zeta only [mkS_eq]
  try lift_lets -underBinder
  with_reducible repeat' first
    | assumption
    | exact Keeps.refl _
    | (intro x; try clear_value x)
    | apply after_next_keeps
    | apply State.recData_keeps

theorem execRecClose_keeps {mm : Bool} {s0 s : State} (hk : Keeps mm s0 s) (msg : List Byte) :
    Keeps mm s0 (after s (execRecClose msg s)) := by
  refine hk.trans ?_; clear hk; unfold execRecClose; try dsimp -zeta only [mkS_eq]
  try lift_lets -underBinder
  with_reducible repeat' first
    | assumption
    | exact Keeps.refl _
    | (intro x; try clear_value x)
    | apply after_next_keeps
    | apply State.recClose_keeps

end Sys2Proof.Machine
end

