-- ==== Sys2Proof/Laws/KeepsNetPorts.lean ====
section
/-! SUPPORT. What the functions of Machine/NetPorts.lean keep: the part, the queue, the memories where they store nothing, and the
canonical form of the tables. -/

namespace Sys2Proof.Machine
theorem State.ethTrain_keeps {mm : Bool} {s0 s : State} (hk : Keeps mm s0 s) (k j : Nat) :
    Keeps mm s0 (State.ethTrain s k j) := by
  refine hk.trans ?_; clear hk; unfold State.ethTrain; try dsimp -zeta only [mkS_eq]
  try lift_lets -underBinder
  with_reducible repeat' first
    | assumption
    | exact Keeps.refl _
    | (apply KeepsF.intro; intro s; (try dsimp -zeta only); try lift_lets -underBinder)
    | (intro x; try clear_value x)
    | apply State.beginTraining_keeps
    | apply foldl_keeps
    | lift_lets -underBinder
    | apply Keeps.ite

theorem State.portStat_keeps {mm : Bool} {s0 s : State} (hk : Keeps mm s0 s) (k : Nat) (f : Fld) (v : Bool) :
    Keeps mm s0 (State.portStat s k f v) := by
  refine hk.trans ?_; clear hk; unfold State.portStat; try dsimp -zeta only [mkS_eq]
  try lift_lets -underBinder
  with_reducible repeat' first
    | assumption
    | exact Keeps.refl _
    | (intro x; try clear_value x)
    | apply State.irqIf_keeps
    | apply State.p_keeps

theorem State.portDown_keeps {mm : Bool} {s0 s : State} (hk : Keeps mm s0 s) (k j : Nat) :
    Keeps mm s0 (State.portDown s k j) := by
  refine hk.trans ?_; clear hk; unfold State.portDown; try dsimp -zeta only [mkS_eq]
  try lift_lets -underBinder
  with_reducible repeat' first
    | assumption
    | exact Keeps.refl _
    | (apply KeepsF.intro; intro s; (try dsimp -zeta only); try lift_lets -underBinder)
    | (intro x; refine Keeps.abs (mm := mm) (x := x) (s := s) ?_ (fun hk => ?_); rotate_left; clear_value x; rotate_right; dsimp -zeta only [x]; try clear x)
    | (intro x; try clear_value x)
    | apply State.portStat_keeps
    | apply State.sesToAlt_keeps
    | apply State.ethTrain_keeps
    | apply State.sndSyncAll_keeps
    | apply forN_keeps
    | lift_lets -underBinder
    | apply Keeps.ite

theorem State.portUpNow_keeps {mm : Bool} {s0 s : State} (hk : Keeps mm s0 s) (k j : Nat) :
    Keeps mm s0 (State.portUpNow s k j) := by
  refine hk.trans ?_; clear hk; unfold State.portUpNow; try dsimp -zeta only [mkS_eq]
  try lift_lets -underBinder
  with_reducible repeat' first
    | assumption
    | exact Keeps.refl _
    | (apply KeepsF.intro; intro s; (try dsimp -zeta only); try lift_lets -underBinder)
    | (intro x; refine Keeps.abs (mm := mm) (x := x) (s := s) ?_ (fun hk => ?_); rotate_left; clear_value x; rotate_right; dsimp -zeta only [x]; try clear x)
    | (intro x; try clear_value x)
    | apply State.p_keeps
    | apply State.sesToAlt_keeps
    | apply State.sndSyncAll_keeps
    | apply State.fault_keeps
    | apply State.portStat_keeps
    | apply forN_keeps
    | lift_lets -underBinder
    | apply Keeps.ite

theorem State.portLaneLost_keeps {mm : Bool} {s0 s : State} (hk : Keeps mm s0 s) (n : Nat) :
    Keeps mm s0 (State.portLaneLost s n) := by
  refine hk.trans ?_; clear hk; unfold State.portLaneLost; try dsimp -zeta only [mkS_eq]
  try lift_lets -underBinder
  with_reducible repeat' first
    | assumption
    | exact Keeps.refl _
    | (intro x; try clear_value x)
    | apply State.portDown_keeps
    | apply State.fault_keeps
    | apply upd_keeps
    | exact Fits.refl _
    | lift_lets -underBinder
    | apply Keeps.ite
    | split

theorem State.remoteFault_keeps {mm : Bool} {s0 s : State} (hk : Keeps mm s0 s) (k j : Nat) (on : Bool) :
    Keeps mm s0 (State.remoteFault s k j on) := by
  refine hk.trans ?_; clear hk; unfold State.remoteFault; try dsimp -zeta only [mkS_eq]
  try lift_lets -underBinder
  with_reducible repeat' first
    | assumption
    | exact Keeps.refl _
    | (intro x; refine Keeps.abs (mm := mm) (x := x) (s := s) ?_ (fun hk => ?_); rotate_left; clear_value x; rotate_right; dsimp -zeta only [x]; try clear x)
    | (intro x; try clear_value x)
    | apply State.setEth_keeps
    | apply State.portStat_keeps
    | apply State.portDown_keeps
    | apply upd_keeps
    | exact Fits.refl _
    | lift_lets -underBinder
    | apply Keeps.ite

theorem State.ethEnabled_keeps {mm : Bool} {s0 s : State} (hk : Keeps mm s0 s) (k : Nat) :
    Keeps mm s0 (State.ethEnabled s k) := by
  refine hk.trans ?_; clear hk; unfold State.ethEnabled; try dsimp -zeta only [mkS_eq]
  try lift_lets -underBinder
  with_reducible repeat' first
    | assumption
    | exact Keeps.refl _
    | (intro x; try clear_value x)
    | apply State.ethTrain_keeps

theorem State.ethDisabled_keeps {mm : Bool} {s0 s : State} (hk : Keeps mm s0 s) (k : Nat) :
    Keeps mm s0 (State.ethDisabled s k) := by
  refine hk.trans ?_; clear hk; unfold State.ethDisabled; try dsimp -zeta only [mkS_eq]
  try lift_lets -underBinder
  with_reducible repeat' first
    | assumption
    | exact Keeps.refl _
    | (intro x; try clear_value x)
    | apply State.portDown_keeps

theorem State.tcForward_keeps {mm : Bool} {s0 s : State} (hk : Keeps mm s0 s) (k j : Nat) (f : List Byte) (residence : List Nat) :
    Keeps mm s0 (State.tcForward s k j f residence) := by
  refine hk.trans ?_; clear hk; unfold State.tcForward; try dsimp -zeta only [mkS_eq]
  try lift_lets -underBinder
  with_reducible repeat' first
    | assumption
    | exact Keeps.refl _
    | (apply KeepsF.intro; intro s; (try dsimp -zeta only); try lift_lets -underBinder)
    | (intro x; try clear_value x)
    | apply State.irq_keeps
    | apply State.addSat_keeps
    | apply State.ethSend_keeps
    | apply forN_keeps
    | apply upd_keeps
    | exact Fits.refl _
    | lift_lets -underBinder
    | apply Keeps.ite
    | split

theorem State.hrxStore_keeps {s0 s : State} (hk : Keeps false s0 s) (k j : Nat) (entry : List Byte) :
    Keeps false s0 (State.hrxStore s k j entry) := by
  refine hk.trans ?_; clear hk; unfold State.hrxStore; try dsimp -zeta only [mkS_eq]
  try lift_lets -underBinder
  with_reducible repeat' first
    | assumption
    | exact Keeps.refl _
    | (intro x; try clear_value x)
    | apply State.masterWrite_keeps
    | apply State.irq_keeps
    | apply State.p_keeps
    | apply State.setEth_keeps
    | apply State.addSat_keeps
    | apply upd_keeps
    | exact Fits.refl _
    | (apply Keeps.ofpair (by assumption))
    | (apply Keeps.ofpair1 (by assumption))
    | (apply Keeps.oftriple (by assumption))
    | lift_lets -underBinder
    | apply Keeps.ite
    | split

theorem State.hrxRetry_keeps {s0 s : State} (hk : Keeps false s0 s) (k : Nat) :
    Keeps false s0 (State.hrxRetry s k) := by
  refine hk.trans ?_; clear hk; unfold State.hrxRetry; try dsimp -zeta only [mkS_eq]
  try lift_lets -underBinder
  with_reducible repeat' first
    | assumption
    | exact Keeps.refl _
    | (intro x; try clear_value x)
    | apply State.hrxStore_keeps
    | apply upd_keeps
    | exact Fits.refl _
    | lift_lets -underBinder
    | apply Keeps.ite
    | split

theorem State.hrxFrame_keeps {s0 s : State} (hk : Keeps false s0 s) (k j : Nat) (f : List Byte) :
    Keeps false s0 (State.hrxFrame s k j f) := by
  refine hk.trans ?_; clear hk; unfold State.hrxFrame; try dsimp -zeta only [mkS_eq]
  try lift_lets -underBinder
  with_reducible repeat' first
    | assumption
    | exact Keeps.refl _
    | (intro x; try clear_value x)
    | apply State.hrxRetry_keeps
    | apply State.addSat_keeps
    | apply State.hrxStore_keeps
    | lift_lets -underBinder
    | apply Keeps.ite

theorem State.frameRx_keeps {s0 s : State} (hk : Keeps false s0 s) (k j : Nat) (f : List Byte) (good : Bool) (residence : List Nat) :
    Keeps false s0 (State.frameRx s k j f good residence) := by
  refine hk.trans ?_; clear hk; unfold State.frameRx; try dsimp -zeta only [mkS_eq]
  try lift_lets -underBinder
  with_reducible repeat' first
    | assumption
    | exact Keeps.refl _
    | (intro x; refine Keeps.abs (mm := false) (x := x) (s := s) ?_ (fun hk => ?_); rotate_left; clear_value x; rotate_right; dsimp -zeta only [x]; try clear x)
    | (intro x; try clear_value x)
    | apply State.addSat_keeps
    | apply State.closeAckIn_keeps
    | apply State.ackIn_keeps
    | apply State.openAckIn_keeps
    | apply State.hrxFrame_keeps
    | apply State.tcForward_keeps
    | apply upd_keeps
    | exact Fits.refl _
    | lift_lets -underBinder
    | apply Keeps.ite

theorem State.htxWrite_keeps {mm : Bool} {s0 s : State} (hk : Keeps mm s0 s) (k v : Nat) :
    Keeps mm s0 (State.htxWrite s k v) := by
  refine hk.trans ?_; clear hk; unfold State.htxWrite; try dsimp -zeta only [mkS_eq]
  try lift_lets -underBinder
  with_reducible repeat' first
    | assumption
    | exact Keeps.refl _
    | (intro x; try clear_value x)
    | apply State.refuse4_keeps
    | apply State.p_keeps
    | lift_lets -underBinder
    | apply Keeps.ite

theorem State.htxSend_keeps {s0 s : State} (hk : Keeps false s0 s) (k : Nat) :
    Keeps false s0 (State.htxSend s k) := by
  refine hk.trans ?_; clear hk; unfold State.htxSend; try dsimp -zeta only [mkS_eq]
  try lift_lets -underBinder
  with_reducible repeat' first
    | assumption
    | exact Keeps.refl _
    | (intro x; refine Keeps.abs (mm := false) (x := x) (s := s) ?_ (fun hk => ?_); rotate_left; clear_value x; rotate_right; dsimp -zeta only [x]; try clear x)
    | (intro x; refine KeepsF.abs (mm := false) (x := x) ?_ (fun hk => ?_); rotate_left; clear_value x; rotate_right; dsimp -zeta only [x]; try clear x)
    | (apply KeepsF.intro; intro s; (try dsimp -zeta only); try lift_lets -underBinder)
    | ((apply KeepsF.ap (by assumption)))
    | ((apply KeepsF2.ap (by assumption)))
    | ((apply KeepsF3.ap (by assumption)))
    | (intro x; try clear_value x)
    | apply State.p_keeps
    | apply State.masterRead_keeps
    | apply State.ethSend_keeps
    | apply State.masterWrite_keeps
    | apply State.irq_keeps
    | apply upd_keeps
    | exact Fits.refl _
    | (apply Keeps.ofpair (by assumption))
    | (apply Keeps.ofpair1 (by assumption))
    | (apply Keeps.oftriple (by assumption))
    | lift_lets -underBinder
    | apply Keeps.ite
    | split

theorem execPortUp_keeps {mm : Bool} {s0 s : State} (hk : Keeps mm s0 s) (k : Fin 4) (j : Fin 2) :
    Keeps mm s0 (after s (execPortUp k j s)) := by
  refine hk.trans ?_; clear hk; unfold execPortUp; try dsimp -zeta only [mkS_eq]
  try lift_lets -underBinder
  with_reducible repeat' first
    | assumption
    | exact Keeps.refl _
    | (intro x; try clear_value x)
    | apply after_next_keeps
    | apply State.portUpNow_keeps

theorem execRemoteFault_keeps {mm : Bool} {s0 s : State} (hk : Keeps mm s0 s) (k : Fin 4) (j : Fin 2) :
    Keeps mm s0 (after s (execRemoteFault k j s)) := by
  refine hk.trans ?_; clear hk; unfold execRemoteFault; try dsimp -zeta only [mkS_eq]
  try lift_lets -underBinder
  with_reducible repeat' first
    | assumption
    | exact Keeps.refl _
    | (intro x; try clear_value x)
    | apply after_next_keeps
    | apply State.remoteFault_keeps

theorem execRemoteFaultClear_keeps {mm : Bool} {s0 s : State} (hk : Keeps mm s0 s) (k : Fin 4) (j : Fin 2) :
    Keeps mm s0 (after s (execRemoteFaultClear k j s)) := by
  refine hk.trans ?_; clear hk; unfold execRemoteFaultClear; try dsimp -zeta only [mkS_eq]
  try lift_lets -underBinder
  with_reducible repeat' first
    | assumption
    | exact Keeps.refl _
    | (intro x; try clear_value x)
    | apply after_next_keeps
    | apply State.remoteFault_keeps

theorem execEthFrameRx_keeps {s0 s : State} (hk : Keeps false s0 s) (k : Fin 4) (j : Fin 2) (frame : List Byte) (good : Bool) (residence : List Nat) (corr uncorr : Nat) :
    Keeps false s0 (after s (execEthFrameRx k j frame good residence corr uncorr s)) := by
  refine hk.trans ?_; clear hk; unfold execEthFrameRx; try dsimp -zeta only [mkS_eq]
  try lift_lets -underBinder
  with_reducible repeat' first
    | assumption
    | exact Keeps.refl _
    | (intro x; try clear_value x)
    | apply after_next_keeps
    | apply State.addSat_keeps
    | apply State.frameRx_keeps

theorem execHtxProdWrite_keeps {mm : Bool} {s0 s : State} (hk : Keeps mm s0 s) (k : Fin 4) (value : Word) :
    Keeps mm s0 (after s (execHtxProdWrite k value s)) := by
  refine hk.trans ?_; clear hk; unfold execHtxProdWrite; try dsimp -zeta only [mkS_eq]
  try lift_lets -underBinder
  with_reducible repeat' first
    | assumption
    | exact Keeps.refl _
    | (apply KeepsF.intro; intro s; (try dsimp -zeta only); try lift_lets -underBinder)
    | (intro x; try clear_value x)
    | apply after_next_keeps
    | apply State.hostReg_keeps
    | apply State.htxWrite_keeps

theorem execHtxFrameSent_keeps {s0 s : State} (hk : Keeps false s0 s) (k : Fin 4) :
    Keeps false s0 (after s (execHtxFrameSent k s)) := by
  refine hk.trans ?_; clear hk; unfold execHtxFrameSent; try dsimp -zeta only [mkS_eq]
  try lift_lets -underBinder
  with_reducible repeat' first
    | assumption
    | exact Keeps.refl _
    | (intro x; try clear_value x)
    | apply after_next_keeps
    | apply State.htxSend_keeps

theorem State.searchTold_keeps {s0 s : State} (hk : Keeps false s0 s) (n : Nat) (r : Option Bool) :
    Keeps false s0 (State.searchTold s n r) := by
  refine hk.trans ?_; clear hk; unfold State.searchTold; try dsimp -zeta only [mkS_eq]
  try lift_lets -underBinder
  with_reducible repeat' first
    | assumption
    | exact Keeps.refl _
    | (intro x; try clear_value x)
    | apply State.searchEnd_keeps
    | apply upd_keeps
    | exact Fits.refl _
    | lift_lets -underBinder
    | apply Keeps.ite
    | split

theorem State.attemptFailed_keeps {s0 s : State} (hk : Keeps false s0 s) (n : Nat) :
    Keeps false s0 (State.attemptFailed s n) := by
  refine hk.trans ?_; clear hk; unfold State.attemptFailed; try dsimp -zeta only [mkS_eq]
  try lift_lets -underBinder
  with_reducible repeat' first
    | assumption
    | exact Keeps.refl _
    | (intro x; refine Keeps.abs (mm := false) (x := x.1) (s := s) ?_ (fun hk => ?_); rotate_left; clear_value x; rotate_right; dsimp -zeta only [x]; try clear x)
    | (intro x; try clear_value x)
    | apply State.attemptFail_keeps
    | apply State.searchTold_keeps

theorem State.ethLaneLost_keeps {mm : Bool} {s0 s : State} (hk : Keeps mm s0 s) (n detail : Nat) :
    Keeps mm s0 (State.ethLaneLost s n detail) := by
  refine hk.trans ?_; clear hk; unfold State.ethLaneLost; try dsimp -zeta only [mkS_eq]
  try lift_lets -underBinder
  with_reducible repeat' first
    | assumption
    | exact Keeps.refl _
    | (apply KeepsF.intro; intro s; (try dsimp -zeta only); try lift_lets -underBinder)
    | (intro x; try clear_value x)
    | apply State.portLaneLost_keeps
    | apply State.report_keeps
    | apply upd_keeps
    | exact Fits.refl _
    | lift_lets -underBinder
    | apply Keeps.ite
    | split

theorem State.detected_keeps {s0 s : State} (hk : Keeps false s0 s) (n : Nat) (lol settling : Bool) :
    Keeps false s0 (State.detected s n lol settling) := by
  refine hk.trans ?_; clear hk; unfold State.detected; try dsimp -zeta only [mkS_eq]
  try lift_lets -underBinder
  with_reducible repeat' first
    | assumption
    | exact Keeps.refl _
    | (intro x; try clear_value x)
    | apply State.detect_keeps
    | apply State.attemptFailed_keeps
    | apply State.laneLost_keeps
    | apply State.ethLaneLost_keeps
    | apply upd_keeps
    | exact Fits.refl _
    | (apply Keeps.ofpair (by assumption))
    | (apply Keeps.ofpair1 (by assumption))
    | (apply Keeps.oftriple (by assumption))
    | lift_lets -underBinder
    | apply Keeps.ite
    | split

theorem execLosAssert_keeps {s0 s : State} (hk : Keeps false s0 s) (lane : Fin 96) (settling : Bool) :
    Keeps false s0 (after s (execLosAssert lane settling s)) := by
  refine hk.trans ?_; clear hk; unfold execLosAssert; try dsimp -zeta only [mkS_eq]
  try lift_lets -underBinder
  with_reducible repeat' first
    | assumption
    | exact Keeps.refl _
    | (intro x; try clear_value x)
    | apply after_next_keeps
    | apply State.detected_keeps

theorem execLolAssert_keeps {s0 s : State} (hk : Keeps false s0 s) (lane : Fin 96) (settling : Bool) :
    Keeps false s0 (after s (execLolAssert lane settling s)) := by
  refine hk.trans ?_; clear hk; unfold execLolAssert; try dsimp -zeta only [mkS_eq]
  try lift_lets -underBinder
  with_reducible repeat' first
    | assumption
    | exact Keeps.refl _
    | (intro x; try clear_value x)
    | apply after_next_keeps
    | apply State.detected_keeps

theorem execPresetAttemptEnd_keeps {s0 s : State} (hk : Keeps false s0 s) (lane : Fin 96) (errors : Bool) (height width : Byte) :
    Keeps false s0 (after s (execPresetAttemptEnd lane errors height width s)) := by
  refine hk.trans ?_; clear hk; unfold execPresetAttemptEnd; try dsimp -zeta only [mkS_eq]
  try lift_lets -underBinder
  with_reducible repeat' first
    | assumption
    | exact Keeps.refl _
    | (intro x; refine Keeps.abs (mm := false) (x := x.1) (s := s) ?_ (fun hk => ?_); rotate_left; clear_value x; rotate_right; dsimp -zeta only [x]; try clear x)
    | (intro x; try clear_value x)
    | apply after_next_keeps
    | apply State.attemptEnd_keeps
    | apply State.searchTold_keeps

theorem execEthLaneTrainingEnd_keeps {mm : Bool} {s0 s : State} (hk : Keeps mm s0 s) (lane : Fin 96) (pass : Bool) :
    Keeps mm s0 (after s (execEthLaneTrainingEnd lane pass s)) := by
  refine hk.trans ?_; clear hk; unfold execEthLaneTrainingEnd; try dsimp -zeta only [mkS_eq]
  try lift_lets -underBinder
  with_reducible repeat' first
    | assumption
    | exact Keeps.refl _
    | (intro x; refine Keeps.abs (mm := mm) (x := x) (s := s) ?_ (fun hk => ?_); rotate_left; clear_value x; rotate_right; dsimp -zeta only [x]; try clear x)
    | (intro x; try clear_value x)
    | apply after_next_keeps
    | apply State.trainPass_keeps
    | apply State.trainFail_keeps
    | apply State.beginTraining_keeps
    | apply State.fault_keeps
    | apply upd_keeps
    | exact Fits.refl _
    | lift_lets -underBinder
    | apply Keeps.ite
    | split

theorem execEthFecFailure_keeps {mm : Bool} {s0 s : State} (hk : Keeps mm s0 s) (lane : Fin 96) (uncorr : Nat) :
    Keeps mm s0 (after s (execEthFecFailure lane uncorr s)) := by
  refine hk.trans ?_; clear hk; unfold execEthFecFailure; try dsimp -zeta only [mkS_eq]
  try lift_lets -underBinder
  with_reducible repeat' first
    | assumption
    | exact Keeps.refl _
    | (intro x; try clear_value x)
    | apply after_next_keeps
    | apply State.ethLaneLost_keeps
    | apply State.addSat_keeps
    | apply upd_keeps
    | exact Fits.refl _
    | lift_lets -underBinder
    | apply Keeps.ite
    | split

theorem State.quadStops_keeps {s0 s : State} (hk : Keeps false s0 s) (q : Nat) :
    Keeps false s0 (State.quadStops s q) := by
  refine hk.trans ?_; clear hk; unfold State.quadStops; try dsimp -zeta only [mkS_eq]
  try lift_lets -underBinder
  with_reducible repeat' first
    | assumption
    | exact Keeps.refl _
    | (apply KeepsF.intro; intro s; (try dsimp -zeta only); try lift_lets -underBinder)
    | (intro x; try clear_value x)
    | apply State.detected_keeps
    | apply forN_keeps

theorem execPllLockLoss_keeps {s0 s : State} (hk : Keeps false s0 s) (q : Fin 24) (pllB : Bool) :
    Keeps false s0 (after s (execPllLockLoss q pllB s)) := by
  refine hk.trans ?_; clear hk; unfold execPllLockLoss; try dsimp -zeta only [mkS_eq]
  try lift_lets -underBinder
  with_reducible repeat' first
    | assumption
    | exact Keeps.refl _
    | (intro x; refine Keeps.abs (mm := false) (x := x) (s := s) ?_ (fun hk => ?_); rotate_left; clear_value x; rotate_right; dsimp -zeta only [x]; try clear x)
    | (intro x; try clear_value x)
    | apply after_next_keeps
    | apply State.setQuad_keeps
    | apply State.p_keeps
    | apply State.irq_keeps
    | apply State.quadStops_keeps
    | apply upd_keeps
    | exact Fits.refl _
    | lift_lets -underBinder
    | apply Keeps.ite

theorem execPllRelockEnd_keeps {mm : Bool} {s0 s : State} (hk : Keeps mm s0 s) (q : Fin 24) (pllB locked : Bool) :
    Keeps mm s0 (after s (execPllRelockEnd q pllB locked s)) := by
  refine hk.trans ?_; clear hk; unfold execPllRelockEnd; try dsimp -zeta only [mkS_eq]
  try lift_lets -underBinder
  with_reducible repeat' first
    | assumption
    | exact Keeps.refl _
    | (apply KeepsF.intro; intro s; (try dsimp -zeta only); try lift_lets -underBinder)
    | (intro x; refine Keeps.abs (mm := mm) (x := x) (s := s) ?_ (fun hk => ?_); rotate_left; clear_value x; rotate_right; dsimp -zeta only [x]; try clear x)
    | (intro x; try clear_value x)
    | apply after_next_keeps
    | apply State.setQuad_keeps
    | apply State.p_keeps
    | apply State.fault_keeps
    | apply State.report_keeps
    | apply upd_keeps
    | exact Fits.refl _
    | lift_lets -underBinder
    | apply Keeps.ite

end Sys2Proof.Machine
end

