-- ==== Sys2Proof/Laws/KeepsCodec.lean ====
section
/-! SUPPORT. What the functions of Machine/Codec.lean keep: the part, the queue, the memories where they store nothing, and the
canonical form of the tables. -/

namespace Sys2Proof.Machine
theorem State.setCx_keeps {mm : Bool} {s0 s : State} (hk : Keeps mm s0 s) (c : Nat) (f : CodCtx → CodCtx) :
    Keeps mm s0 (State.setCx s c f) := by
  refine hk.trans ?_; clear hk; unfold State.setCx; try dsimp -zeta only [mkS_eq]
  try lift_lets -underBinder
  with_reducible repeat' first
    | assumption
    | exact Keeps.refl _
    | (intro x; try clear_value x)
    | apply upd_keeps
    | exact Fits.refl _

theorem State.setJob_keeps {mm : Bool} {s0 s : State} (hk : Keeps mm s0 s) (c seq : Nat) (f : CodJob → CodJob) :
    Keeps mm s0 (State.setJob s c seq f) := by
  refine hk.trans ?_; clear hk; unfold State.setJob; try dsimp -zeta only [mkS_eq]
  try lift_lets -underBinder
  with_reducible repeat' first
    | assumption
    | exact Keeps.refl _
    | (intro x; try clear_value x)
    | apply State.setCx_keeps

theorem State.cxSync_keeps {mm : Bool} {s0 s : State} (hk : Keeps mm s0 s) (c : Nat) :
    Keeps mm s0 (State.cxSync s c) := by
  refine hk.trans ?_; clear hk; unfold State.cxSync; try dsimp -zeta only [mkS_eq]
  try lift_lets -underBinder
  with_reducible repeat' first
    | assumption
    | exact Keeps.refl _
    | (intro x; refine Keeps.abs (mm := mm) (x := x) (s := s) ?_ (fun hk => ?_); rotate_left; clear_value x; rotate_right; dsimp -zeta only [x]; try clear x)
    | (intro x; try clear_value x)
    | apply State.p_keeps

theorem State.ctxModeWrite_keeps {s0 s : State} (hk : Keeps false s0 s) (c v : Nat) :
    Keeps false s0 (State.ctxModeWrite s c v) := by
  refine hk.trans ?_; clear hk; unfold State.ctxModeWrite; try dsimp -zeta only [mkS_eq]
  try lift_lets -underBinder
  with_reducible repeat' first
    | assumption
    | exact Keeps.refl _
    | (intro x; refine Keeps.abs (mm := false) (x := x) (s := s) ?_ (fun hk => ?_); rotate_left; clear_value x; rotate_right; dsimp -zeta only [x]; try clear x)
    | (intro x; try clear_value x)
    | apply State.refuse4_keeps
    | apply State.plainWrite_keeps
    | apply State.cxSync_keeps
    | apply State.p_keeps
    | apply State.setCx_keeps
    | apply State.hbmSpan_keeps
    | apply upd_keeps
    | exact Fits.refl _
    | lift_lets -underBinder
    | apply Keeps.ite
    | split

theorem State.submitDecide_keeps {s0 s : State} (hk : Keeps false s0 s) (c : Nat) :
    Keeps false s0 (State.submitDecide s c) := by
  refine hk.trans ?_; clear hk; unfold State.submitDecide; try dsimp -zeta only [mkS_eq]
  try lift_lets -underBinder
  with_reducible repeat' first
    | assumption
    | exact Keeps.refl _
    | (intro x; refine Keeps.abs (mm := false) (x := x) (s := s) ?_ (fun hk => ?_); rotate_left; clear_value x; rotate_right; dsimp -zeta only [x]; try clear x)
    | (intro x; try clear_value x)
    | apply State.masterRead_keeps
    | apply State.p_keeps
    | apply State.irq_keeps
    | apply State.setCx_keeps
    | apply State.cxSync_keeps
    | apply upd_keeps
    | exact Fits.refl _
    | (apply Keeps.ofpair (by assumption))
    | (apply Keeps.ofpair1 (by assumption))
    | (apply Keeps.oftriple (by assumption))
    | lift_lets -underBinder
    | apply Keeps.ite
    | split

theorem State.ctxSubmit_keeps {s0 s : State} (hk : Keeps false s0 s) (c v : Nat) :
    Keeps false s0 (State.ctxSubmit s c v) := by
  refine hk.trans ?_; clear hk; unfold State.ctxSubmit; try dsimp -zeta only [mkS_eq]
  try lift_lets -underBinder
  with_reducible repeat' first
    | assumption
    | exact Keeps.refl _
    | (intro x; try clear_value x)
    | apply State.refuse4_keeps
    | apply State.submitDecide_keeps
    | apply State.p_keeps
    | lift_lets -underBinder
    | apply Keeps.ite

theorem State.enginesLeave_keeps {mm : Bool} {s0 s : State} (hk : Keeps mm s0 s) (c : Nat) :
    Keeps mm s0 (State.enginesLeave s c) := by
  refine hk.trans ?_; clear hk; unfold State.enginesLeave; try dsimp -zeta only [mkS_eq]
  try lift_lets -underBinder
  with_reducible repeat' first
    | assumption
    | exact Keeps.refl _
    | (apply KeepsF.intro; intro s; (try dsimp -zeta only); try lift_lets -underBinder)
    | (intro x; refine Keeps.abs (mm := mm) (x := x) (s := s) ?_ (fun hk => ?_); rotate_left; clear_value x; rotate_right; dsimp -zeta only [x]; try clear x)
    | (intro x; try clear_value x)
    | apply State.workEnds_keeps
    | apply State.p_keeps
    | apply foldl_keeps
    | apply upd_keeps
    | exact Fits.refl _
    | lift_lets -underBinder
    | apply Keeps.ite

theorem State.pbSpan_keeps {s0 s : State} (hk : Keeps false s0 s) (c k : Nat) :
    Keeps false s0 (State.pbSpan s c k) := by
  refine hk.trans ?_; clear hk; unfold State.pbSpan; try dsimp -zeta only [mkS_eq]
  try lift_lets -underBinder
  with_reducible repeat' first
    | assumption
    | exact Keeps.refl _
    | (intro x; try clear_value x)
    | apply State.hbmSpan_keeps
    | lift_lets -underBinder
    | apply Keeps.ite

theorem State.codDecide_keeps {s0 s : State} (hk : Keeps false s0 s) (c : Nat) (j : CodJob) (outcome detail : Nat) :
    Keeps false s0 (State.codDecide s c j outcome detail) := by
  refine hk.trans ?_; clear hk; unfold State.codDecide; try dsimp -zeta only [mkS_eq]
  try lift_lets -underBinder
  with_reducible repeat' first
    | assumption
    | exact Keeps.refl _
    | (apply KeepsF.intro; intro s; (try dsimp -zeta only); try lift_lets -underBinder)
    | (intro x; refine Keeps.abs (mm := false) (x := x) (s := s) ?_ (fun hk => ?_); rotate_left; clear_value x; rotate_right; dsimp -zeta only [x]; try clear x)
    | (intro x; try clear_value x)
    | apply State.enginesLeave_keeps
    | apply State.setJob_keeps
    | apply State.pbSpan_keeps
    | apply State.setCx_keeps
    | apply State.irq_keeps
    | apply State.addSat_keeps
    | apply State.cxSync_keeps
    | apply foldl_keeps
    | apply upd_keeps
    | exact Fits.refl _
    | lift_lets -underBinder
    | apply Keeps.ite

theorem State.codPost_keeps {s0 s : State} (hk : Keeps false s0 s) (c : Nat) :
    Keeps false s0 (State.codPost s c) := by
  refine hk.trans ?_; clear hk; unfold State.codPost; try dsimp -zeta only [mkS_eq]
  try lift_lets -underBinder
  with_reducible repeat' first
    | assumption
    | exact Keeps.refl _
    | (intro x; try clear_value x)
    | apply State.masterWrite_keeps
    | apply State.p_keeps
    | apply State.setCx_keeps
    | apply State.irqIf_keeps
    | apply State.pBit_keeps
    | apply State.cxSync_keeps
    | apply upd_keeps
    | exact Fits.refl _
    | (apply Keeps.ofpair (by assumption))
    | (apply Keeps.ofpair1 (by assumption))
    | (apply Keeps.oftriple (by assumption))
    | lift_lets -underBinder
    | apply Keeps.ite
    | split

theorem State.readLines_keeps {s0 s : State} (hk : Keeps false s0 s) (e asid : Nat) (j : CodJob) (l : List (Bool × Nat)) :
    Keeps false s0 (State.readLines s e asid j l).2.2 := by
  induction l generalizing s0 s  with
  | nil =>
    rw [State.readLines.eq_1]; refine hk.trans ?_; clear hk; try dsimp -zeta only [mkS_eq]
    try lift_lets -underBinder
    with_reducible repeat' first
      | assumption
      | exact Keeps.refl _
  | cons a l ih =>
    rw [State.readLines.eq_2]; refine hk.trans ?_; clear hk; try dsimp -zeta only [mkS_eq]
    try lift_lets -underBinder
    with_reducible repeat' first
      | assumption
      | exact Keeps.refl _
      | with_reducible apply ih
      | (intro x; try clear_value x)
      | apply State.masterRead_keeps
      | apply upd_keeps
      | exact Fits.refl _
      | (apply Keeps.ofpair (by assumption))
      | (apply Keeps.ofpair1 (by assumption))
      | (apply Keeps.oftriple (by assumption))
      | lift_lets -underBinder
      | apply Keeps.ite
      | split

theorem State.codTake_keeps {mm : Bool} {s0 s : State} (hk : Keeps mm s0 s) (e : Nat) :
    Keeps mm s0 (State.codTake s e) := by
  refine hk.trans ?_; clear hk; unfold State.codTake; try dsimp -zeta only [mkS_eq]
  try lift_lets -underBinder
  with_reducible repeat' first
    | assumption
    | exact Keeps.refl _
    | (intro x; refine Keeps.abs (mm := mm) (x := x) (s := s) ?_ (fun hk => ?_); rotate_left; clear_value x; rotate_right; dsimp -zeta only [x]; try clear x)
    | (intro x; try clear_value x)
    | apply State.count_keeps
    | apply State.addSat_keeps
    | apply State.setJob_keeps
    | apply State.setCx_keeps
    | apply State.p_keeps
    | apply State.cxSync_keeps
    | apply State.setBusy_keeps
    | apply State.workEnds_keeps
    | apply upd_keeps
    | exact Fits.refl _
    | lift_lets -underBinder
    | apply Keeps.ite
    | split

theorem State.srcFailures_keeps {s0 s : State} (hk : Keeps false s0 s) :
    Keeps false s0 (State.srcFailures s) := by
  refine hk.trans ?_; clear hk; unfold State.srcFailures; try dsimp -zeta only [mkS_eq]
  try lift_lets -underBinder
  with_reducible repeat' first
    | assumption
    | exact Keeps.refl _
    | (apply KeepsF.intro; intro s; (try dsimp -zeta only); try lift_lets -underBinder)
    | (intro x; try clear_value x)
    | apply State.codDecide_keeps
    | apply foldl_keeps
    | apply upd_keeps
    | exact Fits.refl _
    | lift_lets -underBinder
    | apply Keeps.ite
    | split

theorem State.codKick_keeps {s0 s : State} (hk : Keeps false s0 s) :
    Keeps false s0 (State.codKick s) := by
  refine hk.trans ?_; clear hk; unfold State.codKick; try dsimp -zeta only [mkS_eq]
  try lift_lets -underBinder
  with_reducible repeat' first
    | assumption
    | exact Keeps.refl _
    | (apply KeepsF.intro; intro s; (try dsimp -zeta only); try lift_lets -underBinder)
    | (intro x; refine Keeps.abs (mm := false) (x := x) (s := s) ?_ (fun hk => ?_); rotate_left; clear_value x; rotate_right; dsimp -zeta only [x]; try clear x)
    | (intro x; try clear_value x)
    | apply State.srcFailures_keeps
    | apply State.codTake_keeps
    | apply foldl_keeps
    | lift_lets -underBinder
    | apply Keeps.ite

theorem State.codShedSync_keeps {s0 s : State} (hk : Keeps false s0 s) :
    Keeps false s0 (State.codShedSync s) := by
  refine hk.trans ?_; clear hk; unfold State.codShedSync; try dsimp -zeta only [mkS_eq]
  try lift_lets -underBinder
  with_reducible repeat' first
    | assumption
    | exact Keeps.refl _
    | (apply KeepsF.intro; intro s; (try dsimp -zeta only); try lift_lets -underBinder)
    | (intro x; refine Keeps.abs (mm := false) (x := x) (s := s) ?_ (fun hk => ?_); rotate_left; clear_value x; rotate_right; dsimp -zeta only [x]; try clear x)
    | (intro x; try clear_value x)
    | apply State.irq_keeps
    | apply State.p_keeps
    | apply State.codKick_keeps
    | apply foldl_keeps
    | lift_lets -underBinder
    | apply Keeps.ite

theorem State.encStart_keeps {s0 s : State} (hk : Keeps false s0 s) (c : Nat) (j : CodJob) (hdr sliceBits : Nat) :
    Keeps false s0 (State.encStart s c j hdr sliceBits) := by
  refine hk.trans ?_; clear hk; unfold State.encStart; try dsimp -zeta only [mkS_eq]
  try lift_lets -underBinder
  with_reducible repeat' first
    | assumption
    | exact Keeps.refl _
    | (intro x; refine Keeps.abs (mm := false) (x := x) (s := s) ?_ (fun hk => ?_); rotate_left; clear_value x; rotate_right; dsimp -zeta only [x]; try clear x)
    | (intro x; try clear_value x)
    | apply State.codDecide_keeps
    | apply State.setCx_keeps
    | apply State.codKick_keeps
    | apply State.setJob_keeps
    | apply upd_keeps
    | exact Fits.refl _
    | lift_lets -underBinder
    | apply Keeps.ite

theorem State.encRow_keeps {mm : Bool} {s0 s : State} (hk : Keeps mm s0 s) (c : Nat) (j : CodJob) (trial recode : Nat) (samples : List Nat) :
    Keeps mm s0 (State.encRow s c j trial recode samples) := by
  refine hk.trans ?_; clear hk; unfold State.encRow; try dsimp -zeta only [mkS_eq]
  try lift_lets -underBinder
  with_reducible repeat' first
    | assumption
    | exact Keeps.refl _
    | (intro x; refine Keeps.abs (mm := mm) (x := x) (s := s) ?_ (fun hk => ?_); rotate_left; clear_value x; rotate_right; dsimp -zeta only [x]; try clear x)
    | (intro x; try clear_value x)
    | apply State.setJob_keeps
    | apply upd_keeps
    | exact Fits.refl _

theorem State.entRow_keeps {mm : Bool} {s0 s : State} (hk : Keeps mm s0 s) (c : Nat) (j : CodJob) (bits : Nat) :
    Keeps mm s0 (State.entRow s c j bits) := by
  refine hk.trans ?_; clear hk; unfold State.entRow; try dsimp -zeta only [mkS_eq]
  try lift_lets -underBinder
  with_reducible repeat' first
    | assumption
    | exact Keeps.refl _
    | (intro x; try clear_value x)
    | apply State.setJob_keeps

theorem State.codAccess_keeps {s0 s : State} (hk : Keeps false s0 s) (c : Nat) (j : CodJob) (a : Access) :
    Keeps false s0 (State.codAccess s c j a) := by
  refine hk.trans ?_; clear hk; unfold State.codAccess; try dsimp -zeta only [mkS_eq]
  try lift_lets -underBinder
  with_reducible repeat' first
    | assumption
    | exact Keeps.refl _
    | (apply KeepsF.intro; intro s; (try dsimp -zeta only); try lift_lets -underBinder)
    | (intro x; try clear_value x)
    | apply State.cxSync_keeps
    | apply State.setJob_keeps
    | apply State.enginesLeave_keeps
    | apply State.codDecide_keeps
    | apply State.fault_keeps
    | apply foldl_keeps
    | apply upd_keeps
    | exact Fits.refl _
    | lift_lets -underBinder
    | apply Keeps.ite
    | split

theorem State.encPixelRow_keeps {s0 s : State} (hk : Keeps false s0 s) (e c : Nat) (j : CodJob) (trial recode : Nat) :
    Keeps false s0 (State.encPixelRow s e c j trial recode) := by
  refine hk.trans ?_; clear hk; unfold State.encPixelRow; try dsimp -zeta only [mkS_eq]
  try lift_lets -underBinder
  with_reducible repeat' first
    | assumption
    | exact Keeps.refl _
    | (intro x; try clear_value x)
    | apply State.readLines_keeps
    | apply State.encRow_keeps
    | apply State.codAccess_keeps
    | apply upd_keeps
    | exact Fits.refl _
    | (apply Keeps.ofpair (by assumption))
    | (apply Keeps.ofpair1 (by assumption))
    | (apply Keeps.oftriple (by assumption))
    | lift_lets -underBinder
    | apply Keeps.ite
    | split

theorem State.decStart_keeps {s0 s : State} (hk : Keeps false s0 s) (c : Nat) (j : CodJob) (u : DecUnit) :
    Keeps false s0 (State.decStart s c j u) := by
  refine hk.trans ?_; clear hk; unfold State.decStart; try dsimp -zeta only [mkS_eq]
  try lift_lets -underBinder
  with_reducible repeat' first
    | assumption
    | exact Keeps.refl _
    | (intro x; refine Keeps.abs (mm := false) (x := x) (s := s) ?_ (fun hk => ?_); rotate_left; clear_value x; rotate_right; dsimp -zeta only [x]; try clear x)
    | (intro x; try clear_value x)
    | apply State.masterRead_keeps
    | apply State.setJob_keeps
    | apply State.codDecide_keeps
    | apply State.addSat_keeps
    | apply State.codKick_keeps
    | apply State.codAccess_keeps
    | apply upd_keeps
    | exact Fits.refl _
    | (apply Keeps.ofpair (by assumption))
    | (apply Keeps.ofpair1 (by assumption))
    | (apply Keeps.oftriple (by assumption))
    | lift_lets -underBinder
    | apply Keeps.ite
    | split

theorem State.abortDecideCtx_keeps {s0 s : State} (hk : Keeps false s0 s) (c seq : Nat) :
    Keeps false s0 (State.abortDecideCtx s c seq) := by
  refine hk.trans ?_; clear hk; unfold State.abortDecideCtx; try dsimp -zeta only [mkS_eq]
  try lift_lets -underBinder
  with_reducible repeat' first
    | assumption
    | exact Keeps.refl _
    | (apply KeepsF.intro; intro s; (try dsimp -zeta only); try lift_lets -underBinder)
    | (intro x; refine Keeps.abs (mm := false) (x := x) (s := s) ?_ (fun hk => ?_); rotate_left; clear_value x; rotate_right; dsimp -zeta only [x]; try clear x)
    | (intro x; try clear_value x)
    | apply State.codDecide_keeps
    | apply State.p_keeps
    | apply State.codKick_keeps
    | apply State.cxSync_keeps
    | apply State.irq_keeps
    | apply State.setCx_keeps
    | apply foldl_keeps

theorem State.abortDue_keeps {s0 s : State} (hk : Keeps false s0 s) (c : Nat) :
    Keeps false s0 (State.abortDue s c) := by
  refine hk.trans ?_; clear hk; unfold State.abortDue; try dsimp -zeta only [mkS_eq]
  try lift_lets -underBinder
  with_reducible repeat' first
    | assumption
    | exact Keeps.refl _
    | (intro x; try clear_value x)
    | apply State.abortDecideCtx_keeps
    | apply upd_keeps
    | exact Fits.refl _
    | lift_lets -underBinder
    | apply Keeps.ite
    | split

theorem State.ctxAbort_keeps {s0 s : State} (hk : Keeps false s0 s) (c v : Nat) :
    Keeps false s0 (State.ctxAbort s c v) := by
  refine hk.trans ?_; clear hk; unfold State.ctxAbort; try dsimp -zeta only [mkS_eq]
  try lift_lets -underBinder
  with_reducible repeat' first
    | assumption
    | exact Keeps.refl _
    | (intro x; try clear_value x)
    | apply State.refuse4_keeps
    | apply State.p_keeps
    | apply State.setCx_keeps
    | apply State.abortDecideCtx_keeps
    | apply upd_keeps
    | exact Fits.refl _
    | lift_lets -underBinder
    | apply Keeps.ite

theorem State.codRowEnd_keeps {s0 s : State} (hk : Keeps false s0 s) (e trial recode : Nat) :
    Keeps false s0 (State.codRowEnd s e trial recode) := by
  refine hk.trans ?_; clear hk; unfold State.codRowEnd; try dsimp -zeta only [mkS_eq]
  try lift_lets -underBinder
  with_reducible repeat' first
    | assumption
    | exact Keeps.refl _
    | (intro x; refine Keeps.abs (mm := false) (x := x) (s := s) ?_ (fun hk => ?_); rotate_left; clear_value x; rotate_right; dsimp -zeta only [x]; try clear x)
    | (intro x; try clear_value x)
    | apply State.codTake_keeps
    | apply State.encPixelRow_keeps
    | apply State.entRow_keeps
    | apply State.setJob_keeps
    | apply State.abortDue_keeps
    | apply State.freeCount_keeps
    | apply State.count_keeps
    | apply State.addSat_keeps
    | apply State.irq_keeps
    | apply State.p_keeps
    | apply State.codKick_keeps
    | apply upd_keeps
    | exact Fits.refl _
    | lift_lets -underBinder
    | apply Keeps.ite
    | split

theorem State.codJobEnd_keeps {s0 s : State} (hk : Keeps false s0 s) (c : Nat) :
    Keeps false s0 (State.codJobEnd s c) := by
  refine hk.trans ?_; clear hk; unfold State.codJobEnd; try dsimp -zeta only [mkS_eq]
  try lift_lets -underBinder
  with_reducible repeat' first
    | assumption
    | exact Keeps.refl _
    | (intro x; refine Keeps.abs (mm := false) (x := x) (s := s) ?_ (fun hk => ?_); rotate_left; clear_value x; rotate_right; dsimp -zeta only [x]; try clear x)
    | (intro x; try clear_value x)
    | apply State.masterWrite_keeps
    | apply State.setJob_keeps
    | apply State.codDecide_keeps
    | apply State.codAccess_keeps
    | apply State.codKick_keeps
    | apply State.codPost_keeps
    | apply upd_keeps
    | exact Fits.refl _
    | (apply Keeps.ofpair (by assumption))
    | (apply Keeps.ofpair1 (by assumption))
    | (apply Keeps.oftriple (by assumption))
    | lift_lets -underBinder
    | apply Keeps.ite
    | split

theorem State.sourceTimeout_keeps {s0 s : State} (hk : Keeps false s0 s) (c : Nat) :
    Keeps false s0 (State.sourceTimeout s c) := by
  refine hk.trans ?_; clear hk; unfold State.sourceTimeout; try dsimp -zeta only [mkS_eq]
  try lift_lets -underBinder
  with_reducible repeat' first
    | assumption
    | exact Keeps.refl _
    | (intro x; try clear_value x)
    | apply State.codKick_keeps
    | apply State.codDecide_keeps
    | apply upd_keeps
    | exact Fits.refl _
    | lift_lets -underBinder
    | apply Keeps.ite
    | split

theorem State.pbRet_keeps {mm : Bool} {s0 s : State} (hk : Keeps mm s0 s) (c v : Nat) :
    Keeps mm s0 (State.pbRet s c v) := by
  refine hk.trans ?_; clear hk; unfold State.pbRet; try dsimp -zeta only [mkS_eq]
  try lift_lets -underBinder
  with_reducible repeat' first
    | assumption
    | exact Keeps.refl _
    | (intro x; try clear_value x)
    | apply State.cxSync_keeps
    | apply State.setCx_keeps

theorem State.codPause_keeps {s0 s : State} (hk : Keeps false s0 s) (e cause : Nat) :
    Keeps false s0 (State.codPause s e cause) := by
  refine hk.trans ?_; clear hk; unfold State.codPause; try dsimp -zeta only [mkS_eq]
  try lift_lets -underBinder
  with_reducible repeat' first
    | assumption
    | exact Keeps.refl _
    | (intro x; try clear_value x)
    | apply State.irq_keeps
    | apply State.addSat_keeps
    | apply State.codKick_keeps
    | apply State.codDecide_keeps
    | apply State.fault_keeps
    | apply State.setJob_keeps
    | apply State.p_keeps
    | apply State.cxSync_keeps
    | apply State.abortDue_keeps
    | apply State.workEnds_keeps
    | apply upd_keeps
    | exact Fits.refl _
    | lift_lets -underBinder
    | apply Keeps.ite
    | split

theorem State.codResume_keeps {s0 s : State} (hk : Keeps false s0 s) :
    Keeps false s0 (State.codResume s) := by
  refine hk.trans ?_; clear hk; unfold State.codResume; try dsimp -zeta only [mkS_eq]
  try lift_lets -underBinder
  with_reducible repeat' first
    | assumption
    | exact Keeps.refl _
    | (apply KeepsF.intro; intro s; (try dsimp -zeta only); try lift_lets -underBinder)
    | (intro x; refine Keeps.abs (mm := false) (x := x) (s := s) ?_ (fun hk => ?_); rotate_left; clear_value x; rotate_right; dsimp -zeta only [x]; try clear x)
    | (intro x; try clear_value x)
    | apply State.cxSync_keeps
    | apply State.setCx_keeps
    | apply State.submitDecide_keeps
    | apply State.codKick_keeps
    | apply foldl_keeps
    | apply upd_keeps
    | exact Fits.refl _
    | lift_lets -underBinder
    | apply Keeps.ite

theorem State.codWarm_keeps {mm : Bool} {s0 s : State} (hk : Keeps mm s0 s) :
    Keeps mm s0 (State.codWarm s) := by
  refine hk.trans ?_; clear hk; unfold State.codWarm; try dsimp -zeta only [mkS_eq]
  try lift_lets -underBinder
  with_reducible repeat' first
    | assumption
    | exact Keeps.refl _
    | (intro x; try clear_value x)
    | apply upd_keeps
    | exact Fits.refl _

theorem State.codFlr_keeps {s0 s : State} (hk : Keeps false s0 s) :
    Keeps false s0 (State.codFlr s) := by
  refine hk.trans ?_; clear hk; unfold State.codFlr; try dsimp -zeta only [mkS_eq]
  try lift_lets -underBinder
  with_reducible repeat' first
    | assumption
    | exact Keeps.refl _
    | (apply KeepsF.intro; intro s; (try dsimp -zeta only); try lift_lets -underBinder)
    | (intro x; refine Keeps.abs (mm := false) (x := x) (s := s) ?_ (fun hk => ?_); rotate_left; clear_value x; rotate_right; dsimp -zeta only [x]; try clear x)
    | (intro x; try clear_value x)
    | apply State.codDecide_keeps
    | apply State.setCx_keeps
    | apply foldl_keeps

theorem State.codCold_keeps {mm : Bool} {s0 s : State} (hk : Keeps mm s0 s) (kept : Bool) :
    Keeps mm s0 (State.codCold s kept) := by
  refine hk.trans ?_; clear hk; unfold State.codCold; try dsimp -zeta only [mkS_eq]
  try lift_lets -underBinder
  with_reducible repeat' first
    | assumption
    | exact Keeps.refl _
    | (intro x; try clear_value x)
    | apply upd_keeps
    | exact Fits.refl _

theorem execCtxModeWrite_keeps {s0 s : State} (hk : Keeps false s0 s) (c : Fin 64) (value : Word) :
    Keeps false s0 (after s (execCtxModeWrite c value s)) := by
  refine hk.trans ?_; clear hk; unfold execCtxModeWrite; try dsimp -zeta only [mkS_eq]
  try lift_lets -underBinder
  with_reducible repeat' first
    | assumption
    | exact Keeps.refl _
    | (apply KeepsF.intro; intro s; (try dsimp -zeta only); try lift_lets -underBinder)
    | (intro x; try clear_value x)
    | apply after_next_keeps
    | apply State.hostReg_keeps
    | apply State.ctxModeWrite_keeps

theorem execCtxSubmit_keeps {s0 s : State} (hk : Keeps false s0 s) (c : Fin 64) :
    Keeps false s0 (after s (execCtxSubmit c s)) := by
  refine hk.trans ?_; clear hk; unfold execCtxSubmit; try dsimp -zeta only [mkS_eq]
  try lift_lets -underBinder
  with_reducible repeat' first
    | assumption
    | exact Keeps.refl _
    | (apply KeepsF.intro; intro s; (try dsimp -zeta only); try lift_lets -underBinder)
    | (intro x; try clear_value x)
    | apply after_next_keeps
    | apply State.hostReg_keeps
    | apply State.ctxSubmit_keeps

theorem execCodEncode_keeps {s0 s : State} (hk : Keeps false s0 s) (c : Fin 64) (hdr sliceBits : Nat) :
    Keeps false s0 (after s (execCodEncode c hdr sliceBits s)) := by
  refine hk.trans ?_; clear hk; unfold execCodEncode; try dsimp -zeta only [mkS_eq]
  try lift_lets -underBinder
  with_reducible repeat' first
    | assumption
    | exact Keeps.refl _
    | (intro x; try clear_value x)
    | apply after_next_keeps
    | apply State.encStart_keeps
    | apply upd_keeps
    | exact Fits.refl _
    | lift_lets -underBinder
    | apply Keeps.ite
    | split

theorem execCodDecode_keeps {s0 s : State} (hk : Keeps false s0 s) (c : Fin 64) (unit : DecUnit) :
    Keeps false s0 (after s (execCodDecode c unit s)) := by
  refine hk.trans ?_; clear hk; unfold execCodDecode; try dsimp -zeta only [mkS_eq]
  try lift_lets -underBinder
  with_reducible repeat' first
    | assumption
    | exact Keeps.refl _
    | (intro x; try clear_value x)
    | apply after_next_keeps
    | apply State.decStart_keeps
    | apply upd_keeps
    | exact Fits.refl _
    | lift_lets -underBinder
    | apply Keeps.ite
    | split

theorem execCodCompat_keeps {s0 s : State} (hk : Keeps false s0 s) (c : Fin 64) (unit : DecUnit) :
    Keeps false s0 (after s (execCodCompat c unit s)) := by
  refine hk.trans ?_; clear hk; unfold execCodCompat; try dsimp -zeta only [mkS_eq]
  try lift_lets -underBinder
  with_reducible repeat' first
    | assumption
    | exact Keeps.refl _
    | (intro x; try clear_value x)
    | apply after_next_keeps
    | apply State.masterRead_keeps
    | apply State.decStart_keeps
    | apply State.codDecide_keeps
    | apply State.codAccess_keeps
    | apply upd_keeps
    | exact Fits.refl _
    | (apply Keeps.ofpair (by assumption))
    | (apply Keeps.ofpair1 (by assumption))
    | (apply Keeps.oftriple (by assumption))
    | lift_lets -underBinder
    | apply Keeps.ite
    | split

theorem execCodDrain_keeps {s0 s : State} (hk : Keeps false s0 s) (c : Fin 64) :
    Keeps false s0 (after s (execCodDrain c s)) := by
  refine hk.trans ?_; clear hk; unfold execCodDrain; try dsimp -zeta only [mkS_eq]
  try lift_lets -underBinder
  with_reducible repeat' first
    | assumption
    | exact Keeps.refl _
    | (intro x; try clear_value x)
    | apply after_next_keeps
    | apply State.setJob_keeps
    | apply State.codDecide_keeps
    | apply upd_keeps
    | exact Fits.refl _
    | lift_lets -underBinder
    | apply Keeps.ite
    | split

theorem execCodecRowEnd_keeps {s0 s : State} (hk : Keeps false s0 s) (e : Fin 4) (trial recode : Nat) :
    Keeps false s0 (after s (execCodecRowEnd e trial recode s)) := by
  refine hk.trans ?_; clear hk; unfold execCodecRowEnd; try dsimp -zeta only [mkS_eq]
  try lift_lets -underBinder
  with_reducible repeat' first
    | assumption
    | exact Keeps.refl _
    | (intro x; try clear_value x)
    | apply after_next_keeps
    | apply State.codRowEnd_keeps

theorem execCodecJobEnd_keeps {s0 s : State} (hk : Keeps false s0 s) (c : Fin 64) :
    Keeps false s0 (after s (execCodecJobEnd c s)) := by
  refine hk.trans ?_; clear hk; unfold execCodecJobEnd; try dsimp -zeta only [mkS_eq]
  try lift_lets -underBinder
  with_reducible repeat' first
    | assumption
    | exact Keeps.refl _
    | (intro x; try clear_value x)
    | apply after_next_keeps
    | apply State.codJobEnd_keeps

theorem execSourceWaitTimeout_keeps {s0 s : State} (hk : Keeps false s0 s) (c : Fin 64) :
    Keeps false s0 (after s (execSourceWaitTimeout c s)) := by
  refine hk.trans ?_; clear hk; unfold execSourceWaitTimeout; try dsimp -zeta only [mkS_eq]
  try lift_lets -underBinder
  with_reducible repeat' first
    | assumption
    | exact Keeps.refl _
    | (intro x; try clear_value x)
    | apply after_next_keeps
    | apply State.sourceTimeout_keeps

theorem execCtxPbRet_keeps {mm : Bool} {s0 s : State} (hk : Keeps mm s0 s) (c : Fin 64) (value : Word) :
    Keeps mm s0 (after s (execCtxPbRet c value s)) := by
  refine hk.trans ?_; clear hk; unfold execCtxPbRet; try dsimp -zeta only [mkS_eq]
  try lift_lets -underBinder
  with_reducible repeat' first
    | assumption
    | exact Keeps.refl _
    | (apply KeepsF.intro; intro s; (try dsimp -zeta only); try lift_lets -underBinder)
    | (intro x; try clear_value x)
    | apply after_next_keeps
    | apply State.hostReg_keeps
    | apply State.pbRet_keeps

theorem execCtxAbort_keeps {s0 s : State} (hk : Keeps false s0 s) (c : Fin 64) :
    Keeps false s0 (after s (execCtxAbort c s)) := by
  refine hk.trans ?_; clear hk; unfold execCtxAbort; try dsimp -zeta only [mkS_eq]
  try lift_lets -underBinder
  with_reducible repeat' first
    | assumption
    | exact Keeps.refl _
    | (apply KeepsF.intro; intro s; (try dsimp -zeta only); try lift_lets -underBinder)
    | (intro x; try clear_value x)
    | apply after_next_keeps
    | apply State.hostReg_keeps
    | apply State.ctxAbort_keeps

theorem execCodecPause_keeps {s0 s : State} (hk : Keeps false s0 s) (e : Fin 4) (cause : Fin 4) :
    Keeps false s0 (after s (execCodecPause e cause s)) := by
  refine hk.trans ?_; clear hk; unfold execCodecPause; try dsimp -zeta only [mkS_eq]
  try lift_lets -underBinder
  with_reducible repeat' first
    | assumption
    | exact Keeps.refl _
    | (intro x; try clear_value x)
    | apply after_next_keeps
    | apply State.codPause_keeps

end Sys2Proof.Machine
end

