-- ==== Sys2Proof/Laws/KeepsTime.lean ====
section
/-! SUPPORT. What the functions of Machine/Time.lean keep: the part, the queue, the memories where they store nothing, and the
canonical form of the tables. -/

namespace Sys2Proof.Machine
theorem State.setTime_keeps {mm : Bool} {s0 s : State} (hk : Keeps mm s0 s) (u : Int) :
    Keeps mm s0 (State.setTime s u) := by
  refine hk.trans ?_; clear hk; unfold State.setTime; try dsimp -zeta only [mkS_eq]
  try lift_lets -underBinder
  with_reducible repeat' first
    | assumption
    | exact Keeps.refl _
    | (intro x; try clear_value x)
    | apply upd_keeps
    | exact Fits.refl _

theorem State.advance_keeps {mm : Bool} {s0 s : State} (hk : Keeps mm s0 s) (d : Nat) :
    Keeps mm s0 (State.advance s d) := by
  refine hk.trans ?_; clear hk; unfold State.advance; try dsimp -zeta only [mkS_eq]
  try lift_lets -underBinder
  with_reducible repeat' first
    | assumption
    | exact Keeps.refl _
    | (intro x; try clear_value x)
    | apply upd_keeps
    | exact Fits.refl _
    | (simp only [upd_length, List.length_map, List.length_replicate]; exact Fits.refl _)

theorem State.advanceTo_keeps {mm : Bool} {s0 s : State} (hk : Keeps mm s0 s) (u : Nat) :
    Keeps mm s0 (State.advanceTo s u) := by
  refine hk.trans ?_; clear hk; unfold State.advanceTo; try dsimp -zeta only [mkS_eq]
  try lift_lets -underBinder
  with_reducible repeat' first
    | assumption
    | exact Keeps.refl _
    | (intro x; try clear_value x)
    | apply State.advance_keeps
    | lift_lets -underBinder
    | apply Keeps.ite

theorem State.nowLatch_keeps {mm : Bool} {s0 s : State} (hk : Keeps mm s0 s) :
    Keeps mm s0 (State.nowLatch s) := by
  refine hk.trans ?_; clear hk; unfold State.nowLatch; try dsimp -zeta only [mkS_eq]
  try lift_lets -underBinder
  with_reducible repeat' first
    | assumption
    | exact Keeps.refl _
    | (intro x; try clear_value x)
    | apply State.p_keeps
    | apply State.wr_keeps

theorem State.incHiWrite_keeps {mm : Bool} {s0 s : State} (hk : Keeps mm s0 s) (v : Nat) :
    Keeps mm s0 (State.incHiWrite s v) := by
  refine hk.trans ?_; clear hk; unfold State.incHiWrite; try dsimp -zeta only [mkS_eq]
  try lift_lets -underBinder
  with_reducible repeat' first
    | assumption
    | exact Keeps.refl _
    | (intro x; refine Keeps.abs (mm := mm) (x := x) (s := s) ?_ (fun hk => ?_); rotate_left; clear_value x; rotate_right; dsimp -zeta only [x]; try clear x)
    | (intro x; try clear_value x)
    | apply State.plainWrite_keeps
    | apply State.wrA_keeps

theorem State.timLocked_keeps {mm : Bool} {s0 s : State} (hk : Keeps mm s0 s) (v : Bool) :
    Keeps mm s0 (State.timLocked s v) := by
  refine hk.trans ?_; clear hk; unfold State.timLocked; try dsimp -zeta only [mkS_eq]
  try lift_lets -underBinder
  with_reducible repeat' first
    | assumption
    | exact Keeps.refl _
    | (intro x; try clear_value x)
    | apply State.p_keeps

theorem State.trefSync_keeps {mm : Bool} {s0 s : State} (hk : Keeps mm s0 s) :
    Keeps mm s0 (State.trefSync s) := by
  refine hk.trans ?_; clear hk; unfold State.trefSync; try dsimp -zeta only [mkS_eq]
  try lift_lets -underBinder
  with_reducible repeat' first
    | assumption
    | exact Keeps.refl _
    | (intro x; try clear_value x)
    | apply State.fault_keeps

theorem State.timCtrl_keeps {mm : Bool} {s0 s : State} (hk : Keeps mm s0 s) (v : Nat) :
    Keeps mm s0 (State.timCtrl s v) := by
  refine hk.trans ?_; clear hk; unfold State.timCtrl; try dsimp -zeta only [mkS_eq]
  try lift_lets -underBinder
  with_reducible repeat' first
    | assumption
    | exact Keeps.refl _
    | (intro x; refine Keeps.abs (mm := mm) (x := x) (s := s) ?_ (fun hk => ?_); rotate_left; clear_value x; rotate_right; dsimp -zeta only [x]; try clear x)
    | (intro x; try clear_value x)
    | apply State.timLocked_keeps
    | apply State.plainWrite_keeps
    | apply State.p_keeps
    | apply State.trefSync_keeps
    | apply upd_keeps
    | exact Fits.refl _
    | lift_lets -underBinder
    | apply Keeps.ite

theorem State.headChange_keeps {mm : Bool} {s0 s : State} (hk : Keeps mm s0 s) (load : Bool) (v : Int) (x h : Nat) :
    Keeps mm s0 (State.headChange s load v x h) := by
  refine hk.trans ?_; clear hk; unfold State.headChange; try dsimp -zeta only [mkS_eq]
  try lift_lets -underBinder
  with_reducible repeat' first
    | assumption
    | exact Keeps.refl _
    | (intro x; try clear_value x)
    | apply State.sendLoad_keeps
    | apply State.sendStep_keeps
    | lift_lets -underBinder
    | apply Keeps.ite

theorem State.adjCtrl_keeps {mm : Bool} {s0 s : State} (hk : Keeps mm s0 s) (v : Nat) :
    Keeps mm s0 (State.adjCtrl s v) := by
  refine hk.trans ?_; clear hk; unfold State.adjCtrl; try dsimp -zeta only [mkS_eq]
  try lift_lets -underBinder
  with_reducible repeat' first
    | assumption
    | exact Keeps.refl _
    | (apply KeepsF.intro; intro s; (try dsimp -zeta only); try lift_lets -underBinder)
    | (intro x; refine Keeps.abs (mm := mm) (x := x) (s := s) ?_ (fun hk => ?_); rotate_left; clear_value x; rotate_right; dsimp -zeta only [x]; try clear x)
    | (intro x; try clear_value x)
    | apply State.refuse_keeps
    | apply State.p_keeps
    | apply State.headChange_keeps
    | apply foldl_keeps
    | apply upd_keeps
    | exact Fits.refl _
    | lift_lets -underBinder
    | apply Keeps.ite

theorem State.capSync_keeps {mm : Bool} {s0 s : State} (hk : Keeps mm s0 s) :
    Keeps mm s0 (State.capSync s) := by
  refine hk.trans ?_; clear hk; unfold State.capSync; try dsimp -zeta only [mkS_eq]
  try lift_lets -underBinder
  with_reducible repeat' first
    | assumption
    | exact Keeps.refl _
    | (intro x; try clear_value x)
    | apply State.p_keeps
    | apply State.wr_keeps

theorem State.capture_keeps {mm : Bool} {s0 s : State} (hk : Keeps mm s0 s) (src : Nat) :
    Keeps mm s0 (State.capture s src) := by
  refine hk.trans ?_; clear hk; unfold State.capture; try dsimp -zeta only [mkS_eq]
  try lift_lets -underBinder
  with_reducible repeat' first
    | assumption
    | exact Keeps.refl _
    | (intro x; try clear_value x)
    | apply State.irq_keeps
    | apply State.p_keeps
    | apply State.irqIf_keeps
    | apply State.capSync_keeps
    | apply upd_keeps
    | exact Fits.refl _
    | lift_lets -underBinder
    | apply Keeps.ite

theorem State.capCtrl_keeps {mm : Bool} {s0 s : State} (hk : Keeps mm s0 s) (v : Nat) :
    Keeps mm s0 (State.capCtrl s v) := by
  refine hk.trans ?_; clear hk; unfold State.capCtrl; try dsimp -zeta only [mkS_eq]
  try lift_lets -underBinder
  with_reducible repeat' first
    | assumption
    | exact Keeps.refl _
    | (intro x; refine Keeps.abs (mm := mm) (x := x) (s := s) ?_ (fun hk => ?_); rotate_left; clear_value x; rotate_right; dsimp -zeta only [x]; try clear x)
    | (intro x; try clear_value x)
    | apply State.capSync_keeps
    | apply State.p_keeps
    | apply State.capture_keeps
    | apply upd_keeps
    | exact Fits.refl _
    | lift_lets -underBinder
    | apply Keeps.ite

theorem State.setStrobe_keeps {mm : Bool} {s0 s : State} (hk : Keeps mm s0 s) (n : Nat) (f : Strobe → Strobe) :
    Keeps mm s0 (State.setStrobe s n f) := by
  refine hk.trans ?_; clear hk; unfold State.setStrobe; try dsimp -zeta only [mkS_eq]
  try lift_lets -underBinder
  with_reducible repeat' first
    | assumption
    | exact Keeps.refl _
    | (intro x; try clear_value x)
    | apply upd_keeps
    | exact Fits.refl _

theorem State.stbPin_keeps {mm : Bool} {s0 s : State} (hk : Keeps mm s0 s) (n : Nat) (was : Bool) :
    Keeps mm s0 (State.stbPin s n was) := by
  refine hk.trans ?_; clear hk; unfold State.stbPin; try dsimp -zeta only [mkS_eq]
  try lift_lets -underBinder
  with_reducible repeat' first
    | assumption
    | exact Keeps.refl _
    | (intro x; refine Keeps.abs (mm := mm) (x := x) (s := s) ?_ (fun hk => ?_); rotate_left; clear_value x; rotate_right; dsimp -zeta only [x]; try clear x)
    | (intro x; try clear_value x)
    | apply State.p_keeps
    | apply State.emit_keeps
    | lift_lets -underBinder
    | apply Keeps.ite

theorem State.stbFinish_keeps {mm : Bool} {s0 s : State} (hk : Keeps mm s0 s) (n : Nat) :
    Keeps mm s0 (State.stbFinish s n) := by
  refine hk.trans ?_; clear hk; unfold State.stbFinish; try dsimp -zeta only [mkS_eq]
  try lift_lets -underBinder
  with_reducible repeat' first
    | assumption
    | exact Keeps.refl _
    | (intro x; try clear_value x)
    | apply State.irq_keeps
    | apply State.p_keeps

theorem State.stbFloor_keeps {mm : Bool} {s0 s : State} (hk : Keeps mm s0 s) (n : Nat) (force : Bool) :
    Keeps mm s0 (State.stbFloor s n force) := by
  refine hk.trans ?_; clear hk; unfold State.stbFloor; try dsimp -zeta only [mkS_eq]
  try lift_lets -underBinder
  with_reducible repeat' first
    | assumption
    | exact Keeps.refl _
    | (intro x; refine Keeps.abs (mm := mm) (x := x) (s := s) ?_ (fun hk => ?_); rotate_left; clear_value x; rotate_right; dsimp -zeta only [x]; try clear x)
    | (intro x; try clear_value x)
    | apply State.irq_keeps
    | apply State.p_keeps
    | apply State.setStrobe_keeps
    | apply State.addSat_keeps
    | apply State.stbFinish_keeps
    | apply upd_keeps
    | exact Fits.refl _
    | lift_lets -underBinder
    | apply Keeps.ite

theorem State.stbShift_keeps {mm : Bool} {s0 s : State} (hk : Keeps mm s0 s) (forward : Bool) :
    Keeps mm s0 (State.stbShift s forward) := by
  refine hk.trans ?_; clear hk; unfold State.stbShift; try dsimp -zeta only [mkS_eq]
  try lift_lets -underBinder
  with_reducible repeat' first
    | assumption
    | exact Keeps.refl _
    | (apply KeepsF.intro; intro s; (try dsimp -zeta only); try lift_lets -underBinder)
    | (intro x; try clear_value x)
    | apply State.setStrobe_keeps
    | apply State.stbFloor_keeps
    | apply foldl_keeps
    | apply upd_keeps
    | exact Fits.refl _
    | lift_lets -underBinder
    | apply Keeps.ite

theorem State.stbArm_keeps {mm : Bool} {s0 s : State} (hk : Keeps mm s0 s) (n : Nat) :
    Keeps mm s0 (State.stbArm s n) := by
  refine hk.trans ?_; clear hk; unfold State.stbArm; try dsimp -zeta only [mkS_eq]
  try lift_lets -underBinder
  with_reducible repeat' first
    | assumption
    | exact Keeps.refl _
    | (intro x; refine Keeps.abs (mm := mm) (x := x) (s := s) ?_ (fun hk => ?_); rotate_left; clear_value x; rotate_right; dsimp -zeta only [x]; try clear x)
    | (intro x; try clear_value x)
    | apply State.wr_keeps
    | apply State.setStrobe_keeps
    | apply State.stbFloor_keeps
    | apply State.stbPin_keeps
    | apply upd_keeps
    | exact Fits.refl _
    | lift_lets -underBinder
    | apply Keeps.ite

theorem State.stbOff_keeps {mm : Bool} {s0 s : State} (hk : Keeps mm s0 s) (n : Nat) :
    Keeps mm s0 (State.stbOff s n) := by
  refine hk.trans ?_; clear hk; unfold State.stbOff; try dsimp -zeta only [mkS_eq]
  try lift_lets -underBinder
  with_reducible repeat' first
    | assumption
    | exact Keeps.refl _
    | (intro x; try clear_value x)
    | apply State.stbPin_keeps
    | apply State.setStrobe_keeps
    | apply State.p_keeps

theorem State.stbDisarm_keeps {mm : Bool} {s0 s : State} (hk : Keeps mm s0 s) (n : Nat) :
    Keeps mm s0 (State.stbDisarm s n) := by
  refine hk.trans ?_; clear hk; unfold State.stbDisarm; try dsimp -zeta only [mkS_eq]
  try lift_lets -underBinder
  with_reducible repeat' first
    | assumption
    | exact Keeps.refl _
    | (intro x; try clear_value x)
    | apply State.setStrobe_keeps
    | apply State.stbOff_keeps
    | apply upd_keeps
    | exact Fits.refl _
    | lift_lets -underBinder
    | apply Keeps.ite

theorem State.stbCtrl_keeps {mm : Bool} {s0 s : State} (hk : Keeps mm s0 s) (n v : Nat) :
    Keeps mm s0 (State.stbCtrl s n v) := by
  refine hk.trans ?_; clear hk; unfold State.stbCtrl; try dsimp -zeta only [mkS_eq]
  try lift_lets -underBinder
  with_reducible repeat' first
    | assumption
    | exact Keeps.refl _
    | (intro x; try clear_value x)
    | apply State.refuse_keeps
    | apply State.stbArm_keeps
    | apply State.stbDisarm_keeps
    | lift_lets -underBinder
    | apply Keeps.ite

theorem State.stbCfg_keeps {mm : Bool} {s0 s : State} (hk : Keeps mm s0 s) (n v : Nat) :
    Keeps mm s0 (State.stbCfg s n v) := by
  refine hk.trans ?_; clear hk; unfold State.stbCfg; try dsimp -zeta only [mkS_eq]
  try lift_lets -underBinder
  with_reducible repeat' first
    | assumption
    | exact Keeps.refl _
    | (intro x; try clear_value x)
    | apply State.stbPin_keeps
    | apply State.plainWrite_keeps

theorem State.stbSync_keeps {mm : Bool} {s0 s : State} (hk : Keeps mm s0 s) (n : Nat) :
    Keeps mm s0 (State.stbSync s n) := by
  refine hk.trans ?_; clear hk; unfold State.stbSync; try dsimp -zeta only [mkS_eq]
  try lift_lets -underBinder
  with_reducible repeat' first
    | assumption
    | exact Keeps.refl _
    | (intro x; refine Keeps.abs (mm := mm) (x := x) (s := s) ?_ (fun hk => ?_); rotate_left; clear_value x; rotate_right; dsimp -zeta only [x]; try clear x)
    | (intro x; try clear_value x)
    | apply State.setStrobe_keeps
    | apply State.p_keeps
    | apply State.stbPin_keeps
    | apply upd_keeps
    | exact Fits.refl _
    | lift_lets -underBinder
    | apply Keeps.ite

theorem execTimIncHiWrite_keeps {mm : Bool} {s0 s : State} (hk : Keeps mm s0 s) (value : Word) :
    Keeps mm s0 (after s (execTimIncHiWrite value s)) := by
  refine hk.trans ?_; clear hk; unfold execTimIncHiWrite; try dsimp -zeta only [mkS_eq]
  try lift_lets -underBinder
  with_reducible repeat' first
    | assumption
    | exact Keeps.refl _
    | (apply KeepsF.intro; intro s; (try dsimp -zeta only); try lift_lets -underBinder)
    | (intro x; try clear_value x)
    | apply after_next_keeps
    | apply State.hostReg_keeps
    | apply State.incHiWrite_keeps

theorem execTimeNowRead_keeps {mm : Bool} {s0 s : State} (hk : Keeps mm s0 s) :
    Keeps mm s0 (after s (execTimeNowRead s)) := by
  refine hk.trans ?_; clear hk; unfold execTimeNowRead; try dsimp -zeta only [mkS_eq]
  try lift_lets -underBinder
  with_reducible repeat' first
    | assumption
    | exact Keeps.refl _
    | (apply KeepsF.intro; intro s; (try dsimp -zeta only); try lift_lets -underBinder)
    | (intro x; refine Keeps.abs (mm := mm) (x := x) (s := s) ?_ (fun hk => ?_); rotate_left; clear_value x; rotate_right; dsimp -zeta only [x]; try clear x)
    | (intro x; try clear_value x)
    | apply after_next_keeps
    | apply State.host_keeps
    | apply State.hostCount_keeps
    | apply State.emit_keeps
    | apply State.nowLatch_keeps
    | lift_lets -underBinder
    | apply Keeps.ite

theorem execTimStep_keeps {mm : Bool} {s0 s : State} (hk : Keeps mm s0 s) :
    Keeps mm s0 (after s (execTimStep s)) := by
  refine hk.trans ?_; clear hk; unfold execTimStep; try dsimp -zeta only [mkS_eq]
  try lift_lets -underBinder
  with_reducible repeat' first
    | assumption
    | exact Keeps.refl _
    | (apply KeepsF.intro; intro s; (try dsimp -zeta only); try lift_lets -underBinder)
    | (intro x; try clear_value x)
    | apply after_next_keeps
    | apply State.hostReg_keeps
    | apply State.adjCtrl_keeps

theorem execTimLoad_keeps {mm : Bool} {s0 s : State} (hk : Keeps mm s0 s) :
    Keeps mm s0 (after s (execTimLoad s)) := by
  refine hk.trans ?_; clear hk; unfold execTimLoad; try dsimp -zeta only [mkS_eq]
  try lift_lets -underBinder
  with_reducible repeat' first
    | assumption
    | exact Keeps.refl _
    | (apply KeepsF.intro; intro s; (try dsimp -zeta only); try lift_lets -underBinder)
    | (intro x; try clear_value x)
    | apply after_next_keeps
    | apply State.hostReg_keeps
    | apply State.adjCtrl_keeps

theorem execTimeAdjApply_keeps {mm : Bool} {s0 s : State} (hk : Keeps mm s0 s) :
    Keeps mm s0 (after s (execTimeAdjApply s)) := by
  refine hk.trans ?_; clear hk; unfold execTimeAdjApply; try dsimp -zeta only [mkS_eq]
  try lift_lets -underBinder
  with_reducible repeat' first
    | assumption
    | exact Keeps.refl _
    | (intro x; try clear_value x)
    | apply after_next_keeps
    | apply State.advanceTo_keeps
    | apply State.setTime_keeps
    | apply State.irq_keeps
    | apply State.p_keeps
    | apply State.stbShift_keeps
    | apply State.sndShift_keeps
    | apply upd_keeps
    | exact Fits.refl _
    | lift_lets -underBinder
    | apply Keeps.ite
    | split

theorem execTimCtrlWrite_keeps {mm : Bool} {s0 s : State} (hk : Keeps mm s0 s) (value : Word) :
    Keeps mm s0 (after s (execTimCtrlWrite value s)) := by
  refine hk.trans ?_; clear hk; unfold execTimCtrlWrite; try dsimp -zeta only [mkS_eq]
  try lift_lets -underBinder
  with_reducible repeat' first
    | assumption
    | exact Keeps.refl _
    | (apply KeepsF.intro; intro s; (try dsimp -zeta only); try lift_lets -underBinder)
    | (intro x; try clear_value x)
    | apply after_next_keeps
    | apply State.hostReg_keeps
    | apply State.timCtrl_keeps

theorem execWatchdogExpiry_keeps {mm : Bool} {s0 s : State} (hk : Keeps mm s0 s) :
    Keeps mm s0 (after s (execWatchdogExpiry s)) := by
  refine hk.trans ?_; clear hk; unfold execWatchdogExpiry; try dsimp -zeta only [mkS_eq]
  try lift_lets -underBinder
  with_reducible repeat' first
    | assumption
    | exact Keeps.refl _
    | (intro x; try clear_value x)
    | apply after_next_keeps
    | apply State.irq_keeps
    | apply State.p_keeps
    | apply State.timLocked_keeps
    | lift_lets -underBinder
    | apply Keeps.ite

theorem execTimePllLoss_keeps {mm : Bool} {s0 s : State} (hk : Keeps mm s0 s) :
    Keeps mm s0 (after s (execTimePllLoss s)) := by
  refine hk.trans ?_; clear hk; unfold execTimePllLoss; try dsimp -zeta only [mkS_eq]
  try lift_lets -underBinder
  with_reducible repeat' first
    | assumption
    | exact Keeps.refl _
    | (apply KeepsF.intro; intro s; (try dsimp -zeta only); try lift_lets -underBinder)
    | (intro x; try clear_value x)
    | apply after_next_keeps
    | apply State.report_keeps
    | apply State.timLocked_keeps
    | apply State.fault_keeps
    | apply upd_keeps
    | exact Fits.refl _
    | lift_lets -underBinder
    | apply Keeps.ite

theorem execTimePllRelock_keeps {mm : Bool} {s0 s : State} (hk : Keeps mm s0 s) :
    Keeps mm s0 (after s (execTimePllRelock s)) := by
  refine hk.trans ?_; clear hk; unfold execTimePllRelock; try dsimp -zeta only [mkS_eq]
  try lift_lets -underBinder
  with_reducible repeat' first
    | assumption
    | exact Keeps.refl _
    | (intro x; try clear_value x)
    | apply after_next_keeps
    | apply State.fault_keeps
    | apply upd_keeps
    | exact Fits.refl _
    | lift_lets -underBinder
    | apply Keeps.ite

theorem execSyncInEdge_keeps {mm : Bool} {s0 s : State} (hk : Keeps mm s0 s) (rise : Bool) :
    Keeps mm s0 (after s (execSyncInEdge rise s)) := by
  refine hk.trans ?_; clear hk; unfold execSyncInEdge; try dsimp -zeta only [mkS_eq]
  try lift_lets -underBinder
  with_reducible repeat' first
    | assumption
    | exact Keeps.refl _
    | (apply KeepsF.intro; intro s; (try dsimp -zeta only); try lift_lets -underBinder)
    | (intro x; refine Keeps.abs (mm := mm) (x := x) (s := s) ?_ (fun hk => ?_); rotate_left; clear_value x; rotate_right; dsimp -zeta only [x]; try clear x)
    | (intro x; try clear_value x)
    | apply after_next_keeps
    | apply State.p_keeps
    | apply State.capture_keeps
    | apply State.stbSync_keeps
    | apply foldl_keeps
    | apply upd_keeps
    | exact Fits.refl _
    | lift_lets -underBinder
    | apply Keeps.ite

theorem execTimeRefEdge_keeps {mm : Bool} {s0 s : State} (hk : Keeps mm s0 s) :
    Keeps mm s0 (after s (execTimeRefEdge s)) := by
  refine hk.trans ?_; clear hk; unfold execTimeRefEdge; try dsimp -zeta only [mkS_eq]
  try lift_lets -underBinder
  repeat' first
    | with_reducible assumption
    | with_reducible exact Keeps.refl _
    | (intro x; refine Keeps.abs (mm := mm) (x := x) (s := s) ?_ (fun hk => ?_); dsimp -zeta only [x]; try clear x)
    | (intro x; try clear_value x)
    | with_reducible apply after_next_keeps
    | with_reducible apply State.trefSync_keeps
    | with_reducible apply State.p_keeps
    | with_reducible apply State.capture_keeps
    | with_reducible apply upd_keeps
    | with_reducible exact Fits.refl _
    | lift_lets -underBinder
    | with_reducible apply Keeps.ite
    | split
    | apply Keeps.ite

theorem execTrefPresentLapse_keeps {mm : Bool} {s0 s : State} (hk : Keeps mm s0 s) (sync : Bool) :
    Keeps mm s0 (after s (execTrefPresentLapse sync s)) := by
  refine hk.trans ?_; clear hk; unfold execTrefPresentLapse; try dsimp -zeta only [mkS_eq]
  try lift_lets -underBinder
  with_reducible repeat' first
    | assumption
    | exact Keeps.refl _
    | (intro x; try clear_value x)
    | apply after_next_keeps
    | apply State.p_keeps
    | apply State.trefSync_keeps
    | lift_lets -underBinder
    | apply Keeps.ite

theorem execCapSoft_keeps {mm : Bool} {s0 s : State} (hk : Keeps mm s0 s) :
    Keeps mm s0 (after s (execCapSoft s)) := by
  refine hk.trans ?_; clear hk; unfold execCapSoft; try dsimp -zeta only [mkS_eq]
  try lift_lets -underBinder
  with_reducible repeat' first
    | assumption
    | exact Keeps.refl _
    | (apply KeepsF.intro; intro s; (try dsimp -zeta only); try lift_lets -underBinder)
    | (intro x; try clear_value x)
    | apply after_next_keeps
    | apply State.hostReg_keeps
    | apply State.capCtrl_keeps

theorem execCapPop_keeps {mm : Bool} {s0 s : State} (hk : Keeps mm s0 s) :
    Keeps mm s0 (after s (execCapPop s)) := by
  refine hk.trans ?_; clear hk; unfold execCapPop; try dsimp -zeta only [mkS_eq]
  try lift_lets -underBinder
  with_reducible repeat' first
    | assumption
    | exact Keeps.refl _
    | (apply KeepsF.intro; intro s; (try dsimp -zeta only); try lift_lets -underBinder)
    | (intro x; try clear_value x)
    | apply after_next_keeps
    | apply State.hostReg_keeps
    | apply State.capCtrl_keeps

theorem execCapClrOvf_keeps {mm : Bool} {s0 s : State} (hk : Keeps mm s0 s) :
    Keeps mm s0 (after s (execCapClrOvf s)) := by
  refine hk.trans ?_; clear hk; unfold execCapClrOvf; try dsimp -zeta only [mkS_eq]
  try lift_lets -underBinder
  with_reducible repeat' first
    | assumption
    | exact Keeps.refl _
    | (apply KeepsF.intro; intro s; (try dsimp -zeta only); try lift_lets -underBinder)
    | (intro x; try clear_value x)
    | apply after_next_keeps
    | apply State.hostReg_keeps
    | apply State.capCtrl_keeps

theorem execStrobeArm_keeps {mm : Bool} {s0 s : State} (hk : Keeps mm s0 s) (n : Fin 8) :
    Keeps mm s0 (after s (execStrobeArm n s)) := by
  refine hk.trans ?_; clear hk; unfold execStrobeArm; try dsimp -zeta only [mkS_eq]
  try lift_lets -underBinder
  with_reducible repeat' first
    | assumption
    | exact Keeps.refl _
    | (apply KeepsF.intro; intro s; (try dsimp -zeta only); try lift_lets -underBinder)
    | (intro x; try clear_value x)
    | apply after_next_keeps
    | apply State.hostReg_keeps
    | apply State.stbCtrl_keeps

theorem execStrobeDisarm_keeps {mm : Bool} {s0 s : State} (hk : Keeps mm s0 s) (n : Fin 8) :
    Keeps mm s0 (after s (execStrobeDisarm n s)) := by
  refine hk.trans ?_; clear hk; unfold execStrobeDisarm; try dsimp -zeta only [mkS_eq]
  try lift_lets -underBinder
  with_reducible repeat' first
    | assumption
    | exact Keeps.refl _
    | (apply KeepsF.intro; intro s; (try dsimp -zeta only); try lift_lets -underBinder)
    | (intro x; try clear_value x)
    | apply after_next_keeps
    | apply State.hostReg_keeps
    | apply State.stbCtrl_keeps

theorem execStrobePulseStart_keeps {mm : Bool} {s0 s : State} (hk : Keeps mm s0 s) (n : Fin 8) :
    Keeps mm s0 (after s (execStrobePulseStart n s)) := by
  refine hk.trans ?_; clear hk; unfold execStrobePulseStart; try dsimp -zeta only [mkS_eq]
  try lift_lets -underBinder
  with_reducible repeat' first
    | assumption
    | exact Keeps.refl _
    | (intro x; refine Keeps.abs (mm := mm) (x := x) (s := s) ?_ (fun hk => ?_); rotate_left; clear_value x; rotate_right; dsimp -zeta only [x]; try clear x)
    | (intro x; try clear_value x)
    | apply after_next_keeps
    | apply State.advanceTo_keeps
    | apply State.stbPin_keeps
    | apply State.addMod_keeps
    | apply State.setStrobe_keeps
    | apply State.dmaCredit_keeps
    | apply upd_keeps
    | exact Fits.refl _
    | lift_lets -underBinder
    | apply Keeps.ite

theorem execStrobePulseEnd_keeps {mm : Bool} {s0 s : State} (hk : Keeps mm s0 s) (n : Fin 8) :
    Keeps mm s0 (after s (execStrobePulseEnd n s)) := by
  refine hk.trans ?_; clear hk; unfold execStrobePulseEnd; try dsimp -zeta only [mkS_eq]
  try lift_lets -underBinder
  with_reducible repeat' first
    | assumption
    | exact Keeps.refl _
    | (intro x; refine Keeps.abs (mm := mm) (x := x) (s := s) ?_ (fun hk => ?_); rotate_left; clear_value x; rotate_right; dsimp -zeta only [x]; try clear x)
    | (intro x; try clear_value x)
    | apply after_next_keeps
    | apply State.stbPin_keeps
    | apply State.setStrobe_keeps
    | apply State.stbFloor_keeps
    | apply State.stbFinish_keeps
    | apply upd_keeps
    | exact Fits.refl _
    | lift_lets -underBinder
    | apply Keeps.ite

theorem execSyncDisarmCut_keeps {mm : Bool} {s0 s : State} (hk : Keeps mm s0 s) (n : Fin 8) :
    Keeps mm s0 (after s (execSyncDisarmCut n s)) := by
  refine hk.trans ?_; clear hk; unfold execSyncDisarmCut; try dsimp -zeta only [mkS_eq]
  try lift_lets -underBinder
  with_reducible repeat' first
    | assumption
    | exact Keeps.refl _
    | (intro x; try clear_value x)
    | apply after_next_keeps
    | apply State.stbOff_keeps
    | lift_lets -underBinder
    | apply Keeps.ite

end Sys2Proof.Machine
end

