-- ==== Sys2Proof/Laws/KeepsDisplay.lean ====
section
/-! SUPPORT. What the functions of Machine/Display.lean keep: the part, the queue, the memories where they store nothing, and the
canonical form of the tables. -/

namespace Sys2Proof.Machine
theorem State.dspEnableCheck_keeps {mm : Bool} {s0 s : State} (hk : Keeps mm s0 s) :
    Keeps mm s0 (State.dspEnableCheck s).1 := by
  refine hk.trans ?_; clear hk; unfold State.dspEnableCheck; try dsimp -zeta only [mkS_eq]
  try lift_lets -underBinder
  with_reducible repeat' first
    | assumption
    | exact Keeps.refl _
    | (intro x; try clear_value x)
    | apply State.p_keeps
    | lift_lets -underBinder
    | apply Keeps.ite
    | split

theorem State.dspCommitCheck_keeps {mm : Bool} {s0 s : State} (hk : Keeps mm s0 s) :
    Keeps mm s0 (State.dspCommitCheck s).1 := by
  refine hk.trans ?_; clear hk; unfold State.dspCommitCheck; try dsimp -zeta only [mkS_eq]
  try lift_lets -underBinder
  with_reducible repeat' first
    | assumption
    | exact Keeps.refl _
    | (intro x; try clear_value x)
    | apply State.irq_keeps
    | apply State.p_keeps
    | lift_lets -underBinder
    | apply Keeps.ite
    | split

theorem State.dspSync_keeps {mm : Bool} {s0 s : State} (hk : Keeps mm s0 s) :
    Keeps mm s0 (State.dspSync s) := by
  refine hk.trans ?_; clear hk; unfold State.dspSync; try dsimp -zeta only [mkS_eq]
  try lift_lets -underBinder
  with_reducible repeat' first
    | assumption
    | exact Keeps.refl _
    | (intro x; try clear_value x)
    | apply State.p_keeps
    | apply upd_keeps
    | exact Fits.refl _
    | lift_lets -underBinder
    | apply Keeps.ite

theorem State.dspStop_keeps {mm : Bool} {s0 s : State} (hk : Keeps mm s0 s) :
    Keeps mm s0 (State.dspStop s) := by
  refine hk.trans ?_; clear hk; unfold State.dspStop; try dsimp -zeta only [mkS_eq]
  try lift_lets -underBinder
  with_reducible repeat' first
    | assumption
    | exact Keeps.refl _
    | (intro x; try clear_value x)
    | apply State.dspSync_keeps
    | apply State.fault_keeps
    | apply State.p_keeps

theorem State.dspShedSync_keeps {mm : Bool} {s0 s : State} (hk : Keeps mm s0 s) :
    Keeps mm s0 (State.dspShedSync s) := by
  refine hk.trans ?_; clear hk; unfold State.dspShedSync; try dsimp -zeta only [mkS_eq]
  try lift_lets -underBinder
  with_reducible repeat' first
    | assumption
    | exact Keeps.refl _
    | (intro x; try clear_value x)
    | apply State.p_keeps
    | lift_lets -underBinder
    | apply Keeps.ite

theorem State.dspXltFail_keeps {mm : Bool} {s0 s : State} (hk : Keeps mm s0 s) (l : Nat) :
    Keeps mm s0 (State.dspXltFail s l) := by
  refine hk.trans ?_; clear hk; unfold State.dspXltFail; try dsimp -zeta only [mkS_eq]
  try lift_lets -underBinder
  with_reducible repeat' first
    | assumption
    | exact Keeps.refl _
    | (intro x; try clear_value x)
    | apply State.irq_keeps
    | apply State.addSat_keeps
    | apply State.p_keeps
    | lift_lets -underBinder
    | apply Keeps.ite

theorem State.dspXltSync_keeps {mm : Bool} {s0 s : State} (hk : Keeps mm s0 s) :
    Keeps mm s0 (State.dspXltSync s) := by
  refine hk.trans ?_; clear hk; unfold State.dspXltSync; try dsimp -zeta only [mkS_eq]
  try lift_lets -underBinder
  with_reducible repeat' first
    | assumption
    | exact Keeps.refl _
    | (apply KeepsF.intro; intro s; (try dsimp -zeta only); try lift_lets -underBinder)
    | (intro x; try clear_value x)
    | apply State.dspXltFail_keeps
    | apply foldl_keeps
    | apply upd_keeps
    | exact Fits.refl _
    | lift_lets -underBinder
    | apply Keeps.ite

theorem State.dspApplied_keeps {mm : Bool} {s0 s : State} (hk : Keeps mm s0 s) :
    Keeps mm s0 (State.dspApplied s) := by
  refine hk.trans ?_; clear hk; unfold State.dspApplied; try dsimp -zeta only [mkS_eq]
  try lift_lets -underBinder
  with_reducible repeat' first
    | assumption
    | exact Keeps.refl _
    | (apply KeepsF.intro; intro s; (try dsimp -zeta only); try lift_lets -underBinder)
    | (intro x; try clear_value x)
    | apply State.p_keeps
    | apply foldl_keeps

theorem State.applyDsp_keeps {mm : Bool} {s0 s : State} (hk : Keeps mm s0 s) :
    Keeps mm s0 (State.applyDsp s) := by
  refine hk.trans ?_; clear hk; unfold State.applyDsp; try dsimp -zeta only [mkS_eq]
  try lift_lets -underBinder
  with_reducible repeat' first
    | assumption
    | exact Keeps.refl _
    | (intro x; try clear_value x)
    | apply State.dspApplied_keeps
    | apply State.applyPending_keeps
    | lift_lets -underBinder
    | apply Keeps.ite

theorem State.dspFetch_keeps {s0 s : State} (hk : Keeps false s0 s) (y : Nat) (l : List Layer) :
    Keeps false s0 (State.dspFetch s y l).2.2 := by
  induction l generalizing s0 s  with
  | nil =>
    rw [State.dspFetch.eq_1]; refine hk.trans ?_; clear hk; try dsimp -zeta only [mkS_eq]
    try lift_lets -underBinder
    with_reducible repeat' first
      | assumption
      | exact Keeps.refl _
  | cons a l ih =>
    rw [State.dspFetch.eq_2]; refine hk.trans ?_; clear hk; try dsimp -zeta only [mkS_eq]
    try lift_lets -underBinder
    with_reducible repeat' first
      | assumption
      | exact Keeps.refl _
      | with_reducible apply ih
      | (intro x; refine Keeps.abs (mm := false) (x := x) (s := s) ?_ (fun hk => ?_); rotate_left; clear_value x; rotate_right; dsimp -zeta only [x]; try clear x)
      | (intro x; try clear_value x)
      | apply State.masterRead_keeps
      | apply State.dspXltFail_keeps
      | (apply Keeps.ofpair (by assumption))
      | (apply Keeps.ofpair1 (by assumption))
      | (apply Keeps.oftriple (by assumption))
      | lift_lets -underBinder
      | apply Keeps.ite
      | split

theorem State.composeLines_keeps {s0 s : State} (hk : Keeps false s0 s) (d : DspSet) (ls : List Layer) (missing : List (Nat × Nat × Nat)) (dark : Option Nat) (w bpc : Nat) (y : Nat) (n : Nat) :
    Keeps false s0 (State.composeLines s d ls missing dark w bpc y n).2 := by
  induction n generalizing s0 s y dark with
  | zero =>
    rw [State.composeLines.eq_1]; refine hk.trans ?_; clear hk; try dsimp -zeta only [mkS_eq]
    try lift_lets -underBinder
    with_reducible repeat' first
      | assumption
      | exact Keeps.refl _
  | succ a ih =>
    rw [State.composeLines.eq_2]; refine hk.trans ?_; clear hk; try dsimp -zeta only [mkS_eq]
    try lift_lets -underBinder
    with_reducible repeat' first
      | assumption
      | exact Keeps.refl _
      | with_reducible apply ih
      | (intro x; try clear_value x)
      | apply State.dspFetch_keeps
      | apply State.free_keeps
      | (apply Keeps.ofpair (by assumption))
      | (apply Keeps.ofpair1 (by assumption))
      | (apply Keeps.oftriple (by assumption))
      | lift_lets -underBinder
      | apply Keeps.ite
      | split

theorem State.dspLatch_keeps {mm : Bool} {s0 s : State} (hk : Keeps mm s0 s) (line : Nat) :
    Keeps mm s0 (State.dspLatch s line) := by
  refine hk.trans ?_; clear hk; unfold State.dspLatch; try dsimp -zeta only [mkS_eq]
  try lift_lets -underBinder
  with_reducible repeat' first
    | assumption
    | exact Keeps.refl _
    | (intro x; refine Keeps.abs (mm := mm) (x := x) (s := s) ?_ (fun hk => ?_); rotate_left; clear_value x; rotate_right; dsimp -zeta only [x]; try clear x)
    | (intro x; try clear_value x)
    | apply State.latch_keeps
    | apply State.p_keeps
    | apply upd_keeps
    | exact Fits.refl _

theorem State.dspFrameEnd_keeps {mm : Bool} {s0 s : State} (hk : Keeps mm s0 s) :
    Keeps mm s0 (State.dspFrameEnd s) := by
  refine hk.trans ?_; clear hk; unfold State.dspFrameEnd; try dsimp -zeta only [mkS_eq]
  try lift_lets -underBinder
  with_reducible repeat' first
    | assumption
    | exact Keeps.refl _
    | (intro x; refine Keeps.abs (mm := mm) (x := x) (s := s) ?_ (fun hk => ?_); rotate_left; clear_value x; rotate_right; dsimp -zeta only [x]; try clear x)
    | (intro x; try clear_value x)
    | apply State.p_keeps
    | apply State.p64_keeps
    | apply upd_keeps
    | exact Fits.refl _
    | lift_lets -underBinder
    | apply Keeps.ite
    | split

theorem State.dspDamage_keeps {mm : Bool} {s0 s : State} (hk : Keeps mm s0 s) :
    Keeps mm s0 (State.dspDamage s) := by
  refine hk.trans ?_; clear hk; unfold State.dspDamage; try dsimp -zeta only [mkS_eq]
  try lift_lets -underBinder
  with_reducible repeat' first
    | assumption
    | exact Keeps.refl _
    | (intro x; try clear_value x)
    | apply State.addSat_keeps
    | apply upd_keeps
    | exact Fits.refl _

theorem State.dspChecks_keeps {mm : Bool} {s0 s : State} (hk : Keeps mm s0 s) (fail : Option DspFail) :
    Keeps mm s0 (State.dspChecks s fail).2 := by
  refine hk.trans ?_; clear hk; unfold State.dspChecks; try dsimp -zeta only [mkS_eq]
  try lift_lets -underBinder
  repeat' first
    | with_reducible assumption
    | with_reducible exact Keeps.refl _
    | (with_reducible apply KeepsF.intro; intro s; (try dsimp -zeta only); try lift_lets -underBinder)
    | (intro x; try clear_value x)
    | with_reducible apply State.checkReport_keeps
    | with_reducible apply State.dspStop_keeps
    | with_reducible apply upd_keeps
    | with_reducible exact Fits.refl _
    | with_reducible (apply Keeps.ofpair (by assumption))
    | with_reducible (apply Keeps.ofpair1 (by assumption))
    | with_reducible (apply Keeps.oftriple (by assumption))
    | lift_lets -underBinder
    | with_reducible apply Keeps.ite
    | split

theorem State.dspFrame_keeps {s0 s : State} (hk : Keeps false s0 s) (missing : List (Nat × Nat × Nat)) (fail : Option DspFail) :
    Keeps false s0 (State.dspFrame s missing fail) := by
  refine hk.trans ?_; clear hk; unfold State.dspFrame; try dsimp -zeta only [mkS_eq]
  try lift_lets -underBinder
  with_reducible repeat' first
    | assumption
    | exact Keeps.refl _
    | (apply KeepsF.intro; intro s; (try dsimp -zeta only); try lift_lets -underBinder)
    | (intro x; refine Keeps.abs (mm := false) (x := x) (s := s) ?_ (fun hk => ?_); rotate_left; clear_value x; rotate_right; dsimp -zeta only [x]; try clear x)
    | (intro x; try clear_value x)
    | apply State.dspFrameEnd_keeps
    | apply State.setBusy_keeps
    | apply State.p64_keeps
    | apply State.handOver_keeps
    | apply State.dspApplied_keeps
    | apply State.irq_keeps
    | apply State.p_keeps
    | apply State.addSat_keeps
    | apply State.dspShedSync_keeps
    | apply State.wr_keeps
    | apply State.dspChecks_keeps
    | apply State.composeLines_keeps
    | apply State.report_keeps
    | apply State.dspStop_keeps
    | apply State.dspDamage_keeps
    | apply State.emit_keeps
    | apply State.dspSync_keeps
    | apply foldl_keeps
    | apply upd_keeps
    | exact Fits.refl _
    | (apply Keeps.ofpair (by assumption))
    | (apply Keeps.ofpair1 (by assumption))
    | (apply Keeps.oftriple (by assumption))
    | lift_lets -underBinder
    | apply Keeps.ite
    | split

theorem State.auxCmd_keeps {mm : Bool} {s0 s : State} (hk : Keeps mm s0 s) (v : Nat) :
    Keeps mm s0 (State.auxCmd s v) := by
  refine hk.trans ?_; clear hk; unfold State.auxCmd; try dsimp -zeta only [mkS_eq]
  try lift_lets -underBinder
  with_reducible repeat' first
    | assumption
    | exact Keeps.refl _
    | (intro x; refine Keeps.abs (mm := mm) (x := x) (s := s) ?_ (fun hk => ?_); rotate_left; clear_value x; rotate_right; dsimp -zeta only [x]; try clear x)
    | (intro x; try clear_value x)
    | apply State.refuse_keeps
    | apply State.wr_keeps
    | apply State.emit_keeps
    | apply upd_keeps
    | exact Fits.refl _
    | lift_lets -underBinder
    | apply Keeps.ite

theorem State.auxEnd_keeps {mm : Bool} {s0 s : State} (hk : Keeps mm s0 s) (reply count : Nat) (bytes : List Byte) :
    Keeps mm s0 (State.auxEnd s reply count bytes) := by
  refine hk.trans ?_; clear hk; unfold State.auxEnd; try dsimp -zeta only [mkS_eq]
  try lift_lets -underBinder
  repeat' first
    | with_reducible assumption
    | with_reducible exact Keeps.refl _
    | (with_reducible apply KeepsF.intro; intro s; (try dsimp -zeta only); try lift_lets -underBinder)
    | (intro x; try clear_value x)
    | with_reducible apply State.p_keeps
    | with_reducible apply State.irq_keeps
    | with_reducible apply State.wr_keeps
    | with_reducible apply foldl_keeps
    | with_reducible apply foldl2_keeps
    | with_reducible apply upd_keeps
    | with_reducible exact Fits.refl _
    | lift_lets -underBinder
    | with_reducible apply Keeps.ite
    | split

theorem execDisplayFrameStart_keeps {s0 s : State} (hk : Keeps false s0 s) (missing : List (Nat × Nat × Nat)) (fail : Option (Nat × Nat × Bool × Bool)) :
    Keeps false s0 (after s (execDisplayFrameStart missing fail s)) := by
  refine hk.trans ?_; clear hk; unfold execDisplayFrameStart; try dsimp -zeta only [mkS_eq]
  try lift_lets -underBinder
  with_reducible repeat' first
    | assumption
    | exact Keeps.refl _
    | (intro x; try clear_value x)
    | apply after_next_keeps
    | apply State.dspFrame_keeps
    | lift_lets -underBinder
    | apply Keeps.ite

theorem execDisplayLatch_keeps {mm : Bool} {s0 s : State} (hk : Keeps mm s0 s) (line : Nat) :
    Keeps mm s0 (after s (execDisplayLatch line s)) := by
  refine hk.trans ?_; clear hk; unfold execDisplayLatch; try dsimp -zeta only [mkS_eq]
  try lift_lets -underBinder
  with_reducible repeat' first
    | assumption
    | exact Keeps.refl _
    | (intro x; try clear_value x)
    | apply after_next_keeps
    | apply State.dspLatch_keeps
    | lift_lets -underBinder
    | apply Keeps.ite

theorem execHpdLoss_keeps {mm : Bool} {s0 s : State} (hk : Keeps mm s0 s) :
    Keeps mm s0 (after s (execHpdLoss s)) := by
  refine hk.trans ?_; clear hk; unfold execHpdLoss; try dsimp -zeta only [mkS_eq]
  try lift_lets -underBinder
  repeat' first
    | with_reducible assumption
    | with_reducible exact Keeps.refl _
    | (intro x; refine Keeps.abs (mm := mm) (x := x) (s := s) ?_ (fun hk => ?_); dsimp -zeta only [x]; try clear x)
    | (intro x; try clear_value x)
    | with_reducible apply after_next_keeps
    | with_reducible apply State.irq_keeps
    | with_reducible apply State.dspSync_keeps
    | with_reducible apply State.p_keeps
    | with_reducible apply upd_keeps
    | with_reducible exact Fits.refl _
    | lift_lets -underBinder
    | with_reducible apply Keeps.ite
    | split
    | apply Keeps.ite

theorem execHpdIrqPulse_keeps {mm : Bool} {s0 s : State} (hk : Keeps mm s0 s) :
    Keeps mm s0 (after s (execHpdIrqPulse s)) := by
  refine hk.trans ?_; clear hk; unfold execHpdIrqPulse; try dsimp -zeta only [mkS_eq]
  try lift_lets -underBinder
  with_reducible repeat' first
    | assumption
    | exact Keeps.refl _
    | (intro x; try clear_value x)
    | apply after_next_keeps
    | apply State.irq_keeps
    | lift_lets -underBinder
    | apply Keeps.ite

theorem execHpdAssert_keeps {mm : Bool} {s0 s : State} (hk : Keeps mm s0 s) :
    Keeps mm s0 (after s (execHpdAssert s)) := by
  refine hk.trans ?_; clear hk; unfold execHpdAssert; try dsimp -zeta only [mkS_eq]
  try lift_lets -underBinder
  with_reducible repeat' first
    | assumption
    | exact Keeps.refl _
    | (intro x; refine Keeps.abs (mm := mm) (x := x) (s := s) ?_ (fun hk => ?_); rotate_left; clear_value x; rotate_right; dsimp -zeta only [x]; try clear x)
    | (intro x; try clear_value x)
    | apply after_next_keeps
    | apply State.p_keeps
    | apply upd_keeps
    | exact Fits.refl _
    | lift_lets -underBinder
    | apply Keeps.ite

theorem execAuxGo_keeps {mm : Bool} {s0 s : State} (hk : Keeps mm s0 s) (value : Word) :
    Keeps mm s0 (after s (execAuxGo value s)) := by
  refine hk.trans ?_; clear hk; unfold execAuxGo; try dsimp -zeta only [mkS_eq]
  try lift_lets -underBinder
  with_reducible repeat' first
    | assumption
    | exact Keeps.refl _
    | (apply KeepsF.intro; intro s; (try dsimp -zeta only); try lift_lets -underBinder)
    | (intro x; try clear_value x)
    | apply after_next_keeps
    | apply State.hostReg_keeps
    | apply State.auxCmd_keeps

theorem execAuxEnd_keeps {mm : Bool} {s0 s : State} (hk : Keeps mm s0 s) (reply : Fin 5) (count : Fin 17) (bytes : List Byte) :
    Keeps mm s0 (after s (execAuxEnd reply count bytes s)) := by
  refine hk.trans ?_; clear hk; unfold execAuxEnd; try dsimp -zeta only [mkS_eq]
  try lift_lets -underBinder
  with_reducible repeat' first
    | assumption
    | exact Keeps.refl _
    | (intro x; try clear_value x)
    | apply after_next_keeps
    | apply State.auxEnd_keeps

end Sys2Proof.Machine
end

