-- ==== Sys2Proof/Laws/KeepsDma.lean ====
section
/-! SUPPORT. What the functions of Machine/Dma.lean keep: the part, the queue, the memories where they store nothing, and the
canonical form of the tables. -/

namespace Sys2Proof.Machine
theorem State.setCh_keeps {mm : Bool} {s0 s : State} (hk : Keeps mm s0 s) (c : Nat) (f : DmaChan → DmaChan) :
    Keeps mm s0 (State.setCh s c f) := by
  refine hk.trans ?_; clear hk; unfold State.setCh; try dsimp -zeta only [mkS_eq]
  try lift_lets -underBinder
  with_reducible repeat' first
    | assumption
    | exact Keeps.refl _
    | (intro x; try clear_value x)
    | apply upd_keeps
    | exact Fits.refl _
    | (simp only [upd_length, List.length_map, List.length_replicate]; exact Fits.refl _)

theorem State.dmaSync_keeps {mm : Bool} {s0 s : State} (hk : Keeps mm s0 s) (c : Nat) :
    Keeps mm s0 (State.dmaSync s c) := by
  refine hk.trans ?_; clear hk; unfold State.dmaSync; try dsimp -zeta only [mkS_eq]
  try lift_lets -underBinder
  with_reducible repeat' first
    | assumption
    | exact Keeps.refl _
    | (intro x; refine Keeps.abs (mm := mm) (x := x) (s := s) ?_ (fun hk => ?_); rotate_left; clear_value x; rotate_right; dsimp -zeta only [x]; try clear x)
    | (intro x; try clear_value x)
    | apply State.setBusy_keeps
    | apply State.workEnds_keeps
    | apply State.irqIf_keeps
    | apply State.p_keeps
    | lift_lets -underBinder
    | apply Keeps.ite

theorem State.dmaShedSync_keeps {mm : Bool} {s0 s : State} (hk : Keeps mm s0 s) :
    Keeps mm s0 (State.dmaShedSync s) := by
  refine hk.trans ?_; clear hk; unfold State.dmaShedSync; try dsimp -zeta only [mkS_eq]
  try lift_lets -underBinder
  with_reducible repeat' first
    | assumption
    | exact Keeps.refl _
    | (apply KeepsF.intro; intro s; (try dsimp -zeta only); try lift_lets -underBinder)
    | (intro x; try clear_value x)
    | apply State.dmaSync_keeps
    | apply foldl_keeps
    | lift_lets -underBinder
    | apply Keeps.ite

theorem State.dmaHalt_keeps {mm : Bool} {s0 s : State} (hk : Keeps mm s0 s) (c cause : Nat) (fetch : Bool) :
    Keeps mm s0 (State.dmaHalt s c cause fetch) := by
  refine hk.trans ?_; clear hk; unfold State.dmaHalt; try dsimp -zeta only [mkS_eq]
  try lift_lets -underBinder
  with_reducible repeat' first
    | assumption
    | exact Keeps.refl _
    | (intro x; refine Keeps.abs (mm := mm) (x := x) (s := s) ?_ (fun hk => ?_); rotate_left; clear_value x; rotate_right; dsimp -zeta only [x]; try clear x)
    | (intro x; try clear_value x)
    | apply State.p_keeps
    | apply State.irq_keeps
    | apply State.addSat_keeps
    | apply State.fault_keeps
    | lift_lets -underBinder
    | apply Keeps.ite

theorem State.dmaUnhalt_keeps {mm : Bool} {s0 s : State} (hk : Keeps mm s0 s) (c : Nat) :
    Keeps mm s0 (State.dmaUnhalt s c) := by
  refine hk.trans ?_; clear hk; unfold State.dmaUnhalt; try dsimp -zeta only [mkS_eq]
  try lift_lets -underBinder
  with_reducible repeat' first
    | assumption
    | exact Keeps.refl _
    | (intro x; try clear_value x)
    | apply State.dmaSync_keeps
    | apply State.fault_keeps
    | apply State.p_keeps

theorem State.dmaBusError_keeps {mm : Bool} {s0 s : State} (hk : Keeps mm s0 s) (c : Nat) (again fetch : Bool) :
    Keeps mm s0 (State.dmaBusError s c again fetch) := by
  refine hk.trans ?_; clear hk; unfold State.dmaBusError; try dsimp -zeta only [mkS_eq]
  try lift_lets -underBinder
  with_reducible repeat' first
    | assumption
    | exact Keeps.refl _
    | (apply KeepsF.intro; intro s; (try dsimp -zeta only); try lift_lets -underBinder)
    | (intro x; refine Keeps.abs (mm := mm) (x := x) (s := s) ?_ (fun hk => ?_); rotate_left; clear_value x; rotate_right; dsimp -zeta only [x]; try clear x)
    | (intro x; try clear_value x)
    | apply State.addSat_keeps
    | apply State.report_keeps
    | apply State.dmaHalt_keeps
    | apply upd_keeps
    | exact Fits.refl _
    | lift_lets -underBinder
    | apply Keeps.ite

theorem State.dmaEnd_keeps {mm : Bool} {s0 s : State} (hk : Keeps mm s0 s) (c outcome detail csum : Nat) :
    Keeps mm s0 (State.dmaEnd s c outcome detail csum) := by
  refine hk.trans ?_; clear hk; unfold State.dmaEnd; try dsimp -zeta only [mkS_eq]
  try lift_lets -underBinder
  with_reducible repeat' first
    | assumption
    | exact Keeps.refl _
    | (intro x; try clear_value x)
    | apply State.p_keeps
    | apply State.setCh_keeps

theorem State.dmaEndOther_keeps {mm : Bool} {s0 s : State} (hk : Keeps mm s0 s) (c outcome detail : Nat) :
    Keeps mm s0 (State.dmaEndOther s c outcome detail) := by
  refine hk.trans ?_; clear hk; unfold State.dmaEndOther; try dsimp -zeta only [mkS_eq]
  try lift_lets -underBinder
  with_reducible repeat' first
    | assumption
    | exact Keeps.refl _
    | (intro x; try clear_value x)
    | apply State.free_keeps
    | apply State.dmaEnd_keeps

theorem State.dmaProd_keeps {mm : Bool} {s0 s : State} (hk : Keeps mm s0 s) (c v : Nat) :
    Keeps mm s0 (State.dmaProd s c v) := by
  refine hk.trans ?_; clear hk; unfold State.dmaProd; try dsimp -zeta only [mkS_eq]
  try lift_lets -underBinder
  with_reducible repeat' first
    | assumption
    | exact Keeps.refl _
    | (intro x; try clear_value x)
    | apply State.refuse_keeps
    | apply State.plainWrite_keeps
    | lift_lets -underBinder
    | apply Keeps.ite

theorem State.dmaFetch_keeps {s0 s : State} (hk : Keeps false s0 s) (c : Nat) (err : Option Bool) :
    Keeps false s0 (State.dmaFetch s c err) := by
  refine hk.trans ?_; clear hk; unfold State.dmaFetch; try dsimp -zeta only [mkS_eq]
  try lift_lets -underBinder
  with_reducible repeat' first
    | assumption
    | exact Keeps.refl _
    | (intro x; refine Keeps.abs (mm := false) (x := x) (s := s) ?_ (fun hk => ?_); rotate_left; clear_value x; rotate_right; dsimp -zeta only [x]; try clear x)
    | (intro x; try clear_value x)
    | apply State.dmaBusError_keeps
    | apply State.masterRead_keeps
    | apply State.free_keeps
    | apply State.dmaSync_keeps
    | apply State.p_keeps
    | apply State.setCh_keeps
    | apply State.dmaHalt_keeps
    | apply upd_keeps
    | exact Fits.refl _
    | (apply Keeps.ofpair (by assumption))
    | (apply Keeps.ofpair1 (by assumption))
    | (apply Keeps.oftriple (by assumption))
    | lift_lets -underBinder
    | apply Keeps.ite
    | split

theorem State.dmaWriteBack_keeps {s0 s : State} (hk : Keeps false s0 s) (c : Nat) (err : Option Bool) :
    Keeps false s0 (State.dmaWriteBack s c err) := by
  refine hk.trans ?_; clear hk; unfold State.dmaWriteBack; try dsimp -zeta only [mkS_eq]
  try lift_lets -underBinder
  with_reducible repeat' first
    | assumption
    | exact Keeps.refl _
    | (intro x; refine Keeps.abs (mm := false) (x := x) (s := s) ?_ (fun hk => ?_); rotate_left; clear_value x; rotate_right; dsimp -zeta only [x]; try clear x)
    | (intro x; try clear_value x)
    | apply State.dmaBusError_keeps
    | apply State.masterWrite_keeps
    | apply State.p_keeps
    | apply State.setCh_keeps
    | apply State.dmaSync_keeps
    | apply State.irqIf_keeps
    | apply State.dmaHalt_keeps
    | apply upd_keeps
    | exact Fits.refl _
    | (apply Keeps.ofpair (by assumption))
    | (apply Keeps.ofpair1 (by assumption))
    | (apply Keeps.oftriple (by assumption))
    | lift_lets -underBinder
    | apply Keeps.ite
    | split

theorem State.dmaReqCtrl_keeps {mm : Bool} {s0 s : State} (hk : Keeps mm s0 s) (c v : Nat) :
    Keeps mm s0 (State.dmaReqCtrl s c v) := by
  refine hk.trans ?_; clear hk; unfold State.dmaReqCtrl; try dsimp -zeta only [mkS_eq]
  try lift_lets -underBinder
  with_reducible repeat' first
    | assumption
    | exact Keeps.refl _
    | (intro x; try clear_value x)
    | apply State.addSat_keeps
    | apply State.p_keeps
    | lift_lets -underBinder
    | apply Keeps.ite

theorem State.dmaAbort_keeps {mm : Bool} {s0 s : State} (hk : Keeps mm s0 s) (c : Nat) :
    Keeps mm s0 (State.dmaAbort s c) := by
  refine hk.trans ?_; clear hk; unfold State.dmaAbort; try dsimp -zeta only [mkS_eq]
  try lift_lets -underBinder
  with_reducible repeat' first
    | assumption
    | exact Keeps.refl _
    | (intro x; refine Keeps.abs (mm := mm) (x := x) (s := s) ?_ (fun hk => ?_); rotate_left; clear_value x; rotate_right; dsimp -zeta only [x]; try clear x)
    | (intro x; try clear_value x)
    | apply State.free_keeps
    | apply State.setCh_keeps
    | apply State.dmaUnhalt_keeps
    | apply State.irq_keeps
    | apply State.p_keeps
    | apply upd_keeps
    | exact Fits.refl _
    | (apply Keeps.ofpair (by assumption))
    | (apply Keeps.ofpair1 (by assumption))
    | (apply Keeps.oftriple (by assumption))
    | lift_lets -underBinder
    | apply Keeps.ite

theorem State.dmaCtrl_keeps {mm : Bool} {s0 s : State} (hk : Keeps mm s0 s) (c v : Nat) :
    Keeps mm s0 (State.dmaCtrl s c v) := by
  refine hk.trans ?_; clear hk; unfold State.dmaCtrl; try dsimp -zeta only [mkS_eq]
  try lift_lets -underBinder
  with_reducible repeat' first
    | assumption
    | exact Keeps.refl _
    | (intro x; try clear_value x)
    | apply State.dmaUnhalt_keeps
    | apply State.refuse_keeps
    | apply State.dmaEndOther_keeps
    | apply State.dmaAbort_keeps
    | lift_lets -underBinder
    | apply Keeps.ite

theorem State.dmaWarm_keeps {mm : Bool} {s0 s : State} (hk : Keeps mm s0 s) (c : Nat) :
    Keeps mm s0 (State.dmaWarm s c) := by
  refine hk.trans ?_; clear hk; unfold State.dmaWarm; try dsimp -zeta only [mkS_eq]
  try lift_lets -underBinder
  with_reducible repeat' first
    | assumption
    | exact Keeps.refl _
    | (intro x; try clear_value x)
    | apply State.setCh_keeps

theorem State.dmaFlr_keeps {mm : Bool} {s0 s : State} (hk : Keeps mm s0 s) (c : Nat) :
    Keeps mm s0 (State.dmaFlr s c) := by
  refine hk.trans ?_; clear hk; unfold State.dmaFlr; try dsimp -zeta only [mkS_eq]
  try lift_lets -underBinder
  with_reducible repeat' first
    | assumption
    | exact Keeps.refl _
    | (intro x; refine Keeps.abs (mm := mm) (x := x) (s := s) ?_ (fun hk => ?_); rotate_left; clear_value x; rotate_right; dsimp -zeta only [x]; try clear x)
    | (intro x; try clear_value x)
    | apply State.free_keeps
    | apply State.setCh_keeps
    | apply upd_keeps
    | exact Fits.refl _
    | (apply Keeps.ofpair (by assumption))
    | (apply Keeps.ofpair1 (by assumption))
    | (apply Keeps.oftriple (by assumption))
    | lift_lets -underBinder
    | apply Keeps.ite

theorem State.dmaEnabled_keeps {mm : Bool} {s0 s : State} (hk : Keeps mm s0 s) (c : Nat) :
    Keeps mm s0 (State.dmaEnabled s c) := by
  refine hk.trans ?_; clear hk; unfold State.dmaEnabled; try dsimp -zeta only [mkS_eq]
  try lift_lets -underBinder
  with_reducible repeat' first
    | assumption
    | exact Keeps.refl _
    | (intro x; try clear_value x)
    | apply State.dmaSync_keeps
    | apply State.setCh_keeps

theorem State.dmaSoft_keeps {mm : Bool} {s0 s : State} (hk : Keeps mm s0 s) (c : Nat) :
    Keeps mm s0 (State.dmaSoft s c) := by
  refine hk.trans ?_; clear hk; unfold State.dmaSoft; try dsimp -zeta only [mkS_eq]
  try lift_lets -underBinder
  with_reducible repeat' first
    | assumption
    | exact Keeps.refl _
    | (intro x; try clear_value x)
    | apply State.setCh_keeps

theorem execDmaProdWrite_keeps {mm : Bool} {s0 s : State} (hk : Keeps mm s0 s) (c : Fin 16) (value : Word) :
    Keeps mm s0 (after s (execDmaProdWrite c value s)) := by
  refine hk.trans ?_; clear hk; unfold execDmaProdWrite; try dsimp -zeta only [mkS_eq]
  try lift_lets -underBinder
  with_reducible repeat' first
    | assumption
    | exact Keeps.refl _
    | (apply KeepsF.intro; intro s; (try dsimp -zeta only); try lift_lets -underBinder)
    | (intro x; try clear_value x)
    | apply after_next_keeps
    | apply State.hostReg_keeps
    | apply State.dmaProd_keeps

theorem execDmaDescFetch_keeps {s0 s : State} (hk : Keeps false s0 s) (c : Fin 16) (err : Option Bool) :
    Keeps false s0 (after s (execDmaDescFetch c err s)) := by
  refine hk.trans ?_; clear hk; unfold execDmaDescFetch; try dsimp -zeta only [mkS_eq]
  try lift_lets -underBinder
  with_reducible repeat' first
    | assumption
    | exact Keeps.refl _
    | (intro x; try clear_value x)
    | apply after_next_keeps
    | apply State.dmaFetch_keeps

theorem execDmaDescEnd_keeps {s0 s : State} (hk : Keeps false s0 s) (c : Fin 16) (err : Option Bool) :
    Keeps false s0 (after s (execDmaDescEnd c err s)) := by
  refine hk.trans ?_; clear hk; unfold execDmaDescEnd; try dsimp -zeta only [mkS_eq]
  try lift_lets -underBinder
  with_reducible repeat' first
    | assumption
    | exact Keeps.refl _
    | (intro x; try clear_value x)
    | apply after_next_keeps
    | apply State.dmaWriteBack_keeps

theorem execDmaReqSoft_keeps {mm : Bool} {s0 s : State} (hk : Keeps mm s0 s) (c : Fin 16) :
    Keeps mm s0 (after s (execDmaReqSoft c s)) := by
  refine hk.trans ?_; clear hk; unfold execDmaReqSoft; try dsimp -zeta only [mkS_eq]
  try lift_lets -underBinder
  with_reducible repeat' first
    | assumption
    | exact Keeps.refl _
    | (apply KeepsF.intro; intro s; (try dsimp -zeta only); try lift_lets -underBinder)
    | (intro x; try clear_value x)
    | apply after_next_keeps
    | apply State.hostReg_keeps
    | apply State.dmaReqCtrl_keeps

theorem execDmaReqWithdraw_keeps {mm : Bool} {s0 s : State} (hk : Keeps mm s0 s) (c : Fin 16) :
    Keeps mm s0 (after s (execDmaReqWithdraw c s)) := by
  refine hk.trans ?_; clear hk; unfold execDmaReqWithdraw; try dsimp -zeta only [mkS_eq]
  try lift_lets -underBinder
  with_reducible repeat' first
    | assumption
    | exact Keeps.refl _
    | (apply KeepsF.intro; intro s; (try dsimp -zeta only); try lift_lets -underBinder)
    | (intro x; try clear_value x)
    | apply after_next_keeps
    | apply State.hostReg_keeps
    | apply State.dmaReqCtrl_keeps

theorem execDmaHalt_keeps {mm : Bool} {s0 s : State} (hk : Keeps mm s0 s) (c : Fin 16) (cause : Fin 3) :
    Keeps mm s0 (after s (execDmaHalt c cause s)) := by
  refine hk.trans ?_; clear hk; unfold execDmaHalt; try dsimp -zeta only [mkS_eq]
  try lift_lets -underBinder
  with_reducible repeat' first
    | assumption
    | exact Keeps.refl _
    | (intro x; try clear_value x)
    | apply after_next_keeps
    | apply State.dmaBusError_keeps
    | apply State.dmaHalt_keeps
    | lift_lets -underBinder
    | apply Keeps.ite

theorem execDmaResume_keeps {mm : Bool} {s0 s : State} (hk : Keeps mm s0 s) (c : Fin 16) :
    Keeps mm s0 (after s (execDmaResume c s)) := by
  refine hk.trans ?_; clear hk; unfold execDmaResume; try dsimp -zeta only [mkS_eq]
  try lift_lets -underBinder
  with_reducible repeat' first
    | assumption
    | exact Keeps.refl _
    | (apply KeepsF.intro; intro s; (try dsimp -zeta only); try lift_lets -underBinder)
    | (intro x; try clear_value x)
    | apply after_next_keeps
    | apply State.hostReg_keeps
    | apply State.dmaCtrl_keeps

theorem execDmaSkip_keeps {mm : Bool} {s0 s : State} (hk : Keeps mm s0 s) (c : Fin 16) :
    Keeps mm s0 (after s (execDmaSkip c s)) := by
  refine hk.trans ?_; clear hk; unfold execDmaSkip; try dsimp -zeta only [mkS_eq]
  try lift_lets -underBinder
  with_reducible repeat' first
    | assumption
    | exact Keeps.refl _
    | (apply KeepsF.intro; intro s; (try dsimp -zeta only); try lift_lets -underBinder)
    | (intro x; try clear_value x)
    | apply after_next_keeps
    | apply State.hostReg_keeps
    | apply State.dmaCtrl_keeps

theorem execDmaAbort_keeps {mm : Bool} {s0 s : State} (hk : Keeps mm s0 s) (c : Fin 16) :
    Keeps mm s0 (after s (execDmaAbort c s)) := by
  refine hk.trans ?_; clear hk; unfold execDmaAbort; try dsimp -zeta only [mkS_eq]
  try lift_lets -underBinder
  with_reducible repeat' first
    | assumption
    | exact Keeps.refl _
    | (apply KeepsF.intro; intro s; (try dsimp -zeta only); try lift_lets -underBinder)
    | (intro x; try clear_value x)
    | apply after_next_keeps
    | apply State.hostReg_keeps
    | apply State.dmaCtrl_keeps

end Sys2Proof.Machine
end

