-- ==== Sys2Proof/Laws/KeepsPower.lean ====
section
/-! SUPPORT. What the functions of Machine/Power.lean keep: the part, the queue, the memories where they store nothing, and the
canonical form of the tables. -/

namespace Sys2Proof.Machine
theorem State.setShed_keeps {s0 s : State} (hk : Keeps false s0 s) (step : Nat) :
    Keeps false s0 (State.setShed s step) := by
  refine hk.trans ?_; clear hk; unfold State.setShed; try dsimp -zeta only [mkS_eq]
  try lift_lets -underBinder
  with_reducible repeat' first
    | assumption
    | exact Keeps.refl _
    | (intro x; refine Keeps.abs (mm := false) (x := x) (s := s) ?_ (fun hk => ?_); rotate_left; clear_value x; rotate_right; dsimp -zeta only [x]; try clear x)
    | (intro x; try clear_value x)
    | apply State.irq_keeps
    | apply State.p_keeps
    | apply State.gcxUnshed_keeps
    | apply State.codKick_keeps
    | apply State.dspShedSync_keeps
    | apply State.dmaShedSync_keeps
    | apply State.codShedSync_keeps
    | apply upd_keeps
    | exact Fits.refl _
    | lift_lets -underBinder
    | apply Keeps.ite

theorem State.shedStep_keeps {s0 s : State} (hk : Keeps false s0 s) (exhausted : List Nat) :
    Keeps false s0 (State.shedStep s exhausted) := by
  refine hk.trans ?_; clear hk; unfold State.shedStep; try dsimp -zeta only [mkS_eq]
  try lift_lets -underBinder
  with_reducible repeat' first
    | assumption
    | exact Keeps.refl _
    | (intro x; refine Keeps.abs (mm := false) (x := x) (s := s) ?_ (fun hk => ?_); rotate_left; clear_value x; rotate_right; dsimp -zeta only [x]; try clear x)
    | (intro x; try clear_value x)
    | apply State.setShed_keeps
    | apply foldl_keeps
    | apply upd_keeps
    | exact Fits.refl _
    | lift_lets -underBinder
    | apply Keeps.ite

theorem State.setHead_keeps {mm : Bool} {s0 s : State} (hk : Keeps mm s0 s) (u : Nat) (h : Int) :
    Keeps mm s0 (State.setHead s u h) := by
  refine hk.trans ?_; clear hk; unfold State.setHead; try dsimp -zeta only [mkS_eq]
  try lift_lets -underBinder
  with_reducible repeat' first
    | assumption
    | exact Keeps.refl _
    | (intro x; try clear_value x)
    | apply State.wr_keeps

theorem State.paceWindow_keeps {s0 s : State} (hk : Keeps false s0 s) (counts : List Nat) :
    Keeps false s0 (State.paceWindow s counts) := by
  refine hk.trans ?_; clear hk; unfold State.paceWindow; try dsimp -zeta only [mkS_eq]
  try lift_lets -underBinder
  with_reducible repeat' first
    | assumption
    | exact Keeps.refl _
    | (apply KeepsF.intro; intro s; (try dsimp -zeta only); try lift_lets -underBinder)
    | (intro x; refine Keeps.abs (mm := false) (x := x) (s := s) ?_ (fun hk => ?_); rotate_left; clear_value x; rotate_right; dsimp -zeta only [x]; try clear x)
    | (intro x; try clear_value x)
    | apply State.setHead_keeps
    | apply State.p_keeps
    | apply State.fault_keeps
    | apply State.addSat_keeps
    | apply State.reportOnly_keeps
    | apply State.irqIf_keeps
    | apply State.count_keeps
    | apply State.shedStep_keeps
    | apply foldl_keeps
    | apply upd_keeps
    | exact Fits.refl _
    | lift_lets -underBinder
    | apply Keeps.ite

theorem State.avsSend_keeps {mm : Bool} {s0 s : State} (hk : Keeps mm s0 s) (f : Nat) (retry : Bool) :
    Keeps mm s0 (State.avsSend s f retry) := by
  refine hk.trans ?_; clear hk; unfold State.avsSend; try dsimp -zeta only [mkS_eq]
  try lift_lets -underBinder
  with_reducible repeat' first
    | assumption
    | exact Keeps.refl _
    | (intro x; refine Keeps.abs (mm := mm) (x := x) (s := s) ?_ (fun hk => ?_); rotate_left; clear_value x; rotate_right; dsimp -zeta only [x]; try clear x)
    | (intro x; try clear_value x)
    | apply State.addSat_keeps
    | apply State.emit_keeps
    | apply upd_keeps
    | exact Fits.refl _
    | lift_lets -underBinder
    | apply Keeps.ite

theorem State.marginsApply_keeps {mm : Bool} {s0 s : State} (hk : Keeps mm s0 s) :
    Keeps mm s0 (State.marginsApply s) := by
  refine hk.trans ?_; clear hk; unfold State.marginsApply; try dsimp -zeta only [mkS_eq]
  try lift_lets -underBinder
  with_reducible repeat' first
    | assumption
    | exact Keeps.refl _
    | (apply KeepsF.intro; intro s; (try dsimp -zeta only); try lift_lets -underBinder)
    | (intro x; refine Keeps.abs (mm := mm) (x := x) (s := s) ?_ (fun hk => ?_); rotate_left; clear_value x; rotate_right; dsimp -zeta only [x]; try clear x)
    | (intro x; try clear_value x)
    | apply State.p_keeps
    | apply foldl_keeps
    | apply upd_keeps
    | exact Fits.refl _

theorem State.dieBand_keeps {mm : Bool} {s0 s : State} (hk : Keeps mm s0 s) (die band : Nat) :
    Keeps mm s0 (State.dieBand s die band) := by
  refine hk.trans ?_; clear hk; unfold State.dieBand; try dsimp -zeta only [mkS_eq]
  try lift_lets -underBinder
  with_reducible repeat' first
    | assumption
    | exact Keeps.refl _
    | (intro x; refine Keeps.abs (mm := mm) (x := x) (s := s) ?_ (fun hk => ?_); rotate_left; clear_value x; rotate_right; dsimp -zeta only [x]; try clear x)
    | (intro x; try clear_value x)
    | apply State.marginsApply_keeps
    | apply upd_keeps
    | exact Fits.refl _
    | lift_lets -underBinder
    | apply Keeps.ite

theorem State.loopSet_keeps {mm : Bool} {s0 s : State} (hk : Keeps mm s0 s) (target : Nat) :
    Keeps mm s0 (State.loopSet s target) := by
  refine hk.trans ?_; clear hk; unfold State.loopSet; try dsimp -zeta only [mkS_eq]
  try lift_lets -underBinder
  with_reducible repeat' first
    | assumption
    | exact Keeps.refl _
    | (intro x; refine Keeps.abs (mm := mm) (x := x) (s := s) ?_ (fun hk => ?_); rotate_left; clear_value x; rotate_right; dsimp -zeta only [x]; try clear x)
    | (intro x; try clear_value x)
    | apply State.avsSend_keeps
    | apply State.p_keeps
    | apply upd_keeps
    | exact Fits.refl _

theorem State.loopWindow_keeps {mm : Bool} {s0 s : State} (hk : Keeps mm s0 s) :
    Keeps mm s0 (State.loopWindow s) := by
  refine hk.trans ?_; clear hk; unfold State.loopWindow; try dsimp -zeta only [mkS_eq]
  try lift_lets -underBinder
  with_reducible repeat' first
    | assumption
    | exact Keeps.refl _
    | (intro x; refine Keeps.abs (mm := mm) (x := x) (s := s) ?_ (fun hk => ?_); rotate_left; clear_value x; rotate_right; dsimp -zeta only [x]; try clear x)
    | (intro x; try clear_value x)
    | apply State.avsSend_keeps
    | apply State.marginsApply_keeps
    | apply State.loopSet_keeps
    | apply State.irqIf_keeps
    | apply upd_keeps
    | exact Fits.refl _
    | lift_lets -underBinder
    | apply Keeps.ite
    | split

theorem State.avsFault_keeps {mm : Bool} {s0 s : State} (hk : Keeps mm s0 s) :
    Keeps mm s0 (State.avsFault s) := by
  refine hk.trans ?_; clear hk; unfold State.avsFault; try dsimp -zeta only [mkS_eq]
  try lift_lets -underBinder
  with_reducible repeat' first
    | assumption
    | exact Keeps.refl _
    | (apply KeepsF.intro; intro s; (try dsimp -zeta only); try lift_lets -underBinder)
    | (intro x; refine Keeps.abs (mm := mm) (x := x) (s := s) ?_ (fun hk => ?_); rotate_left; clear_value x; rotate_right; dsimp -zeta only [x]; try clear x)
    | (intro x; try clear_value x)
    | apply State.fault_keeps
    | apply State.irq_keeps
    | apply State.report_keeps
    | apply upd_keeps
    | exact Fits.refl _

theorem State.avsAnswer_keeps {mm : Bool} {s0 s : State} (hk : Keeps mm s0 s) (a : Option Nat) :
    Keeps mm s0 (State.avsAnswer s a) := by
  refine hk.trans ?_; clear hk; unfold State.avsAnswer; try dsimp -zeta only [mkS_eq]
  try lift_lets -underBinder
  with_reducible repeat' first
    | assumption
    | exact Keeps.refl _
    | (intro x; refine Keeps.abs (mm := mm) (x := x) (s := s) ?_ (fun hk => ?_); rotate_left; clear_value x; rotate_right; dsimp -zeta only [x]; try clear x)
    | (intro x; try clear_value x)
    | apply State.avsFault_keeps
    | apply State.p_keeps
    | apply State.fault_keeps
    | apply State.marginsApply_keeps
    | apply upd_keeps
    | exact Fits.refl _
    | lift_lets -underBinder
    | apply Keeps.ite
    | split

theorem State.raiseTimeout_keeps {mm : Bool} {s0 s : State} (hk : Keeps mm s0 s) :
    Keeps mm s0 (State.raiseTimeout s) := by
  refine hk.trans ?_; clear hk; unfold State.raiseTimeout; try dsimp -zeta only [mkS_eq]
  try lift_lets -underBinder
  with_reducible repeat' first
    | assumption
    | exact Keeps.refl _
    | (intro x; refine Keeps.abs (mm := mm) (x := x) (s := s) ?_ (fun hk => ?_); rotate_left; clear_value x; rotate_right; dsimp -zeta only [x]; try clear x)
    | (intro x; try clear_value x)
    | apply State.marginsApply_keeps
    | apply State.avsFault_keeps
    | apply upd_keeps
    | exact Fits.refl _
    | lift_lets -underBinder
    | apply Keeps.ite
    | split

theorem State.domPowered_keeps {mm : Bool} {s0 s : State} (hk : Keeps mm s0 s) (d : Nat) (up : Bool) :
    Keeps mm s0 (State.domPowered s d up) := by
  refine hk.trans ?_; clear hk; unfold State.domPowered; try dsimp -zeta only [mkS_eq]
  try lift_lets -underBinder
  with_reducible repeat' first
    | assumption
    | exact Keeps.refl _
    | (apply KeepsF.intro; intro s; (try dsimp -zeta only); try lift_lets -underBinder)
    | (intro x; refine Keeps.abs (mm := mm) (x := x) (s := s) ?_ (fun hk => ?_); rotate_left; clear_value x; rotate_right; dsimp -zeta only [x]; try clear x)
    | (intro x; try clear_value x)
    | apply State.p_keeps
    | apply State.testYield_keeps
    | apply State.spareSync_keeps
    | apply foldl_keeps
    | apply upd_keeps
    | exact Fits.refl _
    | lift_lets -underBinder
    | apply Keeps.ite
    | split

theorem State.segmentSettled_keeps {mm : Bool} {s0 s : State} (hk : Keeps mm s0 s) (d : Nat) :
    Keeps mm s0 (State.segmentSettled s d) := by
  refine hk.trans ?_; clear hk; unfold State.segmentSettled; try dsimp -zeta only [mkS_eq]
  try lift_lets -underBinder
  with_reducible repeat' first
    | assumption
    | exact Keeps.refl _
    | (intro x; try clear_value x)
    | apply State.seqSettle_keeps
    | apply State.domPowered_keeps
    | apply upd_keeps
    | exact Fits.refl _
    | (apply Keeps.ofpair (by assumption))
    | (apply Keeps.ofpair1 (by assumption))
    | (apply Keeps.oftriple (by assumption))
    | lift_lets -underBinder
    | apply Keeps.ite
    | split

theorem State.domRequest_keeps {mm : Bool} {s0 s : State} (hk : Keeps mm s0 s) (blk : Blk) (i : Nat) :
    Keeps mm s0 (State.domRequest s blk i) := by
  refine hk.trans ?_; clear hk; unfold State.domRequest; try dsimp -zeta only [mkS_eq]
  try lift_lets -underBinder
  with_reducible repeat' first
    | assumption
    | exact Keeps.refl _
    | (intro x; try clear_value x)
    | apply State.seqRequest_keeps
    | apply upd_keeps
    | exact Fits.refl _
    | lift_lets -underBinder
    | apply Keeps.ite
    | split

theorem execPaceWindowEnd_keeps {s0 s : State} (hk : Keeps false s0 s) (counts : List Nat) :
    Keeps false s0 (after s (execPaceWindowEnd counts s)) := by
  refine hk.trans ?_; clear hk; unfold execPaceWindowEnd; try dsimp -zeta only [mkS_eq]
  try lift_lets -underBinder
  with_reducible repeat' first
    | assumption
    | exact Keeps.refl _
    | (intro x; try clear_value x)
    | apply after_next_keeps
    | apply State.paceWindow_keeps

theorem execShedRelease_keeps {s0 s : State} (hk : Keeps false s0 s) :
    Keeps false s0 (after s (execShedRelease s)) := by
  refine hk.trans ?_; clear hk; unfold execShedRelease; try dsimp -zeta only [mkS_eq]
  try lift_lets -underBinder
  with_reducible repeat' first
    | assumption
    | exact Keeps.refl _
    | (intro x; try clear_value x)
    | apply after_next_keeps
    | apply State.setShed_keeps
    | lift_lets -underBinder
    | apply Keeps.ite

theorem execSupplyLoopWindow_keeps {mm : Bool} {s0 s : State} (hk : Keeps mm s0 s) :
    Keeps mm s0 (after s (execSupplyLoopWindow s)) := by
  refine hk.trans ?_; clear hk; unfold execSupplyLoopWindow; try dsimp -zeta only [mkS_eq]
  try lift_lets -underBinder
  with_reducible repeat' first
    | assumption
    | exact Keeps.refl _
    | (intro x; try clear_value x)
    | apply after_next_keeps
    | apply State.loopWindow_keeps

theorem execAvsAnswer_keeps {mm : Bool} {s0 s : State} (hk : Keeps mm s0 s) (answer : Option (BitVec 24)) :
    Keeps mm s0 (after s (execAvsAnswer answer s)) := by
  refine hk.trans ?_; clear hk; unfold execAvsAnswer; try dsimp -zeta only [mkS_eq]
  try lift_lets -underBinder
  with_reducible repeat' first
    | assumption
    | exact Keeps.refl _
    | (intro x; try clear_value x)
    | apply after_next_keeps
    | apply State.avsAnswer_keeps

theorem execAvsRaiseTimeout_keeps {mm : Bool} {s0 s : State} (hk : Keeps mm s0 s) :
    Keeps mm s0 (after s (execAvsRaiseTimeout s)) := by
  refine hk.trans ?_; clear hk; unfold execAvsRaiseTimeout; try dsimp -zeta only [mkS_eq]
  try lift_lets -underBinder
  with_reducible repeat' first
    | assumption
    | exact Keeps.refl _
    | (intro x; try clear_value x)
    | apply after_next_keeps
    | apply State.raiseTimeout_keeps

theorem execDomainSegmentSettled_keeps {mm : Bool} {s0 s : State} (hk : Keeps mm s0 s) (d : Fin 265) :
    Keeps mm s0 (after s (execDomainSegmentSettled d s)) := by
  refine hk.trans ?_; clear hk; unfold execDomainSegmentSettled; try dsimp -zeta only [mkS_eq]
  try lift_lets -underBinder
  with_reducible repeat' first
    | assumption
    | exact Keeps.refl _
    | (intro x; try clear_value x)
    | apply after_next_keeps
    | apply State.segmentSettled_keeps

theorem execPaceBudgetWindow_keeps {mm : Bool} {s0 s : State} (hk : Keeps mm s0 s) :
    Keeps mm s0 (after s (execPaceBudgetWindow s)) := by
  refine hk.trans ?_; clear hk; unfold execPaceBudgetWindow; try dsimp -zeta only [mkS_eq]
  try lift_lets -underBinder
  with_reducible repeat' first
    | assumption
    | exact Keeps.refl _
    | (intro x; try clear_value x)
    | apply after_next_keeps
    | apply State.seqWindow_keeps

end Sys2Proof.Machine
end

