-- ==== Sys2Proof/Laws/KeepsThermal.lean ====
section
/-! SUPPORT. What the functions of Machine/Thermal.lean keep: the part, the queue, the memories where they store nothing, and the
canonical form of the tables. -/

namespace Sys2Proof.Machine
theorem State.sensorCheck_keeps {mm : Bool} {s0 s : State} (hk : Keeps mm s0 s) (passes : Bool) (x : Nat × Int) (i : Nat) :
    Keeps mm s0 (State.sensorCheck s passes x i) := by
  refine hk.trans ?_; clear hk; unfold State.sensorCheck; try dsimp -zeta only [mkS_eq]
  try lift_lets -underBinder
  with_reducible repeat' first
    | assumption
    | exact Keeps.refl _
    | (apply KeepsF.intro; intro s; (try dsimp -zeta only); try lift_lets -underBinder)
    | (intro x; refine Keeps.abs (mm := mm) (x := x) (s := s) ?_ (fun hk => ?_); rotate_left; clear_value x; rotate_right; dsimp -zeta only [x]; try clear x)
    | (intro x; refine KeepsF.abs (mm := mm) (x := x) ?_ (fun hk => ?_); rotate_left; clear_value x; rotate_right; dsimp -zeta only [x]; try clear x)
    | ((apply KeepsF.ap (by assumption)))
    | ((apply KeepsF2.ap (by assumption)))
    | ((apply KeepsF3.ap (by assumption)))
    | (intro x; try clear_value x)
    | apply State.p_keeps
    | apply State.reportOnly_keeps
    | apply State.irq_keeps
    | apply State.fault_keeps
    | apply State.pBit_keeps
    | apply State.report_keeps
    | apply upd_keeps
    | exact Fits.refl _
    | lift_lets -underBinder
    | apply Keeps.ite

theorem State.pairCheck_keeps {mm : Bool} {s0 s : State} (hk : Keeps mm s0 s) (k : Nat) :
    Keeps mm s0 (State.pairCheck s k) := by
  refine hk.trans ?_; clear hk; unfold State.pairCheck; try dsimp -zeta only [mkS_eq]
  try lift_lets -underBinder
  with_reducible repeat' first
    | assumption
    | exact Keeps.refl _
    | (intro x; try clear_value x)
    | apply State.reportOnly_keeps
    | lift_lets -underBinder
    | apply Keeps.ite

theorem State.substitute_keeps {mm : Bool} {s0 s : State} (hk : Keeps mm s0 s) :
    Keeps mm s0 (State.substitute s) := by
  refine hk.trans ?_; clear hk; unfold State.substitute; try dsimp -zeta only [mkS_eq]
  try lift_lets -underBinder
  with_reducible repeat' first
    | assumption
    | exact Keeps.refl _
    | (apply KeepsF.intro; intro s; (try dsimp -zeta only); try lift_lets -underBinder)
    | (intro x; try clear_value x)
    | apply State.p_keeps
    | apply foldl_keeps

theorem State.hbmMult_keeps {mm : Bool} {s0 s : State} (hk : Keeps mm s0 s) (k : Nat) :
    Keeps mm s0 (State.hbmMult s k) := by
  refine hk.trans ?_; clear hk; unfold State.hbmMult; try dsimp -zeta only [mkS_eq]
  try lift_lets -underBinder
  with_reducible repeat' first
    | assumption
    | exact Keeps.refl _
    | (intro x; try clear_value x)
    | apply State.irq_keeps
    | apply State.p_keeps
    | lift_lets -underBinder
    | apply Keeps.ite

theorem State.zoneRound_keeps {mm : Bool} {s0 s : State} (hk : Keeps mm s0 s) (z : Nat) :
    Keeps mm s0 (State.zoneRound s z).2 := by
  refine hk.trans ?_; clear hk; unfold State.zoneRound; try dsimp -zeta only [mkS_eq]
  try lift_lets -underBinder
  with_reducible repeat' first
    | assumption
    | exact Keeps.refl _
    | (apply KeepsF.intro; intro s; (try dsimp -zeta only); try lift_lets -underBinder)
    | (intro x; refine Keeps.abs (mm := mm) (x := x) (s := s) ?_ (fun hk => ?_); rotate_left; clear_value x; rotate_right; dsimp -zeta only [x]; try clear x)
    | (intro x; try clear_value x)
    | apply State.p_keeps
    | apply State.dieBand_keeps
    | apply State.quadBand_keeps
    | apply forN_keeps
    | lift_lets -underBinder
    | apply Keeps.ite
    | split

theorem State.shutdownBegin_keeps {s0 s : State} (hk : Keeps false s0 s) (cause detail : Nat) :
    Keeps false s0 (State.shutdownBegin s cause detail) := by
  refine hk.trans ?_; clear hk; unfold State.shutdownBegin; try dsimp -zeta only [mkS_eq]
  try lift_lets -underBinder
  with_reducible repeat' first
    | assumption
    | exact Keeps.refl _
    | (apply KeepsF.intro; intro s; (try dsimp -zeta only); try lift_lets -underBinder)
    | (intro x; refine Keeps.abs (mm := false) (x := x) (s := s) ?_ (fun hk => ?_); rotate_left; clear_value x; rotate_right; dsimp -zeta only [x]; try clear x)
    | (intro x; try clear_value x)
    | apply State.irq_keeps
    | apply State.p_keeps
    | apply State.report_keeps
    | apply State.fault_keeps
    | apply State.setShed_keeps
    | apply State.faultNCause_keeps
    | apply State.witAbandon_keeps
    | apply forN_keeps
    | apply upd_keeps
    | exact Fits.refl _

theorem State.drainEnd_keeps {s0 s : State} (hk : Keeps false s0 s) (hard : Bool) :
    Keeps false s0 (State.drainEnd s hard) := by
  refine hk.trans ?_; clear hk; unfold State.drainEnd; try dsimp -zeta only [mkS_eq]
  try lift_lets -underBinder
  with_reducible repeat' first
    | assumption
    | exact Keeps.refl _
    | (apply KeepsF.intro; intro s; (try dsimp -zeta only); try lift_lets -underBinder)
    | (intro x; refine Keeps.abs (mm := false) (x := x) (s := s) ?_ (fun hk => ?_); rotate_left; clear_value x; rotate_right; dsimp -zeta only [x]; try clear x)
    | (intro x; try clear_value x)
    | apply State.p_keeps
    | apply State.abandonAll_keeps
    | apply forN_keeps
    | apply upd_keeps
    | exact Fits.refl _

theorem State.thresholds_keeps {mm : Bool} {s0 s : State} (hk : Keeps mm s0 s) (hi ror band : Bool) :
    Keeps mm s0 (State.thresholds s hi ror band) := by
  refine hk.trans ?_; clear hk; unfold State.thresholds; try dsimp -zeta only [mkS_eq]
  try lift_lets -underBinder
  with_reducible repeat' first
    | assumption
    | exact Keeps.refl _
    | (intro x; refine Keeps.abs (mm := mm) (x := x) (s := s) ?_ (fun hk => ?_); rotate_left; clear_value x; rotate_right; dsimp -zeta only [x]; try clear x)
    | (intro x; try clear_value x)
    | apply State.irqIf_keeps
    | apply upd_keeps
    | exact Fits.refl _

theorem State.remember_keeps {mm : Bool} {s0 s : State} (hk : Keeps mm s0 s) :
    Keeps mm s0 (State.remember s) := by
  refine hk.trans ?_; clear hk; unfold State.remember; try dsimp -zeta only [mkS_eq]
  try lift_lets -underBinder
  with_reducible repeat' first
    | assumption
    | exact Keeps.refl _
    | (intro x; try clear_value x)
    | apply upd_keeps
    | exact Fits.refl _

theorem State.stackTemp_keeps {mm : Bool} {s0 s : State} (hk : Keeps mm s0 s) (t : Int) (k : Nat) :
    Keeps mm s0 (State.stackTemp s t k) := by
  refine hk.trans ?_; clear hk; unfold State.stackTemp; try dsimp -zeta only [mkS_eq]
  try lift_lets -underBinder
  with_reducible repeat' first
    | assumption
    | exact Keeps.refl _
    | (intro x; try clear_value x)
    | apply State.hbmMult_keeps
    | apply State.p_keeps
    | lift_lets -underBinder
    | apply Keeps.ite

theorem State.housekeeping_keeps {s0 s : State} (hk : Keeps false s0 s) (readings : List (Nat × Int)) (temps : List Int) :
    Keeps false s0 (State.housekeeping s readings temps) := by
  refine hk.trans ?_; clear hk; unfold State.housekeeping; try dsimp -zeta only [mkS_eq]
  try lift_lets -underBinder
  with_reducible repeat' first
    | assumption
    | exact Keeps.refl _
    | (apply KeepsF.intro; intro s; (try dsimp -zeta only); try lift_lets -underBinder)
    | (apply KeepsP.intro; intro b s; (try dsimp -zeta only); try lift_lets -underBinder)
    | (intro x; refine Keeps.abs (mm := false) (x := x) (s := s) ?_ (fun hk => ?_); rotate_left; clear_value x; rotate_right; dsimp -zeta only [x]; try clear x)
    | (intro x; refine Keeps.abs (mm := false) (x := x.2) (s := s) ?_ (fun hk => ?_); rotate_left; clear_value x; rotate_right; dsimp -zeta only [x]; try clear x)
    | (intro x; try clear_value x)
    | apply State.sensorCheck_keeps
    | apply State.substitute_keeps
    | apply State.pairCheck_keeps
    | apply State.zoneRound_keeps
    | apply State.stackTemp_keeps
    | apply State.thresholds_keeps
    | apply State.p_keeps
    | apply State.count_keeps
    | apply State.remember_keeps
    | apply State.addMod_keeps
    | apply State.shutdownBegin_keeps
    | apply State.drainEnd_keeps
    | apply foldl_keeps
    | apply foldl2_keeps
    | apply forN_keeps
    | apply upd_keeps
    | exact Fits.refl _
    | (apply Keeps.ofpair (by assumption))
    | (apply Keeps.ofpair1 (by assumption))
    | (apply Keeps.oftriple (by assumption))
    | lift_lets -underBinder
    | apply Keeps.ite
    | split

theorem State.thmCtrl_keeps {mm : Bool} {s0 s : State} (hk : Keeps mm s0 s) (v : Nat) :
    Keeps mm s0 (State.thmCtrl s v) := by
  refine hk.trans ?_; clear hk; unfold State.thmCtrl; try dsimp -zeta only [mkS_eq]
  try lift_lets -underBinder
  with_reducible repeat' first
    | assumption
    | exact Keeps.refl _
    | (intro x; try clear_value x)
    | apply upd_keeps
    | exact Fits.refl _
    | lift_lets -underBinder
    | apply Keeps.ite

theorem State.stopped_keeps {s0 s : State} (hk : Keeps false s0 s) :
    Keeps false s0 (State.stopped s) := by
  refine hk.trans ?_; clear hk; unfold State.stopped; try dsimp -zeta only [mkS_eq]
  try lift_lets -underBinder
  with_reducible repeat' first
    | assumption
    | exact Keeps.refl _
    | (apply KeepsF.intro; intro s; (try dsimp -zeta only); try lift_lets -underBinder)
    | (intro x; refine Keeps.abs (mm := false) (x := x) (s := s) ?_ (fun hk => ?_); rotate_left; clear_value x; rotate_right; dsimp -zeta only [x]; try clear x)
    | (intro x; try clear_value x)
    | apply State.p_keeps
    | apply State.kick_keeps
    | apply State.seqRequest_keeps
    | apply State.feedOff_keeps
    | apply foldl_keeps
    | apply forN_keeps

theorem State.shutdownLeave_keeps {s0 s : State} (hk : Keeps false s0 s) :
    Keeps false s0 (State.shutdownLeave s) := by
  refine hk.trans ?_; clear hk; unfold State.shutdownLeave; try dsimp -zeta only [mkS_eq]
  try lift_lets -underBinder
  with_reducible repeat' first
    | assumption
    | exact Keeps.refl _
    | (intro x; refine Keeps.abs (mm := false) (x := x) (s := s) ?_ (fun hk => ?_); rotate_left; clear_value x; rotate_right; dsimp -zeta only [x]; try clear x)
    | (intro x; try clear_value x)
    | apply State.fault_keeps
    | apply State.p_keeps
    | apply State.setShed_keeps
    | apply upd_keeps
    | exact Fits.refl _

theorem execHousekeepingRound_keeps {s0 s : State} (hk : Keeps false s0 s) (readings : List (Nat × Int)) (temps : List Int) :
    Keeps false s0 (after s (execHousekeepingRound readings temps s)) := by
  refine hk.trans ?_; clear hk; unfold execHousekeepingRound; try dsimp -zeta only [mkS_eq]
  try lift_lets -underBinder
  with_reducible repeat' first
    | assumption
    | exact Keeps.refl _
    | (intro x; try clear_value x)
    | apply after_next_keeps
    | apply State.housekeeping_keeps

theorem execThmShutdown_keeps {mm : Bool} {s0 s : State} (hk : Keeps mm s0 s) :
    Keeps mm s0 (after s (execThmShutdown s)) := by
  refine hk.trans ?_; clear hk; unfold execThmShutdown; try dsimp -zeta only [mkS_eq]
  try lift_lets -underBinder
  with_reducible repeat' first
    | assumption
    | exact Keeps.refl _
    | (apply KeepsF.intro; intro s; (try dsimp -zeta only); try lift_lets -underBinder)
    | (intro x; try clear_value x)
    | apply after_next_keeps
    | apply State.hostReg_keeps
    | apply State.thmCtrl_keeps

theorem execDrainEnd_keeps {s0 s : State} (hk : Keeps false s0 s) :
    Keeps false s0 (after s (execDrainEnd s)) := by
  refine hk.trans ?_; clear hk; unfold execDrainEnd; try dsimp -zeta only [mkS_eq]
  try lift_lets -underBinder
  with_reducible repeat' first
    | assumption
    | exact Keeps.refl _
    | (intro x; try clear_value x)
    | apply after_next_keeps
    | apply State.drainEnd_keeps
    | lift_lets -underBinder
    | apply Keeps.ite

theorem execShutdownStopped_keeps {s0 s : State} (hk : Keeps false s0 s) :
    Keeps false s0 (after s (execShutdownStopped s)) := by
  refine hk.trans ?_; clear hk; unfold execShutdownStopped; try dsimp -zeta only [mkS_eq]
  try lift_lets -underBinder
  with_reducible repeat' first
    | assumption
    | exact Keeps.refl _
    | (intro x; try clear_value x)
    | apply after_next_keeps
    | apply State.stopped_keeps
    | lift_lets -underBinder
    | apply Keeps.ite

end Sys2Proof.Machine
end

