-- ==== Sys2Proof/Laws/KeepsCounters.lean ====
section
/-! SUPPORT. What the functions of Machine/Counters.lean keep: the part, the queue, the memories where they store nothing, and the
canonical form of the tables. -/

namespace Sys2Proof.Machine
theorem State.cntClear_keeps {mm : Bool} {s0 s : State} (hk : Keeps mm s0 s) :
    Keeps mm s0 (State.cntClear s) := by
  refine hk.trans ?_; clear hk; unfold State.cntClear; try dsimp -zeta only [mkS_eq]
  try lift_lets -underBinder
  with_reducible repeat' first
    | assumption
    | exact Keeps.refl _
    | (apply KeepsF.intro; intro s; (try dsimp -zeta only); try lift_lets -underBinder)
    | (intro x; try clear_value x)
    | apply State.p_keeps
    | apply forN_keeps
    | apply upd_keeps
    | exact Fits.refl _
    | apply zero_keeps

theorem State.cntCtrl_keeps {mm : Bool} {s0 s : State} (hk : Keeps mm s0 s) (v : Nat) :
    Keeps mm s0 (State.cntCtrl s v) := by
  refine hk.trans ?_; clear hk; unfold State.cntCtrl; try dsimp -zeta only [mkS_eq]
  try lift_lets -underBinder
  with_reducible repeat' first
    | assumption
    | exact Keeps.refl _
    | (intro x; refine Keeps.abs (mm := mm) (x := x) (s := s) ?_ (fun hk => ?_); rotate_left; clear_value x; rotate_right; dsimp -zeta only [x]; try clear x)
    | (intro x; try clear_value x)
    | apply State.cntClear_keeps
    | apply State.p_keeps
    | lift_lets -underBinder
    | apply Keeps.ite

theorem State.cntCfg_keeps {mm : Bool} {s0 s : State} (hk : Keeps mm s0 s) (n v : Nat) :
    Keeps mm s0 (State.cntCfg s n v) := by
  refine hk.trans ?_; clear hk; unfold State.cntCfg; try dsimp -zeta only [mkS_eq]
  try lift_lets -underBinder
  with_reducible repeat' first
    | assumption
    | exact Keeps.refl _
    | (intro x; refine Keeps.abs (mm := mm) (x := x) (s := s) ?_ (fun hk => ?_); rotate_left; clear_value x; rotate_right; dsimp -zeta only [x]; try clear x)
    | (intro x; try clear_value x)
    | apply State.plainWrite_keeps
    | apply State.p_keeps

theorem State.cntValWrite_keeps {mm : Bool} {s0 s : State} (hk : Keeps mm s0 s) (n : Nat) (high : Bool) (v : Nat) :
    Keeps mm s0 (State.cntValWrite s n high v) := by
  refine hk.trans ?_; clear hk; unfold State.cntValWrite
  split
  · exact State.refuse_keeps (Keeps.refl _) ..
  · refine State.setCnt_keeps (Keeps.refl _) _ _ ?_
    intro x hx
    cases high <;> simp only [Bool.false_eq_true, if_false, if_true] <;> omega

theorem State.cntLatch_keeps {mm : Bool} {s0 s : State} (hk : Keeps mm s0 s) (n : Nat) :
    Keeps mm s0 (State.cntLatch s n) := by
  refine hk.trans ?_; clear hk; unfold State.cntLatch; try dsimp -zeta only [mkS_eq]
  try lift_lets -underBinder
  with_reducible repeat' first
    | assumption
    | exact Keeps.refl _
    | (intro x; try clear_value x)
    | apply State.wr_keeps

theorem execCntRun_keeps {mm : Bool} {s0 s : State} (hk : Keeps mm s0 s) (run userEn : Bool) :
    Keeps mm s0 (after s (execCntRun run userEn s)) := by
  refine hk.trans ?_; clear hk; unfold execCntRun; try dsimp -zeta only [mkS_eq]
  try lift_lets -underBinder
  with_reducible repeat' first
    | assumption
    | exact Keeps.refl _
    | (apply KeepsF.intro; intro s; (try dsimp -zeta only); try lift_lets -underBinder)
    | (intro x; try clear_value x)
    | apply after_next_keeps
    | apply State.hostReg_keeps
    | apply State.cntCtrl_keeps

theorem execCntSettled_keeps {mm : Bool} {s0 s : State} (hk : Keeps mm s0 s) :
    Keeps mm s0 (after s (execCntSettled s)) := by
  refine hk.trans ?_; clear hk; unfold execCntSettled; try dsimp -zeta only [mkS_eq]
  try lift_lets -underBinder
  with_reducible repeat' first
    | assumption
    | exact Keeps.refl _
    | (intro x; try clear_value x)
    | apply after_next_keeps
    | apply State.p_keeps

theorem execClearAll_keeps {mm : Bool} {s0 s : State} (hk : Keeps mm s0 s) :
    Keeps mm s0 (after s (execClearAll s)) := by
  refine hk.trans ?_; clear hk; unfold execClearAll; try dsimp -zeta only [mkS_eq]
  try lift_lets -underBinder
  with_reducible repeat' first
    | assumption
    | exact Keeps.refl _
    | (apply KeepsF.intro; intro s; (try dsimp -zeta only); try lift_lets -underBinder)
    | (intro x; try clear_value x)
    | apply after_next_keeps
    | apply State.hostReg_keeps
    | apply State.cntCtrl_keeps

theorem execCntCfgWrite_keeps {mm : Bool} {s0 s : State} (hk : Keeps mm s0 s) (n : Fin 256) (value : Word) :
    Keeps mm s0 (after s (execCntCfgWrite n value s)) := by
  refine hk.trans ?_; clear hk; unfold execCntCfgWrite; try dsimp -zeta only [mkS_eq]
  try lift_lets -underBinder
  with_reducible repeat' first
    | assumption
    | exact Keeps.refl _
    | (apply KeepsF.intro; intro s; (try dsimp -zeta only); try lift_lets -underBinder)
    | (intro x; try clear_value x)
    | apply after_next_keeps
    | apply State.hostReg_keeps
    | apply State.cntCfg_keeps

theorem execCounterRead_keeps {mm : Bool} {s0 s : State} (hk : Keeps mm s0 s) (n : Fin 256) (wide : Bool) :
    Keeps mm s0 (after s (execCounterRead n wide s)) := by
  refine hk.trans ?_; clear hk; unfold execCounterRead; try dsimp -zeta only [mkS_eq]
  try lift_lets -underBinder
  with_reducible repeat' first
    | assumption
    | exact Keeps.refl _
    | (apply KeepsF.intro; intro s; (try dsimp -zeta only); try lift_lets -underBinder)
    | (intro x; refine Keeps.abs (mm := mm) (x := x) (s := s) ?_ (fun hk => ?_); rotate_left; clear_value x; rotate_right; dsimp -zeta only [x]; try clear x)
    | (intro x; try clear_value x)
    | apply after_next_keeps
    | apply State.host_keeps
    | apply State.hostCount_keeps
    | apply State.emit_keeps
    | apply State.cntLatch_keeps
    | lift_lets -underBinder
    | apply Keeps.ite

end Sys2Proof.Machine
end

