-- ==== Sys2Proof/Laws/KeepsSelftest.lean ====
section
/-! SUPPORT. What the functions of Machine/Selftest.lean keep: the part, the queue, the memories where they store nothing, and the
canonical form of the tables. -/

namespace Sys2Proof.Machine
theorem State.sliceSwitch_keeps {mm : Bool} {s0 s : State} (hk : Keeps mm s0 s) (p : Nat) :
    Keeps mm s0 (State.sliceSwitch s p) := by
  refine hk.trans ?_; clear hk; unfold State.sliceSwitch; try dsimp -zeta only [mkS_eq]
  try lift_lets -underBinder
  with_reducible repeat' first
    | assumption
    | exact Keeps.refl _
    | (intro x; try clear_value x)
    | apply State.retireSpare_keeps
    | apply State.sliceLasting_keeps
    | lift_lets -underBinder
    | apply Keeps.ite

theorem State.stateAreaLost_keeps {s0 s : State} (hk : Keeps false s0 s) (c : Nat) :
    Keeps false s0 (State.stateAreaLost s c) := by
  refine hk.trans ?_; clear hk; unfold State.stateAreaLost; try dsimp -zeta only [mkS_eq]
  try lift_lets -underBinder
  with_reducible repeat' first
    | assumption
    | exact Keeps.refl _
    | (intro x; refine Keeps.abs (mm := false) (x := x) (s := s) ?_ (fun hk => ?_); rotate_left; clear_value x; rotate_right; dsimp -zeta only [x]; try clear x)
    | (intro x; try clear_value x)
    | apply State.fault_keeps
    | apply State.codKick_keeps
    | apply State.codDecide_keeps
    | apply upd_keeps
    | exact Fits.refl _
    | lift_lets -underBinder
    | apply Keeps.ite
    | split

theorem State.switchOver_keeps {s0 s : State} (hk : Keeps false s0 s) (n unit detail : Nat) :
    Keeps false s0 (State.switchOver s n unit detail) := by
  refine hk.trans ?_; clear hk; unfold State.switchOver; try dsimp -zeta only [mkS_eq]
  try lift_lets -underBinder
  with_reducible repeat' first
    | assumption
    | exact Keeps.refl _
    | (intro x; try clear_value x)
    | apply State.laneLost_keeps
    | apply State.portLaneLost_keeps
    | apply State.sliceSwitch_keeps
    | apply State.witStop_keeps
    | apply State.dspStop_keeps
    | apply State.vlcForce_keeps
    | apply State.stateAreaLost_keeps
    | apply State.dmaHalt_keeps
    | apply State.sesToAlt_keeps
    | apply State.bankLasting_keeps
    | apply State.pcLasting_keeps
    | lift_lets -underBinder
    | apply Keeps.ite

theorem State.faultEvent_keeps {s0 s : State} (hk : Keeps false s0 s) (n unit detail : Nat) (lasting : Bool) :
    Keeps false s0 (State.faultEvent s n unit detail lasting) := by
  refine hk.trans ?_; clear hk; unfold State.faultEvent; try dsimp -zeta only [mkS_eq]
  try lift_lets -underBinder
  with_reducible repeat' first
    | assumption
    | exact Keeps.refl _
    | (apply KeepsF.intro; intro s; (try dsimp -zeta only); try lift_lets -underBinder)
    | (intro x; try clear_value x)
    | apply State.report_keeps
    | apply State.switchOver_keeps

theorem State.injCtrl_keeps {mm : Bool} {s0 s : State} (hk : Keeps mm s0 s) (v : Nat) :
    Keeps mm s0 (State.injCtrl s v) := by
  refine hk.trans ?_; clear hk; unfold State.injCtrl; try dsimp -zeta only [mkS_eq]
  try lift_lets -underBinder
  with_reducible repeat' first
    | assumption
    | exact Keeps.refl _
    | (intro x; try clear_value x)
    | apply State.refuse4_keeps
    | apply State.p_keeps
    | lift_lets -underBinder
    | apply Keeps.ite

theorem State.injWarm_keeps {mm : Bool} {s0 s : State} (hk : Keeps mm s0 s) :
    Keeps mm s0 (State.injWarm s) := by
  refine hk.trans ?_; clear hk; unfold State.injWarm; try dsimp -zeta only [mkS_eq]
  try lift_lets -underBinder
  with_reducible repeat' first
    | assumption
    | exact Keeps.refl _
    | (intro x; try clear_value x)
    | apply State.p_keeps
    | lift_lets -underBinder
    | apply Keeps.ite

theorem State.injCfg_keeps {mm : Bool} {s0 s : State} (hk : Keeps mm s0 s) (v : Nat) :
    Keeps mm s0 (State.injCfg s v) := by
  refine hk.trans ?_; clear hk; unfold State.injCfg; try dsimp -zeta only [mkS_eq]
  try lift_lets -underBinder
  with_reducible repeat' first
    | assumption
    | exact Keeps.refl _
    | (intro x; try clear_value x)
    | apply State.refuse4_keeps
    | apply State.plainWrite_keeps
    | lift_lets -underBinder
    | apply Keeps.ite

theorem State.laneCal_keeps {mm : Bool} {s0 s : State} (hk : Keeps mm s0 s) (q : Nat) :
    Keeps mm s0 (State.laneCal s q) := by
  refine hk.trans ?_; clear hk; unfold State.laneCal; try dsimp -zeta only [mkS_eq]
  try lift_lets -underBinder
  with_reducible repeat' first
    | assumption
    | exact Keeps.refl _
    | (intro x; refine Keeps.abs (mm := mm) (x := x) (s := s) ?_ (fun hk => ?_); rotate_left; clear_value x; rotate_right; dsimp -zeta only [x]; try clear x)
    | (intro x; try clear_value x)
    | apply State.setQuad_keeps
    | apply State.samplerNext_keeps
    | apply upd_keeps
    | exact Fits.refl _
    | lift_lets -underBinder
    | apply Keeps.ite

theorem State.testCtrl_keeps {mm : Bool} {s0 s : State} (hk : Keeps mm s0 s) (v : Nat) :
    Keeps mm s0 (State.testCtrl s v) := by
  refine hk.trans ?_; clear hk; unfold State.testCtrl; try dsimp -zeta only [mkS_eq]
  try lift_lets -underBinder
  with_reducible repeat' first
    | assumption
    | exact Keeps.refl _
    | (intro x; refine Keeps.abs (mm := mm) (x := x) (s := s) ?_ (fun hk => ?_); rotate_left; clear_value x; rotate_right; dsimp -zeta only [x]; try clear x)
    | (intro x; try clear_value x)
    | apply State.refuse4_keeps
    | apply State.p_keeps
    | apply State.laneCal_keeps
    | apply State.testAbort_keeps
    | lift_lets -underBinder
    | apply Keeps.ite

theorem State.testEnd_keeps {s0 s : State} (hk : Keeps false s0 s) (pass : Bool) (part detail : Nat) :
    Keeps false s0 (State.testEnd s pass part detail) := by
  refine hk.trans ?_; clear hk; unfold State.testEnd; try dsimp -zeta only [mkS_eq]
  try lift_lets -underBinder
  with_reducible repeat' first
    | assumption
    | exact Keeps.refl _
    | (intro x; refine Keeps.abs (mm := false) (x := x) (s := s) ?_ (fun hk => ?_); rotate_left; clear_value x; rotate_right; dsimp -zeta only [x]; try clear x)
    | (intro x; try clear_value x)
    | apply State.irq_keeps
    | apply State.p_keeps
    | apply State.bitLog_keeps
    | apply State.faultEvent_keeps
    | lift_lets -underBinder
    | apply Keeps.ite

theorem execFaultEvent_keeps {s0 s : State} (hk : Keeps false s0 s) (source : Fin 512) (unit : BitVec 8) (detail : Word) (lasting : Bool) :
    Keeps false s0 (after s (execFaultEvent source unit detail lasting s)) := by
  refine hk.trans ?_; clear hk; unfold execFaultEvent; try dsimp -zeta only [mkS_eq]
  try lift_lets -underBinder
  with_reducible repeat' first
    | assumption
    | exact Keeps.refl _
    | (intro x; try clear_value x)
    | apply after_next_keeps
    | apply State.faultEvent_keeps

theorem execInjArm_keeps {mm : Bool} {s0 s : State} (hk : Keeps mm s0 s) :
    Keeps mm s0 (after s (execInjArm s)) := by
  refine hk.trans ?_; clear hk; unfold execInjArm; try dsimp -zeta only [mkS_eq]
  try lift_lets -underBinder
  with_reducible repeat' first
    | assumption
    | exact Keeps.refl _
    | (apply KeepsF.intro; intro s; (try dsimp -zeta only); try lift_lets -underBinder)
    | (intro x; try clear_value x)
    | apply after_next_keeps
    | apply State.hostReg_keeps
    | apply State.injCtrl_keeps

theorem execInjDisarm_keeps {mm : Bool} {s0 s : State} (hk : Keeps mm s0 s) :
    Keeps mm s0 (after s (execInjDisarm s)) := by
  refine hk.trans ?_; clear hk; unfold execInjDisarm; try dsimp -zeta only [mkS_eq]
  try lift_lets -underBinder
  with_reducible repeat' first
    | assumption
    | exact Keeps.refl _
    | (apply KeepsF.intro; intro s; (try dsimp -zeta only); try lift_lets -underBinder)
    | (intro x; try clear_value x)
    | apply after_next_keeps
    | apply State.hostReg_keeps
    | apply State.injCtrl_keeps

theorem execInjExpiry_keeps {mm : Bool} {s0 s : State} (hk : Keeps mm s0 s) :
    Keeps mm s0 (after s (execInjExpiry s)) := by
  refine hk.trans ?_; clear hk; unfold execInjExpiry; try dsimp -zeta only [mkS_eq]
  try lift_lets -underBinder
  with_reducible repeat' first
    | assumption
    | exact Keeps.refl _
    | (intro x; try clear_value x)
    | apply after_next_keeps
    | apply State.irq_keeps
    | apply State.p_keeps
    | lift_lets -underBinder
    | apply Keeps.ite

theorem execTestStart_keeps {mm : Bool} {s0 s : State} (hk : Keeps mm s0 s) :
    Keeps mm s0 (after s (execTestStart s)) := by
  refine hk.trans ?_; clear hk; unfold execTestStart; try dsimp -zeta only [mkS_eq]
  try lift_lets -underBinder
  with_reducible repeat' first
    | assumption
    | exact Keeps.refl _
    | (apply KeepsF.intro; intro s; (try dsimp -zeta only); try lift_lets -underBinder)
    | (intro x; try clear_value x)
    | apply after_next_keeps
    | apply State.hostReg_keeps
    | apply State.testCtrl_keeps

theorem execTestStop_keeps {mm : Bool} {s0 s : State} (hk : Keeps mm s0 s) :
    Keeps mm s0 (after s (execTestStop s)) := by
  refine hk.trans ?_; clear hk; unfold execTestStop; try dsimp -zeta only [mkS_eq]
  try lift_lets -underBinder
  with_reducible repeat' first
    | assumption
    | exact Keeps.refl _
    | (apply KeepsF.intro; intro s; (try dsimp -zeta only); try lift_lets -underBinder)
    | (intro x; try clear_value x)
    | apply after_next_keeps
    | apply State.hostReg_keeps
    | apply State.testCtrl_keeps

theorem execTestEnd_keeps {s0 s : State} (hk : Keeps false s0 s) (pass : Bool) (part : Nat) (detail : Word) :
    Keeps false s0 (after s (execTestEnd pass part detail s)) := by
  refine hk.trans ?_; clear hk; unfold execTestEnd; try dsimp -zeta only [mkS_eq]
  try lift_lets -underBinder
  with_reducible repeat' first
    | assumption
    | exact Keeps.refl _
    | (intro x; try clear_value x)
    | apply after_next_keeps
    | apply State.testEnd_keeps

end Sys2Proof.Machine
end

