-- ==== Sys2Proof/Laws/KeepsControl.lean ====
section
/-! SUPPORT. What the functions of Machine/Control.lean keep: the part, the queue, the memories where they store nothing, and the
canonical form of the tables. -/

namespace Sys2Proof.Machine
theorem State.hdrOp_keeps {mm : Bool} {s0 s : State} (hk : Keeps mm s0 s) (blk : Blk) (op : State → State) (hkop : KeepsF mm op) :
    Keeps mm s0 (State.hdrOp s blk op) := by
  refine hk.trans ?_; clear hk; unfold State.hdrOp; try dsimp -zeta only [mkS_eq]
  try lift_lets -underBinder
  with_reducible repeat' first
    | assumption
    | exact Keeps.refl _
    | (intro x; try clear_value x)
    | exact hkop
    | apply KeepsF.ap hkop
    | lift_lets -underBinder
    | apply Keeps.ite

theorem State.enableHook_keeps {s0 s : State} (hk : Keeps false s0 s) (blk : Blk) (i : Nat) :
    Keeps false s0 (State.enableHook s blk i) := by
  refine hk.trans ?_; clear hk; unfold State.enableHook; try dsimp -zeta only [mkS_eq]
  try lift_lets -underBinder
  with_reducible repeat' first
    | assumption
    | exact Keeps.refl _
    | (intro x; try clear_value x)
    | apply State.lnkEnabled_keeps
    | apply State.linkWake_keeps
    | apply State.ingSync_keeps
    | apply State.p_keeps
    | apply State.setIg_keeps
    | apply State.witSync_keeps
    | apply State.setWit_keeps
    | apply State.recoveryStart_keeps
    | apply State.codKick_keeps
    | apply State.ethEnabled_keeps
    | apply State.dspSync_keeps
    | apply State.dmaEnabled_keeps
    | apply upd_keeps
    | exact Fits.refl _
    | lift_lets -underBinder
    | apply Keeps.ite
    | split

theorem State.disableHook_keeps {s0 s : State} (hk : Keeps false s0 s) (blk : Blk) (i : Nat) :
    Keeps false s0 (State.disableHook s blk i) := by
  refine hk.trans ?_; clear hk; unfold State.disableHook; try dsimp -zeta only [mkS_eq]
  try lift_lets -underBinder
  with_reducible repeat' first
    | assumption
    | exact Keeps.refl _
    | (intro x; try clear_value x)
    | apply State.lnkEnabled_keeps
    | apply State.linkDisable_keeps
    | apply State.ingSync_keeps
    | apply State.setIg_keeps
    | apply State.witSync_keeps
    | apply State.tsqSync_keeps
    | apply State.ethDisabled_keeps
    | apply State.dspSync_keeps
    | apply upd_keeps
    | exact Fits.refl _
    | lift_lets -underBinder
    | apply Keeps.ite
    | split

theorem State.applyNow_keeps {mm : Bool} {s0 s : State} (hk : Keeps mm s0 s) (blk : Blk) (i : Nat) :
    Keeps mm s0 (State.applyNow s blk i) := by
  refine hk.trans ?_; clear hk; unfold State.applyNow; try dsimp -zeta only [mkS_eq]
  try lift_lets -underBinder
  with_reducible repeat' first
    | assumption
    | exact Keeps.refl _
    | (intro x; try clear_value x)
    | apply State.applyIng_keeps
    | apply State.applySlice_keeps
    | apply State.applyClr_keeps
    | apply State.applyDsp_keeps
    | apply State.applyCommit_keeps
    | apply upd_keeps
    | exact Fits.refl _
    | lift_lets -underBinder
    | apply Keeps.ite
    | split

theorem State.blockStopped_keeps {mm : Bool} {s0 s : State} (hk : Keeps mm s0 s) (blk : Blk) (i : Nat) :
    Keeps mm s0 (State.blockStopped s blk i) := by
  refine hk.trans ?_; clear hk; unfold State.blockStopped; try dsimp -zeta only [mkS_eq]
  try lift_lets -underBinder
  with_reducible repeat' first
    | assumption
    | exact Keeps.refl _
    | (apply KeepsF.intro; intro s; (try dsimp -zeta only); try lift_lets -underBinder)
    | (intro x; refine Keeps.abs (mm := mm) (x := x) (s := s) ?_ (fun hk => ?_); rotate_left; clear_value x; rotate_right; dsimp -zeta only [x]; try clear x)
    | (intro x; try clear_value x)
    | apply State.applyNow_keeps
    | apply State.setBusy_keeps
    | apply State.ingSync_keeps
    | apply State.witSync_keeps
    | apply foldl_keeps
    | apply upd_keeps
    | exact Fits.refl _
    | lift_lets -underBinder
    | apply Keeps.ite
    | split

theorem State.regsReset_keeps {mm : Bool} {s0 s : State} (hk : Keeps mm s0 s) (blk : Blk) (i : Nat) (keep keepA : List Nat) :
    Keeps mm s0 (State.regsReset s blk i keep keepA) :=
  ⟨hk.1, hk.2, hk.3, fun h => let c := hk.4 h; ⟨Sparse.filter_wf _ _ _ c.1, Sparse.filter_wf _ _ _ c.2, c.3, c.4, c.5, c.6, c.7⟩⟩

theorem State.headerReset_keeps {mm : Bool} {s0 s : State} (hk : Keeps mm s0 s) (blk : Blk) (i : Nat) :
    Keeps mm s0 (State.headerReset s blk i) := by
  refine hk.trans ?_; clear hk; unfold State.headerReset; try dsimp -zeta only [mkS_eq]
  try lift_lets -underBinder
  with_reducible repeat' first
    | assumption
    | exact Keeps.refl _
    | (intro x; refine Keeps.abs (mm := mm) (x := x) (s := s) ?_ (fun hk => ?_); rotate_left; clear_value x; rotate_right; dsimp -zeta only [x]; try clear x)
    | (intro x; try clear_value x)
    | apply State.p_keeps

theorem State.blockReset_keeps {mm : Bool} {s0 s : State} (hk : Keeps mm s0 s) (blk : Blk) (i : Nat) :
    Keeps mm s0 (State.blockReset s blk i) := by
  refine hk.trans ?_; clear hk; unfold State.blockReset; try dsimp -zeta only [mkS_eq]
  try lift_lets -underBinder
  with_reducible repeat' first
    | assumption
    | exact Keeps.refl _
    | (apply KeepsF.intro; intro s; (try dsimp -zeta only); try lift_lets -underBinder)
    | (intro x; refine Keeps.abs (mm := mm) (x := x) (s := s) ?_ (fun hk => ?_); rotate_left; clear_value x; rotate_right; dsimp -zeta only [x]; try clear x)
    | (intro x; try clear_value x)
    | apply State.setQuad_keeps
    | apply State.setLane_keeps
    | apply State.setCw_keeps
    | apply State.ingSync_keeps
    | apply State.rebind_keeps
    | apply State.setIg_keeps
    | apply State.setSlice_keeps
    | apply State.p_keeps
    | apply State.setClr_keeps
    | apply State.witSync_keeps
    | apply State.setWit_keeps
    | apply State.setGcx_keeps
    | apply State.setTsq_keeps
    | apply State.setEth_keeps
    | apply State.xltReset_keeps
    | apply State.dmaSoft_keeps
    | apply State.emit_keeps
    | apply forN_keeps
    | apply upd_keeps
    | exact Fits.refl _
    | apply zero_keeps
    | lift_lets -underBinder
    | apply Keeps.ite
    | split

theorem State.softReset_keeps {mm : Bool} {s0 s : State} (hk : Keeps mm s0 s) (blk : Blk) (i : Nat) :
    Keeps mm s0 (State.softReset s blk i) := by
  refine hk.trans ?_; clear hk; unfold State.softReset; try dsimp -zeta only [mkS_eq]
  try lift_lets -underBinder
  with_reducible repeat' first
    | assumption
    | exact Keeps.refl _
    | (intro x; try clear_value x)
    | apply State.blockReset_keeps
    | apply State.headerReset_keeps
    | apply State.regsReset_keeps

theorem State.pageCtrl_keeps {s0 s : State} (hk : Keeps false s0 s) (blk : Blk) (i v : Nat) :
    Keeps false s0 (State.pageCtrl s blk i v) := by
  refine hk.trans ?_; clear hk; unfold State.pageCtrl; try dsimp -zeta only [mkS_eq]
  try lift_lets -underBinder
  with_reducible repeat' first
    | assumption
    | exact Keeps.refl _
    | (intro x; refine Keeps.abs (mm := false) (x := x) (s := s) ?_ (fun hk => ?_); rotate_left; clear_value x; rotate_right; dsimp -zeta only [x]; try clear x)
    | (intro x; try clear_value x)
    | apply State.badWrite_keeps
    | apply State.dspEnableCheck_keeps
    | apply State.p_keeps
    | apply State.domRequest_keeps
    | apply State.enableHook_keeps
    | apply State.disableHook_keeps
    | apply State.applyNow_keeps
    | apply State.softReset_keeps
    | (apply Keeps.ofpair (by assumption))
    | (apply Keeps.ofpair1 (by assumption))
    | (apply Keeps.oftriple (by assumption))
    | lift_lets -underBinder
    | apply Keeps.ite
    | split

theorem State.envRefused_keeps {mm : Bool} {s0 s : State} (hk : Keeps mm s0 s) (blk : Blk) (i rule : Nat) :
    Keeps mm s0 (State.envRefused s blk i rule) := by
  refine hk.trans ?_; clear hk; unfold State.envRefused; try dsimp -zeta only [mkS_eq]
  try lift_lets -underBinder
  with_reducible repeat' first
    | assumption
    | exact Keeps.refl _
    | (intro x; try clear_value x)
    | apply State.irq_keeps
    | apply State.p_keeps

theorem State.commitCheck_keeps {mm : Bool} {s0 s : State} (hk : Keeps mm s0 s) (blk : Blk) (i : Nat) :
    Keeps mm s0 (State.commitCheck s blk i).1 := by
  refine hk.trans ?_; clear hk; unfold State.commitCheck; try dsimp -zeta only [mkS_eq]
  try lift_lets -underBinder
  with_reducible repeat' first
    | assumption
    | exact Keeps.refl _
    | ((apply KeepsF3.ap (by assumption)))
    | (intro x; refine KeepsG.abs (mm := mm) (x := x) ?_ (fun hk => ?_); rotate_left; clear_value x; rotate_right; dsimp -zeta only [x]; try clear x)
    | (apply KeepsG.intro; intro a s; (try dsimp -zeta only); try lift_lets -underBinder)
    | ((apply KeepsG.ap (by assumption)))
    | (intro x; try clear_value x)
    | apply State.envRefused_keeps
    | apply State.irq_keeps
    | apply State.p_keeps
    | apply State.dspCommitCheck_keeps
    | apply upd_keeps
    | exact Fits.refl _
    | (apply Keeps.ofpair (by assumption))
    | (apply Keeps.ofpair1 (by assumption))
    | (apply Keeps.oftriple (by assumption))
    | lift_lets -underBinder
    | apply Keeps.ite
    | split

theorem State.shadowCommit_keeps {mm : Bool} {s0 s : State} (hk : Keeps mm s0 s) (blk : Blk) (i v : Nat) :
    Keeps mm s0 (State.shadowCommit s blk i v) := by
  refine hk.trans ?_; clear hk; unfold State.shadowCommit; try dsimp -zeta only [mkS_eq]
  try lift_lets -underBinder
  with_reducible repeat' first
    | assumption
    | exact Keeps.refl _
    | (intro x; refine Keeps.abs (mm := mm) (x := x) (s := s) ?_ (fun hk => ?_); rotate_left; clear_value x; rotate_right; dsimp -zeta only [x]; try clear x)
    | (intro x; try clear_value x)
    | apply State.badWrite_keeps
    | apply State.copyShadow_keeps
    | apply State.commitCheck_keeps
    | apply State.commitAccept_keeps
    | apply State.applyNow_keeps
    | (apply Keeps.ofpair (by assumption))
    | (apply Keeps.ofpair1 (by assumption))
    | (apply Keeps.oftriple (by assumption))
    | lift_lets -underBinder
    | apply Keeps.ite

theorem State.irqStatWrite_keeps {mm : Bool} {s0 s : State} (hk : Keeps mm s0 s) (b v : Nat) :
    Keeps mm s0 (State.irqStatWrite s b v) := by
  refine hk.trans ?_; clear hk; unfold State.irqStatWrite; try dsimp -zeta only [mkS_eq]
  try lift_lets -underBinder
  with_reducible repeat' first
    | assumption
    | exact Keeps.refl _
    | (intro x; try clear_value x)
    | apply State.irqRecheck_keeps
    | apply State.p_keeps

theorem State.irqEnWrite_keeps {mm : Bool} {s0 s : State} (hk : Keeps mm s0 s) (blk : Blk) (b v : Nat) :
    Keeps mm s0 (State.irqEnWrite s blk b v) := by
  refine hk.trans ?_; clear hk; unfold State.irqEnWrite; try dsimp -zeta only [mkS_eq]
  try lift_lets -underBinder
  with_reducible repeat' first
    | assumption
    | exact Keeps.refl _
    | (intro x; try clear_value x)
    | apply State.irqRecheck_keeps
    | apply State.p_keeps

theorem State.irqForce_keeps {mm : Bool} {s0 s : State} (hk : Keeps mm s0 s) (blk : Blk) (b v : Nat) :
    Keeps mm s0 (State.irqForce s blk b v) := by
  refine hk.trans ?_; clear hk; unfold State.irqForce; try dsimp -zeta only [mkS_eq]
  try lift_lets -underBinder
  with_reducible repeat' first
    | assumption
    | exact Keeps.refl _
    | (intro x; try clear_value x)
    | apply State.irqMask_keeps

theorem State.holdoffEnd_keeps {mm : Bool} {s0 s : State} (hk : Keeps mm s0 s) (b : Nat) :
    Keeps mm s0 (State.holdoffEnd s b) := by
  refine hk.trans ?_; clear hk; unfold State.holdoffEnd; try dsimp -zeta only [mkS_eq]
  try lift_lets -underBinder
  with_reducible repeat' first
    | assumption
    | exact Keeps.refl _
    | (intro x; refine Keeps.abs (mm := mm) (x := x) (s := s) ?_ (fun hk => ?_); rotate_left; clear_value x; rotate_right; dsimp -zeta only [x]; try clear x)
    | (intro x; try clear_value x)
    | apply State.sendMessage_keeps
    | apply upd_keeps
    | exact Fits.refl _
    | lift_lets -underBinder
    | apply Keeps.ite

theorem State.pendingSend_keeps {mm : Bool} {s0 s : State} (hk : Keeps mm s0 s) :
    Keeps mm s0 (State.pendingSend s) := by
  refine hk.trans ?_; clear hk; unfold State.pendingSend; try dsimp -zeta only [mkS_eq]
  try lift_lets -underBinder
  with_reducible repeat' first
    | assumption
    | exact Keeps.refl _
    | (apply KeepsF.intro; intro s; (try dsimp -zeta only); try lift_lets -underBinder)
    | (intro x; refine Keeps.abs (mm := mm) (x := x) (s := s) ?_ (fun hk => ?_); rotate_left; clear_value x; rotate_right; dsimp -zeta only [x]; try clear x)
    | (intro x; try clear_value x)
    | apply State.sendVector_keeps
    | apply foldl_keeps
    | apply upd_keeps
    | exact Fits.refl _

theorem State.header_keeps {mm : Bool} {s0 s : State} (hk : Keeps mm s0 s) (n : Nat) (op : State → State) (hkop : KeepsF mm op) :
    Keeps mm s0 (State.header s n op) := by
  refine hk.trans ?_; clear hk; unfold State.header; try dsimp -zeta only [mkS_eq]
  try lift_lets -underBinder
  with_reducible repeat' first
    | assumption
    | exact Keeps.refl _
    | (apply KeepsF.intro; intro s; (try dsimp -zeta only); try lift_lets -underBinder)
    | (intro x; try clear_value x)
    | exact hkop
    | apply KeepsF.ap hkop
    | apply State.hostSized_keeps
    | apply State.hdrOp_keeps

theorem execEnable_keeps {s0 s : State} (hk : Keeps false s0 s) (n : Fin 111) :
    Keeps false s0 (after s (execEnable n s)) := by
  refine hk.trans ?_; clear hk; unfold execEnable; try dsimp -zeta only [mkS_eq]
  try lift_lets -underBinder
  with_reducible repeat' first
    | assumption
    | exact Keeps.refl _
    | (apply KeepsF.intro; intro s; (try dsimp -zeta only); try lift_lets -underBinder)
    | (intro x; try clear_value x)
    | apply after_next_keeps
    | apply State.header_keeps
    | apply State.pageCtrl_keeps

theorem execDisable_keeps {s0 s : State} (hk : Keeps false s0 s) (n : Fin 111) :
    Keeps false s0 (after s (execDisable n s)) := by
  refine hk.trans ?_; clear hk; unfold execDisable; try dsimp -zeta only [mkS_eq]
  try lift_lets -underBinder
  with_reducible repeat' first
    | assumption
    | exact Keeps.refl _
    | (apply KeepsF.intro; intro s; (try dsimp -zeta only); try lift_lets -underBinder)
    | (intro x; try clear_value x)
    | apply after_next_keeps
    | apply State.header_keeps
    | apply State.pageCtrl_keeps

theorem execBlockStopped_keeps {mm : Bool} {s0 s : State} (hk : Keeps mm s0 s) (n : Fin 111) :
    Keeps mm s0 (after s (execBlockStopped n s)) := by
  refine hk.trans ?_; clear hk; unfold execBlockStopped; try dsimp -zeta only [mkS_eq]
  try lift_lets -underBinder
  with_reducible repeat' first
    | assumption
    | exact Keeps.refl _
    | (intro x; try clear_value x)
    | apply after_next_keeps
    | apply State.blockStopped_keeps

theorem execSoftReset_keeps {s0 s : State} (hk : Keeps false s0 s) (n : Fin 111) :
    Keeps false s0 (after s (execSoftReset n s)) := by
  refine hk.trans ?_; clear hk; unfold execSoftReset; try dsimp -zeta only [mkS_eq]
  try lift_lets -underBinder
  with_reducible repeat' first
    | assumption
    | exact Keeps.refl _
    | (apply KeepsF.intro; intro s; (try dsimp -zeta only); try lift_lets -underBinder)
    | (intro x; try clear_value x)
    | apply after_next_keeps
    | apply State.header_keeps
    | apply State.pageCtrl_keeps

theorem execSoftResetDone_keeps {mm : Bool} {s0 s : State} (hk : Keeps mm s0 s) (n : Fin 111) :
    Keeps mm s0 (after s (execSoftResetDone n s)) := by
  refine hk.trans ?_; clear hk; unfold execSoftResetDone; try dsimp -zeta only [mkS_eq]
  try lift_lets -underBinder
  with_reducible repeat' first
    | assumption
    | exact Keeps.refl _
    | (intro x; try clear_value x)
    | apply after_next_keeps
    | apply State.p_keeps

theorem execPowerReq_keeps {s0 s : State} (hk : Keeps false s0 s) (n : Fin 111) (req : Fin 4) :
    Keeps false s0 (after s (execPowerReq n req s)) := by
  refine hk.trans ?_; clear hk; unfold execPowerReq; try dsimp -zeta only [mkS_eq]
  try lift_lets -underBinder
  with_reducible repeat' first
    | assumption
    | exact Keeps.refl _
    | (apply KeepsF.intro; intro s; (try dsimp -zeta only); try lift_lets -underBinder)
    | (intro x; try clear_value x)
    | apply after_next_keeps
    | apply State.header_keeps
    | apply State.pageCtrl_keeps

theorem execBadWriteClr_keeps {s0 s : State} (hk : Keeps false s0 s) (n : Fin 111) :
    Keeps false s0 (after s (execBadWriteClr n s)) := by
  refine hk.trans ?_; clear hk; unfold execBadWriteClr; try dsimp -zeta only [mkS_eq]
  try lift_lets -underBinder
  with_reducible repeat' first
    | assumption
    | exact Keeps.refl _
    | (apply KeepsF.intro; intro s; (try dsimp -zeta only); try lift_lets -underBinder)
    | (intro x; try clear_value x)
    | apply after_next_keeps
    | apply State.header_keeps
    | apply State.pageCtrl_keeps

theorem execIrqForce_keeps {mm : Bool} {s0 s : State} (hk : Keeps mm s0 s) (n : Fin 111) (value : Word) :
    Keeps mm s0 (after s (execIrqForce n value s)) := by
  refine hk.trans ?_; clear hk; unfold execIrqForce; try dsimp -zeta only [mkS_eq]
  try lift_lets -underBinder
  with_reducible repeat' first
    | assumption
    | exact Keeps.refl _
    | (apply KeepsF.intro; intro s; (try dsimp -zeta only); try lift_lets -underBinder)
    | (intro x; try clear_value x)
    | apply after_next_keeps
    | apply State.header_keeps
    | apply State.irqForce_keeps

theorem execCommit_keeps {mm : Bool} {s0 s : State} (hk : Keeps mm s0 s) (n : Fin 111) :
    Keeps mm s0 (after s (execCommit n s)) := by
  refine hk.trans ?_; clear hk; unfold execCommit; try dsimp -zeta only [mkS_eq]
  try lift_lets -underBinder
  with_reducible repeat' first
    | assumption
    | exact Keeps.refl _
    | (apply KeepsF.intro; intro s; (try dsimp -zeta only); try lift_lets -underBinder)
    | (intro x; try clear_value x)
    | apply after_next_keeps
    | apply State.header_keeps
    | apply State.shadowCommit_keeps

theorem execRevert_keeps {mm : Bool} {s0 s : State} (hk : Keeps mm s0 s) (n : Fin 111) :
    Keeps mm s0 (after s (execRevert n s)) := by
  refine hk.trans ?_; clear hk; unfold execRevert; try dsimp -zeta only [mkS_eq]
  try lift_lets -underBinder
  with_reducible repeat' first
    | assumption
    | exact Keeps.refl _
    | (apply KeepsF.intro; intro s; (try dsimp -zeta only); try lift_lets -underBinder)
    | (intro x; try clear_value x)
    | apply after_next_keeps
    | apply State.header_keeps
    | apply State.shadowCommit_keeps

theorem execIrqHoldoffEnd_keeps {mm : Bool} {s0 s : State} (hk : Keeps mm s0 s) (n : Fin 111) :
    Keeps mm s0 (after s (execIrqHoldoffEnd n s)) := by
  refine hk.trans ?_; clear hk; unfold execIrqHoldoffEnd; try dsimp -zeta only [mkS_eq]
  try lift_lets -underBinder
  with_reducible repeat' first
    | assumption
    | exact Keeps.refl _
    | (intro x; try clear_value x)
    | apply after_next_keeps
    | apply State.holdoffEnd_keeps

theorem execMsixUnmask_keeps {mm : Bool} {s0 s : State} (hk : Keeps mm s0 s) (enable functionMask : Bool) (vector : Option (Fin 256)) :
    Keeps mm s0 (after s (execMsixUnmask enable functionMask vector s)) := by
  refine hk.trans ?_; clear hk; unfold execMsixUnmask; try dsimp -zeta only [mkS_eq]
  try lift_lets -underBinder
  with_reducible repeat' first
    | assumption
    | exact Keeps.refl _
    | (intro x; refine Keeps.abs (mm := mm) (x := x) (s := s) ?_ (fun hk => ?_); rotate_left; clear_value x; rotate_right; dsimp -zeta only [x]; try clear x)
    | (intro x; try clear_value x)
    | apply after_next_keeps
    | apply State.pendingSend_keeps
    | apply upd_keeps
    | exact Fits.refl _
    | lift_lets -underBinder
    | apply Keeps.ite
    | split

end Sys2Proof.Machine
end

