-- ==== Sys2Proof/Laws/KeepsRead.lean ====
section
/-! SUPPORT. What the functions of Machine/Read.lean keep: the part, the queue, the memories where they store nothing, and the
canonical form of the tables. -/

namespace Sys2Proof.Machine
theorem State.readEffect_keeps {mm : Bool} {s0 s : State} (hk : Keeps mm s0 s) (off : Nat) :
    Keeps mm s0 (State.readEffect s off) := by
  refine hk.trans ?_; clear hk; unfold State.readEffect; try dsimp -zeta only [mkS_eq]
  try lift_lets -underBinder
  with_reducible repeat' first
    | assumption
    | exact Keeps.refl _
    | (intro x; try clear_value x)
    | apply State.nowLatch_keeps
    | apply State.cntLatch_keeps
    | apply State.wr_keeps
    | apply foldl_keeps
    | apply upd_keeps
    | exact Fits.refl _
    | lift_lets -underBinder
    | apply Keeps.ite
    | split

theorem State.readRegs_keeps {mm : Bool} {s0 s : State} (hk : Keeps mm s0 s) (off : Nat) (n : Nat) :
    Keeps mm s0 (State.readRegs s off n).2 := by
  induction n generalizing s0 s off with
  | zero =>
    rw [State.readRegs.eq_1]; refine hk.trans ?_; clear hk; try dsimp -zeta only [mkS_eq]
    try lift_lets -underBinder
    with_reducible repeat' first
      | assumption
      | exact Keeps.refl _
  | succ a ih =>
    rw [State.readRegs.eq_2]; refine hk.trans ?_; clear hk; try dsimp -zeta only [mkS_eq]
    try lift_lets -underBinder
    with_reducible repeat' first
      | assumption
      | exact Keeps.refl _
      | with_reducible apply ih
      | (intro x; try clear_value x)
      | apply State.readEffect_keeps

theorem execRcRead_keeps {mm : Bool} {s0 s : State} (hk : Keeps mm s0 s) (off : Fin 0x4000000) (len : Fin 4097) :
    Keeps mm s0 (after s (execRcRead off len s)) := by
  refine hk.trans ?_; clear hk; unfold execRcRead; try dsimp -zeta only [mkS_eq]
  try lift_lets -underBinder
  with_reducible repeat' first
    | assumption
    | exact Keeps.refl _
    | (apply KeepsF.intro; intro s; (try dsimp -zeta only); try lift_lets -underBinder)
    | (intro x; refine Keeps.abs (mm := mm) (x := x.2) (s := s) ?_ (fun hk => ?_); rotate_left; clear_value x; rotate_right; dsimp -zeta only [x]; try clear x)
    | (intro x; try clear_value x)
    | apply after_next_keeps
    | apply State.host_keeps
    | apply State.readRegs_keeps
    | apply State.emit_keeps
    | apply State.hostCount_keeps

end Sys2Proof.Machine
end

