-- ==== Sys2Proof/Laws/KeepsReset.lean ====
section
/-! SUPPORT. What the functions of Machine/Reset.lean keep: the part, the queue, the memories where they store nothing, and the
canonical form of the tables. -/

namespace Sys2Proof.Machine
theorem State.setHif_keeps {mm : Bool} {s0 s : State} (hk : Keeps mm s0 s) (f : HostLink → HostLink) :
    Keeps mm s0 (State.setHif s f) := by
  refine hk.trans ?_; clear hk; unfold State.setHif; try dsimp -zeta only [mkS_eq]
  try lift_lets -underBinder
  with_reducible repeat' first
    | assumption
    | exact Keeps.refl _
    | (intro x; try clear_value x)
    | apply upd_keeps
    | exact Fits.refl _

theorem State.heldSync_keeps {mm : Bool} {s0 s : State} (hk : Keeps mm s0 s) :
    Keeps mm s0 (State.heldSync s) := by
  refine hk.trans ?_; clear hk; unfold State.heldSync; try dsimp -zeta only [mkS_eq]
  try lift_lets -underBinder
  with_reducible repeat' first
    | assumption
    | exact Keeps.refl _
    | (intro x; try clear_value x)
    | apply State.p_keeps

theorem State.resetCause_keeps {mm : Bool} {s0 s : State} (hk : Keeps mm s0 s) (bit : Nat) :
    Keeps mm s0 (State.resetCause s bit) := by
  refine hk.trans ?_; clear hk; unfold State.resetCause; try dsimp -zeta only [mkS_eq]
  try lift_lets -underBinder
  with_reducible repeat' first
    | assumption
    | exact Keeps.refl _
    | (intro x; try clear_value x)
    | apply State.pBit_keeps

theorem State.fromStopped_keeps {mm : Bool} {s0 s : State} (hk : Keeps mm s0 s) :
    Keeps mm s0 (State.fromStopped s) := by
  refine hk.trans ?_; clear hk; unfold State.fromStopped; try dsimp -zeta only [mkS_eq]
  try lift_lets -underBinder
  with_reducible repeat' first
    | assumption
    | exact Keeps.refl _
    | (intro x; try clear_value x)
    | apply State.resetCause_keeps
    | lift_lets -underBinder
    | apply Keeps.ite

theorem State.configReset_keeps {mm : Bool} {s0 s : State} (hk : Keeps mm s0 s) :
    Keeps mm s0 (State.configReset s) := by
  refine hk.trans ?_; clear hk; unfold State.configReset; try dsimp -zeta only [mkS_eq]
  try lift_lets -underBinder
  with_reducible repeat' first
    | assumption
    | exact Keeps.refl _
    | (intro x; refine Keeps.abs (mm := mm) (x := x) (s := s) ?_ (fun hk => ?_); rotate_left; clear_value x; rotate_right; dsimp -zeta only [x]; try clear x)
    | (intro x; try clear_value x)
    | apply State.setHif_keeps
    | apply State.p_keeps
    | apply State.cacheDrop_keeps
    | apply State.fault_keeps
    | apply upd_keeps
    | exact Fits.refl _

theorem State.linkLost_keeps {mm : Bool} {s0 s : State} (hk : Keeps mm s0 s) :
    Keeps mm s0 (State.linkLost s) := by
  refine hk.trans ?_; clear hk; unfold State.linkLost; try dsimp -zeta only [mkS_eq]
  try lift_lets -underBinder
  with_reducible repeat' first
    | assumption
    | exact Keeps.refl _
    | (intro x; refine Keeps.abs (mm := mm) (x := x) (s := s) ?_ (fun hk => ?_); rotate_left; clear_value x; rotate_right; dsimp -zeta only [x]; try clear x)
    | (intro x; try clear_value x)
    | apply State.p_keeps
    | apply State.fault_keeps

theorem State.off_keeps {mm : Bool} {s0 s : State} (hk : Keeps mm s0 s) (b : Nat) :
    Keeps mm s0 (State.off s b) := by
  refine hk.trans ?_; clear hk; unfold State.off; try dsimp -zeta only [mkS_eq]
  try lift_lets -underBinder
  with_reducible repeat' first
    | assumption
    | exact Keeps.refl _
    | (intro x; try clear_value x)
    | apply State.p_keeps

theorem State.stopPage_keeps {mm : Bool} {s0 s : State} (hk : Keeps mm s0 s) (blk : Blk) (i : Nat) (keep keepA : List Nat) :
    Keeps mm s0 (State.stopPage s blk i keep keepA) := by
  refine hk.trans ?_; clear hk; unfold State.stopPage; try dsimp -zeta only [mkS_eq]
  try lift_lets -underBinder
  with_reducible repeat' first
    | assumption
    | exact Keeps.refl _
    | (intro x; try clear_value x)
    | apply State.headerReset_keeps
    | apply State.regsReset_keeps
    | apply State.setBusy_keeps
    | apply State.off_keeps

theorem State.warmIng_keeps {mm : Bool} {s0 s : State} (hk : Keeps mm s0 s) (h : Nat) :
    Keeps mm s0 (State.warmIng s h) := by
  refine hk.trans ?_; clear hk; unfold State.warmIng; try dsimp -zeta only [mkS_eq]
  try lift_lets -underBinder
  with_reducible repeat' first
    | assumption
    | exact Keeps.refl _
    | (intro x; refine Keeps.abs (mm := mm) (x := x) (s := s) ?_ (fun hk => ?_); rotate_left; clear_value x; rotate_right; dsimp -zeta only [x]; try clear x)
    | (intro x; try clear_value x)
    | apply State.stopPage_keeps
    | apply State.setIg_keeps
    | apply State.ingSync_keeps
    | apply State.p_keeps

theorem State.warmPsl_keeps {mm : Bool} {s0 s : State} (hk : Keeps mm s0 s) (p : Nat) :
    Keeps mm s0 (State.warmPsl s p) := by
  refine hk.trans ?_; clear hk; unfold State.warmPsl; try dsimp -zeta only [mkS_eq]
  try lift_lets -underBinder
  with_reducible repeat' first
    | assumption
    | exact Keeps.refl _
    | (intro x; refine Keeps.abs (mm := mm) (x := x) (s := s) ?_ (fun hk => ?_); rotate_left; clear_value x; rotate_right; dsimp -zeta only [x]; try clear x)
    | (intro x; try clear_value x)
    | apply State.stopPage_keeps
    | apply State.setSlice_keeps
    | apply State.p_keeps

theorem State.warmClr_keeps {mm : Bool} {s0 s : State} (hk : Keeps mm s0 s) (i : Nat) :
    Keeps mm s0 (State.warmClr s i) := by
  refine hk.trans ?_; clear hk; unfold State.warmClr; try dsimp -zeta only [mkS_eq]
  try lift_lets -underBinder
  with_reducible repeat' first
    | assumption
    | exact Keeps.refl _
    | (intro x; try clear_value x)
    | apply State.setClr_keeps
    | apply State.stopPage_keeps

theorem State.warmWit_keeps {mm : Bool} {s0 s : State} (hk : Keeps mm s0 s) (w : Nat) :
    Keeps mm s0 (State.warmWit s w) := by
  refine hk.trans ?_; clear hk; unfold State.warmWit; try dsimp -zeta only [mkS_eq]
  try lift_lets -underBinder
  with_reducible repeat' first
    | assumption
    | exact Keeps.refl _
    | (intro x; refine Keeps.abs (mm := mm) (x := x) (s := s) ?_ (fun hk => ?_); rotate_left; clear_value x; rotate_right; dsimp -zeta only [x]; try clear x)
    | (intro x; try clear_value x)
    | apply State.stopPage_keeps
    | apply State.witSync_keeps
    | apply State.setWit_keeps

theorem State.warmAbandon_keeps {s0 s : State} (hk : Keeps false s0 s) :
    Keeps false s0 (State.warmAbandon s) := by
  refine hk.trans ?_; clear hk; unfold State.warmAbandon; try dsimp -zeta only [mkS_eq]
  try lift_lets -underBinder
  with_reducible repeat' first
    | assumption
    | exact Keeps.refl _
    | (apply KeepsF.intro; intro s; (try dsimp -zeta only); try lift_lets -underBinder)
    | (intro x; refine Keeps.abs (mm := false) (x := x) (s := s) ?_ (fun hk => ?_); rotate_left; clear_value x; rotate_right; dsimp -zeta only [x]; try clear x)
    | (intro x; try clear_value x)
    | apply State.abandonAll_keeps
    | apply State.ingStats_keeps
    | apply State.witClose_keeps
    | apply State.witAbandon_keeps
    | apply State.witStats_keeps
    | apply forN_keeps

theorem State.warmBlocks_keeps {mm : Bool} {s0 s : State} (hk : Keeps mm s0 s) :
    Keeps mm s0 (State.warmBlocks s) := by
  refine hk.trans ?_; clear hk; unfold State.warmBlocks; try dsimp -zeta only [mkS_eq]
  try lift_lets -underBinder
  with_reducible repeat' first
    | assumption
    | exact Keeps.refl _
    | (apply KeepsF.intro; intro s; (try dsimp -zeta only); try lift_lets -underBinder)
    | (intro x; refine Keeps.abs (mm := mm) (x := x) (s := s) ?_ (fun hk => ?_); rotate_left; clear_value x; rotate_right; dsimp -zeta only [x]; try clear x)
    | (intro x; try clear_value x)
    | apply State.warmIng_keeps
    | apply State.warmPsl_keeps
    | apply State.warmClr_keeps
    | apply State.warmWit_keeps
    | apply State.gcxWarm_keeps
    | apply State.off_keeps
    | apply State.setBusy_keeps
    | apply State.codWarm_keeps
    | apply State.p_keeps
    | apply State.tsqWarm_keeps
    | apply State.dspSync_keeps
    | apply State.tsqLost_keeps
    | apply State.setEth_keeps
    | apply State.xltReset_keeps
    | apply State.sndSyncAll_keeps
    | apply State.testAbort_keeps
    | apply State.injWarm_keeps
    | apply State.dmaWarm_keeps
    | apply forN_keeps
    | apply upd_keeps
    | exact Fits.refl _
    | (refine Fits.intro (fun h => ?_); simp only [deviceShape, List.cons.injEq, List.length_replicate, and_true, true_and] at h ⊢; omega)
    | lift_lets -underBinder
    | apply Keeps.ite

theorem State.warmStart_keeps {s0 s : State} (hk : Keeps false s0 s) (perst : Bool) :
    Keeps false s0 (State.warmStart s perst) := by
  refine hk.trans ?_; clear hk; unfold State.warmStart; try dsimp -zeta only [mkS_eq]
  try lift_lets -underBinder
  with_reducible repeat' first
    | assumption
    | exact Keeps.refl _
    | (apply KeepsF.intro; intro s; (try dsimp -zeta only); try lift_lets -underBinder)
    | (intro x; refine Keeps.abs (mm := false) (x := x) (s := s) ?_ (fun hk => ?_); rotate_left; clear_value x; rotate_right; dsimp -zeta only [x]; try clear x)
    | (intro x; try clear_value x)
    | apply State.fromStopped_keeps
    | apply State.setHif_keeps
    | apply State.addSat_keeps
    | apply State.p_keeps
    | apply State.warmAbandon_keeps
    | apply State.warmBlocks_keeps
    | apply State.shutdownLeave_keeps
    | apply forN_keeps
    | apply upd_keeps
    | exact Fits.refl _
    | lift_lets -underBinder
    | apply Keeps.ite

theorem State.warmEnd_keeps {mm : Bool} {s0 s : State} (hk : Keeps mm s0 s) :
    Keeps mm s0 (State.warmEnd s) := by
  refine hk.trans ?_; clear hk; unfold State.warmEnd; try dsimp -zeta only [mkS_eq]
  try lift_lets -underBinder
  with_reducible repeat' first
    | assumption
    | exact Keeps.refl _
    | (apply KeepsF.intro; intro s; (try dsimp -zeta only); try lift_lets -underBinder)
    | (intro x; refine Keeps.abs (mm := mm) (x := x) (s := s) ?_ (fun hk => ?_); rotate_left; clear_value x; rotate_right; dsimp -zeta only [x]; try clear x)
    | (intro x; try clear_value x)
    | apply State.p_keeps
    | apply State.setSes_keeps
    | apply State.irq_keeps
    | apply State.setHif_keeps
    | apply forN_keeps
    | apply upd_keeps
    | exact Fits.refl _
    | lift_lets -underBinder
    | apply Keeps.ite

theorem State.flrStart_keeps {s0 s : State} (hk : Keeps false s0 s) :
    Keeps false s0 (State.flrStart s) := by
  refine hk.trans ?_; clear hk; unfold State.flrStart; try dsimp -zeta only [mkS_eq]
  try lift_lets -underBinder
  with_reducible repeat' first
    | assumption
    | exact Keeps.refl _
    | (apply KeepsF.intro; intro s; (try dsimp -zeta only); try lift_lets -underBinder)
    | (intro x; refine Keeps.abs (mm := false) (x := x) (s := s) ?_ (fun hk => ?_); rotate_left; clear_value x; rotate_right; dsimp -zeta only [x]; try clear x)
    | (intro x; try clear_value x)
    | apply State.fromStopped_keeps
    | apply State.setHif_keeps
    | apply State.addSat_keeps
    | apply State.p_keeps
    | apply State.setIg_keeps
    | apply State.abandonCur_keeps
    | apply State.msgFlr_keeps
    | apply State.setWit_keeps
    | apply State.witAbandon_keeps
    | apply State.tsqFlr_keeps
    | apply State.codFlr_keeps
    | apply State.gcxFlr_keeps
    | apply State.sesFlr_keeps
    | apply State.off_keeps
    | apply State.dmaFlr_keeps
    | apply State.configReset_keeps
    | apply State.xltReset_keeps
    | apply forN_keeps

theorem State.flrEnd_keeps {mm : Bool} {s0 s : State} (hk : Keeps mm s0 s) :
    Keeps mm s0 (State.flrEnd s) := by
  refine hk.trans ?_; clear hk; unfold State.flrEnd; try dsimp -zeta only [mkS_eq]
  try lift_lets -underBinder
  with_reducible repeat' first
    | assumption
    | exact Keeps.refl _
    | (intro x; try clear_value x)
    | apply State.irq_keeps
    | apply State.p_keeps
    | apply State.setHif_keeps

theorem State.resetRequest_keeps {s0 s : State} (hk : Keeps false s0 s) (r : HeldReset) :
    Keeps false s0 (State.resetRequest s r) := by
  refine hk.trans ?_; clear hk; unfold State.resetRequest; try dsimp -zeta only [mkS_eq]
  try lift_lets -underBinder
  with_reducible repeat' first
    | assumption
    | exact Keeps.refl _
    | (intro x; try clear_value x)
    | apply State.heldSync_keeps
    | apply State.setHif_keeps
    | apply State.warmStart_keeps
    | apply State.flrStart_keeps
    | apply upd_keeps
    | exact Fits.refl _
    | lift_lets -underBinder
    | apply Keeps.ite
    | split

theorem State.resetCtrl_keeps {s0 s : State} (hk : Keeps false s0 s) (v cause : Nat) :
    Keeps false s0 (State.resetCtrl s v cause) := by
  refine hk.trans ?_; clear hk; unfold State.resetCtrl; try dsimp -zeta only [mkS_eq]
  try lift_lets -underBinder
  with_reducible repeat' first
    | assumption
    | exact Keeps.refl _
    | (intro x; try clear_value x)
    | apply State.resetRequest_keeps
    | apply State.resetCause_keeps
    | lift_lets -underBinder
    | apply Keeps.ite

theorem State.coldPins_keeps {mm : Bool} {s0 s : State} (hk : Keeps mm s0 s) (faultN : Bool) :
    Keeps mm s0 (State.coldPins s faultN) := by
  refine hk.trans ?_; clear hk; unfold State.coldPins; try dsimp -zeta only [mkS_eq]
  try lift_lets -underBinder
  with_reducible repeat' first
    | assumption
    | exact Keeps.refl _
    | (apply KeepsF.intro; intro s; (try dsimp -zeta only); try lift_lets -underBinder)
    | (intro x; refine Keeps.abs (mm := mm) (x := x) (s := s) ?_ (fun hk => ?_); rotate_left; clear_value x; rotate_right; dsimp -zeta only [x]; try clear x)
    | (intro x; try clear_value x)
    | apply State.feedDrive_keeps
    | apply State.emit_keeps
    | apply forN_keeps
    | lift_lets -underBinder
    | apply Keeps.ite

theorem State.coldBase_cnt (s : State) (kind : Nat) (aon : Bool) (hbm : HbmState) :
    (State.coldBase s kind aon hbm).cnt = List.replicate 256 0 := by unfold State.coldBase State.reset; rfl
theorem State.coldBase_keeps {mm : Bool} {s0 s : State} (hk : Keeps mm s0 s) (kind : Nat) (aon : Bool) (hbm : HbmState) :
    Keeps mm s0 (State.coldBase s kind aon hbm) := by
  refine ⟨hk.1, hk.2, hk.3, fun h => ?_⟩
  have c := hk.4 h
  refine ⟨?_, by unfold State.coldBase State.reset; rfl, c.3, c.4, ?_, ?_, ?_⟩
  · unfold State.coldBase
    cases aon
    · exact Sparse.filter_wf _ _ _ c.1
    · rfl
  · rw [State.coldBase_cnt]; exact List.length_replicate
  · rw [State.coldBase_cnt]
    intro v hv
    rw [List.eq_of_mem_replicate hv]
    exact Nat.two_pow_pos 48
  · have h1 : s.heads.length = 4 := by
      have := c.7
      unfold State.shape deviceShape at this
      simp only [List.cons.injEq] at this
      exact this.2.2.2.2.2.1
    have h2 : (State.coldBase s kind aon hbm).shape = [96, 24, 28, 4, 4, s.heads.length, 5, 4, 4, 4, 16] := by
      unfold State.coldBase State.reset State.shape; rfl
    rw [h2, h1]; rfl

theorem State.coldStart_keeps {mm : Bool} {s0 s : State} (hk : Keeps mm s0 s) (kind : Nat) (aon : Bool) :
    Keeps mm s0 (State.coldStart s kind aon) := by
  refine hk.trans ?_; clear hk; unfold State.coldStart; try dsimp -zeta only [mkS_eq]
  try lift_lets -underBinder
  with_reducible repeat' first
    | assumption
    | exact Keeps.refl _
    | (apply KeepsF.intro; intro s; (try dsimp -zeta only); try lift_lets -underBinder)
    | (intro x; refine Keeps.abs (mm := mm) (x := x) (s := s) ?_ (fun hk => ?_); rotate_left; clear_value x; rotate_right; dsimp -zeta only [x]; try clear x)
    | (intro x; try clear_value x)
    | apply State.coldPins_keeps
    | apply State.fromStopped_keeps
    | apply State.codCold_keeps
    | apply State.tsqLost_keeps
    | apply State.tsqCold_keeps
    | apply State.coldBase_keeps
    | apply State.p_keeps
    | apply forN_keeps
    | lift_lets -underBinder
    | apply Keeps.ite

theorem State.storeLost_keeps {s0 s : State} (hk : Keeps false s0 s) :
    Keeps false s0 (State.storeLost s) := by
  refine hk.trans ?_; clear hk; unfold State.storeLost; try dsimp -zeta only [mkS_eq]
  try lift_lets -underBinder
  with_reducible repeat' first
    | assumption
    | exact Keeps.refl _
    | (apply KeepsF.intro; intro s; (try dsimp -zeta only); try lift_lets -underBinder)
    | (intro x; refine Keeps.abs (mm := false) (x := x) (s := s) ?_ (fun hk => ?_); rotate_left; clear_value x; rotate_right; dsimp -zeta only [x]; try clear x)
    | (intro x; try clear_value x)
    | apply State.resetCause_keeps
    | apply State.hbmSpan_keeps
    | apply State.tsqLost_keeps
    | apply State.p_keeps
    | apply State.setHif_keeps
    | apply forN_keeps
    | apply upd_keeps
    | exact Fits.refl _
    | lift_lets -underBinder
    | apply Keeps.ite

theorem State.coldEnd_keeps {mm : Bool} {s0 s : State} (hk : Keeps mm s0 s) :
    Keeps mm s0 (State.coldEnd s) := by
  refine hk.trans ?_; clear hk; unfold State.coldEnd; try dsimp -zeta only [mkS_eq]
  try lift_lets -underBinder
  with_reducible repeat' first
    | assumption
    | exact Keeps.refl _
    | (apply KeepsF.intro; intro s; (try dsimp -zeta only); try lift_lets -underBinder)
    | (intro x; refine Keeps.abs (mm := mm) (x := x) (s := s) ?_ (fun hk => ?_); rotate_left; clear_value x; rotate_right; dsimp -zeta only [x]; try clear x)
    | (intro x; try clear_value x)
    | apply State.setDomOn_keeps
    | apply State.p_keeps
    | apply State.lnkSync_keeps
    | apply State.setHif_keeps
    | apply foldl_keeps
    | apply forN_keeps

theorem execColdRstNFall_keeps {mm : Bool} {s0 s : State} (hk : Keeps mm s0 s) :
    Keeps mm s0 (after s (execColdRstNFall s)) := by
  refine hk.trans ?_; clear hk; unfold execColdRstNFall; try dsimp -zeta only [mkS_eq]
  try lift_lets -underBinder
  with_reducible repeat' first
    | assumption
    | exact Keeps.refl _
    | (intro x; try clear_value x)
    | apply after_next_keeps
    | apply State.coldStart_keeps
    | apply State.resetCause_keeps

theorem execColdResetEnd_keeps {mm : Bool} {s0 s : State} (hk : Keeps mm s0 s) :
    Keeps mm s0 (after s (execColdResetEnd s)) := by
  refine hk.trans ?_; clear hk; unfold execColdResetEnd; try dsimp -zeta only [mkS_eq]
  try lift_lets -underBinder
  with_reducible repeat' first
    | assumption
    | exact Keeps.refl _
    | (intro x; try clear_value x)
    | apply after_next_keeps
    | apply State.coldEnd_keeps
    | lift_lets -underBinder
    | apply Keeps.ite

theorem execVddAonRise_keeps {s0 s : State} (hk : Keeps false s0 s) :
    Keeps false s0 (after s (execVddAonRise s)) := by
  refine hk.trans ?_; clear hk; unfold execVddAonRise; try dsimp -zeta only [mkS_eq]
  try lift_lets -underBinder
  with_reducible repeat' first
    | assumption
    | exact Keeps.refl _
    | (intro x; try clear_value x)
    | apply after_next_keeps
    | apply State.p_keeps
    | apply State.coldStart_keeps
    | apply State.hbmSpan_keeps

theorem execCoreRailDeparture_keeps {mm : Bool} {s0 s : State} (hk : Keeps mm s0 s) :
    Keeps mm s0 (after s (execCoreRailDeparture s)) := by
  refine hk.trans ?_; clear hk; unfold execCoreRailDeparture; try dsimp -zeta only [mkS_eq]
  try lift_lets -underBinder
  with_reducible repeat' first
    | assumption
    | exact Keeps.refl _
    | (intro x; try clear_value x)
    | apply after_next_keeps
    | apply State.faultNCause_keeps
    | apply State.coldStart_keeps
    | apply State.resetCause_keeps
    | lift_lets -underBinder
    | apply Keeps.ite

theorem execCoreRailRecovery_keeps {mm : Bool} {s0 s : State} (hk : Keeps mm s0 s) :
    Keeps mm s0 (after s (execCoreRailRecovery s)) := by
  refine hk.trans ?_; clear hk; unfold execCoreRailRecovery; try dsimp -zeta only [mkS_eq]
  try lift_lets -underBinder
  with_reducible repeat' first
    | assumption
    | exact Keeps.refl _
    | (intro x; try clear_value x)
    | apply after_next_keeps
    | apply State.coldEnd_keeps
    | lift_lets -underBinder
    | apply Keeps.ite

theorem execHbmRailDeparture_keeps {s0 s : State} (hk : Keeps false s0 s) (aon : Bool) :
    Keeps false s0 (after s (execHbmRailDeparture aon s)) := by
  refine hk.trans ?_; clear hk; unfold execHbmRailDeparture; try dsimp -zeta only [mkS_eq]
  try lift_lets -underBinder
  with_reducible repeat' first
    | assumption
    | exact Keeps.refl _
    | (intro x; refine Keeps.abs (mm := false) (x := x) (s := s) ?_ (fun hk => ?_); rotate_left; clear_value x; rotate_right; dsimp -zeta only [x]; try clear x)
    | (intro x; try clear_value x)
    | apply after_next_keeps
    | apply State.storeLost_keeps
    | apply upd_keeps
    | exact Fits.refl _
    | lift_lets -underBinder
    | apply Keeps.ite

theorem execPerstNFall_keeps {s0 s : State} (hk : Keeps false s0 s) :
    Keeps false s0 (after s (execPerstNFall s)) := by
  refine hk.trans ?_; clear hk; unfold execPerstNFall; try dsimp -zeta only [mkS_eq]
  try lift_lets -underBinder
  with_reducible repeat' first
    | assumption
    | exact Keeps.refl _
    | (intro x; refine Keeps.abs (mm := false) (x := x) (s := s) ?_ (fun hk => ?_); rotate_left; clear_value x; rotate_right; dsimp -zeta only [x]; try clear x)
    | (intro x; try clear_value x)
    | apply after_next_keeps
    | apply State.resetCause_keeps
    | apply State.setHif_keeps
    | apply State.resetRequest_keeps
    | apply State.configReset_keeps
    | apply State.linkLost_keeps
    | apply upd_keeps
    | exact Fits.refl _
    | lift_lets -underBinder
    | apply Keeps.ite

theorem execPerstNRise_keeps {mm : Bool} {s0 s : State} (hk : Keeps mm s0 s) :
    Keeps mm s0 (after s (execPerstNRise s)) := by
  refine hk.trans ?_; clear hk; unfold execPerstNRise; try dsimp -zeta only [mkS_eq]
  try lift_lets -underBinder
  with_reducible repeat' first
    | assumption
    | exact Keeps.refl _
    | (intro x; try clear_value x)
    | apply after_next_keeps
    | apply State.p_keeps
    | apply State.setHif_keeps
    | apply upd_keeps
    | exact Fits.refl _
    | lift_lets -underBinder
    | apply Keeps.ite

theorem execWarmReset_keeps {s0 s : State} (hk : Keeps false s0 s) (key : Byte) :
    Keeps false s0 (after s (execWarmReset key s)) := by
  refine hk.trans ?_; clear hk; unfold execWarmReset; try dsimp -zeta only [mkS_eq]
  try lift_lets -underBinder
  with_reducible repeat' first
    | assumption
    | exact Keeps.refl _
    | (apply KeepsF.intro; intro s; (try dsimp -zeta only); try lift_lets -underBinder)
    | (intro x; try clear_value x)
    | apply after_next_keeps
    | apply State.hostReg_keeps
    | apply State.resetCtrl_keeps

theorem execWarmResetEnd_keeps {mm : Bool} {s0 s : State} (hk : Keeps mm s0 s) :
    Keeps mm s0 (after s (execWarmResetEnd s)) := by
  refine hk.trans ?_; clear hk; unfold execWarmResetEnd; try dsimp -zeta only [mkS_eq]
  try lift_lets -underBinder
  with_reducible repeat' first
    | assumption
    | exact Keeps.refl _
    | (intro x; try clear_value x)
    | apply after_next_keeps
    | apply State.warmEnd_keeps
    | apply upd_keeps
    | exact Fits.refl _
    | lift_lets -underBinder
    | apply Keeps.ite
    | split

theorem execFlr_keeps {s0 s : State} (hk : Keeps false s0 s) :
    Keeps false s0 (after s (execFlr s)) := by
  refine hk.trans ?_; clear hk; unfold execFlr; try dsimp -zeta only [mkS_eq]
  try lift_lets -underBinder
  with_reducible repeat' first
    | assumption
    | exact Keeps.refl _
    | (intro x; try clear_value x)
    | apply after_next_keeps
    | apply State.resetRequest_keeps
    | apply State.resetCause_keeps

theorem execFlrEnd_keeps {mm : Bool} {s0 s : State} (hk : Keeps mm s0 s) :
    Keeps mm s0 (after s (execFlrEnd s)) := by
  refine hk.trans ?_; clear hk; unfold execFlrEnd; try dsimp -zeta only [mkS_eq]
  try lift_lets -underBinder
  with_reducible repeat' first
    | assumption
    | exact Keeps.refl _
    | (intro x; try clear_value x)
    | apply after_next_keeps
    | apply State.flrEnd_keeps
    | apply upd_keeps
    | exact Fits.refl _
    | lift_lets -underBinder
    | apply Keeps.ite
    | split

theorem execHeldResetStart_keeps {s0 s : State} (hk : Keeps false s0 s) :
    Keeps false s0 (after s (execHeldResetStart s)) := by
  refine hk.trans ?_; clear hk; unfold execHeldResetStart; try dsimp -zeta only [mkS_eq]
  try lift_lets -underBinder
  with_reducible repeat' first
    | assumption
    | exact Keeps.refl _
    | (intro x; try clear_value x)
    | apply after_next_keeps
    | apply State.resetRequest_keeps
    | apply State.heldSync_keeps
    | apply State.setHif_keeps
    | apply upd_keeps
    | exact Fits.refl _
    | lift_lets -underBinder
    | apply Keeps.ite
    | split

end Sys2Proof.Machine
end

