-- ==== Sys2Proof/Laws/KeepsHost.lean ====
section
/-! SUPPORT. What the functions of Machine/Host.lean keep: the part, the queue, the memories where they store nothing, and the
canonical form of the tables. -/

namespace Sys2Proof.Machine
theorem State.wake_keeps {s0 s : State} (hk : Keeps false s0 s) :
    Keeps false s0 (State.wake s) := by
  refine hk.trans ?_; clear hk; unfold State.wake; try dsimp -zeta only [mkS_eq]
  try lift_lets -underBinder
  with_reducible repeat' first
    | assumption
    | exact Keeps.refl _
    | (apply KeepsF.intro; intro s; (try dsimp -zeta only); try lift_lets -underBinder)
    | (intro x; refine Keeps.abs (mm := false) (x := x) (s := s) ?_ (fun hk => ?_); rotate_left; clear_value x; rotate_right; dsimp -zeta only [x]; try clear x)
    | (intro x; try clear_value x)
    | apply State.spillDrain_keeps
    | apply State.witTidy_keeps
    | apply State.hrxRetry_keeps
    | apply State.dspXltSync_keeps
    | apply State.codResume_keeps
    | apply forN_keeps
    | lift_lets -underBinder
    | apply Keeps.ite

theorem State.heldSend_keeps {mm : Bool} {s0 s : State} (hk : Keeps mm s0 s) :
    Keeps mm s0 (State.heldSend s) := by
  refine hk.trans ?_; clear hk; unfold State.heldSend; try dsimp -zeta only [mkS_eq]
  try lift_lets -underBinder
  with_reducible repeat' first
    | assumption
    | exact Keeps.refl _
    | (apply KeepsF.intro; intro s; (try dsimp -zeta only); try lift_lets -underBinder)
    | (intro x; try clear_value x)
    | apply State.sendVector_keeps
    | apply foldl_keeps
    | apply upd_keeps
    | exact Fits.refl _

theorem execBusMasterEnable_keeps {s0 s : State} (hk : Keeps false s0 s) (memory bme d3hot : Bool) :
    Keeps false s0 (after s (execBusMasterEnable memory bme d3hot s)) := by
  refine hk.trans ?_; clear hk; unfold execBusMasterEnable; try dsimp -zeta only [mkS_eq]
  try lift_lets -underBinder
  with_reducible repeat' first
    | assumption
    | exact Keeps.refl _
    | (intro x; refine Keeps.abs (mm := false) (x := x) (s := s) ?_ (fun hk => ?_); rotate_left; clear_value x; rotate_right; dsimp -zeta only [x]; try clear x)
    | (intro x; try clear_value x)
    | apply after_next_keeps
    | apply State.setHif_keeps
    | apply State.p_keeps
    | apply State.irqIf_keeps
    | apply State.wake_keeps
    | apply State.heldSend_keeps
    | apply upd_keeps
    | exact Fits.refl _
    | lift_lets -underBinder
    | apply Keeps.ite

theorem execPrqResponse_keeps {s0 s : State} (hk : Keeps false s0 s) (value : Word) :
    Keeps false s0 (after s (execPrqResponse value s)) := by
  refine hk.trans ?_; clear hk; unfold execPrqResponse; try dsimp -zeta only [mkS_eq]
  try lift_lets -underBinder
  with_reducible repeat' first
    | assumption
    | exact Keeps.refl _
    | (apply KeepsF.intro; intro s; (try dsimp -zeta only); try lift_lets -underBinder)
    | (intro x; try clear_value x)
    | apply after_next_keeps
    | apply State.hostReg_keeps
    | apply State.wake_keeps
    | apply State.prqResponse_keeps

theorem execPrgResponse_keeps {s0 s : State} (hk : Keeps false s0 s) (index : Fin 512) (code : Fin 3) :
    Keeps false s0 (after s (execPrgResponse index code s)) := by
  refine hk.trans ?_; clear hk; unfold execPrgResponse; try dsimp -zeta only [mkS_eq]
  try lift_lets -underBinder
  with_reducible repeat' first
    | assumption
    | exact Keeps.refl _
    | (intro x; try clear_value x)
    | apply after_next_keeps
    | apply State.wake_keeps
    | apply State.prgResponse_keeps

theorem State.degradedSync_keeps {mm : Bool} {s0 s : State} (hk : Keeps mm s0 s) :
    Keeps mm s0 (State.degradedSync s) := by
  refine hk.trans ?_; clear hk; unfold State.degradedSync; try dsimp -zeta only [mkS_eq]
  try lift_lets -underBinder
  with_reducible repeat' first
    | assumption
    | exact Keeps.refl _
    | (intro x; try clear_value x)
    | apply State.fault_keeps
    | apply State.p_keeps
    | apply State.irqIf_keeps
    | apply upd_keeps
    | exact Fits.refl _
    | lift_lets -underBinder
    | apply Keeps.ite
    | split

theorem execPcieLinkUp_keeps {mm : Bool} {s0 s : State} (hk : Keeps mm s0 s) (rate : Fin 6) (width : Fin 5) (flit : Bool) :
    Keeps mm s0 (after s (execPcieLinkUp rate width flit s)) := by
  refine hk.trans ?_; clear hk; unfold execPcieLinkUp; try dsimp -zeta only [mkS_eq]
  try lift_lets -underBinder
  with_reducible repeat' first
    | assumption
    | exact Keeps.refl _
    | (intro x; refine Keeps.abs (mm := mm) (x := x) (s := s) ?_ (fun hk => ?_); rotate_left; clear_value x; rotate_right; dsimp -zeta only [x]; try clear x)
    | (intro x; try clear_value x)
    | apply after_next_keeps
    | apply State.p_keeps
    | apply State.setHif_keeps
    | apply State.degradedSync_keeps
    | apply upd_keeps
    | exact Fits.refl _
    | lift_lets -underBinder
    | apply Keeps.ite

theorem execPcieLinkRecovery_keeps {mm : Bool} {s0 s : State} (hk : Keeps mm s0 s) (rate : Fin 6) (width : Fin 5) (lane : Option (Fin 16)) :
    Keeps mm s0 (after s (execPcieLinkRecovery rate width lane s)) := by
  refine hk.trans ?_; clear hk; unfold execPcieLinkRecovery; try dsimp -zeta only [mkS_eq]
  try lift_lets -underBinder
  with_reducible repeat' first
    | assumption
    | exact Keeps.refl _
    | (apply KeepsF.intro; intro s; (try dsimp -zeta only); try lift_lets -underBinder)
    | (intro x; refine Keeps.abs (mm := mm) (x := x) (s := s) ?_ (fun hk => ?_); rotate_left; clear_value x; rotate_right; dsimp -zeta only [x]; try clear x)
    | (intro x; try clear_value x)
    | apply after_next_keeps
    | apply State.addSat_keeps
    | apply State.irq_keeps
    | apply State.p_keeps
    | apply State.degradedSync_keeps
    | apply State.report_keeps
    | apply State.setHif_keeps
    | apply upd_keeps
    | exact Fits.refl _
    | lift_lets -underBinder
    | apply Keeps.ite
    | split

theorem execFlitReplay_keeps {mm : Bool} {s0 s : State} (hk : Keeps mm s0 s) :
    Keeps mm s0 (after s (execFlitReplay s)) := by
  refine hk.trans ?_; clear hk; unfold execFlitReplay; try dsimp -zeta only [mkS_eq]
  try lift_lets -underBinder
  with_reducible repeat' first
    | assumption
    | exact Keeps.refl _
    | (intro x; try clear_value x)
    | apply after_next_keeps
    | apply State.count_keeps
    | apply State.reportOnly_keeps
    | apply State.addSat_keeps

theorem State.bar2Load_keeps {mm : Bool} {s0 s : State} (hk : Keeps mm s0 s) (a n : Nat) (fails rereadFails verifyFails : Bool) :
    Keeps mm s0 (State.bar2Load s a n fails rereadFails verifyFails).2.2 := by
  unfold State.bar2Load
  generalize (!s.bar2Readable a n) = c1
  generalize s.bar2Zeroing a = c2
  generalize s.regionAt a = c3
  cases c1
  · cases c2
    · cases c3 with
      | none => exact hk
      | some r =>
        have h1 := State.unitRead_keeps hk ((s.region r).place a) (s.region r).isProtected fails rereadFails verifyFails
        revert h1
        dsimp only
        generalize s.unitRead ((s.region r).place a) (s.region r).isProtected fails rereadFails verifyFails = x
        obtain ⟨t, b⟩ := x
        intro h1
        dsimp only at h1 ⊢
        rw [if_neg Bool.false_ne_true, if_neg Bool.false_ne_true]
        split
        · exact State.rebuiltCount_keeps (State.hbmCount_keeps h1 ..) ..
        · exact h1
    · exact hk
  · exact hk

theorem execBar2Read_keeps {mm : Bool} {s0 s : State} (hk : Keeps mm s0 s) (addr : Fin 0x4000000000) (len : Fin 4097) (fails rereadFails verifyFails : Bool) :
    Keeps mm s0 (after s (execBar2Read addr len fails rereadFails verifyFails s)) := by
  refine hk.trans ?_; clear hk; unfold execBar2Read; try dsimp -zeta only [mkS_eq]
  try lift_lets -underBinder
  with_reducible repeat' first
    | assumption
    | exact Keeps.refl _
    | (apply KeepsT.intro; intro b c s; (try dsimp -zeta only); try lift_lets -underBinder)
    | (intro x; refine Keeps.abs (mm := mm) (x := x) (s := s) ?_ (fun hk => ?_); rotate_left; clear_value x; rotate_right; dsimp -zeta only [x]; try clear x)
    | (intro x; refine Keeps.abs (mm := mm) (x := x.2.2) (s := s) ?_ (fun hk => ?_); rotate_left; clear_value x; rotate_right; dsimp -zeta only [x]; try clear x)
    | (intro x; try clear_value x)
    | apply after_next_keeps
    | apply State.hostCount_keeps
    | apply State.count_keeps
    | apply State.emit_keeps
    | apply State.refusedAccess_keeps
    | apply State.bar2Load_keeps
    | apply foldl_keeps
    | apply foldl2_keeps
    | apply foldl3_keeps
    | lift_lets -underBinder
    | apply Keeps.ite

theorem execBar2Write_keeps {s0 s : State} (hk : Keeps false s0 s) (addr : Fin 0x4000000000) (bytes : List Byte) :
    Keeps false s0 (after s (execBar2Write addr bytes s)) := by
  refine hk.trans ?_; clear hk; unfold execBar2Write; try dsimp -zeta only [mkS_eq]
  try lift_lets -underBinder
  with_reducible repeat' first
    | assumption
    | exact Keeps.refl _
    | (apply KeepsF.intro; intro s; (try dsimp -zeta only); try lift_lets -underBinder)
    | (intro x; refine Keeps.abs (mm := false) (x := x) (s := s) ?_ (fun hk => ?_); rotate_left; clear_value x; rotate_right; dsimp -zeta only [x]; try clear x)
    | (intro x; try clear_value x)
    | apply after_next_keeps
    | apply State.hostCount_keeps
    | apply State.count_keeps
    | apply State.refusedAccess_keeps
    | apply State.hbmCount_keeps
    | apply State.hbmStore_keeps
    | apply foldl_keeps
    | lift_lets -underBinder
    | apply Keeps.ite

theorem State.smbServe_keeps {mm : Bool} {s0 s : State} (hk : Keeps mm s0 s) (code : Nat) (bytes : List Byte) :
    Keeps mm s0 (State.smbServe s code bytes) := by
  refine hk.trans ?_; clear hk; unfold State.smbServe; try dsimp -zeta only [mkS_eq]
  try lift_lets -underBinder
  with_reducible repeat' first
    | assumption
    | exact Keeps.refl _
    | (intro x; try clear_value x)
    | apply State.emit_keeps
    | apply State.p_keeps

theorem State.smbNack_keeps {mm : Bool} {s0 s : State} (hk : Keeps mm s0 s) :
    Keeps mm s0 (State.smbNack s) := by
  refine hk.trans ?_; clear hk; unfold State.smbNack; try dsimp -zeta only [mkS_eq]
  try lift_lets -underBinder
  with_reducible repeat' first
    | assumption
    | exact Keeps.refl _
    | (intro x; try clear_value x)
    | apply State.emit_keeps

theorem State.smbus_keeps {mm : Bool} {s0 s : State} (hk : Keeps mm s0 s) (pecOk : Bool) (op : State → State) (hkop : KeepsF mm op) :
    Keeps mm s0 (State.smbus s pecOk op) := by
  refine hk.trans ?_; clear hk; unfold State.smbus; try dsimp -zeta only [mkS_eq]
  try lift_lets -underBinder
  with_reducible repeat' first
    | assumption
    | exact Keeps.refl _
    | (intro x; try clear_value x)
    | exact hkop
    | apply KeepsF.ap hkop
    | apply State.smbNack_keeps
    | apply State.addSat_keeps
    | lift_lets -underBinder
    | apply Keeps.ite

theorem execSmbIdent_keeps {mm : Bool} {s0 s : State} (hk : Keeps mm s0 s) :
    Keeps mm s0 (after s (execSmbIdent s)) := by
  refine hk.trans ?_; clear hk; unfold execSmbIdent; try dsimp -zeta only [mkS_eq]
  try lift_lets -underBinder
  with_reducible repeat' first
    | assumption
    | exact Keeps.refl _
    | (apply KeepsF.intro; intro s; (try dsimp -zeta only); try lift_lets -underBinder)
    | (intro x; try clear_value x)
    | apply after_next_keeps
    | apply State.smbus_keeps
    | apply State.smbServe_keeps

theorem execSmbStatus_keeps {mm : Bool} {s0 s : State} (hk : Keeps mm s0 s) :
    Keeps mm s0 (after s (execSmbStatus s)) := by
  refine hk.trans ?_; clear hk; unfold execSmbStatus; try dsimp -zeta only [mkS_eq]
  try lift_lets -underBinder
  with_reducible repeat' first
    | assumption
    | exact Keeps.refl _
    | (apply KeepsF.intro; intro s; (try dsimp -zeta only); try lift_lets -underBinder)
    | (intro x; try clear_value x)
    | apply after_next_keeps
    | apply State.smbus_keeps
    | apply State.smbServe_keeps

theorem execSmbTemps_keeps {mm : Bool} {s0 s : State} (hk : Keeps mm s0 s) :
    Keeps mm s0 (after s (execSmbTemps s)) := by
  refine hk.trans ?_; clear hk; unfold execSmbTemps; try dsimp -zeta only [mkS_eq]
  try lift_lets -underBinder
  with_reducible repeat' first
    | assumption
    | exact Keeps.refl _
    | (apply KeepsF.intro; intro s; (try dsimp -zeta only); try lift_lets -underBinder)
    | (intro x; try clear_value x)
    | apply after_next_keeps
    | apply State.smbus_keeps
    | apply State.smbServe_keeps

theorem execSmbVfab_keeps {mm : Bool} {s0 s : State} (hk : Keeps mm s0 s) :
    Keeps mm s0 (after s (execSmbVfab s)) := by
  refine hk.trans ?_; clear hk; unfold execSmbVfab; try dsimp -zeta only [mkS_eq]
  try lift_lets -underBinder
  with_reducible repeat' first
    | assumption
    | exact Keeps.refl _
    | (apply KeepsF.intro; intro s; (try dsimp -zeta only); try lift_lets -underBinder)
    | (intro x; try clear_value x)
    | apply after_next_keeps
    | apply State.smbus_keeps
    | apply State.smbServe_keeps

theorem execSmbWinAddr_keeps {mm : Bool} {s0 s : State} (hk : Keeps mm s0 s) (value : Option Word) (pecOk : Bool) :
    Keeps mm s0 (after s (execSmbWinAddr value pecOk s)) := by
  refine hk.trans ?_; clear hk; unfold execSmbWinAddr; try dsimp -zeta only [mkS_eq]
  try lift_lets -underBinder
  with_reducible repeat' first
    | assumption
    | exact Keeps.refl _
    | (apply KeepsF.intro; intro s; (try dsimp -zeta only); try lift_lets -underBinder)
    | (intro x; try clear_value x)
    | apply after_next_keeps
    | apply State.smbus_keeps
    | apply State.smbServe_keeps
    | apply State.smbNack_keeps
    | apply State.setHif_keeps
    | apply upd_keeps
    | exact Fits.refl _
    | lift_lets -underBinder
    | apply Keeps.ite
    | split

theorem execSmbWinDataRead_keeps {mm : Bool} {s0 s : State} (hk : Keeps mm s0 s) :
    Keeps mm s0 (after s (execSmbWinDataRead s)) := by
  refine hk.trans ?_; clear hk; unfold execSmbWinDataRead; try dsimp -zeta only [mkS_eq]
  try lift_lets -underBinder
  with_reducible repeat' first
    | assumption
    | exact Keeps.refl _
    | (apply KeepsF.intro; intro s; (try dsimp -zeta only); try lift_lets -underBinder)
    | (intro x; try clear_value x)
    | apply after_next_keeps
    | apply State.smbus_keeps
    | apply State.smbServe_keeps
    | apply State.readEffect_keeps

theorem execSmbWinDataWrite_keeps {s0 s : State} (hk : Keeps false s0 s) (value : Word) (pecOk : Bool) :
    Keeps false s0 (after s (execSmbWinDataWrite value pecOk s)) := by
  refine hk.trans ?_; clear hk; unfold execSmbWinDataWrite; try dsimp -zeta only [mkS_eq]
  try lift_lets -underBinder
  with_reducible repeat' first
    | assumption
    | exact Keeps.refl _
    | (apply KeepsF.intro; intro s; (try dsimp -zeta only); try lift_lets -underBinder)
    | (intro x; try clear_value x)
    | apply after_next_keeps
    | apply State.smbus_keeps
    | apply State.irq_keeps
    | apply State.regOp_keeps
    | apply State.smbServe_keeps
    | apply State.resetCtrl_keeps
    | apply State.thmCtrl_keeps
    | apply State.smbNack_keeps
    | lift_lets -underBinder
    | apply Keeps.ite

theorem execSmbSubsys_keeps {mm : Bool} {s0 s : State} (hk : Keeps mm s0 s) (vid sid : BitVec 16) (pecOk : Bool) :
    Keeps mm s0 (after s (execSmbSubsys vid sid pecOk s)) := by
  refine hk.trans ?_; clear hk; unfold execSmbSubsys; try dsimp -zeta only [mkS_eq]
  try lift_lets -underBinder
  with_reducible repeat' first
    | assumption
    | exact Keeps.refl _
    | (apply KeepsF.intro; intro s; (try dsimp -zeta only); try lift_lets -underBinder)
    | (intro x; try clear_value x)
    | apply after_next_keeps
    | apply State.smbus_keeps
    | apply State.smbNack_keeps
    | apply State.smbServe_keeps
    | apply State.p_keeps
    | lift_lets -underBinder
    | apply Keeps.ite

theorem execSmbusTimeout_keeps {mm : Bool} {s0 s : State} (hk : Keeps mm s0 s) :
    Keeps mm s0 (after s (execSmbusTimeout s)) := by
  refine hk.trans ?_; clear hk; unfold execSmbusTimeout; try dsimp -zeta only [mkS_eq]
  try lift_lets -underBinder
  with_reducible repeat' first
    | assumption
    | exact Keeps.refl _
    | (intro x; try clear_value x)
    | apply after_next_keeps

end Sys2Proof.Machine
end

