-- ==== Sys2Proof/Laws/KeepsPage.lean ====
section
/-! SUPPORT. What the functions of Machine/Page.lean keep: the part, the queue, the memories where they store nothing, and the
canonical form of the tables. -/

namespace Sys2Proof.Machine
theorem State.guarded_keeps {mm : Bool} {s0 s : State} (hk : Keeps mm s0 s) (off v : Nat) (refused : Bool) :
    Keeps mm s0 (State.guarded s off v refused) := by
  refine hk.trans ?_; clear hk; unfold State.guarded; try dsimp -zeta only [mkS_eq]
  try lift_lets -underBinder
  with_reducible repeat' first
    | assumption
    | exact Keeps.refl _
    | (intro x; try clear_value x)
    | apply State.refuse4_keeps
    | apply State.plainWrite_keeps
    | lift_lets -underBinder
    | apply Keeps.ite

theorem State.lnkWrite_keeps {mm : Bool} {s0 s : State} (hk : Keeps mm s0 s) (q rel off v : Nat) :
    Keeps mm s0 (State.lnkWrite s q rel off v) := by
  refine hk.trans ?_; clear hk; unfold State.lnkWrite; try dsimp -zeta only [mkS_eq]
  try lift_lets -underBinder
  with_reducible repeat' first
    | assumption
    | exact Keeps.refl _
    | (intro x; try clear_value x)
    | apply State.quadRoleWrite_keeps
    | apply State.scanWrite_keeps
    | apply State.lanePwrWrite_keeps
    | apply State.laneTrainWrite_keeps
    | apply State.prbsCtrl_keeps
    | apply State.prbsInj_keeps
    | apply State.guarded_keeps
    | apply State.plainWrite_keeps
    | lift_lets -underBinder
    | apply Keeps.ite

theorem State.cwyWrite_keeps {s0 s : State} (hk : Keeps false s0 s) (h rel off v : Nat) :
    Keeps false s0 (State.cwyWrite s h rel off v) := by
  refine hk.trans ?_; clear hk; unfold State.cwyWrite; try dsimp -zeta only [mkS_eq]
  try lift_lets -underBinder
  with_reducible repeat' first
    | assumption
    | exact Keeps.refl _
    | (intro x; try clear_value x)
    | apply State.cwyCtrl_keeps
    | apply State.feedCtrl_keeps
    | apply State.txqPush_keeps
    | apply State.rxqPop_keeps
    | apply State.plainWrite_keeps
    | lift_lets -underBinder
    | apply Keeps.ite

theorem State.ingWrite_keeps {mm : Bool} {s0 s : State} (hk : Keeps mm s0 s) (h rel off v : Nat) :
    Keeps mm s0 (State.ingWrite s h rel off v) := by
  refine hk.trans ?_; clear hk; unfold State.ingWrite; try dsimp -zeta only [mkS_eq]
  try lift_lets -underBinder
  with_reducible repeat' first
    | assumption
    | exact Keeps.refl _
    | (intro x; try clear_value x)
    | apply State.refuse4_keeps
    | apply State.abnCtrl_keeps
    | apply State.plainWrite_keeps
    | lift_lets -underBinder
    | apply Keeps.ite

theorem State.pslWrite_keeps {mm : Bool} {s0 s : State} (hk : Keeps mm s0 s) (p rel off v : Nat) (shadowed : Bool) :
    Keeps mm s0 (State.pslWrite s p rel off v shadowed) := by
  refine hk.trans ?_; clear hk; unfold State.pslWrite; try dsimp -zeta only [mkS_eq]
  try lift_lets -underBinder
  with_reducible repeat' first
    | assumption
    | exact Keeps.refl _
    | (intro x; try clear_value x)
    | apply State.tblLoadStart_keeps
    | apply State.tapReturn_keeps
    | apply State.guarded_keeps
    | lift_lets -underBinder
    | apply Keeps.ite

theorem State.clrWrite_keeps {mm : Bool} {s0 s : State} (hk : Keeps mm s0 s) (i rel off v : Nat) :
    Keeps mm s0 (State.clrWrite s i rel off v) := by
  refine hk.trans ?_; clear hk; unfold State.clrWrite; try dsimp -zeta only [mkS_eq]
  try lift_lets -underBinder
  with_reducible repeat' first
    | assumption
    | exact Keeps.refl _
    | (intro x; try clear_value x)
    | apply State.clrLoad_keeps
    | apply State.guarded_keeps
    | lift_lets -underBinder
    | apply Keeps.ite

theorem State.witWrite_keeps {mm : Bool} {s0 s : State} (hk : Keeps mm s0 s) (w rel off v : Nat) :
    Keeps mm s0 (State.witWrite s w rel off v) := by
  refine hk.trans ?_; clear hk; unfold State.witWrite; try dsimp -zeta only [mkS_eq]
  try lift_lets -underBinder
  with_reducible repeat' first
    | assumption
    | exact Keeps.refl _
    | (intro x; try clear_value x)
    | apply State.witNextWrite_keeps
    | apply State.witReturn_keeps
    | apply State.plainWrite_keeps
    | lift_lets -underBinder
    | apply Keeps.ite

theorem State.smpWrite_keeps {mm : Bool} {s0 s : State} (hk : Keeps mm s0 s) (rel off v : Nat) :
    Keeps mm s0 (State.smpWrite s rel off v) := by
  refine hk.trans ?_; clear hk; unfold State.smpWrite; try dsimp -zeta only [mkS_eq]
  try lift_lets -underBinder
  with_reducible repeat' first
    | assumption
    | exact Keeps.refl _
    | (intro x; try clear_value x)
    | apply State.planCtrl_keeps
    | apply State.guarded_keeps
    | lift_lets -underBinder
    | apply Keeps.ite

theorem State.vlcWrite_keeps {mm : Bool} {s0 s : State} (hk : Keeps mm s0 s) (rel off v : Nat) :
    Keeps mm s0 (State.vlcWrite s rel off v) := by
  refine hk.trans ?_; clear hk; unfold State.vlcWrite; try dsimp -zeta only [mkS_eq]
  try lift_lets -underBinder
  with_reducible repeat' first
    | assumption
    | exact Keeps.refl _
    | (intro x; try clear_value x)
    | apply State.clrForced_keeps
    | apply State.plainWrite_keeps
    | apply upd_keeps
    | exact Fits.refl _
    | lift_lets -underBinder
    | apply Keeps.ite
    | split

theorem State.gcxWrite_keeps {mm : Bool} {s0 s : State} (hk : Keeps mm s0 s) (rel off v : Nat) :
    Keeps mm s0 (State.gcxWrite s rel off v) := by
  refine hk.trans ?_; clear hk; unfold State.gcxWrite; try dsimp -zeta only [mkS_eq]
  try lift_lets -underBinder
  with_reducible repeat' first
    | assumption
    | exact Keeps.refl _
    | (intro x; try clear_value x)
    | apply State.gcxProd_keeps
    | apply State.gcxCtrl_keeps
    | apply State.guarded_keeps
    | lift_lets -underBinder
    | apply Keeps.ite

theorem State.tsqWrite_keeps {mm : Bool} {s0 s : State} (hk : Keeps mm s0 s) (rel off v : Nat) :
    Keeps mm s0 (State.tsqWrite s rel off v) := by
  refine hk.trans ?_; clear hk; unfold State.tsqWrite; try dsimp -zeta only [mkS_eq]
  try lift_lets -underBinder
  with_reducible repeat' first
    | assumption
    | exact Keeps.refl _
    | (intro x; try clear_value x)
    | apply State.headWrite_keeps
    | apply State.tsqPwrWrite_keeps
    | apply State.abortWrite_keeps
    | apply State.defCtrl_keeps
    | apply State.areaWrite_keeps
    | apply State.slotSubmit_keeps
    | apply State.guarded_keeps
    | lift_lets -underBinder
    | apply Keeps.ite

theorem State.hbmWriteReg_keeps {mm : Bool} {s0 s : State} (hk : Keeps mm s0 s) (k rel off v : Nat) :
    Keeps mm s0 (State.hbmWriteReg s k rel off v) := by
  refine hk.trans ?_; clear hk; unfold State.hbmWriteReg; try dsimp -zeta only [mkS_eq]
  try lift_lets -underBinder
  with_reducible repeat' first
    | assumption
    | exact Keeps.refl _
    | (intro x; refine Keeps.abs (mm := mm) (x := x) (s := s) ?_ (fun hk => ?_); rotate_left; clear_value x; rotate_right; dsimp -zeta only [x]; try clear x)
    | (intro x; try clear_value x)
    | apply State.refuse4_keeps
    | apply State.hbmGo_keeps
    | apply State.p_keeps
    | apply State.hbmMult_keeps
    | apply State.plainWrite_keeps
    | apply State.pcCtrl_keeps
    | apply State.trnDelay_keeps
    | apply State.helperStart_keeps
    | apply State.planApply_keeps
    | apply State.guarded_keeps
    | apply upd_keeps
    | exact Fits.refl _
    | lift_lets -underBinder
    | apply Keeps.ite

theorem State.ctxWrite_keeps {s0 s : State} (hk : Keeps false s0 s) (rel off v : Nat) :
    Keeps false s0 (State.ctxWrite s rel off v) := by
  refine hk.trans ?_; clear hk; unfold State.ctxWrite; try dsimp -zeta only [mkS_eq]
  try lift_lets -underBinder
  with_reducible repeat' first
    | assumption
    | exact Keeps.refl _
    | (intro x; try clear_value x)
    | apply State.ctxModeWrite_keeps
    | apply State.headWrite_keeps
    | apply State.ctxSubmit_keeps
    | apply State.ctxAbort_keeps
    | apply State.pbRet_keeps
    | apply State.guarded_keeps
    | apply State.plainWrite_keeps
    | lift_lets -underBinder
    | apply Keeps.ite

theorem State.ethWrite_keeps {mm : Bool} {s0 s : State} (hk : Keeps mm s0 s) (k rel off v : Nat) :
    Keeps mm s0 (State.ethWrite s k rel off v) := by
  refine hk.trans ?_; clear hk; unfold State.ethWrite; try dsimp -zeta only [mkS_eq]
  try lift_lets -underBinder
  with_reducible repeat' first
    | assumption
    | exact Keeps.refl _
    | (intro x; try clear_value x)
    | apply State.headWrite_keeps
    | apply State.htxWrite_keeps
    | apply State.sndCfgWrite_keeps
    | apply State.sesCtrl_keeps
    | apply State.guarded_keeps
    | apply upd_keeps
    | exact Fits.refl _
    | lift_lets -underBinder
    | apply Keeps.ite
    | split

theorem State.timWrite_keeps {mm : Bool} {s0 s : State} (hk : Keeps mm s0 s) (rel off v : Nat) :
    Keeps mm s0 (State.timWrite s rel off v) := by
  refine hk.trans ?_; clear hk; unfold State.timWrite; try dsimp -zeta only [mkS_eq]
  try lift_lets -underBinder
  with_reducible repeat' first
    | assumption
    | exact Keeps.refl _
    | (intro x; try clear_value x)
    | apply State.refuse4_keeps
    | apply State.timCtrl_keeps
    | apply State.incHiWrite_keeps
    | apply State.adjCtrl_keeps
    | apply State.capCtrl_keeps
    | apply State.stbCfg_keeps
    | apply State.stbCtrl_keeps
    | apply State.servoSync_keeps
    | apply State.plainWrite_keeps
    | apply upd_keeps
    | exact Fits.refl _
    | lift_lets -underBinder
    | apply Keeps.ite
    | split

theorem State.dspWrite_keeps {mm : Bool} {s0 s : State} (hk : Keeps mm s0 s) (rel off v : Nat) :
    Keeps mm s0 (State.dspWrite s rel off v) := by
  refine hk.trans ?_; clear hk; unfold State.dspWrite; try dsimp -zeta only [mkS_eq]
  try lift_lets -underBinder
  with_reducible repeat' first
    | assumption
    | exact Keeps.refl _
    | (intro x; try clear_value x)
    | apply State.auxCmd_keeps
    | apply State.dspSync_keeps
    | apply State.plainWrite_keeps
    | apply State.guarded_keeps
    | lift_lets -underBinder
    | apply Keeps.ite

theorem State.xltWrite_keeps {s0 s : State} (hk : Keeps false s0 s) (rel off v : Nat) :
    Keeps false s0 (State.xltWrite s rel off v) := by
  refine hk.trans ?_; clear hk; unfold State.xltWrite; try dsimp -zeta only [mkS_eq]
  try lift_lets -underBinder
  with_reducible repeat' first
    | assumption
    | exact Keeps.refl _
    | (intro x; try clear_value x)
    | apply State.plainWrite_keeps
    | apply State.headWrite_keeps
    | apply State.wake_keeps
    | apply State.prqResponse_keeps
    | apply State.xltInvalidate_keeps
    | apply State.guarded_keeps
    | lift_lets -underBinder
    | apply Keeps.ite

theorem State.dmaWrite_keeps {mm : Bool} {s0 s : State} (hk : Keeps mm s0 s) (c rel off v : Nat) :
    Keeps mm s0 (State.dmaWrite s c rel off v) := by
  refine hk.trans ?_; clear hk; unfold State.dmaWrite; try dsimp -zeta only [mkS_eq]
  try lift_lets -underBinder
  with_reducible repeat' first
    | assumption
    | exact Keeps.refl _
    | (intro x; try clear_value x)
    | apply State.dmaProd_keeps
    | apply State.dmaReqCtrl_keeps
    | apply State.dmaCtrl_keeps
    | apply State.guarded_keeps
    | lift_lets -underBinder
    | apply Keeps.ite

theorem State.bitWrite_keeps {mm : Bool} {s0 s : State} (hk : Keeps mm s0 s) (rel off v : Nat) :
    Keeps mm s0 (State.bitWrite s rel off v) := by
  refine hk.trans ?_; clear hk; unfold State.bitWrite; try dsimp -zeta only [mkS_eq]
  try lift_lets -underBinder
  with_reducible repeat' first
    | assumption
    | exact Keeps.refl _
    | (intro x; try clear_value x)
    | apply State.faultNCtrl_keeps
    | apply State.srcClearWrite_keeps
    | apply State.bitLogCtrl_keeps
    | apply State.injCfg_keeps
    | apply State.injCtrl_keeps
    | apply State.testCtrl_keeps
    | apply State.plainWrite_keeps
    | lift_lets -underBinder
    | apply Keeps.ite

theorem State.cntWrite_keeps {mm : Bool} {s0 s : State} (hk : Keeps mm s0 s) (rel off v : Nat) :
    Keeps mm s0 (State.cntWrite s rel off v) := by
  refine hk.trans ?_; clear hk; unfold State.cntWrite; try dsimp -zeta only [mkS_eq]
  try lift_lets -underBinder
  with_reducible repeat' first
    | assumption
    | exact Keeps.refl _
    | (intro x; try clear_value x)
    | apply State.cntCtrl_keeps
    | apply State.cntCfg_keeps
    | apply State.cntValWrite_keeps
    | apply State.plainWrite_keeps
    | lift_lets -underBinder
    | apply Keeps.ite

theorem State.writeBlock_keeps {s0 s : State} (hk : Keeps false s0 s) (o : Owner) (off v : Nat) :
    Keeps false s0 (State.writeBlock s o off v) := by
  refine hk.trans ?_; clear hk; unfold State.writeBlock; try dsimp -zeta only [mkS_eq]
  try lift_lets -underBinder
  with_reducible repeat' first
    | assumption
    | exact Keeps.refl _
    | (intro x; try clear_value x)
    | apply State.resetCtrl_keeps
    | apply State.plainWrite_keeps
    | apply State.lnkWrite_keeps
    | apply State.cwyWrite_keeps
    | apply State.ingWrite_keeps
    | apply State.pslWrite_keeps
    | apply State.clrWrite_keeps
    | apply State.witWrite_keeps
    | apply State.smpWrite_keeps
    | apply State.vlcWrite_keeps
    | apply State.gcxWrite_keeps
    | apply State.tsqWrite_keeps
    | apply State.hbmWriteReg_keeps
    | apply State.ctxWrite_keeps
    | apply State.ethWrite_keeps
    | apply State.timWrite_keeps
    | apply State.dspWrite_keeps
    | apply State.xltWrite_keeps
    | apply State.dmaWrite_keeps
    | apply State.bitWrite_keeps
    | apply State.thmCtrl_keeps
    | apply State.seqGrant_keeps
    | apply State.cntWrite_keeps
    | apply upd_keeps
    | exact Fits.refl _
    | lift_lets -underBinder
    | apply Keeps.ite
    | split

theorem State.headerWrite_keeps {s0 s : State} (hk : Keeps false s0 s) (blk : Blk) (i po v : Nat) :
    Keeps false s0 (State.headerWrite s blk i po v) := by
  refine hk.trans ?_; clear hk; unfold State.headerWrite; try dsimp -zeta only [mkS_eq]
  try lift_lets -underBinder
  with_reducible repeat' first
    | assumption
    | exact Keeps.refl _
    | (intro x; try clear_value x)
    | apply State.pageCtrl_keeps
    | apply State.irqStatWrite_keeps
    | apply State.irqEnWrite_keeps
    | apply State.irqForce_keeps
    | apply State.shadowCommit_keeps
    | apply State.p_keeps
    | apply State.wr_keeps
    | apply State.badWrite_keeps
    | lift_lets -underBinder
    | apply Keeps.ite

theorem State.msixByte_keeps {mm : Bool} {s0 s : State} (hk : Keeps mm s0 s) (k : Nat) (b : Byte) :
    Keeps mm s0 (State.msixByte s k b) := by
  refine hk.trans ?_; clear hk; unfold State.msixByte; try dsimp -zeta only [mkS_eq]
  try lift_lets -underBinder
  with_reducible repeat' first
    | assumption
    | exact Keeps.refl _
    | (intro x; try clear_value x)
    | apply upd_keeps
    | exact Fits.refl _

theorem State.msixWrite_keeps {mm : Bool} {s0 s : State} (hk : Keeps mm s0 s) (off : Nat) (data : List (Option Byte)) :
    Keeps mm s0 (State.msixWrite s off data) := by
  refine hk.trans ?_; clear hk; unfold State.msixWrite; try dsimp -zeta only [mkS_eq]
  try lift_lets -underBinder
  with_reducible repeat' first
    | assumption
    | exact Keeps.refl _
    | (apply KeepsF.intro; intro s; (try dsimp -zeta only); try lift_lets -underBinder)
    | (intro x; try clear_value x)
    | apply State.pendingSend_keeps
    | apply State.msixByte_keeps
    | apply foldl_keeps
    | apply upd_keeps
    | exact Fits.refl _
    | lift_lets -underBinder
    | apply Keeps.ite
    | split

theorem State.writeDword_keeps {s0 s : State} (hk : Keeps false s0 s) (off v : Nat) :
    Keeps false s0 (State.writeDword s off v) := by
  refine hk.trans ?_; clear hk; unfold State.writeDword; try dsimp -zeta only [mkS_eq]
  try lift_lets -underBinder
  with_reducible repeat' first
    | assumption
    | exact Keeps.refl _
    | (apply KeepsF.intro; intro s; (try dsimp -zeta only); try lift_lets -underBinder)
    | (intro x; try clear_value x)
    | apply State.hdrOp_keeps
    | apply State.headerWrite_keeps
    | apply State.regOp_keeps
    | apply State.writeBlock_keeps
    | apply upd_keeps
    | exact Fits.refl _
    | lift_lets -underBinder
    | apply Keeps.ite
    | split

theorem State.bar0Write_keeps {s0 s : State} (hk : Keeps false s0 s) (off : Nat) (data : List (Option Byte)) :
    Keeps false s0 (State.bar0Write s off data) := by
  refine hk.trans ?_; clear hk; unfold State.bar0Write; try dsimp -zeta only [mkS_eq]
  try lift_lets -underBinder
  with_reducible repeat' first
    | assumption
    | exact Keeps.refl _
    | (apply KeepsF.intro; intro s; (try dsimp -zeta only); try lift_lets -underBinder)
    | (intro x; try clear_value x)
    | apply State.msixWrite_keeps
    | apply State.writeDword_keeps
    | apply State.regOp_keeps
    | apply State.nextSeqWrite_keeps
    | apply State.hdrOp_keeps
    | apply State.badWrite_keeps
    | apply upd_keeps
    | exact Fits.refl _
    | lift_lets -underBinder
    | apply Keeps.ite
    | split

theorem execRegisterWrite_keeps {s0 s : State} (hk : Keeps false s0 s) (off : Fin 0x4000000) (data : List (Option Byte)) :
    Keeps false s0 (after s (execRegisterWrite off data s)) := by
  refine hk.trans ?_; clear hk; unfold execRegisterWrite; try dsimp -zeta only [mkS_eq]
  try lift_lets -underBinder
  with_reducible repeat' first
    | assumption
    | exact Keeps.refl _
    | (apply KeepsF.intro; intro s; (try dsimp -zeta only); try lift_lets -underBinder)
    | (intro x; try clear_value x)
    | apply after_next_keeps
    | apply State.host_keeps
    | apply State.bar0Write_keeps
    | apply State.hostCount_keeps

end Sys2Proof.Machine
end

