-- ==== Sys2Proof/Laws/KeepsDmaRun.lean ====
section
/-! SUPPORT. What the functions of Machine/DmaRun.lean keep: the part, the queue, the memories where they store nothing, and the
canonical form of the tables. -/

namespace Sys2Proof.Machine
theorem State.dmaRegRead_keeps {mm : Bool} {s0 s : State} (hk : Keeps mm s0 s) (off n : Nat) :
    Keeps mm s0 (State.dmaRegRead s off n).2 := by
  refine hk.trans ?_; clear hk; unfold State.dmaRegRead; try dsimp -zeta only [mkS_eq]
  try lift_lets -underBinder
  with_reducible repeat' first
    | assumption
    | exact Keeps.refl _
    | (intro x; refine Keeps.abs (mm := mm) (x := x.2) (s := s) ?_ (fun hk => ?_); rotate_left; clear_value x; rotate_right; dsimp -zeta only [x]; try clear x)
    | (intro x; try clear_value x)
    | apply State.readRegs_keeps

theorem State.dmaRegWrite_keeps {s0 s : State} (hk : Keeps false s0 s) (off : Nat) (l : List Byte) :
    Keeps false s0 (State.dmaRegWrite s off l) := by
  refine hk.trans ?_; clear hk; unfold State.dmaRegWrite; try dsimp -zeta only [mkS_eq]
  try lift_lets -underBinder
  with_reducible repeat' first
    | assumption
    | exact Keeps.refl _
    | (apply KeepsF.intro; intro s; (try dsimp -zeta only); try lift_lets -underBinder)
    | (intro x; try clear_value x)
    | apply State.bar0Write_keeps
    | apply foldl_keeps

theorem State.dmaRead_keeps {s0 s : State} (hk : Keeps false s0 s) (c asid a n : Nat) :
    Keeps false s0 (State.dmaRead s c asid a n).2.2 := by
  refine hk.trans ?_; clear hk; unfold State.dmaRead; try dsimp -zeta only [mkS_eq]
  try lift_lets -underBinder
  with_reducible repeat' first
    | assumption
    | exact Keeps.refl _
    | (intro x; refine Keeps.abs (mm := false) (x := x.2) (s := s) ?_ (fun hk => ?_); rotate_left; clear_value x; rotate_right; dsimp -zeta only [x]; try clear x)
    | (intro x; try clear_value x)
    | apply State.dmaRegRead_keeps
    | apply State.masterRead_keeps
    | lift_lets -underBinder
    | apply Keeps.ite
    | split

theorem State.dmaStore_keeps {s0 s : State} (hk : Keeps false s0 s) (c asid a : Nat) (l : List Byte) :
    Keeps false s0 (State.dmaStore s c asid a l).2 := by
  refine hk.trans ?_; clear hk; unfold State.dmaStore; try dsimp -zeta only [mkS_eq]
  try lift_lets -underBinder
  with_reducible repeat' first
    | assumption
    | exact Keeps.refl _
    | (intro x; try clear_value x)
    | apply State.dmaRegWrite_keeps
    | apply State.masterWrite_keeps
    | lift_lets -underBinder
    | apply Keeps.ite
    | split

theorem State.dmaAfter_keeps {mm : Bool} {s0 s : State} (hk : Keeps mm s0 s) (c : Nat) (a : Access) : Keeps mm s0 (State.dmaAfter s c a) := by
  unfold State.dmaAfter
  cases a with
  | ok => exact hk
  | waits => exact State.p_keeps hk ..
  | xlt => exact State.dmaHalt_keeps hk ..
  | refused => exact State.dmaHalt_keeps hk ..
  | failed => exact State.dmaBusError_keeps hk ..

theorem State.setDmaPos_keeps {mm : Bool} {s0 s : State} (hk : Keeps mm s0 s) (c : Nat) (k : Nat × Nat × Nat × Nat) :
    Keeps mm s0 (State.setDmaPos s c k) := by
  refine hk.trans ?_; clear hk; unfold State.setDmaPos; try dsimp -zeta only [mkS_eq]
  try lift_lets -underBinder
  with_reducible repeat' first
    | assumption
    | exact Keeps.refl _
    | (intro x; try clear_value x)
    | apply State.p_keeps

theorem State.setDmaCsum_keeps {mm : Bool} {s0 s : State} (hk : Keeps mm s0 s) (c : Nat) (v : Nat × Option Nat) :
    Keeps mm s0 (State.setDmaCsum s c v) := by
  refine hk.trans ?_; clear hk; unfold State.setDmaCsum; try dsimp -zeta only [mkS_eq]
  try lift_lets -underBinder
  with_reducible repeat' first
    | assumption
    | exact Keeps.refl _
    | (intro x; try clear_value x)
    | apply State.setCh_keeps
    | apply State.p_keeps

theorem State.dmaWrote_keeps {mm : Bool} {s0 s : State} (hk : Keeps mm s0 s) (c n : Nat) :
    Keeps mm s0 (State.dmaWrote s c n) := by
  refine hk.trans ?_; clear hk; unfold State.dmaWrote; try dsimp -zeta only [mkS_eq]
  try lift_lets -underBinder
  with_reducible repeat' first
    | assumption
    | exact Keeps.refl _
    | (intro x; try clear_value x)
    | apply State.p64_keeps

theorem State.dmaDone_keeps {mm : Bool} {s0 s : State} (hk : Keeps mm s0 s) (c : Nat) (d : DmaDesc) (v : Nat × Option Nat) :
    Keeps mm s0 (State.dmaDone s c d v) := by
  refine hk.trans ?_; clear hk; unfold State.dmaDone; try dsimp -zeta only [mkS_eq]
  try lift_lets -underBinder
  with_reducible repeat' first
    | assumption
    | exact Keeps.refl _
    | (intro x; refine Keeps.abs (mm := mm) (x := x) (s := s) ?_ (fun hk => ?_); rotate_left; clear_value x; rotate_right; dsimp -zeta only [x]; try clear x)
    | (intro x; try clear_value x)
    | apply State.dmaEnd_keeps
    | apply State.setCh_keeps
    | apply upd_keeps
    | exact Fits.refl _
    | lift_lets -underBinder
    | apply Keeps.ite

theorem State.dmaFinish_keeps {s0 s : State} (hk : Keeps false s0 s) (c : Nat) (d : DmaDesc) :
    Keeps false s0 (State.dmaFinish s c d) := by
  refine hk.trans ?_; clear hk; unfold State.dmaFinish; try dsimp -zeta only [mkS_eq]
  try lift_lets -underBinder
  with_reducible repeat' first
    | assumption
    | exact Keeps.refl _
    | (intro x; try clear_value x)
    | apply State.dmaStore_keeps
    | apply State.dmaDone_keeps
    | apply State.dmaWrote_keeps
    | apply State.p_keeps
    | apply State.dmaAfter_keeps
    | apply upd_keeps
    | exact Fits.refl _
    | (apply Keeps.ofpair (by assumption))
    | (apply Keeps.ofpair1 (by assumption))
    | (apply Keeps.oftriple (by assumption))
    | lift_lets -underBinder
    | apply Keeps.ite
    | split

theorem State.dmaBegin_keeps {mm : Bool} {s0 s : State} (hk : Keeps mm s0 s) (c : Nat) (d : DmaDesc) :
    Keeps mm s0 (State.dmaBegin s c d) := by
  refine hk.trans ?_; clear hk; unfold State.dmaBegin; try dsimp -zeta only [mkS_eq]
  try lift_lets -underBinder
  with_reducible repeat' first
    | assumption
    | exact Keeps.refl _
    | (intro x; try clear_value x)
    | apply State.setCh_keeps
    | apply State.setDmaCsum_keeps
    | apply State.setDmaPos_keeps
    | apply upd_keeps
    | exact Fits.refl _
    | lift_lets -underBinder
    | apply Keeps.ite

theorem State.dmaPay_keeps {mm : Bool} {s0 s : State} (hk : Keeps mm s0 s) (c : Nat) (d : DmaDesc) :
    Keeps mm s0 (State.dmaPay s c d) := by
  refine hk.trans ?_; clear hk; unfold State.dmaPay; try dsimp -zeta only [mkS_eq]
  try lift_lets -underBinder
  with_reducible repeat' first
    | assumption
    | exact Keeps.refl _
    | (intro x; try clear_value x)
    | apply State.setCh_keeps
    | apply State.p_keeps
    | apply upd_keeps
    | exact Fits.refl _
    | lift_lets -underBinder
    | apply Keeps.ite

theorem State.dmaMoved_keeps {s0 s : State} (hk : Keeps false s0 s) (c : Nat) (d : DmaDesc) (k : Nat × Nat × Nat × Nat) (l : List Byte) :
    Keeps false s0 (State.dmaMoved s c d k l) := by
  refine hk.trans ?_; clear hk; unfold State.dmaMoved; try dsimp -zeta only [mkS_eq]
  try lift_lets -underBinder
  with_reducible repeat' first
    | assumption
    | exact Keeps.refl _
    | (intro x; refine Keeps.abs (mm := false) (x := x) (s := s) ?_ (fun hk => ?_); rotate_left; clear_value x; rotate_right; dsimp -zeta only [x]; try clear x)
    | (intro x; try clear_value x)
    | apply State.setDmaCsum_keeps
    | apply State.setDmaPos_keeps
    | apply State.dmaCredit_keeps
    | apply State.setCh_keeps
    | apply State.dmaFinish_keeps
    | apply upd_keeps
    | exact Fits.refl _
    | lift_lets -underBinder
    | apply Keeps.ite

theorem State.dmaPiece_keeps {s0 s : State} (hk : Keeps false s0 s) (c : Nat) (d : DmaDesc) (err : Option Bool) :
    Keeps false s0 (State.dmaPiece s c d err) := by
  refine hk.trans ?_; clear hk; unfold State.dmaPiece; try dsimp -zeta only [mkS_eq]
  try lift_lets -underBinder
  with_reducible repeat' first
    | assumption
    | exact Keeps.refl _
    | (intro x; refine Keeps.abs (mm := false) (x := x) (s := s) ?_ (fun hk => ?_); rotate_left; clear_value x; rotate_right; dsimp -zeta only [x]; try clear x)
    | (intro x; try clear_value x)
    | apply State.dmaPay_keeps
    | apply State.dmaBusError_keeps
    | apply State.dmaRead_keeps
    | apply State.dmaAfter_keeps
    | apply State.dmaMoved_keeps
    | apply State.dmaStore_keeps
    | apply State.dmaWrote_keeps
    | apply State.p_keeps
    | apply upd_keeps
    | exact Fits.refl _
    | (apply Keeps.ofpair (by assumption))
    | (apply Keeps.ofpair1 (by assumption))
    | (apply Keeps.oftriple (by assumption))
    | lift_lets -underBinder
    | apply Keeps.ite
    | split

theorem State.dmaWork_keeps {s0 s : State} (hk : Keeps false s0 s) (c op : Nat) (n : Nat) (err : Option Bool) :
    Keeps false s0 (State.dmaWork s c op n err) := by
  induction n generalizing s0 s err with
  | zero =>
    rw [State.dmaWork.eq_1]; refine hk.trans ?_; clear hk; try dsimp -zeta only [mkS_eq]
    try lift_lets -underBinder
    with_reducible repeat' first
      | assumption
      | exact Keeps.refl _
  | succ a ih =>
    rw [State.dmaWork.eq_2]; refine hk.trans ?_; clear hk; try dsimp -zeta only [mkS_eq]
    try lift_lets -underBinder
    with_reducible repeat' first
      | assumption
      | exact Keeps.refl _
      | with_reducible apply ih
      | (intro x; refine Keeps.abs (mm := false) (x := x) (s := s) ?_ (fun hk => ?_); rotate_left; clear_value x; rotate_right; dsimp -zeta only [x]; try clear x)
      | (intro x; try clear_value x)
      | apply State.dmaBegin_keeps
      | apply State.dmaFinish_keeps
      | apply State.p_keeps
      | apply State.dmaPiece_keeps
      | apply upd_keeps
      | exact Fits.refl _
      | lift_lets -underBinder
      | apply Keeps.ite
      | split

theorem execDmaCopy_keeps {s0 s : State} (hk : Keeps false s0 s) (c : Fin 16) (chunks : Nat) (err : Option Bool) :
    Keeps false s0 (after s (execDmaCopy c chunks err s)) := by
  refine hk.trans ?_; clear hk; unfold execDmaCopy; try dsimp -zeta only [mkS_eq]
  try lift_lets -underBinder
  with_reducible repeat' first
    | assumption
    | exact Keeps.refl _
    | (intro x; try clear_value x)
    | apply after_next_keeps
    | apply State.dmaWork_keeps

theorem execDmaFill_keeps {s0 s : State} (hk : Keeps false s0 s) (c : Fin 16) (chunks : Nat) :
    Keeps false s0 (after s (execDmaFill c chunks s)) := by
  refine hk.trans ?_; clear hk; unfold execDmaFill; try dsimp -zeta only [mkS_eq]
  try lift_lets -underBinder
  with_reducible repeat' first
    | assumption
    | exact Keeps.refl _
    | (intro x; try clear_value x)
    | apply after_next_keeps
    | apply State.dmaWork_keeps

theorem execDmaCheck_keeps {s0 s : State} (hk : Keeps false s0 s) (c : Fin 16) (chunks : Nat) (err : Option Bool) :
    Keeps false s0 (after s (execDmaCheck c chunks err s)) := by
  refine hk.trans ?_; clear hk; unfold execDmaCheck; try dsimp -zeta only [mkS_eq]
  try lift_lets -underBinder
  with_reducible repeat' first
    | assumption
    | exact Keeps.refl _
    | (intro x; try clear_value x)
    | apply after_next_keeps
    | apply State.dmaWork_keeps

theorem execDmaNop_keeps {mm : Bool} {s0 s : State} (hk : Keeps mm s0 s) (c : Fin 16) :
    Keeps mm s0 (after s (execDmaNop c s)) := by
  refine hk.trans ?_; clear hk; unfold execDmaNop; try dsimp -zeta only [mkS_eq]
  try lift_lets -underBinder
  with_reducible repeat' first
    | assumption
    | exact Keeps.refl _
    | (intro x; refine Keeps.abs (mm := mm) (x := x) (s := s) ?_ (fun hk => ?_); rotate_left; clear_value x; rotate_right; dsimp -zeta only [x]; try clear x)
    | (intro x; try clear_value x)
    | apply after_next_keeps
    | apply State.dmaBegin_keeps
    | apply State.dmaDone_keeps
    | apply upd_keeps
    | exact Fits.refl _
    | lift_lets -underBinder
    | apply Keeps.ite
    | split

end Sys2Proof.Machine
end

