-- ==== Sys2Proof/Laws/KeepsTick.lean ====
section
/-! SUPPORT. What the functions of Machine/Tick.lean keep: the part, the queue, the memories where they store nothing, and the
canonical form of the tables. -/

namespace Sys2Proof.Machine
theorem State.sumpCount_keeps {mm : Bool} {s0 s : State} (hk : Keeps mm s0 s) :
    Keeps mm s0 (State.sumpCount s) := by
  refine hk.trans ?_; clear hk; unfold State.sumpCount
  with_reducible repeat' first
    | assumption
    | exact Keeps.refl _
    | (apply KeepsF.intro; intro s; (try dsimp -zeta only))
    | intro _
    | apply State.freeCount_keeps
    | apply forN_keeps
    | apply Keeps.ite

theorem State.tick_keeps {mm : Bool} {s0 s : State} (hk : Keeps mm s0 s) :
    Keeps mm s0 (State.tick s) := by
  refine hk.trans ?_; clear hk; unfold State.tick; try dsimp -zeta only [mkS_eq]
  try lift_lets -underBinder
  with_reducible repeat' first
    | assumption
    | exact Keeps.refl _
    | (intro x; try clear_value x)
    | apply State.sumpCount_keeps
    | apply State.count_keeps
    | apply State.advance_keeps

end Sys2Proof.Machine
end

