-- ==== Sys2Proof/Laws/Registers.lean ====
section
/-! SUPPORT. What the registers and their fields read after a write. -/

namespace Sys2Proof.Machine

theorem Sparse.get_of_lt {β : Type} [DecidableEq β] (d : Nat → β) (l : List (Nat × β)) (k : Nat) (lo : Option Nat)
    (h : Sparse.above d lo l = true) (hk : ∀ b, l.head? = some b → k < b.1) : Sparse.get d l k = d k := by
  cases l with
  | nil => rfl
  | cons x r =>
    have := hk x rfl
    simp only [Sparse.get]
    rw [if_neg (by omega), if_pos this]

theorem Sparse.head_gt {β : Type} [DecidableEq β] (d : Nat → β) {l : List (Nat × β)} {a : Nat} (h : Sparse.above d (some a) l = true) :
    ∀ b, l.head? = some b → a < b.1 := by
  intro b hb
  cases l with
  | nil => simp at hb
  | cons x r =>
    simp only [List.head?_cons, Option.some.injEq] at hb
    subst hb
    simp only [Sparse.above, Bool.and_eq_true, decide_eq_true_eq] at h
    exact h.1.1

theorem Sparse.get_put {β : Type} [DecidableEq β] (d : Nat → β) (l : List (Nat × β)) (lo : Option Nat) (k k' : Nat) (v : β)
    (h : Sparse.above d lo l = true) : Sparse.get d (Sparse.put d l k v) k' = if k' = k then v else Sparse.get d l k' := by
  induction l generalizing lo with
  | nil =>
    simp only [Sparse.put]
    by_cases hv : v = d k
    · rw [if_pos hv]
      by_cases hk : k' = k
      · rw [if_pos hk, hk, hv]; rfl
      · rw [if_neg hk]
    · rw [if_neg hv]
      simp only [Sparse.get]
      by_cases hk : k' = k
      · rw [if_pos hk, if_pos hk]
      · rw [if_neg hk, if_neg hk]; split <;> rfl
  | cons x r ih =>
    obtain ⟨a, b⟩ := x
    have h0 := h
    simp only [Sparse.above, Bool.and_eq_true] at h
    have hr := Sparse.head_gt d h.2
    have ih := ih (some a) h.2
    have gd : ∀ q, q ≤ a → Sparse.get d r q = d q := by
      intro q hq
      exact Sparse.get_of_lt d r q (some a) h.2 (fun b hb => Nat.lt_of_le_of_lt hq (hr b hb))
    simp only [Sparse.put]
    by_cases h1 : k < a
    · rw [if_pos h1]
      by_cases hv : v = d k
      · rw [if_pos hv]
        by_cases hk : k' = k
        · subst hk
          rw [if_pos rfl]
          simp only [Sparse.get]
          rw [if_neg (by omega), if_pos h1, hv]
        · rw [if_neg hk]
      · rw [if_neg hv]
        by_cases hk : k' = k
        · subst hk; simp [Sparse.get]
        · rw [if_neg hk]
          rw [Sparse.get.eq_2, if_neg hk]
          by_cases h2 : k' < k
          · rw [if_pos h2, Sparse.get.eq_2, if_neg (by omega), if_pos (by omega)]
          · rw [if_neg h2]
    · rw [if_neg h1]
      by_cases h2 : k = a
      · subst h2
        rw [if_pos rfl]
        by_cases hv : v = d k
        · rw [if_pos hv]
          by_cases hk : k' = k
          · subst hk
            rw [if_pos rfl, gd _ (Nat.le_refl _), hv]
          · rw [if_neg hk, Sparse.get.eq_2, if_neg hk]
            by_cases h3 : k' < k
            · rw [if_pos h3, gd _ (Nat.le_of_lt h3)]
            · rw [if_neg h3]
        · rw [if_neg hv]
          by_cases hk : k' = k
          · subst hk; simp [Sparse.get]
          · rw [if_neg hk]
            rw [Sparse.get.eq_2, Sparse.get.eq_2, if_neg hk, if_neg hk]
      · rw [if_neg h2]
        rw [Sparse.get.eq_2, Sparse.get.eq_2]
        by_cases h3 : k' = a
        · rw [if_pos h3, if_pos h3, if_neg (by omega)]
        · rw [if_neg h3, if_neg h3]
          by_cases h4 : k' < a
          · rw [if_pos h4, if_pos h4, if_neg (by omega)]
          · rw [if_neg h4, if_neg h4, ih]

/-! ### Registers -/

/-- The registers that the host sees are in canonical form. -/
def State.ok (s : State) : Prop := Sparse.wf resetVal s.regs = true

theorem State.wr_ok {s : State} (h : s.ok) (off v : Nat) : (s.wr off v).ok := Sparse.put_wf _ _ _ _ h

theorem State.rd_wr {s : State} (h : s.ok) (off v off' : Nat) :
    (s.wr off v).rd off' = if off' = off then v % 2 ^ 32 else s.rd off' := by
  unfold State.rd State.wr
  dsimp only
  rw [Sparse.get_put resetVal s.regs none off off' _ h]
  split
  · exact BitVec.toNat_ofNat v 32
  · rfl

theorem State.rd_lt (s : State) (off : Nat) : s.rd off < 2 ^ 32 := BitVec.isLt _

theorem fld_lt (v lo w : Nat) : fld v lo w < 2 ^ w := Nat.mod_lt _ (Nat.two_pow_pos w)

theorem fld_mul_le (v lo w : Nat) : fld v lo w * 2 ^ lo ≤ v := by
  unfold fld
  calc v / 2 ^ lo % 2 ^ w * 2 ^ lo ≤ v / 2 ^ lo * 2 ^ lo := Nat.mul_le_mul_right _ (Nat.mod_le _ _)
    _ ≤ v := Nat.div_mul_le_self _ _

/-- A number in three parts about a field. -/
theorem fld_split (v lo w : Nat) : v = v / 2 ^ (lo + w) * 2 ^ (lo + w) + fld v lo w * 2 ^ lo + v % 2 ^ lo := by
  unfold fld
  have h1 := Nat.div_add_mod v (2 ^ lo)
  have h2 := Nat.div_add_mod (v / 2 ^ lo) (2 ^ w)
  have h3 : v / 2 ^ lo / 2 ^ w = v / 2 ^ (lo + w) := by rw [Nat.div_div_eq_div_mul, ← Nat.pow_add]
  rw [h3] at h2
  have h4 : 2 ^ lo * (v / 2 ^ lo) = v / 2 ^ (lo + w) * 2 ^ (lo + w) + (v / 2 ^ lo % 2 ^ w) * 2 ^ lo := by
    conv => lhs; rw [← h2]
    rw [Nat.pow_add, Nat.mul_add]
    congr 1
    · rw [Nat.mul_comm (2 ^ w), ← Nat.mul_assoc, Nat.mul_comm (2 ^ lo), Nat.mul_assoc]
    · exact Nat.mul_comm _ _
  omega

theorem setFld_eq (v lo w x : Nat) :
    setFld v lo w x = v / 2 ^ (lo + w) * 2 ^ (lo + w) + x % 2 ^ w * 2 ^ lo + v % 2 ^ lo := by
  unfold setFld
  have := fld_split v lo w
  omega

theorem fld_of_parts (a x r lo w : Nat) (hx : x < 2 ^ w) (hr : r < 2 ^ lo) : fld (a * 2 ^ (lo + w) + x * 2 ^ lo + r) lo w = x := by
  unfold fld
  have h : a * 2 ^ (lo + w) + x * 2 ^ lo + r = 2 ^ lo * (a * 2 ^ w + x) + r := by
    rw [Nat.mul_add, Nat.pow_add]
    congr 2
    · rw [← Nat.mul_assoc, ← Nat.mul_assoc, Nat.mul_comm a]
    · exact Nat.mul_comm _ _
  rw [h, Nat.mul_add_div (Nat.two_pow_pos lo), Nat.div_eq_of_lt hr, Nat.add_zero, Nat.mul_comm a, Nat.mul_add_mod, Nat.mod_eq_of_lt hx]

theorem fld_setFld (v lo w x : Nat) : fld (setFld v lo w x) lo w = x % 2 ^ w := by
  rw [setFld_eq]
  exact fld_of_parts _ _ _ _ _ (Nat.mod_lt _ (Nat.two_pow_pos w)) (Nat.mod_lt _ (Nat.two_pow_pos lo))

theorem fld_setFld_above (v lo w x lo' w' : Nat) (h : lo + w ≤ lo') : fld (setFld v lo w x) lo' w' = fld v lo' w' := by
  unfold fld
  have e : ∀ y, y < 2 ^ (lo + w) → (v / 2 ^ (lo + w) * 2 ^ (lo + w) + y) / 2 ^ lo' = v / 2 ^ lo' := by
    intro y hy
    have : 2 ^ lo' = 2 ^ (lo + w) * 2 ^ (lo' - (lo + w)) := by rw [← Nat.pow_add]; congr 1; omega
    rw [this, ← Nat.div_div_eq_div_mul, ← Nat.div_div_eq_div_mul]
    congr 1
    rw [Nat.mul_comm, Nat.mul_add_div (Nat.two_pow_pos _), Nat.div_eq_of_lt hy, Nat.add_zero]
  have hb : ∀ q r, q < 2 ^ w → r < 2 ^ lo → q * 2 ^ lo + r < 2 ^ (lo + w) := by
    intro q r hq hr
    calc q * 2 ^ lo + r < q * 2 ^ lo + 2 ^ lo := by omega
      _ = (q + 1) * 2 ^ lo := by rw [Nat.add_mul, Nat.one_mul]
      _ ≤ 2 ^ w * 2 ^ lo := Nat.mul_le_mul_right _ hq
      _ = 2 ^ (lo + w) := by rw [Nat.pow_add, Nat.mul_comm]
  rw [setFld_eq, Nat.add_assoc, e _ (hb _ _ (Nat.mod_lt _ (Nat.two_pow_pos w)) (Nat.mod_lt _ (Nat.two_pow_pos lo)))]

theorem fld_setFld_below (v lo w x lo' w' : Nat) (h : lo' + w' ≤ lo) : fld (setFld v lo w x) lo' w' = fld v lo' w' := by
  have e : ∀ y, (2 ^ lo * y + v % 2 ^ lo) / 2 ^ lo' % 2 ^ w' = v % 2 ^ lo / 2 ^ lo' % 2 ^ w' := by
    intro y
    have h1 : 2 ^ lo = 2 ^ lo' * (2 ^ w' * 2 ^ (lo - (lo' + w'))) := by rw [← Nat.pow_add, ← Nat.pow_add]; congr 1; omega
    rw [h1, Nat.mul_assoc, Nat.mul_add_div (Nat.two_pow_pos _), Nat.mul_assoc, Nat.mul_add_mod]
  have h1 : setFld v lo w x = 2 ^ lo * (v / 2 ^ (lo + w) * 2 ^ w + x % 2 ^ w) + v % 2 ^ lo := by
    rw [setFld_eq, Nat.mul_add, Nat.pow_add]
    congr 2
    · exact Nat.mul_left_comm _ _ _
    · exact Nat.mul_comm _ _
  have h2 := e (v / 2 ^ lo)
  rw [Nat.div_add_mod] at h2
  unfold fld
  rw [h1, e, h2]

theorem setFld_lt (v lo w x n : Nat) (h : lo + w ≤ n) (hv : v < 2 ^ n) : setFld v lo w x < 2 ^ n := by
  rw [setFld_eq]
  have hx : x % 2 ^ w < 2 ^ w := Nat.mod_lt _ (Nat.two_pow_pos w)
  have hr : v % 2 ^ lo < 2 ^ lo := Nat.mod_lt _ (Nat.two_pow_pos lo)
  have h1 : x % 2 ^ w * 2 ^ lo + v % 2 ^ lo < 2 ^ (lo + w) := by
    calc x % 2 ^ w * 2 ^ lo + v % 2 ^ lo < x % 2 ^ w * 2 ^ lo + 2 ^ lo := by omega
      _ = (x % 2 ^ w + 1) * 2 ^ lo := by rw [Nat.add_mul, Nat.one_mul]
      _ ≤ 2 ^ w * 2 ^ lo := Nat.mul_le_mul_right _ hx
      _ = 2 ^ (lo + w) := by rw [Nat.pow_add, Nat.mul_comm]
  have h2 : v / 2 ^ (lo + w) < 2 ^ (n - (lo + w)) := by
    rw [Nat.div_lt_iff_lt_mul (Nat.two_pow_pos _), ← Nat.pow_add]
    have : n - (lo + w) + (lo + w) = n := by omega
    rwa [this]
  calc v / 2 ^ (lo + w) * 2 ^ (lo + w) + x % 2 ^ w * 2 ^ lo + v % 2 ^ lo
      < v / 2 ^ (lo + w) * 2 ^ (lo + w) + 2 ^ (lo + w) := by omega
    _ = (v / 2 ^ (lo + w) + 1) * 2 ^ (lo + w) := by rw [Nat.add_mul, Nat.one_mul]
    _ ≤ 2 ^ (n - (lo + w)) * 2 ^ (lo + w) := Nat.mul_le_mul_right _ h2
    _ = 2 ^ n := by rw [← Nat.pow_add]; congr 1; omega

theorem State.p_ok {s : State} (h : s.ok) (b : Nat) (f : Fld) (v : Nat) : (s.p b f v).ok := State.wr_ok h _ _

theorem State.rd_p {s : State} (h : s.ok) (b : Nat) (f : Fld) (v off : Nat) (hf : f.lo + f.w ≤ 32) :
    (s.p b f v).rd off = if off = b + f.off then setFld (s.rd off) f.lo f.w v else s.rd off := by
  unfold State.p
  rw [State.rd_wr h]
  split
  · rename_i e
    rw [e, Nat.mod_eq_of_lt (setFld_lt _ _ _ _ _ hf (State.rd_lt _ _))]
  · rfl

theorem State.rd_p_ne {s : State} (h : s.ok) (b : Nat) (f : Fld) (v off : Nat) (hne : off ≠ b + f.off) : (s.p b f v).rd off = s.rd off := by
  unfold State.p
  rw [State.rd_wr h, if_neg hne]

theorem State.g_p {s : State} (h : s.ok) (b : Nat) (f : Fld) (v : Nat) (hf : f.lo + f.w ≤ 32) : (s.p b f v).g b f = v % 2 ^ f.w := by
  unfold State.g
  rw [State.rd_p h _ _ _ _ hf, if_pos rfl, fld_setFld]

/-- A field other than the one written keeps its value. -/
theorem State.g_p_ne {s : State} (h : s.ok) (b b' : Nat) (f f' : Fld) (v : Nat) (hf : f.lo + f.w ≤ 32)
    (hne : b' + f'.off ≠ b + f.off ∨ f.lo + f.w ≤ f'.lo ∨ f'.lo + f'.w ≤ f.lo) : (s.p b f v).g b' f' = s.g b' f' := by
  unfold State.g
  rw [State.rd_p h _ _ _ _ hf]
  split
  · rename_i e
    rcases hne with h1 | h1 | h1
    · exact absurd e h1
    · exact fld_setFld_above _ _ _ _ _ _ h1
    · exact fld_setFld_below _ _ _ _ _ _ h1
  · rfl

end Sys2Proof.Machine
end

