-- ==== Sys2Proof/Laws/Counted.lean ====
section
/-! SUPPORT. What counting an event and sending an interrupt may change. -/

namespace Sys2Proof.Machine

/-- What counting an event and sending a message may do to s: the counters' pages, the counters, MSI-X and what is sent change, and
the registers at l. -/
structure Counted (l : List Nat) (s t : State) : Prop where
  shape : t = { s with regs := t.regs, msix := t.msix, out := t.out, cnt := t.cnt }
  ok : s.ok → t.ok
  rd : s.ok → ∀ off, off ∉ l → cntPage off = false → t.rd off = s.rd off

theorem Counted.refl (l : List Nat) (s : State) : Counted l s s := ⟨rfl, fun h => h, fun _ _ _ _ => rfl⟩

theorem Counted.trans {l : List Nat} {a b c : State} (h : Counted l a b) (h' : Counted l b c) : Counted l a c := by
  refine ⟨?_, fun x => h'.ok (h.ok x), fun x off h1 h2 => (h'.rd (h.ok x) off h1 h2).trans (h.rd x off h1 h2)⟩
  have e := h'.shape
  rw [h.shape] at e
  exact e

theorem Counted.mono {l l' : List Nat} {s t : State} (h : Counted l s t) (hl : ∀ x ∈ l, x ∈ l') : Counted l' s t :=
  ⟨h.shape, h.ok, fun x off h1 h2 => h.rd x off (fun h3 => h1 (hl _ h3)) h2⟩

theorem Counted.wr {l : List Nat} {s0 s : State} (h : Counted l s0 s) (off v : Nat) (ho : off ∈ l ∨ cntPage off = true) :
    Counted l s0 (s.wr off v) := by
  refine h.trans ⟨rfl, fun x => State.wr_ok x _ _, fun x o h1 h2 => ?_⟩
  rw [State.rd_wr x, if_neg]
  rintro rfl
  rcases ho with ho | ho
  · exact h1 ho
  · rw [h2] at ho; exact absurd ho (by decide)

theorem Counted.p {l : List Nat} {s0 s : State} (h : Counted l s0 s) (b : Nat) (f : Fld) (v : Nat) (ho : b + f.off ∈ l ∨ cntPage (b + f.off) = true) :
    Counted l s0 (s.p b f v) := h.wr _ _ ho

theorem Counted.msix {l : List Nat} {s0 s : State} (h : Counted l s0 s) (x : Msix) : Counted l s0 { s with msix := x } :=
  h.trans ⟨rfl, fun x => x, fun _ _ _ _ => rfl⟩

theorem Counted.emit {l : List Nat} {s0 s : State} (h : Counted l s0 s) (o : Out) : Counted l s0 (s.emit o) :=
  h.trans ⟨rfl, fun x => x, fun _ _ _ _ => rfl⟩

theorem Counted.cnt {l : List Nat} {s0 s : State} (h : Counted l s0 s) (x : List Nat) : Counted l s0 { s with cnt := x } :=
  h.trans ⟨rfl, fun x => x, fun _ _ _ _ => rfl⟩

theorem Counted.rawVector {l : List Nat} {s0 s : State} (h : Counted l s0 s) (v : Nat) : Counted l s0 (s.rawVector v) := by
  unfold State.rawVector
  split
  · split
    · exact h.emit _
    · split
      · exact h
      · exact h.msix _
  · split
    · exact h
    · exact h.msix _

theorem cntPage_ovf (n : Nat) (h : n < 256) : cntPage (CNT + 4 * (n / 32) + CNT_OVF.off) = true := by
  have h1 : n / 32 < 8 := by omega
  unfold cntPage
  simp only [Bool.and_eq_true, decide_eq_true_eq]
  have : CNT_OVF.off < 0x3000 := by decide
  omega

theorem Counted.cntAdd {l : List Nat} {s0 s : State} (h : Counted l s0 s) (n amount : Nat) (hn : n < 256) :
    Counted l s0 (s.cntAdd n amount).2 := by
  have h1 := h.cnt (upd s.cnt n (fun _ => (nth 0 s.cnt n + amount) % 2 ^ 48))
  unfold State.cntAdd
  lift_lets
  intro v x
  split
  · exact h1
  · exact Counted.p h1 _ _ _ (Or.inr (cntPage_ovf n hn))

theorem foldl2_mem {α β : Type} {R : State → Prop} {f : β × State → α → β × State} (l : List α) (x : β × State) (h : R x.2)
    (hf : ∀ a ∈ l, ∀ y : β × State, R y.2 → R (f y a).2) : R (l.foldl f x).2 := by
  induction l generalizing x with
  | nil => exact h
  | cons a l ih => exact ih _ (hf a (List.mem_cons_self ..) x h) (fun b hb => hf b (List.mem_cons_of_mem _ hb))

theorem Counted.cntTake {l : List Nat} {s0 s : State} (h : Counted l s0 s) (e : CntEvent) : Counted l s0 (s.cntTake e).2 := by
  unfold State.cntTake
  split
  · exact h
  · refine foldl2_mem (R := Counted l s0) _ _ h ?_
    intro a ha y hy
    exact hy.cntAdd _ _ (List.mem_range.1 (List.mem_filter.1 ha).1)

theorem Counted.sentCount {l : List Nat} {s0 s : State} (h : Counted l s0 s) (v : Nat) : Counted l s0 (s.sentCount v).2 := by
  unfold State.sentCount
  dsimp only
  split
  · exact ((h.rawVector v).cntTake _).cntTake _
  · exact h.rawVector v

theorem Counted.messageBy {l : List Nat} {send : State → Nat → State} {s0 s : State} (h : Counted l s0 s) (b : Nat)
    (hs : ∀ t v, Counted l s0 t → Counted l s0 (send t v)) : Counted l s0 (State.messageBy send s b) := by
  unfold State.messageBy
  dsimp only
  split
  · split
    · exact h
    · exact h.msix _
  · split
    · exact hs _ _ h
    · exact (hs _ _ h).msix _

theorem Counted.cntIrq {l : List Nat} {s0 s : State} (h : Counted l s0 s) : Counted l s0 s.cntIrq := by
  unfold State.cntIrq
  dsimp only
  have h1 : Counted l s0 (s.p CNT IRQ_STAT (s.g CNT IRQ_STAT ||| 1)) := h.p _ _ _ (Or.inr (by decide))
  split
  · exact h1.messageBy _ (fun t v ht => ht.sentCount v)
  · exact h1

theorem Counted.count {l : List Nat} {s0 s : State} (h : Counted l s0 s) (e : CntEvent) : Counted l s0 (s.count e) := by
  unfold State.count
  dsimp only
  split
  · exact (h.cntTake e).cntIrq
  · exact h.cntTake e

theorem Counted.sendVector {l : List Nat} {s0 s : State} (h : Counted l s0 s) (v : Nat) : Counted l s0 (s.sendVector v) := by
  unfold State.sendVector
  dsimp only
  split
  · exact (h.sentCount v).cntIrq
  · exact h.sentCount v

theorem Counted.messageDue {l : List Nat} {s0 s : State} (h : Counted l s0 s) (b : Nat) : Counted l s0 (s.messageDue b) :=
  h.messageBy b (fun _ v ht => ht.sendVector v)

theorem Counted.sendMessage {l : List Nat} {s0 s : State} (h : Counted l s0 s) (b : Nat) : Counted l s0 (s.sendMessage b) := by
  unfold State.sendMessage
  dsimp only
  split
  · exact h.sendVector _
  · exact (h.sendVector _).msix _

theorem Counted.irqMask {l : List Nat} {s0 s : State} (h : Counted l s0 s) (b mask : Nat) (hb : b + IRQ_STAT.off ∈ l) :
    Counted l s0 (s.irqMask b mask) := by
  unfold State.irqMask
  dsimp only
  have h1 := h.p b IRQ_STAT (s.g b IRQ_STAT ||| mask) (Or.inl hb)
  split
  · exact h1.messageDue b
  · exact h1

theorem Counted.irq {l : List Nat} {s0 s : State} (h : Counted l s0 s) (b n : Nat) (hb : b + IRQ_STAT.off ∈ l) :
    Counted l s0 (s.irq b n) := h.irqMask b _ hb

theorem Counted.hostCount {l : List Nat} {s0 s : State} (h : Counted l s0 s) (ev : Nat) (m a : Option Nat) (n : Nat) :
    Counted l s0 (s.hostCount ev m a n) := by
  unfold State.hostCount
  split
  · exact h
  · exact h.count _

/-- The state in which a host write takes effect differs from s in what counted events change only. -/
theorem State.claimed_counted (s : State) (n : Nat) : Counted [] s (s.claimed n) := ((Counted.refl [] s).count _).count _

theorem Counted.g {l : List Nat} {s t : State} (h : Counted l s t) (hs : s.ok) (b : Nat) (f : Fld) (h1 : b + f.off ∉ l)
    (h2 : cntPage (b + f.off) = false) : t.g b f = s.g b f := by
  unfold State.g
  rw [h.rd hs _ h1 h2]

/-- An interrupt bit is set. -/
theorem State.irqMask_stat {s : State} (h : s.ok) (b mask : Nat) (hb : cntPage (b + IRQ_STAT.off) = false) :
    (s.irqMask b mask).g b IRQ_STAT = (s.g b IRQ_STAT ||| mask) % 2 ^ IRQ_STAT.w := by
  unfold State.irqMask
  dsimp only
  have h1 : State.g (s.p b IRQ_STAT (s.g b IRQ_STAT ||| mask)) b IRQ_STAT = _ := State.g_p h b IRQ_STAT _ (by decide)
  split
  · exact (((Counted.refl [] _).messageDue b).g (State.p_ok h _ _ _) b IRQ_STAT (by simp) hb).trans h1
  · exact h1

end Sys2Proof.Machine
end

