-- ==== Sys2Proof/Laws/State.lean ====
section
/-! SUPPORT. One lemma per field per update of the shared operations, so that no later proof unfolds a record update. -/

namespace Sys2Proof.Machine

/-! ### State.wr -/

@[simp] theorem State.wr_part (s : State) (off v : Nat) : (s.wr off v).part = s.part := rfl
@[simp] theorem State.wr_actv (s : State) (off v : Nat) : (s.wr off v).actv = s.actv := rfl
@[simp] theorem State.wr_mem (s : State) (off v : Nat) : (s.wr off v).mem = s.mem := rfl
@[simp] theorem State.wr_memGen (s : State) (off v : Nat) : (s.wr off v).memGen = s.memGen := rfl
@[simp] theorem State.wr_hostMem (s : State) (off v : Nat) : (s.wr off v).hostMem = s.hostMem := rfl
@[simp] theorem State.wr_out (s : State) (off v : Nat) : (s.wr off v).out = s.out := rfl
@[simp] theorem State.wr_time (s : State) (off v : Nat) : (s.wr off v).time = s.time := rfl
@[simp] theorem State.wr_msix (s : State) (off v : Nat) : (s.wr off v).msix = s.msix := rfl
@[simp] theorem State.wr_bit (s : State) (off v : Nat) : (s.wr off v).bit = s.bit := rfl
@[simp] theorem State.wr_hbm (s : State) (off v : Nat) : (s.wr off v).hbm = s.hbm := rfl
@[simp] theorem State.wr_xlt (s : State) (off v : Nat) : (s.wr off v).xlt = s.xlt := rfl
@[simp] theorem State.wr_tsq (s : State) (off v : Nat) : (s.wr off v).tsq = s.tsq := rfl
@[simp] theorem State.wr_sump (s : State) (off v : Nat) : (s.wr off v).sump = s.sump := rfl
@[simp] theorem State.wr_lanes (s : State) (off v : Nat) : (s.wr off v).lanes = s.lanes := rfl
@[simp] theorem State.wr_quads (s : State) (off v : Nat) : (s.wr off v).quads = s.quads := rfl
@[simp] theorem State.wr_clr (s : State) (off v : Nat) : (s.wr off v).clr = s.clr := rfl
@[simp] theorem State.wr_ing (s : State) (off v : Nat) : (s.wr off v).ing = s.ing := rfl
@[simp] theorem State.wr_cwy (s : State) (off v : Nat) : (s.wr off v).cwy = s.cwy := rfl
@[simp] theorem State.wr_heads (s : State) (off v : Nat) : (s.wr off v).heads = s.heads := rfl
@[simp] theorem State.wr_slices (s : State) (off v : Nat) : (s.wr off v).slices = s.slices := rfl
@[simp] theorem State.wr_recompute (s : State) (off v : Nat) : (s.wr off v).recompute = s.recompute := rfl
@[simp] theorem State.wr_wits (s : State) (off v : Nat) : (s.wr off v).wits = s.wits := rfl
@[simp] theorem State.wr_raw (s : State) (off v : Nat) : (s.wr off v).raw = s.raw := rfl
@[simp] theorem State.wr_gcx (s : State) (off v : Nat) : (s.wr off v).gcx = s.gcx := rfl
@[simp] theorem State.wr_eth (s : State) (off v : Nat) : (s.wr off v).eth = s.eth := rfl
@[simp] theorem State.wr_tapNews (s : State) (off v : Nat) : (s.wr off v).tapNews = s.tapNews := rfl
@[simp] theorem State.wr_recorder (s : State) (off v : Nat) : (s.wr off v).recorder = s.recorder := rfl
@[simp] theorem State.wr_tim (s : State) (off v : Nat) : (s.wr off v).tim = s.tim := rfl
@[simp] theorem State.wr_cod (s : State) (off v : Nat) : (s.wr off v).cod = s.cod := rfl
@[simp] theorem State.wr_dsp (s : State) (off v : Nat) : (s.wr off v).dsp = s.dsp := rfl
@[simp] theorem State.wr_dma (s : State) (off v : Nat) : (s.wr off v).dma = s.dma := rfl
@[simp] theorem State.wr_seq (s : State) (off v : Nat) : (s.wr off v).seq = s.seq := rfl
@[simp] theorem State.wr_supply (s : State) (off v : Nat) : (s.wr off v).supply = s.supply := rfl
@[simp] theorem State.wr_shed (s : State) (off v : Nat) : (s.wr off v).shed = s.shed := rfl
@[simp] theorem State.wr_thermal (s : State) (off v : Nat) : (s.wr off v).thermal = s.thermal := rfl
@[simp] theorem State.wr_hif (s : State) (off v : Nat) : (s.wr off v).hif = s.hif := rfl
@[simp] theorem State.wr_cnt (s : State) (off v : Nat) : (s.wr off v).cnt = s.cnt := rfl
@[simp] theorem State.wr_freeCtr (s : State) (off v : Nat) : (s.wr off v).freeCtr = s.freeCtr := rfl
@[simp] theorem State.wr_pending (s : State) (off v : Nat) : (s.wr off v).pending = s.pending := rfl

/-! ### State.wrA -/

@[simp] theorem State.wrA_part (s : State) (off v : Nat) : (s.wrA off v).part = s.part := rfl
@[simp] theorem State.wrA_regs (s : State) (off v : Nat) : (s.wrA off v).regs = s.regs := rfl
@[simp] theorem State.wrA_mem (s : State) (off v : Nat) : (s.wrA off v).mem = s.mem := rfl
@[simp] theorem State.wrA_memGen (s : State) (off v : Nat) : (s.wrA off v).memGen = s.memGen := rfl
@[simp] theorem State.wrA_hostMem (s : State) (off v : Nat) : (s.wrA off v).hostMem = s.hostMem := rfl
@[simp] theorem State.wrA_out (s : State) (off v : Nat) : (s.wrA off v).out = s.out := rfl
@[simp] theorem State.wrA_time (s : State) (off v : Nat) : (s.wrA off v).time = s.time := rfl
@[simp] theorem State.wrA_msix (s : State) (off v : Nat) : (s.wrA off v).msix = s.msix := rfl
@[simp] theorem State.wrA_bit (s : State) (off v : Nat) : (s.wrA off v).bit = s.bit := rfl
@[simp] theorem State.wrA_hbm (s : State) (off v : Nat) : (s.wrA off v).hbm = s.hbm := rfl
@[simp] theorem State.wrA_xlt (s : State) (off v : Nat) : (s.wrA off v).xlt = s.xlt := rfl
@[simp] theorem State.wrA_tsq (s : State) (off v : Nat) : (s.wrA off v).tsq = s.tsq := rfl
@[simp] theorem State.wrA_sump (s : State) (off v : Nat) : (s.wrA off v).sump = s.sump := rfl
@[simp] theorem State.wrA_lanes (s : State) (off v : Nat) : (s.wrA off v).lanes = s.lanes := rfl
@[simp] theorem State.wrA_quads (s : State) (off v : Nat) : (s.wrA off v).quads = s.quads := rfl
@[simp] theorem State.wrA_clr (s : State) (off v : Nat) : (s.wrA off v).clr = s.clr := rfl
@[simp] theorem State.wrA_ing (s : State) (off v : Nat) : (s.wrA off v).ing = s.ing := rfl
@[simp] theorem State.wrA_cwy (s : State) (off v : Nat) : (s.wrA off v).cwy = s.cwy := rfl
@[simp] theorem State.wrA_heads (s : State) (off v : Nat) : (s.wrA off v).heads = s.heads := rfl
@[simp] theorem State.wrA_slices (s : State) (off v : Nat) : (s.wrA off v).slices = s.slices := rfl
@[simp] theorem State.wrA_recompute (s : State) (off v : Nat) : (s.wrA off v).recompute = s.recompute := rfl
@[simp] theorem State.wrA_wits (s : State) (off v : Nat) : (s.wrA off v).wits = s.wits := rfl
@[simp] theorem State.wrA_raw (s : State) (off v : Nat) : (s.wrA off v).raw = s.raw := rfl
@[simp] theorem State.wrA_gcx (s : State) (off v : Nat) : (s.wrA off v).gcx = s.gcx := rfl
@[simp] theorem State.wrA_eth (s : State) (off v : Nat) : (s.wrA off v).eth = s.eth := rfl
@[simp] theorem State.wrA_tapNews (s : State) (off v : Nat) : (s.wrA off v).tapNews = s.tapNews := rfl
@[simp] theorem State.wrA_recorder (s : State) (off v : Nat) : (s.wrA off v).recorder = s.recorder := rfl
@[simp] theorem State.wrA_tim (s : State) (off v : Nat) : (s.wrA off v).tim = s.tim := rfl
@[simp] theorem State.wrA_cod (s : State) (off v : Nat) : (s.wrA off v).cod = s.cod := rfl
@[simp] theorem State.wrA_dsp (s : State) (off v : Nat) : (s.wrA off v).dsp = s.dsp := rfl
@[simp] theorem State.wrA_dma (s : State) (off v : Nat) : (s.wrA off v).dma = s.dma := rfl
@[simp] theorem State.wrA_seq (s : State) (off v : Nat) : (s.wrA off v).seq = s.seq := rfl
@[simp] theorem State.wrA_supply (s : State) (off v : Nat) : (s.wrA off v).supply = s.supply := rfl
@[simp] theorem State.wrA_shed (s : State) (off v : Nat) : (s.wrA off v).shed = s.shed := rfl
@[simp] theorem State.wrA_thermal (s : State) (off v : Nat) : (s.wrA off v).thermal = s.thermal := rfl
@[simp] theorem State.wrA_hif (s : State) (off v : Nat) : (s.wrA off v).hif = s.hif := rfl
@[simp] theorem State.wrA_cnt (s : State) (off v : Nat) : (s.wrA off v).cnt = s.cnt := rfl
@[simp] theorem State.wrA_freeCtr (s : State) (off v : Nat) : (s.wrA off v).freeCtr = s.freeCtr := rfl
@[simp] theorem State.wrA_pending (s : State) (off v : Nat) : (s.wrA off v).pending = s.pending := rfl

/-! ### State.p -/

@[simp] theorem State.p_part (s : State) (b : Nat) (f : Fld) (v : Nat) : (s.p b f v).part = s.part := rfl
@[simp] theorem State.p_actv (s : State) (b : Nat) (f : Fld) (v : Nat) : (s.p b f v).actv = s.actv := rfl
@[simp] theorem State.p_mem (s : State) (b : Nat) (f : Fld) (v : Nat) : (s.p b f v).mem = s.mem := rfl
@[simp] theorem State.p_memGen (s : State) (b : Nat) (f : Fld) (v : Nat) : (s.p b f v).memGen = s.memGen := rfl
@[simp] theorem State.p_hostMem (s : State) (b : Nat) (f : Fld) (v : Nat) : (s.p b f v).hostMem = s.hostMem := rfl
@[simp] theorem State.p_out (s : State) (b : Nat) (f : Fld) (v : Nat) : (s.p b f v).out = s.out := rfl
@[simp] theorem State.p_time (s : State) (b : Nat) (f : Fld) (v : Nat) : (s.p b f v).time = s.time := rfl
@[simp] theorem State.p_msix (s : State) (b : Nat) (f : Fld) (v : Nat) : (s.p b f v).msix = s.msix := rfl
@[simp] theorem State.p_bit (s : State) (b : Nat) (f : Fld) (v : Nat) : (s.p b f v).bit = s.bit := rfl
@[simp] theorem State.p_hbm (s : State) (b : Nat) (f : Fld) (v : Nat) : (s.p b f v).hbm = s.hbm := rfl
@[simp] theorem State.p_xlt (s : State) (b : Nat) (f : Fld) (v : Nat) : (s.p b f v).xlt = s.xlt := rfl
@[simp] theorem State.p_tsq (s : State) (b : Nat) (f : Fld) (v : Nat) : (s.p b f v).tsq = s.tsq := rfl
@[simp] theorem State.p_sump (s : State) (b : Nat) (f : Fld) (v : Nat) : (s.p b f v).sump = s.sump := rfl
@[simp] theorem State.p_lanes (s : State) (b : Nat) (f : Fld) (v : Nat) : (s.p b f v).lanes = s.lanes := rfl
@[simp] theorem State.p_quads (s : State) (b : Nat) (f : Fld) (v : Nat) : (s.p b f v).quads = s.quads := rfl
@[simp] theorem State.p_clr (s : State) (b : Nat) (f : Fld) (v : Nat) : (s.p b f v).clr = s.clr := rfl
@[simp] theorem State.p_ing (s : State) (b : Nat) (f : Fld) (v : Nat) : (s.p b f v).ing = s.ing := rfl
@[simp] theorem State.p_cwy (s : State) (b : Nat) (f : Fld) (v : Nat) : (s.p b f v).cwy = s.cwy := rfl
@[simp] theorem State.p_heads (s : State) (b : Nat) (f : Fld) (v : Nat) : (s.p b f v).heads = s.heads := rfl
@[simp] theorem State.p_slices (s : State) (b : Nat) (f : Fld) (v : Nat) : (s.p b f v).slices = s.slices := rfl
@[simp] theorem State.p_recompute (s : State) (b : Nat) (f : Fld) (v : Nat) : (s.p b f v).recompute = s.recompute := rfl
@[simp] theorem State.p_wits (s : State) (b : Nat) (f : Fld) (v : Nat) : (s.p b f v).wits = s.wits := rfl
@[simp] theorem State.p_raw (s : State) (b : Nat) (f : Fld) (v : Nat) : (s.p b f v).raw = s.raw := rfl
@[simp] theorem State.p_gcx (s : State) (b : Nat) (f : Fld) (v : Nat) : (s.p b f v).gcx = s.gcx := rfl
@[simp] theorem State.p_eth (s : State) (b : Nat) (f : Fld) (v : Nat) : (s.p b f v).eth = s.eth := rfl
@[simp] theorem State.p_tapNews (s : State) (b : Nat) (f : Fld) (v : Nat) : (s.p b f v).tapNews = s.tapNews := rfl
@[simp] theorem State.p_recorder (s : State) (b : Nat) (f : Fld) (v : Nat) : (s.p b f v).recorder = s.recorder := rfl
@[simp] theorem State.p_tim (s : State) (b : Nat) (f : Fld) (v : Nat) : (s.p b f v).tim = s.tim := rfl
@[simp] theorem State.p_cod (s : State) (b : Nat) (f : Fld) (v : Nat) : (s.p b f v).cod = s.cod := rfl
@[simp] theorem State.p_dsp (s : State) (b : Nat) (f : Fld) (v : Nat) : (s.p b f v).dsp = s.dsp := rfl
@[simp] theorem State.p_dma (s : State) (b : Nat) (f : Fld) (v : Nat) : (s.p b f v).dma = s.dma := rfl
@[simp] theorem State.p_seq (s : State) (b : Nat) (f : Fld) (v : Nat) : (s.p b f v).seq = s.seq := rfl
@[simp] theorem State.p_supply (s : State) (b : Nat) (f : Fld) (v : Nat) : (s.p b f v).supply = s.supply := rfl
@[simp] theorem State.p_shed (s : State) (b : Nat) (f : Fld) (v : Nat) : (s.p b f v).shed = s.shed := rfl
@[simp] theorem State.p_thermal (s : State) (b : Nat) (f : Fld) (v : Nat) : (s.p b f v).thermal = s.thermal := rfl
@[simp] theorem State.p_hif (s : State) (b : Nat) (f : Fld) (v : Nat) : (s.p b f v).hif = s.hif := rfl
@[simp] theorem State.p_cnt (s : State) (b : Nat) (f : Fld) (v : Nat) : (s.p b f v).cnt = s.cnt := rfl
@[simp] theorem State.p_freeCtr (s : State) (b : Nat) (f : Fld) (v : Nat) : (s.p b f v).freeCtr = s.freeCtr := rfl
@[simp] theorem State.p_pending (s : State) (b : Nat) (f : Fld) (v : Nat) : (s.p b f v).pending = s.pending := rfl

/-! ### State.pa -/

@[simp] theorem State.pa_part (s : State) (b : Nat) (f : Fld) (v : Nat) : (s.pa b f v).part = s.part := rfl
@[simp] theorem State.pa_regs (s : State) (b : Nat) (f : Fld) (v : Nat) : (s.pa b f v).regs = s.regs := rfl
@[simp] theorem State.pa_mem (s : State) (b : Nat) (f : Fld) (v : Nat) : (s.pa b f v).mem = s.mem := rfl
@[simp] theorem State.pa_memGen (s : State) (b : Nat) (f : Fld) (v : Nat) : (s.pa b f v).memGen = s.memGen := rfl
@[simp] theorem State.pa_hostMem (s : State) (b : Nat) (f : Fld) (v : Nat) : (s.pa b f v).hostMem = s.hostMem := rfl
@[simp] theorem State.pa_out (s : State) (b : Nat) (f : Fld) (v : Nat) : (s.pa b f v).out = s.out := rfl
@[simp] theorem State.pa_time (s : State) (b : Nat) (f : Fld) (v : Nat) : (s.pa b f v).time = s.time := rfl
@[simp] theorem State.pa_msix (s : State) (b : Nat) (f : Fld) (v : Nat) : (s.pa b f v).msix = s.msix := rfl
@[simp] theorem State.pa_bit (s : State) (b : Nat) (f : Fld) (v : Nat) : (s.pa b f v).bit = s.bit := rfl
@[simp] theorem State.pa_hbm (s : State) (b : Nat) (f : Fld) (v : Nat) : (s.pa b f v).hbm = s.hbm := rfl
@[simp] theorem State.pa_xlt (s : State) (b : Nat) (f : Fld) (v : Nat) : (s.pa b f v).xlt = s.xlt := rfl
@[simp] theorem State.pa_tsq (s : State) (b : Nat) (f : Fld) (v : Nat) : (s.pa b f v).tsq = s.tsq := rfl
@[simp] theorem State.pa_sump (s : State) (b : Nat) (f : Fld) (v : Nat) : (s.pa b f v).sump = s.sump := rfl
@[simp] theorem State.pa_lanes (s : State) (b : Nat) (f : Fld) (v : Nat) : (s.pa b f v).lanes = s.lanes := rfl
@[simp] theorem State.pa_quads (s : State) (b : Nat) (f : Fld) (v : Nat) : (s.pa b f v).quads = s.quads := rfl
@[simp] theorem State.pa_clr (s : State) (b : Nat) (f : Fld) (v : Nat) : (s.pa b f v).clr = s.clr := rfl
@[simp] theorem State.pa_ing (s : State) (b : Nat) (f : Fld) (v : Nat) : (s.pa b f v).ing = s.ing := rfl
@[simp] theorem State.pa_cwy (s : State) (b : Nat) (f : Fld) (v : Nat) : (s.pa b f v).cwy = s.cwy := rfl
@[simp] theorem State.pa_heads (s : State) (b : Nat) (f : Fld) (v : Nat) : (s.pa b f v).heads = s.heads := rfl
@[simp] theorem State.pa_slices (s : State) (b : Nat) (f : Fld) (v : Nat) : (s.pa b f v).slices = s.slices := rfl
@[simp] theorem State.pa_recompute (s : State) (b : Nat) (f : Fld) (v : Nat) : (s.pa b f v).recompute = s.recompute := rfl
@[simp] theorem State.pa_wits (s : State) (b : Nat) (f : Fld) (v : Nat) : (s.pa b f v).wits = s.wits := rfl
@[simp] theorem State.pa_raw (s : State) (b : Nat) (f : Fld) (v : Nat) : (s.pa b f v).raw = s.raw := rfl
@[simp] theorem State.pa_gcx (s : State) (b : Nat) (f : Fld) (v : Nat) : (s.pa b f v).gcx = s.gcx := rfl
@[simp] theorem State.pa_eth (s : State) (b : Nat) (f : Fld) (v : Nat) : (s.pa b f v).eth = s.eth := rfl
@[simp] theorem State.pa_tapNews (s : State) (b : Nat) (f : Fld) (v : Nat) : (s.pa b f v).tapNews = s.tapNews := rfl
@[simp] theorem State.pa_recorder (s : State) (b : Nat) (f : Fld) (v : Nat) : (s.pa b f v).recorder = s.recorder := rfl
@[simp] theorem State.pa_tim (s : State) (b : Nat) (f : Fld) (v : Nat) : (s.pa b f v).tim = s.tim := rfl
@[simp] theorem State.pa_cod (s : State) (b : Nat) (f : Fld) (v : Nat) : (s.pa b f v).cod = s.cod := rfl
@[simp] theorem State.pa_dsp (s : State) (b : Nat) (f : Fld) (v : Nat) : (s.pa b f v).dsp = s.dsp := rfl
@[simp] theorem State.pa_dma (s : State) (b : Nat) (f : Fld) (v : Nat) : (s.pa b f v).dma = s.dma := rfl
@[simp] theorem State.pa_seq (s : State) (b : Nat) (f : Fld) (v : Nat) : (s.pa b f v).seq = s.seq := rfl
@[simp] theorem State.pa_supply (s : State) (b : Nat) (f : Fld) (v : Nat) : (s.pa b f v).supply = s.supply := rfl
@[simp] theorem State.pa_shed (s : State) (b : Nat) (f : Fld) (v : Nat) : (s.pa b f v).shed = s.shed := rfl
@[simp] theorem State.pa_thermal (s : State) (b : Nat) (f : Fld) (v : Nat) : (s.pa b f v).thermal = s.thermal := rfl
@[simp] theorem State.pa_hif (s : State) (b : Nat) (f : Fld) (v : Nat) : (s.pa b f v).hif = s.hif := rfl
@[simp] theorem State.pa_cnt (s : State) (b : Nat) (f : Fld) (v : Nat) : (s.pa b f v).cnt = s.cnt := rfl
@[simp] theorem State.pa_freeCtr (s : State) (b : Nat) (f : Fld) (v : Nat) : (s.pa b f v).freeCtr = s.freeCtr := rfl
@[simp] theorem State.pa_pending (s : State) (b : Nat) (f : Fld) (v : Nat) : (s.pa b f v).pending = s.pending := rfl

/-! ### State.p64 -/

@[simp] theorem State.p64_part (s : State) (b : Nat) (f : Fld) (v : Nat) : (s.p64 b f v).part = s.part := rfl
@[simp] theorem State.p64_actv (s : State) (b : Nat) (f : Fld) (v : Nat) : (s.p64 b f v).actv = s.actv := rfl
@[simp] theorem State.p64_mem (s : State) (b : Nat) (f : Fld) (v : Nat) : (s.p64 b f v).mem = s.mem := rfl
@[simp] theorem State.p64_memGen (s : State) (b : Nat) (f : Fld) (v : Nat) : (s.p64 b f v).memGen = s.memGen := rfl
@[simp] theorem State.p64_hostMem (s : State) (b : Nat) (f : Fld) (v : Nat) : (s.p64 b f v).hostMem = s.hostMem := rfl
@[simp] theorem State.p64_out (s : State) (b : Nat) (f : Fld) (v : Nat) : (s.p64 b f v).out = s.out := rfl
@[simp] theorem State.p64_time (s : State) (b : Nat) (f : Fld) (v : Nat) : (s.p64 b f v).time = s.time := rfl
@[simp] theorem State.p64_msix (s : State) (b : Nat) (f : Fld) (v : Nat) : (s.p64 b f v).msix = s.msix := rfl
@[simp] theorem State.p64_bit (s : State) (b : Nat) (f : Fld) (v : Nat) : (s.p64 b f v).bit = s.bit := rfl
@[simp] theorem State.p64_hbm (s : State) (b : Nat) (f : Fld) (v : Nat) : (s.p64 b f v).hbm = s.hbm := rfl
@[simp] theorem State.p64_xlt (s : State) (b : Nat) (f : Fld) (v : Nat) : (s.p64 b f v).xlt = s.xlt := rfl
@[simp] theorem State.p64_tsq (s : State) (b : Nat) (f : Fld) (v : Nat) : (s.p64 b f v).tsq = s.tsq := rfl
@[simp] theorem State.p64_sump (s : State) (b : Nat) (f : Fld) (v : Nat) : (s.p64 b f v).sump = s.sump := rfl
@[simp] theorem State.p64_lanes (s : State) (b : Nat) (f : Fld) (v : Nat) : (s.p64 b f v).lanes = s.lanes := rfl
@[simp] theorem State.p64_quads (s : State) (b : Nat) (f : Fld) (v : Nat) : (s.p64 b f v).quads = s.quads := rfl
@[simp] theorem State.p64_clr (s : State) (b : Nat) (f : Fld) (v : Nat) : (s.p64 b f v).clr = s.clr := rfl
@[simp] theorem State.p64_ing (s : State) (b : Nat) (f : Fld) (v : Nat) : (s.p64 b f v).ing = s.ing := rfl
@[simp] theorem State.p64_cwy (s : State) (b : Nat) (f : Fld) (v : Nat) : (s.p64 b f v).cwy = s.cwy := rfl
@[simp] theorem State.p64_heads (s : State) (b : Nat) (f : Fld) (v : Nat) : (s.p64 b f v).heads = s.heads := rfl
@[simp] theorem State.p64_slices (s : State) (b : Nat) (f : Fld) (v : Nat) : (s.p64 b f v).slices = s.slices := rfl
@[simp] theorem State.p64_recompute (s : State) (b : Nat) (f : Fld) (v : Nat) : (s.p64 b f v).recompute = s.recompute := rfl
@[simp] theorem State.p64_wits (s : State) (b : Nat) (f : Fld) (v : Nat) : (s.p64 b f v).wits = s.wits := rfl
@[simp] theorem State.p64_raw (s : State) (b : Nat) (f : Fld) (v : Nat) : (s.p64 b f v).raw = s.raw := rfl
@[simp] theorem State.p64_gcx (s : State) (b : Nat) (f : Fld) (v : Nat) : (s.p64 b f v).gcx = s.gcx := rfl
@[simp] theorem State.p64_eth (s : State) (b : Nat) (f : Fld) (v : Nat) : (s.p64 b f v).eth = s.eth := rfl
@[simp] theorem State.p64_tapNews (s : State) (b : Nat) (f : Fld) (v : Nat) : (s.p64 b f v).tapNews = s.tapNews := rfl
@[simp] theorem State.p64_recorder (s : State) (b : Nat) (f : Fld) (v : Nat) : (s.p64 b f v).recorder = s.recorder := rfl
@[simp] theorem State.p64_tim (s : State) (b : Nat) (f : Fld) (v : Nat) : (s.p64 b f v).tim = s.tim := rfl
@[simp] theorem State.p64_cod (s : State) (b : Nat) (f : Fld) (v : Nat) : (s.p64 b f v).cod = s.cod := rfl
@[simp] theorem State.p64_dsp (s : State) (b : Nat) (f : Fld) (v : Nat) : (s.p64 b f v).dsp = s.dsp := rfl
@[simp] theorem State.p64_dma (s : State) (b : Nat) (f : Fld) (v : Nat) : (s.p64 b f v).dma = s.dma := rfl
@[simp] theorem State.p64_seq (s : State) (b : Nat) (f : Fld) (v : Nat) : (s.p64 b f v).seq = s.seq := rfl
@[simp] theorem State.p64_supply (s : State) (b : Nat) (f : Fld) (v : Nat) : (s.p64 b f v).supply = s.supply := rfl
@[simp] theorem State.p64_shed (s : State) (b : Nat) (f : Fld) (v : Nat) : (s.p64 b f v).shed = s.shed := rfl
@[simp] theorem State.p64_thermal (s : State) (b : Nat) (f : Fld) (v : Nat) : (s.p64 b f v).thermal = s.thermal := rfl
@[simp] theorem State.p64_hif (s : State) (b : Nat) (f : Fld) (v : Nat) : (s.p64 b f v).hif = s.hif := rfl
@[simp] theorem State.p64_cnt (s : State) (b : Nat) (f : Fld) (v : Nat) : (s.p64 b f v).cnt = s.cnt := rfl
@[simp] theorem State.p64_freeCtr (s : State) (b : Nat) (f : Fld) (v : Nat) : (s.p64 b f v).freeCtr = s.freeCtr := rfl
@[simp] theorem State.p64_pending (s : State) (b : Nat) (f : Fld) (v : Nat) : (s.p64 b f v).pending = s.pending := rfl

/-! ### State.addSat -/

@[simp] theorem State.addSat_part (s : State) (b : Nat) (f : Fld) (n : Nat) : (s.addSat b f n).part = s.part := rfl
@[simp] theorem State.addSat_actv (s : State) (b : Nat) (f : Fld) (n : Nat) : (s.addSat b f n).actv = s.actv := rfl
@[simp] theorem State.addSat_mem (s : State) (b : Nat) (f : Fld) (n : Nat) : (s.addSat b f n).mem = s.mem := rfl
@[simp] theorem State.addSat_memGen (s : State) (b : Nat) (f : Fld) (n : Nat) : (s.addSat b f n).memGen = s.memGen := rfl
@[simp] theorem State.addSat_hostMem (s : State) (b : Nat) (f : Fld) (n : Nat) : (s.addSat b f n).hostMem = s.hostMem := rfl
@[simp] theorem State.addSat_out (s : State) (b : Nat) (f : Fld) (n : Nat) : (s.addSat b f n).out = s.out := rfl
@[simp] theorem State.addSat_time (s : State) (b : Nat) (f : Fld) (n : Nat) : (s.addSat b f n).time = s.time := rfl
@[simp] theorem State.addSat_msix (s : State) (b : Nat) (f : Fld) (n : Nat) : (s.addSat b f n).msix = s.msix := rfl
@[simp] theorem State.addSat_bit (s : State) (b : Nat) (f : Fld) (n : Nat) : (s.addSat b f n).bit = s.bit := rfl
@[simp] theorem State.addSat_hbm (s : State) (b : Nat) (f : Fld) (n : Nat) : (s.addSat b f n).hbm = s.hbm := rfl
@[simp] theorem State.addSat_xlt (s : State) (b : Nat) (f : Fld) (n : Nat) : (s.addSat b f n).xlt = s.xlt := rfl
@[simp] theorem State.addSat_tsq (s : State) (b : Nat) (f : Fld) (n : Nat) : (s.addSat b f n).tsq = s.tsq := rfl
@[simp] theorem State.addSat_sump (s : State) (b : Nat) (f : Fld) (n : Nat) : (s.addSat b f n).sump = s.sump := rfl
@[simp] theorem State.addSat_lanes (s : State) (b : Nat) (f : Fld) (n : Nat) : (s.addSat b f n).lanes = s.lanes := rfl
@[simp] theorem State.addSat_quads (s : State) (b : Nat) (f : Fld) (n : Nat) : (s.addSat b f n).quads = s.quads := rfl
@[simp] theorem State.addSat_clr (s : State) (b : Nat) (f : Fld) (n : Nat) : (s.addSat b f n).clr = s.clr := rfl
@[simp] theorem State.addSat_ing (s : State) (b : Nat) (f : Fld) (n : Nat) : (s.addSat b f n).ing = s.ing := rfl
@[simp] theorem State.addSat_cwy (s : State) (b : Nat) (f : Fld) (n : Nat) : (s.addSat b f n).cwy = s.cwy := rfl
@[simp] theorem State.addSat_heads (s : State) (b : Nat) (f : Fld) (n : Nat) : (s.addSat b f n).heads = s.heads := rfl
@[simp] theorem State.addSat_slices (s : State) (b : Nat) (f : Fld) (n : Nat) : (s.addSat b f n).slices = s.slices := rfl
@[simp] theorem State.addSat_recompute (s : State) (b : Nat) (f : Fld) (n : Nat) : (s.addSat b f n).recompute = s.recompute := rfl
@[simp] theorem State.addSat_wits (s : State) (b : Nat) (f : Fld) (n : Nat) : (s.addSat b f n).wits = s.wits := rfl
@[simp] theorem State.addSat_raw (s : State) (b : Nat) (f : Fld) (n : Nat) : (s.addSat b f n).raw = s.raw := rfl
@[simp] theorem State.addSat_gcx (s : State) (b : Nat) (f : Fld) (n : Nat) : (s.addSat b f n).gcx = s.gcx := rfl
@[simp] theorem State.addSat_eth (s : State) (b : Nat) (f : Fld) (n : Nat) : (s.addSat b f n).eth = s.eth := rfl
@[simp] theorem State.addSat_tapNews (s : State) (b : Nat) (f : Fld) (n : Nat) : (s.addSat b f n).tapNews = s.tapNews := rfl
@[simp] theorem State.addSat_recorder (s : State) (b : Nat) (f : Fld) (n : Nat) : (s.addSat b f n).recorder = s.recorder := rfl
@[simp] theorem State.addSat_tim (s : State) (b : Nat) (f : Fld) (n : Nat) : (s.addSat b f n).tim = s.tim := rfl
@[simp] theorem State.addSat_cod (s : State) (b : Nat) (f : Fld) (n : Nat) : (s.addSat b f n).cod = s.cod := rfl
@[simp] theorem State.addSat_dsp (s : State) (b : Nat) (f : Fld) (n : Nat) : (s.addSat b f n).dsp = s.dsp := rfl
@[simp] theorem State.addSat_dma (s : State) (b : Nat) (f : Fld) (n : Nat) : (s.addSat b f n).dma = s.dma := rfl
@[simp] theorem State.addSat_seq (s : State) (b : Nat) (f : Fld) (n : Nat) : (s.addSat b f n).seq = s.seq := rfl
@[simp] theorem State.addSat_supply (s : State) (b : Nat) (f : Fld) (n : Nat) : (s.addSat b f n).supply = s.supply := rfl
@[simp] theorem State.addSat_shed (s : State) (b : Nat) (f : Fld) (n : Nat) : (s.addSat b f n).shed = s.shed := rfl
@[simp] theorem State.addSat_thermal (s : State) (b : Nat) (f : Fld) (n : Nat) : (s.addSat b f n).thermal = s.thermal := rfl
@[simp] theorem State.addSat_hif (s : State) (b : Nat) (f : Fld) (n : Nat) : (s.addSat b f n).hif = s.hif := rfl
@[simp] theorem State.addSat_cnt (s : State) (b : Nat) (f : Fld) (n : Nat) : (s.addSat b f n).cnt = s.cnt := rfl
@[simp] theorem State.addSat_freeCtr (s : State) (b : Nat) (f : Fld) (n : Nat) : (s.addSat b f n).freeCtr = s.freeCtr := rfl
@[simp] theorem State.addSat_pending (s : State) (b : Nat) (f : Fld) (n : Nat) : (s.addSat b f n).pending = s.pending := rfl

/-! ### State.addMod -/

@[simp] theorem State.addMod_part (s : State) (b : Nat) (f : Fld) (n : Nat) : (s.addMod b f n).part = s.part := rfl
@[simp] theorem State.addMod_actv (s : State) (b : Nat) (f : Fld) (n : Nat) : (s.addMod b f n).actv = s.actv := rfl
@[simp] theorem State.addMod_mem (s : State) (b : Nat) (f : Fld) (n : Nat) : (s.addMod b f n).mem = s.mem := rfl
@[simp] theorem State.addMod_memGen (s : State) (b : Nat) (f : Fld) (n : Nat) : (s.addMod b f n).memGen = s.memGen := rfl
@[simp] theorem State.addMod_hostMem (s : State) (b : Nat) (f : Fld) (n : Nat) : (s.addMod b f n).hostMem = s.hostMem := rfl
@[simp] theorem State.addMod_out (s : State) (b : Nat) (f : Fld) (n : Nat) : (s.addMod b f n).out = s.out := rfl
@[simp] theorem State.addMod_time (s : State) (b : Nat) (f : Fld) (n : Nat) : (s.addMod b f n).time = s.time := rfl
@[simp] theorem State.addMod_msix (s : State) (b : Nat) (f : Fld) (n : Nat) : (s.addMod b f n).msix = s.msix := rfl
@[simp] theorem State.addMod_bit (s : State) (b : Nat) (f : Fld) (n : Nat) : (s.addMod b f n).bit = s.bit := rfl
@[simp] theorem State.addMod_hbm (s : State) (b : Nat) (f : Fld) (n : Nat) : (s.addMod b f n).hbm = s.hbm := rfl
@[simp] theorem State.addMod_xlt (s : State) (b : Nat) (f : Fld) (n : Nat) : (s.addMod b f n).xlt = s.xlt := rfl
@[simp] theorem State.addMod_tsq (s : State) (b : Nat) (f : Fld) (n : Nat) : (s.addMod b f n).tsq = s.tsq := rfl
@[simp] theorem State.addMod_sump (s : State) (b : Nat) (f : Fld) (n : Nat) : (s.addMod b f n).sump = s.sump := rfl
@[simp] theorem State.addMod_lanes (s : State) (b : Nat) (f : Fld) (n : Nat) : (s.addMod b f n).lanes = s.lanes := rfl
@[simp] theorem State.addMod_quads (s : State) (b : Nat) (f : Fld) (n : Nat) : (s.addMod b f n).quads = s.quads := rfl
@[simp] theorem State.addMod_clr (s : State) (b : Nat) (f : Fld) (n : Nat) : (s.addMod b f n).clr = s.clr := rfl
@[simp] theorem State.addMod_ing (s : State) (b : Nat) (f : Fld) (n : Nat) : (s.addMod b f n).ing = s.ing := rfl
@[simp] theorem State.addMod_cwy (s : State) (b : Nat) (f : Fld) (n : Nat) : (s.addMod b f n).cwy = s.cwy := rfl
@[simp] theorem State.addMod_heads (s : State) (b : Nat) (f : Fld) (n : Nat) : (s.addMod b f n).heads = s.heads := rfl
@[simp] theorem State.addMod_slices (s : State) (b : Nat) (f : Fld) (n : Nat) : (s.addMod b f n).slices = s.slices := rfl
@[simp] theorem State.addMod_recompute (s : State) (b : Nat) (f : Fld) (n : Nat) : (s.addMod b f n).recompute = s.recompute := rfl
@[simp] theorem State.addMod_wits (s : State) (b : Nat) (f : Fld) (n : Nat) : (s.addMod b f n).wits = s.wits := rfl
@[simp] theorem State.addMod_raw (s : State) (b : Nat) (f : Fld) (n : Nat) : (s.addMod b f n).raw = s.raw := rfl
@[simp] theorem State.addMod_gcx (s : State) (b : Nat) (f : Fld) (n : Nat) : (s.addMod b f n).gcx = s.gcx := rfl
@[simp] theorem State.addMod_eth (s : State) (b : Nat) (f : Fld) (n : Nat) : (s.addMod b f n).eth = s.eth := rfl
@[simp] theorem State.addMod_tapNews (s : State) (b : Nat) (f : Fld) (n : Nat) : (s.addMod b f n).tapNews = s.tapNews := rfl
@[simp] theorem State.addMod_recorder (s : State) (b : Nat) (f : Fld) (n : Nat) : (s.addMod b f n).recorder = s.recorder := rfl
@[simp] theorem State.addMod_tim (s : State) (b : Nat) (f : Fld) (n : Nat) : (s.addMod b f n).tim = s.tim := rfl
@[simp] theorem State.addMod_cod (s : State) (b : Nat) (f : Fld) (n : Nat) : (s.addMod b f n).cod = s.cod := rfl
@[simp] theorem State.addMod_dsp (s : State) (b : Nat) (f : Fld) (n : Nat) : (s.addMod b f n).dsp = s.dsp := rfl
@[simp] theorem State.addMod_dma (s : State) (b : Nat) (f : Fld) (n : Nat) : (s.addMod b f n).dma = s.dma := rfl
@[simp] theorem State.addMod_seq (s : State) (b : Nat) (f : Fld) (n : Nat) : (s.addMod b f n).seq = s.seq := rfl
@[simp] theorem State.addMod_supply (s : State) (b : Nat) (f : Fld) (n : Nat) : (s.addMod b f n).supply = s.supply := rfl
@[simp] theorem State.addMod_shed (s : State) (b : Nat) (f : Fld) (n : Nat) : (s.addMod b f n).shed = s.shed := rfl
@[simp] theorem State.addMod_thermal (s : State) (b : Nat) (f : Fld) (n : Nat) : (s.addMod b f n).thermal = s.thermal := rfl
@[simp] theorem State.addMod_hif (s : State) (b : Nat) (f : Fld) (n : Nat) : (s.addMod b f n).hif = s.hif := rfl
@[simp] theorem State.addMod_cnt (s : State) (b : Nat) (f : Fld) (n : Nat) : (s.addMod b f n).cnt = s.cnt := rfl
@[simp] theorem State.addMod_freeCtr (s : State) (b : Nat) (f : Fld) (n : Nat) : (s.addMod b f n).freeCtr = s.freeCtr := rfl
@[simp] theorem State.addMod_pending (s : State) (b : Nat) (f : Fld) (n : Nat) : (s.addMod b f n).pending = s.pending := rfl

/-! ### State.pBit -/

@[simp] theorem State.pBit_part (s : State) (b : Nat) (f : Fld) (n : Nat) (v : Bool) : (s.pBit b f n v).part = s.part := rfl
@[simp] theorem State.pBit_actv (s : State) (b : Nat) (f : Fld) (n : Nat) (v : Bool) : (s.pBit b f n v).actv = s.actv := rfl
@[simp] theorem State.pBit_mem (s : State) (b : Nat) (f : Fld) (n : Nat) (v : Bool) : (s.pBit b f n v).mem = s.mem := rfl
@[simp] theorem State.pBit_memGen (s : State) (b : Nat) (f : Fld) (n : Nat) (v : Bool) : (s.pBit b f n v).memGen = s.memGen := rfl
@[simp] theorem State.pBit_hostMem (s : State) (b : Nat) (f : Fld) (n : Nat) (v : Bool) : (s.pBit b f n v).hostMem = s.hostMem := rfl
@[simp] theorem State.pBit_out (s : State) (b : Nat) (f : Fld) (n : Nat) (v : Bool) : (s.pBit b f n v).out = s.out := rfl
@[simp] theorem State.pBit_time (s : State) (b : Nat) (f : Fld) (n : Nat) (v : Bool) : (s.pBit b f n v).time = s.time := rfl
@[simp] theorem State.pBit_msix (s : State) (b : Nat) (f : Fld) (n : Nat) (v : Bool) : (s.pBit b f n v).msix = s.msix := rfl
@[simp] theorem State.pBit_bit (s : State) (b : Nat) (f : Fld) (n : Nat) (v : Bool) : (s.pBit b f n v).bit = s.bit := rfl
@[simp] theorem State.pBit_hbm (s : State) (b : Nat) (f : Fld) (n : Nat) (v : Bool) : (s.pBit b f n v).hbm = s.hbm := rfl
@[simp] theorem State.pBit_xlt (s : State) (b : Nat) (f : Fld) (n : Nat) (v : Bool) : (s.pBit b f n v).xlt = s.xlt := rfl
@[simp] theorem State.pBit_tsq (s : State) (b : Nat) (f : Fld) (n : Nat) (v : Bool) : (s.pBit b f n v).tsq = s.tsq := rfl
@[simp] theorem State.pBit_sump (s : State) (b : Nat) (f : Fld) (n : Nat) (v : Bool) : (s.pBit b f n v).sump = s.sump := rfl
@[simp] theorem State.pBit_lanes (s : State) (b : Nat) (f : Fld) (n : Nat) (v : Bool) : (s.pBit b f n v).lanes = s.lanes := rfl
@[simp] theorem State.pBit_quads (s : State) (b : Nat) (f : Fld) (n : Nat) (v : Bool) : (s.pBit b f n v).quads = s.quads := rfl
@[simp] theorem State.pBit_clr (s : State) (b : Nat) (f : Fld) (n : Nat) (v : Bool) : (s.pBit b f n v).clr = s.clr := rfl
@[simp] theorem State.pBit_ing (s : State) (b : Nat) (f : Fld) (n : Nat) (v : Bool) : (s.pBit b f n v).ing = s.ing := rfl
@[simp] theorem State.pBit_cwy (s : State) (b : Nat) (f : Fld) (n : Nat) (v : Bool) : (s.pBit b f n v).cwy = s.cwy := rfl
@[simp] theorem State.pBit_heads (s : State) (b : Nat) (f : Fld) (n : Nat) (v : Bool) : (s.pBit b f n v).heads = s.heads := rfl
@[simp] theorem State.pBit_slices (s : State) (b : Nat) (f : Fld) (n : Nat) (v : Bool) : (s.pBit b f n v).slices = s.slices := rfl
@[simp] theorem State.pBit_recompute (s : State) (b : Nat) (f : Fld) (n : Nat) (v : Bool) : (s.pBit b f n v).recompute = s.recompute := rfl
@[simp] theorem State.pBit_wits (s : State) (b : Nat) (f : Fld) (n : Nat) (v : Bool) : (s.pBit b f n v).wits = s.wits := rfl
@[simp] theorem State.pBit_raw (s : State) (b : Nat) (f : Fld) (n : Nat) (v : Bool) : (s.pBit b f n v).raw = s.raw := rfl
@[simp] theorem State.pBit_gcx (s : State) (b : Nat) (f : Fld) (n : Nat) (v : Bool) : (s.pBit b f n v).gcx = s.gcx := rfl
@[simp] theorem State.pBit_eth (s : State) (b : Nat) (f : Fld) (n : Nat) (v : Bool) : (s.pBit b f n v).eth = s.eth := rfl
@[simp] theorem State.pBit_tapNews (s : State) (b : Nat) (f : Fld) (n : Nat) (v : Bool) : (s.pBit b f n v).tapNews = s.tapNews := rfl
@[simp] theorem State.pBit_recorder (s : State) (b : Nat) (f : Fld) (n : Nat) (v : Bool) : (s.pBit b f n v).recorder = s.recorder := rfl
@[simp] theorem State.pBit_tim (s : State) (b : Nat) (f : Fld) (n : Nat) (v : Bool) : (s.pBit b f n v).tim = s.tim := rfl
@[simp] theorem State.pBit_cod (s : State) (b : Nat) (f : Fld) (n : Nat) (v : Bool) : (s.pBit b f n v).cod = s.cod := rfl
@[simp] theorem State.pBit_dsp (s : State) (b : Nat) (f : Fld) (n : Nat) (v : Bool) : (s.pBit b f n v).dsp = s.dsp := rfl
@[simp] theorem State.pBit_dma (s : State) (b : Nat) (f : Fld) (n : Nat) (v : Bool) : (s.pBit b f n v).dma = s.dma := rfl
@[simp] theorem State.pBit_seq (s : State) (b : Nat) (f : Fld) (n : Nat) (v : Bool) : (s.pBit b f n v).seq = s.seq := rfl
@[simp] theorem State.pBit_supply (s : State) (b : Nat) (f : Fld) (n : Nat) (v : Bool) : (s.pBit b f n v).supply = s.supply := rfl
@[simp] theorem State.pBit_shed (s : State) (b : Nat) (f : Fld) (n : Nat) (v : Bool) : (s.pBit b f n v).shed = s.shed := rfl
@[simp] theorem State.pBit_thermal (s : State) (b : Nat) (f : Fld) (n : Nat) (v : Bool) : (s.pBit b f n v).thermal = s.thermal := rfl
@[simp] theorem State.pBit_hif (s : State) (b : Nat) (f : Fld) (n : Nat) (v : Bool) : (s.pBit b f n v).hif = s.hif := rfl
@[simp] theorem State.pBit_cnt (s : State) (b : Nat) (f : Fld) (n : Nat) (v : Bool) : (s.pBit b f n v).cnt = s.cnt := rfl
@[simp] theorem State.pBit_freeCtr (s : State) (b : Nat) (f : Fld) (n : Nat) (v : Bool) : (s.pBit b f n v).freeCtr = s.freeCtr := rfl
@[simp] theorem State.pBit_pending (s : State) (b : Nat) (f : Fld) (n : Nat) (v : Bool) : (s.pBit b f n v).pending = s.pending := rfl

/-! ### State.setBusy -/

@[simp] theorem State.setBusy_part (s : State) (b : Nat) (v : Bool) : (s.setBusy b v).part = s.part := rfl
@[simp] theorem State.setBusy_actv (s : State) (b : Nat) (v : Bool) : (s.setBusy b v).actv = s.actv := rfl
@[simp] theorem State.setBusy_mem (s : State) (b : Nat) (v : Bool) : (s.setBusy b v).mem = s.mem := rfl
@[simp] theorem State.setBusy_memGen (s : State) (b : Nat) (v : Bool) : (s.setBusy b v).memGen = s.memGen := rfl
@[simp] theorem State.setBusy_hostMem (s : State) (b : Nat) (v : Bool) : (s.setBusy b v).hostMem = s.hostMem := rfl
@[simp] theorem State.setBusy_out (s : State) (b : Nat) (v : Bool) : (s.setBusy b v).out = s.out := rfl
@[simp] theorem State.setBusy_time (s : State) (b : Nat) (v : Bool) : (s.setBusy b v).time = s.time := rfl
@[simp] theorem State.setBusy_msix (s : State) (b : Nat) (v : Bool) : (s.setBusy b v).msix = s.msix := rfl
@[simp] theorem State.setBusy_bit (s : State) (b : Nat) (v : Bool) : (s.setBusy b v).bit = s.bit := rfl
@[simp] theorem State.setBusy_hbm (s : State) (b : Nat) (v : Bool) : (s.setBusy b v).hbm = s.hbm := rfl
@[simp] theorem State.setBusy_xlt (s : State) (b : Nat) (v : Bool) : (s.setBusy b v).xlt = s.xlt := rfl
@[simp] theorem State.setBusy_tsq (s : State) (b : Nat) (v : Bool) : (s.setBusy b v).tsq = s.tsq := rfl
@[simp] theorem State.setBusy_sump (s : State) (b : Nat) (v : Bool) : (s.setBusy b v).sump = s.sump := rfl
@[simp] theorem State.setBusy_lanes (s : State) (b : Nat) (v : Bool) : (s.setBusy b v).lanes = s.lanes := rfl
@[simp] theorem State.setBusy_quads (s : State) (b : Nat) (v : Bool) : (s.setBusy b v).quads = s.quads := rfl
@[simp] theorem State.setBusy_clr (s : State) (b : Nat) (v : Bool) : (s.setBusy b v).clr = s.clr := rfl
@[simp] theorem State.setBusy_ing (s : State) (b : Nat) (v : Bool) : (s.setBusy b v).ing = s.ing := rfl
@[simp] theorem State.setBusy_cwy (s : State) (b : Nat) (v : Bool) : (s.setBusy b v).cwy = s.cwy := rfl
@[simp] theorem State.setBusy_heads (s : State) (b : Nat) (v : Bool) : (s.setBusy b v).heads = s.heads := rfl
@[simp] theorem State.setBusy_slices (s : State) (b : Nat) (v : Bool) : (s.setBusy b v).slices = s.slices := rfl
@[simp] theorem State.setBusy_recompute (s : State) (b : Nat) (v : Bool) : (s.setBusy b v).recompute = s.recompute := rfl
@[simp] theorem State.setBusy_wits (s : State) (b : Nat) (v : Bool) : (s.setBusy b v).wits = s.wits := rfl
@[simp] theorem State.setBusy_raw (s : State) (b : Nat) (v : Bool) : (s.setBusy b v).raw = s.raw := rfl
@[simp] theorem State.setBusy_gcx (s : State) (b : Nat) (v : Bool) : (s.setBusy b v).gcx = s.gcx := rfl
@[simp] theorem State.setBusy_eth (s : State) (b : Nat) (v : Bool) : (s.setBusy b v).eth = s.eth := rfl
@[simp] theorem State.setBusy_tapNews (s : State) (b : Nat) (v : Bool) : (s.setBusy b v).tapNews = s.tapNews := rfl
@[simp] theorem State.setBusy_recorder (s : State) (b : Nat) (v : Bool) : (s.setBusy b v).recorder = s.recorder := rfl
@[simp] theorem State.setBusy_tim (s : State) (b : Nat) (v : Bool) : (s.setBusy b v).tim = s.tim := rfl
@[simp] theorem State.setBusy_cod (s : State) (b : Nat) (v : Bool) : (s.setBusy b v).cod = s.cod := rfl
@[simp] theorem State.setBusy_dsp (s : State) (b : Nat) (v : Bool) : (s.setBusy b v).dsp = s.dsp := rfl
@[simp] theorem State.setBusy_dma (s : State) (b : Nat) (v : Bool) : (s.setBusy b v).dma = s.dma := rfl
@[simp] theorem State.setBusy_seq (s : State) (b : Nat) (v : Bool) : (s.setBusy b v).seq = s.seq := rfl
@[simp] theorem State.setBusy_supply (s : State) (b : Nat) (v : Bool) : (s.setBusy b v).supply = s.supply := rfl
@[simp] theorem State.setBusy_shed (s : State) (b : Nat) (v : Bool) : (s.setBusy b v).shed = s.shed := rfl
@[simp] theorem State.setBusy_thermal (s : State) (b : Nat) (v : Bool) : (s.setBusy b v).thermal = s.thermal := rfl
@[simp] theorem State.setBusy_hif (s : State) (b : Nat) (v : Bool) : (s.setBusy b v).hif = s.hif := rfl
@[simp] theorem State.setBusy_cnt (s : State) (b : Nat) (v : Bool) : (s.setBusy b v).cnt = s.cnt := rfl
@[simp] theorem State.setBusy_freeCtr (s : State) (b : Nat) (v : Bool) : (s.setBusy b v).freeCtr = s.freeCtr := rfl
@[simp] theorem State.setBusy_pending (s : State) (b : Nat) (v : Bool) : (s.setBusy b v).pending = s.pending := rfl

/-! ### State.fault -/

@[simp] theorem State.fault_part (s : State) (b n : Nat) (v : Bool) : (s.fault b n v).part = s.part := rfl
@[simp] theorem State.fault_actv (s : State) (b n : Nat) (v : Bool) : (s.fault b n v).actv = s.actv := rfl
@[simp] theorem State.fault_mem (s : State) (b n : Nat) (v : Bool) : (s.fault b n v).mem = s.mem := rfl
@[simp] theorem State.fault_memGen (s : State) (b n : Nat) (v : Bool) : (s.fault b n v).memGen = s.memGen := rfl
@[simp] theorem State.fault_hostMem (s : State) (b n : Nat) (v : Bool) : (s.fault b n v).hostMem = s.hostMem := rfl
@[simp] theorem State.fault_out (s : State) (b n : Nat) (v : Bool) : (s.fault b n v).out = s.out := rfl
@[simp] theorem State.fault_time (s : State) (b n : Nat) (v : Bool) : (s.fault b n v).time = s.time := rfl
@[simp] theorem State.fault_msix (s : State) (b n : Nat) (v : Bool) : (s.fault b n v).msix = s.msix := rfl
@[simp] theorem State.fault_bit (s : State) (b n : Nat) (v : Bool) : (s.fault b n v).bit = s.bit := rfl
@[simp] theorem State.fault_hbm (s : State) (b n : Nat) (v : Bool) : (s.fault b n v).hbm = s.hbm := rfl
@[simp] theorem State.fault_xlt (s : State) (b n : Nat) (v : Bool) : (s.fault b n v).xlt = s.xlt := rfl
@[simp] theorem State.fault_tsq (s : State) (b n : Nat) (v : Bool) : (s.fault b n v).tsq = s.tsq := rfl
@[simp] theorem State.fault_sump (s : State) (b n : Nat) (v : Bool) : (s.fault b n v).sump = s.sump := rfl
@[simp] theorem State.fault_lanes (s : State) (b n : Nat) (v : Bool) : (s.fault b n v).lanes = s.lanes := rfl
@[simp] theorem State.fault_quads (s : State) (b n : Nat) (v : Bool) : (s.fault b n v).quads = s.quads := rfl
@[simp] theorem State.fault_clr (s : State) (b n : Nat) (v : Bool) : (s.fault b n v).clr = s.clr := rfl
@[simp] theorem State.fault_ing (s : State) (b n : Nat) (v : Bool) : (s.fault b n v).ing = s.ing := rfl
@[simp] theorem State.fault_cwy (s : State) (b n : Nat) (v : Bool) : (s.fault b n v).cwy = s.cwy := rfl
@[simp] theorem State.fault_heads (s : State) (b n : Nat) (v : Bool) : (s.fault b n v).heads = s.heads := rfl
@[simp] theorem State.fault_slices (s : State) (b n : Nat) (v : Bool) : (s.fault b n v).slices = s.slices := rfl
@[simp] theorem State.fault_recompute (s : State) (b n : Nat) (v : Bool) : (s.fault b n v).recompute = s.recompute := rfl
@[simp] theorem State.fault_wits (s : State) (b n : Nat) (v : Bool) : (s.fault b n v).wits = s.wits := rfl
@[simp] theorem State.fault_raw (s : State) (b n : Nat) (v : Bool) : (s.fault b n v).raw = s.raw := rfl
@[simp] theorem State.fault_gcx (s : State) (b n : Nat) (v : Bool) : (s.fault b n v).gcx = s.gcx := rfl
@[simp] theorem State.fault_eth (s : State) (b n : Nat) (v : Bool) : (s.fault b n v).eth = s.eth := rfl
@[simp] theorem State.fault_tapNews (s : State) (b n : Nat) (v : Bool) : (s.fault b n v).tapNews = s.tapNews := rfl
@[simp] theorem State.fault_recorder (s : State) (b n : Nat) (v : Bool) : (s.fault b n v).recorder = s.recorder := rfl
@[simp] theorem State.fault_tim (s : State) (b n : Nat) (v : Bool) : (s.fault b n v).tim = s.tim := rfl
@[simp] theorem State.fault_cod (s : State) (b n : Nat) (v : Bool) : (s.fault b n v).cod = s.cod := rfl
@[simp] theorem State.fault_dsp (s : State) (b n : Nat) (v : Bool) : (s.fault b n v).dsp = s.dsp := rfl
@[simp] theorem State.fault_dma (s : State) (b n : Nat) (v : Bool) : (s.fault b n v).dma = s.dma := rfl
@[simp] theorem State.fault_seq (s : State) (b n : Nat) (v : Bool) : (s.fault b n v).seq = s.seq := rfl
@[simp] theorem State.fault_supply (s : State) (b n : Nat) (v : Bool) : (s.fault b n v).supply = s.supply := rfl
@[simp] theorem State.fault_shed (s : State) (b n : Nat) (v : Bool) : (s.fault b n v).shed = s.shed := rfl
@[simp] theorem State.fault_thermal (s : State) (b n : Nat) (v : Bool) : (s.fault b n v).thermal = s.thermal := rfl
@[simp] theorem State.fault_hif (s : State) (b n : Nat) (v : Bool) : (s.fault b n v).hif = s.hif := rfl
@[simp] theorem State.fault_cnt (s : State) (b n : Nat) (v : Bool) : (s.fault b n v).cnt = s.cnt := rfl
@[simp] theorem State.fault_freeCtr (s : State) (b n : Nat) (v : Bool) : (s.fault b n v).freeCtr = s.freeCtr := rfl
@[simp] theorem State.fault_pending (s : State) (b n : Nat) (v : Bool) : (s.fault b n v).pending = s.pending := rfl

/-! ### State.emit -/

@[simp] theorem State.emit_part (s : State) (o : Out) : (s.emit o).part = s.part := rfl
@[simp] theorem State.emit_regs (s : State) (o : Out) : (s.emit o).regs = s.regs := rfl
@[simp] theorem State.emit_actv (s : State) (o : Out) : (s.emit o).actv = s.actv := rfl
@[simp] theorem State.emit_mem (s : State) (o : Out) : (s.emit o).mem = s.mem := rfl
@[simp] theorem State.emit_memGen (s : State) (o : Out) : (s.emit o).memGen = s.memGen := rfl
@[simp] theorem State.emit_hostMem (s : State) (o : Out) : (s.emit o).hostMem = s.hostMem := rfl
@[simp] theorem State.emit_time (s : State) (o : Out) : (s.emit o).time = s.time := rfl
@[simp] theorem State.emit_msix (s : State) (o : Out) : (s.emit o).msix = s.msix := rfl
@[simp] theorem State.emit_bit (s : State) (o : Out) : (s.emit o).bit = s.bit := rfl
@[simp] theorem State.emit_hbm (s : State) (o : Out) : (s.emit o).hbm = s.hbm := rfl
@[simp] theorem State.emit_xlt (s : State) (o : Out) : (s.emit o).xlt = s.xlt := rfl
@[simp] theorem State.emit_tsq (s : State) (o : Out) : (s.emit o).tsq = s.tsq := rfl
@[simp] theorem State.emit_sump (s : State) (o : Out) : (s.emit o).sump = s.sump := rfl
@[simp] theorem State.emit_lanes (s : State) (o : Out) : (s.emit o).lanes = s.lanes := rfl
@[simp] theorem State.emit_quads (s : State) (o : Out) : (s.emit o).quads = s.quads := rfl
@[simp] theorem State.emit_clr (s : State) (o : Out) : (s.emit o).clr = s.clr := rfl
@[simp] theorem State.emit_ing (s : State) (o : Out) : (s.emit o).ing = s.ing := rfl
@[simp] theorem State.emit_cwy (s : State) (o : Out) : (s.emit o).cwy = s.cwy := rfl
@[simp] theorem State.emit_heads (s : State) (o : Out) : (s.emit o).heads = s.heads := rfl
@[simp] theorem State.emit_slices (s : State) (o : Out) : (s.emit o).slices = s.slices := rfl
@[simp] theorem State.emit_recompute (s : State) (o : Out) : (s.emit o).recompute = s.recompute := rfl
@[simp] theorem State.emit_wits (s : State) (o : Out) : (s.emit o).wits = s.wits := rfl
@[simp] theorem State.emit_raw (s : State) (o : Out) : (s.emit o).raw = s.raw := rfl
@[simp] theorem State.emit_gcx (s : State) (o : Out) : (s.emit o).gcx = s.gcx := rfl
@[simp] theorem State.emit_eth (s : State) (o : Out) : (s.emit o).eth = s.eth := rfl
@[simp] theorem State.emit_tapNews (s : State) (o : Out) : (s.emit o).tapNews = s.tapNews := rfl
@[simp] theorem State.emit_recorder (s : State) (o : Out) : (s.emit o).recorder = s.recorder := rfl
@[simp] theorem State.emit_tim (s : State) (o : Out) : (s.emit o).tim = s.tim := rfl
@[simp] theorem State.emit_cod (s : State) (o : Out) : (s.emit o).cod = s.cod := rfl
@[simp] theorem State.emit_dsp (s : State) (o : Out) : (s.emit o).dsp = s.dsp := rfl
@[simp] theorem State.emit_dma (s : State) (o : Out) : (s.emit o).dma = s.dma := rfl
@[simp] theorem State.emit_seq (s : State) (o : Out) : (s.emit o).seq = s.seq := rfl
@[simp] theorem State.emit_supply (s : State) (o : Out) : (s.emit o).supply = s.supply := rfl
@[simp] theorem State.emit_shed (s : State) (o : Out) : (s.emit o).shed = s.shed := rfl
@[simp] theorem State.emit_thermal (s : State) (o : Out) : (s.emit o).thermal = s.thermal := rfl
@[simp] theorem State.emit_hif (s : State) (o : Out) : (s.emit o).hif = s.hif := rfl
@[simp] theorem State.emit_cnt (s : State) (o : Out) : (s.emit o).cnt = s.cnt := rfl
@[simp] theorem State.emit_freeCtr (s : State) (o : Out) : (s.emit o).freeCtr = s.freeCtr := rfl
@[simp] theorem State.emit_pending (s : State) (o : Out) : (s.emit o).pending = s.pending := rfl

/-! ### State.hbmWrite -/

@[simp] theorem State.hbmWrite_part (s : State) (a : Nat) (l : List Byte) : (s.hbmWrite a l).part = s.part := rfl
@[simp] theorem State.hbmWrite_regs (s : State) (a : Nat) (l : List Byte) : (s.hbmWrite a l).regs = s.regs := rfl
@[simp] theorem State.hbmWrite_actv (s : State) (a : Nat) (l : List Byte) : (s.hbmWrite a l).actv = s.actv := rfl
@[simp] theorem State.hbmWrite_memGen (s : State) (a : Nat) (l : List Byte) : (s.hbmWrite a l).memGen = s.memGen := rfl
@[simp] theorem State.hbmWrite_hostMem (s : State) (a : Nat) (l : List Byte) : (s.hbmWrite a l).hostMem = s.hostMem := rfl
@[simp] theorem State.hbmWrite_out (s : State) (a : Nat) (l : List Byte) : (s.hbmWrite a l).out = s.out := rfl
@[simp] theorem State.hbmWrite_time (s : State) (a : Nat) (l : List Byte) : (s.hbmWrite a l).time = s.time := rfl
@[simp] theorem State.hbmWrite_msix (s : State) (a : Nat) (l : List Byte) : (s.hbmWrite a l).msix = s.msix := rfl
@[simp] theorem State.hbmWrite_bit (s : State) (a : Nat) (l : List Byte) : (s.hbmWrite a l).bit = s.bit := rfl
@[simp] theorem State.hbmWrite_hbm (s : State) (a : Nat) (l : List Byte) : (s.hbmWrite a l).hbm = s.hbm := rfl
@[simp] theorem State.hbmWrite_xlt (s : State) (a : Nat) (l : List Byte) : (s.hbmWrite a l).xlt = s.xlt := rfl
@[simp] theorem State.hbmWrite_tsq (s : State) (a : Nat) (l : List Byte) : (s.hbmWrite a l).tsq = s.tsq := rfl
@[simp] theorem State.hbmWrite_sump (s : State) (a : Nat) (l : List Byte) : (s.hbmWrite a l).sump = s.sump := rfl
@[simp] theorem State.hbmWrite_lanes (s : State) (a : Nat) (l : List Byte) : (s.hbmWrite a l).lanes = s.lanes := rfl
@[simp] theorem State.hbmWrite_quads (s : State) (a : Nat) (l : List Byte) : (s.hbmWrite a l).quads = s.quads := rfl
@[simp] theorem State.hbmWrite_clr (s : State) (a : Nat) (l : List Byte) : (s.hbmWrite a l).clr = s.clr := rfl
@[simp] theorem State.hbmWrite_ing (s : State) (a : Nat) (l : List Byte) : (s.hbmWrite a l).ing = s.ing := rfl
@[simp] theorem State.hbmWrite_cwy (s : State) (a : Nat) (l : List Byte) : (s.hbmWrite a l).cwy = s.cwy := rfl
@[simp] theorem State.hbmWrite_heads (s : State) (a : Nat) (l : List Byte) : (s.hbmWrite a l).heads = s.heads := rfl
@[simp] theorem State.hbmWrite_slices (s : State) (a : Nat) (l : List Byte) : (s.hbmWrite a l).slices = s.slices := rfl
@[simp] theorem State.hbmWrite_recompute (s : State) (a : Nat) (l : List Byte) : (s.hbmWrite a l).recompute = s.recompute := rfl
@[simp] theorem State.hbmWrite_wits (s : State) (a : Nat) (l : List Byte) : (s.hbmWrite a l).wits = s.wits := rfl
@[simp] theorem State.hbmWrite_raw (s : State) (a : Nat) (l : List Byte) : (s.hbmWrite a l).raw = s.raw := rfl
@[simp] theorem State.hbmWrite_gcx (s : State) (a : Nat) (l : List Byte) : (s.hbmWrite a l).gcx = s.gcx := rfl
@[simp] theorem State.hbmWrite_eth (s : State) (a : Nat) (l : List Byte) : (s.hbmWrite a l).eth = s.eth := rfl
@[simp] theorem State.hbmWrite_tapNews (s : State) (a : Nat) (l : List Byte) : (s.hbmWrite a l).tapNews = s.tapNews := rfl
@[simp] theorem State.hbmWrite_recorder (s : State) (a : Nat) (l : List Byte) : (s.hbmWrite a l).recorder = s.recorder := rfl
@[simp] theorem State.hbmWrite_tim (s : State) (a : Nat) (l : List Byte) : (s.hbmWrite a l).tim = s.tim := rfl
@[simp] theorem State.hbmWrite_cod (s : State) (a : Nat) (l : List Byte) : (s.hbmWrite a l).cod = s.cod := rfl
@[simp] theorem State.hbmWrite_dsp (s : State) (a : Nat) (l : List Byte) : (s.hbmWrite a l).dsp = s.dsp := rfl
@[simp] theorem State.hbmWrite_dma (s : State) (a : Nat) (l : List Byte) : (s.hbmWrite a l).dma = s.dma := rfl
@[simp] theorem State.hbmWrite_seq (s : State) (a : Nat) (l : List Byte) : (s.hbmWrite a l).seq = s.seq := rfl
@[simp] theorem State.hbmWrite_supply (s : State) (a : Nat) (l : List Byte) : (s.hbmWrite a l).supply = s.supply := rfl
@[simp] theorem State.hbmWrite_shed (s : State) (a : Nat) (l : List Byte) : (s.hbmWrite a l).shed = s.shed := rfl
@[simp] theorem State.hbmWrite_thermal (s : State) (a : Nat) (l : List Byte) : (s.hbmWrite a l).thermal = s.thermal := rfl
@[simp] theorem State.hbmWrite_hif (s : State) (a : Nat) (l : List Byte) : (s.hbmWrite a l).hif = s.hif := rfl
@[simp] theorem State.hbmWrite_cnt (s : State) (a : Nat) (l : List Byte) : (s.hbmWrite a l).cnt = s.cnt := rfl
@[simp] theorem State.hbmWrite_freeCtr (s : State) (a : Nat) (l : List Byte) : (s.hbmWrite a l).freeCtr = s.freeCtr := rfl
@[simp] theorem State.hbmWrite_pending (s : State) (a : Nat) (l : List Byte) : (s.hbmWrite a l).pending = s.pending := rfl

/-! ### State.hostWrite -/

@[simp] theorem State.hostWrite_part (s : State) (a : Nat) (l : List Byte) : (s.hostWrite a l).part = s.part := rfl
@[simp] theorem State.hostWrite_regs (s : State) (a : Nat) (l : List Byte) : (s.hostWrite a l).regs = s.regs := rfl
@[simp] theorem State.hostWrite_actv (s : State) (a : Nat) (l : List Byte) : (s.hostWrite a l).actv = s.actv := rfl
@[simp] theorem State.hostWrite_mem (s : State) (a : Nat) (l : List Byte) : (s.hostWrite a l).mem = s.mem := rfl
@[simp] theorem State.hostWrite_memGen (s : State) (a : Nat) (l : List Byte) : (s.hostWrite a l).memGen = s.memGen := rfl
@[simp] theorem State.hostWrite_out (s : State) (a : Nat) (l : List Byte) : (s.hostWrite a l).out = s.out := rfl
@[simp] theorem State.hostWrite_time (s : State) (a : Nat) (l : List Byte) : (s.hostWrite a l).time = s.time := rfl
@[simp] theorem State.hostWrite_msix (s : State) (a : Nat) (l : List Byte) : (s.hostWrite a l).msix = s.msix := rfl
@[simp] theorem State.hostWrite_bit (s : State) (a : Nat) (l : List Byte) : (s.hostWrite a l).bit = s.bit := rfl
@[simp] theorem State.hostWrite_hbm (s : State) (a : Nat) (l : List Byte) : (s.hostWrite a l).hbm = s.hbm := rfl
@[simp] theorem State.hostWrite_xlt (s : State) (a : Nat) (l : List Byte) : (s.hostWrite a l).xlt = s.xlt := rfl
@[simp] theorem State.hostWrite_tsq (s : State) (a : Nat) (l : List Byte) : (s.hostWrite a l).tsq = s.tsq := rfl
@[simp] theorem State.hostWrite_sump (s : State) (a : Nat) (l : List Byte) : (s.hostWrite a l).sump = s.sump := rfl
@[simp] theorem State.hostWrite_lanes (s : State) (a : Nat) (l : List Byte) : (s.hostWrite a l).lanes = s.lanes := rfl
@[simp] theorem State.hostWrite_quads (s : State) (a : Nat) (l : List Byte) : (s.hostWrite a l).quads = s.quads := rfl
@[simp] theorem State.hostWrite_clr (s : State) (a : Nat) (l : List Byte) : (s.hostWrite a l).clr = s.clr := rfl
@[simp] theorem State.hostWrite_ing (s : State) (a : Nat) (l : List Byte) : (s.hostWrite a l).ing = s.ing := rfl
@[simp] theorem State.hostWrite_cwy (s : State) (a : Nat) (l : List Byte) : (s.hostWrite a l).cwy = s.cwy := rfl
@[simp] theorem State.hostWrite_heads (s : State) (a : Nat) (l : List Byte) : (s.hostWrite a l).heads = s.heads := rfl
@[simp] theorem State.hostWrite_slices (s : State) (a : Nat) (l : List Byte) : (s.hostWrite a l).slices = s.slices := rfl
@[simp] theorem State.hostWrite_recompute (s : State) (a : Nat) (l : List Byte) : (s.hostWrite a l).recompute = s.recompute := rfl
@[simp] theorem State.hostWrite_wits (s : State) (a : Nat) (l : List Byte) : (s.hostWrite a l).wits = s.wits := rfl
@[simp] theorem State.hostWrite_raw (s : State) (a : Nat) (l : List Byte) : (s.hostWrite a l).raw = s.raw := rfl
@[simp] theorem State.hostWrite_gcx (s : State) (a : Nat) (l : List Byte) : (s.hostWrite a l).gcx = s.gcx := rfl
@[simp] theorem State.hostWrite_eth (s : State) (a : Nat) (l : List Byte) : (s.hostWrite a l).eth = s.eth := rfl
@[simp] theorem State.hostWrite_tapNews (s : State) (a : Nat) (l : List Byte) : (s.hostWrite a l).tapNews = s.tapNews := rfl
@[simp] theorem State.hostWrite_recorder (s : State) (a : Nat) (l : List Byte) : (s.hostWrite a l).recorder = s.recorder := rfl
@[simp] theorem State.hostWrite_tim (s : State) (a : Nat) (l : List Byte) : (s.hostWrite a l).tim = s.tim := rfl
@[simp] theorem State.hostWrite_cod (s : State) (a : Nat) (l : List Byte) : (s.hostWrite a l).cod = s.cod := rfl
@[simp] theorem State.hostWrite_dsp (s : State) (a : Nat) (l : List Byte) : (s.hostWrite a l).dsp = s.dsp := rfl
@[simp] theorem State.hostWrite_dma (s : State) (a : Nat) (l : List Byte) : (s.hostWrite a l).dma = s.dma := rfl
@[simp] theorem State.hostWrite_seq (s : State) (a : Nat) (l : List Byte) : (s.hostWrite a l).seq = s.seq := rfl
@[simp] theorem State.hostWrite_supply (s : State) (a : Nat) (l : List Byte) : (s.hostWrite a l).supply = s.supply := rfl
@[simp] theorem State.hostWrite_shed (s : State) (a : Nat) (l : List Byte) : (s.hostWrite a l).shed = s.shed := rfl
@[simp] theorem State.hostWrite_thermal (s : State) (a : Nat) (l : List Byte) : (s.hostWrite a l).thermal = s.thermal := rfl
@[simp] theorem State.hostWrite_hif (s : State) (a : Nat) (l : List Byte) : (s.hostWrite a l).hif = s.hif := rfl
@[simp] theorem State.hostWrite_cnt (s : State) (a : Nat) (l : List Byte) : (s.hostWrite a l).cnt = s.cnt := rfl
@[simp] theorem State.hostWrite_freeCtr (s : State) (a : Nat) (l : List Byte) : (s.hostWrite a l).freeCtr = s.freeCtr := rfl
@[simp] theorem State.hostWrite_pending (s : State) (a : Nat) (l : List Byte) : (s.hostWrite a l).pending = s.pending := rfl

/-! ### Counted events and interrupts -/

theorem Counted.part {l : List Nat} {s t : State} (h : Counted l s t) : t.part = s.part := by rw [h.shape]
theorem Counted.actv {l : List Nat} {s t : State} (h : Counted l s t) : t.actv = s.actv := by rw [h.shape]
theorem Counted.mem {l : List Nat} {s t : State} (h : Counted l s t) : t.mem = s.mem := by rw [h.shape]
theorem Counted.memGen {l : List Nat} {s t : State} (h : Counted l s t) : t.memGen = s.memGen := by rw [h.shape]
theorem Counted.hostMem {l : List Nat} {s t : State} (h : Counted l s t) : t.hostMem = s.hostMem := by rw [h.shape]
theorem Counted.time {l : List Nat} {s t : State} (h : Counted l s t) : t.time = s.time := by rw [h.shape]
theorem Counted.bit {l : List Nat} {s t : State} (h : Counted l s t) : t.bit = s.bit := by rw [h.shape]
theorem Counted.hbm {l : List Nat} {s t : State} (h : Counted l s t) : t.hbm = s.hbm := by rw [h.shape]
theorem Counted.xlt {l : List Nat} {s t : State} (h : Counted l s t) : t.xlt = s.xlt := by rw [h.shape]
theorem Counted.tsq {l : List Nat} {s t : State} (h : Counted l s t) : t.tsq = s.tsq := by rw [h.shape]
theorem Counted.sump {l : List Nat} {s t : State} (h : Counted l s t) : t.sump = s.sump := by rw [h.shape]
theorem Counted.lanes {l : List Nat} {s t : State} (h : Counted l s t) : t.lanes = s.lanes := by rw [h.shape]
theorem Counted.quads {l : List Nat} {s t : State} (h : Counted l s t) : t.quads = s.quads := by rw [h.shape]
theorem Counted.clr {l : List Nat} {s t : State} (h : Counted l s t) : t.clr = s.clr := by rw [h.shape]
theorem Counted.ing {l : List Nat} {s t : State} (h : Counted l s t) : t.ing = s.ing := by rw [h.shape]
theorem Counted.cwy {l : List Nat} {s t : State} (h : Counted l s t) : t.cwy = s.cwy := by rw [h.shape]
theorem Counted.heads {l : List Nat} {s t : State} (h : Counted l s t) : t.heads = s.heads := by rw [h.shape]
theorem Counted.slices {l : List Nat} {s t : State} (h : Counted l s t) : t.slices = s.slices := by rw [h.shape]
theorem Counted.recompute {l : List Nat} {s t : State} (h : Counted l s t) : t.recompute = s.recompute := by rw [h.shape]
theorem Counted.wits {l : List Nat} {s t : State} (h : Counted l s t) : t.wits = s.wits := by rw [h.shape]
theorem Counted.raw {l : List Nat} {s t : State} (h : Counted l s t) : t.raw = s.raw := by rw [h.shape]
theorem Counted.gcx {l : List Nat} {s t : State} (h : Counted l s t) : t.gcx = s.gcx := by rw [h.shape]
theorem Counted.eth {l : List Nat} {s t : State} (h : Counted l s t) : t.eth = s.eth := by rw [h.shape]
theorem Counted.tapNews {l : List Nat} {s t : State} (h : Counted l s t) : t.tapNews = s.tapNews := by rw [h.shape]
theorem Counted.recorder {l : List Nat} {s t : State} (h : Counted l s t) : t.recorder = s.recorder := by rw [h.shape]
theorem Counted.tim {l : List Nat} {s t : State} (h : Counted l s t) : t.tim = s.tim := by rw [h.shape]
theorem Counted.cod {l : List Nat} {s t : State} (h : Counted l s t) : t.cod = s.cod := by rw [h.shape]
theorem Counted.dsp {l : List Nat} {s t : State} (h : Counted l s t) : t.dsp = s.dsp := by rw [h.shape]
theorem Counted.dma {l : List Nat} {s t : State} (h : Counted l s t) : t.dma = s.dma := by rw [h.shape]
theorem Counted.seq {l : List Nat} {s t : State} (h : Counted l s t) : t.seq = s.seq := by rw [h.shape]
theorem Counted.supply {l : List Nat} {s t : State} (h : Counted l s t) : t.supply = s.supply := by rw [h.shape]
theorem Counted.shed {l : List Nat} {s t : State} (h : Counted l s t) : t.shed = s.shed := by rw [h.shape]
theorem Counted.thermal {l : List Nat} {s t : State} (h : Counted l s t) : t.thermal = s.thermal := by rw [h.shape]
theorem Counted.hif {l : List Nat} {s t : State} (h : Counted l s t) : t.hif = s.hif := by rw [h.shape]
theorem Counted.freeCtr {l : List Nat} {s t : State} (h : Counted l s t) : t.freeCtr = s.freeCtr := by rw [h.shape]
theorem Counted.pending {l : List Nat} {s t : State} (h : Counted l s t) : t.pending = s.pending := by rw [h.shape]

end Sys2Proof.Machine
end

