-- ==== Sys2Proof/Laws/Claims.lean ====
section
/-! SUPPORT. The lemmas that statements about one access cite: what an access that reaches its register does,
how the frames OnlyRegs and RegsBut grow with a write, and what an interrupt and a claimed access leave alone. -/

namespace Sys2Proof.Machine


/-- A canonical state has its register list in canonical form. -/
theorem ok_of_canonical {s : State} (h : s.canonical = true) : s.ok := by
  simp only [State.canonical, State.registersCanonical, Bool.and_eq_true] at h
  exact h.1.1.2.1

theorem Counted.of_count (s : State) (e : CntEvent) : Counted [] s (s.count e) := (Counted.refl [] s).count e

theorem claimed_ok {s : State} (h : s.canonical = true) (n : Nat) : (s.claimed n).ok := (State.claimed_counted s n).ok (ok_of_canonical h)

/-- An access that reaches its register applies the operation to the state the access has claimed. -/
theorem hostReg_reaches {s : State} {off v : Nat} (h : s.reaches off v = true) (op : State → State) :
    s.hostReg off v op = op s.claimed := by
  simp only [State.reaches, Bool.and_eq_true] at h
  obtain ⟨hm, ha⟩ := h
  unfold State.hostReg State.hostSized State.host
  rw [if_pos hm]
  change s.claimed.regOp off v op = op s.claimed
  unfold State.accepts at ha
  unfold State.regOp
  cases ho : owner off with
  | none => rw [ho] at ha; cases ha
  | some o =>
    rw [ho] at ha
    simp only [Bool.and_eq_true, Bool.or_eq_true, Bool.not_eq_true', beq_iff_eq, Option.isNone_iff_eq_none] at ha
    dsimp only
    rw [if_neg, ha.2]
    rintro h'
    simp only [Bool.and_eq_true, bne_iff_ne, ne_eq] at h'
    rcases ha.1 with (h1 | h1) | h1
    · rw [h1] at h'; simp at h'
    · exact h'.1.2 h1
    · exact h'.2 h1

/-- The same for an access of n bytes. -/
theorem hostSized_reaches {s : State} {off v n : Nat} (h : s.reaches off v n = true) (op : State → State) :
    s.hostSized n (fun s => s.regOp off v op) = op (s.claimed n) := by
  simp only [State.reaches, Bool.and_eq_true] at h
  obtain ⟨hm, ha⟩ := h
  unfold State.hostSized State.host
  rw [if_pos hm]
  change (s.claimed n).regOp off v op = op (s.claimed n)
  unfold State.accepts at ha
  unfold State.regOp
  cases ho : owner off with
  | none => rw [ho] at ha; cases ha
  | some o =>
    rw [ho] at ha
    simp only [Bool.and_eq_true, Bool.or_eq_true, Bool.not_eq_true', beq_iff_eq, Option.isNone_iff_eq_none] at ha
    dsimp only
    rw [if_neg, ha.2]
    rintro h'
    simp only [Bool.and_eq_true, bne_iff_ne, ne_eq] at h'
    rcases ha.1 with (h1 | h1) | h1
    · rw [h1] at h'; simp at h'
    · exact h'.1.2 h1
    · exact h'.2 h1

/-- A header command that reaches its block applies the operation to the claimed state. -/
theorem header_reaches {s : State} {n : Nat} (h : s.headerReaches n = true) (op : State → State) :
    s.header n op = op s.claimed := by
  simp only [State.headerReaches, Bool.and_eq_true] at h
  obtain ⟨hm, ha⟩ := h
  unfold State.header State.hostSized State.host
  rw [if_pos hm]
  change s.claimed.hdrOp _ op = op s.claimed
  unfold State.hdrOp
  simp only [Bool.or_eq_true, Bool.not_eq_true', beq_iff_eq] at ha
  rw [if_neg]
  rintro h'
  simp only [Bool.and_eq_true, bne_iff_ne, ne_eq] at h'
  rcases ha with (h1 | h1) | h1
  · rw [h1] at h'; simp at h'
  · exact h'.1.2 h1
  · exact h'.2 h1

theorem OnlyRegs.refl (l : List Nat) (s : State) : OnlyRegs l s s := ⟨rfl, fun _ _ => rfl⟩
/-- A write to a listed register keeps OnlyRegs. -/
theorem OnlyRegs.wr {l : List Nat} {s0 s : State} (ho : s.ok) (h : OnlyRegs l s0 s) (off v : Nat) (hm : off ∈ l) :
    OnlyRegs l s0 (s.wr off v) := by
  refine ⟨?_, fun o h1 => ?_⟩
  · have := h.1
    rw [State.wr]; dsimp only
    conv => lhs; rw [this]
  · rw [State.rd_wr ho, if_neg (by rintro rfl; exact h1 hm), h.2 o h1]
theorem OnlyRegs.p {l : List Nat} {s0 s : State} (ho : s.ok) (h : OnlyRegs l s0 s) (b : Nat) (f : Fld) (v : Nat) (hm : b + f.off ∈ l) :
    OnlyRegs l s0 (s.p b f v) := h.wr ho _ _ hm

theorem RegsBut.refl (l : List Nat) (s : State) : RegsBut l s s := ⟨fun _ _ _ => rfl, rfl, rfl, rfl, rfl, rfl⟩
/-- A write to a listed register keeps RegsBut. -/
theorem RegsBut.wr {l : List Nat} {s0 s : State} (ho : s.ok) (h : RegsBut l s0 s) (off v : Nat) (hm : off ∈ l) :
    RegsBut l s0 (s.wr off v) :=
  ⟨fun o h1 h2 => by rw [State.rd_wr ho, if_neg (by rintro rfl; exact h1 hm), h.1 o h1 h2], h.2.1, h.2.2.1, h.2.2.2.1, h.2.2.2.2.1, h.2.2.2.2.2⟩
theorem RegsBut.p {l : List Nat} {s0 s : State} (ho : s.ok) (h : RegsBut l s0 s) (b : Nat) (f : Fld) (v : Nat) (hm : b + f.off ∈ l) :
    RegsBut l s0 (s.p b f v) := h.wr ho _ _ hm
theorem RegsBut.counted {l l' : List Nat} {s0 s t : State} (ho : s.ok) (h : RegsBut l s0 s) (hc : Counted l' s t) (hl : ∀ x ∈ l', x ∈ l) :
    RegsBut l s0 t :=
  ⟨fun o h1 h2 => by rw [hc.rd ho o (fun x => h1 (hl _ x)) h2, h.1 o h1 h2], hc.mem.trans h.2.1, hc.memGen.trans h.2.2.1, hc.hostMem.trans h.2.2.2.1,
    hc.part.trans h.2.2.2.2.1, hc.pending.trans h.2.2.2.2.2⟩
theorem RegsBut.irq {l : List Nat} {s0 s : State} (ho : s.ok) (h : RegsBut l s0 s) (b n : Nat) (hm : b + IRQ_STAT.off ∈ l) :
    RegsBut l s0 (s.irq b n) := h.counted ho ((Counted.refl [b + IRQ_STAT.off] s).irq b n (by simp)) (by simpa using hm)
theorem RegsBut.claimed {l : List Nat} (s : State) (hs : s.canonical = true) (n : Nat) : RegsBut l s (s.claimed n) :=
  (RegsBut.refl l s).counted (ok_of_canonical hs) (State.claimed_counted s n) (by simp)

theorem g_irq_ne {s : State} (ho : s.ok) (b n b' : Nat) (f : Fld) (h1 : b' + f.off ≠ b + IRQ_STAT.off) (h2 : cntPage (b' + f.off) = false) :
    (s.irq b n).g b' f = s.g b' f :=
  ((Counted.refl [b + IRQ_STAT.off] s).irq b n (by simp)).g ho b' f (by simpa using h1) h2
theorem rd_irq_ne {s : State} (ho : s.ok) (b n off : Nat) (h1 : off ≠ b + IRQ_STAT.off) (h2 : cntPage off = false) :
    (s.irq b n).rd off = s.rd off :=
  ((Counted.refl [b + IRQ_STAT.off] s).irq b n (by simp)).rd ho off (by simpa using h1) h2
theorem irq_ok {s : State} (ho : s.ok) (b n : Nat) : (s.irq b n).ok := ((Counted.refl [b + IRQ_STAT.off] s).irq b n (by simp)).ok ho

/-- A claimed access leaves a field outside the counter page as it was. -/
theorem g_claimed {s : State} (hs : s.canonical = true) (n b : Nat) (f : Fld) (h2 : cntPage (b + f.off) = false) : (s.claimed n).g b f = s.g b f :=
  (State.claimed_counted s n).g (ok_of_canonical hs) b f (by simp) h2
theorem rd_claimed {s : State} (hs : s.canonical = true) (n off : Nat) (h2 : cntPage off = false) : (s.claimed n).rd off = s.rd off :=
  (State.claimed_counted s n).rd (ok_of_canonical hs) off (by simp) h2

theorem g_full (s : State) (b : Nat) (f : Fld) (h1 : f.lo = 0) (h2 : f.w = 32) : s.g b f = s.rd (b + f.off) := by
  unfold State.g fld
  rw [h1, h2, Nat.pow_zero, Nat.div_one, Nat.mod_eq_of_lt (State.rd_lt _ _)]

theorem g_wr {s : State} (ho : s.ok) (b off : Nat) (f : Fld) (v : Nat) : (s.wr off v).g b f = if b + f.off = off then fld (v % 2 ^ 32) f.lo f.w else s.g b f := by
  unfold State.g
  rw [State.rd_wr ho]
  split <;> rfl

/-- Reading back the entry an update wrote. -/
theorem nth_upd {α : Type} (d : α) (l : List α) (n : Nat) (f : α → α) (h : n < l.length) : nth d (upd l n f) n = f (nth d l n) := by
  induction l generalizing n with
  | nil => cases h
  | cons x r ih =>
    cases n with
    | zero => rfl
    | succ n => exact ih n (Nat.lt_of_succ_lt_succ h)

theorem shape_of_canonical {s : State} (h : s.canonical = true) : s.shape = deviceShape := by
  simp only [State.canonical, Bool.and_eq_true, beq_iff_eq] at h
  exact h.2
/-- The lengths the device fixes, in a canonical state. -/
theorem lens_of_canonical {s : State} (h : s.canonical = true) : s.lanes.length = 96 ∧ s.quads.length = 24 ∧ s.clr.length = 28 ∧
    s.ing.length = 4 ∧ s.cwy.length = 4 ∧ s.heads.length = 4 ∧ s.slices.length = 5 ∧ s.wits.length = 4 ∧ s.raw.length = 4 ∧
    s.eth.length = 4 ∧ s.dma.length = 16 := by
  have := shape_of_canonical h
  unfold State.shape deviceShape at this
  simpa using this
/-- The Bool and the Prop spellings of the canonical form say the same. -/
theorem canon_iff (s : State) : s.canonical = true ↔ Canon s := by
  simp only [State.canonical, State.memoryCanonical, State.registersCanonical, State.countersInRange, Bool.and_eq_true, beq_iff_eq, List.all_eq_true, decide_eq_true_eq]
  exact ⟨fun h => ⟨h.1.1.2.1, h.1.1.2.2, h.1.1.1.1, h.1.1.1.2, h.1.2.1, h.1.2.2, h.2⟩, fun h => ⟨⟨⟨⟨h.3, h.4⟩, h.1, h.2⟩, h.5, h.6⟩, h.7⟩⟩
/-- A plain register write merges every field the register declares. -/
theorem plainWrite_eq {s : State} {off v : Nat} {o : Owner} {d : RegDesc} {x : Nat} (ho : owner off = some o) (hd : regAt o.blk o.rel = some (d, x)) :
    s.plainWrite off v = s.wr off (d.fields.foldl (mergeField v) (s.rd off)) := by
  unfold State.plainWrite
  rw [ho]; dsimp only; rw [hd]

theorem ownerIn_skip (b : Blk) (r : List Blk) (off : Nat) (h : ¬ (b.row.base ≤ off ∧ off < b.row.base + b.row.count * (b.row.pages * 0x1000))) :
    ownerIn (b :: r) off = ownerIn r off := by
  rw [ownerIn]; exact if_neg h
theorem ownerIn_hit (b : Blk) (r : List Blk) (i rel : Nat) (h1 : i < b.row.count) (h2 : rel < b.row.pages * 0x1000) :
    ownerIn (b :: r) (b.at i + rel) = some ⟨b, i, rel⟩ := by
  rw [ownerIn]
  have h3 : (i + 1) * (b.row.pages * 0x1000) ≤ b.row.count * (b.row.pages * 0x1000) := Nat.mul_le_mul_right _ h1
  rw [Nat.add_mul] at h3
  rw [if_pos]
  · have e : b.at i + rel - b.row.base = rel + b.row.pages * 0x1000 * i := by unfold Blk.at; rw [Nat.mul_comm i]; omega
    rw [e, Nat.add_mul_div_left _ _ (by omega), Nat.add_mul_mod_self_left, Nat.div_eq_of_lt h2, Nat.mod_eq_of_lt h2, Nat.zero_add]
  · unfold Blk.at; omega
/-- A register within an instance belongs to it. -/
theorem owner_at (b : Blk) (i rel : Nat) (h1 : i < b.row.count) (h2 : rel < b.row.pages * 0x1000) : owner (b.at i + rel) = some ⟨b, i, rel⟩ := by
  unfold owner Blk.all
  cases b <;> simp only [Blk.row] at h1 h2 <;>
    (repeat rw [ownerIn_skip _ _ _ (by simp only [Blk.at, Blk.row]; omega)]) <;>
    exact ownerIn_hit _ _ _ _ (by simpa only [Blk.row] using h1) (by simpa only [Blk.row] using h2)

/-- No register of another block lies on the counter page. -/
theorem cnt_at (b : Blk) (i r : Nat) (h0 : b ≠ .cnt) (h1 : i < b.row.count) (h2 : r < b.row.pages * 0x1000) : cntPage (b.at i + r) = false := by
  rw [Bool.eq_false_iff]
  intro h
  have hC : CNT = 0x110000 := rfl
  unfold cntPage at h
  rw [Bool.and_eq_true, decide_eq_true_eq, decide_eq_true_eq, hC] at h
  cases b <;> first
    | exact absurd rfl h0
    | (simp only [Blk.at, Blk.row] at *; omega)
theorem cnt_at0 (b : Blk) (r : Nat) (h0 : b ≠ .cnt) (h2 : r < b.row.pages * 0x1000) : cntPage (b.at 0 + r) = false :=
  cnt_at b 0 r h0 (by cases b <;> decide) h2
theorem cnt_lnb (n r : Nat) (h1 : n < 96) (h2 : r < 0x300) : cntPage (lnb n + r) = false := by
  unfold lnb LNK
  rw [Nat.add_assoc]
  exact cnt_at .lnk _ _ (by decide) (by show _ < 24; omega) (by show _ < 0x1000; omega)
theorem next_reaches {s : State} {off v : Nat} (h : s.reaches off v = true) (op : State → State) :
    (Host.Outcome.next (s.hostReg off v op) : Host.Outcome State Fault Refusal) = .next (op s.claimed) := congrArg _ (hostReg_reaches h op)
theorem next_header {s : State} {n : Nat} (h : s.headerReaches n = true) (op : State → State) :
    (Host.Outcome.next (s.header n op) : Host.Outcome State Fault Refusal) = .next (op s.claimed) := congrArg _ (header_reaches h op)
theorem on_claimed {s : State} (hs : s.canonical = true) (n b : Nat) (f : Fld) (h2 : cntPage (b + f.off) = false) : (s.claimed n).on b f = s.on b f := by
  unfold State.on; rw [g_claimed hs _ _ _ h2]
theorem on_g (s : State) (b : Nat) (f : Fld) : s.on b f = (s.g b f == 1) := rfl
theorem on_irq {s : State} (ho : s.ok) (b n b' : Nat) (f : Fld) (h1 : b' + f.off ≠ b + IRQ_STAT.off) (h2 : cntPage (b' + f.off) = false) :
    (s.irq b n).on b' f = s.on b' f := by rw [on_g, on_g, g_irq_ne ho _ _ _ _ h1 h2]
theorem Counted.irq' (s : State) (b n : Nat) : Counted [b + IRQ_STAT.off] s (s.irq b n) := (Counted.refl _ s).irq b n (by simp)
/-- What a field of a register reads after a write has been merged into it. -/
theorem fld_mergeField_rw (v old lo w lo' w' r : Nat) (ok : List (Nat × Nat)) :
    fld (mergeField v old ⟨lo', w', .rw, r, ok⟩) lo w = fld (setFld old lo' w' (fld v lo' w')) lo w := rfl

@[simp] theorem irq_part (s : State) (b n : Nat) : (s.irq b n).part = s.part := (Counted.irq' s b n).part
@[simp] theorem claimed_part (s : State) (n : Nat) : (s.claimed n).part = s.part := (State.claimed_counted s n).part
@[simp] theorem irq_actv (s : State) (b n : Nat) : (s.irq b n).actv = s.actv := (Counted.irq' s b n).actv
@[simp] theorem claimed_actv (s : State) (n : Nat) : (s.claimed n).actv = s.actv := (State.claimed_counted s n).actv
@[simp] theorem irq_mem (s : State) (b n : Nat) : (s.irq b n).mem = s.mem := (Counted.irq' s b n).mem
@[simp] theorem claimed_mem (s : State) (n : Nat) : (s.claimed n).mem = s.mem := (State.claimed_counted s n).mem
@[simp] theorem irq_memGen (s : State) (b n : Nat) : (s.irq b n).memGen = s.memGen := (Counted.irq' s b n).memGen
@[simp] theorem claimed_memGen (s : State) (n : Nat) : (s.claimed n).memGen = s.memGen := (State.claimed_counted s n).memGen
@[simp] theorem irq_hostMem (s : State) (b n : Nat) : (s.irq b n).hostMem = s.hostMem := (Counted.irq' s b n).hostMem
@[simp] theorem claimed_hostMem (s : State) (n : Nat) : (s.claimed n).hostMem = s.hostMem := (State.claimed_counted s n).hostMem
@[simp] theorem irq_time (s : State) (b n : Nat) : (s.irq b n).time = s.time := (Counted.irq' s b n).time
@[simp] theorem claimed_time (s : State) (n : Nat) : (s.claimed n).time = s.time := (State.claimed_counted s n).time
@[simp] theorem irq_bit (s : State) (b n : Nat) : (s.irq b n).bit = s.bit := (Counted.irq' s b n).bit
@[simp] theorem claimed_bit (s : State) (n : Nat) : (s.claimed n).bit = s.bit := (State.claimed_counted s n).bit
@[simp] theorem irq_hbm (s : State) (b n : Nat) : (s.irq b n).hbm = s.hbm := (Counted.irq' s b n).hbm
@[simp] theorem claimed_hbm (s : State) (n : Nat) : (s.claimed n).hbm = s.hbm := (State.claimed_counted s n).hbm
@[simp] theorem irq_xlt (s : State) (b n : Nat) : (s.irq b n).xlt = s.xlt := (Counted.irq' s b n).xlt
@[simp] theorem claimed_xlt (s : State) (n : Nat) : (s.claimed n).xlt = s.xlt := (State.claimed_counted s n).xlt
@[simp] theorem irq_tsq (s : State) (b n : Nat) : (s.irq b n).tsq = s.tsq := (Counted.irq' s b n).tsq
@[simp] theorem claimed_tsq (s : State) (n : Nat) : (s.claimed n).tsq = s.tsq := (State.claimed_counted s n).tsq
@[simp] theorem irq_sump (s : State) (b n : Nat) : (s.irq b n).sump = s.sump := (Counted.irq' s b n).sump
@[simp] theorem claimed_sump (s : State) (n : Nat) : (s.claimed n).sump = s.sump := (State.claimed_counted s n).sump
@[simp] theorem irq_lanes (s : State) (b n : Nat) : (s.irq b n).lanes = s.lanes := (Counted.irq' s b n).lanes
@[simp] theorem claimed_lanes (s : State) (n : Nat) : (s.claimed n).lanes = s.lanes := (State.claimed_counted s n).lanes
@[simp] theorem irq_quads (s : State) (b n : Nat) : (s.irq b n).quads = s.quads := (Counted.irq' s b n).quads
@[simp] theorem claimed_quads (s : State) (n : Nat) : (s.claimed n).quads = s.quads := (State.claimed_counted s n).quads
@[simp] theorem irq_clr (s : State) (b n : Nat) : (s.irq b n).clr = s.clr := (Counted.irq' s b n).clr
@[simp] theorem claimed_clr (s : State) (n : Nat) : (s.claimed n).clr = s.clr := (State.claimed_counted s n).clr
@[simp] theorem irq_ing (s : State) (b n : Nat) : (s.irq b n).ing = s.ing := (Counted.irq' s b n).ing
@[simp] theorem claimed_ing (s : State) (n : Nat) : (s.claimed n).ing = s.ing := (State.claimed_counted s n).ing
@[simp] theorem irq_cwy (s : State) (b n : Nat) : (s.irq b n).cwy = s.cwy := (Counted.irq' s b n).cwy
@[simp] theorem claimed_cwy (s : State) (n : Nat) : (s.claimed n).cwy = s.cwy := (State.claimed_counted s n).cwy
@[simp] theorem irq_heads (s : State) (b n : Nat) : (s.irq b n).heads = s.heads := (Counted.irq' s b n).heads
@[simp] theorem claimed_heads (s : State) (n : Nat) : (s.claimed n).heads = s.heads := (State.claimed_counted s n).heads
@[simp] theorem irq_slices (s : State) (b n : Nat) : (s.irq b n).slices = s.slices := (Counted.irq' s b n).slices
@[simp] theorem claimed_slices (s : State) (n : Nat) : (s.claimed n).slices = s.slices := (State.claimed_counted s n).slices
@[simp] theorem irq_recompute (s : State) (b n : Nat) : (s.irq b n).recompute = s.recompute := (Counted.irq' s b n).recompute
@[simp] theorem claimed_recompute (s : State) (n : Nat) : (s.claimed n).recompute = s.recompute := (State.claimed_counted s n).recompute
@[simp] theorem irq_wits (s : State) (b n : Nat) : (s.irq b n).wits = s.wits := (Counted.irq' s b n).wits
@[simp] theorem claimed_wits (s : State) (n : Nat) : (s.claimed n).wits = s.wits := (State.claimed_counted s n).wits
@[simp] theorem irq_raw (s : State) (b n : Nat) : (s.irq b n).raw = s.raw := (Counted.irq' s b n).raw
@[simp] theorem claimed_raw (s : State) (n : Nat) : (s.claimed n).raw = s.raw := (State.claimed_counted s n).raw
@[simp] theorem irq_gcx (s : State) (b n : Nat) : (s.irq b n).gcx = s.gcx := (Counted.irq' s b n).gcx
@[simp] theorem claimed_gcx (s : State) (n : Nat) : (s.claimed n).gcx = s.gcx := (State.claimed_counted s n).gcx
@[simp] theorem irq_eth (s : State) (b n : Nat) : (s.irq b n).eth = s.eth := (Counted.irq' s b n).eth
@[simp] theorem claimed_eth (s : State) (n : Nat) : (s.claimed n).eth = s.eth := (State.claimed_counted s n).eth
@[simp] theorem irq_tapNews (s : State) (b n : Nat) : (s.irq b n).tapNews = s.tapNews := (Counted.irq' s b n).tapNews
@[simp] theorem claimed_tapNews (s : State) (n : Nat) : (s.claimed n).tapNews = s.tapNews := (State.claimed_counted s n).tapNews
@[simp] theorem irq_recorder (s : State) (b n : Nat) : (s.irq b n).recorder = s.recorder := (Counted.irq' s b n).recorder
@[simp] theorem claimed_recorder (s : State) (n : Nat) : (s.claimed n).recorder = s.recorder := (State.claimed_counted s n).recorder
@[simp] theorem irq_tim (s : State) (b n : Nat) : (s.irq b n).tim = s.tim := (Counted.irq' s b n).tim
@[simp] theorem claimed_tim (s : State) (n : Nat) : (s.claimed n).tim = s.tim := (State.claimed_counted s n).tim
@[simp] theorem irq_cod (s : State) (b n : Nat) : (s.irq b n).cod = s.cod := (Counted.irq' s b n).cod
@[simp] theorem claimed_cod (s : State) (n : Nat) : (s.claimed n).cod = s.cod := (State.claimed_counted s n).cod
@[simp] theorem irq_dsp (s : State) (b n : Nat) : (s.irq b n).dsp = s.dsp := (Counted.irq' s b n).dsp
@[simp] theorem claimed_dsp (s : State) (n : Nat) : (s.claimed n).dsp = s.dsp := (State.claimed_counted s n).dsp
@[simp] theorem irq_dma (s : State) (b n : Nat) : (s.irq b n).dma = s.dma := (Counted.irq' s b n).dma
@[simp] theorem claimed_dma (s : State) (n : Nat) : (s.claimed n).dma = s.dma := (State.claimed_counted s n).dma
@[simp] theorem irq_seq (s : State) (b n : Nat) : (s.irq b n).seq = s.seq := (Counted.irq' s b n).seq
@[simp] theorem claimed_seq (s : State) (n : Nat) : (s.claimed n).seq = s.seq := (State.claimed_counted s n).seq
@[simp] theorem irq_supply (s : State) (b n : Nat) : (s.irq b n).supply = s.supply := (Counted.irq' s b n).supply
@[simp] theorem claimed_supply (s : State) (n : Nat) : (s.claimed n).supply = s.supply := (State.claimed_counted s n).supply
@[simp] theorem irq_shed (s : State) (b n : Nat) : (s.irq b n).shed = s.shed := (Counted.irq' s b n).shed
@[simp] theorem claimed_shed (s : State) (n : Nat) : (s.claimed n).shed = s.shed := (State.claimed_counted s n).shed
@[simp] theorem irq_thermal (s : State) (b n : Nat) : (s.irq b n).thermal = s.thermal := (Counted.irq' s b n).thermal
@[simp] theorem claimed_thermal (s : State) (n : Nat) : (s.claimed n).thermal = s.thermal := (State.claimed_counted s n).thermal
@[simp] theorem irq_hif (s : State) (b n : Nat) : (s.irq b n).hif = s.hif := (Counted.irq' s b n).hif
@[simp] theorem claimed_hif (s : State) (n : Nat) : (s.claimed n).hif = s.hif := (State.claimed_counted s n).hif
@[simp] theorem irq_freeCtr (s : State) (b n : Nat) : (s.irq b n).freeCtr = s.freeCtr := (Counted.irq' s b n).freeCtr
@[simp] theorem claimed_freeCtr (s : State) (n : Nat) : (s.claimed n).freeCtr = s.freeCtr := (State.claimed_counted s n).freeCtr
@[simp] theorem irq_pending (s : State) (b n : Nat) : (s.irq b n).pending = s.pending := (Counted.irq' s b n).pending
@[simp] theorem claimed_pending (s : State) (n : Nat) : (s.claimed n).pending = s.pending := (State.claimed_counted s n).pending
end Sys2Proof.Machine
end

