-- ==== Sys2Proof/WellFormed.lean ====
section
/-! DEFINITION. Which commands are well formed, beyond the bounds that the operands' types set: the shapes that the interfaces
give to what they carry. The meanings do not rest on it. -/

namespace Sys2Proof

/-- A master number that the device reports (R623). -/
def masterNumber (m : Nat) : Bool :=
  decide (m < 0x1C) || (decide (0x20 ≤ m) && decide (m < 0x35)) || m == 0x38 || (decide (0x3C ≤ m) && decide (m < 0x41)) ||
    (decide (0x44 ≤ m) && decide (m < 0x48))

/-- A command is well formed: its lists have the lengths, and its numbers the bounds, that the interface gives them. -/
def Instr.wf : Instr → Bool
  | .registerWrite off data => data.length != 0 && decide (off.val + data.length ≤ 0x4000000)
  | .rcRead off len => len.val != 0 && decide (off.val + len.val ≤ 0x4000000)
  | .enable .. => true
  | .disable .. => true
  | .blockStopped .. => true
  | .softReset .. => true
  | .softResetDone .. => true
  | .powerReq .. => true
  | .badWriteClr .. => true
  | .irqForce .. => true
  | .commit .. => true
  | .revert .. => true
  | .irqHoldoffEnd .. => true
  | .msixUnmask .. => true
  | .quadRoleWrite .. => true
  | .pllLockLoss .. => true
  | .pllRelockEnd .. => true
  | .ctrlPresetMove .. => true
  | .trainingStart .. => true
  | .presetAttemptEnd .. => true
  | .autoRetry .. => true
  | .pstateTargetWrite .. => true
  | .pstateReached .. => true
  | .losAssert .. => true
  | .losDeassert .. => true
  | .lolAssert .. => true
  | .lolDeassert .. => true
  | .calibrationDue .. => true
  | .slicerCalDone .. => true
  | .marginVisitDone .. => true
  | .scanStart .. => true
  | .scanPointDone .. => true
  | .prbsCheckerLock .. => true
  | .prbsCheckerUnlock .. => true
  | .prbsClear .. => true
  | .prbsSingleInject .. => true
  | .prbsRateInject .. => true
  | .ethLaneTrainingEnd .. => true
  | .commaReceived _ _ _ interval _ => interval.length == 1023
  | .syncHeaderError .. => true
  | .stripeDelivery _ _ blocks _ => blocks.length == 12
  | .standbyReadyRemap .. => true
  | .msgResendTimer .. => true
  | .headAck .. => true
  | .headNack .. => true
  | .readRsp .. => true
  | .timeT2 .. => true
  | .timeT3 .. => true
  | .headStatus .. => true
  | .setApplied .. => true
  | .setLate .. => true
  | .headEvent .. => true
  | .unknownUpstreamMsg .. => true
  | .hregWrite .. => true
  | .hregRead .. => true
  | .headSetWrite .. => true
  | .headSetCommit .. => true
  | .headTimeProbe .. => true
  | .headTimeSec .. => true
  | .headTimeLoad .. => true
  | .headTimeStep .. => true
  | .headTimeRate .. => true
  | .expStart .. => true
  | .expPeriod .. => true
  | .expStop .. => true
  | .headStream .. => true
  | .headTrain .. => true
  | .headPreset .. => true
  | .headRemap .. => true
  | .headStandby .. => true
  | .exposureStart .. => true
  | .probeTimer .. => true
  | .probeLostTimer .. => true
  | .servoHoldTimer .. => true
  | .feedOn .. => true
  | .feedOff .. => true
  | .feedPendingRaise .. => true
  | .feedFault .. => true
  | .feedHoldoffEnd .. => true
  | .ctrlUpTimer .. => true
  | .linkAligned .. => true
  | .linkRestart .. => true
  | .cwyTxqPush .. => true
  | .cwyRxqPop .. => true
  | .frameStartStripe .. => true
  | .lineStripe .. => true
  | .dataStripe .. => true
  | .frameEndStripe .. => true
  | .msgStripe _ slots => slots.length == 10
  | .frameTimeout .. => true
  | .ingestStopDeadline .. => true
  | .statsBlockWritten .. => true
  | .ingNextSeqWrite .. => true
  | .abnPop .. => true
  | .abnClrOvf .. => true
  | .recomputeDone .. => true
  | .recomputeDeadline .. => true
  | .patrolRecompute .. => true
  | .lineRelease .. => true
  | .tblLoadStart .. => true
  | .tblLoadBegin .. => true
  | .tblLoadEnd .. => true
  | .tapBufferReturn .. => true
  | .paceWindowEnd counts => counts.length == 17
  | .shedRelease .. => true
  | .clrLoadCurves .. => true
  | .clrLoadLut .. => true
  | .clrLoadGen .. => true
  | .clrLoadBegin .. => true
  | .clrOperationEnd .. => true
  | .clrTableRefill .. => true
  | .vsyncEdge .. => true
  | .witnessLineEnd _ samples _ => samples.all (fun v => decide (v < 2 ^ 24))
  | .pclkLost .. => true
  | .pclkWindowEnd .. => true
  | .pclkRestored .. => true
  | .witFrameTimeout .. => true
  | .witStopDeadline .. => true
  | .witDatapathClear .. => true
  | .witStatsWritten .. => true
  | .witNextWfnWrite .. => true
  | .witTapReturn .. => true
  | .planCheck .. => true
  | .planActivate .. => true
  | .planCheckEnd .. => true
  | .planActivateEnd .. => true
  | .sumpScrubPass .. => true
  | .sumpRemapTakeup .. => true
  | .wrbufRebuildEnd .. => true
  | .stripSized .. => true
  | .stripCoded .. => true
  | .stripVerified .. => true
  | .stripRecoded .. => true
  | .clrForced .. => true
  | .gcxProdWrite .. => true
  | .gcxJobStart .. => true
  | .gcxCompress .. => true
  | .gcxDecompress .. => true
  | .gcxContinue .. => true
  | .gcxJobEnd .. => true
  | .gcxPause .. => true
  | .gcxAbort .. => true
  | .slotCmdSubmit .. => true
  | .acceptDurable .. => true
  | .slotNop .. => true
  | .slotRead .. => true
  | .slotWrite .. => true
  | .slotFlush .. => true
  | .slotRelease .. => true
  | .slotVerify .. => true
  | .slotFormat .. => true
  | .slotJread .. => true
  | .writeBuffered .. => true
  | .writeEntryDurable .. => true
  | .writeApplied .. => true
  | .completionPosted .. => true
  | .cqHeadWrite .. => true
  | .frameCommitted .. => true
  | .areaWrite .. => true
  | .tsqAbort .. => true
  | .tsqPwrTarget .. => true
  | .tsqPwrReached .. => true
  | .tsqIdleTimer .. => true
  | .recoveryEnd .. => true
  | .formatEnd .. => true
  | .journalReclaim .. => true
  | .defPop .. => true
  | .defClrOvf .. => true
  | .hbmPlanApply .. => true
  | .hbmPlanDrained .. => true
  | .zeroingEnd .. => true
  | .refreshDue .. => true
  | .hbmScrub _ _ row _ _ _ => decide (row < 16384)
  | .sparingEnd .. => true
  | .hbmWake .. => true
  | .hbmWakeDone .. => true
  | .hbmGo .. => true
  | .helperRunStart .. => true
  | .helperRunEnd _ lanes _ => decide (lanes < 2 ^ 64)
  | .trnDelayWrite .. => true
  | .pcOffline .. => true
  | .pcOnline .. => true
  | .declareFailed .. => true
  | .pcOfflineDrained .. => true
  | .hbmCalUpdate _ _ moves => moves.all (fun m => decide (m.1 < 64) && decide (m.2 < 128))
  | .ctxModeWrite .. => true
  | .ctxSubmit .. => true
  | .codEncode .. => true
  | .codDecode .. => true
  | .codCompat .. => true
  | .codDrain .. => true
  | .codecRowEnd .. => true
  | .codecJobEnd .. => true
  | .sourceWaitTimeout .. => true
  | .ctxPbRet .. => true
  | .ctxAbort .. => true
  | .codecPause .. => true
  | .portUp .. => true
  | .remoteFault .. => true
  | .ethFrameRx _ _ frame _ _ _ _ => decide (60 ≤ frame.length)
  | .htxProdWrite .. => true
  | .htxFrameSent .. => true
  | .sndEnable .. => true
  | .sndDisable .. => true
  | .sndSlotStart .. => true
  | .sndPacketDue .. => true
  | .ancProdWrite .. => true
  | .sesOpen .. => true
  | .sesClose .. => true
  | .sesAbort .. => true
  | .sluiceOpenAck .. => true
  | .sluiceAck .. => true
  | .sluiceCloseAck .. => true
  | .sesRtoExpiry .. => true
  | .sesSegmentSend .. => true
  | .sesHoldRelease .. => true
  | .recOpen .. => true
  | .recData .. => true
  | .recClose .. => true
  | .timIncHiWrite .. => true
  | .timeNowRead .. => true
  | .timStep .. => true
  | .timLoad .. => true
  | .timeAdjApply .. => true
  | .timCtrlWrite .. => true
  | .watchdogExpiry .. => true
  | .timePllLoss .. => true
  | .syncInEdge .. => true
  | .timeRefEdge .. => true
  | .capSoft .. => true
  | .capPop .. => true
  | .capClrOvf .. => true
  | .strobeArm .. => true
  | .strobeDisarm .. => true
  | .strobePulseStart .. => true
  | .strobePulseEnd .. => true
  | .displayFrameStart .. => true
  | .displayLatch .. => true
  | .hpdLoss .. => true
  | .hpdIrqPulse .. => true
  | .auxGo .. => true
  | .auxEnd _ _ bytes => decide (bytes.length ≤ 16)
  | .prqResponse .. => true
  | .prgResponse .. => true
  | .translationWalkEnd master _ addr _ _ _ _ => masterNumber master && decide (addr < 2 ^ 48)
  | .prqTimeout .. => true
  | .atsInvalidate _ addr size => decide (4096 ≤ size) && size % 4096 == 0 && addr % 4096 == 0
  | .xltInvalidate .. => true
  | .xltInvDone .. => true
  | .dmaProdWrite .. => true
  | .dmaDescFetch .. => true
  | .dmaCopy _ chunks _ => decide (0 < chunks)
  | .dmaFill _ chunks => decide (0 < chunks)
  | .dmaCheck _ chunks _ => decide (0 < chunks)
  | .dmaNop .. => true
  | .dmaDescEnd .. => true
  | .dmaReqSoft .. => true
  | .dmaReqWithdraw .. => true
  | .dmaHalt .. => true
  | .dmaResume .. => true
  | .dmaSkip .. => true
  | .dmaAbort .. => true
  | .faultEvent .. => true
  | .bitEventAgeOut .. => true
  | .srcClear source => decide (source < 512)
  | .faultnRelease .. => true
  | .faultnAssert .. => true
  | .faultnMinEnd .. => true
  | .logPop .. => true
  | .logClrOvf .. => true
  | .injArm .. => true
  | .injDisarm .. => true
  | .injExpiry .. => true
  | .testStart .. => true
  | .testStop .. => true
  | .testEnd .. => true
  | .housekeepingRound readings temps => readings.length == 64 && temps.length == 4
  | .thmShutdown .. => true
  | .drainEnd .. => true
  | .shutdownStopped .. => true
  | .supplyLoopWindow .. => true
  | .avsAnswer .. => true
  | .avsRaiseTimeout .. => true
  | .domainSegmentSettled .. => true
  | .paceBudgetWindow .. => true
  | .cntRun .. => true
  | .cntSettled .. => true
  | .clearAll .. => true
  | .cntCfgWrite .. => true
  | .counterRead .. => true
  | .bar2Read addr len _ _ _ => len.val != 0 && decide (addr.val + len.val ≤ 0x4000000000)
  | .bar2Write addr bytes => bytes.length != 0 && decide (addr.val + bytes.length ≤ 0x4000000000)
  | .busMasterEnable .. => true
  | .coldRstNFall .. => true
  | .coldResetEnd .. => true
  | .vddAonRise .. => true
  | .perstNFall .. => true
  | .perstNRise .. => true
  | .warmReset .. => true
  | .warmResetEnd .. => true
  | .flr .. => true
  | .flrEnd .. => true
  | .heldResetStart .. => true
  | .hbmRailDeparture .. => true
  | .coreRailDeparture .. => true
  | .smbIdent .. => true
  | .smbStatus .. => true
  | .smbTemps .. => true
  | .smbVfab .. => true
  | .smbWinAddr .. => true
  | .smbWinDataRead .. => true
  | .smbWinDataWrite .. => true
  | .smbSubsys .. => true
  | .smbusTimeout .. => true
  | .blockLockAcquired .. => true
  | .commaError .. => true
  | .downstreamComma .. => true
  | .headCommaArrival .. => true
  | .headCopyLost .. => true
  | .headCtrlLostTimeout .. => true
  | .downstreamAck .. => true
  | .headFeedFltRise .. => true
  | .timePllRelock .. => true
  | .trefPresentLapse .. => true
  | .syncDisarmCut .. => true
  | .hpdAssert .. => true
  | .witnessBankChange .. => true
  | .remoteFaultClear .. => true
  | .ethFecFailure .. => true
  | .flitReplay .. => true
  | .pcieLinkUp .. => true
  | .pcieLinkRecovery .. => true
  | .atsEnableChange .. => true
  | .priReset .. => true
  | .coreRailRecovery .. => true
  | .prbsCounterSaturation .. => true

end Sys2Proof
end

