-- ==== Sys2Proof/Tests/Slice0.lean ====
section
/-! SUPPORT. Tests: a command that is ill formed in each way that WellFormed refuses; values that the spec works out in its
examples; for every statement with hypotheses a state and operands that meet them. -/

namespace Sys2Proof.Tests

open Sys2Proof Sys2Proof.Machine

set_option maxRecDepth 4000
set_option Elab.async false
set_option linter.unusedVariables false

/-! ### Ill-formed commands -/

theorem test_wf_empty_write : Instr.wf (.registerWrite 0 []) = false := by decide
theorem test_wf_write_past_bar0 : Instr.wf (.registerWrite 0x3FFFFFF [none, none]) = false := by decide
theorem test_wf_empty_read : Instr.wf (.rcRead 0 0) = false := by decide
theorem test_wf_read_past_bar0 : Instr.wf (.rcRead 0x3FFFFFC 5) = false := by decide
theorem test_wf_comma_interval : Instr.wf (.commaReceived 0 0 0 [] 0) = false := by decide
theorem test_wf_stripe_blocks : Instr.wf (.stripeDelivery 0 0 [] ⟨false, none, none⟩) = false := by decide
theorem test_wf_message_slots : Instr.wf (.msgStripe 0 []) = false := by decide
theorem test_wf_pace_counts : Instr.wf (.paceWindowEnd [0]) = false := by decide
theorem test_wf_witness_sample : Instr.wf (.witnessLineEnd 0 [0x1000000] none) = false := by decide
theorem test_wf_scrub_row : Instr.wf (.hbmScrub 0 0 16384 0 0 false) = false := by decide
theorem test_wf_helper_lanes : Instr.wf (.helperRunEnd 0 (2 ^ 64) 0) = false := by decide
theorem test_wf_calibration_move : Instr.wf (.hbmCalUpdate 0 0 [(64, 0)]) = false := by decide
theorem test_wf_short_frame : Instr.wf (.ethFrameRx 0 0 [] false [] 0 0) = false := by decide
theorem test_wf_aux_bytes : Instr.wf (.auxEnd 0 0 (List.replicate 17 0)) = false := by decide
theorem test_wf_walk_master : Instr.wf (.translationWalkEnd 0x1C 0 0 false false false none) = false := by decide
theorem test_wf_walk_address : Instr.wf (.translationWalkEnd 0 0 (2 ^ 48) false false false none) = false := by decide
theorem test_wf_invalidate_size : Instr.wf (.atsInvalidate 0 0 4095) = false := by decide
theorem test_wf_no_copy : Instr.wf (.dmaCopy 0 0 none) = false := by decide
theorem test_wf_no_fill : Instr.wf (.dmaFill 0 0) = false := by decide
theorem test_wf_no_check : Instr.wf (.dmaCheck 0 0 none) = false := by decide
theorem test_wf_clear_source : Instr.wf (.srcClear 512) = false := by decide
theorem test_wf_round_readings : Instr.wf (.housekeepingRound [] [0, 0, 0, 0]) = false := by decide
theorem test_wf_round_temps : Instr.wf (.housekeepingRound (List.replicate 64 (1, 0)) []) = false := by decide
theorem test_wf_empty_bar2_read : Instr.wf (.bar2Read 0 0 false false false) = false := by decide
theorem test_wf_empty_bar2_write : Instr.wf (.bar2Write 0 []) = false := by decide
theorem test_wf_bar2_write_past : Instr.wf (.bar2Write 0x3FFFFFFFFF [0, 0]) = false := by decide

/-! ### Small states -/

def ready : State := { State.reset with hif := { State.reset.hif with memory := true } }
def st (l : List (Nat × Fld × Nat)) : State := l.foldl (fun s x => s.p x.1 x.2.1 x.2.2) ready
def pw (b : Nat) : Nat × Fld × Nat := (b, PAGE_STAT_POWERED, 1)
def en (b : Nat) : Nat × Fld × Nat := (b, PAGE_CTRL_ENABLE, 1)
def fr0 : Frame := ⟨2, 3, 5, 0, 0, 0, 0, 0, ⟨0, 0, 0⟩, 0, 0, 256, 64, 10, 0, []⟩
def sf0 : SliceFrame :=
  ⟨fr0, [], true, 0, [], none, [], [], [], none, none, false, false, false, List.replicate 4 ⟨true, some 0, 0, 65535, 0, 0,
    false, false⟩⟩
def wf0 : WitFrame := ⟨7, ⟨0, 0, 0⟩, 0, 0, [⟨[5], 1, false, false⟩], false, 0, [], [], []⟩
def rf0 : RawFrame := ⟨fr0, 1, some 2, 300, [Strip.fresh 0], false, none, false⟩
def wh (s : State) : State := { s with hbm := { s.hbm with plan := [(0x10000, 0)] } }
def b2 (s : State) : State := { s with hbm := { s.hbm with plan := [(0x10000, 0x2F0000)] } }
def tc0 : TCmd := ⟨1, 9, 3, 0, 0, 1, 0, true, false, false, false, false, [], none, false⟩
def ts (s : State) (c : TCmd) : State := { s with tsq := { s.tsq with cmds := [c], lastCsn := 1 } }
def gj0 : GcxJob := ⟨7, 2, 0, 0, 0, 0, 2, 1, 0x4000, 0, 100, 0, 0, none⟩
def gs (s : State) (j : GcxJob) (m : List Host.Cell := []) : State := { wh s with gcx := { s.gcx with job := some j }, mem := m }
def du0 : DecUnit := ⟨0, 0, 0, 0, 0, false, false, 0, false, 0, 0, 0, 0, [], []⟩
def cj0 : CodJob := newJob 5 [] [] 0 0
def cs (s : State) (c : Nat) (j : CodJob) : State := s.setCx c (fun x => { x with jobs := [j] })
def sd (s : State) (k i : Nat) (x : Sender) : State := s.setSnd k i (fun _ => x)
def x0 : Sender := { Sender.init with regs := [3, 0, 0x1001E, 0, 0, 0, 0, 0], sending := true, priOn := true }
def ss (s : State) (k t : Nat) (x : Session) : State := s.setSes k t (fun _ => x)
def g0 : Segment := ⟨0, 9, 0, 1, 0, 1, 1, false⟩
def tm (s : State) (f : TimState → TimState) : State := { s with tim := f s.tim }
def at_ (s : State) (t : DevTime) : State := { s with time := t }
def dd (op csum : Nat) : DmaDesc :=
  ⟨5, leBytes 4 (op + 64 * csum) ++ leBytes 4 3 ++ leBytes 8 0 ++ leBytes 8 0x4000 ++ [1, 0, 1, 0, 1, 0], none⟩
def ds (s : State) (d : DmaDesc) : State := (wh s).setCh 15 (fun x => { x with descs := [d] })
def dst (l : List (Nat × Fld × Nat)) : State := st ([pw (DMA 15), en (DMA 15)] ++ l)
def xl (s : State) (f : XltState → XltState) : State := { s with xlt := f s.xlt }
def bt (s : State) (f : Bittern → Bittern) : State := { s with bit := f s.bit }

/-! ### Values from the spec's examples -/

/-- The example after R21: 132,710,400 handshakes per second needed, 2.40 G per second counted. -/
theorem test_headroom_12k : headroom 24000 (132710400 * 8000) = 17494 := by decide +kernel

/-- The example of the high-speed head (R18): a fraction is rounded down. -/
theorem test_headroom_high_speed : headroom 23600 (1971322880 * 8000) = 201 := by decide +kernel

/-- R18: a unit with a required rate of zero. -/
theorem test_headroom_idle : headroom 5 0 = 32767 := by decide +kernel

/-- The example of R66: tap T2 of PS3 is CLR_14, with this PAGE_ID at this offset. -/
theorem test_page_id : pageId .clr 14 0 = 0x070E0001 ∧ CLR 14 = 0x6E000 := by decide +kernel

/-- The example of R104: LNK_9. -/
theorem test_lnk_base : LNK 9 = 0x19000 := by decide +kernel

/-- The example of R410: data block 100 lies in stripe 14, member 1. -/
theorem test_block_member : blockMember 100 = (14, 1) := by decide +kernel

/-- The example of R203: two photosites of 12 bits. -/
theorem test_photosites : photosites 12 [0xA3, 0x05, 0x1F] 2 = [0x5A3, 0x1F0] := by decide +kernel

/-- The example of R376: A = 1,900 and N = 10 give k = 8, and e = −300 the 11 bits 110 0101 0111. -/
theorem test_rice : riceK 10 1900 12 = 8 ∧ mapIndex (-300) = 599 ∧ riceCode 12 8 599 = (0b11001010111, 11) := by decide +kernel

/-- The example of R568: the nominal increment is in force after reset. -/
theorem test_nominal_increment : State.reset.timInc = 450359962737050 := by decide +kernel

/-- The example of R99: head lane 4 of head 1 is device lane 16, on the first quad of its chiplet. -/
theorem test_lane_page : lnb 16 = LNK 4 := by decide +kernel

/-! ### One command each -/

/-- The state that a command leaves. -/
def after (c : Instr) (s : State) : State := match exec c s with | .next t => t | _ => s

/-- R47: a write to a reserved offset is reported with cause 5; R43: a second refusal leaves it. -/
theorem test_reserved_offset : (after (.registerWrite (Fin.ofNat _ (TIM + 0xF00)) [some 1, some 0, some 0, some 0])
    (after (.registerWrite (Fin.ofNat _ (TIM + 0xF04)) [some 1, some 0, some 0, some 0]) ready)).rd (TIM + 0xC) = 0xF0450009 := by
  decide +kernel

/-- R45: a write without all its byte enables is ignored with cause 6. -/
theorem test_partial_write : (after (.registerWrite (Fin.ofNat _ (TIM + 0x50)) [some 1, none, some 0, some 0]) ready).rd
    (TIM + 0xC) = 0x05060009 ∧ (after (.registerWrite (Fin.ofNat _ (TIM + 0x50)) [some 1, none, some 0, some 0]) ready).rd (TIM + 0x50) = 0 := by
  decide +kernel

/-- R49: a write that no page owns is reported on the TOP page with cause 7. -/
theorem test_unmapped_write : (after (.registerWrite 0x3FFFF10 [some 1, some 0, some 0, some 0]) ready).g TOP PAGE_STAT_BAD_CAUSE = 7 := by
  decide +kernel

/-- R47: a write of a reserved bit of SCRATCH's neighbour sets nothing; SCRATCH holds what is written (R35). -/
theorem test_scratch : (after (.registerWrite (Fin.ofNat _ (PSL 4 + 0x50)) [some 0x78, some 0x56, some 0x34, some 0x12]) ready).rd
    (PSL 4 + 0x50) = 0x12345678 := by decide +kernel

/-- R45: an access at a misaligned address reads the whole aligned register. -/
theorem test_misaligned_read : (after (.rcRead (Fin.ofNat _ (PWR + 0x10D)) 2) ready).out.head? = some (.barData [0x50, 0x50, 0x50, 0] false) := by
  decide +kernel

/-- A step takes the front of the queue. -/
theorem test_step_front : (match step { ready with pending := [.flitReplay, .thmShutdown] } with
    | .next t => t.g HIF HIF_LINK_CNT_REPLAY == 1 && t.pending == [.thmShutdown] | _ => false) = true := by decide +kernel

/-- R723: a counter wraps at 2^48 and its OVF bit sticks. -/
theorem test_counter_wraps : (({ ready with cnt := List.replicate 256 (2 ^ 48 - 1) } : State).cntAdd 33 2).2.cntOvf 33 = true := by
  decide +kernel

/-- R697: in STOPPED no lane of a head keeps its target. -/
theorem test_stopped_targets : (st [(THM, THM_STAT_STAGE, 2), (LNK 0, PAGE_CTRL_ENABLE, 1), (lnb 0, LNK_LANE_PWR_RX_PSTATE, 0)]).halfTarget 0 false = 3 := by
  decide +kernel

/-! ### States and operands that meet the hypotheses of the statements -/

/-- A gzip stream has eighteen bytes around its blocks, and R400 bounds the blocks. -/
theorem gzip_length (j : GcxJob) (window : Nat) (input : List Byte) (hf : j.format = 2) :
    18 ≤ (gcxCompressed j window input).1.length ∧
      (gcxCompressed j window input).1.length ≤ 18 + (input.length + 5 * cdiv input.length 65535) := by
  simp only [gcxCompressed, hf, List.length_append, List.length_take, List.length_cons, List.length_nil, leBytes]
  omega

/-- A write to HBM is taken by its place and its length, whatever its bytes are. -/
theorem write_ok_of_length (s : State) (m asid a : Nat) (l : List Byte) (lo hi : Nat) (h1 : lo ≤ l.length) (h2 : l.length ≤ hi)
    (h : ∀ k ∈ List.range (hi + 1), lo ≤ k → addrRegion a k = some 0 ∧ (decide (a + k ≤ s.installed) && s.inPlan 17 a k) = true) :
    (s.masterWrite m asid a l).1 = .ok := by
  obtain ⟨hr, hp⟩ := h l.length (List.mem_range.2 (by omega)) h1
  simp [State.masterWrite, hr, State.hbmMasterWrite, hp]

/-- A CRC stays in 32 bits. -/
theorem crcBit_lt (c : Nat) (h : c < 2 ^ 32) : crcBit 0x82F63B78 c < 2 ^ 32 := by
  unfold crcBit
  split
  · exact Nat.xor_lt_two_pow (by omega) (by decide)
  · omega
theorem crcByte_lt (c : Nat) (b : Byte) (h : c < 2 ^ 32) : crcByte 0x82F63B78 c b < 2 ^ 32 := by
  have hb : c ^^^ b.toNat < 2 ^ 32 := Nat.xor_lt_two_pow h (by have := b.isLt; omega)
  unfold crcByte
  iterate 8 apply crcBit_lt
  exact hb
theorem crcFold_lt (l : List Byte) : ∀ c, c < 2 ^ 32 → l.foldl (crcByte 0x82F63B78) c < 2 ^ 32 := by
  induction l with
  | nil => exact fun c h => h
  | cons b r ih => exact fun c h => ih _ (crcByte_lt c b h)
theorem crc32c_lt (l : List Byte) : crc32c l < 2 ^ 32 :=
  Nat.xor_lt_two_pow (crcFold_lt l _ (by decide)) (by decide)
theorem ofBe_beBytes_four (v : Nat) (h : v < 2 ^ 32) : ofBe (beBytes 4 v) = v := by
  simp only [ofBe, beBytes, List.reverse_reverse, leBytes, ofLe, BitVec.toNat_ofNat]
  omega
/-- A message as R551 builds it is whole. -/
theorem sluiceMsg_ok (ty id seq len : Nat) (body : List Byte) (h : ty < 256) (hlen : len = 20 + body.length) :
    sluiceOk (sluiceMsg ty id seq body) ty len = true := by
  subst hlen
  have hl : (sluiceHeader ty id seq ++ body).length = 16 + body.length := by
    simp [sluiceHeader, beBytes, leBytes]; omega
  have ht : (sluiceMsg ty id seq body).take (20 + body.length - 4) = sluiceHeader ty id seq ++ body :=
    (congrArg (List.take · _) rfl).trans (by rw [show 20 + body.length - 4 = (sluiceHeader ty id seq ++ body).length by omega]; exact List.take_left)
  have hc : beAt (sluiceMsg ty id seq body) (20 + body.length - 4) 4 = crc32c (sluiceHeader ty id seq ++ body) := by
    rw [show 20 + body.length - 4 = (sluiceHeader ty id seq ++ body).length by omega]
    unfold beAt slice sluiceMsg
    rw [List.drop_left, List.take_of_length_le (by simp [beBytes, leBytes])]
    exact ofBe_beBytes_four _ (crc32c_lt _)
  have hm : (sluiceMsg ty id seq body).length = 20 + body.length := by
    simp only [sluiceMsg, List.length_append (bs := beBytes _ _), hl]; simp [beBytes, leBytes]; omega
  have hy : beAt (sluiceMsg ty id seq body) 3 1 = ty := by
    have : beAt (sluiceMsg ty id seq body) 3 1 = ofBe (beBytes 1 ty) := rfl
    rw [this]; simp only [ofBe, beBytes, List.reverse_reverse, leBytes, ofLe, BitVec.toNat_ofNat]; omega
  have hs : slice (sluiceMsg ty id seq body) 0 3 = [0x53, 0x4C, 0x01] := rfl
  simp [sluiceOk, hm, hs, hy, hc, ht]

theorem witness_DetectorsAndCheckersFollowTheirCommands :
  (∃ (s : State),
s.canonical = true) ∧
  (∃ (s : State) (lane : Fin 96),
    let b := lnb lane
s.canonical = true ∧ s.ownerOn (lane / 4) = false ∧ s.on b LNK_PRBS_CTRL_CHK_EN = true) ∧
  (∃ (s : State) (lane : Fin 96),
    let b := lnb lane
s.canonical = true ∧ s.on b LNK_PRBS_STAT_LOCK = true ∧ s.on b LNK_PRBS_STAT_SATURATED = false) ∧
  (∃ (s : State) (lane : Fin 96) (errors : Nat),
    let b := lnb lane
s.canonical = true ∧ s.on b LNK_PRBS_STAT_LOCK = true ∧ s.on b LNK_PRBS_STAT_SATURATED = false ∧ 2 ^ 48 - 1 ≤ s.g64 b
      LNK_PRBS_ERR_LO + errors) :=
  ⟨⟨st [(lnb 0, LNK_LANE_STAT_LOS, 1)], by decide +kernel⟩,
   ⟨st [(lnb 0, LNK_PRBS_CTRL_CHK_EN, 1)], 0, by decide +kernel⟩,
   ⟨st [(lnb 95, LNK_PRBS_STAT_LOCK, 1), (lnb 95, LNK_PRBS_ERR_LO, 0xFFFFFFFF)], 95, by decide +kernel⟩,
   ⟨st [(lnb 3, LNK_PRBS_STAT_LOCK, 1)], 3, 2 ^ 48 - 1, by decide +kernel⟩⟩

theorem witness_SamplerCalibratesVisitsAndScans :
  (∃ (s : State) (lane : Fin 96),
    let b := lnb lane
    let k := lane.val / 4
s.canonical = true ∧ s.g b LNK_LANE_STAT_RX_NOW = 0 ∧ (s.quad k).calDue.contains lane.val = false) ∧
  (∃ (s : State) (lane : Fin 96),
    let b := lnb lane
    let k := lane.val / 4
s.canonical = true ∧ s.on b LNK_LANE_STAT_IN_CAL = true ∧ (s.quad k).calDue = [lane.val]) ∧
  (∃ (s : State) (lane : Fin 96),
    let b := lnb lane
    let k := lane.val / 4
s.canonical = true ∧ s.g b LNK_LANE_STAT_RX_NOW = 0 ∧ (s.quad k).calDue = [] ∧ s.on (LNK k) LNK_SCAN_CTRL_START = false) ∧
  (∃ (s : State) (q : Fin 24) (value : Word),
    let v := value.toNat % 2 ^ 31 + 2 ^ 31
s.canonical = true ∧ s.reaches (LNK q + LNK_SCAN_CTRL.off) v = true ∧ s.on (LNK q) LNK_SCAN_CTRL_START = false ∧ s.g (lnb (4 *
      q + v % 4)) LNK_LANE_STAT_RX_NOW = 0 ∧ (s.rxNrz q && fld v 15 2 != 1) = false) ∧
  (∃ (s : State) (q : Fin 24),
s.canonical = true ∧ s.on (LNK q) LNK_SCAN_CTRL_START = true ∧ s.on (LNK q) LNK_SCAN_STAT_WAITING = false ∧ (s.quad q).calDue
      = []) :=
  ⟨⟨st [(lnb 5, LNK_LANE_STAT_RX_NOW, 0)], 5, by decide +kernel⟩,
   ⟨(st [(lnb 5, LNK_LANE_STAT_IN_CAL, 1)]).setQuad 1 (fun x => { x with calDue := [5] }), 5, by decide +kernel⟩,
   ⟨st [(lnb 5, LNK_LANE_STAT_RX_NOW, 0)], 5, by decide +kernel⟩,
   ⟨st [pw (LNK 23), (lnb 93, LNK_LANE_STAT_RX_NOW, 0)], 23, 0x8001, by decide +kernel⟩,
   ⟨st [(LNK 2, LNK_SCAN_CTRL_START, 1)], 2, by decide +kernel⟩⟩

theorem witness_LaneSettingsTakeEffect :
  (∃ (s : State) (q : Fin 24) (value : Word),
    let v := value.toNat
s.canonical = true ∧ s.reaches (LNK q + LNK_QUAD_CFG.off) v = true ∧ s.claimed.ownerOn q = false ∧ v % 2 = 0 ∧ s.g (LNK q)
      LNK_QUAD_CFG_ROLE = 0) ∧
  (∃ (s : State) (lane : Fin 96) (value : Word),
    let b := lnb lane
    let v := value.toNat
s.canonical = true ∧ s.reaches (b + LNK_LANE_PWR.off) v = true ∧ s.claimed.ownerOn (lane / 4) = false ∧ s.enabled (LNK (lane /
      4)) = false ∧ s.g b LNK_LANE_STAT_RX_NOW = 3 ∧ s.g b LNK_LANE_STAT_TX_NOW = 3) ∧
  (∃ (s : State) (lane : Fin 96) (value : Word),
    let b := lnb lane
    let v := value.toNat
s.canonical = true ∧ s.reaches (b + LNK_LANE_PWR.off) v = true ∧ s.claimed.ownerOn (lane / 4) = false ∧ s.enabled (LNK (lane /
      4)) = true ∧ s.g THM THM_STAT_STAGE ≠ 2 ∧ (s.lane lane).rxMove = none ∧ (s.lane lane).txMove = none ∧ s.g b
      LNK_LANE_STAT_RX_NOW ≠ 3 ∧ s.g b LNK_LANE_STAT_TX_NOW ≠ 3 ∧ fld v 0 2 ≠ 3 ∧ fld v 4 2 ≠ 3 ∧ fld v 0 2 ≠ s.g b
      LNK_LANE_STAT_RX_NOW ∧ fld v 4 2 ≠ s.g b LNK_LANE_STAT_TX_NOW) ∧
  (∃ (s : State) (lane : Fin 96) (retry : Bool),
    let b := lnb lane
s.canonical = true ∧ s.reaches (b + LNK_LANE_TRAIN.off) (1 + 2 * b2n retry) = true ∧ s.claimed.ownerRefuses (b +
      LNK_LANE_TRAIN.off) (1 + 2 * b2n retry) = false ∧ s.on b LNK_LANE_STAT_TRAINING = false ∧ (s.lane lane).waking = false ∧
      s.g b LNK_LANE_STAT_RX_NOW = 0) ∧
  (∃ (s : State) (lane : Fin 96) (value : Word),
    let b := lnb lane
    let v := value.toNat
s.canonical = true ∧ s.reaches (b + LNK_PRBS_CTRL.off) (setFld v 6 1 1) = true ∧ s.claimed.ownerOn (lane / 4) = false) ∧
  (∃ (s : State) (lane : Fin 96),
    let b := lnb lane
s.canonical = true ∧ s.reaches (b + LNK_PRBS_INJ.off) 1 = true ∧ s.claimed.ownerOn (lane / 4) = false ∧ s.on b
      LNK_PRBS_CTRL_GEN_EN = true) ∧
  (∃ (s : State) (lane : Fin 96) (rate : Fin 64),
    let b := lnb lane
s.canonical = true ∧ s.reaches (b + LNK_PRBS_INJ.off) (0x100 * rate) = true) ∧
  (∃ (s : State) (h : Fin 4) (p : Nat),
s.canonical = true ∧ (s.quad (3 * h + 2)).ctrlMove = some p) ∧
  (∃ (s : State) (lane : Fin 96),
    let b := lnb lane
s.canonical = true ∧ s.on b LNK_LANE_TRAIN_AUTO_RETRY = true ∧ s.on b LNK_LANE_STAT_TRAIN_FAILED = true ∧ s.on b
      LNK_LANE_STAT_TRAINING = false ∧ (s.lane lane).waking = false ∧ s.g b LNK_LANE_STAT_RX_NOW = 0 ∧ (s.lane lane).searches
      < 6) :=
  ⟨⟨st [pw (LNK 11)], 11, 0xE, by decide +kernel⟩,
   ⟨st [pw (LNK 0), (lnb 1, LNK_LANE_STAT_RX_NOW, 3), (lnb 1, LNK_LANE_STAT_TX_NOW, 3)], 1, 0x12, by decide +kernel⟩,
   ⟨st [pw (LNK 0), en (LNK 0), (lnb 1, LNK_LANE_STAT_RX_NOW, 0), (lnb 1, LNK_LANE_STAT_TX_NOW, 2)], 1, 0x11, by decide +kernel⟩,
   ⟨st [pw (LNK 0), (lnb 1, LNK_LANE_STAT_RX_NOW, 0)], 1, true, by decide +kernel⟩,
   ⟨st [pw (LNK 0), (lnb 1, LNK_PRBS_ERR_LO, 5), (lnb 1, LNK_PRBS_STAT_SATURATED, 1)], 1, 0x20, by decide +kernel⟩,
   ⟨st [pw (LNK 0), (lnb 1, LNK_PRBS_CTRL_GEN_EN, 1)], 1, by decide +kernel⟩,
   ⟨st [pw (LNK 0)], 1, 40, by decide +kernel⟩,
   ⟨ready.setQuad 5 (fun x => { x with ctrlMove := some 7 }), 1, 7, by decide +kernel⟩,
   ⟨st [(lnb 1, LNK_LANE_TRAIN_AUTO_RETRY, 1), (lnb 1, LNK_LANE_STAT_TRAIN_FAILED, 1), (lnb 1, LNK_LANE_STAT_RX_NOW, 0)], 1, by decide +kernel⟩⟩

theorem witness_FirstRefusedWriteIsRecorded :
    (∃ s : State, s.canonical = true ∧ s.on TIM PAGE_STAT_BAD_WRITE = false) ∧
    (∃ s : State, s.canonical = true ∧ s.on TIM PAGE_STAT_BAD_WRITE = true) ∧
    (∃ (s : State) (n : Fin 111), s.canonical = true ∧ s.headerReaches n = true ∧
      s.claimed.ctrlRefused (instOf n.val).1 (instOf n.val).2 (s.claimed.ctrlWith n 0 16) = false ∧
      (s.claimed.g (pageOf n.val) PAGE_CTRL_POWER_REQ = 0 ∨
        (s.claimed.g (pageOf n.val) PAGE_CTRL_POWER_REQ = 1 ∧ instDomain (instOf n.val).1 (instOf n.val).2 = none))) :=
  ⟨⟨ready, by decide +kernel⟩, ⟨ready.badWrite TIM 0x104 5, by decide +kernel⟩, ⟨ready.badWrite TIM 0x104 5, 88, by decide +kernel⟩⟩

theorem witness_NoPowerMeansReadsZeroAndRefusedWrites :
    ∃ (s : State) (off : Fin 0x4000000) (blk : Blk) (i rel : Nat), s.canonical = true ∧ s.hif.memory = true ∧
      s.on TOP TOP_RESET_STAT_WARM_BUSY = false ∧ owner off.val = some ⟨blk, i, rel⟩ ∧ blk.row.switched = true ∧
      0x100 ≤ rel % 0x1000 ∧ off.val % 4 = 0 ∧ s.powered (blk.at i) = false :=
  ⟨st [(TOP, TOP_RESET_STAT_WARM_BUSY, 0)], Fin.ofNat _ (PSL 4 + 0x3FFC), .psl, 4, 0x3FFC, by decide +kernel⟩

theorem witness_EnableStartsAndDisableStops :
  (∃ (s : State) (n : Fin 111),
    let blk := (instOf n.val).1
    let i := (instOf n.val).2
    let p := pageOf n.val
    let u := s.claimed
s.canonical = true ∧ s.headerReaches n = true ∧ s.claimed.g (pageOf n.val) PAGE_CTRL_POWER_REQ < 2 ∧ u.ctrlRefused blk i
      (u.ctrlWith n 0 1) = false ∧ (blk == .dsp) = false ∧ u.enabled p = false) ∧
  (∃ (s : State) (n : Fin 111),
    let blk := (instOf n.val).1
    let i := (instOf n.val).2
    let u := s.claimed
s.canonical = true ∧ s.headerReaches n = true ∧ s.claimed.g (pageOf n.val) PAGE_CTRL_POWER_REQ < 2 ∧ u.ctrlRefused blk i
      (u.ctrlWith n 0 1) = false ∧ blk.row.switched = false ∧ instDomain blk i = none ∧ blk ∈ [.smp, .tim, .bit, .thm, .pwr,
      .cnt]) ∧
  (∃ (s : State) (n : Fin 111),
    let blk := (instOf n.val).1
    let i := (instOf n.val).2
    let p := pageOf n.val
    let u := s.claimed
s.canonical = true ∧ s.headerReaches n = true ∧ s.claimed.g (pageOf n.val) PAGE_CTRL_POWER_REQ < 2 ∧ u.ctrlRefused blk i
      (u.ctrlWith n 1 0) = false ∧ u.enabled p = true) ∧
  (∃ (s : State) (n : Fin 111),
    let blk := (instOf n.val).1
    let i := (instOf n.val).2
    let p := pageOf n.val
    let u := s.claimed
s.canonical = true ∧ s.headerReaches n = true ∧ s.claimed.g (pageOf n.val) PAGE_CTRL_POWER_REQ < 2 ∧ u.ctrlRefused blk i
      (u.ctrlWith n 1 0) = false ∧ blk.row.switched = false ∧ instDomain blk i = none ∧ blk ∈ [.smp, .tim, .bit, .thm, .pwr,
      .cnt] ∧ u.on p PAGE_STAT_COMMIT_PEND = false) ∧
  (∃ (s : State) (n : Fin 111),
    let blk := (instOf n.val).1
    let i := (instOf n.val).2
    let p := pageOf n.val
    let u := s.claimed
s.canonical = true ∧ s.headerReaches n = true ∧ s.claimed.g (pageOf n.val) PAGE_CTRL_POWER_REQ < 2 ∧ u.ctrlRefused blk i
      (u.ctrlWith n 0 2) = false ∧ u.enabled p = false) ∧
  (∃ (s : State) (n : Fin 111),
s.canonical = true ∧ s.headerReaches n = true ∧ s.claimed.g (pageOf n.val) PAGE_CTRL_POWER_REQ < 2) ∧
  (∃ (s : State) (n : Fin 111) (req : Fin 4),
    let blk := (instOf n.val).1
    let i := (instOf n.val).2
    let p := pageOf n.val
    let u := s.claimed
s.canonical = true ∧ s.headerReaches n = true ∧ s.claimed.g (pageOf n.val) PAGE_CTRL_POWER_REQ < 2 ∧ req.val < 2 ∧
      u.ctrlRefused blk i (u.ctrlWith n 12 (4 * req)) = false ∧ u.enabled p = false) ∧
  (∃ (s : State) (n : Fin 111) (req : Fin 4),
    let p := pageOf n.val
    let u := s.claimed
s.canonical = true ∧ s.headerReaches n = true ∧ s.claimed.g (pageOf n.val) PAGE_CTRL_POWER_REQ < 2 ∧ 2 ≤ req.val ∧ u.on p
      PAGE_STAT_BAD_WRITE = false) :=
  ⟨⟨ready, 88, by decide +kernel⟩,
   ⟨ready, 88, by decide +kernel⟩,
   ⟨st [en TIM], 88, by decide +kernel⟩,
   ⟨st [en TIM], 88, by decide +kernel⟩,
   ⟨ready, 88, by decide +kernel⟩,
   ⟨st [(TIM, PAGE_CTRL_SOFT_RESET, 1)], 88, by decide +kernel⟩,
   ⟨ready, 34, 1, by decide +kernel⟩,
   ⟨ready, 34, 2, by decide +kernel⟩⟩

theorem witness_SoftResetReturnsRegisters :
    ∃ (s : State) (blk : Blk) (i rel : Nat), s.canonical = true ∧ i < blk.row.count ∧ rel < blk.row.pages * 0x1000 ∧
      0x100 ≤ rel % 0x1000 ∧ rel ∉ blk.liveOffs :=
  ⟨st [(TIM, IRQ_STAT, 3)], .tim, 0, 0x1FFC, by decide +kernel⟩

theorem witness_CommitCopiesTheWholeSet :
    ∃ (s : State) (blk : Blk) (i num : Nat), s.canonical = true ∧ i < blk.row.count ∧ num < 2 ^ 64 :=
  ⟨ready, .psl, 4, 2 ^ 64 - 1, by decide +kernel⟩

theorem witness_CommitsRevertsAndStops :
  (∃ (s : State) (n : Fin 111),
    let blk := (instOf n.val).1
    let i := (instOf n.val).2
    let p := pageOf n.val
    let u := s.claimed
s.canonical = true ∧ s.headerReaches n = true ∧ u.on p PAGE_STAT_COMMIT_PEND = false ∧ u.commitCheck blk i = (u, false) ∧
      (u.commitAccept blk i false 0).runs blk i = true) ∧
  (∃ (s : State) (n : Fin 111),
    let blk := (instOf n.val).1
    let i := (instOf n.val).2
    let p := pageOf n.val
    let u := s.claimed
s.canonical = true ∧ s.headerReaches n = true ∧ u.on p PAGE_STAT_COMMIT_PEND = false ∧ u.commitCheck blk i = (u, false) ∧
      (u.commitAccept blk i false 0).runs blk i = false) ∧
  (∃ (s : State) (n : Fin 111),
    let p := pageOf n.val
    let u := s.claimed
s.canonical = true ∧ s.headerReaches n = true ∧ u.on p PAGE_STAT_COMMIT_PEND = false) ∧
  (∃ (s : State) (n : Fin 111),
    let blk := (instOf n.val).1
    let i := (instOf n.val).2
    let p := pageOf n.val
s.canonical = true ∧ s.enabled p = false ∧ s.holdsWork blk i = false ∧ s.on p PAGE_STAT_COMMIT_PEND = false ∧ blk ∉ [.ing,
      .wit, .psl]) ∧
  (∃ (s : State) (n : Fin 111),
    let blk := (instOf n.val).1
    let i := (instOf n.val).2
    let p := pageOf n.val
s.canonical = true ∧ s.enabled p = false ∧ s.holdsWork blk i = false ∧ s.on p PAGE_STAT_COMMIT_PEND = false ∧ blk = .ing) :=
  ⟨⟨st [en TIM], 88, by decide +kernel⟩,
   ⟨ready, 88, by decide +kernel⟩,
   ⟨st [(ING 1, ING_GEOM_WIDTH, 64)], 31, by decide +kernel⟩,
   ⟨st [(COD 1, PAGE_STAT_BUSY, 1)], 80, by decide +kernel⟩,
   ⟨st [(ING 1, PAGE_STAT_BUSY, 1)], 31, by decide +kernel⟩⟩

theorem witness_InterruptsAreForcedMergedAndUnmasked :
  (∃ (s : State) (n : Fin 111),
    let blk := (instOf n.val).1
s.canonical = true ∧ s.headerReaches n = true ∧ (blk == .cnt) = false) ∧
  (∃ (s : State) (n : Fin 111) (value : Word),
    let blk := (instOf n.val).1
s.canonical = true ∧ s.headerReaches n = true ∧ (blk == .cnt) = true ∧ value.toNat % 2 = 1) ∧
  (∃ (s : State) (n : Fin 111),
    let p := pageOf n.val
s.canonical = true ∧ s.msix.holdoff.contains p = true ∧ s.msix.due.contains p = false) ∧
  (∃ (s : State) (n : Fin 111),
    let p := pageOf n.val
s.canonical = true ∧ s.msix.holdoff.contains p = true ∧ s.msix.due.contains p = true ∧ s.g p IRQ_HOLDOFF ≠ 0 ∧ s.vectorOpen
      (s.g p IRQ_VEC) = true ∧ s.masterOn = true) ∧
  (∃ (s : State),
s.canonical = true ∧ s.msix.pba = []) ∧
  (∃ (s : State) (enable : Bool) (fmask : Bool) (vector : Fin 256),
s.canonical = true ∧ s.msix.pba = [vector.val] ∧ enable = true ∧ fmask = false ∧ s.msixWord (16 * vector.val + 12) = 0 ∧
      s.masterOn = true) :=
  ⟨⟨st [(TIM, IRQ_STAT, 1), (TIM, IRQ_EN, 0xF)], 88, by decide +kernel⟩,
   ⟨ready, 110, 3, by decide +kernel⟩,
   ⟨{ ready with msix := { ready.msix with holdoff := [TIM] } }, 88, by decide +kernel⟩,
   ⟨{ st [(TIM, IRQ_HOLDOFF, 5), (TIM, IRQ_VEC, 7), (HIF, HIF_LINK_STAT_BME, 1)] with msix := { ready.msix with holdoff := [TIM], due := [TIM], enable := true, table := [(16 * 7 + 12, 0)] } }, 88, by decide +kernel⟩,
   ⟨ready, by decide +kernel⟩,
   ⟨{ st [(HIF, HIF_LINK_STAT_BME, 1)] with msix := { ready.msix with pba := [255], table := [(16 * 255 + 12, 0)] } }, true, false, 255, by decide +kernel⟩⟩

theorem witness_CountersRunAndClear :
  (∃ (s : State) (run : Bool) (userEn : Bool),
    let v := b2n run + 2 * b2n userEn
s.canonical = true ∧ s.reaches (CNT + CNT_CTRL.off) v = true) ∧
  (∃ (s : State),
    let clear := b2n (s.on CNT CNT_CTRL_RUN) + 2 * b2n (s.on CNT CNT_CTRL_USER_EN) + 4
s.canonical = true ∧ s.reaches (CNT + CNT_CTRL.off) clear = true) ∧
  (∃ (s : State) (n : Fin 256) (value : Word),
    let cfg := CNT + 0x1100 + 4 * n.val
s.canonical = true ∧ s.reaches cfg value.toNat = true) ∧
  (∃ (s : State),
    let r := (s.count { cls := 4, ev := 3 }).count { cls := 4, ev := 0, amount := 8, user := some false }
s.canonical = true ∧ s.hif.memory = true ∧ r.on TOP TOP_RESET_STAT_WARM_BUSY = false) :=
  ⟨⟨st [(CNT, CNT_STAT_SETTLED, 1)], true, true, by decide +kernel⟩,
   ⟨{ st [(CNT, CNT_OVF, 0x80000001), (CNT, CNT_CTRL_RUN, 1)] with cnt := List.replicate 256 5 }, by decide +kernel⟩,
   ⟨ready, 255, 0x80000034, by decide +kernel⟩,
   ⟨{ ready with cnt := List.replicate 256 0x123456789ABC }, by decide +kernel⟩⟩

theorem witness_CountersWrapAndStick :
    (∃ (s : State) (n : Fin 256) (amount : Nat), s.canonical = true ∧ 2 ^ 48 ≤ nth 0 s.cnt n.val + amount) ∧
    (∃ (s : State) (n : Fin 256) (amount : Nat), s.canonical = true ∧ nth 0 s.cnt n.val + amount < 2 ^ 48) :=
  ⟨⟨{ ready with cnt := List.replicate 256 (2 ^ 48 - 1) }, 255, 1, by decide +kernel⟩,
   ⟨{ ready with cnt := List.replicate 256 (2 ^ 48 - 2) }, 255, 1, by decide +kernel⟩⟩

theorem witness_UserWindowShowsOnlyPermittedCounters :
    (∃ (s : State) (n : Nat), s.canonical = true ∧ n < 256 ∧ s.on CNT CNT_CTRL_USER_EN = true ∧
      s.gBit (CNT + 4 * (n / 32)) CNT_USER (n % 32) = true) ∧
    (∃ (s : State) (n : Nat), s.canonical = true ∧ n < 256 ∧
      (s.on CNT CNT_CTRL_USER_EN = false ∨ s.gBit (CNT + 4 * (n / 32)) CNT_USER (n % 32) = false)) :=
  ⟨⟨st [(CNT, CNT_CTRL_USER_EN, 1), (CNT + 28, CNT_USER, 0x80000000)], 255, by decide +kernel⟩, ⟨ready, 0, by decide +kernel⟩⟩

theorem witness_HostAccessesReadAndWriteRegisters :
  (∃ (s : State) (off : Fin 0x4000000) (n : Fin 111),
    let p := pageOf n.val
s.canonical = true ∧ s.headerReaches n = true ∧ off.val = p + SCRATCH.off) ∧
  (∃ (s : State) (off : Fin 0x4000000) (value : Word) (q : Fin 24),
s.canonical = true ∧ s.reaches off.val value.toNat = true ∧ off.val = LNK q + LNK_DET_CFG.off) ∧
  (∃ (s : State) (off : Fin 0x4000000) (q : Fin 24),
s.canonical = true ∧ s.hif.memory = true ∧ s.on TOP TOP_RESET_STAT_WARM_BUSY = false ∧ off.val = LNK q + LNK_DET_CFG.off ∧
      s.on (LNK q) PAGE_STAT_BAD_WRITE = false) ∧
  (∃ (s : State) (off : Fin 0x4000000) (h : Fin 4),
s.canonical = true ∧ s.hif.memory = true ∧ s.on TOP TOP_RESET_STAT_WARM_BUSY = false ∧ s.powered (CWY h) = true ∧ off.val =
      CWY h + CWY_PROTO_ERR.off) :=
  ⟨⟨ready, 0xE0050, 88, by decide +kernel⟩,
   ⟨st [pw (LNK 23)], 0x27110, 0xFF332211, 23, by decide +kernel⟩,
   ⟨st [(TOP, TOP_RESET_STAT_WARM_BUSY, 0)], 0x27110, 23, by decide +kernel⟩,
   ⟨st [(CWY 3, CWY_PROTO_ERR, 77)], 0x36120, 3, by decide +kernel⟩⟩

theorem witness_LaneEventsReachTheOwner :
  (∃ (s : State) (lane : Fin 96),
    let b := lnb lane
    let k := lane.val / 4
s.canonical = true ∧ s.g b LNK_LANE_STAT_RX_NOW = 0 ∧ s.on b LNK_LANE_STAT_LOS = false ∧ s.on b LNK_LANE_STAT_TRAINING = false
      ∧ (s.quadOwner k).1 ≠ 1) ∧
  (∃ (s : State) (lane : Fin 96),
    let b := lnb lane
s.canonical = true ∧ s.on b LNK_LANE_STAT_LOS = true) ∧
  (∃ (s : State) (lane : Fin 96),
    let b := lnb lane
    let k := lane.val / 4
s.canonical = true ∧ s.g b LNK_LANE_STAT_RX_NOW = 0 ∧ s.on b LNK_LANE_STAT_LOL = false ∧ s.on b LNK_LANE_STAT_TRAINING = false
      ∧ (s.quadOwner k).1 ≠ 1 ∧ (s.quadOwner k).1 ≠ 2) ∧
  (∃ (s : State) (lane : Fin 96),
    let b := lnb lane
    let k := lane.val / 4
s.canonical = true ∧ s.g b LNK_LANE_STAT_RX_NOW = 0 ∧ s.on b LNK_LANE_STAT_LOS = false ∧ s.on b LNK_LANE_STAT_TRAINING = false
      ∧ (s.quadOwner k).1 = 1 ∧ s.linkLive (lane.val / 12) = true ∧ (s.cl (lane.val / 12) (lane.val % 12)).trained = true) ∧
  (∃ (s : State) (lane : Fin 96) (errors : Bool) (height : Byte) (width : Byte) (p : Nat),
    let b := lnb lane
    let k := lane.val / 4
s.canonical = true ∧ (s.lane lane).trying = some p ∧ s.cwyLane lane = false ∧ errors = false ∧ s.on b LNK_LANE_STAT_LOS =
      false ∧ s.on b LNK_LANE_STAT_LOL = false ∧ s.g (LNK k) LNK_DET_CFG_EYE_MIN_H ≤ height.toNat ∧ s.g (LNK k)
      LNK_DET_CFG_EYE_MIN_W ≤ width.toNat) ∧
  (∃ (s : State) (lane : Fin 96) (errors : Bool) (r : List Nat) (p : Nat),
    let b := lnb lane
s.canonical = true ∧ (s.lane lane).trying = some 0 ∧ (s.lane lane).searchLeft = p :: r ∧ s.cwyLane lane = false ∧ errors =
      true ∧ s.on b LNK_LANE_STAT_LOS = false ∧ s.on b LNK_LANE_STAT_LOL = false) ∧
  (∃ (s : State) (lane : Fin 96),
    let b := lnb lane
    let k := lane.val / 4
s.canonical = true ∧ s.on b LNK_LANE_STAT_TRAINING = true ∧ s.cwyLane lane = false ∧ (s.quadOwner k).1 = 2) ∧
  (∃ (s : State) (q : Fin 24) (pllB : Bool),
    let mine := if pllB then LNK_QUAD_STAT_PLL_B_LOCK else LNK_QUAD_STAT_PLL_A_LOCK
    let other := if pllB then LNK_QUAD_STAT_PLL_A_LOCK else LNK_QUAD_STAT_PLL_B_LOCK
s.canonical = true ∧ s.powered (LNK q) = true ∧ s.on (LNK q) mine = true ∧ s.on (LNK q) other = true ∧ s.g (LNK q)
      LNK_QUAD_STAT_PLL_ACTIVE = b2n pllB) ∧
  (∃ (s : State) (q : Fin 24) (pllB : Bool),
    let other := if pllB then LNK_QUAD_STAT_PLL_A_LOCK else LNK_QUAD_STAT_PLL_B_LOCK
s.canonical = true ∧ (s.quad q).relock = [b2n pllB] ∧ s.on (LNK q) other = true) :=
  ⟨⟨st [(lnb 82, LNK_LANE_STAT_RX_NOW, 0), (lnb 82, LNK_EVT_CNT_LOS_CNT, 255)], 82, by decide +kernel⟩,
   ⟨st [(lnb 82, LNK_LANE_STAT_RX_NOW, 0), (lnb 82, LNK_LANE_STAT_LOS, 1)], 82, by decide +kernel⟩,
   ⟨st [(lnb 82, LNK_LANE_STAT_RX_NOW, 0), (lnb 82, LNK_LANE_STAT_LOL, 0)], 82, by decide +kernel⟩,
   ⟨(st [(lnb 13, LNK_LANE_STAT_RX_NOW, 0), (CWY 1, CWY_STAT_STATE, 5)]).setCw 1 (fun c => { c with lanes := List.replicate 12 { CLane.init with trained := true, commaLock := true } }), 13, by decide +kernel⟩,
   ⟨(st [(LNK 13, LNK_DET_CFG_EYE_MIN_H, 9), (LNK 13, LNK_DET_CFG_EYE_MIN_W, 255)]).setLane 53 (fun l => { l with trying := some 7 }), 53, false, 9, 255, 7, by decide +kernel⟩,
   ⟨(ready).setLane 53 (fun l => { l with trying := some 0, searchLeft := [3] }), 53, true, [], 3, by decide +kernel⟩,
   ⟨st [(lnb 53, LNK_LANE_STAT_TRAINING, 1)], 53, by decide +kernel⟩,
   ⟨st [pw (LNK 3), (LNK 3, LNK_QUAD_STAT_PLL_A_LOCK, 1), (LNK 3, LNK_QUAD_STAT_PLL_B_LOCK, 1), (LNK 3, LNK_QUAD_STAT_PLL_ACTIVE, 1)], 3, true, by decide +kernel⟩,
   ⟨(st [pw (LNK 3), (LNK 3, LNK_QUAD_STAT_PLL_A_LOCK, 0), (LNK 3, LNK_QUAD_STAT_PLL_B_LOCK, 1), (LNK 3, LNK_QUAD_STAT_PLL_ACTIVE, 1)]).setQuad 3 (fun x => { x with relock := [0] }), 3, false, by decide +kernel⟩⟩

theorem witness_CommasAndStripesAreJudged :
  (∃ (s : State) (h : Fin 4) (lane : Fin 12) (payload : BitVec 128) (skewPs : Nat),
    let p := payload.toNat
s.canonical = true ∧ 3 ≤ s.linkState h ∧ s.linkState h ≤ 5 ∧ s.on (lnb (12 * h + lane)) LNK_LANE_STAT_TRAINING = false ∧ fld p
      0 8 = 0xC5 ∧ fld p 8 64 = 0xA7F10C3E5B92D468 ∧ fld p 72 4 = lane ∧ (s.cl h lane).commaLock = false ∧ (s.cl h
      lane).blockLock = true ∧ (s.cl h lane).sfc = some ((fld p 80 24 + 2 ^ 24 - 1) % 2 ^ 24) ∧ (s.cw h).remap = none ∧ skewPs
      ≤ 40000) ∧
  (∃ (s : State) (h : Fin 4),
s.canonical = true ∧ (s.linkState h < 3 ∨ 5 < s.linkState h)) ∧
  (∃ (s : State) (h : Fin 4) (lane : Fin 12),
s.canonical = true ∧ 3 ≤ s.linkState h ∧ s.linkState h ≤ 5 ∧ s.on (lnb (12 * h + lane)) LNK_LANE_STAT_TRAINING = false ∧ (s.cl
      h lane).missed = 0) ∧
  (∃ (s : State) (h : Fin 4) (lane : Fin 12),
s.canonical = true ∧ 3 ≤ s.linkState h ∧ s.linkState h ≤ 5 ∧ s.on (lnb (12 * h + lane)) LNK_LANE_STAT_TRAINING = false ∧ (s.cl
      h lane).syncErr < 3) ∧
  (∃ (s : State) (h : Fin 4) (number : BitVec 34) (blocks : List (BitVec 130)),
s.canonical = true ∧ s.linkLive h = true ∧ s.linkUp h = false ∧ number.toNat % 1024 ≠ 0 ∧ resolve ((List.range 11).map
      (s.roleBlock h number.toNat blocks)) = none) ∧
  (∃ (s : State) (number : BitVec 34),
s.canonical = true ∧ number.toNat % 1024 = 0) :=
  ⟨⟨(st [(CWY 2, CWY_STAT_STATE, 3)]).setCl 2 11 (fun l => { l with blockLock := true, sfc := some (2 ^ 24 - 1) }), 2, 11, BitVec.ofNat 128 (0xC5 + 2 ^ 8 * 0xA7F10C3E5B92D468 + 2 ^ 72 * 11), 40000, by decide +kernel⟩,
   ⟨st [(CWY 2, CWY_STAT_STATE, 6)], 2, by decide +kernel⟩,
   ⟨st [(CWY 2, CWY_STAT_STATE, 4), (CWY 2 + 4, CWY_LANE_ERR_COMMA_ERR, 255)], 2, 1, by decide +kernel⟩,
   ⟨(st [(CWY 2, CWY_STAT_STATE, 4)]).setCl 2 11 (fun l => { l with syncErr := 2 }), 2, 11, by decide +kernel⟩,
   ⟨st [(CWY 2, CWY_STAT_STATE, 4)], 2, 1, [], by decide +kernel⟩,
   ⟨st [(CWY 2, CWY_STAT_STATE, 5)], 2048, by decide +kernel⟩⟩

theorem witness_EthernetPortsAndHostRings :
  (∃ (s : State) (k : Fin 4) (j : Fin 2),
    let b := ETH k
s.canonical = true ∧ s.enabled b = true ∧ s.portExists k j = true ∧ s.portUp k j = false ∧ (s.ethUnit k).remote.contains j.val
      = false ∧ s.lanesReady k j = true ∧ (List.range 32).all (fun n => !s.sessionOpen (n / 8) (n % 8)) = true) ∧
  (∃ (s : State) (k : Fin 4) (j : Fin 2),
    let b := ETH k
s.canonical = true ∧ s.enabled b = true ∧ s.portExists k j = true ∧ s.portUp k j = false) ∧
  (∃ (s : State) (k : Fin 4) (j : Fin 2),
    let b := ETH k
s.canonical = true ∧ s.enabled b = true ∧ s.portExists k j = true ∧ (s.ethUnit k).remote = [j.val]) ∧
  (∃ (s : State) (lane : Fin 96) (m : Nat × Nat),
s.canonical = true ∧ s.portOfLane lane = some m ∧ s.portUp m.1 m.2 = true ∧ s.enabled (ETH m.1) = false) ∧
  (∃ (s : State) (k : Fin 4) (j : Fin 2),
    let b := ETH k
s.canonical = true ∧ s.enabled b = true ∧ s.portUp k j = true) ∧
  (∃ (s : State) (k : Fin 4) (j : Fin 2) (frame : List Byte),
    let b := ETH k
s.canonical = true ∧ s.enabled b = true ∧ s.portUp k j = true ∧ frame.length + 4 ≤ s.maxFrame k ∧ (layers frame).type = 0x8808
      ∧ (layers frame).udp = none) ∧
  (∃ (s : State) (k : Fin 4) (value : Word),
    let b := ETH k
    let v := value.toNat
s.canonical = true ∧ s.reaches (b + ETH_HTX_PROD.off) v = true ∧ (v + 2 ^ 32 - s.g b ETH_HTX_DONE) % 2 ^ 32 ≤ 2 ^ s.g b
      ETH_HTX_CFG_LOG2) ∧
  (∃ (s : State) (k : Fin 4) (value : Word),
    let b := ETH k
    let v := value.toNat
s.canonical = true ∧ s.reaches (b + ETH_HTX_PROD.off) v = true ∧ 2 ^ s.g b ETH_HTX_CFG_LOG2 < (v + 2 ^ 32 - s.g b
      ETH_HTX_DONE) % 2 ^ 32 ∧ s.on b PAGE_STAT_BAD_WRITE = false) ∧
  (∃ (s : State) (k : Fin 4),
    let b := ETH k
s.canonical = true ∧ s.g b ETH_HTX_DONE = s.g b ETH_HTX_PROD) :=
  ⟨⟨st [en (ETH 1), (ETH 1, ETH_PORT_CFG_IF, 2), (LNK 14, PAGE_STAT_POWERED, 1), (LNK 15, PAGE_STAT_POWERED, 1), (lnb 56, LNK_LANE_STAT_RX_NOW, 0), (lnb 57, LNK_LANE_STAT_RX_NOW, 0), (lnb 58, LNK_LANE_STAT_RX_NOW, 0), (lnb 59, LNK_LANE_STAT_RX_NOW, 0), (lnb 60, LNK_LANE_STAT_RX_NOW, 0), (lnb 61, LNK_LANE_STAT_RX_NOW, 0), (lnb 62, LNK_LANE_STAT_RX_NOW, 0), (lnb 63, LNK_LANE_STAT_RX_NOW, 0)], 1, 0, by decide +kernel⟩,
   ⟨st [en (ETH 1)], 1, 0, by decide +kernel⟩,
   ⟨(st [en (ETH 1), (ETH 1, ETH_PORT_STAT_REMOTE_FAULT, 1)]).setEth 1 (fun u => { u with remote := [0] }), 1, 0, by decide +kernel⟩,
   ⟨st [(ETH 1, ETH_PORT_STAT_UP_0, 1)], 56, (1, 0), by decide +kernel⟩,
   ⟨st [en (ETH 1), (ETH 1, ETH_PORT_STAT_UP_0, 1)], 1, 0, by decide +kernel⟩,
   ⟨st [en (ETH 1), (ETH 1, ETH_PORT_STAT_UP_0, 1), (ETH 1, ETH_PORT_CFG_MAX_FRAME, 1518)], 1, 0, zeros 12 ++ [0x88, 0x08] ++ zeros 46, by decide +kernel⟩,
   ⟨st [pw (ETH 1), (ETH 1, ETH_HTX_DONE, 2 ^ 32 - 1), (ETH 1, ETH_HTX_CFG_LOG2, 4)], 1, 15, by decide +kernel⟩,
   ⟨st [pw (ETH 1), (ETH 1, ETH_HTX_DONE, 2 ^ 32 - 1), (ETH 1, ETH_HTX_CFG_LOG2, 4)], 1, 16, by decide +kernel⟩,
   ⟨st [en (ETH 1)], 1, by decide +kernel⟩⟩

theorem witness_UpstreamMessagesAreAnsweredAndActedOn :
  (∃ (s : State) (h : Fin 4) (seq : BitVec 16),
    let c := s.cw h
    let queued := c.rxq.length < 64
s.canonical = true ∧ s.linkLive h = true ∧ seq.toNat = (s.cw h).rxSeq ∧ s.linkUp h = true ∧ queued) ∧
  (∃ (s : State) (h : Fin 4) (seq : BitVec 16) (addr : BitVec 24),
    let c := s.cw h
s.canonical = true ∧ s.linkLive h = true ∧ seq.toNat = (s.cw h).rxSeq ∧ s.linkState h = 4 ∧ addr.toNat % 4 = 0 ∧ addr.toNat <
      0x14 ∧ 1 < c.caps) ∧
  (∃ (s : State) (h : Fin 4) (seq : BitVec 16) (id : BitVec 16) (p : Probe),
    let c := s.cw h
s.canonical = true ∧ s.linkLive h = true ∧ seq.toNat = (s.cw h).rxSeq ∧ c.probe = some p ∧ p.id = id.toNat) ∧
  (∃ (s : State) (h : Fin 4) (seq : BitVec 16) (id : BitVec 16) (copyB : Bool) (p : Probe) (t2 : Nat),
    let c := s.cw h
s.canonical = true ∧ s.linkLive h = true ∧ seq.toNat = (s.cw h).rxSeq ∧ c.probe = some p ∧ p.id = id.toNat ∧ p.t2 = some (t2,
      copyB) ∧ s.hsState h = 0) ∧
  (∃ (s : State) (h : Fin 4) (seq : BitVec 16),
s.canonical = true ∧ s.linkLive h = true ∧ seq.toNat = (s.cw h).rxSeq) ∧
  (∃ (s : State) (h : Fin 4) (seq : BitVec 16) (id : BitVec 16),
s.canonical = true ∧ s.linkLive h = true ∧ seq.toNat = (s.cw h).rxSeq ∧ s.g (ING h) ING_SET_STAT_SET_ID = id.toNat ∧ s.g (ING
      h) ING_SET_STAT_STATE = 1) ∧
  (∃ (s : State) (h : Fin 4) (seq : BitVec 16) (id : BitVec 16),
s.canonical = true ∧ s.linkLive h = true ∧ seq.toNat = (s.cw h).rxSeq ∧ s.g (ING h) ING_SET_STAT_SET_ID = id.toNat ∧ s.g (ING
      h) ING_SET_STAT_STATE = 1) ∧
  (∃ (s : State) (h : Fin 4) (seq : BitVec 16) (code : Byte),
    let c := s.cw h
    let queued := c.rxq.length < 64
s.canonical = true ∧ s.linkLive h = true ∧ seq.toNat = (s.cw h).rxSeq ∧ code.toNat ≠ 1 ∧ code.toNat ≠ 2 ∧ queued) ∧
  (∃ (s : State) (h : Fin 4) (seq : BitVec 16),
s.canonical = true ∧ s.linkLive h = true ∧ seq.toNat = (s.cw h).rxSeq) :=
  ⟨⟨st [(CWY 3, CWY_STAT_STATE, 5)], 3, 0, by decide +kernel⟩,
   ⟨(st [(CWY 3, CWY_STAT_STATE, 4)]).setCw 3 (fun c => { c with caps := 2 }), 3, 0, 0x10, by decide +kernel⟩,
   ⟨(st [(CWY 0, CWY_STAT_STATE, 5)]).setCw 0 (fun c => { c with probe := some ⟨9, 100, none, 0⟩ }), 0, 0, 9, ⟨9, 100, none, 0⟩, by decide +kernel⟩,
   ⟨(st [(CWY 0, CWY_STAT_STATE, 5)]).setCw 0 (fun c => { c with probe := some ⟨9, 100, some (70000, true), 9999⟩ }), 0, 0, 9, true, ⟨9, 100, some (70000, true), 9999⟩, 70000, by decide +kernel⟩,
   ⟨st [(CWY 0, CWY_STAT_STATE, 5)], 0, 0, by decide +kernel⟩,
   ⟨st [(CWY 0, CWY_STAT_STATE, 5), (ING 0, ING_SET_STAT_SET_ID, 5), (ING 0, ING_SET_STAT_STATE, 1)], 0, 0, 5, by decide +kernel⟩,
   ⟨st [(CWY 0, CWY_STAT_STATE, 5), (ING 0, ING_SET_STAT_SET_ID, 5), (ING 0, ING_SET_STAT_STATE, 1)], 0, 0, 5, by decide +kernel⟩,
   ⟨st [(CWY 0, CWY_STAT_STATE, 5)], 0, 0, 3, by decide +kernel⟩,
   ⟨(st [(CWY 0, CWY_STAT_STATE, 4)]).setCw 0 (fun c => { c with rxSeq := 65535 }), 0, 65535, by decide +kernel⟩⟩

theorem witness_DownstreamMessagesAreSentAndAnswered :
  (∃ (s : State) (h : Fin 4),
    let b := CWY h
    let c := s.cw h
    let mtype := s.g b CWY_TXQ_TYPE_MTYPE
s.canonical = true ∧ s.reaches (b + CWY_TXQ_PUSH.off) 1 = true ∧ s.g b CWY_TXQ_STAT_FREE ≠ 0 ∧ s.linkUp h = true ∧ hostMsgType
      mtype = true ∧ c.queue = [] ∧ c.unans.length < 32) ∧
  (∃ (s : State) (h : Fin 4) (seq : BitVec 16) (m : DMsg),
    let c := s.cw h
s.canonical = true ∧ s.linkLive h = true ∧ c.unans.find? (fun x => x.seq == seq.toNat) = some m ∧ m.owner ≠ 1 ∧ c.queue = []) ∧
  (∃ (s : State) (h : Fin 4) (seq : BitVec 16) (m : DMsg),
    let c := s.cw h
s.canonical = true ∧ s.linkLive h = true ∧ c.unans.find? (fun x => x.seq == seq.toNat) = some m ∧ m.owner = 1 ∧ c.queue = []) ∧
  (∃ (s : State) (h : Fin 4) (seq : BitVec 16) (reason : Byte) (m : DMsg),
    let c := s.cw h
s.canonical = true ∧ s.linkLive h = true ∧ c.unans.find? (fun x => x.seq == seq.toNat) = some m ∧ m.owner = 1 ∧ c.queue = [] ∧
      c.rxq.length < 64 ∧ reason.toNat ≠ 0) ∧
  (∃ (s : State) (h : Fin 4),
    let b := CWY h
s.canonical = true ∧ s.reaches (b + CWY_RXQ_POP.off) 1 = true) ∧
  (∃ (s : State) (h : Fin 4),
    let c := s.cw h
s.canonical = true ∧ s.linkLive h = true ∧ c.unans ≠ [] ∧ c.resends < 8) ∧
  (∃ (s : State) (slot : BitVec 128),
s.canonical = true ∧ fld slot.toNat 0 8 = 0x3A ∧ fld slot.toNat 8 8 = 1 ∧ crc16 slot.toNat 112 = fld slot.toNat 112 16) :=
  ⟨⟨st [(CWY 2, CWY_STAT_STATE, 5), (CWY 2, CWY_TXQ_TYPE_MTYPE, 0x40), (CWY 2, CWY_TXQ_BODY, 3)], 2, by decide +kernel⟩,
   ⟨(st [(CWY 2, CWY_STAT_STATE, 5)]).setCw 2 (fun c => { c with unans := [⟨7, 0x20, 0, 0⟩, ⟨8, 0x20, 0, 0⟩], resends := 3 }), 2, 8, ⟨8, 0x20, 0, 0⟩, by decide +kernel⟩,
   ⟨(st [(CWY 2, CWY_STAT_STATE, 5), (CWY 2, CWY_TXQ_STAT_ANSWERED, 65535)]).setCw 2 (fun c => { c with unans := [⟨7, 0x20, 0, 0⟩, ⟨8, 0x10, 0, 1⟩], resends := 3 }), 2, 8, ⟨8, 0x10, 0, 1⟩, by decide +kernel⟩,
   ⟨(st [(CWY 2, CWY_STAT_STATE, 5)]).setCw 2 (fun c => { c with unans := [⟨8, 0x10, 0, 1⟩] }), 2, 8, 4, ⟨8, 0x10, 0, 1⟩, by decide +kernel⟩,
   ⟨ready.setCw 2 (fun c => { c with rxq := [⟨1, true, 2, 3⟩, ⟨4, false, 5, 6⟩] }), 2, by decide +kernel⟩,
   ⟨(st [(CWY 2, CWY_STAT_STATE, 5)]).setCw 2 (fun c => { c with unans := [⟨7, 0x20, 0, 0⟩, ⟨8, 0x20, 0, 0⟩], resends := 7 }), 2, by decide +kernel⟩,
   ⟨ready, BitVec.ofNat 128 (0x8013A + 2 ^ 112 * crc16 0x8013A 112), by decide +kernel⟩⟩

theorem witness_LinkAndFeedFollowTheirEvents :
  (∃ (s : State) (h : Fin 4),
    let b := CWY h
s.canonical = true ∧ s.reaches (b + CWY_FEED_CTRL.off) 1 = true ∧ s.g b CWY_FEED_STAT_HOLDOFF = 0 ∧ s.on b CWY_FEED_STAT_FLT =
      false ∧ s.on b CWY_FEED_STAT_EN = false ∧ s.claimed.feedWaits h = true) ∧
  (∃ (s : State) (h : Fin 4),
    let b := CWY h
s.canonical = true ∧ s.reaches (b + CWY_FEED_CTRL.off) 1 = true ∧ s.g b CWY_FEED_STAT_HOLDOFF = 0 ∧ s.on b CWY_FEED_STAT_FLT =
      false ∧ s.on b CWY_FEED_STAT_EN = false ∧ s.claimed.feedWaits h = false ∧ s.enabled b = false) ∧
  (∃ (s : State) (h : Fin 4),
    let b := CWY h
s.canonical = true ∧ s.on b CWY_FEED_STAT_PENDING = true ∧ (List.range h).any (fun i => s.on (CWY i) CWY_FEED_STAT_PENDING) =
      false ∧ s.on b CWY_FEED_STAT_EN = false ∧ s.enabled b = false) ∧
  (∃ (s : State) (h : Fin 4),
    let b := CWY h
s.canonical = true ∧ s.reaches (b + CWY_FEED_CTRL.off) 2 = true ∧ s.on b CWY_FEED_STAT_EN = true ∧ s.linkLive h = false) ∧
  (∃ (s : State) (h : Fin 4),
s.canonical = true ∧ s.linkState h = 0) ∧
  (∃ (s : State) (h : Fin 4),
s.canonical = true ∧ s.linkState h = 1) ∧
  (∃ (s : State) (h : Fin 4),
    let c := s.cw h
s.canonical = true ∧ s.linkState h = 3 ∧ (List.range 12).all (fun j => s.aligned h j) = true ∧ c.queue = [] ∧ c.unans = []) ∧
  (∃ (s : State) (h : Fin 4) (value : Word),
    let b := CWY h
s.canonical = true ∧ s.reaches (b + CWY_CTRL.off) (setFld value.toNat 2 1 1) = true ∧ s.linkState h = 6 ∧ s.on b
      CWY_FEED_STAT_EN = true) ∧
  (∃ (s : State) (h : Fin 4) (r : Nat) (l : Nat),
    let c := s.cw h
s.canonical = true ∧ c.replace = some r ∧ c.standby = some l ∧ s.linkLive h = true ∧ (s.cl h l).commaLock = true ∧ s.on (lnb
      (12 * h + l)) LNK_LANE_STAT_TRAINING = false) :=
  ⟨⟨(st [(CWY 1, CWY_FEED_STAT_EN, 1)]).setCw 1 (fun c => { c with feedAt := some 0 }), 0, by decide +kernel⟩,
   ⟨ready, 3, by decide +kernel⟩,
   ⟨st [(CWY 2, CWY_FEED_STAT_PENDING, 1), (CWY 3, CWY_FEED_STAT_PENDING, 1)], 2, by decide +kernel⟩,
   ⟨st [(CWY 2, CWY_FEED_STAT_EN, 1), (CWY 2, CWY_STAT_STATE, 6)], 2, by decide +kernel⟩,
   ⟨st [(CWY 2, CWY_FEED_STAT_EN, 1)], 2, by decide +kernel⟩,
   ⟨st [(CWY 2, CWY_STAT_STATE, 1)], 2, by decide +kernel⟩,
   ⟨(st [(CWY 2, CWY_STAT_STATE, 3)]).setCw 2 (fun c => { c with lanes := List.replicate 12 { CLane.init with trained := true, commaLock := true } }), 2, by decide +kernel⟩,
   ⟨st [(CWY 2, CWY_STAT_STATE, 6), (CWY 2, CWY_FEED_STAT_EN, 1)], 2, 1, by decide +kernel⟩,
   ⟨(st [(CWY 2, CWY_STAT_STATE, 5), (CWY 2, CWY_SFC, 0xFFFFFF)]).setCw 2 (fun c => { c with replace := some 3, lanes := List.replicate 12 { CLane.init with trained := true, commaLock := true } }), 2, 3, 11, by decide +kernel⟩⟩

theorem witness_ProbesCommasAndTheHeadServo :
  (∃ (s : State) (h : Fin 4),
    let b := CWY h
    let c := s.cw h
s.canonical = true ∧ s.linkUp h = true ∧ s.g b CWY_PROBE_CFG_PERIOD ≠ 0 ∧ c.queue = [] ∧ c.unans.length < 32) ∧
  (∃ (s : State) (h : Fin 4),
    let c := s.cw h
s.canonical = true ∧ c.probe.isSome = true) ∧
  (∃ (s : State) (h : Fin 4),
    let c := s.cw h
s.canonical = true ∧ s.linkState h ≠ 0 ∧ c.servo.change = none) ∧
  (∃ (s : State) (h : Fin 4),
s.canonical = true ∧ s.hsState h = 3) :=
  ⟨⟨(st [(CWY 2, CWY_STAT_STATE, 5), (CWY 2, CWY_PROBE_CFG_PERIOD, 1)]).setCw 2 (fun c => { c with probeId := 65535 }), 2, by decide +kernel⟩,
   ⟨(st [(hsb 2, TIM_HS_LOST, 2 ^ 32 - 1)]).setCw 2 (fun c => { c with probe := some ⟨9, 100, none, 0⟩ }), 2, by decide +kernel⟩,
   ⟨(st [(CWY 2, CWY_STAT_STATE, 5)]).setCw 2 (fun c => { c with downSfc := 2 ^ 24 - 1 }), 2, by decide +kernel⟩,
   ⟨st [(hsb 2, TIM_HS_STAT_STATE, 3)], 2, by decide +kernel⟩⟩

theorem witness_SequencedMessagesActAtTheHead :
  (∃ (s : State) (h : Fin 4) (seq : BitVec 16) (addr : BitVec 24),
    let x := s.hd h
s.canonical = true ∧ seq.toNat = x.rxSeq ∧ headBadAddr addr.toNat true = false) ∧
  (∃ (s : State) (h : Fin 4) (seq : BitVec 16) (addr : BitVec 24),
    let x := s.hd h
s.canonical = true ∧ seq.toNat = x.rxSeq ∧ headBadAddr addr.toNat true = true) ∧
  (∃ (s : State) (h : Fin 4) (seq : BitVec 16),
    let x := s.hd h
s.canonical = true ∧ 0 < (x.rxSeq + 65536 - seq.toNat) % 65536 ∧ 0x8000 ≤ (x.rxSeq + 65536 - seq.toNat) % 65536) ∧
  (∃ (s : State) (h : Fin 4) (seq : BitVec 16),
    let x := s.hd h
s.canonical = true ∧ 0 < (x.rxSeq + 65536 - seq.toNat) % 65536 ∧ (x.rxSeq + 65536 - seq.toNat) % 65536 < 0x8000 ∧
      x.answers.find? (fun a => a.1 == seq.toNat) = some (seq.toNat, 0)) ∧
  (∃ (s : State) (h : Fin 4) (seq : BitVec 16) (addr : BitVec 24),
    let x := s.hd h
    let room := x.unans.length < 31 ∧ x.wait = []
s.canonical = true ∧ seq.toNat = x.rxSeq ∧ headBadAddr addr.toNat false = false ∧ room) ∧
  (∃ (s : State) (h : Fin 4) (seq : BitVec 16) (addr : BitVec 24),
    let x := s.hd h
s.canonical = true ∧ seq.toNat = x.rxSeq ∧ headBadAddr addr.toNat true = false) ∧
  (∃ (s : State) (h : Fin 4) (seq : BitVec 16) (hfc : Word) (setId : BitVec 16) (count : BitVec 16),
    let x := s.hd h
s.canonical = true ∧ seq.toNat = x.rxSeq ∧ (x.sets.filter (fun w => w.1 == setId.toNat)).length = count.toNat ∧ (hfc.toNat + 2
      ^ 32 - x.hfc) % 2 ^ 32 < 0x80000000) ∧
  (∃ (s : State) (h : Fin 4) (seq : BitVec 16) (setId : BitVec 16) (count : BitVec 16),
    let x := s.hd h
s.canonical = true ∧ seq.toNat = x.rxSeq ∧ (x.sets.filter (fun w => w.1 == setId.toNat)).length ≠ count.toNat) ∧
  (∃ (s : State) (h : Fin 4) (seq : BitVec 16),
    let x := s.hd h
s.canonical = true ∧ seq.toNat = x.rxSeq ∧ x.unans.length < 31 ∧ x.wait = []) ∧
  (∃ (s : State) (h : Fin 4) (seq : BitVec 16),
    let x := s.hd h
s.canonical = true ∧ seq.toNat = x.rxSeq) ∧
  (∃ (s : State) (h : Fin 4) (seq : BitVec 16) (sfc : BitVec 24),
    let x := s.hd h
    let due := (sfc.toNat + 2 ^ 24 - x.lastSfc) % 2 ^ 24
s.canonical = true ∧ seq.toNat = x.rxSeq ∧ 0 < due ∧ due < 2 ^ 23) ∧
  (∃ (s : State) (h : Fin 4) (seq : BitVec 16) (sfc : BitVec 24),
    let x := s.hd h
    let due := (sfc.toNat + 2 ^ 24 - x.lastSfc) % 2 ^ 24
s.canonical = true ∧ seq.toNat = x.rxSeq ∧ 0 < due ∧ due < 2 ^ 23) ∧
  (∃ (s : State) (h : Fin 4) (seq : BitVec 16) (sfc : BitVec 24),
    let x := s.hd h
    let due := (sfc.toNat + 2 ^ 24 - x.lastSfc) % 2 ^ 24
s.canonical = true ∧ seq.toNat = x.rxSeq ∧ (due = 0 ∨ 2 ^ 23 ≤ due)) ∧
  (∃ (s : State) (h : Fin 4) (seq : BitVec 16),
    let x := s.hd h
s.canonical = true ∧ seq.toNat = x.rxSeq) ∧
  (∃ (s : State) (h : Fin 4) (seq : BitVec 16),
    let x := s.hd h
s.canonical = true ∧ seq.toNat = x.rxSeq) ∧
  (∃ (s : State) (h : Fin 4) (seq : BitVec 16) (ns : Word) (secLo : BitVec 16) (frac : BitVec 16),
    let x := s.hd h
    let start := x.resolve secLo.toNat ns.toNat frac.toNat
s.canonical = true ∧ seq.toNat = x.rxSeq ∧ x.now + x.lead ≤ start ∧ x.lastStart = none ∧ x.sched = []) ∧
  (∃ (s : State) (h : Fin 4) (seq : BitVec 16) (ns : Word) (secLo : BitVec 16) (frac : BitVec 16),
    let x := s.hd h
    let start := x.resolve secLo.toNat ns.toNat frac.toNat
s.canonical = true ∧ seq.toNat = x.rxSeq ∧ start < x.now + x.lead) ∧
  (∃ (s : State) (h : Fin 4) (seq : BitVec 16),
    let x := s.hd h
s.canonical = true ∧ seq.toNat = x.rxSeq) ∧
  (∃ (s : State) (h : Fin 4) (seq : BitVec 16) (ns : Word) (secLo : BitVec 16) (frac : BitVec 16),
    let x := s.hd h
    let start := x.resolve secLo.toNat ns.toNat frac.toNat
s.canonical = true ∧ seq.toNat = x.rxSeq ∧ x.now + x.lead ≤ start) ∧
  (∃ (s : State) (h : Fin 4) (seq : BitVec 16) (ns : Word) (secLo : BitVec 16) (frac : BitVec 16),
    let x := s.hd h
    let start := x.resolve secLo.toNat ns.toNat frac.toNat
s.canonical = true ∧ seq.toNat = x.rxSeq ∧ x.now + x.lead ≤ start ∧ x.lastStart = none ∧ x.sched = [] ∧ x.least ≤ x.period.1) ∧
  (∃ (s : State) (h : Fin 4) (seq : BitVec 16),
    let x := s.hd h
s.canonical = true ∧ seq.toNat = x.rxSeq) :=
  ⟨⟨(ready).setHd 2 (fun x => { x with rxSeq := 65535 }), 2, 65535, 0x100, by decide +kernel⟩,
   ⟨ready, 2, 0, 0x102, by decide +kernel⟩,
   ⟨ready, 2, 1, by decide +kernel⟩,
   ⟨(ready).setHd 2 (fun x => { x with answers := [(65535, 0)] }), 2, 65535, by decide +kernel⟩,
   ⟨(ready).setHd 2 (fun x => { x with regs := [(0x104, 9)], unans := List.range 30 }), 2, 0, 0x104, by decide +kernel⟩,
   ⟨ready, 0, 0, 0x100, by decide +kernel⟩,
   ⟨(ready).setHd 2 (fun x => { x with sets := [(7, 0x100, 1), (8, 0x100, 2)], hfc := 5 }), 2, 0, 5, 7, 1, by decide +kernel⟩,
   ⟨(ready).setHd 2 (fun x => { x with sets := [(7, 0x100, 1), (8, 0x100, 2)] }), 2, 0, 7, 2, by decide +kernel⟩,
   ⟨(ready).setHd 2 (fun x => { x with time := 2 ^ 90 + 2 ^ 32, unans := List.range 30, txSeq := 65535 }), 2, 0, by decide +kernel⟩,
   ⟨ready, 0, 0, by decide +kernel⟩,
   ⟨(ready).setHd 2 (fun x => { x with lastSfc := 2 ^ 24 - 1 }), 2, 0, 3, by decide +kernel⟩,
   ⟨(ready).setHd 2 (fun x => { x with lastSfc := 2 ^ 24 - 1 }), 2, 0, 0, by decide +kernel⟩,
   ⟨(ready).setHd 2 (fun x => { x with lastSfc := 2 ^ 24 - 1 }), 2, 0, 0xFFFFFF, by decide +kernel⟩,
   ⟨ready, 0, 0, by decide +kernel⟩,
   ⟨ready, 0, 0, by decide +kernel⟩,
   ⟨ready, 0, 0, 5, 1, 1, by decide +kernel⟩,
   ⟨(ready).setHd 2 (fun x => { x with caps := [0, 0, 0, 0, 10] }), 2, 0, 9999, 0, 0, by decide +kernel⟩,
   ⟨(ready).setHd 2 (fun x => { x with sched := [⟨5, 5, none⟩] }), 2, 0, by decide +kernel⟩,
   ⟨(ready).setHd 2 (fun x => { x with sched := [⟨5, 5, none⟩] }), 2, 0, 1, 0, 0, by decide +kernel⟩,
   ⟨(ready).setHd 2 (fun x => { x with period := (655360, 0), minFrame := 655360 }), 2, 0, 5, 1, 1, by decide +kernel⟩,
   ⟨ready, 0, 0, by decide +kernel⟩⟩

theorem witness_HeadsFollowTheirLanesCopiesAndExposures :
  (∃ (s : State),
s.canonical = true) ∧
  (∃ (s : State),
s.canonical = true) ∧
  (∃ (s : State) (h : Fin 4),
    let x := s.hd h
s.canonical = true ∧ x.roles.length = 12) ∧
  (∃ (s : State) (h : Fin 4),
    let x := s.hd h
s.canonical = true ∧ x.roles.length = 12) ∧
  (∃ (s : State) (h : Fin 4) (c : Schedule),
    let x := s.hd h
s.canonical = true ∧ x.sched = [c] ∧ x.run = true ∧ x.due = []) ∧
  (∃ (s : State) (h : Fin 4) (c : Schedule),
    let x := s.hd h
s.canonical = true ∧ x.sched = [c] ∧ x.run = false ∧ c.left = none ∧ 0 < c.period) ∧
  (∃ (s : State) (h : Fin 4) (copyB : Bool) (role16 : Fin 16),
    let x := s.hd h
s.canonical = true ∧ x.copy copyB = false ∧ role16.val < 12 ∧ x.unans.length < 32 ∧ x.wait = [] ∧ x.stopped = false ∧ x.adj =
      none) ∧
  (∃ (s : State) (h : Fin 4) (copyB : Bool),
    let x := s.hd h
s.canonical = true ∧ x.copy copyB = true ∧ x.unans.length < 32 ∧ x.wait = []) ∧
  (∃ (s : State) (h : Fin 4),
    let x := s.hd h
s.canonical = true ∧ x.copies = (false, false)) ∧
  (∃ (s : State) (h : Fin 4),
    let x := s.hd h
s.canonical = true ∧ x.copies ≠ (false, false)) ∧
  (∃ (s : State) (h : Fin 4),
    let x := s.hd h
s.canonical = true ∧ x.wait = []) :=
  ⟨⟨ready, by decide +kernel⟩,
   ⟨ready, by decide +kernel⟩,
   ⟨ready, 0, by decide +kernel⟩,
   ⟨ready, 0, by decide +kernel⟩,
   ⟨(ready).setHd 2 (fun x => { x with sched := [⟨10, 5, none⟩], run := true, hfc := 2 ^ 32 - 1 }), 2, ⟨10, 5, none⟩, by decide +kernel⟩,
   ⟨(ready).setHd 2 (fun x => { x with sched := [⟨10, 5, none⟩] }), 2, ⟨10, 5, none⟩, by decide +kernel⟩,
   ⟨(ready).setHd 2 (fun x => { x with txSeq := 9 }), 2, true, 11, by decide +kernel⟩,
   ⟨(ready).setHd 2 (fun x => { x with copies := (true, true) }), 2, true, by decide +kernel⟩,
   ⟨ready, 0, by decide +kernel⟩,
   ⟨(ready).setHd 2 (fun x => { x with copies := (false, true) }), 2, by decide +kernel⟩,
   ⟨(ready).setHd 2 (fun x => { x with unans := [3, 4, 5] }), 2, by decide +kernel⟩⟩

theorem witness_IngestFramesLinesAndNumbers :
  (∃ (s : State) (h : Fin 4) (hfc : Word),
    let b := ING h
    let x := s.ig h
s.canonical = true ∧ s.enabled b = true ∧ x.cur = none ∧ x.line = none ∧ x.hasHfc = true ∧ x.rebase = false ∧ hfc.toNat = (s.g
      b ING_LAST_HFC + 1) % 2 ^ 32 ∧ s.latched b = false ∧ s.boundSlice h = 7 ∧ s.g THM THM_STAT_STAGE = 0 ∧ s.g PWR
      PWR_SHED_STEP ≠ 11 ∧ s.rawOf h = []) ∧
  (∃ (s : State) (h : Fin 4),
    let b := ING h
    let x := s.ig h
s.canonical = true ∧ s.enabled b = false ∧ x.cur = none ∧ x.line = none) ∧
  (∃ (s : State) (h : Fin 4) (hfc : Word) (width : BitVec 16) (num : BitVec 16) (lines : BitVec 16) (depth : Fin 4) (f : Frame),
    let x := s.ig h
    let n := cdiv (width.toNat * f.depth) 1280
s.canonical = true ∧ x.cur = some f ∧ x.line = none ∧ f.lines.length < f.h ∧ hfc.toNat = f.hfc ∧ num.toNat = f.lines.length ∧
      0 < n) ∧
  (∃ (s : State) (h : Fin 4) (f : Frame) (l : OpenLine),
    let x := s.ig h
s.canonical = true ∧ x.cur = some f ∧ x.line = some l ∧ 1 < l.left) ∧
  (∃ (s : State) (h : Fin 4) (f : Frame),
    let x := s.ig h
s.canonical = true ∧ x.cur = some f ∧ x.line = none) ∧
  (∃ (s : State) (h : Fin 4) (hfc : Word) (flags : Byte) (f : Frame),
    let b := ING h
    let x := s.ig h
s.canonical = true ∧ x.cur = some f ∧ x.line = none ∧ hfc.toNat = f.hfc ∧ f.flags = 0 ∧ s.boundSlice h = 7 ∧ s.enabled b =
      true ∧ s.rawFrame h f.seq = none ∧ s.on b PAGE_STAT_COMMIT_PEND = false) ∧
  (∃ (s : State) (h : Fin 4) (hfc : Word) (f : Frame),
    let x := s.ig h
s.canonical = true ∧ x.cur = some f ∧ hfc.toNat ≠ f.hfc) ∧
  (∃ (s : State) (h : Fin 4) (flags : Byte) (f : Frame),
    let b := ING h
    let x := s.ig h
s.canonical = true ∧ x.cur = some f ∧ f.flags = 0 ∧ s.boundSlice h = 7 ∧ s.enabled b = true ∧ s.rawFrame h f.seq = none ∧ s.on
      b PAGE_STAT_COMMIT_PEND = false) ∧
  (∃ (s : State) (h : Fin 4) (f : Frame),
    let b := ING h
    let x := s.ig h
s.canonical = true ∧ s.enabled b = false ∧ x.cur = some f ∧ x.log = [] ∧ s.boundSlice h = 7 ∧ s.rawFrame h f.seq = none ∧ s.on
      b PAGE_STAT_COMMIT_PEND = false) ∧
  (∃ (s : State) (h : Fin 4),
    let b := ING h
s.canonical = true ∧ s.enabled b = true) ∧
  (∃ (s : State) (h : Fin 4),
    let x := s.ig h
s.canonical = true ∧ x.stats = []) ∧
  (∃ (s : State) (h : Fin 4) (j : StatJob) (js : List StatJob),
    let x := s.ig h
s.canonical = true ∧ x.stats = j :: js) ∧
  (∃ (s : State) (h : Fin 4) (v : BitVec 64),
    let b := ING h
    let next := s.g64 b ING_NEXT_SEQ_LO
s.canonical = true ∧ s.reaches (b + ING_NEXT_SEQ_LO.off) (v.toNat % 2 ^ 32) 8 = true ∧ s.enabled b = false ∧ s.busy b = false
      ∧ next ≤ v.toNat) ∧
  (∃ (s : State) (h : Fin 4) (v : BitVec 64),
    let b := ING h
    let next := s.g64 b ING_NEXT_SEQ_LO
s.canonical = true ∧ s.reaches (b + ING_NEXT_SEQ_LO.off) (v.toNat % 2 ^ 32) 8 = true ∧ v.toNat < next ∧ s.on b
      PAGE_STAT_BAD_WRITE = false) ∧
  (∃ (s : State) (h : Fin 4),
    let b := ING h
s.canonical = true ∧ s.reaches (b + ING_ABN_CTRL.off) 1 = true) ∧
  (∃ (s : State) (h : Fin 4),
    let b := ING h
s.canonical = true ∧ s.reaches (b + ING_ABN_CTRL.off) 2 = true) :=
  ⟨⟨(st [en (ING 2), (ING 2, ING_LAST_HFC, 2 ^ 32 - 1), (ING 2, ING_STAT_SLICE, 7), (ING 2, ING_NEXT_SEQ_LO, 2 ^ 32 - 1)]).setIg 2 (fun x => { x with hasHfc := true }), 2, 0, by decide +kernel⟩,
   ⟨ready, 0, by decide +kernel⟩,
   ⟨(ready).setIg 2 (fun x => { x with cur := some fr0 }), 2, 5, 256, 0, 0, 0, fr0, by decide +kernel⟩,
   ⟨(ready).setIg 2 (fun x => { x with cur := some fr0, line := some ⟨256, 3, [], true⟩ }), 2, fr0, ⟨256, 3, [], true⟩, by decide +kernel⟩,
   ⟨(ready).setIg 2 (fun x => { x with cur := some fr0 }), 2, fr0, by decide +kernel⟩,
   ⟨(st [en (ING 2), (ING 2, ING_STAT_SLICE, 7), (ING 2, ING_FRAME_ERR_CUT, 255)]).setIg 2 (fun x => { x with cur := some fr0 }), 2, 5, 0, fr0, by decide +kernel⟩,
   ⟨(ready).setIg 2 (fun x => { x with cur := some fr0 }), 2, 6, fr0, by decide +kernel⟩,
   ⟨(st [en (ING 2), (ING 2, ING_STAT_SLICE, 7), (ING 2, ING_FRAME_ERR2_NO_END, 255)]).setIg 2 (fun x => { x with cur := some fr0 }), 2, 0, fr0, by decide +kernel⟩,
   ⟨(st [(ING 2, ING_STAT_SLICE, 7)]).setIg 2 (fun x => { x with cur := some fr0 }), 2, fr0, by decide +kernel⟩,
   ⟨(st [en (ING 2)]).setIg 2 (fun x => { x with cur := some fr0 }), 2, by decide +kernel⟩,
   ⟨ready, 0, by decide +kernel⟩,
   ⟨(ready).setIg 2 (fun x => { x with stats := [⟨{ fr0 with lines := [⟨[5, 900], 2, false, false⟩] }, 65535, 0, 0, []⟩], statNext := 2 ^ 32 - 1 }), 2, ⟨{ fr0 with lines := [⟨[5, 900], 2, false, false⟩] }, 65535, 0, 0, []⟩, [], by decide +kernel⟩,
   ⟨st [(ING 2, ING_NEXT_SEQ_LO, 5)], 2, 0xFFFFFFFFFFFFFFFF, by decide +kernel⟩,
   ⟨st [(ING 2, ING_NEXT_SEQ_LO, 5)], 2, 4, by decide +kernel⟩,
   ⟨(ready).setIg 2 (fun x => { x with log := [(1, 1, 4), (3, 5, 7)] }), 2, by decide +kernel⟩,
   ⟨st [(ING 2, ING_ABN_STAT_OVERFLOW, 1)], 2, by decide +kernel⟩⟩

theorem witness_SlicesReleaseRecomputeAndLoad :
  (∃ (s : State) (q : Recompute) (r : List Recompute),
s.canonical = true ∧ s.recompute = q :: r ∧ q.slice < 5 ∧ q.stage ≠ 0 ∧ q.both = false) ∧
  (∃ (s : State),
s.canonical = true ∧ s.recompute = []) ∧
  (∃ (s : State) (q : Recompute) (r : List Recompute),
s.canonical = true ∧ s.recompute = q :: r ∧ q.slice < 5) ∧
  (∃ (s : State),
s.canonical = true ∧ s.g PWR PWR_SHED_STEP = 0 ∧ s.spareReady = true ∧ s.recompute = []) ∧
  (∃ (s : State),
s.canonical = true) ∧
  (∃ (s : State) (p : Fin 5) (u : Fin 4) (f : SliceFrame),
s.canonical = true ∧ s.releasing p u = some f ∧ f.lineReady (f.tap p u) (f.run u).next = true ∧ s.g BIT BIT_INJ_STAT_STATE ≠
      1) ∧
  (∃ (s : State) (p : Fin 5) (u : Fin 4),
s.canonical = true ∧ s.releasing p u = none) ∧
  (∃ (s : State) (p : Fin 5),
    let b := PSL p
s.canonical = true ∧ s.reaches (b + PSL_TBL_LOAD.off) 1 = true ∧ s.on b PAGE_STAT_COMMIT_PEND = false ∧ s.g b
      PSL_TBL_STAT_STATE ≠ 1) ∧
  (∃ (s : State) (p : Fin 5),
    let b := PSL p
s.canonical = true ∧ s.reaches (b + PSL_TBL_LOAD.off) 1 = true ∧ s.g b PSL_TBL_STAT_STATE = 1 ∧ s.on b PAGE_STAT_BAD_WRITE =
      false) ∧
  (∃ (s : State) (p : Fin 5),
    let b := PSL p
s.canonical = true ∧ s.g b PSL_TBL_STAT_STATE = 1) ∧
  (∃ (s : State) (p : Fin 5),
    let b := PSL p
    let base := s.rd (b + PSL_TBL_BASE_LO_REG.off) + 2 ^ 32 * s.rd (b + PSL_TBL_BASE_HI.off)
s.canonical = true ∧ s.spanRuns p = false ∧ s.g b PSL_TBL_STAT_STATE = 1 ∧ s.hbmInside base 0x26800 = false) ∧
  (∃ (s : State) (p : Fin 5),
s.canonical = true ∧ s.spanRuns p = true) ∧
  (∃ (s : State) (p : Fin 5) (u : Fin 4) (v : Word),
    let tb := tapBase p u
    let n := fld v.toNat 0 5
s.canonical = true ∧ s.reaches (tb + PSL_TAP_BUF_FREE.off) v.toNat = true ∧ n + s.g tb PSL_TAP_BUF_FREE ≤ (s.tapActive p
      u).nbuf ∧ (s.tapActive p u).nbuf ≤ 16) ∧
  (∃ (s : State) (p : Fin 5) (u : Fin 4) (v : Word),
    let b := PSL p
    let tb := tapBase p u
    let n := fld v.toNat 0 5
s.canonical = true ∧ s.reaches (tb + 0x2188) v.toNat = true ∧ (s.tapActive p u).nbuf < n + s.g tb PSL_TAP_BUF_FREE ∧ s.on b
      PAGE_STAT_BAD_WRITE = false) :=
  ⟨⟨{ ready with recompute := [⟨3, none, 7, 2, 1, 5, false, true, true, false⟩] }, ⟨3, none, 7, 2, 1, 5, false, true, true, false⟩, [], by decide +kernel⟩,
   ⟨ready, by decide +kernel⟩,
   ⟨{ ready with recompute := [⟨3, none, 7, 2, 1, 5, false, true, true, false⟩] }, ⟨3, none, 7, 2, 1, 5, false, true, true, false⟩, [], by decide +kernel⟩,
   ⟨st [pw (PSL 4), (PSL 4, PSL_STAT_SPARE, 1)], by decide +kernel⟩,
   ⟨st [pw (PSL 4), (PSL 4, PSL_STAT_SPARE, 1)], by decide +kernel⟩,
   ⟨(ready).setSlice 3 (fun x => { x with frames := [sf0] }), 3, 2, sf0, by decide +kernel⟩,
   ⟨ready, 0, 0, by decide +kernel⟩,
   ⟨(st [pw (PSL 3)]).setSlice 3 (fun x => { x with tblPend := some [7] }), 3, by decide +kernel⟩,
   ⟨st [pw (PSL 3), (PSL 3, PSL_TBL_STAT_STATE, 1)], 3, by decide +kernel⟩,
   ⟨st [(PSL 3, PSL_TBL_STAT_STATE, 1)], 3, by decide +kernel⟩,
   ⟨st [(PSL 3, PSL_TBL_STAT_STATE, 1), (PSL 3, PSL_TBL_LOAD_START, 1)], 3, by decide +kernel⟩,
   ⟨(st [(PSL 3, PSL_STAT_BOUND, 1), (PSL 3, PSL_STAT_HEAD, 2), (PSL 3, PSL_TBL_STAT_STATE, 1)]).setSlice 3 (fun x => { x with handAt := some 0 }), 3, by decide +kernel⟩,
   ⟨(st [pw (PSL 3)]), 3, 3, 0, by decide +kernel⟩,
   ⟨(st [pw (PSL 3)]), 3, 3, 31, by decide +kernel⟩⟩

theorem witness_ColourTablesLoadGenerateAndRefill :
  (∃ (s : State) (i : Fin 28),
    let b := CLR i
    let off := b + CLR_LOAD.off
s.canonical = true ∧ s.reaches off 1 = true ∧ s.claimed.clrLoadRefused i 1 = false) ∧
  (∃ (s : State) (i : Fin 28),
    let b := CLR i
    let off := b + CLR_LOAD.off
s.canonical = true ∧ s.reaches off 1 = true ∧ s.claimed.clrLoadRefused i 1 = true ∧ s.on b PAGE_STAT_BAD_WRITE = false) ∧
  (∃ (s : State) (i : Fin 28),
    let b := CLR i
    let off := b + CLR_LOAD.off
s.canonical = true ∧ s.reaches off 2 = true ∧ s.claimed.clrLoadRefused i 2 = false) ∧
  (∃ (s : State) (i : Fin 28),
    let b := CLR i
    let off := b + CLR_LOAD.off
s.canonical = true ∧ s.reaches off 4 = true ∧ s.claimed.clrLoadRefused i 4 = false) ∧
  (∃ (s : State),
s.canonical = true) ∧
  (∃ (s : State) (i : Fin 28) (gs : Nat × Nat × Nat × Nat × Nat),
    let b := CLR i
    let c := s.clrOf i
s.canonical = true ∧ s.on b CLR_TBL_STAT_WAITING = false ∧ s.g b CLR_TBL_STAT_CURVE_STATE = 1 ∧ s.on b CLR_LOAD_GEN = true ∧
      c.gen = some gs) ∧
  (∃ (s : State) (i : Fin 28),
    let b := CLR i
s.canonical = true ∧ s.on b CLR_TBL_STAT_WAITING = false ∧ s.g b CLR_TBL_STAT_LUT_STATE = 1 ∧ s.hbmInside (s.g64 b
      CLR_LUT_BASE_LO) 2471625 = false) ∧
  (∃ (s : State) (i : Fin 28) (granule : Fin 192) (active : Bool) (k : Nat) (o : Nat) (r : SRec),
    let c := s.clrOf i
s.canonical = true ∧ s.sump.pend = [(k, o, granule.val)] ∧ nth ⟨0, 0, 0, 0, 0, []⟩ s.sump.recs k = r ∧ r.kind = 4 ∧ r.inst =
      i.val ∧ s.sump.filled = [] ∧ (if active then c.curveA else c.curveP).bytes = none ∧ s.consumerStopped r = false) :=
  ⟨⟨st [pw (CLR 27), (CLR 27, CLR_TBL_STAT_CURVE_COPIES, 2)], 27, by decide +kernel⟩,
   ⟨st [pw (CLR 27), (CLR 27, CLR_TBL_STAT_CURVE_STATE, 1)], 27, by decide +kernel⟩,
   ⟨st [pw (CLR 27), (CLR 27, CLR_TBL_STAT_LUT_COPIES, 2)], 27, by decide +kernel⟩,
   ⟨st [pw (CLR 27), (CLR 27, CLR_TBL_STAT_CURVE_COPIES, 2)], 27, by decide +kernel⟩,
   ⟨st [(CLR 27, CLR_TBL_STAT_WAITING, 1)], by decide +kernel⟩,
   ⟨(st [(CLR 27, CLR_TBL_STAT_CURVE_STATE, 1), (CLR 27, CLR_LOAD_GEN, 1)]).setClr 27 (fun c => { c with gen := some (0, 1, 0, 0, 0) }), 27, (0, 1, 0, 0, 0), by decide +kernel⟩,
   ⟨st [(CLR 27, CLR_TBL_STAT_LUT_STATE, 1)], 27, by decide +kernel⟩,
   ⟨{ (st [en (PSL 3)]) with sump := { State.reset.sump with recs := [⟨4, 12, 0, 0, 0, [7]⟩], pend := [(0, 3, 191)] } }, 12, 191, true, 0, 3, ⟨4, 12, 0, 0, 0, [7]⟩, by decide +kernel⟩⟩

theorem witness_WitnessPortsTakeFramesAndLines :
  (∃ (s : State) (w : Fin 4),
    let b := WIT w
    let x := s.wit w
s.canonical = true ∧ x.clock = 0 ∧ s.enabled b = true ∧ x.cur = none ∧ x.stopped = false ∧ s.latched b = false ∧ s.latched
      (CLR (20 + 2 * w)) = false ∧ s.latched (CLR (21 + 2 * w)) = false ∧ s.g THM THM_STAT_STAGE = 0) ∧
  (∃ (s : State) (w : Fin 4),
    let b := WIT w
s.canonical = true ∧ s.enabled b = false ∧ s.busy b = false) ∧
  (∃ (s : State) (w : Fin 4) (samples : List Nat) (f : WitFrame),
    let b := WIT w
    let x := s.wit w
s.canonical = true ∧ x.clock = 0 ∧ s.enabled b = true ∧ x.cur = some f ∧ f.lines ≠ [] ∧ f.g w WIT_CFG_SYNC_MODE = 0 ∧ 4 ≤
      samples.length ∧ f.lines.length + 1 < f.g w WIT_GEOM_HEIGHT ∧ s.g BIT BIT_INJ_STAT_STATE ≠ 1) ∧
  (∃ (s : State) (w : Fin 4) (samples : List Nat) (f : WitFrame),
    let b := WIT w
    let x := s.wit w
s.canonical = true ∧ x.clock = 0 ∧ s.enabled b = true ∧ x.cur = some f ∧ f.g w WIT_CFG_SYNC_MODE = 0 ∧ samples.length < 4) ∧
  (∃ (s : State) (w : Fin 4),
    let x := s.wit w
s.canonical = true ∧ x.clock ≠ 3 ∧ x.cur = none) ∧
  (∃ (s : State) (w : Fin 4),
    let x := s.wit w
s.canonical = true ∧ x.clock = 3) ∧
  (∃ (s : State) (w : Fin 4) (kHz : Nat),
s.canonical = true ∧ kHz * 100 ≤ s.witLimit w * 102) ∧
  (∃ (s : State) (w : Fin 4) (kHz : Nat),
    let x := s.wit w
s.canonical = true ∧ s.witLimit w * 102 < kHz * 100 ∧ x.clock = 0 ∧ x.cur = none) ∧
  (∃ (s : State) (w : Fin 4),
    let x := s.wit w
s.canonical = true ∧ x.clock ≠ 0) ∧
  (∃ (s : State) (w : Fin 4) (f : WitFrame),
    let x := s.wit w
s.canonical = true ∧ x.cur = some f ∧ f.runs = [] ∧ f.lines.length < f.g w WIT_GEOM_HEIGHT) ∧
  (∃ (s : State) (w : Fin 4),
    let b := WIT w
    let x := s.wit w
s.canonical = true ∧ x.cur = none ∧ s.enabled b = true ∧ s.on b PAGE_STAT_COMMIT_PEND = true) ∧
  (∃ (s : State) (w : Fin 4) (f : WitFrame),
    let b := WIT w
    let x := s.wit w
s.canonical = true ∧ s.enabled b = false ∧ x.cur = some f ∧ f.abandoned = 0 ∧ f.runs = []) ∧
  (∃ (s : State),
s.canonical = true) ∧
  (∃ (s : State) (w : Fin 4) (f : WitFrame) (r : List WitFrame),
    let x := s.wit w
s.canonical = true ∧ x.stats = f :: r) ∧
  (∃ (s : State) (w : Fin 4),
    let x := s.wit w
s.canonical = true ∧ x.stats = []) ∧
  (∃ (s : State) (w : Fin 4) (hi : Bool) (v : Word),
    let b := WIT w
    let wfn := s.g64 b WIT_NEXT_WFN_LO
    let new := if hi then wfn % 2 ^ 32 + 2 ^ 32 * v.toNat else wfn / 2 ^ 32 * 2 ^ 32 + v.toNat
    let half := b + WIT_NEXT_WFN_LO.off + 4 * b2n hi
s.canonical = true ∧ s.reaches half v.toNat = true ∧ s.enabled b = false ∧ s.busy b = false ∧ wfn ≤ new) ∧
  (∃ (s : State) (w : Fin 4) (hi : Bool) (v : Word),
    let b := WIT w
    let wfn := s.g64 b WIT_NEXT_WFN_LO
    let new := if hi then wfn % 2 ^ 32 + 2 ^ 32 * v.toNat else wfn / 2 ^ 32 * 2 ^ 32 + v.toNat
    let half := b + WIT_NEXT_WFN_LO.off + 4 * b2n hi
s.canonical = true ∧ s.reaches half v.toNat = true ∧ new < wfn ∧ s.on b PAGE_STAT_BAD_WRITE = false) ∧
  (∃ (s : State) (w : Fin 4) (u : Fin 2) (v : Word),
    let b := WIT w
    let tb := witTapBase w u
    let nbuf := (witTapOf (fun o => s.rdA (b + o)) u).nbuf
s.canonical = true ∧ s.reaches (tb + WIT_TAP_BUF_FREE.off + 4) v.toNat = true ∧ fld v.toNat 0 5 + s.g tb WIT_TAP_BUF_FREE ≤
      nbuf ∧ nbuf ≤ 16) ∧
  (∃ (s : State),
s.canonical = true) :=
  ⟨⟨st [pw (WIT 3), en (WIT 3), (WIT 3, WIT_NEXT_WFN_LO, 2 ^ 32 - 1)], 3, by decide +kernel⟩,
   ⟨ready, 0, by decide +kernel⟩,
   ⟨(st [en (WIT 3), (WIT 3, WIT_LINE_ERR_SHORT, 255)]).setWit 3 (fun x => { x with cur := some { wf0 with regs := [(WIT 3 + 0x104, 0x00400040)] } }), 3, [1, 2, 3, 4], { wf0 with regs := [(WIT 3 + 0x104, 0x00400040)] }, by decide +kernel⟩,
   ⟨(st [en (WIT 3)]).setWit 3 (fun x => { x with cur := some wf0 }), 3, [1, 2, 3], wf0, by decide +kernel⟩,
   ⟨st [en (WIT 3)], 3, by decide +kernel⟩,
   ⟨(ready).setWit 3 (fun x => { x with clock := 3 }), 3, by decide +kernel⟩,
   ⟨ready, 3, 255000, by decide +kernel⟩,
   ⟨ready, 3, 2 ^ 20, by decide +kernel⟩,
   ⟨(ready).setWit 3 (fun x => { x with clock := 3, gap := true }), 3, by decide +kernel⟩,
   ⟨(st [en (WIT 3)]).setWit 3 (fun x => { x with cur := some { wf0 with regs := [(WIT 3 + 0x104, 0x00400040)] } }), 3, { wf0 with regs := [(WIT 3 + 0x104, 0x00400040)] }, by decide +kernel⟩,
   ⟨st [en (WIT 3), (WIT 3, PAGE_STAT_COMMIT_PEND, 1)], 3, by decide +kernel⟩,
   ⟨(ready).setWit 3 (fun x => { x with cur := some wf0 }), 3, wf0, by decide +kernel⟩,
   ⟨(ready).setWit 3 (fun x => { x with clearing := true }), by decide +kernel⟩,
   ⟨(ready).setWit 3 (fun x => { x with stats := [wf0], statNext := 2 ^ 32 - 1 }), 3, wf0, [], by decide +kernel⟩,
   ⟨ready, 0, by decide +kernel⟩,
   ⟨st [pw (WIT 3), (WIT 3, WIT_NEXT_WFN_LO, 5)], 3, true, 9, by decide +kernel⟩,
   ⟨st [pw (WIT 3), (WIT 3, WIT_NEXT_WFN_LO, 5)], 3, false, 4, by decide +kernel⟩,
   ⟨(st [pw (WIT 3)]), 3, 1, 0, by decide +kernel⟩,
   ⟨ready, by decide +kernel⟩⟩

theorem witness_StripsAreSizedCodedVerifiedAndCommitted :
  (∃ (s : State) (h : Fin 4) (f : RawFrame) (u : Strip) (k : Nat),
    let a := s.area h
    let len := storedLen u.lines.length f.frame.w f.frame.depth
    let coded := { u with at_ := .coded }
s.canonical = true ∧ s.rawOf h = [f] ∧ f.strips = [u] ∧ u.idx = 0 ∧ u.at_ = .ready ∧ f.coded = false ∧ f.first = some k ∧ 4096
      * k + f.nextOff + len ≤ 4096 * (a.tail + a.len)) ∧
  (∃ (s : State) (h : Fin 4),
s.canonical = true ∧ s.rawOf h = []) ∧
  (∃ (s : State) (h : Fin 4) (f : RawFrame) (u : Strip),
    let coded := { u with at_ := .coded }
    let record := coded.build { f with strips := [coded] } h
s.canonical = true ∧ s.rawOf h = [f] ∧ f.strips = [u] ∧ u.idx = 0 ∧ u.at_ = .sized ∧ record.length ≤ u.slotLen) ∧
  (∃ (s : State) (h : Fin 4) (f : RawFrame) (u : Strip),
    let coded := { u with at_ := .coded }
s.canonical = true ∧ s.rawOf h = [f] ∧ f.strips = [u] ∧ u.idx = 0 ∧ u.at_ = .coded ∧ u.stored = true) ∧
  (∃ (s : State) (h : Fin 4) (f : RawFrame) (u : Strip),
    let coded := { u with at_ := .coded }
s.canonical = true ∧ s.rawOf h = [f] ∧ f.strips = [u] ∧ u.idx = 0 ∧ u.at_ = .coded ∧ u.stored = false ∧ s.g BIT
      BIT_INJ_STAT_STATE ≠ 1) ∧
  (∃ (s : State) (h : Fin 4) (f : RawFrame) (u : Strip),
    let again := { u with at_ := .recoded, recoded := true }
    let record2 := again.build { f with strips := [again] } h
s.canonical = true ∧ s.rawOf h = [f] ∧ f.strips = [u] ∧ u.idx = 0 ∧ u.at_ = .mismatch ∧ u.inj = (false, true, true, false) ∧
      record2.length ≤ u.slotLen) ∧
  (∃ (s : State) (h : Fin 4) (f : RawFrame) (u : Strip) (k : Nat),
s.canonical = true ∧ s.rawOf h = [f] ∧ f.closed = true ∧ f.first = some k ∧ f.strips.all (fun u => u.at_ == .passed) = true ∧
      0 < s.jnlFree) ∧
  (∃ (s : State) (h : Fin 4),
s.canonical = true ∧ s.rawOf h = []) ∧
  (∃ (s : State) (h : Fin 4),
    let vb := vlcHead h
s.canonical = true ∧ s.reaches (vb + 0x1108) 1 = true ∧ s.enabled (ING h) = false ∧ s.busy (ING h) = false) ∧
  (∃ (s : State) (h : Fin 4),
    let vb := vlcHead h
s.canonical = true ∧ s.reaches (vb + 0x1108) 1 = true ∧ s.enabled (ING h) = true ∧ s.on VLC PAGE_STAT_BAD_WRITE = false) :=
  ⟨⟨{ ready with raw := [[], [], [{ rf0 with strips := [{ Strip.fresh 0 with at_ := .ready }] }], []], tsq := { State.reset.tsq with areas := [⟨0, 0, 0, 0, 0, []⟩, ⟨0, 0, 0, 0, 0, []⟩, ⟨0, 100, 0, 0, 0, []⟩, ⟨0, 0, 0, 0, 0, []⟩] } }, 2, { rf0 with strips := [{ Strip.fresh 0 with at_ := .ready }] }, { Strip.fresh 0 with at_ := .ready }, 2, by decide +kernel⟩,
   ⟨ready, 0, by decide +kernel⟩,
   ⟨{ ready with raw := [[], [], [{ rf0 with strips := [{ Strip.fresh 0 with at_ := .sized, stored := true, slot := 300, slotLen := 200 }] }], []] }, 2, { rf0 with strips := [{ Strip.fresh 0 with at_ := .sized, stored := true, slot := 300, slotLen := 200 }] }, { Strip.fresh 0 with at_ := .sized, stored := true, slot := 300, slotLen := 200 }, by decide +kernel⟩,
   ⟨{ ready with raw := [[], [], [{ rf0 with strips := [{ Strip.fresh 0 with at_ := .coded, stored := true }] }], []] }, 2, { rf0 with strips := [{ Strip.fresh 0 with at_ := .coded, stored := true }] }, { Strip.fresh 0 with at_ := .coded, stored := true }, by decide +kernel⟩,
   ⟨{ ready with raw := [[], [], [{ rf0 with strips := [{ Strip.fresh 0 with at_ := .coded }] }], []] }, 2, { rf0 with strips := [{ Strip.fresh 0 with at_ := .coded }] }, { Strip.fresh 0 with at_ := .coded }, by decide +kernel⟩,
   ⟨{ ready with raw := [[], [], [{ rf0 with strips := [{ Strip.fresh 0 with at_ := .mismatch, inj := (false, true, true, false), stored := true, slotLen := 200 }] }], []] }, 2, { rf0 with strips := [{ Strip.fresh 0 with at_ := .mismatch, inj := (false, true, true, false), stored := true, slotLen := 200 }] }, { Strip.fresh 0 with at_ := .mismatch, inj := (false, true, true, false), stored := true, slotLen := 200 }, by decide +kernel⟩,
   ⟨{ (st [(TSQ, TSQ_JNL_BLOCKS, 16)]) with raw := [[], [], [{ rf0 with closed := true, strips := [] }], []] }, 2, { rf0 with closed := true, strips := [] }, (Strip.fresh 0), 2, by decide +kernel⟩,
   ⟨ready, 0, by decide +kernel⟩,
   ⟨st [pw VLC, (vlcHead 3, VLC_HEAD_STAT_FORCED_STORED, 1)], 3, by decide +kernel⟩,
   ⟨st [pw VLC, en (ING 3), (vlcHead 3, VLC_HEAD_STAT_FORCED_STORED, 1)], 3, by decide +kernel⟩⟩

theorem witness_TakeStoreCommandsAreAccepted :
  (∃ (s : State) (slot : Fin 32) (v : Word),
    let b := slotBase slot
    let w := (((s.claimed.plainWrite (b + TSQ_SLOT_CMD.off) v.toNat).tsqWake).p b TSQ_SLOT_STAT_STATE 1).p b TSQ_SLOT_STAT_REASON 0
    let idle := s.g b TSQ_SLOT_STAT_STATE = 0 ∨ s.g b TSQ_SLOT_STAT_STATE = 5
s.canonical = true ∧ s.reaches (b + TSQ_SLOT_CMD.off) v.toNat = true ∧ s.enabled TSQ = true ∧ idle ∧ s.g TSQ
      TSQ_RCV_STAT_STATE ≠ 1 ∧ w.submitReason (w.slotArgs slot) = 0 ∧ w.formatBusy (w.slotArgs slot) = false ∧ s.tsq.cmds =
      []) ∧
  (∃ (s : State) (slot : Fin 32) (v : Word) (reason : Nat),
    let b := slotBase slot
    let w := (((s.claimed.plainWrite (b + TSQ_SLOT_CMD.off) v.toNat).tsqWake).p b TSQ_SLOT_STAT_STATE 1).p b TSQ_SLOT_STAT_REASON 0
    let idle := s.g b TSQ_SLOT_STAT_STATE = 0 ∨ s.g b TSQ_SLOT_STAT_STATE = 5
s.canonical = true ∧ s.reaches (b + TSQ_SLOT_CMD.off) v.toNat = true ∧ s.enabled TSQ = true ∧ idle ∧ s.g TSQ
      TSQ_RCV_STAT_STATE ≠ 1 ∧ w.submitReason (w.slotArgs slot) = reason ∧ reason ≠ 0) ∧
  (∃ (s : State) (slot : Fin 32) (v : Word),
    let b := slotBase slot
    let idle := s.g b TSQ_SLOT_STAT_STATE = 0 ∨ s.g b TSQ_SLOT_STAT_STATE = 5
s.canonical = true ∧ s.reaches (b + TSQ_SLOT_CMD.off) v.toNat = true ∧ s.enabled TSQ = true ∧ idle ∧ s.g TSQ
      TSQ_RCV_STAT_STATE = 1) ∧
  (∃ (s : State) (slot : Fin 32) (v : Word),
    let b := slotBase slot
    let idle := s.g b TSQ_SLOT_STAT_STATE = 0 ∨ s.g b TSQ_SLOT_STAT_STATE = 5
s.canonical = true ∧ s.reaches (b + TSQ_SLOT_CMD.off) v.toNat = true ∧ ¬ idle ∧ s.on TSQ PAGE_STAT_BAD_WRITE = false) ∧
  (∃ (s : State) (slot : Fin 32) (c : TCmd),
s.canonical = true ∧ s.tsq.cmds = [c] ∧ c.slot = slot.val ∧ c.posted = false ∧ c.durable = false ∧ c.done = none ∧ c.op ≠ 6 ∧
      s.jnlAdmits s.entryBlocks = true) ∧
  (∃ (s : State) (slot : Fin 32) (c : TCmd),
s.canonical = true ∧ s.tsq.cmds = [c] ∧ s.runnable slot 0 = some c) ∧
  (∃ (s : State) (slot : Fin 32),
s.canonical = true ∧ s.runnable slot 0 = none) ∧
  (∃ (s : State) (slot : Fin 32) (c : TCmd) (d : Done),
    let tail := s.g TSQ TSQ_CQ_TAIL
    let entry := s.masterWrite 0x40 (s.g TSQ TSQ_CQ_CFG_ASID) (s.g64 TSQ TSQ_CQ_BASE_LO + 32 * (tail % 2 ^ s.g TSQ TSQ_CQ_CFG_CQ_LOG2)) (completionBytes c d slot false)
s.canonical = true ∧ s.cqRoom = true ∧ s.tsq.replays = [] ∧ s.tsq.cmds = [c] ∧ c.slot = slot.val ∧ c.posted = false ∧ c.done =
      some d ∧ entry.1 = .ok) ∧
  (∃ (s : State),
s.canonical = true ∧ s.cqRoom = false) ∧
  (∃ (s : State) (v : Word),
    let tail := s.g TSQ TSQ_CQ_TAIL
    let old := s.g TSQ TSQ_CQ_HEAD
s.canonical = true ∧ s.reaches (TSQ + TSQ_CQ_HEAD.off) v.toNat = true ∧ (v.toNat + 2 ^ 32 - old) % 2 ^ 32 ≤ (tail + 2 ^ 32 -
      old) % 2 ^ 32) ∧
  (∃ (s : State) (v : Word),
    let tail := s.g TSQ TSQ_CQ_TAIL
    let old := s.g TSQ TSQ_CQ_HEAD
s.canonical = true ∧ s.reaches (TSQ + TSQ_CQ_HEAD.off) v.toNat = true ∧ (tail + 2 ^ 32 - old) % 2 ^ 32 < (v.toNat + 2 ^ 32 -
      old) % 2 ^ 32 ∧ s.on TSQ PAGE_STAT_BAD_WRITE = false) ∧
  (∃ (s : State) (slot : Fin 32),
s.canonical = true ∧ s.reaches (TSQ + TSQ_ABORT.off) (0x100 + slot) = true ∧ s.on TSQ TSQ_ABORT_STAT_PENDING = false ∧
      s.tsq.waiting = [] ∧ s.slotCmd slot = none) ∧
  (∃ (s : State) (slot : Fin 32) (c : TCmd),
s.canonical = true ∧ s.reaches (TSQ + TSQ_ABORT.off) (0x100 + slot) = true ∧ s.on TSQ TSQ_ABORT_STAT_PENDING = false ∧
      s.tsq.waiting = [] ∧ s.tsq.cmds = [c] ∧ c.slot = slot.val ∧ c.posted = false ∧ c.hsn = s.g TSQ TSQ_ABORT_HSN ∧ c.past =
      false) ∧
  (∃ (s : State) (slot : Fin 32) (c : TCmd),
s.canonical = true ∧ s.reaches (TSQ + TSQ_ABORT.off) (0x100 + slot) = true ∧ s.on TSQ TSQ_ABORT_STAT_PENDING = false ∧
      s.tsq.waiting = [] ∧ s.tsq.cmds = [c] ∧ c.slot = slot.val ∧ c.posted = false ∧ c.hsn = s.g TSQ TSQ_ABORT_HSN ∧ c.past =
      true) :=
  ⟨⟨st [en TSQ, (TSQ, TSQ_RCV_STAT_STATE, 2), (TSQ, TSQ_STORE_STAT_FORMATTED, 1)], 31, 0x20, by decide +kernel⟩,
   ⟨st [en TSQ, (TSQ, TSQ_RCV_STAT_STATE, 2)], 31, 0, 3, by decide +kernel⟩,
   ⟨st [en TSQ, (TSQ, TSQ_RCV_STAT_STATE, 1)], 31, 0, by decide +kernel⟩,
   ⟨st [en TSQ, (slotBase 31, TSQ_SLOT_STAT_STATE, 3)], 31, 0, by decide +kernel⟩,
   ⟨ts (st [(TSQ, TSQ_JNL_BLOCKS, 4096), (TSQ, TSQ_JNL_RES, 3)]) { tc0 with durable := false }, 3, { tc0 with durable := false }, by decide +kernel⟩,
   ⟨ts ready tc0, 3, tc0, by decide +kernel⟩,
   ⟨ready, 0, by decide +kernel⟩,
   ⟨ts (wh (st [(TSQ, TSQ_CQ_CFG_CQ_LOG2, 4), (TSQ, TSQ_CQ_TAIL, 2 ^ 32 - 1), (TSQ, TSQ_CQ_HEAD, 2 ^ 32 - 1), (slotBase 3, TSQ_SLOT_STAT_STATE, 4)])) { tc0 with done := some ⟨0, 0, 0, 0⟩ }, 3, { tc0 with done := some ⟨0, 0, 0, 0⟩ }, ⟨0, 0, 0, 0⟩, by decide +kernel⟩,
   ⟨st [(TSQ, TSQ_CQ_CFG_CQ_LOG2, 4), (TSQ, TSQ_CQ_TAIL, 16)], by decide +kernel⟩,
   ⟨st [(TSQ, TSQ_CQ_HEAD, 2 ^ 32 - 2), (TSQ, TSQ_CQ_TAIL, 3)], 3, by decide +kernel⟩,
   ⟨st [(TSQ, TSQ_CQ_HEAD, 2 ^ 32 - 2), (TSQ, TSQ_CQ_TAIL, 3)], 4, by decide +kernel⟩,
   ⟨ready, 31, by decide +kernel⟩,
   ⟨ts (st [(TSQ, TSQ_ABORT_HSN, 9)]) tc0, 3, tc0, by decide +kernel⟩,
   ⟨ts (st [(TSQ, TSQ_ABORT_HSN, 9)]) { tc0 with cmd := 6 }, 3, { tc0 with cmd := 6 }, by decide +kernel⟩⟩

theorem witness_TakeStoreCommandsTakeEffect :
  (∃ (s : State) (slot : Fin 32) (c : TCmd),
    let got := (s.activate c).gatherBlocks c
    let put := got.2.2.2.masterWrite 0x40 c.asid c.buf got.1
    let mine := s.tsq.cmds = [c] ∧ c.slot = slot.val ∧ c.posted = false ∧ c.durable = true ∧ c.done = none
s.canonical = true ∧ mine ∧ c.op = 1 ∧ got.2.2.1 = [] ∧ put.1 = .ok) ∧
  (∃ (s : State) (slot : Fin 32) (c : TCmd),
    let fetch := (s.activate c).masterRead 0x40 c.asid c.buf (4096 * c.count)
    let mine := s.tsq.cmds = [c] ∧ c.slot = slot.val ∧ c.posted = false ∧ c.durable = true ∧ c.done = none
s.canonical = true ∧ mine ∧ c.op = 2 ∧ c.buffered = false ∧ (c.started = true ∨ s.g TSQ TSQ_WB_STAT_USED + c.count ≤ 32 * s.g
      TSQ TSQ_WB_STAT_GRANULES) ∧ fetch.1 = .ok) ∧
  (∃ (s : State) (slot : Fin 32) (c : TCmd),
    let mine := s.tsq.cmds = [c] ∧ c.slot = slot.val ∧ c.posted = false ∧ c.durable = true ∧ c.done = none
s.canonical = true ∧ mine ∧ c.op = 2 ∧ c.buffered = false ∧ c.fua = false ∧ c.data.length = 4096 * c.count) ∧
  (∃ (s : State) (slot : Fin 32) (c : TCmd),
    let mine := s.tsq.cmds = [c] ∧ c.slot = slot.val ∧ c.posted = false ∧ c.durable = true ∧ c.done = none
s.canonical = true ∧ mine ∧ c.op = 2 ∧ c.buffered = false ∧ c.fua = true ∧ c.data.length = 4096 * c.count) ∧
  (∃ (s : State) (c : TCmd),
s.canonical = true ∧ s.tsq.cmds = [c] ∧ c.op = 2 ∧ c.fua = false ∧ c.buffered = true ∧ c.entry = false ∧ c.done = some ⟨0, 0,
      0, 0⟩ ∧ s.jnlAdmits (c.count + 1) = true) ∧
  (∃ (s : State) (c : TCmd),
s.canonical = true ∧ s.tsq.cmds = [c] ∧ c.op = 2 ∧ c.entry = true ∧ c.applied = false) ∧
  (∃ (s : State) (slot : Fin 32) (c : TCmd),
    let mine := s.tsq.cmds = [c] ∧ c.slot = slot.val ∧ c.posted = false ∧ c.durable = true ∧ c.done = none
s.canonical = true ∧ mine ∧ c.op = 3 ∧ c.csn ≤ s.tsq.lastCsn + 1 ∧ s.tsq.defSince = 0) ∧
  (∃ (s : State) (slot : Fin 32) (c : TCmd),
    let mine := s.tsq.cmds = [c] ∧ c.slot = slot.val ∧ c.posted = false ∧ c.durable = true ∧ c.done = none
s.canonical = true ∧ mine ∧ c.op = 5 ∧ s.anyPcOut = false) ∧
  (∃ (s : State) (slot : Fin 32) (c : TCmd),
    let mine := s.tsq.cmds = [c] ∧ c.slot = slot.val ∧ c.posted = false ∧ c.durable = true ∧ c.done = none
s.canonical = true ∧ mine ∧ c.op = 7 ∧ s.tsq.jnl = []) ∧
  (∃ (s : State) (slot : Fin 32) (c : TCmd),
    let mine := s.tsq.cmds = [c] ∧ c.slot = slot.val ∧ c.posted = false ∧ c.durable = true ∧ c.done = none
s.canonical = true ∧ mine ∧ c.op = 6) ∧
  (∃ (s : State) (slot : Fin 32) (c : TCmd),
    let mine := s.tsq.cmds = [c] ∧ c.slot = slot.val ∧ c.posted = false ∧ c.durable = true ∧ c.done = none
s.canonical = true ∧ mine ∧ c.op = 6 ∧ c.started = true) :=
  ⟨⟨ts (wh ready) { tc0 with cmd := 1 }, 3, { tc0 with cmd := 1 }, by decide +kernel⟩,
   ⟨ts (wh ready) { tc0 with cmd := 2, started := true }, 3, { tc0 with cmd := 2, started := true }, by decide +kernel⟩,
   ⟨ts ready { tc0 with cmd := 2, started := true, count := 0 }, 3, { tc0 with cmd := 2, started := true, count := 0 }, by decide +kernel⟩,
   ⟨ts ready { tc0 with cmd := 0x12, started := true, count := 0 }, 3, { tc0 with cmd := 0x12, started := true, count := 0 }, by decide +kernel⟩,
   ⟨ts (st [(TSQ, TSQ_JNL_BLOCKS, 4096)]) { tc0 with cmd := 2, buffered := true, done := some ⟨0, 0, 0, 0⟩ }, { tc0 with cmd := 2, buffered := true, done := some ⟨0, 0, 0, 0⟩ }, by decide +kernel⟩,
   ⟨ts ready { tc0 with cmd := 2, buffered := true, entry := true, data := [1, 2, 3] }, { tc0 with cmd := 2, buffered := true, entry := true, data := [1, 2, 3] }, by decide +kernel⟩,
   ⟨ts ready { tc0 with cmd := 3 }, 3, { tc0 with cmd := 3 }, by decide +kernel⟩,
   ⟨ts ready { tc0 with cmd := 5 }, 3, { tc0 with cmd := 5 }, by decide +kernel⟩,
   ⟨ts ready { tc0 with cmd := 7 }, 3, { tc0 with cmd := 7 }, by decide +kernel⟩,
   ⟨ts ready { tc0 with cmd := 6 }, 3, { tc0 with cmd := 6 }, by decide +kernel⟩,
   ⟨ts ready { tc0 with cmd := 6, started := true }, 3, { tc0 with cmd := 6, started := true }, by decide +kernel⟩⟩

theorem witness_TakeStorePowerAreasAndJournal :
  (∃ (s : State) (h : Fin 4) (len : Bool) (v : Word),
    let a := s.area h
    let new := if len then { a with len := v.toNat } else { a with base := v.toNat }
    let off := TSQ + 0x200 + 0x20 * h + (if len then 4 else 0)
    let layout := upd (s.tsq.areas.map (fun x => (x.base, x.len))) h (fun _ => (new.base, new.len))
s.canonical = true ∧ s.reaches off v.toNat = true ∧ s.enabled (ING h) = false ∧ s.busy (ING h) = false ∧ a.head = a.tail ∧
      s.layoutOk layout = true) ∧
  (∃ (s : State) (h : Fin 4) (len : Bool) (v : Word),
    let off := TSQ + 0x200 + 0x20 * h + (if len then 4 else 0)
s.canonical = true ∧ s.reaches off v.toNat = true ∧ s.enabled (ING h) = true ∧ s.on TSQ PAGE_STAT_BAD_WRITE = false) ∧
  (∃ (s : State) (h : Fin 4) (len : Bool) (v : Word),
    let off := TSQ + 0x200 + 0x20 * h + (if len then 4 else 0)
s.canonical = true ∧ s.reaches (TSQ + TSQ_PWR.off) v.toNat = true ∧ fld v.toNat 0 2 ≠ 2 ∧ fld v.toNat 0 2 ≠ s.g TSQ
      TSQ_PWR_STAT_NOW ∧ s.tsq.pwrMove = none) ∧
  (∃ (s : State) (h : Fin 4) (len : Bool) (v : Word),
    let off := TSQ + 0x200 + 0x20 * h + (if len then 4 else 0)
s.canonical = true ∧ s.reaches (TSQ + TSQ_PWR.off) v.toNat = true ∧ fld v.toNat 0 2 = 2 ∧ s.anyIngestLive = true ∧ s.on TSQ
      PAGE_STAT_BAD_WRITE = false) ∧
  (∃ (s : State) (tgt : Nat),
s.canonical = true ∧ s.tsq.pwrMove = some tgt ∧ s.g TSQ TSQ_PWR_TARGET = tgt ∧ (tgt ≠ 2 ∨ s.g TSQ TSQ_WB_STAT_USED = 0)) ∧
  (∃ (s : State),
s.canonical = true ∧ s.on TSQ TSQ_PWR_AUTO = true ∧ s.g TSQ TSQ_PWR_STAT_NOW = 0 ∧ s.tsq.pwrMove = none ∧ (List.range 32).all
      (fun n => s.g (slotBase n) TSQ_SLOT_STAT_STATE == 0) = true) ∧
  (∃ (s : State),
s.canonical = true ∧ s.g TSQ TSQ_RCV_STAT_STATE = 1) ∧
  (∃ (s : State),
s.canonical = true ∧ s.g TSQ TSQ_RCV_STAT_STATE = 1 ∧ s.on TOP TOP_RESET_CAUSE_STORE_LOST = false ∧ s.tsq.hdr = some
      s.headerRegs ∧ s.tsq.cmds = [] ∧ s.tsq.waiting = [] ∧ s.tsq.fromCold = false ∧ s.on TSQ TSQ_ABORT_STAT_PENDING = false) ∧
  (∃ (s : State),
s.canonical = true ∧ s.g TSQ TSQ_RCV_STAT_STATE ≠ 1) ∧
  (∃ (s : State) (blk : JBlock) (rest : List JBlock),
s.canonical = true ∧ s.tsq.jnl = blk :: rest ∧ blk.entries = [] ∧ blk.data = none ∧ s.tsq.abnWait = []) ∧
  (∃ (s : State) (h : Fin 4) (len : Bool),
    let off := TSQ + 0x200 + 0x20 * h + (if len then 4 else 0)
s.canonical = true ∧ s.reaches (TSQ + TSQ_DEF_CTRL.off) 1 = true) ∧
  (∃ (s : State) (h : Fin 4) (len : Bool),
    let off := TSQ + 0x200 + 0x20 * h + (if len then 4 else 0)
s.canonical = true ∧ s.reaches (TSQ + TSQ_DEF_CTRL.off) 2 = true) :=
  ⟨⟨ready, 3, false, 7, by decide +kernel⟩,
   ⟨st [en (ING 3)], 3, false, 7, by decide +kernel⟩,
   ⟨ready, 0, false, 0x10001, by decide +kernel⟩,
   ⟨st [en (ING 3)], 0, false, 0x10002, by decide +kernel⟩,
   ⟨{ (st [(TSQ, TSQ_PWR_TARGET, 2), (TSQ, TSQ_PWR_STAT_MOVING, 1)]) with tsq := { State.reset.tsq with pwrMove := some 2 } }, 2, by decide +kernel⟩,
   ⟨st [(TSQ, TSQ_PWR_AUTO, 1)], by decide +kernel⟩,
   ⟨st [(TSQ, TSQ_RCV_STAT_STATE, 1)], by decide +kernel⟩,
   ⟨(st [(TSQ, TSQ_RCV_STAT_STATE, 1)]).setTsq (fun x => { x with hdr := some (st [(TSQ, TSQ_RCV_STAT_STATE, 1)]).headerRegs }), by decide +kernel⟩,
   ⟨ready, by decide +kernel⟩,
   ⟨(st [(TSQ, TSQ_JNL_BLOCKS, 4096)]).setTsq (fun x => { x with jnl := [⟨[], none, true⟩, ⟨[], none, false⟩] }), ⟨[], none, true⟩, [⟨[], none, false⟩], by decide +kernel⟩,
   ⟨ready.setTsq (fun x => { x with defLog := [⟨1, 2, 3, 4⟩] }), 0, false, by decide +kernel⟩,
   ⟨st [(TSQ, TSQ_DEF_STAT_OVERFLOW, 1)], 0, false, by decide +kernel⟩⟩

theorem witness_SumpPlansAreCheckedAndActivated :
  (∃ (s : State),
s.canonical = true ∧ s.reaches (SMP + SMP_PLAN_CTRL.off) 1 = true ∧ s.g SMP SMP_PLAN_STAT_STATE = 0) ∧
  (∃ (s : State),
s.canonical = true ∧ s.reaches (SMP + SMP_PLAN_CTRL.off) 1 = true ∧ s.g SMP SMP_PLAN_STAT_STATE ≠ 0 ∧ s.on SMP
      PAGE_STAT_BAD_WRITE = false) ∧
  (∃ (s : State),
s.canonical = true ∧ s.reaches (SMP + SMP_PLAN_CTRL.off) 2 = true ∧ s.g SMP SMP_PLAN_STAT_STATE = 0) ∧
  (∃ (s : State),
s.canonical = true ∧ s.g SMP SMP_PLAN_STAT_STATE = 1 ∧ s.sump.activating = false) ∧
  (∃ (s : State),
s.canonical = true ∧ s.g SMP SMP_PLAN_STAT_STATE ≠ 1) ∧
  (∃ (s : State),
s.canonical = true ∧ s.g SMP SMP_PLAN_STAT_STATE = 2 ∧ s.sump.late = []) ∧
  (∃ (s : State),
s.canonical = true) ∧
  (∃ (s : State) (bank : Nat) (k : Nat) (granule : Fin 192) (r : SRec),
s.canonical = true ∧ s.sump.pend = [(k, bank, granule.val)] ∧ nth ⟨0, 0, 0, 0, 0, []⟩ s.sump.recs k = r ∧ r.kind = 1) ∧
  (∃ (s : State),
s.canonical = true ∧ s.sump.pend = []) ∧
  (∃ (s : State) (bank : Nat) (k : Nat) (granule : Fin 192) (r : SRec),
s.canonical = true ∧ s.sump.pend = [(k, bank, granule.val)] ∧ nth ⟨0, 0, 0, 0, 0, []⟩ s.sump.recs k = r ∧ r.kind = 8) :=
  ⟨⟨ready, by decide +kernel⟩,
   ⟨st [(SMP, SMP_PLAN_STAT_STATE, 2)], by decide +kernel⟩,
   ⟨ready, by decide +kernel⟩,
   ⟨st [(SMP, SMP_PLAN_STAT_STATE, 1), (SMP, SMP_PLAN_CTRL, 1)], by decide +kernel⟩,
   ⟨ready, by decide +kernel⟩,
   ⟨{ (st [(SMP, SMP_PLAN_STAT_STATE, 2), (SMP, SMP_GROUP_PWR, 7)]) with sump := { State.reset.sump with activating := true } }, by decide +kernel⟩,
   ⟨st [(SMP, SMP_SCRUB, 65535)], by decide +kernel⟩,
   ⟨{ (st [(SMP, SMP_STAT_REMAP_PEND, 1)]) with sump := { State.reset.sump with recs := [⟨1, 2, 0, 0, 0, [7]⟩], pend := [(0, 3, 191)] } }, 3, 0, 191, ⟨1, 2, 0, 0, 0, [7]⟩, by decide +kernel⟩,
   ⟨ready, by decide +kernel⟩,
   ⟨{ (st [(TSQ, FAULT_SUM, 7)]) with sump := { State.reset.sump with recs := [⟨8, 0, 0, 0, 0, [7]⟩], pend := [(0, 3, 191)] } }, 3, 0, 191, ⟨8, 0, 0, 0, 0, [7]⟩, by decide +kernel⟩⟩

theorem witness_HbmPlansRefreshScrubAndSparing :
  (∃ (s : State) (g : Fin 256) (k : Fin 4),
    let b := HBM 0
    let found := s.claimed.planCheck s.claimed.regionRegs
    let off := HBM k + HBM_PC_CTRL.off
s.canonical = true ∧ s.reaches (b + HBM_PLAN_CTRL.off) 1 = true ∧ s.g b HBM_PLAN_STAT_STATE = 0 ∧ found.1 = 0) ∧
  (∃ (s : State) (g : Fin 256) (k : Fin 4),
    let b := HBM 0
    let found := s.claimed.planCheck s.claimed.regionRegs
    let off := HBM k + HBM_PC_CTRL.off
s.canonical = true ∧ s.reaches (b + HBM_PLAN_CTRL.off) 1 = true ∧ s.g b HBM_PLAN_STAT_STATE = 0 ∧ found.1 ≠ 0) ∧
  (∃ (s : State) (g : Fin 256) (k : Fin 4),
    let b := HBM 0
    let off := HBM k + HBM_PC_CTRL.off
s.canonical = true ∧ s.reaches (b + HBM_PLAN_CTRL.off) 1 = true ∧ s.g b HBM_PLAN_STAT_STATE ≠ 0 ∧ s.on b PAGE_STAT_BAD_WRITE =
      false) ∧
  (∃ (s : State) (g : Fin 256),
    let b := HBM 0
s.canonical = true ∧ s.g b HBM_PLAN_STAT_STATE = 1) ∧
  (∃ (s : State) (g : Fin 256),
    let b := HBM 0
s.canonical = true ∧ s.g b HBM_PLAN_STAT_STATE = 2) ∧
  (∃ (s : State) (g : Fin 256) (bank : Fin 64),
    let key := 64 * g.val + bank.val
    let debt := Sparse.get (fun _ => 0) s.hbm.debt key
s.canonical = true ∧ debt < 7) ∧
  (∃ (s : State) (g : Fin 256) (bank : Fin 64),
    let key := 64 * g.val + bank.val
    let debt := Sparse.get (fun _ => 0) s.hbm.debt key
s.canonical = true ∧ 7 ≤ debt) ∧
  (∃ (s : State),
s.canonical = true) ∧
  (∃ (s : State) (g : Fin 256),
    let gb := HBM (g.val / 64)
s.canonical = true ∧ s.pcOut g = false ∧ s.g gb HBM_SCRUB_CFG_PERIOD ≠ 0) ∧
  (∃ (s : State) (g : Fin 256) (n : Nat) (slot : Nat),
    let b := HBM 0
    let used := s.g b HBM_SPARE_STAT_USED
s.canonical = true ∧ s.hbm.sparing = some (n, slot) ∧ s.hbm.waiting = [] ∧ n < 256 ∧ slot < 16 ∧ used < 8) ∧
  (∃ (s : State) (g : Fin 256) (k : Fin 4) (pc : Fin 64),
    let b := HBM 0
    let off := HBM k + HBM_PC_CTRL.off
s.canonical = true ∧ s.reaches off (0x100 + pc) = true ∧ s.hbm.offline = none ∧ s.hbm.sparing = none ∧ s.hbm.waiting = [] ∧
      s.g b HBM_SPARE_STAT_UNSPARED = 0) ∧
  (∃ (s : State) (k : Fin 4) (pc : Fin 64) (n : Nat),
    let off := HBM k + HBM_PC_CTRL.off
s.canonical = true ∧ s.reaches off (0x100 + pc) = true ∧ s.hbm.offline = some n ∧ n ≠ 64 * k.val + pc.val ∧ s.on (HBM k)
      PAGE_STAT_BAD_WRITE = false) ∧
  (∃ (s : State) (k : Fin 4) (pc : Fin 64),
    let off := HBM k + HBM_PC_CTRL.off
s.canonical = true ∧ s.reaches off (0x200 + pc) = true ∧ s.hbm.offline = some (64 * k.val + pc.val)) ∧
  (∃ (s : State) (k : Fin 4) (pc : Fin 64),
s.canonical = true ∧ s.hbm.offline = some (64 * k.val + pc.val)) ∧
  (∃ (s : State) (k : Fin 4) (pc : Fin 64),
    let off := HBM k + HBM_PC_CTRL.off
s.canonical = true ∧ s.reaches off (0x300 + pc) = true) :=
  ⟨⟨st [pw (HBM 0)], 0, 0, by decide +kernel⟩,
   ⟨(st [pw (HBM 0)]).wr (HBM 0 + 0x1108) 0x10000, 0, 0, by decide +kernel⟩,
   ⟨st [pw (HBM 0), (HBM 0, HBM_PLAN_STAT_STATE, 2)], 0, 0, by decide +kernel⟩,
   ⟨(st [(HBM 0, HBM_PLAN_STAT_STATE, 1)]).wr (HBM 0 + 0x1108) 0x10000, 0, by decide +kernel⟩,
   ⟨{ (st [(HBM 0, HBM_PLAN_STAT_STATE, 2), (HBM 0, HBM_PLAN_CTRL_APPLY, 1)]) with hbm := { State.reset.hbm with zeroing := [3] } }, 0, by decide +kernel⟩,
   ⟨{ (st [(HBM 3, HBM_REF_CNT_POSTPONED, 65535)]) with hbm := { State.reset.hbm with debt := [(64 * 255 + 63, 6)] } }, 255, 63, by decide +kernel⟩,
   ⟨{ ready with hbm := { State.reset.hbm with debt := [(64 * 255 + 63, 7)] } }, 255, 63, by decide +kernel⟩,
   ⟨{ ready with hbm := { State.reset.hbm with debt := [(64 * 255 + 63, 7)] } }, by decide +kernel⟩,
   ⟨st [(HBM 3, HBM_SCRUB_CFG_PERIOD, 9)], 255, by decide +kernel⟩,
   ⟨{ (st [(HBM 0, HBM_SPARE_STAT_USED, 7), (HBM 0, HBM_SPARE_STAT_SPARING, 1)]) with hbm := { State.reset.hbm with sparing := some (255, 7) } }, 0, 255, 7, by decide +kernel⟩,
   ⟨st [pw (HBM 3)], 0, 3, 63, by decide +kernel⟩,
   ⟨{ (st [pw (HBM 3)]) with hbm := { State.reset.hbm with offline := some 7 } }, 3, 63, 7, by decide +kernel⟩,
   ⟨{ (st [pw (HBM 3)]) with hbm := { State.reset.hbm with offline := some 255 } }, 3, 63, by decide +kernel⟩,
   ⟨{ ready with hbm := { State.reset.hbm with offline := some 255 } }, 3, 63, by decide +kernel⟩,
   ⟨st [pw (HBM 3)], 3, 63, by decide +kernel⟩⟩

theorem witness_HbmWakesTrainsAndCalibrates :
  (∃ (s : State) (k : Fin 4),
    let b := HBM k
s.canonical = true ∧ s.reaches (b + HBM_CTRL.off) 1 = true) ∧
  (∃ (s : State) (k : Fin 4),
    let b := HBM k
s.canonical = true ∧ s.on b HBM_CTRL_WAKE = true) ∧
  (∃ (s : State) (k : Fin 4),
    let b := HBM k
s.canonical = true ∧ s.reaches (b + HBM_CTRL.off) 2 = true ∧ nth false s.hbm.woken k = true ∧ s.on b HBM_CTRL_WAKE = false) ∧
  (∃ (s : State) (k : Fin 4),
    let b := HBM k
s.canonical = true ∧ s.reaches (b + HBM_CTRL.off) 2 = true ∧ nth false s.hbm.woken k = false ∧ s.on b PAGE_STAT_BAD_WRITE =
      false) ∧
  (∃ (s : State) (k : Fin 4),
    let b := HBM k
s.canonical = true ∧ s.reaches (b + HBM_TRN_RUN.off) 1 = true ∧ s.on b HBM_TRN_RUN_START = false ∧ s.on b HBM_STAT_READY =
      false) ∧
  (∃ (s : State) (k : Fin 4),
    let b := HBM k
s.canonical = true ∧ s.on b HBM_TRN_RUN_START = true) ∧
  (∃ (s : State) (k : Fin 4) (v : Word),
    let b := HBM k
s.canonical = true ∧ s.reaches (b + HBM_TRN_DLY.off) v.toNat = true ∧ fld v.toNat 6 2 = 0) ∧
  (∃ (s : State) (lane : Nat) (m : Nat) (g : Fin 256) (kind : Fin 3),
    let key := delayKey g kind lane
    let trained := Sparse.get (fun _ => 0) s.hbm.trained key
s.canonical = true ∧ s.pcOut g = false ∧ m ≤ 127 ∧ m ≤ trained + 8 ∧ trained ≤ m + 8) ∧
  (∃ (s : State) (lane : Nat) (m : Nat) (g : Fin 256) (kind : Fin 3),
    let key := delayKey g kind lane
    let trained := Sparse.get (fun _ => 0) s.hbm.trained key
s.canonical = true ∧ s.pcOut g = false ∧ m ≤ 127 ∧ trained + 8 < m) :=
  ⟨⟨st [pw (HBM 3), (HBM 3, HBM_STAT_IN_SR, 1)], 3, by decide +kernel⟩,
   ⟨st [(HBM 3, HBM_CTRL_WAKE, 1)], 3, by decide +kernel⟩,
   ⟨{ (st [pw (HBM 3)]) with hbm := { State.reset.hbm with woken := [false, false, false, true] } }, 3, by decide +kernel⟩,
   ⟨st [pw (HBM 3)], 3, by decide +kernel⟩,
   ⟨st [pw (HBM 3), (HBM 3, HBM_TRN_STAT_DONE, 1)], 3, by decide +kernel⟩,
   ⟨st [(HBM 3, HBM_TRN_RUN_START, 1)], 3, by decide +kernel⟩,
   ⟨st [pw (HBM 3), (HBM 3, HBM_TRN_SEL_CHANNEL, 31)], 3, 0x7F00, by decide +kernel⟩,
   ⟨{ ready with hbm := { State.reset.hbm with trained := [(delayKey 255 2 3, 50)] } }, 3, 58, 255, 2, by decide +kernel⟩,
   ⟨{ ready with hbm := { State.reset.hbm with trained := [(delayKey 255 2 3, 50)] } }, 3, 59, 255, 2, by decide +kernel⟩⟩

theorem witness_CompressorRunsJobs :
  (∃ (s : State) (v : Word),
    let n := s.g GCX GCX_DONE
s.canonical = true ∧ s.reaches (GCX + GCX_PROD.off) v.toNat = true ∧ (v.toNat % 65536 + 65536 - n) % 65536 ≤ s.gcxSize) ∧
  (∃ (s : State) (v : Word),
    let n := s.g GCX GCX_DONE
s.canonical = true ∧ s.reaches (GCX + GCX_PROD.off) v.toNat = true ∧ s.gcxSize < (v.toNat % 65536 + 65536 - n) % 65536 ∧ s.on
      GCX PAGE_STAT_BAD_WRITE = false) ∧
  (∃ (s : State),
    let at_ := s.g GCX GCX_CONS
    let fetch := s.masterRead 0x38 (s.g GCX GCX_RING_CFG_ASID) (s.g64 GCX GCX_RING_LO_REG + 64 * (at_ % s.gcxSize)) 64
s.canonical = true ∧ s.enabled GCX = true ∧ s.gcx.job = none ∧ s.on GCX GCX_STAT_SHED = false ∧ at_ ≠ s.g GCX GCX_PROD ∧
      fetch.1 = .ok) ∧
  (∃ (s : State),
    let at_ := s.g GCX GCX_CONS
s.canonical = true ∧ at_ = s.g GCX GCX_PROD) ∧
  (∃ (s : State) (j : GcxJob),
    let input := s.masterRead 0x38 j.asid j.src j.srcLen
    let z := gcxCompressed j (zstdWindow j.level input.2.2.gcxWindow) input.2.1
    let put := input.2.2.masterWrite 0x38 j.asid j.dst z.1
s.canonical = true ∧ s.gcxReady 1 = some j ∧ input.1 = .ok ∧ z.1.length ≤ j.outLen ∧ put.1 = .ok) ∧
  (∃ (s : State) (j : GcxJob),
    let input := s.masterRead 0x38 j.asid j.src j.srcLen
    let z := gcxCompressed j (zstdWindow j.level input.2.2.gcxWindow) input.2.1
    let fill := input.2.2.gcxUndefined j.asid j.dst j.outLen
s.canonical = true ∧ s.gcxReady 1 = some j ∧ input.1 = .ok ∧ j.outLen < z.1.length ∧ fill.1 = .ok) ∧
  (∃ (s : State) (j : GcxJob),
    let input := s.masterRead 0x38 j.asid j.src j.srcLen
    let r := gcxDecode j.format (bitOf j.flags 1) input.2.2.gcxWindow (min j.outLen j.limit) input.2.1
    let out := r.1.out.toList
    let put2 := input.2.2.masterWrite 0x38 j.asid j.dst out
s.canonical = true ∧ s.gcxReady 2 = some j ∧ input.1 = .ok ∧ r.1.st = .ended ∧ out ≠ [] ∧ put2.1 = .ok) ∧
  (∃ (s : State) (j : GcxJob),
    let input := s.masterRead 0x38 j.asid j.src j.srcLen
    let r := gcxDecode j.format (bitOf j.flags 1) input.2.2.gcxWindow (min j.outLen j.limit) input.2.1
    let out := r.1.out.toList
s.canonical = true ∧ s.gcxReady 2 = some j ∧ input.1 = .ok ∧ r.1.st = .ended ∧ out = []) ∧
  (∃ (s : State) (j : GcxJob),
s.canonical = true ∧ s.gcxReady 3 = some j ∧ s.gcx.saved = []) ∧
  (∃ (s : State) (j : GcxJob) (d : Nat × Nat × Nat × Nat × Nat),
    let n := s.g GCX GCX_DONE
    let post := s.masterWrite 0x38 (s.g GCX GCX_RING_CFG_ASID) (s.g64 GCX GCX_CPL_LO_REG + 32 * (n % s.gcxSize)) (gcxCompletion j.seq d)
s.canonical = true ∧ s.gcx.job = some j ∧ j.done = some d ∧ post.1 = .ok) ∧
  (∃ (s : State) (j : GcxJob),
s.canonical = true ∧ s.gcx.job = some j ∧ j.done = none ∧ s.on GCX GCX_STAT_PAUSED = false) ∧
  (∃ (s : State),
s.canonical = true ∧ s.gcx.job = none) ∧
  (∃ (s : State),
s.canonical = true ∧ s.reaches (GCX + GCX_CTRL.off) 1 = true ∧ s.gcx.job = none) ∧
  (∃ (s : State) (j : GcxJob),
s.canonical = true ∧ s.reaches (GCX + GCX_CTRL.off) 1 = true ∧ s.gcx.job = some j ∧ j.done = none) :=
  ⟨⟨st [pw GCX, (GCX, GCX_DONE, 65535), (GCX, GCX_RING_CFG_RING_LOG2, 4)], 15, by decide +kernel⟩,
   ⟨st [pw GCX, (GCX, GCX_DONE, 65535), (GCX, GCX_RING_CFG_RING_LOG2, 4)], 16, by decide +kernel⟩,
   ⟨wh (st [pw GCX, en GCX, (GCX, GCX_CONS, 65535)]), by decide +kernel⟩,
   ⟨st [en GCX], by decide +kernel⟩,
   ⟨gs ready { gj0 with op := 1, format := 2, srcLen := 1, outLen := 100, level := 6 }, { gj0 with op := 1, format := 2, srcLen := 1, outLen := 100, level := 6 }, ⟨by decide +kernel, by decide +kernel, by decide +kernel, Nat.le_trans (gzip_length _ _ _ (by decide +kernel)).2 (by decide +kernel), write_ok_of_length _ _ _ _ _ 18 24 (gzip_length _ _ _ (by decide +kernel)).1 (gzip_length _ _ _ (by decide +kernel)).2 (by decide +kernel)⟩⟩,
   ⟨gs ready { gj0 with op := 1, format := 2, srcLen := 1, level := 6 }, { gj0 with op := 1, format := 2, srcLen := 1, level := 6 }, ⟨by decide +kernel, by decide +kernel, by decide +kernel, Nat.lt_of_lt_of_le (by decide) (gzip_length _ _ _ (by decide +kernel)).1, by decide +kernel⟩⟩,
   ⟨gs ready { gj0 with srcLen := 6 } [(0, 1), (1, 1), (3, 0xFE), (4, 0xFF), (5, 0x41)], { gj0 with srcLen := 6 }, by decide +kernel⟩,
   ⟨gs ready gj0 [(0, 3)], gj0, by decide +kernel⟩,
   ⟨gs ready { gj0 with op := 3 }, { gj0 with op := 3 }, by decide +kernel⟩,
   ⟨gs (st [pw GCX, (GCX, GCX_DONE, 65535)]) { gj0 with done := some (1, 0, 0, 0, 0) }, { gj0 with done := some (1, 0, 0, 0, 0) }, (1, 0, 0, 0, 0), by decide +kernel⟩,
   ⟨gs (st [pw GCX]) gj0, gj0, by decide +kernel⟩,
   ⟨st [pw GCX], by decide +kernel⟩,
   ⟨st [pw GCX], by decide +kernel⟩,
   ⟨gs (st [pw GCX, (GCX, GCX_STAT_ABORT_IDLE, 1)]) gj0, gj0, by decide +kernel⟩⟩

theorem witness_CodecContextsTakeAndEndJobs :
  (∃ (s : State) (c : Fin 64) (value : Word),
    let b := ctxBase c
    let v := value.toNat
s.canonical = true ∧ s.reaches (b + CTX_CFG.off) v = true ∧ s.g b CTX_CFG_MODE = 0 ∧ fld v 0 2 = 0) ∧
  (∃ (s : State) (c : Fin 64) (value : Word),
    let b := ctxBase c
    let v := value.toNat
    let whole := s.cod.ctx.length = 64
s.canonical = true ∧ s.reaches (b + CTX_CFG.off) v = true ∧ s.g b CTX_CFG_MODE ≠ 0 ∧ fld v 0 2 = 0 ∧ s.g b CTX_NEXT_SEQ = s.g
      b CTX_DONE_SEQ ∧ whole) ∧
  (∃ (s : State) (c : Fin 64) (value : Word),
    let b := ctxBase c
    let v := value.toNat
s.canonical = true ∧ s.reaches (b + CTX_CFG.off) v = true ∧ s.g b CTX_CFG_MODE ≠ 0 ∧ (fld v 0 2 ≠ 0 ∨ s.g b CTX_NEXT_SEQ ≠ s.g
      b CTX_DONE_SEQ) ∧ s.on CTX4 PAGE_STAT_BAD_WRITE = false) ∧
  (∃ (s : State) (c : Fin 64) (value : Word) (r : Nat),
    let b := ctxBase c
    let v := value.toNat
s.canonical = true ∧ s.reaches (b + CTX_CFG.off) v = true ∧ s.g b CTX_CFG_MODE = 0 ∧ fld v 0 2 ≠ 0 ∧ s.claimed.ctxReason c v =
      r ∧ r ≠ 0 ∧ s.on CTX4 PAGE_STAT_BAD_WRITE = false) ∧
  (∃ (s : State) (c : Fin 64),
    let b := ctxBase c
    let w := s.claimed.p b CTX_SUBMIT_STAT_PENDING 1
    let fetch := w.masterRead 0x34 (w.g b CTX_CFG_ASID) (w.g64 b CTX_SUBMIT_LO_REG) 128
    let u := fetch.2.2
    let new := newJob (u.g b CTX_NEXT_SEQ) fetch.2.1 (u.cx c).projected u.cod.acc u.time.ms
s.canonical = true ∧ s.reaches (b + CTX_SUBMIT.off) 1 = true ∧ s.on b CTX_SUBMIT_STAT_PENDING = false ∧ fetch.1 = .ok ∧
      u.jobReason c new = 0 ∧ u.cod.ctx.length = 64) ∧
  (∃ (s : State) (c : Fin 64) (r : Nat),
    let b := ctxBase c
    let w := s.claimed.p b CTX_SUBMIT_STAT_PENDING 1
    let fetch := w.masterRead 0x34 (w.g b CTX_CFG_ASID) (w.g64 b CTX_SUBMIT_LO_REG) 128
    let u := fetch.2.2
    let new := newJob (u.g b CTX_NEXT_SEQ) fetch.2.1 (u.cx c).projected u.cod.acc u.time.ms
s.canonical = true ∧ s.reaches (b + CTX_SUBMIT.off) 1 = true ∧ s.on b CTX_SUBMIT_STAT_PENDING = false ∧ fetch.1 = .ok ∧
      u.jobReason c new = r ∧ r ≠ 0) ∧
  (∃ (s : State) (c : Fin 64) (value : Word),
    let b := ctxBase c
    let v := value.toNat
    let whole := s.cod.ctx.length = 64
s.canonical = true ∧ s.reaches (b + CTX_PB_RET.off) v = true ∧ whole) ∧
  (∃ (s : State) (c : Fin 64) (j : CodJob),
s.canonical = true ∧ s.toStart c 4 = some j ∧ (s.cx c).jobs = [j]) ∧
  (∃ (s : State) (c : Fin 64) (j : CodJob),
    let b := ctxBase c
    let tail := s.g b CTX_CPL_TAIL
    let size := 2 ^ s.g b CTX_CPL_CFG_CPL_LOG2
    let post := s.masterWrite 0x34 (s.g b CTX_CPL_CFG_ASID) (s.g64 b CTX_CPL_LO_REG + 64 * (tail % size)) (s.codRecord c j (j.unit.elim [] (fun x => x.out)))
s.canonical = true ∧ (s.cx c).jobs = [j] ∧ j.done ≠ none ∧ (tail + 2 ^ 32 - s.g b CTX_CPL_HEAD) % 2 ^ 32 < size ∧ post.1 =
      .ok) ∧
  (∃ (s : State) (c : Fin 64) (j : CodJob),
s.canonical = true ∧ (s.cx c).jobs = [j] ∧ j.done = none ∧ j.encodes = true ∧ bitOf j.fl 2 = true ∧ j.started = true ∧ j.first
      < j.rows ∧ s.srcReady j (s.nextLines c j).2 ≠ 1) ∧
  (∃ (s : State) (c : Fin 64),
s.canonical = true ∧ (s.cx c).jobs = []) ∧
  (∃ (s : State) (c : Fin 64),
    let b := ctxBase c
s.canonical = true ∧ s.reaches (b + CTX_ABORT.off) 1 = true ∧ s.on b CTX_ABORT_STAT_PENDING = false ∧ (s.cx c).jobs = []) ∧
  (∃ (s : State) (c : Fin 64) (j : CodJob),
    let b := ctxBase c
s.canonical = true ∧ s.reaches (b + CTX_ABORT.off) 1 = true ∧ s.on b CTX_ABORT_STAT_PENDING = false ∧ (s.cx c).jobs = [j] ∧
      j.done = none ∧ (j.seq + 2 ^ 32 - s.g b CTX_ABORT_SEQ) % 2 ^ 32 < 2 ^ 31 ∧ s.cod.engine.all (fun e => e != some c.val) =
      true) :=
  ⟨⟨ready, 63, 0x30, by decide +kernel⟩,
   ⟨cs (st [(ctxBase 63, CTX_CFG_MODE, 2)]) 63 cj0, 63, 0, by decide +kernel⟩,
   ⟨st [(ctxBase 63, CTX_CFG_MODE, 2), (ctxBase 63, CTX_NEXT_SEQ, 1)], 63, 0, by decide +kernel⟩,
   ⟨st [(ctxBase 63, CTX_STATE_HI, 0xFFFFFFFF)], 63, 1, 1, by decide +kernel⟩,
   ⟨{ wh (st [(ctxBase 63, CTX_CFG_MODE, 2), (ctxBase 63, CTX_PB_CFG_PB_COUNT, 2), (ctxBase 63, CTX_NEXT_SEQ, 2 ^ 32 - 1)]) with mem := [(0, 4), (0x20, 0xFF), (0x21, 0xFF), (0x22, 1), (0x23, 0xFF)] }, 63, by decide +kernel⟩,
   ⟨wh (st [(ctxBase 63, CTX_CFG_MODE, 1)]), 63, 3, by decide +kernel⟩,
   ⟨ready.setCx 63 (fun x => { x with held := [3, 11] }), 63, 0x808, by decide +kernel⟩,
   ⟨(cs ready 63 { cj0 with desc := [4] }).setCx 63 (fun x => { x with held := [2], shown := [(7, 1), (3, 0)] }), 63, { cj0 with desc := [4] }, by decide +kernel⟩,
   ⟨cs (wh (st [(ctxBase 63, CTX_CPL_CFG_CPL_LOG2, 4), (ctxBase 63, CTX_CPL_TAIL, 3), (ctxBase 63, CTX_CPL_HEAD, 2 ^ 32 - 12)])) 63 { cj0 with done := some (2, 0) }, 63, { cj0 with done := some (2, 0) }, by decide +kernel⟩,
   ⟨cs ready 63 { cj0 with desc := [1, 4], started := true, rows := 1 }, 63, { cj0 with desc := [1, 4], started := true, rows := 1 }, by decide +kernel⟩,
   ⟨ready, 63, by decide +kernel⟩,
   ⟨ready, 63, by decide +kernel⟩,
   ⟨cs (st [(ctxBase 63, CTX_ABORT_SEQ, 2 ^ 32 - 5)]) 63 cj0, 63, cj0, by decide +kernel⟩⟩

theorem witness_CodecJobsStartAndRun :
  (∃ (s : State) (c : Fin 64) (j : CodJob),
s.canonical = true ∧ s.toStart c 1 = some j ∧ (s.cx c).jobs = [j] ∧ (s.cx c).map = j.proj) ∧
  (∃ (s : State) (c : Fin 64) (unit : DecUnit) (j : CodJob),
    let b := ctxBase c
    let fetch := s.masterRead 0x34 (s.g b CTX_CFG_ASID) (leAt j.desc 0x10 8) (leAt j.desc 0x18 4)
    let u := fetch.2.2
    let free := fun (k : Nat) => !(s.cx c).map.contains k && !(s.cx c).held.contains k && !(s.cx c).shown.any (fun y => y.2 == k)
    let fits := codSizeOk unit.width unit.height = true ∧ unit.width ≤ u.g b CTX_GEOM_MAX_W ∧ unit.height ≤ u.g b CTX_GEOM_MAX_H
s.canonical = true ∧ s.toStart c 2 = some j ∧ (s.cx c).jobs = [j] ∧ fetch.1 = .ok ∧ unit.fail = 0 ∧ j.targets.all free = true
      ∧ unit.frames ≤ j.targets.length ∧ fits ∧ unit.refMissing = false ∧ unit.map = []) ∧
  (∃ (s : State) (c : Fin 64) (unit : DecUnit) (j : CodJob),
    let b := ctxBase c
    let fetch := s.masterRead 0x34 (s.g b CTX_CFG_ASID) (leAt j.desc 0x10 8) (leAt j.desc 0x18 4)
s.canonical = true ∧ s.toStart c 2 = some j ∧ (s.cx c).jobs = [j] ∧ fetch.1 = .ok ∧ unit.fail ≠ 0) ∧
  (∃ (s : State) (c : Fin 64) (unit : DecUnit) (j : CodJob),
    let b := ctxBase c
    let par := s.masterRead 0x34 (s.g b CTX_CFG_ASID) (leAt j.desc 0x28 8) (leAt j.desc 0x30 4)
    let pu := par.2.2
    let pfetch := pu.masterRead 0x34 (pu.g b CTX_CFG_ASID) (leAt j.desc 0x10 8) (leAt j.desc 0x18 4)
    let pfits := codSizeOk unit.width unit.height = true ∧ unit.width ≤ pfetch.2.2.g b CTX_GEOM_MAX_W ∧ unit.height ≤ pfetch.2.2.g b CTX_GEOM_MAX_H
s.canonical = true ∧ s.toStart c 3 = some j ∧ (s.cx c).jobs = [j] ∧ par.1 = .ok ∧ compatOk par.2.1 (leAt j.desc 0x18 4) = true
      ∧ pfetch.1 = .ok ∧ unit.fail = 0 ∧ pfits ∧ unit.refMissing = false) ∧
  (∃ (s : State) (c : Fin 64) (j : CodJob),
    let b := ctxBase c
    let par := s.masterRead 0x34 (s.g b CTX_CFG_ASID) (leAt j.desc 0x28 8) (leAt j.desc 0x30 4)
s.canonical = true ∧ s.toStart c 3 = some j ∧ (s.cx c).jobs = [j] ∧ par.1 = .ok ∧ compatOk par.2.1 (leAt j.desc 0x18 4) =
      false) ∧
  (∃ (s : State) (c : Fin 64) (e : Fin 4) (j : CodJob),
    let served := nth none s.cod.engine e = some c.val ∧ (s.cx c).jobs = [j] ∧ j.done = none
s.canonical = true ∧ served ∧ j.encodes = false ∧ 2 ≤ e.val ∧ s.codReady c true = true) ∧
  (∃ (s : State) (c : Fin 64) (e : Fin 4) (j : CodJob),
    let served := nth none s.cod.engine e = some c.val ∧ (s.cx c).jobs = [j] ∧ j.done = none
s.canonical = true ∧ served ∧ j.encodes = true ∧ e.val < 2 ∧ s.codReady c false = true) ∧
  (∃ (s : State) (c : Fin 64) (e : Fin 4) (j : CodJob),
    let served := nth none s.cod.engine e = some c.val ∧ (s.cx c).jobs = [j] ∧ j.done = none
s.canonical = true ∧ served) ∧
  (∃ (s : State) (c : Fin 64) (e : Fin 4) (j : CodJob),
    let served := nth none s.cod.engine e = some c.val ∧ (s.cx c).jobs = [j] ∧ j.done = none
s.canonical = true ∧ served) ∧
  (∃ (s : State) (c : Fin 64) (e : Fin 4) (j : CodJob),
    let served := nth none s.cod.engine e = some c.val ∧ (s.cx c).jobs = [j] ∧ j.done = none
s.canonical = true ∧ served ∧ j.encodes = false ∧ (s.cx c).abort = none) :=
  ⟨⟨(cs ready 63 { cj0 with desc := [1] }).setCx 63 (fun x => { x with map := [] }), 63, { cj0 with desc := [1] }, by decide +kernel⟩,
   ⟨cs (wh (st [(ctxBase 63, CTX_GEOM, 0x00400040)])) 63 { cj0 with desc := [2] ++ zeros 23 ++ [8] ++ zeros 7 ++ [9, 255, 255, 255] }, 63, { du0 with width := 64, height := 64, frames := 1 }, { cj0 with desc := [2] ++ zeros 23 ++ [8] ++ zeros 7 ++ [9, 255, 255, 255] }, by decide +kernel⟩,
   ⟨cs (wh ready) 63 { cj0 with desc := [2] ++ zeros 23 ++ [8] }, 63, { du0 with fail := 4 }, { cj0 with desc := [2] ++ zeros 23 ++ [8] }, by decide +kernel⟩,
   ⟨{ cs (wh (st [(ctxBase 63, CTX_GEOM, 0x00400040)])) 63 { cj0 with desc := [3] ++ zeros 23 ++ [8] ++ zeros 23 ++ [40] } with mem := [(0, 0x56), (1, 0x34), (2, 0x34), (3, 0x30), (4, 2), (10, 1)] }, 63, { du0 with width := 64, height := 64 }, { cj0 with desc := [3] ++ zeros 23 ++ [8] ++ zeros 23 ++ [40] }, by decide +kernel⟩,
   ⟨cs (wh ready) 63 { cj0 with desc := [3] ++ zeros 23 ++ [8] ++ zeros 23 ++ [40] }, 63, { cj0 with desc := [3] ++ zeros 23 ++ [8] ++ zeros 23 ++ [40] }, by decide +kernel⟩,
   ⟨{ cs ready 63 { cj0 with desc := [2], started := true, rows := 2, first := 1 } with cod := { (cs ready 63 { cj0 with desc := [2], started := true, rows := 2, first := 1 }).cod with engine := [none, none, none, some 63] } }, 63, 3, { cj0 with desc := [2], started := true, rows := 2, first := 1 }, by decide +kernel⟩,
   ⟨{ cs ready 63 { cj0 with desc := [1], started := true, rows := 2, first := 1, bounds := [7] } with cod := { (cs ready 63 { cj0 with desc := [1], started := true, rows := 2, first := 1, bounds := [7] }).cod with engine := [none, some 63, none, none] } }, 63, 1, { cj0 with desc := [1], started := true, rows := 2, first := 1, bounds := [7] }, by decide +kernel⟩,
   ⟨{ cs (st [pw (COD 3), (COD 3, COD_ENG_SUMP, 65535)]) 63 cj0 with cod := { (cs ready 63 cj0).cod with engine := [none, none, none, some 63] } }, 63, 3, cj0, by decide +kernel⟩,
   ⟨{ cs (st [pw (COD 3)]) 63 cj0 with cod := { (cs ready 63 cj0).cod with engine := [none, none, none, some 63] } }, 63, 3, cj0, by decide +kernel⟩,
   ⟨{ cs (st [pw (COD 3)]) 63 { cj0 with desc := [2] } with cod := { (cs ready 63 { cj0 with desc := [2] }).cod with engine := [none, none, none, some 63] } }, 63, 3, { cj0 with desc := [2] }, by decide +kernel⟩⟩

theorem witness_SendersEnableSlotAndSend :
  (∃ (s : State) (k : Fin 4) (sender : Fin 8) (value : Word) (x : Sender) (g : Nat × Nat × Nat),
    let b := sndBase k sender
    let off := b + ETH_SND_CFG.off
    let v := value.toNat ||| 1
    let q := (s.claimed.plainWrite off v).p b ETH_SND_CFG_EN 0
    let regs := (List.range 8).map (fun m => q.rd (b + 0x1100 + 4 * m))
    let tmpl := fun (z : Fld) => (q.template k (q.g b z)).getD []
    let fresh := ({ Sender.init with regs := regs, pri := tmpl ETH_SND_TMPL_PRI_TMPL, part := tmpl ETH_SND_TMPL_PARTNER_TMPL, base := x.base } : Sender)
s.canonical = true ∧ s.reaches off v = true ∧ s.on b ETH_SND_CFG_EN = false ∧ x = fresh ∧ q.sndReason k x = 0) ∧
  (∃ (s : State) (k : Fin 4) (sender : Fin 8) (value : Word) (x : Sender) (r : Nat) (g : Nat × Nat × Nat),
    let b := sndBase k sender
    let off := b + ETH_SND_CFG.off
    let v := value.toNat ||| 1
    let q := (s.claimed.plainWrite off v).p b ETH_SND_CFG_EN 0
    let regs := (List.range 8).map (fun m => q.rd (b + 0x1100 + 4 * m))
    let tmpl := fun (z : Fld) => (q.template k (q.g b z)).getD []
    let fresh := ({ Sender.init with regs := regs, pri := tmpl ETH_SND_TMPL_PRI_TMPL, part := tmpl ETH_SND_TMPL_PARTNER_TMPL, base := x.base } : Sender)
s.canonical = true ∧ s.reaches off v = true ∧ s.on b ETH_SND_CFG_EN = false ∧ x = fresh ∧ q.sndReason k x = r ∧ r ≠ 0 ∧ s.on
      (ETH k) PAGE_STAT_BAD_WRITE = false) ∧
  (∃ (s : State) (k : Fin 4) (sender : Fin 8) (value : Word),
    let b := sndBase k sender
    let off := b + ETH_SND_CFG.off
    let v := value.toNat ||| 1
s.canonical = true ∧ s.reaches off v = true ∧ s.on b ETH_SND_CFG_EN = true ∧ s.on (ETH k) PAGE_STAT_BAD_WRITE = false) ∧
  (∃ (s : State) (k : Fin 4) (sender : Fin 8) (value : Word) (x : Sender),
    let b := sndBase k sender
    let off := b + ETH_SND_CFG.off
    let v := value.toNat ||| 1
    let q := (s.claimed.plainWrite off v).p b ETH_SND_CFG_EN 0
    let regs := (List.range 8).map (fun m => q.rd (b + 0x1100 + 4 * m))
s.canonical = true ∧ s.reaches off (s.rd off &&& 0xFFFFFFFE) = true ∧ s.on b ETH_SND_CFG_EN = true ∧ s.snd k sender = x ∧
      x.regs ≠ [] ∧ x.sending = false) ∧
  (∃ (s : State) (k : Fin 4) (sender : Fin 8),
    let b := sndBase k sender
    let off := b + ETH_SND_CFG.off
s.canonical = true ∧ s.reaches off (s.rd off &&& 0xFFFFFFFE) = true ∧ s.on b ETH_SND_CFG_EN = false) ∧
  (∃ (s : State) (k : Fin 4) (sender : Fin 8),
    let b := sndBase k sender
s.canonical = true ∧ s.on b ETH_SND_CFG_EN = false) ∧
  (∃ (s : State) (k : Fin 4) (sender : Fin 8) (x : Sender) (n : Nat) (g : Nat × Nat × Nat),
    let b := sndBase k sender
    let t0 := x.slotStart n
    let due := s.on b ETH_SND_CFG_EN = true ∧ s.on TOP TOP_RESET_STAT_WARM_BUSY = false ∧ x.slotAt s.time.units = some n ∧ x.lastStart.all (fun l => decide (l + x.period ≤ t0)) = true ∧ (x.ports k).any (fun p => s.portUp p.1 p.2) = true
s.canonical = true ∧ s.snd k sender = x ∧ due ∧ x.anc? = true ∧ s.g b ETH_SND_ANC_CONS = s.g b ETH_SND_ANC_PROD) ∧
  (∃ (s : State) (k : Fin 4) (sender : Fin 8) (value : Word) (x : Sender) (n : Nat) (d : TapNews),
    let b := sndBase k sender
    let off := b + ETH_SND_CFG.off
    let v := value.toNat ||| 1
    let q := (s.claimed.plainWrite off v).p b ETH_SND_CFG_EN 0
    let regs := (List.range 8).map (fun m => q.rd (b + 0x1100 + 4 * m))
    let t0 := x.slotStart n
    let due := s.on b ETH_SND_CFG_EN = true ∧ s.on TOP TOP_RESET_STAT_WARM_BUSY = false ∧ x.slotAt s.time.units = some n ∧ x.lastStart.all (fun l => decide (l + x.period ≤ t0)) = true ∧ (x.ports k).any (fun p => s.portUp p.1 p.2) = true
s.canonical = true ∧ s.snd k sender = x ∧ due ∧ x.anc? = false ∧ x.regs ≠ [] ∧ s.sndNews x = some d) ∧
  (∃ (s : State) (k : Fin 4) (sender : Fin 8) (x : Sender),
s.canonical = true ∧ s.snd k sender = x ∧ x.sending = true ∧ x.anc? = true) ∧
  (∃ (s : State) (k : Fin 4) (sender : Fin 8) (x : Sender) (g : Nat × Nat × Nat) (f : Nat × Nat × Nat),
    let tap := s.srcTap x.src
s.canonical = true ∧ s.snd k sender = x ∧ x.sending = true ∧ x.anc? = false ∧ pgroup tap.format tap.ydepth (x.reg
      ETH_SND_CFG_DEPTH16 == 1) = some g ∧ x.sent = some f) ∧
  (∃ (s : State) (k : Fin 4) (sender : Fin 8) (x : Sender),
s.canonical = true ∧ s.snd k sender = x ∧ x.sending = false) ∧
  (∃ (s : State) (k : Fin 4) (sender : Fin 8) (value : Word),
    let b := sndBase k sender
    let off := b + ETH_SND_CFG.off
s.canonical = true ∧ s.reaches (b + ETH_SND_ANC_PROD.off) value.toNat = true) :=
  ⟨⟨{ wh (st [pw (ETH 3), (ETH 3, ETH_PORT_CFG_MAX_FRAME, 1500), (sndBase 3 7, ETH_SND_RATE, 0x1001E), (sndBase 3 7, ETH_SND_TMPL_PAYLOAD_MAX, 1016)]) with mem := [(0x50, 42), (0x51, 14)] }, 3, 7, 2, { Sender.init with regs := [2, 0, 0x1001E, 0, 0x3F80000, 0, 0, 4], pri := zeros 80 ++ [42, 14] ++ zeros 46, part := zeros 80 ++ [42, 14] ++ zeros 46 }, (0, 0, 0), by decide +kernel⟩,
   ⟨wh (st [pw (ETH 3), (sndBase 3 7, ETH_SND_TMPL_PAYLOAD_MAX, 1016)]), 3, 7, 2, { Sender.init with regs := [2, 0, 0, 0, 0x3F80000, 0, 0, 4], pri := zeros 128, part := zeros 128 }, 4, (0, 0, 0), by decide +kernel⟩,
   ⟨st [pw (ETH 3), (sndBase 3 7, ETH_SND_CFG_EN, 1)], 3, 7, 0, by decide +kernel⟩,
   ⟨sd (st [pw (ETH 3), (sndBase 3 7, ETH_SND_CFG, 3)]) 3 7 { x0 with sending := false }, 3, 7, 0, { x0 with sending := false }, by decide +kernel⟩,
   ⟨st [pw (ETH 3)], 3, 7, by decide +kernel⟩,
   ⟨ready, 3, 0, by decide +kernel⟩,
   ⟨sd (st [pw (ETH 3), (sndBase 3 7, ETH_SND_CFG, 3), (ETH 3, ETH_PORT_STAT_UP_0, 1)]) 3 7 { x0 with sending := false }, 3, 7, { x0 with sending := false }, 0, (0, 0, 0), by decide +kernel⟩,
   ⟨{ sd (st [pw (ETH 3), (sndBase 3 7, ETH_SND_CFG, 1), (ETH 3, ETH_PORT_STAT_UP_0, 1)]) 3 7 { x0 with sending := false, regs := [1, 0, 0x1001E, 0, 0, 0, 0, 0] } with tapNews := [⟨0, 1, 5, 2, []⟩] }, 3, 7, 0, { x0 with sending := false, regs := [1, 0, 0x1001E, 0, 0, 0, 0, 0] }, 0, ⟨0, 1, 5, 2, []⟩, by decide +kernel⟩,
   ⟨sd (st [pw (ETH 3), (sndBase 3 7, ETH_SND_CFG, 3), (ETH 3, ETH_PORT_STAT_UP_0, 1)]) 3 7 { x0 with seq := 2 ^ 32 - 1 }, 3, 7, { x0 with seq := 2 ^ 32 - 1 }, by decide +kernel⟩,
   ⟨sd (st [pw (ETH 3)]) 3 7 { x0 with regs := [1, 0, 0x1001E, 0, 0, 0, 0, 0], sent := some (0, 0, 0) }, 3, 7, { x0 with regs := [1, 0, 0x1001E, 0, 0, 0, 0, 0], sent := some (0, 0, 0) }, (15, 4, 10), (0, 0, 0), by decide +kernel⟩,
   ⟨ready, 3, 0, Sender.init, by decide +kernel⟩,
   ⟨st [pw (ETH 3)], 3, 7, 0x1FFFF, by decide +kernel⟩⟩

theorem witness_SluiceSessionsFollowTheirMessages :
  (∃ (s : State) (k : Fin 4) (u : Fin 8) (g : Segment),
    let b := sesBase k u
    let q := s.claimed
    let pri := q.template k (q.g b ETH_SES_TMPL_PRI_TMPL)
    let alt := q.template k (q.g b ETH_SES_TMPL_ALT_TMPL)
    let off := b + ETH_SES_CTRL.off
s.canonical = true ∧ s.reaches off 1 = true ∧ s.sessionOpen k u = false ∧ q.openReason k u pri alt = 0) ∧
  (∃ (s : State) (k : Fin 4) (u : Fin 8) (r : Nat) (g : Segment),
    let b := sesBase k u
    let q := s.claimed
    let pri := q.template k (q.g b ETH_SES_TMPL_PRI_TMPL)
    let alt := q.template k (q.g b ETH_SES_TMPL_ALT_TMPL)
    let off := b + ETH_SES_CTRL.off
s.canonical = true ∧ s.reaches off 1 = true ∧ s.sessionOpen k u = false ∧ q.openReason k u pri alt = r ∧ r ≠ 0 ∧ s.on (ETH k)
      PAGE_STAT_BAD_WRITE = false) ∧
  (∃ (s : State) (k : Fin 4) (u : Fin 8),
    let b := sesBase k u
    let off := b + ETH_SES_CTRL.off
s.canonical = true ∧ s.reaches off 1 = true ∧ s.sessionOpen k u = true ∧ s.on (ETH k) PAGE_STAT_BAD_WRITE = false) ∧
  (∃ (s : State) (k : Fin 4) (u : Fin 8),
    let b := sesBase k u
    let off := b + ETH_SES_CTRL.off
    let x := s.ses k u
s.canonical = true ∧ s.reaches off 2 = true ∧ s.sesState k u = 2 ∧ x.segs = []) ∧
  (∃ (s : State) (k : Fin 4) (u : Fin 8),
    let b := sesBase k u
    let off := b + ETH_SES_CTRL.off
    let x := s.ses k u
s.canonical = true ∧ s.reaches off 2 = true ∧ s.sesState k u = 2 ∧ x.segs ≠ []) ∧
  (∃ (s : State) (k : Fin 4) (u : Fin 8),
    let b := sesBase k u
    let off := b + ETH_SES_CTRL.off
s.canonical = true ∧ s.reaches off 4 = true ∧ s.sesState k u ∈ [1, 2, 3]) ∧
  (∃ (s : State) (k : Fin 4) (msg : List Byte) (n : Nat),
s.canonical = true ∧ sluiceOk msg 2 28 = true ∧ s.sesOf k msg = some n ∧ s.sesState k n = 1 ∧ beAt msg 20 1 = 0) ∧
  (∃ (s : State) (k : Fin 4) (msg : List Byte) (n : Nat),
s.canonical = true ∧ sluiceOk msg 2 28 = true ∧ s.sesOf k msg = some n ∧ s.sesState k n = 1 ∧ beAt msg 20 1 ≠ 0) ∧
  (∃ (s : State) (k : Fin 4) (msg : List Byte) (n : Nat),
s.canonical = true ∧ sluiceOk msg 4 32 = true ∧ s.sesOf k msg = some n ∧ s.sesState k n = 2) ∧
  (∃ (s : State) (k : Fin 4) (msg : List Byte) (n : Nat),
s.canonical = true ∧ sluiceOk msg 6 20 = true ∧ s.sesOf k msg = some n ∧ s.sesState k n = 4) ∧
  (∃ (s : State) (k : Fin 4) (msg : List Byte),
s.canonical = true ∧ s.sesOf k msg = none) ∧
  (∃ (s : State) (k : Fin 4) (u : Fin 8),
s.canonical = true ∧ s.sesUp k u = false) ∧
  (∃ (s : State) (k : Fin 4) (u : Fin 8),
    let x := s.ses k u
s.canonical = true ∧ s.sesUp k u = true ∧ s.sesState k u = 1 ∧ 8 ≤ x.tries) ∧
  (∃ (s : State) (k : Fin 4) (u : Fin 8) (ssn : Nat) (g : Segment),
    let x := s.ses k u
s.canonical = true ∧ s.sesUp k u = true ∧ s.sesState k u = 2 ∧ x.segs = [g] ∧ g.ssn = ssn ∧ g.sends < 8 ∧ s.sesAlt k u = none) ∧
  (∃ (s : State) (k : Fin 4) (u : Fin 8),
s.canonical = true ∧ s.sesUp k u = false) ∧
  (∃ (s : State) (k : Fin 4) (u : Fin 8) (f : AreaFrame) (g : Segment),
    let b := sesBase k u
    let x := s.ses k u
s.canonical = true ∧ s.sesUp k u = true ∧ s.sesState k u = 2 ∧ x.segs = [] ∧ (s.ethUnit k).sessions.length = 8 ∧ s.sesFrame k
      u = some f ∧ s.g b ETH_SES_WIN_WINDOW ≠ 0 ∧ f.first = x.pos) :=
  ⟨⟨{ wh (st [pw (ETH 3), (ETH 3, ETH_PORT_CFG_MAX_FRAME, 9000), (TSQ, TSQ_RCV_STAT_STATE, 2)]) with mem := [(0x50, 42), (0x51, 14)], tsq := { State.reset.tsq with areas := List.replicate 4 ⟨0, 9, 0, 0, 0, []⟩ } }, 3, 7, ⟨0, 0, 0, 1, 0, 1, 1, false⟩, by decide +kernel⟩,
   ⟨st [pw (ETH 3)], 3, 7, 1, ⟨0, 0, 0, 1, 0, 1, 1, false⟩, by decide +kernel⟩,
   ⟨st [pw (ETH 3), (sesBase 3 7, ETH_SES_STAT_STATE, 2)], 3, 7, by decide +kernel⟩,
   ⟨st [pw (ETH 3), (sesBase 3 7, ETH_SES_STAT_STATE, 2)], 3, 7, by decide +kernel⟩,
   ⟨ss (st [pw (ETH 3), (sesBase 3 7, ETH_SES_STAT_STATE, 2)]) 3 7 { Session.init with segs := [g0] }, 3, 7, by decide +kernel⟩,
   ⟨ss (st [pw (ETH 3), (sesBase 3 7, ETH_SES_STAT_STATE, 2)]) 3 7 { Session.init with segs := [g0] }, 3, 7, by decide +kernel⟩,
   ⟨st [pw (ETH 3), (sesBase 3 7, ETH_SES_STAT_STATE, 1), (sesBase 3 7, ETH_SES_ID, 77)], 3, sluiceMsg 2 77 0 (beBytes 4 70000 ++ zeros 4), 7, by decide +kernel⟩,
   ⟨st [pw (ETH 3), (sesBase 3 7, ETH_SES_STAT_STATE, 1), (sesBase 3 7, ETH_SES_ID, 77)], 3, sluiceMsg 2 77 0 (beBytes 4 70000 ++ [1, 0, 0, 0]), 7, by decide +kernel⟩,
   ⟨ss (st [pw (ETH 3), (sesBase 3 7, ETH_SES_STAT_STATE, 2), (sesBase 3 7, ETH_SES_ID, 77)]) 3 7 { Session.init with segs := [g0, { g0 with ssn := 1 }, { g0 with ssn := 2 }, { g0 with ssn := 3 }] }, 3, sluiceMsg 4 77 1 (beBytes 8 2 ++ beBytes 4 100), 7, by decide +kernel⟩,
   ⟨st [pw (ETH 3), (sesBase 3 7, ETH_SES_STAT_STATE, 4), (sesBase 3 7, ETH_SES_ID, 77)], 3, sluiceMsg 6 77 0 [], 7, by decide +kernel⟩,
   ⟨ready, 0, sluiceMsg 6 77 0 [], by decide +kernel⟩,
   ⟨ready, 3, 0, by decide +kernel⟩,
   ⟨ss (st [pw (ETH 3), (ETH 3, ETH_PORT_STAT_UP_0, 1), (sesBase 3 7, ETH_SES_STAT_STATE, 1)]) 3 7 { Session.init with tries := 8 }, 3, 7, by decide +kernel⟩,
   ⟨ss (st [pw (ETH 3), (ETH 3, ETH_PORT_STAT_UP_0, 1), (sesBase 3 7, ETH_SES_STAT_STATE, 2)]) 3 7 { Session.init with segs := [{ g0 with sends := 7 }] }, 3, 7, 0, { g0 with sends := 7 }, by decide +kernel⟩,
   ⟨ready, 3, 0, by decide +kernel⟩,
   ⟨{ st [pw (ETH 3), (ETH 3, ETH_PORT_STAT_UP_0, 1), (sesBase 3 7, ETH_SES_STAT_STATE, 2), (sesBase 3 7, ETH_SES_WIN_WINDOW, 1), (sesBase 3 7, ETH_SES_NEXT_LO, 2 ^ 32 - 1), (sesBase 3 7, ETH_SES_NEXT_HI, 2 ^ 32 - 1)] with tsq := { State.reset.tsq with areas := List.replicate 4 ⟨0, 9, 1, 0, 0, [⟨9, 0, 1, 0⟩]⟩ } }, 3, 7, ⟨9, 0, 1, 0⟩, ⟨0, 0, 0, 1, 0, 1, 1, false⟩, by decide +kernel⟩⟩

theorem witness_RecorderAndReleaseFollowTheirRules :
  (∃ (s : State) (msg : List Byte) (status : Byte),
s.canonical = true ∧ sluiceOk msg 1 36 = true ∧ status = 0) ∧
  (∃ (s : State) (msg : List Byte) (status : Byte),
s.canonical = true ∧ sluiceOk msg 1 36 = true ∧ status ≠ 0) ∧
  (∃ (s : State) (msg : List Byte) (held : List Nat),
    let id := beAt msg 4 4
s.canonical = true ∧ beAt msg 34 1 = 1 ∧ sluiceOk msg 3 4148 = true ∧ s.recorder.sessions = [(id, held)] ∧ held.contains (beAt
      msg 8 8) = false ∧ s.recorder.held = []) ∧
  (∃ (s : State) (msg : List Byte),
s.canonical = true ∧ sluiceOk msg 3 (52 + 4096 * beAt msg 34 1) = false) ∧
  (∃ (s : State) (msg : List Byte),
s.canonical = true ∧ sluiceOk msg 5 24 = true) ∧
  (∃ (s : State) (msg : List Byte),
s.canonical = true ∧ sluiceOk msg 5 24 = false) ∧
  (∃ (s : State) (slot : Fin 32) (c : TCmd),
    let mine := s.tsq.cmds = [c] ∧ s.runnable slot 4 = some c
    let a := s.area c.area
s.canonical = true ∧ mine ∧ c.blk < a.tail) ∧
  (∃ (s : State) (slot : Fin 32) (c : TCmd),
    let mine := s.tsq.cmds = [c] ∧ s.runnable slot 4 = some c
    let a := s.area c.area
s.canonical = true ∧ mine ∧ a.targetKind c.blk = 2) ∧
  (∃ (s : State) (slot : Fin 32) (c : TCmd),
    let mine := s.tsq.cmds = [c] ∧ s.runnable slot 4 = some c
    let a := s.area c.area
s.canonical = true ∧ mine ∧ a.targetKind c.blk = 1 ∧ s.jnlFree ≠ 0 ∧ s.releaseBound c.area = none) ∧
  (∃ (s : State) (h : Fin 4),
s.canonical = true ∧ s.holdTarget h = none) ∧
  (∃ (s : State) (h : Fin 4) (tgt : Nat),
s.canonical = true ∧ s.holdTarget h = some tgt ∧ (s.area h).tail < tgt ∧ s.jnlFree ≠ 0) :=
  ⟨⟨ready, sluiceMsg 1 77 0 (zeros 16), 0, by decide +kernel⟩,
   ⟨ready, sluiceMsg 1 77 0 (zeros 16), 255, by decide +kernel⟩,
   ⟨{ ready with recorder := ⟨[(77, [0])], []⟩ }, sluiceMsg 3 77 1 (zeros 18 ++ [1] ++ zeros 4109), [0], ⟨by decide +kernel, by decide +kernel, sluiceMsg_ok 3 77 1 4148 (zeros 18 ++ [1] ++ zeros 4109) (by decide) (by simp only [zeros, List.length_append, List.length_replicate, List.length_cons, List.length_nil]), by decide +kernel, by decide +kernel, by decide +kernel⟩⟩,
   ⟨ready, [0], by decide +kernel⟩,
   ⟨{ ready with recorder := ⟨[(77, [0]), (78, [])], []⟩ }, sluiceMsg 5 77 1 (zeros 4), by decide +kernel⟩,
   ⟨ready, [0], by decide +kernel⟩,
   ⟨{ ts ready { tc0 with cmd := 4, blk := 3 } with tsq := { (ts ready { tc0 with cmd := 4, blk := 3 }).tsq with areas := List.replicate 4 ⟨0, 9, 5, 4, 0, [⟨9, 4, 1, 0⟩]⟩ } }, 3, { tc0 with cmd := 4, blk := 3 }, by decide +kernel⟩,
   ⟨{ ts ready { tc0 with cmd := 4, blk := 6 } with tsq := { (ts ready { tc0 with cmd := 4, blk := 6 }).tsq with areas := List.replicate 4 ⟨0, 9, 5, 4, 0, [⟨9, 4, 1, 0⟩]⟩ } }, 3, { tc0 with cmd := 4, blk := 6 }, by decide +kernel⟩,
   ⟨{ ts (st [(TSQ, TSQ_JNL_BLOCKS, 4096)]) { tc0 with cmd := 4, blk := 5 } with tsq := { (ts ready { tc0 with cmd := 4, blk := 5 }).tsq with areas := List.replicate 4 ⟨0, 9, 5, 4, 0, [⟨9, 4, 1, 0⟩]⟩ } }, 3, { tc0 with cmd := 4, blk := 5 }, by decide +kernel⟩,
   ⟨ready, 3, by decide +kernel⟩,
   ⟨{ st [pw (ETH 3), (TSQ, TSQ_JNL_BLOCKS, 4096), (sesBase 3 7, ETH_SES_STAT_STATE, 2), (sesBase 3 7, ETH_SES_CFG, 0xB)] with tsq := { State.reset.tsq with areas := List.replicate 4 ⟨0, 9, 5, 4, 0, []⟩ } }, 3, 5, by decide +kernel⟩⟩

theorem witness_DeviceTimeIsReadSteppedAndLoaded :
  (∃ (s : State) (value : Word),
    let v := value.toNat
s.canonical = true ∧ s.reaches (TIM + TIM_INC_HI.off) v = true) ∧
  (∃ (s : State),
s.canonical = true ∧ s.hif.memory = true ∧ s.on TOP TOP_RESET_STAT_WARM_BUSY = false) ∧
  (∃ (s : State),
s.canonical = true ∧ s.reaches (TIM + TIM_ADJ_CTRL.off) 1 = true ∧ s.on TIM TIM_STAT_ADJ_PEND = false) ∧
  (∃ (s : State),
s.canonical = true ∧ s.reaches (TIM + TIM_ADJ_CTRL.off) 1 = true ∧ s.on TIM TIM_STAT_ADJ_PEND = true ∧ s.on TIM
      PAGE_STAT_BAD_WRITE = false) ∧
  (∃ (s : State),
s.canonical = true ∧ s.reaches (TIM + TIM_ADJ_CTRL.off) 2 = true ∧ s.on TIM TIM_STAT_ADJ_PEND = false) ∧
  (∃ (s : State),
s.canonical = true ∧ s.tim.adj = none) ∧
  (∃ (s : State) (load : Bool) (amount : Int) (x : Nat),
s.canonical = true ∧ s.tim.adj = some (load, amount, x)) ∧
  (∃ (s : State) (value : Word),
    let v := value.toNat
s.canonical = true ∧ s.reaches (TIM + TIM_CTRL.off) v = true) ∧
  (∃ (s : State),
s.canonical = true ∧ s.on TIM TIM_CTRL_LOCKED = true ∧ s.g TIM TIM_WDOG ≠ 0) ∧
  (∃ (s : State),
s.canonical = true ∧ (s.on TIM TIM_CTRL_LOCKED = false ∨ s.g TIM TIM_WDOG = 0)) ∧
  (∃ (s : State),
s.canonical = true ∧ s.tim.pllOut = false) ∧
  (∃ (s : State),
s.canonical = true ∧ s.tim.pllOut = true) ∧
  (∃ (s : State),
s.canonical = true ∧ s.g TIM TIM_CTRL_TREF_MODE = 0) ∧
  (∃ (s : State),
s.canonical = true ∧ s.g TIM TIM_CTRL_TREF_MODE = 1 ∧ s.on TIM TIM_CAP_EN_TREF = true ∧ s.tim.caps.length < 32) ∧
  (∃ (s : State),
s.canonical = true) ∧
  (∃ (s : State),
s.canonical = true) :=
  ⟨⟨ready, 0x19999, by decide +kernel⟩,
   ⟨at_ ready ⟨0x123456789ABC, 999999999, 2 ^ 48 - 1⟩, by decide +kernel⟩,
   ⟨at_ (st [(TIM, TIM_ADJ_HI, 2 ^ 31)]) ⟨2 ^ 48 - 1, 999999999, 2 ^ 48 - 1⟩, by decide +kernel⟩,
   ⟨st [(TIM, TIM_STAT_ADJ_PEND, 1)], by decide +kernel⟩,
   ⟨st [(TIM, TIM_SET_SEC_HI, 0xFFFF), (TIM, TIM_SET_NS, 999999999), (TIM, TIM_SET_FRAC, 0xFFFF)], by decide +kernel⟩,
   ⟨ready, by decide +kernel⟩,
   ⟨tm (st [(TIM, TIM_STAT_ADJ_PEND, 1)]) (fun z => { z with adj := some (false, -65536, 80000 * 2 ^ 48) }), false, -65536, 80000 * 2 ^ 48, by decide +kernel⟩,
   ⟨st [(TIM, TIM_STAT_FREE_RUN, 1)], 3, by decide +kernel⟩,
   ⟨st [(TIM, TIM_CTRL_LOCKED, 1), (TIM, TIM_WDOG, 5)], by decide +kernel⟩,
   ⟨ready, by decide +kernel⟩,
   ⟨ready, by decide +kernel⟩,
   ⟨tm (st [(TIM, FAULT_SUM, 1)]) (fun z => { z with pllOut := true }), by decide +kernel⟩,
   ⟨ready, by decide +kernel⟩,
   ⟨tm (st [(TIM, TIM_CTRL_TREF_MODE, 1), (TIM, TIM_CAP_EN_TREF, 1)]) (fun z => { z with caps := List.replicate 31 ⟨3, ⟨0, 0, 0⟩⟩ }), by decide +kernel⟩,
   ⟨st [(TIM, TIM_CTRL_TREF_MODE, 1), (TIM, TIM_STAT_TREF_PRESENT, 1)], by decide +kernel⟩,
   ⟨st [(TIM, TIM_STAT_SYNC_PRESENT, 1)], by decide +kernel⟩⟩

theorem witness_CapturesAndStrobesFollowTheirRules :
  (∃ (s : State) (rise : Bool),
s.canonical = true ∧ s.tim.syncIn = rise) ∧
  (∃ (s : State),
s.canonical = true ∧ s.tim.syncIn = false ∧ s.on TIM TIM_CAP_EN_SYNC_RISE = true ∧ s.tim.caps.length < 32) ∧
  (∃ (s : State),
    let full := s.tim.caps.length = 32
s.canonical = true ∧ s.tim.syncIn = true ∧ s.on TIM TIM_CAP_EN_SYNC_FALL = true ∧ full) ∧
  (∃ (s : State),
s.canonical = true ∧ s.reaches (TIM + TIM_CAP_CTRL.off) 4 = true ∧ s.tim.caps = []) ∧
  (∃ (s : State),
    let full := s.tim.caps.length = 32
s.canonical = true ∧ s.reaches (TIM + TIM_CAP_CTRL.off) 4 = true ∧ full ∧ s.on TIM TIM_CAP_STAT_OVERFLOW = false) ∧
  (∃ (s : State) (c : Capture) (rest : List Capture),
s.canonical = true ∧ s.reaches (TIM + TIM_CAP_CTRL.off) 1 = true ∧ s.tim.caps = c :: rest) ∧
  (∃ (s : State),
s.canonical = true ∧ s.reaches (TIM + TIM_CAP_CTRL.off) 2 = true) ∧
  (∃ (s : State) (n : Fin 8),
    let b := stb n
s.canonical = true ∧ s.reaches (b + TIM_STB_CTRL.off) 1 = true ∧ s.stbRefused n = true ∧ s.on TIM PAGE_STAT_BAD_WRITE = false) ∧
  (∃ (s : State) (n : Fin 8),
    let b := stb n
s.canonical = true ∧ s.reaches (b + TIM_STB_CTRL.off) 1 = true ∧ s.stbRefused n = false ∧ s.stbMode n = 4 ∧
      s.tim.strobes.length = 8) ∧
  (∃ (s : State) (n : Fin 8),
    let b := stb n
    let first := s.stbAt n 0
s.canonical = true ∧ s.reaches (b + TIM_STB_CTRL.off) 1 = true ∧ s.stbRefused n = false ∧ s.stbMode n = 1 ∧ 100 * 2 ^ 48 <
      timeDiff first s.time.units) ∧
  (∃ (s : State) (n : Fin 8),
    let b := stb n
    let first := s.stbAt n 0
    let x := s.strobe n
s.canonical = true ∧ s.reaches (b + TIM_STB_CTRL.off) 1 = true ∧ s.stbRefused n = false ∧ s.stbMode n = 1 ∧ x.pulse = false ∧
      timeDiff first s.time.units ≤ 100 * 2 ^ 48) ∧
  (∃ (s : State) (n : Fin 8),
    let b := stb n
    let x := s.strobe n
s.canonical = true ∧ s.reaches (b + TIM_STB_CTRL.off) 2 = true ∧ s.stbArmed n = true ∧ s.stbMode n ≠ 3 ∧ x.pulse = false) ∧
  (∃ (s : State) (n : Fin 8),
    let b := stb n
    let x := s.strobe n
s.canonical = true ∧ s.reaches (b + TIM_STB_CTRL.off) 2 = true ∧ s.stbArmed n = true ∧ s.stbMode n = 3 ∧ s.on b
      TIM_STB_STAT_ACTIVE = true ∧ x.arming = false ∧ s.tim.strobes.length = 8) ∧
  (∃ (s : State) (n : Fin 8),
    let x := s.strobe n
s.canonical = true ∧ x.ending = true) ∧
  (∃ (s : State) (n : Fin 8),
    let x := s.strobe n
s.canonical = true ∧ x.ending = false) ∧
  (∃ (s : State) (n : Fin 8),
    let x := s.strobe n
s.canonical = true ∧ s.stbArmed n = true ∧ s.stbMode n = 1 ∧ x.pulse = false ∧ s.tim.strobes.length = 8) ∧
  (∃ (s : State) (n : Fin 8),
    let x := s.strobe n
s.canonical = true ∧ x.pulse = true ∧ x.old = false ∧ s.stbArmed n = true ∧ s.stbMode n = 1) ∧
  (∃ (s : State) (n : Fin 8),
    let b := stb n
    let x := s.strobe n
s.canonical = true ∧ x.pulse = true ∧ x.old = false ∧ x.stepped = false ∧ s.stbArmed n = true ∧ s.stbMode n = 2 ∧ s.g b
      TIM_STB_COUNT = 0) :=
  ⟨⟨ready, false, by decide +kernel⟩,
   ⟨st [(TIM, TIM_CAP_EN_SYNC_RISE, 1)], by decide +kernel⟩,
   ⟨tm (st [(TIM, TIM_CAP_EN_SYNC_FALL, 1)]) (fun z => { z with syncIn := true, caps := List.replicate 32 ⟨3, ⟨0, 0, 0⟩⟩ }), by decide +kernel⟩,
   ⟨at_ ready ⟨5, 999999999, 0⟩, by decide +kernel⟩,
   ⟨tm ready (fun z => { z with caps := List.replicate 32 ⟨3, ⟨0, 0, 0⟩⟩ }), by decide +kernel⟩,
   ⟨tm ready (fun z => { z with caps := [⟨3, ⟨0, 0, 0⟩⟩, ⟨1, ⟨4, 5, 0⟩⟩] }), ⟨3, ⟨0, 0, 0⟩⟩, [⟨1, ⟨4, 5, 0⟩⟩], by decide +kernel⟩,
   ⟨st [(TIM, TIM_CAP_STAT_OVERFLOW, 1)], by decide +kernel⟩,
   ⟨st [(stb 7, TIM_STB_CFG_MODE, 1), (stb 7, TIM_STB_NUM, 1), (stb 7, TIM_STB_DEN, 1), (stb 7, TIM_STB_WIDTH, 159)], 7, by decide +kernel⟩,
   ⟨st [(stb 7, TIM_STB_CFG_MODE, 4), (stb 7, TIM_STB_NUM, 1), (stb 7, TIM_STB_DEN, 1), (stb 7, TIM_STB_STAT_DONE, 1)], 7, by decide +kernel⟩,
   ⟨st [(stb 7, TIM_STB_CFG_MODE, 1), (stb 7, TIM_STB_NUM, 1), (stb 7, TIM_STB_DEN, 1), (stb 7, TIM_STB_WIDTH, 160), (stb 7, TIM_STB_START_NS, 101)], 7, by decide +kernel⟩,
   ⟨st [(stb 7, TIM_STB_CFG_MODE, 1), (stb 7, TIM_STB_NUM, 1), (stb 7, TIM_STB_DEN, 1), (stb 7, TIM_STB_WIDTH, 160), (stb 7, TIM_STB_START_NS, 100)], 7, by decide +kernel⟩,
   ⟨st [(stb 7, TIM_STB_CFG_MODE, 4), (stb 7, TIM_STB_STAT_ARMED, 1), (stb 7, TIM_STB_STAT_ACTIVE, 1)], 7, by decide +kernel⟩,
   ⟨st [(stb 7, TIM_STB_CFG_MODE, 3), (stb 7, TIM_STB_STAT_ARMED, 1), (stb 7, TIM_STB_STAT_ACTIVE, 1)], 7, by decide +kernel⟩,
   ⟨(st [(stb 7, TIM_STB_CFG_MODE, 3), (stb 7, TIM_STB_STAT_ARMED, 1), (stb 7, TIM_STB_STAT_ACTIVE, 1)]).setStrobe 7 (fun z => { z with ending := true }), 7, by decide +kernel⟩,
   ⟨ready, 7, by decide +kernel⟩,
   ⟨st [(stb 7, TIM_STB_CFG_MODE, 1), (stb 7, TIM_STB_STAT_ARMED, 1), (stb 7, TIM_STB_SENT, 2 ^ 32 - 1)], 7, by decide +kernel⟩,
   ⟨(st [(stb 7, TIM_STB_CFG_MODE, 1), (stb 7, TIM_STB_STAT_ARMED, 1), (stb 7, TIM_STB_STAT_ACTIVE, 1)]).setStrobe 7 (fun z => { z with pulse := true }), 7, by decide +kernel⟩,
   ⟨(st [(stb 7, TIM_STB_CFG_MODE, 2), (stb 7, TIM_STB_STAT_ARMED, 1), (stb 7, TIM_STB_STAT_ACTIVE, 1)]).setStrobe 7 (fun z => { z with pulse := true }), 7, by decide +kernel⟩⟩

theorem witness_DmaChannelsFetchHaltAndWriteBack :
  (∃ (s : State) (c : Fin 16) (value : Word),
    let b := DMA c
    let v := value.toNat
s.canonical = true ∧ s.reaches (b + DMA_PROD.off) v = true ∧ (v + 2 ^ 32 - s.g b DMA_DONE) % 2 ^ 32 ≤ 2 ^ s.g b
      DMA_RING_CFG_LOG2) ∧
  (∃ (s : State) (c : Fin 16) (value : Word),
    let b := DMA c
    let v := value.toNat
s.canonical = true ∧ s.reaches (b + DMA_PROD.off) v = true ∧ 2 ^ s.g b DMA_RING_CFG_LOG2 < (v + 2 ^ 32 - s.g b DMA_DONE) % 2 ^
      32 ∧ s.on b PAGE_STAT_BAD_WRITE = false) ∧
  (∃ (s : State) (c : Fin 16),
    let b := DMA c
    let x := s.ch c
    let at_ := s.g b DMA_CONS
    let got := s.masterRead (0x20 + c) (s.g b DMA_RING_CFG_ASID) (s.dmaEntry c at_) 64
    let new := (⟨at_, got.2.1.take 56, none⟩ : DmaDesc)
    let runs := s.enabled b = true ∧ s.powered b = true ∧ x.held = false ∧ s.g b DMA_STAT_STATE ≠ 4
s.canonical = true ∧ runs ∧ at_ ≠ s.g b DMA_PROD ∧ x.descs.length < 8 ∧ x.abort = none ∧ got.1 = .ok ∧ new.bad (s.g b
      DMA_CFG_REQ_SRC) = false) ∧
  (∃ (s : State) (c : Fin 16),
    let b := DMA c
    let x := s.ch c
    let at_ := s.g b DMA_CONS
    let got := s.masterRead (0x20 + c) (s.g b DMA_RING_CFG_ASID) (s.dmaEntry c at_) 64
    let new := (⟨at_, got.2.1.take 56, none⟩ : DmaDesc)
    let runs := s.enabled b = true ∧ s.powered b = true ∧ x.held = false ∧ s.g b DMA_STAT_STATE ≠ 4
s.canonical = true ∧ runs ∧ at_ ≠ s.g b DMA_PROD ∧ x.descs.length < 8 ∧ x.abort = none ∧ got.1 = .ok ∧ new.bad (s.g b
      DMA_CFG_REQ_SRC) = true) ∧
  (∃ (s : State) (c : Fin 16),
    let b := DMA c
    let at_ := s.g b DMA_CONS
s.canonical = true ∧ at_ = s.g b DMA_PROD) ∧
  (∃ (s : State) (c : Fin 16) (d : DmaDesc) (r : List DmaDesc) (o : Nat) (detail : Nat) (csum : Nat),
    let b := DMA c
    let x := s.ch c
    let put := s.masterWrite (0x20 + c) (s.g b DMA_RING_CFG_ASID) (s.dmaEntry c d.idx + 0x38) (leBytes 1 o ++ leBytes 1 detail ++ zeros 2 ++ leBytes 4 csum)
s.canonical = true ∧ x.descs = d :: r ∧ d.done = some (o, detail, csum) ∧ put.1 = .ok) ∧
  (∃ (s : State) (c : Fin 16),
    let b := DMA c
    let credits := s.g b DMA_REQ_STAT_CREDITS
s.canonical = true ∧ s.reaches (b + DMA_REQ_CTRL.off) 1 = true ∧ s.g b DMA_CFG_REQ_SRC = 1 ∧ credits ≠ 65535) ∧
  (∃ (s : State) (c : Fin 16),
    let b := DMA c
    let credits := s.g b DMA_REQ_STAT_CREDITS
s.canonical = true ∧ s.reaches (b + DMA_REQ_CTRL.off) 1 = true ∧ s.g b DMA_CFG_REQ_SRC = 1 ∧ credits = 65535) ∧
  (∃ (s : State) (c : Fin 16),
    let b := DMA c
    let credits := s.g b DMA_REQ_STAT_CREDITS
s.canonical = true ∧ s.reaches (b + DMA_REQ_CTRL.off) 2 = true ∧ credits ≠ 0) ∧
  (∃ (s : State) (c : Fin 16),
    let b := DMA c
    let credits := s.g b DMA_REQ_STAT_CREDITS
s.canonical = true ∧ s.reaches (b + DMA_REQ_CTRL.off) 2 = true ∧ credits = 0) ∧
  (∃ (s : State) (c : Fin 16),
    let b := DMA c
    let x := s.ch c
s.canonical = true ∧ x.descs ≠ [] ∧ s.g b DMA_STAT_STATE ≠ 4) ∧
  (∃ (s : State) (c : Fin 16),
    let b := DMA c
    let x := s.ch c
s.canonical = true ∧ x.descs ≠ [] ∧ s.g b DMA_STAT_STATE ≠ 4) ∧
  (∃ (s : State) (c : Fin 16),
    let b := DMA c
    let x := s.ch c
s.canonical = true ∧ s.reaches (b + DMA_CTRL.off) 1 = true ∧ s.g b DMA_STAT_STATE = 4 ∧ x.descs ≠ [] ∧ s.dmaShed c = false) ∧
  (∃ (s : State) (c : Fin 16),
    let b := DMA c
s.canonical = true ∧ s.reaches (b + DMA_CTRL.off) 1 = true ∧ s.g b DMA_STAT_STATE ≠ 4) ∧
  (∃ (s : State) (c : Fin 16) (d : DmaDesc) (r : List DmaDesc),
    let b := DMA c
    let x := s.ch c
s.canonical = true ∧ s.reaches (b + DMA_CTRL.off) 2 = true ∧ s.g b DMA_STAT_STATE = 4 ∧ s.on b DMA_STAT_FETCH = false ∧ s.on b
      DMA_STAT_PAST_PNR = false ∧ x.descs = d :: r ∧ s.dmaShed c = false) ∧
  (∃ (s : State) (c : Fin 16),
    let b := DMA c
s.canonical = true ∧ s.reaches (b + DMA_CTRL.off) 2 = true ∧ s.on b DMA_STAT_PAST_PNR = true ∧ s.on b PAGE_STAT_BAD_WRITE =
      false) ∧
  (∃ (s : State) (c : Fin 16),
    let b := DMA c
    let x := s.ch c
    let at_ := s.g b DMA_CONS
s.canonical = true ∧ s.reaches (b + DMA_CTRL.off) 4 = true ∧ x.descs = [] ∧ at_ = s.g b DMA_PROD) ∧
  (∃ (s : State) (c : Fin 16) (d : DmaDesc),
    let b := DMA c
    let x := s.ch c
    let at_ := s.g b DMA_CONS
    let named := (d.idx + 2 ^ 32 - s.g b DMA_ABORT_IDX) % 2 ^ 32 < 2 ^ 31
s.canonical = true ∧ s.reaches (b + DMA_CTRL.off) 4 = true ∧ x.descs = [d] ∧ d.done = none ∧ named ∧ at_ = s.g b DMA_PROD ∧
      at_ = inc32 d.idx ∧ s.on b DMA_STAT_PAST_PNR = false) :=
  ⟨⟨dst [(DMA 15, DMA_DONE, 2 ^ 32 - 1), (DMA 15, DMA_RING_CFG_LOG2, 4)], 15, 15, by decide +kernel⟩,
   ⟨dst [(DMA 15, DMA_DONE, 2 ^ 32 - 1), (DMA 15, DMA_RING_CFG_LOG2, 4)], 15, 16, by decide +kernel⟩,
   ⟨{ wh (dst [(DMA 15, DMA_CONS, 2 ^ 32 - 1)]) with mem := [(0x3C0, 3)] }, 15, by decide +kernel⟩,
   ⟨wh (dst [(DMA 15, DMA_CONS, 2 ^ 32 - 1)]), 15, by decide +kernel⟩,
   ⟨dst [], 15, by decide +kernel⟩,
   ⟨ds (dst []) { dd 0 0 with done := some (1, 4, 7) }, 15, { dd 0 0 with done := some (1, 4, 7) }, [], 1, 4, 7, by decide +kernel⟩,
   ⟨dst [(DMA 15, DMA_CFG_REQ_SRC, 1), (DMA 15, DMA_REQ_STAT_CREDITS, 65534)], 15, by decide +kernel⟩,
   ⟨dst [(DMA 15, DMA_CFG_REQ_SRC, 1), (DMA 15, DMA_REQ_STAT_CREDITS, 65535)], 15, by decide +kernel⟩,
   ⟨dst [(DMA 15, DMA_REQ_STAT_CREDITS, 1)], 15, by decide +kernel⟩,
   ⟨dst [(DMA 15, DMA_CNT_LATE_WITHDRAW, 255)], 15, by decide +kernel⟩,
   ⟨ds (dst []) (dd 0 0), 15, by decide +kernel⟩,
   ⟨ds (dst []) (dd 0 0), 15, by decide +kernel⟩,
   ⟨ds (dst [(DMA 15, DMA_STAT_STATE, 4), (DMA 15, DMA_STAT_CAUSE, 2), (DMA 15, FAULT_SUM, 1)]) (dd 0 0), 15, by decide +kernel⟩,
   ⟨ds (dst []) (dd 0 0), 15, by decide +kernel⟩,
   ⟨ds (dst [(DMA 15, DMA_STAT_STATE, 4), (DMA 15, DMA_STAT_CAUSE, 2)]) (dd 0 0), 15, dd 0 0, [], by decide +kernel⟩,
   ⟨ds (dst [(DMA 15, DMA_STAT_STATE, 4), (DMA 15, DMA_STAT_PAST_PNR, 1)]) (dd 0 0), 15, by decide +kernel⟩,
   ⟨dst [(DMA 15, DMA_ABORT_IDX, 2 ^ 32 - 1)], 15, by decide +kernel⟩,
   ⟨ds (dst [(DMA 15, DMA_ABORT_IDX, 5), (DMA 15, DMA_CONS, 6), (DMA 15, DMA_PROD, 6)]) (dd 0 0), 15, dd 0 0, by decide +kernel⟩⟩

theorem witness_DmaDescriptorsMoveTheirBytes :
  (∃ (s : State) (c : Fin 16) (d : DmaDesc),
    let x := s.ch c
    let q := (s.dmaBegin c d).dmaPay c d
    let single := x.began = false ∧ d.waitReq = false ∧ bitOf d.ctrl 8 = false ∧ bitOf d.ctrl 9 = false ∧ d.count 0 = 1 ∧ d.count 1 = 1 ∧ d.count 2 = 1 ∧ 1 ≤ d.elem ∧ d.elem ≤ 4096
    let got := q.dmaRead c (leAt d.body 2 1) (d.addr false 0 0 0) d.elem
    let put := got.2.2.dmaStore c (leAt d.body 3 1) (d.addr true 0 0 0) got.2.1
s.canonical = true ∧ s.dmaHead c 0 = some d ∧ s.dmaRuns c = true ∧ single ∧ d.csum = 0 ∧ got.1 = .ok ∧ got.2.1.length = d.elem
      ∧ put.1 = .ok ∧ put.2.dmaHead c 0 = some d) ∧
  (∃ (s : State) (c : Fin 16) (d : DmaDesc),
    let x := s.ch c
    let q := (s.dmaBegin c d).dmaPay c d
    let single := x.began = false ∧ d.waitReq = false ∧ bitOf d.ctrl 8 = false ∧ bitOf d.ctrl 9 = false ∧ d.count 0 = 1 ∧ d.count 1 = 1 ∧ d.count 2 = 1 ∧ 1 ≤ d.elem ∧ d.elem ≤ 4096
    let fill := q.dmaStore c (leAt d.body 3 1) (d.addr true 0 0 0) (d.pattern 0 d.elem)
s.canonical = true ∧ s.dmaHead c 1 = some d ∧ s.dmaRuns c = true ∧ single ∧ d.csum = 0 ∧ fill.1 = .ok ∧ fill.2.dmaHead c 1 =
      some d) ∧
  (∃ (s : State) (c : Fin 16) (d : DmaDesc),
    let x := s.ch c
    let q := (s.dmaBegin c d).dmaPay c d
    let single := x.began = false ∧ d.waitReq = false ∧ bitOf d.ctrl 8 = false ∧ bitOf d.ctrl 9 = false ∧ d.count 0 = 1 ∧ d.count 1 = 1 ∧ d.count 2 = 1 ∧ 1 ≤ d.elem ∧ d.elem ≤ 4096
    let got := q.dmaRead c (leAt d.body 2 1) (d.addr false 0 0 0) d.elem
s.canonical = true ∧ s.dmaHead c 2 = some d ∧ s.dmaRuns c = true ∧ single ∧ addrRegion (d.addr false 0 0 0) d.elem ≠ some 1 ∧
      got.1 = .ok ∧ got.2.1.length = d.elem) ∧
  (∃ (s : State) (c : Fin 16) (d : DmaDesc),
s.canonical = true ∧ s.dmaHead c 3 = some d ∧ s.dmaRuns c = true ∧ d.csum = 0) ∧
  (∃ (s : State) (c : Fin 16),
s.canonical = true ∧ s.dmaHead c 3 = none) ∧
  (∃ (s : State) (c : Fin 16),
s.canonical = true ∧ s.dmaHead c 0 = none) ∧
  (∃ (s : State) (c : Fin 16),
s.canonical = true ∧ s.dmaHead c 1 = none) ∧
  (∃ (s : State) (c : Fin 16),
s.canonical = true ∧ s.dmaHead c 2 = none) :=
  ⟨⟨{ ds (dst []) (dd 0 0) with mem := [(0, 7), (2, 9)] }, 15, dd 0 0, by decide +kernel⟩,
   ⟨ds (dst []) (dd 1 0), 15, dd 1 0, by decide +kernel⟩,
   ⟨{ ds (dst []) (dd 2 1) with mem := [(0, 7), (2, 9)] }, 15, dd 2 1, by decide +kernel⟩,
   ⟨ds (dst []) (dd 3 0), 15, dd 3 0, by decide +kernel⟩,
   ⟨ds (dst []) (dd 0 0), 15, by decide +kernel⟩,
   ⟨ds (dst []) (dd 1 0), 15, by decide +kernel⟩,
   ⟨ds (dst []) (dd 0 0), 15, by decide +kernel⟩,
   ⟨ds (dst []) (dd 1 0), 15, by decide +kernel⟩⟩

theorem witness_DisplayFollowsItsCommands :
  (∃ (s : State),
s.canonical = true ∧ s.enabled DSP = false) ∧
  (∃ (s : State),
    let runs := s.enabled DSP = true ∧ s.powered DSP = true
s.canonical = true ∧ runs ∧ s.on DSP DSP_STAT_STOPPED = false) ∧
  (∃ (s : State) (line : Nat),
    let runs := s.enabled DSP = true ∧ s.powered DSP = true
s.canonical = true ∧ runs ∧ s.dsp.latch = none ∧ s.dspLatchOk line = true) ∧
  (∃ (s : State) (line : Nat),
s.canonical = true ∧ s.dspLatchOk line = false) ∧
  (∃ (s : State),
s.canonical = true ∧ s.powered DSP = true ∧ s.on DSP DSP_STAT_HPD = true) ∧
  (∃ (s : State),
s.canonical = true ∧ s.powered DSP = true ∧ s.on DSP DSP_STAT_HPD = true) ∧
  (∃ (s : State),
s.canonical = true ∧ s.powered DSP = true) ∧
  (∃ (s : State) (value : Word),
    let v := value.toNat ||| 2 ^ 31
s.canonical = true ∧ s.reaches (DSP + DSP_AUX_CMD.off) v = true ∧ s.on DSP DSP_AUX_STAT_BUSY = false) ∧
  (∃ (s : State) (value : Word),
    let v := value.toNat ||| 2 ^ 31
s.canonical = true ∧ s.reaches (DSP + DSP_AUX_CMD.off) v = true ∧ s.on DSP DSP_AUX_STAT_BUSY = true ∧ s.on DSP
      PAGE_STAT_BAD_WRITE = false) ∧
  (∃ (s : State) (cmd : Nat) (len : Nat),
s.canonical = true ∧ s.dsp.aux = some (cmd, len) ∧ cmd % 2 = 0) ∧
  (∃ (s : State),
s.canonical = true ∧ s.dsp.aux = none) :=
  ⟨⟨ready, by decide +kernel⟩,
   ⟨st [pw DSP, en DSP, (DSP, DSP_DFN_LO, 2 ^ 32 - 1), (DSP, DSP_DFN_HI, 2 ^ 32 - 1), (DSP, DSP_STAT_VBLANK, 1), (DSP, DSP_STAT_LINE, 7)], by decide +kernel⟩,
   ⟨st [pw DSP, en DSP, (DSP, DSP_CFG_SYNC_MODE, 0), (DSP, DSP_V_TIMING_0_V_TOTAL_MIN, 1125)], 1121, by decide +kernel⟩,
   ⟨st [pw DSP, en DSP, (DSP, DSP_V_TIMING_0_V_TOTAL_MIN, 1125)], 1120, by decide +kernel⟩,
   ⟨st [pw DSP, (DSP, DSP_STAT_HPD, 1), (DSP, DSP_STAT_VIDEO, 1)], by decide +kernel⟩,
   ⟨st [pw DSP, (DSP, DSP_STAT_HPD, 1)], by decide +kernel⟩,
   ⟨st [pw DSP], by decide +kernel⟩,
   ⟨st [pw DSP, (DSP, DSP_AUX_STAT, 0x14)], 0xF08, by decide +kernel⟩,
   ⟨st [pw DSP, (DSP, DSP_AUX_STAT, 1)], 0xF08, by decide +kernel⟩,
   ⟨{ st [pw DSP, (DSP, DSP_AUX_STAT, 1)] with dsp := { State.reset.dsp with aux := some (8, 16) } }, 8, 16, by decide +kernel⟩,
   ⟨ready, by decide +kernel⟩⟩

theorem witness_TranslationFollowsItsCommands :
  (∃ (s : State) (asid : Fin 64) (addr : Nat) (size : Nat) (out : Nat) (write : Bool) (rd : Bool) (wr : Bool),
    let x := addr % 2 ^ 48
    let mode := s.asMode asid
s.canonical = true ∧ mode = 1 ∧ s.armedFor 190 0 = false ∧ s.walk asid x = .page out size rd wr ∧ (if write then wr else rd) =
      true) ∧
  (∃ (s : State) (asid : Fin 64) (addr : Nat) (kind : Nat),
    let x := addr % 2 ^ 48
    let mode := s.asMode asid
s.canonical = true ∧ mode = 1 ∧ s.armedFor 190 0 = false ∧ s.walk asid x = .fault kind) ∧
  (∃ (s : State) (asid : Fin 64) (addr : Nat) (write : Bool) (rd : Bool) (wr : Bool) (a : AtsReq),
    let x := addr % 2 ^ 48
    let mode := s.asMode asid
s.canonical = true ∧ mode = 2 ∧ s.xlt.ats = [a] ∧ a.asid = asid.val ∧ a.page = x / 4096 ∧ a.stale = false ∧ (if a.waiter.write
      then wr else rd) = true) ∧
  (∃ (s : State) (asid : Fin 64) (addr : Nat) (a : AtsReq),
    let x := addr % 2 ^ 48
    let mode := s.asMode asid
s.canonical = true ∧ mode = 2 ∧ s.xlt.ats = [a] ∧ a.asid = asid.val ∧ a.page = x / 4096 ∧ a.stale = false) ∧
  (∃ (s : State) (value : Word) (index : Fin 512) (r : PageReq),
    let wave := value.toNat
s.canonical = true ∧ s.reaches (XLT + XLT_PRQ_RESP.off) wave = true ∧ s.xlt.requests = [r] ∧ r.index = fld wave 0 9 ∧ r.ats =
      false) ∧
  (∃ (s : State) (value : Word) (index : Fin 512),
    let wave := value.toNat
s.canonical = true ∧ s.reaches (XLT + XLT_PRQ_RESP.off) wave = true ∧ s.xlt.requests.all (fun q => q.ats || q.index != fld
      wave 0 9) = true) ∧
  (∃ (s : State) (index : Fin 512) (r : PageReq),
s.canonical = true ∧ s.xlt.requests = [r] ∧ r.index = index.val ∧ r.ats = true) ∧
  (∃ (s : State),
s.canonical = true) ∧
  (∃ (s : State) (index : Fin 512) (r : PageReq),
s.canonical = true ∧ s.xlt.requests = [r] ∧ r.index = index.val ∧ r.timedOut = false ∧ s.masterOn = true) ∧
  (∃ (s : State),
s.canonical = true ∧ s.xlt.requests = []) ∧
  (∃ (s : State),
s.canonical = true ∧ s.xlt.ats = []) ∧
  (∃ (s : State) (asid : Fin 64) (scope : Fin 3),
    let ctrl := asid.val + 256 * scope.val + 2 ^ 31
s.canonical = true ∧ s.reaches (XLT + XLT_INV_CTRL.off) ctrl = true ∧ s.on XLT XLT_INV_STAT_PENDING = false ∧ scope = 0) ∧
  (∃ (s : State) (asid : Fin 64) (scope : Fin 3),
    let ctrl := asid.val + 256 * scope.val + 2 ^ 31
s.canonical = true ∧ s.reaches (XLT + XLT_INV_CTRL.off) ctrl = true ∧ s.on XLT XLT_INV_STAT_PENDING = false ∧ scope = 1) ∧
  (∃ (s : State) (asid : Fin 64) (scope : Fin 3),
    let ctrl := asid.val + 256 * scope.val + 2 ^ 31
s.canonical = true ∧ s.reaches (XLT + XLT_INV_CTRL.off) ctrl = true ∧ s.on XLT XLT_INV_STAT_PENDING = true ∧ s.on XLT
      PAGE_STAT_BAD_WRITE = false) ∧
  (∃ (s : State),
s.canonical = true ∧ s.on XLT XLT_INV_STAT_PENDING = true) ∧
  (∃ (s : State),
s.canonical = true ∧ s.on XLT XLT_INV_STAT_PENDING = false) ∧
  (∃ (s : State),
s.canonical = true) ∧
  (∃ (s : State),
s.canonical = true) ∧
  (∃ (s : State),
s.canonical = true) :=
  ⟨⟨{ st [pw XLT, (asBase 63, XLT_AS_CFG_MODE, 1)] with mem := [(0, 1), (1, 0x10), (0x1000, 1), (0x1001, 0x20), (0x2000, 1), (0x2001, 0x30), (0x3000, 0xF), (0x3001, 0x50)] }, 63, 0x123, 4096, 0x5000, false, true, true, by decide +kernel⟩,
   ⟨{ st [pw XLT, (asBase 63, XLT_AS_CFG_MODE, 1)] with mem := [(0, 1), (1, 0x10), (2, 0xFF), (4, 0xFF)] }, 63, 0x123, 3, by decide +kernel⟩,
   ⟨xl (st [pw XLT, (asBase 63, XLT_AS_CFG_MODE, 2), (XLT, XLT_STAT_ATS_EN, 1)]) (fun z => { z with ats := [⟨63, 1, ⟨0x20, 0x1234, true⟩, false⟩] }), 63, 0x1000, false, false, true, ⟨63, 1, ⟨0x20, 0x1234, true⟩, false⟩, by decide +kernel⟩,
   ⟨xl (st [pw XLT, (asBase 63, XLT_AS_CFG_MODE, 2), (XLT, XLT_STAT_ATS_EN, 1)]) (fun z => { z with ats := [⟨63, 1, ⟨0x20, 0x1234, true⟩, false⟩] }), 63, 0x1000, ⟨63, 1, ⟨0x20, 0x1234, true⟩, false⟩, by decide +kernel⟩,
   ⟨xl (st [pw XLT]) (fun z => { z with requests := [⟨511, 63, 1, false, [⟨0x20, 0x1234, true⟩], false⟩] }), 0x101FF, 0, ⟨511, 63, 1, false, [⟨0x20, 0x1234, true⟩], false⟩, by decide +kernel⟩,
   ⟨xl (st [pw XLT]) (fun z => { z with requests := [⟨511, 63, 1, true, [], false⟩] }), 0x101FF, 0, by decide +kernel⟩,
   ⟨xl (st [pw XLT]) (fun z => { z with requests := [⟨511, 63, 1, true, [], false⟩] }), 511, ⟨511, 63, 1, true, [], false⟩, by decide +kernel⟩,
   ⟨st [pw XLT], by decide +kernel⟩,
   ⟨xl (st [pw XLT, (HIF, HIF_LINK_STAT_BME, 1)]) (fun z => { z with requests := [⟨511, 63, 1, false, [⟨0x20, 0x1234, true⟩], false⟩] }), 511, ⟨511, 63, 1, false, [⟨0x20, 0x1234, true⟩], false⟩, by decide +kernel⟩,
   ⟨ready, by decide +kernel⟩,
   ⟨xl ready (fun z => { z with cache := [⟨0, 63, 0x1000, 4096, 0, true, true⟩, ⟨0, 63, 0x2000, 4096, 0, true, true⟩] }), by decide +kernel⟩,
   ⟨xl (st [pw XLT, (asBase 63, XLT_AS_CFG_MODE, 1)]) (fun z => { z with cache := [⟨0, 63, 0x1000, 4096, 0, true, true⟩, ⟨0, 62, 0x2000, 4096, 0, true, true⟩] }), 0, 0, by decide +kernel⟩,
   ⟨xl (st [pw XLT, (asBase 63, XLT_AS_CFG_MODE, 1)]) (fun z => { z with cache := [⟨0, 63, 0x1000, 4096, 0, true, true⟩, ⟨0, 62, 0x2000, 4096, 0, true, true⟩] }), 63, 1, by decide +kernel⟩,
   ⟨st [pw XLT, (XLT, XLT_INV_STAT_PENDING, 1)], 63, 2, by decide +kernel⟩,
   ⟨st [pw XLT, (XLT, XLT_INV_STAT_PENDING, 1)], by decide +kernel⟩,
   ⟨ready, by decide +kernel⟩,
   ⟨ready, by decide +kernel⟩,
   ⟨xl (st [pw XLT, (asBase 63, XLT_AS_CFG_MODE, 2)]) (fun z => { z with cache := [⟨0, 63, 0x1000, 4096, 0, true, true⟩, ⟨0, 62, 0x2000, 4096, 0, true, true⟩] }), by decide +kernel⟩,
   ⟨st [(XLT, XLT_STAT_PRI_STOPPED, 1), (XLT, FAULT_SUM, 2)], by decide +kernel⟩⟩

theorem witness_FaultCollectorFollowsItsCommands :
  (∃ (s : State) (source : Fin 512),
    let b := bitSrc source
    let quiet := 96 ≤ source.val ∧ source.val < 127
    let within := (s.srcEvents source).length
s.canonical = true ∧ quiet ∧ s.g b BIT_SRC_STAT_STATE < 2 ∧ within < s.g b BIT_SRC_CFG_N_M1) ∧
  (∃ (s : State) (source : Fin 512),
    let quiet := 96 ≤ source.val ∧ source.val < 127
s.canonical = true ∧ quiet ∧ s.bit.log.length < 64) ∧
  (∃ (s : State) (source : Fin 512),
s.canonical = true ∧ srcReserved source = true) ∧
  (∃ (s : State) (source : Fin 512),
    let b := bitSrc source
s.canonical = true ∧ srcReserved source = false ∧ s.srcEvents source = [] ∧ s.g b BIT_SRC_STAT_STATE < 2) ∧
  (∃ (s : State) (n : Nat),
    let m := n % 512
s.canonical = true ∧ s.reaches (BIT + BIT_SRC_CLEAR.off) (m + 2 ^ 31) = true ∧ srcReserved m = false) ∧
  (∃ (s : State),
s.canonical = true ∧ s.reaches (BIT + BIT_FAULTN_CTRL.off) 2 = true ∧ s.on BIT BIT_FAULTN_STAT_ASSERTED = false) ∧
  (∃ (s : State),
s.canonical = true ∧ s.reaches (BIT + BIT_FAULTN_CTRL.off) 1 = true ∧ s.on BIT BIT_FAULTN_STAT_ASSERTED = false) ∧
  (∃ (s : State),
s.canonical = true ∧ s.reaches (BIT + BIT_FAULTN_CTRL.off) 1 = true ∧ s.on BIT BIT_FAULTN_STAT_ASSERTED = true ∧ s.on BIT
      BIT_FAULTN_STAT_IN_MIN = true) ∧
  (∃ (s : State),
s.canonical = true ∧ s.reaches (BIT + BIT_FAULTN_CTRL.off) 1 = true ∧ s.on BIT BIT_FAULTN_STAT_ASSERTED = true ∧ s.on BIT
      BIT_FAULTN_STAT_IN_MIN = false) ∧
  (∃ (s : State),
s.canonical = true ∧ s.on BIT BIT_FAULTN_STAT_IN_MIN = true ∧ s.bit.heldRelease = false) ∧
  (∃ (s : State),
s.canonical = true ∧ s.on BIT BIT_FAULTN_STAT_IN_MIN = true ∧ s.bit.heldRelease = true) ∧
  (∃ (s : State) (e : LogEntry) (rest : List LogEntry),
s.canonical = true ∧ s.reaches (BIT + BIT_LOG_CTRL.off) 1 = true ∧ s.bit.log = e :: rest) ∧
  (∃ (s : State),
s.canonical = true ∧ s.reaches (BIT + BIT_LOG_CTRL.off) 2 = true) :=
  ⟨⟨st [(bitSrc 126, BIT_SRC_CFG_N_M1, 3), (bitSrc 126, BIT_SRC_STAT_TOTAL, 4095)], 126, by decide +kernel⟩,
   ⟨ready, 125, by decide +kernel⟩,
   ⟨ready, 127, by decide +kernel⟩,
   ⟨at_ (bt (st [(bitSrc 511, BIT_SRC_STAT_STATE, 1), (bitSrc 511, BIT_SRC_STAT_COUNT, 1)]) (fun z => { z with events := [⟨511, 0, 0⟩] })) ⟨100, 0, 0⟩, 511, by decide +kernel⟩,
   ⟨bt (st [(bitSrc 511, BIT_SRC_STAT_STATE, 3), (bitSrc 511, BIT_SRC_STAT_COUNT, 1)]) (fun z => { z with events := [⟨511, 0, 0⟩, ⟨3, 0, 0⟩] }), 1023, by decide +kernel⟩,
   ⟨bt ready (fun z => { z with heldRelease := true }), by decide +kernel⟩,
   ⟨ready, by decide +kernel⟩,
   ⟨st [(BIT, BIT_FAULTN_STAT, 3)], by decide +kernel⟩,
   ⟨st [(BIT, BIT_FAULTN_STAT, 5)], by decide +kernel⟩,
   ⟨st [(BIT, BIT_FAULTN_STAT, 3)], by decide +kernel⟩,
   ⟨bt (st [(BIT, BIT_FAULTN_STAT, 3)]) (fun z => { z with heldRelease := true }), by decide +kernel⟩,
   ⟨bt ready (fun z => { z with log := [⟨3, 2, false, false, 0, ⟨0, 0, 0⟩⟩] }), ⟨3, 2, false, false, 0, ⟨0, 0, 0⟩⟩, [], by decide +kernel⟩,
   ⟨st [(BIT, BIT_LOG_STAT_OVERFLOW, 1), (BIT, FAULT_SUM, 2)], by decide +kernel⟩⟩

theorem witness_InjectionAndSelfTestsFollowTheirRules :
  (∃ (s : State),
s.canonical = true ∧ s.reaches (BIT + BIT_INJ_CTRL.off) 1 = true ∧ s.claimed.armRefused = false) ∧
  (∃ (s : State),
s.canonical = true ∧ s.reaches (BIT + BIT_INJ_CTRL.off) 1 = true ∧ s.claimed.armRefused = true ∧ s.on BIT PAGE_STAT_BAD_WRITE
      = false) ∧
  (∃ (s : State),
    let state := s.g BIT BIT_INJ_STAT_STATE
s.canonical = true ∧ s.reaches (BIT + BIT_INJ_CTRL.off) 2 = true ∧ state = 1) ∧
  (∃ (s : State),
    let state := s.g BIT BIT_INJ_STAT_STATE
s.canonical = true ∧ s.reaches (BIT + BIT_INJ_CTRL.off) 2 = true ∧ state ≠ 1) ∧
  (∃ (s : State),
    let state := s.g BIT BIT_INJ_STAT_STATE
s.canonical = true ∧ state = 1) ∧
  (∃ (s : State),
    let state := s.g BIT BIT_INJ_STAT_STATE
s.canonical = true ∧ state ≠ 1) ∧
  (∃ (s : State),
s.canonical = true ∧ s.reaches (BIT + BIT_TEST_CTRL.off) 1 = true ∧ s.claimed.testRefused = false ∧ s.g BIT BIT_TEST_CFG_KIND
      ≠ 6) ∧
  (∃ (s : State),
s.canonical = true ∧ s.reaches (BIT + BIT_TEST_CTRL.off) 1 = true ∧ s.claimed.testRefused = true ∧ s.on BIT
      PAGE_STAT_BAD_WRITE = false) ∧
  (∃ (s : State),
    let test := s.g BIT BIT_TEST_STAT_STATE
s.canonical = true ∧ s.reaches (BIT + BIT_TEST_CTRL.off) 2 = true ∧ test = 1) ∧
  (∃ (s : State),
    let test := s.g BIT BIT_TEST_STAT_STATE
s.canonical = true ∧ test ≠ 1) ∧
  (∃ (s : State),
    let test := s.g BIT BIT_TEST_STAT_STATE
s.canonical = true ∧ test = 1) ∧
  (∃ (s : State),
    let test := s.g BIT BIT_TEST_STAT_STATE
s.canonical = true ∧ test = 1 ∧ s.g BIT BIT_TEST_CFG_KIND = 5 ∧ s.bit.log.length < 63) :=
  ⟨⟨st [(BIT, BIT_INJ_CFG_SOURCE, 511), (BIT, BIT_INJ_STAT_STATE, 2), (BIT, BIT_INJ_STAT_REAL, 1)], by decide +kernel⟩,
   ⟨st [(BIT, BIT_INJ_CFG_SOURCE, 511), (BIT, BIT_INJ_CFG_UNIT, 1)], by decide +kernel⟩,
   ⟨st [(BIT, BIT_INJ_STAT_STATE, 1)], by decide +kernel⟩,
   ⟨ready, by decide +kernel⟩,
   ⟨st [(BIT, BIT_INJ_STAT_STATE, 1)], by decide +kernel⟩,
   ⟨ready, by decide +kernel⟩,
   ⟨st [(BIT, BIT_TEST_CFG_KIND, 5), (BIT, BIT_TEST_CFG_INDEX, 1)], by decide +kernel⟩,
   ⟨st [(BIT, BIT_TEST_CFG_KIND, 5), (BIT, BIT_TEST_CFG_INDEX, 2)], by decide +kernel⟩,
   ⟨st [(BIT, BIT_TEST_STAT_STATE, 1)], by decide +kernel⟩,
   ⟨ready, by decide +kernel⟩,
   ⟨st [(BIT, BIT_TEST_STAT_STATE, 1)], by decide +kernel⟩,
   ⟨st [(BIT, BIT_TEST_STAT_STATE, 1), (BIT, BIT_TEST_CFG_KIND, 5)], by decide +kernel⟩⟩

theorem witness_SupplyAndSheddingFollowTheirWindows :
  (∃ (s : State) (counts : List Nat),
    let on := (List.range 17).filter (fun u => s.domOn (unitDomain u))
    let hr := fun (u : Nat) => headroom (nth 0 counts u) (s.unitNeed false u)
s.canonical = true ∧ counts.length = 17 ∧ on.all (fun u => decide (0 ≤ hr u)) = true) ∧
  (∃ (s : State) (counts : List Nat),
    let on := (List.range 17).filter (fun u => s.domOn (unitDomain u))
    let hr := fun (u : Nat) => headroom (nth 0 counts u) (s.unitNeed false u)
    let step := s.g PWR PWR_SHED_STEP
s.canonical = true ∧ counts.length = 17 ∧ on.any (fun u => decide (hr u < 0)) = true ∧ step = 11) ∧
  (∃ (s : State),
    let on := (List.range 17).filter (fun u => s.domOn (unitDomain u))
    let step := s.g PWR PWR_SHED_STEP
    let quietCodec := (List.range 64).all (fun c => (s.cx c).current.isNone && s.g (ctxBase c) CTX_CFG_MODE == 0 && !s.on (ctxBase c) CTX_STAT_SHED)
s.canonical = true ∧ step ≠ 0 ∧ s.shed.calm = true ∧ s.g THM THM_STAT_STAGE = 0 ∧ quietCodec = true) ∧
  (∃ (s : State),
    let step := s.g PWR PWR_SHED_STEP
s.canonical = true ∧ ((step = 0 ∨ s.shed.calm = false ∨ s.g THM THM_STAT_STAGE ≠ 0))) ∧
  (∃ (s : State),
    let on := (List.range 17).filter (fun u => s.domOn (unitDomain u))
    let head := sint 16 (s.g PWR PWR_MIN_HEAD_H)
    let req := s.g PWR PWR_VFAB_REQ
    let vmax := s.g PWR PWR_VLIM_VMAX
    let up := s.g PWR PWR_LOOP_STEP_UP
s.canonical = true ∧ s.supply.again = none ∧ s.supply.raiseDue = false ∧ s.supply.held = false ∧ s.on PWR PWR_LOOP_CFG_EN =
      true ∧ s.supply.raise = none ∧ head < (s.g PWR PWR_LOOP_STEP_EMERG_THR : Int) ∧ req < vmax ∧ up ≠ 0) ∧
  (∃ (s : State),
    let on := (List.range 17).filter (fun u => s.domOn (unitDomain u))
    let head := sint 16 (s.g PWR PWR_MIN_HEAD_H)
    let req := s.g PWR PWR_VFAB_REQ
    let vmax := s.g PWR PWR_VLIM_VMAX
    let up := s.g PWR PWR_LOOP_STEP_UP
s.canonical = true ∧ s.supply.again = none ∧ s.supply.raiseDue = false ∧ s.supply.held = false ∧ s.on PWR PWR_LOOP_CFG_EN =
      true ∧ s.supply.raise = none ∧ (s.g PWR PWR_LOOP_STEP_EMERG_THR : Int) ≤ head ∧ head < (s.g PWR PWR_LOOP_CFG_RAISE_THR :
      Int) ∧ req < vmax ∧ up ≠ 0) ∧
  (∃ (s : State),
    let on := (List.range 17).filter (fun u => s.domOn (unitDomain u))
s.canonical = true ∧ s.supply.again = none ∧ s.supply.raiseDue = false ∧ ((s.supply.held = true ∨ s.on PWR PWR_LOOP_CFG_EN =
      false))) ∧
  (∃ (s : State) (f : Nat),
s.canonical = true ∧ s.supply.again = some f) ∧
  (∃ (s : State),
s.canonical = true ∧ s.supply.asked = none) ∧
  (∃ (s : State) (answer : BitVec 24) (f : Nat),
    let v := answer.toNat
    let good := avsWord (v / 256) = v ∧ fld v 22 2 = 0
s.canonical = true ∧ s.supply.asked = some f ∧ avsIsSet f = true ∧ good) ∧
  (∃ (s : State) (answer : BitVec 24) (f : Nat),
    let v := answer.toNat
    let good := avsWord (v / 256) = v ∧ fld v 22 2 = 0
s.canonical = true ∧ s.supply.asked = some f ∧ avsIsSet f = false ∧ s.supply.raise = none ∧ good) ∧
  (∃ (s : State) (answer : BitVec 24) (f : Nat),
    let v := answer.toNat
s.canonical = true ∧ s.supply.asked = some f ∧ s.supply.retried = false ∧ avsWord (v / 256) ≠ v) ∧
  (∃ (s : State) (f : Nat),
s.canonical = true ∧ s.supply.asked = some f ∧ s.supply.retried = true) ∧
  (∃ (s : State),
s.canonical = true ∧ s.supply.raise = none) ∧
  (∃ (s : State) (code : Nat),
s.canonical = true ∧ s.supply.raise = some (code, false)) ∧
  (∃ (s : State) (code : Nat),
s.canonical = true ∧ s.supply.raise = some (code, true)) :=
  ⟨⟨(ready.setDomOn 216 true).setDomOn 219 true, List.replicate 17 30000, by decide +kernel⟩,
   ⟨(((((st [(PWR, PWR_SHED_STEP, 11), (ING 0, ING_STAT_SLICE, 0)]).setDomOn 216 true).setDomOn 217 true).pa (ING 0) ING_GEOM_WIDTH 8192).pa (ING 0) ING_GEOM_HEIGHT 4320).pa (ING 0) ING_RATE 120000, List.replicate 17 0, by decide +kernel⟩,
   ⟨{ st [(PWR, PWR_SHED_STEP, 3)] with shed := ⟨[], true⟩ }, by decide +kernel⟩,
   ⟨{ st [(PWR, PWR_SHED_STEP, 3), (THM, THM_STAT_STAGE, 1)] with shed := ⟨[], true⟩ }, by decide +kernel⟩,
   ⟨st [(PWR, PWR_MIN_HEAD_H, 0xFFFF)], by decide +kernel⟩,
   ⟨st [(PWR, PWR_MIN_HEAD_H, 0x30)], by decide +kernel⟩,
   ⟨st [(PWR, PWR_LOOP_CFG_EN, 0)], by decide +kernel⟩,
   ⟨{ ready with supply := { ready.supply with again := some avsGet } }, avsGet, by decide +kernel⟩,
   ⟨ready, by decide +kernel⟩,
   ⟨{ ready with supply := { ready.supply with asked := some (avsSet 0x54), held := true } }, BitVec.ofNat 24 (avsWord (0x54 * 2 ^ 6)), avsSet 0x54, by decide +kernel⟩,
   ⟨{ ready with supply := { ready.supply with asked := some avsGet } }, BitVec.ofNat 24 (avsWord (0x54 * 2 ^ 6)), avsGet, by decide +kernel⟩,
   ⟨{ ready with supply := { ready.supply with asked := some avsGet } }, 1, avsGet, by decide +kernel⟩,
   ⟨{ ready with supply := { ready.supply with asked := some avsGet, retried := true } }, avsGet, by decide +kernel⟩,
   ⟨ready, by decide +kernel⟩,
   ⟨{ ready with supply := { ready.supply with raise := some (0x54, false) } }, 0x54, by decide +kernel⟩,
   ⟨{ ready with supply := { ready.supply with raise := some (0x54, true) } }, 0x54, by decide +kernel⟩⟩

theorem witness_TheSequencerMovesDomains :
  (∃ (s : State) (d : Fin 265) (up : Bool),
s.canonical = true ∧ s.seq.moves = [⟨d.val, up, 0, true⟩] ∧ s.seq.later = []) ∧
  (∃ (s : State) (d : Fin 265) (up : Bool) (n : Nat),
s.canonical = true ∧ s.seq.moves = [⟨d.val, up, n + 1, true⟩] ∧ s.seqFits (domCharges d) = true) ∧
  (∃ (s : State) (d : Fin 265) (m : SeqMove),
s.canonical = true ∧ s.seq.moves.any (fun m => m.dom == d.val && m.busy) = false) ∧
  (∃ (s : State) (n : Nat) (m : SeqMove),
    let empty := { s with seq := { s.seq with used := [0, 0, 0, 0, 0] } }
s.canonical = true ∧ s.seq.moves = [m] ∧ m.busy = false ∧ m.left = n + 1 ∧ empty.seqFits (domCharges m.dom) = true ∧ m.dom <
      265) ∧
  (∃ (s : State) (n : Nat) (m : SeqMove),
    let empty := { s with seq := { s.seq with used := [0, 0, 0, 0, 0] } }
s.canonical = true ∧ s.seq.moves = [m] ∧ m.busy = false ∧ m.left = n + 1 ∧ empty.seqFits (domCharges m.dom) = false) ∧
  (∃ (s : State) (lane : Fin 96) (tx : Bool),
s.canonical = true ∧ (s.lane lane).move tx = none) ∧
  (∃ (s : State) (goal : Nat) (lane : Fin 96) (tx : Bool),
s.canonical = true ∧ (s.lane lane).move tx = some goal ∧ goal < 4 ∧ s.halfTarget lane tx = goal ∧ ((tx = false → (s.lane
      lane).waking = false ∧ s.on (lnb lane) LNK_LANE_STAT_TRAINING = false))) :=
  ⟨⟨{ ready with seq := ⟨[⟨221, true, 0, true⟩], [], [0, 0, 0, 0, 0]⟩ }, 221, true, by decide +kernel⟩,
   ⟨{ ready with seq := ⟨[⟨221, true, 1, true⟩], [], [0, 0, 0, 0, 0]⟩ }, 221, true, 0, by decide +kernel⟩,
   ⟨ready, 264, ⟨0, false, 0, false⟩, by decide +kernel⟩,
   ⟨{ ready with seq := ⟨[⟨264, true, 2, false⟩], [], [0, 200, 0, 0, 0]⟩ }, 1, ⟨264, true, 2, false⟩, by decide +kernel⟩,
   ⟨{ st [(PWR + 4, PWR_PACE, 0)] with seq := ⟨[⟨264, true, 2, false⟩], [], [0, 200, 0, 0, 0]⟩ }, 1, ⟨264, true, 2, false⟩, by decide +kernel⟩,
   ⟨ready, 0, false, by decide +kernel⟩,
   ⟨(st [(lnb 95, LNK_LANE_PWR_TX_PSTATE, 0), en (LNK 23)]).setMove 95 true (some 0), 0, 95, true, by decide +kernel⟩⟩

theorem witness_TheRoundSensesAndShutsDown :
  (∃ (s : State) (readings : List (Nat × Int)) (temps : List Int),
    let stage := s.g THM THM_STAT_STAGE
    let pass := (List.range 64).all (fun j => s.sensorPasses readings j && !s.sensorBroken j)
    let at_ := fun (j : Nat) => (nth (0, 0) readings j).2
    let shut := ((4 * s.g THM THM_CFG_0_SHUT : Nat) : Int)
s.canonical = true ∧ readings.length = 64 ∧ temps.length = 4 ∧ pass = true ∧ stage = 0 ∧ s.thermal.host = false ∧ (List.range
      64).all (fun j => decide (at_ j < shut)) = true) ∧
  (∃ (s : State) (readings : List (Nat × Int)) (temps : List Int),
    let stage := s.g THM THM_STAT_STAGE
    let pass := (List.range 64).all (fun j => s.sensorPasses readings j && !s.sensorBroken j)
    let at_ := fun (j : Nat) => (nth (0, 0) readings j).2
    let shut := ((4 * s.g THM THM_CFG_0_SHUT : Nat) : Int)
s.canonical = true ∧ readings.length = 64 ∧ temps.length = 4 ∧ pass = true ∧ stage = 0 ∧ 10 ≤ s.g PWR PWR_SHED_STEP ∧
      (List.range 64).any (fun j => decide (shut ≤ at_ j)) = true) ∧
  (∃ (s : State) (readings : List (Nat × Int)) (temps : List Int) (i : Fin 64),
    let stage := s.g THM THM_STAT_STAGE
    let idle := stage = 2 ∨ (stage = 1 ∧ s.thermal.drained = true)
s.canonical = true ∧ readings.length = 64 ∧ temps.length = 4 ∧ idle ∧ s.sensorPasses readings i = false ∧ s.sensorBroken i =
      false ∧ s.thermal.failed.contains i.val = false) ∧
  (∃ (s : State) (readings : List (Nat × Int)) (temps : List Int) (i : Fin 64),
    let stage := s.g THM THM_STAT_STAGE
    let idle := stage = 2 ∨ (stage = 1 ∧ s.thermal.drained = true)
s.canonical = true ∧ readings.length = 64 ∧ temps.length = 4 ∧ idle ∧ s.sensorPasses readings i = false ∧ s.sensorBroken i =
      false ∧ s.thermal.failed.contains i.val = true) ∧
  (∃ (s : State),
    let stage := s.g THM THM_STAT_STAGE
s.canonical = true ∧ s.reaches (THM + THM_CTRL.off) 1 = true ∧ stage = 0) ∧
  (∃ (s : State),
    let stage := s.g THM THM_STAT_STAGE
s.canonical = true ∧ s.reaches (THM + THM_CTRL.off) 1 = true ∧ stage ≠ 0) ∧
  (∃ (s : State),
    let stage := s.g THM THM_STAT_STAGE
s.canonical = true ∧ stage = 1 ∧ s.thermal.drained = false ∧ ((s.drainDone = true ∨ s.g THM THM_CFG_1_DRAIN ≤
      s.thermal.drain))) ∧
  (∃ (s : State),
    let stage := s.g THM THM_STAT_STAGE
s.canonical = true ∧ ((stage ≠ 1 ∨ s.thermal.drained = true ∨ (s.drainDone = false ∧ s.thermal.drain < s.g THM
      THM_CFG_1_DRAIN)))) ∧
  (∃ (s : State),
    let stage := s.g THM THM_STAT_STAGE
s.canonical = true ∧ stage = 1 ∧ s.thermal.drained = true) ∧
  (∃ (s : State),
    let stage := s.g THM THM_STAT_STAGE
s.canonical = true ∧ ((stage ≠ 1 ∨ s.thermal.drained = false))) :=
  ⟨⟨ready, List.replicate 64 (1000, 100), [40, 40, 40, 40], by decide +kernel⟩,
   ⟨st [(PWR, PWR_SHED_STEP, 10)], List.replicate 64 (1000, 445), [40, 40, 40, 40], by decide +kernel⟩,
   ⟨st [(THM, THM_STAT_STAGE, 2)], upd (List.replicate 64 (1000, 100)) 63 (fun _ => (0, 100)), [40, 40, 40, 40], 63, by decide +kernel⟩,
   ⟨{ st [(THM, THM_STAT_STAGE, 2)] with thermal := { ready.thermal with failed := [63] } }, upd (List.replicate 64 (1000, 100)) 63 (fun _ => (0, 100)), [40, 40, 40, 40], 63, by decide +kernel⟩,
   ⟨ready, by decide +kernel⟩,
   ⟨st [(THM, THM_STAT_STAGE, 1)], by decide +kernel⟩,
   ⟨st [(THM, THM_STAT_STAGE, 1)], by decide +kernel⟩,
   ⟨ready, by decide +kernel⟩,
   ⟨{ (st [(THM, THM_STAT_STAGE, 1)]).setDomOn 225 true with thermal := { ready.thermal with drained := true } }, by decide +kernel⟩,
   ⟨ready, by decide +kernel⟩⟩

theorem witness_ResetsLeaveWhatTheirRulesSay :
  (∃ (s : State),
s.canonical = true) ∧
  (∃ (s : State),
s.canonical = true ∧ s.hif.cold = some 1) ∧
  (∃ (s : State),
s.canonical = true ∧ s.hif.cold ≠ some 1) ∧
  (∃ (s : State),
s.canonical = true) ∧
  (∃ (s : State),
s.canonical = true ∧ s.hif.cold = none) ∧
  (∃ (s : State),
s.canonical = true ∧ s.hif.cold ≠ none) ∧
  (∃ (s : State),
s.canonical = true ∧ s.hif.cold = some 2) ∧
  (∃ (s : State),
s.canonical = true ∧ s.hif.cold ≠ some 2) ∧
  (∃ (s : State),
s.canonical = true ∧ s.hif.cold = none) ∧
  (∃ (s : State),
s.canonical = true ∧ s.hif.cold ≠ none) ∧
  (∃ (s : State) (perst : Bool),
s.canonical = true ∧ s.hif.perst = false) ∧
  (∃ (s : State) (perst : Bool),
s.canonical = true ∧ s.hif.perst = true ∧ s.resetting = true ∧ s.hif.now ≠ some (.warm true) ∧ s.hif.held = []) ∧
  (∃ (s : State) (perst : Bool),
s.canonical = true ∧ s.hif.perst = true ∧ s.resetting = false) ∧
  (∃ (s : State) (perst : Bool),
s.canonical = true ∧ s.hif.perst = true) ∧
  (∃ (s : State) (perst : Bool),
s.canonical = true ∧ s.hif.perst = false) ∧
  (∃ (s : State) (key : Byte),
    let wave := 1 + 256 * key.toNat
    let ctrl := TOP + TOP_RESET_CTRL.off
s.canonical = true ∧ s.reaches ctrl wave = true ∧ s.resetting = true ∧ s.hif.now ≠ some (.warm false) ∧ s.hif.held = [.flr]) ∧
  (∃ (s : State) (key : Byte),
    let wave := 1 + 256 * key.toNat
    let ctrl := TOP + TOP_RESET_CTRL.off
s.canonical = true ∧ s.reaches ctrl wave = true ∧ s.resetting = false) ∧
  (∃ (s : State),
s.canonical = true ∧ s.hif.memory = false) ∧
  (∃ (s : State) (perst : Bool),
s.canonical = true ∧ s.hif.now = some (.warm perst)) ∧
  (∃ (s : State),
s.canonical = true ∧ ((s.hif.now = none ∨ s.hif.now = some .flr))) ∧
  (∃ (s : State),
s.canonical = true ∧ s.resetting = true ∧ s.hif.now ≠ some .flr ∧ s.hif.held = []) ∧
  (∃ (s : State),
s.canonical = true ∧ s.hif.now = some .flr) ∧
  (∃ (s : State),
s.canonical = true ∧ s.resetting = false) ∧
  (∃ (s : State),
s.canonical = true ∧ s.hif.now = some .flr) ∧
  (∃ (s : State),
s.canonical = true ∧ s.hif.now ≠ some .flr) ∧
  (∃ (s : State),
s.canonical = true ∧ ((s.hif.held = [] ∨ s.resetting = true))) ∧
  (∃ (s : State),
s.canonical = true ∧ s.hif.held = [.flr] ∧ s.resetting = false) ∧
  (∃ (s : State) (perst : Bool) (l : List HeldReset),
s.canonical = true ∧ s.hif.held = .warm perst :: l ∧ s.resetting = false) :=
  ⟨⟨{ st [(XLT, XLT_STAT_ATS_EN, 1)] with hif := { ready.hif with now := some .flr, held := [.warm true] } }, by decide +kernel⟩,
   ⟨{ ready with hif := { ready.hif with cold := some 1 } }, by decide +kernel⟩,
   ⟨{ ready with hif := { ready.hif with cold := some 2 } }, by decide +kernel⟩,
   ⟨{ st [(XLT, XLT_STAT_ATS_EN, 1), (HBM 0, HBM_SPARE_STAT_USED, 3)] with mem := [(5, 1)] }, by decide +kernel⟩,
   ⟨{ ready with hif := { ready.hif with cold := none } }, by decide +kernel⟩,
   ⟨{ ready with hif := { ready.hif with cold := some 1 } }, by decide +kernel⟩,
   ⟨{ ready with hif := { ready.hif with cold := some 2 } }, by decide +kernel⟩,
   ⟨ready, by decide +kernel⟩,
   ⟨{ ready with hif := { ready.hif with cold := none }, mem := [(3, 9)] }, by decide +kernel⟩,
   ⟨ready, by decide +kernel⟩,
   ⟨ready, false, by decide +kernel⟩,
   ⟨{ st [(HIF, HIF_LINK_STAT_UP, 1), (XLT, XLT_STAT_ATS_EN, 1)] with hif := { ready.hif with perst := true, now := some .flr } }, false, by decide +kernel⟩,
   ⟨{ st [(HIF, HIF_LINK_STAT_UP, 1)] with hif := { ready.hif with perst := true, cold := none } }, false, by decide +kernel⟩,
   ⟨{ ready with hif := { ready.hif with perst := true } }, false, by decide +kernel⟩,
   ⟨ready, false, by decide +kernel⟩,
   ⟨{ ready with hif := { ready.hif with held := [.flr] } }, 0xA5, by decide +kernel⟩,
   ⟨{ ready with hif := { ready.hif with cold := none } }, 0xA5, by decide +kernel⟩,
   ⟨State.reset, by decide +kernel⟩,
   ⟨{ st [(TOP, TOP_RESET_STAT_WARM_BUSY, 1)] with hif := { ready.hif with now := some (.warm true) } }, true, by decide +kernel⟩,
   ⟨{ ready with hif := { ready.hif with now := some .flr } }, by decide +kernel⟩,
   ⟨ready, by decide +kernel⟩,
   ⟨{ ready with hif := { ready.hif with now := some .flr } }, by decide +kernel⟩,
   ⟨{ st [(HIF, HIF_LINK_STAT_BME, 1)] with hif := { ready.hif with cold := none } }, by decide +kernel⟩,
   ⟨{ st [(TOP, TOP_RESET_STAT_FLR_BUSY, 1)] with hif := { ready.hif with now := some .flr } }, by decide +kernel⟩,
   ⟨ready, by decide +kernel⟩,
   ⟨{ ready with hif := { ready.hif with held := [.flr] } }, by decide +kernel⟩,
   ⟨{ st [(TOP, TOP_RESET_STAT_HELD, 1)] with hif := { ready.hif with cold := none, held := [.flr] } }, by decide +kernel⟩,
   ⟨{ st [(TOP, TOP_RESET_STAT_HELD, 1)] with hif := { ready.hif with cold := none, held := [.warm true] } }, true, [], by decide +kernel⟩⟩

theorem witness_TheHostsConnectionsServeTheirCommands :
  (∃ (s : State) (bme : Bool) (d3hot : Bool),
s.canonical = true ∧ ((s.masterOn = true ∨ bme = false ∨ d3hot = true))) ∧
  (∃ (s : State),
s.canonical = true ∧ s.masterOn = false) ∧
  (∃ (s : State),
    let ready_ := s.on TOP TOP_RESET_STAT_READY
s.canonical = true ∧ s.hif.perst = true ∧ ready_ = true ∧ s.hif.first = none) ∧
  (∃ (s : State) (rates : Nat × Nat),
    let ready_ := s.on TOP TOP_RESET_STAT_READY
s.canonical = true ∧ s.hif.perst = true ∧ ready_ = true ∧ s.hif.first = some rates) ∧
  (∃ (s : State),
    let ready_ := s.on TOP TOP_RESET_STAT_READY
s.canonical = true ∧ ((s.hif.perst = false ∨ ready_ = false))) ∧
  (∃ (s : State),
    let up := s.on HIF HIF_LINK_STAT_UP
s.canonical = true ∧ up = true ∧ s.hif.recov = none) ∧
  (∃ (s : State),
    let up := s.on HIF HIF_LINK_STAT_UP
s.canonical = true ∧ up = true ∧ s.hif.recov = some s.time.ms) ∧
  (∃ (s : State),
    let up := s.on HIF HIF_LINK_STAT_UP
s.canonical = true ∧ up = false) ∧
  (∃ (s : State),
s.canonical = true) ∧
  (∃ (s : State) (memory : Bool) (addr : Fin 0x4000000000) (len : Fin 4097) (rg : Nat),
    let warm := s.on TOP TOP_RESET_STAT_WARM_BUSY
    let x := (s.region rg).place addr
s.canonical = true ∧ s.hif.memory = true ∧ warm = false ∧ 0 < len.val ∧ len.val ≤ 256 - addr.val % 256 ∧ s.bar2Readable addr
      len = true ∧ s.bar2Zeroing addr = false ∧ s.regionAt addr = some rg ∧ s.byteLive rg addr = true ∧ s.armedFor (256 + x.g)
      0 = false) ∧
  (∃ (s : State) (memory : Bool) (addr : Fin 0x4000000000) (len : Fin 4097),
    let warm := s.on TOP TOP_RESET_STAT_WARM_BUSY
s.canonical = true ∧ s.hif.memory = true ∧ warm = false ∧ 0 < len.val ∧ len.val ≤ 256 - addr.val % 256 ∧ s.bar2Readable addr
      len = false) ∧
  (∃ (s : State) (memory : Bool),
s.canonical = true ∧ s.hif.memory = false) ∧
  (∃ (s : State) (memory : Bool) (addr : Fin 0x4000000000) (bytes : List Byte),
    let warm := s.on TOP TOP_RESET_STAT_WARM_BUSY
s.canonical = true ∧ bytes ≠ [] ∧ s.hif.memory = true ∧ warm = false ∧ bytes.length ≤ 256 - addr.val % 256 ∧ s.bar2Writable
      addr bytes.length = true) ∧
  (∃ (s : State) (memory : Bool) (addr : Fin 0x4000000000) (bytes : List Byte),
    let warm := s.on TOP TOP_RESET_STAT_WARM_BUSY
s.canonical = true ∧ bytes ≠ [] ∧ s.hif.memory = true ∧ warm = false ∧ bytes.length ≤ 256 - addr.val % 256 ∧ s.bar2Writable
      addr bytes.length = false) ∧
  (∃ (s : State) (memory : Bool),
s.canonical = true ∧ s.hif.memory = false) ∧
  (∃ (s : State),
    let ready_ := s.on TOP TOP_RESET_STAT_READY
s.canonical = true ∧ ready_ = true) ∧
  (∃ (s : State),
    let ready_ := s.on TOP TOP_RESET_STAT_READY
s.canonical = true ∧ ready_ = true) ∧
  (∃ (s : State),
    let ready_ := s.on TOP TOP_RESET_STAT_READY
s.canonical = true ∧ ready_ = true) ∧
  (∃ (s : State),
    let ready_ := s.on TOP TOP_RESET_STAT_READY
s.canonical = true ∧ ready_ = true) ∧
  (∃ (s : State),
    let ready_ := s.on TOP TOP_RESET_STAT_READY
s.canonical = true ∧ ready_ = false) ∧
  (∃ (s : State),
    let ready_ := s.on TOP TOP_RESET_STAT_READY
s.canonical = true ∧ ready_ = true) ∧
  (∃ (s : State),
    let ready_ := s.on TOP TOP_RESET_STAT_READY
s.canonical = true ∧ ready_ = true) ∧
  (∃ (s : State) (value : Word),
    let ready_ := s.on TOP TOP_RESET_STAT_READY
s.canonical = true ∧ ready_ = true ∧ value.toNat % 4 = 0 ∧ value.toNat ≤ 0x03FFFFFC) ∧
  (∃ (s : State) (value : Word),
    let ready_ := s.on TOP TOP_RESET_STAT_READY
s.canonical = true ∧ ready_ = true ∧ ((value.toNat % 4 ≠ 0 ∨ 0x03FFFFFC < value.toNat))) ∧
  (∃ (s : State),
    let ready_ := s.on TOP TOP_RESET_STAT_READY
s.canonical = true ∧ ready_ = true) ∧
  (∃ (s : State) (value : Word) (window : Option Word),
    let ready_ := s.on TOP TOP_RESET_STAT_READY
s.canonical = true ∧ ready_ = true ∧ s.hif.window = THM + THM_CTRL.off ∧ s.accepts (THM + THM_CTRL.off) 1 = true ∧ s.g THM
      THM_STAT_STAGE = 0 ∧ value = 1) ∧
  (∃ (s : State) (value : Word) (window : Option Word),
    let ready_ := s.on TOP TOP_RESET_STAT_READY
s.canonical = true ∧ ready_ = true ∧ s.hif.window = TOP + TOP_RESET_CTRL.off ∧ s.accepts (TOP + TOP_RESET_CTRL.off)
      value.toNat = true ∧ bitOf value.toNat 0 = true ∧ s.hif.now = some .flr ∧ s.hif.held = []) ∧
  (∃ (s : State) (window : Option Word),
    let ready_ := s.on TOP TOP_RESET_STAT_READY
s.canonical = true ∧ ready_ = true ∧ s.hif.window ≠ TOP + TOP_RESET_CTRL.off ∧ s.hif.window ≠ THM + THM_CTRL.off) ∧
  (∃ (s : State),
    let ready_ := s.on TOP TOP_RESET_STAT_READY
s.canonical = true ∧ ready_ = true ∧ s.g HIF HIF_SMB_STAT_SUBSYS_LOCKED = 0) ∧
  (∃ (s : State),
    let ready_ := s.on TOP TOP_RESET_STAT_READY
s.canonical = true ∧ ready_ = true ∧ s.g HIF HIF_SMB_STAT_SUBSYS_LOCKED = 1) ∧
  (∃ (s : State),
s.canonical = true) :=
  ⟨⟨st [(HIF, HIF_LINK_STAT_BME, 1)], true, true, by decide +kernel⟩,
   ⟨st [(HIF, HIF_LINK_STAT_BME, 1), (HIF, HIF_LINK_STAT_D3HOT, 1)], by decide +kernel⟩,
   ⟨{ st [(TOP, TOP_RESET_STAT_READY, 1)] with hif := { ready.hif with perst := true } }, by decide +kernel⟩,
   ⟨{ st [(TOP, TOP_RESET_STAT_READY, 1)] with hif := { ready.hif with perst := true, first := some (5, 16) } }, (5, 16), by decide +kernel⟩,
   ⟨ready, by decide +kernel⟩,
   ⟨st [(HIF, HIF_LINK_STAT_UP, 1), (HIF, HIF_LINK_STAT_WIDTH, 16)], by decide +kernel⟩,
   ⟨{ st [(HIF, HIF_LINK_STAT_UP, 1), (HIF, HIF_LINK_STAT_WIDTH, 16)] with hif := { ready.hif with recov := some 0 } }, by decide +kernel⟩,
   ⟨ready, by decide +kernel⟩,
   ⟨st [(HIF, HIF_LINK_CNT_REPLAY, 0xFFFF)], by decide +kernel⟩,
   ⟨{ b2 ready with mem := [(255, 7)] }, false, 255, 1, 0, by decide +kernel⟩,
   ⟨ready, false, 0x20000, 64, by decide +kernel⟩,
   ⟨State.reset, false, by decide +kernel⟩,
   ⟨b2 ready, false, 254, [1, 2], by decide +kernel⟩,
   ⟨ready, false, 254, [1, 2], by decide +kernel⟩,
   ⟨State.reset, false, by decide +kernel⟩,
   ⟨st [(TOP, TOP_RESET_STAT_READY, 1)], by decide +kernel⟩,
   ⟨st [(TOP, TOP_RESET_STAT_READY, 1), (THM, THM_STAT_STAGE, 2)], by decide +kernel⟩,
   ⟨st [(TOP, TOP_RESET_STAT_READY, 1), (THM, THM_ZONE_TEMP, 100)], by decide +kernel⟩,
   ⟨st [(TOP, TOP_RESET_STAT_READY, 1)], by decide +kernel⟩,
   ⟨ready, by decide +kernel⟩,
   ⟨st [(TOP, TOP_RESET_STAT_READY, 1)], by decide +kernel⟩,
   ⟨st [(TOP, TOP_RESET_STAT_READY, 1)], by decide +kernel⟩,
   ⟨st [(TOP, TOP_RESET_STAT_READY, 1)], 0x03FFFFFC, by decide +kernel⟩,
   ⟨st [(TOP, TOP_RESET_STAT_READY, 1)], 0x04000000, by decide +kernel⟩,
   ⟨st [(TOP, TOP_RESET_STAT_READY, 1)], by decide +kernel⟩,
   ⟨{ st [(TOP, TOP_RESET_STAT_READY, 1)] with hif := { ready.hif with window := THM + THM_CTRL.off } }, 1, none, by decide +kernel⟩,
   ⟨{ st [(TOP, TOP_RESET_STAT_READY, 1)] with hif := { ready.hif with window := TOP + TOP_RESET_CTRL.off, now := some .flr } }, 0xA501, none, by decide +kernel⟩,
   ⟨st [(TOP, TOP_RESET_STAT_READY, 1)], none, by decide +kernel⟩,
   ⟨st [(TOP, TOP_RESET_STAT_READY, 1)], by decide +kernel⟩,
   ⟨st [(TOP, TOP_RESET_STAT_READY, 1), (HIF, HIF_SMB_STAT_SUBSYS_LOCKED, 1)], by decide +kernel⟩,
   ⟨ready, by decide +kernel⟩⟩

theorem witness_EmptyQueueTicks : ∃ s : State, s.canonical = true ∧ s.pending = [] := ⟨State.reset, by decide +kernel⟩

theorem witness_StepKeepsCanonical : ∃ s : State, s.canonical = true := ⟨State.reset, by decide +kernel⟩

theorem witness_QuietCommandsKeepMemory : ∃ c : Instr, mayStore c = false := ⟨.flitReplay, rfl⟩

theorem witness_BytesWrittenAreReadBack : ∃ (s : State) (a : Nat) (l : List Byte), s.canonical = true ∧
    (s.hbmWrite a l).hbmRead a l.length = l ∧ (s.hbmSpan a l.length true).hbmRead a l.length = [0, 0] :=
  ⟨{ State.reset with mem := [(0x100, 7), (0x102, 9)] }, 0x101, [5, 0], by decide +kernel⟩

end Sys2Proof.Tests
end

section
/-! SUPPORT. Register pages (02_register_pages.md): the record of refused writes and its clearing (R43), a page without power
(R48) and the commit of a shadow set (R55). -/

namespace Sys2Proof.Machine

/-! ### Fields read after writes -/

theorem on_iff (s : State) (b : Nat) (f : Fld) : s.on b f = true ↔ s.g b f = 1 := by rw [on_g, beq_iff_eq]

/-- The 64-bit number written to a _LO and _HI pair is read back. -/
theorem g64_p64 {s : State} (ho : s.ok) (b : Nat) (f : Fld) (v : Nat) (hv : v < 2 ^ 64) : (s.p64 b f v).g64 b f = v := by
  unfold State.p64 State.g64
  rw [State.rd_wr (State.wr_ok ho _ _), State.rd_wr (State.wr_ok ho _ _), State.rd_wr ho, if_neg (by omega), if_pos rfl, if_pos rfl]
  omega

theorem p64_ok {s : State} (ho : s.ok) (b : Nat) (f : Fld) (v : Nat) : (s.p64 b f v).ok := State.wr_ok (State.wr_ok ho _ _) _ _

theorem OnlyRegs.p64 {l : List Nat} {s0 s : State} (ho : s.ok) (h : OnlyRegs l s0 s) (b : Nat) (f : Fld) (v : Nat)
    (hlo : b + f.off ∈ l) (hhi : b + f.off + 4 ∈ l) : OnlyRegs l s0 (s.p64 b f v) :=
  (h.wr ho _ _ hlo).wr (State.wr_ok ho _ _) _ _ hhi

/-- A _LO and _HI pair keeps its value under a write of a field of another register. -/
theorem g64_p_ne {s : State} (ho : s.ok) (b b' : Nat) (f f' : Fld) (v : Nat) (h1 : b' + f'.off ≠ b + f.off)
    (h2 : b' + f'.off + 4 ≠ b + f.off) : (s.p b f v).g64 b' f' = s.g64 b' f' := by
  unfold State.g64
  rw [State.rd_p_ne ho _ _ _ _ h1, State.rd_p_ne ho _ _ _ _ h2]

/-- A field keeps its value under a write of a pair of registers other than its own. -/
theorem g_p64_ne {s : State} (ho : s.ok) (b b' : Nat) (f f' : Fld) (v : Nat) (h1 : b' + f'.off ≠ b + f.off)
    (h2 : b' + f'.off ≠ b + f.off + 4) : (s.p64 b f v).g b' f' = s.g b' f' := by
  unfold State.p64
  rw [g_wr (State.wr_ok ho _ _), if_neg h2, g_wr ho, if_neg h1]

/-! ### The frames of a command -/

/-- A field of a register that is not listed keeps its value. -/
theorem OnlyRegs.g {l : List Nat} {s t : State} (h : OnlyRegs l s t) (b : Nat) (f : Fld) (hf : b + f.off ∉ l) : t.g b f = s.g b f := by
  unfold State.g
  rw [h.2 _ hf]

theorem OnlyRegs.trans {l : List Nat} {s t u : State} (h : OnlyRegs l s t) (h' : OnlyRegs l t u) : OnlyRegs l s u := by
  obtain ⟨ht, hr⟩ := h
  obtain ⟨hu, hr'⟩ := h'
  refine ⟨?_, fun off ho => (hr' off ho).trans (hr off ho)⟩
  rw [ht] at hu
  exact hu

theorem OnlyRegs.mono {l l' : List Nat} {s t : State} (h : OnlyRegs l s t) (hl : ∀ x ∈ l, x ∈ l') : OnlyRegs l' s t :=
  ⟨h.1, fun off ho => h.2 off (fun hm => ho (hl off hm))⟩

/-- Writes of listed registers alone keep RegsBut. -/
theorem RegsBut.onlyRegs {l : List Nat} {s0 s t : State} (h : RegsBut l s0 s) (h' : OnlyRegs l s t) : RegsBut l s0 t := by
  obtain ⟨hr, hm, hg, hh, hp, hq⟩ := h
  obtain ⟨hs, hr'⟩ := h'
  refine ⟨fun off h1 h2 => (hr' off h1).trans (hr off h1 h2), ?_⟩
  rw [hs]
  exact ⟨hm, hg, hh, hp, hq⟩

theorem RegsBut.of_counted {l : List Nat} {s t : State} (ho : s.ok) (h : Counted [] s t) : RegsBut l s t :=
  (RegsBut.refl l s).counted ho h (by simp)

theorem RegsBut.emit {l : List Nat} {s0 s : State} (h : RegsBut l s0 s) (o : Out) : RegsBut l s0 (s.emit o) := h

/-- A counted event leaves a one-bit field outside the counters' pages as it was. -/
theorem Counted.on {l : List Nat} {s t : State} (h : Counted l s t) (hs : s.ok) (b : Nat) (f : Fld) (h1 : b + f.off ∉ l)
    (h2 : cntPage (b + f.off) = false) : t.on b f = s.on b f := by rw [on_g, on_g, h.g hs b f h1 h2]

/-! ### The record of refused writes (R43) -/

/-- BAD_WRITE, BAD_CAUSE and BAD_OFFSET written together. -/
def State.setBadWrite (s : State) (b bad cause off : Nat) : State :=
  ((s.p b PAGE_STAT_BAD_WRITE bad).p b PAGE_STAT_BAD_CAUSE cause).p b PAGE_STAT_BAD_OFFSET off

theorem badWrite_of_clear {s : State} {b : Nat} (h : s.on b PAGE_STAT_BAD_WRITE = false) (off cause : Nat) :
    s.badWrite b off cause = s.setBadWrite b 1 cause (off % 0x1000) := by
  unfold State.badWrite
  rw [h]
  rfl

/-- While BAD_WRITE is 1 a further refusal changes nothing. -/
theorem badWrite_of_set {s : State} {b : Nat} (h : s.on b PAGE_STAT_BAD_WRITE = true) (off cause : Nat) : s.badWrite b off cause = s := by
  unfold State.badWrite
  exact if_pos h

section SetBadWrite
variable {s : State} (ho : s.ok) (b bad cause off : Nat)
include ho

theorem setBadWrite_ok : (s.setBadWrite b bad cause off).ok := State.p_ok (State.p_ok (State.p_ok ho _ _ _) _ _ _) _ _ _

theorem setBadWrite_flag : (s.setBadWrite b bad cause off).g b PAGE_STAT_BAD_WRITE = bad % 2 := by
  have h1 := State.p_ok ho b PAGE_STAT_BAD_WRITE bad
  unfold State.setBadWrite
  rw [State.g_p_ne (State.p_ok h1 _ _ _) _ _ _ _ _ (by decide) (.inr (by decide)),
    State.g_p_ne h1 _ _ _ _ _ (by decide) (.inr (by decide)), State.g_p ho _ _ _ (by decide)]
  rfl

theorem setBadWrite_cause : (s.setBadWrite b bad cause off).g b PAGE_STAT_BAD_CAUSE = cause % 16 := by
  have h1 := State.p_ok ho b PAGE_STAT_BAD_WRITE bad
  unfold State.setBadWrite
  rw [State.g_p_ne (State.p_ok h1 _ _ _) _ _ _ _ _ (by decide) (.inr (by decide)), State.g_p h1 _ _ _ (by decide)]
  rfl

theorem setBadWrite_offset : (s.setBadWrite b bad cause off).g b PAGE_STAT_BAD_OFFSET = off % 0x1000 := by
  have h1 := State.p_ok ho b PAGE_STAT_BAD_WRITE bad
  unfold State.setBadWrite
  rw [State.g_p (State.p_ok h1 _ _ _) _ _ _ (by decide)]
  rfl

theorem setBadWrite_onlyRegs : OnlyRegs [b + PAGE_STAT.off] s (s.setBadWrite b bad cause off) := by
  have hm : b + PAGE_STAT.off ∈ [b + PAGE_STAT.off] := List.mem_singleton.2 rfl
  have h1 := State.p_ok ho b PAGE_STAT_BAD_WRITE bad
  have h := ((OnlyRegs.refl _ s).p ho b PAGE_STAT_BAD_WRITE bad hm).p h1 b PAGE_STAT_BAD_CAUSE cause hm
  exact h.p (State.p_ok h1 _ _ _) b PAGE_STAT_BAD_OFFSET off hm

end SetBadWrite

theorem badWrite_on {s : State} (ho : s.ok) (b off cause : Nat) : (s.badWrite b off cause).on b PAGE_STAT_BAD_WRITE = true := by
  cases h : s.on b PAGE_STAT_BAD_WRITE with
  | true => rw [badWrite_of_set h, h]
  | false => rw [badWrite_of_clear h, on_iff, setBadWrite_flag ho]

theorem badWrite_onlyRegs {s : State} (ho : s.ok) (b off cause : Nat) : OnlyRegs [b + PAGE_STAT.off] s (s.badWrite b off cause) := by
  cases h : s.on b PAGE_STAT_BAD_WRITE with
  | true => rw [badWrite_of_set h]; exact OnlyRegs.refl _ s
  | false => rw [badWrite_of_clear h]; exact setBadWrite_onlyRegs ho _ _ _ _

/-! ### BAD_WRITE_CLR (R43) -/

/-- PAGE_CTRL as it stands, with BAD_WRITE_CLR set. -/
theorem ctrlWith_badWriteClr (s : State) (n : Nat) :
    s.ctrlWith n 0 16 = s.g (pageOf n) PAGE_CTRL_ENABLE + 4 * s.g (pageOf n) PAGE_CTRL_POWER_REQ + 16 := by
  have he : s.g (pageOf n) PAGE_CTRL_ENABLE < 2 := fld_lt _ _ _
  have hp : s.g (pageOf n) PAGE_CTRL_POWER_REQ < 4 := fld_lt _ _ _
  unfold State.ctrlWith
  change (s.g (pageOf n) PAGE_CTRL_ENABLE + 4 * s.g (pageOf n) PAGE_CTRL_POWER_REQ) - _ ||| 16 = _
  rw [Nat.and_zero, Nat.sub_zero, Nat.or_comm, Nat.add_comm _ 16]
  exact (Nat.two_pow_add_eq_or_of_lt (i := 4) (by omega) 1).symm

/-- An always-on page has no domain to request. -/
theorem domRequest_of_always_on {blk : Blk} {i : Nat} (h : instDomain blk i = none) (s : State) : s.domRequest blk i = s := by
  unfold State.domRequest
  rw [h]

/-- PAGE_STAT and PAGE_CTRL of a page are two registers. -/
theorem pageStat_ne_pageCtrl (b : Nat) : b + PAGE_STAT.off ≠ b + PAGE_CTRL.off := by simp [PAGE_STAT, PAGE_CTRL]

/-- A PAGE_CTRL value that leaves ENABLE and POWER_REQ as they stand, with BAD_WRITE_CLR 1 and SOFT_RESET 0, clears the record and
does nothing else: ENABLE neither rises nor falls, and no power request is renewed. -/
theorem pageCtrl_badWriteClr {s : State} (ho : s.ok) {blk : Blk} {i v : Nat} (hen : bitOf v 0 = s.enabled (blk.at i))
    (hsr : bitOf v 1 = false) (hclr : bitOf v 4 = true) (hpw : fld v 2 2 = s.g (blk.at i) PAGE_CTRL_POWER_REQ)
    (href : s.ctrlRefused blk i v = false) (hreq : fld v 2 2 = 0 ∨ fld v 2 2 = 1 ∧ instDomain blk i = none) :
    OnlyRegs [blk.at i + PAGE_CTRL.off] (s.setBadWrite (blk.at i) 0 0 0) (s.pageCtrl blk i v) := by
  have hlt : ¬ 2 ≤ fld v 2 2 := by omega
  have hrise : (bitOf v 0 && !s.enabled (blk.at i)) = false := by rw [hen, Bool.and_not_self]
  have hfall : (!bitOf v 0 && s.enabled (blk.at i)) = false := by rw [hen, Bool.not_and_self]
  have hdsp : (blk == .dsp && bitOf v 0 && !s.enabled (blk.at i)) = false := by rw [Bool.and_assoc, hrise, Bool.and_false]
  have h0 := setBadWrite_ok ho (blk.at i) 0 0 0
  have hpw' : (s.setBadWrite (blk.at i) 0 0 0).g (blk.at i) PAGE_CTRL_POWER_REQ = fld v 2 2 :=
    ((setBadWrite_onlyRegs ho (blk.at i) 0 0 0).g _ PAGE_CTRL_POWER_REQ
      (fun h => pageStat_ne_pageCtrl _ (List.mem_singleton.1 h).symm)).trans hpw.symm
  have hm : blk.at i + PAGE_CTRL.off ∈ [blk.at i + PAGE_CTRL.off] := List.mem_singleton.2 rfl
  have hw := (OnlyRegs.refl _ _).p h0 (blk.at i) PAGE_CTRL_POWER_REQ (fld v 2 2) hm
  have heq : s.pageCtrl blk i v = ((s.setBadWrite (blk.at i) 0 0 0).p (blk.at i) PAGE_CTRL_POWER_REQ (fld v 2 2)).p (blk.at i)
      PAGE_CTRL_ENABLE (b2n (bitOf v 0)) := by
    unfold State.pageCtrl
    simp only [hlt, href, hdsp, hclr, hrise, hfall, hsr, if_true, if_false, Bool.false_eq_true]
    congr 1
    split
    case isFalse => rfl
    case isTrue h =>
      change ((s.setBadWrite (blk.at i) 0 0 0).g _ _ != _ || _) = true at h
      rw [hpw', bne_self_eq_false, Bool.false_or] at h
      obtain hoff | ⟨-, hd⟩ := hreq
      · rw [hoff] at h; cases h
      · exact domRequest_of_always_on hd _
  rw [heq]
  exact hw.p (State.p_ok h0 _ _ _) (blk.at i) PAGE_CTRL_ENABLE _ hm

/-- The command BAD_WRITE_CLR, on a page that takes the write and whose power it does not request again. -/
theorem pageCtrl_ctrlWith_badWriteClr {s : State} (ho : s.ok) (n : Nat)
    (href : s.ctrlRefused (instOf n).1 (instOf n).2 (s.ctrlWith n 0 16) = false)
    (hreq : s.g (pageOf n) PAGE_CTRL_POWER_REQ = 0 ∨
      s.g (pageOf n) PAGE_CTRL_POWER_REQ = 1 ∧ instDomain (instOf n).1 (instOf n).2 = none) :
    OnlyRegs [pageOf n + PAGE_CTRL.off] (s.setBadWrite (pageOf n) 0 0 0)
      (s.pageCtrl (instOf n).1 (instOf n).2 (s.ctrlWith n 0 16)) := by
  have hv := ctrlWith_badWriteClr s n
  have he : s.g (pageOf n) PAGE_CTRL_ENABLE < 2 := fld_lt _ _ _
  have hp : s.g (pageOf n) PAGE_CTRL_POWER_REQ < 4 := fld_lt _ _ _
  have hpw : fld (s.ctrlWith n 0 16) 2 2 = s.g (pageOf n) PAGE_CTRL_POWER_REQ := by rw [hv]; unfold fld; omega
  have hen : bitOf (s.ctrlWith n 0 16) 0 = s.enabled (pageOf n) := by
    unfold State.enabled
    rw [hv, on_g, bitOf]
    congr 1
    omega
  have hsr : bitOf (s.ctrlWith n 0 16) 1 = false := by rw [hv, bitOf, beq_eq_false_iff_ne]; omega
  have hclr : bitOf (s.ctrlWith n 0 16) 4 = true := by rw [hv, bitOf, beq_iff_eq]; omega
  exact pageCtrl_badWriteClr ho hen hsr hclr hpw href (by rw [hpw]; exact hreq)

/-- Settles O4: the record of refused writes is written once and then kept, and BAD_WRITE_CLR writes it with zeros. -/
theorem firstRefusedWriteIsRecorded : Obligations.FirstRefusedWriteIsRecorded := by
  unfold Obligations.FirstRefusedWriteIsRecorded
  intro s b off cause n hs
  have ho := ok_of_canonical hs
  refine ⟨fun hclear => ?_, fun hset => badWrite_of_set hset off cause, fun hreach href hreq => ?_⟩
  · refine ⟨(on_iff _ _ _).1 (badWrite_on ho b off cause), ?_, ?_, badWrite_onlyRegs ho b off cause⟩
    · rw [badWrite_of_clear hclear, setBadWrite_cause ho]
    · rw [badWrite_of_clear hclear, setBadWrite_offset ho, Nat.mod_mod]
  · have hu := claimed_ok hs 4
    have ht := pageCtrl_ctrlWith_badWriteClr hu n.val href hreq
    have hstat : pageOf n.val + PAGE_STAT.off ∉ [pageOf n.val + PAGE_CTRL.off] := fun h => pageStat_ne_pageCtrl _ (List.mem_singleton.1 h)
    refine ⟨_, next_header hreach _, ?_, ?_, ?_, ?_⟩
    · exact (ht.g _ PAGE_STAT_BAD_WRITE hstat).trans (setBadWrite_flag hu ..)
    · exact (ht.g _ PAGE_STAT_BAD_CAUSE hstat).trans (setBadWrite_cause hu ..)
    · exact (ht.g _ PAGE_STAT_BAD_OFFSET hstat).trans (setBadWrite_offset hu ..)
    · exact ((setBadWrite_onlyRegs hu _ 0 0 0).mono (by simp)).trans (ht.mono (by simp))

/-! ### Owners of BAR0 offsets (R65) -/

/-- The owner of an offset is numbered among those of its block, and the offset lies on its pages. -/
theorem ownerIn_eq_some {l : List Blk} {off : Nat} {o : Owner} (h : ownerIn l off = some o) :
    o.inst < o.blk.row.count ∧ o.rel < o.blk.row.pages * 0x1000 ∧ off = o.blk.at o.inst + o.rel := by
  induction l with
  | nil => cases h
  | cons b r ih =>
    by_cases hin : b.row.base ≤ off ∧ off < b.row.base + b.row.count * (b.row.pages * 0x1000)
    · unfold ownerIn at h
      rw [if_pos hin] at h
      cases h
      have hpos : 0 < b.row.pages * 0x1000 := by cases b <;> decide
      refine ⟨?_, Nat.mod_lt _ hpos, ?_⟩ <;> dsimp only
      · rw [Nat.div_lt_iff_lt_mul hpos]; omega
      · have := Nat.div_add_mod' (off - b.row.base) (b.row.pages * 0x1000)
        unfold Blk.at
        omega
    · rw [ownerIn_skip b r off hin] at h
      exact ih h

theorem owner_eq_some {off : Nat} {blk : Blk} {i rel : Nat} (h : owner off = some ⟨blk, i, rel⟩) :
    i < blk.row.count ∧ rel < blk.row.pages * 0x1000 ∧ off = blk.at i + rel := ownerIn_eq_some h

/-- The pages of a switched block lie above the MSI-X structures and are not the counters'. -/
theorem switched_base {blk : Blk} (h : blk.row.switched = true) : 0x10000 ≤ blk.row.base ∧ blk ≠ .cnt := by
  revert h
  cases blk <;> decide

/-! ### A page without power (R48) -/

theorem readable_of_unpowered {s : State} {o : Owner} (h : s.powered (o.blk.at o.inst) = false) : s.readable o = false := by
  unfold State.readable
  rw [h, Bool.and_false, Bool.false_and, Bool.false_and]

theorem writeCause_of_unpowered {s : State} {o : Owner} (h : s.powered (o.blk.at o.inst) = false) (v : Nat) :
    s.writeCause o v = some 3 := by
  unfold State.writeCause
  dsimp only
  rw [h]
  rfl

/-- A write of all four bytes of an aligned register outside the MSI-X structures is the write of the number they spell. -/
theorem bar0Write_dword (s : State) {off : Nat} (hmsix : 0x3020 ≤ off) (h4 : off % 4 = 0) {bytes : List Byte} (hl : bytes.length = 4) :
    s.bar0Write off (bytes.map some) = s.writeDword off (ofLe bytes) := by
  have hb : (bytes.map some).filterMap (fun x => x) = bytes := List.filterMap_map.trans List.filterMap_some
  unfold State.bar0Write
  simp only [hb, List.length_map, hl, h4, show ¬ off < 0x3020 by omega, and_false, if_false, beq_self_eq_true, Bool.and_self, if_true]

theorem leBytes_length (n v : Nat) : (leBytes n v).length = n := by
  induction n generalizing v with
  | zero => rfl
  | succ n ih => rw [leBytes, List.length_cons, ih]

section NoPower
variable {s : State} {off : Nat} {blk : Blk} {i rel : Nat} (hown : owner off = some ⟨blk, i, rel⟩)
  (hpow : s.powered (blk.at i) = false)
include hown hpow

theorem readEffect_unpowered : s.readEffect off = s := by
  unfold State.readEffect
  simp only [hown, readable_of_unpowered (o := ⟨blk, i, rel⟩) hpow, Bool.not_false, Bool.or_true, if_true]

variable (hrel : 0x100 ≤ rel % 0x1000)
include hrel

theorem readReg_unpowered : s.readReg off = 0 := by
  unfold State.readReg
  simp only [hown, readable_of_unpowered (o := ⟨blk, i, rel⟩) hpow, Bool.false_eq_true, if_false, show ¬ rel % 0x1000 = 0 by omega,
    show ¬ rel % 0x1000 = 4 by omega, show ¬ rel % 0x1000 < 0x100 by omega, ite_self]

theorem readRegs_unpowered : s.readRegs off 1 = ([0], s) := by
  simp only [State.readRegs, readReg_unpowered hown hpow hrel, readEffect_unpowered hown hpow]

theorem writeDword_unpowered (hwarm : s.on TOP TOP_RESET_STAT_WARM_BUSY = false) (v : Nat) :
    s.writeDword off v = s.badWrite (blk.at i) off 3 := by
  unfold State.writeDword State.regOp
  simp only [hown, writeCause_of_unpowered (o := ⟨blk, i, rel⟩) hpow, hwarm, Bool.false_and, Bool.false_eq_true, if_false,
    show ¬ rel % 0x1000 < 0x100 by omega]

end NoPower

/-- The state in which a host read of BAR0 takes effect: the access is counted (R716). -/
def State.readClaimed (s : State) : State := s.count { cls := 4, ev := 3 }

/-- The state in which a REGISTER_WRITE of n enabled bytes takes effect: the access and its payload are counted (R716). -/
def State.writeClaimed (s : State) (n : Nat) : State := s.readClaimed.hostCount 1 none none n

theorem readClaimed_counted (s : State) : Counted [] s s.readClaimed := (Counted.refl [] s).count _
theorem writeClaimed_counted (s : State) (n : Nat) : Counted [] s (s.writeClaimed n) := (readClaimed_counted s).hostCount _ _ _ _

/-- An aligned 4-byte read whose register reads 0 without an effect is counted and answered with zeros. -/
theorem exec_rcRead_of_zero {s : State} {off : Fin 0x4000000} (hmem : s.hif.memory = true) (h4 : off.val % 4 = 0)
    (hz : s.readClaimed.readRegs off.val 1 = ([0], s.readClaimed)) :
    exec (.rcRead off 4) s = .next ((s.readClaimed.hostCount 0 none none 4).emit (.barData [0, 0, 0, 0] false)) := by
  have hoff : off.val / 4 * 4 = off.val := by omega
  have hdw : dwords off.val (4 : Fin 4097).val = 1 := by
    change (if 4 = 0 then 0 else (off.val % 4 + 4 + 3) / 4) = 1
    rw [h4]
    rfl
  change execRcRead off 4 s = _
  unfold execRcRead State.host
  rw [if_pos hmem, hoff, hdw]
  dsimp only
  rw [← State.readClaimed, hz]
  rfl

/-- A write of all four bytes of an aligned register outside the MSI-X structures is counted and takes effect. -/
theorem exec_registerWrite_dword {s : State} {off : Fin 0x4000000} (hmem : s.hif.memory = true) (hmsix : 0x3020 ≤ off.val)
    (h4 : off.val % 4 = 0) (v : Word) :
    exec (.registerWrite off ((leBytes 4 v.toNat).map some)) s =
      .next ((s.writeClaimed 4).writeDword off.val (ofLe (leBytes 4 v.toNat))) := by
  have hl : (((leBytes 4 v.toNat).map some).filterMap (fun x => x)).length = 4 := rfl
  change execRegisterWrite off _ s = _
  unfold execRegisterWrite State.host
  rw [if_pos hmem]
  dsimp only
  rw [hl, bar0Write_dword _ hmsix h4 (leBytes_length 4 v.toNat)]
  rfl

/-- Settles O5: the offset tells whose page is meant, and without power both accesses end before its registers. -/
theorem noPowerMeansReadsZeroAndRefusedWrites : Obligations.NoPowerMeansReadsZeroAndRefusedWrites := by
  unfold Obligations.NoPowerMeansReadsZeroAndRefusedWrites
  intro s off v blk i rel hs hmem hwarm hown hsw hrel h4 hpow p
  have ho := ok_of_canonical hs
  obtain ⟨hi, -, hoff⟩ := owner_eq_some hown
  obtain ⟨hbase, hcnt⟩ := switched_base hsw
  have hpage : cntPage (p + PAGE_STAT.off) = false :=
    cnt_at blk i PAGE_STAT.off hcnt hi (by cases blk <;> decide)
  have hstat {t : State} (h : Counted [] s t) (f : Fld) (hf : f.off = PAGE_STAT.off) : t.on p f = s.on p f :=
    h.on ho p f (List.not_mem_nil) (by rw [hf]; exact hpage)
  constructor
  case left =>
    have hr := readClaimed_counted s
    have hz := readRegs_unpowered hown ((hstat hr PAGE_STAT_POWERED rfl).trans hpow) hrel
    exact ⟨_, exec_rcRead_of_zero hmem h4 hz, rfl, (RegsBut.of_counted ho (hr.hostCount _ _ _ _)).emit _⟩
  case right =>
    have hw := writeClaimed_counted s 4
    have how := hw.ok ho
    have hmsix : 0x3020 ≤ off.val := by rw [hoff, Blk.at]; omega
    have hwarm' : (s.writeClaimed 4).on TOP TOP_RESET_STAT_WARM_BUSY = false :=
      (hw.on ho _ _ List.not_mem_nil (by decide)).trans hwarm
    have heq := writeDword_unpowered hown ((hstat hw PAGE_STAT_POWERED rfl).trans hpow) hrel hwarm' (ofLe (leBytes 4 v.toNat))
    have hbw : (s.writeClaimed 4).on p PAGE_STAT_BAD_WRITE = s.on p PAGE_STAT_BAD_WRITE := hstat hw _ rfl
    refine ⟨_, (exec_registerWrite_dword hmem hmsix h4 v).trans (congrArg _ heq), badWrite_on how _ _ _, fun hclear => ?_,
      fun hset => ?_, (RegsBut.of_counted ho hw).onlyRegs (badWrite_onlyRegs how _ _ _)⟩
    · rw [badWrite_of_clear (hbw.trans hclear)]
      exact ⟨setBadWrite_cause how .., (setBadWrite_offset how ..).trans (Nat.mod_mod ..)⟩
    · rw [badWrite_of_set (hbw.trans hset)]
      exact hw.rd ho _ List.not_mem_nil hpage

/-! ### A commit applies (R55) -/

/-- The active copies are in canonical form. -/
def State.okA (s : State) : Prop := Sparse.wf resetVal s.actv = true

theorem okA_of_canonical {s : State} (h : s.canonical = true) : s.okA := ((canon_iff s).1 h).actv

theorem wrA_okA {s : State} (h : s.okA) (off v : Nat) : (s.wrA off v).okA := Sparse.put_wf _ _ _ _ h

theorem rdA_wrA {s : State} (h : s.okA) (off v off' : Nat) : (s.wrA off v).rdA off' = if off' = off then v % 2 ^ 32 else s.rdA off' := by
  unfold State.rdA State.wrA
  rw [Sparse.get_put resetVal s.actv none off off' _ h]
  split
  · exact BitVec.toNat_ofNat v 32
  · rfl

/-- The registers at offsets l from b copied to their active copies, one after the other. -/
def State.copyOffs (s : State) (b : Nat) (l : List Nat) : State := l.foldl (fun s o => s.wrA (b + o) (s.rd (b + o))) s

/-- Copying changes active copies only. -/
theorem copyOffs_shape (s : State) (b : Nat) (l : List Nat) : s.copyOffs b l = { s with actv := (s.copyOffs b l).actv } := by
  induction l generalizing s with
  | nil => rfl
  | cons o r ih => exact ih (s.wrA (b + o) (s.rd (b + o)))

theorem copyOffs_regs (s : State) (b : Nat) (l : List Nat) : (s.copyOffs b l).regs = s.regs := by rw [copyOffs_shape]

theorem copyOffs_ok {s : State} (h : s.ok) (b : Nat) (l : List Nat) : (s.copyOffs b l).ok := by
  unfold State.ok
  rw [copyOffs_regs]
  exact h

theorem g_copyOffs (s : State) (b : Nat) (l : List Nat) (b' : Nat) (f : Fld) : (s.copyOffs b l).g b' f = s.g b' f := by
  unfold State.g State.rd
  rw [copyOffs_regs]

/-- An active copy outside the list stays as it was. -/
theorem rdA_copyOffs_of_not_mem {s : State} (h : s.okA) (b : Nat) (l : List Nat) (off : Nat) (hoff : ∀ o ∈ l, off ≠ b + o) :
    (s.copyOffs b l).rdA off = s.rdA off := by
  induction l generalizing s with
  | nil => rfl
  | cons o r ih =>
    have hr := ih (wrA_okA h (b + o) (s.rd (b + o))) (fun x hx => hoff x (List.mem_cons_of_mem o hx))
    exact hr.trans ((rdA_wrA h _ _ _).trans (if_neg (hoff o List.mem_cons_self)))

/-- An active copy in the list takes the register's value: an offset listed twice takes it twice. -/
theorem rdA_copyOffs_of_mem {s : State} (h : s.okA) (b : Nat) (l : List Nat) (o : Nat) (ho : o ∈ l) :
    (s.copyOffs b l).rdA (b + o) = s.rd (b + o) := by
  induction l generalizing s with
  | nil => cases ho
  | cons a r ih =>
    have h1 := wrA_okA h (b + a) (s.rd (b + a))
    by_cases hr : o ∈ r
    · exact ih h1 hr
    · have ha : o = a := (List.mem_cons.1 ho).resolve_right hr
      subst ha
      have hstay := rdA_copyOffs_of_not_mem h1 b r (b + o) (fun x hx he => hr (by rwa [Nat.add_left_cancel he]))
      rw [rdA_wrA h, if_pos rfl, Nat.mod_eq_of_lt (State.rd_lt s _)] at hstay
      exact hstay

/-- The header's part of a commit that applies: APPLIED, the hand-over number, and both commit bits cleared. -/
def State.commitHeader (s : State) (b num : Nat) : State :=
  (((s.addMod b SHADOW_SEQ_APPLIED 1).p64 b SHADOW_AT_LO num).p b PAGE_STAT_COMMIT_PEND 0).p b PAGE_STAT_COMMIT_LATCHED 0

/-- A commit that applies is the copy of the whole shadow set, then its header part. -/
theorem applyCommit_eq (s : State) (blk : Blk) (i num : Nat) :
    s.applyCommit blk i num = (s.copyOffs (blk.at i) blk.shadowOffs).commitHeader (blk.at i) num := rfl

theorem commitHeader_actv (s : State) (b num : Nat) : (s.commitHeader b num).actv = s.actv := by
  simp only [State.commitHeader, State.p_actv, State.p64_actv, State.addMod_actv]

theorem rdA_commitHeader (s : State) (b num off : Nat) : (s.commitHeader b num).rdA off = s.rdA off := by
  unfold State.rdA
  rw [commitHeader_actv]

section CommitHeader
variable {s : State} (ho : s.ok) (b num : Nat)
include ho

theorem commitHeader_applied : (s.commitHeader b num).g b SHADOW_SEQ_APPLIED = (s.g b SHADOW_SEQ_APPLIED + 1) % 2 ^ 16 := by
  have h1 : (s.addMod b SHADOW_SEQ_APPLIED 1).ok := State.p_ok ho _ _ _
  have h2 := p64_ok h1 b SHADOW_AT_LO num
  unfold State.commitHeader
  rw [State.g_p_ne (State.p_ok h2 _ _ _) _ _ _ _ _ (by decide) (.inl (by simp [SHADOW_SEQ_APPLIED, PAGE_STAT_COMMIT_LATCHED])),
    State.g_p_ne h2 _ _ _ _ _ (by decide) (.inl (by simp [SHADOW_SEQ_APPLIED, PAGE_STAT_COMMIT_PEND])),
    g_p64_ne h1 _ _ _ _ _ (by simp [SHADOW_SEQ_APPLIED, SHADOW_AT_LO]) (by simp only [SHADOW_SEQ_APPLIED, SHADOW_AT_LO]; omega)]
  exact (State.g_p ho _ _ _ (by decide)).trans (Nat.mod_mod _ _)

theorem commitHeader_at (hnum : num < 2 ^ 64) : (s.commitHeader b num).g64 b SHADOW_AT_LO = num := by
  have h1 : (s.addMod b SHADOW_SEQ_APPLIED 1).ok := State.p_ok ho _ _ _
  have h2 := p64_ok h1 b SHADOW_AT_LO num
  unfold State.commitHeader
  rw [g64_p_ne (State.p_ok h2 _ _ _) _ _ _ _ _ (by simp [SHADOW_AT_LO, PAGE_STAT_COMMIT_LATCHED])
      (by simp only [SHADOW_AT_LO, PAGE_STAT_COMMIT_LATCHED]; omega),
    g64_p_ne h2 _ _ _ _ _ (by simp [SHADOW_AT_LO, PAGE_STAT_COMMIT_PEND]) (by simp only [SHADOW_AT_LO, PAGE_STAT_COMMIT_PEND]; omega),
    g64_p64 h1 _ _ _ hnum]

theorem commitHeader_pend : (s.commitHeader b num).g b PAGE_STAT_COMMIT_PEND = 0 := by
  have h2 := p64_ok (s := s.addMod b SHADOW_SEQ_APPLIED 1) (State.p_ok ho _ _ _) b SHADOW_AT_LO num
  unfold State.commitHeader
  rw [State.g_p_ne (State.p_ok h2 _ _ _) _ _ _ _ _ (by decide) (.inr (by decide)), State.g_p h2 _ _ _ (by decide), Nat.zero_mod]

theorem commitHeader_latched : (s.commitHeader b num).g b PAGE_STAT_COMMIT_LATCHED = 0 := by
  have h2 := p64_ok (s := s.addMod b SHADOW_SEQ_APPLIED 1) (State.p_ok ho _ _ _) b SHADOW_AT_LO num
  unfold State.commitHeader
  rw [State.g_p (State.p_ok h2 _ _ _) _ _ _ (by decide), Nat.zero_mod]

theorem commitHeader_onlyRegs :
    OnlyRegs [b + SHADOW_SEQ_REQ.off, b + SHADOW_AT_LO.off, b + SHADOW_AT_HI.off, b + PAGE_STAT.off] s (s.commitHeader b num) := by
  have h1 : (s.addMod b SHADOW_SEQ_APPLIED 1).ok := State.p_ok ho _ _ _
  have h2 := p64_ok h1 b SHADOW_AT_LO num
  have hseq := (OnlyRegs.refl [b + SHADOW_SEQ_REQ.off, b + SHADOW_AT_LO.off, b + SHADOW_AT_HI.off, b + PAGE_STAT.off] s).p ho b
    SHADOW_SEQ_APPLIED ((s.g b SHADOW_SEQ_APPLIED + 1) % 2 ^ 16) (by simp [SHADOW_SEQ_REQ, SHADOW_SEQ_APPLIED])
  have hat := hseq.p64 h1 b SHADOW_AT_LO num (by simp) (by simp [SHADOW_AT_LO, SHADOW_AT_HI])
  have hpend := hat.p h2 b PAGE_STAT_COMMIT_PEND 0 (by simp [PAGE_STAT, PAGE_STAT_COMMIT_PEND])
  exact hpend.p (State.p_ok h2 _ _ _) b PAGE_STAT_COMMIT_LATCHED 0 (by simp [PAGE_STAT, PAGE_STAT_COMMIT_LATCHED])

end CommitHeader

/-- Settles O8: the active set is written by the copy alone, and the header's registers after it. -/
theorem commitCopiesTheWholeSet : Obligations.CommitCopiesTheWholeSet := by
  unfold Obligations.CommitCopiesTheWholeSet
  intro s blk i num hs _ hnum b t
  have hA := okA_of_canonical hs
  have ho := copyOffs_ok (ok_of_canonical hs) b blk.shadowOffs
  have ht : t = (s.copyOffs b blk.shadowOffs).commitHeader b num := applyCommit_eq s blk i num
  have hcopy : { s with actv := t.actv } = s.copyOffs b blk.shadowOffs := by rw [ht, commitHeader_actv, ← copyOffs_shape]
  rw [hcopy, ht, ← g_copyOffs s b blk.shadowOffs]
  simp only [rdA_commitHeader]
  exact ⟨rdA_copyOffs_of_mem hA b blk.shadowOffs, rdA_copyOffs_of_not_mem hA b blk.shadowOffs, commitHeader_applied ho b num,
    commitHeader_at ho b num hnum, commitHeader_pend ho b num, commitHeader_latched ho b num, commitHeader_onlyRegs ho b num⟩

end Sys2Proof.Machine
end

section
/-! SUPPORT. Counters (21_counters.md): what the user window BAR4 shows of them (R725). -/

namespace Sys2Proof.Machine

/-! ### The range of a counter -/

/-- What holds of every entry of a list and of the default holds of a lookup. -/
theorem nth_forall {α : Type} {P : α → Prop} {d : α} {l : List α} (hd : P d) (hl : ∀ a ∈ l, P a) (n : Nat) : P (nth d l n) := by
  induction l generalizing n with
  | nil => exact hd
  | cons a r ih =>
    cases n with
    | zero => exact hl a List.mem_cons_self
    | succ n => exact ih (fun x hx => hl x (List.mem_cons_of_mem a hx)) n

/-- In a canonical state a counter is a number of 48 bits (R719). -/
theorem cnt_lt_of_canonical {s : State} (h : s.canonical = true) (n : Nat) : nth 0 s.cnt n < 2 ^ 48 :=
  nth_forall (P := (· < 2 ^ 48)) (by decide) ((canon_iff s).1 h).range n

/-! ### The window (R725) -/

/-- Whether the window shows counter n: USER_EN and the counter's bit of CNT_USER are both 1. -/
def State.bar4Shows (s : State) (n : Nat) : Bool :=
  s.on CNT CNT_CTRL_USER_EN && s.gBit (CNT + 4 * (n / 32)) CNT_USER (n % 32)

theorem bar4_of_shown {s : State} {n : Nat} (hn : n < 256) (h : s.bar4Shows n = true) :
    s.bar4 n = nth 0 s.cnt n + 2 ^ 48 * b2n (s.cntOvf n) := by
  obtain ⟨hen, hbit⟩ := (Bool.and_eq_true _ _).mp h
  simp [State.bar4, hen, hbit, hn]

theorem bar4_of_hidden {s : State} {n : Nat} (h : s.bar4Shows n = false) : s.bar4 n = 0 := by
  refine if_neg fun hc => ?_
  simp only [Bool.and_eq_true] at hc
  obtain ⟨⟨hen, -⟩, hbit⟩ := hc
  simp [State.bar4Shows, hen, hbit] at h

/-- The window has no counter at its offsets 0x800 to 0xFFF. -/
theorem bar4_past_end (s : State) {n : Nat} (hn : 256 ≤ n) : s.bar4 n = 0 := by
  simp [State.bar4, Nat.not_lt.2 hn]

/-- Settles O13: a counter has 48 bits, so OVF stands above it. -/
theorem userWindowShowsOnlyPermittedCounters : Obligations.UserWindowShowsOnlyPermittedCounters := by
  unfold Obligations.UserWindowShowsOnlyPermittedCounters
  intro s n hs
  refine ⟨fun hn hen hbit => ?_, fun _ hoff => ?_, bar4_past_end s⟩
  · have hv := cnt_lt_of_canonical hs n
    rw [bar4_of_shown hn (by simp [State.bar4Shows, hen, hbit])]
    constructor
    · rw [Nat.add_mul_mod_self_left, Nat.mod_eq_of_lt hv]
    · rw [Nat.add_mul_div_left _ _ (Nat.two_pow_pos 48), Nat.div_eq_of_lt hv, Nat.zero_add]
  · exact bar4_of_hidden ((Bool.and_eq_false_iff).2 hoff)

end Sys2Proof.Machine
end
